-- ==== Sys2Proof/Word.lean ====
section
/-!
DEFINITION. The word types of the block. Registers are 32 bits wide (R12); memory is addressed by bytes (R10).
-/

set_option Elab.async false

namespace Sys2Proof

/-- One byte (R10). -/
abbrev Byte := BitVec 8

/-- One 32-bit register or little-endian memory word (R12). -/
abbrev Word := BitVec 32

end Sys2Proof
end

