-- ==== Sys2Proof/Syntax.lean ====
section
/-!
DEFINITION. The commands of the block: one constructor of `Instr` for each row of spec/opcode_table.json
(each a whole, indivisible step, spec/95_what_each_step_holds.md), and the small types of their operands.
-/

set_option Elab.async false

namespace Sys2Proof

/-- Whose command it is: the next decoded command of a queue (R234), or the oldest unissued command that
core `c` of engine group `eg` posted with TL.POST (R221). -/
inductive Issuer where
  | queue (n : Nat)
  | core (eg c : Nat)
  deriving DecidableEq, Repr

/-- Who makes a register, memory or object access (R257, R538): the physical function of port `d`, virtual
function `v` (1 to 8) of port `d`, a service core, Sage (also for the management bus, R566), a Basil cluster
core, the command processor of a field, or the collective engine of die `d` acting for partition `p`. -/
inductive Requester where
  | pf (d : Nat)
  | vf (d v : Nat)
  | service (c : Nat)
  | sage
  | core (eg c : Nat)
  | cp (f p : Nat)
  | ce (d p : Nat)
  deriving DecidableEq, Repr

/-- What the error correction of R319 and R320 finds in arriving data. -/
inductive EccOutcome where
  /-- no error -/
  | clean
  /-- `n` granules corrected in the read path -/
  | corrected (n : Nat)
  /-- the granule at this device address is uncorrectable -/
  | uncorrectable (addr : Nat)
  deriving DecidableEq, Repr

/-- The window registers of R302. -/
inductive MemWindow where
  | t1 | ms | t2
  deriving DecidableEq, Repr

/-- The commands. Which unit's rules each follows is cited by its rule. -/
inductive Instr where
  /-- CP_DECODE (R247): The command processor of a field reads published command bytes from a ring and decodes them ahead of issue into its run-ahead window. -/
  | cpDecode (q : Nat)
  /-- NOP (R242): The NOP command completes OK 8 cycles after issue. -/
  | nop (i : Issuer)
  /-- SOOP (R242): The SOOP command sends one operation to a synchronisation object and stores its result if asked. -/
  | soop (i : Issuer)
  /-- SOWAIT (R256): The SOWAIT command issues and holds every later command of its queue until its wait condition holds. -/
  | sowait (i : Issuer)
  /-- SOWAIT_SATISFIED (R256): A waiting SOWAIT completes 20 or 36 cycles after the satisfying operation reaches its object, with ERR as status if ERR satisfied it. -/
  | sowaitSatisfied (i : Issuer)
  /-- BOUNDSET (R242): The BOUNDSET command writes one to four bound registers 8 cycles after issue and completes. -/
  | boundset (i : Issuer)
  /-- ESCALATE (R125): The ESCALATE command atomically raises LEVEL of each pending escalation entry below MAXLEVEL and clears PENDING. -/
  | escalate (i : Issuer)
  /-- DMA_COPY (R309): A DMA with OP COPY moves rows of bytes, with optional gather or scatter. -/
  | dmaCopy (i : Issuer)
  /-- DMA_CONVERT (R310): A DMA with OP CONVERT decodes, converts and quantises a tensor, with optional residual carry and MX layouts. -/
  | dmaConvert (i : Issuer)
  /-- DMA_ADD (R314): A DMA with OP ADD applies memory-side addition to each destination unit in T1. -/
  | dmaAdd (i : Issuer)
  /-- DMA_MAX (R314): A DMA with OP MAX applies memory-side maximum to each destination unit in T1. -/
  | dmaMax (i : Issuer)
  /-- DMA_MIN (R314): A DMA with OP MIN applies memory-side minimum to each destination unit in T1. -/
  | dmaMin (i : Issuer)
  /-- ATOMIC_WRITEBACK (R313): A channel writes back an updated unit of a memory-side atomic in the first owned data slot at least 256 cycles after its read slot. -/
  | atomicWriteback (c : Nat)
  /-- DMA_ENCODE (R338): A DMA with XC MODE ENCODE writes its data as an exponent-coded stream object. -/
  | dmaEncode (i : Issuer)
  /-- DMA_DECODE (R338): A DMA with XC MODE DECODE decodes a stream object into uncoded rows. -/
  | dmaDecode (i : Issuer)
  /-- TABLE_BUILD (R332): A DMA with XC TABLE and TOP = 0 builds a code table from its source into a record and a slot shadow. -/
  | tableBuild (i : Issuer)
  /-- TABLE_LOAD (R340): A DMA with XC TABLE and TOP = 1 validates a code-table record and writes it to a slot shadow. -/
  | tableLoad (i : Issuer)
  /-- MATMUL (R91): The matrix command reads its bounds, makes its issue checks and then waits for accumulator slots. -/
  | matmul (i : Issuer)
  /-- TE_SLOT_GRANT (R99): A waiting TE command is granted the lowest free accumulator slots once enough are free. -/
  | teSlotGrant (eg : Nat)
  /-- TE_STEP (R96): The tensor array performs one reduction step of one output tile. -/
  | teStep (eg k : Nat)
  /-- TILE_DRAIN (R86): A finished tile drains, scaled and converted, to C and frees its slot; the last drain posts completion 16 cycles later. -/
  | tileDrain (eg : Nat)
  /-- TLOAD (R243): The tile-load command loads panel tiles into operand SRAM in the engine layout and sets tensor-scale tags. -/
  | tload (i : Issuer)
  /-- SENTINEL (R117): The SENTINEL command samples output tiles by seed and recomputes probes on the Basil cluster. -/
  | sentinel (i : Issuer)
  /-- EVAL (R142): The SFU evaluates a function with fused scale, offset, multiplier and flush on each element. -/
  | eval (i : Issuer)
  /-- GATE (R142): The SFU evaluates a function and multiplies each result by the gate input. -/
  | gate (i : Issuer)
  /-- RMSNORM (R144): The SFU normalises each row by its root mean square. -/
  | rmsnorm (i : Issuer)
  /-- SOFTMAX (R146): The SFU updates each row's running maximum and sum and writes unnormalised probabilities. -/
  | softmax (i : Issuer)
  /-- SMRECOMP (R147): The SFU recomputes normalised probabilities from the saved LSE. -/
  | smrecomp (i : Issuer)
  /-- TBLLOAD (R150): The SFU segment-table load validates a table into the shadow copy of a slot and sets PENDING. -/
  | tblload (i : Issuer)
  /-- PATGEN (R160): The pattern generator writes the index and records of live 64 by 64 blocks. -/
  | patgen (i : Issuer)
  /-- APPEND_DIRECT (R168): A direct APPEND quantises keys and values into the pages of one key tile. -/
  | appendDirect (i : Issuer)
  /-- APPEND_STAGED (R170): A staged APPEND adds rows to a staging record and flushes full or requested pages. -/
  | appendStaged (i : Issuer)
  /-- ATTN (R175): The attention command computes one query tile's output over its live key tiles for its heads. -/
  | attn (i : Issuer)
  /-- CONV (R189): The convolution command runs as a matrix product whose operand A the WAG builds from the map. -/
  | conv (i : Issuer)
  /-- POOL_MAX (R198): POOL with OP MAX takes the maximum over valid taps per channel. -/
  | poolMax (i : Issuer)
  /-- POOL_AVGV (R199): POOL with OP AVGV averages the valid taps per channel. -/
  | poolAvgv (i : Issuer)
  /-- POOL_AVGF (R199): POOL with OP AVGF averages over the full window, padding counting as zero. -/
  | poolAvgf (i : Issuer)
  /-- ARGMAX (R200): POOL with OP ARGMAX writes each pixel's lowest maximal channel index. -/
  | argmax (i : Issuer)
  /-- CLRUN (R217): The cluster run command starts the selected Basil cores at ENTRY. -/
  | clrun (i : Issuer)
  /-- SEND (R367): SEND copies a local range to a remote address after a READY and GRANT. -/
  | send (i : Issuer)
  /-- QSEND (R368): QSEND quantises, optionally codes, and sends a wide tensor as Alhel bursts to a remote address. -/
  | qsend (i : Issuer)
  /-- ALLREDUCE (R376): A ring ALLREDUCE reduces all members' sources in the fixed order and writes the result to every member. -/
  | allreduce (i : Issuer)
  /-- REDUCESCATTER (R376): REDUCESCATTER writes chunk c of the reduction to rank c. -/
  | reducescatter (i : Issuer)
  /-- ALLGATHER (R375): ALLGATHER writes every member's source into block j of every destination. -/
  | allgather (i : Issuer)
  /-- REDUCE (R376): REDUCE writes the reduction to the root along one chain. -/
  | reduce (i : Issuer)
  /-- BROADCAST (R375): BROADCAST writes the root's source to every destination. -/
  | broadcast (i : Issuer)
  /-- ALLTOALL (R375): ALLTOALL exchanges block j of each source with rank j. -/
  | alltoall (i : Issuer)
  /-- PERMUTE (R380): PERMUTE moves each listed range to its destination rank once both ends have issued it. -/
  | permute (i : Issuer)
  /-- BARRIER (R375): BARRIER completes when every member has issued it. -/
  | barrier (i : Issuer)
  /-- GRPABORT (R382): GRPABORT completes the group's pending collectives with SEQ_MISMATCH, notifies members and halts the group. -/
  | grpabort (i : Issuer)
  /-- UPDATE (R460): The update command runs an update program on each parameter element after the gate and step checks. -/
  | update (i : Issuer)
  /-- BASIL_INSTRUCTION (R212): A Basil core issues one base or vector RISC-V instruction with fixed timing. -/
  | basilInstruction (eg c : Nat)
  /-- TL_POST (R221): A core posts a command into its engine group's command path and receives a ticket. -/
  | tlPost (eg c : Nat)
  /-- TL_DMA (R219): A core posts a DMA descriptor and receives a ticket. -/
  | tlDma (eg c : Nat)
  /-- TL_WAIT (R219): A core waits until a ticket completes and receives its status. -/
  | tlWait (eg c : Nat)
  /-- TICKET_COMPLETION (R220): A posted command's status returns through its ticket, releasing any TL.WAIT or held post. -/
  | ticketCompletion (eg c t : Nat)
  /-- TL_TEST (R219): A core reads a ticket's status, or 0xFF while it runs. -/
  | tlTest (eg c : Nat)
  /-- TL_END (R218): A core ends its part of a cluster program with a status code; CLRUN completes after the last core ends. -/
  | tlEnd (eg c : Nat)
  /-- SO_OP (R222): A core sends a synchronisation-object operation and receives its result. -/
  | soOp (eg c : Nat)
  /-- SO_WAIT (R219): A core waits on a synchronisation-object condition with an optional cycle limit. -/
  | soWait (eg c : Nat)
  /-- SO_WAIT_TIMEOUT (R219): An SO.WAIT whose cycle limit expires returns 1. -/
  | soWaitTimeout (eg c : Nat)
  /-- SO_CLAIM (R225): A work-counter claim grants indices when the generation matches. -/
  | soClaim (eg c : Nat)
  /-- TL_BLD (R223): A core loads and verifies one Alhel burst into its burst buffer. -/
  | tlBld (eg c : Nat)
  /-- TL_BDEC (R223): A core decodes one block of its burst buffer into an FP32 vector register. -/
  | tlBdec (eg c : Nat)
  /-- SO_READ (R254): The object returns its state unchanged. -/
  | soRead (who : Requester) (obj : Nat)
  /-- SO_SET (R254): The object sets VALUE to the operand. -/
  | soSet (who : Requester) (obj : Nat) (operand : Word)
  /-- SO_ADD (R254): The object adds the operand to VALUE modulo 2^32. -/
  | soAdd (who : Requester) (obj : Nat) (operand : Word)
  /-- SO_MAX (R254): The object sets VALUE to the unsigned maximum of VALUE and the operand. -/
  | soMax (who : Requester) (obj : Nat) (operand : Word)
  /-- SO_SETERR (R254): The object sets ERR to the operand if ERR is 0. -/
  | soSeterr (who : Requester) (obj : Nat) (operand : Word)
  /-- SO_CLRERR (R254): The object clears ERR. -/
  | soClrerr (who : Requester) (obj : Nat)
  /-- CRESET (R224): A counter-mode object resets NEXT, sets LIMIT and advances GEN. -/
  | creset (who : Requester) (obj : Nat) (operand : Word)
  /-- CREAD (R254): A counter-mode object returns its state unchanged. -/
  | cread (who : Requester) (obj : Nat)
  /-- COMPLETION_DRAIN (R261): A collector entry drains in its cycle and takes the record, object and event actions of its completion. -/
  | completionDrain (f e : Nat)
  /-- Q_DOORBELL (R235): A doorbell write publishes commands up to TAIL or is refused. -/
  | qDoorbell (who : Requester) (q : Nat) (v : Word)
  /-- Q_ENABLE (R260): Writing ENABLE from 0 to 1 checks both rings, clears HEAD and TAIL and restarts SEQ, or leaves ENABLE 0. -/
  | qEnable (who : Requester) (q : Nat) (v : Word)
  /-- Q_RESUME (R264): RESUME re-decodes the command at HEAD and restarts a halted queue. -/
  | qResume (who : Requester) (q : Nat) (v : Word)
  /-- Q_SKIP (R264): SKIP advances HEAD past the halted command and restarts the queue. -/
  | qSkip (who : Requester) (q : Nat) (v : Word)
  /-- CHEAD_WRITE (R266): A write of CHEAD records consumed completion records and clears CMPLOST. -/
  | cheadWrite (who : Requester) (q : Nat) (v : Word)
  /-- CP_WATCH_EXPIRY (R265): A queue halted or held by SOWAIT for CP_WATCH x 1,024 cycles posts one record per episode. -/
  | cpWatchExpiry (q : Nat)
  /-- SYNC_CFG_WRITE (R268): A SYNC_CFG write that changes MODE clears the object's state. -/
  | syncCfgWrite (who : Requester) (obj : Nat) (v : Word)
  /-- WHEEL_ENTRY_START (R441): A schedule wheel advances to its next entry, giving issue to that entry's job. -/
  | wheelEntryStart (eg : Nat)
  /-- JOB_SAVE (R450): CP_JCTL ACTION SAVE stops a job's issue and in-flight TE commands at their next step boundary. -/
  | jobSave (who : Requester) (p j : Nat)
  /-- SAVE_BEGIN (R450): Once a job's commands have stopped, its held slots and state records are written to its save area and the slots freed. -/
  | saveBegin (eg j : Nat)
  /-- JOB_RESUME (R452): CP_JCTL ACTION RESUME re-executes the reload list, restores slots and resumes the stopped steps. -/
  | jobResume (who : Requester) (p j : Nat)
  /-- JOB_STATS_CLEAR (R459): CP_JCTL ACTION 3 clears the job's histogram, deadline counts and wheel waiting. -/
  | jobStatsClear (who : Requester) (p j : Nat)
  /-- CP_JOB_WRITE (R440): A CP_JOB write that would oversubscribe slots, or lower a saved job's SLOTS, is ignored. -/
  | cpJobWrite (who : Requester) (n : Nat) (v : Word)
  /-- CP_WHEEL_WRITE (R445): A schedule-wheel write is ignored for running jobs or takes effect at entry 0. -/
  | cpWheelWrite (who : Requester) (isLen : Bool) (n : Nat) (v : Word)
  /-- PARTMAP_WRITE (R437): A SYS_PARTMAP block change takes effect only when both partitions are in Winter. -/
  | partmapWrite (who : Requester) (v : Word)
  /-- SYS_PARTCFG_WRITE (R447): A write of LEND or BORROWMAX sets a partition's lending mode while it is in Winter or Autumn. -/
  | sysPartcfgWrite (who : Requester) (p : Nat) (v : Word)
  /-- MEM_WINDOW_WRITE (R302): A memory window write is ignored if it breaks overlap or limit rules. -/
  | memWindowWrite (who : Requester) (win : MemWindow) (n : Nat) (v : Word)
  /-- MEM_WHEEL_WRITE (R446): A memory-wheel allocation write takes effect at slot 0 or is ignored for partitions in Spring or Summer. -/
  | memWheelWrite (who : Requester) (n : Nat) (v : Word)
  /-- MEM_SLOT_START (R295): A memory controller starts a wheel slot: a data access of its owner or borrower, or a refresh. -/
  | memSlotStart (c : Nat)
  /-- MEM_READ_ARRIVAL (R299): Read data from another clock domain lands in the compute domain at or after its due cycle. -/
  | memReadArrival (c late : Nat) (ecc : EccOutcome)
  /-- DATA_FRAME (R359): A received DATA frame is checked, accepted in order and delivered or discarded with a NAK. -/
  | dataFrame (k : Nat) (raw : List Byte)
  /-- HEAD_FRAME (R366): A received HEAD frame opens a PUT, QPUT or CDATA message. -/
  | headFrame (k : Nat) (raw : List Byte)
  /-- CTRL_FRAME (R366): A received CTRL frame carries a one-frame control message. -/
  | ctrlFrame (k : Nat) (raw : List Byte)
  /-- READY (R379): A READY from a sender is compared and answered with GRANT, REPLY or a NOTICE. -/
  | ready (d : Nat)
  /-- GRANT (R379): A GRANT lets the sender proceed after comparison of sequence, signature and step. -/
  | grant (d : Nat)
  /-- LANDACK (R369): A LANDACK confirms a landed message; the last completes the send, with SLOT_MISS if after DUE. -/
  | landack (d : Nat)
  /-- REPLY (R370): A REPLY reports TARGET_IN_RESET or QUOTA_EXCEEDED to the sender. -/
  | reply (d : Nat)
  /-- NOTICE (R379): A NOTICE completes the member's current collective of the group with the notified code. -/
  | notice (d : Nat)
  /-- ALIGN_FRAME (R357): A received ALIGN frame maintains lane alignment. -/
  | alignFrame (k : Nat) (raw : List Byte)
  /-- TRAIN_FRAME (R349): A received TRAIN frame carries training results and neighbour identity. -/
  | trainFrame (k : Nat) (raw : List Byte)
  /-- CREDIT_FRAME (R357): A received CREDIT frame returns credits for a virtual channel. -/
  | creditFrame (k : Nat) (raw : List Byte)
  /-- IDLE_FRAME (R357): A received IDLE frame carries only neighbour ACK, NAK and credit fields. -/
  | idleFrame (k : Nat) (raw : List Byte)
  /-- REPLAY_TIMEOUT (R359): ACK not advancing for 4 us with frames outstanding makes the sender replay from the oldest. -/
  | replayTimeout (k : Nat)
  /-- SWITCH_SLOT (R363): An egress switch-wheel entry takes one frame from its named source if it holds one with credit. -/
  | switchSlot (k : Nat)
  /-- LINK_RETRAIN_TRIGGER (R351): Loss of lock on an active lane or 32 successive NAKs starts a retraining of the port. -/
  | linkRetrainTrigger (k : Nat) (lockLost : Bool)
  /-- LINK_TRAINING_DONE (R350): A finished training selects lanes, checks the neighbour and brings the port up, degraded or down. -/
  | linkTrainingDone (k : Nat) (good : BitVec 18)
  /-- TRAINING_STAGE_TIMEOUT (R349): A link training stage that exceeds its limit ends the stage. -/
  | trainingStageTimeout (k : Nat)
  /-- LINK_TRAIN_RETRY (R350): A down port tries training again every 1 s. -/
  | linkTrainRetry (k : Nat)
  /-- LNK_RETRAIN (R386): A write of RETRAIN to LNK_CFG retrains the port now. -/
  | lnkRetrain (who : Requester) (n : Nat) (v : Word)
  /-- READY_RETRY (R370): After TARGET_IN_RESET a sender resends READY every INTERVAL until GRANT or LIMIT. -/
  | readyRetry (d n : Nat)
  /-- COLL_WATCH (R382): A collective or send pending for CE_COLLWATCH posts the COLL_WATCH record once per episode. -/
  | collWatch (d n : Nat)
  /-- GROUP_ENABLE (R372): CE_GRPCTL ENABLE reads and checks a group entry and makes the group READY or posts an event. -/
  | groupEnable (who : Requester) (g : Nat)
  /-- GROUP_RESET (R382): CE_GRPCTL RESET returns a halted group to READY. -/
  | groupReset (who : Requester) (g : Nat)
  /-- GROUP_DISABLE (R372): CE_GRPCTL DISABLE releases a group's reserved area unless collectives are pending. -/
  | groupDisable (who : Requester) (g : Nat)
  /-- GROUP_ABORT (R382): CE_GRPCTL ABORT acts as GRPABORT for the group. -/
  | groupAbort (who : Requester) (g : Nat)
  /-- ETH_FRAME_RECEIVE (R391): A received Ethernet frame is classified as ARP, Neighbor Solicitation, echo, Birsan or foreign. -/
  | ethFrameReceive (e : Nat) (raw : List Byte)
  /-- ARP_REQUEST (R391): An ARP request for a port address is answered by Sceman. -/
  | arpRequest (e : Nat)
  /-- NEIGHBOR_SOLICITATION (R391): An IPv6 Neighbor Solicitation is answered by Sceman. -/
  | neighborSolicitation (e : Nat)
  /-- ECHO_REQUEST (R391): An ICMP or ICMPv6 echo request is answered within the rate limit. -/
  | echoRequest (e : Nat)
  /-- COOKIE (R396): A received COOKIE lets the initiator send INIT again with the cookie. -/
  | cookie (e : Nat)
  /-- INIT (R397): A received INIT is answered with a COOKIE, kept as a fragment, or dropped. -/
  | init (e : Nat)
  /-- RESP (R396): A received RESP is verified by the initiator, which sends CONFIRM. -/
  | resp (e : Nat)
  /-- CONFIRM (R396): A verified CONFIRM makes the session OPEN. -/
  | confirm (e : Nat)
  /-- BIRSAN_DATA (R401): A received DATA packet places message bytes at OFFSET and delivers complete messages. -/
  | birsanData (e : Nat)
  /-- ACK (R402): A received ACK frees acknowledged packets, detects losses and adjusts each path's window. -/
  | ack (e : Nat)
  /-- CLOSE (R406): A received CLOSE closes the session and discards undelivered messages. -/
  | close (e : Nat)
  /-- BIRSAN_SEND (R404): The sender sends a paced packet on the path with the most room when the windows allow. -/
  | birsanSend (sid : Nat)
  /-- ACK_DELAY_EXPIRY (R402): 20 us after the oldest unacknowledged DATA packet, the receiver sends an ACK. -/
  | ackDelayExpiry (sid : Nat)
  /-- RETRANSMISSION_TIMEOUT (R403): A packet's retransmission timer expires; the packet is resent and its path window shrinks. -/
  | retransmissionTimeout (sid psn : Nat)
  /-- KEEPALIVE (R400): An OPEN session silent for 10 s sends an ACK. -/
  | keepalive (sid : Nat)
  /-- SESSION_IDLE_TIMEOUT (R400): 30 s without an authenticated packet closes the session. -/
  | sessionIdleTimeout (sid : Nat)
  /-- HANDSHAKE_TIMEOUT (R400): A handshake not completed within 1 s closes. -/
  | handshakeTimeout (sid : Nat)
  /-- COOKIE_SECRET_CHANGE (R396): The cookie secret changes every 60 s. -/
  | cookieSecretChange
  /-- REKEY (R399): A direction's CTR reaching 2^39 starts a new handshake, and 2^40 without new keys closes the session. -/
  | rekey (sid : Nat)
  /-- OLD_KEY_EXPIRY (R399): Old keys stop being accepted 1 ms after the first packet under the new keys. -/
  | oldKeyExpiry (sid : Nat)
  /-- SUBMIT (R410): A SUBMIT is checked in order and answered ACCEPTED or REFUSED. -/
  | submit (sid : Nat)
  /-- CANCEL (R412): A CANCEL ends a queued or running request with REASON 9. -/
  | cancel (sid : Nat)
  /-- QUERY (R407): A QUERY returns a request's STATE and delivers held segments. -/
  | query (sid : Nat)
  /-- REQUEST_PLACEMENT (R411): Sceman places a queue head on the lowest suitable idle chain with budget and starts it. -/
  | requestPlacement (cls : Nat)
  /-- REQUEST_COMPLETE (R412): A finished, failed or reset request is reported with COMPLETE and releases its reservation. -/
  | requestComplete (req : Nat) (status : Byte)
  /-- SESSION_LOST_TIMEOUT (R412): A running request with no session of its tenant for 30 s is cancelled with REASON 10. -/
  | sessionLostTimeout (req : Nat)
  /-- ETH_RETRAIN (R415): A write of RETRAIN to ETH_CFG takes the port down and trains it. -/
  | ethRetrain (who : Requester) (n : Nat) (v : Word)
  /-- ETH_LINK_LOSS (R415): Loss of PCS alignment or FEC lock for 10 ms retrains the Ethernet port. -/
  | ethLinkLoss (e : Nat)
  /-- FEN_PDQTAIL (R424): A write of TAIL publishes picture descriptors or is refused. -/
  | fenPdqtail (who : Requester) (v : Word)
  /-- FEN_ENABLE (R435): Setting ENABLE clears HEAD and starts execution; clearing it stops after the running picture. -/
  | fenEnable (who : Requester) (v : Word)
  /-- FEN_ENCODE (R431): Fennel starts an ENCODE descriptor, switching context if needed, and codes the picture with row-level rate control. -/
  | fenEncode
  /-- FEN_DECODE (R416): Fennel starts a DECODE descriptor and decodes the picture into its pool entry. -/
  | fenDecode
  /-- PICTURE_COMPLETE (R423): A finished picture writes its status area, sets VALID of DEST on success, advances HEAD and interrupts its service core. -/
  | pictureComplete (fcycles slotMisses : Nat)
  /-- ENERGY_SAMPLE (R478): Each 10 us sample divides the measured energy among the nine accounts. -/
  | energySample (microjoules : Nat)
  /-- ENERGY_WINDOW_END (R484): Each 10 ms window reports account energy, counts budget overruns and steps the window limiter. -/
  | energyWindowEnd
  /-- FAST_LIMITER_READING (R487): Each 1 us power reading lowers or raises the fast-limiter level. -/
  | fastLimiterReading (watts : Nat)
  /-- THERMAL_SAMPLE (R493): Every 10 us the sensors are read and the thermal level adjusted. -/
  | thermalSample (temps : List Nat)
  /-- CLOCK_SLEW_STEP (R486): The compute PLL moves one level toward the target every 200 ns. -/
  | clockSlewStep
  /-- DROOP_DETECT (R490): A droop above 4 % doubles every compute cycle period while it lasts. -/
  | droopDetect
  /-- DROOP_END (R490): The end of a droop returns the period over 1 us in 16 steps. -/
  | droopEnd
  /-- THROTTLE_N_CHANGE (R491): A filtered THROTTLE_N level is honoured, setting or releasing the floor-clock target. -/
  | throttleNChange (active : Bool)
  /-- THROTTLE_HOLD_END (R491): At the end of the 100 us hold the current filtered level is honoured if it differs. -/
  | throttleHoldEnd
  /-- THROTTLE_STUCK (R492): THROTTLE_N honoured active for 10 s posts THROTTLE_STUCK and sets STUCK. -/
  | throttleStuck
  /-- PWR_CAP_WRITE (R480): A PWR_CAP write outside the limits, or after LOCK, is ignored. -/
  | pwrCapWrite (who : Requester) (v : Word)
  /-- PWR_BUDGET_WRITE (R481): A budget or reserve write exceeding WINCAP is ignored. -/
  | pwrBudgetWrite (who : Requester) (n : Nat) (v : Word)
  /-- RESET_N_ASSERT (R512): RESET_N low puts the module in module reset. -/
  | resetNAssert (ns : Nat)
  /-- RESET_N_RELEASE (R561): RESET_N released with PWRGOOD high ramps the rails and starts a boot attempt. -/
  | resetNRelease
  /-- PWRGOOD_LOW (R562): PWRGOOD honoured low puts the module in module reset within 20 us. -/
  | pwrgoodLow
  /-- PWRGOOD_HIGH (R561): PWRGOOD honoured high allows the rails to ramp. -/
  | pwrgoodHigh
  /-- CRST_N_ASSERT (R512): CRST_N honoured active puts the compute die in Winter while the I/O dies stay up. -/
  | crstNAssert
  /-- CRST_N_RELEASE (R509): CRST_N released lets a boot attempt take the die to Spring. -/
  | crstNRelease
  /-- PERST_ASSERT (R535): PERST_A_N or PERST_B_N resets its PCIe port and functions. -/
  | perstAssert (d : Nat)
  /-- PERST_RELEASE (R563): Release of PERST lets the port train within 20 ms. -/
  | perstRelease (d : Nat)
  /-- SAGE_WATCHDOG (R527): Sage unserviced for 1 s causes a module reset. -/
  | sageWatchdog
  /-- INPUT_POWER_ON (R561): The input reaching 36 V starts the hot-swap charge and then the always-on rail. -/
  | inputPowerOn
  /-- INPUT_UNDERVOLTAGE (R560): An input below 34.0 V turns all rails off. -/
  | inputUndervoltage
  /-- INPUT_OVERVOLTAGE (R560): An input above 47.0 V for 10 us turns all rails off. -/
  | inputOvervoltage
  /-- INPUT_OVERCURRENT (R560): Excess input current turns all rails off and restarts 1 s later. -/
  | inputOvercurrent
  /-- POWER_STAGE_OVERTEMP (R560): A power stage above 125 C acts as a critical I/O-die reading. -/
  | powerStageOvertemp
  /-- PRESENT_N_MATE (R559): PRESENT_N mating lets the hot-swap stage start conversion. -/
  | presentNMate
  /-- SERDES_REFCLK_LOSS (R350): Loss of a port's 156.25 MHz reference takes the port down with LINK_DEGRADED. -/
  | serdesRefclkLoss (k : Nat)
  /-- PCIE_REFCLK_LOSS (R535): Loss of a PCIe reference, link or partner takes the port down and clears its functions. -/
  | pcieRefclkLoss (d : Nat)
  /-- ALWAYS_ON_CLOCK_LOSS (R512): Loss of the 25 MHz oscillator holds the module in reset until it returns. -/
  | alwaysOnClockLoss
  /-- PARTITION_SPRING (R510): REQ = SPRING clears the partition's on-die state, broadcasts firmware and loads tables. -/
  | partitionSpring (who : Requester) (p : Nat)
  /-- PARTITION_CLEARING_END (R510): The end of partition clearing puts the partition in Summer and starts its wheels. -/
  | partitionClearingEnd (p : Nat)
  /-- PARTITION_AUTUMN (R511): REQ = AUTUMN refuses doorbells, stops issue and completes waiting SOWAITs with TARGET_IN_RESET. -/
  | partitionAutumn (who : Requester) (p : Nat)
  /-- PARTITION_DRAINED (R511): An Autumn partition with nothing in flight enters Winter. -/
  | partitionDrained (p : Nat)
  /-- AUTUMN_LIMIT_EXPIRY (R511): SYS_AUTUMNLIM expiring applies the partition reset. -/
  | autumnLimitExpiry (p : Nat)
  /-- PARTITION_RESET (R513): REQ = RESET stops the partition's units, discards its commands and resets its queues and objects. -/
  | partitionReset (who : Requester) (p : Nat)
  /-- BOOT_ROM (R517): Stage 0 self-tests and clears Sage SRAM, reads fuses and latches the UDS. -/
  | bootRom
  /-- BOOT_HOST (R517): Stage 1 brings up P0, P1 and the management bus. -/
  | bootHost
  /-- BOOT_FLASH (R520): Stage 2 reads the flash once and verifies both signatures of the image and the blob. -/
  | bootFlash
  /-- BOOT_IOD (R522): Stage 3 trains LP5X, releases service cores and Fennel and applies configuration records. -/
  | bootIod (failed : List Nat)
  /-- BOOT_LINKS (R517): Stage 4 trains the torus ports and brings up Ethernet PCS. -/
  | bootLinks
  /-- BOOT_HBM (R324): Stage 5 puts the die in Spring and trains and repairs every HBM3E channel. -/
  | bootHbm (repairs : List (Nat × Word))
  /-- POWER_WAVE (R523): Every 2 ms one engine-group block is powered and its SRAMs self-tested and repaired. -/
  | powerWave (good : Bool)
  /-- BOOT_BROADCAST (R524): Stage 7 multicasts the Basil firmware and loads SFU factory tables. -/
  | bootBroadcast (good : Bool)
  /-- BOOT_SELFTEST (R525): Stage 8 runs logic self-test and then the die enters Summer. -/
  | bootSelftest (failing : Option Nat)
  /-- BOOT_STAGE_TIMEOUT (R517): A boot stage exceeding its limit fails the attempt with CAUSE = 1. -/
  | bootStageTimeout
  /-- BOOT_BACKOFF_EXPIRY (R526): The backoff after a failure ends and the next boot attempt starts. -/
  | bootBackoffExpiry
  /-- GO (R527): A write of GO runs the next stage in host step mode. -/
  | go (who : Requester)
  /-- RESTART (R527): A write of RESTART ends any wait or backoff and starts an attempt at stage 0. -/
  | restart (who : Requester)
  /-- FLASH_UPDATE (R527): A write of UPDATE verifies an image, writes it to the other slot, reads it back and updates the directory. -/
  | flashUpdate (who : Requester)
  /-- ALERTCLR (R564): A write of ALERTCLR releases ALERT_N until a new condition arises. -/
  | alertclr (who : Requester)
  /-- COMMITSVN (R532): A write of COMMITSVN fuses MINSVN to the running image's SVN. -/
  | commitsvn (who : Requester)
  /-- OWNERPROG (R532): A write of OWNERPROG fuses the owner key hashes unless already programmed. -/
  | ownerprog (who : Requester)
  /-- BAR2_READ (R540): A host BAR2 read of device memory is checked against the windows and served in the partition's slots. -/
  | bar2Read (who : Requester) (addr len : Nat)
  /-- BAR2_WRITE (R540): A host BAR2 write to device memory is checked against the windows and served in order. -/
  | bar2Write (who : Requester) (addr : Nat) (data : List Byte)
  /-- REG_WRITE (R13): A write to a register without a row of its own acts by its access type and the block's rules. -/
  | regWrite (who : Requester) (offset : Nat) (v : Word)
  /-- REG_READ_LO (R12): A read of a _LO register captures the _HI value for the next _HI read. -/
  | regReadLo (who : Requester) (offset : Nat)
  /-- PCI_FNMAP_WRITE (R537): A VF mapping write is ignored if two VFs of one port would map one partition. -/
  | pciFnmapWrite (who : Requester) (n : Nat) (v : Word)
  /-- FLR (R539): Function Level Reset clears a function's configuration and may reset the mapped partition. -/
  | flr (d fn : Nat)
  /-- D3HOT (R539): A function in D3hot refuses its accesses until it returns to D0. -/
  | d3hot (d fn : Nat) (enter : Bool)
  /-- PCIE_LINK_UP (R534): A PCIe port trains to the highest common generation and width. -/
  | pcieLinkUp (d speed width : Nat) (flit : Bool)
  /-- GET_VERSION (R530): The SPDM GET_VERSION request is answered over DOE. -/
  | getVersion (d : Nat) (req : List Byte)
  /-- GET_CAPABILITIES (R530): The SPDM GET_CAPABILITIES request is answered. -/
  | getCapabilities (d : Nat) (req : List Byte)
  /-- NEGOTIATE_ALGORITHMS (R530): The SPDM NEGOTIATE_ALGORITHMS request selects P-384 and SHA-384. -/
  | negotiateAlgorithms (d : Nat) (req : List Byte)
  /-- GET_DIGESTS (R530): The SPDM GET_DIGESTS request is answered. -/
  | getDigests (d : Nat) (req : List Byte)
  /-- GET_CERTIFICATE (R530): The SPDM GET_CERTIFICATE request returns the slot 0 chain. -/
  | getCertificate (d : Nat) (req : List Byte)
  /-- CHALLENGE (R530): The SPDM CHALLENGE request is signed with ECDSA and an alias LMS signature. -/
  | challenge (d : Nat) (req : List Byte)
  /-- GET_MEASUREMENTS (R531): The SPDM GET_MEASUREMENTS request returns the signed measurement blocks. -/
  | getMeasurements (d : Nat) (req : List Byte)
  /-- VENDOR_DEFINED_REQUEST (R530): The vendor-defined request returns the alias LMS signature of the last transcript. -/
  | vendorDefinedRequest (d : Nat) (req : List Byte)
  /-- SYS_EVCFG_ENABLE (R553): Setting EN of an event ring checks its placement or leaves EN 0. -/
  | sysEvcfgEnable (who : Requester) (n : Nat) (v : Word)
  /-- EVHEAD_WRITE (R553): A write of EVHEAD records consumed event records and clears SYS_EVLOST. -/
  | evheadWrite (who : Requester) (n : Nat) (v : Word)
  /-- MGMT_WRITE (R566): Management-bus command 0x10 writes one permitted register. -/
  | mgmtWrite (offset : Nat) (v : Word) (pecOk : Bool)
  /-- MGMT_READ_START (R566): Management-bus command 0x11 starts a register read. -/
  | mgmtReadStart (offset : Nat) (pecOk : Bool)
  /-- MGMT_READ_RESULT (R566): Management-bus command 0x12 returns the status and data of the last access. -/
  | mgmtReadResult
  /-- SETDASA (R565): An I3C dynamic address assignment makes the module an I3C target. -/
  | setdasa (addr : Nat)
  /-- RSTDAA (R565): RSTDAA returns the module to SMBus. -/
  | rstdaa
  /-- ALERT_RESPONSE (R564): Sage answers the SMBus Alert Response Address only while its own condition is pending. -/
  | alertResponse
  /-- TE_CVTCLR (R75): A write of CLEAR clears the engine group's conversion counters. -/
  | teCvtclr (who : Requester) (n : Nat)
  /-- TE_SPILLCLR (R106): A write of CLEAR clears TE_SPILLCNT. -/
  | teSpillclr (who : Requester) (n : Nat)
  /-- EG_SENTCLR (R126): A write of CLEAR clears EG_SENTSTAT. -/
  | egSentclr (who : Requester) (n : Nat)
  /-- SFU_STATCLR (R153): A write of CLEAR clears SFU_STAT. -/
  | sfuStatclr (who : Requester) (n : Nat)
  /-- CP_STATCLR (R267): A write of CLEAR clears SQUASHCNT. -/
  | cpStatclr (who : Requester) (n : Nat)
  /-- MEM_STATCLR (R327): A write of CLEAR clears the controller's ECC and slot-miss counts. -/
  | memStatclr (who : Requester) (n : Nat)
  /-- CMP_STATCLR (R346): A write of CLEAR clears CMP_STAT of a coder. -/
  | cmpStatclr (who : Requester) (n : Nat)
  /-- LNK_STATCLR (R386): A write of CLEAR clears LNK_ERRCNT. -/
  | lnkStatclr (who : Requester) (n : Nat)
  /-- ETH_DROPCLR (R415): A write of CLEAR clears ETH_DROP. -/
  | ethDropclr (who : Requester) (n : Nat)
  /-- TRN_STATCLR (R475): A write of CLEAR clears TRN_STAT and TRN_FROZEN. -/
  | trnStatclr (who : Requester) (n : Nat)
  /-- PWR_STATCLR (R495): A write of CLEAR clears PWR_OVER and SAGCNT. -/
  | pwrStatclr (who : Requester)
  /-- SYS_DETCLR (R506): A write of CLEAR clears MISSES and OVERRUNS. -/
  | sysDetclr (who : Requester) (n : Nat)
  /-- CP_WSTATCLR (R459): A write of CLEAR clears OVERRUNS of a wheel. -/
  | cpWstatclr (who : Requester) (n : Nat)
  /-- ERRCLR (R554): A write of ERRCLR clears PCI_ERRCNT of the port. -/
  | errclr (who : Requester) (n : Nat)
  /-- CRST_N_HOLD_END (R515): At the end of the 100 us hold after an honoured CRST_N change, the current filtered level is honoured if it differs. -/
  | crstNHoldEnd
  /-- SERDES_REFCLK_RETURN (R567): The return of a port's 156.25 MHz reference makes the downed port retrain. -/
  | serdesRefclkReturn (k : Nat)
  /-- ALWAYS_ON_CLOCK_RETURN (R567): The return of the 25 MHz always-on oscillator releases the module from the reset it held itself in. -/
  | alwaysOnClockReturn
  /-- ETH_PORT_UP (R415): An Ethernet port finishes training and comes up under the configuration present when training began. -/
  | ethPortUp (e : Nat)
  /-- OVERCURRENT_RESTART (R560): One second after an input overcurrent shutdown the module starts its rails again. -/
  | overcurrentRestart
  /-- INPUT_OVERVOLTAGE_RECOVERY (R560): An input that falls below 45.0 V after an overvoltage shutdown lets the module restart. -/
  | inputOvervoltageRecovery
  /-- VF_ENABLE (R537): Enabling or disabling a VF in its SR-IOV control gives or removes its access and lets its mapping change. -/
  | vfEnable (d v : Nat) (on : Bool)
  /-- TENANT_TABLE_REWRITE (R457): An OPERATOR session rewrites Sceman's tenant table or class table. -/
  | tenantTableRewrite (sid : Nat) (isClass : Bool) (recs : List (List Byte))
  deriving DecidableEq, Repr

end Sys2Proof
end

