-- ==== Sys2Proof/Decode.lean ====
section
/-!
DEFINITION. The opcode table gives no row a bit pattern: a command of this block is an event or an access, not a word. So no
word spells a command. (The commands that the block itself decodes from ring bytes, R239 and R240, are decoded by CP_DECODE in
Sys2Proof/Machine/Path.lean and at issue in the family files.)
-/

set_option Elab.async false

namespace Sys2Proof

/-- The command that a word spells by the opcode table's bits: no row of the table gives bits. -/
def decodeTableWord (_nbits _w : Nat) : Option Instr := none

end Sys2Proof
end

