-- ==== Sys2Proof/Machine/Bytes.lean ====
section
/-!
DEFINITION. Byte strings and bit fields: little-endian numbers (R10), bit fields of numbers, signed readings, saturating
counts (R554 and the like: "counts stop at their maximum") and the CRC-24 of R68.
-/

set_option Elab.async false

namespace Sys2Proof.Machine

open Sys2Proof

/-- The number a little-endian byte string holds (R10). -/
def leNat : List Byte → Nat
  | [] => 0
  | b :: r => b.toNat + 256 * leNat r

/-- The `n` low bytes of a number, lowest first (R10). -/
def leBytes : Nat → Nat → List Byte
  | 0, _ => []
  | n + 1, v => BitVec.ofNat 8 v :: leBytes n (v / 256)

/-- The `n` bytes of a string from offset `off`. -/
def sub (bs : List Byte) (off n : Nat) : List Byte := (bs.drop off).take n

/-- The little-endian number in the `n` bytes at offset `off`. -/
def num (bs : List Byte) (off n : Nat) : Nat := leNat (sub bs off n)

/-- Bits [lo + w - 1 : lo] of a number. -/
def bits (v lo w : Nat) : Nat := v / 2 ^ lo % 2 ^ w

/-- Bit `i` of a number. -/
def bit (v i : Nat) : Bool := v / 2 ^ i % 2 == 1

/-- The signed reading of a `w`-bit number. -/
def signed (w v : Nat) : Int :=
  let u := v % 2 ^ w
  if 2 * u < 2 ^ w then (u : Int) else (u : Int) - (2 ^ w : Nat)

/-- The `w`-bit two's-complement form of an integer. -/
def unsigned (w : Nat) (i : Int) : Nat := (i % ((2 ^ w : Nat) : Int)).toNat

/-- A count that stops at the largest value of `w` bits. -/
def satAdd (w a b : Nat) : Nat := min (a + b) (2 ^ w - 1)

/-- Quotient rounded up. -/
def ceilDiv (a b : Nat) : Nat := (a + b - 1) / b

/-- One bit as a number. -/
def b2n (b : Bool) : Nat := if b then 1 else 0

/-- Replaces the bytes of `bs` from offset `off` by `new`. -/
def patch (bs : List Byte) (off : Nat) (new : List Byte) : List Byte :=
  bs.take off ++ new ++ bs.drop (off + new.length)

/-- Whether every byte of a string is 0. -/
def allZero (bs : List Byte) : Bool := bs.all (fun b => b == 0#8)

/-- `bs` cut or filled with zero bytes to length `n`. -/
def padTo (n : Nat) (bs : List Byte) : List Byte := (bs ++ List.replicate (n - bs.length) 0#8).take n

/-- Cuts a string into pieces of `n` bytes, at most as many as the second argument says; the last may be shorter. -/
def pieces (n : Nat) : Nat → List Byte → List (List Byte)
  | 0, _ => []
  | k + 1, bs => if bs.isEmpty then [] else bs.take n :: pieces n k (bs.drop n)

end Sys2Proof.Machine
end

