-- ==== Sys2Proof/Machine/Floats.lean ====
section
/-!
DEFINITION. Exact values of float formats and correctly rounded arithmetic on them (R40, R41, R56, R57). A value is a NaN, an
infinity, or a dyadic number with its sign, so products and sums are exact and rounding is one explicit step.
-/

set_option Elab.async false

namespace Sys2Proof.Machine

/-- A value: NaN (payloads and signs are not kept, R41), an infinity, or (-1)^neg x m x 2^e. -/
inductive FVal where
  | nan
  | inf (neg : Bool)
  | fin (neg : Bool) (m : Nat) (e : Int)
  deriving DecidableEq, Repr

namespace FVal

/-- +0. -/
def zero : FVal := .fin false 0 0

/-- 1. -/
def one : FVal := .fin false 1 0

/-- An integer. -/
def ofInt (i : Int) : FVal := .fin (decide (i < 0)) i.natAbs 0

/-- A natural number. -/
def ofNat (n : Nat) : FVal := .fin false n 0

/-- Whether the value is a zero of either sign. -/
def isZero : FVal → Bool
  | .fin _ m _ => m == 0
  | _ => false

/-- Whether the value is finite. -/
def isFin : FVal → Bool
  | .fin _ _ _ => true
  | _ => false

/-- Whether the value is a NaN. -/
def isNan : FVal → Bool
  | .nan => true
  | _ => false

/-- The sign bit; false for a NaN. -/
def sign : FVal → Bool
  | .fin s _ _ => s
  | .inf s => s
  | .nan => false

/-- The value with the sign changed. -/
def neg : FVal → FVal
  | .nan => .nan
  | .inf s => .inf (!s)
  | .fin s m e => .fin (!s) m e

/-- The magnitude. -/
def abs : FVal → FVal
  | .nan => .nan
  | .inf _ => .inf false
  | .fin _ m e => .fin false m e

/-- x 2^k. -/
def scale (k : Int) : FVal → FVal
  | .fin s m e => .fin s m (e + k)
  | v => v

/-- The mantissa of a finite value over the exponent `e0`, when `e0` is not above its own exponent. -/
def atExp (e0 : Int) (m : Nat) (e : Int) : Nat := m * 2 ^ (e - e0).toNat

/-- The exact signed mantissa over exponent `e0`. -/
def sOver (e0 : Int) (neg : Bool) (m : Nat) (e : Int) : Int :=
  if neg then -(atExp e0 m e : Int) else (atExp e0 m e : Int)

/-- The exact product (IEEE 754 for special values). -/
def mul : FVal → FVal → FVal
  | .nan, _ => .nan
  | _, .nan => .nan
  | .inf s, .inf t => .inf (s != t)
  | .inf s, .fin t m _ => if m = 0 then .nan else .inf (s != t)
  | .fin s m _, .inf t => if m = 0 then .nan else .inf (s != t)
  | .fin s m e, .fin t n f => .fin (s != t) (m * n) (e + f)

/-- The exact sum, with the zero signs of round to nearest even (IEEE 754). -/
def add : FVal → FVal → FVal
  | .nan, _ => .nan
  | _, .nan => .nan
  | .inf s, .inf t => if s == t then .inf s else .nan
  | .inf s, .fin _ _ _ => .inf s
  | .fin _ _ _, .inf t => .inf t
  | .fin s m e, .fin t n f =>
    let e0 := min e f
    let v := sOver e0 s m e + sOver e0 t n f
    if v = 0 then .fin (s && t) 0 e0 else .fin (decide (v < 0)) v.natAbs e0

/-- The exact difference. -/
def sub (x y : FVal) : FVal := add x y.neg

/-- ⌊log₂⌋ of a nonzero finite magnitude. -/
def exponent (m : Nat) (e : Int) : Int := (Nat.log2 m : Int) + e

/-- Compares two values that are not NaN: -1, 0 or 1; zeros are equal. -/
def cmp : FVal → FVal → Int
  | .inf s, .inf t => if s == t then 0 else if s then -1 else 1
  | .inf s, .fin _ _ _ => if s then -1 else 1
  | .fin _ _ _, .inf t => if t then 1 else -1
  | .fin s m e, .fin t n f =>
    let e0 := min e f
    let a := sOver e0 s m e
    let b := sOver e0 t n f
    if a < b then -1 else if a = b then 0 else 1
  | _, _ => 0

/-- x < y; false when either is a NaN. -/
def lt (x y : FVal) : Bool := !x.isNan && !y.isNan && cmp x y == -1

/-- x = y as numbers; false when either is a NaN. -/
def eq (x y : FVal) : Bool := !x.isNan && !y.isNan && cmp x y == 0

/-- x ≤ y; false when either is a NaN. -/
def le (x y : FVal) : Bool := lt x y || eq x y

/-- The value as an integer toward zero; 0 for values that are not finite. -/
def trunc : FVal → Int
  | .fin s m e =>
    let n : Nat := if e < 0 then m / 2 ^ (-e).toNat else m * 2 ^ e.toNat
    if s then -(n : Int) else (n : Int)
  | _ => 0

/-- ⌊value⌋; 0 for values that are not finite. -/
def floor : FVal → Int
  | .fin s m e =>
    let t := (FVal.fin s m e).trunc
    if s ∧ e < 0 ∧ m % 2 ^ (-e).toNat ≠ 0 then t - 1 else t
  | _ => 0

end FVal

/-- How a magnitude between two neighbouring codes is decided. -/
inductive Rounding where
  | rne
  /-- stochastic rounding with the 16-bit draw r (R57) -/
  | sr (r : Nat)
  /-- toward +infinity on magnitudes (the block scale of R51) -/
  | up
  /-- toward zero -/
  | down
  /-- to nearest, ties away from zero -/
  | away
  deriving DecidableEq, Repr

/-- Chooses between code `c` and `c + 1` for a magnitude that lies `rem / den` of the way from one to the next. -/
def Rounding.choose (r : Rounding) (c rem den : Nat) : Nat :=
  match r with
  | .rne => if 2 * rem < den then c else if 2 * rem > den then c + 1 else if c % 2 = 0 then c else c + 1
  | .sr d => if rem * 65536 / den + d ≥ 65536 then c + 1 else c
  | .up => if rem = 0 then c else c + 1
  | .down => c
  | .away => if 2 * rem < den then c else c + 1

/-- The magnitude code of m x 2^e on the grid of a format with `man` mantissa bits and bias `bias`, exponents unbounded above
(R40): codes count the representable magnitudes upward from zero. -/
def magCode (man : Nat) (bias : Int) (r : Rounding) (m : Nat) (e : Int) : Nat :=
  if m = 0 then 0 else
  let ex := FVal.exponent m e
  let q := max (ex - man) (1 - bias - man)
  if q ≤ e then
    let n := m * 2 ^ (e - q).toNat
    if ex < 1 - bias then n else (ex + bias).toNat * 2 ^ man + (n - 2 ^ man)
  else
    let den := 2 ^ (q - e).toNat
    let n := m / den
    let c := if ex < 1 - bias then n else (ex + bias).toNat * 2 ^ man + (n - 2 ^ man)
    r.choose c (m % den) den

/-- The magnitude a code stands for (R40). -/
def codeMag (man : Nat) (bias : Int) (neg : Bool) (c : Nat) : FVal :=
  let ef := c / 2 ^ man
  let m := c % 2 ^ man
  if ef = 0 then .fin neg m (1 - bias - man) else .fin neg (2 ^ man + m) ((ef : Int) - bias - man)

/-- A float format: mantissa bits, bias and the magnitude code of infinity (one above the largest finite). -/
structure IEEE where
  exp  : Nat
  man  : Nat
  bias : Int
  deriving DecidableEq, Repr

/-- binary16. -/
def fp16 : IEEE := ⟨5, 10, 15⟩
/-- bfloat16. -/
def bf16 : IEEE := ⟨8, 7, 127⟩
/-- binary32. -/
def fp32 : IEEE := ⟨8, 23, 127⟩
/-- binary64 (the Basil cores' D extension, R210). -/
def fp64 : IEEE := ⟨11, 52, 1023⟩

namespace IEEE

/-- The magnitude code of infinity. -/
def infCode (F : IEEE) : Nat := (2 ^ F.exp - 1) * 2 ^ F.man

/-- The sign bit's weight. -/
def signBit (F : IEEE) : Nat := 2 ^ (F.exp + F.man)

/-- The canonical NaN (R41). -/
def qnan (F : IEEE) : Nat := F.infCode + 2 ^ (F.man - 1)

/-- The value of a code (R40). -/
def decode (F : IEEE) (c : Nat) : FVal :=
  let neg := decide (c / F.signBit % 2 = 1)
  let mag := c % F.signBit
  if mag > F.infCode then .nan
  else if mag = F.infCode then .inf neg
  else codeMag F.man F.bias neg mag

/-- The code of a value, rounded, overflow giving infinity (IEEE 754 under `rne`). -/
def encodeR (F : IEEE) (r : Rounding) : FVal → Nat
  | .nan => F.qnan
  | .inf s => F.infCode + (if s then F.signBit else 0)
  | .fin s m e => min (magCode F.man F.bias r m e) F.infCode + (if s then F.signBit else 0)

/-- The code of a value under round to nearest even. -/
def encode (F : IEEE) (v : FVal) : Nat := F.encodeR .rne v

/-- The value rounded to the format (RNE). -/
def fl (F : IEEE) (v : FVal) : FVal := F.decode (F.encode v)

/-- The largest finite value. -/
def maxFin (F : IEEE) (neg : Bool) : FVal := codeMag F.man F.bias neg (F.infCode - 1)

end IEEE

/-- Rounds to FP32 with RNE (round_fp32 of R62). -/
def fl32 (v : FVal) : FVal := fp32.fl v

/-- FP32 addition. -/
def add32 (x y : FVal) : FVal := fl32 (x.add y)
/-- FP32 subtraction. -/
def sub32 (x y : FVal) : FVal := fl32 (x.sub y)
/-- FP32 multiplication. -/
def mul32 (x y : FVal) : FVal := fl32 (x.mul y)
/-- FP32 fused multiply-add. -/
def fma32 (x y z : FVal) : FVal := fl32 ((x.mul y).add z)

/-- A dyadic number on the same side of every rounding boundary of a `p`-bit or narrower format as the quotient a/b x 2^e:
two extra bits and a sticky bit. -/
def quotSticky (p : Nat) (a b : Nat) (e : Int) : Nat × Int :=
  let k := p + 3 + Nat.log2 b
  let n := a * 2 ^ k
  let q := n / b
  (2 * q + (if n % b = 0 then 0 else 1), e - k - 1)

/-- Division in a format (IEEE 754) before the final rounding; `p` is the precision kept. -/
def divPre (p : Nat) : FVal → FVal → FVal
  | .nan, _ => .nan
  | _, .nan => .nan
  | .inf _, .inf _ => .nan
  | .inf s, .fin t _ _ => .inf (s != t)
  | .fin s _ _, .inf t => .fin (s != t) 0 0
  | .fin s m e, .fin t n f =>
    if n = 0 then (if m = 0 then .nan else .inf (s != t))
    else if m = 0 then .fin (s != t) 0 0
    else
      let qe := quotSticky (p + Nat.log2 n + 2) m n (e - f)
      .fin (s != t) qe.1 qe.2

/-- FP32 division (RNE). -/
def div32 (x y : FVal) : FVal := fl32 (divPre 32 x y)

/-- Integer square root by binary digits, `k` digits. -/
def isqrtGo (n : Nat) : Nat → Nat → Nat
  | 0, r => r
  | k + 1, r => let t := r + 2 ^ k; if t * t ≤ n then isqrtGo n k t else isqrtGo n k r

/-- ⌊√n⌋. -/
def isqrt (n : Nat) : Nat := isqrtGo n (Nat.log2 n / 2 + 1) 0

/-- Square root before the final rounding, with a sticky bit. -/
def sqrtPre (p : Nat) : FVal → FVal
  | .nan => .nan
  | .inf s => if s then .nan else .inf false
  | .fin s m e =>
    if m = 0 then .fin s 0 0
    else if s then .nan
    else
      let k : Nat := 2 * p + (if e % 2 = 0 then 0 else 1)
      let n := m * 2 ^ k
      let r := isqrt n
      .fin false (2 * r + (if r * r = n then 0 else 1)) ((e - k) / 2 - 1)

/-- FP32 square root (RNE). -/
def sqrt32 (x : FVal) : FVal := fl32 (sqrtPre 64 x)

/-- FP32 value of a 32-bit code. -/
def f32 (c : Nat) : FVal := fp32.decode c

/-- The larger of two values as memory-side MAX takes it (R314): NaN if either is, +0 above -0. -/
def maxNan (x y : FVal) : FVal :=
  if x.isNan || y.isNan then .nan
  else if x.isZero && y.isZero then .fin (x.sign && y.sign) 0 0
  else if x.lt y then y else x

/-- The smaller of two values as memory-side MIN takes it (R314). -/
def minNan (x y : FVal) : FVal :=
  if x.isNan || y.isNan then .nan
  else if x.isZero && y.isZero then .fin (x.sign || y.sign) 0 0
  else if y.lt x then y else x

end Sys2Proof.Machine
end

