-- ==== Sys2Proof/Machine/Formats.lean ====
section
/-!
DEFINITION. The fifteen number formats (R39 to R47), conversion between them with its counters (R56 to R60, R572), two-level
scaling and quantisation (R48 to R53, R55), the conversion descriptor (R61) and wide accumulation (R62 to R64).
-/

set_option Elab.async false

namespace Sys2Proof.Machine

open Sys2Proof

/-- The format codes of R39. -/
inductive Fmt where
  | fp32 | bf16 | fp16 | e4m3 | e5m2 | e3m2 | e2m3 | e2m1 | e2m0 | int8 | int4 | int2 | tern5 | ue8m0 | ue4m3
  deriving DecidableEq, Repr

/-- The format of a code; 0xF is reserved (R39). -/
def Fmt.ofCode : Nat → Option Fmt
  | 0 => some .fp32 | 1 => some .bf16 | 2 => some .fp16 | 3 => some .e4m3 | 4 => some .e5m2 | 5 => some .e3m2
  | 6 => some .e2m3 | 7 => some .e2m1 | 8 => some .e2m0 | 9 => some .int8 | 10 => some .int4 | 11 => some .int2
  | 12 => some .tern5 | 13 => some .ue8m0 | 14 => some .ue4m3 | _ => none

/-- The code of a format (R39). -/
def Fmt.code : Fmt → Nat
  | .fp32 => 0 | .bf16 => 1 | .fp16 => 2 | .e4m3 => 3 | .e5m2 => 4 | .e3m2 => 5 | .e2m3 => 6 | .e2m1 => 7 | .e2m0 => 8
  | .int8 => 9 | .int4 => 10 | .int2 => 11 | .tern5 => 12 | .ue8m0 => 13 | .ue4m3 => 14

/-- Codes 0x3 to 0xC are the narrow formats (R39). -/
def Fmt.narrow (f : Fmt) : Bool := 3 ≤ f.code && f.code ≤ 12

/-- The scale formats. -/
def Fmt.isScale (f : Fmt) : Bool := f == .ue8m0 || f == .ue4m3

/-- Integer formats and TERN5. -/
def Fmt.isInt (f : Fmt) : Bool := f == .int8 || f == .int4 || f == .int2 || f == .tern5

/-- FP32, BF16 and FP16. -/
def Fmt.wide (f : Fmt) : Bool := f.code ≤ 2

/-- Bytes of one element of a wide or scale format stored as a plain array. -/
def Fmt.bytes : Fmt → Nat
  | .fp32 => 4 | .bf16 => 2 | .fp16 => 2 | _ => 1

/-- Element width in bits in a burst; TERN5 elements are trits and packed apart (R45). -/
def Fmt.width : Fmt → Nat
  | .fp32 => 32 | .bf16 => 16 | .fp16 => 16 | .e4m3 => 8 | .e5m2 => 8 | .e3m2 => 6 | .e2m3 => 6 | .e2m1 => 4 | .e2m0 => 3
  | .int8 => 8 | .int4 => 4 | .int2 => 2 | .tern5 => 2 | .ue8m0 => 8 | .ue4m3 => 8

/-- Exponent and mantissa bits and bias of the float and exponent-only formats (R40). -/
def Fmt.float : Fmt → Option IEEE
  | .fp32 => some Machine.fp32 | .bf16 => some Machine.bf16 | .fp16 => some Machine.fp16
  | .e4m3 => some ⟨4, 3, 7⟩ | .e5m2 => some ⟨5, 2, 15⟩ | .e3m2 => some ⟨3, 2, 3⟩ | .e2m3 => some ⟨2, 3, 1⟩
  | .e2m1 => some ⟨2, 1, 1⟩ | .e2m0 => some ⟨2, 0, 1⟩ | .ue4m3 => some ⟨4, 3, 7⟩ | .ue8m0 => some ⟨8, 0, 127⟩
  | _ => none

/-- The magnitude code of the largest finite value (R40). -/
def Fmt.maxCode : Fmt → Nat
  | .fp32 => 0x7F7FFFFF | .bf16 => 0x7F7F | .fp16 => 0x7BFF | .e4m3 => 0x7E | .e5m2 => 0x7B | .e3m2 => 0x1F
  | .e2m3 => 0x1F | .e2m1 => 0x7 | .e2m0 => 0x3 | .ue4m3 => 0x7E | .ue8m0 => 0xFE | _ => 0

/-- The canonical NaN code, for formats that have one (R41, R47). -/
def Fmt.nanCode : Fmt → Option Nat
  | .fp32 => some 0x7FC00000 | .bf16 => some 0x7FC0 | .fp16 => some 0x7E00 | .e4m3 => some 0x7F | .e5m2 => some 0x7E
  | .ue4m3 => some 0x7F | .ue8m0 => some 0xFF | _ => none

/-- The infinity code, for formats that have one (R40). -/
def Fmt.infCode : Fmt → Option Nat
  | .fp32 => some 0x7F800000 | .bf16 => some 0x7F80 | .fp16 => some 0x7C00 | .e5m2 => some 0x7C | _ => none

/-- Least and greatest value of the integer formats and TERN5 (R44, R45). -/
def Fmt.intRange : Fmt → Int × Int
  | .int8 => (-128, 127) | .int4 => (-8, 7) | .int2 => (-2, 1) | _ => (-1, 1)

/-- The value of a UE8M0 code (R47). -/
def ue8m0Value (c : Nat) : FVal := if c % 256 = 255 then .nan else .fin false 1 ((c % 256 : Nat) - 127)

/-- The value of a UE4M3 code (R47). -/
def ue4m3Value (c : Nat) : FVal := if c % 256 ≥ 0x7F then .nan else codeMag 3 7 false (c % 256)

/-- The value of a block-scale byte: SCL 0 UE4M3, 1 UE8M0 (R61). -/
def scaleValue (scl : Bool) (c : Nat) : FVal := if scl then ue8m0Value c else ue4m3Value c

/-- The value of an element code (R40 to R47). A TERN5 element is given by its INT2 code (R81). -/
def Fmt.decode (f : Fmt) (c : Nat) : FVal :=
  match f with
  | .ue8m0 => ue8m0Value c
  | .ue4m3 => ue4m3Value c
  | .int8 => FVal.ofInt (signed 8 c)
  | .int4 => FVal.ofInt (signed 4 c)
  | .int2 => FVal.ofInt (signed 2 c)
  | .tern5 => FVal.ofInt (signed 2 c)
  | .e4m3 =>
    let neg := bit c 7
    if c % 128 = 0x7F then .nan else codeMag 3 7 neg (c % 128)
  | .e2m0 => if c % 4 = 0 then FVal.zero else codeMag 0 1 (bit c 2) (c % 4)
  | .e3m2 => codeMag 2 3 (bit c 5) (c % 32)
  | .e2m3 => codeMag 3 1 (bit c 5) (c % 32)
  | .e2m1 => codeMag 1 1 (bit c 3) (c % 8)
  | .e5m2 => (IEEE.mk 5 2 15).decode c
  | .fp32 => Machine.fp32.decode c
  | .bf16 => Machine.bf16.decode c
  | .fp16 => Machine.fp16.decode c

/-- The four conversion counts (R74). -/
structure Counts where
  range : Nat
  nan   : Nat
  under : Nat
  bad   : Nat
  deriving DecidableEq, Repr

/-- No count. -/
def Counts.none : Counts := ⟨0, 0, 0, 0⟩

/-- Sum of counts. -/
def Counts.add (a b : Counts) : Counts := ⟨a.range + b.range, a.nan + b.nan, a.under + b.under, a.bad + b.bad⟩

/-- One in RANGE_COUNT. -/
def Counts.one_range : Counts := ⟨1, 0, 0, 0⟩
/-- One in NAN_COUNT. -/
def Counts.one_nan : Counts := ⟨0, 1, 0, 0⟩
/-- One in UNDERFLOW_COUNT. -/
def Counts.one_under : Counts := ⟨0, 0, 1, 0⟩

/-- The 64-bit mixer of R57, before its final shift. -/
def mixer (seed i : Nat) : Nat :=
  let w := 2 ^ 64
  let z0 := (seed + (i + 1) * 0x9E3779B97F4A7C15) % w
  let z1 := (z0 ^^^ (z0 / 2 ^ 30)) * 0xBF58476D1CE4E5B9 % w
  let z2 := (z1 ^^^ (z1 / 2 ^ 27)) * 0x94D049BB133111EB % w
  z2 ^^^ (z2 / 2 ^ 31)

/-- The 16-bit draw of stochastic rounding for logical index `i` (R57). -/
def srDraw (seed i : Nat) : Nat := mixer seed i / 2 ^ 48

/-- Conversion to a float or exponent-only element format (R56, R57, R59). -/
def convFloat (f : Fmt) (F : IEEE) (rnd : Rounding) (ovf : Bool) : FVal → Nat × Counts
  | .nan => match f.nanCode with
    | some c => (c, Counts.none)
    | none => (0, Counts.one_nan)
  | .inf s =>
    let sb := if s then F.signBit else 0
    match f.infCode with
    | some c => (c + sb, Counts.none)
    | none => if ovf && f == .e4m3 then (0x7F, Counts.one_range) else (f.maxCode + sb, Counts.one_range)
  | .fin s m e =>
    let sb := if s then F.signBit else 0
    let beyond : Nat × Counts :=
      if ovf then
        match f.infCode with
        | some c => (c + sb, Counts.one_range)
        | none => if f == .e4m3 then (0x7F, Counts.one_range) else (f.maxCode + sb, Counts.one_range)
      else (f.maxCode + sb, Counts.one_range)
    let big := (codeMag F.man F.bias false f.maxCode).lt (.fin false m e)
    let c := magCode F.man F.bias rnd m e
    let srBig := match rnd with | .sr _ => big | _ => false
    if srBig || c > f.maxCode then beyond
    else if c = 0 then
      (if f == .e2m0 then 0 else sb, if m = 0 then Counts.none else Counts.one_under)
    else (c + sb, Counts.none)

/-- Conversion to an integer format or TERN5, as the element's two's-complement code (R56, R57, R59). -/
def convInt (f : Fmt) (rnd : Rounding) : FVal → Nat × Counts
  | .nan => (0, Counts.one_nan)
  | .inf s => (unsigned f.width (if s then f.intRange.1 else f.intRange.2), Counts.one_range)
  | .fin s m e =>
    let lim : Nat := if s then f.intRange.1.natAbs else f.intRange.2.natAbs
    let mag : Nat :=
      if 0 ≤ e then m * 2 ^ e.toNat
      else let den := 2 ^ (-e).toNat; rnd.choose (m / den) (m % den) den
    let big := (FVal.ofNat lim).lt (.fin false m e)
    let srBig := match rnd with | .sr _ => big | _ => false
    if srBig || mag > lim then (unsigned f.width (if s then f.intRange.1 else f.intRange.2), Counts.one_range)
    else if mag = 0 then (0, if m = 0 then Counts.none else Counts.one_under)
    else (unsigned f.width (if s then -(mag : Int) else mag), Counts.none)

/-- Conversion to UE4M3 (R572). -/
def convUE4M3 (rnd : Rounding) (ovf : Bool) : FVal → Nat × Counts
  | .nan => (0x7F, Counts.none)
  | .inf s => if s then (0, Counts.one_range) else (if ovf then 0x7F else 0x7E, Counts.one_range)
  | .fin s m e =>
    if m = 0 then (0, Counts.none)
    else if s then (0, Counts.one_range)
    else
      let c := magCode 3 7 rnd m e
      let big := (codeMag 3 7 false 0x7E).lt (.fin false m e)
      let srBig := match rnd with | .sr _ => big | _ => false
      if srBig || c > 0x7E then (if ovf then 0x7F else 0x7E, Counts.one_range)
      else if c = 0 then (0, Counts.one_under)
      else (c, Counts.none)

/-- Conversion to UE8M0 (R572): the grid is the powers of two from 2^-127 to 2^127. -/
def convUE8M0 (rnd : Rounding) (ovf : Bool) : FVal → Nat × Counts
  | .nan => (0xFF, Counts.none)
  | .inf s => if s then (0, Counts.one_range) else (if ovf then 0xFF else 0xFE, Counts.one_range)
  | .fin s m e =>
    if m = 0 ∨ s then (0, Counts.one_range)
    else
      let ex := FVal.exponent m e
      if ex < -127 then (0, Counts.one_range)
      else
        let lo := 2 ^ Nat.log2 m
        let c := rnd.choose (ex + 127).toNat (m - lo) lo
        let big := (FVal.fin false 1 127).lt (.fin false m e)
        let srBig := match rnd with | .sr _ => big | _ => false
        if srBig || c > 0xFE then (if ovf then 0xFF else 0xFE, Counts.one_range) else (c, Counts.none)

/-- Conversion of a value to an element code of any format, with its counts (R56 to R60, R572). -/
def convert (f : Fmt) (rnd : Rounding) (ovf : Bool) (v : FVal) : Nat × Counts :=
  match f with
  | .ue4m3 => convUE4M3 rnd ovf v
  | .ue8m0 => convUE8M0 rnd ovf v
  | .int8 | .int4 | .int2 | .tern5 => convInt f rnd v
  | _ => match f.float with
    | some F => convFloat f F rnd ovf v
    | none => (0, Counts.none)

/-- A conversion descriptor (R61). -/
structure Cvt where
  fmt   : Nat
  blk   : Bool     -- true: blocks of 16
  scl   : Bool     -- true: UE8M0
  sr    : Bool
  ovf   : Bool
  tsm   : Nat
  tsidx : Nat
  seed  : Nat
  deriving DecidableEq, Repr

/-- Reads the 16 bytes of a conversion descriptor (R61). -/
def Cvt.ofBytes (b : List Byte) : Cvt :=
  let w := num b 0 4
  ⟨bits w 0 4, bit w 4, bit w 5, bit w 8, bit w 9, bits w 10 2, num b 4 4, num b 8 8⟩

/-- The block size (R61). -/
def Cvt.block (c : Cvt) : Nat := if c.blk then 16 else 32

/-- The rounding of element `i` under the descriptor (R57, R61). -/
def Cvt.rounding (c : Cvt) (i : Nat) : Rounding := if c.sr then .sr (srDraw c.seed i) else .rne

/-- A descriptor with FMT = 0xF, or with TSM = 3 whatever FMT names, is malformed (R61). -/
def Cvt.malformed (c : Cvt) : Bool := c.fmt == 15 || c.tsm == 3

/-- Q of R50. -/
def Fmt.q : Fmt → FVal
  | .e4m3 => FVal.ofNat 448 | .e5m2 => FVal.ofNat 57344 | .e3m2 => FVal.ofNat 28 | .e2m3 => .fin false 15 (-1)
  | .e2m1 => FVal.ofNat 6 | .e2m0 => FVal.ofNat 4 | .int8 => FVal.ofNat 127 | .int4 => FVal.ofNat 7 | _ => FVal.one

/-- E of R50. -/
def Fmt.qExp : Fmt → Int
  | .e4m3 => 8 | .e5m2 => 15 | .e3m2 => 4 | .e2m3 => 2 | .e2m1 => 2 | .e2m0 => 2 | .int8 => 6 | .int4 => 2 | _ => 0

/-- The largest finite magnitude of a list, +0 if there is none (R51, R53). -/
def maxFinite (xs : List FVal) : FVal :=
  xs.foldl (fun a x => if x.isFin && a.lt x.abs then x.abs else a) FVal.zero

/-- The scale byte R51 chooses for a block with largest finite magnitude `a`, and its range count. -/
def blockScale (f : Fmt) (scl : Bool) (a : FVal) : Nat × Counts :=
  match a with
  | .fin _ m e =>
    if m = 0 then (0, Counts.none)
    else if scl then (((FVal.exponent m e) - f.qExp + 127 |> max 0 |> min 254).toNat, Counts.none)
    else
      match div32 a f.q with
      | .fin _ n g =>
        let c := if n = 0 then 1 else magCode 3 7 .up n g
        if c > 0x7E then (0x7E, Counts.one_range) else (max c 1, Counts.none)
      | _ => (0x7E, Counts.one_range)
  | _ => (0, Counts.none)

/-- A quantised block: scale byte and element codes. -/
structure QBlock where
  scale : Nat
  elems : List Nat
  deriving DecidableEq, Repr

/-- Converts the elements of a block, the first with logical index `i`: each element's code and the outcomes it counts. -/
def quantElems (f : Fmt) (c : Cvt) (div : FVal → FVal) (i : Nat) : List FVal → List (Nat × Counts)
  | [] => []
  | y :: ys => convert f (c.rounding i) c.ovf (div y) :: quantElems f c div (i + 1) ys

/-- A quantised block with what it counts and, for each element, whether the range rule decided it (R59, R112). -/
structure QResult where
  block   : QBlock
  counts  : Counts
  decided : List Bool
  deriving DecidableEq, Repr

/-- Quantises one block of FP32 values (R51) whose first element has logical index `i`. Elements given are those of the row;
padding of a short block is added by the burst writer (R49). -/
def quantBlock (f : Fmt) (c : Cvt) (t : FVal) (i : Nat) (xs : List FVal) : QResult :=
  let ys := xs.map (fun x => div32 x t)
  let a := maxFinite ys
  let b := blockScale f c.scl a
  let bv := scaleValue c.scl b.1
  let div := fun y => if a.isZero then (if y.isFin then FVal.zero else y) else div32 y bv
  let q := quantElems f c div i ys
  ⟨⟨b.1, q.map (fun e => e.1)⟩, q.foldl (fun n e => n.add e.2) b.2, q.map (fun e => e.2.range != 0)⟩

/-- The tensor scale computed from the data's largest finite magnitude (R53). -/
def dataScale (f : Fmt) (scl : Bool) (a : FVal) : FVal :=
  if scl || a.isZero then FVal.one
  else
    let t := div32 a (f.q.mul (FVal.ofNat 448))
    let least := FVal.fin false 1 (-126)
    if t.lt least then least else t

/-- Conversion of a narrow element to FP32 (R48, R55): round(round(q x b) x T). -/
def dequant (q b t : FVal) : FVal := mul32 (mul32 q b) t

/-! ## Wide accumulation -/

/-- A magnitude above every FP32 value: the value R64 carries in place of an FP32 infinity. -/
def hugeVal (neg : Bool) : FVal := .fin neg 1 300

/-- round_fp32, with a finite overflow carried as `hugeVal` (R64). -/
def fl32c (v : FVal) : FVal :=
  match v with
  | .fin s _ _ => match fl32 v with
    | .inf _ => hugeVal s
    | w => w
  | v => v

/-- Truncates a product's magnitude toward zero to bits at or above 2^lo (R62). -/
def truncAt (lo : Int) : FVal → FVal
  | .fin s m e => if e ≥ lo then .fin s m e else .fin s (m / 2 ^ (lo - e).toNat) lo
  | v => v

/-- The largest exponent among the nonzero finite products (R62). -/
def maxExp (ps : List FVal) : Option Int :=
  ps.foldl (fun w p => match p with
    | .fin _ m e => if m = 0 then w else
        let x := FVal.exponent m e
        match w with | none => some x | some y => some (max x y)
    | _ => w) none

/-- The signed sum of a group's truncated products, exact (R62). -/
def groupSum (ps : List FVal) : FVal :=
  match maxExp ps with
  | some w => (ps.map (truncAt (w - 48))).foldl FVal.add FVal.zero
  | none => ps.foldl FVal.add FVal.zero

/-- One reduction group added to an FP32 accumulator (R62). `sa` and `sb` are the block-scale values, 1 for 16-bit operands. -/
def accGroup (acc : FVal) (ps : List FVal) (sa sb : FVal) : FVal :=
  add32 acc (fl32 (((groupSum ps).mul sa).mul sb))

/-- One reduction group added to an INT32 accumulator: exact, then clamped, counting a clamp that changes the value (R63). -/
def accGroupInt (acc : Int) (ps : List Int) : Int × Nat :=
  let v := ps.foldl (· + ·) acc
  let c := max (-(2 ^ 31 : Int)) (min v (2 ^ 31 - 1))
  (c, if c = v then 0 else 1)

/-- An FP32-valued element written in an output format that is not narrow (R59, R64): code and counts. -/
def outElem (c : Cvt) (i : Nat) (v : FVal) : Nat × Counts :=
  match Fmt.ofCode c.fmt with
  | some f => convert f (c.rounding i) c.ovf v
  | none => (0, Counts.none)

end Sys2Proof.Machine
end

