-- ==== Sys2Proof/Machine/Bursts.lean ====
section
/-!
DEFINITION. The Alhel burst (R65 to R71): layout, CRC-24, reading blocks of a burst, writing blocks into bursts, and tensors
of bursts with blocks numbered row by row (R243, R310).
-/

set_option Elab.async false

namespace Sys2Proof.Machine

open Sys2Proof

/-- Data-area bytes and blocks of a burst (R66); `b16` selects blocks of 16. -/
def burstLayout (f : Fmt) (b16 : Bool) : Nat × Nat :=
  match f, b16 with
  | .e4m3, false | .e5m2, false | .int8, false => (1920, 60)
  | .e4m3, true | .e5m2, true | .int8, true => (1920, 120)
  | .e3m2, false | .e2m3, false => (1920, 80)
  | .e3m2, true | .e2m3, true => (1872, 156)
  | .e2m1, false | .int4, false => (1920, 120)
  | .e2m1, true | .int4, true => (1808, 226)
  | .e2m0, false => (1872, 156)
  | .e2m0, true => (1746, 291)
  | .int2, false => (1808, 226)
  | .int2, true => (1632, 408)
  | .tern5, false => (1760, 275)
  | .tern5, true => (1552, 485)
  | _, _ => (0, 0)

/-- Data-area size D of a burst. -/
def burstD (f : Fmt) (b16 : Bool) : Nat := (burstLayout f b16).1

/-- Blocks per burst, nb. -/
def burstN (f : Fmt) (b16 : Bool) : Nat := (burstLayout f b16).2

/-- Elements per block. -/
def blockLen (b16 : Bool) : Nat := if b16 then 16 else 32

/-- One byte fed to the CRC-24, most significant bit first, `k` bits to go (R68). -/
def crc24Bits : Nat → Nat → Nat
  | 0, c => c
  | k + 1, c => crc24Bits k (let d := c * 2; if d / 2 ^ 24 % 2 = 1 then (d ^^^ 0x1864CFB) % 2 ^ 24 else d % 2 ^ 24)

/-- CRC-24 of RFC 4880, section 6.1: polynomial 0x864CFB, initial value 0xB704CE, no final inversion (R68). -/
def crc24 (bs : List Byte) : Nat := bs.foldl (fun c b => crc24Bits 8 (c ^^^ (b.toNat * 2 ^ 16))) 0xB704CE

/-- Cuts a number into `n` fields of `w` bits, lowest first (R11). -/
def unpack (w : Nat) : Nat → Nat → List Nat
  | 0, _ => []
  | n + 1, v => v % 2 ^ w :: unpack w n (v / 2 ^ w)

/-- Joins fields of `w` bits, lowest first (R11). -/
def pack (w : Nat) : List Nat → Nat
  | [] => 0
  | c :: cs => c % 2 ^ w + 2 ^ w * pack w cs

/-- The INT2 code of a base-3 digit: 0 is -1, 1 is 0, 2 is +1 (R45, R44). -/
def tritCode (d : Nat) : Nat := if d = 0 then 3 else if d = 1 then 0 else 1

/-- The base-3 digit of an INT2 code (R45). -/
def codeTrit (c : Nat) : Nat := if c % 4 = 3 ∨ c % 4 = 2 then 0 else if c % 4 = 1 then 2 else 1

/-- The five trits of a TERN5 byte as INT2 codes; an invalid byte is five zeros (R45, R46). -/
def ternByte (b : Nat) : List Nat :=
  if b ≥ 243 then [0, 0, 0, 0, 0]
  else [tritCode (b % 3), tritCode (b / 3 % 3), tritCode (b / 9 % 3), tritCode (b / 27 % 3), tritCode (b / 81 % 3)]

/-- Invalid TERN5 bytes of a data area (R46). -/
def badBytes (data : List Byte) : Nat := (data.filter (fun b => decide (b.toNat ≥ 243))).length

/-- The TERN5 byte of five trits given as INT2 codes (R45); missing trits are zero. -/
def ternPack : List Nat → List Nat
  | a :: b :: c :: d :: e :: r =>
    (codeTrit a + 3 * codeTrit b + 9 * codeTrit c + 27 * codeTrit d + 81 * codeTrit e) :: ternPack r
  | [] => []
  | l =>
    let g := fun i => codeTrit (l.getD i 0)
    [g 0 + 3 * g 1 + 9 * g 2 + 27 * g 3 + 81 * g 4]

/-- A block as stored: scale byte and element codes (TERN5 as INT2 codes). -/
abbrev NBlock := QBlock

/-- The element codes of a burst's data area. -/
def burstCodes (f : Fmt) (b16 : Bool) (bs : List Byte) : List Nat :=
  let data := bs.take (burstD f b16)
  if f == .tern5 then data.flatMap (fun b => ternByte b.toNat)
  else unpack f.width (burstN f b16 * blockLen b16) (leNat data)

/-- Cuts codes into blocks and joins each with its scale byte. -/
def mkBlocks (k : Nat) : List Byte → List Nat → List NBlock
  | [], _ => []
  | s :: ss, cs => ⟨s.toNat, cs.take k⟩ :: mkBlocks k ss (cs.drop k)

/-- The blocks of a burst (R65, R66). -/
def burstBlocks (f : Fmt) (b16 : Bool) (bs : List Byte) : List NBlock :=
  mkBlocks (blockLen b16) (sub bs (burstD f b16) (burstN f b16)) (burstCodes f b16 bs)

/-- The format byte of a burst trailer (R67). -/
def formatByte (f : Fmt) (b16 scl : Bool) : Nat := f.code + 16 * b2n b16 + 32 * b2n scl

/-- TSIDX of a burst's trailer (R67). -/
def burstTsidx (bs : List Byte) : Nat := num bs 2040 4

/-- The trailer checks of R70 on one burst: CHECK, FORMAT against the format byte named, a narrow FMT, TSIDX within the table
of `count` entries. -/
def burstOk (fb count : Nat) (bs : List Byte) : Bool :=
  let fmt := num bs 2044 1
  num bs 2045 3 == crc24 (bs.take 2045) && fmt == fb && fmt < 64 && 3 ≤ fmt % 16 && fmt % 16 ≤ 12
    && (burstTsidx bs == 0xFFFFFFFF || burstTsidx bs < count)

/-- One burst holding the given blocks, the rest of the data area +0 elements and scale 0x00 (R65, R71). -/
def packBurst (f : Fmt) (b16 scl : Bool) (tsidx : Nat) (blocks : List NBlock) : List Byte :=
  let n := burstN f b16
  let k := blockLen b16
  let bl := blocks.take n
  let codes := bl.flatMap (fun b => (b.elems ++ List.replicate (k - b.elems.length) 0).take k)
  let full := codes ++ List.replicate (n * k - codes.length) 0
  let data :=
    if f == .tern5 then (ternPack full).map (fun v => BitVec.ofNat 8 v)
    else leBytes (burstD f b16) (pack f.width full)
  let body := padTo 2040 (padTo (burstD f b16) data ++ bl.map (fun b => BitVec.ofNat 8 b.scale))
  let head := body ++ leBytes 4 tsidx ++ [BitVec.ofNat 8 (formatByte f b16 scl)]
  head ++ leBytes 3 (crc24 head)

/-- Bursts holding a list of blocks, at most `fuel` of them (R65, R71). -/
def packBursts (f : Fmt) (b16 scl : Bool) (tsidx : Nat) : Nat → List NBlock → List (List Byte)
  | 0, _ => []
  | fuel + 1, bl =>
    if bl.isEmpty then []
    else packBurst f b16 scl tsidx bl :: packBursts f b16 scl tsidx fuel (bl.drop (burstN f b16))

/-- Blocks per row (R49). -/
def rowBlocks (b16 : Bool) (len : Nat) : Nat := ceilDiv len (blockLen b16)

/-- Bursts of a narrow tensor of rows x len elements (R65, R71). -/
def tensorBursts (f : Fmt) (b16 : Bool) (rows len : Nat) : Nat :=
  ceilDiv (rows * rowBlocks b16 len) (burstN f b16)

/-- Bytes a narrow tensor occupies. -/
def tensorBytes (f : Fmt) (b16 : Bool) (rows len : Nat) : Nat := 2048 * tensorBursts f b16 rows len

/-- Result of reading bursts: the blocks read, TSIDX of the operand, invalid TERN5 bytes, and the address of the first
uncorrectable granule or failed burst (R70, R322). -/
structure BurstRead where
  blocks : List NBlock
  tsidx  : Nat
  bad    : Nat
  fail   : Option Nat
  deriving DecidableEq, Repr

/-- Reads and verifies bursts from `base` on, in ascending address (R69, R70). `bad` gives the uncorrectable granule a burst
meets, `rd` the 2,048 bytes at an address; `ts` is TSIDX of the first burst of the operand, once known. -/
def readBursts (bad : Nat → Option Nat) (rd : Nat → List Byte) (f : Fmt) (b16 scl : Bool) (count : Nat) :
    Nat → Nat → Option Nat → List NBlock → Nat → BurstRead
  | 0, _, ts, acc, n => ⟨acc, ts.getD 0xFFFFFFFF, n, none⟩
  | k + 1, base, ts, acc, n =>
    match bad base with
    | some a => ⟨acc, ts.getD 0xFFFFFFFF, n, some a⟩
    | none =>
      let bs := rd base
      if burstOk (formatByte f b16 scl) count bs && (ts.getD (burstTsidx bs) == burstTsidx bs) then
        readBursts bad rd f b16 scl count k (base + 2048) (some (burstTsidx bs)) (acc ++ burstBlocks f b16 bs)
          (n + if f == .tern5 then badBytes (bs.take (burstD f b16)) else 0)
      else ⟨acc, ts.getD 0xFFFFFFFF, n, some base⟩

/-- Cuts a list into rows of `w`, `n` of them. -/
def chunk {α : Type} (w : Nat) : Nat → List α → List (List α)
  | 0, _ => []
  | n + 1, l => l.take w :: chunk w n (l.drop w)

/-- The values of a block, converted to FP32 (R48, R55). -/
def blockValues (f : Fmt) (scl : Bool) (t : FVal) (b : NBlock) : List FVal :=
  let sv := scaleValue scl b.scale
  b.elems.map (fun c => dequant (f.decode c) sv t)

/-- The rows of a tensor of blocks as FP32 values (R49, R55). -/
def tensorValues (f : Fmt) (b16 scl : Bool) (t : FVal) (rows len : Nat) (bl : List NBlock) : List (List FVal) :=
  (chunk (rowBlocks b16 len) rows bl).map (fun r => (r.flatMap (blockValues f scl t)).take len)

/-- Quantises one row, `n` blocks to go, the next element with logical index `i` (R51, R58). -/
def quantRow (f : Fmt) (c : Cvt) (t : FVal) : Nat → Nat → List FVal → List QResult
  | 0, _, _ => []
  | n + 1, i, xs => quantBlock f c t i (xs.take c.block) :: quantRow f c t n (i + c.block) (xs.drop c.block)

/-- Quantises all rows of a tensor of row length `len`, from row number `r0`; one list of blocks for each row (R51, R58). -/
def quantRows (f : Fmt) (c : Cvt) (t : FVal) (len : Nat) : Nat → List (List FVal) → List (List QResult)
  | _, [] => []
  | r0, x :: xs => quantRow f c t (rowBlocks c.blk len) (r0 * len) x :: quantRows f c t len (r0 + 1) xs

/-- The counts of quantised rows. -/
def qCounts (rs : List (List QResult)) : Counts := rs.flatten.foldl (fun n q => n.add q.counts) Counts.none

/-- Elements of a wide or scale-format array given as bytes (R11, R39). -/
def wideValues (f : Fmt) : Nat → List Byte → List FVal
  | 0, _ => []
  | n + 1, bs => f.decode (num bs 0 f.bytes) :: wideValues f n (bs.drop f.bytes)

/-- Converts values to a format that is stored as a plain array, the first with logical index `i`: bytes and counts (R59, R572). -/
def wideBytes (f : Fmt) (c : Cvt) : Nat → List FVal → List Byte × Counts
  | _, [] => ([], Counts.none)
  | i, x :: xs =>
    let q := convert f (c.rounding i) c.ovf x
    let r := wideBytes f c (i + 1) xs
    (leBytes f.bytes q.1 ++ r.1, q.2.add r.2)

end Sys2Proof.Machine
end

