-- ==== Sys2Proof/Config.lean ====
section
/-!
DEFINITION. What the manual leaves open or takes from named standards outside it, as constants without a body, and what an
implementation fixes. A statement about one of them holds for every value of it.
-/

set_option Elab.async false

namespace Sys2Proof.Config

open Sys2Proof

/-- A free byte: nothing constrains it. Applied to the state's counter and an index (log entry 5). -/
opaque freeByte : Nat → Nat → Byte

/-- A free 32-bit value (log entry 5). -/
opaque freeWord : Nat → Nat → Word

/-- A free natural number (log entry 5). -/
opaque freeNat : Nat → Nat → Nat

/-- The byte of host memory that a read of a host bus address through port `d` returns at the read with number `n`
(R542: host memory lies outside the module; log entry 8). -/
opaque hostByte : (n d addr : Nat) → Byte

/-- The public key that an image or blob header is to be verified with: scheme (0 ECDSA, 1 LMS), the header, byte index. The manual
gives the keys no place in the header (R520; log entry 6). -/
opaque imageKey : Nat → List Byte → Nat → Byte

/-- The private scalar, from 1 to the group order less 1, that a derived 48-byte seed stands for (R528; log entry 6). -/
opaque keyScalar : List Byte → Nat

/-- The LMS public key of a seed: seed, tree height, byte index (R528; log entry 6). -/
opaque lmsPublic : List Byte → Nat → Nat → Byte

/-- The LMS signature of a seed: seed, tree height, leaf, message, byte index (R529; log entry 6). -/
opaque lmsSign : List Byte → Nat → Nat → List Byte → Nat → Byte

/-- The alias certificate in DER that Sage signs (R528): alias public keys, measurements, byte index; and its length. -/
opaque aliasCert : List Byte → List (List Byte) → Nat → Byte

/-- The length of that certificate. -/
opaque aliasCertLen : List Byte → List (List Byte) → Nat

/-- Whether a certificate chain is valid and ends in one of the trust anchors (R395). -/
opaque chainOk : List (List Byte) → List Byte → Bool

/-- The leaf certificate's P-384 public key, byte by byte (R395). -/
opaque chainKey : List Byte → Nat → Byte

/-- The role that the leaf's extension carries (R395): 0 TENANT, 1 OPERATOR, 2 REPOSITORY. -/
opaque chainRole : List Byte → Nat

/-- The tenant number that the leaf's extension carries (R395). -/
opaque chainTenant : List Byte → Word

/-- The digest of the Sage boot ROM, byte by byte (R531; log entry 6). -/
opaque romDigest : Nat → Byte

/-- The release number that a Sceman component carries (R546; log entry 6). -/
opaque scemanRelease : List Byte → Byte

/-- The bytes of SPDM messages that the manual gives no value for: message code and index (R530; log entry 6). -/
opaque spdmByte : Nat → Nat → Byte

/-- The fixed pattern that ALIGN frames carry (R357: the manual does not give it), byte by byte. -/
opaque alignPattern : Nat → Byte

/-- The MAC address of an Ethernet port, byte by byte: the manual gives none (log entry 29). -/
opaque portMac : Nat → Nat → Byte

/-- Time to live and identification of the IP packets the device sends: the manual gives none (log entry 29). -/
opaque ipTtl : Nat

/-- The identification field of an IPv4 packet, by the state's counter. -/
opaque ipIdent : Nat → Nat

/-- The free receive buffer of a session when it holds nothing, in units of 4 KiB (R402: the manual gives no size; log entry 29). -/
opaque rxBuffer : Nat

/-- The coded bytes of a picture of a segment (R409, R413): the SUBMIT record with its conditioning, the installed model, the compiled
job, the escalation decisions, the segment's index and the picture's (log entry 33). -/
opaque sample : (rcd model job : List Byte) → (decisions index picture : Nat) → List Byte

/-- The codec configuration in a sample entry, parameter sets or sequence header among it: the record, the installed model and the
compiled job (R413; log entry 33). -/
opaque codecConfig : (rcd model job : List Byte) → List Byte

/-- The bytes of boxes that the manual gives no value for: the record, the model and the job, which box, byte index (R413; log entry
33). -/
opaque boxByte : (rcd model job : List Byte) → (box i : Nat) → Byte

/-- The MTU that a port runs with when its MTU field lies outside 1,280 to 9,216, less 1,280 (R389 gives no outcome; log entry 29). -/
opaque oddMtu : Nat → Nat

/-- The ports of a session's port set, as bits, beside the port of its handshake (R395 names no source for it; log entry 31). -/
opaque sessionPorts : Nat → Nat

/-- The retransmission timer and probe interval of a path that has no RTT sample yet, in units of 10 ns (R403, R406; log entry 31). -/
opaque firstTimer : Nat

/-- What a REPOSITORY peer's message carries (R407 gives it no layout; log entry 32): 0 data that only lands in T1, 1 a model, 2 a
compiled variant, 3 a chain. -/
opaque contentKind : List Byte → Nat

/-- The numbers in such content, by field and index: of a model, variant or chain (log entry 32). -/
opaque contentNum : List Byte → (field i : Nat) → Nat

/-- The bits of block row `r` in tile column `tile` of a picture coded at a QP, by the picture's inputs and the QPs of the rows before
it: the encoder's decisions are its own (R417, R429, R433; log entry 10). -/
opaque fenBits : (inputs : List (List Byte)) → (before : List Nat) → (r tile qp : Nat) → Nat

/-- Byte `i` of the substream of row `r` (HEVC) or tile `r` (AV1) of a picture coded at row QPs, before emulation prevention (log entry
10). -/
opaque fenByte : (inputs : List (List Byte)) → (qps : List Nat) → (r i : Nat) → Byte

/-- The target of row `r` where the row weights sum to 0: R431 divides by the sum (log entry 10). -/
opaque fenOddTarget : (inputs : List (List Byte)) → (r : Nat) → Nat

/-- The mean row QP where the row weights sum to 0 (R425; log entry 10). -/
opaque fenOddMean : (inputs : List (List Byte)) → Nat

/-- A byte of the reconstruction of a picture: inputs, row QPs, plane (0 luma, 1 chroma), index (R433; log entry 10). -/
opaque fenRecon : (inputs : List (List Byte)) → (qps : List Nat) → (plane i : Nat) → Byte

/-- A byte of the stream context after a picture (R426, R433; log entry 10). -/
opaque fenContext : (inputs : List (List Byte)) → (qps : List Nat) → (i : Nat) → Byte

/-- What decoding a picture finds: 0 done, 1 syntax error, 2 unsupported stream (R425, R432; log entry 10). -/
opaque fenFinds : (inputs : List (List Byte)) → Nat

end Sys2Proof.Config
end

