-- ==== Sys2Proof/Machine/Regs.lean ====
section
/-!
DEFINITION. The register names of the manual's register tables with each register's fields, reset word and access masks
(types RW, RO, WO, W1C, RWL as R13 states them; Reserved bits read as 0, R16), and where R543 places each in the
register space. Fuse-backed fields (OWNER, PRODUCTION, MINSVN) reset to 0 here (log entry 2).
-/

set_option Elab.async false

namespace Sys2Proof.Machine

open Sys2Proof

/-- The registers of the manual, by name; an indexed register is a name and an index. -/
inductive RegName where
  /-- TE_CVTCNTA[n] (R74). -/
  | teCvtcnta
  /-- TE_CVTCNTB[n] (R74). -/
  | teCvtcntb
  /-- TE_CVTCLR[n] (R74). -/
  | teCvtclr
  /-- EG_STAT[n] (R105). -/
  | egStat
  /-- TE_SPILLCNT[n] (R106). -/
  | teSpillcnt
  /-- TE_SPILLCLR[n] (R106). -/
  | teSpillclr
  /-- SYS_SENTSEED_LO[p] (R126). -/
  | sysSentseedLo
  /-- SYS_SENTSEED_HI[p] (R126). -/
  | sysSentseedHi
  /-- SYS_ESCBASE_LO[p] (R126). -/
  | sysEscbaseLo
  /-- SYS_ESCBASE_HI[p] (R126). -/
  | sysEscbaseHi
  /-- EG_SENTSTAT[n] (R126). -/
  | egSentstat
  /-- EG_SENTCLR[n] (R126). -/
  | egSentclr
  /-- SFU_STAT[n] (R153). -/
  | sfuStat
  /-- SFU_STATCLR[n] (R153). -/
  | sfuStatclr
  /-- SFU_TBLSTAT[n] (R153). -/
  | sfuTblstat
  /-- SFU_TBLLOADED[n] (R153). -/
  | sfuTblloaded
  /-- WAG_STAT[n] (R208). -/
  | wagStat
  /-- EG_BSTAT[n] (R231). -/
  | egBstat
  /-- EG_BFAULTPC_LO[n] (R231). -/
  | egBfaultpcLo
  /-- EG_BFAULTPC_HI[n] (R231). -/
  | egBfaultpcHi
  /-- Q_RINGBASE_LO[n] (R266). -/
  | qRingbaseLo
  /-- Q_RINGBASE_HI[n] (R266). -/
  | qRingbaseHi
  /-- Q_CMPBASE_LO[n] (R266). -/
  | qCmpbaseLo
  /-- Q_CMPBASE_HI[n] (R266). -/
  | qCmpbaseHi
  /-- Q_CFG[n] (R266). -/
  | qCfg
  /-- Q_DOORBELL[n] (R266). -/
  | qDoorbell
  /-- Q_STAT[n] (R266). -/
  | qStat
  /-- Q_CTRL[n] (R266). -/
  | qCtrl
  /-- Q_CMPIDX[n] (R266). -/
  | qCmpidx
  /-- Q_CMPLOST[n] (R266). -/
  | qCmplost
  /-- CP_BOUND[n] (R267). -/
  | cpBound
  /-- CP_BNDBASE_LO[p] (R267). -/
  | cpBndbaseLo
  /-- CP_BNDBASE_HI[p] (R267). -/
  | cpBndbaseHi
  /-- CP_TSBASE_LO[p] (R267). -/
  | cpTsbaseLo
  /-- CP_TSBASE_HI[p] (R267). -/
  | cpTsbaseHi
  /-- CP_TSCOUNT[p] (R267). -/
  | cpTscount
  /-- CP_WATCH[p] (R267). -/
  | cpWatch
  /-- CP_STAT[f] (R267). -/
  | cpStat
  /-- CP_STATCLR[f] (R267). -/
  | cpStatclr
  /-- SYNC_OBJ[n] (R268). -/
  | syncObj
  /-- SYNC_CFG[n] (R268). -/
  | syncCfg
  /-- SYS_COORD (R279). -/
  | sysCoord
  /-- MEM_T1WIN[4p + f] (R327). -/
  | memT1win
  /-- MEM_MSWIN[4p + f] (R327). -/
  | memMswin
  /-- MEM_T2WIN[p] (R327). -/
  | memT2win
  /-- MEM_T3DUE[d] (R327). -/
  | memT3due
  /-- MEM_ECCSTAT[c] (R327). -/
  | memEccstat
  /-- MEM_SLOTMISS[c] (R327). -/
  | memSlotmiss
  /-- MEM_STATCLR[c] (R327). -/
  | memStatclr
  /-- MEM_REPAIR[c] (R327). -/
  | memRepair
  /-- MEM_UEADDR_LO (R327). -/
  | memUeaddrLo
  /-- MEM_UEADDR_HI (R327). -/
  | memUeaddrHi
  /-- CMP_TBLSTAT[n] (R346). -/
  | cmpTblstat
  /-- CMP_STAT[n] (R346). -/
  | cmpStat
  /-- CMP_STATCLR[n] (R346). -/
  | cmpStatclr
  /-- LNK_CFG[k] (R386). -/
  | lnkCfg
  /-- LNK_STAT[k] (R386). -/
  | lnkStat
  /-- LNK_ERRCNT[k] (R386). -/
  | lnkErrcnt
  /-- LNK_STATCLR[k] (R386). -/
  | lnkStatclr
  /-- LNK_SWTAB[32k + i] (R386). -/
  | lnkSwtab
  /-- CE_GRPTAB_LO (R386). -/
  | ceGrptabLo
  /-- CE_GRPTAB_HI (R386). -/
  | ceGrptabHi
  /-- CE_GRPCTL (R386). -/
  | ceGrpctl
  /-- CE_GRPSTAT[g] (R386). -/
  | ceGrpstat
  /-- CE_COLLWATCH (R386). -/
  | ceCollwatch
  /-- CE_RETRY (R386). -/
  | ceRetry
  /-- ETH_CFG[e] (R415). -/
  | ethCfg
  /-- ETH_STAT[e] (R415). -/
  | ethStat
  /-- ETH_DROP[e] (R415). -/
  | ethDrop
  /-- ETH_DROPCLR[e] (R415). -/
  | ethDropclr
  /-- ETH_UDPPORT (R415). -/
  | ethUdpport
  /-- ETH_CCTGT (R415). -/
  | ethCctgt
  /-- FEN_CTL (R435). -/
  | fenCtl
  /-- FEN_PDQBASE_LO (R435). -/
  | fenPdqbaseLo
  /-- FEN_PDQBASE_HI (R435). -/
  | fenPdqbaseHi
  /-- FEN_PDQTAIL (R435). -/
  | fenPdqtail
  /-- FEN_STAT (R435). -/
  | fenStat
  /-- FEN_CNT (R435). -/
  | fenCnt
  /-- SYS_PARTMAP (R459). -/
  | sysPartmap
  /-- SYS_PARTCFG[p] (R459). -/
  | sysPartcfg
  /-- CP_QJOB[n] (R459). -/
  | cpQjob
  /-- CP_JOB[8p + j] (R459). -/
  | cpJob
  /-- CP_JDEADLINE[8p + j] (R459). -/
  | cpJdeadline
  /-- CP_JSAVE_LO[8p + j] (R459). -/
  | cpJsaveLo
  /-- CP_JSAVE_HI[8p + j] (R459). -/
  | cpJsaveHi
  /-- CP_WHEEL[64n + i] (R459). -/
  | cpWheel
  /-- CP_WLEN[n] (R459). -/
  | cpWlen
  /-- CP_JCTL (R459). -/
  | cpJctl
  /-- CP_JSTAT[8p + j] (R459). -/
  | cpJstat
  /-- CP_JDLCNT[8p + j] (R459). -/
  | cpJdlcnt
  /-- CP_JWAIT[8p + j] (R459). -/
  | cpJwait
  /-- CP_JHIST[16 × (8p + j) + b] (R459). -/
  | cpJhist
  /-- CP_WSTAT[n] (R459). -/
  | cpWstat
  /-- CP_WSTATCLR[n] (R459). -/
  | cpWstatclr
  /-- MEM_WHEEL[32c + i] (R459). -/
  | memWheel
  /-- TRN_STAT[n] (R475). -/
  | trnStat
  /-- TRN_FROZEN[n] (R475). -/
  | trnFrozen
  /-- TRN_STATCLR[n] (R475). -/
  | trnStatclr
  /-- PWR_CAP (R495). -/
  | pwrCap
  /-- PWR_BUDGET[p] (R495). -/
  | pwrBudget
  /-- PWR_RESERVE (R495). -/
  | pwrReserve
  /-- PWR_EWIN[a] (R495). -/
  | pwrEwin
  /-- PWR_OVER[p] (R495). -/
  | pwrOver
  /-- PWR_WINSEQ (R495). -/
  | pwrWinseq
  /-- PWR_TEMP[s] (R495). -/
  | pwrTemp
  /-- PWR_STAT (R495). -/
  | pwrStat
  /-- CLK_NOM (R495). -/
  | clkNom
  /-- CLK_STAT (R495). -/
  | clkStat
  /-- PWR_STATCLR (R495). -/
  | pwrStatclr
  /-- SYS_DETSTAT[p] (R506). -/
  | sysDetstat
  /-- SYS_DETCLR[p] (R506). -/
  | sysDetclr
  /-- BOOT_STAT (R532). -/
  | bootStat
  /-- BOOT_CTL (R532). -/
  | bootCtl
  /-- BOOT_HADDR_LO (R532). -/
  | bootHaddrLo
  /-- BOOT_HADDR_HI (R532). -/
  | bootHaddrHi
  /-- SYS_SEASON (R532). -/
  | sysSeason
  /-- SYS_PSEASON[p] (R532). -/
  | sysPseason
  /-- SYS_AUTUMNLIM (R532). -/
  | sysAutumnlim
  /-- SYS_RSTCAUSE (R532). -/
  | sysRstcause
  /-- SEC_STAT (R532). -/
  | secStat
  /-- SEC_SVN (R532). -/
  | secSvn
  /-- SEC_CTL (R532). -/
  | secCtl
  /-- CAP_HEAD (R554). -/
  | capHead
  /-- PCI_FNMAP[d] (R554). -/
  | pciFnmap
  /-- PCI_VFCTL[d] (R554). -/
  | pciVfctl
  /-- PCI_T3XLAT_LO[d] (R554). -/
  | pciT3xlatLo
  /-- PCI_T3XLAT_HI[d] (R554). -/
  | pciT3xlatHi
  /-- PCI_STAT[d] (R554). -/
  | pciStat
  /-- PCI_ERRCNT[d] (R554). -/
  | pciErrcnt
  /-- Q_VEC[n] (R554). -/
  | qVec
  /-- SYS_EVBASE_LO[f] (R554). -/
  | sysEvbaseLo
  /-- SYS_EVBASE_HI[f] (R554). -/
  | sysEvbaseHi
  /-- SYS_EVCFG[f] (R554). -/
  | sysEvcfg
  /-- SYS_EVIDX[f] (R554). -/
  | sysEvidx
  /-- SYS_EVLOST[f] (R554). -/
  | sysEvlost
  deriving DecidableEq, Repr

/-- A number for each register name, so that a name and an index give one key. -/
def RegName.code : RegName → Nat
  | .teCvtcnta => 0
  | .teCvtcntb => 1
  | .teCvtclr => 2
  | .egStat => 3
  | .teSpillcnt => 4
  | .teSpillclr => 5
  | .sysSentseedLo => 6
  | .sysSentseedHi => 7
  | .sysEscbaseLo => 8
  | .sysEscbaseHi => 9
  | .egSentstat => 10
  | .egSentclr => 11
  | .sfuStat => 12
  | .sfuStatclr => 13
  | .sfuTblstat => 14
  | .sfuTblloaded => 15
  | .wagStat => 16
  | .egBstat => 17
  | .egBfaultpcLo => 18
  | .egBfaultpcHi => 19
  | .qRingbaseLo => 20
  | .qRingbaseHi => 21
  | .qCmpbaseLo => 22
  | .qCmpbaseHi => 23
  | .qCfg => 24
  | .qDoorbell => 25
  | .qStat => 26
  | .qCtrl => 27
  | .qCmpidx => 28
  | .qCmplost => 29
  | .cpBound => 30
  | .cpBndbaseLo => 31
  | .cpBndbaseHi => 32
  | .cpTsbaseLo => 33
  | .cpTsbaseHi => 34
  | .cpTscount => 35
  | .cpWatch => 36
  | .cpStat => 37
  | .cpStatclr => 38
  | .syncObj => 39
  | .syncCfg => 40
  | .sysCoord => 41
  | .memT1win => 42
  | .memMswin => 43
  | .memT2win => 44
  | .memT3due => 45
  | .memEccstat => 46
  | .memSlotmiss => 47
  | .memStatclr => 48
  | .memRepair => 49
  | .memUeaddrLo => 50
  | .memUeaddrHi => 51
  | .cmpTblstat => 52
  | .cmpStat => 53
  | .cmpStatclr => 54
  | .lnkCfg => 55
  | .lnkStat => 56
  | .lnkErrcnt => 57
  | .lnkStatclr => 58
  | .lnkSwtab => 59
  | .ceGrptabLo => 60
  | .ceGrptabHi => 61
  | .ceGrpctl => 62
  | .ceGrpstat => 63
  | .ceCollwatch => 64
  | .ceRetry => 65
  | .ethCfg => 66
  | .ethStat => 67
  | .ethDrop => 68
  | .ethDropclr => 69
  | .ethUdpport => 70
  | .ethCctgt => 71
  | .fenCtl => 72
  | .fenPdqbaseLo => 73
  | .fenPdqbaseHi => 74
  | .fenPdqtail => 75
  | .fenStat => 76
  | .fenCnt => 77
  | .sysPartmap => 78
  | .sysPartcfg => 79
  | .cpQjob => 80
  | .cpJob => 81
  | .cpJdeadline => 82
  | .cpJsaveLo => 83
  | .cpJsaveHi => 84
  | .cpWheel => 85
  | .cpWlen => 86
  | .cpJctl => 87
  | .cpJstat => 88
  | .cpJdlcnt => 89
  | .cpJwait => 90
  | .cpJhist => 91
  | .cpWstat => 92
  | .cpWstatclr => 93
  | .memWheel => 94
  | .trnStat => 95
  | .trnFrozen => 96
  | .trnStatclr => 97
  | .pwrCap => 98
  | .pwrBudget => 99
  | .pwrReserve => 100
  | .pwrEwin => 101
  | .pwrOver => 102
  | .pwrWinseq => 103
  | .pwrTemp => 104
  | .pwrStat => 105
  | .clkNom => 106
  | .clkStat => 107
  | .pwrStatclr => 108
  | .sysDetstat => 109
  | .sysDetclr => 110
  | .bootStat => 111
  | .bootCtl => 112
  | .bootHaddrLo => 113
  | .bootHaddrHi => 114
  | .sysSeason => 115
  | .sysPseason => 116
  | .sysAutumnlim => 117
  | .sysRstcause => 118
  | .secStat => 119
  | .secSvn => 120
  | .secCtl => 121
  | .capHead => 122
  | .pciFnmap => 123
  | .pciVfctl => 124
  | .pciT3xlatLo => 125
  | .pciT3xlatHi => 126
  | .pciStat => 127
  | .pciErrcnt => 128
  | .qVec => 129
  | .sysEvbaseLo => 130
  | .sysEvbaseHi => 131
  | .sysEvcfg => 132
  | .sysEvidx => 133
  | .sysEvlost => 134

/-- The Reset column of the register table: the value after the reset that covers the register. -/
def RegName.resetWord : RegName → Word
  | .teCvtcnta => 0x00000000#32
  | .teCvtcntb => 0x00000000#32
  | .teCvtclr => 0x00000000#32
  | .egStat => 0x00000000#32
  | .teSpillcnt => 0x00000000#32
  | .teSpillclr => 0x00000000#32
  | .sysSentseedLo => 0x00000000#32
  | .sysSentseedHi => 0x00000000#32
  | .sysEscbaseLo => 0x00000000#32
  | .sysEscbaseHi => 0x00000000#32
  | .egSentstat => 0x00000000#32
  | .egSentclr => 0x00000000#32
  | .sfuStat => 0x00000000#32
  | .sfuStatclr => 0x00000000#32
  | .sfuTblstat => 0x00000000#32
  | .sfuTblloaded => 0x00000000#32
  | .wagStat => 0x00000000#32
  | .egBstat => 0x00000000#32
  | .egBfaultpcLo => 0x00000000#32
  | .egBfaultpcHi => 0x00000000#32
  | .qRingbaseLo => 0x00000000#32
  | .qRingbaseHi => 0x00000000#32
  | .qCmpbaseLo => 0x00000000#32
  | .qCmpbaseHi => 0x00000000#32
  | .qCfg => 0x00000000#32
  | .qDoorbell => 0x00000000#32
  | .qStat => 0x00000000#32
  | .qCtrl => 0x00000000#32
  | .qCmpidx => 0x00000000#32
  | .qCmplost => 0x00000000#32
  | .cpBound => 0x00000000#32
  | .cpBndbaseLo => 0x00000000#32
  | .cpBndbaseHi => 0x00000000#32
  | .cpTsbaseLo => 0x00000000#32
  | .cpTsbaseHi => 0x00000000#32
  | .cpTscount => 0x00000000#32
  | .cpWatch => 0x00000000#32
  | .cpStat => 0x00000000#32
  | .cpStatclr => 0x00000000#32
  | .syncObj => 0x00000000#32
  | .syncCfg => 0x00000000#32
  | .sysCoord => 0x00000000#32
  | .memT1win => 0x00000000#32
  | .memMswin => 0x00000000#32
  | .memT2win => 0x00000000#32
  | .memT3due => 0x000009C4#32
  | .memEccstat => 0x00000000#32
  | .memSlotmiss => 0x00000000#32
  | .memStatclr => 0x00000000#32
  | .memRepair => 0x00000000#32
  | .memUeaddrLo => 0x00000000#32
  | .memUeaddrHi => 0x00000000#32
  | .cmpTblstat => 0x00000000#32
  | .cmpStat => 0x00000000#32
  | .cmpStatclr => 0x00000000#32
  | .lnkCfg => 0x00000000#32
  | .lnkStat => 0x00000000#32
  | .lnkErrcnt => 0x00000000#32
  | .lnkStatclr => 0x00000000#32
  | .lnkSwtab => 0xFFFFFFFF#32
  | .ceGrptabLo => 0x00000000#32
  | .ceGrptabHi => 0x00000000#32
  | .ceGrpctl => 0x00000000#32
  | .ceGrpstat => 0x00000000#32
  | .ceCollwatch => 0x000F4240#32
  | .ceRetry => 0x27100064#32
  | .ethCfg => 0x00023280#32
  | .ethStat => 0x00000000#32
  | .ethDrop => 0x00000000#32
  | .ethDropclr => 0x00000000#32
  | .ethUdpport => 0xC000BDF7#32
  | .ethCctgt => 0x000003E8#32
  | .fenCtl => 0x00000008#32
  | .fenPdqbaseLo => 0x00000000#32
  | .fenPdqbaseHi => 0x00000000#32
  | .fenPdqtail => 0x00000000#32
  | .fenStat => 0x00000000#32
  | .fenCnt => 0x00000000#32
  | .sysPartmap => 0x88888888#32
  | .sysPartcfg => 0x00000000#32
  | .cpQjob => 0x00000000#32
  | .cpJob => 0x00000000#32
  | .cpJdeadline => 0x00000000#32
  | .cpJsaveLo => 0x00000000#32
  | .cpJsaveHi => 0x00000000#32
  | .cpWheel => 0x00100010#32
  | .cpWlen => 0x00000001#32
  | .cpJctl => 0x00000000#32
  | .cpJstat => 0x00000000#32
  | .cpJdlcnt => 0x00000000#32
  | .cpJwait => 0x00000000#32
  | .cpJhist => 0x00000000#32
  | .cpWstat => 0x00000000#32
  | .cpWstatclr => 0x00000000#32
  | .memWheel => 0x00000000#32
  | .trnStat => 0x00000000#32
  | .trnFrozen => 0x00000000#32
  | .trnStatclr => 0x00000000#32
  | .pwrCap => 0x0B546B6C#32
  | .pwrBudget => 0x00000000#32
  | .pwrReserve => 0x00000000#32
  | .pwrEwin => 0x00000000#32
  | .pwrOver => 0x00000000#32
  | .pwrWinseq => 0x00000000#32
  | .pwrTemp => 0x00000000#32
  | .pwrStat => 0x00003FFC#32
  | .clkNom => 0x0000000F#32
  | .clkStat => 0x0000000F#32
  | .pwrStatclr => 0x00000000#32
  | .sysDetstat => 0x00000000#32
  | .sysDetclr => 0x00000000#32
  | .bootStat => 0x00000000#32
  | .bootCtl => 0x00000000#32
  | .bootHaddrLo => 0x00000000#32
  | .bootHaddrHi => 0x00000000#32
  | .sysSeason => 0x00000000#32
  | .sysPseason => 0x00000000#32
  | .sysAutumnlim => 0x0003B9AC#32
  | .sysRstcause => 0x00000001#32
  | .secStat => 0x00000000#32
  | .secSvn => 0x00000000#32
  | .secCtl => 0x00000000#32
  | .capHead => 0x00080010#32
  | .pciFnmap => 0x00000000#32
  | .pciVfctl => 0x00000000#32
  | .pciT3xlatLo => 0x00000000#32
  | .pciT3xlatHi => 0x00000000#32
  | .pciStat => 0x00000000#32
  | .pciErrcnt => 0x00000000#32
  | .qVec => 0x0000F800#32
  | .sysEvbaseLo => 0x00000000#32
  | .sysEvbaseHi => 0x00000000#32
  | .sysEvcfg => 0x00000000#32
  | .sysEvidx => 0x00000000#32
  | .sysEvlost => 0x00000000#32

/-- The bits of type RW (R13). -/
def RegName.rwMask : RegName → Word
  | .teCvtcnta => 0x00000000#32
  | .teCvtcntb => 0x00000000#32
  | .teCvtclr => 0x00000000#32
  | .egStat => 0x00000000#32
  | .teSpillcnt => 0x00000000#32
  | .teSpillclr => 0x00000000#32
  | .sysSentseedLo => 0xFFFFFFFF#32
  | .sysSentseedHi => 0xFFFFFFFF#32
  | .sysEscbaseLo => 0xFFFFFFFF#32
  | .sysEscbaseHi => 0xFFFFFFFF#32
  | .egSentstat => 0x00000000#32
  | .egSentclr => 0x00000000#32
  | .sfuStat => 0x00000000#32
  | .sfuStatclr => 0x00000000#32
  | .sfuTblstat => 0x00000000#32
  | .sfuTblloaded => 0x00000000#32
  | .wagStat => 0x00000000#32
  | .egBstat => 0x00000000#32
  | .egBfaultpcLo => 0x00000000#32
  | .egBfaultpcHi => 0x00000000#32
  | .qRingbaseLo => 0xFFFFFFFF#32
  | .qRingbaseHi => 0xFFFFFFFF#32
  | .qCmpbaseLo => 0xFFFFFFFF#32
  | .qCmpbaseHi => 0xFFFFFFFF#32
  | .qCfg => 0x0000FFFF#32
  | .qDoorbell => 0x00000000#32
  | .qStat => 0x00000000#32
  | .qCtrl => 0x00000000#32
  | .qCmpidx => 0xFFFF0000#32
  | .qCmplost => 0x00000000#32
  | .cpBound => 0xFFFFFFFF#32
  | .cpBndbaseLo => 0xFFFFFFFF#32
  | .cpBndbaseHi => 0xFFFFFFFF#32
  | .cpTsbaseLo => 0xFFFFFFFF#32
  | .cpTsbaseHi => 0xFFFFFFFF#32
  | .cpTscount => 0xFFFFFFFF#32
  | .cpWatch => 0xFFFFFFFF#32
  | .cpStat => 0x00000000#32
  | .cpStatclr => 0x00000000#32
  | .syncObj => 0xFFFFFFFF#32
  | .syncCfg => 0x0000000F#32
  | .sysCoord => 0x00000000#32
  | .memT1win => 0x0000FFFF#32
  | .memMswin => 0x000001FF#32
  | .memT2win => 0x007FFFFF#32
  | .memT3due => 0x0000FFFF#32
  | .memEccstat => 0x00000000#32
  | .memSlotmiss => 0x00000000#32
  | .memStatclr => 0x00000000#32
  | .memRepair => 0x00000000#32
  | .memUeaddrLo => 0x00000000#32
  | .memUeaddrHi => 0x00000000#32
  | .cmpTblstat => 0x00000000#32
  | .cmpStat => 0x00000000#32
  | .cmpStatclr => 0x00000000#32
  | .lnkCfg => 0x00000001#32
  | .lnkStat => 0x00000000#32
  | .lnkErrcnt => 0x00000000#32
  | .lnkStatclr => 0x00000000#32
  | .lnkSwtab => 0xFFFFFFFF#32
  | .ceGrptabLo => 0xFFFFFFFF#32
  | .ceGrptabHi => 0xFFFFFFFF#32
  | .ceGrpctl => 0x00000000#32
  | .ceGrpstat => 0x00000000#32
  | .ceCollwatch => 0xFFFFFFFF#32
  | .ceRetry => 0xFFFFFFFF#32
  | .ethCfg => 0x7FFFFFFF#32
  | .ethStat => 0x00000000#32
  | .ethDrop => 0x00000000#32
  | .ethDropclr => 0x00000000#32
  | .ethUdpport => 0xFFFFFFFF#32
  | .ethCctgt => 0x0000FFFF#32
  | .fenCtl => 0x0000001F#32
  | .fenPdqbaseLo => 0xFFFFFFFF#32
  | .fenPdqbaseHi => 0xFFFFFFFF#32
  | .fenPdqtail => 0x00000FFF#32
  | .fenStat => 0x00000000#32
  | .fenCnt => 0x00000000#32
  | .sysPartmap => 0xFFFFFFFF#32
  | .sysPartcfg => 0x000001FF#32
  | .cpQjob => 0x00000007#32
  | .cpJob => 0x001FFFFF#32
  | .cpJdeadline => 0xFFFFFFFF#32
  | .cpJsaveLo => 0xFFFFFFFF#32
  | .cpJsaveHi => 0xFFFFFFFF#32
  | .cpWheel => 0xFFFFFFFF#32
  | .cpWlen => 0x000000FF#32
  | .cpJctl => 0x00000000#32
  | .cpJstat => 0x00000000#32
  | .cpJdlcnt => 0x00000000#32
  | .cpJwait => 0x00000000#32
  | .cpJhist => 0x00000000#32
  | .cpWstat => 0x00000000#32
  | .cpWstatclr => 0x00000000#32
  | .memWheel => 0xFFFFFFFF#32
  | .trnStat => 0x00000000#32
  | .trnFrozen => 0x00000000#32
  | .trnStatclr => 0x00000000#32
  | .pwrCap => 0x00000000#32
  | .pwrBudget => 0x0000FFFF#32
  | .pwrReserve => 0x0000FFFF#32
  | .pwrEwin => 0x00000000#32
  | .pwrOver => 0x00000000#32
  | .pwrWinseq => 0x00000000#32
  | .pwrTemp => 0x00000000#32
  | .pwrStat => 0x00000000#32
  | .clkNom => 0x0000000F#32
  | .clkStat => 0x00000000#32
  | .pwrStatclr => 0x00000000#32
  | .sysDetstat => 0x00000000#32
  | .sysDetclr => 0x00000000#32
  | .bootStat => 0x00000000#32
  | .bootCtl => 0x00000039#32
  | .bootHaddrLo => 0xFFFFFFFF#32
  | .bootHaddrHi => 0xFFFFFFFF#32
  | .sysSeason => 0x00000000#32
  | .sysPseason => 0x00000000#32
  | .sysAutumnlim => 0xFFFFFFFF#32
  | .sysRstcause => 0x00000000#32
  | .secStat => 0x00000000#32
  | .secSvn => 0x00000000#32
  | .secCtl => 0x00000000#32
  | .capHead => 0x00000000#32
  | .pciFnmap => 0xFFFFFFFF#32
  | .pciVfctl => 0x000000FF#32
  | .pciT3xlatLo => 0xFFFFFFFF#32
  | .pciT3xlatHi => 0xFFFFFFFF#32
  | .pciStat => 0x00000000#32
  | .pciErrcnt => 0x00000000#32
  | .qVec => 0x0001FFFF#32
  | .sysEvbaseLo => 0xFFFFFFFF#32
  | .sysEvbaseHi => 0xFFFFFFFF#32
  | .sysEvcfg => 0x0FFF00FF#32
  | .sysEvidx => 0xFFFF0000#32
  | .sysEvlost => 0x00000000#32

/-- The bits of type W1C (R13, R14). -/
def RegName.w1cMask : RegName → Word
  | .teCvtcnta => 0x00000000#32
  | .teCvtcntb => 0x00000000#32
  | .teCvtclr => 0x00000000#32
  | .egStat => 0x00000700#32
  | .teSpillcnt => 0x00000000#32
  | .teSpillclr => 0x00000000#32
  | .sysSentseedLo => 0x00000000#32
  | .sysSentseedHi => 0x00000000#32
  | .sysEscbaseLo => 0x00000000#32
  | .sysEscbaseHi => 0x00000000#32
  | .egSentstat => 0x00000000#32
  | .egSentclr => 0x00000000#32
  | .sfuStat => 0x00000000#32
  | .sfuStatclr => 0x00000000#32
  | .sfuTblstat => 0x00000000#32
  | .sfuTblloaded => 0x00000000#32
  | .wagStat => 0x00000006#32
  | .egBstat => 0x00010000#32
  | .egBfaultpcLo => 0x00000000#32
  | .egBfaultpcHi => 0x00000000#32
  | .qRingbaseLo => 0x00000000#32
  | .qRingbaseHi => 0x00000000#32
  | .qCmpbaseLo => 0x00000000#32
  | .qCmpbaseHi => 0x00000000#32
  | .qCfg => 0x00000000#32
  | .qDoorbell => 0x00000000#32
  | .qStat => 0x01000000#32
  | .qCtrl => 0x00000000#32
  | .qCmpidx => 0x00000000#32
  | .qCmplost => 0x00000000#32
  | .cpBound => 0x00000000#32
  | .cpBndbaseLo => 0x00000000#32
  | .cpBndbaseHi => 0x00000000#32
  | .cpTsbaseLo => 0x00000000#32
  | .cpTsbaseHi => 0x00000000#32
  | .cpTscount => 0x00000000#32
  | .cpWatch => 0x00000000#32
  | .cpStat => 0x00000000#32
  | .cpStatclr => 0x00000000#32
  | .syncObj => 0x00000000#32
  | .syncCfg => 0x00000000#32
  | .sysCoord => 0x00000000#32
  | .memT1win => 0x00000000#32
  | .memMswin => 0x00000000#32
  | .memT2win => 0x00000000#32
  | .memT3due => 0x00000000#32
  | .memEccstat => 0x00000000#32
  | .memSlotmiss => 0x00000000#32
  | .memStatclr => 0x00000000#32
  | .memRepair => 0x00000000#32
  | .memUeaddrLo => 0x00000000#32
  | .memUeaddrHi => 0x00000000#32
  | .cmpTblstat => 0x00000000#32
  | .cmpStat => 0x00000000#32
  | .cmpStatclr => 0x00000000#32
  | .lnkCfg => 0x00000000#32
  | .lnkStat => 0x00400000#32
  | .lnkErrcnt => 0x00000000#32
  | .lnkStatclr => 0x00000000#32
  | .lnkSwtab => 0x00000000#32
  | .ceGrptabLo => 0x00000000#32
  | .ceGrptabHi => 0x00000000#32
  | .ceGrpctl => 0x00000000#32
  | .ceGrpstat => 0x00000000#32
  | .ceCollwatch => 0x00000000#32
  | .ceRetry => 0x00000000#32
  | .ethCfg => 0x00000000#32
  | .ethStat => 0x00000000#32
  | .ethDrop => 0x00000000#32
  | .ethDropclr => 0x00000000#32
  | .ethUdpport => 0x00000000#32
  | .ethCctgt => 0x00000000#32
  | .fenCtl => 0x00000000#32
  | .fenPdqbaseLo => 0x00000000#32
  | .fenPdqbaseHi => 0x00000000#32
  | .fenPdqtail => 0x00000000#32
  | .fenStat => 0x00004000#32
  | .fenCnt => 0x00000000#32
  | .sysPartmap => 0x00000000#32
  | .sysPartcfg => 0x00000000#32
  | .cpQjob => 0x00000000#32
  | .cpJob => 0x00000000#32
  | .cpJdeadline => 0x00000000#32
  | .cpJsaveLo => 0x00000000#32
  | .cpJsaveHi => 0x00000000#32
  | .cpWheel => 0x00000000#32
  | .cpWlen => 0x00000000#32
  | .cpJctl => 0x00000000#32
  | .cpJstat => 0x00000000#32
  | .cpJdlcnt => 0x00000000#32
  | .cpJwait => 0x00000000#32
  | .cpJhist => 0x00000000#32
  | .cpWstat => 0x00000000#32
  | .cpWstatclr => 0x00000000#32
  | .memWheel => 0x00000000#32
  | .trnStat => 0x00000000#32
  | .trnFrozen => 0x00000000#32
  | .trnStatclr => 0x00000000#32
  | .pwrCap => 0x00000000#32
  | .pwrBudget => 0x00000000#32
  | .pwrReserve => 0x00000000#32
  | .pwrEwin => 0x00000000#32
  | .pwrOver => 0x00000000#32
  | .pwrWinseq => 0x00000000#32
  | .pwrTemp => 0x00000000#32
  | .pwrStat => 0x00000000#32
  | .clkNom => 0x00000000#32
  | .clkStat => 0x00000000#32
  | .pwrStatclr => 0x00000000#32
  | .sysDetstat => 0x01000000#32
  | .sysDetclr => 0x00000000#32
  | .bootStat => 0x00000000#32
  | .bootCtl => 0x00000000#32
  | .bootHaddrLo => 0x00000000#32
  | .bootHaddrHi => 0x00000000#32
  | .sysSeason => 0x00000000#32
  | .sysPseason => 0x00000000#32
  | .sysAutumnlim => 0x00000000#32
  | .sysRstcause => 0x0000001F#32
  | .secStat => 0x00000000#32
  | .secSvn => 0x00000000#32
  | .secCtl => 0x00000000#32
  | .capHead => 0x00000000#32
  | .pciFnmap => 0x00000000#32
  | .pciVfctl => 0x00000000#32
  | .pciT3xlatLo => 0x00000000#32
  | .pciT3xlatHi => 0x00000000#32
  | .pciStat => 0x00000000#32
  | .pciErrcnt => 0x00000000#32
  | .qVec => 0x00000000#32
  | .sysEvbaseLo => 0x00000000#32
  | .sysEvbaseHi => 0x00000000#32
  | .sysEvcfg => 0x00000000#32
  | .sysEvidx => 0x00000000#32
  | .sysEvlost => 0x00000000#32

/-- The bits of type RWL (R13, R15). -/
def RegName.rwlMask : RegName → Word
  | .teCvtcnta => 0x00000000#32
  | .teCvtcntb => 0x00000000#32
  | .teCvtclr => 0x00000000#32
  | .egStat => 0x00000000#32
  | .teSpillcnt => 0x00000000#32
  | .teSpillclr => 0x00000000#32
  | .sysSentseedLo => 0x00000000#32
  | .sysSentseedHi => 0x00000000#32
  | .sysEscbaseLo => 0x00000000#32
  | .sysEscbaseHi => 0x00000000#32
  | .egSentstat => 0x00000000#32
  | .egSentclr => 0x00000000#32
  | .sfuStat => 0x00000000#32
  | .sfuStatclr => 0x00000000#32
  | .sfuTblstat => 0x00000000#32
  | .sfuTblloaded => 0x00000000#32
  | .wagStat => 0x00000000#32
  | .egBstat => 0x00000000#32
  | .egBfaultpcLo => 0x00000000#32
  | .egBfaultpcHi => 0x00000000#32
  | .qRingbaseLo => 0x00000000#32
  | .qRingbaseHi => 0x00000000#32
  | .qCmpbaseLo => 0x00000000#32
  | .qCmpbaseHi => 0x00000000#32
  | .qCfg => 0x00000000#32
  | .qDoorbell => 0x00000000#32
  | .qStat => 0x00000000#32
  | .qCtrl => 0x00000000#32
  | .qCmpidx => 0x00000000#32
  | .qCmplost => 0x00000000#32
  | .cpBound => 0x00000000#32
  | .cpBndbaseLo => 0x00000000#32
  | .cpBndbaseHi => 0x00000000#32
  | .cpTsbaseLo => 0x00000000#32
  | .cpTsbaseHi => 0x00000000#32
  | .cpTscount => 0x00000000#32
  | .cpWatch => 0x00000000#32
  | .cpStat => 0x00000000#32
  | .cpStatclr => 0x00000000#32
  | .syncObj => 0x00000000#32
  | .syncCfg => 0x00000000#32
  | .sysCoord => 0x00000000#32
  | .memT1win => 0x00000000#32
  | .memMswin => 0x00000000#32
  | .memT2win => 0x00000000#32
  | .memT3due => 0x00000000#32
  | .memEccstat => 0x00000000#32
  | .memSlotmiss => 0x00000000#32
  | .memStatclr => 0x00000000#32
  | .memRepair => 0x00000000#32
  | .memUeaddrLo => 0x00000000#32
  | .memUeaddrHi => 0x00000000#32
  | .cmpTblstat => 0x00000000#32
  | .cmpStat => 0x00000000#32
  | .cmpStatclr => 0x00000000#32
  | .lnkCfg => 0x00000000#32
  | .lnkStat => 0x00000000#32
  | .lnkErrcnt => 0x00000000#32
  | .lnkStatclr => 0x00000000#32
  | .lnkSwtab => 0x00000000#32
  | .ceGrptabLo => 0x00000000#32
  | .ceGrptabHi => 0x00000000#32
  | .ceGrpctl => 0x00000000#32
  | .ceGrpstat => 0x00000000#32
  | .ceCollwatch => 0x00000000#32
  | .ceRetry => 0x00000000#32
  | .ethCfg => 0x00000000#32
  | .ethStat => 0x00000000#32
  | .ethDrop => 0x00000000#32
  | .ethDropclr => 0x00000000#32
  | .ethUdpport => 0x00000000#32
  | .ethCctgt => 0x00000000#32
  | .fenCtl => 0x00000000#32
  | .fenPdqbaseLo => 0x00000000#32
  | .fenPdqbaseHi => 0x00000000#32
  | .fenPdqtail => 0x00000000#32
  | .fenStat => 0x00000000#32
  | .fenCnt => 0x00000000#32
  | .sysPartmap => 0x00000000#32
  | .sysPartcfg => 0x00000000#32
  | .cpQjob => 0x00000000#32
  | .cpJob => 0x00000000#32
  | .cpJdeadline => 0x00000000#32
  | .cpJsaveLo => 0x00000000#32
  | .cpJsaveHi => 0x00000000#32
  | .cpWheel => 0x00000000#32
  | .cpWlen => 0x00000000#32
  | .cpJctl => 0x00000000#32
  | .cpJstat => 0x00000000#32
  | .cpJdlcnt => 0x00000000#32
  | .cpJwait => 0x00000000#32
  | .cpJhist => 0x00000000#32
  | .cpWstat => 0x00000000#32
  | .cpWstatclr => 0x00000000#32
  | .memWheel => 0x00000000#32
  | .trnStat => 0x00000000#32
  | .trnFrozen => 0x00000000#32
  | .trnStatclr => 0x00000000#32
  | .pwrCap => 0x8FFFFFFF#32
  | .pwrBudget => 0x00000000#32
  | .pwrReserve => 0x00000000#32
  | .pwrEwin => 0x00000000#32
  | .pwrOver => 0x00000000#32
  | .pwrWinseq => 0x00000000#32
  | .pwrTemp => 0x00000000#32
  | .pwrStat => 0x00000000#32
  | .clkNom => 0x00000000#32
  | .clkStat => 0x00000000#32
  | .pwrStatclr => 0x00000000#32
  | .sysDetstat => 0x00000000#32
  | .sysDetclr => 0x00000000#32
  | .bootStat => 0x00000000#32
  | .bootCtl => 0x00000000#32
  | .bootHaddrLo => 0x00000000#32
  | .bootHaddrHi => 0x00000000#32
  | .sysSeason => 0x00000000#32
  | .sysPseason => 0x00000000#32
  | .sysAutumnlim => 0x00000000#32
  | .sysRstcause => 0x00000000#32
  | .secStat => 0x00000000#32
  | .secSvn => 0x00000000#32
  | .secCtl => 0x00000000#32
  | .capHead => 0x00000000#32
  | .pciFnmap => 0x00000000#32
  | .pciVfctl => 0x00000000#32
  | .pciT3xlatLo => 0x00000000#32
  | .pciT3xlatHi => 0x00000000#32
  | .pciStat => 0x00000000#32
  | .pciErrcnt => 0x00000000#32
  | .qVec => 0x00000000#32
  | .sysEvbaseLo => 0x00000000#32
  | .sysEvbaseHi => 0x00000000#32
  | .sysEvcfg => 0x00000000#32
  | .sysEvidx => 0x00000000#32
  | .sysEvlost => 0x00000000#32

/-- A field of a register: bits [lo + width - 1 : lo]. -/
structure Fld where
  reg   : RegName
  lo    : Nat
  width : Nat
  deriving DecidableEq, Repr

namespace F

/-- RANGE_COUNT of TE_CVTCNTA[n], RO (R74). -/
def teCvtcnta_RANGE_COUNT : Fld := ⟨.teCvtcnta, 0, 16⟩
/-- NAN_COUNT of TE_CVTCNTA[n], RO (R74). -/
def teCvtcnta_NAN_COUNT : Fld := ⟨.teCvtcnta, 16, 16⟩
/-- UNDERFLOW_COUNT of TE_CVTCNTB[n], RO (R74). -/
def teCvtcntb_UNDERFLOW_COUNT : Fld := ⟨.teCvtcntb, 0, 16⟩
/-- BADCODE_COUNT of TE_CVTCNTB[n], RO (R74). -/
def teCvtcntb_BADCODE_COUNT : Fld := ⟨.teCvtcntb, 16, 16⟩
/-- CLEAR of TE_CVTCLR[n], WO (R74). -/
def teCvtclr_CLEAR : Fld := ⟨.teCvtclr, 0, 1⟩
/-- BUSY of EG_STAT[n], RO (R105). -/
def egStat_BUSY : Fld := ⟨.egStat, 0, 1⟩
/-- INFLIGHT of EG_STAT[n], RO (R105). -/
def egStat_INFLIGHT : Fld := ⟨.egStat, 1, 3⟩
/-- SLOTHELD of EG_STAT[n], RO (R105). -/
def egStat_SLOTHELD : Fld := ⟨.egStat, 4, 4⟩
/-- SPILLED of EG_STAT[n], W1C (R105). -/
def egStat_SPILLED : Fld := ⟨.egStat, 8, 1⟩
/-- MALFORMED of EG_STAT[n], W1C (R105). -/
def egStat_MALFORMED : Fld := ⟨.egStat, 9, 1⟩
/-- ECC_UNCORRECTED of EG_STAT[n], W1C (R105). -/
def egStat_ECC_UNCORRECTED : Fld := ⟨.egStat, 10, 1⟩
/-- PAIRS of TE_SPILLCNT[n], RO (R106). -/
def teSpillcnt_PAIRS : Fld := ⟨.teSpillcnt, 0, 32⟩
/-- CLEAR of TE_SPILLCLR[n], WO (R106). -/
def teSpillclr_CLEAR : Fld := ⟨.teSpillclr, 0, 1⟩
/-- SEED of SYS_SENTSEED_LO[p], RW (R126). -/
def sysSentseedLo_SEED : Fld := ⟨.sysSentseedLo, 0, 32⟩
/-- SEED of SYS_SENTSEED_HI[p], RW (R126). -/
def sysSentseedHi_SEED : Fld := ⟨.sysSentseedHi, 0, 32⟩
/-- BASE of SYS_ESCBASE_LO[p], RW (R126). -/
def sysEscbaseLo_BASE : Fld := ⟨.sysEscbaseLo, 0, 32⟩
/-- BASE of SYS_ESCBASE_HI[p], RW (R126). -/
def sysEscbaseHi_BASE : Fld := ⟨.sysEscbaseHi, 0, 32⟩
/-- PROBES of EG_SENTSTAT[n], RO (R126). -/
def egSentstat_PROBES : Fld := ⟨.egSentstat, 0, 16⟩
/-- DIVERGED of EG_SENTSTAT[n], RO (R126). -/
def egSentstat_DIVERGED : Fld := ⟨.egSentstat, 16, 16⟩
/-- CLEAR of EG_SENTCLR[n], WO (R126). -/
def egSentclr_CLEAR : Fld := ⟨.egSentclr, 0, 1⟩
/-- FLUSH_COUNT of SFU_STAT[n], RO (R153). -/
def sfuStat_FLUSH_COUNT : Fld := ⟨.sfuStat, 0, 16⟩
/-- DOMAIN_COUNT of SFU_STAT[n], RO (R153). -/
def sfuStat_DOMAIN_COUNT : Fld := ⟨.sfuStat, 16, 16⟩
/-- CLEAR of SFU_STATCLR[n], WO (R153). -/
def sfuStatclr_CLEAR : Fld := ⟨.sfuStatclr, 0, 1⟩
/-- PENDING of SFU_TBLSTAT[n], RO (R153). -/
def sfuTblstat_PENDING : Fld := ⟨.sfuTblstat, 0, 16⟩
/-- ACTIVE of SFU_TBLSTAT[n], RO (R153). -/
def sfuTblstat_ACTIVE : Fld := ⟨.sfuTblstat, 16, 16⟩
/-- LOADED of SFU_TBLLOADED[n], RO (R153). -/
def sfuTblloaded_LOADED : Fld := ⟨.sfuTblloaded, 0, 16⟩
/-- BUSY of WAG_STAT[n], RO (R208). -/
def wagStat_BUSY : Fld := ⟨.wagStat, 0, 1⟩
/-- MALFORMED of WAG_STAT[n], W1C (R208). -/
def wagStat_MALFORMED : Fld := ⟨.wagStat, 1, 1⟩
/-- ECC_UNCORRECTED of WAG_STAT[n], W1C (R208). -/
def wagStat_ECC_UNCORRECTED : Fld := ⟨.wagStat, 2, 1⟩
/-- NONFINITE_COUNT of WAG_STAT[n], RO (R208). -/
def wagStat_NONFINITE_COUNT : Fld := ⟨.wagStat, 16, 16⟩
/-- RUNNING of EG_BSTAT[n], RO (R231). -/
def egBstat_RUNNING : Fld := ⟨.egBstat, 0, 16⟩
/-- FAULT of EG_BSTAT[n], W1C (R231). -/
def egBstat_FAULT : Fld := ⟨.egBstat, 16, 1⟩
/-- FCORE of EG_BSTAT[n], RO (R231). -/
def egBstat_FCORE : Fld := ⟨.egBstat, 17, 4⟩
/-- FCAUSE of EG_BSTAT[n], RO (R231). -/
def egBstat_FCAUSE : Fld := ⟨.egBstat, 21, 5⟩
/-- PC of EG_BFAULTPC_LO[n], RO (R231). -/
def egBfaultpcLo_PC : Fld := ⟨.egBfaultpcLo, 0, 32⟩
/-- PC of EG_BFAULTPC_HI[n], RO (R231). -/
def egBfaultpcHi_PC : Fld := ⟨.egBfaultpcHi, 0, 32⟩
/-- BASE of Q_RINGBASE_LO[n], RW (R266). -/
def qRingbaseLo_BASE : Fld := ⟨.qRingbaseLo, 0, 32⟩
/-- BASE of Q_RINGBASE_HI[n], RW (R266). -/
def qRingbaseHi_BASE : Fld := ⟨.qRingbaseHi, 0, 32⟩
/-- BASE of Q_CMPBASE_LO[n], RW (R266). -/
def qCmpbaseLo_BASE : Fld := ⟨.qCmpbaseLo, 0, 32⟩
/-- BASE of Q_CMPBASE_HI[n], RW (R266). -/
def qCmpbaseHi_BASE : Fld := ⟨.qCmpbaseHi, 0, 32⟩
/-- LOG2SIZE of Q_CFG[n], RW (R266). -/
def qCfg_LOG2SIZE : Fld := ⟨.qCfg, 0, 4⟩
/-- FIELD of Q_CFG[n], RW (R266). -/
def qCfg_FIELD : Fld := ⟨.qCfg, 4, 2⟩
/-- PART of Q_CFG[n], RW (R266). -/
def qCfg_PART : Fld := ⟨.qCfg, 6, 3⟩
/-- ENABLE of Q_CFG[n], RW (R266). -/
def qCfg_ENABLE : Fld := ⟨.qCfg, 9, 1⟩
/-- CMPALL of Q_CFG[n], RW (R266). -/
def qCfg_CMPALL : Fld := ⟨.qCfg, 10, 1⟩
/-- HALTERR of Q_CFG[n], RW (R266). -/
def qCfg_HALTERR : Fld := ⟨.qCfg, 11, 1⟩
/-- CLOG2 of Q_CFG[n], RW (R266). -/
def qCfg_CLOG2 : Fld := ⟨.qCfg, 12, 4⟩
/-- TAIL of Q_DOORBELL[n], WO (R266). -/
def qDoorbell_TAIL : Fld := ⟨.qDoorbell, 0, 20⟩
/-- HEAD of Q_STAT[n], RO (R266). -/
def qStat_HEAD : Fld := ⟨.qStat, 0, 20⟩
/-- STATE of Q_STAT[n], RO (R266). -/
def qStat_STATE : Fld := ⟨.qStat, 20, 2⟩
/-- CAUSE of Q_STAT[n], RO (R266). -/
def qStat_CAUSE : Fld := ⟨.qStat, 22, 2⟩
/-- DBFAULT of Q_STAT[n], W1C (R266). -/
def qStat_DBFAULT : Fld := ⟨.qStat, 24, 1⟩
/-- RESUME of Q_CTRL[n], WO (R266). -/
def qCtrl_RESUME : Fld := ⟨.qCtrl, 0, 1⟩
/-- SKIP of Q_CTRL[n], WO (R266). -/
def qCtrl_SKIP : Fld := ⟨.qCtrl, 1, 1⟩
/-- CTAIL of Q_CMPIDX[n], RO (R266). -/
def qCmpidx_CTAIL : Fld := ⟨.qCmpidx, 0, 16⟩
/-- CHEAD of Q_CMPIDX[n], RW (R266). -/
def qCmpidx_CHEAD : Fld := ⟨.qCmpidx, 16, 16⟩
/-- CMPLOST of Q_CMPLOST[n], RO (R266). -/
def qCmplost_CMPLOST : Fld := ⟨.qCmplost, 0, 32⟩
/-- VALUE of CP_BOUND[n], RW (R267). -/
def cpBound_VALUE : Fld := ⟨.cpBound, 0, 32⟩
/-- BASE of CP_BNDBASE_LO[p], RW (R267). -/
def cpBndbaseLo_BASE : Fld := ⟨.cpBndbaseLo, 0, 32⟩
/-- BASE of CP_BNDBASE_HI[p], RW (R267). -/
def cpBndbaseHi_BASE : Fld := ⟨.cpBndbaseHi, 0, 32⟩
/-- BASE of CP_TSBASE_LO[p], RW (R267). -/
def cpTsbaseLo_BASE : Fld := ⟨.cpTsbaseLo, 0, 32⟩
/-- BASE of CP_TSBASE_HI[p], RW (R267). -/
def cpTsbaseHi_BASE : Fld := ⟨.cpTsbaseHi, 0, 32⟩
/-- COUNT of CP_TSCOUNT[p], RW (R267). -/
def cpTscount_COUNT : Fld := ⟨.cpTscount, 0, 32⟩
/-- LIMIT of CP_WATCH[p], RW (R267). -/
def cpWatch_LIMIT : Fld := ⟨.cpWatch, 0, 32⟩
/-- SQUASHCNT of CP_STAT[f], RO (R267). -/
def cpStat_SQUASHCNT : Fld := ⟨.cpStat, 0, 16⟩
/-- WINDOW of CP_STAT[f], RO (R267). -/
def cpStat_WINDOW : Fld := ⟨.cpStat, 16, 7⟩
/-- CLEAR of CP_STATCLR[f], WO (R267). -/
def cpStatclr_CLEAR : Fld := ⟨.cpStatclr, 0, 1⟩
/-- VALUE of SYNC_OBJ[n], RW (R268). -/
def syncObj_VALUE : Fld := ⟨.syncObj, 0, 32⟩
/-- PART of SYNC_CFG[n], RW (R268). -/
def syncCfg_PART : Fld := ⟨.syncCfg, 0, 3⟩
/-- MODE of SYNC_CFG[n], RW (R268). -/
def syncCfg_MODE : Fld := ⟨.syncCfg, 3, 1⟩
/-- ERR of SYNC_CFG[n], RO (R268). -/
def syncCfg_ERR : Fld := ⟨.syncCfg, 8, 8⟩
/-- GEN of SYNC_CFG[n], RO (R268). -/
def syncCfg_GEN : Fld := ⟨.syncCfg, 16, 16⟩
/-- X of SYS_COORD, RO (R279). -/
def sysCoord_X : Fld := ⟨.sysCoord, 0, 4⟩
/-- Y of SYS_COORD, RO (R279). -/
def sysCoord_Y : Fld := ⟨.sysCoord, 4, 4⟩
/-- Z of SYS_COORD, RO (R279). -/
def sysCoord_Z : Fld := ⟨.sysCoord, 8, 4⟩
/-- XLEN of SYS_COORD, RO (R279). -/
def sysCoord_XLEN : Fld := ⟨.sysCoord, 12, 4⟩
/-- YLEN of SYS_COORD, RO (R279). -/
def sysCoord_YLEN : Fld := ⟨.sysCoord, 16, 4⟩
/-- ZLEN of SYS_COORD, RO (R279). -/
def sysCoord_ZLEN : Fld := ⟨.sysCoord, 20, 4⟩
/-- VALID of SYS_COORD, RO (R279). -/
def sysCoord_VALID : Fld := ⟨.sysCoord, 24, 1⟩
/-- BASE of MEM_T1WIN[4p + f], RW (R327). -/
def memT1win_BASE : Fld := ⟨.memT1win, 0, 8⟩
/-- SIZE of MEM_T1WIN[4p + f], RW (R327). -/
def memT1win_SIZE : Fld := ⟨.memT1win, 8, 8⟩
/-- BASE of MEM_MSWIN[4p + f], RW (R327). -/
def memMswin_BASE : Fld := ⟨.memMswin, 0, 4⟩
/-- SIZE of MEM_MSWIN[4p + f], RW (R327). -/
def memMswin_SIZE : Fld := ⟨.memMswin, 4, 5⟩
/-- BASE of MEM_T2WIN[p], RW (R327). -/
def memT2win_BASE : Fld := ⟨.memT2win, 0, 11⟩
/-- SIZE of MEM_T2WIN[p], RW (R327). -/
def memT2win_SIZE : Fld := ⟨.memT2win, 11, 11⟩
/-- WRITE of MEM_T2WIN[p], RW (R327). -/
def memT2win_WRITE : Fld := ⟨.memT2win, 22, 1⟩
/-- DUE of MEM_T3DUE[d], RW (R327). -/
def memT3due_DUE : Fld := ⟨.memT3due, 0, 16⟩
/-- CORRECTED of MEM_ECCSTAT[c], RO (R327). -/
def memEccstat_CORRECTED : Fld := ⟨.memEccstat, 0, 24⟩
/-- UNCORRECTED of MEM_ECCSTAT[c], RO (R327). -/
def memEccstat_UNCORRECTED : Fld := ⟨.memEccstat, 24, 8⟩
/-- MISSES of MEM_SLOTMISS[c], RO (R327). -/
def memSlotmiss_MISSES : Fld := ⟨.memSlotmiss, 0, 32⟩
/-- CLEAR of MEM_STATCLR[c], WO (R327). -/
def memStatclr_CLEAR : Fld := ⟨.memStatclr, 0, 1⟩
/-- DQREP of MEM_REPAIR[c], RO (R327). -/
def memRepair_DQREP : Fld := ⟨.memRepair, 0, 8⟩
/-- CAREP of MEM_REPAIR[c], RO (R327). -/
def memRepair_CAREP : Fld := ⟨.memRepair, 8, 1⟩
/-- FAILED of MEM_REPAIR[c], RO (R327). -/
def memRepair_FAILED : Fld := ⟨.memRepair, 9, 1⟩
/-- ADDR of MEM_UEADDR_LO, RO (R327). -/
def memUeaddrLo_ADDR : Fld := ⟨.memUeaddrLo, 0, 32⟩
/-- ADDR of MEM_UEADDR_HI, RO (R327). -/
def memUeaddrHi_ADDR : Fld := ⟨.memUeaddrHi, 0, 32⟩
/-- VALID of CMP_TBLSTAT[n], RO (R346). -/
def cmpTblstat_VALID : Fld := ⟨.cmpTblstat, 0, 8⟩
/-- PENDING of CMP_TBLSTAT[n], RO (R346). -/
def cmpTblstat_PENDING : Fld := ⟨.cmpTblstat, 8, 8⟩
/-- ACTIVE of CMP_TBLSTAT[n], RO (R346). -/
def cmpTblstat_ACTIVE : Fld := ⟨.cmpTblstat, 16, 8⟩
/-- RAWCHUNKS of CMP_STAT[n], RO (R346). -/
def cmpStat_RAWCHUNKS : Fld := ⟨.cmpStat, 0, 16⟩
/-- ELIDEFAIL of CMP_STAT[n], RO (R346). -/
def cmpStat_ELIDEFAIL : Fld := ⟨.cmpStat, 16, 16⟩
/-- CLEAR of CMP_STATCLR[n], WO (R346). -/
def cmpStatclr_CLEAR : Fld := ⟨.cmpStatclr, 0, 1⟩
/-- ENABLE of LNK_CFG[k], RW (R386). -/
def lnkCfg_ENABLE : Fld := ⟨.lnkCfg, 0, 1⟩
/-- RETRAIN of LNK_CFG[k], WO (R386). -/
def lnkCfg_RETRAIN : Fld := ⟨.lnkCfg, 1, 1⟩
/-- STATE of LNK_STAT[k], RO (R386). -/
def lnkStat_STATE : Fld := ⟨.lnkStat, 0, 2⟩
/-- HALF of LNK_STAT[k], RO (R386). -/
def lnkStat_HALF : Fld := ⟨.lnkStat, 2, 1⟩
/-- NBRFAIL of LNK_STAT[k], RO (R386). -/
def lnkStat_NBRFAIL : Fld := ⟨.lnkStat, 3, 1⟩
/-- GOOD of LNK_STAT[k], RO (R386). -/
def lnkStat_GOOD : Fld := ⟨.lnkStat, 4, 18⟩
/-- DEGRADED of LNK_STAT[k], W1C (R386). -/
def lnkStat_DEGRADED : Fld := ⟨.lnkStat, 22, 1⟩
/-- RETRIES of LNK_ERRCNT[k], RO (R386). -/
def lnkErrcnt_RETRIES : Fld := ⟨.lnkErrcnt, 0, 16⟩
/-- RETRAINS of LNK_ERRCNT[k], RO (R386). -/
def lnkErrcnt_RETRAINS : Fld := ⟨.lnkErrcnt, 16, 8⟩
/-- FECCORR of LNK_ERRCNT[k], RO (R386). -/
def lnkErrcnt_FECCORR : Fld := ⟨.lnkErrcnt, 24, 8⟩
/-- CLEAR of LNK_STATCLR[k], WO (R386). -/
def lnkStatclr_CLEAR : Fld := ⟨.lnkStatclr, 0, 1⟩
/-- ENTRIES of LNK_SWTAB[32k + i], RW (R386). -/
def lnkSwtab_ENTRIES : Fld := ⟨.lnkSwtab, 0, 32⟩
/-- BASE of CE_GRPTAB_LO, RW (R386). -/
def ceGrptabLo_BASE : Fld := ⟨.ceGrptabLo, 0, 32⟩
/-- BASE of CE_GRPTAB_HI, RW (R386). -/
def ceGrptabHi_BASE : Fld := ⟨.ceGrptabHi, 0, 32⟩
/-- GROUP of CE_GRPCTL, WO (R386). -/
def ceGrpctl_GROUP : Fld := ⟨.ceGrpctl, 0, 12⟩
/-- ACTION of CE_GRPCTL, WO (R386). -/
def ceGrpctl_ACTION : Fld := ⟨.ceGrpctl, 12, 3⟩
/-- STATE of CE_GRPSTAT[g], RO (R386). -/
def ceGrpstat_STATE : Fld := ⟨.ceGrpstat, 0, 2⟩
/-- PENDING of CE_GRPSTAT[g], RO (R386). -/
def ceGrpstat_PENDING : Fld := ⟨.ceGrpstat, 2, 7⟩
/-- HALTCODE of CE_GRPSTAT[g], RO (R386). -/
def ceGrpstat_HALTCODE : Fld := ⟨.ceGrpstat, 9, 8⟩
/-- LIMIT of CE_COLLWATCH, RW (R386). -/
def ceCollwatch_LIMIT : Fld := ⟨.ceCollwatch, 0, 32⟩
/-- INTERVAL of CE_RETRY, RW (R386). -/
def ceRetry_INTERVAL : Fld := ⟨.ceRetry, 0, 16⟩
/-- LIMIT of CE_RETRY, RW (R386). -/
def ceRetry_LIMIT : Fld := ⟨.ceRetry, 16, 16⟩
/-- MODE of ETH_CFG[e], RW (R415). -/
def ethCfg_MODE : Fld := ⟨.ethCfg, 0, 4⟩
/-- MTU of ETH_CFG[e], RW (R415). -/
def ethCfg_MTU : Fld := ⟨.ethCfg, 4, 14⟩
/-- VLANEN of ETH_CFG[e], RW (R415). -/
def ethCfg_VLANEN : Fld := ⟨.ethCfg, 18, 1⟩
/-- VLANID of ETH_CFG[e], RW (R415). -/
def ethCfg_VLANID : Fld := ⟨.ethCfg, 19, 12⟩
/-- RETRAIN of ETH_CFG[e], WO (R415). -/
def ethCfg_RETRAIN : Fld := ⟨.ethCfg, 31, 1⟩
/-- UP of ETH_STAT[e], RO (R415). -/
def ethStat_UP : Fld := ⟨.ethStat, 0, 1⟩
/-- LFAULT of ETH_STAT[e], RO (R415). -/
def ethStat_LFAULT : Fld := ⟨.ethStat, 1, 1⟩
/-- RFAULT of ETH_STAT[e], RO (R415). -/
def ethStat_RFAULT : Fld := ⟨.ethStat, 2, 1⟩
/-- HIBER of ETH_STAT[e], RO (R415). -/
def ethStat_HIBER : Fld := ⟨.ethStat, 3, 1⟩
/-- FOREIGN of ETH_DROP[e], RO (R415). -/
def ethDrop_FOREIGN : Fld := ⟨.ethDrop, 0, 16⟩
/-- AUTHFAIL of ETH_DROP[e], RO (R415). -/
def ethDrop_AUTHFAIL : Fld := ⟨.ethDrop, 16, 16⟩
/-- CLEAR of ETH_DROPCLR[e], WO (R415). -/
def ethDropclr_CLEAR : Fld := ⟨.ethDropclr, 0, 1⟩
/-- PORT of ETH_UDPPORT, RW (R415). -/
def ethUdpport_PORT : Fld := ⟨.ethUdpport, 0, 16⟩
/-- PATHBASE of ETH_UDPPORT, RW (R415). -/
def ethUdpport_PATHBASE : Fld := ⟨.ethUdpport, 16, 16⟩
/-- TGT of ETH_CCTGT, RW (R415). -/
def ethCctgt_TGT : Fld := ⟨.ethCctgt, 0, 16⟩
/-- ENABLE of FEN_CTL, RW (R435). -/
def fenCtl_ENABLE : Fld := ⟨.fenCtl, 0, 1⟩
/-- LOG2N of FEN_CTL, RW (R435). -/
def fenCtl_LOG2N : Fld := ⟨.fenCtl, 1, 4⟩
/-- BASE of FEN_PDQBASE_LO, RW (R435). -/
def fenPdqbaseLo_BASE : Fld := ⟨.fenPdqbaseLo, 0, 32⟩
/-- BASE of FEN_PDQBASE_HI, RW (R435). -/
def fenPdqbaseHi_BASE : Fld := ⟨.fenPdqbaseHi, 0, 32⟩
/-- TAIL of FEN_PDQTAIL, RW (R435). -/
def fenPdqtail_TAIL : Fld := ⟨.fenPdqtail, 0, 12⟩
/-- HEAD of FEN_STAT, RO (R435). -/
def fenStat_HEAD : Fld := ⟨.fenStat, 0, 12⟩
/-- STATE of FEN_STAT, RO (R435). -/
def fenStat_STATE : Fld := ⟨.fenStat, 12, 2⟩
/-- TAILFAULT of FEN_STAT, W1C (R435). -/
def fenStat_TAILFAULT : Fld := ⟨.fenStat, 14, 1⟩
/-- PICTURES of FEN_CNT, RO (R435). -/
def fenCnt_PICTURES : Fld := ⟨.fenCnt, 0, 32⟩
/-- BLOCKS of SYS_PARTMAP, RW (R459). -/
def sysPartmap_BLOCKS : Fld := ⟨.sysPartmap, 0, 32⟩
/-- LEND of SYS_PARTCFG[p], RW (R459). -/
def sysPartcfg_LEND : Fld := ⟨.sysPartcfg, 0, 1⟩
/-- BORROWMAX of SYS_PARTCFG[p], RW (R459). -/
def sysPartcfg_BORROWMAX : Fld := ⟨.sysPartcfg, 1, 8⟩
/-- JOB of CP_QJOB[n], RW (R459). -/
def cpQjob_JOB : Fld := ⟨.cpQjob, 0, 3⟩
/-- VALID of CP_JOB[8p + j], RW (R459). -/
def cpJob_VALID : Fld := ⟨.cpJob, 0, 1⟩
/-- SLOTS of CP_JOB[8p + j], RW (R459). -/
def cpJob_SLOTS : Fld := ⟨.cpJob, 1, 3⟩
/-- EPOBJ of CP_JOB[8p + j], RW (R459). -/
def cpJob_EPOBJ : Fld := ⟨.cpJob, 4, 16⟩
/-- EPEN of CP_JOB[8p + j], RW (R459). -/
def cpJob_EPEN : Fld := ⟨.cpJob, 20, 1⟩
/-- DEADLINE of CP_JDEADLINE[8p + j], RW (R459). -/
def cpJdeadline_DEADLINE : Fld := ⟨.cpJdeadline, 0, 32⟩
/-- BASE of CP_JSAVE_LO[8p + j], RW (R459). -/
def cpJsaveLo_BASE : Fld := ⟨.cpJsaveLo, 0, 32⟩
/-- BASE of CP_JSAVE_HI[8p + j], RW (R459). -/
def cpJsaveHi_BASE : Fld := ⟨.cpJsaveHi, 0, 32⟩
/-- JOBA of CP_WHEEL[64n + i], RW (R459). -/
def cpWheel_JOBA : Fld := ⟨.cpWheel, 0, 3⟩
/-- VALIDA of CP_WHEEL[64n + i], RW (R459). -/
def cpWheel_VALIDA : Fld := ⟨.cpWheel, 3, 1⟩
/-- LENA of CP_WHEEL[64n + i], RW (R459). -/
def cpWheel_LENA : Fld := ⟨.cpWheel, 4, 12⟩
/-- JOBB of CP_WHEEL[64n + i], RW (R459). -/
def cpWheel_JOBB : Fld := ⟨.cpWheel, 16, 3⟩
/-- VALIDB of CP_WHEEL[64n + i], RW (R459). -/
def cpWheel_VALIDB : Fld := ⟨.cpWheel, 19, 1⟩
/-- LENB of CP_WHEEL[64n + i], RW (R459). -/
def cpWheel_LENB : Fld := ⟨.cpWheel, 20, 12⟩
/-- ENTRIES of CP_WLEN[n], RW (R459). -/
def cpWlen_ENTRIES : Fld := ⟨.cpWlen, 0, 8⟩
/-- PART of CP_JCTL, WO (R459). -/
def cpJctl_PART : Fld := ⟨.cpJctl, 0, 3⟩
/-- JOB of CP_JCTL, WO (R459). -/
def cpJctl_JOB : Fld := ⟨.cpJctl, 3, 3⟩
/-- ACTION of CP_JCTL, WO (R459). -/
def cpJctl_ACTION : Fld := ⟨.cpJctl, 6, 2⟩
/-- STATE of CP_JSTAT[8p + j], RO (R459). -/
def cpJstat_STATE : Fld := ⟨.cpJstat, 0, 3⟩
/-- MET of CP_JDLCNT[8p + j], RO (R459). -/
def cpJdlcnt_MET : Fld := ⟨.cpJdlcnt, 0, 16⟩
/-- MISSED of CP_JDLCNT[8p + j], RO (R459). -/
def cpJdlcnt_MISSED : Fld := ⟨.cpJdlcnt, 16, 16⟩
/-- CYCLES of CP_JWAIT[8p + j], RO (R459). -/
def cpJwait_CYCLES : Fld := ⟨.cpJwait, 0, 32⟩
/-- COUNT of CP_JHIST[16 × (8p + j) + b], RO (R459). -/
def cpJhist_COUNT : Fld := ⟨.cpJhist, 0, 32⟩
/-- OVERRUNS of CP_WSTAT[n], RO (R459). -/
def cpWstat_OVERRUNS : Fld := ⟨.cpWstat, 0, 16⟩
/-- ENTRY of CP_WSTAT[n], RO (R459). -/
def cpWstat_ENTRY : Fld := ⟨.cpWstat, 16, 8⟩
/-- CLEAR of CP_WSTATCLR[n], WO (R459). -/
def cpWstatclr_CLEAR : Fld := ⟨.cpWstatclr, 0, 1⟩
/-- ENTRIES of MEM_WHEEL[32c + i], RW (R459). -/
def memWheel_ENTRIES : Fld := ⟨.memWheel, 0, 32⟩
/-- UPDATES of TRN_STAT[n], RO (R475). -/
def trnStat_UPDATES : Fld := ⟨.trnStat, 0, 16⟩
/-- REFUSED of TRN_STAT[n], RO (R475). -/
def trnStat_REFUSED : Fld := ⟨.trnStat, 16, 16⟩
/-- ELEMENTS of TRN_FROZEN[n], RO (R475). -/
def trnFrozen_ELEMENTS : Fld := ⟨.trnFrozen, 0, 32⟩
/-- CLEAR of TRN_STATCLR[n], WO (R475). -/
def trnStatclr_CLEAR : Fld := ⟨.trnStatclr, 0, 1⟩
/-- WINCAP of PWR_CAP, RWL (R495). -/
def pwrCap_WINCAP : Fld := ⟨.pwrCap, 0, 16⟩
/-- FASTCAP of PWR_CAP, RWL (R495). -/
def pwrCap_FASTCAP : Fld := ⟨.pwrCap, 16, 12⟩
/-- LOCK of PWR_CAP, RWL (R495). -/
def pwrCap_LOCK : Fld := ⟨.pwrCap, 31, 1⟩
/-- BUDGET of PWR_BUDGET[p], RW (R495). -/
def pwrBudget_BUDGET : Fld := ⟨.pwrBudget, 0, 16⟩
/-- BUDGET of PWR_RESERVE, RW (R495). -/
def pwrReserve_BUDGET : Fld := ⟨.pwrReserve, 0, 16⟩
/-- ENERGY of PWR_EWIN[a], RO (R495). -/
def pwrEwin_ENERGY : Fld := ⟨.pwrEwin, 0, 32⟩
/-- WINDOWS of PWR_OVER[p], RO (R495). -/
def pwrOver_WINDOWS : Fld := ⟨.pwrOver, 0, 16⟩
/-- WINDOW of PWR_WINSEQ, RO (R495). -/
def pwrWinseq_WINDOW : Fld := ⟨.pwrWinseq, 0, 32⟩
/-- TEMP of PWR_TEMP[s], RO (R495). -/
def pwrTemp_TEMP : Fld := ⟨.pwrTemp, 0, 12⟩
/-- THROTTLE of PWR_STAT, RO (R495). -/
def pwrStat_THROTTLE : Fld := ⟨.pwrStat, 0, 1⟩
/-- STUCK of PWR_STAT, RO (R495). -/
def pwrStat_STUCK : Fld := ⟨.pwrStat, 1, 1⟩
/-- LTHERM of PWR_STAT, RO (R495). -/
def pwrStat_LTHERM : Fld := ⟨.pwrStat, 2, 4⟩
/-- LFAST of PWR_STAT, RO (R495). -/
def pwrStat_LFAST : Fld := ⟨.pwrStat, 6, 4⟩
/-- LWIN of PWR_STAT, RO (R495). -/
def pwrStat_LWIN : Fld := ⟨.pwrStat, 10, 4⟩
/-- LEVEL of CLK_NOM, RW (R495). -/
def clkNom_LEVEL : Fld := ⟨.clkNom, 0, 4⟩
/-- LEVEL of CLK_STAT, RO (R495). -/
def clkStat_LEVEL : Fld := ⟨.clkStat, 0, 4⟩
/-- STRETCH of CLK_STAT, RO (R495). -/
def clkStat_STRETCH : Fld := ⟨.clkStat, 4, 1⟩
/-- SAGCNT of CLK_STAT, RO (R495). -/
def clkStat_SAGCNT : Fld := ⟨.clkStat, 16, 16⟩
/-- CLEAR of PWR_STATCLR, WO (R495). -/
def pwrStatclr_CLEAR : Fld := ⟨.pwrStatclr, 0, 1⟩
/-- MISSES of SYS_DETSTAT[p], RO (R506). -/
def sysDetstat_MISSES : Fld := ⟨.sysDetstat, 0, 16⟩
/-- OVERRUNS of SYS_DETSTAT[p], RO (R506). -/
def sysDetstat_OVERRUNS : Fld := ⟨.sysDetstat, 16, 8⟩
/-- BROKEN of SYS_DETSTAT[p], W1C (R506). -/
def sysDetstat_BROKEN : Fld := ⟨.sysDetstat, 24, 1⟩
/-- LENDING of SYS_DETSTAT[p], RO (R506). -/
def sysDetstat_LENDING : Fld := ⟨.sysDetstat, 25, 1⟩
/-- CLEAR of SYS_DETCLR[p], WO (R506). -/
def sysDetclr_CLEAR : Fld := ⟨.sysDetclr, 0, 1⟩
/-- STAGE of BOOT_STAT, RO (R532). -/
def bootStat_STAGE : Fld := ⟨.bootStat, 0, 4⟩
/-- IMAGE of BOOT_STAT, RO (R532). -/
def bootStat_IMAGE : Fld := ⟨.bootStat, 4, 1⟩
/-- CAUSE of BOOT_STAT, RO (R532). -/
def bootStat_CAUSE : Fld := ⟨.bootStat, 5, 4⟩
/-- FSTAGE of BOOT_STAT, RO (R532). -/
def bootStat_FSTAGE : Fld := ⟨.bootStat, 9, 4⟩
/-- ATTEMPTS of BOOT_STAT, RO (R532). -/
def bootStat_ATTEMPTS : Fld := ⟨.bootStat, 13, 8⟩
/-- STEPWAIT of BOOT_STAT, RO (R532). -/
def bootStat_STEPWAIT : Fld := ⟨.bootStat, 21, 1⟩
/-- FAILEG of BOOT_STAT, RO (R532). -/
def bootStat_FAILEG : Fld := ⟨.bootStat, 22, 7⟩
/-- STEP of BOOT_CTL, RW (R532). -/
def bootCtl_STEP : Fld := ⟨.bootCtl, 0, 1⟩
/-- GO of BOOT_CTL, WO (R532). -/
def bootCtl_GO : Fld := ⟨.bootCtl, 1, 1⟩
/-- RESTART of BOOT_CTL, WO (R532). -/
def bootCtl_RESTART : Fld := ⟨.bootCtl, 2, 1⟩
/-- SRC of BOOT_CTL, RW (R532). -/
def bootCtl_SRC : Fld := ⟨.bootCtl, 3, 1⟩
/-- IMGSEL of BOOT_CTL, RW (R532). -/
def bootCtl_IMGSEL : Fld := ⟨.bootCtl, 4, 2⟩
/-- UPDATE of BOOT_CTL, WO (R532). -/
def bootCtl_UPDATE : Fld := ⟨.bootCtl, 6, 1⟩
/-- ALERTCLR of BOOT_CTL, WO (R532). -/
def bootCtl_ALERTCLR : Fld := ⟨.bootCtl, 7, 1⟩
/-- ADDR of BOOT_HADDR_LO, RW (R532). -/
def bootHaddrLo_ADDR : Fld := ⟨.bootHaddrLo, 0, 32⟩
/-- ADDR of BOOT_HADDR_HI, RW (R532). -/
def bootHaddrHi_ADDR : Fld := ⟨.bootHaddrHi, 0, 32⟩
/-- DIE of SYS_SEASON, RO (R532). -/
def sysSeason_DIE : Fld := ⟨.sysSeason, 0, 2⟩
/-- CRSTHELD of SYS_SEASON, RO (R532). -/
def sysSeason_CRSTHELD : Fld := ⟨.sysSeason, 2, 1⟩
/-- SEASON of SYS_PSEASON[p], RO (R532). -/
def sysPseason_SEASON : Fld := ⟨.sysPseason, 0, 2⟩
/-- REQ of SYS_PSEASON[p], WO (R532). -/
def sysPseason_REQ : Fld := ⟨.sysPseason, 2, 2⟩
/-- LIMIT of SYS_AUTUMNLIM, RW (R532). -/
def sysAutumnlim_LIMIT : Fld := ⟨.sysAutumnlim, 0, 32⟩
/-- POWER of SYS_RSTCAUSE, W1C (R532). -/
def sysRstcause_POWER : Fld := ⟨.sysRstcause, 0, 1⟩
/-- PIN of SYS_RSTCAUSE, W1C (R532). -/
def sysRstcause_PIN : Fld := ⟨.sysRstcause, 1, 1⟩
/-- WATCHDOG of SYS_RSTCAUSE, W1C (R532). -/
def sysRstcause_WATCHDOG : Fld := ⟨.sysRstcause, 2, 1⟩
/-- IOTEMP of SYS_RSTCAUSE, W1C (R532). -/
def sysRstcause_IOTEMP : Fld := ⟨.sysRstcause, 3, 1⟩
/-- CRST of SYS_RSTCAUSE, W1C (R532). -/
def sysRstcause_CRST : Fld := ⟨.sysRstcause, 4, 1⟩
/-- OWNER of SEC_STAT, RO (R532). -/
def secStat_OWNER : Fld := ⟨.secStat, 0, 1⟩
/-- UDSLOCK of SEC_STAT, RO (R532). -/
def secStat_UDSLOCK : Fld := ⟨.secStat, 1, 1⟩
/-- PRODUCTION of SEC_STAT, RO (R532). -/
def secStat_PRODUCTION : Fld := ⟨.secStat, 2, 1⟩
/-- MINSVN of SEC_SVN, RO (R532). -/
def secSvn_MINSVN : Fld := ⟨.secSvn, 0, 32⟩
/-- COMMITSVN of SEC_CTL, WO (R532). -/
def secCtl_COMMITSVN : Fld := ⟨.secCtl, 0, 1⟩
/-- OWNERPROG of SEC_CTL, WO (R532). -/
def secCtl_OWNERPROG : Fld := ⟨.secCtl, 1, 1⟩
/-- FIRST of CAP_HEAD, RO (R554). -/
def capHead_FIRST : Fld := ⟨.capHead, 0, 16⟩
/-- COUNT of CAP_HEAD, RO (R554). -/
def capHead_COUNT : Fld := ⟨.capHead, 16, 16⟩
/-- MAP of PCI_FNMAP[d], RW (R554). -/
def pciFnmap_MAP : Fld := ⟨.pciFnmap, 0, 32⟩
/-- FLRPART of PCI_VFCTL[d], RW (R554). -/
def pciVfctl_FLRPART : Fld := ⟨.pciVfctl, 0, 8⟩
/-- ERRCLR of PCI_VFCTL[d], WO (R554). -/
def pciVfctl_ERRCLR : Fld := ⟨.pciVfctl, 8, 1⟩
/-- BASE of PCI_T3XLAT_LO[d], RW (R554). -/
def pciT3xlatLo_BASE : Fld := ⟨.pciT3xlatLo, 0, 32⟩
/-- BASE of PCI_T3XLAT_HI[d], RW (R554). -/
def pciT3xlatHi_BASE : Fld := ⟨.pciT3xlatHi, 0, 32⟩
/-- UP of PCI_STAT[d], RO (R554). -/
def pciStat_UP : Fld := ⟨.pciStat, 0, 1⟩
/-- SPEED of PCI_STAT[d], RO (R554). -/
def pciStat_SPEED : Fld := ⟨.pciStat, 1, 3⟩
/-- WIDTH of PCI_STAT[d], RO (R554). -/
def pciStat_WIDTH : Fld := ⟨.pciStat, 4, 4⟩
/-- FLIT of PCI_STAT[d], RO (R554). -/
def pciStat_FLIT : Fld := ⟨.pciStat, 8, 1⟩
/-- VFON of PCI_STAT[d], RO (R554). -/
def pciStat_VFON : Fld := ⟨.pciStat, 9, 8⟩
/-- REFUSED of PCI_ERRCNT[d], RO (R554). -/
def pciErrcnt_REFUSED : Fld := ⟨.pciErrcnt, 0, 16⟩
/-- LOSTIRQ of PCI_ERRCNT[d], RO (R554). -/
def pciErrcnt_LOSTIRQ : Fld := ⟨.pciErrcnt, 16, 16⟩
/-- VECTOR of Q_VEC[n], RW (R554). -/
def qVec_VECTOR : Fld := ⟨.qVec, 0, 11⟩
/-- FUNC of Q_VEC[n], RW (R554). -/
def qVec_FUNC : Fld := ⟨.qVec, 11, 5⟩
/-- EN of Q_VEC[n], RW (R554). -/
def qVec_EN : Fld := ⟨.qVec, 16, 1⟩
/-- BASE of SYS_EVBASE_LO[f], RW (R554). -/
def sysEvbaseLo_BASE : Fld := ⟨.sysEvbaseLo, 0, 32⟩
/-- BASE of SYS_EVBASE_HI[f], RW (R554). -/
def sysEvbaseHi_BASE : Fld := ⟨.sysEvbaseHi, 0, 32⟩
/-- LOG2N of SYS_EVCFG[f], RW (R554). -/
def sysEvcfg_LOG2N : Fld := ⟨.sysEvcfg, 0, 4⟩
/-- EN of SYS_EVCFG[f], RW (R554). -/
def sysEvcfg_EN : Fld := ⟨.sysEvcfg, 4, 1⟩
/-- SPART of SYS_EVCFG[f], RW (R554). -/
def sysEvcfg_SPART : Fld := ⟨.sysEvcfg, 5, 3⟩
/-- VECTOR of SYS_EVCFG[f], RW (R554). -/
def sysEvcfg_VECTOR : Fld := ⟨.sysEvcfg, 16, 11⟩
/-- IRQEN of SYS_EVCFG[f], RW (R554). -/
def sysEvcfg_IRQEN : Fld := ⟨.sysEvcfg, 27, 1⟩
/-- EVTAIL of SYS_EVIDX[f], RO (R554). -/
def sysEvidx_EVTAIL : Fld := ⟨.sysEvidx, 0, 16⟩
/-- EVHEAD of SYS_EVIDX[f], RW (R554). -/
def sysEvidx_EVHEAD : Fld := ⟨.sysEvidx, 16, 16⟩
/-- LOST of SYS_EVLOST[f], RO (R554). -/
def sysEvlost_LOST : Fld := ⟨.sysEvlost, 0, 32⟩

end F

/-- One row of the register map (R543): `count` instances of a register from index `first`, the first at offset `base`, each
further one `stride` bytes above. -/
structure MapRow where
  reg    : RegName
  first  : Nat
  count  : Nat
  base   : Nat
  stride : Nat
  deriving DecidableEq, Repr

/-- Part 0 of the register map (R543). -/
def mapRows0 : List MapRow :=
  [ ⟨.capHead, 0, 1, 0x0, 0x0⟩,
    ⟨.sysCoord, 0, 1, 0x10000, 0x0⟩,
    ⟨.sysSeason, 0, 1, 0x10004, 0x0⟩,
    ⟨.sysPartmap, 0, 1, 0x10008, 0x0⟩,
    ⟨.sysAutumnlim, 0, 1, 0x1000C, 0x0⟩,
    ⟨.sysRstcause, 0, 1, 0x10010, 0x0⟩,
    ⟨.sysPseason, 0, 8, 0x10100, 0x4⟩,
    ⟨.sysPartcfg, 0, 8, 0x10120, 0x4⟩,
    ⟨.sysSentseedLo, 0, 8, 0x10140, 0x8⟩,
    ⟨.sysSentseedHi, 0, 8, 0x10144, 0x8⟩,
    ⟨.sysEscbaseLo, 0, 8, 0x10180, 0x8⟩,
    ⟨.sysEscbaseHi, 0, 8, 0x10184, 0x8⟩,
    ⟨.sysDetstat, 0, 8, 0x101C0, 0x4⟩,
    ⟨.sysDetclr, 0, 8, 0x101E0, 0x4⟩,
    ⟨.sysEvbaseLo, 0, 19, 0x10400, 0x20⟩,
    ⟨.sysEvbaseHi, 0, 19, 0x10404, 0x20⟩,
    ⟨.sysEvcfg, 0, 19, 0x10408, 0x20⟩,
    ⟨.sysEvidx, 0, 19, 0x1040C, 0x20⟩,
    ⟨.sysEvlost, 0, 19, 0x10410, 0x20⟩,
    ⟨.pwrCap, 0, 1, 0x20000, 0x0⟩,
    ⟨.pwrReserve, 0, 1, 0x20004, 0x0⟩,
    ⟨.pwrWinseq, 0, 1, 0x20008, 0x0⟩,
    ⟨.pwrStat, 0, 1, 0x2000C, 0x0⟩,
    ⟨.pwrStatclr, 0, 1, 0x20010, 0x0⟩ ]

/-- Part 1 of the register map (R543). -/
def mapRows1 : List MapRow :=
  [ ⟨.clkNom, 0, 1, 0x20014, 0x0⟩,
    ⟨.clkStat, 0, 1, 0x20018, 0x0⟩,
    ⟨.pwrBudget, 0, 8, 0x20040, 0x4⟩,
    ⟨.pwrEwin, 0, 9, 0x20080, 0x4⟩,
    ⟨.pwrOver, 0, 8, 0x200C0, 0x4⟩,
    ⟨.pwrTemp, 0, 76, 0x20100, 0x4⟩,
    ⟨.bootStat, 0, 1, 0x30000, 0x0⟩,
    ⟨.bootCtl, 0, 1, 0x30004, 0x0⟩,
    ⟨.bootHaddrLo, 0, 1, 0x30008, 0x0⟩,
    ⟨.bootHaddrHi, 0, 1, 0x3000C, 0x0⟩,
    ⟨.secStat, 0, 1, 0x30100, 0x0⟩,
    ⟨.secSvn, 0, 1, 0x30104, 0x0⟩,
    ⟨.secCtl, 0, 1, 0x30108, 0x0⟩,
    ⟨.pciFnmap, 0, 2, 0x40000, 0x1000⟩,
    ⟨.pciVfctl, 0, 2, 0x40004, 0x1000⟩,
    ⟨.pciT3xlatLo, 0, 2, 0x40008, 0x1000⟩,
    ⟨.pciT3xlatHi, 0, 2, 0x4000C, 0x1000⟩,
    ⟨.pciStat, 0, 2, 0x40010, 0x1000⟩,
    ⟨.pciErrcnt, 0, 2, 0x40014, 0x1000⟩,
    ⟨.fenCtl, 0, 1, 0x60000, 0x0⟩,
    ⟨.fenPdqbaseLo, 0, 1, 0x60004, 0x0⟩,
    ⟨.fenPdqbaseHi, 0, 1, 0x60008, 0x0⟩,
    ⟨.fenPdqtail, 0, 1, 0x6000C, 0x0⟩,
    ⟨.fenStat, 0, 1, 0x60010, 0x0⟩ ]

/-- Part 2 of the register map (R543). -/
def mapRows2 : List MapRow :=
  [ ⟨.fenCnt, 0, 1, 0x60014, 0x0⟩,
    ⟨.ethCfg, 0, 4, 0x70000, 0x4⟩,
    ⟨.ethStat, 0, 4, 0x70010, 0x4⟩,
    ⟨.ethDrop, 0, 4, 0x70020, 0x4⟩,
    ⟨.ethDropclr, 0, 4, 0x70030, 0x4⟩,
    ⟨.ethUdpport, 0, 1, 0x70040, 0x0⟩,
    ⟨.ethCctgt, 0, 1, 0x70044, 0x0⟩,
    ⟨.lnkCfg, 0, 6, 0x80000, 0x4⟩,
    ⟨.lnkStat, 0, 6, 0x80020, 0x4⟩,
    ⟨.lnkErrcnt, 0, 6, 0x80040, 0x4⟩,
    ⟨.lnkStatclr, 0, 6, 0x80060, 0x4⟩,
    ⟨.lnkSwtab, 0, 192, 0x81000, 0x4⟩,
    ⟨.ceGrptabLo, 0, 1, 0x90000, 0x0⟩,
    ⟨.ceGrptabHi, 0, 1, 0x90004, 0x0⟩,
    ⟨.ceGrpctl, 0, 1, 0x90008, 0x0⟩,
    ⟨.ceCollwatch, 0, 1, 0x9000C, 0x0⟩,
    ⟨.ceRetry, 0, 1, 0x90010, 0x0⟩,
    ⟨.ceGrpstat, 0, 4096, 0x94000, 0x4⟩,
    ⟨.cmpTblstat, 128, 2, 0x98000, 0x100⟩,
    ⟨.cmpStat, 128, 2, 0x98004, 0x100⟩,
    ⟨.cmpStatclr, 128, 2, 0x98008, 0x100⟩,
    ⟨.memT1win, 0, 32, 0x100000, 0x4⟩,
    ⟨.memMswin, 0, 32, 0x100080, 0x4⟩,
    ⟨.memT2win, 0, 8, 0x100100, 0x4⟩ ]

/-- Part 3 of the register map (R543). -/
def mapRows3 : List MapRow :=
  [ ⟨.memT3due, 0, 2, 0x100120, 0x4⟩,
    ⟨.memUeaddrLo, 0, 1, 0x100128, 0x0⟩,
    ⟨.memUeaddrHi, 0, 1, 0x10012C, 0x0⟩,
    ⟨.memEccstat, 0, 216, 0x101000, 0x10⟩,
    ⟨.memSlotmiss, 0, 216, 0x101004, 0x10⟩,
    ⟨.memStatclr, 0, 216, 0x101008, 0x10⟩,
    ⟨.memRepair, 0, 216, 0x10100C, 0x10⟩,
    ⟨.memWheel, 0, 6912, 0x104000, 0x4⟩,
    ⟨.cpBound, 0, 2048, 0x200000, 0x4⟩,
    ⟨.cpBndbaseLo, 0, 8, 0x202000, 0x10⟩,
    ⟨.cpBndbaseHi, 0, 8, 0x202004, 0x10⟩,
    ⟨.cpTsbaseLo, 0, 8, 0x202008, 0x10⟩,
    ⟨.cpTsbaseHi, 0, 8, 0x20200C, 0x10⟩,
    ⟨.cpTscount, 0, 8, 0x202080, 0x4⟩,
    ⟨.cpWatch, 0, 8, 0x2020A0, 0x4⟩,
    ⟨.cpStat, 0, 4, 0x2020C0, 0x4⟩,
    ⟨.cpStatclr, 0, 4, 0x2020D0, 0x4⟩,
    ⟨.cpJctl, 0, 1, 0x2020E0, 0x0⟩,
    ⟨.cpJob, 0, 64, 0x202100, 0x4⟩,
    ⟨.cpJdeadline, 0, 64, 0x202200, 0x4⟩,
    ⟨.cpJsaveLo, 0, 64, 0x202300, 0x8⟩,
    ⟨.cpJsaveHi, 0, 64, 0x202304, 0x8⟩,
    ⟨.cpJstat, 0, 64, 0x202500, 0x4⟩,
    ⟨.cpJdlcnt, 0, 64, 0x202600, 0x4⟩ ]

/-- Part 4 of the register map (R543). -/
def mapRows4 : List MapRow :=
  [ ⟨.cpJwait, 0, 64, 0x202700, 0x4⟩,
    ⟨.cpJhist, 0, 1024, 0x203000, 0x4⟩,
    ⟨.cpWlen, 0, 128, 0x204000, 0x4⟩,
    ⟨.cpWstat, 0, 128, 0x204200, 0x4⟩,
    ⟨.cpWstatclr, 0, 128, 0x204400, 0x4⟩,
    ⟨.cpWheel, 0, 8192, 0x208000, 0x4⟩,
    ⟨.egStat, 0, 128, 0x1000000, 0x10000⟩,
    ⟨.egSentstat, 0, 128, 0x1000004, 0x10000⟩,
    ⟨.egSentclr, 0, 128, 0x1000008, 0x10000⟩,
    ⟨.egBstat, 0, 128, 0x100000C, 0x10000⟩,
    ⟨.egBfaultpcLo, 0, 128, 0x1000010, 0x10000⟩,
    ⟨.egBfaultpcHi, 0, 128, 0x1000014, 0x10000⟩,
    ⟨.teCvtcnta, 0, 128, 0x1000100, 0x10000⟩,
    ⟨.teCvtcntb, 0, 128, 0x1000104, 0x10000⟩,
    ⟨.teCvtclr, 0, 128, 0x1000108, 0x10000⟩,
    ⟨.teSpillcnt, 0, 128, 0x100010C, 0x10000⟩,
    ⟨.teSpillclr, 0, 128, 0x1000110, 0x10000⟩,
    ⟨.sfuStat, 0, 128, 0x1000200, 0x10000⟩,
    ⟨.sfuStatclr, 0, 128, 0x1000204, 0x10000⟩,
    ⟨.sfuTblstat, 0, 128, 0x1000208, 0x10000⟩,
    ⟨.sfuTblloaded, 0, 128, 0x100020C, 0x10000⟩,
    ⟨.wagStat, 0, 128, 0x1000300, 0x10000⟩,
    ⟨.trnStat, 0, 128, 0x1000400, 0x10000⟩,
    ⟨.trnFrozen, 0, 128, 0x1000404, 0x10000⟩ ]

/-- Part 5 of the register map (R543). -/
def mapRows5 : List MapRow :=
  [ ⟨.trnStatclr, 0, 128, 0x1000408, 0x10000⟩,
    ⟨.cmpTblstat, 0, 128, 0x1000500, 0x10000⟩,
    ⟨.cmpStat, 0, 128, 0x1000504, 0x10000⟩,
    ⟨.cmpStatclr, 0, 128, 0x1000508, 0x10000⟩,
    ⟨.syncObj, 0, 65536, 0x4000000, 0x8⟩,
    ⟨.syncCfg, 0, 65536, 0x4000004, 0x8⟩,
    ⟨.qRingbaseLo, 0, 32768, 0x10000000, 0x1000⟩,
    ⟨.qRingbaseHi, 0, 32768, 0x10000004, 0x1000⟩,
    ⟨.qCmpbaseLo, 0, 32768, 0x10000008, 0x1000⟩,
    ⟨.qCmpbaseHi, 0, 32768, 0x1000000C, 0x1000⟩,
    ⟨.qCfg, 0, 32768, 0x10000010, 0x1000⟩,
    ⟨.qStat, 0, 32768, 0x10000014, 0x1000⟩,
    ⟨.qCtrl, 0, 32768, 0x10000018, 0x1000⟩,
    ⟨.qCmpidx, 0, 32768, 0x1000001C, 0x1000⟩,
    ⟨.qCmplost, 0, 32768, 0x10000020, 0x1000⟩,
    ⟨.cpQjob, 0, 32768, 0x10000024, 0x1000⟩,
    ⟨.qVec, 0, 32768, 0x10000028, 0x1000⟩,
    ⟨.qDoorbell, 0, 32768, 0x10000800, 0x1000⟩ ]

/-- The register map (R543). Offsets outside it are unmapped. -/
def mapRows : List MapRow :=
  mapRows0 ++ mapRows1 ++ mapRows2 ++ mapRows3 ++ mapRows4 ++ mapRows5

/-- The index a row gives to an offset, if the offset lies on one of its registers. -/
def MapRow.indexAt (r : MapRow) (off : Nat) : Option Nat :=
  if off < r.base then none
  else if r.count = 1 then (if off = r.base then some r.first else none)
  else if (off - r.base) % r.stride = 0 ∧ (off - r.base) / r.stride < r.count then
    some (r.first + (off - r.base) / r.stride)
  else none

/-- The register at an offset of the register space, or none for an unmapped offset (R543, R544). -/
def regAt (off : Nat) : Option (RegName × Nat) :=
  mapRows.findSome? (fun r => (r.indexAt off).map (fun i => (r.reg, i)))

/-- The offset of a register (R543). -/
def regOffset (n : RegName) (i : Nat) : Nat :=
  match mapRows.find? (fun r => decide (r.reg = n ∧ r.first ≤ i ∧ i < r.first + r.count)) with
  | some r => r.base + r.stride * (i - r.first)
  | none => 0

/-- The number of instances of a register whose indices run from 0; CMP registers run over coders 0 to 129. -/
def RegName.count (n : RegName) : Nat :=
  ((mapRows.filter (fun r => decide (r.reg = n))).map (fun r => r.count)).foldl (· + ·) 0

end Sys2Proof.Machine
end

