-- ==== Sys2Proof/Machine/Sparse.lean ====
section
/-!
DEFINITION. Sparse data by key, in one canonical form: keys strictly rising and no listed value equal to what an unlisted key
reads as. Memories, register files and per-unit tables of the state are held this way, so that equal contents are equal data.
-/

set_option Elab.async false

namespace Sys2Proof.Machine

/-- A table of key and value pairs. What an unlisted key reads as is an argument of each operation. -/
abbrev Sparse (α : Type) := List (Nat × α)

/-- The value at key `k`; `d k` when the key is not listed. -/
def Sparse.rd {α : Type} (d : Nat → α) (k : Nat) : Sparse α → α
  | [] => d k
  | (k', v) :: r => if k' = k then v else Sparse.rd d k r

/-- Puts a pair where its key belongs in a table whose keys rise. -/
def Sparse.ins {α : Type} (k : Nat) (v : α) : Sparse α → Sparse α
  | [] => [(k, v)]
  | (k', v') :: r => if k < k' then (k, v) :: (k', v') :: r else (k', v') :: Sparse.ins k v r

/-- Writes `v` at key `k`, keeping the canonical form: writing the value an unlisted key reads as removes the pair. -/
def Sparse.wr {α : Type} [DecidableEq α] (d : Nat → α) (k : Nat) (v : α) (m : Sparse α) : Sparse α :=
  let r := m.filter (fun kv => kv.1 != k)
  if v = d k then r else Sparse.ins k v r

/-- Every listed key is above `b`, keys rise strictly, and no listed value is the unlisted one. -/
def Sparse.wfFrom {α : Type} [DecidableEq α] (d : Nat → α) : Nat → Sparse α → Bool
  | _, [] => true
  | b, (k, v) :: r => decide (b ≤ k) && decide (v ≠ d k) && Sparse.wfFrom d (k + 1) r

/-- The canonical form. -/
def Sparse.wf {α : Type} [DecidableEq α] (d : Nat → α) (m : Sparse α) : Bool := Sparse.wfFrom d 0 m

/-- Drops every pair whose key satisfies `p`: the keys read as unlisted again. -/
def Sparse.drop {α : Type} (p : Nat → Bool) (m : Sparse α) : Sparse α := m.filter (fun kv => !p kv.1)

end Sys2Proof.Machine
end

