-- ==== Sys2Proof/Machine/State.lean ====
section
/-!
DEFINITION. The state of the block: everything the manual gives the module, as plain data, with the queue of waiting commands,
and the state after reset. Registers have one home, `regs`. Structures below group the state that no register holds.
-/

set_option Elab.async false

namespace Sys2Proof.Machine

open Sys2Proof

/-- Why a step can stop. -/
inductive Fault where
  /-- Raised by every meaning whose operand names a unit the device does not have (a queue of 32,768 or above, an engine
  group of 128 or above and the like). The manual gives the device no such unit (R21, R22, R233, R253), so no such command
  exists. Safe: the machine stops where the hardware has nothing to run. -/
  | noSuchUnit
  deriving DecidableEq, Repr

/-- What has no meaning in the model. -/
inductive Refusal where
  /-- A command whose meaning is not written yet, by its mnemonic. Raised by an arm of `exec` only. Safe. -/
  | notModelled (mnemonic : String)
  deriving DecidableEq, Repr

/-! ## The command path (chapter 09) -/

/-- A word that an issue-time read names (R246): a bound register, or the 32-bit word or byte range at an address. -/
inductive Watch where
  | bound (n : Nat)
  | mem (addr len : Nat)
  /-- ERR of a synchronisation object (R462) -/
  | obj (n : Nat)
  deriving DecidableEq, Repr

/-- A decoded command that has not issued (R247): in a run-ahead window, or in the posted stream of a core (R221). -/
structure Decoded where
  queue    : Nat           -- queue (window entries only)
  bytes    : List Byte     -- the command's bytes, header first
  uid      : Nat           -- the model's number of this command
  units    : Nat           -- ring units the command spans
  watch    : List Watch    -- speculative pre-reads (R248)
  early    : List (Nat × Nat)  -- ranges of T2 that are read early (R249)
  squashed : Bool          -- marked by R250 for a register or an object
  reread   : Bool          -- marked by R250 for a word of memory, which is read again at issue (R252)
  span     : List (Nat × Nat)  -- the ranges of the ring that hold its bytes (R236)
  ringBad  : Option Nat    -- an uncorrectable granule among those bytes, found as they arrived (R323)
  misses   : Nat           -- slot misses of the reads made for it so far (R236, R301)
  ticket   : Nat           -- ticket of a posted command (R220)
  job      : Nat           -- job of a posted command (R439)
  since    : Nat           -- cycle in which its queue reached it (R444)
  waited   : Bool          -- its wait for a unit has begun, and its wheel waiting is counted (R443, R444)
  overrun  : Option Nat    -- the cycle in which its overrun began: it waits for a unit held by another job's command (R443, R499)
  deriving DecidableEq, Repr

/-- An issued command. -/
structure Cmd where
  issuer   : Issuer
  uid      : Nat
  bytes    : List Byte
  field    : Nat           -- field whose collector it uses
  eg       : Nat           -- engine group EGL names
  part     : Nat
  job      : Nat
  unit     : Nat           -- UNIT of the completion record (R259)
  seq      : Nat           -- SEQ of the completion record (R259)
  issued   : Nat           -- issue cycle
  ticket   : Nat           -- ticket of a posted command
  slotMiss : Nat           -- slot misses and overruns met so far
  overrun  : Bool          -- waited for another job's command (R443)
  squashed : Bool          -- R252
  early    : List (Nat × Nat)  -- ranges of T2 that were read early (R249)
  late     : Nat           -- cycles it waited for late data (R32, R301)
  heldTo   : Nat           -- cycle up to which `late` counts
  ecc      : Option Nat    -- a granule found uncorrectable as it arrived (R321), while the command is in flight
  deriving DecidableEq, Repr

/-- What a completion record reports (R259). -/
structure Result where
  status  : Byte           -- the status, before the codes of `flags` are merged (R19)
  flags   : List Nat       -- status values 1 to 6 that applied
  addr    : Nat
  detail0 : Nat
  detail1 : Nat
  cvt     : List Nat       -- RANGE, NAN, UNDERFLOW, BADCODE counts
  cycles  : Nat            -- table time from issue to completion
  abort   : Bool           -- SENTINEL with POLICY = 3 that diverged (R258)
  deriving DecidableEq, Repr

/-- A completion: posted to a collector entry (R261), or waiting for its last memory request. -/
structure Completion where
  cmd    : Cmd
  res    : Result
  posted : Nat             -- the cycle in which it is posted
  deriving DecidableEq, Repr

/-- One access that a command has made, as it is kept until the command completes: data that arrives uncorrectable takes back what
the command did after reading it (R322, R323). -/
inductive Access where
  /-- a read -/
  | rd (addr len : Nat)
  /-- the read of a partial-granule write or of an atomic (R293, R313) -/
  | rmw (addr len : Nat)
  /-- a write: the bytes before it, the bytes written, and the uncorrectable granules that it renewed -/
  | wr (addr : Nat) (old new : List Byte) (bad : List Nat)
  /-- tensor-scale tags of an engine group's units before they were set (R573) -/
  | tags (eg : Nat) (old : List (Nat × Word))
  /-- a copy of an SFU table before it was replaced -/
  | sfu (key : Nat) (old : List Byte)
  /-- a copy of a code table before it was replaced -/
  | code (key : Nat) (old : List Byte)
  /-- a register before it was changed -/
  | reg (n : RegName) (i : Nat) (old : Word)
  /-- the end of a pass over the source (R53) -/
  | pass
  /-- a residual plane that the command reads, or writes (R114) -/
  | plane (written : Bool) (addr len : Nat)
  deriving DecidableEq, Repr

/-- What a queue holds beside its registers. -/
structure QueueState where
  tail    : Nat            -- TAIL, in 16-byte units (R235)
  dec     : Nat            -- ring position the CP decodes next
  seq     : Nat            -- commands issued since ENABLE last rose (R259)
  halted  : Option Nat     -- cycle in which the present halt began (R265)
  haltSaw : Bool           -- the halt's record was posted (R265)
  held    : Option Nat     -- cycle in which the present hold by a SOWAIT began (R265)
  heldSaw : Bool           -- the hold's record was posted (R265)
  deriving DecidableEq, Repr

/-- A SOWAIT that issued and whose wait has not completed (R256). -/
structure Hold where
  cmd  : Cmd
  obj  : Nat
  cond : Nat
  comp : Nat
  sat  : Option Byte       -- set by the satisfying operation: the object's ERR then, 0 for none
  satAt : Nat              -- the cycle of the satisfying operation
  deriving DecidableEq, Repr

/-- The command path of the four fields. -/
structure CpState where
  nextUid   : Nat
  queues    : Sparse QueueState        -- by queue
  window    : Sparse (List Decoded)    -- by field, in decode order (R247)
  posts     : Sparse (List Decoded)    -- by engine group x 16 + core: the posted stream of a core (R221)
  holds     : List Hold                -- SOWAITs in progress, of queues and of posted streams
  inflight  : List Cmd                 -- issued, not completed
  parked    : List Completion          -- finished but for memory requests that are outstanding
  collector : Sparse (List Completion) -- by field x 48 + entry, oldest first (R261)
  objLimit  : Sparse Word              -- LIMIT of counter-mode objects (R224)
  traces    : Sparse (List Access)     -- by command number: its accesses, newest first, until it completes (R322)
  bsets     : List (Nat × Nat × Word)  -- writes of BOUNDSET under way: cycle, index of CP_BOUND and value (R242)
  drained   : Sparse Nat               -- by field x 48 + entry: the cycle after its last drain (R261)
  evSeq     : Nat                      -- device event number (R550)
  deriving DecidableEq, Repr

/-! ## Scheduling (chapter 16) -/

/-- A schedule wheel (R441, R445, R499). The current entry is ENTRY of CP_WSTAT. -/
structure Wheel where
  running : Bool
  start   : Nat                -- cycle in which the current entry began
  hold    : Nat                -- cycles added to the current entry by slot misses and overruns (R499)
  heldTo  : Nat                -- cycle up to which slot misses and overruns have held the wheel
  wlen    : Option Word        -- pending write of CP_WLEN
  entries : List (Nat × Word)  -- pending writes of CP_WHEEL, oldest first: index i of CP_WHEEL[64n + i] and value
  deriving DecidableEq, Repr

/-- What a job keeps beside CP_JSTAT (R450 to R456). -/
structure JobState where
  episode : Option Nat         -- cycle in which the present episode began (R456)
  resume  : Nat                -- cycle in which its latest restore ends (R452)
  deriving DecidableEq, Repr

/-- A tile load as the reload list keeps it (R452): the command with ROWS and K as read at issue. -/
structure ReloadEntry where
  bytes : List Byte
  rows  : Nat
  k     : Nat
  deriving DecidableEq, Repr

/-! ## The memory controllers (chapter 11) -/

/-- What a memory request does. -/
inductive ReqKind where
  | read
  | write
  /-- a memory-side atomic on one 2 KiB unit: a read slot, then a write-back (R313) -/
  | atomic
  /-- a slot that carries no data and stays idle (R343) -/
  | idle
  deriving DecidableEq, Repr

/-- One request of a controller: one access unit (R292). -/
structure MemReq where
  uid  : Nat          -- the command that makes it, or that it is made for; 0 for a host, a service core or an event ring
  part : Nat
  eg   : Nat          -- engine group whose wheel waits for the data (R301); 128 when there is none
  unit : Nat          -- address of the unit
  kind : ReqKind
  deriving DecidableEq, Repr

/-- A request whose slot has started: a read on its way, or an atomic between its read and its write-back. -/
structure Outstanding where
  req  : MemReq
  slot : Nat          -- cycle in which the slot started
  due  : Option Nat   -- due cycle; none for lending partitions (R447)
  deriving DecidableEq, Repr

/-- One memory controller. -/
structure MemCtl where
  slot     : Nat                    -- the next slot of the wheel to start (R295, R296)
  at_      : Nat                    -- cycle in which that slot starts
  queues   : Sparse (List MemReq)   -- by partition, in order of arrival (R297)
  reads    : List Outstanding       -- reads on their way, oldest first (R300)
  open_    : List Outstanding       -- units between atomic read and write-back (R313)
  borrowed : Sparse Nat             -- slots borrowed in this revolution, by partition (R447)
  pending  : List (Nat × Word)      -- MEM_WHEEL writes that take effect at slot 0 (R446)
  deriving DecidableEq, Repr

/-! ## Host functions (chapter 21) -/

/-- A PCI function (R536): power state and MSI-X table. VF enables stand in PCI_STAT. -/
structure PciFn where
  d3     : Bool          -- in D3hot (R539)
  msix   : Bool          -- MSI-X enabled
  masked : List Nat      -- masked vectors
  pend   : List Nat      -- pending vectors (R549)
  deriving DecidableEq, Repr

/-- What the block sends outside. -/
inductive Msg where
  /-- an MSI-X message: function (numbered as R552) and vector (R549) -/
  | msix (f vec : Nat)
  /-- an interrupt of service core 0 (R549, FUNC = 18) -/
  | svcIrq (vec : Nat)
  /-- an interrupt of a service core by Fennel (R423) -/
  | coreIrq (c : Nat)
  /-- a link frame of a torus port, with the PAM4 symbols of each physical lane that carries it (R353) -/
  | frame (k : Nat) (raw : List Byte) (lanes : List (Nat × List Nat))
  /-- an Ethernet frame of a port (chapter 14) -/
  | packet (e : Nat) (raw : List Byte)
  /-- an answer over DOE (R530) -/
  | spdm (d : Nat) (raw : List Byte)
  /-- an answer on the management bus (R566) -/
  | mgmt (raw : List Byte)
  /-- an in-band interrupt on the management bus (R566) -/
  | ibi
  /-- a read over a PCIe port completes with Unsupported Request (R538) -/
  | unsupported (d : Nat)
  deriving DecidableEq, Repr

/-! ## The tensor engine (chapter 03) -/

/-- An open tile of a command's current group (R87, R101). -/
structure Tile where
  w       : Nat           -- number within the group
  slot    : Option Nat    -- accumulator slot it is resident in
  spill   : Option Nat    -- unit of the spill area that holds it: 0 or 1
  lastEnd : Nat           -- cycle in which its most recent step ended
  deriving DecidableEq, Repr

/-- A finished tile whose drain has not ended (R86). -/
structure Drain where
  mt    : Nat
  nt    : Nat
  slot  : Nat
  ready : Nat             -- last step end + 32
  deriving DecidableEq, Repr

/-- A TE command (MATMUL, CONV or ATTN) waiting for slots or in flight (R99), with what it read at issue. Under ATTN the
group is the head, the step the entry of the record, and `carry` the running output rows (R175). -/
structure TeCmd where
  cmd     : Cmd
  m       : Nat           -- bounds as read at issue
  n       : Nat
  k       : Nat
  ta      : Nat           -- FP32 codes of the tensor scales (R64, R573)
  tb      : Nat
  extra   : List Nat      -- further values read at issue: FP32 codes of the bias vector (CONV, R193)
  slots   : List Nat      -- granted slots, lowest first
  group   : Nat           -- current group (R87)
  kt      : Nat           -- current step number
  pos     : Nat           -- tiles of the round already stepped
  tiles   : List Tile
  drains  : List Drain    -- in the order tiles finished
  freed   : List (Nat × Nat)  -- granted slots with the cycle in which their last drain ended
  spills  : Nat           -- spills made
  at_     : Nat           -- cycle in which the last step, spill or reload ended, or the first step may begin
  round   : Nat           -- CONV: cycle in which the current round began (R195)
  carry   : List (Nat × List Nat)  -- halves of fixed-rate blocks that the next tile completes, by address (R204)
  tabs    : List (List Byte)       -- ATTN: the SFU tables captured at issue (R174)
  scales  : List (Nat × Nat)       -- CONV and ATTN: tensor-scale entries that trailers name, as read at issue: index, code (R54)
  stopped : Bool          -- stopped by SAVE (R450)
  ended   : Bool          -- its last drain has ended: it holds its slots until it completes (R85, R99)
  seen    : List Nat      -- CONV: the blocks of its map whose TERN5 bytes have been counted (R46)
  deriving DecidableEq, Repr

/-- The tensor engine of an engine group. -/
structure Te where
  waiting : List TeCmd    -- waiting for slots, holding none (R99)
  flight  : List TeCmd    -- in flight, oldest first; at most four
  tags    : Sparse Word   -- tensor-scale tag of each 2 KiB unit of operand SRAM; 0xFFFFFFFF when unlisted (R573)
  free    : Nat           -- cycle in which the array's last operation ended
  drainAt : Nat           -- cycle in which the drain port's last drain ended (R86)
  deriving DecidableEq, Repr

/-- A job's saved commands on one engine group (R450, R451). The save area's layout is the device's own: memory holds free bytes
there, drawn as number `key`, and the slot images stand here. -/
structure SavedJob where
  eg     : Nat
  cmds   : List TeCmd
  images : List (Nat × List Byte)  -- slot it was held in, and the slot's content
  base   : Nat                     -- address of the engine group's save area
  len    : Nat                     -- bytes of it written
  key    : Nat
  deriving DecidableEq, Repr

/-! ## Basil cores (chapter 08) -/

/-- What a core waits for. -/
inductive CoreWait where
  | none
  /-- TL.WAIT on a ticket, destination register (R219) -/
  | ticket (t rd : Nat)
  /-- TL.POST or TL.DMA with all tickets outstanding (R220) -/
  | post
  /-- SO.WAIT: object, condition, comparand, destination register, start cycle, cycle limit (0 = never) (R219) -/
  | obj (o cond comp rd start limit : Nat)
  deriving DecidableEq, Repr

/-- A ticket (R220). -/
structure Ticket where
  busy : Bool            -- outstanding
  done : Option Byte     -- status that has drained and not yet returned
  last : Byte            -- status of the last completion, 0x00 if none
  deriving DecidableEq, Repr

/-- A 64-byte line in the fetch buffer of a core: its bytes as they were read, which a later store does not change (R216). -/
structure FetchLine where
  addr  : Nat         -- core address
  there : Nat         -- cycle in which it is there
  bytes : List Byte
  bad   : List Nat    -- its uncorrectable granules, by device address
  deriving DecidableEq, Repr

/-- One Basil cluster core (R210 to R220). -/
structure Core where
  running : Bool
  pc      : Nat
  x       : Sparse (BitVec 64)   -- x1 to x31
  f       : Sparse (BitVec 64)   -- f0 to f31
  v       : Sparse (BitVec 512)  -- v0 to v31
  vl      : Nat
  vtype   : Nat
  vstart  : Nat
  vcsr    : Nat
  fcsr    : Nat
  csrs    : Sparse (BitVec 64)   -- machine CSRs by number
  mmode   : Bool                 -- machine mode
  resv    : Option Nat           -- reservation of one aligned 8-byte word (R214)
  wait    : CoreWait
  tickets : List Ticket          -- eight (R220)
  next    : Nat                  -- next ticket number
  burst   : List Byte            -- the 2 KiB burst buffer (R219)
  bfmt    : Byte                 -- format byte of the buffered burst
  at_     : Nat                  -- first cycle in which the next instruction may issue (R212)
  ready   : Sparse Nat           -- cycle in which a result may be used: x at 0, f at 32, v at 64 (R212)
  lines   : List FetchLine       -- the lines in the fetch buffer (R216)
  portA   : List Nat             -- cycles in which a fetch takes port A (R216)
  instret : Nat                  -- instructions completed
  paid    : Nat                  -- cycle up to which its running was counted (R478)
  deriving DecidableEq, Repr

/-- A running CLRUN of a cluster (R217, R218). -/
structure ClRun where
  cmd     : Cmd
  cores   : List Nat        -- selected cores that have not ended
  status  : Byte            -- highest status so far
  addr    : Nat             -- address of an uncorrectable word or failed burst
  faulted : Bool            -- a core faulted (R263)
  endAt   : Nat             -- cycle in which the last core so far ended
  deriving DecidableEq, Repr

/-! ## Torus links (chapter 13) -/

/-- What a link frame carries besides the fields its port sets (R353, R355). -/
structure Frame where
  typ     : Nat
  vc      : Nat
  dest    : Nat
  dpart   : Nat
  mid     : Nat
  fidx    : Nat
  vbytes  : Nat
  last    : Bool
  payload : List Byte
  deriving DecidableEq, Repr

/-- A replayable frame that was sent: its SEQ and the credits it returns (R355, R358). -/
structure TxFrame where
  frame : Frame
  seq   : Nat
  crvc  : Nat
  crcnt : Nat
  deriving DecidableEq, Repr

/-- A torus port, beside the LNK registers. -/
structure LinkPort where
  lanes   : List Nat      -- active physical lanes, in logical order (R350)
  stage   : Nat           -- stage of a training in progress, 1 to 4; else 0 (R349)
  nbr     : Option Nat    -- what TRAIN frames reported: SYS_COORD fields in [23:0], port in [27:24] (log entry 22)
  txSeq   : Nat           -- SEQ of the next replayable frame
  sent    : Nat           -- frames sent
  replay  : List TxFrame  -- the replay buffer: sent and not acknowledged, oldest first (R358)
  rxSeq   : Nat           -- SEQ of the last frame accepted in order
  nak     : Bool          -- NAK = 1 is due on the next frame sent
  nakDone : Bool          -- NAK was sent in this episode (R359)
  naks    : Nat           -- successive NAKs without ACK advancing (R351)
  credit  : Sparse Nat    -- credits held at the neighbour, by virtual channel (R361)
  owed    : Sparse Nat    -- credits to be returned to the neighbour, by virtual channel
  buf     : List Frame    -- frames in the ingress buffers, oldest first
  slot    : Nat           -- next entry of the egress switch wheel (R363)
  fec     : Nat           -- corrected frames beyond the units FECCORR counts
  noRef   : Bool          -- the reference clock is lost (R567)
  judged  : Bool          -- it has passed stage 4 of a training or gone down since the module reset (R352)
  deriving DecidableEq, Repr

/-! ## Collective engines (chapter 13) -/

/-- The fields of a HEAD or CTRL frame (R366). -/
structure CtlMsg where
  kind   : Nat
  spart  : Nat
  srcc   : Nat
  group  : Nat
  status : Nat
  flags  : Nat
  addr   : Nat
  len    : Nat
  gseq   : Nat
  sig    : Nat
  step   : Nat
  rso    : Nat
  rslot  : Nat
  xfer   : Nat
  cmdid  : Nat
  deriving DecidableEq, Repr

/-- A message that landed, for the CE of a die: a control message, or a whole data message of this device's own. -/
structure InMsg where
  head  : CtlMsg
  dpart : Nat
  data  : Option (List Byte)
  deriving DecidableEq, Repr

/-- A data message that is landing: where it comes from (port, virtual channel, MID), and its bytes so far. -/
structure RxMsg where
  port  : Nat
  vc    : Nat
  mid   : Nat
  dpart : Nat
  head  : CtlMsg
  data  : List Byte
  deriving DecidableEq, Repr

/-- A coded send that is landing: the table captured at its first message, its header and index, and the next chunk (R369). -/
structure RxStream where
  srcc  : Nat
  spart : Nat
  cmdid : Nat
  table : List Byte
  head  : List Byte
  next  : Nat
  deriving DecidableEq, Repr

/-- A send or quantising send in progress (R369, R370). -/
structure Send where
  cmd      : Cmd
  rows     : Nat        -- bounds as read at issue
  len      : Nat
  table    : List Byte  -- code table captured at issue; empty when uncoded
  scale    : FVal       -- tensor scale as read at issue (R54, R246)
  granted  : Bool
  tries    : Nat        -- READYs sent
  refused  : Bool       -- the last READY was answered TARGET_IN_RESET
  msgs     : Nat        -- messages sent
  acked    : Nat        -- LANDACKs received
  cvt      : Counts     -- conversion outcomes
  watched  : Bool       -- the COLL_WATCH record was posted (R382)
  deriving DecidableEq, Repr

/-- A segment of a transfer: bytes, destination address, last of the transfer (R378). -/
structure Segment where
  data : List Byte
  addr : Nat
  last : Bool
  deriving DecidableEq, Repr

/-- One transfer step of a member: what it sends and what it receives (R376, R378, R379). -/
structure XferStep where
  snd    : Option Nat     -- rank it sends to
  rcv    : Option Nat     -- rank it receives from
  step   : Nat
  data   : Bool           -- false: a handshake only
  sst    : Nat            -- 0 to do, 1 READY sent, 2 granted and streaming, 3 done
  rst    : Nat            -- 0 waits for READY, 1 granted, 2 done
  segs   : List Segment   -- segments still to be sent
  seg    : Nat            -- segments sent
  credit : Nat            -- credit held, in 16 KiB units
  lim    : Nat            -- the most credit held so far
  landed : Nat            -- bytes received
  given  : Nat            -- units of this member's area that the sender may use; 0 before they are granted
  tries  : Nat            -- READYs sent (R370)
  refused : Bool          -- the last READY was answered TARGET_IN_RESET
  deriving DecidableEq, Repr

/-- A collective of a group's queue (R373). -/
structure Coll where
  cmd     : Cmd
  count   : Nat                 -- COUNT as read at issue
  begun   : Bool
  steps   : List XferStep
  acc     : Sparse (List Byte)  -- partials by chunk, final chunks by n + chunk, or blocks by rank
  cvt     : Counts
  misses  : Nat                 -- slot misses of its steps (R378)
  watched : Bool
  deriving DecidableEq, Repr

/-- A group as its entry was read at ENABLE (R371, R372), with its queue. STATE and HALTCODE stand in CE_GRPSTAT. -/
structure Group where
  n       : Nat
  rank    : Nat
  home    : Nat
  part    : Nat
  seg     : Nat            -- reserved area in 16 KiB units
  members : List Nat       -- member entries, by rank
  queue   : List Coll
  readys  : List CtlMsg    -- READYs that wait for this member
  notices : List (Nat × Nat × Nat × Nat)  -- notices for a collective not yet issued: code, DETAIL0, DETAIL1, GSEQ
  done    : Option Nat     -- GSEQ of the last collective that completed
  failed  : Bool           -- that one ended before its transfers did, so READYs for it may still come
  deriving DecidableEq, Repr

/-- The collective engine of an I/O die. -/
structure Ce where
  out     : List Frame     -- frames for the switch, oldest first
  inbox   : List InMsg     -- messages that landed, oldest first
  mid     : Nat            -- next message number
  sends   : List Send
  rx      : List RxMsg
  streams : List RxStream
  deriving DecidableEq, Repr

/-! ## Ethernet and Birsan (chapter 14) -/

/-- A received frame that is not foreign and waits for its handling (R391). -/
structure RxPkt where
  kind  : Nat          -- 0 ARP request, 1 Neighbor Solicitation, 2 echo request, 16 + TYPE a Birsan packet
  mac   : List Byte    -- source MAC address
  src   : List Byte    -- source address: 4 or 16 bytes
  dst   : List Byte    -- destination address
  ce    : Bool         -- marked CE
  sport : Nat          -- UDP source port
  body  : List Byte    -- ARP packet, ICMP message or UDP payload
  deriving DecidableEq, Repr

/-- An Ethernet port, beside the ETH registers. -/
structure EthPort where
  cfg      : Word               -- ETH_CFG as in force since the last training (R415)
  next     : Word               -- ETH_CFG when the training in progress began
  training : Bool
  addrs    : List (List Byte)   -- its IPv4 and IPv6 addresses (R522)
  rx       : List RxPkt         -- received frames, oldest first
  second   : Nat                -- second in which `echoes` were answered (R391)
  echoes   : Nat
  noRef    : Bool               -- the reference clock is lost (R567)
  lanes    : Nat                -- powered lanes, from lane 0 upward (R388)
  deriving DecidableEq, Repr

/-- Where a peer is reached: Ethernet port, MAC address, this device's address and the peer's. -/
structure Peer where
  port : Nat
  mac  : List Byte
  own  : List Byte
  addr : List Byte
  deriving DecidableEq, Repr

/-- The keys of both directions: 32 bytes and a 4-byte salt each, with the counters under them (R394, R398). -/
structure KeyPair where
  tx   : List Byte
  rx   : List Byte
  ctr  : Nat          -- CTR of the next packet sent
  seen : List Nat     -- the 4,096 highest CTR values accepted, highest first
  deriving DecidableEq, Repr

/-- A path of a session (R395, R404, R405). Times are in units of 10 ns. -/
structure BirPath where
  idx     : Nat
  peer    : Peer
  cwnd    : Nat
  srtt    : Option Nat
  rttvar  : Nat
  samples : List (Nat × Nat)  -- RTT samples of the last 10 s: time and value
  ceRx    : Nat               -- DATA packets received with CE (R402)
  ceSeen  : Nat               -- CECNT of the peer's last ACK for this path
  cutAt   : Option Nat        -- time of the last decrease
  nextAt  : Nat               -- time at which pacing lets the next packet go
  deriving DecidableEq, Repr

/-- A DATA packet that was sent and is not acknowledged (R403). -/
structure TxPkt where
  psn      : Nat
  plain    : List Byte
  path     : Nat
  ts       : Nat
  seq      : Nat     -- its place in the order in which the session sent its packets
  due      : Nat     -- time at which its retransmission timer expires, in units of 10 ns
  size     : Nat     -- bytes in flight: its UDP payload
  retx     : Bool    -- sent more than once
  lost     : Bool    -- to be sent again
  losses   : Nat
  expiries : Nat
  after    : Nat     -- packets sent after it on its path that have been acknowledged
  deriving DecidableEq, Repr

/-- A message to send (R401). -/
structure TxMsg where
  id   : Nat
  kind : Nat
  data : List Byte
  sent : Nat
  deriving DecidableEq, Repr

/-- A message that is arriving: pieces by offset (R401). -/
structure RxPart where
  id    : Nat
  kind  : Nat
  len   : Nat
  parts : List (Nat × List Byte)
  deriving DecidableEq, Repr

/-- A handshake (R396 to R399). -/
structure Handshake where
  initiator : Bool
  step      : Nat                     -- 1 waits for COOKIE, 2 for RESP, 3 for CONFIRM
  peer      : Peer
  eph       : Nat                     -- ephemeral private scalar
  rnd       : List Byte
  cookie    : List Byte
  log       : List Byte               -- transcript so far
  keys      : Option KeyPair          -- handshake keys
  secret    : List Byte               -- the shared secret and salt that the session keys come from
  salt      : List Byte
  frags     : List (Nat × List Byte)  -- fragments of the peer's message
  deriving DecidableEq, Repr

/-- A Birsan session (R395 to R406). -/
structure Session where
  sid     : Nat
  psid    : Nat                  -- the peer's identifier
  state   : Nat                  -- 0 CLOSED, 1 HANDSHAKE, 2 OPEN, 3 REKEY (R400)
  chain   : List Byte            -- the peer's certificate chain
  role    : Nat                  -- 0 TENANT, 1 OPERATOR, 2 REPOSITORY
  tenant  : Nat
  keys    : Option KeyPair
  old     : Option KeyPair       -- keys that a rekey replaced (R399)
  trial   : Option KeyPair       -- keys of a rekey that no packet of the peer has confirmed yet (R399)
  hs      : Option Handshake
  cookie  : List Byte            -- the peer's last COOKIE, or zeros
  ports   : List Nat             -- the session's port set (R395)
  paths   : List BirPath         -- open paths, by index
  psn     : Nat
  sends   : Nat                  -- DATA packets sent
  probeAt : Nat                  -- time at which the next probe may go under RWND = 0 (R406)
  unacked : List TxPkt           -- oldest first
  txq     : List TxMsg
  msgId   : Nat
  rwnd    : Nat                  -- the peer's RWND
  cum     : Nat                  -- CUMPSN
  beyond  : List Nat             -- PSNs received beyond CUMPSN
  since   : Nat                  -- DATA packets since the last ACK
  owed    : Option (Nat × Nat)   -- path and TS of the oldest DATA packet that no ACK covers
  parts   : List RxPart
  inbox   : List (Nat × List Byte)  -- delivered messages: KIND and body
  deriving DecidableEq, Repr

/-- Fragments of an INIT with a valid cookie (R397). -/
structure InitPart where
  peer  : Peer
  sport : Nat
  psid  : Nat
  sid   : Nat
  cnt   : Nat
  since : Nat                    -- time of its first fragment, in units of 10 ns (R400)
  frags : List (Nat × List Byte)
  deriving DecidableEq, Repr

/-- The Birsan transport (R392 to R406). -/
structure Birsan where
  cookie   : List Byte       -- current cookie secret
  cookieO  : List Byte       -- previous cookie secret
  inits    : List InitPart
  sessions : List Session    -- sessions that are not CLOSED
  nextSid  : Nat
  second   : Nat             -- second in which `shakes` were accepted (R400)
  shakes   : Nat
  deriving DecidableEq, Repr

/-- A compiled variant as Sceman knows it (R410, R458, R482, R483). Times in ms, energies in mJ. -/
structure Variant where
  words  : List Nat           -- words 2 to 6 of the assembly descriptor it was compiled for (R35, R548)
  job    : List Byte          -- the compiled job
  model  : Nat
  cls    : Nat
  width  : Nat
  height : Nat
  fps    : Nat
  frames : Nat
  docc   : Nat
  ddone  : Nat
  plans  : List (Nat × Nat)   -- partition and E_plan
  recon  : List (Nat × Nat)   -- partition and reconciled plan, where it differs
  deriving DecidableEq, Repr

/-- A chain (R411). -/
structure Chain where
  variants : List Nat         -- variants it is compiled for
  parts    : List Nat         -- its partitions on this device
  area     : Nat              -- its request area in T1
  starts   : List Nat         -- start objects on this device
  coords   : List (Nat × Nat × Nat)  -- torus coordinates that its placement names (R279)
  seeds    : List Nat         -- T1 addresses of the 8-byte seeds that the job lists, in order (R409)
  busy     : Option Nat       -- running request
  idleAt   : Nat              -- ms at which it becomes idle
  deriving DecidableEq, Repr

/-- The encoding of a request's clip by the header firmware (R430). -/
structure Encode where
  pos   : Nat                   -- pictures of the segment that are coded
  rem   : Int                   -- bits left of the segment's budget
  intra : Option (Nat × Nat)    -- QPAVG and BITS of the last I or key picture
  inter : Option (Nat × Nat)    -- QPAVG and BITS of the last P or inter picture
  dests : List Nat              -- pool entries of the segment's pictures, latest first
  busy  : Bool                  -- its next picture is posted
  deriving DecidableEq, Repr

/-- A request (R407 to R412). -/
structure Request where
  number   : Nat
  tenant   : Nat
  sid      : Nat
  rid      : List Byte
  rcd      : List Byte                -- the SUBMIT record and its conditioning
  variant  : Nat
  accepted : Nat                      -- ms
  deadline : Nat                      -- ms, absolute
  pstart   : Nat
  pend     : Nat
  state    : Nat                      -- 0 QUEUED, 1 RUNNING, 2 DONE
  chain    : Nat
  status   : Byte
  reason   : Nat
  held     : List (Nat × List Byte)   -- segments that no session has taken
  sent     : Nat                      -- segments sent
  misses   : Nat
  diverged : Nat
  ended    : Nat                      -- ms
  away     : Bool                     -- its session closed while it ran
  draining : Bool                     -- cancelled; the chain drains
  escal    : Nat                      -- the escalation decisions of its run (R409): free
  enc      : Encode
  deriving DecidableEq, Repr

/-- Sceman's tables in service SRAM (R457, R483). -/
structure Sceman where
  tenants  : List (List Byte)         -- tenant records of 32 bytes
  classes  : List (List Byte)         -- class records of 64 bytes
  models   : List (Nat × List Byte)   -- installed models: index in the table, and content
  variants : List Variant
  chains   : List Chain
  requests : List Request             -- in order of acceptance
  nextNum  : Nat
  anchors  : List (List Byte)         -- trust anchors (R522)
  deriving DecidableEq, Repr

/-! ## Fennel (chapter 15) -/

/-- The picture that runs, with what its completion reports (R425). -/
structure FenRun where
  desc   : List Byte
  status : Byte
  result : Nat
  addr   : Nat
  qpavg  : Nat
  bytes  : Nat
  bits   : Nat
  rows   : List Nat      -- row table
  uid    : Nat           -- the number that its memory requests carry
  deriving DecidableEq, Repr

/-- Fennel, beside the FEN registers: the picture that runs, and the current stream context with its partition and content
(R423). -/
structure Fennel where
  run  : Option FenRun
  ctx  : Option Nat
  part : Nat
  data : List Byte
  posts : List (Nat × Nat)     -- descriptor slots published for a request, with its number
  sw    : Nat                  -- 25 MHz tick in which the latest change of context ends (R423)
  deriving DecidableEq, Repr

/-! ## Sage: boot and security (chapter 20) -/

/-- What Sage is doing about the boot attempt (R517, R526, R527). -/
inductive BootPhase where
  /-- module reset or no rails -/
  | held
  /-- the stage of BOOT_STAT is about to run -/
  | ready
  /-- stopped before that stage under STEP -/
  | stepWait
  /-- the attempt failed; the next waits -/
  | backoff
  /-- the die is in Summer -/
  | summer
  deriving DecidableEq, Repr

/-- An image or blob that verified: its SVN and its components by TYPE (R520, R521). -/
structure Image where
  svn   : Nat
  comps : List (Nat × List Byte)
  raw   : List Byte
  deriving DecidableEq, Repr

/-- Sage (R508 to R533), beside the BOOT and SEC registers. -/
structure Sage where
  phase    : BootPhase
  nextFull : Bool                 -- the next attempt starts at stage 0
  retryAt  : Nat                  -- 25 MHz count at which the backoff ends (R526)
  nextImg  : Option Nat           -- image forced by R526 on the next attempt from stage 0
  fails5   : Nat                  -- consecutive failures in stages 5 to 8 with this image
  lpBad    : List Nat             -- LP5X controllers that failed training in this attempt (R526)
  lpGood   : Bool                 -- LP5X trained
  lpRetry  : Bool                 -- the attempt repeats LP5X training only (R526)
  image    : Option Image         -- the running image
  blob     : Option Image         -- the running blob
  slot     : Nat                  -- the image that booted: 0 A, 1 B
  rom      : Bool                 -- HOST interfaces are up (stage 1 done since the module reset)
  wave     : Nat                  -- power waves done (R523)
  uds      : List Byte            -- unique device secret, a fuse value (log entry 2)
  fuseImg  : List Byte            -- 96 fused bytes: hashes of the image keys, ECDSA then LMS (log entry 2)
  fuseOwn  : List Byte            -- 96 fused bytes: hashes of the owner keys
  serial   : Nat                  -- SERIAL of R547, a fuse value (log entry 2)
  flash    : Sparse Byte          -- xSPI flash (R518); an unlisted byte is 0xFF (log entry 1)
  leaf     : Nat                  -- DeviceID LMS leaves reserved so far (R529)
  leafNext : Nat                  -- next DeviceID leaf
  aliasSeed : List Byte           -- seed of the alias keys (R528)
  aliasN   : Nat                  -- alias LMS signatures made
  coordIn  : Bool                 -- the coordinates of SYS_COORD have been loaded since the module reset (R352)
  chain    : List Byte            -- Alias, DeviceID, CA (R528)
  meas     : List (List Byte)     -- measurement blocks 1 to 9 (R531)
  alert    : Bool                 -- ALERT_N is driven low (R564)
  critical : Bool                 -- a critical reading has not been followed by Summer (R564)
  failed   : Bool                 -- a boot failure is pending (R526, R564)
  deriving DecidableEq, Repr

/-! ## Power and clocks (chapter 18) -/

/-- Energy accounting and the limiters, beside the PWR and CLK registers. -/
structure Power where
  act     : List Nat     -- activity of the nine accounts in this sample, in 1/256 pJ (R478)
  sums    : List Nat     -- energy of the nine accounts in this window, in uJ
  lows    : Nat          -- consecutive windows below 95 % of WINCAP (R488)
  calm    : Nat          -- consecutive readings below FASTCAP - 200 W (R487)
  hot     : Nat          -- consecutive samples with a sensor above its threshold (R493)
  cool    : Nat          -- consecutive samples with every sensor at least 5 C below
  map     : Word         -- SYS_PARTMAP when this sample began
  budNow  : List Nat     -- the partitions' budgets when this sample began
  budWas  : List Nat     -- and when the sample before it began
  droop   : Bool         -- a detector reports droop (R490)
  recover : Nat          -- tick in which the recovery after the last droop ends
  part    : Nat          -- part of a 25 MHz count that has passed, in units of `nsUnits` (R486, R490)
  deriving DecidableEq, Repr

/-! ## Pins and rails (chapters 20 and 22) -/

/-- Why all rails are off (R560). -/
inductive Shut where
  | under
  | overvolt
  | current
  deriving DecidableEq, Repr

/-- The module's inputs as filtered, and its rails (R559 to R563). -/
structure Board where
  shut         : Option Shut   -- all rails are off, the always-on rail included
  mated        : Bool          -- PRESENT_N has mated
  osc          : Bool          -- the 25 MHz oscillator runs
  pwrgood      : Bool          -- PWRGOOD as honoured
  resetN       : Bool          -- RESET_N as honoured: true is high
  crst         : Bool          -- CRST_N as filtered: true is active; as honoured it stands in SYS_SEASON
  crstHold     : Bool          -- the 100 us after an honoured change (R515)
  throttle     : Bool          -- THROTTLE_N as filtered; as honoured it stands in PWR_STAT
  throttleHold : Bool
  perst        : List Nat      -- PCIe ports in PERST
  hotDie       : Bool          -- the die waits in Winter for temperatures (R494)
  hotIo        : Bool          -- every rail but the always-on one is off for temperatures (R494)
  deriving DecidableEq, Repr

/-! ## Attestation and the management bus (chapters 20 and 22) -/

/-- The SPDM responder of a port's DOE mailbox (R530). -/
structure Spdm where
  phase : Nat            -- 0 nothing, 1 VERSION given, 2 CAPABILITIES given, 3 ALGORITHMS given
  vca   : List Byte      -- the messages of those three exchanges
  certs : List Byte      -- the messages of GET_DIGESTS and GET_CERTIFICATE since
  meas  : List Byte      -- the messages of GET_MEASUREMENTS since the last signature
  last  : List Byte      -- the alias LMS signature over the last transcript hash that was signed
  deriving DecidableEq, Repr

/-- The management bus (R565, R566). -/
structure Mgmt where
  i3c   : Option Nat     -- dynamic address; none in SMBus mode
  strap : Nat            -- 2 x MADDR1 + MADDR0; an open strap reads 1
  limit : Option Nat     -- tick by which the access in progress ends
  stat  : Byte           -- result of the last access
  data  : Word
  deriving DecidableEq, Repr

/-! ## The state -/

/-- The state of the block. -/
structure State where
  pending : List Instr              -- the commands that are waiting, first in first out
  free    : Nat                     -- the model's counter behind free values (log entry 5)
  cycle   : Nat                     -- compute cycles elapsed (log entry 4)
  tick    : Nat                     -- 25 MHz ticks since the end of the last module reset (R550)
  resp    : List Byte               -- what the last read or request returned
  out     : List Msg                -- what the block sent outside, oldest first
  regs    : Sparse Word             -- registers, by `regKey`; an unlisted register holds its reset value
  hi      : Sparse (Option Word)    -- captured values of _HI registers (R12)
  mem     : Sparse Byte             -- device memory of R287, by local address
  bad     : List Nat                -- addresses of uncorrectable granules (R319)
  cp      : CpState
  wheels  : Sparse Wheel            -- by engine group
  jobs    : Sparse JobState         -- by 8 x partition + job
  reload  : Sparse (List ReloadEntry)  -- by (8 x partition + job) x 128 + engine group, oldest first
  saved   : Sparse (List SavedJob)  -- by 8 x partition + job
  memc    : Sparse MemCtl           -- by controller
  te      : Sparse Te               -- by engine group
  sfuTab  : Sparse (List Byte)      -- SFU tables by engine group x 32 + slot x 2 + copy (R132, R150)
  codeTab : Sparse (List Byte)      -- coder tables by coder x 16 + slot x 2 + copy (R339)
  cores   : Sparse Core             -- by engine group x 16 + core; 128 and 129 stand for the service cores of IOD0 and IOD1
  svcPend : Nat                     -- bit n: an external interrupt of service core n is pending (R230)
  clrun   : Sparse (List ClRun)     -- running CLRUNs by engine group, oldest first; their cores are disjoint
  links   : Sparse LinkPort         -- by torus port
  ce      : Sparse Ce               -- by I/O die
  groups  : Sparse Group            -- by group number; a group that is not listed holds no entry
  eth     : Sparse EthPort        -- by Ethernet port
  birsan  : Birsan
  sceman  : Sceman
  fen     : Fennel
  sage    : Sage
  power   : Power
  board   : Board
  spdm    : Sparse Spdm             -- by PCIe port
  mgmt    : Mgmt
  pci     : Sparse PciFn            -- functions 0 to 17, numbered as R552
  ring18  : Sparse (List Byte)      -- records of event ring 18 in service SRAM (R553)
  deriving DecidableEq, Repr

/-! ## Reset -/

/-- A queue that has published nothing. -/
def QueueState.reset : QueueState := ⟨0, 0, 0, none, false, none, false⟩

/-- The command path after reset. -/
def CpState.reset : CpState := ⟨1, [], [], [], [], [], [], [], [], [], [], [], 0⟩

/-- A wheel that has not started. -/
def Wheel.reset : Wheel := ⟨false, 0, 0, 0, none, []⟩

/-- A job with no episode. -/
def JobState.reset : JobState := ⟨none, 0⟩

/-- A controller with nothing queued, its wheel at slot 0. -/
def MemCtl.reset : MemCtl := ⟨0, 0, [], [], [], [], []⟩

/-- A tensor engine with no command and every tag 0xFFFFFFFF (R573). -/
def Te.reset : Te := ⟨[], [], [], 0, 0⟩

/-- A ticket with nothing outstanding and no completion (R220). -/
def Ticket.reset : Ticket := ⟨false, none, 0x00#8⟩

/-- A core that runs nothing: zero registers, user mode, no reservation, frm 0 (R211); log entry 9. -/
def Core.reset : Core :=
  ⟨false, 0, [], [], [], 0, 0, 0, 0, 0, [(0x306, 7#64)], false, none, .none, List.replicate 8 Ticket.reset, 0, [], 0x00#8,
    0, [], [], [], 0, 0⟩

/-- A port that is down and has sent and received nothing (R349). -/
def LinkPort.reset : LinkPort := ⟨[], 0, none, 0, 0, [], 4095, false, false, 0, [], [], [], 0, 0, false, false⟩

/-- A CE with nothing to do. -/
def Ce.reset : Ce := ⟨[], [], 0, [], [], []⟩

/-- A group with no entry read. -/
def Group.reset : Group := ⟨0, 0, 0, 0, 0, [], [], [], [], none, false⟩

/-- An Ethernet port that is off and has no address. -/
def EthPort.reset : EthPort := ⟨0x00023280#32, 0x00023280#32, false, [], [], 0, 0, false, 0⟩

/-- A transport without sessions (log entry 14: the cookie secrets). -/
def Birsan.reset : Birsan := ⟨List.replicate 32 0x00#8, List.replicate 32 0x00#8, [], [], 1, 0, 0⟩

/-- Sceman with empty tables (log entry 15). -/
def Sceman.reset : Sceman := ⟨[], [], [], [], [], [], 1, []⟩

/-- Fennel with no context and no picture. -/
def Fennel.reset : Fennel := ⟨none, none, 0, [], [], 0⟩

/-- Sage at the end of a module reset: stage 0 is about to run (R517). Fuse values and flash are log entries 1 and 2. -/
def Sage.reset : Sage :=
  { phase := .ready, nextFull := true, retryAt := 0, nextImg := none, fails5 := 0, lpBad := [], lpGood := false, lpRetry := false, image := none, blob := none, slot := 0,
    rom := false, wave := 0, uds := List.replicate 48 0x00#8, fuseImg := List.replicate 96 0x00#8,
    fuseOwn := List.replicate 96 0x00#8, serial := 0, flash := [], leaf := 0, leafNext := 0, aliasSeed := List.replicate 48 0x00#8,
    aliasN := 0, coordIn := false, chain := [], meas := [], alert := false, critical := false, failed := false }

/-- Nothing counted, no droop. -/
def Power.reset : Power := ⟨List.replicate 9 0, List.replicate 9 0, 0, 0, 0, 0, 0#32, List.replicate 8 0, List.replicate 8 0, false, 0, 0⟩

/-- Rails up, PWRGOOD and RESET_N high, every other input inactive (R556; log entry 17). -/
def Board.reset : Board := ⟨none, true, true, true, true, false, false, false, false, [], false, false⟩

/-- A responder that has answered nothing. -/
def Spdm.reset : Spdm := ⟨0, [], [], [], []⟩

/-- An SMBus target with open straps and no access made (R565; log entry 17). -/
def Mgmt.reset : Mgmt := ⟨none, 3, none, 0x00#8, 0#32⟩

/-- A function in D0 with MSI-X disabled (log entry 16). -/
def PciFn.reset : PciFn := ⟨false, false, [], []⟩

/-- The block right after reset: every register at its Reset value, nothing waiting and nothing listed in memory. -/
def State.reset : State where
  pending := []
  free := 0
  cycle := 0
  tick := 0
  resp := []
  out := []
  regs := []
  hi := []
  mem := []
  bad := []
  cp := CpState.reset
  wheels := []
  jobs := []
  reload := []
  saved := []
  memc := []
  te := []
  sfuTab := []
  codeTab := []
  cores := []
  svcPend := 0
  clrun := []
  links := []
  ce := []
  groups := []
  eth := []
  birsan := Birsan.reset
  sceman := Sceman.reset
  fen := Fennel.reset
  sage := Sage.reset
  power := Power.reset
  board := Board.reset
  spdm := []
  mgmt := Mgmt.reset
  pci := []
  ring18 := []

end Sys2Proof.Machine
end

