-- ==== Sys2Proof/Machine/Flags.lean ====
section
/-!
DEFINITION. The one home of registers: reading and writing them and their fields, counts that stop at their maximum, the status
codes of R17, the merging of statuses (R19) and the conversion counters (R74, R75).
-/

set_option Elab.async false

namespace Sys2Proof.Machine

open Sys2Proof

/-- The key of a register in the register file. -/
def regKey (n : RegName) (i : Nat) : Nat := i * 256 + n.code

/-- What a register holds after the reset that covers it; event ring 18 has EN = 1 (R554). -/
def regReset (n : RegName) (i : Nat) : Word :=
  if n = .sysEvcfg ∧ i = 18 then 0x00000010#32 else n.resetWord

/-- The value an unlisted key of the register file stands for. -/
def regDefault (key : Nat) : Word :=
  if key = 18 * 256 + RegName.sysEvcfg.code then 0x00000010#32
  else
    match mapRows.find? (fun r => decide (r.reg.code = key % 256)) with
    | some r => r.reg.resetWord
    | none => 0#32

/-- The register's stored word. -/
def State.reg (s : State) (n : RegName) (i : Nat) : Word := Sparse.rd regDefault (regKey n i) s.regs

/-- Replaces the register's stored word. -/
def State.setReg (s : State) (n : RegName) (i : Nat) (v : Word) : State :=
  { s with regs := Sparse.wr regDefault (regKey n i) v s.regs }

/-- Returns a register to its reset value. -/
def State.resetReg (s : State) (n : RegName) (i : Nat) : State :=
  { s with regs := Sparse.wr regDefault (regKey n i) (regDefault (regKey n i)) s.regs }

/-- The field's value. -/
def State.fld (s : State) (f : Fld) (i : Nat) : Nat := bits (s.reg f.reg i).toNat f.lo f.width

/-- Whether a one-bit field is 1. -/
def State.flag (s : State) (f : Fld) (i : Nat) : Bool := s.fld f i == 1

/-- A word with a field replaced. -/
def putField (w : Word) (lo width v : Nat) : Word :=
  let old := bits w.toNat lo width
  BitVec.ofNat 32 (w.toNat - old * 2 ^ lo + v % 2 ^ width * 2 ^ lo)

/-- Replaces a field. -/
def State.setFld (s : State) (f : Fld) (i v : Nat) : State :=
  s.setReg f.reg i (putField (s.reg f.reg i) f.lo f.width v)

/-- Adds to a count that stops at its maximum (R554 and the like). -/
def State.count (s : State) (f : Fld) (i n : Nat) : State := s.setFld f i (satAdd f.width (s.fld f i) n)

/-- Adds to a count modulo its width. -/
def State.advance (s : State) (f : Fld) (i n : Nat) : State := s.setFld f i (s.fld f i + n)

/-- A _LO and _HI pair as one 64-bit number. -/
def State.pair (s : State) (lo hi : RegName) (i : Nat) : Nat := (s.reg lo i).toNat + 2 ^ 32 * (s.reg hi i).toNat

/-- Writes a _LO and _HI pair. -/
def State.setPair (s : State) (lo hi : RegName) (i v : Nat) : State :=
  (s.setReg lo i (BitVec.ofNat 32 v)).setReg hi i (BitVec.ofNat 32 (v / 2 ^ 32))

/-! ## Status codes (R17) -/

namespace St
/-- OK. -/
def ok : Byte := 0x00#8
/-- SPILLED. -/
def spilled : Byte := 0x01#8
/-- SQUASHED. -/
def squashed : Byte := 0x02#8
/-- SLOT_MISS. -/
def slotMiss : Byte := 0x03#8
/-- SENTINEL_DIVERGED. -/
def sentinelDiverged : Byte := 0x04#8
/-- THROTTLE_STUCK. -/
def throttleStuck : Byte := 0x05#8
/-- LINK_DEGRADED. -/
def linkDegraded : Byte := 0x06#8
/-- ECC_UNCORRECTED. -/
def ecc : Byte := 0x10#8
/-- STALE_GEN. -/
def staleGen : Byte := 0x11#8
/-- TARGET_IN_RESET. -/
def targetInReset : Byte := 0x12#8
/-- STEP_MISMATCH. -/
def stepMismatch : Byte := 0x13#8
/-- SEQ_MISMATCH. -/
def seqMismatch : Byte := 0x14#8
/-- QUOTA_EXCEEDED. -/
def quota : Byte := 0x15#8
/-- BUDGET_EXCEEDED. -/
def budget : Byte := 0x16#8
/-- SIG_INVALID. -/
def sigInvalid : Byte := 0x17#8
end St

/-- Whether R17 defines a status value; the others are reserved (R18). -/
def statusDefined (b : Byte) : Bool := b.toNat ≤ 6 || (0x10 ≤ b.toNat && b.toNat ≤ 0x17)

/-- The flags that apply to a completion, with those of its command (R252, R32, R443). -/
def Completion.allFlags (c : Completion) : List Nat :=
  c.res.flags ++ (if c.cmd.squashed then [2] else []) ++
    (if c.cmd.slotMiss ≠ 0 || c.cmd.overrun then [3] else []) ++
    (if c.res.status.toNat ≤ 6 && c.res.status.toNat ≠ 0 then [c.res.status.toNat] else [])

/-- The status a record carries: the highest of the codes that apply (R19). -/
def Completion.final (c : Completion) : Byte :=
  BitVec.ofNat 8 (c.allFlags.foldl max c.res.status.toNat)

/-- FLAGS of the completion record: bit v set when status value v applied, for v from 1 to 6 (R259). -/
def Completion.flagWord (c : Completion) : Nat :=
  (List.range 7).foldl (fun w v => if v ≠ 0 && c.allFlags.contains v then w + 2 ^ v else w) 0

/-- A result with a status and a table time, nothing else reported. -/
def Result.mk0 (status : Byte) (cycles : Nat) : Result :=
  { status := status, flags := [], addr := 0, detail0 := 0, detail1 := 0, cvt := [], cycles := cycles, abort := false }

/-- A result with an address. -/
def Result.at (status : Byte) (addr cycles : Nat) : Result := { Result.mk0 status cycles with addr := addr }

/-- Adds conversion outcomes of an engine group's TE, SFU, WAG or cluster to its counters (R74, R75). -/
def State.addCvt (s : State) (eg : Nat) (c : Counts) : State :=
  (((s.count F.teCvtcnta_RANGE_COUNT eg c.range).count F.teCvtcnta_NAN_COUNT eg c.nan).count
    F.teCvtcntb_UNDERFLOW_COUNT eg c.under).count F.teCvtcntb_BADCODE_COUNT eg c.bad

/-- The four counts as CVT of a completion record holds them, 16 bits each (R259). -/
def Counts.list (c : Counts) : List Nat :=
  [min c.range 65535, min c.nan 65535, min c.under 65535, min c.bad 65535]

end Sys2Proof.Machine
end

