-- ==== Sys2Proof/Machine/Ops.lean ====
section
/-!
DEFINITION. The shared operations: the address map, windows and device memory (chapter 11), partitions and requesters, event
records and MSI-X (chapter 21), memory-controller requests, synchronisation objects (R253 to R257), and the life of a command
from issue to completion (chapter 09).
-/

set_option Elab.async false

namespace Sys2Proof

/-- Whether a requester is Sage or a service core. -/
def Requester.svcOrSage : Requester → Bool
  | .sage => true
  | .service _ => true
  | _ => false

/-- Whether a requester is a host function. -/
def Requester.isHost : Requester → Bool
  | .pf _ => true
  | .vf _ _ => true
  | _ => false

/-- The port of a host requester. -/
def Requester.port : Requester → Nat
  | .pf d => d
  | .vf d _ => d
  | _ => 0

/-- The number of a host function, counted as the event rings are (R552). -/
def Requester.fnNum : Requester → Nat
  | .pf d => 9 * d
  | .vf d v => 9 * d + v
  | _ => 0

end Sys2Proof

namespace Sys2Proof.Machine

open Sys2Proof

/-- Guards a meaning by the device having the units it names. -/
def inRange (p : Bool) (k : Unit → Host.Outcome State Fault Refusal) : Host.Outcome State Fault Refusal :=
  if p then k () else .fault .noSuchUnit

/-- Moves the compute clock on to a cycle, if it has not passed it (log entry 4). -/
def State.until (s : State) (t : Nat) : State := { s with cycle := max s.cycle t }

/-- Parts of a nanosecond in which wall time is kept: a cycle of every level and of every step of a recovery has a whole number of
them (R486, R490; 26,771,144,400 is the least common multiple of 10 to 25). -/
def nsUnits : Nat := 16 * 26771144400

/-- The period of the compute clock in sixteenths of the current level's period: doubled during a droop, and back to it in 16 steps of
62.5 ns (R490). -/
def State.period16 (s : State) : Nat :=
  if s.power.droop then 32
  else if s.tick < s.power.recover then
    let ended := ((s.tick + 25 - s.power.recover) * 40 * nsUnits + s.power.part) * 2 / (125 * nsUnits)
    32 - min 16 (ended + 1)
  else 16

/-- The length of the present compute cycle: 1 / f at f = 1.0 + 0.1 x LEVEL GHz, stretched (R486, R490). -/
def State.cycleUnits (s : State) : Nat := 10 * nsUnits / (10 + s.fld F.clkStat_LEVEL 0) * s.period16 / 16

/-- One compute cycle with no command; the 25 MHz count advances with every 40 ns that have passed so (log entry 4). -/
def State.idle (s : State) : State :=
  let t := s.power.part + s.cycleUnits
  { s with cycle := s.cycle + 1, tick := s.tick + t / (40 * nsUnits), power := { s.power with part := t % (40 * nsUnits) } }

/-- Takes the next number of the counter behind free values (log entry 5). -/
def State.draw (s : State) : State := { s with free := s.free + 1 }

/-! ## Partitions, seasons and requesters -/

/-- The partition a block of engine groups is assigned to (R436). -/
def State.blockPart (s : State) (b : Nat) : Option Nat :=
  let v := bits (s.reg .sysPartmap 0).toNat (4 * b) 4
  if bit v 3 then some (v % 8) else none

/-- The partition of an engine group (R436). -/
def State.egPart (s : State) (eg : Nat) : Option Nat := s.blockPart (eg / 16)

/-- The engine groups of a partition, ascending. -/
def State.egsOf (s : State) (p : Nat) : List Nat :=
  (List.range 128).filter (fun e => s.egPart e == some p)

/-- The rank of an engine group within its partition (R451). -/
def State.egRank (s : State) (p eg : Nat) : Nat := ((s.egsOf p).filter (· < eg)).length

/-- Winter (R508). -/
def winter : Nat := 0
/-- Spring (R508). -/
def spring : Nat := 1
/-- Summer (R508). -/
def summer : Nat := 2
/-- Autumn (R508). -/
def autumn : Nat := 3

/-- The season of a partition (R508). -/
def State.season (s : State) (p : Nat) : Nat := s.fld F.sysPseason_SEASON p

/-- The season of the compute die (R508). -/
def State.dieSeason (s : State) : Nat := s.fld F.sysSeason_DIE 0

/-- Whether VF v (1 to 8) of port d is enabled (PCI_STAT.VFON). -/
def State.vfOn (s : State) (d v : Nat) : Bool := bit (s.fld F.pciStat_VFON d) (v - 1)

/-- The partition VF v of port d is mapped to in PCI_FNMAP (R537). -/
def State.vfMapped (s : State) (d v : Nat) : Option Nat :=
  let m := bits (s.reg .pciFnmap d).toNat (4 * (v - 1)) 4
  if bit m 3 then some (m % 8) else none

/-- The partition a VF acts for: it has no access until it is both enabled and mapped (R537). -/
def State.vfPart (s : State) (d v : Nat) : Option Nat := if s.vfOn d v then s.vfMapped d v else none

/-- The partition a requester is tied to; none for the PFs, the service cores and Sage. -/
def State.tiedTo (s : State) : Requester → Option Nat
  | .vf d v => s.vfPart d v
  | .core eg _ => s.egPart eg
  | .cp _ p => some p
  | .ce _ p => some p
  | _ => none

/-- Whether a requester counts as one of partition p: the owning partition's units and VFs, and the PFs, service cores and
Sage (R235, R253, R538). A VF that is not mapped or a core of an unassigned group counts for none. -/
def State.actsFor (s : State) (who : Requester) (p : Nat) : Bool :=
  match who with
  | .pf _ | .service _ | .sage => true
  | w => s.tiedTo w == some p

/-! ## The address map (R286 to R291) -/

/-- A row of the address map; engine-group windows are split into their regions (R287, R288). -/
inductive Region where
  | t1 | t2
  | opSram (eg : Nat)
  | acc (eg : Nat)
  | clu (eg : Nat)
  | ms
  | red
  | t3 (d : Nat)
  | regs
  deriving DecidableEq, Repr

/-- 1 KiB, 1 MiB and 1 GiB (R7). -/
def kib : Nat := 1024
/-- 1 MiB. -/
def mib : Nat := 1048576
/-- 1 GiB. -/
def gib : Nat := 1073741824

/-- The base of T2. -/
def t2Base : Nat := 0x010000000000
/-- The base of the engine-group windows. -/
def egBase : Nat := 0x040000000000
/-- The base of the map stores. -/
def msBase : Nat := 0x040040000000
/-- The base of the reduction memories. -/
def redBase : Nat := 0x040080000000
/-- The size of a T1 field region, 108 GiB (R290). -/
def fieldRegion : Nat := 0x1B00000000

/-- The address of the window of an engine group (R288). -/
def egWindow (eg : Nat) : Nat := egBase + eg * 0x800000
/-- The address of operand SRAM offset 0 of an engine group. -/
def opSramBase (eg : Nat) : Nat := egWindow eg
/-- The address of an accumulator slot. -/
def slotBase (eg j : Nat) : Nat := egWindow eg + 0x400000 + j * 0x40000
/-- The address of cluster SRAM offset 0 of an engine group. -/
def cluBase (eg : Nat) : Nat := egWindow eg + 0x600000
/-- The address of the map store of a field. -/
def mapStore (f : Nat) : Nat := msBase + f * 0x4000000

/-- The row of the address map an address lies in; none for unmapped addresses (R287, R288). -/
def region (a : Nat) : Option Region :=
  if a < 432 * gib then some .t1
  else if t2Base ≤ a ∧ a < t2Base + 1536 * gib then some .t2
  else if egBase ≤ a ∧ a < egBase + gib then
    let n := (a - egBase) / 0x800000
    let o := (a - egBase) % 0x800000
    if o < 0x300000 then some (.opSram n)
    else if 0x400000 ≤ o ∧ o < 0x500000 then some (.acc n)
    else if 0x600000 ≤ o ∧ o < 0x700000 then some (.clu n)
    else none
  else if msBase ≤ a ∧ a < msBase + 256 * mib then some .ms
  else if redBase ≤ a ∧ a < redBase + 128 * mib then some .red
  else if 0x800000000000 ≤ a ∧ a < 0xA00000000000 then some (.t3 0)
  else if 0xA00000000000 ≤ a ∧ a < 0xC00000000000 then some (.t3 1)
  else if 0xF00000000000 ≤ a ∧ a < 0xF00100000000 then some .regs
  else none

/-- The row a range of n ≥ 1 bytes lies in wholly, if there is one (R289). -/
def rangeRegion (a n : Nat) : Option Region :=
  match region a, region (a + n - 1) with
  | some r, some q => if r = q then some r else none
  | _, _ => none

/-- T0: the map stores and the engine-group windows (R289). -/
def Region.isT0 : Region → Bool
  | .opSram _ | .acc _ | .clu _ | .ms => true
  | _ => false

/-- Whether a range lies in one row of T0 or T1. -/
def inT0T1 (a n : Nat) : Bool :=
  match rangeRegion a n with
  | some .t1 => true
  | some r => r.isT0
  | none => false

/-- Whether a range lies in a map store or T1. -/
def inMsT1 (a n : Nat) : Bool :=
  match rangeRegion a n with
  | some .t1 => true
  | some .ms => true
  | _ => false

/-- Whether a range lies in one row of T0, T1 or T2. -/
def inT0T1T2 (a n : Nat) : Bool :=
  match rangeRegion a n with
  | some .t1 | some .t2 => true
  | some r => r.isT0
  | none => false

/-- The memory controller of an address in T1 (R290) or T2 (R291): 0 to 191, 192 to 215. -/
def controllerOf (a : Nat) : Option Nat :=
  match region a with
  | some .t1 => some (48 * (a / fieldRegion) + (a % fieldRegion) / 2048 % 48)
  | some .t2 => some (192 + (a - t2Base) / 4096 % 24)
  | _ => none

/-- The start of the access unit an address lies in (R292). -/
def unitOf (a : Nat) : Nat :=
  match region a with
  | some .t2 => a / 4096 * 4096
  | _ => a / 2048 * 2048

/-- The start of the ECC granule an address lies in: 64 bytes in T1 and T2, 8 bytes in SRAM (R319). -/
def granuleOf (a : Nat) : Nat :=
  match region a with
  | some .t1 | some .t2 => a / 64 * 64
  | _ => a / 8 * 8

/-- The length of an address's ECC granule. -/
def granuleLen (a : Nat) : Nat :=
  match region a with
  | some .t1 | some .t2 => 64
  | _ => 8

/-! ## Device memory -/

/-- What a byte of device memory that nothing has written reads as: 0x00 (log entry 1). -/
def memDefault : Nat → Byte := fun _ => 0x00#8

/-- The host bus address that a T3 address of port d reads (R542). -/
def State.hostAddr (s : State) (d a : Nat) : Nat :=
  (s.pair .pciT3xlatLo .pciT3xlatHi d + a - (if d = 0 then 0x800000000000 else 0xA00000000000)) % 2 ^ 64

/-- The byte an address reads: device memory, or host memory over a port, whose content is free (R542, log entry 8). -/
def State.byteAt (s : State) (a : Nat) : Byte :=
  match region a with
  | some (.t3 d) => Config.hostByte s.free d (s.hostAddr d a)
  | _ => Sparse.rd memDefault a s.mem

/-- The `n` bytes from an address. -/
def State.read (s : State) (a : Nat) : Nat → List Byte
  | 0 => []
  | n + 1 => s.byteAt a :: s.read (a + 1) n

/-- The little-endian 32-bit word at an address. -/
def State.word (s : State) (a : Nat) : Nat := leNat (s.read a 4)

/-- Writes bytes to a byte table. -/
def putBytes (m : Sparse Byte) (a : Nat) : List Byte → Sparse Byte
  | [] => m
  | b :: bs => putBytes (Sparse.wr memDefault a b m) (a + 1) bs

/-- Whether two ranges share a byte. -/
def overlaps (a n b m : Nat) : Bool := decide (a < b + m) && decide (b < a + n)

/-- Whether one of some ranges meets one of others. -/
def rangesMeet (xs ys : List (Nat × Nat)) : Bool := xs.any (fun x => ys.any (fun y => overlaps x.1 x.2 y.1 y.2))

/-- Marks the windowed commands that pre-read a word of the range written (R250). -/
def squashMem (a n : Nat) (d : Decoded) : Decoded :=
  if d.watch.any (fun w => match w with | .mem b m => overlaps a n b m | _ => false)
  then { d with reread := true } else d

/-- Marks the windowed commands that pre-read bound register `r` (R250). -/
def squashBound (r : Nat) (d : Decoded) : Decoded :=
  if d.watch.any (fun w => match w with | .bound q => q == r | _ => false)
  then { d with squashed := true } else d

/-- Marks the windowed commands that pre-read ERR of object `o` (R250, R462). -/
def squashObj (o : Nat) (d : Decoded) : Decoded :=
  if d.watch.any (fun w => match w with | .obj q => q == o | _ => false)
  then { d with squashed := true } else d

/-- Applies a function to every decoded command of every window. -/
def CpState.mapWindow (c : CpState) (g : Decoded → Decoded) : CpState :=
  { c with window := c.window.map (fun kv => (kv.1, kv.2.map g)) }

/-- The model's address of the service SRAM of an I/O die (R229), which the device address map does not hold (log entry 56). -/
def svcSram (d : Nat) : Nat := 2 ^ 64 + d * 0x800000

/-- The SRAM that a core runs in: its cluster's, or for engine groups 128 and 129, which stand for the service cores of IOD0 and
IOD1 (log entry 56), that die's service SRAM. -/
def coreBase (eg : Nat) : Nat := if 128 ≤ eg then svcSram (eg - 128) else cluBase eg

/-- Breaks the reservations that a write to a range of the cores' SRAM meets (R214). -/
def breakResv (a n : Nat) (kv : Nat × Core) : Nat × Core :=
  match kv.2.resv with
  | some w => if overlaps a n (coreBase (kv.1 / 16) + w) 8 then (kv.1, { kv.2 with resv := none }) else kv
  | none => kv

/-- Sets the tensor-scale tags of the operand-SRAM units a range touches (R573). -/
def setTags (t : Sparse Word) (v : Word) (off n : Nat) : Sparse Word :=
  if n = 0 then t else
  (List.range ((off + n - 1) / 2048 - off / 2048 + 1)).foldl
    (fun t i => Sparse.wr (fun _ => 0xFFFFFFFF#32) (off / 2048 + i) v t) t

/-- The uncorrectable granules left after a range is written: a granule written whole gets new check bits (R319). -/
def mendBad (bad : List Nat) (a n : Nat) : List Nat :=
  bad.filter (fun g => !(decide (a ≤ g) && decide (g + granuleLen g ≤ a + n)))

/-- The tensor engine of an engine group. -/
def State.teOf (s : State) (eg : Nat) : Te := Sparse.rd (fun _ => Te.reset) eg s.te

/-- Replaces the tensor engine of an engine group. -/
def State.setTe (s : State) (eg : Nat) (t : Te) : State := { s with te := Sparse.wr (fun _ => Te.reset) eg t s.te }

/-- The core `c` of an engine group. -/
def State.coreOf (s : State) (eg c : Nat) : Core := Sparse.rd (fun _ => Core.reset) (eg * 16 + c) s.cores

/-- Replaces a core. -/
def State.setCore (s : State) (eg c : Nat) (v : Core) : State :=
  { s with cores := Sparse.wr (fun _ => Core.reset) (eg * 16 + c) v s.cores }

/-- Writes bytes to device memory, with everything a write brings about wherever it comes from: pre-reads squashed (R250),
reservations broken (R214), tensor-scale tags of operand SRAM set to 0xFFFFFFFF (R573), error state of whole granules renewed. -/
def State.store (s : State) (a : Nat) (bs : List Byte) : State :=
  let n := bs.length
  if n = 0 then s else
  let s1 := { s with
    mem := putBytes s.mem a bs
    bad := mendBad s.bad a n
    cp := s.cp.mapWindow (squashMem a n)
    cores := match region a with
      | some (.clu _) => s.cores.map (breakResv a n)
      | _ => if svcSram 0 ≤ a then s.cores.map (breakResv a n) else s.cores }
  match region a with
  | some (.opSram eg) =>
    s1.setTe eg { s1.teOf eg with tags := setTags (s1.teOf eg).tags 0xFFFFFFFF#32 (a - opSramBase eg) n }
  | _ => s1

/-- The first uncorrectable granule that a range meets, in address order (R322). -/
def State.badIn (s : State) (a n : Nat) : Option Nat :=
  let hit := s.bad.filter (fun g => overlaps a n g (granuleLen g))
  hit.foldl (fun m g => match m with | none => some g | some x => some (min x g)) none

/-- Records an uncorrectable error that a read met (R320 to R323): counted at its controller, latest address kept. -/
def State.noteUe (s : State) (a : Nat) : State :=
  let s1 := s.setPair .memUeaddrLo .memUeaddrHi 0 a
  match controllerOf a with
  | some c => s1.count F.memEccstat_UNCORRECTED c 1
  | none => s1

/-! ## Windows (R302, R303) -/

/-- The end of partition p's window that holds an address, or none if it holds none (R302, R303). T3 has no windows. -/
def State.windowEnd (s : State) (p a : Nat) : Option Nat :=
  match region a with
  | some .t1 =>
    let f := a / fieldRegion
    let lo := f * fieldRegion + s.fld F.memT1win_BASE (4 * p + f) * gib
    let hi := lo + s.fld F.memT1win_SIZE (4 * p + f) * gib
    if lo ≤ a ∧ a < hi then some hi else none
  | some .ms =>
    let f := (a - msBase) / 0x4000000
    let lo := mapStore f + s.fld F.memMswin_BASE (4 * p + f) * (4 * mib)
    let hi := lo + s.fld F.memMswin_SIZE (4 * p + f) * (4 * mib)
    if lo ≤ a ∧ a < hi then some hi else none
  | some .t2 =>
    let lo := t2Base + s.fld F.memT2win_BASE p * gib
    let hi := lo + s.fld F.memT2win_SIZE p * gib
    if lo ≤ a ∧ a < hi then some hi else none
  | some (.opSram eg) => if s.egPart eg = some p then some (egWindow eg + 0x300000) else none
  | some (.acc eg) => if s.egPart eg = some p then some (egWindow eg + 0x500000) else none
  | some (.clu eg) =>
    -- the firmware area belongs to no partition (R524)
    if s.egPart eg ≠ some p then none
    else if a < cluBase eg + 0xF0000 then some (cluBase eg + 0xF0000)
    else if a < cluBase eg + 0xF4000 then none
    else some (egWindow eg + 0x700000)
  | some (.t3 d) => some (if d = 0 then 0xA00000000000 else 0xC00000000000)
  | _ => none

/-- Walks adjacent windows of a partition: the first address of the range outside them (R303). -/
def State.firstOutsideGo (s : State) (p : Nat) : Nat → Nat → Nat → Option Nat
  | 0, a, _ => some a
  | fuel + 1, a, e =>
    if a ≥ e then none
    else match s.windowEnd p a with
      | none => some a
      | some h => if h ≥ e then none else s.firstOutsideGo p fuel h e

/-- The first address of the n bytes from a that lies outside partition p's windows, if any (R303). -/
def State.firstOutside (s : State) (p a n : Nat) : Option Nat := s.firstOutsideGo p 8 a (a + n)

/-- Whether a range lies wholly within partition p's windows. -/
def State.inWindows (s : State) (p a n : Nat) : Bool := (s.firstOutside p a n).isNone

/-- WRITE of partition p's T2 window (R304). -/
def State.t2Writable (s : State) (p : Nat) : Bool := s.flag F.memT2win_WRITE p

/-- The first address at which a read of a command other than DMA COPY or CONVERT is refused: outside the windows, or in a T2
window with WRITE = 1 (R303, R304). `mover` is true for DMA COPY and CONVERT. -/
def State.readRefused (s : State) (mover : Bool) (p a n : Nat) : Option Nat :=
  match s.firstOutside p a n with
  | some x => some x
  | none => match region a with
    | some .t2 => if s.t2Writable p && !mover then some a else none
    | _ => none

/-- The first address at which a write is refused: outside the windows, or in a T2 window with WRITE = 0 (R303, R304). -/
def State.writeRefused (s : State) (p a n : Nat) : Option Nat :=
  match s.firstOutside p a n with
  | some x => some x
  | none => match region a with
    | some .t2 => if s.t2Writable p then none else some a
    | _ => none

/-! ## Requests to memory controllers (R292, R297) -/

/-- A memory controller. -/
def State.ctl (s : State) (c : Nat) : MemCtl := Sparse.rd (fun _ => MemCtl.reset) c s.memc

/-- Replaces a memory controller. -/
def State.setCtl (s : State) (c : Nat) (m : MemCtl) : State := { s with memc := Sparse.wr (fun _ => MemCtl.reset) c m s.memc }

/-- Adds activity, in 1/256 pJ, to the account of a partition; account 8 is the shared one (R478). -/
def State.act (s : State) (p x : Nat) : State :=
  let a := min p 8
  { s with power := { s.power with act := s.power.act.set a (s.power.act.getD a 0 + x) } }

/-- The activity of `n` bytes moved through a map store or the on-die network: 0.35 nJ for 256 bytes, in proportion (R478). -/
def moveAct (a n : Nat) : Nat :=
  match region a with
  | some .t1 | some .t2 | some .ms | some (.t3 _) => n * 350
  | _ => 0

/-- Puts one request at the back of its partition's queue (R297). -/
def State.request (s : State) (r : MemReq) : State :=
  match controllerOf r.unit with
  | none => s
  | some c =>
    let m := s.ctl c
    s.setCtl c { m with queues := Sparse.wr (fun _ => []) r.part (Sparse.rd (fun _ => []) r.part m.queues ++ [r]) m.queues }

/-- The access units a range touches, ascending (R292). -/
def unitsOf (a n : Nat) : List Nat :=
  if n = 0 then [] else
  let len := match region a with | some .t2 => 4096 | _ => 2048
  (List.range ((a + n - 1) / len - a / len + 1)).map (fun i => (a / len + i) * len)

/-- Requests one access for each unit of T1 or T2 that a range touches (R292). T3 reads go to the port's own read list, numbered
216 and 217 (R299). -/
def State.requests (s : State) (uid p eg a n : Nat) (k : ReqKind) : State :=
  match region a with
  | some .t1 | some .t2 => (unitsOf a n).foldl (fun s u => s.request ⟨uid, p, eg, u, k⟩) s
  | some (.t3 d) =>
    if n = 0 then s else
    let m := s.ctl (216 + d)
    s.setCtl (216 + d) { m with reads := m.reads ++
      [⟨⟨uid, p, eg, a, k⟩, s.cycle, some (s.cycle + s.fld F.memT3due_DUE d)⟩] }
  | _ => s

/-- Bytes that a partition moves count as its activity (R478). -/
def State.moved (s : State) (p a n : Nat) : State := if n = 0 then s else s.act p (moveAct a n)

/-- Moves a range: its activity (R478) and its requests (R292, R299). -/
def State.touch (s : State) (uid p eg a n : Nat) (k : ReqKind) : State := (s.moved p a n).requests uid p eg a n k

/-- The engine group of a request that no command makes: none, so that no wheel waits for it (R301). -/
def noEg : Nat := 128

/-- The requests that are queued, on their way, or between an atomic's read and its write-back. -/
def MemCtl.all (m : MemCtl) : List MemReq :=
  m.queues.flatMap (fun q => q.2) ++ m.reads.map (fun o => o.req) ++ m.open_.map (fun o => o.req)

/-- Whether a command still has a request queued or outstanding anywhere. -/
def State.hasRequests (s : State) (uid : Nat) : Bool := s.memc.any (fun kv => kv.2.all.any (fun r => r.uid == uid))

/-- Whether a command still has a write queued. -/
def State.hasWrites (s : State) (uid : Nat) : Bool :=
  s.memc.any (fun kv => kv.2.all.any (fun r => r.uid == uid && r.kind == .write))

/-- Whether a read that was made for a command before its issue is still under way, early reads of T2 apart, whose bytes pass to the
command at issue (R236, R248, R249). -/
def State.fetching (s : State) (uid : Nat) : Bool :=
  s.memc.any (fun kv => kv.2.all.any (fun r => r.uid == uid && region r.unit != some .t2))

/-- Requests a memory request queue holds (R297). -/
def queueDepth : Nat := 64

/-- Whether the request queue of a partition at the controller of an address is full (R297). -/
def State.queueFull (s : State) (p a : Nat) : Bool :=
  match controllerOf a with
  | some c => decide (queueDepth ≤ (Sparse.rd (fun _ => []) p (s.ctl c).queues : List MemReq).length)
  | none => false

/-! ## What a command has done so far (R322, R323) -/

/-- The accesses of a command, newest first. -/
def State.trace (s : State) (uid : Nat) : List Access := Sparse.rd (fun _ => []) uid s.cp.traces

/-- Replaces the accesses of a command. -/
def State.setTrace (s : State) (uid : Nat) (l : List Access) : State :=
  { s with cp := { s.cp with traces := Sparse.wr (fun _ => []) uid l s.cp.traces } }

/-- Keeps one access of a command. -/
def State.note (s : State) (uid : Nat) (x : Access) : State := if uid = 0 then s else s.setTrace uid (x :: s.trace uid)

/-- Writes bytes as a command's access, keeping what they replace. -/
def State.storeFor (s : State) (uid a : Nat) (bs : List Byte) : State :=
  let t := s.store a bs
  t.note uid (.wr a (s.read a bs.length) bs (s.bad.filter (fun g => !t.bad.contains g)))

/-- The bytes that a write leaves when it is taken back: a byte that another access has changed since stays (R322). -/
def unwritten : List Byte → List Byte → List Byte → List Byte
  | c :: cs, o :: os, n :: ns => (if c = n then o else c) :: unwritten cs os ns
  | cs, _, _ => cs

/-- Takes one access back; the registers that a command's data reaches are CMP_TBLSTAT and EG_SENTSTAT. -/
def State.takeBack (s : State) : Access → State
  | .wr a old new bad =>
    let t := s.store a (unwritten (s.read a new.length) old new)
    { t with bad := t.bad ++ bad.filter (fun g => !t.bad.contains g) }
  | .tags eg old =>
    s.setTe eg { s.teOf eg with tags := old.foldl (fun t x => Sparse.wr (fun _ => 0xFFFFFFFF#32) x.1 x.2 t) (s.teOf eg).tags }
  | .sfu key old => { s with sfuTab := Sparse.wr (fun _ => []) key old s.sfuTab }
  | .code key old => { s with codeTab := Sparse.wr (fun _ => []) key old s.codeTab }
  | .reg n i old => if n = .cmpTblstat ∨ n = .egSentstat then s.setReg n i old else s
  | _ => s

/-- The granules of an access that a command reads. -/
def Access.reads (g : Nat) : Access → Bool
  | .rd a n => overlaps a n g (granuleLen g)
  | .rmw a n => overlaps a n g (granuleLen g)
  | _ => false

/-- Finds the first read, in the order in which a command made its accesses, that meets a granule: the accesses from it on, newest
first, and those before it. None when no read meets the granule. -/
def cutAt (g : Nat) (l : List Access) : Option (List Access × List Access) :=
  let o := l.reverse
  match o.findIdx? (Access.reads g) with
  | none => none
  | some i => some ((o.drop i).reverse, (o.take i).reverse)

/-- What is left of the failed read: its bytes before the granule. -/
def cutRead (g : Nat) : Access → List Access
  | .rd a _ => if a < g then [.rd a (g - a)] else []
  | .rmw a _ => if a < g then [.rmw a (g - a)] else []
  | _ => []

/-- A granule that a command has read turns out uncorrectable: what the command did from that read on is taken back, and its reads
before it stand (R322, R323). None when the command read no such granule, or has already stopped before it. -/
def State.undoFrom (s : State) (uid g : Nat) : Option State :=
  (cutAt g (s.trace uid)).map (fun x =>
    (x.1.foldl State.takeBack s).setTrace uid (((x.1.getLast?).map (cutRead g)).getD [] ++ x.2))

/-! ## Partial granules (R293) -/

/-- Whether an address range in T1 begins or ends inside an ECC granule. -/
def splitHead (a n : Nat) : Bool := region a == some .t1 && n != 0 && a % 64 != 0
/-- Whether it ends inside one. -/
def splitTail (a n : Nat) : Bool := region a == some .t1 && n != 0 && (a + n) % 64 != 0

/-- The units whose read slots a write takes: those with a granule that it covers only in part (R293). -/
def rmwUnits (a n : Nat) : List Nat :=
  (if splitHead a n then [unitOf a] else []) ++
    (if splitTail a n && (!splitHead a n || unitOf (a + n - 1) != unitOf a) then [unitOf (a + n - 1)] else [])

/-- The requests of a write: a read slot for each unit with a partial granule, then a write slot for each unit (R292, R293). -/
def State.putTouch (s : State) (uid p eg a n : Nat) : State :=
  ((rmwUnits a n).foldl (fun t u => t.request ⟨uid, p, eg, u, .read⟩) s).touch uid p eg a n .write

/-! ## Event records and MSI-X (R549 to R553) -/

/-- Whether ring or function number f is the PF of a port; functions are numbered as R552. -/
def fnIsPf (f : Nat) : Bool := f == 0 || f == 9

/-- The port of a function number. -/
def fnPort (f : Nat) : Nat := f / 9

/-- The VF number of a function number (0 for a PF). -/
def fnVf (f : Nat) : Nat := f % 9

/-- What a function presents of itself to its host: identifiers, class code, the sizes of BAR0 and BAR2, and its MSI-X vectors
(R536). -/
structure FnIdent where
  vendor   : Nat
  device   : Nat
  revision : Nat
  cls      : Nat
  bar0     : Nat
  bar2     : Nat
  vectors  : Nat
  deriving DecidableEq, Repr

/-- The PF and the VFs of a port (R536). -/
def fnIdent (f : Nat) : FnIdent :=
  if fnIsPf f then ⟨0x1E9B, 0x9612, 0xA1, 0x120000, 2 ^ 32, 2 ^ 43, 2048⟩ else ⟨0x1E9B, 0x9613, 0xA1, 0x120000, 2 ^ 32, 2 ^ 40, 64⟩

/-- A function's state. -/
def State.fn (s : State) (f : Nat) : PciFn := Sparse.rd (fun _ => PciFn.reset) f s.pci

/-- Replaces a function's state. -/
def State.setFn (s : State) (f : Nat) (v : PciFn) : State := { s with pci := Sparse.wr (fun _ => PciFn.reset) f v s.pci }

/-- Sends a message outside. -/
def State.send (s : State) (m : Msg) : State := { s with out := s.out ++ [m] }

/-- Raises the external interrupt of service core `n`, which it takes in M mode once its CSRs let it (R230). -/
def State.svcInterrupt (s : State) (n : Nat) : State := { s with svcPend := s.svcPend ||| 2 ^ n }

/-- Sends, holds pending or counts as lost the MSI-X vector of a function for a record or queue of partition `part` (R549).
Function 18 interrupts service core 0. -/
def State.msix (s : State) (f : Nat) (part : Option Nat) (vec : Nat) : State :=
  if f = 18 then (s.send (.svcIrq vec)).svcInterrupt 0
  else if f > 18 then s
  else
    let fn := s.fn f
    let mapped := fnIsPf f ||
      (match part with | some p => s.vfPart (fnPort f) (fnVf f) == some p | none => false)
    let inTable := decide (vec < (fnIdent f).vectors)
    if mapped && !fn.d3 && fn.msix && inTable then
      if fn.masked.contains vec then
        s.setFn f { fn with pend := if fn.pend.contains vec then fn.pend else fn.pend ++ [vec] }
      else s.send (.msix f vec)
    else s.count F.pciErrcnt_LOSTIRQ (fnPort f) 1

/-- The partition whose windows hold ring f: the mapped partition of a VF, else SPART (R553). -/
def State.ringPart (s : State) (f : Nat) : Nat :=
  if fnIsPf f then s.fld F.sysEvcfg_SPART f
  else (s.vfMapped (fnPort f) (fnVf f)).getD (s.fld F.sysEvcfg_SPART f)

/-- The capacity of ring f in records (R553). -/
def State.ringCap (s : State) (f : Nat) : Nat :=
  if f = 18 then 4096 else 64 * 2 ^ min (s.fld F.sysEvcfg_LOG2N f) 9

/-- Whether ring f lies wholly in T1 or a map store within its partition's windows (R553). -/
def State.ringPlaced (s : State) (f : Nat) : Bool :=
  let base := s.pair .sysEvbaseLo .sysEvbaseHi f
  inMsT1 base (32 * s.ringCap f) && s.inWindows (s.ringPart f) base (32 * s.ringCap f)

/-- Writes an event record to ring f, or counts it as lost (R553). -/
def State.ringWrite (s : State) (f : Nat) (part : Option Nat) (rcd : List Byte) : State :=
  if !s.flag F.sysEvcfg_EN f then s
  else if f ≠ 18 && !s.ringPlaced f then s.count F.sysEvlost_LOST f 1
  else
    let tail := s.fld F.sysEvidx_EVTAIL f
    let head := s.fld F.sysEvidx_EVHEAD f
    let cap := s.ringCap f
    if (tail + 65536 - head) % 65536 = cap then s.count F.sysEvlost_LOST f 1
    else
      let s1 :=
        if f = 18 then { s with ring18 := Sparse.wr (fun _ => []) (tail % cap) rcd s.ring18 }
        else
          let a := s.pair .sysEvbaseLo .sysEvbaseHi f + 32 * (tail % cap)
          (s.store a rcd).putTouch 0 (s.ringPart f) noEg a 32
      let s2 := s1.setFld F.sysEvidx_EVTAIL f ((tail + 1) % 65536)
      if s2.flag F.sysEvcfg_IRQEN f then s2.msix f part (s2.fld F.sysEvcfg_VECTOR f) else s2

/-- The rings that routing selects for a record (R552). -/
def State.ringsFor (s : State) (part : Option Nat) : List Nat :=
  match part with
  | none => [0, 9, 18]
  | some p => [0, 9, 18] ++ (List.range 18).filter (fun f => !fnIsPf f && s.vfPart (fnPort f) (fnVf f) == some p)

/-- The 32 bytes of an event record (R550). -/
def eventRecord (code : Nat) (status : Byte) (part : Option Nat) (seq time a0 a1 : Nat) : List Byte :=
  leBytes 2 code ++ [status] ++ leBytes 1 (part.getD 0xFF) ++ leBytes 4 seq ++ leBytes 8 time ++ leBytes 8 a0 ++ leBytes 8 a1

/-- Posts an event record (R550 to R553). -/
def State.event (s : State) (code : Nat) (status : Byte) (part : Option Nat) (a0 a1 : Nat) : State :=
  let rcd := eventRecord code status part s.cp.evSeq s.tick a0 a1
  let s1 := { s with cp := { s.cp with evSeq := (s.cp.evSeq + 1) % 2 ^ 32 } }
  (s1.ringsFor part).foldl (fun s f => s.ringWrite f part rcd) s1

/-- The event codes of R551. -/
def evQueueHalted : Nat := 0x0001
/-- DOORBELL_REFUSED. -/
def evDoorbellRefused : Nat := 0x0002
/-- QUEUE_WATCH. -/
def evQueueWatch : Nat := 0x0003
/-- SENTINEL. -/
def evSentinel : Nat := 0x0004
/-- COLL_WATCH. -/
def evCollWatch : Nat := 0x0005
/-- GROUP_STATE. -/
def evGroupState : Nat := 0x0006
/-- LINK. -/
def evLink : Nat := 0x0007
/-- THROTTLE. -/
def evThrottle : Nat := 0x0008
/-- SIGNATURE. -/
def evSignature : Nat := 0x0009
/-- SEASON. -/
def evSeason : Nat := 0x000A
/-- ENERGY. -/
def evEnergy : Nat := 0x000B
/-- THERMAL. -/
def evThermal : Nat := 0x000C
/-- WRITE_IGNORED. -/
def evWriteIgnored : Nat := 0x000D
/-- SESSION. -/
def evSession : Nat := 0x000E
/-- HOSTLINK. -/
def evHostlink : Nat := 0x000F
/-- BOOT. -/
def evBoot : Nat := 0x0010

/-- The register space's base in the device address map (R543). -/
def regSpace : Nat := 0xF00000000000

/-- Posts WRITE_IGNORED for a register, naming its device address and the value written (R551). -/
def State.writeIgnored (s : State) (n : RegName) (i : Nat) (part : Option Nat) (v : Word) : State :=
  s.event evWriteIgnored 0x00#8 part (regSpace + regOffset n i) v.toNat

/-! ## Synchronisation objects (R253 to R257) -/

/-- The partition that owns an object. -/
def State.objPart (s : State) (o : Nat) : Nat := s.fld F.syncCfg_PART o

/-- Whether an object is a work counter. -/
def State.objCounter (s : State) (o : Nat) : Bool := s.flag F.syncCfg_MODE o

/-- LIMIT of a work counter (R224). -/
def State.objLimit (s : State) (o : Nat) : Nat := (Sparse.rd (fun _ => 0#32) o s.cp.objLimit).toNat

/-- Sets LIMIT of a work counter. -/
def State.setObjLimit (s : State) (o : Nat) (v : Word) : State :=
  { s with cp := { s.cp with objLimit := Sparse.wr (fun _ => 0#32) o v s.cp.objLimit } }

/-- Whether a wait condition is satisfied by an object (R255). -/
def State.waitSat (s : State) (o cond comp : Nat) : Bool :=
  let v := (s.reg .syncObj o).toNat
  let ge := decide ((v + 2 ^ 32 - comp % 2 ^ 32) % 2 ^ 32 < 2 ^ 31)
  s.fld F.syncCfg_ERR o ≠ 0 ||
    (match cond % 4 with
     | 0 => ge
     | 1 => !ge
     | 2 => v == comp % 2 ^ 32
     | _ => v != comp % 2 ^ 32)

/-- The 8-byte result of an operation: VALUE or NEXT before it, ERR, and GEN in counter mode as it stands after it (R254). -/
def objResult (value err gen : Nat) : Nat := value + 2 ^ 32 * err + 2 ^ 48 * gen

/-- Whether an operation code is defined and matches the object's mode (R254). -/
def State.objOpOk (s : State) (o op : Nat) : Bool :=
  match op with
  | 0 => true
  | 1 | 2 | 3 | 4 | 5 => !s.objCounter o
  | 8 | 9 => s.objCounter o
  | _ => false

/-- Latches the waits that an object now satisfies, by an operation that reaches it in cycle `t`: SOWAITs of queues and posted
streams (R256), and SO.WAITs of cores, which return 0 (R219, R222). -/
def State.wake (s : State) (o t : Nat) : State :=
  let err := BitVec.ofNat 8 (s.fld F.syncCfg_ERR o)
  let holds := s.cp.holds.map (fun h =>
    if h.obj = o && h.sat.isNone && s.waitSat o h.cond h.comp then { h with sat := some err, satAt := t } else h)
  let cores := s.cores.map (fun kv =>
    match kv.2.wait with
    | .obj q cond comp rd _ _ =>
      if q = o && s.waitSat o cond comp then
        (kv.1, { kv.2 with wait := .none, x := if rd = 0 then kv.2.x else Sparse.wr (fun _ => 0#64) rd 0#64 kv.2.x,
                           at_ := max kv.2.at_ (t + (if o / 16384 = kv.1 / 512 then 20 else 36)) })
      else kv
    | _ => kv)
  { s with cp := { s.cp with holds := holds }, cores := cores }

/-- The effect of a defined operation on an object, before any waiting unit sees it (R224, R254). -/
def State.objEffect (s : State) (o op : Nat) (v : Word) : State :=
  match op with
  | 1 => s.setReg .syncObj o v
  | 2 => s.setReg .syncObj o (s.reg .syncObj o + v)
  | 3 => s.setReg .syncObj o (if (s.reg .syncObj o).toNat < v.toNat then v else s.reg .syncObj o)
  | 4 => if s.fld F.syncCfg_ERR o = 0 then s.setFld F.syncCfg_ERR o (v.toNat % 256) else s
  | 5 => s.setFld F.syncCfg_ERR o 0
  | 8 => ((s.setReg .syncObj o 0#32).setObjLimit o v).advance F.syncCfg_GEN o 1
  | _ => s

/-- One operation on an object by a permitted requester, reaching it in cycle `t`: its result and the state after it, waits
latched (R254 to R257). -/
def State.objOp (s : State) (o op : Nat) (v : Word) (t : Nat) : Nat × State :=
  let s0 := s.objEffect o op v
  let s1 := if op = 4 ∨ op = 5 then { s0 with cp := s0.cp.mapWindow (squashObj o) } else s0
  let gen := if s.objCounter o then s1.fld F.syncCfg_GEN o else 0
  (objResult (s.reg .syncObj o).toNat (s.fld F.syncCfg_ERR o) gen, s1.wake o t)

/-- The field an object lies in (R253). -/
def objField (o : Nat) : Nat := o / 16384

/-- Access time to an object from a field: 20 cycles in the own field, 36 in another (R222, R256, R261). -/
def objTime (f o : Nat) : Nat := if objField o = f then 20 else 36

/-! ## Bound registers (R242, R244) -/

/-- Writes a bound register, marking the windowed commands that pre-read it (R248, R250). -/
def State.setBound (s : State) (n : Nat) (v : Word) : State :=
  let s1 := s.setReg .cpBound n v
  { s1 with cp := s1.cp.mapWindow (squashBound n) }

/-- The writes of BOUNDSET that have taken effect by the present cycle reach their registers, in order (R242). -/
def State.settleBounds (s : State) : State :=
  let due := s.cp.bsets.filter (fun x => decide (x.1 ≤ s.cycle))
  due.foldl (fun t x => t.setBound x.2.1 x.2.2)
    { s with cp := { s.cp with bsets := s.cp.bsets.filter (fun x => !decide (x.1 ≤ s.cycle)) } }

/-! ## Queues and jobs -/

/-- The hidden state of a queue. -/
def State.queue (s : State) (q : Nat) : QueueState := Sparse.rd (fun _ => QueueState.reset) q s.cp.queues

/-- Replaces the hidden state of a queue. -/
def State.setQueue (s : State) (q : Nat) (v : QueueState) : State :=
  { s with cp := { s.cp with queues := Sparse.wr (fun _ => QueueState.reset) q v s.cp.queues } }

/-- The run-ahead window of a field. -/
def State.window (s : State) (f : Nat) : List Decoded := Sparse.rd (fun _ => []) f s.cp.window

/-- Replaces the run-ahead window of a field, keeping WINDOW of CP_STAT equal to its length (R267). -/
def State.setWindow (s : State) (f : Nat) (w : List Decoded) : State :=
  { s with cp := { s.cp with window := Sparse.wr (fun _ => []) f w s.cp.window } }.setFld F.cpStat_WINDOW f w.length

/-- The posted stream of a core. -/
def State.posts (s : State) (eg c : Nat) : List Decoded := Sparse.rd (fun _ => []) (eg * 16 + c) s.cp.posts

/-- Replaces the posted stream of a core. -/
def State.setPosts (s : State) (eg c : Nat) (w : List Decoded) : State :=
  { s with cp := { s.cp with posts := Sparse.wr (fun _ => []) (eg * 16 + c) w s.cp.posts } }

/-- Units of a queue's ring (R233). -/
def State.ringUnits (s : State) (q : Nat) : Nat := 256 * 2 ^ s.fld F.qCfg_LOG2SIZE q

/-- The owning partition of a queue. -/
def State.qPart (s : State) (q : Nat) : Nat := s.fld F.qCfg_PART q

/-- The field that serves a queue. -/
def State.qField (s : State) (q : Nat) : Nat := s.fld F.qCfg_FIELD q

/-- The state of a job beside its registers. -/
def State.job (s : State) (p j : Nat) : JobState := Sparse.rd (fun _ => JobState.reset) (8 * p + j) s.jobs

/-- State of a job (CP_JSTAT): a job that is RESUMING is RUNNING once its restore has ended (R452). -/
def State.jobState (s : State) (p j : Nat) : Nat :=
  let v := s.fld F.cpJstat_STATE (8 * p + j)
  if v = 4 ∧ (s.job p j).resume ≤ s.cycle then 1 else v

/-- The schedule wheel of an engine group. -/
def State.wheel (s : State) (eg : Nat) : Wheel := Sparse.rd (fun _ => Wheel.reset) eg s.wheels

/-- Replaces the schedule wheel of an engine group. -/
def State.setWheel (s : State) (eg : Nat) (w : Wheel) : State :=
  { s with wheels := Sparse.wr (fun _ => Wheel.reset) eg w s.wheels }

/-- Job, valid bit and length in cycles of wheel entry `i` of an engine group; LEN 0 acts as 1 (R441, R459). -/
def State.wheelEntry (s : State) (eg i : Nat) : Nat × Bool × Nat :=
  let w := (s.reg .cpWheel (64 * eg + i / 2)).toNat
  let h := if i % 2 = 0 then w % 65536 else w / 65536
  (h % 8, bit h 3, 64 * max 1 (bits h 4 12))

/-- Number of entries of a wheel: 0 acts as 1, 129 and above as 128 (R459). -/
def State.wheelLen (s : State) (eg : Nat) : Nat := max 1 (min 128 (s.fld F.cpWlen_ENTRIES eg))

/-- The job whose entry the wheel of an engine group is in, if its wheel runs and the entry names a job (R441). -/
def State.wheelJob (s : State) (eg : Nat) : Option Nat :=
  if (s.wheel eg).running then
    let e := s.wheelEntry eg (s.fld F.cpWstat_ENTRY eg)
    if e.2.1 then some e.1 else none
  else none

/-- The cycle after the last cycle of a wheel's current entry, held cycles included (R441, R499). -/
def State.entryEnd (s : State) (eg : Nat) : Nat :=
  (s.wheel eg).start + (s.wheelEntry eg (s.fld F.cpWstat_ENTRY eg)).2.2 + (s.wheel eg).hold

/-- The cycles that a wait from cycle `due` to cycle `land` adds to waits that have already lasted to cycle `heldTo`: reads that
are late at the same time are waited for together (R32, R301). -/
def addedWait (heldTo due land : Nat) : Nat := land - max heldTo due

/-- The wheel of an engine group holds its position from the cycle in which data was due to the cycle in which it arrives, or through
an overrun (R301, R499). -/
def State.holdWheel (s : State) (eg due land : Nat) : State :=
  let w := s.wheel eg
  if w.running then
    s.setWheel eg { w with hold := w.hold + addedWait (max w.heldTo w.start) due land, heldTo := max w.heldTo land }
  else s

/-- Replaces the state of a job. -/
def State.setJob (s : State) (p j : Nat) (v : JobState) : State :=
  { s with jobs := Sparse.wr (fun _ => JobState.reset) (8 * p + j) v s.jobs }

/-- Commands issued and not completed: under way, with a parked completion, or with one that is still to be posted. -/
def State.cmdsInFlight (s : State) : List Cmd :=
  s.cp.inflight ++ s.cp.parked.map (fun k => k.cmd) ++
    (s.cp.collector.flatMap (fun kv => (kv.2.filter (fun k => decide (s.cycle < k.posted))).map (fun k => k.cmd)))

/-- Whether a command has issued and not completed. -/
def State.isOpen (s : State) (uid : Nat) : Bool := s.cmdsInFlight.any (fun c => c.uid == uid)

/-- Whether a TE command holds its slots: one whose last drain has ended holds them until it completes (R85, R99). -/
def State.teHolds (s : State) (t : TeCmd) : Bool := !t.ended || s.isOpen t.cmd.uid

/-- The tensor engine of an engine group, with the commands that are in flight in the present cycle (R99). -/
def State.teNow (s : State) (eg : Nat) : Te := { s.teOf eg with flight := (s.teOf eg).flight.filter s.teHolds }

/-- Commands of a job issued and not completed. -/
def State.jobBusy (s : State) (p j : Nat) : Bool := s.cmdsInFlight.any (fun c => c.part == p && c.job == j)

/-- Brings CP_JSTAT of a job to RUNNING or IDLE, unless it is being saved, saved or resumed (R439). -/
def State.settleJob (s : State) (p j : Nat) : State :=
  if s.jobState p j ≥ 2 then s
  else
    let live := (s.season p == summer || s.season p == autumn) &&
      (s.flag F.cpJob_VALID (8 * p + j) || s.jobBusy p j)
    s.setFld F.cpJstat_STATE (8 * p + j) (if live then 1 else 0)

/-! ## Headers (R239, R240) -/

/-- OPCODE of a command. -/
def hdrOpcode (b : List Byte) : Nat := num b 0 1
/-- LEN of a command. -/
def hdrLen (b : List Byte) : Nat := bits (num b 0 8) 8 4
/-- RES of a command. -/
def hdrRes (b : List Byte) : Bool := bit (num b 0 8) 12
/-- GUARD of a command. -/
def hdrGuard (b : List Byte) : Bool := bit (num b 0 8) 13
/-- GENTRY of a command. -/
def hdrGentry (b : List Byte) : Nat := bits (num b 0 8) 14 12
/-- GLEVEL of a command. -/
def hdrGlevel (b : List Byte) : Nat := bits (num b 0 8) 26 2
/-- CEN of a command. -/
def hdrCen (b : List Byte) : Bool := bit (num b 0 8) 28
/-- FENCE of a command. -/
def hdrFence (b : List Byte) : Bool := bit (num b 0 8) 29
/-- IRQ of a command. -/
def hdrIrq (b : List Byte) : Bool := bit (num b 0 8) 30
/-- EGL of a command. -/
def hdrEgl (b : List Byte) : Nat := bits (num b 0 8) 32 5
/-- COMPSO of a command. -/
def hdrCompso (b : List Byte) : Nat := bits (num b 0 8) 37 16
/-- TAG of a command. -/
def hdrTag (b : List Byte) : Nat := bits (num b 0 8) 53 11

/-- The length in bytes of the command an opcode names, residual descriptor excluded; none for reserved opcodes (R240, R367,
R368, R374, R460). -/
def opBytes : Nat → Option Nat
  | 0x00 | 0x01 | 0x02 | 0x03 | 0x04 => some 32
  | 0x08 => some 80
  | 0x10 | 0x11 | 0x12 => some 64
  | 0x18 => some 96
  | 0x20 => some 64
  | 0x21 => some 80
  | 0x22 => some 128
  | 0x28 => some 128
  | 0x29 => some 96
  | 0x30 => some 32
  | 0x40 => some 64
  | 0x41 => some 80
  | 0x42 => some 96
  | 0x43 => some 32
  | 0x50 => some 112
  | _ => none

end Sys2Proof.Machine
end

