-- ==== Sys2Proof/Machine/Operands.lean ====
section
/-!
DEFINITION. Operand forms: bound words (R93, R244), tensor-scale entries (R52, R245), format bytes, the escalation guard (R123,
R124), what a command pre-reads (R246, R248), and reading rows of any source format.
-/

set_option Elab.async false

namespace Sys2Proof.Machine

open Sys2Proof

/-- What the checks at issue decide for a command (R263, R289, R303). -/
inductive Verdict where
  | go
  | malformed
  /-- it completes at issue with this result -/
  | done (r : Result)
  deriving DecidableEq, Repr

/-- Of two verdicts the one that decides: the one with the higher status, the first of equal ones (R19, R94). -/
def Verdict.higher : Verdict → Verdict → Verdict
  | .go, v => v
  | .malformed, _ => .malformed
  | _, .malformed => .malformed
  | v, .go => v
  | .done a, .done b => if a.status.toNat < b.status.toNat then .done b else .done a

/-- The verdict of several checks: a malformed one anywhere first of all, then the one with the highest status (R19, R94, R243). -/
def Verdict.first (vs : List Verdict) : Verdict := vs.foldl Verdict.higher .go

/-- Malformed when the condition holds. -/
def Verdict.badIf (b : Bool) : Verdict := if b then .malformed else .go

/-- Completes with QUOTA_EXCEEDED at issue when an address is refused (R303). -/
def Verdict.quotaIf : Option Nat → Verdict
  | some a => .done (Result.at St.quota a 0)
  | none => .go

/-- Completes with ECC_UNCORRECTED at issue when an address is given. -/
def Verdict.eccIf : Option Nat → Verdict
  | some a => .done (Result.at St.ecc a 0)
  | none => .go

/-- Completes OK at issue when the condition holds. -/
def Verdict.okIf (b : Bool) : Verdict := if b then .done (Result.mk0 St.ok 0) else .go

/-- What a bound word gives at issue (R93, R244). -/
inductive Bound where
  | val (n : Nat)
  | bad
  | quota (addr : Nat)
  | ecc (addr : Nat)
  deriving DecidableEq, Repr

/-- The address a memory bound word names (R244). -/
def State.boundAddr (s : State) (p w : Nat) : Nat := s.pair .cpBndbaseLo .cpBndbaseHi p + 4 * (w % 2 ^ 30)

/-- Reads a bound word for partition p at issue (R93, R244, R246). -/
def State.bound (s : State) (p w : Nat) : Bound :=
  match w / 2 ^ 30 % 4 with
  | 0 => .val (w % 2 ^ 30)
  | 1 =>
    if bits w 8 22 ≠ 0 then .bad
    else
      let v := (s.reg .cpBound (256 * p + w % 256)).toNat
      if v < 2 ^ 30 then .val v else .bad
  | 2 =>
    let a := s.boundAddr p w
    if !inT0T1 a 4 then .bad
    else match s.firstOutside p a 4 with
      | some x => .quota x
      | none => match s.badIn a 4 with
        | some x => .ecc x
        | none => let v := s.word a; if v < 2 ^ 30 then .val v else .bad
  | _ => .bad

/-- The value a bound gives, 0 where it gives none (the verdicts decide the command then). -/
def Bound.get : Bound → Nat
  | .val n => n
  | _ => 0

/-- The verdict a bound gives on its own. -/
def Bound.verdict : Bound → Verdict
  | .val _ => .go
  | .bad => .malformed
  | .quota a => .done (Result.at St.quota a 0)
  | .ecc a => .done (Result.at St.ecc a 0)

/-- Whether a check that needs values bounds give fails; where a bound gives none, its own verdict decides (R94). -/
def Bound.need (bs : List Bound) (v : Verdict) : Verdict :=
  if bs.all (fun b => match b with | .val _ => true | _ => false) then v else .go

/-- Whether a bound gives a value. -/
def Bound.known : Bound → Bool
  | .val _ => true
  | _ => false

/-- CP_TSCOUNT of a partition (R245). -/
def State.tsCount (s : State) (p : Nat) : Nat := (s.reg .cpTscount p).toNat

/-- The address of tensor-scale entry `i` of partition p (R245). -/
def State.tsAddr (s : State) (p i : Nat) : Nat := s.pair .cpTsbaseLo .cpTsbaseHi p + 4 * i

/-- The FP32 code of tensor-scale entry `i`; 1.0 for the reserved index (R52, R245). -/
def State.tsEntry (s : State) (p i : Nat) : Nat := if i = 0xFFFFFFFF then 0x3F800000 else s.word (s.tsAddr p i)

/-- The checks on a tensor-scale entry that a command names at issue: in T0 or T1, within the windows, readable (R245, R246, R289,
R303); the reserved index reads nothing (R52). -/
def State.tsVerdict (s : State) (p i : Nat) : Verdict :=
  if i = 0xFFFFFFFF then .go
  else .first [.badIf (!inT0T1 (s.tsAddr p i) 4), .quotaIf (s.firstOutside p (s.tsAddr p i) 4), .eccIf (s.badIn (s.tsAddr p i) 4)]

/-- The same checks on an entry that a trailer names, which a command meets as it reads: the status and address with which it stops
(R303, R321). -/
def State.tsStop (s : State) (p i : Nat) : Option (Byte × Nat) :=
  let a := s.tsAddr p i
  if i = 0xFFFFFFFF then none
  else if !inT0T1 a 4 then some (St.quota, a)
  else match s.firstOutside p a 4, s.badIn a 4 with
    | some x, _ => some (St.quota, x)
    | none, x => x.map (fun y => (St.ecc, y))

/-- Whether a tensor-scale index names an entry or is the reserved index (R52, R70). -/
def State.tsKnown (s : State) (p i : Nat) : Bool := i == 0xFFFFFFFF || i < s.tsCount p

/-- The checks R52 and R61 make on a conversion descriptor at issue. -/
def State.cvtBad (s : State) (p : Nat) (c : Cvt) : Bool :=
  c.malformed ||
  (match Fmt.ofCode c.fmt with
   | some f => f.narrow &&
      ((c.tsm == 0 && !s.tsKnown p c.tsidx) || (c.tsm == 1 && !decide (c.tsidx < s.tsCount p)))
   | none => true)

/-- The checks on the tensor-scale entry that a descriptor reads, or under TSM = 1 writes (R53, R54, R245, R289, R303). -/
def State.cvtVerdict (s : State) (p : Nat) (c : Cvt) : Verdict :=
  if !(match Fmt.ofCode c.fmt with | some f => f.narrow | none => false) then .go
  else if c.tsm = 0 then s.tsVerdict p c.tsidx
  else if c.tsm = 1 then .first [.badIf (!inT0T1 (s.tsAddr p c.tsidx) 4), .quotaIf (s.firstOutside p (s.tsAddr p c.tsidx) 4)]
  else .go

/-- The tensor scale a descriptor gives outside TSM = 1: the entry it names, or 1.0 (R61). -/
def State.cvtScale (s : State) (p : Nat) (c : Cvt) : FVal := if c.tsm = 0 then f32 (s.tsEntry p c.tsidx) else FVal.one

/-- The index written to trailers: TSIDX of the descriptor, or 0xFFFFFFFF under TSM = 2 (R61). -/
def Cvt.trailerIdx (c : Cvt) : Nat := if c.tsm = 2 then 0xFFFFFFFF else c.tsidx

/-- The format a format byte names (bits [3:0]); BLK and SCL are bits 4 and 5, bits [7:6] must be 0 (R61). -/
def byteFmt (b : Nat) : Option Fmt := if b / 64 = 0 then Fmt.ofCode (b % 16) else none

/-- BLK of a format byte: true for blocks of 16. -/
def byteBlk (b : Nat) : Bool := bit b 4

/-- SCL of a format byte: true for UE8M0. -/
def byteScl (b : Nat) : Bool := bit b 5

/-- Whether a format byte names FP32, BF16, FP16 or a narrow format, bits [7:6] 0 (R130 and the like). -/
def srcFmtOk (b : Nat) : Bool := match byteFmt b with | some f => !f.isScale | none => false

/-! ## The escalation guard (R123, R124) -/

/-- The base of a partition's escalation table: bits [15:0] of _LO are ignored (R123). -/
def State.escBase (s : State) (p : Nat) : Nat := s.pair .sysEscbaseLo .sysEscbaseHi p / 65536 * 65536

/-- The address of an escalation entry. -/
def State.escEntry (s : State) (p e : Nat) : Nat := s.escBase p + 16 * e

/-- The checks on escalation entries `e` to `e + n - 1`: in T1, else malformed; within the windows, else QUOTA_EXCEEDED (R123). -/
def State.escVerdict (s : State) (p e n : Nat) : Verdict :=
  let a := s.escEntry p e
  if rangeRegion a (16 * n) ≠ some .t1 then .malformed else .quotaIf (s.firstOutside p a (16 * n))

/-- The guard of a command's header: a differing LEVEL completes it OK at issue (R124). -/
def State.guardVerdict (s : State) (p : Nat) (b : List Byte) : Verdict :=
  if !hdrGuard b then .go
  else
    let e := hdrGentry b
    match s.escVerdict p e 1 with
    | .go => match s.badIn (s.escEntry p e + 9) 1 with
      | some x => .done (Result.at St.ecc x 0)
      | none => .okIf (decide ((s.byteAt (s.escEntry p e + 9)).toNat ≠ hdrGlevel b))
    | v => v

/-! ## What a command pre-reads (R246, R248) -/

/-- Offsets of the bound words of each command. -/
def boundOffsets : Nat → List Nat
  | 0x08 => [32, 36]
  | 0x10 => [28, 32, 36]
  | 0x11 => [24, 28]
  | 0x12 => [36, 40, 44]
  | 0x18 => [32, 36]
  | 0x22 => [20]
  | 0x40 => [24, 28]
  | 0x41 => [24, 28]
  | 0x42 => [24]
  | 0x50 => [64, 68]
  | _ => []

/-- Offsets of the conversion descriptors whose tensor-scale entry a command reads at issue (R54). -/
def cvtOffsets : Nat → List Nat
  | 0x08 => [64]
  | 0x18 => [64]
  | 0x29 => [80]
  | 0x41 => [48]
  | _ => []

/-- The bound registers that a BOUNDSET writes (R242). -/
def boundsetRegs (p : Nat) (b : List Byte) : List Nat :=
  if hdrOpcode b = 0x03 then (List.range (num b 10 1)).map (fun i => 256 * p + num b 8 2 + i) else []

/-- The entry of the scalar table that an UPDATE reads (R468). -/
def scalarAddr (b : List Byte) : Nat :=
  let n := num b 104 4
  num b 56 8 + (if n = 0 then 0 else 64 * (min (num b 80 8) n - 1))

/-- What UPDATE reads at issue beside bounds and the guard (R462). -/
def updateReads (b : List Byte) : List Watch :=
  [.mem (num b 48 8) 128, .mem (scalarAddr b) 64] ++ (if bit (num b 75 1) 0 then [.obj (num b 76 2)] else []) ++
    (if bit (num b 75 1) 1 then [.mem (num b 88 8) 8] else [])

/-- Offsets of the panel base and format byte of each operand whose tensor-scale tag a command reads at issue (R573). -/
def tagOffsets : Nat → List (Nat × Nat)
  | 0x10 => [(8, 40), (12, 41)]
  | 0x28 => [(40, 81)]
  | _ => []

/-- The tag of the unit at an operand-SRAM offset (R573). -/
def State.tagAt (s : State) (eg off : Nat) : Nat :=
  (Sparse.rd (fun _ => 0xFFFFFFFF#32) (off / 2048) (s.teOf eg).tags).toNat

/-- The words a command of engine group `eg` reads at issue (R246): bounds, tensor-scale entries, those that tags name included (R573),
and LEVEL of its guard. -/
def State.issueReads (s : State) (p eg : Nat) (b : List Byte) : List Watch :=
  let op := hdrOpcode b
  let bw := (boundOffsets op).filterMap (fun o =>
    let w := num b o 4
    match w / 2 ^ 30 % 4 with
    | 1 => some (Watch.bound (256 * p + w % 256))
    | 2 => some (Watch.mem (s.boundAddr p w) 4)
    | _ => none)
  let ts := (cvtOffsets op).filterMap (fun o =>
    let c := Cvt.ofBytes (sub b o 16)
    if c.tsm = 0 && c.tsidx ≠ 0xFFFFFFFF && 3 ≤ c.fmt && c.fmt ≤ 12 then some (Watch.mem (s.tsAddr p c.tsidx) 4) else none)
  let tg := (tagOffsets op).filterMap (fun o =>
    let i := s.tagAt eg (num b o.1 4)
    if (match byteFmt (num b o.2 1) with | some f => f.narrow | none => false) && i ≠ 0xFFFFFFFF && i < s.tsCount p
    then some (Watch.mem (s.tsAddr p i) 4) else none)
  let lv := if hdrGuard b then [Watch.mem (s.escEntry p (hdrGentry b) + 9) 1] else []
  bw ++ ts ++ tg ++ lv ++ (if op = 0x50 then updateReads b else [])

/-- A bound register that any BOUNDSET in the window writes is not pre-read (R248). -/
def dropBoundset (w : List (Nat × List Byte)) (ws : List Watch) : List Watch :=
  ws.filter (fun x => match x with
    | .bound n => !w.any (fun pb => (boundsetRegs pb.1 pb.2).contains n)
    | _ => true)

/-! ## Reading sources -/

/-- What reading a tensor gives: the whole rows read as FP32 values, the invalid TERN5 bytes met, and the status and address with
which it stopped, if it did; the rows are then those wholly read before it (R322). -/
structure Rows where
  rows : List (List FVal)
  bad  : Nat
  fail : Option (Byte × Nat)
  deriving DecidableEq, Repr

/-- Reads one 2,048-byte burst. -/
def State.burstAt (s : State) (a : Nat) : List Byte := s.read a 2048

/-- Reads rows of a strided array (R310, R130): row r at base + r x ld, up to the first row that meets an uncorrectable word. -/
def State.readWide (s : State) (f : Fmt) (base ld rows len : Nat) : Rows :=
  let stop := (List.range rows).findSome? (fun r => (s.badIn (base + r * ld) (len * f.bytes)).map (fun a => (r, a)))
  let n := match stop with | some ra => ra.1 | none => rows
  ⟨(List.range n).map (fun r => wideValues f len (s.read (base + r * ld) (len * f.bytes))), 0, stop.map (fun ra => (St.ecc, ra.2))⟩

/-- Reads a narrow tensor of rows x len elements as FP32 values (R49, R55, R69, R70). -/
def State.readNarrow (s : State) (p : Nat) (f : Fmt) (b16 scl : Bool) (base rows len : Nat) : Rows :=
  let r := readBursts (fun a => s.badIn a 2048) s.burstAt f b16 scl (s.tsCount p) (tensorBursts f b16 rows len) base none [] 0
  let whole := if rowBlocks b16 len = 0 then 0 else min rows (r.blocks.length / rowBlocks b16 len)
  match s.tsStop p r.tsidx with
  | some x => ⟨[], r.bad, some x⟩
  | none => ⟨tensorValues f b16 scl (f32 (s.tsEntry p r.tsidx)) whole len r.blocks, r.bad, r.fail.map (fun a => (St.ecc, a))⟩

/-- TSIDX of the first burst of a narrow tensor: the entry that reading it names (R70). -/
def State.firstTsidx (s : State) (base : Nat) : Nat := burstTsidx (s.burstAt base)

/-- Reads rows of a source whose format byte is `fb`. -/
def State.readRows (s : State) (p fb base ld rows len : Nat) : Rows :=
  match byteFmt fb with
  | none => ⟨[], 0, some (St.ecc, base)⟩
  | some f =>
    if f.narrow then s.readNarrow p f (byteBlk fb) (byteScl fb) base rows len
    else s.readWide f base ld rows len

/-- First byte and length of the range a source of rows x len elements covers (R289). -/
def srcRange (fb base ld rows len : Nat) : Nat × Nat :=
  match byteFmt fb with
  | none => (base, 0)
  | some f =>
    if f.narrow then (base, tensorBytes f (byteBlk fb) rows len)
    else if rows = 0 ∨ len = 0 then (base, 0)
    else (base, (rows - 1) * ld + len * f.bytes)

end Sys2Proof.Machine
end

