-- ==== Sys2Proof/Machine/Issue.lean ====
section
/-!
DEFINITION. The life of a command (R237, R238, R252, R258 to R264, R311, R442 to R444): whether it may issue, what issuing
does, malformed commands and halted queues, completions through the collectors, and tickets of posted commands.
-/

set_option Elab.async false

namespace Sys2Proof.Machine

open Sys2Proof

/-- Whether an issuer exists: queues 0 to 32,767, cores of engine groups 0 to 127. -/
def issuerOk : Issuer → Bool
  | .queue n => n < 32768
  | .core eg c => eg < 128 && c < 16

/-- The command that an issuer would issue next: the first decoded command of a queue (R238), or the oldest command of a
core's posted stream (R221). -/
def State.nextOf (s : State) : Issuer → Option Decoded
  | .queue n => (s.window (s.qField n)).find? (fun d => d.queue == n)
  | .core eg c => (s.posts eg c).head?

/-- The field that serves an issuer. -/
def State.issuerField (s : State) : Issuer → Nat
  | .queue n => s.qField n
  | .core eg _ => eg / 32

/-- The partition an issuer's commands belong to. -/
def State.issuerPart (s : State) : Issuer → Nat
  | .queue n => s.qPart n
  | .core eg _ => (s.egPart eg).getD 8

/-- The running CLRUNs of an engine group's cluster. -/
def State.clruns (s : State) (eg : Nat) : List ClRun := Sparse.rd (fun _ => []) eg s.clrun

/-- Replaces the running CLRUNs of an engine group's cluster. -/
def State.setClruns (s : State) (eg : Nat) (v : List ClRun) : State :=
  { s with clrun := Sparse.wr (fun _ => []) eg v s.clrun }

/-- The job a command belongs to: its queue's, or that of the CLRUN that started the posting program (R439). -/
def State.issuerJob (s : State) (i : Issuer) (d : Decoded) : Nat :=
  match i with
  | .queue n => s.fld F.cpQjob_JOB n
  | .core _ _ => d.job

/-- The engine group a command's header names (R239). -/
def State.cmdEg (s : State) (i : Issuer) (b : List Byte) : Nat := 32 * s.issuerField i + hdrEgl b

/-- The issued form of a decoded command. -/
def State.mkCmd (s : State) (i : Issuer) (d : Decoded) : Cmd :=
  { issuer := i, uid := d.uid, bytes := d.bytes, field := s.issuerField i, eg := s.cmdEg i d.bytes,
    part := s.issuerPart i, job := s.issuerJob i d, unit := s.cmdEg i d.bytes,
    seq := (match i with | .queue n => (s.queue n).seq | .core _ _ => 0),
    issued := (match i with | .queue _ => s.cycle | .core _ _ => max s.cycle d.since) + (if d.squashed then 24 else 0), ticket := d.ticket, slotMiss := d.misses, overrun := d.overrun.isSome,
    squashed := d.squashed || d.reread, early := if d.squashed || d.reread then [] else d.early, late := 0, heldTo := 0,
    ecc := none }

/-- Whether an earlier command of the issuer has not completed (R238, R221). -/
def State.earlierOpen (s : State) (i : Issuer) : Bool := s.cmdsInFlight.any (fun c => c.issuer == i)

/-- Whether a TE command of the issuer waits for accumulator slots (R99). -/
def State.teWaiting (s : State) (i : Issuer) : Bool :=
  s.te.any (fun kv => kv.2.waiting.any (fun t => t.cmd.issuer == i))

/-- Whether a reserved bit of the header or an unlisted byte of a CP command or a DMA is set (R239, R242; log entry 19). The checks
of the other chapters look at their own reserved bits. -/
def reservedSet (b : List Byte) : Bool :=
  bit (num b 0 4) 31 ||
  (match hdrOpcode b with
   | 0x00 => !allZero (sub b 8 24)
   | 0x01 => num b 11 1 != 0 || !allZero (sub b 24 8)
   | 0x02 => decide (3 < num b 10 1) || num b 11 1 != 0 || !allZero (sub b 16 16)
   | 0x03 => num b 11 1 != 0 || !allZero (sub b 28 4)
   | 0x08 => !allZero (sub b 8 8)
   | _ => false)

/-- Whether a header breaks the rules that hold for every opcode: LEN, reserved opcodes, RES, EGL; and for a posted command
the opcodes that may not be posted (R221, R240, R241). -/
def State.headerBad (s : State) (i : Issuer) (b : List Byte) : Bool :=
  let op := hdrOpcode b
  let lenBad := match opBytes op with
    | some n => hdrLen b != n / 16 + b2n (hdrRes b)
    | none => true
  lenBad || reservedSet b || (hdrRes b && op != 0x08 && op != 0x41) ||
  (match i with
   | .queue _ => s.egPart (s.cmdEg i b) != some (s.issuerPart i)
   | .core eg _ => 16 * hdrLen b != b.length || hdrEgl b != eg % 32 || op == 0x30 || op == 0x12 || op == 0x22 || op == 0x50)

/-- Whether a queue has a posted completion that halts it before its next issue (R264); the halt is taken as the completion
drains. -/
def State.errorDue (s : State) (q : Nat) : Bool :=
  s.flag F.qCfg_HALTERR q && s.cp.collector.any (fun kv => kv.2.any (fun k =>
    k.cmd.issuer == .queue q && decide (k.posted ≤ s.cycle) && decide (0x10 ≤ k.final.toNat)))

/-- Whether the issuer's next command may issue now: the queue runs and no posted completion halts it, its bytes and pre-reads have
landed, its partition is in Summer, no SOWAIT holds it, no TE command of it waits, FENCE is satisfied, its job may issue, and the
wheel of its engine group is in an entry of that job. -/
def State.ready (s : State) (i : Issuer) (d : Decoded) : Bool :=
  let p := s.issuerPart i
  let j := s.issuerJob i d
  let eg := s.cmdEg i d.bytes
  (match i with
   | .queue n => s.flag F.qCfg_ENABLE n && s.fld F.qStat_STATE n == 1 && !s.errorDue n
   | .core _ _ => true) &&
  d.ringBad.isNone && !s.fetching d.uid &&
  s.season p == summer &&
  !s.cp.holds.any (fun h => h.cmd.issuer == i) &&
  !s.teWaiting i &&
  !(hdrFence d.bytes && s.earlierOpen i) &&
  s.flag F.cpJob_VALID (8 * p + j) && s.jobState p j < 2 &&
  (s.wheelJob eg == some j || s.egPart eg != some p)

/-! ## Completion -/

/-- The collector key of a field and entry. -/
def collKey (f e : Nat) : Nat := f * 48 + e

/-- Undrained completions of a collector entry, oldest first. -/
def State.entry (s : State) (f e : Nat) : List Completion := Sparse.rd (fun _ => []) (collKey f e) s.cp.collector

/-- Replaces the completions of a collector entry. -/
def State.setEntry (s : State) (f e : Nat) (l : List Completion) : State :=
  { s with cp := { s.cp with collector := Sparse.wr (fun _ => []) (collKey f e) l s.cp.collector } }

/-- The collector entry of a command: its engine group's, or a service core's (R261). -/
def Cmd.entry (c : Cmd) : Nat := if 0x300 ≤ c.unit then 32 + (c.unit - 0x300) % 16 else c.eg % 32

/-- Records ECC_UNCORRECTED of a TE or WAG command in its status register (R105, R208). -/
def State.noteEcc (s : State) (c : Cmd) (st : Byte) : State :=
  if st ≠ St.ecc then s
  else
    let op := hdrOpcode c.bytes
    if op = 0x10 ∨ op = 0x11 ∨ op = 0x22 then s.setFld F.egStat_ECC_UNCORRECTED c.eg 1
    else if op = 0x20 ∨ op = 0x28 ∨ op = 0x29 then s.setFld F.wagStat_ECC_UNCORRECTED c.eg 1
    else s

/-- Posts a completion to its collector entry (R258, R261). -/
def State.post (s : State) (c : Completion) : State :=
  (s.noteEcc c.cmd c.final).setEntry c.cmd.field c.cmd.entry (s.entry c.cmd.field c.cmd.entry ++ [c])

/-- Takes a command out of the commands in flight. -/
def State.land (s : State) (uid : Nat) : State :=
  { s with cp := { s.cp with inflight := s.cp.inflight.filter (fun c => c.uid != uid) } }

/-- A command with what it met while it was in flight: slot misses and the cycles they cost (R301), and an uncorrectable word that
arrived (R321). -/
def State.withMisses (s : State) (c : Cmd) : Cmd :=
  match s.cp.inflight.find? (fun x => x.uid == c.uid) with
  | some x => { c with slotMiss := max c.slotMiss x.slotMiss, late := x.late, heldTo := x.heldTo, ecc := x.ecc }
  | none => c

/-- The uncorrectable granule that arrived for a command in flight (R321). -/
def State.arrivedBad (s : State) (uid : Nat) : Option Nat := (s.cp.inflight.find? (fun x => x.uid == uid)).bind (fun x => x.ecc)

/-- A result that an uncorrectable word which arrived replaces (R321, R322). -/
def Result.withEcc (r : Result) : Option Nat → Result
  | some a => { r with status := St.ecc, addr := a }
  | none => r

/-- Activity of a busy cycle of the SFU or the WAG: 0.60 nJ (R478). -/
def unitAct : Nat := 256 * 600

/-- The activity of a command of the SFU or the WAG, which is busy for its table time (R478). -/
def cmdAct (op cycles : Nat) : Nat :=
  if op = 0x18 ∨ op = 0x20 ∨ op = 0x29 then cycles * unitAct else 0

/-- A command finishes: its completion is posted, or waits for the memory requests it still has outstanding (R32, R301). -/
def State.finish (s : State) (c : Cmd) (r : Result) : State :=
  let s1 := (s.act c.part (cmdAct (hdrOpcode c.bytes) r.cycles)).land c.uid
  let c1 := s.withMisses c
  let k : Completion := ⟨c1, r.withEcc c1.ecc, c.issued + r.cycles + c1.late⟩
  let s2 := if s1.hasRequests c.uid then { s1 with cp := { s1.cp with parked := s1.cp.parked ++ [k] } } else s1.post k
  s2.settleJob c.part c.job

/-- Cycles from a command's last write in memory to its completion: 16 for DMA, the tensor engine and SENTINEL (R97, R121, R311). -/
def postDelay (op : Nat) : Nat := if op = 0x08 ∨ op = 0x10 ∨ op = 0x12 ∨ op = 0x22 ∨ op = 0x28 then 16 else 0

/-- Posts the parked completion of a command once its last memory request is served, not before the present cycle. -/
def State.unpark (s : State) (uid : Nat) : State :=
  if s.hasRequests uid then s
  else match s.cp.parked.find? (fun k => k.cmd.uid == uid) with
    | none => s
    | some k =>
      let s1 := { s with cp := { s.cp with parked := s.cp.parked.filter (fun x => x.cmd.uid != uid) } }
      let t := s.cycle + postDelay (hdrOpcode k.cmd.bytes)
      (s1.post { k with posted := max k.posted t }).settleJob k.cmd.part k.cmd.job

/-! ## Halts -/

/-- Drops a queue's unissued commands from its window: they are decoded again after RESUME or SKIP. -/
def State.undecode (s : State) (q : Nat) : State :=
  let f := s.qField q
  let s1 := s.setWindow f ((s.window f).filter (fun d => d.queue != q))
  s1.setQueue q { s1.queue q with dec := s1.fld F.qStat_HEAD q }

/-- Halts a queue with a cause and posts QUEUE_HALTED (R263, R264, R323). -/
def State.halt (s : State) (q cause addr : Nat) : State :=
  let s1 := (s.setFld F.qStat_STATE q 2).setFld F.qStat_CAUSE q cause
  let s2 := s1.undecode q
  let s3 := s2.setQueue q { s2.queue q with halted := some s2.cycle, haltSaw := false }
  s3.event evQueueHalted 0x00#8 (some (s3.qPart q)) q addr

/-- Sets the MALFORMED bit that a malformed command of an opcode records, if its engine group belongs to partition p (R263). -/
def State.noteMalformed (s : State) (p eg op : Nat) : State :=
  if s.egPart eg ≠ some p then s
  else if op = 0x10 ∨ op = 0x11 ∨ op = 0x22 then s.setFld F.egStat_MALFORMED eg 1
  else if op = 0x20 ∨ op = 0x28 ∨ op = 0x29 then s.setFld F.wagStat_MALFORMED eg 1
  else s

/-- A core stops in cycle `t`: it runs no longer, and leaves the CLRUN that started it, which `g` updates (R218). -/
def State.stopCore (s : State) (eg c t : Nat) (g : ClRun → ClRun) : State :=
  let s1 := s.setCore eg c { s.coreOf eg c with running := false, wait := .none }
  let s2 := s1.setFld F.egBstat_RUNNING eg (s1.fld F.egBstat_RUNNING eg &&& (65535 - 2 ^ c))
  s2.setClruns eg ((s2.clruns eg).map (fun r =>
    if r.cores.contains c then g { r with cores := r.cores.filter (fun x => x != c), endAt := max r.endAt t } else r))

/-- A core faults: it stops, and the first fault of the group is captured (R218, R231). The program of its CLRUN then ends
as a fault found after issue (R263). -/
def State.coreFault (s : State) (eg c cause pc : Nat) : State :=
  let s2 := s.stopCore eg c (s.coreOf eg c).at_ (fun r => { r with faulted := true })
  if s2.flag F.egBstat_FAULT eg then s2
  else (((s2.setFld F.egBstat_FAULT eg 1).setFld F.egBstat_FCORE eg c).setFld F.egBstat_FCAUSE eg cause).setPair
    .egBfaultpcLo .egBfaultpcHi eg pc

/-- Ends a CLRUN that no selected core runs any more (R218, R263): it completes 16 cycles after the last core ended, with the
highest status, or, after a fault, its queue halts and nothing completes. -/
def State.endRun (s : State) (r : ClRun) : State :=
  if r.faulted then
    let s2 := (s.land r.cmd.uid).settleJob r.cmd.part r.cmd.job
    match r.cmd.issuer with
    | .queue q => s2.halt q 1 0
    | .core _ _ => s2
  else s.finish r.cmd { Result.mk0 r.status (r.endAt + 16 - r.cmd.issued) with addr := r.addr }

/-- Ends the CLRUNs of an engine group that no core runs any more. -/
def State.settleCluster (s : State) (eg : Nat) : State :=
  let ended := (s.clruns eg).filter (fun r => r.cores.isEmpty)
  ended.foldl State.endRun (s.setClruns eg ((s.clruns eg).filter (fun r => !r.cores.isEmpty)))

/-- Illegal-instruction cause code of RISC-V. -/
def causeIllegal : Nat := 2

/-- A malformed command at issue: it is not executed; a queue halts with CAUSE = 1 at it, and a core takes an
illegal-instruction fault (R263). -/
def State.malformed (s : State) (i : Issuer) (b : List Byte) : State :=
  let s1 := s.noteMalformed (s.issuerPart i) (s.cmdEg i b) (hdrOpcode b)
  match i with
  | .queue q => s1.halt q 1 0
  | .core eg c =>
    ((s1.setPosts eg c ((s1.posts eg c).drop 1)).coreFault eg c causeIllegal (s1.coreOf eg c).pc).settleCluster eg

/-! ## Issue -/

/-- Marks the first window entry of a queue as reached by it in the present cycle (R444). -/
def markReached (q cyc : Nat) : List Decoded → List Decoded
  | [] => []
  | d :: r => if d.queue = q then { d with since := cyc } :: r else d :: markReached q cyc r

/-- Removes one command from a window. -/
def dropUid (uid : Nat) (w : List Decoded) : List Decoded := w.filter (fun d => d.uid != uid)

/-- The issuer reaches its next command in the present cycle: the one before it has issued, and no longer holds it (R444). -/
def State.reachNext (s : State) (i : Issuer) : State :=
  match i with
  | .queue q => s.setWindow (s.qField q) (markReached q s.cycle (s.window (s.qField q)))
  | .core eg c =>
    match s.posts eg c with
    | [] => s
    | d :: r => s.setPosts eg c ({ d with since := max d.since s.cycle } :: r)

/-- Adds cycles of wheel waiting to a job (R444). -/
def State.addWait (s : State) (p j n : Nat) : State :=
  s.setReg .cpJwait (8 * p + j) (BitVec.ofNat 32 (satAdd 32 (s.reg .cpJwait (8 * p + j)).toNat n))

/-- The words of memory that a command reads in its issue cycle, as no pre-read of them holds (R246, R250, R252): all of them for a
posted command, which no window has held (R247), and those of a command squashed for a word of memory. -/
def State.issueTouch (s : State) (i : Issuer) (d : Decoded) : State :=
  let c := s.mkCmd i d
  let words := match i with
    | .core _ _ => s.issueReads c.part c.eg d.bytes
    | .queue _ => if d.reread then d.watch else []
  words.foldl (fun t w => match w with | .mem a n => t.touch d.uid c.part c.eg a n .read | _ => t) s

/-- Wheel waiting of a command that has not been counted yet (R444); the wait of a FENCE or for a unit is none. -/
def State.wheelWait (s : State) (d : Decoded) : Nat :=
  if hdrFence d.bytes || d.waited then 0 else s.cycle - d.since

/-- The wheel of an engine group has held through a command's overrun, from its first cycle to the present one (R499). -/
def State.holdOverrun (s : State) (eg : Nat) (d : Decoded) : State :=
  match d.overrun with
  | some t => s.holdWheel eg t s.cycle
  | none => s

/-- Issues a command (R237, R238, R252, R259, R444, R456): HEAD passes it, it leaves the window or the posted stream, its queue
counts it, a squash is counted and costs 24 cycles for a register or the repeated reads of memory, wheel waiting is added, the wheel has held through its overrun,
and the first issue of a job starts its episode. -/
def State.issue (s : State) (i : Issuer) (d : Decoded) : State :=
  let c := s.mkCmd i d
  let p := c.part
  let j := c.job
  let s0 := ((s.until c.issued).holdOverrun c.eg d).draw
  let s1 := match i with
    | .queue q =>
      let f := s0.qField q
      let head := (s0.fld F.qStat_HEAD q + d.units) % s0.ringUnits q
      let s1 := s0.setFld F.qStat_HEAD q head
      let s2 := s1.setWindow f (dropUid d.uid (s1.window f))
      s2.setQueue q { s2.queue q with seq := ((s2.queue q).seq + 1) % 2 ^ 32 }
    | .core eg c => s0.setPosts eg c ((s0.posts eg c).drop 1)
  let s2 := if c.squashed then s1.count F.cpStat_SQUASHCNT c.field 1 else s1
  let s3 := (s2.reachNext i).addWait p j (s.wheelWait d)
  let s4 := match (s3.job p j).episode with
    | none => s3.setJob p j { s3.job p j with episode := some s3.cycle }
    | some _ => s3
  ({ s4 with cp := { s4.cp with inflight := s4.cp.inflight ++ [c] } }.issueTouch i d).settleJob p j

/-! ## Units held (R443) -/

/-- Whether a command builds or loads a code table: a DMA whose XC has MODE 3 (R337, R338). -/
def isTableCmd (b : List Byte) : Bool := hdrOpcode b == 0x08 && decide (num b 48 1 ≤ 1) && num b 51 1 % 4 == 3

/-- Whether a command is a LOAD of a code table (R337). -/
def isTableLoad (b : List Byte) : Bool := isTableCmd b && bit (num b 51 1) 5

/-- The unit of an engine group that a command holds while it runs: 1 DMA, 2 SFU, 3 WAG, CONV included (R157, R197), 4 Basil cluster,
5 the TE load port, 6 the coder's table port, on which a LOAD runs beside the lanes (R339); 0 for the CP, the CE and the TE, whose
slots and group queues are shared by rules of their own. -/
def unitClass (b : List Byte) : Nat :=
  let op := hdrOpcode b
  if isTableLoad b then 6
  else if op = 0x08 ∨ op = 0x21 then 1
  else if op = 0x18 then 2
  else if op = 0x20 ∨ op = 0x28 ∨ op = 0x29 then 3
  else if op = 0x12 ∨ op = 0x30 ∨ op = 0x50 then 4
  else if op = 0x11 then 5
  else 0

/-- The commands of an engine group that are under way in cycle `t`. -/
def State.running (s : State) (eg t : Nat) : List Cmd :=
  (s.cp.inflight ++ s.cp.parked.map (fun k => k.cmd) ++
    ((s.entry (eg / 32) (eg % 32)).filter (fun k => decide (t < k.posted))).map (fun k => k.cmd)).filter (fun c => c.eg == eg)

/-- The command that holds a unit of an engine group in the present cycle. -/
def State.unitHolder (s : State) (eg u : Nat) : Option Cmd :=
  if u = 0 then none else (s.running eg s.cycle).find? (fun c => unitClass c.bytes == u)

/-- Whether a BUILD or LOAD, command `skip` apart, is still writing the shadow of a slot in cycle `t` (R340, R342). -/
def State.tableRuns (s : State) (eg slot t : Nat) (skip : Option Nat) : Bool :=
  (s.running eg t).any (fun c => some c.uid != skip && isTableCmd c.bytes && num c.bytes 51 1 / 4 % 8 == slot)

/-- Replaces a decoded command by its number. -/
def replaceUid (x : Decoded) (l : List Decoded) : List Decoded := l.map (fun d => if d.uid = x.uid then x else d)

/-- Replaces a decoded command of an issuer. -/
def State.setDecoded (s : State) (i : Issuer) (d : Decoded) : State :=
  match i with
  | .queue q => s.setWindow (s.qField q) (replaceUid d (s.window (s.qField q)))
  | .core eg c => s.setPosts eg c (replaceUid d (s.posts eg c))

/-- A command's wait for a unit begins: its wheel waiting ends there (R443, R444). -/
def State.noteWait (s : State) (i : Issuer) (d : Decoded) : State :=
  if d.waited then s
  else (s.addWait (s.issuerPart i) (s.issuerJob i d) (s.wheelWait d)).setDecoded i { d with waited := true }

/-- A command waits for a unit that another job's command holds: an overrun, counted once (R443, R497, R506). -/
def State.noteOverrun (s : State) (i : Issuer) (d : Decoded) : State :=
  if d.overrun.isSome then s
  else
    let p := s.issuerPart i
    let s1 := (s.noteWait i d).setDecoded i { d with waited := true, overrun := some s.cycle }
    ((s1.count F.cpWstat_OVERRUNS (s.cmdEg i d.bytes) 1).count F.sysDetstat_OVERRUNS p 1).setFld F.sysDetstat_BROKEN p 1

/-- Whether a command that holds the Basil cluster leaves a CLRUN its cores: another CLRUN whose cores that still run are others
(R217). -/
def State.coresFree (s : State) (eg : Nat) (b : List Byte) (h : Cmd) : Bool :=
  hdrOpcode b == 0x30 && hdrOpcode h.bytes == 0x30 &&
    (List.range 16).all (fun c => !(bit (num b 12 2) c && (s.coreOf eg c).running))

/-- What holds back a command that may otherwise issue: its unit, held by a command of its own job (some false) or of another
(some true). -/
def State.unitWait (s : State) (i : Issuer) (d : Decoded) : Option Bool :=
  let eg := s.cmdEg i d.bytes
  match s.unitHolder eg (unitClass d.bytes) with
  | none => none
  | some h => if s.coresFree eg d.bytes h then none else some (h.job != s.issuerJob i d)

/-- The oldest access of a command in T1 or T2: its first memory request. -/
def State.firstAccess (s : State) (uid : Nat) : Option Nat :=
  (s.trace uid).reverse.findSome? (fun x => match x with
    | .rd a _ | .rmw a _ | .wr a _ _ _ => if (controllerOf a).isSome then some a else none
    | _ => none)

/-- Whether a command whose execution gives `t` still waits at issue in `s`: the request queue that its first request enters is full
(R297, R444; log entry 55). -/
def State.requestWaits (s t : State) (c : Cmd) : Bool :=
  match t.firstAccess c.uid with
  | some a => s.queueFull c.part a
  | none => false

/-- A command completes in its issue cycle with what its checks find; an uncorrectable word among its issue-time reads is recorded
(R322, R327). -/
def State.finishAtIssue (s : State) (c : Cmd) (r : Result) : State :=
  (if r.status = St.ecc && (s.badIn r.addr 1).isSome then s.noteUe r.addr else s).finish c r

/-- The queue has reached a command whose bytes arrived uncorrectable: it halts with CAUSE = 2 at it (R323). -/
def State.ringStop (s : State) (i : Issuer) (d : Decoded) : State :=
  match i, d.ringBad with
  | .queue q, some a => if s.fld F.qStat_STATE q = 1 then s.halt q 2 a else s
  | _, _ => s

/-- The shared form of the issue of a command. `mine` says whether the command is of the row's kind, `check` makes the checks of
its chapter at issue, `run` is its execution, and `named` gives the command the unit it reports where that is not the engine group.
A command that is not of the kind, or may not issue now, leaves the state as it is (log entry 3), and one whose unit is held waits;
a malformed one halts its queue or faults its core; the guard decides before the chapter's other outcomes. -/
def State.issueRowAs (s0 : State) (i : Issuer) (mine : List Byte → Bool) (check : State → Cmd → Verdict)
    (run : State → Cmd → State) (named : State → Cmd → Cmd) : State :=
  let s := s0.settleBounds
  match s.nextOf i with
  | none => s
  | some d =>
    if d.ringBad.isSome then s.ringStop i d
    else if !mine d.bytes || !s.ready i d then s
    else if (s.unitWait i d).isSome then (if s.unitWait i d = some true then s.noteOverrun i d else s.noteWait i d)
    else
      let c := s.mkCmd i d
      if s.headerBad i d.bytes then s.malformed i d.bytes
      else
        let g := s.guardVerdict c.part d.bytes
        let v := check s c
        if g = .malformed || v = .malformed then s.malformed i d.bytes
        else
          let s1 := s.issue i d
          match g with
          | .done r => s1.finishAtIssue (named s c) r
          | _ => match v with
            | .done r => s1.finishAtIssue (named s c) r
            | _ =>
              let t := run s1 c
              if s.requestWaits t c then s else t

/-- The issue of a command that reports its engine group. -/
def State.issueRow (s : State) (i : Issuer) (mine : List Byte → Bool) (check : State → Cmd → Verdict)
    (run : State → Cmd → State) : State := s.issueRowAs i mine check run (fun _ c => c)

/-- Whether an issuer's next command issues and completes there, with its zero bounds, its guard or what its checks find. -/
def State.doneAtIssue (s0 : State) (i : Issuer) (mine : List Byte → Bool) (check : State → Cmd → Verdict) : Bool :=
  let s := s0.settleBounds
  match s.nextOf i with
  | none => false
  | some d =>
    let g := s.guardVerdict (s.issuerPart i) d.bytes
    let v := check s (s.mkCmd i d)
    mine d.bytes && s.ready i d && (s.unitWait i d).isNone && !s.headerBad i d.bytes && g != .malformed && v != .malformed &&
      !(g == .go && v == .go)

end Sys2Proof.Machine
end

