-- ==== Sys2Proof/Machine/Access.lean ====
section
/-!
DEFINITION. Who may read and write which register (R538, R544, and the access rules of the register chapters), refused accesses
and plain register reads and writes by access type (R12 to R16).
-/

set_option Elab.async false

namespace Sys2Proof.Machine

open Sys2Proof

/-- The queue a register belongs to, for the registers of queue pages (R543). -/
def RegName.isQueue : RegName → Bool
  | .qRingbaseLo | .qRingbaseHi | .qCmpbaseLo | .qCmpbaseHi | .qCfg | .qStat | .qCtrl | .qCmpidx | .qCmplost | .cpQjob
  | .qVec | .qDoorbell => true
  | _ => false

/-- Registers of the EG, TE, SFU, WAG, TRN and CMP blocks in engine-group windows (R543). -/
def RegName.isEg : RegName → Bool
  | .egStat | .egSentstat | .egSentclr | .egBstat | .egBfaultpcLo | .egBfaultpcHi | .teCvtcnta | .teCvtcntb | .teCvtclr
  | .teSpillcnt | .teSpillclr | .sfuStat | .sfuStatclr | .sfuTblstat | .sfuTblloaded | .wagStat | .trnStat | .trnFrozen
  | .trnStatclr | .cmpTblstat | .cmpStat | .cmpStatclr => true
  | _ => false

/-- Registers a Basil core reaches: EG, TE, SFU and WAG of its own engine group (R215). -/
def RegName.isCoreReg : RegName → Bool
  | .egStat | .egSentstat | .egSentclr | .egBstat | .egBfaultpcLo | .egBfaultpcHi | .teCvtcnta | .teCvtcntb | .teCvtclr
  | .teSpillcnt | .teSpillclr | .sfuStat | .sfuStatclr | .sfuTblstat | .sfuTblloaded | .wagStat => true
  | _ => false

/-- Event registers of a ring. -/
def RegName.isEvent : RegName → Bool
  | .sysEvbaseLo | .sysEvbaseHi | .sysEvcfg | .sysEvidx | .sysEvlost => true
  | _ => false

/-- Registers that only Sage and the service cores write (R327, R386, R415, R435, R459, R495, R532). -/
def RegName.sageOnly : RegName → Bool
  | .memT1win | .memMswin | .memT2win | .memT3due | .memStatclr | .memWheel
  | .lnkCfg | .lnkStat | .lnkErrcnt | .lnkStatclr | .lnkSwtab
  | .ceGrptabLo | .ceGrptabHi | .ceGrpctl | .ceGrpstat | .ceCollwatch | .ceRetry
  | .ethCfg | .ethStat | .ethDrop | .ethDropclr | .ethUdpport | .ethCctgt
  | .fenCtl | .fenPdqbaseLo | .fenPdqbaseHi | .fenPdqtail | .fenStat | .fenCnt
  | .sysPartmap | .sysPartcfg | .cpJob | .cpJdeadline | .cpJsaveLo | .cpJsaveHi | .cpWheel | .cpWlen | .cpJctl
  | .pwrCap | .pwrBudget | .pwrReserve | .pwrStat | .pwrStatclr | .clkNom | .clkStat
  | .sysPseason | .sysAutumnlim => true
  | _ => false

/-- The PCI registers of a port (R554). -/
def RegName.isPci : RegName → Bool
  | .pciFnmap | .pciVfctl | .pciT3xlatLo | .pciT3xlatHi | .pciStat | .pciErrcnt => true
  | _ => false

/-- Whether a VF mapped to p reaches a register at all (R538): CAP and the EG windows for reads, and its own queues, objects,
bounds, tables and event ring for both. -/
def State.vfReach (s : State) (d v p : Nat) (n : RegName) (i : Nat) (write : Bool) : Bool :=
  if n.isQueue then s.qPart i == p
  else if n == .syncObj || n == .syncCfg then s.objPart i == p
  else if n == .cpBound then i / 256 == p
  else match n with
    | .cpBndbaseLo | .cpBndbaseHi | .cpTsbaseLo | .cpTsbaseHi | .cpTscount => i == p
    | .capHead => !write
    | _ =>
      if n.isEvent then i == 9 * d + v
      else if n.isEg then !write && i < 128 && s.egPart i == some p
      else false

/-- Whether a host function's accesses are served at all: it exists (R536), is not in D3hot (R539), and a VF is enabled and mapped
(R537). -/
def State.hostServed (s : State) : Requester → Bool
  | .pf d => decide (d < 2) && !(s.fn (9 * d)).d3
  | .vf d v => decide (d < 2) && decide (1 ≤ v) && decide (v ≤ 8) && !(s.fn (9 * d + v)).d3 && (s.vfPart d v).isSome
  | _ => true

/-- Whether a requester may write a register (R538, R554 and the blocks' own rules). -/
def State.mayWrite (s : State) (who : Requester) (n : RegName) (i : Nat) : Bool :=
  match who with
  | .sage => true
  | .service _ => n != .secCtl && n != .bootCtl
  | .pf d => !n.sageOnly && n != .secCtl && (!n.isPci || i == d)
  | .vf d v => match s.vfPart d v with
    | some p => s.vfReach d v p n i true
    | none => false
  | .core eg _ => n.isCoreReg && i == eg
  | .cp _ _ => false
  | .ce _ _ => false

/-- Whether a requester may read a register (R538, R215). -/
def State.mayRead (s : State) (who : Requester) (n : RegName) (i : Nat) : Bool :=
  match who with
  | .sage | .service _ | .pf _ => true
  | .vf d v => match s.vfPart d v with
    | some p => s.vfReach d v p n i false
    | none => false
  | .core eg _ => n.isCoreReg && i == eg
  | .cp _ _ => false
  | .ce _ _ => false

/-- Counts an access refused to a host function (R538, R544). -/
def State.refuse (s : State) (who : Requester) : State :=
  if who.isHost && decide (who.port < 2) then s.count F.pciErrcnt_REFUSED who.port 1 else s

/-- A register write by a permitted requester goes on; any other is ignored, and counted for a host (R538). -/
def State.gated (s : State) (who : Requester) (n : RegName) (i : Nat) (k : State) : State :=
  if s.hostServed who && s.mayWrite who n i then k else s.refuse who

/-- The word a register shows: WO bits read 0 and are never stored; some fields are views of the state (R13, R16, R105, R267, R435,
R452, R506). -/
def State.readReg (s : State) (n : RegName) (i : Nat) : Word :=
  match n with
  | .egStat =>
    let t := s.teNow i
    let held := t.flight.foldl (fun m c => c.slots.foldl (fun m j => m ||| 2 ^ j) m) 0
    let w := putField (s.reg .egStat i) 0 1 (if t.flight.isEmpty then 0 else 1)
    putField (putField w 1 3 t.flight.length) 4 4 held
  | .cpJstat => putField (s.reg .cpJstat i) 0 3 ((s.settleJob (i / 8) (i % 8)).jobState (i / 8) (i % 8))
  | .fenStat => if s.fen.run.isSome && decide (s.tick < s.fen.sw) then putField (s.reg .fenStat i) 12 2 2 else s.reg .fenStat i
  | .wagStat => putField (s.reg .wagStat i) 0 1 (b2n (s.unitHolder i 3).isSome)
  | .cmpTblstat =>
    let live := (List.range 8).filter (fun k => s.tableRuns i k s.cycle none)
    let p := s.fld F.cmpTblstat_PENDING i
    s.setFld F.cmpTblstat_PENDING i (p - (live.filter (fun k => bit p k)).foldl (fun m k => m + 2 ^ k) 0) |>.reg .cmpTblstat i
  | .cpBound => s.settleBounds.reg .cpBound i
  | .clkStat => putField (s.reg .clkStat i) 4 1 (b2n (s.power.droop || decide (s.tick < s.power.recover)))
  | .sysDetstat => putField (s.reg .sysDetstat i) 25 1 (s.fld F.sysPartcfg_LEND i)
  | .ceGrpstat => s.setFld F.ceGrpstat_PENDING i (Sparse.rd (fun _ => Group.reset) i s.groups).queue.length |>.reg .ceGrpstat i
  | _ => s.reg n i

/-- The _HI register of a _LO register (R12). -/
def RegName.hiOf : RegName → Option RegName
  | .bootHaddrLo => some .bootHaddrHi
  | .ceGrptabLo => some .ceGrptabHi
  | .cpBndbaseLo => some .cpBndbaseHi
  | .cpJsaveLo => some .cpJsaveHi
  | .cpTsbaseLo => some .cpTsbaseHi
  | .egBfaultpcLo => some .egBfaultpcHi
  | .fenPdqbaseLo => some .fenPdqbaseHi
  | .memUeaddrLo => some .memUeaddrHi
  | .pciT3xlatLo => some .pciT3xlatHi
  | .qCmpbaseLo => some .qCmpbaseHi
  | .qRingbaseLo => some .qRingbaseHi
  | .sysEscbaseLo => some .sysEscbaseHi
  | .sysEvbaseLo => some .sysEvbaseHi
  | .sysSentseedLo => some .sysSentseedHi
  | _ => none

/-- Reads a register: a _LO read captures its _HI register, and the next read of that _HI register returns the captured value
(R12; log entry 12: a _HI read with nothing captured returns the register). -/
def State.readAt (s : State) (n : RegName) (i : Nat) : Word × State :=
  match n.hiOf with
  | some h => (s.readReg n i, { s with hi := Sparse.wr (fun _ => none) (regKey h i) (some (s.readReg h i)) s.hi })
  | none =>
    match Sparse.rd (fun _ => none) (regKey n i) s.hi with
    | some v => (v, { s with hi := Sparse.wr (fun _ => none) (regKey n i) none s.hi })
    | none => (s.readReg n i, s)

/-- The word a plain write leaves: RW bits take the value, W1C bits are cleared by 1, RWL bits stay once locked, the rest is
unchanged (R13 to R16). -/
def plainWrite (n : RegName) (locked : Bool) (old v : Word) : Word :=
  let set := n.rwMask ||| (if locked then 0#32 else n.rwlMask)
  ((old &&& ~~~set) ||| (v &&& set)) &&& ~~~(v &&& n.w1cMask)

end Sys2Proof.Machine
end

