-- ==== Sys2Proof/Machine/Crypto.lean ====
section
/-!
DEFINITION. The algorithms that the manual names by their standards (log entry 6): SHA-384 and SHA-256 (FIPS 180-4), HMAC and HKDF
(RFC 2104, RFC 5869), ECDSA and ECDH on P-384 (FIPS 186-5), LMS (RFC 8554, SP 800-208) and AES-256-GCM (SP 800-38D). They are
PRESUMED: the manual gives their names and sizes only.
-/

set_option Elab.async false

namespace Sys2Proof.Machine

open Sys2Proof

/-- The number a big-endian byte string holds. -/
def beNat (bs : List Byte) : Nat := bs.foldl (fun v b => v * 256 + b.toNat) 0

/-- A number as `n` bytes, highest first. -/
def beBytes (n v : Nat) : List Byte := (leBytes n v).reverse

/-- Exclusive or, byte by byte, over the shorter length. -/
def xorBytes (a b : List Byte) : List Byte := a.zipWith (fun x y => x ^^^ y) b

/-! ## SHA-2 -/

/-- Largest `r` with r^k ≤ v, by `n` halvings. -/
def rootGo (k v : Nat) : Nat → Nat → Nat
  | 0, r => r
  | n + 1, r => rootGo k v n (if (r + 2 ^ n) ^ k ≤ v then r + 2 ^ n else r)

/-- Whether a number from 2 on is prime. -/
def isPrime (n : Nat) : Bool := (List.range n).all (fun d => d < 2 || n % d != 0)

/-- The first 80 primes. -/
def primes80 : List Nat := (List.range 410).filter (fun n => 2 ≤ n && isPrime n)

/-- What the 32-bit and 64-bit members of the SHA-2 family differ in: word width, rounds, rotations and shifts. -/
structure Sha2 where
  w  : Nat
  n  : Nat
  s0 : List Nat
  s1 : List Nat
  b0 : List Nat
  b1 : List Nat
  deriving DecidableEq, Repr

/-- SHA-256. -/
def sha2of256 : Sha2 := ⟨32, 64, [7, 18, 3], [17, 19, 10], [2, 13, 22], [6, 11, 25]⟩

/-- SHA-384 and SHA-512. -/
def sha2of512 : Sha2 := ⟨64, 80, [1, 8, 7], [19, 61, 6], [28, 34, 39], [14, 18, 41]⟩

/-- Rotation to the right. -/
def rotr (w x k : Nat) : Nat := x / 2 ^ k + x % 2 ^ k * 2 ^ (w - k)

/-- The round constants: fractional parts of the cube roots of the first primes. -/
def Sha2.ks (h : Sha2) : List Nat := (primes80.take h.n).map (fun p => rootGo 3 (p * 2 ^ (3 * h.w)) (h.w + 4) 0 % 2 ^ h.w)

/-- A small sigma: two rotations and a shift. -/
def Sha2.small (h : Sha2) (r : List Nat) (x : Nat) : Nat :=
  rotr h.w x (r.getD 0 0) ^^^ rotr h.w x (r.getD 1 0) ^^^ x / 2 ^ r.getD 2 0

/-- A large sigma: three rotations. -/
def Sha2.large (h : Sha2) (r : List Nat) (x : Nat) : Nat :=
  rotr h.w x (r.getD 0 0) ^^^ rotr h.w x (r.getD 1 0) ^^^ rotr h.w x (r.getD 2 0)

/-- The message schedule, newest word first, `n` words to go. -/
def Sha2.schedule (h : Sha2) : Nat → List Nat → List Nat
  | 0, ws => ws
  | n + 1, ws =>
    let v := h.small h.s1 (ws.getD 1 0) + ws.getD 6 0 + h.small h.s0 (ws.getD 14 0) + ws.getD 15 0
    h.schedule n (v % 2 ^ h.w :: ws)

/-- One round. -/
def Sha2.round (h : Sha2) (st : List Nat) (kw : Nat) : List Nat :=
  let x := fun i => st.getD i 0
  let m := 2 ^ h.w
  let ch := (x 4 &&& x 5) ^^^ ((m - 1 - x 4) &&& x 6)
  let mj := (x 0 &&& x 1) ^^^ (x 0 &&& x 2) ^^^ (x 1 &&& x 2)
  let t1 := x 7 + h.large h.b1 (x 4) + ch + kw
  let t2 := h.large h.b0 (x 0) + mj
  [(t1 + t2) % m, x 0, x 1, x 2, (x 3 + t1) % m, x 4, x 5, x 6]

/-- One block of 16 words. -/
def Sha2.block (h : Sha2) (ks : List Nat) (st : List Nat) (bs : List Byte) : List Nat :=
  let ws := (pieces (h.w / 8) 16 bs).map beNat
  let w := (h.schedule (h.n - 16) ws.reverse).reverse
  let r := (ks.zipWith (fun a b => a + b) w).foldl h.round st
  st.zipWith (fun a b => (a + b) % 2 ^ h.w) r

/-- The message with its padding. -/
def Sha2.pad (h : Sha2) (m : List Byte) : List Byte :=
  let bl := 2 * h.w
  let n := m.length + 1 + h.w / 4
  m ++ [0x80#8] ++ List.replicate ((bl - n % bl) % bl) 0x00#8 ++ beBytes (h.w / 4) (8 * m.length)

/-- The digest before truncation, from an initial state. -/
def Sha2.digest (h : Sha2) (iv : List Nat) (m : List Byte) : List Byte :=
  let p := h.pad m
  ((pieces (2 * h.w) (p.length / (2 * h.w)) p).foldl (h.block h.ks) iv).flatMap (beBytes (h.w / 8))

/-- SHA-384: the initial state comes from the square roots of the 9th to 16th primes. -/
def sha384 (m : List Byte) : List Byte :=
  (sha2of512.digest (((primes80.drop 8).take 8).map (fun p => rootGo 2 (p * 2 ^ 128) 68 0 % 2 ^ 64)) m).take 48

/-- SHA-256: from those of the first 8. -/
def sha256 (m : List Byte) : List Byte :=
  sha2of256.digest ((primes80.take 8).map (fun p => rootGo 2 (p * 2 ^ 64) 36 0 % 2 ^ 32)) m

/-! ## HMAC and HKDF -/

/-- HMAC-SHA-384. -/
def hmac384 (key m : List Byte) : List Byte :=
  let k := padTo 128 (if 128 < key.length then sha384 key else key)
  sha384 (k.map (fun b => b ^^^ 0x5C#8) ++ sha384 (k.map (fun b => b ^^^ 0x36#8) ++ m))

/-- The expansion of HKDF, `n` blocks to go. -/
def hkdfGo (prk info : List Byte) : Nat → Nat → List Byte → List Byte
  | 0, _, _ => []
  | n + 1, i, prev =>
    let t := hmac384 prk (prev ++ info ++ [BitVec.ofNat 8 i])
    t ++ hkdfGo prk info n (i + 1) t

/-- HKDF-SHA-384: `len` bytes from keying material, salt and info. -/
def hkdf (ikm salt info : List Byte) (len : Nat) : List Byte :=
  (hkdfGo (hmac384 salt ikm) info (ceilDiv len 48) 1 []).take len

/-! ## P-384 -/

/-- The prime of P-384. -/
def pPrime : Nat := 2 ^ 384 - 2 ^ 128 - 2 ^ 96 + 2 ^ 32 - 1

/-- The order of P-384. -/
def pOrder : Nat := 0xffffffffffffffffffffffffffffffffffffffffffffffffc7634d81f4372ddf581a0db248b0a77aecec196accc52973

/-- The coefficient b of P-384. -/
def pB : Nat := 0xb3312fa7e23ee7e4988e056be3f82d19181d9c6efe8141120314088f5013875ac656398d8a2ed19d2a85c8edd3ec2aef

/-- A point; none for the point at infinity. -/
abbrev Point := Option (Nat × Nat)

/-- The base point of P-384. -/
def pBase : Point :=
  some (0xaa87ca22be8b05378eb1c71ef320ad746e1d3b628ba79b9859f741e082542a385502f25dbf55296c3a545e3872760ab7,
        0x3617de4a96262c6f5d9e98bf9292dc29f8f41dbd289a147ce9da3113b5f0b8c00a60b1ce1d7e819d7a431d7c90ea0e5f)

/-- a^e mod m, `n` bits of the exponent to go. -/
def powMod (m : Nat) : Nat → Nat → Nat → Nat
  | 0, _, _ => 1 % m
  | n + 1, a, e => (if e % 2 = 1 then a else 1) * powMod m n (a * a % m) (e / 2) % m

/-- The inverse modulo a prime of 384 bits. -/
def invMod (m a : Nat) : Nat := powMod m 384 (a % m) (m - 2)

/-- The sum of two points. -/
def Point.add (a b : Point) : Point :=
  match a, b with
  | none, q => q
  | p, none => p
  | some (x1, y1), some (x2, y2) =>
    let p := pPrime
    if x1 = x2 ∧ (y1 + y2) % p = 0 then none
    else
      let l := if x1 = x2 then (3 * x1 * x1 + (p - 3)) * invMod p (2 * y1) % p
        else (y2 + p - y1) * invMod p (x2 + p - x1) % p
      let x3 := (l * l + 2 * p - x1 - x2) % p
      some (x3, (l * (x1 + p - x3) + p - y1) % p)

/-- A multiple of a point, `n` bits to go. -/
def Point.mul : Nat → Nat → Point → Point
  | 0, _, _ => none
  | n + 1, k, q => Point.add (if k % 2 = 1 then q else none) (Point.mul n (k / 2) (Point.add q q))

/-- Reads an uncompressed point of 97 bytes; none if it is not on the curve. -/
def readPoint (b : List Byte) : Point :=
  let x := beNat (sub b 1 48)
  let y := beNat (sub b 49 48)
  if b.length = 97 ∧ b.head? = some 0x04#8 ∧ x < pPrime ∧ y < pPrime ∧
      y * y % pPrime = (x * x * x + (pPrime - 3) * x + pB) % pPrime then some (x, y) else none

/-- An uncompressed point as 97 bytes. -/
def pointBytes : Point → List Byte
  | some (x, y) => 0x04#8 :: (beBytes 48 x ++ beBytes 48 y)
  | none => List.replicate 97 0x00#8

/-- The public key of a private scalar. -/
def ecPublic (k : Nat) : List Byte := pointBytes (Point.mul 384 k pBase)

/-- The ECDH shared secret: the x coordinate; none if the peer's key is not a point. -/
def ecdh (k : Nat) (peer : List Byte) : Option (List Byte) :=
  (readPoint peer).bind (fun q => (Point.mul 384 k (some q)).map (fun r => beBytes 48 r.1))

/-- Whether an ECDSA signature (r, then s, 48 bytes each) over a 48-byte digest verifies. -/
def ecdsaVerify (key digest sig : List Byte) : Bool :=
  let r := beNat (sub sig 0 48)
  let s := beNat (sub sig 48 48)
  let e := beNat digest
  if r = 0 ∨ pOrder ≤ r ∨ s = 0 ∨ pOrder ≤ s ∨ sig.length ≠ 96 then false
  else match readPoint key with
    | none => false
    | some q =>
      let w := invMod pOrder s
      match Point.add (Point.mul 384 (e * w % pOrder) pBase) (Point.mul 384 (r * w % pOrder) (some q)) with
      | none => false
      | some (x, _) => x % pOrder == r

/-- An ECDSA signature over a digest with a private scalar and a per-signature number. -/
def ecdsaSign (d k : Nat) (digest : List Byte) : List Byte :=
  let r := match Point.mul 384 k pBase with | some (x, _) => x % pOrder | none => 0
  beBytes 48 r ++ beBytes 48 (invMod pOrder k * (beNat digest + r * d) % pOrder)

/-! ## LMS with SHA-256/192 and W = 4 -/

/-- The hash: SHA-256 cut to 24 bytes. -/
def h24 (m : List Byte) : List Byte := (sha256 m).take 24

/-- The 51 digits of a message hash with its checksum. -/
def lmsDigits (q : List Byte) : List Nat :=
  let ds := q.flatMap (fun b => [b.toNat / 16, b.toNat % 16])
  let c := ds.foldl (fun v d => v + (15 - d)) 0 * 16
  ds ++ [c / 4096 % 16, c / 256 % 16, c / 16 % 16]

/-- A hash chain of `n` steps from step `j`. -/
def lmsChain (pre : List Byte) (i : Nat) : Nat → Nat → List Byte → List Byte
  | 0, _, t => t
  | n + 1, j, t => lmsChain pre i n (j + 1) (h24 (pre ++ beBytes 2 i ++ beBytes 1 j ++ t))

/-- Climbs the tree from a node along its path. -/
def lmsClimb (id : List Byte) : Nat → List (List Byte) → List Byte → List Byte
  | _, [], t => t
  | node, p :: ps, t =>
    let both := if node % 2 = 1 then p ++ t else t ++ p
    lmsClimb id (node / 2) ps (h24 (id ++ beBytes 4 (node / 2) ++ beBytes 2 0x8383 ++ both))

/-- Whether an LMS signature of a tree of height `h` verifies. A public key is its type, the type of the one-time signature, an
identifier of 16 bytes and the root of 24. -/
def lmsVerify (h : Nat) (key m sig : List Byte) : Bool :=
  let typ := beBytes 4 (if h = 20 then 0x0D else 0x0C)
  let ots := beBytes 4 0x07
  let id := sub key 8 16
  let q := beNat (sub sig 0 4)
  let pre := id ++ sub sig 0 4
  let y := pieces 24 51 (sub sig 32 1224)
  let path := pieces 24 h (sub sig 1260 (24 * h))
  if key.length ≠ 48 ∨ sub key 0 4 ≠ typ ∨ sub key 4 4 ≠ ots ∨ sub sig 4 4 ≠ ots ∨ sub sig 1256 4 ≠ typ ∨
      sig.length ≠ 1260 + 24 * h ∨ 2 ^ h ≤ q then false
  else
    let ds := lmsDigits (h24 (pre ++ beBytes 2 0x8181 ++ sub sig 8 24 ++ m))
    let zs := (ds.zip y).zipIdx.flatMap (fun x => lmsChain pre x.2 (15 - x.1.1) x.1.1 x.1.2)
    let kc := h24 (pre ++ beBytes 2 0x8080 ++ zs)
    lmsClimb id (2 ^ h + q) path (h24 (id ++ beBytes 4 (2 ^ h + q) ++ beBytes 2 0x8282 ++ kc)) == sub key 24 24

/-! ## AES-256-GCM -/

/-- Product in GF(2^8) of x^8 + x^4 + x^3 + x + 1, `n` bits of the second factor to go. -/
def aesMulGo : Nat → Nat → Nat → Nat
  | 0, _, _ => 0
  | n + 1, a, b => (if b % 2 = 1 then a else 0) ^^^ aesMulGo n (if 128 ≤ a then (2 * a) ^^^ 0x11B else 2 * a) (b / 2)

/-- Product in that field. -/
def aesMul (a b : Nat) : Nat := aesMulGo 8 a b

/-- Power in that field. -/
def aesPow (a : Nat) : Nat → Nat
  | 0 => 1
  | n + 1 => aesMul a (aesPow a n)

/-- The substitution box, computed. -/
def aesBoxOf (a : Nat) : Nat :=
  let x := if a = 0 then 0 else aesPow a 254
  let rotl := fun k => x * 2 ^ k % 256 + x / 2 ^ (8 - k)
  x ^^^ rotl 1 ^^^ rotl 2 ^^^ rotl 3 ^^^ rotl 4 ^^^ 0x63

/-- The substitution box as a table. -/
def aesBox : List Nat := (List.range 256).map aesBoxOf

/-- The box applied to a list of bytes. -/
def aesSub (bs : List Nat) : List Nat := bs.map (fun b => aesBox.getD b 0)

/-- Exclusive or of byte lists. -/
def xorNats (a b : List Nat) : List Nat := a.zipWith (fun x y => x ^^^ y) b

/-- The key schedule of AES-256, newest word first: `n` words to go, word number `i`. -/
def aesKeys : Nat → Nat → List (List Nat) → List (List Nat)
  | 0, _, ws => ws
  | n + 1, i, ws =>
    let t := ws.headD []
    let u := if i % 8 = 0 then xorNats (aesSub (t.drop 1 ++ t.take 1)) [2 ^ (i / 8 - 1), 0, 0, 0]
      else if i % 8 = 4 then aesSub t else t
    aesKeys n (i + 1) (xorNats u (ws.getD 7 []) :: ws)

/-- The rows of the state shifted; the state is held column by column. -/
def aesShift (s : List Nat) : List Nat := (List.range 16).map (fun i => s.getD ((i + i % 4 * 4) % 16) 0)

/-- The columns of the state mixed. -/
def aesMix (s : List Nat) : List Nat :=
  (List.range 16).map (fun i =>
    let c := i / 4 * 4
    let x := fun k => s.getD (c + (i + k) % 4) 0
    aesMul (x 0) 2 ^^^ aesMul (x 1) 3 ^^^ x 2 ^^^ x 3)

/-- AES-256 of one block under a schedule of fifteen round keys. -/
def aesBlock (rk : List (List Nat)) (b : List Nat) : List Nat :=
  let s := ((rk.drop 1).take 13).foldl (fun s k => xorNats (aesMix (aesShift (aesSub s))) k) (xorNats b (rk.headD []))
  xorNats (aesShift (aesSub s)) (rk.getD 14 [])

/-- The round keys of a 32-byte key. -/
def aesSchedule (key : List Byte) : List (List Nat) :=
  let k := key.map (fun b => b.toNat)
  let w0 := (List.range 8).map (fun i => (k.drop (4 * i)).take 4)
  let ws := (aesKeys 52 8 w0.reverse).reverse
  (List.range 15).map (fun i => ((ws.drop (4 * i)).take 4).flatten)

/-- Product in the field of GHASH, `n` bits of the first factor to go. -/
def ghashMul : Nat → Nat → Nat → Nat
  | 0, _, _ => 0
  | n + 1, x, v =>
    (if x / 2 ^ n % 2 = 1 then v else 0) ^^^ ghashMul n x (if v % 2 = 1 then v / 2 ^^^ 0xE1 * 2 ^ 120 else v / 2)

/-- A string as blocks of 16 bytes, the last filled with zeros. -/
def blocks16 (b : List Byte) : List (List Byte) :=
  let n := ceilDiv b.length 16
  pieces 16 n (padTo (16 * n) b)

/-- The key stream of a nonce, from counter block `c` on, for `n` blocks. -/
def gcmStream (rk : List (List Nat)) (nonce : List Byte) : Nat → Nat → List Byte
  | 0, _ => []
  | n + 1, c =>
    (aesBlock rk ((nonce ++ beBytes 4 c).map (fun b => b.toNat))).map (fun v => BitVec.ofNat 8 v) ++ gcmStream rk nonce n (c + 1)

/-- Encrypts or decrypts under AES-256-GCM. -/
def gcmCrypt (key nonce text : List Byte) : List Byte :=
  xorBytes text (gcmStream (aesSchedule key) nonce (ceilDiv text.length 16) 2)

/-- The tag of a ciphertext and its associated data. -/
def gcmTag (key nonce aad cipher : List Byte) : List Byte :=
  let rk := aesSchedule key
  let h := beNat ((aesBlock rk (List.replicate 16 0)).map (fun v => BitVec.ofNat 8 v))
  let bs := blocks16 aad ++ blocks16 cipher ++ [beBytes 8 (8 * aad.length) ++ beBytes 8 (8 * cipher.length)]
  let y := bs.foldl (fun y b => ghashMul 128 (y ^^^ beNat b) h) 0
  xorBytes (beBytes 16 y) (gcmStream rk nonce 1 1)

end Sys2Proof.Machine
end

