-- ==== Sys2Proof/Machine/Eth.lean ====
section
/-!
DEFINITION. The Ethernet ports (R388 to R392, R415): frames and IP packets as bytes, their classification, the answers to ARP,
Neighbor Discovery and echo, and training. The layouts of Ethernet, ARP, IP, ICMP and UDP are those of their standards, PRESUMED
(log entry 29). A frame is held from its destination address to the end of its payload, without its check sequence.
-/

set_option Elab.async false

namespace Sys2Proof.Machine

open Sys2Proof

/-- An Ethernet port. -/
def State.ethPort (s : State) (e : Nat) : EthPort := Sparse.rd (fun _ => EthPort.reset) e s.eth

/-- Replaces an Ethernet port. -/
def State.setEth (s : State) (e : Nat) (p : EthPort) : State := { s with eth := Sparse.wr (fun _ => EthPort.reset) e p s.eth }

/-- Whether an Ethernet port is up. -/
def State.ethUp (s : State) (e : Nat) : Bool := s.flag F.ethStat_UP e

/-- The service time in units of 10 ns (R392; log entry 4). -/
def State.now10 (s : State) : Nat := 4 * s.tick

/-- The service time in milliseconds. -/
def State.nowMs (s : State) : Nat := s.tick / 25000

/-- The service time in seconds. -/
def State.nowSec (s : State) : Nat := s.tick / 25000000

/-! ## Modes and MTU (R388, R389) -/

/-- A mode of a port: MAC rate in Gb/s, its lanes from lane 0 upward, Gbit/s of a lane, and the symbols and data symbols of its FEC. -/
structure EthMode where
  rate  : Nat
  lanes : Nat
  lane  : Nat
  fec   : Nat × Nat
  deriving DecidableEq, Repr

/-- The modes of R388; none for a port that is off and for a reserved mode. Every mode runs RS(544,514) (R389). -/
def ethMode (m : Nat) : Option EthMode :=
  let row := fun rate lanes lane => some (⟨rate, lanes, lane, (544, 514)⟩ : EthMode)
  match m with
  | 1 => row 1600 8 200
  | 2 => row 800 8 100
  | 3 => row 800 4 200
  | 4 => row 400 4 100
  | 5 => row 400 8 50
  | 6 => row 400 2 200
  | 7 => row 200 2 100
  | 8 => row 200 4 50
  | 9 => row 200 1 200
  | 10 => row 100 1 100
  | 11 => row 100 2 50
  | _ => none

/-- The I/O die of a port (R27, R388). -/
def ethIod (e : Nat) : Nat := e / 2

/-- The mode that a word of ETH_CFG names. -/
def cfgMode (cfg : Word) : Option EthMode := ethMode (cfg.toNat % 16)

/-- The MTU that a port runs with: the field of ETH_CFG from 1,280 to 9,216 (R389); outside that range free within it (log entry
29). -/
def cfgMtu (cfg : Word) : Nat :=
  let m := bits cfg.toNat 4 14
  if 1280 ≤ m ∧ m ≤ 9216 then m else 1280 + Config.oddMtu m % 7937

/-- The MTU of a port. -/
def State.portMtu (s : State) (e : Nat) : Nat := cfgMtu (s.ethPort e).cfg

/-! ## Packets as bytes -/

/-- The big-endian number in the `n` bytes at offset `off`. -/
def bnum (bs : List Byte) (off n : Nat) : Nat := beNat (sub bs off n)

/-- The sum of the 16-bit big-endian words of a string. -/
def sum16 : List Byte → Nat
  | [] => 0
  | [a] => a.toNat * 256
  | a :: b :: r => a.toNat * 256 + b.toNat + sum16 r

/-- Adds the carries of an Internet checksum. -/
def fold16 (v : Nat) : Nat :=
  let a := v % 65536 + v / 65536
  let b := a % 65536 + a / 65536
  b % 65536 + b / 65536

/-- The Internet checksum of a string. -/
def inetSum (bs : List Byte) : Nat := 65535 - fold16 (sum16 bs)

/-- The pseudo header of a transport checksum. -/
def pseudo (src dst : List Byte) (proto len : Nat) : List Byte :=
  if src.length = 4 then src ++ dst ++ beBytes 2 proto ++ beBytes 2 len else src ++ dst ++ beBytes 4 len ++ beBytes 4 proto

/-- The MAC address of a port. -/
def portMac (e : Nat) : List Byte := (List.range 6).map (Config.portMac e)

/-- What a received frame carries: source MAC, type and payload. -/
structure EthIn where
  mac  : List Byte
  typ  : Nat
  body : List Byte
  deriving DecidableEq, Repr

/-- Reads a frame under a port's configuration (R389): no tag, or one with the port's VLAN identifier. -/
def readEth (cfg : Word) (raw : List Byte) : Option EthIn :=
  let t := bnum raw 12 2
  let tagged := bit cfg.toNat 18
  if raw.length < 14 then none
  else if t = 0x8100 ∨ t = 0x88A8 then
    let u := bnum raw 16 2
    if tagged && t == 0x8100 && bnum raw 14 2 % 4096 == bits cfg.toNat 19 12 && u != 0x8100 && u != 0x88A8 && decide (18 ≤ raw.length)
    then some ⟨sub raw 6 6, u, raw.drop 18⟩ else none
  else if tagged then none
  else some ⟨sub raw 6 6, t, raw.drop 14⟩

/-- A frame as a port sends it (R389). -/
def writeEth (cfg : Word) (e : Nat) (mac : List Byte) (typ : Nat) (body : List Byte) : List Byte :=
  mac ++ portMac e ++ (if bit cfg.toNat 18 then beBytes 2 0x8100 ++ beBytes 2 (bits cfg.toNat 19 12) else []) ++ beBytes 2 typ ++ body

/-- An IP packet: addresses, protocol, ECN bits, hop limit and payload. -/
structure IpIn where
  src   : List Byte
  dst   : List Byte
  proto : Nat
  ecn   : Nat
  hops  : Nat
  body  : List Byte
  deriving DecidableEq, Repr

/-- Reads a whole IPv4 or IPv6 packet that is no fragment. -/
def readIp (typ : Nat) (b : List Byte) : Option IpIn :=
  let v := bnum b 0 1 / 16
  if typ = 0x0800 then
    let h := 4 * (bnum b 0 1 % 16)
    let len := bnum b 2 2
    if v ≠ 4 ∨ h < 20 ∨ len < h ∨ b.length < len ∨ inetSum (b.take h) ≠ 0 ∨ bnum b 6 2 % 2 ^ 14 ≠ 0 then none
    else some ⟨sub b 12 4, sub b 16 4, bnum b 9 1, bnum b 1 1 % 4, bnum b 8 1, sub b h (len - h)⟩
  else if typ = 0x86DD then
    let len := bnum b 4 2
    if v ≠ 6 ∨ b.length < 40 + len then none
    else some ⟨sub b 8 16, sub b 24 16, bnum b 6 1, bnum b 0 2 / 16 % 4, bnum b 7 1, sub b 40 len⟩
  else none

/-- An IP packet as bytes, with its Ethernet type. -/
def writeIp (n : Nat) (p : IpIn) : Nat × List Byte :=
  if p.src.length = 4 then
    let h := [0x45#8, BitVec.ofNat 8 p.ecn] ++ beBytes 2 (20 + p.body.length) ++ beBytes 2 (Config.ipIdent n) ++ beBytes 2 0x4000 ++
      beBytes 1 p.hops ++ beBytes 1 p.proto
    let sum := inetSum (h ++ beBytes 2 0 ++ p.src ++ p.dst)
    (0x0800, h ++ beBytes 2 sum ++ p.src ++ p.dst ++ p.body)
  else (0x86DD, beBytes 4 (0x60000000 + p.ecn * 2 ^ 20) ++ beBytes 2 p.body.length ++ beBytes 1 p.proto ++ beBytes 1 p.hops ++
    p.src ++ p.dst ++ p.body)

/-- Sends an IP packet to a peer from its port; a port that is down sends nothing, and no packet above its MTU goes out (R389). -/
def State.sendIp (s : State) (peer : Peer) (proto ecn hops : Nat) (body : List Byte) : State :=
  if !s.ethUp peer.port then s
  else
    let w := writeIp s.free ⟨peer.own, peer.addr, proto, ecn, hops, body⟩
    if s.portMtu peer.port < w.2.length then s else s.draw.send (.packet peer.port (writeEth (s.ethPort peer.port).cfg peer.port peer.mac w.1 w.2))

/-- A UDP datagram with its checksum. -/
def udpBytes (src dst : List Byte) (sport dport : Nat) (body : List Byte) : List Byte :=
  let h := beBytes 2 sport ++ beBytes 2 dport ++ beBytes 2 (8 + body.length)
  let c := inetSum (pseudo src dst 17 (8 + body.length) ++ h ++ beBytes 2 0 ++ body)
  h ++ beBytes 2 (if c = 0 then 65535 else c) ++ body

/-- Sends a Birsan packet to a peer (R392): the source port names the path; DATA and the other types carry ECT(0) (R405). -/
def State.sendUdp (s : State) (peer : Peer) (path : Nat) (body : List Byte) : State :=
  s.sendIp peer 17 2 Config.ipTtl (udpBytes peer.own peer.addr ((s.fld F.ethUdpport_PATHBASE 0 + path) % 65536)
    (s.fld F.ethUdpport_PORT 0) body)

/-! ## Classification (R389, R391, R393) -/

/-- An IP packet classified: echo request, Neighbor Solicitation, Birsan, or none of them. -/
def State.classifyIp (s : State) (p : EthPort) (mac : List Byte) (ip : IpIn) : Option RxPkt :=
  let b := ip.body
  let pkt := fun (k sport : Nat) (x : List Byte) => some (⟨k, mac, ip.src, ip.dst, ip.ecn == 3, sport, x⟩ : RxPkt)
  let mine := p.addrs.contains ip.dst
  if ip.proto = 1 ∧ ip.src.length = 4 then
    if mine && bnum b 0 2 == 0x0800 && decide (8 ≤ b.length) && inetSum b == 0 then pkt 2 0 b else none
  else if ip.proto = 58 ∧ ip.src.length = 16 then
    let good := inetSum (pseudo ip.src ip.dst 58 b.length ++ b) == 0
    if good && bnum b 0 2 == 0x8700 && ip.hops == 255 && decide (24 ≤ b.length) && p.addrs.contains (sub b 8 16) then pkt 1 0 b
    else if good && mine && bnum b 0 2 == 0x8000 && decide (8 ≤ b.length) then pkt 2 0 b
    else none
  else if ip.proto = 17 then
    let n := bnum b 4 2
    let u := sub b 8 (n - 8)
    let sum := bnum b 6 2
    let good := decide (8 ≤ n) && decide (n ≤ b.length) &&
      (if sum = 0 then ip.src.length == 4 else inetSum (pseudo ip.src ip.dst 17 n ++ b.take n) == 0)
    if mine && good && bnum b 2 2 == s.fld F.ethUdpport_PORT 0 && decide (32 ≤ u.length) && bnum u 0 1 / 16 == 1 &&
        decide (bnum u 0 1 % 16 ≤ 6) then
      pkt (16 + bnum u 0 1 % 16) (bnum b 0 2) u
    else none
  else none

/-- A received frame classified; none for a foreign one (R391). -/
def State.classify (s : State) (e : Nat) (raw : List Byte) : Option RxPkt :=
  let p := s.ethPort e
  match readEth p.cfg raw with
  | none => none
  | some f =>
    if f.typ = 0x0806 then
      if bnum f.body 0 8 = 0x0001080006040001 ∧ p.addrs.contains (sub f.body 24 4) then
        some ⟨0, f.mac, sub f.body 14 4, sub f.body 24 4, false, 0, f.body⟩
      else none
    else (readIp f.typ f.body).bind (s.classifyIp p f.mac)

/-- A foreign frame is dropped and counted; nothing is sent (R391). -/
def State.foreign (s : State) (e : Nat) : State := s.count F.ethDrop_FOREIGN e 1

/-- A packet that fails authentication is dropped and counted; nothing is sent (R394, R400). -/
def State.authFail (s : State) (e : Nat) : State := s.count F.ethDrop_AUTHFAIL e 1

/-- ETH_FRAME_RECEIVE (R391): a received frame is classified; what is not foreign waits for its handling. -/
def execEthFrameReceive (e : Nat) (raw : List Byte) (s : State) : Host.Outcome State Fault Refusal :=
  inRange (e < 4) (fun _ => .next (
    if !s.ethUp e then s
    else match s.classify e raw with
      | none => s.foreign e
      | some p => s.setEth e { s.ethPort e with rx := (s.ethPort e).rx ++ [p] }))

/-- Handles the oldest waiting packet of one kind, if there is one. -/
def State.withRx (s : State) (e kind : Nat) (go : State → RxPkt → State) : State :=
  let p := s.ethPort e
  match p.rx.find? (fun x => x.kind == kind) with
  | none => s
  | some x => go (s.setEth e { p with rx := p.rx.erase x }) x

/-- The peer that a packet came from. -/
def RxPkt.peer (x : RxPkt) (e : Nat) : Peer := ⟨e, x.mac, x.dst, x.src⟩

/-- ARP_REQUEST (R391): an ARP request for an address of the port is answered. -/
def execArpRequest (e : Nat) (s : State) : Host.Outcome State Fault Refusal :=
  inRange (e < 4) (fun _ => .next (s.withRx e 0 (fun s x =>
    if !(s.ethPort e).addrs.contains x.dst then s.foreign e
    else if !s.ethUp e then s
    else
      let b := beBytes 8 0x0001080006040002 ++ portMac e ++ x.dst ++ sub x.body 8 10
      s.send (.packet e (writeEth (s.ethPort e).cfg e x.mac 0x0806 b)))))

/-- NEIGHBOR_SOLICITATION (R391): an IPv6 Neighbor Solicitation for an address of the port is answered. -/
def execNeighborSolicitation (e : Nat) (s : State) : Host.Outcome State Fault Refusal :=
  inRange (e < 4) (fun _ => .next (s.withRx e 1 (fun s x =>
    let t := sub x.body 8 16
    if !(s.ethPort e).addrs.contains t then s.foreign e
    else
      let b := fun (sum : Nat) => beBytes 2 0x8800 ++ beBytes 2 sum ++ beBytes 4 0x60000000 ++ t ++ beBytes 2 0x0201 ++ portMac e
      s.sendIp ⟨e, x.mac, t, x.src⟩ 58 0 255 (b (inetSum (pseudo t x.src 58 32 ++ b 0))))))

/-- The answer to an echo request. -/
def echoReply (x : RxPkt) : List Byte :=
  let v6 := x.src.length == 16
  let b := fun (sum : Nat) => beBytes 2 (if v6 then 0x8100 else 0) ++ beBytes 2 sum ++ x.body.drop 4
  b (inetSum ((if v6 then pseudo x.dst x.src 58 x.body.length else []) ++ b 0))

/-- ECHO_REQUEST (R391): an echo request is answered, at most 1,000 per second per port; the others are foreign. -/
def execEchoRequest (e : Nat) (s : State) : Host.Outcome State Fault Refusal :=
  inRange (e < 4) (fun _ => .next (s.withRx e 2 (fun s x =>
    let p := s.ethPort e
    let n := if p.second = s.nowSec then p.echoes else 0
    if 1000 ≤ n || !p.addrs.contains x.dst then s.foreign e
    else
      (s.setEth e { p with second := s.nowSec, echoes := n + 1 }).sendIp (x.peer e) (if x.src.length = 4 then 1 else 58) 0 Config.ipTtl
        (echoReply x))))

end Sys2Proof.Machine
end

