-- ==== Sys2Proof/Machine/FrameCodec.lean ====
section
/-!
DEFINITION. Link frames as bytes (R353 to R357): the forward error correction, the CRC-32C, the header, and the message fields of
HEAD and CTRL frames (R366). Nothing here touches the machine state.
-/

set_option Elab.async false

namespace Sys2Proof.Machine

open Sys2Proof

/-! ## The field GF(2^8) of x^8 + x^4 + x^3 + x^2 + 1 (R354) -/

/-- Product in the field, `n` bits of the second factor to go. -/
def gfMulGo : Nat → Nat → Nat → Nat
  | 0, _, _ => 0
  | n + 1, a, b =>
    let d := if 128 ≤ a then (2 * a) ^^^ 0x11D else 2 * a
    (if b % 2 = 1 then a else 0) ^^^ gfMulGo n d (b / 2)

/-- Product in the field. -/
def gfMul (a b : Nat) : Nat := gfMulGo 8 a b

/-- Power in the field. -/
def gfPow (a : Nat) : Nat → Nat
  | 0 => 1
  | n + 1 => gfMul a (gfPow a n)

/-- Inverse in the field. -/
def gfInv (a : Nat) : Nat := gfPow a 254

/-- Value of a polynomial at a point, highest power first. -/
def gfEval (p : List Nat) (x : Nat) : Nat := p.foldl (fun v c => gfMul v x ^^^ c) 0

/-- Product of a polynomial, lowest power first, and (1 + a x). -/
def gfTimes (p : List Nat) (a : Nat) : List Nat := (p ++ [0]).zipWith (fun u v => u ^^^ gfMul a v) (0 :: p)

/-- The generator polynomial without its leading 1, highest power first: the product of (x - 2^i), i = 0 to 7 (R354). -/
def rsGen : List Nat := ((List.range 8).foldl (fun p i => gfTimes p (gfPow 2 i)) [1]).drop 1

/-- The 8 parity bytes of a codeword's data, first byte the highest power (R354). -/
def rsParity (data : List Nat) : List Nat :=
  data.foldl (fun r d =>
    let f := d ^^^ r.headD 0
    (r.drop 1 ++ [0]).zipWith (fun u g => u ^^^ gfMul f g) rsGen) (List.replicate 8 0)

/-- The syndromes of a codeword. -/
def rsSyndromes (c : List Nat) : List Nat := (List.range 8).map (fun i => gfEval c (gfPow 2 i))

/-- State of the search for the error locator: locator, the last one before a change of length, its discrepancy, length, shift. -/
structure Bm where
  c : List Nat
  b : List Nat
  d : Nat
  l : Nat
  m : Nat
  deriving DecidableEq, Repr

/-- Adds polynomials, lowest power first. -/
def gfAdd : List Nat → List Nat → List Nat
  | [], q => q
  | p, [] => p
  | a :: p, b :: q => (a ^^^ b) :: gfAdd p q

/-- One step of the search, for syndrome number `n`. -/
def bmStep (s : List Nat) (z : Bm) (n : Nat) : Bm :=
  let d := (List.range (z.l + 1)).foldl (fun v i => v ^^^ gfMul (z.c.getD i 0) (if i ≤ n then s.getD (n - i) 0 else 0)) 0
  if d = 0 then { z with m := z.m + 1 }
  else
    let k := gfMul d (gfInv z.d)
    let c := gfAdd z.c (List.replicate z.m 0 ++ z.b.map (gfMul k))
    if 2 * z.l ≤ n then ⟨c, z.c, d, n + 1 - z.l, 1⟩ else { z with c := c, m := z.m + 1 }

/-- The error locator of syndromes, lowest power first, with its length. -/
def rsLocator (s : List Nat) : List Nat × Nat :=
  let z := (List.range 8).foldl (bmStep s) ⟨[1], [1], 1, 0, 1⟩
  (z.c, z.l)

/-- The formal derivative of a polynomial, lowest power first. -/
def gfDeriv (p : List Nat) : List Nat :=
  (List.range (p.length - 1)).map (fun i => if i % 2 = 0 then p.getD (i + 1) 0 else 0)

/-- Corrects a codeword of 144 bytes with up to 4 byte errors: the codeword, and whether anything was corrected; none when it is
uncorrectable (R354). -/
def rsDecode (c : List Nat) : Option (List Nat × Bool) :=
  let s := rsSyndromes c
  if s.all (fun v => v == 0) then some (c, false)
  else
    let lo := rsLocator s
    let at_ := fun (p : List Nat) (x : Nat) => gfEval p.reverse x
    let places := (List.range 144).filter (fun i => at_ lo.1 (gfInv (gfPow 2 (143 - i))) == 0)
    if 4 < lo.2 ∨ places.length ≠ lo.2 then none
    else
      let om := (List.range 8).map (fun k =>
        (List.range (k + 1)).foldl (fun v i => v ^^^ gfMul (lo.1.getD i 0) (s.getD (k - i) 0)) 0)
      let dv := gfDeriv lo.1
      let r := places.foldl (fun (w : List Nat) i =>
        let x := gfPow 2 (143 - i)
        let e := gfMul x (gfMul (at_ om (gfInv x)) (gfInv (at_ dv (gfInv x))))
        w.set i (w.getD i 0 ^^^ e)) c
      if (rsSyndromes r).all (fun v => v == 0) then some (r, true) else none

/-- The bytes of a list at even (odd) places. -/
def evens : List Nat → List Nat
  | [] => []
  | [a] => [a]
  | a :: _ :: r => a :: evens r

/-- Joins two lists byte by byte. -/
def interleave : List Nat → List Nat → List Nat
  | a :: p, b :: q => a :: b :: interleave p q
  | _, _ => []

/-- Adds the parity of R354 to the first 272 bytes of a frame. -/
def fecEncode (bs : List Byte) : List Byte :=
  let v := bs.map (fun b => b.toNat)
  bs ++ (rsParity (evens v) ++ rsParity (evens (v.drop 1))).map (fun n => BitVec.ofNat 8 n)

/-- The first 272 bytes of a received frame, corrected, and whether anything was corrected; none when a codeword is uncorrectable
or the frame has no 288 bytes. -/
def fecDecode (raw : List Byte) : Option (List Byte × Bool) :=
  let v := raw.map (fun b => b.toNat)
  if raw.length ≠ 288 then none
  else match rsDecode (evens (v.take 272) ++ sub' v 272 8), rsDecode (evens ((v.take 272).drop 1) ++ sub' v 280 8) with
    | some a, some b => some ((interleave (a.1.take 136) (b.1.take 136)).map (fun n => BitVec.ofNat 8 n), a.2 || b.2)
    | _, _ => none
where
  sub' (l : List Nat) (off n : Nat) : List Nat := (l.drop off).take n

/-! ## CRC-32C (R356) -/

/-- One byte of a reflected CRC with polynomial 0x1EDC6F41, `k` bits to go. -/
def crc32cBits : Nat → Nat → Nat
  | 0, c => c
  | k + 1, c => crc32cBits k (if c % 2 = 1 then c / 2 ^^^ 0x82F63B78 else c / 2)

/-- CRC-32C (R356). -/
def crc32c (bs : List Byte) : Nat :=
  (bs.foldl (fun c b => crc32cBits 8 (c ^^^ b.toNat)) 0xFFFFFFFF) ^^^ 0xFFFFFFFF

/-! ## Frames (R355) -/

/-- The fields a port sets on a frame it sends, or reads of one it receives. -/
structure PortFields where
  seq   : Nat
  ack   : Nat
  nak   : Bool
  crvc  : Nat
  crcnt : Nat
  deriving DecidableEq, Repr

/-- The 288 bytes of a frame (R353 to R356). -/
def Frame.bytes (f : Frame) (p : PortFields) : List Byte :=
  let h := f.typ % 16 + p.seq % 4096 * 2 ^ 4 + p.ack % 4096 * 2 ^ 16 + b2n p.nak * 2 ^ 28 + f.vc % 8 * 2 ^ 29 +
    p.crvc % 8 * 2 ^ 32 + p.crcnt % 256 * 2 ^ 35 + f.dest % 4096 * 2 ^ 43 + f.dpart % 8 * 2 ^ 55 + f.mid % 4096 * 2 ^ 58 +
    f.fidx % 65536 * 2 ^ 70 + f.vbytes % 256 * 2 ^ 86 + b2n f.last * 2 ^ 94
  let head := leBytes 12 h
  let pl := padTo 256 f.payload
  fecEncode (head ++ leBytes 4 (crc32c (head ++ pl)) ++ pl)

/-- The Gray-coded PAM4 level of two bits (R353): neighbouring levels differ in one bit. -/
def grayLevel (b : Nat) : Nat := match b % 4 with | 0 => 0 | 1 => 1 | 3 => 2 | _ => 3

/-- The four PAM4 symbols of a byte, bits [1:0] first (R353). -/
def pam4 (b : Byte) : List Nat := (List.range 4).map (fun i => grayLevel (b.toNat / 4 ^ i))

/-- What each lane of a port carries of a frame (R353): byte i goes on logical lane i mod W, the bytes of a lane in ascending i. Lanes
are named by their physical numbers, logical order first. -/
def stripe (lanes : List Nat) (raw : List Byte) : List (Nat × List Nat) :=
  lanes.zipIdx.map (fun x =>
    (x.1, ((raw.zipIdx.filter (fun b => b.2 % lanes.length == x.2)).map (fun b => pam4 b.1)).flatten))

/-- A received frame: its fields, and whether the FEC corrected it; none when its FEC is uncorrectable or its CRC wrong (R359). -/
def parseFrame (raw : List Byte) : Option (Frame × PortFields × Bool) :=
  match fecDecode raw with
  | none => none
  | some (bs, fixed) =>
    let h := num bs 0 12
    let pl := bs.drop 16
    if num bs 12 4 ≠ crc32c (bs.take 12 ++ pl) then none
    else some
      (⟨h % 16, bits h 29 3, bits h 43 12, bits h 55 3, bits h 58 12, bits h 70 16, bits h 86 8, bit h 94, pl⟩,
       ⟨bits h 4 12, bits h 16 12, bit h 28, bits h 32 3, bits h 35 8⟩, fixed)

/-- Frame types (R357): DATA. -/
def tyData : Nat := 1
/-- HEAD. -/
def tyHead : Nat := 2
/-- CTRL. -/
def tyCtrl : Nat := 3
/-- ALIGN. -/
def tyAlign : Nat := 4
/-- TRAIN. -/
def tyTrain : Nat := 5
/-- CREDIT. -/
def tyCredit : Nat := 6

/-- Whether frames of a type take a SEQ and are replayed (R357). -/
def replayable (typ : Nat) : Bool := typ == 1 || typ == 2 || typ == 3 || typ == 6

/-- Whether a frame type is reserved, which the receiver treats as an error (R357). -/
def typReserved (typ : Nat) : Bool := decide (7 ≤ typ)

/-- Whether frames of a type are routed (R357). -/
def routed (typ : Nat) : Bool := typ == 1 || typ == 2 || typ == 3

/-- A frame of the link layer itself. -/
def plainFrame (typ : Nat) (payload : List Byte) : Frame := ⟨typ, 0, 0, 0, 0, 0, 0, false, payload⟩

/-! ## Messages (R366) -/

/-- The 64 message bytes of a HEAD or CTRL frame. -/
def CtlMsg.bytes (m : CtlMsg) : List Byte :=
  leBytes 1 m.kind ++ leBytes 1 (m.spart % 8) ++ leBytes 2 (m.srcc % 4096) ++ leBytes 2 m.group ++ leBytes 1 m.status ++
    leBytes 1 m.flags ++ leBytes 8 m.addr ++ leBytes 8 m.len ++ leBytes 4 m.gseq ++ leBytes 4 m.sig ++ leBytes 8 m.step ++
    leBytes 2 m.rso ++ leBytes 1 m.rslot ++ leBytes 1 0 ++ leBytes 4 m.xfer ++ leBytes 8 m.cmdid ++ leBytes 8 0

/-- Reads the message bytes of a HEAD or CTRL frame. -/
def CtlMsg.of (b : List Byte) : CtlMsg :=
  { kind := num b 0 1, spart := num b 1 1 % 8, srcc := num b 2 2 % 4096, group := num b 4 2 % 4096, status := num b 6 1,
    flags := num b 7 1, addr := num b 8 8, len := num b 16 8, gseq := num b 24 4, sig := num b 28 4, step := num b 32 8,
    rso := num b 40 2, rslot := num b 42 1 % 8, xfer := num b 44 4, cmdid := num b 48 8 }

/-- A message with every field 0. -/
def CtlMsg.zero : CtlMsg := ⟨0, 0, 0, 0, 0, 0, 0, 0, 0, 0, 0, 0, 0, 0, 0⟩

/-- The kinds of messages. -/
def kPut : Nat := 0
/-- QPUT. -/
def kQput : Nat := 1
/-- CDATA. -/
def kCdata : Nat := 2
/-- READY. -/
def kReady : Nat := 3
/-- GRANT. -/
def kGrant : Nat := 4
/-- LANDACK. -/
def kLandack : Nat := 5
/-- REPLY. -/
def kReply : Nat := 6
/-- NOTICE. -/
def kNotice : Nat := 7

end Sys2Proof.Machine
end

