-- ==== Sys2Proof/Machine/Links.lean ====
section
/-!
DEFINITION. The torus ports (R348 to R363): sending frames, the replay buffer, credits, routing, the egress switch wheels, and
training. Receiving frames stands in LinkRx.lean.
-/

set_option Elab.async false

namespace Sys2Proof.Machine

open Sys2Proof

/-- A torus port. -/
def State.port (s : State) (k : Nat) : LinkPort := Sparse.rd (fun _ => LinkPort.reset) k s.links

/-- Replaces a torus port. -/
def State.setPort (s : State) (k : Nat) (p : LinkPort) : State :=
  { s with links := Sparse.wr (fun _ => LinkPort.reset) k p s.links }

/-- STATE of LNK_STAT: 0 down, 1 training, 2 up, 3 retraining. -/
def State.linkState (s : State) (k : Nat) : Nat := s.fld F.lnkStat_STATE k

/-- The CE of an I/O die. -/
def State.ceOf (s : State) (d : Nat) : Ce := Sparse.rd (fun _ => Ce.reset) d s.ce

/-- Replaces the CE of an I/O die. -/
def State.setCe (s : State) (d : Nat) (c : Ce) : State := { s with ce := Sparse.wr (fun _ => Ce.reset) d c s.ce }

/-! ## Sending -/

/-- Sends the bytes of a frame on the active lanes of a port (R353). -/
def State.sendRaw (s : State) (k : Nat) (raw : List Byte) : State := s.send (.frame k raw (stripe (s.port k).lanes raw))

/-- Puts a frame on the line: the port's ACK and NAK go with it, and every 4,096th frame is an ALIGN frame (R357, R359). -/
def State.lineOut (s : State) (k : Nat) (f : Frame) (seq crvc crcnt : Nat) : State :=
  let p := s.port k
  let fields : PortFields := ⟨seq, p.rxSeq, p.nak, crvc, crcnt⟩
  let s1 := (s.sendRaw k (f.bytes fields)).setPort k { p with nak := false, sent := p.sent + 1 }
  if (p.sent + 2) % 4096 = 0 then
    let al := plainFrame tyAlign ((List.range 256).map Config.alignPattern)
    (s1.sendRaw k (al.bytes ⟨p.txSeq, p.rxSeq, false, 0, 0⟩)).setPort k { p with nak := false, sent := p.sent + 2 }
  else s1

/-- Sends a replayable frame: it takes the next SEQ, returns up to 255 owed credits of one virtual channel, and enters the replay
buffer (R357, R358, R361). -/
def State.sendFrame (s : State) (k : Nat) (f : Frame) : State :=
  let p := s.port k
  let vc := match p.owed with | (v, _) :: _ => v | [] => 0
  let n := min 255 (match p.owed with | (_, c) :: _ => c | [] => 0)
  let seq := p.txSeq
  let p1 := { p with
    txSeq := (seq + 1) % 4096
    replay := p.replay ++ [⟨f, seq, vc, n⟩]
    owed := if n = 0 then p.owed else Sparse.wr (fun _ => 0) vc (Sparse.rd (fun _ => 0) vc p.owed - n) p.owed }
  (s.setPort k p1).lineOut k f seq vc n

/-- Sends every unacknowledged frame again, in order, and counts the replay (R359, R360). -/
def State.replayAll (s : State) (k : Nat) : State :=
  let s1 := if (s.port k).replay.isEmpty then s else s.count F.lnkErrcnt_RETRIES k 1
  (s.port k).replay.foldl (fun t x => t.lineOut k x.frame x.seq x.crvc x.crcnt) s1

/-- Owed credits go back in CREDIT frames, one for each virtual channel. -/
def State.creditsOut (k : Nat) : Nat → State → State
  | 0, s => s
  | n + 1, s => if (s.port k).owed.isEmpty then s else State.creditsOut k n (s.sendFrame k (plainFrame tyCredit []))

/-- What the link layer sends after it received a frame: owed credits, else an IDLE frame when ACK moved or NAK is due. -/
def State.linkAnswer (s : State) (k : Nat) (moved : Bool) : State :=
  if s.linkState k ≠ 2 then s
  else if !(s.port k).owed.isEmpty then State.creditsOut k 16 s
  else if moved || (s.port k).nak then s.lineOut k (plainFrame 0 []) (s.port k).txSeq 0 0
  else s

/-- REPLAY_TIMEOUT (R359): ACK has not advanced for 4 us with frames outstanding. -/
def execReplayTimeout (k : Nat) (s : State) : Host.Outcome State Fault Refusal :=
  inRange (k < 6) (fun _ => .next (if s.linkState k = 2 then s.replayAll k else s))

/-! ## Routing and the switch (R361 to R363) -/

/-- Coordinate of an axis (0 X, 1 Y, 2 Z) in a packed form, X lowest. -/
def coordOf (c a : Nat) : Nat := bits c (4 * a) 4

/-- This device's coordinates, packed as DEST. -/
def State.ownCoord (s : State) : Nat := (s.reg .sysCoord 0).toNat % 4096

/-- The length of an axis. -/
def State.axisLen (s : State) (a : Nat) : Nat := bits (s.reg .sysCoord 0).toNat (12 + 4 * a) 4 + 1

/-- The first axis of the path to a destination, X before Y before Z; none when it is this device (R362). -/
def State.pathAxis (s : State) (dest : Nat) : Option Nat :=
  [0, 1, 2].find? (fun a => coordOf s.ownCoord a != coordOf dest a)

/-- The egress port towards a destination, and whether the hop crosses the wrap link of its axis (R362). -/
def State.route (s : State) (dest : Nat) : Option (Nat × Bool) :=
  match s.pathAxis dest with
  | none => none
  | some a =>
    let l := s.axisLen a
    let x := coordOf s.ownCoord a
    let d := (coordOf dest a + l - x) % l
    if d ≤ l - d then some (2 * a, decide (x + 1 = l)) else some (2 * a + 1, decide (x = 0))

/-- The virtual channel of a frame after a hop: the even one of its pair on a new axis, the odd one once it has crossed the wrap
link of the axis (R362). -/
def vcAfter (from_ : Option Nat) (vc k : Nat) (wrap : Bool) : Nat :=
  if 6 ≤ vc then vc
  else
    let same := match from_ with | some j => j / 2 == k / 2 | none => false
    if wrap then vc / 2 * 2 + 1 else if same then vc else vc / 2 * 2

/-- The order in which the virtual channels of a source are looked at (R363). -/
def vcOrder : List Nat := [4, 5, 6, 2, 3, 0, 1]

/-- The source that entry `i` of the switch wheel of port `k` names (R363, R386). -/
def State.switchEntry (s : State) (k i : Nat) : Nat := bits (s.reg .lnkSwtab (32 * k + i / 8)).toNat (4 * (i % 8)) 4

/-- The frames a switch source holds: an ingress port's, or a CE's. Sage sends none (log entry 23). -/
def State.sourceFrames (s : State) (src : Nat) : List Frame :=
  if src < 6 then (s.port src).buf else if src < 8 then (s.ceOf (src - 6)).out else []

/-- The port a source's frames came in by. -/
def sourcePort (src : Nat) : Option Nat := if src < 6 then some src else none

/-- Whether a frame of a source may leave by port `k` on virtual channel `vc` with a credit for the channel it changes to. -/
def State.mayLeave (s : State) (src k vc : Nat) (f : Frame) : Bool :=
  match s.route f.dest with
  | none => false
  | some (e, wrap) =>
    e == k && f.vc == vc &&
      decide (0 < Sparse.rd (fun _ => 0) (vcAfter (sourcePort src) vc k wrap) (s.port k).credit)

/-- The frame of a source that an egress takes (R363). -/
def State.pickFrame (s : State) (src k : Nat) : Option Frame :=
  vcOrder.findSome? (fun vc => (s.sourceFrames src).find? (s.mayLeave src k vc))

/-- Takes a frame out of its source; a frame that leaves an ingress buffer returns its credit (R361). -/
def State.takeFrame (s : State) (src : Nat) (f : Frame) : State :=
  if src < 6 then
    let p := s.port src
    s.setPort src { p with buf := p.buf.erase f,
                           owed := Sparse.wr (fun _ => 0) f.vc (Sparse.rd (fun _ => 0) f.vc p.owed + 1) p.owed }
  else
    let c := s.ceOf (src - 6)
    s.setCe (src - 6) { c with out := c.out.erase f }

/-- One entry of the egress switch wheel of port `k` (R358, R361 to R363): an up port with fewer than 2,048 frames unacknowledged
takes one frame of the named source, if it holds one with credit. -/
def State.switchSlot (s : State) (k : Nat) : State :=
  let p := s.port k
  let src := s.switchEntry k p.slot
  let s1 := s.setPort k { p with slot := (p.slot + 1) % 256 }
  if s.linkState k ≠ 2 || decide (2048 ≤ p.replay.length) then s1
  else match s1.pickFrame src k with
    | none => s1
    | some f =>
      let wrap := match s1.route f.dest with | some r => r.2 | none => false
      let vc := vcAfter (sourcePort src) f.vc k wrap
      let s2 := s1.takeFrame src f
      let q := s2.port k
      let s3 := s2.setPort k { q with credit := Sparse.wr (fun _ => 0) vc (Sparse.rd (fun _ => 0) vc q.credit - 1) q.credit }
      let s4 := s3.sendFrame k { f with vc := vc }
      if src < 6 then s4.linkAnswer src false else s4

/-- SWITCH_SLOT (R363): an egress switch-wheel entry takes one frame from its named source if it holds one with credit. -/
def execSwitchSlot (k : Nat) (s : State) : Host.Outcome State Fault Refusal :=
  inRange (k < 6) (fun _ => .next (s.switchSlot k))

/-! ## Training (R349 to R352) -/

/-- Posts LINK for a port (R350 to R352, R551). -/
def State.linkEvent (s : State) (k : Nat) : State :=
  let s1 := s.setFld F.lnkStat_DEGRADED k 1
  s1.event evLink St.linkDegraded none k (s1.reg .lnkStat k).toNat

/-- SYS_COORD VALID is set once the coordinates are loaded and every enabled port has passed stage 4 or gone down, as one without a
reference clock has (R352). -/
def State.settleCoord (s : State) : State :=
  if s.sage.coordIn && (List.range 6).all (fun k => !s.flag F.lnkCfg_ENABLE k || (s.port k).judged || (s.port k).noRef) then
    s.setFld F.sysCoord_VALID 0 1
  else s

/-- A port goes down with LINK_DEGRADED (R350, R352). -/
def State.linkDown (s : State) (k : Nat) (nbrFail : Bool) : State :=
  let s1 := (s.setFld F.lnkStat_STATE k 0).setFld F.lnkStat_NBRFAIL k (b2n nbrFail)
  ((s1.setPort k { s1.port k with stage := 0, lanes := [], judged := true }).linkEvent k).settleCoord

/-- Starts the training of an enabled port that is not up (R349). -/
def State.trainPort (s : State) (k : Nat) : State :=
  if s.flag F.lnkCfg_ENABLE k && s.linkState k == 0 && !(s.port k).noRef then
    (s.setFld F.lnkStat_STATE k 1).setPort k { s.port k with stage := 1, nbr := none }
  else s

/-- Starts the retraining of a port that is up (R351). -/
def State.retrainPort (s : State) (k : Nat) : State :=
  if s.linkState k ≠ 2 then s
  else
    let s1 := (s.setFld F.lnkStat_STATE k 3).count F.lnkErrcnt_RETRAINS k 1
    s1.setPort k { s1.port k with stage := 1, nbr := none, naks := 0 }

/-- What the far end of port `k` must report (R352): its coordinates and axis lengths as in SYS_COORD, and its port. -/
def State.expectedNbr (s : State) (k : Nat) : Nat :=
  let a := k / 2
  let l := s.axisLen a
  let x := coordOf s.ownCoord a
  let y := if k % 2 = 0 then (x + 1) % l else (x + l - 1) % l
  let far := if k % 2 = 0 then k + 1 else k - 1
  (s.reg .sysCoord 0).toNat % 2 ^ 24 - x * 2 ^ (4 * a) + y * 2 ^ (4 * a) + far * 2 ^ 24

/-- The credits a port holds at link up: the buffer sizes of R361. -/
def fullCredit : Sparse Nat := [(0, 512), (1, 512), (2, 512), (3, 512), (4, 64), (5, 64), (6, 32)]

/-- Numbers the frames of a replay buffer from 0. -/
def renumber (l : List TxFrame) : List TxFrame := l.zipIdx.map (fun x => { x.1 with seq := x.2 % 4096 })

/-- The port state at link up (R349 stage 5, R351): after a retraining everything is kept; after a training from down SEQ and ACK
begin anew at 0 and 4,095, and frames still unacknowledged are numbered again (log entry 24). -/
def LinkPort.up (p : LinkPort) (fresh : Bool) (lanes : List Nat) : LinkPort :=
  if fresh then
    { p with lanes := lanes, stage := 0, judged := true, txSeq := p.replay.length % 4096, replay := renumber p.replay, rxSeq := 4095,
             nak := false, nakDone := false, naks := 0, credit := fullCredit, owed := [] }
  else { p with lanes := lanes, stage := 0, judged := true, naks := 0 }

/-- The end of a training with the physical lanes that are good in both directions (R350 to R352). -/
def State.trainingDone (s : State) (k : Nat) (good : BitVec 18) : State :=
  let st := s.linkState k
  if st ≠ 1 ∧ st ≠ 3 then s
  else
    let lanes := (List.range 18).filter (fun i => bit good.toNat i)
    let s1 := s.setFld F.lnkStat_GOOD k good.toNat
    if lanes.length < 8 then s1.linkDown k false
    else if (s1.port k).nbr ≠ some (s1.expectedNbr k) then s1.linkDown k true
    else
      let half := decide (lanes.length < 16)
      let s2 := ((s1.setFld F.lnkStat_STATE k 2).setFld F.lnkStat_HALF k (b2n half)).setFld F.lnkStat_NBRFAIL k 0
      let s3 := s2.setPort k ((s2.port k).up (st == 1) (lanes.take (if half then 8 else 16)))
      let s4 := if lanes.length < 18 then s3.linkEvent k else s3
      (s4.replayAll k).settleCoord

/-- LINK_TRAINING_DONE (R350): selects lanes, checks the neighbour and brings the port up, degraded or down. -/
def execLinkTrainingDone (k : Nat) (good : BitVec 18) (s : State) : Host.Outcome State Fault Refusal :=
  inRange (k < 6) (fun _ => .next (s.trainingDone k good))

/-- LINK_RETRAIN_TRIGGER (R351): an active lane lost lock, or 32 successive NAKs arrived without ACK advancing. -/
def execLinkRetrainTrigger (k : Nat) (lockLost : Bool) (s : State) : Host.Outcome State Fault Refusal :=
  inRange (k < 6) (fun _ => .next (if lockLost || decide (32 ≤ (s.port k).naks) then s.retrainPort k else s))

/-- A training stage exceeds its limit (R349): stages 1 and 2 end; without an exchange of lanes the port has no lanes, and without
one of neighbours the check fails. -/
def State.stageTimeout (s : State) (k : Nat) : State :=
  let p := s.port k
  if s.linkState k ≠ 1 ∧ s.linkState k ≠ 3 then s
  else if p.stage < 3 then s.setPort k { p with stage := p.stage + 1 }
  else s.linkDown k (p.stage == 4)

/-- TRAINING_STAGE_TIMEOUT (R349): a training stage that exceeds its limit ends. -/
def execTrainingStageTimeout (k : Nat) (s : State) : Host.Outcome State Fault Refusal :=
  inRange (k < 6) (fun _ => .next (s.stageTimeout k))

/-- LINK_TRAIN_RETRY (R350): a down port tries training again every 1 s. -/
def execLinkTrainRetry (k : Nat) (s : State) : Host.Outcome State Fault Refusal :=
  inRange (k < 6) (fun _ => .next (s.trainPort k))

/-- A write of LNK_CFG (R386): a port with ENABLE = 0 is not used; RETRAIN trains it now. -/
def State.writeLnkCfg (s : State) (k : Nat) (v : Word) : State :=
  let s1 := s.setFld F.lnkCfg_ENABLE k (v.toNat % 2)
  if v.toNat % 2 = 0 then ((s1.setFld F.lnkStat_STATE k 0).setPort k { s1.port k with stage := 0, lanes := [] }).settleCoord
  else if bit v.toNat 1 then (if s1.linkState k = 2 then s1.retrainPort k else s1.trainPort k)
  else s1

/-- LNK_RETRAIN (R386): a write of RETRAIN to LNK_CFG retrains the port now. -/
def execLnkRetrain (who : Requester) (n : Nat) (v : Word) (s : State) : Host.Outcome State Fault Refusal :=
  inRange (n < 6) (fun _ => .next (s.gated who .lnkCfg n (s.writeLnkCfg n v)))

end Sys2Proof.Machine
end

