-- ==== Sys2Proof/Machine/Birsan.lean ====
section
/-!
DEFINITION. The Birsan transport (R392 to R406): packets, handshakes, data and acknowledgement, loss, paths and congestion control.
Log entry 30 says what the manual leaves open in the handshake, entry 31 what it leaves open in the transport.
-/

set_option Elab.async false

namespace Sys2Proof.Machine

open Sys2Proof

/-- The session with an identifier. -/
def State.session (s : State) (sid : Nat) : Option Session := s.birsan.sessions.find? (fun x => x.sid == sid)

/-- Replaces a session. -/
def State.setSession (s : State) (x : Session) : State :=
  { s with birsan := { s.birsan with sessions := s.birsan.sessions.map (fun y => if y.sid = x.sid then x else y) } }

/-- `n` fresh free bytes (log entry 5). -/
def State.freshBytes (s : State) (n : Nat) : List Byte := (List.range n).map (Config.freeByte s.free)

/-- A fresh private scalar (log entry 5). -/
def State.freshScalar (s : State) : Nat := 1 + Config.freeNat s.free 0 % (pOrder - 1)

/-! ## Packets (R392 to R394) -/

/-- Packet types (R393). -/
def bCookie : Nat := 0
/-- INIT. -/
def bInit : Nat := 1
/-- RESP. -/
def bResp : Nat := 2
/-- CONFIRM. -/
def bConfirm : Nat := 3
/-- DATA. -/
def bData : Nat := 4
/-- ACK. -/
def bAck : Nat := 5
/-- CLOSE. -/
def bClose : Nat := 6

/-- The 32-byte header (R392). -/
def birHeader (typ flags path sid ctr psn ts tse : Nat) : List Byte :=
  leBytes 1 (16 + typ) ++ leBytes 1 flags ++ leBytes 2 path ++ leBytes 4 sid ++ leBytes 8 ctr ++ leBytes 4 psn ++ leBytes 4 ts ++
    leBytes 4 tse ++ leBytes 4 0

/-- The UDP payload of an encrypted packet: header, `clear` bytes, ciphertext and tag (R392, R394). -/
def sealPacket (k : KeyPair) (hdr clear plain : List Byte) : List Byte :=
  let key := k.tx.take 32
  let nonce := k.tx.drop 32 ++ sub hdr 8 8
  let c := gcmCrypt key nonce plain
  hdr ++ clear ++ c ++ gcmTag key nonce hdr c

/-- Puts a value into a list that falls strictly. -/
def insertDesc (v : Nat) : List Nat → List Nat
  | [] => [v]
  | a :: r => if a < v then v :: a :: r else a :: insertDesc v r

/-- Opens a packet whose ciphertext starts at byte `off`: the plaintext and the keys with CTR noted; none when its CTR is below the
window or was seen, or its tag fails (R394). -/
def openPacket (k : KeyPair) (body : List Byte) (off : Nat) : Option (List Byte × KeyPair) :=
  let ctr := num body 8 8
  let below := decide (4096 ≤ k.seen.length) && decide (ctr < k.seen.getLastD 0)
  let key := k.rx.take 32
  let nonce := k.rx.drop 32 ++ sub body 8 8
  let c := sub body off (body.length - off - 16)
  if below || k.seen.contains ctr || decide (body.length < off + 16) || gcmTag key nonce (body.take 32) c != body.drop (body.length - 16)
  then none
  else some (gcmCrypt key nonce c, { k with seen := (insertDesc ctr k.seen).take 4096 })

/-- Opens a packet of a session under its keys, or under those that a rekey replaced. A packet under the keys of a rekey that this end
started confirms them: they take effect (R399). -/
def Session.open_ (x : Session) (body : List Byte) : Option (List Byte × Session) :=
  match x.keys.bind (fun k => openPacket k body 32), x.old.bind (fun k => openPacket k body 32),
    x.trial.bind (fun k => openPacket k body 32) with
  | some (p, k), _, _ => some (p, { x with keys := some k })
  | none, some (p, k), _ => some (p, { x with old := some k })
  | none, none, some (p, k) => some (p, { x with keys := some k, old := x.keys, trial := none, state := 2 })
  | none, none, none => none

/-! ## Paths (R395, R404, R405) -/

/-- A path as it opens. -/
def BirPath.fresh (idx : Nat) (p : Peer) : BirPath := ⟨idx, p, 65536, none, 0, [], 0, 0, none, 0⟩

/-- The path with an index. -/
def Session.path (x : Session) (i : Nat) : Option BirPath := x.paths.find? (fun p => p.idx == i)

/-- Replaces a path. -/
def Session.setPath (x : Session) (p : BirPath) : Session :=
  { x with paths := x.paths.map (fun q => if q.idx = p.idx then p else q) }

/-- A path opens with the first authenticated packet that arrives on it, on a port of the session's port set (R395; log entry 31). -/
def Session.notePath (x : Session) (i : Nat) (p : Peer) : Session :=
  if (x.path i).isSome ∨ 64 ≤ i ∨ !x.ports.contains p.port then x else { x with paths := x.paths ++ [BirPath.fresh i p] }

/-- Bytes in flight on a path: unacknowledged packets that are not lost. -/
def Session.inFlight (x : Session) (i : Nat) : Nat :=
  x.unacked.foldl (fun n q => if q.path = i && !q.lost then n + q.size else n) 0

/-- The MTU of a path's port. -/
def State.pathMtu (s : State) (p : BirPath) : Nat := s.portMtu p.peer.port

/-- CWND between one MTU and 16 MiB (R405). -/
def State.withCwnd (s : State) (p : BirPath) (v : Nat) : BirPath := { p with cwnd := min (16 * mib) (max (s.pathMtu p) v) }

/-- A decrease of CWND, at most one per SRTT (R405). -/
def State.cutPath (s : State) (p : BirPath) (v : Nat) : BirPath :=
  let may := match p.cutAt with | none => true | some t => decide (t + p.srtt.getD 0 ≤ s.now10)
  if may then { s.withCwnd p v with cutAt := some s.now10 } else p

/-- The estimator of RFC 6298, fed a sample (R403). -/
def BirPath.estimate (p : BirPath) (r : Nat) : BirPath :=
  match p.srtt with
  | none => { p with srtt := some r, rttvar := r / 2 }
  | some t => { p with srtt := some ((7 * t + r) / 8), rttvar := (3 * p.rttvar + (max t r - min t r)) / 4 }

/-- The retransmission timer of a packet on a path that expired `n` times before: max(100 us, SRTT + 4 RTTVAR), doubled at each expiry
up to 100 ms (R403). -/
def BirPath.timer (p : BirPath) (n : Nat) : Nat :=
  let t := match p.srtt with | some t => t + 4 * p.rttvar | none => Config.firstTimer
  min 10000000 (max 10000 t * 2 ^ n)

/-- The time between two probes of a session whose peer has no room: the path's SRTT (R406). -/
def BirPath.probe (p : BirPath) : Nat := p.srtt.getD (max 1 Config.firstTimer)

/-- Smallest RTT sample of the last 10 s (R405). -/
def BirPath.base (p : BirPath) : Nat := p.samples.foldl (fun m x => min m x.2) ((p.samples.head?.map (fun x => x.2)).getD 0)

/-- Keeps a sample, dropping those older than 10 s. -/
def BirPath.sample (p : BirPath) (now r : Nat) : BirPath :=
  { p with samples := p.samples.filter (fun x => decide (now ≤ x.1 + 1000000000)) ++ [(now, r)] }

/-! ## Closing (R400, R406) -/

/-- A session closes: undelivered messages and paths go, and its running requests go on without it (R406, R412). -/
def State.closeSession (s : State) (sid : Nat) : State :=
  let b := s.birsan
  let shut := fun (x : Session) => { x with state := 0, keys := none, old := none, trial := none, hs := none, paths := [], unacked := [], txq := [], parts := [] }
  { s with
    birsan := { b with sessions := (b.sessions.map (fun x => if x.sid = sid then shut x else x)).filter (fun x =>
      x.state != 0 || !x.inbox.isEmpty) }
    sceman := { s.sceman with requests := s.sceman.requests.map (fun r => if r.sid = sid && r.state == 1 then { r with away := true } else r) } }

/-- Sends an encrypted packet of a session on a path, taking the next CTR. -/
def State.sealOut (s : State) (x : Session) (p : BirPath) (typ flags psn tse : Nat) (plain : List Byte) : State :=
  match x.keys with
  | none => s
  | some k =>
    let hdr := birHeader typ flags p.idx x.psid k.ctr psn (s.now10 % 2 ^ 32) tse
    (s.setSession { x with keys := some { k with ctr := k.ctr + 1 } }).sendUdp p.peer p.idx (sealPacket k hdr [] plain)

/-- The first open path of a session whose port is up. -/
def State.anyPath (s : State) (x : Session) : Option BirPath := x.paths.find? (fun p => s.ethUp p.peer.port)

/-- The device closes a session: CLOSE goes out, and it is CLOSED (R400). -/
def State.sendClose (s : State) (x : Session) : State :=
  let s1 := match s.anyPath x with | some p => s.sealOut x p bClose 0 0 0 [] | none => s
  s1.closeSession x.sid

/-! ## Handshakes (R396 to R400) -/

/-- The 32-byte cookie of an initiator's address and port under a secret (R396). -/
def cookieOf (secret addr : List Byte) (sport : Nat) : List Byte := (hmac384 secret (addr ++ leBytes 2 sport)).take 32

/-- The most handshake bytes that a packet carries over a port's MTU. -/
def State.handRoom (s : State) (e : Nat) : Nat := s.portMtu e - 40 - 8 - 32 - 129 - 36 - 16

/-- Cuts a handshake body into its fragments, at most 8 and none above the MTU; a body that they cannot carry is not sent (R389, R396;
log entry 30). -/
def State.handParts (s : State) (e : Nat) (b : List Byte) : List (List Byte) :=
  if 8 * s.handRoom e < b.length then [] else pieces (s.handRoom e) 8 b

/-- The keys of a derivation: the initiator's direction first (R398; log entry 30). -/
def deriveKeys (secret salt info : List Byte) (initiator : Bool) : KeyPair :=
  let k := hkdf secret salt info 72
  if initiator then ⟨k.take 36, k.drop 36, 0, []⟩ else ⟨k.drop 36, k.take 36, 0, []⟩

/-- The bytes of an ASCII string. -/
def ascii (t : String) : List Byte := t.toList.map (fun c => BitVec.ofNat 8 c.toNat)

/-- Ephemeral key, random value and chain of a handshake (R397). -/
def handBody (eph : Nat) (rnd chain : List Byte) : List Byte := ecPublic eph ++ rnd ++ leBytes 4 chain.length ++ chain

/-- A failed certificate or signature check posts SIG_INVALID (R400, R551). -/
def State.sigInvalid (s : State) (sid : Nat) : State := s.event evSignature St.sigInvalid none 0 sid

/-- Sends the first INIT of a handshake: no cookie, and exactly 1,232 bytes of UDP payload (R396, R397). -/
def State.sendFirst (s : State) (sid psid : Nat) (p : Peer) : State :=
  s.sendUdp p 0 (birHeader bInit 0 0 psid 0 sid (s.now10 % 2 ^ 32) 0 ++ leBytes 1 0 ++ leBytes 1 1 ++ leBytes 2 0 ++
    List.replicate 32 0x00#8 ++ List.replicate 1164 0x00#8)

/-- Sends the INIT fragments of a handshake that carries a cookie (R397): the identifier of this end stands in the PSN field (log entry
30). -/
def State.sendInit (s : State) (sid psid : Nat) (h : Handshake) : State :=
  let body := handBody h.eph h.rnd s.sage.chain
  let ps := s.handParts h.peer.port body
  ps.zipIdx.foldl (fun t x =>
    let f := leBytes 1 x.2 ++ leBytes 1 ps.length ++ leBytes 2 0 ++ h.cookie ++ x.1
    t.sendUdp h.peer 0 (birHeader bInit 0 0 psid 0 sid (t.now10 % 2 ^ 32) 0 ++ f)) s

/-- A received first INIT is answered with a COOKIE; no state is kept (R396, R397). -/
def State.sendCookie (s : State) (e : Nat) (x : RxPkt) : State :=
  s.sendUdp (x.peer e) (num x.body 2 2) (birHeader bCookie 0 (num x.body 2 2) (num x.body 16 4) 0 0 (s.now10 % 2 ^ 32) 0 ++
    cookieOf s.birsan.cookie x.src x.sport)

/-- Joins the fragments of a handshake message; none while one is missing. -/
def joinFrags (n : Nat) (fs : List (Nat × List Byte)) : Option (List Byte) :=
  ((List.range n).mapM (fun i => (fs.find? (fun f => f.1 == i)).map (fun f => f.2))).map List.flatten

/-- Keeps a fragment once. -/
def keepFrag (fs : List (Nat × List Byte)) (i : Nat) (b : List Byte) : List (Nat × List Byte) :=
  if fs.any (fun f => f.1 == i) then fs else fs ++ [(i, b)]

/-- The certificates, in DER, that lie back to back in bytes. -/
def derChain : Nat → List Byte → List Byte
  | 0, _ => []
  | n + 1, b =>
    if num b 0 2 = 0x8230 then
      let k := 4 + (num b 2 1 * 256 + num b 3 1)
      if b.length < k then [] else b.take k ++ derChain n (b.drop k)
    else []

/-- The leaf certificate of a chain: what stands for the peer (R395). -/
def leafOf (chain : List Byte) : List Byte := derChain 1 chain

/-- Open sessions and handshakes with a peer's certificate. -/
def Birsan.ofPeer (b : Birsan) (chain : List Byte) : List Session :=
  b.sessions.filter (fun y => y.state != 0 && leafOf y.chain == leafOf chain)

/-- Whether no further session may open: 4,096 are not CLOSED (R395). -/
def Birsan.full (b : Birsan) : Bool := decide (4096 ≤ (b.sessions.filter (fun y => y.state != 0)).length)

/-- The port set of a session whose handshake runs on a port (R395; log entry 31). -/
def portSet (sid port : Nat) : List Nat := (List.range 4).filter (fun e => e == port || bit (Config.sessionPorts sid) e)

/-- A session whose handshake has just begun on a port. -/
def Session.fresh (sid psid : Nat) (chain : List Byte) (port : Nat) : Session :=
  { trial := none, cookie := List.replicate 32 0x00#8, ports := portSet sid port, sends := 0, probeAt := 0, sid := sid, psid := psid, state := 1, chain := chain, role := Config.chainRole chain, tenant := (Config.chainTenant chain).toNat,
    keys := none, old := none, hs := none, paths := [], psn := 0, unacked := [], txq := [], msgId := 0, rwnd := 0, cum := 0,
    beyond := [], since := 0, owed := none, parts := [], inbox := [] }

/-- Step 4 of R396: a whole INIT body is verified and answered with RESP. A session of the same peer that the INIT names is rekeyed. -/
def State.answerInit (s : State) (x : InitPart) (body : List Byte) : State :=
  let chain := sub body 133 (num body 129 4)
  let peerPub := body.take 97
  let re := (s.session x.sid).filter (fun y => 2 ≤ y.state && leafOf y.chain == leafOf chain)
  let full := s.birsan.full || decide (16 ≤ (s.birsan.ofPeer chain).length)
  let sid := match re with | some y => y.sid | none => s.birsan.nextSid
  let eph := s.freshScalar
  if re.isNone && full then s
  else if chain.length ≠ num body 129 4 || !Config.chainOk s.sceman.anchors chain then s.sigInvalid sid
  else match ecdh eph peerPub with
    | none => s.sigInvalid sid
    | some secret =>
      let rnd := s.draw.freshBytes 32
      let salt := sub body 97 32 ++ rnd
      let own := handBody eph rnd s.sage.chain
      let sig := ecdsaSign (Config.keyScalar s.sage.aliasSeed) s.draw.draw.freshScalar (sha384 (body ++ own))
      let k := deriveKeys secret salt (ascii "birsan hs") false
      let ps := s.handParts x.peer.port (own ++ sig)
      let h : Handshake := ⟨false, 3, x.peer, eph, rnd, [], body ++ own ++ sig, some { k with ctr := ps.length }, secret, salt, []⟩
      let s1 := s.draw.draw.draw
      let s2 := match re with
        | some y => s1.setSession { y with state := 3, hs := some h }
        | none => { s1 with birsan := { s1.birsan with
            nextSid := (sid + 1) % 2 ^ 32
            sessions := s1.birsan.sessions ++ [{ Session.fresh sid x.psid chain x.peer.port with hs := some h }] } }
      ps.zipIdx.foldl (fun t f =>
        let hdr := birHeader bResp 0 0 x.psid f.2 sid (t.now10 % 2 ^ 32) 0
        t.sendUdp x.peer 0 (sealPacket { k with ctr := f.2 } hdr (own.take 129) (leBytes 1 f.2 ++ leBytes 1 ps.length ++ f.1))) s2

/-- Drops INITs that have been incomplete for 1 s: their handshakes end (R400). -/
def Birsan.prune (b : Birsan) (now : Nat) : Birsan := { b with inits := b.inits.filter (fun p => decide (now < p.since + 100000000)) }

/-- A fragment of an INIT with a valid cookie is kept; the last one starts the handshake, at most 64 per second (R397, R400). -/
def State.keepInit (s : State) (e : Nat) (x : RxPkt) : State :=
  let b := s.birsan.prune s.now10
  let f := x.body.drop 32
  let i := num f 0 1
  let n := num f 1 1
  let made := if b.second = s.nowSec then b.shakes else 0
  if n = 0 ∨ 8 < n ∨ n ≤ i ∨ 64 ≤ made then s.authFail e
  else
    let psid := num x.body 16 4
    let mine := fun (p : InitPart) => p.peer.addr == x.src && p.sport == x.sport && p.psid == psid
    let old := (b.inits.find? mine).getD ⟨x.peer e, x.sport, psid, num x.body 4 4, n, s.now10, []⟩
    let p := { old with frags := keepFrag old.frags i (f.drop 36) }
    let rest := b.inits.filter (fun q => !mine q)
    match joinFrags p.cnt p.frags with
    | none => { s with birsan := { b with inits := rest ++ [p] } }
    | some body => { s with birsan := { b with inits := rest, second := s.nowSec, shakes := made + 1 } }.answerInit p body

/-- The outcome of a received INIT (R397). -/
def State.onInit (e : Nat) (s : State) (x : RxPkt) : State :=
  let c := sub x.body 36 32
  if x.body.length < 68 then s.authFail e
  else if allZero c then (if x.body.length < 1232 then s.authFail e else s.sendCookie e x)
  else if c = cookieOf s.birsan.cookie x.src x.sport ∨ c = cookieOf s.birsan.cookieO x.src x.sport then s.keepInit e x
  else s.authFail e

/-- INIT (R397): a received INIT is answered with a COOKIE, kept as a fragment, or dropped. -/
def execInit (e : Nat) (s : State) : Host.Outcome State Fault Refusal :=
  inRange (e < 4) (fun _ => .next (s.withRx e 17 (State.onInit e)))

/-- COOKIE (R396): a received COOKIE lets the initiator send INIT again with the cookie. -/
def execCookie (e : Nat) (s : State) : Host.Outcome State Fault Refusal :=
  inRange (e < 4) (fun _ => .next (s.withRx e 16 (fun s x =>
    match (s.session (num x.body 4 4)).bind (fun y => y.hs.map (fun h => (y, h))) with
    | some (y, h) =>
      if h.initiator && h.step ≤ 2 && x.body.length == 64 then
        let g := { h with step := 2, cookie := x.body.drop 32 }
        (s.setSession { y with hs := some g, cookie := g.cookie }).sendInit y.sid y.psid g
      else s.authFail e
    | none => s.authFail e)))

/-- New session keys take effect; keys they replace still open packets until OLD_KEY_EXPIRY (R398 to R400). -/
def Session.opened (y : Session) (h : Handshake) (log : List Byte) : Session :=
  { y with
    state := 2, hs := none, trial := none, old := y.keys
    keys := some (deriveKeys h.secret h.salt (ascii "birsan data" ++ sha384 log) h.initiator)
    paths := if y.paths.isEmpty then [BirPath.fresh 0 h.peer] else y.paths }

/-- A handshake ends: CLOSED, or, under a rekey, the session goes on with the keys it has (R400). -/
def State.dropShake (s : State) (y : Session) : State :=
  if y.state = 1 then s.closeSession y.sid
  else s.setSession { y with hs := none, state := if 2 ^ 39 ≤ (y.keys.map (fun k => k.ctr)).getD 0 then 3 else 2 }

/-- A whole RESP has verified. A new session is OPEN; under a rekey the new keys wait for a packet of the peer under them (R399). -/
def Session.confirmed (y : Session) (h : Handshake) (log : List Byte) : Session :=
  if y.keys.isNone then y.opened h log
  else { y with hs := none, trial := some (deriveKeys h.secret h.salt (ascii "birsan data" ++ sha384 log) h.initiator) }

/-- A whole RESP is verified by the initiator, which sends CONFIRM (R396). A peer with 16 sessions gets no further one (R395). -/
def State.finishResp (s : State) (y : Session) (h : Handshake) (psid : Nat) (body : List Byte) : State :=
  let n := num body 129 4
  let chain := sub body 133 n
  let own := body.take (133 + n)
  let sig := body.drop (133 + n)
  let mine := handBody h.eph h.rnd s.sage.chain
  let key := (List.range 97).map (Config.chainKey chain)
  if !Config.chainOk s.sceman.anchors chain || !ecdsaVerify key (sha384 (mine ++ own)) sig then (s.sigInvalid y.sid).dropShake y
  else if y.state = 1 ∧ 16 ≤ (s.birsan.ofPeer chain).length then s.dropShake y
  else
    let log := mine ++ body
    let c := ecdsaSign (Config.keyScalar s.sage.aliasSeed) s.freshScalar (sha384 log)
    let k := deriveKeys h.secret h.salt (ascii "birsan hs") true
    let z := { y with psid := psid, chain := chain, role := Config.chainRole chain, tenant := (Config.chainTenant chain).toNat }
    let hdr := birHeader bConfirm 0 0 psid 0 0 (s.now10 % 2 ^ 32) 0
    (s.draw.setSession (z.confirmed h (log ++ c))).sendUdp h.peer 0 (sealPacket k hdr [] (leBytes 1 0 ++ leBytes 1 1 ++ c))

/-- A RESP fragment: its clear bytes give the handshake keys, which open the rest (log entry 30). -/
def State.onResp (e : Nat) (s : State) (x : RxPkt) : State :=
  match (s.session (num x.body 4 4)).bind (fun y => y.hs.map (fun h => (y, h))) with
  | none => s.authFail e
  | some (y, h) =>
    if !h.initiator || h.step ≠ 2 then s.authFail e
    else match ecdh h.eph (sub x.body 32 97) with
      | none => s.authFail e
      | some secret =>
        let salt := h.rnd ++ sub x.body 129 32
        let k := { deriveKeys secret salt (ascii "birsan hs") true with seen := (h.keys.map (fun k => k.seen)).getD [] }
        match openPacket k x.body 161 with
        | none => s.authFail e
        | some (p, k1) =>
          let g := { h with keys := some k1, secret := secret, salt := salt, frags := keepFrag h.frags (num p 0 1) (p.drop 2) }
          match joinFrags (num p 1 1) g.frags with
          | none => s.setSession { y with hs := some g }
          | some body => s.finishResp y g (num x.body 16 4) body

/-- RESP (R396): a received RESP is verified by the initiator, which sends CONFIRM. -/
def execResp (e : Nat) (s : State) : Host.Outcome State Fault Refusal :=
  inRange (e < 4) (fun _ => .next (s.withRx e 18 (State.onResp e)))

/-- A CONFIRM fragment; the whole one is verified, and the session is OPEN (R396). -/
def State.onConfirm (e : Nat) (s : State) (x : RxPkt) : State :=
  match (s.session (num x.body 4 4)).bind (fun y => y.hs.map (fun h => (y, h))) with
  | none => s.authFail e
  | some (y, h) =>
    match (if h.step = 3 then h.keys else none).bind (fun k => openPacket k x.body 32) with
    | none => s.authFail e
    | some (p, k) =>
      let g := { h with keys := some k, frags := keepFrag h.frags (num p 0 1) (p.drop 2) }
      match joinFrags (num p 1 1) g.frags with
      | none => s.setSession { y with hs := some g }
      | some sig =>
        let body := h.log
        if ecdsaVerify ((List.range 97).map (Config.chainKey y.chain)) (sha384 body) sig then s.setSession (y.opened g (body ++ sig))
        else (s.sigInvalid y.sid).dropShake y

/-- CONFIRM (R396): a received CONFIRM is verified by the responder, and the session is OPEN. -/
def execConfirm (e : Nat) (s : State) : Host.Outcome State Fault Refusal :=
  inRange (e < 4) (fun _ => .next (s.withRx e 19 (State.onConfirm e)))

/-- HANDSHAKE_TIMEOUT (R400): a handshake that takes 1 s closes; an identifier of no session ends the INITs that have been incomplete
for 1 s. -/
def execHandshakeTimeout (sid : Nat) (s : State) : Host.Outcome State Fault Refusal :=
  .next (match s.session sid with
    | some y => if y.state = 1 ∨ y.hs.isSome then s.dropShake y else s
    | none => { s with birsan := s.birsan.prune s.now10 })

/-- COOKIE_SECRET_CHANGE (R396): the cookie secret changes, and the previous one is still accepted. -/
def execCookieSecretChange (s : State) : Host.Outcome State Fault Refusal :=
  .next { s.draw with birsan := { s.birsan with cookie := s.freshBytes 32, cookieO := s.birsan.cookie } }

/-- A handshake that this end starts, from step 3 of R396 with the cookie it holds, or from step 1 without one. -/
def State.startShake (s : State) (y : Session) (p : Peer) : State :=
  let held := !allZero y.cookie
  let h : Handshake := ⟨true, if held then 2 else 1, p, s.freshScalar, s.draw.freshBytes 32, y.cookie, [], none, [], [], []⟩
  let s1 := s.draw.draw.setSession { y with hs := some h }
  if held then s1.sendInit y.sid y.psid h else s1.sendFirst y.sid y.psid p

/-- A rekey starts: INIT with a fresh ephemeral key on the same SID, once a path is up (R399). -/
def State.startRekey (s : State) (y : Session) : State :=
  match s.anyPath y with
  | none => s.setSession { y with state := 3 }
  | some p => s.startShake { y with state := 3 } p.peer

/-- The device opens a session as initiator with a peer: CLOSED is left when INIT is sent (R396, R400). -/
def State.openSession (s : State) (sid : Nat) (p : Peer) : State :=
  if s.birsan.full || (s.session sid).isSome then s
  else
    let y := Session.fresh sid 0 [] p.port
    { s with birsan := { s.birsan with sessions := s.birsan.sessions ++ [y] } }.startShake y p

/-- REKEY (R399): CTR reaching 2^39 starts a new handshake, and 2^40 without new keys closes the session. A rekey that has no handshake
under way, since no path was up or since one failed, starts another. -/
def execRekey (sid : Nat) (s : State) : Host.Outcome State Fault Refusal :=
  .next (match s.session sid with
    | none => s
    | some y =>
      let c := (y.keys.map (fun k => k.ctr)).getD 0
      if 2 ≤ y.state ∧ 2 ^ 40 ≤ c then s.sendClose y
      else if (y.state = 2 ∨ y.state = 3 ∧ y.hs.isNone ∧ y.trial.isNone) ∧ 2 ^ 39 ≤ c then s.startRekey y
      else s)

/-- OLD_KEY_EXPIRY (R399): packets under the old keys are accepted until 1 ms after the first packet under the new keys. -/
def execOldKeyExpiry (sid : Nat) (s : State) : Host.Outcome State Fault Refusal :=
  .next (match s.session sid with
    | some y => if (y.keys.map (fun k => k.seen.isEmpty)).getD true then s else s.setSession { y with old := none }
    | none => s)

/-! ## Data and acknowledgement (R401, R402, R406) -/

/-- Bytes of receive buffer in use. -/
def Session.used (x : Session) : Nat :=
  x.parts.foldl (fun n m => m.parts.foldl (fun k p => k + p.2.length) n) 0 + x.inbox.foldl (fun n m => n + m.2.length) 0

/-- Runs of consecutive numbers of a rising list: first and count. -/
def runsOf : List Nat → List (Nat × Nat)
  | [] => []
  | a :: r => match runsOf r with
    | (b, n) :: t => if b = a + 1 then (a, n + 1) :: t else (a, 1) :: (b, n) :: t
    | [] => [(a, 1)]

/-- Distance from CUMPSN to a PSN, modulo 2^32. -/
def Session.ahead (x : Session) (psn : Nat) : Nat := (psn + 2 ^ 32 - x.cum % 2 ^ 32) % 2 ^ 32

/-- The plaintext of an ACK for a path (R402). -/
def Session.ackPlain (x : Session) (p : BirPath) : List Byte :=
  let runs := (runsOf (x.beyond.map x.ahead)).take 16
  leBytes 4 x.cum ++ leBytes 4 (Config.rxBuffer - ceilDiv x.used 4096) ++ leBytes 4 p.ceRx ++ leBytes 1 runs.length ++ leBytes 3 0 ++
    runs.flatMap (fun r => leBytes 4 (x.cum + r.1) ++ leBytes 4 r.2)

/-- Sends an ACK on the path of the packet that caused it, echoing its TS (R402). -/
def State.sendAck (s : State) (x : Session) (path ts : Nat) : State :=
  match x.path path with
  | none => s.setSession x
  | some p => s.sealOut { x with since := 0, owed := none } p bAck 0 0 ts (x.ackPlain p)

/-- Joins message pieces from `pos` on, until `len`. -/
def joinParts (ps : List (Nat × List Byte)) (len : Nat) : Nat → Nat → Option (List Byte)
  | 0, _ => none
  | n + 1, pos =>
    if len ≤ pos then some []
    else match ps.find? (fun p => decide (p.1 ≤ pos) && decide (pos < p.1 + p.2.length)) with
      | none => none
      | some p => (joinParts ps len n (p.1 + p.2.length)).map (fun r => p.2.drop (pos - p.1) ++ r)

/-- Places the bytes of a DATA packet; a message whose bytes have all arrived is delivered (R401). -/
def Session.place (x : Session) (id kind off len : Nat) (bs : List Byte) : Session :=
  let m := (x.parts.find? (fun p => p.id == id)).getD ⟨id, kind, len, []⟩
  let m1 := { m with parts := m.parts ++ [(off, bs)] }
  let rest := x.parts.filter (fun p => p.id != id)
  match joinParts m1.parts len (m1.parts.length + 1) 0 with
  | some whole => { x with parts := rest, inbox := x.inbox ++ [(kind, whole)] }
  | none => { x with parts := rest ++ [m1] }

/-- Puts a PSN among those beyond CUMPSN, in rising distance. -/
def insertBy (f : Nat → Nat) (v : Nat) : List Nat → List Nat
  | [] => [v]
  | a :: r => if f v < f a then v :: a :: r else a :: insertBy f v r

/-- Advances CUMPSN over PSNs that have arrived, `n` at most. -/
def Session.advanceCum : Nat → Session → Session
  | 0, x => x
  | n + 1, x =>
    match x.beyond with
    | a :: r => if a = x.cum then Session.advanceCum n { x with cum := (x.cum + 1) % 2 ^ 32, beyond := r } else x
    | [] => x

/-- Whether a DATA plaintext breaks the message rules (R406). -/
def Session.breaks (y : Session) (plain : List Byte) : Bool :=
  let len := num plain 8 4
  let known := y.parts.find? (fun p => p.id == num plain 0 4)
  decide (plain.length < 16) || decide (len < num plain 4 4 + (plain.length - 16)) || len == 0 ||
    (match known with | some p => p.len != len | none => false)

/-- A new PSN: its bytes are placed, and CUMPSN advances (R401, R402). -/
def Session.takePsn (y : Session) (psn : Nat) (plain : List Byte) : Session :=
  let z := y.place (num plain 0 4) (num plain 12 1) (num plain 4 4) (num plain 8 4) (plain.drop 16)
  Session.advanceCum (y.beyond.length + 1) { z with beyond := insertBy y.ahead psn y.beyond }

/-- A DATA packet that opened: duplicate PSNs write nothing new and are acknowledged; a violation closes the session (R401, R402,
R406). With PSNs modulo 2^32 none is older than CUMPSN - 2^31. -/
def State.takeData (s : State) (y : Session) (x : RxPkt) (plain : List Byte) : State :=
  let path := num x.body 2 2
  let ts := num x.body 20 4
  let psn := num x.body 16 4
  let a := y.ahead psn
  let dup := (a / 2 ^ 31 != 0) || y.beyond.contains psn
  if y.breaks plain then ((s.setSession y).sendClose y).event evSession St.ok none y.sid 10
  else
    let y1 := match y.path path with
      | some p => if x.ce then y.setPath { p with ceRx := (p.ceRx + 1) % 2 ^ 32 } else y
      | none => y
    let y2 := if dup then y1 else y1.takePsn psn plain
    let y3 : Session := { y2 with since := y2.since + 1, owed := if y2.owed.isSome then y2.owed else some (path, ts) }
    if dup || decide (8 ≤ y3.since) || a != 0 || bit (num x.body 1 1) 1 then s.sendAck y3 path ts else s.setSession y3

/-- Handles a packet of an OPEN or REKEY session that opens under its keys; any other is counted (R394). -/
def State.withOpen (s : State) (e : Nat) (x : RxPkt) (go : State → Session → List Byte → State) : State :=
  match (s.session (num x.body 4 4)).filter (fun y => 2 ≤ y.state) with
  | none => s.authFail e
  | some y => match y.open_ x.body with
    | none => s.authFail e
    | some (p, y1) => go s (y1.notePath (num x.body 2 2) (x.peer e)) p

/-- ACK_DELAY_EXPIRY (R402): 20 us after the oldest unacknowledged DATA packet arrived, an ACK is sent. -/
def execAckDelayExpiry (sid : Nat) (s : State) : Host.Outcome State Fault Refusal :=
  .next (match s.session sid with
    | some y => match y.owed with | some (p, t) => s.sendAck y p t | none => s
    | none => s)

/-- Whether an ACK covers a PSN. -/
def ackCovers (plain : List Byte) (psn : Nat) : Bool :=
  let before := decide ((num plain 0 4 + 2 ^ 32 - 1 - psn) % 2 ^ 32 < 2 ^ 31)
  before || (List.range (min 16 (num plain 12 1))).any (fun i =>
    decide ((psn + 2 ^ 32 - num plain (16 + 8 * i) 4) % 2 ^ 32 < num plain (20 + 8 * i) 4))

/-- Marks a packet lost: its path halves CWND (R403, R405). -/
def State.losePkt (s : State) (y : Session) (q : TxPkt) : Session :=
  let y1 := { y with unacked := y.unacked.map (fun (r : TxPkt) => if r.psn = q.psn then { r with lost := true, losses := r.losses + 1 } else r) }
  match y1.path q.path with
  | some p => y1.setPath (s.cutPath p (p.cwnd / 2))
  | none => y1

/-- A session whose oldest packet has been lost 16 times closes (R403). -/
def State.settleLoss (s : State) (y : Session) : State :=
  match y.unacked with
  | q :: _ => if 16 ≤ q.losses then (s.setSession y).sendClose y else s.setSession y
  | [] => s.setSession y

/-- What an ACK's sample and CECNT do to its path (R403, R405). -/
def State.ackPath (s : State) (p : BirPath) (sample : Option (Nat × Bool)) (cecnt acked : Nat) : BirPath :=
  let now := s.now10
  let p1 := match sample with
    | some (r, fresh) => (if fresh then p.estimate r else p).sample now r
    | none => p
  let more := decide (0 < (cecnt + 2 ^ 32 - p.ceSeen) % 2 ^ 32) && decide ((cecnt + 2 ^ 32 - p.ceSeen) % 2 ^ 32 < 2 ^ 31)
  let p2 := if more then { s.cutPath p1 (p1.cwnd / 2) with ceSeen := cecnt } else p1
  match sample with
  | none => p2
  | some (r, _) =>
    let lim := p2.base + s.fld F.ethCctgt_TGT 0
    if lim < r then s.cutPath p2 (max (p2.cwnd / 2) (p2.cwnd * (10 * r - 8 * (r - lim)) / (10 * r)))
    else if more then p2
    else s.withCwnd p2 (p2.cwnd + 4096 * acked / max 1 p2.cwnd)

/-- An ACK that opened (R402 to R405): covered packets leave, the path adapts, and packets with three later ones acknowledged are
lost. -/
def State.takeAck (s : State) (y : Session) (x : RxPkt) (plain : List Byte) : State :=
  let path := num x.body 2 2
  let tse := num x.body 24 4
  let gone := y.unacked.filter (fun q => ackCovers plain q.psn)
  let left := y.unacked.filter (fun q => !ackCovers plain q.psn)
  let bytes := gone.foldl (fun n q => if q.path = path then n + q.size else n) 0
  let echoed := y.unacked.find? (fun q => q.path == path && q.ts == tse)
  let sample := if tse = 0 then none
    else some ((s.now10 + 2 ^ 32 - tse) % 2 ^ 32, (echoed.map (fun q => !q.retx)).getD false)
  let y1 := match y.path path with
    | some p => y.setPath (s.ackPath p sample (num plain 8 4) bytes)
    | none => y
  let count := fun (q : TxPkt) => (gone.filter (fun g => g.path == q.path && decide (q.seq < g.seq))).length
  let y2 := { y1 with rwnd := num plain 4 4, unacked := left.map (fun (q : TxPkt) => { q with after := q.after + count q }) }
  let lost := y2.unacked.filter (fun (q : TxPkt) => !q.lost && decide (3 ≤ q.after))
  s.settleLoss (lost.foldl (fun z q => s.losePkt z q) y2)

/-- ACK (R403): a received ACK frees acknowledged packets, feeds the estimators and congestion control, and detects losses. -/
def execAck (e : Nat) (s : State) : Host.Outcome State Fault Refusal :=
  inRange (e < 4) (fun _ => .next (s.withRx e 21 (fun s x => s.withOpen e x (fun s y p => s.takeAck y x p))))

/-- CLOSE (R406): a received CLOSE closes the session; messages not yet delivered are discarded. -/
def execClose (e : Nat) (s : State) : Host.Outcome State Fault Refusal :=
  inRange (e < 4) (fun _ => .next (s.withRx e 22 (fun s x => s.withOpen e x (fun s y _ => (s.setSession y).closeSession y.sid))))

/-- A packet's timer expires: it is lost, and CWND of its path becomes one MTU, at most once per SRTT (R403, R405). -/
def State.expire (s : State) (y : Session) (q : TxPkt) : State :=
  let y1 := { y with unacked := y.unacked.map (fun (r : TxPkt) =>
    if r.psn = q.psn then { r with lost := true, losses := r.losses + 1, expiries := r.expiries + 1 } else r) }
  s.settleLoss (match y1.path q.path with
    | some p => y1.setPath (s.cutPath p 0)
    | none => y1)

/-- RETRANSMISSION_TIMEOUT (R403, R405): the timer of a packet in flight has expired. -/
def execRetransmissionTimeout (sid psn : Nat) (s : State) : Host.Outcome State Fault Refusal :=
  .next (match s.session sid with
    | none => s
    | some y => match y.unacked.find? (fun q => q.psn == psn && !q.lost && decide (q.due ≤ s.now10)) with
      | none => s
      | some q => s.expire y q)

/-- KEEPALIVE (R400): an OPEN session that has sent nothing for 10 s sends an ACK. -/
def execKeepalive (sid : Nat) (s : State) : Host.Outcome State Fault Refusal :=
  .next (match s.session sid with
    | some y => if y.state = 2 then (match s.anyPath y with | some p => s.sendAck y p.idx 0 | none => s) else s
    | none => s)

/-- SESSION_IDLE_TIMEOUT (R400, R406): 30 s without an authenticated packet close the session. -/
def execSessionIdleTimeout (sid : Nat) (s : State) : Host.Outcome State Fault Refusal :=
  .next (match s.session sid with
    | some y => if 2 ≤ y.state then s.closeSession sid else s
    | none => s)

/-! ## Sending (R401, R403, R404) -/

/-- Queues a message to a session. -/
def State.sendMessage (s : State) (sid kind : Nat) (body : List Byte) : State :=
  match (s.session sid).filter (fun y => 2 ≤ y.state) with
  | none => s
  | some y => s.setSession { y with msgId := (y.msgId + 1) % 2 ^ 32, txq := y.txq ++ [⟨y.msgId, kind, body, 0⟩] }

/-- The most message bytes a packet carries on a path (R401). -/
def State.dataRoom (s : State) (p : BirPath) : Nat :=
  s.pathMtu p - (if p.peer.addr.length = 4 then 20 else 40) - 8 - 32 - 16 - 16

/-- The path with the most room of some paths, the lowest index on a tie (R404). -/
def Session.roomiest (x : Session) (ps : List BirPath) : Option BirPath :=
  let room := fun (p : BirPath) => (p.cwnd : Int) - x.inFlight p.idx
  ps.foldl (fun m p => match m with
    | none => some p
    | some q => if room q < room p || (room q == room p && p.idx < q.idx) then some p else some q) none

/-- What to send next: a lost packet, or the next bytes of the oldest message, at most 256 messages in flight (R401, R403). -/
def Session.nextMsg (x : Session) : Option TxMsg :=
  let ids := (x.unacked.map (fun q => num q.plain 0 4)).eraseDups
  x.txq.head?.filter (fun m => 0 < m.sent || decide (ids.length < 256))

/-- Sends a DATA packet on a path, starts its timer and paces the path, and the probes of a session whose peer has no room (R403, R404,
R406). -/
def State.emit (s : State) (x : Session) (p : BirPath) (q : TxPkt) : State :=
  let q1 := { q with path := p.idx, ts := s.now10 % 2 ^ 32, seq := x.sends, due := s.now10 + p.timer q.expiries, lost := false, after := 0 }
  let x1 := x.setPath { p with nextAt := s.now10 + (p.srtt.getD 0) * q.size / max 1 p.cwnd }
  let x2 := { x1 with
    sends := x.sends + 1
    probeAt := if x.rwnd = 0 then s.now10 + p.probe else x.probeAt
    unacked := if x1.unacked.any (fun r => r.psn == q.psn)
      then x1.unacked.map (fun r => if r.psn = q.psn then q1 else r) else x1.unacked ++ [q1] }
  s.sealOut x2 p bData (b2n q1.retx) q1.psn 0 q1.plain

/-- Whether a path takes a packet now: CWND has room, or nothing is in flight, and pacing lets it go; under RWND = 0 only a probe of the
session (R404, R406). -/
def State.pathTakes (s : State) (x : Session) (p : BirPath) (size : Nat) : Bool :=
  let f := x.inFlight p.idx
  (f == 0 || decide (f + size ≤ p.cwnd)) && decide (p.nextAt ≤ s.now10) &&
    (x.rwnd != 0 || decide (x.probeAt ≤ s.now10))

/-- One packet of a session, if the windows allow (R403, R404, R406). -/
def State.sendNext (s : State) (x : Session) : State :=
  let ups := x.paths.filter (fun p => s.ethUp p.peer.port)
  match x.unacked.find? (fun q => q.lost) with
  | some q =>
    let others := ups.filter (fun p => p.idx != q.path)
    match x.roomiest (if others.isEmpty then ups else others) with
    | some p => if s.pathTakes x p q.size then s.emit x p { q with retx := true } else s
    | none => s
  | none =>
    let out := x.unacked.foldl (fun n q => n + q.size) 0
    match x.roomiest ups, x.nextMsg with
    | some p, some m =>
      let bs := (m.data.drop m.sent).take (s.dataRoom p)
      let plain := leBytes 4 m.id ++ leBytes 4 m.sent ++ leBytes 4 m.data.length ++ leBytes 1 m.kind ++ leBytes 3 0 ++ bs
      let q : TxPkt := ⟨x.psn, plain, p.idx, 0, 0, 0, 48 + plain.length, false, false, 0, 0, 0⟩
      let m1 := { m with sent := m.sent + bs.length }
      let x1 := { x with psn := (x.psn + 1) % 2 ^ 32, txq := if m1.sent < m.data.length then m1 :: x.txq.drop 1 else x.txq.drop 1 }
      let may := if x.rwnd = 0 then true else decide (out < 4096 * x.rwnd)
      if may && s.pathTakes x p q.size && !bs.isEmpty then s.emit x1 p q else s
    | _, _ => s

/-- The peer of a session that this device opens: a free port and free addresses (log entry 32). -/
def State.freePeer (s : State) : Option Peer :=
  let e := Config.freeNat s.free 0 % 4
  let addrs := (s.ethPort e).addrs
  (addrs[Config.freeNat s.free 1 % max 1 addrs.length]?).map (fun own =>
    ⟨e, s.freshBytes 6, own, (List.range own.length).map (fun i => Config.freeByte s.free (6 + i))⟩)

/-- BIRSAN_SEND (R404): the sender sends a paced packet on the path with the most room when the windows allow. For an identifier of no
session it is Sceman's decision to open one with a REPOSITORY peer, whose first packet is INIT (R396, R400, R407; log entry 32). -/
def execBirsanSend (sid : Nat) (s : State) : Host.Outcome State Fault Refusal :=
  .next (match s.session sid with
    | some y => if 2 ≤ y.state then s.sendNext y else s
    | none => match s.freePeer with
      | some p => if sid < 2 ^ 32 && s.ethUp p.port then s.draw.openSession sid p else s
      | none => s)

/-! ## Ports (R404, R415) -/

/-- The paths on a port close, and their packets in flight count as lost (R404). -/
def State.closePaths (s : State) (e : Nat) : State :=
  let shut := fun (x : Session) =>
    let gone := (x.paths.filter (fun p => p.peer.port == e)).map (fun p => p.idx)
    { x with
      paths := x.paths.filter (fun p => p.peer.port != e)
      unacked := x.unacked.map (fun q => if gone.contains q.path && !q.lost then { q with lost := true, losses := q.losses + 1 } else q) }
  { s with birsan := { s.birsan with sessions := s.birsan.sessions.map shut } }

/-- A port goes down and trains under the configuration it has now (R415): the lanes of its mode are powered, and no others (R388). -/
def State.ethTrain (s : State) (e : Nat) : State :=
  let s1 := (s.setFld F.ethStat_UP e 0).closePaths e
  let lanes := ((cfgMode (s1.reg .ethCfg e)).map (fun m => m.lanes)).getD 0
  s1.setEth e { s1.ethPort e with training := true, next := s1.reg .ethCfg e, lanes := lanes }

/-- A write of ETH_CFG (R415): the fields, and with RETRAIN the training of the port. -/
def State.writeEthCfg (s : State) (n : Nat) (v : Word) : State :=
  let s1 := s.setReg .ethCfg n (plainWrite .ethCfg false (s.reg .ethCfg n) v)
  if bit v.toNat 31 then s1.ethTrain n else s1

/-- ETH_RETRAIN (R415): a write of RETRAIN to ETH_CFG takes the port down and trains it under the current fields. -/
def execEthRetrain (who : Requester) (n : Nat) (v : Word) (s : State) : Host.Outcome State Fault Refusal :=
  inRange (n < 4) (fun _ => .next (s.gated who .ethCfg n (s.writeEthCfg n v)))

/-- ETH_LINK_LOSS (R415): 10 ms without PCS alignment or FEC lock retrain the port. -/
def execEthLinkLoss (e : Nat) (s : State) : Host.Outcome State Fault Refusal :=
  inRange (e < 4) (fun _ => .next (if s.ethUp e then s.ethTrain e else s))

/-- ETH_PORT_UP (R415): a port comes up under the configuration present when its training began; a port whose MODE is off or
reserved stays down (R388). -/
def execEthPortUp (e : Nat) (s : State) : Host.Outcome State Fault Refusal :=
  inRange (e < 4) (fun _ =>
    let p := s.ethPort e
    .next (if !p.training || p.noRef || (cfgMode p.next).isNone then s
      else (s.setEth e { p with training := false, cfg := p.next }).setFld F.ethStat_UP e 1))

/-! ## The reference clocks of the ports (R350, R567) -/

/-- SERDES_REFCLK_LOSS (R350, R567): the port goes down with LINK_DEGRADED. Ports 6 to 9 are E0 to E3, which the same oscillators feed;
the LINK event names torus ports alone (log entry 29). -/
def execSerdesRefclkLoss (k : Nat) (s : State) : Host.Outcome State Fault Refusal :=
  inRange (k < 10) (fun _ =>
    .next (if k < 6 then
        (if (s.port k).noRef then s
         else if s.flag F.lnkCfg_ENABLE k then (s.setPort k { s.port k with noRef := true }).linkDown k false
         else s.setPort k { s.port k with noRef := true })
      else (s.setEth (k - 6) { s.ethPort (k - 6) with noRef := true }).ethTrain (k - 6)))

/-- SERDES_REFCLK_RETURN (R567): the port retrains when its reference returns. -/
def execSerdesRefclkReturn (k : Nat) (s : State) : Host.Outcome State Fault Refusal :=
  inRange (k < 10) (fun _ => .next (
    if k < 6 then (s.setPort k { s.port k with noRef := false }).trainPort k
    else (s.setEth (k - 6) { s.ethPort (k - 6) with noRef := false }).ethTrain (k - 6)))

end Sys2Proof.Machine
end

