-- ==== Sys2Proof/Machine/Factory.lean ====
section
/-!
DEFINITION. The factory segment tables of the special-function unit (R132, R137, R138): each entry is built from the function its slot
approximates, computed in fixed point with 512 bits after the point and rounded once to FP32.
-/

set_option Elab.async false

namespace Sys2Proof.Machine

open Sys2Proof

/-! ## Elementary functions in fixed point -/

/-- 1.0: numbers of this section have 512 bits after the point. -/
def fxOne : Nat := 2 ^ 512

/-- Arguments have 20 bits after the point, which every point of R138 fits. -/
def fxArg : Nat := 2 ^ 20

/-- An argument as a fixed-point number. -/
def fxOf (u : Nat) : Nat := u * (fxOne / fxArg)

/-- Terms of the series of e^x from number k on, `t` being term k - 1. -/
def fxExpGo (x : Nat) : Nat → Nat → Nat → Nat → Nat
  | 0, _, _, acc => acc
  | n + 1, k, t, acc => fxExpGo x n (k + 1) (t * x / fxOne / k) (acc + t)

/-- e^x for x from 0 to 8. -/
def fxExp (x : Nat) : Nat := fxExpGo x 220 1 fxOne 0

/-- Terms of the series of artanh z from exponent k on, `t` being z^k. -/
def fxAtanhGo (z2 : Nat) : Nat → Nat → Nat → Nat → Nat
  | 0, _, _, acc => acc
  | n + 1, k, t, acc => fxAtanhGo z2 n (k + 2) (t * z2 / fxOne) (acc + t / k)

/-- ln(1 + u) for u from 0 to 1: 2 artanh(u / (2 + u)). -/
def fxLn1p (u : Nat) : Nat :=
  let z := u * fxOne / (2 * fxOne + u)
  2 * fxAtanhGo (z * z / fxOne) 180 1 z 0

/-- ln 2. -/
def fxLn2 : Nat := fxLn1p fxOne

/-- Terms of the series of arctan(1/n), positive and negative ones apart. -/
def fxAtanGo (n : Nat) : Nat → Nat → Nat → Nat × Nat → Nat × Nat
  | 0, _, _, acc => acc
  | f + 1, k, t, acc =>
    fxAtanGo n f (k + 2) (t / (n * n)) (if k % 4 = 1 then (acc.1 + t / k, acc.2) else (acc.1, acc.2 + t / k))

/-- arctan(1/n). -/
def fxAtanInv (n : Nat) : Nat := let r := fxAtanGo n 130 1 (fxOne / n) (0, 0); r.1 - r.2

/-- The circle's constant: 16 arctan(1/5) - 4 arctan(1/239). -/
def fxPi : Nat := 16 * fxAtanInv 5 - 4 * fxAtanInv 239

/-- 1 / √(2π). -/
def fxNorm : Nat := isqrt (fxOne * fxOne * fxOne / (2 * fxPi))

/-- Terms of the series of (Φ(u) - 1/2) √(2π), positive and negative ones apart; `t` is u^(2k+1) / (2^k k!). -/
def fxPhiGo (u2 : Nat) : Nat → Nat → Nat → Nat × Nat → Nat × Nat
  | 0, _, _, acc => acc
  | f + 1, k, t, acc =>
    fxPhiGo u2 f (k + 1) (t * u2 / fxOne / (2 * (k + 1)))
      (if k % 2 = 0 then (acc.1 + t / (2 * k + 1), acc.2) else (acc.1, acc.2 + t / (2 * k + 1)))

/-- Φ(u) for u from 0 to 8. -/
def fxPhi (u : Nat) : Nat :=
  let r := fxPhiGo (u * u / fxOne) 320 0 u (0, 0)
  fxOne / 2 + (r.1 - r.2) * fxNorm / fxOne

/-- The function that a factory slot approximates, at u or, with `neg`, at -u (R137). -/
def factoryFn (slot : Nat) (neg : Bool) (u : Nat) : Nat :=
  let x := fxOf u
  match slot with
  | 0 => fxExp (x * fxLn2 / fxOne)
  | 1 => fxLn1p x * fxOne / fxLn2
  | 2 => isqrt (fxOne * fxOne * fxArg / u)
  | 3 => fxOne * fxArg / u
  | 4 => let e := fxExp (2 * x); (e - fxOne) * fxOne / (e + fxOne)
  | 5 => let e := fxExp x; (if neg then fxOne else e) * fxOne / (fxOne + e)
  | _ => if neg then fxOne - fxPhi x else fxPhi x

/-- A fixed-point number rounded to FP32. -/
def fx32 (m : Nat) : FVal := fl32 (.fin false m (-512))

/-! ## The tables (R137, R138) -/

/-- The header of a factory table; MONO stands in every entry and in every field of RMONO. -/
structure FactoryRow where
  e0     : Int
  logSub : Nat
  signed : Bool
  s0     : FVal
  s1     : FVal
  lp0    : FVal
  mono   : Nat
  deriving DecidableEq, Repr

/-- The rows of R137; the fields it does not list are 0. -/
def factoryRow : Nat → FactoryRow
  | 0 => ⟨-8, 3, false, .one, fx32 fxLn2, .zero, 1⟩
  | 1 => ⟨-8, 3, false, .zero, fx32 (fxOne * fxOne / fxLn2), .zero, 1⟩
  | 2 => ⟨0, 5, false, .zero, .zero, .zero, 2⟩
  | 3 => ⟨0, 6, false, .zero, .zero, .zero, 2⟩
  | 4 => ⟨-6, 3, false, .zero, .one, .one, 1⟩
  | 5 => ⟨-5, 2, true, .fin false 1 (-1), .fin false 1 (-2), .one, 1⟩
  | _ => ⟨-5, 2, true, .fin false 1 (-1), fx32 fxNorm, .one, 1⟩

/-- The bytes of entry k of a factory table (R132, R138): it covers [a, a + h] by magnitude. -/
def factoryEntry (slot : Nat) (r : FactoryRow) (k : Nat) : List Byte :=
  let neg := r.signed && decide (32 ≤ k)
  let k1 := if r.signed then k % 32 else k
  let h := 2 ^ (20 + r.e0 + (k1 / 2 ^ r.logSub : Nat) - r.logSub).toNat
  let a := (2 ^ r.logSub + k1 % 2 ^ r.logSub) * h
  let g := fun u => fx32 (factoryFn slot neg u)
  let f0 := g a
  let fm := g (a + h / 2)
  let f1 := g (a + h)
  let c1 := fl32 (((FVal.ofNat 4).mul fm).sub (((FVal.ofNat 3).mul f0).add f1))
  let c2 := fl32 ((((FVal.ofNat 2).mul f0).add ((FVal.ofNat 2).mul f1)).sub ((FVal.ofNat 4).mul fm))
  [f0, c1, c2].flatMap (fun c => leBytes 4 (fp32.encode c)) ++ leBytes 4 r.mono

/-- The factory table of a slot from 0 to 6 (R132, R137, R138). -/
def factoryTable (slot : Nat) : List Byte :=
  let r := factoryRow slot
  [r.s0, r.s1, r.lp0, .zero, .zero, .zero].flatMap (fun c => leBytes 4 (fp32.encode c)) ++
    leBytes 1 (unsigned 8 r.e0) ++ leBytes 1 (r.logSub + 8 * b2n r.signed) ++ leBytes 1 (21 * r.mono) ++ leBytes 5 0 ++
    (List.range 64).flatMap (factoryEntry slot r)

end Sys2Proof.Machine
end

