-- ==== Sys2Proof/Machine/Coder.lean ====
section
/-!
DEFINITION. The exponent coder on byte strings (R329 to R336): symbols, code tables, canonical codes, BUILD, coding and decoding
of chunks and streams. Nothing here touches the machine state.
-/

set_option Elab.async false

namespace Sys2Proof.Machine

open Sys2Proof

/-- How elements of a format split: symbol bits and mantissa bits M; none where the data area is stored raw (R329). -/
def symBits : Fmt → Option (Nat × Nat)
  | .fp32 => some (8, 23) | .bf16 => some (8, 7) | .fp16 => some (5, 10) | .e4m3 => some (4, 3) | .e5m2 => some (5, 2)
  | .e3m2 => some (3, 2) | .e2m3 => some (2, 3) | .e2m1 => some (2, 1) | .e2m0 => some (2, 0)
  | .ue4m3 => some (4, 3) | .ue8m0 => some (8, 0) | _ => none

/-- The symbol of an element or scale byte (R329); 256 is the zero symbol. -/
def symbolOf (f : Fmt) (x : Nat) : Nat :=
  match symBits f with
  | some (e, m) => if x = 0 ∧ f ≠ .ue8m0 then 256 else x / 2 ^ m % 2 ^ e
  | none => 0

/-- The raw value: (sign or bit 7) x 2^M + mantissa (R329). -/
def rawOf (f : Fmt) (x : Nat) : Nat :=
  match symBits f with
  | some (e, m) => x / 2 ^ (e + m) % 2 * 2 ^ m + x % 2 ^ m
  | none => x

/-- Raw bits beside a nonzero symbol (R329). -/
def rawBits (f : Fmt) : Nat :=
  match symBits f with
  | some (_, m) => if f = .ue8m0 then 0 else m + 1
  | none => f.width

/-- The element or scale byte of a symbol and a raw value. -/
def joinSym (f : Fmt) (v raw : Nat) : Nat :=
  match symBits f with
  | some (e, m) => if v = 256 then 0 else raw / 2 ^ m * 2 ^ (e + m) + v * 2 ^ m + raw % 2 ^ m
  | none => raw

/-- The symbols of an alphabet, ascending (R329). -/
def alphabet (f : Fmt) : List Nat :=
  match symBits f with
  | some (e, _) => List.range (2 ^ e) ++ (if f = .ue8m0 then [] else [256])
  | none => []

/-- The scale format of a format byte: SCL 0 UE4M3, 1 UE8M0. -/
def scaleFmt (scl : Bool) : Fmt := if scl then .ue8m0 else .ue4m3

/-- Alphabet S: empty for a wide format (R329). -/
def scaleAlphabet (f : Fmt) (scl : Bool) : List Nat := if f.narrow then alphabet (scaleFmt scl) else []

/-! ## Code tables (R330, R331) -/

/-- ELEN of a record. -/
def elen (r : List Byte) (v : Nat) : Nat := (r.getD (64 + v) 0#8).toNat

/-- SLEN of a record. -/
def slen (r : List Byte) (v : Nat) : Nat := (r.getD (384 + v) 0#8).toNat

/-- CHECK of a record. -/
def tableCheck (r : List Byte) : Nat := num r 1021 3

/-- Whether lengths are valid for an alphabet: 1 to 15 inside, 0 outside, and complete (R331). -/
def lensValid (len : Nat → Nat) (alpha : List Nat) : Bool :=
  (List.range 257).all (fun v => if alpha.contains v then 1 ≤ len v && len v ≤ 15 else len v == 0) &&
  (alpha.isEmpty || (alpha.foldl (fun n v => n + 2 ^ (15 - len v)) 0 == 2 ^ 15))

/-- Whether a record is valid: its format byte names a format that is coded, its lengths are valid and CHECK matches (R331). -/
def tableValid (r : List Byte) : Bool :=
  let fb := num r 0 1
  match (if fb < 64 then Fmt.ofCode (fb % 16) else none) with
  | none => false
  | some f => !f.isScale && lensValid (elen r) (alphabet f) && lensValid (slen r) (scaleAlphabet f (bit fb 5)) &&
      tableCheck r == crc24 (r.take 1021)

/-- The first canonical code of each length, from length `l` on (RFC 1951, section 3.2.2). -/
def firstCode (len : Nat → Nat) (alpha : List Nat) : Nat → Nat
  | 0 => 0
  | l + 1 => 2 * (firstCode len alpha l + (if l = 0 then 0 else (alpha.filter (fun v => len v == l)).length))

/-- The canonical code of a symbol. -/
def canonCode (len : Nat → Nat) (alpha : List Nat) (v : Nat) : Nat :=
  firstCode len alpha (len v) + (alpha.filter (fun u => len u == len v && u < v)).length

/-- The `n` bits of x, most significant first. -/
def msbBits (n x : Nat) : List Bool := (List.range n).map (fun i => bit x (n - 1 - i))

/-- The `n` bits of x, least significant first (put of R334). -/
def lsbBits (n x : Nat) : List Bool := (List.range n).map (fun i => bit x i)

/-- The bits of a symbol's code, most significant first (R334). -/
def codeBits (len : Nat → Nat) (alpha : List Nat) (v : Nat) : List Bool := msbBits (len v) (canonCode len alpha v)

/-- Reads one symbol: code so far, its length, bits left (R334). -/
def readSym (len : Nat → Nat) (alpha : List Nat) : Nat → Nat → Nat → List Bool → Option (Nat × List Bool)
  | 0, _, _, _ => none
  | _ + 1, _, _, [] => none
  | fuel + 1, c, l, b :: bs =>
    let c' := 2 * c + b2n b
    let l' := l + 1
    let f := firstCode len alpha l'
    let syms := alpha.filter (fun v => len v == l')
    if f ≤ c' ∧ c' - f < syms.length then some (syms.getD (c' - f) 0, bs)
    else readSym len alpha fuel c' l' bs

/-- Reads an `n`-bit number, least significant bit first. -/
def readBits : Nat → List Bool → Option (Nat × List Bool)
  | 0, bs => some (0, bs)
  | _ + 1, [] => none
  | n + 1, b :: bs => (readBits n bs).map (fun r => (b2n b + 2 * r.1, r.2))

/-! ## BUILD (R332) -/

/-- A node of the construction: weight, key, and its symbols. -/
structure HNode where
  weight : Nat
  key    : Nat
  syms   : List Nat
  deriving DecidableEq, Repr

/-- Whether a node comes before another: by weight, then key. -/
def HNode.before (a b : HNode) : Bool := a.weight < b.weight || (a.weight == b.weight && a.key < b.key)

/-- The node that comes first of all. -/
def HNode.least : List HNode → Option HNode
  | [] => none
  | n :: r => match HNode.least r with
    | none => some n
    | some m => if n.before m then some n else some m

/-- One more level of depth for the given symbols. -/
def deepen (d : Sparse Nat) (syms : List Nat) : Sparse Nat :=
  syms.foldl (fun d v => Sparse.wr (fun _ => 0) v (Sparse.rd (fun _ => 0) v d + 1) d) d

/-- Merges the two least nodes until one is left; the result is the depth of each symbol. -/
def mergeNodes : Nat → Nat → List HNode → Sparse Nat → Sparse Nat
  | 0, _, _, d => d
  | fuel + 1, m, ns, d =>
    match HNode.least ns with
    | none => d
    | some a =>
      let r := ns.filter (fun n => n.key != a.key)
      match HNode.least r with
      | none => d
      | some b =>
        let r' := r.filter (fun n => n.key != b.key)
        mergeNodes fuel (m + 1) (⟨a.weight + b.weight, 512 + m, a.syms ++ b.syms⟩ :: r') (deepen d (a.syms ++ b.syms))

/-- Code lengths from weights; weights are halved, rounded up, until every length is at most 15. -/
def buildLens : Nat → List (Nat × Nat) → Sparse Nat
  | 0, _ => []
  | fuel + 1, ws =>
    let d := mergeNodes ws.length 0 (ws.map (fun w => ⟨w.2, w.1, [w.1]⟩)) []
    if d.all (fun kv => kv.2 ≤ 15) then d else buildLens fuel (ws.map (fun w => (w.1, (w.2 + 1) / 2)))

/-- Weights: 1 + occurrences of each symbol (R332). -/
def weights (f : Fmt) (alpha : List Nat) (xs : List Nat) : List (Nat × Nat) :=
  alpha.map (fun v => (v, 1 + (xs.filter (fun x => symbolOf f x == v)).length))

/-- The 257 length bytes of an alphabet. -/
def lenBytes (d : Sparse Nat) : List Byte := (List.range 257).map (fun v => BitVec.ofNat 8 (Sparse.rd (fun _ => 0) v d))

/-- The record BUILD writes for elements `es` and scale bytes `ss` of a format (R330, R332). -/
def buildRecord (fb : Nat) (f : Fmt) (scl : Bool) (es ss : List Nat) : List Byte :=
  let e := buildLens 72 (weights f (alphabet f) es)
  let s := if f.narrow then buildLens 72 (weights (scaleFmt scl) (alphabet (scaleFmt scl)) ss) else []
  let body := padTo 1021 (padTo 384 (padTo 64 [BitVec.ofNat 8 fb] ++ lenBytes e) ++ lenBytes s)
  body ++ leBytes 3 (crc24 body)

/-! ## Units, chunks and streams (R333 to R336) -/

/-- The elements of a unit's data area as codes of the element width. -/
def unitElems (f : Fmt) (b16 : Bool) (u : List Byte) : List Nat :=
  if f.narrow then unpack f.width (burstN f b16 * blockLen b16) (leNat (u.take (burstD f b16)))
  else unpack f.width (u.length / f.bytes) (leNat u)

/-- The scale bytes of a unit; none for wide formats. -/
def unitScales (f : Fmt) (b16 : Bool) (u : List Byte) : List Nat :=
  if f.narrow then (sub u (burstD f b16) (burstN f b16)).map (fun b => b.toNat) else []

/-- The bits of values coded with a table. -/
def codedBits (f : Fmt) (len : Nat → Nat) (xs : List Nat) : List Bool :=
  let alpha := alphabet f
  xs.flatMap (fun x =>
    let v := symbolOf f x
    codeBits len alpha v ++ (if v = 256 then [] else lsbBits (rawBits f) (rawOf f x)))

/-- The bits of bytes in address order. -/
def byteBits (bs : List Byte) : List Bool := bs.flatMap (fun b => lsbBits 8 b.toNat)

/-- Whether a burst's trailer can be elided (R335). -/
def elidable (fb tsidx : Nat) (u : List Byte) : Bool :=
  burstTsidx u == tsidx && num u 2044 1 == fb && num u 2045 3 == crc24 (u.take 2045)

/-- The bit stream of one unit, and whether its trailer could not be elided (R334, R335). -/
def encodeUnit (fb : Nat) (f : Fmt) (tab : List Byte) (tsidx : Nat) (u : List Byte) : List Bool × Bool :=
  let b16 := bit fb 4
  let scl := bit fb 5
  let dataRaw := if f.narrow then byteBits (u.take (burstD f b16)) else byteBits u
  let coded := if (symBits f).isSome then codedBits f (elen tab) (unitElems f b16 u) else dataRaw
  let ecode := (symBits f).isSome && coded.length < dataRaw.length
  if f.narrow then
    let scRaw := byteBits (sub u (burstD f b16) (burstN f b16))
    let scCoded := codedBits (scaleFmt scl) (slen tab) (unitScales f b16 u)
    let scode := decide (scCoded.length < scRaw.length)
    let tel := elidable fb tsidx u
    let padding := sub u (burstD f b16 + burstN f b16) (2040 - (burstD f b16 + burstN f b16))
    ([ecode, scode, tel] ++ (if ecode then coded else dataRaw) ++ (if scode then scCoded else scRaw) ++ byteBits padding ++
      (if tel then [] else byteBits (u.drop 2040)), !tel)
  else ([ecode, false, false] ++ (if ecode then coded else dataRaw), false)

/-- Bits as bytes, bit i in bit i mod 8 of byte i / 8, zero-filled. -/
def bitsToBytes : Nat → List Bool → List Byte
  | 0, _ => []
  | n + 1, bs =>
    BitVec.ofNat 8 ((List.range 8).foldl (fun v i => v + b2n (bs.getD i false) * 2 ^ i) 0) :: bitsToBytes n (bs.drop 8)

/-- A string filled with zero bytes to a multiple of 64. -/
def pad64 (bs : List Byte) : List Byte := padTo (64 * ceilDiv bs.length 64) bs

/-- One coded chunk: its bytes, whether it is raw, and the bursts whose trailer could not be elided (R334, R335). -/
def encodeChunk (fb : Nat) (f : Fmt) (tab : List Byte) (tsidx : Nat) (c : List Byte) : List Byte × Bool × Nat :=
  let us := (pieces 2048 16 c).map (encodeUnit fb f tab tsidx)
  let bs := us.flatMap (fun u => u.1)
  let fails := (us.filter (fun u => u.2)).length
  let raw := pad64 c
  let n := 64 * ceilDiv bs.length 512
  if raw.length ≤ n then (raw, true, fails) else (bitsToBytes n bs, false, fails)

/-- A coded stream object (R333): its bytes, chunks written raw, and trailers not elided. -/
def encodeStream (fb : Nat) (f : Fmt) (tab data : List Byte) : List Byte × Nat × Nat :=
  let n := ceilDiv data.length 32768
  let tsidx := if f.narrow then burstTsidx (data.take 2048) else 0xFFFFFFFF
  let cs := (pieces 32768 n data).map (encodeChunk fb f tab tsidx)
  let head := [BitVec.ofNat 8 fb] ++ List.replicate 3 0#8 ++ leBytes 4 tsidx ++ leBytes 8 data.length ++ leBytes 4 n ++
    leBytes 4 (tableCheck tab)
  let head61 := padTo 61 head
  let idx := (cs.foldl (fun (a : List Byte × Nat) c =>
    (a.1 ++ leBytes 8 (a.2 + c.1.length / 64 * 2 ^ 32 + b2n c.2.1 * 2 ^ 42), a.2 + c.1.length / 64)) ([], 0)).1
  (head61 ++ leBytes 3 (crc24 head61) ++ pad64 idx ++ cs.flatMap (fun c => c.1),
    (cs.filter (fun c => c.2.1)).length, (cs.map (fun c => c.2.2)).foldl (· + ·) 0)

/-- XMAX (R336). -/
def xmax (ulen : Nat) : Nat :=
  let n := ceilDiv ulen 32768
  64 + 64 * ceilDiv n 8 + 32768 * (n - 1) + 64 * ceilDiv (ulen - 32768 * (n - 1)) 64

/-- Reads `n` coded values. -/
def readCoded (f : Fmt) (len : Nat → Nat) : Nat → List Bool → Option (List Nat × List Bool)
  | 0, bs => some ([], bs)
  | n + 1, bs =>
    match readSym len (alphabet f) 15 0 0 bs with
    | none => none
    | some (v, bs1) =>
      match readBits (if v = 256 then 0 else rawBits f) bs1 with
      | none => none
      | some (raw, bs2) => (readCoded f len n bs2).map (fun r => (joinSym f v raw :: r.1, r.2))

/-- Reads n bytes. -/
def readBytes : Nat → List Bool → Option (List Byte × List Bool)
  | 0, bs => some ([], bs)
  | n + 1, bs => match readBits 8 bs with
    | none => none
    | some (v, bs1) => (readBytes n bs1).map (fun r => (BitVec.ofNat 8 v :: r.1, r.2))

/-- Decodes one unit of `ulen` bytes (R334). -/
def decodeUnit (fb : Nat) (f : Fmt) (tab : List Byte) (tsidx ulen : Nat) (bs : List Bool) : Option (List Byte × List Bool) := do
  let (mode, b0) ← readBits 3 bs
  let b16 := bit fb 4
  let dlen := if f.narrow then burstD f b16 else ulen
  let (data, b1) ←
    if bit mode 0 && (symBits f).isSome then
      (readCoded f (elen tab) (dlen * 8 / f.width) b0).map (fun r => (leBytes dlen (pack f.width r.1), r.2))
    else readBytes dlen b0
  if f.narrow then
    let n := burstN f b16
    let (sc, b2) ←
      if bit mode 1 then
        (readCoded (scaleFmt (bit fb 5)) (slen tab) n b1).map (fun r => (r.1.map (fun v => BitVec.ofNat 8 v), r.2))
      else readBytes n b1
    let (padding, b3) ← readBytes (2040 - (dlen + n)) b2
    let body := data ++ sc ++ padding
    if bit mode 2 then
      let head := body ++ leBytes 4 tsidx ++ [BitVec.ofNat 8 fb]
      pure (head ++ leBytes 3 (crc24 head), b3)
    else
      let (tr, b4) ← readBytes 8 b3
      pure (body ++ tr, b4)
  else pure (data, b1)

/-- Decodes the units of a chunk of `ulen` uncoded bytes (R334). -/
def decodeUnits (fb : Nat) (f : Fmt) (tab : List Byte) (tsidx : Nat) : Nat → Nat → List Bool → Option (List Byte)
  | 0, _, _ => some []
  | fuel + 1, ulen, bs =>
    if ulen = 0 then some []
    else match decodeUnit fb f tab tsidx (min 2048 ulen) bs with
      | none => none
      | some (u, r) => (decodeUnits fb f tab tsidx fuel (ulen - 2048) r).map (fun x => u ++ x)

/-- Decodes one chunk of `ulen` uncoded bytes; none when its bit stream needs more bits than it has (R345). -/
def decodeChunk (fb : Nat) (f : Fmt) (tab : List Byte) (tsidx ulen : Nat) (raw : Bool) (c : List Byte) : Option (List Byte) :=
  if raw then (if c.length < ulen then none else some (c.take ulen))
  else decodeUnits fb f tab tsidx 16 ulen (byteBits c)

end Sys2Proof.Machine
end

