-- ==== Sys2Proof/Machine/Dma.lean ====
section
/-!
DEFINITION. DMA (R308 to R316), converting DMA with residual carry and MX layouts (R51 to R73, R108 to R113), memory-side
atomics, and the exponent-coding modes ENCODE, DECODE, BUILD and LOAD (R337 to R345). Each command's data movement is one step.
Where a source and a destination overlap, the destination's contents are free bytes (R312, R345).
-/

set_option Elab.async false

namespace Sys2Proof.Machine

open Sys2Proof

/-! ## Writing results -/

/-- A state with the first failure met so far: its status and address. Nothing is written after a failure (R322). -/
structure Out where
  s    : State
  fail : Option (Byte × Nat)
  deriving DecidableEq, Repr

/-- Bytes that nothing constrains (log entry 5). -/
def freeBytes (k n : Nat) : List Byte := (List.range n).map (fun i => Config.freeByte k i)

/-- The pieces of a write: in T1 the bytes up to the first granule boundary, the whole granules, and the rest, the first and last
marked as covering a granule in part (R293); elsewhere one piece. -/
def writePieces (a : Nat) (bs : List Byte) : List (Nat × List Byte × Bool) :=
  if region a = some .t1 then
    let h := min bs.length ((64 - a % 64) % 64)
    let m := (bs.length - h) / 64 * 64
    [(a, bs.take h, true), (a + h, (bs.drop h).take m, false), (a + h + m, bs.drop (h + m), true)].filter (fun x => !x.2.1.isEmpty)
  else [(a, bs, false)]

/-- Writes one piece for a command; a granule covered in part is read first, and stops the write when it is uncorrectable (R293,
R323). -/
def Out.piece (c : Cmd) (o : Out) (x : Nat × List Byte × Bool) : Out :=
  let g := granuleOf x.1
  if o.fail.isSome then o
  else if x.2.2 && o.s.bad.contains g then { o with fail := some (St.ecc, g) }
  else ⟨(if x.2.2 then o.s.note c.uid (.rmw g 64) else o.s).storeFor c.uid x.1 x.2.1, none⟩

/-- The unit that a command's last read ended in, in this pass over its source. -/
def lastRead : List Access → Option Nat
  | [] => none
  | .rd a n :: _ => some (unitOf (a + n - 1))
  | .pass :: _ => none
  | _ :: l => lastRead l

/-- Where a command's last write ended. -/
def lastWrite : List Access → Option Nat
  | [] => none
  | .wr a _ new _ :: _ => some (a + new.length)
  | _ :: l => lastWrite l

/-- The start of the access unit after the one an address lies in. -/
def nextUnit (a : Nat) : Nat := unitOf a + (match region a with | some .t2 => 4096 | _ => 2048)

/-- Whether a write goes on in the unit that the command's last write ended in, so that one access carries both (R292; log entry 43). -/
def State.writeJoins (s : State) (uid a n : Nat) : Bool :=
  !splitHead a n && !splitTail a n && unitOf a != a && lastWrite (s.trace uid) == some a

/-- Takes the slots of a write's units (R292, R293). -/
def State.claimWrite (s : State) (c : Cmd) (join : Bool) (a n : Nat) : State :=
  if join then (s.moved c.part a n).requests c.uid c.part c.eg (nextUnit a) (a + n - nextUnit a) .write
  else s.putTouch c.uid c.part c.eg a n

/-- Writes bytes for a command and takes the slots of their units; `undef` makes the contents free. -/
def Out.put (o : Out) (c : Cmd) (undef : Bool) (a : Nat) (bs : List Byte) : Out :=
  if o.fail.isSome then o
  else
    let s1 := if undef then o.s.draw else o.s
    let data := if undef then freeBytes s1.free bs.length else bs
    let r := (writePieces a data).foldl (Out.piece c) ⟨s1, none⟩
    let n := match r.fail with | none => bs.length | some f => f.2 - a
    ⟨r.s.claimWrite c (s1.writeJoins c.uid a n) a n, r.fail⟩

/-- Stops at a failure, if none has been met yet. -/
def Out.stop (o : Out) (f : Option (Byte × Nat)) : Out := if o.fail.isSome then o else { o with fail := f }

/-- Ends a command: with its failure, noting an uncorrectable word, or with the result it reaches (R321, R322). -/
def Out.finish (o : Out) (c : Cmd) (r : Result) : State :=
  match o.fail with
  | none => o.s.finish c r
  | some (st, a) =>
    let s1 := if (o.s.badIn a 1).isSome then o.s.noteUe a else o.s
    s1.finish c { r with status := st, addr := a }

/-- Takes the slots that reading a range needs, `last` being the unit that was read last. A T2 range that was read early is not read
again (R249), and a range that goes on in the unit read last takes no second access to that unit (R292; log entry 43). -/
def State.claimAfter (s : State) (c : Cmd) (last : Option Nat) (a n : Nat) : State :=
  if n = 0 || c.early.contains (a, n) then s
  else if (controllerOf a).isSome && last == some (unitOf a) then
    (s.moved c.part a n).requests c.uid c.part c.eg (nextUnit a) (a + n - nextUnit a) .read
  else s.touch c.uid c.part c.eg a n .read

/-- Keeps a read of T1, T2 or T3 among the accesses of a command, whose data may still turn out uncorrectable (R322). -/
def State.noteRead (s : State) (c : Cmd) (a n : Nat) : State :=
  match region a with
  | some .t1 | some .t2 | some (.t3 _) => if n = 0 then s else s.note c.uid (.rd a n)
  | _ => s

/-- Reads a range for a command: its slots, and its place among the command's accesses. -/
def State.touchRead (s : State) (c : Cmd) (a n : Nat) : State :=
  (s.claimAfter c (lastRead (s.trace c.uid)) a n).noteRead c a n

/-- Takes the slots of several ranges, read one after another. -/
def claimList (c : Cmd) : Option Nat → List (Nat × Nat) → State → State
  | _, [], s => s
  | last, r :: rs, s =>
    claimList c (if r.2 = 0 then last else some (unitOf (r.1 + r.2 - 1))) rs (s.claimAfter c last r.1 r.2)

/-- Takes the slots of several ranges. -/
def State.claimReads (s : State) (c : Cmd) (rs : List (Nat × Nat)) : State := claimList c none rs s

/-- Reads several ranges. -/
def State.touchReads (s : State) (c : Cmd) (rs : List (Nat × Nat)) : State := rs.foldl (fun t r => t.touchRead c r.1 r.2) s

/-- Keeps several ranges among the accesses of a command. -/
def State.noteReads (s : State) (c : Cmd) (rs : List (Nat × Nat)) : State := rs.foldl (fun t r => t.noteRead c r.1 r.2) s

/-- The entry of the tensor-scale table that an index names, as a range; none for the reserved index (R52, R245). -/
def State.tsRange (s : State) (p i : Nat) : List (Nat × Nat) := if i = 0xFFFFFFFF then [] else [(s.tsAddr p i, 4)]

/-- A write that a command makes once it has made its first `need` reads. -/
structure Put where
  need  : Nat
  undef : Bool
  addr  : Nat
  data  : List Byte
  deriving DecidableEq, Repr

/-- Makes a command's reads, their slots taken already, and its writes in order: each write as soon as the reads that it needs have
been made, `k` of them so far (R322). -/
def weave (c : Cmd) : List (Nat × Nat) → Nat → List Put → Out → Out
  | rs, _, [], o => { o with s := o.s.noteReads c rs }
  | rs, k, w :: ws, o =>
    if o.fail.isSome then o
    else weave c (rs.drop (w.need - k)) (max k w.need) ws
      (({ o with s := o.s.noteReads c (rs.take (w.need - k)) } : Out).put c w.undef w.addr w.data)

/-- The reads that are made before the one that a failure stops. -/
def readsUpTo (fail : Option (Byte × Nat)) (rs : List (Nat × Nat)) : List (Nat × Nat) :=
  match fail with
  | none => rs
  | some f => rs.takeWhile (fun r => !overlaps r.1 r.2 f.2 1)

/-- A range cut at the boundaries of its access units: offset and length of each part (R292). -/
def unitCuts (a n : Nat) : List (Nat × Nat) :=
  (unitsOf a n).map (fun u => (max u a - a, min (a + n) (nextUnit u) - max u a))

/-! ## Writes that no command makes -/

/-- The part of a write left when its first and last granules, written only in part, cannot be read (R293, R323): the first address
and its bytes. -/
def State.writable (s : State) (a : Nat) (bs : List Byte) : Nat × List Byte :=
  let broken := fun g => s.bad.contains g && !(decide (a ≤ g) && decide (g + granuleLen g ≤ a + bs.length))
  let g := granuleOf a
  let lead := if broken g then min bs.length (g + granuleLen g - a) else 0
  let h := granuleOf (a + bs.length - 1)
  let tail := if broken h then bs.length - (h - a) else 0
  (a + lead, (bs.take (bs.length - min tail (bs.length - lead))).drop lead)

/-- The uncorrectable granules that a write would have to read, as it covers them in part (R293, R323). -/
def State.brokenEnds (s : State) (a n : Nat) : List Nat :=
  ([granuleOf a, granuleOf (a + n - 1)]).eraseDups.filter (fun g =>
    s.bad.contains g && !(decide (a ≤ g) && decide (g + granuleLen g ≤ a + n)))

/-- A write that no command makes, of a host or of a message that lands, for a partition: what can be written is, uncorrectable granules
covered in part are not and are recorded, and the units take their slots (R293, R323). -/
def State.storeWhole (s : State) (p a : Nat) (bs : List Byte) : State :=
  if bs.isEmpty then s
  else
    let w := s.writable a bs
    ((s.brokenEnds a bs.length).foldl (fun t g => t.noteUe g) (s.store w.1 w.2)).putTouch 0 p noEg a bs.length

/-! ## The descriptor -/

/-- The DMA descriptor (R308) of a command, with the XC byte split (R337). -/
structure Dma where
  src    : Nat
  dst    : Nat
  lenW   : Nat
  rowsW  : Nat
  srcLd  : Nat
  dstLd  : Nat
  op     : Nat
  dtype  : Nat
  srcFmt : Nat
  xc     : Nat
  flags  : Nat
  aux    : Nat
  cvt    : Cvt
  deriving DecidableEq, Repr

/-- Reads the descriptor from a DMA command: bytes 16 to 79 (R242, R308). -/
def Dma.of (b : List Byte) : Dma :=
  { src := num b 16 8, dst := num b 24 8, lenW := num b 32 4, rowsW := num b 36 4, srcLd := num b 40 4, dstLd := num b 44 4,
    op := num b 48 1, dtype := num b 49 1, srcFmt := num b 50 1, xc := num b 51 1, flags := num b 52 1, aux := num b 56 8,
    cvt := Cvt.ofBytes (sub b 64 16) }

/-- MODE of XC. -/
def Dma.mode (d : Dma) : Nat := d.xc % 4
/-- SLOT of XC. -/
def Dma.slot (d : Dma) : Nat := d.xc / 4 % 8
/-- TOP of XC. -/
def Dma.top (d : Dma) : Bool := bit d.xc 5
/-- GATHER. -/
def Dma.gather (d : Dma) : Bool := bit d.flags 0
/-- SCATTER. -/
def Dma.scatter (d : Dma) : Bool := bit d.flags 1
/-- MXIN. -/
def Dma.mxin (d : Dma) : Bool := bit d.flags 2
/-- MXOUT. -/
def Dma.mxout (d : Dma) : Bool := bit d.flags 3

/-- The rows of the opcode table that the DMA opcode covers. -/
inductive DmaKind where
  | copy | convert | add | max | min | encode | decode | build | load
  deriving DecidableEq, Repr

/-- Which row a descriptor belongs to. A reserved OP belongs to the copy row, where it is malformed. -/
def Dma.kind (d : Dma) : DmaKind :=
  if d.op = 2 then .add else if d.op = 3 then .max else if d.op = 4 then .min
  else if d.op > 4 then .copy
  else if d.mode = 1 then .encode else if d.mode = 2 then .decode
  else if d.mode = 3 then (if d.top then .load else .build)
  else if d.op = 1 then .convert else .copy

/-- Whether a command is a DMA of a kind. -/
def isDma (k : DmaKind) (b : List Byte) : Bool := hdrOpcode b == 0x08 && (Dma.of b).kind == k

/-- The residual descriptor: the command's last 16 bytes (R109, R239). -/
structure Resid where
  rzero : Bool
  fp32  : Bool
  src   : Nat
  dst   : Nat
  deriving DecidableEq, Repr

/-- Reads a residual descriptor. -/
def Resid.of (b : List Byte) : Resid :=
  ⟨bit (num b 0 8) 0, bit (num b 0 8) 1, num b 0 8 / 2048 * 2048, num b 8 8 / 2048 * 2048⟩

/-- The residual descriptor of a command, when RES = 1. -/
def cmdResid (b : List Byte) : Option Resid := if hdrRes b then some (Resid.of (b.drop (b.length - 16))) else none

/-- Bytes of one residual (R110). -/
def Resid.size (r : Resid) : Nat := if r.fp32 then 4 else 2

/-- The format of a residual (R109). -/
def Resid.fmt (r : Resid) : Fmt := if r.fp32 then .fp32 else .bf16

/-! ## Checks shared by the kinds -/

/-- The span from the first byte of the first row to the last byte of the last (R289). -/
def span (rows ld len : Nat) : Nat := if rows = 0 ∨ len = 0 then 0 else (rows - 1) * ld + len

/-- Whether a source range lies in one row of T0, T1, T2 or T3. -/
def inAnyTier (a n : Nat) : Bool :=
  match rangeRegion a n with
  | some .red | some .regs | none => false
  | _ => true

/-- FLAGS and OP rules that hold for every DMA (R312). -/
def Dma.flagsBad (d : Dma) : Bool :=
  d.op > 4 || d.flags / 16 ≠ 0 || (d.gather && d.scatter) || ((d.mxin || d.mxout) && d.op ≠ 1) || (d.mxin && d.mxout) ||
  bit d.xc 7 || (d.mode ≠ 3 && d.top) ||
  (d.xc ≠ 0 && (d.gather || d.scatter || d.mxin || d.mxout || 2 ≤ d.op))

/-- The first refused address of strided rows, in row order (R303). -/
def firstRefused (f : Nat → Nat → Option Nat) (base ld rows len : Nat) : Option Nat :=
  (List.range rows).findSome? (fun r => f (base + r * ld) len)

/-- The verdict for a T3 source whose port's link is down or in PERST (R515). -/
def State.t3Verdict (s : State) (a n : Nat) : Verdict :=
  match rangeRegion a n with
  | some (.t3 d) => Verdict.eccIf (if s.flag F.pciStat_UP d then none else some a)
  | _ => .go

/-- The two bounds of a DMA: ROWLEN and ROWS. -/
def State.dmaBounds (s : State) (c : Cmd) : Bound × Bound :=
  let d := Dma.of c.bytes
  (s.bound c.part d.lenW, s.bound c.part d.rowsW)

/-- The index array of GATHER or SCATTER must lie in T0, T1 or T2, within the windows; only COPY and CONVERT read it in a T2 window
with WRITE = 1 (R304). -/
def State.auxVerdict (s : State) (p : Nat) (d : Dma) (rows : Nat) : Verdict :=
  if !(d.gather || d.scatter) then .go
  else .first [.badIf (!inT0T1T2 d.aux (4 * rows)), .quotaIf (s.readRefused (decide (d.op ≤ 1)) p d.aux (4 * rows))]

/-- Whether a destination in T2 is whole aligned 4 KiB units (R304, R312). -/
def t2Whole (a n : Nat) : Bool :=
  match region a with
  | some .t2 => a % 4096 == 0 && n % 4096 == 0
  | _ => true

/-- Whether SRC of gathered rows, or DST of scattered rows of `len` bytes, lies outside the tiers that the field admits, or scattered
rows in T2 are not whole 4 KiB units (R289, R304, R312). -/
def Dma.baseBad (d : Dma) (len : Nat) : Bool :=
  (d.gather && !inAnyTier d.src 1) ||
  (d.scatter && (!inT0T1T2 d.dst 1 || !t2Whole d.dst len || !t2Whole d.dst d.dstLd))

/-- Index r of the GATHER or SCATTER array (R308). -/
def State.auxIdx (s : State) (d : Dma) (r : Nat) : Nat := s.word (d.aux + 4 * r)

/-- The words of the index array that row r reads (R308). -/
def Dma.auxReads (d : Dma) (r : Nat) : List (Nat × Nat) := if d.gather || d.scatter then [(d.aux + 4 * r, 4)] else []

/-- The whole index array of a command of `rows` rows. -/
def Dma.auxRange (d : Dma) (rows : Nat) : List (Nat × Nat) := if d.gather || d.scatter then [(d.aux, 4 * rows)] else []

/-- An index that cannot be read stops the command at its row (R321). -/
def State.auxStop (s : State) (d : Dma) (r : Nat) : Option (Byte × Nat) :=
  if d.gather || d.scatter then (s.badIn (d.aux + 4 * r) 4).map (fun x => (St.ecc, x)) else none

/-- The address of source row r (R309). -/
def State.srcRow (s : State) (d : Dma) (r : Nat) : Nat := d.src + (if d.gather then s.auxIdx d r else r) * d.srcLd

/-- The address of destination row r (R309). -/
def State.dstRow (s : State) (d : Dma) (r : Nat) : Nat := d.dst + (if d.scatter then s.auxIdx d r else r) * d.dstLd

/-- The source rows of a command, of `n` bytes each. -/
def State.srcRows (s : State) (d : Dma) (rows n : Nat) : List (Nat × Nat) := (List.range rows).map (fun r => (s.srcRow d r, n))

/-- The destination rows of a command, of `n` bytes each. -/
def State.dstRows (s : State) (d : Dma) (rows n : Nat) : List (Nat × Nat) := (List.range rows).map (fun r => (s.dstRow d r, n))

/-- A source row that a GATHER index names outside the windows stops the command there (R303). -/
def State.gatherStop (s : State) (p : Nat) (d : Dma) (a len : Nat) : Option (Byte × Nat) :=
  if !d.gather then none
  else if !inAnyTier a len then some (St.quota, a)
  else (s.readRefused (decide (d.op ≤ 1)) p a len).map (fun x => (St.quota, x))

/-- A destination row that a SCATTER index names outside the windows, or in T2 and not as whole units, stops the command there (R303,
R304). -/
def State.scatterStop (s : State) (p : Nat) (d : Dma) (a len : Nat) : Option (Byte × Nat) :=
  if !d.scatter then none
  else if !inT0T1T2 a len || !t2Whole a len then some (St.quota, a)
  else (s.writeRefused p a len).map (fun x => (St.quota, x))

/-- Table time of a DMA that moves `n` bytes (R311). -/
def dmaCycles (n : Nat) : Nat := 64 + ceilDiv n 256 + 16

/-! ## COPY -/

/-- The checks of a COPY (R65, R289, R303, R304, R309, R312). -/
def State.copyCheck (s : State) (c : Cmd) : Verdict :=
  let d := Dma.of c.bytes
  let b := s.dmaBounds c
  let len := b.1.get
  let rows := b.2.get
  let known := b.1.known && b.2.known && len ≠ 0 && rows ≠ 0
  let narrowSrc := match byteFmt d.srcFmt with | some f => f.narrow | none => false
  .first
    [ .badIf (d.flagsBad || hdrRes c.bytes), b.1.verdict, b.2.verdict,
      if !known then .go else .first
        [ .badIf (!d.gather && !inAnyTier d.src (span rows d.srcLd len)),
          .badIf (!d.scatter && !inT0T1T2 d.dst (span rows d.dstLd len)), .badIf (d.baseBad len),
          .badIf (narrowSrc && (d.src % 2048 ≠ 0 || d.dst % 2048 ≠ 0 || (rows > 1 && d.dstLd % 2048 ≠ 0))),
          .badIf (!d.scatter && !((List.range rows).all (fun r => t2Whole (d.dst + r * d.dstLd) len))),
          s.auxVerdict c.part d rows,
          .quotaIf (if d.gather then none else firstRefused (s.readRefused true c.part) d.src d.srcLd rows len),
          .quotaIf (if d.scatter then none else firstRefused (s.writeRefused c.part) d.dst d.dstLd rows len),
          if d.gather then .go else s.t3Verdict d.src (span rows d.srcLd len) ],
      .okIf (b.1 = .val 0 || b.2 = .val 0) ]

/-- Moves the parts of a row from `a` to `t`, cut at the access units of its source: a part that holds an uncorrectable word is not
written, and ends the copy (R322, R323). -/
def copyParts (c : Cmd) (undef : Bool) (a t : Nat) : List (Nat × Nat) → Out → Out
  | [], o => o
  | (off, n) :: ps, o =>
    if o.fail.isSome then o
    else
      let s1 := o.s.touchRead c (a + off) n
      match s1.badIn (a + off) n with
      | some x => (Out.mk s1 none).stop (some (St.ecc, x))
      | none => copyParts c undef a t ps ((Out.mk s1 none).put c undef (t + off) (s1.read (a + off) n))

/-- Moves rows `r` onward, `n` of them (R309). -/
def copyRows (c : Cmd) (d : Dma) (undef : Bool) (len : Nat) : Nat → Nat → Out → Out
  | 0, _, o => o
  | n + 1, r, o =>
    if o.fail.isSome then o
    else
      let s1 := o.s.noteReads c (d.auxReads r)
      let a := s1.srcRow d r
      let t := s1.dstRow d r
      match s1.auxStop d r, s1.gatherStop c.part d a len, s1.scatterStop c.part d t len with
      | some f, _, _ => (Out.mk s1 none).stop (some f)
      | none, some f, _ => (Out.mk s1 none).stop (some f)
      | none, none, some f => (Out.mk s1 none).stop (some f)
      | none, none, none => copyRows c d undef len n (r + 1) (copyParts c undef a t (unitCuts a len) ⟨s1, none⟩)

/-- DMA COPY (R309). -/
def State.runCopy (s : State) (c : Cmd) : State :=
  let d := Dma.of c.bytes
  let b := s.dmaBounds c
  let len := b.1.get
  let rows := b.2.get
  let undef := rangesMeet (s.srcRows d rows len) (s.dstRows d rows len)
  (copyRows c d undef len rows 0 ⟨s.claimReads c (d.auxRange rows), none⟩).finish c (Result.mk0 St.ok (dmaCycles (rows * len)))

/-- DMA_COPY (R309, R311, R312): moves rows of bytes, with optional gather or scatter. -/
def execDmaCopy (i : Issuer) (s : State) : Host.Outcome State Fault Refusal :=
  inRange (issuerOk i) (fun _ => .next (s.issueRow i (isDma .copy) State.copyCheck State.runCopy))

/-! ## CONVERT -/

/-- Whether a format may be laid out under MX (R72). -/
def mxFmt (f : Fmt) : Bool :=
  f == .e4m3 || f == .e5m2 || f == .e3m2 || f == .e2m3 || f == .e2m1 || f == .int8

/-- Bytes of an MX element array of rows x len elements, packed back to back (R11, R72). -/
def mxBytes (f : Fmt) (rows len : Nat) : Nat := ceilDiv (rows * len * f.width) 8

/-- The residual of one element (R111, R112): `v` the carried value, `q` its code, `sc` the block scale, `dec` whether the range
rule decided it. -/
def residualOf (r : Resid) (f : Fmt) (scl : Bool) (t : FVal) (sc : Nat) (v : FVal) (q : Nat) (dec : Bool) : List Byte :=
  let b := scaleValue scl sc
  let rn := if !v.isFin || dec || b.isNan then FVal.zero else sub32 v (dequant (f.decode q) b t)
  leBytes r.size (convert r.fmt .rne false rn).1

/-- The residuals of a row's blocks (R111). -/
def residualRow (r : Resid) (f : Fmt) (scl : Bool) (t : FVal) : List QResult → List FVal → List Byte
  | [], _ => []
  | q :: qs, vs =>
    let n := q.block.elems.length
    ((vs.take n).zip (q.block.elems.zip q.decided)).flatMap (fun x =>
        residualOf r f scl t q.block.scale x.1 x.2.1 x.2.2)
      ++ residualRow r f scl t qs (vs.drop n)

/-- The carried values of row `r`: x + residual in FP32 (R111). -/
def State.carryRow (s : State) (rs : Option Resid) (len r : Nat) (xs : List FVal) : List FVal :=
  match rs with
  | none => xs
  | some d =>
    if d.rzero then xs.map (fun x => add32 x FVal.zero)
    else
      let ps := wideValues d.fmt len (s.read (d.src + r * len * d.size) (len * d.size))
      (xs.zip ps).map (fun xp => add32 xp.1 xp.2)

/-- Carried values of rows from number `r`. -/
def State.carryRows (s : State) (rs : Option Resid) (len : Nat) : Nat → List (List FVal) → List (List FVal)
  | _, [] => []
  | r, x :: xs => s.carryRow rs len r x :: s.carryRows rs len (r + 1) xs

/-- The source of a CONVERT as rows of values, with what ended it early. -/
structure Source where
  rows : List (List FVal)
  bad  : Nat
  fail : Option (Byte × Nat)
  deriving DecidableEq, Repr

/-- Reads strided or gathered rows of a wide or scale-format source (R310). -/
def State.sourceRows (s : State) (p : Nat) (d : Dma) (f : Fmt) (len : Nat) : Nat → Nat → Source
  | 0, _ => ⟨[], 0, none⟩
  | n + 1, r =>
    let a := s.srcRow d r
    match s.auxStop d r, s.gatherStop p d a (len * f.bytes), s.badIn a (len * f.bytes) with
    | some x, _, _ => ⟨[], 0, some x⟩
    | none, some x, _ => ⟨[], 0, some x⟩
    | none, none, some x => ⟨[], 0, some (St.ecc, x)⟩
    | none, none, none =>
      let k := s.sourceRows p d f len n (r + 1)
      { k with rows := wideValues f len (s.read a (len * f.bytes)) :: k.rows }

/-- The words of a plane row of `len` residuals that row `r` reads (R110). -/
def planeReads (rs : Option Resid) (len r : Nat) : List (Nat × Nat) :=
  match rs with
  | some d => if d.rzero then [] else [(d.src + r * len * d.size, len * d.size)]
  | none => []

/-- A source with its residual plane, whose rows are read after the source's: it ends at the first row that cannot be read (R110,
R321, R322). -/
def State.withPlane (s : State) (rs : Option Resid) (len : Nat) (src : Source) : Source :=
  match (List.range src.rows.length).findSome? (fun r =>
      (planeReads rs len r).findSome? (fun x => (s.badIn x.1 x.2).map (fun a => (r, a)))) with
  | some (r, a) => { src with rows := src.rows.take r, fail := some (St.ecc, a) }
  | none => src

/-- The source of a CONVERT (R310). -/
def State.convertSource (s : State) (p : Nat) (d : Dma) (rows len : Nat) : Source :=
  match byteFmt d.srcFmt with
  | none => ⟨[], 0, none⟩
  | some f =>
    if f.narrow then
      let r := s.readNarrow p f (byteBlk d.srcFmt) (byteScl d.srcFmt) d.src rows len
      ⟨r.rows, r.bad, r.fail⟩
    else s.sourceRows p d f len rows 0

/-- First byte and length of the source of a CONVERT that is not gathered. -/
def convertSrcRange (d : Dma) (rows len : Nat) : Nat × Nat :=
  match byteFmt d.srcFmt with
  | none => (d.src, 0)
  | some f =>
    if d.mxin then (d.src, mxBytes f rows len)
    else if f.narrow then (d.src, tensorBytes f (byteBlk d.srcFmt) rows len)
    else (d.src, span rows d.srcLd (len * f.bytes))

/-- First byte and length of the destination of a CONVERT that is not scattered. -/
def convertDstRange (d : Dma) (rows len : Nat) : Nat × Nat :=
  match Fmt.ofCode d.cvt.fmt with
  | none => (d.dst, 0)
  | some f =>
    if d.mxout then (d.dst, mxBytes f rows len)
    else if f.narrow then (d.dst, tensorBytes f d.cvt.blk rows len)
    else (d.dst, span rows d.dstLd (len * f.bytes))

/-- Row length in bytes of a wide or scale format. -/
def fmtRow (fb len : Nat) : Nat := match Fmt.ofCode (fb % 16) with | some f => len * f.bytes | none => 0

/-- The bursts of a narrow tensor of rows x len elements from `base` whose blocks row `r` is the first to need (R65). -/
def rowBursts (f : Fmt) (b16 : Bool) (base len r : Nat) : List (Nat × Nat) :=
  let per := rowBlocks b16 len
  let nb := burstN f b16
  let first := ceilDiv (r * per) nb
  (List.range (ceilDiv ((r + 1) * per) nb - first)).map (fun j => (base + 2048 * (first + j), 2048))

/-- What row `r` of a CONVERT reads of its source: its index, its row or the bursts that it needs, and after the first burst the
tensor-scale entry that the trailer names (R70, R310). -/
def State.srcReads (s : State) (p : Nat) (d : Dma) (len r : Nat) : List (Nat × Nat) :=
  match byteFmt d.srcFmt with
  | none => []
  | some f =>
    if f.narrow then
      let bs := rowBursts f (byteBlk d.srcFmt) d.src len r
      if r = 0 then bs.take 1 ++ s.tsRange p (s.firstTsidx d.src) ++ bs.drop 1 else bs
    else d.auxReads r ++ [(s.srcRow d r, fmtRow d.srcFmt len)]

/-- The reads of each row of a CONVERT, in order (R322). -/
def State.rowReads (s : State) (p : Nat) (d : Dma) (rs : Option Resid) (rows len : Nat) : List (List (Nat × Nat)) :=
  (List.range rows).map (fun r =>
    (match byteFmt d.srcFmt with
     | some f => if f.narrow then (if d.scatter then d.auxReads r else []) else []
     | none => []) ++ s.srcReads p d len r ++ planeReads rs len r)

/-- The ranges whose slots a CONVERT's reads take, each unit once: its source, then its index array, planes and tensor-scale entry. -/
def State.convertClaims (s : State) (p : Nat) (d : Dma) (rs : Option Resid) (rows len : Nat) : List (Nat × Nat) :=
  (match byteFmt d.srcFmt with
   | some f => if f.narrow then (List.range rows).flatMap (rowBursts f (byteBlk d.srcFmt) d.src len)
      else s.srcRows d rows (fmtRow d.srcFmt len)
   | none => []) ++ d.auxRange rows ++
  (match rs with | some r => if r.rzero then [] else [(r.src, rows * len * r.size)] | none => []) ++
  (if (match byteFmt d.srcFmt with | some f => f.narrow | none => false) then s.tsRange p (s.firstTsidx d.src) else [])

/-- How many reads have been made once each row has been read. -/
def readCounts : Nat → List (List (Nat × Nat)) → List Nat
  | _, [] => []
  | k, x :: xs => (k + x.length) :: readCounts (k + x.length) xs

/-- The ranges that a CONVERT reads: the bursts of a narrow source, or the rows of another. -/
def State.convertFrom (s : State) (d : Dma) (rows len : Nat) : List (Nat × Nat) :=
  match byteFmt d.srcFmt with
  | some f => if f.narrow then [convertSrcRange d rows len] else s.srcRows d rows (fmtRow d.srcFmt len)
  | none => []

/-- Whether a code names a narrow format. -/
def codeNarrow (c : Nat) : Bool := match Fmt.ofCode c with | some f => f.narrow | none => false

/-- Residual planes: in T0 or T1, within the windows (R109). -/
def State.residVerdict (s : State) (p : Nat) (rs : Option Resid) (elems : Nat) : Verdict :=
  match rs with
  | none => .go
  | some r =>
    let n := elems * r.size
    .first
      [ .badIf (!r.rzero && !inT0T1 r.src n), .badIf (!inT0T1 r.dst n),
        .quotaIf (if r.rzero then none else s.firstOutside p r.src n), .quotaIf (s.firstOutside p r.dst n) ]

/-- The format rules of a CONVERT (R61, R72, R73, R108, R310, R312). -/
def State.convertFmtBad (s : State) (p : Nat) (b : List Byte) : Bool :=
  let d := Dma.of b
  let dn := codeNarrow d.cvt.fmt
  let sn := match byteFmt d.srcFmt with | some f => f.narrow | none => false
  (byteFmt d.srcFmt).isNone || s.cvtBad p d.cvt || (d.gather && sn) || (d.scatter && dn) || (hdrRes b && !dn) ||
  (d.mxin && (d.gather || d.scatter || d.srcFmt % 16 ≠ d.cvt.fmt || d.cvt.blk || !d.cvt.scl ||
    !(match byteFmt d.srcFmt with | some f => mxFmt f | none => false))) ||
  (d.mxout && (d.gather || d.scatter || d.srcFmt ≠ d.cvt.fmt + 32 ||
    !(match byteFmt d.srcFmt with | some f => mxFmt f | none => false)))

/-- The checks of a CONVERT (R245, R289, R303, R304, R310, R312). -/
def State.convertCheck (s : State) (c : Cmd) : Verdict :=
  let d := Dma.of c.bytes
  let p := c.part
  let b := s.dmaBounds c
  let len := b.1.get
  let rows := b.2.get
  let known := b.1.known && b.2.known && len ≠ 0 && rows ≠ 0
  let sr := convertSrcRange d rows len
  let dr := convertDstRange d rows len
  let sn := match byteFmt d.srcFmt with | some f => f.narrow && !d.mxin | none => false
  let dn := codeNarrow d.cvt.fmt && !d.mxout
  .first
    [ .badIf (d.flagsBad || s.convertFmtBad p c.bytes), .badIf (sn && d.src % 2048 ≠ 0), .badIf (dn && d.dst % 2048 ≠ 0),
      b.1.verdict, b.2.verdict,
      if !known then .go else .first
        [ .badIf (!d.gather && !inAnyTier sr.1 sr.2), .badIf (!d.scatter && !inT0T1T2 dr.1 dr.2),
          .badIf (d.baseBad (fmtRow d.cvt.fmt len)),
          .badIf (!d.scatter && !(if dn || d.mxout then t2Whole dr.1 dr.2
            else (List.range rows).all (fun r => t2Whole (d.dst + r * d.dstLd) (fmtRow d.cvt.fmt len)))),
          s.auxVerdict p d rows, s.residVerdict p (cmdResid c.bytes) (rows * len),
          .badIf (d.mxin && !inAnyTier d.aux (rows * ceilDiv len 32)),
          .badIf (d.mxout && (!inT0T1T2 d.aux (rows * ceilDiv len 32) || !t2Whole d.aux (rows * ceilDiv len 32))),
          .quotaIf (if d.gather then none
            else if sn || d.mxin then s.readRefused true p sr.1 sr.2
            else firstRefused (s.readRefused true p) d.src d.srcLd rows (fmtRow d.srcFmt len)),
          .quotaIf (if d.scatter then none
            else if dn || d.mxout then s.writeRefused p dr.1 dr.2
            else firstRefused (s.writeRefused p) d.dst d.dstLd rows (fmtRow d.cvt.fmt len)),
          .quotaIf (if d.mxin then s.readRefused true p d.aux (rows * ceilDiv len 32) else none),
          .quotaIf (if d.mxout then s.writeRefused p d.aux (rows * ceilDiv len 32) else none),
          if d.mxin || d.mxout then .go else s.cvtVerdict p d.cvt,
          if d.gather then .go else s.t3Verdict sr.1 sr.2 ],
      .okIf (b.1 = .val 0 || b.2 = .val 0) ]

/-- What a CONVERT writes as a narrow tensor: tensor scale, blocks by row, carried values. -/
structure Narrowed where
  t     : FVal
  rows  : List (List QResult)
  vals  : List (List FVal)
  deriving DecidableEq, Repr

/-- Quantises rows of FP32 values under a descriptor and residual descriptor, `t0` being the tensor scale as read at issue (R51 to R54,
R111). -/
def State.narrowRows (s : State) (t0 : FVal) (f : Fmt) (c : Cvt) (rs : Option Resid) (len : Nat) (xs : List (List FVal)) :
    Narrowed :=
  let vs := s.carryRows rs len 0 xs
  let t := if c.tsm = 1 then dataScale f c.scl (maxFinite vs.flatten) else t0
  ⟨t, quantRows f c t len 0 vs, vs⟩

/-! ## Residual planes of commands in flight (R114) -/

/-- The planes that a command of `n` elements reads, and those that it writes. -/
def Resid.planes (r : Resid) (n : Nat) : List (Nat × Nat) × List (Nat × Nat) :=
  (if r.rzero then [] else [(r.src, n * r.size)], [(r.dst, n * r.size)])

/-- The planes of the other commands in flight: whether written, address and length, with the command's number. -/
def State.otherPlanes (s : State) (uid : Nat) : List (Nat × Bool × Nat × Nat) :=
  (s.cmdsInFlight.filter (fun c => c.uid != uid)).flatMap (fun c => (s.trace c.uid).filterMap (fun x => match x with
    | .plane w a n => some (c.uid, w, a, n)
    | _ => none))

/-- Whether what a command writes to its plane is not defined: another command in flight writes a plane that it reads or writes, or
reads one that it writes (R114). -/
def State.planeClash (s : State) (uid : Nat) (rs : Option Resid) (n : Nat) : Bool :=
  match rs with
  | none => false
  | some r =>
    let q := r.planes n
    (s.otherPlanes uid).any (fun o => let x := [(o.2.2.1, o.2.2.2)]
      rangesMeet x q.2 || (o.2.1 && rangesMeet x q.1))

/-- The commands in flight whose planes are no longer defined, as this command writes planes that they read or write, get free bytes
there; the command's own planes are kept for the commands to come (R114). -/
def State.notePlanes (s : State) (c : Cmd) (rs : Option Resid) (n : Nat) : State :=
  match rs with
  | none => s
  | some r =>
    let q := r.planes n
    let others := s.otherPlanes c.uid
    let hurt := (others.filter (fun o => rangesMeet [(o.2.2.1, o.2.2.2)] q.2)).map (fun o => o.1)
    let s1 := (others.filter (fun o => o.2.1 && hurt.contains o.1)).foldl (fun t o =>
      let u := t.draw
      u.store o.2.2.1 (freeBytes u.free o.2.2.2)) s
    let s2 := q.1.foldl (fun t x => t.note c.uid (.plane false x.1 x.2)) s1
    q.2.foldl (fun t x => t.note c.uid (.plane true x.1 x.2)) s2

/-- Whether another command in flight has written to a range. -/
def State.othersWrote (s : State) (uid : Nat) (rs : List (Nat × Nat)) : Bool :=
  (s.cmdsInFlight.filter (fun c => c.uid != uid)).any (fun c => (s.trace c.uid).any (fun x => match x with
    | .wr a _ new _ => rangesMeet [(a, new.length)] rs
    | _ => false))

/-! ## What CONVERT writes -/

/-- The residual rows that a command writes, from row `r` on, each with the number of reads that it needs (R110, R111). -/
def residPuts (d : Resid) (undef : Bool) (f : Fmt) (scl : Bool) (t : FVal) (len : Nat) :
    Nat → List Nat → List (List QResult) → List (List FVal) → List Put
  | r, k :: ks, q :: qs, v :: vs =>
    ⟨k, undef, d.dst + r * len * d.size, residualRow d f scl t q v⟩ :: residPuts d undef f scl t len (r + 1) ks qs vs
  | _, _, _, _ => []

/-- The bursts that a command writes: burst `j` as soon as the rows of its blocks have been read; `per` blocks in a row. -/
def burstPuts (undef : Bool) (dst per nb rows : Nat) (ks : List Nat) : Nat → List (List Byte) → List Put
  | _, [] => []
  | j, b :: bs =>
    let row := min (((j + 1) * nb - 1) / max 1 per) (rows - 1)
    ⟨ks.getD row (ks.getLastD 0), undef, dst + 2048 * j, b⟩ :: burstPuts undef dst per nb rows ks (j + 1) bs

/-- Puts a write into a list before the writes that need as many reads or more. -/
def insertPut (x : Put) : List Put → List Put
  | [] => [x]
  | y :: ys => if x.need ≤ y.need then x :: y :: ys else y :: insertPut x ys

/-- Two lists of writes in the order of the reads that they need, those of the first list first. -/
def mergePuts (xs ys : List Put) : List Put := xs.foldr insertPut ys

/-- Rows of a wide or scale format from row `r` on: their writes, counts, and the row that a SCATTER index stops at (R310). -/
def State.widePuts (s : State) (p : Nat) (d : Dma) (f : Fmt) (undef : Bool) (len : Nat) :
    Nat → List Nat → List (List FVal) → List Put × Counts × Option (Byte × Nat)
  | r, k :: ks, x :: xs =>
    let a := s.dstRow d r
    match s.auxStop d r, s.scatterStop p d a (len * f.bytes) with
    | some e, _ => ([], Counts.none, some e)
    | none, some e => ([], Counts.none, some e)
    | none, none =>
      let w := wideBytes f d.cvt (r * len) x
      let m := s.widePuts p d f undef len (r + 1) ks xs
      (⟨k, undef, a, w.1⟩ :: m.1, w.2.add m.2.1, m.2.2)
  | _, _, _ => ([], Counts.none, none)

/-- The MX elements and scales of a source as blocks (R72): the last block of a row is short when the row is. -/
def State.mxBlocks (s : State) (d : Dma) (f : Fmt) (rows len : Nat) : List (List QBlock) :=
  let codes := unpack f.width (rows * len) (leNat (s.read d.src (mxBytes f rows len)))
  let nb := ceilDiv len 32
  let scales := (s.read d.aux (rows * nb)).map (fun b => b.toNat)
  (List.range rows).map (fun r =>
    (List.range nb).map (fun j =>
      ⟨scales.getD (r * nb + j) 0, ((codes.drop (r * len)).take len |>.drop (32 * j)).take 32⟩))

/-- The scale change of MXINT8 (R72): block with the device's scale code, and elements counted in UNDERFLOW_COUNT. -/
def mxInt8Block (b : QBlock) : QBlock × Counts :=
  if b.scale = 255 then (b, Counts.none)
  else if b.scale ≥ 6 then (⟨b.scale - 6, b.elems⟩, Counts.none)
  else (⟨0, b.elems.map (fun _ => 0)⟩, ⟨0, 0, (b.elems.filter (fun e => e ≠ 0)).length, 0⟩)

/-- The descriptor under which blocks of an MX layout are quantised when they carry residuals: blocks of 32, UE8M0 scales, T = 1.0
(R72, R73, R108; log entry 43). -/
def Cvt.mx (c : Cvt) : Cvt := { c with blk := false, scl := true, tsm := 2, tsidx := 0xFFFFFFFF }

/-- The values that the blocks of an MX source stand for. -/
def mxValues (f : Fmt) (bl : List (List QBlock)) : List (List FVal) :=
  bl.map (fun r => r.flatMap (blockValues f true FVal.one))

/-- The residuals of a command whose reads all come before its writes. -/
def Narrowed.residuals (q : Narrowed) (rs : Option Resid) (undef : Bool) (f : Fmt) (scl : Bool) (len need : Nat) : List Put :=
  match rs with
  | some r => residPuts r undef f scl q.t len 0 (q.rows.map (fun _ => need)) q.rows q.vals
  | none => []

/-- CONVERT from an MX layout: bursts with BLK = 0, SCL = 1 and TSIDX = 0xFFFFFFFF (R72); with a residual descriptor the values that the
elements stand for are carried and quantised anew (R108, R111). -/
def State.runMxIn (s : State) (c : Cmd) (d : Dma) (f : Fmt) (rows len : Nat) : State :=
  let nb := ceilDiv len 32
  let rs := cmdResid c.bytes
  let reads := [(d.src, mxBytes f rows len), (d.aux, rows * nb)] ++ (List.range rows).flatMap (planeReads rs len)
  let clash := s.planeClash c.uid rs (rows * len)
  let s1 := ((s.claimReads c reads).notePlanes c rs (rows * len)).draw
  let fail := (reads.findSome? (fun r => s.badIn r.1 r.2)).map (fun a => (St.ecc, a))
  let given := (s.mxBlocks d f rows len).map (fun r => r.map (fun b => if f = .int8 then mxInt8Block b else (b, Counts.none)))
  let q := s.narrowRows FVal.one f d.cvt.mx rs len (mxValues f (given.map (fun r => r.map (fun b => b.1))))
  let scaled := given.flatten.foldl (fun n b => n.add b.2) Counts.none
  let counts := if rs.isSome then scaled.add (qCounts q.rows) else scaled
  let bl := if rs.isSome then q.rows.flatten.map (fun b => b.block) else given.flatten.map (fun b => b.1)
  let bursts := packBursts f false true 0xFFFFFFFF (tensorBursts f false rows len) bl
  let undef := overlaps d.src (mxBytes f rows len) d.dst (2048 * bursts.length)
  let puts := bursts.zipIdx.map (fun b => (⟨reads.length, undef, d.dst + 2048 * b.2, b.1⟩ : Put)) ++
    q.residuals rs clash f true len reads.length
  let o := weave c (readsUpTo fail reads) 0 (if fail.isSome then [] else puts) ⟨s1, none⟩
  (o.stop fail).finish c { Result.mk0 St.ok (dmaCycles (2048 * bursts.length)) with cvt := counts.list }

/-- The MX scale code of a device UE8M0 code: unchanged, and 6 more for MXINT8; a code above 248 has no MXINT8 code that the
manual states, and is a free byte (R72, R73; log entry 20). -/
def mxScaleOut (k : Nat) (f : Fmt) (sc : Nat) : Byte :=
  if f ≠ .int8 then BitVec.ofNat 8 sc
  else if sc = 255 then 0xFF#8
  else if sc ≤ 248 then BitVec.ofNat 8 (sc + 6)
  else Config.freeByte k sc

/-- CONVERT into an MX layout, from bursts with TSIDX = 0xFFFFFFFF (R73); with a residual descriptor the values of the bursts are
carried and quantised anew (R108, R111). -/
def State.runMxOut (s : State) (c : Cmd) (d : Dma) (f : Fmt) (rows len : Nat) : State :=
  let nb := ceilDiv len 32
  let n := tensorBursts f false rows len
  let rs := cmdResid c.bytes
  let r := readBursts (fun a => s.badIn a 2048) s.burstAt f false true (s.tsCount c.part) n d.src (some 0xFFFFFFFF) [] 0
  let planes := (List.range rows).flatMap (planeReads rs len)
  let reads := (List.range n).map (fun j => (d.src + 2048 * j, 2048)) ++ planes
  let clash := s.planeClash c.uid rs (rows * len)
  let fail := (match r.fail with | some a => some a | none => planes.findSome? (fun (x : Nat × Nat) => s.badIn x.1 x.2)).map (fun a => (St.ecc, a))
  let s1 := ((s.claimReads c reads).notePlanes c rs (rows * len)).draw
  let given := chunk nb rows r.blocks
  let q := s.narrowRows FVal.one f d.cvt.mx rs len ((mxValues f given).map (fun x => x.take len))
  let rowsOf := if rs.isSome then q.rows.map (fun x => x.map (fun b => b.block)) else given
  let counts := if rs.isSome then qCounts q.rows else Counts.none
  let codes := rowsOf.flatMap (fun (bs : List QBlock) => (bs.flatMap (fun b => b.elems)).take len)
  let puts : List Put :=
    [⟨reads.length, overlaps d.src (2048 * n) d.dst (mxBytes f rows len), d.dst, leBytes (mxBytes f rows len) (pack f.width codes)⟩,
     ⟨reads.length, false, d.aux, rowsOf.flatMap (fun (bs : List QBlock) => bs.map (fun (b : QBlock) => mxScaleOut s1.free f b.scale))⟩]
  let o := weave c (readsUpTo fail reads) 0 (if fail.isSome then [] else puts ++ q.residuals rs clash f true len reads.length) ⟨s1, none⟩
  (o.stop fail).finish c { Result.mk0 St.ok (dmaCycles (2048 * n)) with cvt := (counts.add ⟨0, 0, 0, r.bad⟩).list }

/-- CONVERT of values: narrow, wide or scale-format output (R310). Under TSM = 1 the source is read once for the scale, which is
written before the first element, and then again (R53, R311). A plane that overlaps another range of the command without being the
same as it is read as it was before the command, and bursts are written before the residuals of their rows: the manual does not say
(R113; DESIGN CHOICE, log entry 43). -/
def State.runConvertValues (s : State) (c : Cmd) (d : Dma) (f : Fmt) (rows len : Nat) : State :=
  let sr := convertSrcRange d rows len
  let dr := convertDstRange d rows len
  let rs := cmdResid c.bytes
  let src := s.withPlane rs len (s.convertSource c.part d rows len)
  let undef := rangesMeet (s.convertFrom d rows len) (if f.narrow then [dr] else s.dstRows d rows (len * f.bytes))
  let base := max sr.2 dr.2
  let claims := s.convertClaims c.part d rs rows len
  let rowReads := s.rowReads c.part d rs rows len
  let reads := readsUpTo src.fail rowReads.flatten
  let ks := readCounts 0 rowReads
  if f.narrow then
    let clash := s.planeClash c.uid rs (rows * len)
    let s1 := (s.claimReads c claims).notePlanes c rs (rows * len)
    let q := s.narrowRows (s.cvtScale c.part d.cvt) f d.cvt rs len src.rows
    let blocks := q.rows.flatten.map (fun b => b.block)
    let nb := burstN f d.cvt.blk
    let whole := if src.fail.isSome then blocks.length / nb else tensorBursts f d.cvt.blk rows len
    let bursts := packBursts f d.cvt.blk d.cvt.scl d.cvt.trailerIdx whole (blocks.take (whole * nb))
    let puts := mergePuts (burstPuts undef d.dst (rowBlocks d.cvt.blk len) nb rows ks 0 bursts)
      (match rs with | some r => residPuts r clash f d.cvt.scl q.t len 0 ks q.rows q.vals | none => [])
    let once := d.cvt.tsm = 1
    let o : Out :=
      if once then
        let o0 : Out := ⟨s1.noteReads c reads, none⟩
        if src.fail.isSome then o0
        else
          let o1 := o0.put c false (s.tsAddr c.part d.cvt.tsidx) (leBytes 4 (fp32.encode q.t))
          weave c reads 0 puts { o1 with s := (o1.s.note c.uid .pass).claimReads c claims }
      else weave c reads 0 puts ⟨s1, none⟩
    let counts := (qCounts q.rows).add ⟨0, 0, 0, src.bad⟩
    (o.stop src.fail).finish c { Result.mk0 St.ok (dmaCycles base + (if once then ceilDiv sr.2 256 else 0)) with
      cvt := counts.list }
  else
    let w := s.widePuts c.part d f undef len 0 ks src.rows
    let fail := match w.2.2 with | some e => some e | none => src.fail
    let o := weave c (readsUpTo fail rowReads.flatten) 0 w.1 ⟨s.claimReads c claims, none⟩
    (o.stop fail).finish c { Result.mk0 St.ok (dmaCycles base) with cvt := (w.2.1.add ⟨0, 0, 0, src.bad⟩).list }

/-- DMA CONVERT (R310). -/
def State.runConvert (s : State) (c : Cmd) : State :=
  let d := Dma.of c.bytes
  let b := s.dmaBounds c
  let len := b.1.get
  let rows := b.2.get
  match Fmt.ofCode d.cvt.fmt with
  | none => s.finish c (Result.mk0 St.ok 0)
  | some f =>
    if d.mxin then s.runMxIn c d f rows len
    else if d.mxout then s.runMxOut c d f rows len
    else s.runConvertValues c d f rows len

/-- DMA_CONVERT (R310): decodes, converts and quantises a tensor, with optional residual carry and MX layouts. -/
def execDmaConvert (i : Issuer) (s : State) : Host.Outcome State Fault Refusal :=
  inRange (issuerOk i) (fun _ => .next (s.issueRow i (isDma .convert) State.convertCheck State.runConvert))

/-! ## Memory-side atomics (R313 to R316) -/

/-- Bytes of an atomic element (R308, R314). -/
def atomicSize (dtype : Nat) : Nat := if dtype = 1 ∨ dtype = 2 then 2 else if dtype = 4 ∨ dtype = 6 then 8 else 4

/-- What the adders compute for destination code d and source code x (R314): op 2 ADD, 3 MAX, 4 MIN. -/
def atomicElem (op dtype d x : Nat) : Nat :=
  let flt := fun (f : Fmt) =>
    let a := f.decode d
    let b := f.decode x
    if op = 2 then (convert f .rne (f == .fp32) (add32 a b)).1
    else (convert f .rne false (if op = 3 then maxNan a b else minNan a b)).1
  let sgn := fun (w : Nat) =>
    if op = 2 then (d + x) % 2 ^ w
    else
      let a := signed w d
      let b := signed w x
      unsigned w (if op = 3 then max a b else min a b)
  let uns := fun (w : Nat) => if op = 2 then (d + x) % 2 ^ w else if op = 3 then max d x else min d x
  match dtype with
  | 0 => flt .fp32
  | 1 => flt .bf16
  | 2 => flt .fp16
  | 3 => sgn 32
  | 4 => sgn 64
  | 5 => uns 32
  | _ => uns 64

/-- Updates `n` elements in ascending address (R314). -/
def atomicBytes (op dtype : Nat) : Nat → List Byte → List Byte → List Byte
  | 0, _, _ => []
  | n + 1, d, x =>
    let k := atomicSize dtype
    leBytes k (atomicElem op dtype (num d 0 k) (num x 0 k)) ++ atomicBytes op dtype n (d.drop k) (x.drop k)

/-- The checks of ADD, MAX and MIN (R312). -/
def State.atomicCheck (s : State) (c : Cmd) : Verdict :=
  let d := Dma.of c.bytes
  let p := c.part
  let k := atomicSize d.dtype
  let b := s.dmaBounds c
  let len := b.1.get * k
  let rows := b.2.get
  let known := b.1.known && b.2.known && len ≠ 0 && rows ≠ 0
  let narrowSrc := match byteFmt d.srcFmt with | some f => f.narrow | none => false
  .first
    [ .badIf (d.flagsBad || hdrRes c.bytes || d.dtype > 6 || narrowSrc),
      .badIf (d.src % k ≠ 0 || d.dst % k ≠ 0 || d.srcLd % k ≠ 0 || d.dstLd % k ≠ 0), b.1.verdict, b.2.verdict,
      if !known then .go else .first
        [ .badIf (!d.gather && !inAnyTier d.src (span rows d.srcLd len)),
          .badIf (if d.scatter then region d.dst != some .t1 else rangeRegion d.dst (span rows d.dstLd len) != some .t1),
          .badIf (d.baseBad len), s.auxVerdict p d rows,
          .quotaIf (if d.gather then none else firstRefused (s.readRefused false p) d.src d.srcLd rows len),
          .quotaIf (if d.scatter then none else firstRefused (s.writeRefused p) d.dst d.dstLd rows len),
          if d.gather then .go else s.t3Verdict d.src (span rows d.srcLd len) ],
      .okIf (b.1 = .val 0 || b.2 = .val 0) ]

/-- Updates the part of a row that lies in each 2 KiB unit, `n` units at most; an uncorrectable unit is not written (R323). -/
def atomicUnits (c : Cmd) (op dtype : Nat) (undef : Bool) : Nat → Nat → List Byte → Out → Out
  | 0, _, _, o => o
  | n + 1, t, xs, o =>
    if o.fail.isSome || xs.isEmpty then o
    else
      let k := min xs.length (unitOf t + 2048 - t)
      match o.s.badIn (unitOf t) 2048 with
      | some x => o.stop (some (St.ecc, x))
      | none =>
        let new := atomicBytes op dtype (k / atomicSize dtype) (o.s.read t k) (xs.take k)
        let s1 := (if undef then o.s.draw else o.s).note c.uid (.rmw (unitOf t) 2048)
        let data := if undef then freeBytes s1.free k else new
        let s2 := (s1.storeFor c.uid t data).touch c.uid c.part c.eg t k .atomic
        atomicUnits c op dtype undef n (t + k) (xs.drop k) ⟨s2, none⟩

/-- Updates rows `r` onward in ascending order (R314). -/
def atomicRows (c : Cmd) (d : Dma) (undef : Bool) (len : Nat) : Nat → Nat → Out → Out
  | 0, _, o => o
  | n + 1, r, o =>
    if o.fail.isSome then o
    else
      let s0 := o.s.noteReads c (d.auxReads r)
      let a := s0.srcRow d r
      let t := s0.dstRow d r
      let t1Stop := if d.scatter && rangeRegion t len != some .t1 then some (St.quota, t) else none
      let stop := (s0.auxStop d r).or ((s0.gatherStop c.part d a len).or ((s0.scatterStop c.part d t len).or t1Stop))
      let s1 := s0.touchRead c a len
      match stop, s0.badIn a len with
      | some f, _ => (Out.mk s0 none).stop (some f)
      | none, some x => (Out.mk s1 none).stop (some (St.ecc, x))
      | none, none =>
        atomicRows c d undef len n (r + 1) (atomicUnits c d.op d.dtype undef (len / 2048 + 2) t (s1.read a len) ⟨s1, none⟩)

/-- DMA ADD, MAX or MIN (R313, R314). -/
def State.runAtomic (s : State) (c : Cmd) : State :=
  let d := Dma.of c.bytes
  let b := s.dmaBounds c
  let len := b.1.get * atomicSize d.dtype
  let rows := b.2.get
  let undef := rangesMeet (s.srcRows d rows len) (s.dstRows d rows len)
  (atomicRows c d undef len rows 0 ⟨s.claimReads c (d.auxRange rows), none⟩).finish c (Result.mk0 St.ok (dmaCycles (rows * len)))

/-- DMA_ADD (R314): memory-side addition to each destination unit in T1. -/
def execDmaAdd (i : Issuer) (s : State) : Host.Outcome State Fault Refusal :=
  inRange (issuerOk i) (fun _ => .next (s.issueRow i (isDma .add) State.atomicCheck State.runAtomic))

/-- DMA_MAX (R314): memory-side maximum. -/
def execDmaMax (i : Issuer) (s : State) : Host.Outcome State Fault Refusal :=
  inRange (issuerOk i) (fun _ => .next (s.issueRow i (isDma .max) State.atomicCheck State.runAtomic))

/-- DMA_MIN (R314): memory-side minimum. -/
def execDmaMin (i : Issuer) (s : State) : Host.Outcome State Fault Refusal :=
  inRange (issuerOk i) (fun _ => .next (s.issueRow i (isDma .min) State.atomicCheck State.runAtomic))

/-! ## Exponent coding -/

/-- A coder's table copy; empty when it holds none (R339, R341). -/
def State.codeTable (s : State) (n slot copy : Nat) : List Byte := Sparse.rd (fun _ => []) (n * 16 + slot * 2 + copy) s.codeTab

/-- Replaces a coder's table copy. -/
def State.setCodeTable (s : State) (n slot copy : Nat) (r : List Byte) : State :=
  { s with codeTab := Sparse.wr (fun _ => []) (n * 16 + slot * 2 + copy) r s.codeTab }

/-- The active copy of a slot: its epoch (R339). -/
def State.codeActive (s : State) (n slot : Nat) : Nat := bits (s.fld F.cmpTblstat_ACTIVE n) slot 1

/-- Whether a slot awaits its flip. -/
def State.codePending (s : State) (n slot : Nat) : Bool := bit (s.fld F.cmpTblstat_PENDING n) slot

/-- Flips one slot if it is pending: the shadow becomes active (R340). A BUILD or LOAD still under way in cycle `t`, command `skip`
apart, has not set PENDING yet. -/
def State.codeFlipSlot (s : State) (n slot t : Nat) (skip : Option Nat) : State :=
  if !s.codePending n slot || s.tableRuns n slot t skip then s
  else
    let act := 1 - s.codeActive n slot
    let a := s.fld F.cmpTblstat_ACTIVE n
    let s1 := s.setFld F.cmpTblstat_ACTIVE n (a - bits a slot 1 * 2 ^ slot + act * 2 ^ slot)
    let s2 := s1.setFld F.cmpTblstat_PENDING n (s.fld F.cmpTblstat_PENDING n - 2 ^ slot)
    let v := s2.fld F.cmpTblstat_VALID n
    s2.setFld F.cmpTblstat_VALID n
      (v - bits v slot 1 * 2 ^ slot + (if (s.codeTable n slot act).isEmpty then 0 else 2 ^ slot))

/-- The flip of every pending slot at a lane-command boundary in cycle `t` (R340). -/
def State.codeFlip (s : State) (n t : Nat) (skip : Option Nat) : State := (List.range 8).foldl (fun x k => x.codeFlipSlot n k t skip) s

/-- The flip before a command of the lanes issues (R340). -/
def State.codeFlipFor (s : State) (c : Cmd) : State := s.codeFlip c.eg c.issued (some c.uid)

/-- A lane command of the coder: one that completes at issue flips pending slots too (R340). -/
def State.codeRow (s : State) (i : Issuer) (mine : List Byte → Bool) (check : State → Cmd → Verdict)
    (run : State → Cmd → State) : State :=
  let t := s.issueRow i mine check run
  if s.doneAtIssue i mine check then (match s.nextOf i with | some d => t.codeFlipFor (s.mkCmd i d) | none => t) else t

/-- Writes a table to the shadow of a slot and marks it pending (R340), for a command whose data may still turn out uncorrectable. -/
def State.codeInstall (s0 : State) (uid n slot : Nat) (r : List Byte) : State :=
  let copy := 1 - s0.codeActive n slot
  let s := (s0.note uid (.reg .cmpTblstat n (s0.reg .cmpTblstat n))).note uid
    (.code (n * 16 + slot * 2 + copy) (s0.codeTable n slot copy))
  let s1 := s.setCodeTable n slot copy r
  s1.setFld F.cmpTblstat_PENDING n (s1.fld F.cmpTblstat_PENDING n ||| 2 ^ slot)

/-- The format byte that a coding command codes: SRC_FMT, or FMT, BLK and SCL of CVT under CONVERT; BLK and SCL count for narrow
formats only (R338). -/
def Dma.codedFmt (d : Dma) : Nat :=
  let b := if d.op = 1 then d.cvt.fmt + 16 * b2n d.cvt.blk + 32 * b2n d.cvt.scl else d.srcFmt
  if codeNarrow (b % 16) then b else b % 16

/-- Whether a coded format byte names a format that is coded (R345). -/
def codedOk (fb : Nat) : Bool := match byteFmt fb with | some f => !f.isScale | none => false

/-- Uncoded length in bytes of what ENCODE or BUILD reads. -/
def Dma.uncoded (d : Dma) (rows len : Nat) : Nat :=
  if d.op = 0 then rows * len
  else match Fmt.ofCode d.cvt.fmt with
    | none => 0
    | some f => if f.narrow then tensorBytes f d.cvt.blk rows len else rows * len * f.bytes

/-- Whether an uncoded length suits the coded format (R333). -/
def ulenOk (fb n : Nat) : Bool :=
  match byteFmt fb with
  | some f => if f.narrow then n % 2048 == 0 else n % f.bytes == 0
  | none => false

/-- Whether SRC_FMT or CVT of an ENCODE or BUILD names a scale format or code 0xF (R345). -/
def Dma.codeFmtBad (d : Dma) : Bool := !codedOk d.codedFmt || !codedOk d.srcFmt

/-- The checks of ENCODE and BUILD on their source. -/
def State.codeSrcVerdict (s : State) (c : Cmd) (d : Dma) (rows len : Nat) : Verdict :=
  let sr := if d.op = 0 then (d.src, span rows d.srcLd len) else convertSrcRange d rows len
  let sn := match byteFmt d.srcFmt with | some f => f.narrow | none => false
  .first
    [ .badIf (!inAnyTier sr.1 sr.2),
      .quotaIf (if d.op = 0 then firstRefused (s.readRefused true c.part) d.src d.srcLd rows len
        else if sn then s.readRefused true c.part sr.1 sr.2
        else firstRefused (s.readRefused true c.part) d.src d.srcLd rows (fmtRow d.srcFmt len)),
      s.t3Verdict sr.1 sr.2 ]

/-- The checks of ENCODE (R337 to R341, R345). -/
def State.encodeCheck (s0 : State) (c : Cmd) : Verdict :=
  let d := Dma.of c.bytes
  let s := s0.codeFlipFor c
  let b := s.dmaBounds c
  let len := b.1.get
  let rows := b.2.get
  let fb := d.codedFmt
  let n := d.uncoded rows len
  let tab := s.codeTable c.eg d.slot (s.codeActive c.eg d.slot)
  let known := b.1.known && b.2.known && len ≠ 0 && rows ≠ 0
  let sn := match byteFmt d.srcFmt with | some f => f.narrow | none => false
  .first
    [ .badIf (d.flagsBad || d.codeFmtBad || (hdrRes c.bytes && d.op = 0)), .badIf (d.op = 1 && s.convertFmtBad c.part c.bytes),
      .badIf (d.op = 1 && sn && d.src % 2048 ≠ 0), .badIf (d.dst % 2048 ≠ 0),
      .badIf (tab.isEmpty || num tab 0 1 ≠ fb), b.1.verdict, b.2.verdict,
      if !known then .go else .first
        [ .badIf (!ulenOk fb n), .badIf (!inT0T1 d.dst (xmax n)), s.codeSrcVerdict c d rows len,
          s.residVerdict c.part (cmdResid c.bytes) (rows * len), .quotaIf (s.writeRefused c.part d.dst (xmax n)),
          if d.op = 1 then s.cvtVerdict c.part d.cvt else .go ],
      .okIf (b.1 = .val 0 || b.2 = .val 0) ]

/-- The bytes a plain row source holds, row after row, up to the first uncorrectable word. -/
def State.rowBytes (s : State) (base ld rows len : Nat) : List Byte × Option Nat :=
  match (List.range rows).findSome? (fun r => s.badIn (base + r * ld) len) with
  | some a => ([], some a)
  | none => ((List.range rows).flatMap (fun r => s.read (base + r * ld) len), none)

/-- What ENCODE or BUILD codes: the uncoded bytes, the quantised rows and scale under CONVERT, counts, and a failure. -/
structure Uncoded where
  data   : List Byte
  narrow : Option Narrowed
  counts : Counts
  fail   : Option (Byte × Nat)
  deriving DecidableEq, Repr

/-- The uncoded bytes of an ENCODE or BUILD source (R338). -/
def State.uncodedOf (s : State) (c : Cmd) (d : Dma) (rows len : Nat) : Uncoded :=
  if d.op = 0 then
    let r := s.rowBytes d.src d.srcLd rows len
    ⟨r.1, none, Counts.none, r.2.map (fun a => (St.ecc, a))⟩
  else match Fmt.ofCode d.cvt.fmt with
    | none => ⟨[], none, Counts.none, none⟩
    | some f =>
      let src := s.withPlane (cmdResid c.bytes) len (s.convertSource c.part d rows len)
      if src.fail.isSome then ⟨[], none, ⟨0, 0, 0, src.bad⟩, src.fail⟩
      else if f.narrow then
        let q := s.narrowRows (s.cvtScale c.part d.cvt) f d.cvt (cmdResid c.bytes) len src.rows
        let bs := packBursts f d.cvt.blk d.cvt.scl d.cvt.trailerIdx (tensorBursts f d.cvt.blk rows len)
          (q.rows.flatten.map (fun b => b.block))
        ⟨bs.flatten, some q, (qCounts q.rows).add ⟨0, 0, 0, src.bad⟩, none⟩
      else
        let w := wideBytes f d.cvt 0 src.rows.flatten
        ⟨w.1, none, w.2.add ⟨0, 0, 0, src.bad⟩, none⟩

/-- What an ENCODE or BUILD reads, in order, once: rows of bytes, or as CONVERT reads its source (R338). -/
def State.codeReads (s : State) (p : Nat) (d : Dma) (rs : Option Resid) (rows len : Nat) : List (Nat × Nat) :=
  if d.op = 0 then s.srcRows d rows len else (s.rowReads p d rs rows len).flatten

/-- Whether an ENCODE or BUILD computes its tensor scale from the data: CONVERT to a narrow format under TSM = 1 (R53, R61). -/
def Dma.twoPass (d : Dma) : Bool := d.op = 1 && codeNarrow d.cvt.fmt && d.cvt.tsm = 1

/-- Takes the slots of what an ENCODE or BUILD reads, and keeps its reads: both passes under TSM = 1 (R53). -/
def State.codeRead (s : State) (c : Cmd) (d : Dma) (rs : Option Resid) (rows len : Nat) (fail : Option (Byte × Nat)) : State :=
  let claims := if d.op = 0 then s.srcRows d rows len else s.convertClaims c.part d rs rows len
  let s1 := (s.claimReads c claims).noteReads c (readsUpTo fail (s.codeReads c.part d rs rows len))
  if d.twoPass && fail.isNone then (s1.note c.uid .pass).claimReads c claims else s1

/-- Takes the slots of units that carry no data, which stay idle (R343). -/
def State.claimIdle (s : State) (c : Cmd) (a n : Nat) : State := s.requests c.uid c.part c.eg a n .idle

/-- The chunks of a coded stream at `base`: address, coded length and uncoded length (R333). -/
def streamChunks (base ulen : Nat) (index : List Byte) : List (Nat × Nat × Nat) :=
  let n := ceilDiv ulen 32768
  (List.range n).map (fun k =>
    let e := num index (8 * k) 8
    (base + 64 + 64 * ceilDiv n 8 + 64 * (e % 2 ^ 32), 64 * bits e 32 10, min 32768 (ulen - 32768 * k)))

/-- Under PACE = 0 each chunk takes on its coded side the units that its uncoded bytes would touch: those beyond its coded length stay
idle (R343). -/
def State.paceUncoded (s : State) (c : Cmd) (pace : Bool) (chunks : List (Nat × Nat × Nat)) : State :=
  if pace then s
  else chunks.foldl (fun t k =>
    let last := unitsOf k.1 k.2.1
    ((unitsOf k.1 k.2.2).filter (fun u => !last.contains u)).foldl (fun t u => t.claimIdle c u 1) t) s

/-- DMA ENCODE (R333 to R335, R338, R342, R343). -/
def State.runEncode (s0 : State) (c : Cmd) : State :=
  let d := Dma.of c.bytes
  let s := s0.codeFlipFor c
  let b := s.dmaBounds c
  let len := b.1.get
  let rows := b.2.get
  let fb := d.codedFmt
  let rs := if d.op = 0 then none else cmdResid c.bytes
  let tab := s.codeTable c.eg d.slot (s.codeActive c.eg d.slot)
  let u := s.uncodedOf c d rows len
  let clash := s.planeClash c.uid rs (rows * len)
  let s1 := (s.codeRead c d rs rows len u.fail).notePlanes c rs (rows * len)
  match u.fail, byteFmt fb with
  | none, some f =>
    let e := encodeStream fb f tab u.data
    let s2 := (s1.count F.cmpStat_RAWCHUNKS c.eg e.2.1).count F.cmpStat_ELIDEFAIL c.eg e.2.2
    let o0 : Out := ⟨s2, none⟩
    let o1 := match u.narrow with
      | some q => if d.cvt.tsm = 1 then o0.put c false (s.tsAddr c.part d.cvt.tsidx) (leBytes 4 (fp32.encode q.t)) else o0
      | none => o0
    let from_ := if d.op = 0 then s.srcRows d rows len else s.convertFrom d rows len
    let puts := (⟨0, rangesMeet from_ [(d.dst, xmax u.data.length)], d.dst, e.1⟩ : Put) ::
      (match u.narrow, Fmt.ofCode d.cvt.fmt with
       | some q, some g => q.residuals rs clash g d.cvt.scl len 0
       | _, _ => [])
    let o2 := weave c [] 0 puts o1
    let n := ceilDiv u.data.length 32768
    let o3 : Out := { o2 with s := o2.s.paceUncoded c (bit d.xc 6) (streamChunks d.dst u.data.length (sub e.1 64 (8 * n))) }
    o3.finish c { Result.mk0 St.ok (64 + ceilDiv u.data.length 256 + ceilDiv (8 * n) 256 + 1 + 16) with cvt := u.counts.list }
  | f, _ => ((Out.mk s1 none).stop f).finish c { Result.mk0 St.ok 64 with cvt := u.counts.list }

/-- DMA_ENCODE (R338): writes the data as an exponent-coded stream object. -/
def execDmaEncode (i : Issuer) (s : State) : Host.Outcome State Fault Refusal :=
  inRange (issuerOk i) (fun _ => .next (s.codeRow i (isDma .encode) State.encodeCheck State.runEncode))

/-- The checks of DECODE at issue (R338, R345). -/
def State.decodeCheck (s : State) (c : Cmd) : Verdict :=
  let d := Dma.of c.bytes
  let b := s.dmaBounds c
  let len := b.1.get
  let rows := b.2.get
  let known := b.1.known && b.2.known && len ≠ 0 && rows ≠ 0
  .first
    [ .badIf (d.flagsBad || hdrRes c.bytes || d.op ≠ 0), .badIf (!inAnyTier d.src 64), b.1.verdict, b.2.verdict,
      if !known then .go else .first
        [ .badIf (!inT0T1 d.dst (span rows d.dstLd len)), .quotaIf (s.readRefused true c.part d.src 64),
          .quotaIf (firstRefused (s.writeRefused c.part) d.dst d.dstLd rows len), s.t3Verdict d.src 64 ],
      .okIf (b.1 = .val 0 || b.2 = .val 0) ]

/-- Whether a stream header is good for a captured table (R333, R345). -/
def headerOk (h tab : List Byte) (need : Nat) : Bool :=
  let fb := num h 0 1
  let ulen := num h 8 8
  num h 61 3 == crc24 (h.take 61) && !tab.isEmpty && fb == num tab 0 1 && num h 20 4 == tableCheck tab &&
  ulenOk fb ulen && num h 16 4 == ceilDiv ulen 32768 && need ≤ ulen

/-- Decodes chunks `k` onward, `n` of them, into bytes; stops at the first failure with its status and address (R345). -/
def State.decodeChunks (s : State) (p src fb ulen tsidx : Nat) (f : Fmt) (tab : List Byte) :
    Nat → Nat → List Byte × Option (Byte × Nat)
  | 0, _ => ([], none)
  | n + 1, k =>
    let nch := ceilDiv ulen 32768
    let ea := src + 64 + 8 * k
    let area := src + 64 + 64 * ceilDiv nch 8
    match s.readRefused true p ea 8, s.badIn ea 8 with
    | some x, _ => ([], some (St.quota, x))
    | none, some x => ([], some (St.ecc, x))
    | none, none =>
      let e := num (s.read ea 8) 0 8
      let ln := bits e 32 10
      if ln = 0 ∨ ln > 512 ∨ e / 2 ^ 43 ≠ 0 then ([], some (St.ecc, ea))
      else
        let ca := area + 64 * (e % 2 ^ 32)
        if !inAnyTier ca (64 * ln) then ([], some (St.quota, ca))
        else match s.readRefused true p ca (64 * ln), s.badIn ca (64 * ln) with
          | some x, _ => ([], some (St.quota, x))
          | none, some x => ([], some (St.ecc, x))
          | none, none =>
            match decodeChunk fb f tab tsidx (min 32768 (ulen - 32768 * k)) (bit e 42) (s.read ca (64 * ln)) with
            | none => ([], some (St.ecc, ca))
            | some bs =>
              let r := s.decodeChunks p src fb ulen tsidx f tab n (k + 1)
              (bs ++ r.1, r.2)

/-- The writes of whole rows of decoded bytes from row `r` on: a row needs the header and the index entries and chunks up to its last
byte, `off` being the uncoded offset of row 0 within the first chunk. -/
def rowPuts (undef : Bool) (dst ld len off : Nat) : Nat → Nat → List Byte → List Put
  | 0, _, _ => []
  | n + 1, r, bs =>
    if bs.length < len then []
    else ⟨1 + 2 * ceilDiv (off + (r + 1) * len) 32768, undef, dst + r * ld, bs.take len⟩ ::
      rowPuts undef dst ld len off n (r + 1) (bs.drop len)

/-- DMA DECODE (R333 to R335, R338, R342 to R345). The output of a stream that another command in flight has written to is free bytes. -/
def State.runDecode (s0 : State) (c : Cmd) : State :=
  let d := Dma.of c.bytes
  let s := s0.codeFlipFor c
  let b := s.dmaBounds c
  let len := b.1.get
  let rows := b.2.get
  let tab := s.codeTable c.eg d.slot (s.codeActive c.eg d.slot)
  let h := s.read d.src 64
  let off := d.srcLd * 32768
  let need := off + rows * len
  let cyc := 64 + 48 + ceilDiv (rows * len) 256 + 16
  let stopAt := fun (t : State) (a : Nat) => ((Out.mk t none).stop (some (St.ecc, a))).finish c (Result.mk0 St.ok cyc)
  match s.badIn d.src 64, byteFmt (num h 0 1) with
  | none, some f =>
    if !headerOk h tab need then stopAt (s.touchRead c d.src 64) d.src
    else
      let ulen := num h 8 8
      let first := off / 32768
      let n := ceilDiv need 32768 - first
      let r := s.decodeChunks c.part d.src (num h 0 1) ulen (num h 4 4) f tab n first
      let all := streamChunks d.src ulen (s.read (d.src + 64) (8 * ceilDiv ulen 32768))
      let chunks := (all.drop first).take n
      let reads := (d.src, 64) :: (chunks.zipIdx.flatMap (fun k => [(d.src + 64 + 8 * (first + k.2), 8), (k.1.1, k.1.2.1)]))
      let claims := (d.src, 64 + 8 * (first + n)) :: chunks.map (fun k => (k.1, k.2.1))
      let s1 := (s.claimReads c claims).paceUncoded c (bit d.xc 6) chunks
      let undef := rangesMeet [(d.src, xmax ulen)] (s.dstRows d rows len) || s.othersWrote c.uid [(d.src, xmax ulen)]
      let o := weave c (readsUpTo r.2 reads) 0 (rowPuts undef d.dst d.dstLd len (off % 32768) rows 0 r.1) ⟨s1, none⟩
      (o.stop r.2).finish c (Result.mk0 St.ok cyc)
  | some x, _ => stopAt (s.touchRead c d.src 64) x
  | none, none => stopAt (s.touchRead c d.src 64) d.src

/-- DMA_DECODE (R338): decodes a stream object into uncoded rows. -/
def execDmaDecode (i : Issuer) (s : State) : Host.Outcome State Fault Refusal :=
  inRange (issuerOk i) (fun _ => .next (s.codeRow i (isDma .decode) State.decodeCheck State.runDecode))

/-- The checks of BUILD (R338, R345). -/
def State.buildCheck (s : State) (c : Cmd) : Verdict :=
  let d := Dma.of c.bytes
  let b := s.dmaBounds c
  let len := b.1.get
  let rows := b.2.get
  let fb := d.codedFmt
  let known := b.1.known && b.2.known && len ≠ 0 && rows ≠ 0
  let sn := match byteFmt d.srcFmt with | some f => f.narrow | none => false
  .first
    [ .badIf (d.flagsBad || d.codeFmtBad || hdrRes c.bytes), .badIf (d.op = 1 && s.convertFmtBad c.part c.bytes),
      .badIf (d.op = 1 && sn && d.src % 2048 ≠ 0), .badIf (!inT0T1 d.dst 1024), b.1.verdict, b.2.verdict,
      if !known then .go else .first
        [ .badIf (!ulenOk fb (d.uncoded rows len)), s.codeSrcVerdict c d rows len, .quotaIf (s.writeRefused c.part d.dst 1024),
          if d.op = 1 && d.cvt.tsm = 0 then s.cvtVerdict c.part d.cvt else .go ],
      .okIf (b.1 = .val 0 || b.2 = .val 0) ]

/-- DMA with XC TABLE, BUILD (R332, R338, R340, R342). -/
def State.runBuild (s0 : State) (c : Cmd) : State :=
  let d := Dma.of c.bytes
  let s := s0.codeFlipFor c
  let b := s.dmaBounds c
  let len := b.1.get
  let rows := b.2.get
  let fb := d.codedFmt
  let u := s.uncodedOf c d rows len
  let sr := if d.op = 0 then (d.src, span rows d.srcLd len) else convertSrcRange d rows len
  let s1 := s.codeRead c d none rows len u.fail
  match u.fail, byteFmt fb with
  | none, some f =>
    let us := pieces 2048 (ceilDiv u.data.length 2048) u.data
    let r := buildRecord fb f (bit fb 5) (us.flatMap (unitElems f (bit fb 4))) (us.flatMap (unitScales f (bit fb 4)))
    let from_ := if d.op = 0 then s.srcRows d rows len else s.convertFrom d rows len
    let o := (Out.mk s1 none).put c (rangesMeet from_ [(d.dst, 1024)]) d.dst r
    let s2 := if o.fail.isNone then o.s.codeInstall c.uid c.eg d.slot r else o.s
    (Out.mk s2 o.fail).finish c { Result.mk0 St.ok (64 + ceilDiv u.data.length 256 +
      (if d.twoPass then ceilDiv sr.2 256 else 0) + 4096 + 4 + 16) with cvt := u.counts.list }
  | f, _ => ((Out.mk s1 none).stop f).finish c (Result.mk0 St.ok 64)

/-- TABLE_BUILD (R332): builds a code table from the source into a record and a slot shadow. -/
def execTableBuild (i : Issuer) (s : State) : Host.Outcome State Fault Refusal :=
  inRange (issuerOk i) (fun _ => .next (s.codeRow i (isDma .build) State.buildCheck State.runBuild))

/-- The checks of LOAD (R338, R345). -/
def State.loadCheck (s : State) (c : Cmd) : Verdict :=
  let d := Dma.of c.bytes
  .first
    [ .badIf (d.flagsBad || hdrRes c.bytes || d.op ≠ 0), .badIf (!inAnyTier d.src 1024),
      .quotaIf (s.readRefused true c.part d.src 1024), s.t3Verdict d.src 1024 ]

/-- DMA with XC TABLE, LOAD: validates a record and writes it to the shadow of a slot (R331, R340, R342). -/
def State.runLoad (s : State) (c : Cmd) : State :=
  let d := Dma.of c.bytes
  let s1 := s.touchRead c d.src 1024
  let r := s.read d.src 1024
  let cyc := 64 + 4 + 64 + 16
  match s.badIn d.src 1024 with
  | some x => ((Out.mk s1 none).stop (some (St.ecc, x))).finish c (Result.mk0 St.ok cyc)
  | none =>
    if tableValid r then (s1.codeInstall c.uid c.eg d.slot r).finish c (Result.mk0 St.ok cyc)
    else s1.finish c (Result.at St.ecc d.src cyc)

/-- Whether a LOAD may issue: a LOAD to a slot with PENDING set is held until the flip (R340). -/
def State.loadHeld (s : State) (i : Issuer) : Bool :=
  match s.nextOf i with
  | some d => s.codePending (s.cmdEg i d.bytes) (Dma.of d.bytes).slot
  | none => false

/-- TABLE_LOAD (R340): validates a code-table record and writes it to a slot shadow; held while the slot is pending. -/
def execTableLoad (i : Issuer) (s : State) : Host.Outcome State Fault Refusal :=
  inRange (issuerOk i) (fun _ =>
    .next (if s.loadHeld i then s else s.issueRow i (isDma .load) State.loadCheck State.runLoad))

end Sys2Proof.Machine
end

