-- ==== Sys2Proof/Machine/Path.lean ====
section
/-!
DEFINITION. The command path (chapter 09): decoding ahead of issue, the commands of the CP, synchronisation-object operations,
completion drains with their record, signal and event, and the queue registers.
-/

set_option Elab.async false

namespace Sys2Proof.Machine

open Sys2Proof

/-! ## Decoding ahead of issue (R236, R240, R247 to R249) -/

/-- Published units of a queue that the CP has not decoded (R235). -/
def State.undecoded (s : State) (q : Nat) : Nat :=
  ((s.queue q).tail + s.ringUnits q - (s.queue q).dec) % s.ringUnits q

/-- The base of a queue's command ring. -/
def State.ringBase (s : State) (q : Nat) : Nat := s.pair .qRingbaseLo .qRingbaseHi q

/-- Whether a queue's command ring obeys the placement rule of R233 and R260. -/
def State.ringOk (s : State) (q : Nat) : Bool :=
  let n := 4096 * 2 ^ s.fld F.qCfg_LOG2SIZE q
  decide (s.fld F.qCfg_LOG2SIZE q ≤ 12) && s.ringBase q % n == 0 && inMsT1 (s.ringBase q) n &&
    s.inWindows (s.qPart q) (s.ringBase q) n

/-- The base of a queue's completion ring. -/
def State.cmpBase (s : State) (q : Nat) : Nat := s.pair .qCmpbaseLo .qCmpbaseHi q

/-- Records a queue's completion ring holds (R260). -/
def State.cmpCap (s : State) (q : Nat) : Nat := 32 * 2 ^ s.fld F.qCfg_CLOG2 q

/-- Whether a queue's completion ring obeys R260. -/
def State.cmpOk (s : State) (q : Nat) : Bool :=
  let n := 64 * s.cmpCap q
  decide (s.fld F.qCfg_CLOG2 q ≤ 10) && s.cmpBase q % n == 0 && inMsT1 (s.cmpBase q) n &&
    s.inWindows (s.qPart q) (s.cmpBase q) n

/-- The address of ring position `pos` of a queue, positions counted modulo the ring (R233). -/
def State.ringAddr (s : State) (q pos : Nat) : Nat := s.ringBase q + 16 * (pos % s.ringUnits q)

/-- The bytes of `n` ring units from a position; they continue at the ring's base (R233). -/
def State.ringRead (s : State) (q pos : Nat) : Nat → List Byte
  | 0 => []
  | n + 1 => s.read (s.ringAddr q pos) 16 ++ s.ringRead q (pos + 1) n

/-- The first uncorrectable granule met by reading `n` ring units. -/
def State.ringBad (s : State) (q pos n : Nat) : Option Nat :=
  (List.range n).findSome? (fun i => s.badIn (s.ringAddr q (pos + i)) 16)

/-- The ranges of the ring that hold `n` units from a position (R233). -/
def State.ringSpan (s : State) (q pos n : Nat) : List (Nat × Nat) :=
  let first := min n (s.ringUnits q - pos % s.ringUnits q)
  (s.ringAddr q pos, 16 * first) :: (if first < n then [(s.ringBase q, 16 * (n - first))] else [])

/-- Takes the slots that reading ranges of the ring needs, for command `uid` (R236). -/
def State.ringTouch (s : State) (uid p eg : Nat) (span : List (Nat × Nat)) : State :=
  span.foldl (fun t r => t.touch uid p eg r.1 r.2 .read) s

/-- The size of a field's run-ahead buffer: 256 KiB (R249). -/
def runAhead : Nat := 262144

/-- The bytes of a field's run-ahead buffer that its window holds (R249). -/
def earlyBytes (w : List Decoded) : Nat := (w.flatMap (fun d => d.early)).foldl (fun n r => n + r.2) 0

/-- The ranges, in order, that still fit in a number of bytes. -/
def fitting : Nat → List (Nat × Nat) → List (Nat × Nat)
  | _, [] => []
  | room, r :: rs => if r.2 ≤ room then r :: fitting (room - r.2) rs else []

/-- The ranges that a DMA reads from its source, as it takes their slots. -/
def State.sourceClaims (s : State) (d : Dma) (rows len : Nat) : List (Nat × Nat) :=
  if d.op = 0 then
    (if d.mode = 0 then (s.srcRows d rows len).flatMap (fun r => (unitCuts r.1 r.2).map (fun x => (r.1 + x.1, x.2)))
     else s.srcRows d rows len)
  else match byteFmt d.srcFmt with
    | some f =>
      if d.mxin then [(d.src, mxBytes f rows len)]
      else if f.narrow then (List.range rows).flatMap (rowBursts f (byteBlk d.srcFmt) d.src len)
      else s.srcRows d rows (fmtRow d.srcFmt len)
    | none => []

/-- The ranges whose reads a windowed DMA starts early: of a T2 source within the windows, its bounds pre-read, as many as fit in the
field's run-ahead buffer, of which `room` bytes are free (R249). A GATHER starts none. -/
def State.earlyReads (s : State) (p room : Nat) (b : List Byte) : List (Nat × Nat) :=
  if hdrOpcode b ≠ 0x08 then []
  else
    let d := Dma.of b
    let x := s.bound p d.lenW
    let y := s.bound p d.rowsW
    if !x.known || !y.known || d.gather || d.op > 1 || 2 ≤ d.mode || region d.src ≠ some .t2 then []
    else
      let rs := s.sourceClaims d y.get x.get
      if rs.all (fun r => (s.readRefused true p r.1 r.2).isNone) then fitting room rs else []

/-- The first decoded command of a queue. -/
def State.firstOf (s : State) (q : Nat) : Option Decoded := (s.window (s.qField q)).find? (fun d => d.queue == q)

/-- Reads and decodes a command of `len` units at position `pos` of a queue: its bytes take slots, its issue-time reads are pre-read,
and the early reads of a T2 source start (R236, R247 to R249, R317). -/
def State.decodeAt (s : State) (q pos len : Nat) : State :=
  let f := s.qField q
  let w := s.window f
  let p := s.qPart q
  let b := s.ringRead q pos len
  let eg := 32 * f + hdrEgl b
  let uid := s.cp.nextUid
  let span := s.ringSpan q pos len
  let s1 := s.ringTouch uid p eg span
  let rs := s1.earlyReads p (runAhead - earlyBytes w) b
  let s2 := rs.foldl (fun t r => t.touch uid p eg r.1 r.2 .read) s1
  let known := w.map (fun d => (s.qPart d.queue, d.bytes))
  let watch := dropBoundset ((p, b) :: known) (s.issueReads p eg b)
  let s3 := watch.foldl (fun t x => match x with | .mem a n => t.touch uid p eg a n .read | _ => t) s2
  let first := !w.any (fun d => d.queue == q)
  let d : Decoded :=
    { queue := q, bytes := b, uid := uid, units := len, watch := watch, early := rs, squashed := false, reread := false,
      span := span, ringBad := none, misses := 0, ticket := 0, job := 0, since := if first then s.cycle else 0,
      waited := false, overrun := none }
  let s4 := s3.setWindow f (w ++ [d])
  let s5 := s4.setQueue q { s4.queue q with dec := (pos + len) % s.ringUnits q }
  { s5 with cp := { s5.cp with nextUid := uid + 1 } }

/-- CP_DECODE (R236, R240, R247 to R249, R263, R297, R323): the CP reads the next published command of a queue, once the request queue
that the read enters has room. A reserved opcode or a wrong LEN halts the queue once it has reached that command, and so does an
uncorrectable ring word. -/
def State.decodeNext (s0 : State) (q : Nat) : State :=
  let s := s0.settleBounds
  match (s.firstOf q).filter (fun d => d.ringBad.isSome) with
  | some d => s.ringStop (.queue q) d
  | none =>
    let f := s.qField q
    let pos := (s.queue q).dec
    if !s.flag F.qCfg_ENABLE q || s.fld F.qStat_STATE q ≠ 1 || s.undecoded q = 0 || 64 ≤ (s.window f).length ||
        s.queueFull (s.qPart q) (s.ringAddr q pos) then s
    else
      let reached := pos == s.fld F.qStat_HEAD q
      let h := s.ringRead q pos 1
      let len := hdrLen h
      let bad := match opBytes (hdrOpcode h) with
        | some n => len != n / 16 + b2n (hdrRes h)
        | none => true
      match s.ringBad q pos 1 with
      | some a => if reached then (s.noteUe a).halt q 2 a else s
      | none =>
        if bad then
          if reached then
            ((s.ringTouch 0 (s.qPart q) noEg (s.ringSpan q pos 1)).noteMalformed (s.qPart q) (32 * f + hdrEgl h)
              (hdrOpcode h)).halt q 1 0
          else s
        else if s.undecoded q < len then s
        else match s.ringBad q pos len with
          | some a => if reached then (s.noteUe a).halt q 2 a else s
          | none => s.decodeAt q pos len

/-- CP_DECODE (R247): the command processor reads and decodes the next published command of a queue. -/
def execCpDecode (q : Nat) (s : State) : Host.Outcome State Fault Refusal :=
  inRange (q < 32768) (fun _ => .next (s.decodeNext q))

/-! ## The commands of the CP (R242) -/

/-- Whether a command has an opcode. -/
def isOp (op : Nat) (b : List Byte) : Bool := hdrOpcode b == op

/-- NOP (R242): completes OK 8 cycles after issue. -/
def execNop (i : Issuer) (s : State) : Host.Outcome State Fault Refusal :=
  inRange (issuerOk i) (fun _ =>
    .next (s.issueRow i (isOp 0x00) (fun _ _ => .go) (fun t c => t.finish c (Result.mk0 St.ok 8))))

/-- OBJ of SOOP and SOWAIT. -/
def soObj (b : List Byte) : Nat := num b 8 2

/-- The checks of SOOP (R242, R254). -/
def State.soopCheck (s : State) (c : Cmd) : Verdict :=
  let b := c.bytes
  let ra := num b 16 8
  .first
    [ .badIf (!s.objOpOk (soObj b) (num b 10 1) || s.objPart (soObj b) != c.part),
      .badIf (ra ≠ 0 && (ra % 8 ≠ 0 || !inT0T1 ra 8)),
      .quotaIf (if ra = 0 then none else s.writeRefused c.part ra 8) ]

/-- SOOP (R242, R254, R256): one operation on an object, with its result stored if asked. -/
def State.runSoop (s : State) (c : Cmd) : State :=
  let b := c.bytes
  let o := soObj b
  let t := objTime c.field o
  let r := s.objOp o (num b 10 1) (BitVec.ofNat 32 (num b 12 4)) (c.issued + t)
  let ra := num b 16 8
  let out : Out := ⟨r.2, none⟩
  (if ra = 0 then out else out.put c false ra (leBytes 8 r.1)).finish c (Result.mk0 St.ok t)

/-- SOOP (R242): sends one operation to a synchronisation object. -/
def execSoop (i : Issuer) (s : State) : Host.Outcome State Fault Refusal :=
  inRange (issuerOk i) (fun _ => .next (s.issueRow i (isOp 0x01) State.soopCheck State.runSoop))

/-- The checks of SOWAIT (R255). -/
def State.sowaitCheck (s : State) (c : Cmd) : Verdict :=
  .badIf (s.objCounter (soObj c.bytes) || s.objPart (soObj c.bytes) != c.part)

/-- What a satisfied SOWAIT reports: ERR and the object when ERR satisfied it (R256). An ERR that software has set to a value that R17
reserves is reported as it stands; R18 and R256 do not settle it (DESIGN CHOICE, log entry 19). -/
def sowaitResult (o : Nat) (err : Byte) (cycles : Nat) : Result :=
  if err = 0x00#8 then Result.mk0 St.ok cycles else { Result.mk0 err cycles with detail0 := o }

/-- Marks the beginning of a hold of a queue (R265). -/
def State.holdQueue (s : State) (i : Issuer) (v : Option Nat) : State :=
  match i with
  | .queue q => s.setQueue q { s.queue q with held := v, heldSaw := false }
  | .core _ _ => s

/-- SOWAIT (R256): completes when its condition holds, and holds its queue until then. -/
def State.runSowait (s : State) (c : Cmd) : State :=
  let b := c.bytes
  let o := soObj b
  let cond := num b 10 1 % 4
  let comp := num b 12 4
  if s.waitSat o cond comp then
    s.finish c (sowaitResult o (BitVec.ofNat 8 (s.fld F.syncCfg_ERR o)) (objTime c.field o))
  else
    let h : Hold := ⟨c, o, cond, comp, none, 0⟩
    { s with cp := { s.cp with holds := s.cp.holds ++ [h] } }.holdQueue c.issuer (some c.issued)

/-- SOWAIT (R256): issues and holds every later command of its queue until its condition is satisfied. -/
def execSowait (i : Issuer) (s : State) : Host.Outcome State Fault Refusal :=
  inRange (issuerOk i) (fun _ => .next (s.issueRow i (isOp 0x02) State.sowaitCheck State.runSowait))

/-- A held SOWAIT whose condition an operation has satisfied completes (R256). -/
def State.releaseHold (s : State) (i : Issuer) : State :=
  match s.cp.holds.find? (fun h => h.cmd.issuer == i && h.sat.isSome) with
  | none => s
  | some h =>
    let t := objTime h.cmd.field h.obj
    let s1 := s.until (h.satAt + t)
    let s2 := { s1 with cp := { s1.cp with holds := s1.cp.holds.filter (fun x => x.cmd.uid != h.cmd.uid) } }
    ((s2.holdQueue i none).reachNext i).finish h.cmd (sowaitResult h.obj (h.sat.getD 0x00#8) (h.satAt + t - h.cmd.issued))

/-- SOWAIT_SATISFIED (R256): a waiting SOWAIT completes 20 or 36 cycles after the satisfying operation reached its object. -/
def execSowaitSatisfied (i : Issuer) (s : State) : Host.Outcome State Fault Refusal :=
  inRange (issuerOk i) (fun _ => .next (s.releaseHold i))

/-- The checks of BOUNDSET (R242). -/
def boundsetCheck (_ : State) (c : Cmd) : Verdict :=
  let reg := num c.bytes 8 2
  let n := num c.bytes 10 1
  .badIf (n = 0 || n > 4 || reg + n > 256)

/-- BOUNDSET (R242): its registers are written 8 cycles after issue, when it completes. -/
def State.runBoundset (s : State) (c : Cmd) : State :=
  let reg := num c.bytes 8 2
  let ws := (List.range (num c.bytes 10 1)).map (fun k =>
    (c.issued + 8, 256 * c.part + reg + k, BitVec.ofNat 32 (num c.bytes (12 + 4 * k) 4)))
  { s with cp := { s.cp with bsets := s.cp.bsets ++ ws } }.finish c (Result.mk0 St.ok 8)

/-- BOUNDSET (R242): writes one to four bound registers. -/
def execBoundset (i : Issuer) (s : State) : Host.Outcome State Fault Refusal :=
  inRange (issuerOk i) (fun _ => .next (s.issueRow i (isOp 0x03) boundsetCheck State.runBoundset))

/-! ## Operations on synchronisation objects (R253 to R257) -/

/-- Access-fault cause codes of RISC-V: load, and store or AMO. -/
def causeLoadAccess : Nat := 5
/-- Store or AMO access fault. -/
def causeStoreAccess : Nat := 7

/-- An operation that R254 gives no effect: an access fault of a core; an ignored register write posts an event record, and a
host access beyond the function's rights is counted. -/
def State.objBad (s : State) (who : Requester) (o op : Nat) (v : Word) : State :=
  let zero := { s with resp := leBytes 8 0 }
  match who with
  | .core eg c =>
    ((s.coreFault eg c (if op = 0 ∨ op = 9 then causeLoadAccess else causeStoreAccess) (s.coreOf eg c).pc)).settleCluster eg
  | .cp _ _ => zero
  | .ce _ _ => zero
  | w =>
    let s1 := if s.actsFor w (s.objPart o) then zero else zero.refuse w
    if op = 0 ∨ op = 9 then s1 else s1.writeIgnored .syncObj o (some (s.objPart o)) v

/-- One operation on an object by a requester, at the object (R254). -/
def State.objAccess (s : State) (who : Requester) (o op : Nat) (v : Word) : State :=
  if !s.hostServed who then { s with resp := leBytes 8 0 }.refuse who
  else if !s.actsFor who (s.objPart o) || !s.objOpOk o op then s.objBad who o op v
  else
    let r := s.objOp o op v s.cycle
    { r.2 with resp := leBytes 8 r.1 }

/-- SO_READ (R254): the object returns its state unchanged. -/
def execSoRead (who : Requester) (obj : Nat) (s : State) : Host.Outcome State Fault Refusal :=
  inRange (obj < 65536) (fun _ => .next (s.objAccess who obj 0 0#32))

/-- SO_SET (R254): VALUE becomes the operand. -/
def execSoSet (who : Requester) (obj : Nat) (operand : Word) (s : State) : Host.Outcome State Fault Refusal :=
  inRange (obj < 65536) (fun _ => .next (s.objAccess who obj 1 operand))

/-- SO_ADD (R254): the operand is added to VALUE modulo 2^32. -/
def execSoAdd (who : Requester) (obj : Nat) (operand : Word) (s : State) : Host.Outcome State Fault Refusal :=
  inRange (obj < 65536) (fun _ => .next (s.objAccess who obj 2 operand))

/-- SO_MAX (R254): VALUE becomes the unsigned maximum of VALUE and the operand. -/
def execSoMax (who : Requester) (obj : Nat) (operand : Word) (s : State) : Host.Outcome State Fault Refusal :=
  inRange (obj < 65536) (fun _ => .next (s.objAccess who obj 3 operand))

/-- SO_SETERR (R254): ERR becomes bits [7:0] of the operand if ERR is 0. -/
def execSoSeterr (who : Requester) (obj : Nat) (operand : Word) (s : State) : Host.Outcome State Fault Refusal :=
  inRange (obj < 65536) (fun _ => .next (s.objAccess who obj 4 operand))

/-- SO_CLRERR (R254): ERR becomes 0. -/
def execSoClrerr (who : Requester) (obj : Nat) (s : State) : Host.Outcome State Fault Refusal :=
  inRange (obj < 65536) (fun _ => .next (s.objAccess who obj 5 0#32))

/-- CRESET (R224, R254): NEXT becomes 0, LIMIT the operand, and GEN advances. -/
def execCreset (who : Requester) (obj : Nat) (operand : Word) (s : State) : Host.Outcome State Fault Refusal :=
  inRange (obj < 65536) (fun _ => .next (s.objAccess who obj 8 operand))

/-- CREAD (R254): the work counter returns its state unchanged. -/
def execCread (who : Requester) (obj : Nat) (s : State) : Host.Outcome State Fault Refusal :=
  inRange (obj < 65536) (fun _ => .next (s.objAccess who obj 9 0#32))

/-- A write of SYNC_CFG (R268): a change of MODE clears the object, ERR included, whose pre-reads are then stale
(R250). A VF changes nothing. -/
def State.writeSyncCfg (s : State) (who : Requester) (o : Nat) (v : Word) : State :=
  match who with
  | .vf _ _ => s
  | _ =>
    let mode := bits v.toNat 3 1
    let s1 := s.setFld F.syncCfg_PART o (v.toNat % 8)
    if mode = s.fld F.syncCfg_MODE o then s1
    else
      let s2 := ((((s1.setFld F.syncCfg_MODE o mode).setReg .syncObj o 0#32).setObjLimit o 0#32).setFld F.syncCfg_ERR o 0).setFld
        F.syncCfg_GEN o 0
      { s2 with cp := s2.cp.mapWindow (squashObj o) }

/-- SYNC_CFG_WRITE (R268): a write that changes MODE clears the object's state. -/
def execSyncCfgWrite (who : Requester) (obj : Nat) (v : Word) (s : State) : Host.Outcome State Fault Refusal :=
  inRange (obj < 65536) (fun _ => .next (s.gated who .syncCfg obj (s.writeSyncCfg who obj v)))

/-! ## Completions (R258 to R262) -/

/-- The bytes of a completion record (R259). -/
def Completion.record (c : Completion) : List Byte :=
  let q := match c.cmd.issuer with | .queue n => n | .core _ _ => 0
  [c.final] ++ leBytes 1 (hdrOpcode c.cmd.bytes) ++ leBytes 2 q ++ leBytes 2 (hdrTag c.cmd.bytes) ++ leBytes 2 c.cmd.unit ++
    leBytes 4 c.cmd.seq ++ leBytes 4 c.flagWord ++ leBytes 8 c.res.addr ++
    leBytes 4 (min (c.posted - c.cmd.issued) 0xFFFFFFFF) ++ leBytes 4 c.res.detail0 ++ leBytes 4 c.res.detail1 ++
    padTo 8 (c.res.cvt.flatMap (fun n => leBytes 2 n)) ++ leBytes 4 c.cmd.slotMiss ++ leBytes 16 0

/-- Writes a completion record to the queue's completion ring, or counts it in CMPLOST (R260). -/
def State.putRecord (s : State) (q : Nat) (c : Completion) : State :=
  let ct := s.fld F.qCmpidx_CTAIL q
  let ch := s.fld F.qCmpidx_CHEAD q
  let cap := s.cmpCap q
  if (ct + 65536 - ch) % 65536 = cap then s.count F.qCmplost_CMPLOST q 1
  else
    let a := s.cmpBase q + 64 * (ct % cap)
    ((s.store a c.record).touch 0 c.cmd.part noEg a 64 .write).setFld F.qCmpidx_CTAIL q (ct + 1)

/-- The bucket of CP_JHIST an episode of `l` cycles belongs to (R456). -/
def episodeBucket (l : Nat) : Nat := if l < 2 ^ 17 then 0 else min 15 (Nat.log2 l - 16)

/-- The end of an episode of a job, in cycle `t` (R456). -/
def State.endEpisode (s : State) (p j t : Nat) : State :=
  match (s.job p j).episode with
  | none => s.setJob p j { s.job p j with episode := some t }
  | some t0 =>
    let l := t - t0
    let s1 := s.count F.cpJhist_COUNT (16 * (8 * p + j) + episodeBucket l) 1
    let dl := s.fld F.cpJdeadline_DEADLINE (8 * p + j)
    let s2 := if dl = 0 then s1
      else if l ≤ dl * 1024 then s1.count F.cpJdlcnt_MET (8 * p + j) 1 else s1.count F.cpJdlcnt_MISSED (8 * p + j) 1
    s2.setJob p j { s.job p j with episode := some t }

/-- A completion signal reaches object `o` in cycle `t`: the episodes of the partition's jobs that it ends (R456). -/
def State.endEpisodes (s : State) (p o t : Nat) : State :=
  (List.range 8).foldl (fun s j =>
    if s.flag F.cpJob_EPEN (8 * p + j) && s.fld F.cpJob_EPOBJ (8 * p + j) == o then s.endEpisode p j t else s) s

/-- Whether a completion signals an error: 0x10 or above, or SENTINEL_DIVERGED under POLICY = 3 (R258). -/
def Completion.signalsError (c : Completion) : Bool :=
  decide (0x10 ≤ c.final.toNat) || (c.res.abort && c.final == St.sentinelDiverged)

/-- The signal of a completion on its object, drained in cycle `u` (R258, R261): ADD 1, or SETERR with the status. An object that
does not admit it is not changed (R254). -/
def State.signal (s : State) (c : Completion) (u : Nat) : State :=
  let o := hdrCompso c.cmd.bytes
  if !hdrCen c.cmd.bytes || s.objPart o ≠ c.cmd.part || s.objCounter o then s
  else
    let t := u + objTime c.cmd.field o
    let r := if c.signalsError then s.objOp o 4 (BitVec.ofNat 32 c.final.toNat) t else s.objOp o 2 1#32 t
    r.2.endEpisodes c.cmd.part o t

/-- The status of a completed posted command reaches its ticket (R220). -/
def State.ticketDone (s : State) (eg c t : Nat) (st : Byte) : State :=
  let k := s.coreOf eg c
  match k.tickets[t]? with
  | none => s
  | some tk => s.setCore eg c { k with tickets := k.tickets.set t { tk with done := some st } }

/-- The actions of a drained completion (R258, R264). -/
def State.drainActions (s : State) (c : Completion) (u : Nat) : State :=
  let irq := hdrIrq c.cmd.bytes
  match c.cmd.issuer with
  | .core eg k => (s.signal c u).ticketDone eg k c.cmd.ticket c.final
  | .queue q =>
    let s1 := if irq || s.flag F.qCfg_CMPALL q || c.final ≠ St.ok then s.putRecord q c else s
    let s2 := s1.signal c u
    let s3 := if irq && s2.flag F.qVec_EN q then s2.msix (s2.fld F.qVec_FUNC q) (some c.cmd.part) (s2.fld F.qVec_VECTOR q)
      else s2
    if s3.flag F.qCfg_HALTERR q && 0x10 ≤ c.final.toNat && s3.fld F.qStat_STATE q = 1 then s3.halt q 2 c.res.addr else s3

/-- The first cycle at or after `t` in which entry `e` drains (R261). -/
def drainCycle (t e : Nat) : Nat := t + (e + 48 - t % 48) % 48

/-- The completion of an entry that was posted first. -/
def earliest : List Completion → Option Completion
  | [] => none
  | c :: cs => some (cs.foldl (fun m x => if x.posted < m.posted then x else m) c)

/-- Takes one completion out of a list. -/
def dropFirst (c : Completion) : List Completion → List Completion
  | [] => []
  | x :: xs => if x = c then xs else x :: dropFirst c xs

/-- The cycle after the last drain of a collector entry; 0 before the first. -/
def State.drainedAt (s : State) (f e : Nat) : Nat := Sparse.rd (fun _ => 0) (collKey f e) s.cp.drained

/-- The cycle in which a completion of an entry drains: the entry's first turn after it is posted, and after the turn in which the
completion before it drained (R261). -/
def State.drainTime (s : State) (f e : Nat) (c : Completion) : Nat :=
  drainCycle (max (max (c.posted + 1) (s.drainedAt f e)) s.cycle) e

/-- Drains the completion of a collector entry that was posted first (R261). -/
def State.drain (s : State) (f e : Nat) : State :=
  match earliest (s.entry f e) with
  | none => s
  | some c =>
    let u := s.drainTime f e c
    let s1 := (s.until u).setEntry f e (dropFirst c (s.entry f e))
    let s2 := { s1 with cp := { s1.cp with drained := Sparse.wr (fun _ => 0) (collKey f e) (u + 1) s1.cp.drained } }
    ((s2.setTrace c.cmd.uid []).drainActions c u).settleJob c.cmd.part c.cmd.job

/-- COMPLETION_DRAIN (R261): a collector entry drains and takes the actions of its completion. -/
def execCompletionDrain (f e : Nat) (s : State) : Host.Outcome State Fault Refusal :=
  inRange (f < 4 && e < 48) (fun _ => .next (s.drain f e))

/-! ## Queue registers (R234, R235, R260, R264 to R266) -/

/-- Refuses a doorbell: DBFAULT and an event record (R235). -/
def State.refuseDoorbell (s : State) (q : Nat) (tail : Nat) : State :=
  (s.setFld F.qStat_DBFAULT q 1).event evDoorbellRefused 0x00#8 (some (s.qPart q)) q tail

/-- A doorbell write (R235). A function that is not served at all, or a VF without a partition, only counts as refused. -/
def State.doorbell (s : State) (who : Requester) (q : Nat) (v : Word) : State :=
  let tail := v.toNat % 2 ^ 20
  let p := s.qPart q
  let units := s.ringUnits q
  let head := s.fld F.qStat_HEAD q
  let old := (s.queue q).tail
  if !s.hostServed who then s.refuse who
  else if !s.actsFor who p then (s.refuse who).refuseDoorbell q tail
  else if !s.flag F.qCfg_ENABLE q || s.season p == winter || s.season p == autumn || units ≤ tail ||
      (tail + units - head) % units < (old + units - head) % units then s.refuseDoorbell q tail
  else s.setQueue q { s.queue q with tail := tail }

/-- Q_DOORBELL (R235): publishes commands up to TAIL or is refused. -/
def execQDoorbell (who : Requester) (q : Nat) (v : Word) (s : State) : Host.Outcome State Fault Refusal :=
  inRange (q < 32768) (fun _ => .next (s.doorbell who q v))

/-- Whether a requester is a VF. -/
def isVf : Requester → Bool
  | .vf _ _ => true
  | _ => false

/-- Starts or stops a queue after its Q_CFG was written (R234, R260). -/
def State.enableQueue (s : State) (q : Nat) (was now : Bool) (v : Word) : State :=
  if was && !now then
    let s1 := (((s.setFld F.qCfg_ENABLE q 0).setFld F.qStat_STATE q 0).setFld F.qStat_CAUSE q 0).undecode q
    s1.setQueue q { s1.queue q with halted := none, haltSaw := false, held := none, heldSaw := false }
  else if !was && now then
    if s.ringOk q && s.cmpOk q then
      let s1 := (((s.setFld F.qCfg_ENABLE q 1).setFld F.qStat_STATE q 1).setFld F.qStat_CAUSE q 0).setFld F.qStat_HEAD q 0
      s1.setQueue q QueueState.reset
    else s.writeIgnored .qCfg q (some (s.qPart q)) v
  else s

/-- The fields of Q_CFG after a write of it, ENABLE apart (R234, R260, R538): PART, FIELD, LOG2SIZE and CLOG2 stay while ENABLE = 1,
and PART and FIELD are not open to a VF. -/
def State.qCfgFields (s : State) (who : Requester) (q : Nat) (v : Word) : State :=
  let n := v.toNat
  let was := s.flag F.qCfg_ENABLE q
  let s1 := if was then s else (s.setFld F.qCfg_LOG2SIZE q (bits n 0 4)).setFld F.qCfg_CLOG2 q (bits n 12 4)
  let s2 := if was || isVf who then s1 else (s1.setFld F.qCfg_FIELD q (bits n 4 2)).setFld F.qCfg_PART q (bits n 6 3)
  (s2.setFld F.qCfg_CMPALL q (bits n 10 1)).setFld F.qCfg_HALTERR q (bits n 11 1)

/-- A write of Q_CFG (R234, R260): setting ENABLE checks both rings with the fields as they stand after the write. -/
def State.writeQCfg (s : State) (who : Requester) (q : Nat) (v : Word) : State :=
  (s.qCfgFields who q v).enableQueue q (s.flag F.qCfg_ENABLE q) (bit v.toNat 9) v

/-- Q_ENABLE (R260): writing ENABLE from 0 to 1 checks both rings and starts the queue, or leaves ENABLE 0. -/
def execQEnable (who : Requester) (q : Nat) (v : Word) (s : State) : Host.Outcome State Fault Refusal :=
  inRange (q < 32768) (fun _ => .next (s.gated who .qCfg q (s.writeQCfg who q v)))

/-- Restarts a halted queue at its HEAD (R264). -/
def State.restartQueue (s : State) (q : Nat) : State :=
  let s1 := ((s.setFld F.qStat_STATE q 1).setFld F.qStat_CAUSE q 0).undecode q
  s1.setQueue q { s1.queue q with halted := none, haltSaw := false }

/-- Units that SKIP passes over: LEN of the header at HEAD, one when LEN is 0, never past TAIL (R264). -/
def State.skipUnits (s : State) (q : Nat) : Nat :=
  let head := s.fld F.qStat_HEAD q
  let units := s.ringUnits q
  let left := ((s.queue q).tail + units - head) % units
  min (max 1 (hdrLen (s.ringRead q head 1))) left

/-- A write of Q_CTRL (R264): RESUME or SKIP restarts a halted queue; both together, or a queue that is not halted, change
nothing. -/
def State.writeQCtrl (s : State) (q : Nat) (v : Word) : State :=
  let resume := bit v.toNat 0
  let skip := bit v.toNat 1
  if s.fld F.qStat_STATE q ≠ 2 || resume == skip then s
  else if resume then s.restartQueue q
  else (s.setFld F.qStat_HEAD q ((s.fld F.qStat_HEAD q + s.skipUnits q) % s.ringUnits q)).restartQueue q

/-- Q_RESUME (R264): re-decodes the command at HEAD and restarts a halted queue. -/
def execQResume (who : Requester) (q : Nat) (v : Word) (s : State) : Host.Outcome State Fault Refusal :=
  inRange (q < 32768) (fun _ => .next (s.gated who .qCtrl q (s.writeQCtrl q v)))

/-- Q_SKIP (R264): advances HEAD past the halted command and restarts the queue. -/
def execQSkip (who : Requester) (q : Nat) (v : Word) (s : State) : Host.Outcome State Fault Refusal :=
  inRange (q < 32768) (fun _ => .next (s.gated who .qCtrl q (s.writeQCtrl q v)))

/-- A write of Q_CMPIDX: CHEAD, which clears CMPLOST (R266). -/
def State.writeChead (s : State) (q : Nat) (v : Word) : State :=
  (s.setFld F.qCmpidx_CHEAD q (v.toNat / 65536)).setReg .qCmplost q 0#32

/-- CHEAD_WRITE (R266): records consumed completion records and clears CMPLOST. -/
def execCheadWrite (who : Requester) (q : Nat) (v : Word) (s : State) : Host.Outcome State Fault Refusal :=
  inRange (q < 32768) (fun _ => .next (s.gated who .qCmpidx q (s.writeChead q v)))

/-- The next watch of a queue to expire: when its halt or its hold began, and which it is, 1 halted or 2 held by a SOWAIT; the record
of an episode is posted once (R265). -/
def QueueState.nextWatch (k : QueueState) : Option (Nat × Nat) :=
  let h := if k.haltSaw then none else k.halted.map (fun t => (t, 1))
  let w := if k.heldSaw then none else k.held.map (fun t => (t, 2))
  match h, w with
  | some x, some y => if y.1 < x.1 then some y else some x
  | some x, none => some x
  | none, y => y

/-- The watch of a halted or held queue expires (R265). -/
def State.watchQueue (s : State) (q : Nat) : State :=
  let p := s.qPart q
  let lim := (s.reg .cpWatch p).toNat
  let k := s.queue q
  match k.nextWatch with
  | none => s
  | some (t, why) =>
    if lim = 0 then s
    else
      ((s.until (t + lim * 1024)).setQueue q (if why = 1 then { k with haltSaw := true } else { k with heldSaw := true })).event
        evQueueWatch 0x00#8 (some p) q why

/-- CP_WATCH_EXPIRY (R265): posts one record per episode of a queue halted or held for CP_WATCH x 1,024 cycles. -/
def execCpWatchExpiry (q : Nat) (s : State) : Host.Outcome State Fault Refusal :=
  inRange (q < 32768) (fun _ => .next (s.watchQueue q))

end Sys2Proof.Machine
end

