-- ==== Sys2Proof/Machine/Memory.lean ====
section
/-!
DEFINITION. The memory controllers: slots of the memory wheels, lending, read arrivals with slot misses and ECC outcomes,
write-backs of memory-side atomics, and writes of the windows and of the wheels (chapters 11, 16 and 19).
-/

set_option Elab.async false

namespace Sys2Proof.Machine

open Sys2Proof

/-! ## Slots (R295 to R298, R447, R448) -/

/-- Length of a slot in compute cycles (R295, R296). -/
def slotLen (c : Nat) : Nat := if c < 192 then 68 else 136

/-- Due offset of a read in compute cycles (R299). -/
def dueOffset (c : Nat) : Nat := if c < 192 then 240 else 480

/-- Whether a slot is a refresh slot (R295). -/
def refreshSlot (k : Nat) : Bool := k % 32 == 31

/-- The owner in a word of MEM_WHEEL of slot `k` (R446). -/
def wheelOwner (w : Word) (k : Nat) : Option Nat :=
  let v := bits w.toNat (4 * (k % 8)) 4
  if bit v 3 then some (v % 8) else none

/-- The owning partition of slot `k` of controller `c`. -/
def State.slotOwner (s : State) (c k : Nat) : Option Nat := wheelOwner (s.reg .memWheel (32 * c + k / 8)) k

/-- LEND of a partition. -/
def State.lending (s : State) (p : Nat) : Bool := s.flag F.sysPartcfg_LEND p

/-- The first request of a partition's queue that no atomic holds back (R297, R313). -/
def MemCtl.nextReq (m : MemCtl) (p : Nat) : Option MemReq :=
  (Sparse.rd (fun _ => []) p m.queues).find? (fun r => !m.open_.any (fun o => o.req.unit == r.unit))

/-- Whether a partition has a request for a slot that carries data. -/
def MemCtl.wants (m : MemCtl) (p : Nat) : Bool :=
  match m.nextReq p with
  | some r => r.kind != .idle
  | none => false

/-- The partition that a data slot serves: its owner, or a lending partition that borrows it (R447, R448). -/
def State.slotServes (s : State) (m : MemCtl) (owner : Option Nat) : Option (Nat × Bool) :=
  let has (p : Nat) : Bool := m.wants p
  let borrower (p : Nat) : Bool :=
    s.lending p && has p && decide (Sparse.rd (fun _ => 0) p m.borrowed < s.fld F.sysPartcfg_BORROWMAX p)
  match owner with
  | none => ((List.range 8).find? borrower).map (fun p => (p, true))
  | some o =>
    if has o then some (o, false)
    else if !s.lending o then none
    else (((List.range 7).map (fun i => (o + 1 + i) % 8)).find? borrower).map (fun p => (p, true))

/-- Takes one request out of a list. -/
def removeFirst (r : MemReq) : List MemReq → List MemReq
  | [] => []
  | x :: xs => if x = r then xs else x :: removeFirst r xs

/-- The activity of one access of a controller: 52 nJ in T1, 163 nJ in T2 (R478). -/
def accessAct (c : Nat) : Nat := if c < 192 then 52000 * 256 else 163000 * 256

/-- The last write of a tensor engine's drain has been served: the drain ends there, and its slot is free (R86). -/
def State.endWrites (s : State) (eg uid : Nat) : State :=
  let te := s.teOf eg
  if uid = 0 || s.hasWrites uid || !te.flight.any (fun t => t.cmd.uid == uid) then s
  else
    let late (t : TeCmd) : TeCmd := match t.freed.getLast? with
      | some x => { t with freed := t.freed.dropLast ++ [(x.1, max x.2 s.cycle)] }
      | none => t
    s.setTe eg { te with drainAt := max te.drainAt s.cycle,
                         flight := te.flight.map (fun t => if t.cmd.uid = uid then late t else t) }

/-- Serves one request of a partition in the slot that starts in cycle `t`: a write takes effect, a read sets out, an atomic's
unit is read and held (R298, R299, R313). -/
def State.serve (s0 : State) (c t p : Nat) (r : MemReq) : State :=
  let s := s0.act p (accessAct c)
  let m := s.ctl c
  let m1 := { m with queues := Sparse.wr (fun _ => []) p (removeFirst r (Sparse.rd (fun _ => []) p m.queues)) m.queues }
  let due := if s.lending p then none else some (t + dueOffset c)
  match r.kind with
  | .write => ((s.setCtl c m1).endWrites r.eg r.uid).unpark r.uid
  | .read => s.setCtl c { m1 with reads := m1.reads ++ [⟨r, t, due⟩] }
  | .atomic => s.setCtl c { m1 with open_ := m1.open_ ++ [⟨r, t, due⟩] }
  | .idle => (s.setCtl c m1).unpark r.uid

/-- The atomic whose write-back the slot that starts in cycle `t` carries: its partition owns the slot, and its read slot started
at least 256 cycles before (R313). -/
def MemCtl.writeBack (m : MemCtl) (owner : Option Nat) (t : Nat) : Option Outstanding :=
  m.open_.find? (fun o => decide (owner = some o.req.part) && decide (o.slot + 256 ≤ t))

/-- The start of slot 0: pending MEM_WHEEL writes take effect and borrowing allowances begin again (R446, R447). -/
def State.revolution (s : State) (c : Nat) : State :=
  let m := s.ctl c
  let s1 := m.pending.foldl (fun t iv => t.setReg .memWheel iv.1 iv.2) s
  s1.setCtl c { m with pending := [], borrowed := [] }

/-- Slots that have passed without an event carried nothing: the next slot to start is the first that has not begun (log entry
4). -/
def State.catchUp (s : State) (c : Nat) : State :=
  let m := s.ctl c
  let k := ceilDiv (s.cycle - m.at_) (slotLen c)
  let s1 := if k ≠ 0 && (m.slot = 0 || 256 < m.slot + k) then s.revolution c else s
  s1.setCtl c { s1.ctl c with slot := (m.slot + k) % 256, at_ := m.at_ + k * slotLen c }

/-- The cycle and number of the slot that a controller starts next, with the state in which it starts. -/
def State.openSlot (s : State) (c : Nat) : State × Nat × Nat :=
  let s1 := s.catchUp c
  let k := (s1.ctl c).slot
  let t := (s1.ctl c).at_
  let s2 := (if k = 0 then s1.revolution c else s1).until t
  (s2.setCtl c { s2.ctl c with slot := (k + 1) % 256, at_ := t + slotLen c }, k, t)

/-- Writes back an atomic's unit and lets the requests that waited for it go on (R313). -/
def State.doWriteBack (s0 : State) (c : Nat) (o : Outstanding) : State :=
  let s := s0.act o.req.part (accessAct c)
  let m := s.ctl c
  (s.setCtl c { m with open_ := m.open_.filter (fun x => x != o) }).unpark o.req.uid

/-- The slot of a unit that carries no data passes its owner by: it stays idle, or is lent (R343). -/
def State.passIdle (s : State) (c : Nat) (owner : Option Nat) : State :=
  match owner.bind (s.ctl c).nextReq with
  | some r =>
    if r.kind != .idle then s
    else
      let m := s.ctl c
      (s.setCtl c { m with
        queues := Sparse.wr (fun _ => []) r.part (removeFirst r (Sparse.rd (fun _ => []) r.part m.queues)) m.queues }).unpark r.uid
  | none => s

/-- Starts the next slot of a controller (R295 to R298, R313, R343, R447, R448). -/
def State.startSlot (s : State) (c : Nat) : State :=
  let x := s.openSlot c
  let s1 := x.1
  let k := x.2.1
  let t := x.2.2
  if refreshSlot k then s1
  else
    let owner := s1.slotOwner c k
    match (s1.ctl c).writeBack owner t with
    | some o => s1.doWriteBack c o
    | none =>
      let s2 := s1.passIdle c owner
      match s1.slotServes (s1.ctl c) owner with
      | none => s2
      | some (p, borrowed) =>
        match (s2.ctl c).nextReq p with
        | none => s2
        | some r =>
          let m := s2.ctl c
          let s3 := if borrowed then
              s2.setCtl c { m with borrowed := Sparse.wr (fun _ => 0) p (Sparse.rd (fun _ => 0) p m.borrowed + 1) m.borrowed }
            else s2
          s3.serve c t p r

/-- MEM_SLOT_START (R295): a controller starts a wheel slot. -/
def execMemSlotStart (c : Nat) (s : State) : Host.Outcome State Fault Refusal :=
  inRange (c < 216) (fun _ => .next (s.startSlot c))

/-- Whether the slot that a controller starts next carries a write-back. -/
def State.writeBackDue (s : State) (c : Nat) : Bool :=
  let x := s.openSlot c
  !refreshSlot x.2.1 && ((x.1.ctl c).writeBack (x.1.slotOwner c x.2.1) x.2.2).isSome

/-- ATOMIC_WRITEBACK (R313): a channel writes back an updated unit in the first owned data slot at least 256 cycles after its
read slot; until that slot is the next one, nothing happens (log entry 3). -/
def execAtomicWriteback (c : Nat) (s : State) : Host.Outcome State Fault Refusal :=
  inRange (c < 192) (fun _ => .next (if s.writeBackDue c then s.startSlot c else s))

/-! ## Arrivals (R299 to R301, R319 to R323, R499) -/

/-- A command meets a slot miss: data due in cycle `due` arrives in cycle `land` (R32, R301). -/
def Cmd.miss (c : Cmd) (due land : Nat) : Cmd :=
  { c with slotMiss := satAdd 32 c.slotMiss 1, late := c.late + addedWait c.heldTo due land, heldTo := max c.heldTo land }

/-- A finished command waits for late data: it completes with SLOT_MISS, later by the cycles it waits (R301, R499). -/
def missCompletion (uid due land : Nat) (k : Completion) : Completion :=
  if k.cmd.uid = uid then
    { k with cmd := k.cmd.miss due land, posted := k.posted + addedWait k.cmd.heldTo due land }
  else k

/-- The same for a command that is still in flight. -/
def missCmd (uid due land : Nat) (c : Cmd) : Cmd := if c.uid = uid then c.miss due land else c

/-- The same for a command that has not issued: it waits for its ring bytes and its pre-reads (R236, R317). A squashed one no longer
waits for an early read of T2 (R249). -/
def missDecoded (r : MemReq) (d : Decoded) : Decoded :=
  if d.uid = r.uid && !((d.squashed || d.reread) && region r.unit == some .t2) then { d with misses := satAdd 32 d.misses 1 } else d

/-- A slot miss of partition p's read `r`, due in cycle `due` and landing in cycle `land`: counted, and the command that made it and
the wheel of its engine group wait (R301, R499, R506). -/
def State.slotMiss (s : State) (c due land : Nat) (r : MemReq) : State :=
  let s1 := if c < 216 then s.count F.memSlotmiss_MISSES c 1 else s
  let s2 := (s1.count F.sysDetstat_MISSES r.part 1).setFld F.sysDetstat_BROKEN r.part 1
  let s3 := if r.eg = noEg then s2 else s2.holdWheel r.eg due land
  if r.uid = 0 then s3
  else
    let s4 : State := { s3 with cp := s3.cp.mapWindow (missDecoded r) }
    { s4 with cp := { s4.cp with
        parked := s4.cp.parked.map (missCompletion r.uid due land), inflight := s4.cp.inflight.map (missCmd r.uid due land) } }

/-- A finished command whose data was uncorrectable completes with ECC_UNCORRECTED and the address of the granule (R321, R322). -/
def eccCompletion (uid a : Nat) (k : Completion) : Completion :=
  if k.cmd.uid = uid then { k with res := k.res.withEcc (some a) } else k

/-- The same for a command in flight, which ends with it. -/
def eccCmd (uid a : Nat) (c : Cmd) : Cmd := if c.uid = uid then { c with ecc := some a } else c

/-- The same for the picture that Fennel codes: RESULT 5 with the address (R432). -/
def eccPic (uid a : Nat) (r : FenRun) : FenRun :=
  if r.uid = uid then { r with status := St.ecc, result := 5, addr := a } else r

/-- A command is told of an uncorrectable granule it has read. -/
def State.tellEcc (s : State) (uid g : Nat) : State :=
  { s with
    fen := { s.fen with run := s.fen.run.map (eccPic uid g) }
    cp := { s.cp with parked := s.cp.parked.map (eccCompletion uid g), inflight := s.cp.inflight.map (eccCmd uid g) } }

/-- Whether a command has failed already, or was told of an uncorrectable granule. -/
def State.cmdFailed (s : State) (uid : Nat) : Bool :=
  s.cp.parked.any (fun k => k.cmd.uid == uid && decide (0x10 ≤ k.res.status.toNat)) || (s.arrivedBad uid).isSome ||
    s.fen.run.any (fun r => r.uid == uid && r.result == 5)

/-- A granule that a command read has arrived uncorrectable (R321 to R323): what it did after reading it is taken back, and it ends
with ECC_UNCORRECTED. One that failed at an earlier read stays as it is. -/
def State.failRead (s : State) (uid g : Nat) : State :=
  match s.undoFrom uid g with
  | some t => t.tellEcc uid g
  | none => if s.cmdFailed uid then s else s.tellEcc uid g

/-- Marks the commands whose ring bytes hold a granule (R323). -/
def badRing (uid g : Nat) (d : Decoded) : Decoded :=
  if d.uid = uid && d.ringBad.isNone && d.span.any (fun r => overlaps r.1 r.2 g (granuleLen g)) then { d with ringBad := some g }
  else d

/-- A ring word of command `uid` has arrived uncorrectable: its queue halts once it has reached that command (R323). -/
def State.failRing (s0 : State) (uid g : Nat) : State :=
  let s : State := { s0 with cp := s0.cp.mapWindow (badRing uid g) }
  match (s.cp.window.flatMap (fun kv => kv.2)).find? (fun d => d.uid == uid) with
  | none => s
  | some d => if (s.firstOf d.queue).any (fun x => x.uid == uid) then s.ringStop (.queue d.queue) d else s

/-- What the error correction finds in arriving data (R319 to R323). The granule lies in the unit that arrives, or in one that an
atomic has read (R313). -/
def State.arriveEcc (s : State) (c : Nat) (r : MemReq) : EccOutcome → State
  | .clean => s
  | .corrected n => if c < 216 then s.count F.memEccstat_CORRECTED c n else s
  | .uncorrectable a =>
    let here := if c < 216 then unitOf a == r.unit && controllerOf a == some c else region a == some (.t3 (c - 216))
    let owners := (if here then [r.uid] else []) ++
      ((s.ctl c).open_.filter (fun o => o.req.unit == unitOf a)).map (fun o => o.req.uid)
    if owners.isEmpty then s
    else
      let g := granuleOf a
      let t := owners.foldl (fun t uid => if uid = 0 then t else (t.failRead uid g).failRing uid g) (s.noteUe g)
      { t with bad := if t.bad.contains g then t.bad else t.bad ++ [g] }

/-- The read data that arrives next: the oldest read on its way, else the oldest unit that an atomic has read (R299, R313). -/
def MemCtl.arriving (m : MemCtl) : Option (Outstanding × List Outstanding) :=
  match m.reads with
  | o :: rest => some (o, rest)
  | [] => m.open_.head?.map (fun o => (o, []))

/-- The oldest read on its way lands, at its due cycle or `late` cycles after it; a lending partition's read has no due cycle and
lands `late` cycles after its slot (R299, R301, R447). -/
def State.arrive (s : State) (c late : Nat) (ecc : EccOutcome) : State :=
  let m := s.ctl c
  match m.arriving with
  | none => s
  | some (o, rest) =>
    let s1 := s.setCtl c { m with reads := rest }
    let s2 := match o.due with
      | some d => if late = 0 then s1.until d else (s1.until (d + late)).slotMiss c d (d + late) o.req
      | none => s1.until (o.slot + late)
    (s2.arriveEcc c o.req ecc).unpark o.req.uid

/-- MEM_READ_ARRIVAL (R299): read data lands at or after its due cycle. Controllers 216 and 217 stand for T3 over P0 and P1. -/
def execMemReadArrival (c late : Nat) (ecc : EccOutcome) (s : State) : Host.Outcome State Fault Refusal :=
  inRange (c < 218) (fun _ => .next (s.arrive c late ecc))

/-! ## Windows (R302, R327) -/

/-- Whether two windows of units share a unit; a window of size 0 owns nothing (R302). -/
def winOverlap (b1 n1 b2 n2 : Nat) : Bool := n1 != 0 && n2 != 0 && overlaps b1 n1 b2 n2

/-- Whether a window value breaks the limit or the overlap rule of its row (R302, R327). -/
def State.windowBad (s : State) (win : MemWindow) (n : Nat) (v : Word) : Bool :=
  let x := v.toNat
  match win with
  | .t1 =>
    let b := bits x 0 8
    let z := bits x 8 8
    decide (108 < b + z) || (List.range 8).any (fun p => p != n / 4 &&
      winOverlap b z (s.fld F.memT1win_BASE (4 * p + n % 4)) (s.fld F.memT1win_SIZE (4 * p + n % 4)))
  | .ms =>
    let b := bits x 0 4
    let z := bits x 4 5
    decide (16 < b + z) || (List.range 8).any (fun p => p != n / 4 &&
      winOverlap b z (s.fld F.memMswin_BASE (4 * p + n % 4)) (s.fld F.memMswin_SIZE (4 * p + n % 4)))
  | .t2 =>
    let b := bits x 0 11
    let z := bits x 11 11
    decide (1536 < b + z) || (List.range 8).any (fun p => p != n && (bit x 22 || s.t2Writable p) &&
      winOverlap b z (s.fld F.memT2win_BASE p) (s.fld F.memT2win_SIZE p))

/-- The register of a window. -/
def winReg : MemWindow → RegName
  | .t1 => .memT1win
  | .ms => .memMswin
  | .t2 => .memT2win

/-- The partition of a window register. -/
def winPart (win : MemWindow) (n : Nat) : Nat := match win with | .t2 => n | _ => n / 4

/-- A write of a window register (R302, R327). -/
def State.writeWindow (s : State) (win : MemWindow) (n : Nat) (v : Word) : State :=
  let p := winPart win n
  if s.season p = spring ∨ s.season p = summer then s
  else if s.windowBad win n v then s.writeIgnored (winReg win) n (some p) v
  else s.setReg (winReg win) n (plainWrite (winReg win) false (s.reg (winReg win) n) v)

/-- MEM_WINDOW_WRITE (R302): a window write is ignored if it breaks the overlap or limit rules. -/
def execMemWindowWrite (who : Requester) (win : MemWindow) (n : Nat) (v : Word) (s : State) :
    Host.Outcome State Fault Refusal :=
  inRange (match win with | .t2 => n < 8 | _ => n < 32) (fun _ => .next (s.gated who (winReg win) n (s.writeWindow win n v)))

/-- Whether a word of MEM_WHEEL changes the owner of a data slot from or to a partition in Spring or Summer (R446). -/
def State.wheelLive (s : State) (n : Nat) (v : Word) : Bool :=
  let live : Option Nat → Bool
    | some p => s.season p == spring || s.season p == summer
    | none => false
  (List.range 8).any (fun i =>
    let k := 8 * (n % 32) + i
    let a := wheelOwner (s.reg .memWheel n) k
    let b := wheelOwner v k
    !refreshSlot k && a != b && (live a || live b))

/-- A write of MEM_WHEEL (R446). -/
def State.writeMemWheel (s : State) (n : Nat) (v : Word) : State :=
  let c := n / 32
  if s.wheelLive n v then s.writeIgnored .memWheel n none v
  else s.setCtl c { s.ctl c with pending := (s.ctl c).pending ++ [(n, v)] }

/-- MEM_WHEEL_WRITE (R446): an allocation write takes effect at slot 0, or is ignored for partitions in Spring or Summer. -/
def execMemWheelWrite (who : Requester) (n : Nat) (v : Word) (s : State) : Host.Outcome State Fault Refusal :=
  inRange (n < 6912) (fun _ => .next (s.gated who .memWheel n (s.writeMemWheel n v)))

end Sys2Proof.Machine
end

