-- ==== Sys2Proof/Machine/Wag.lean ====
section
/-!
DEFINITION. Feature maps and the window address generator: the CB layouts (R184 to R186), fixed-rate map compression (R204 to
R208), the geometry of windows (R190, R191), and POOL with its four operations (R197 to R202).
-/

set_option Elab.async false

namespace Sys2Proof.Machine

open Sys2Proof

/-! ## Fixed-rate blocks (R204, R205) -/

/-- Element width of a fixed-rate form: 7 for FRC2, 3 for FRC4. -/
def frcWidth (comp : Nat) : Nat := if comp = 1 then 7 else 3

/-- Bytes of a fixed-rate block: 32 for FRC2, 16 for FRC4. -/
def frcBytes (comp : Nat) : Nat := if comp = 1 then 32 else 16

/-- The value M x 2^(X - 127 - G - SH) of element i of a block (R205). -/
def frcValue (comp block i : Nat) : FVal :=
  let w := frcWidth comp
  let x := bits block 0 8
  let sh := bits block (8 + 3 * (i / 4)) 3
  let m := signed w (bits block (32 + w * i) w)
  (FVal.ofInt m).scale ((x : Int) - 127 - (w - 2 : Nat) - sh)

/-- BF16 code of element i of a block (R205). -/
def frcDecode (comp block i : Nat) : Nat := bf16.encode (frcValue comp block i)

/-- Exponent field of a BF16 code. -/
def bf16Exp (c : Nat) : Nat := bits c 7 8

/-- The largest magnitude code among the finite elements of a list of BF16 codes, 0 if none. -/
def maxMag (cs : List Nat) : Nat := cs.foldl (fun m c => if bf16Exp c = 255 then m else max m (c % 32768)) 0

/-- Rounds a value to the nearest integer, ties to even. -/
def rneInt : FVal → Int
  | .fin s m e =>
    let mag : Nat :=
      if 0 ≤ e then m * 2 ^ e.toNat else let den := 2 ^ (-e).toNat; Rounding.rne.choose (m / den) (m % den) den
    if s then -(mag : Int) else mag
  | _ => 0

/-- The element value of a sub-block with shift `sh` (R205). -/
def frcElem (comp x sh c : Nat) : Int :=
  let w := frcWidth comp
  let pmax : Int := (2 ^ (w - 1) - 1 : Nat)
  match bf16.decode c with
  | .nan => 0
  | .inf s => if s then -pmax else pmax
  | v => max (-pmax) (min pmax (rneInt (v.scale (127 + (w - 2 : Nat) + sh - (x : Int)))))

/-- Encodes a block of 32 BF16 codes: the block as a number, and its count of non-finite elements (R205, R208). A block with no
nonzero finite element is all zero. -/
def frcEncode (comp : Nat) (cs : List Nat) : Nat × Nat :=
  let w := frcWidth comp
  let nonfin := (cs.filter (fun c => bf16Exp c = 255)).length
  let a := maxMag cs
  if a = 0 then (0, nonfin)
  else
    let x := max 1 (bf16Exp a)
    let shs := (List.range 8).map (fun j =>
      let aj := maxMag ((cs.drop (4 * j)).take 4)
      if aj = 0 then 7 else min 7 (x - max 1 (bf16Exp aj)))
    let ms := (List.range 32).map (fun i => unsigned w (frcElem comp x (shs.getD (i / 4) 7) (cs.getD i 0)))
    (x + 256 * pack 3 shs + 2 ^ 32 * pack w ms, nonfin)

/-! ## Maps (R184 to R186) -/

/-- A feature map as a command names it. -/
structure MapDesc where
  base : Nat
  cbs  : Nat
  fs   : Nat
  d    : Nat
  h    : Nat
  w    : Nat
  c    : Nat
  kb   : Nat      -- channels per block, 16 or 32
  fmt  : Fmt
  scl  : Bool
  comp : Nat      -- 0 raw, 1 FRC2, 2 FRC4
  deriving DecidableEq, Repr

/-- Channel blocks of a map. -/
def MapDesc.ncb (m : MapDesc) : Nat := ceilDiv m.c m.kb

/-- Whether the blocks of a narrow map are of 16. -/
def MapDesc.b16 (m : MapDesc) : Bool := m.kb == 16

/-- Bytes of one channel-block plane. -/
def MapDesc.plane (m : MapDesc) : Nat :=
  if m.comp = 0 then m.h * m.w * m.kb * m.fmt.bytes else ceilDiv (m.h * m.w * m.kb) 32 * frcBytes m.comp

/-- The ranges a map lies in: its bursts, or the channel-block planes of its frames. -/
def MapDesc.planes (m : MapDesc) : List (Nat × Nat) :=
  if m.fmt.narrow then [(m.base, 2048 * ceilDiv (m.d * m.ncb * m.h * m.w) (burstN m.fmt m.b16))]
  else (List.range m.d).flatMap (fun f => (List.range m.ncb).map (fun b => (m.base + f * m.fs + b * m.cbs, m.plane)))

/-- First byte and length of a map (R184, R185, R204). -/
def MapDesc.range (m : MapDesc) : Nat × Nat :=
  if m.fmt.narrow then
    (m.base, 2048 * ceilDiv (m.d * m.ncb * m.h * m.w) (burstN m.fmt m.b16))
  else (m.base, (m.d - 1) * m.fs + (m.ncb - 1) * m.cbs + m.plane)

/-- Whether BASE, CBS and FS break R184 or R185. -/
def MapDesc.strideBad (m : MapDesc) : Bool :=
  if m.fmt.narrow then m.base % 2048 != 0
  else if m.comp ≠ 0 then false
  else
    let u := m.kb * m.fmt.bytes
    m.base % u != 0 || m.cbs % u != 0 || m.fs % u != 0 || decide (m.cbs < m.plane) || decide (m.fs < m.ncb * m.cbs)

/-- A channel block of a map: frame, channel block, row, column. -/
abbrev MapPos := Nat × Nat × Nat × Nat

/-- The number of a channel block of a narrow map (R185). -/
def MapDesc.blockNo (m : MapDesc) (b : MapPos) : Nat := ((b.1 * m.ncb + b.2.1) * m.h + b.2.2.1) * m.w + b.2.2.2

/-- The bytes that reading a channel block reads: its burst, its elements, or its fixed-rate block (R184, R185, R204). -/
def MapDesc.blockRange (m : MapDesc) (b : MapPos) : Nat × Nat :=
  if m.fmt.narrow then (m.base + 2048 * (m.blockNo b / burstN m.fmt m.b16), 2048)
  else
    let e0 := (b.2.2.1 * m.w + b.2.2.2) * m.kb
    let plane := m.base + b.1 * m.fs + b.2.1 * m.cbs
    if m.comp = 0 then (plane + e0 * m.fmt.bytes, m.kb * m.fmt.bytes)
    else (plane + e0 / 32 * frcBytes m.comp, frcBytes m.comp)

/-- One pixel's channel block read from a map: the scale, the codes, and the address that failed. -/
structure BlockRead where
  scale : Nat
  codes : List Nat
  fail  : Option Nat
  deriving DecidableEq, Repr

/-- Invalid TERN5 bytes of a burst that hold a trit of block `j`, without the byte it shares with the block before it, or after it,
where that block has been counted (R45, R46). -/
def blockBad (b16 : Bool) (bs : List Byte) (j : Nat) (before after : Bool) : Nat :=
  let k := blockLen b16
  let lo := if before then ceilDiv (j * k) 5 else j * k / 5
  let hi := if after then (j + 1) * k / 5 else ceilDiv ((j + 1) * k) 5
  badBytes ((bs.drop lo).take (hi - lo))

/-- Counts the invalid TERN5 bytes of the blocks listed, of a tensor of bursts from `base`, each byte once; the first component is the
list of the blocks counted so far (R46, R75). -/
def State.ternCount (s : State) (f : Fmt) (b16 : Bool) (base : Nat) : List Nat → List Nat × Nat → List Nat × Nat
  | [], x => x
  | n :: ns, x =>
    if x.1.contains n then s.ternCount f b16 base ns x
    else
      let nb := burstN f b16
      let before := n % nb != 0 && x.1.contains (n - 1)
      let after := (n + 1) % nb != 0 && x.1.contains (n + 1)
      s.ternCount f b16 base ns
        (n :: x.1, x.2 + blockBad b16 (s.burstAt (base + 2048 * (n / nb))) (n % nb) before after)

/-- Invalid TERN5 bytes of the blocks listed (R46, R75). -/
def State.ternBad (s : State) (f : Fmt) (b16 : Bool) (base : Nat) (blocks : List Nat) : Nat :=
  if f ≠ .tern5 then 0 else (s.ternCount f b16 base blocks ([], 0)).2

/-- Reads block `n` of a tensor of bursts from `base` for partition p, every burst of which must carry `tsidx` (R69, R70). -/
def State.burstBlock (s : State) (p : Nat) (f : Fmt) (b16 scl : Bool) (base tsidx n : Nat) : BlockRead :=
  let nb := burstN f b16
  let a := base + 2048 * (n / nb)
  match s.badIn a 2048 with
  | some e => ⟨0, [], some e⟩
  | none =>
    let bs := s.burstAt a
    if burstOk (formatByte f b16 scl) (s.tsCount p) bs && burstTsidx bs == tsidx then
      match (burstBlocks f b16 bs)[n % nb]? with
      | some b => ⟨b.scale, b.elems, none⟩
      | none => ⟨0, [], some a⟩
    else ⟨0, [], some a⟩

/-- TSIDX of a narrow map: that of the first burst that the command reads (R70, R185). -/
def State.mapTsidx (s : State) (m : MapDesc) : Option MapPos → Nat
  | some b => if m.fmt.narrow then burstTsidx (s.burstAt (m.blockRange b).1) else 0xFFFFFFFF
  | none => 0xFFFFFFFF

/-- The tensor scale of a narrow input map, 1.0 otherwise (R185). -/
def State.mapScale (s : State) (p tsidx : Nat) : FVal := f32 (s.tsEntry p tsidx)

/-- What stops a command as it reads the tensor-scale entry of its map (R303, R321); an index outside the table is a failure of the
burst that names it (R70). -/
def State.mapStop (s : State) (p tsidx : Nat) : Option (Byte × Nat) := if s.tsKnown p tsidx then s.tsStop p tsidx else none

/-- Reads a channel block of a map for partition p. Padding channels read as zero codes (R184 to R186, R204). -/
def State.mapBlock (s : State) (p : Nat) (m : MapDesc) (tsidx : Nat) (b : MapPos) : BlockRead :=
  let live := m.c - b.2.1 * m.kb
  let mask := fun (cs : List Nat) => cs.take live ++ List.replicate (m.kb - live) 0
  let r := m.blockRange b
  if m.fmt.narrow then
    let x := s.burstBlock p m.fmt m.b16 m.scl m.base tsidx (m.blockNo b)
    { x with codes := mask x.codes }
  else match s.badIn r.1 r.2 with
    | some e => ⟨0, [], some e⟩
    | none =>
      let bs := s.read r.1 r.2
      if m.comp = 0 then ⟨0, mask ((List.range m.kb).map (fun i => num bs (i * m.fmt.bytes) m.fmt.bytes)), none⟩
      else
        let e0 := (b.2.2.1 * m.w + b.2.2.2) * m.kb
        ⟨0, mask ((List.range m.kb).map (fun i => frcDecode m.comp (leNat bs) (e0 % 32 + i))), none⟩

/-- The channel blocks listed up to the first that fails. -/
def State.readable (s : State) (p : Nat) (m : MapDesc) (tsidx : Nat) (bl : List MapPos) : List MapPos :=
  bl.takeWhile (fun b => (s.mapBlock p m tsidx b).fail.isNone)

/-- Invalid TERN5 bytes of the channel blocks that a command reads, up to a failure (R46). -/
def State.mapBad (s : State) (p : Nat) (m : MapDesc) (tsidx : Nat) (bl : List MapPos) : Nat :=
  if m.fmt ≠ .tern5 then 0 else s.ternBad m.fmt m.b16 m.base ((s.readable p m tsidx bl).map m.blockNo)

/-- The ranges that reading channel blocks reads, in the order in which they are first met. -/
def MapDesc.ranges (m : MapDesc) (bl : List MapPos) : List (Nat × Nat) := (bl.map m.blockRange).eraseDups

/-- Takes the slots of the units that hold ranges, each unit once (R292; log entry 44). -/
def State.claimUnits (s : State) (c : Cmd) (rs : List (Nat × Nat)) : State :=
  ((rs.flatMap (fun r => unitsOf r.1 r.2)).eraseDups).foldl (fun t u => t.requests c.uid c.part c.eg u 1 .read)
    (rs.foldl (fun t r => t.moved c.part r.1 r.2) s)

/-- The FP32 values of a block that was read (R55). -/
def BlockRead.values (b : BlockRead) (m : MapDesc) (t : FVal) : List FVal :=
  if m.fmt.narrow then blockValues m.fmt m.scl t ⟨b.scale, b.codes⟩ else b.codes.map m.fmt.decode

/-- Address of element (f, c, y, x) of a raw wide map (R184). -/
def MapDesc.elemAddr (m : MapDesc) (f c y x : Nat) : Nat :=
  m.base + f * m.fs + c / m.kb * m.cbs + ((y * m.w + x) * m.kb + c % m.kb) * m.fmt.bytes

/-! ## Windows (R190, R191) -/

/-- Output size along one axis; none when it is below 1 (R190). -/
def outSize (inp before after dil k stride : Nat) : Option Nat :=
  let span := dil * (k - 1) + 1
  if inp + before + after < span ∨ stride = 0 then none else some ((inp + before + after - span) / stride + 1)

/-- The input coordinate a tap names, none when it is not valid (R190, R191). -/
def tapCoord (o stride kpos dil before ups size : Nat) : Option Nat :=
  let v := o * stride + kpos * dil
  if v < before then none else if v - before < ups * size then some ((v - before) / ups) else none

/-! ## POOL (R197 to R202) -/

/-- The POOL command (R197). -/
structure Pool where
  out  : Nat
  ocbs : Nat
  ofs  : Nat
  inm  : MapDesc
  kh   : Nat
  kw   : Nat
  sh   : Nat
  sw   : Nat
  dh   : Nat
  dw   : Nat
  op   : Nat
  ctl  : Nat
  pt   : Nat
  pb   : Nat
  pl   : Nat
  pr   : Nat
  ifmt : Nat
  aux  : Nat
  cvt  : Cvt
  deriving DecidableEq, Repr

/-- Reads a POOL command. -/
def Pool.of (b : List Byte) : Pool :=
  let ctl := num b 55 1
  { out := num b 16 8, ocbs := num b 32 4, ofs := num b 36 4,
    inm := { base := num b 8 8, cbs := num b 24 4, fs := num b 28 4, d := num b 44 2, h := num b 40 2, w := num b 42 2,
             c := num b 46 2, kb := if bit ctl 0 then 32 else 16, fmt := (byteFmt (num b 64 1)).getD .bf16,
             scl := byteScl (num b 64 1), comp := bits ctl 1 2 },
    kh := num b 48 1, kw := num b 49 1, sh := num b 50 1, sw := num b 51 1, dh := num b 52 1, dw := num b 53 1,
    op := num b 54 1, ctl := ctl, pt := num b 56 2, pb := num b 58 2, pl := num b 60 2, pr := num b 62 2,
    ifmt := num b 64 1, aux := num b 72 8, cvt := Cvt.ofBytes (sub b 80 16) }

/-- OH of a POOL command. -/
def Pool.oh (q : Pool) : Option Nat := outSize q.inm.h q.pt q.pb q.dh q.kh q.sh
/-- OW of a POOL command. -/
def Pool.ow (q : Pool) : Option Nat := outSize q.inm.w q.pl q.pr q.dw q.kw q.sw

/-- The output map of MAX, AVGV and AVGF. -/
def Pool.outm (q : Pool) : MapDesc :=
  { q.inm with base := q.out, cbs := q.ocbs, fs := q.ofs, h := q.oh.getD 0, w := q.ow.getD 0,
               fmt := (Fmt.ofCode q.cvt.fmt).getD .bf16, scl := q.cvt.scl, comp := bits q.ctl 3 2 }

/-- Whether a value lies outside a range. -/
def outside (v lo hi : Nat) : Bool := decide (v < lo) || decide (hi < v)

/-- The malformed cases of POOL that its fields alone decide (R197, R200 to R202). -/
def Pool.fieldsBad (q : Pool) (b : List Byte) : Bool :=
  let m := q.inm
  let o := q.outm
  let arg := q.op == 3
  outside m.h 1 8192 || outside m.w 1 8192 || outside m.d 1 4096 || outside m.c 1 (if arg then 65535 else 16384) ||
  outside q.kh 1 15 || outside q.kw 1 15 || outside q.sh 1 15 || outside q.sw 1 15 || outside q.dh 1 255 ||
  outside q.dw 1 255 || q.op > 3 || q.ctl / 32 != 0 || m.comp == 3 || o.comp == 3 ||
  outside q.pt 0 255 || outside q.pb 0 255 || outside q.pl 0 255 || outside q.pr 0 255 ||
  !srcFmtOk q.ifmt || q.ifmt % 16 == 0 || num b 65 7 != 0 || q.oh.isNone || q.ow.isNone ||
  (m.fmt.narrow && byteBlk q.ifmt != m.b16) || (m.comp != 0 && m.fmt != .bf16) || (o.comp != 0 && o.fmt != .bf16) ||
  q.cvt.malformed || q.cvt.tsm == 1 || o.fmt.isScale || m.strideBad || (!arg && o.strideBad) ||
  (arg && (q.kh != 1 || q.kw != 1 || q.sh != 1 || q.sw != 1 || q.dh != 1 || q.dw != 1 ||
    q.pt + q.pb + q.pl + q.pr != 0))

/-- First byte and length of the index plane of ARGMAX, or of its value plane when `e` is 4 (R200). -/
def Pool.indexRange (q : Pool) (base e : Nat) : Nat × Nat :=
  (base, ((q.inm.d - 1) * q.ofs + (q.inm.h - 1) * q.ocbs) * (e / 2) + q.inm.w * e)

/-- The ranges a POOL writes. -/
def Pool.outRanges (q : Pool) : List (Nat × Nat) :=
  if q.op = 3 then q.indexRange q.out 2 :: (if q.aux = 0 then [] else [q.indexRange q.aux 4])
  else [q.outm.range]

/-- The checks of POOL at issue. -/
def State.poolCheck (s : State) (c : Cmd) : Verdict :=
  let q := Pool.of c.bytes
  if q.fieldsBad c.bytes || s.cvtBad c.part q.cvt then .malformed
  else
    .first
      [ .badIf (!inMsT1 q.inm.range.1 q.inm.range.2 || q.outRanges.any (fun r => !inMsT1 r.1 r.2)),
        .quotaIf (s.readRefused false c.part q.inm.range.1 q.inm.range.2),
        .quotaIf (q.outRanges.findSome? (fun r => s.writeRefused c.part r.1 r.2)),
        s.cvtVerdict c.part q.cvt ]

/-- The valid taps of an output pixel, in ascending (ky, kx) order (R191, R198). -/
def Pool.taps (q : Pool) (oy ox : Nat) : List (Nat × Nat) :=
  (List.range q.kh).flatMap (fun ky => (List.range q.kw).filterMap (fun kx =>
    match tapCoord oy q.sh ky q.dh q.pt 1 q.inm.h, tapCoord ox q.sw kx q.dw q.pl 1 q.inm.w with
    | some y, some x => some (y, x)
    | _, _ => none))

/-- Values of one output pixel's channels, and the first failure met (R198, R199). `ts` names the input's tensor scale. -/
def State.poolPixel (s : State) (p : Nat) (q : Pool) (ts : Nat) (f cb oy ox : Nat) : List FVal × Option Nat :=
  let m := q.inm
  let t := s.mapScale p ts
  let reads := (q.taps oy ox).map (fun yx => s.mapBlock p m ts (f, cb, yx))
  match reads.findSome? (fun r => r.fail) with
  | some a => ([], some a)
  | none =>
    let vals := reads.map (fun r => r.values m t)
    let chan (i : Nat) : FVal :=
      let xs := vals.map (fun v => v.getD i FVal.zero)
      if q.op = 0 then (match xs with | [] => .inf true | x :: r => r.foldl maxNan x)
      else
        let sum := xs.foldl add32 FVal.zero
        let n := if q.op = 1 then xs.length else q.kh * q.kw
        if n = 0 then FVal.zero else div32 sum (FVal.ofNat n)
    let live := m.c - cb * m.kb
    ((List.range m.kb).map (fun i => if i < live then chan i else FVal.zero), none)

/-- The pixels of a frame in map order: channel block, row, column. -/
def MapDesc.pixels (m : MapDesc) : List (Nat × Nat × Nat) :=
  (List.range m.ncb).flatMap (fun cb => (List.range m.h).flatMap (fun y => (List.range m.w).map (fun x => (cb, y, x))))

/-- The channel blocks that a POOL reads for a frame, in order (R197 to R200). -/
def Pool.frameReads (q : Pool) (f : Nat) : List MapPos :=
  let m := q.inm
  if q.op = 3 then
    (List.range m.h).flatMap (fun y => (List.range m.w).flatMap (fun x => (List.range m.ncb).map (fun cb => (f, cb, y, x))))
  else q.outm.pixels.flatMap (fun o => (q.taps o.2.1 o.2.2).map (fun yx => (f, o.1, yx)))

/-- The channel blocks that a POOL reads, in order. -/
def Pool.reads (q : Pool) : List MapPos := (List.range q.inm.d).flatMap q.frameReads

/-- Computes a frame's pixels in order up to the first failure. -/
def framePixels (g : Nat × Nat × Nat → List FVal × Option Nat) :
    List (Nat × Nat × Nat) → List (List FVal) × Option Nat
  | [] => ([], none)
  | x :: xs =>
    match g x with
    | (_, some a) => ([], some a)
    | (v, none) =>
      match framePixels g xs with
      | (_, some a) => ([], some a)
      | (vs, none) => (v :: vs, none)

/-- Converts one pixel's block for a wide output, element j of it with logical index `idx j` (R58, R59); padding channels are +0. -/
def wideBlock (o : MapDesc) (cvt : Cvt) (live : Nat) (idx : Nat → Nat) (vs : List FVal) : List Nat × Counts :=
  (List.range o.kb).foldl (fun (acc : List Nat × Counts) j =>
    if j < live then
      let q := convert o.fmt (cvt.rounding (idx j)) cvt.ovf (vs.getD j FVal.zero)
      (acc.1 ++ [q.1], acc.2.add q.2)
    else (acc.1 ++ [0], acc.2)) ([], Counts.none)

/-- The logical index of an element of a wide map: its position in row-major order of frames, channels, rows and columns (R58, R184;
log entry 44). -/
def MapDesc.logical (o : MapDesc) (f c y x : Nat) : Nat := ((f * o.c + c) * o.h + y) * o.w + x

/-- The codes of a frame of a wide output, plane after plane, with the counts. -/
def wideFrame (o : MapDesc) (cvt : Cvt) (f : Nat) : List (Nat × Nat × Nat) → List (List FVal) → List (List Nat) × Counts
  | pos :: ps, v :: vs =>
    let b := wideBlock o cvt (o.c - pos.1 * o.kb) (fun j => o.logical f (pos.1 * o.kb + j) pos.2.1 pos.2.2) v
    let r := wideFrame o cvt f ps vs
    (b.1 :: r.1, b.2.add r.2)
  | _, _ => ([], Counts.none)

/-- Writes one plane of codes: raw, or in fixed-rate form with its count of non-finite elements (R204, R207). -/
def putPlane (c : Cmd) (o : MapDesc) (f cb : Nat) (codes : List Nat) (x : Out) : Out × Nat :=
  let a := o.base + f * o.fs + cb * o.cbs
  if o.comp = 0 then (x.put c false a (codes.flatMap (fun v => leBytes o.fmt.bytes v)), 0)
  else
    let bl := (chunk 32 (ceilDiv codes.length 32) codes).map (frcEncode o.comp)
    (x.put c false a (bl.flatMap (fun b => leBytes (frcBytes o.comp) b.1)), bl.foldl (fun n b => n + b.2) 0)

/-- Writes all planes of a frame from channel block `cb` on. -/
def putFrame (c : Cmd) (o : MapDesc) (f : Nat) : Nat → Nat → List (List Nat) → Out → Out × Nat
  | 0, _, _, x => (x, 0)
  | n + 1, cb, px, x =>
    let r := putPlane c o f cb (px.take (o.h * o.w)).flatten x
    let k := putFrame c o f n (cb + 1) (px.drop (o.h * o.w)) r.1
    (k.1, r.2 + k.2)

/-- What a POOL has done so far: the state, blocks of a narrow output not yet in a whole burst, bursts written, counts. -/
structure PoolRun where
  out    : Out
  blocks : List QBlock
  bursts : Nat
  counts : Counts
  nonfin : Nat
  deriving DecidableEq, Repr

/-- Writes the whole bursts of the blocks gathered; all of them at the end (R185, R201). -/
def PoolRun.flush (r : PoolRun) (c : Cmd) (q : Pool) (last : Bool) : PoolRun :=
  let o := q.outm
  let nb := burstN o.fmt o.b16
  let n := if last then ceilDiv r.blocks.length nb else r.blocks.length / nb
  let bs := packBursts o.fmt o.b16 o.scl q.cvt.trailerIdx n (r.blocks.take (n * nb))
  { r with out := r.out.put c false (o.base + 2048 * r.bursts) bs.flatten, blocks := r.blocks.drop (n * nb),
           bursts := r.bursts + n }

/-- Frames from number `f` on of MAX, AVGV and AVGF: each is computed whole, then written (R197 to R199, R202). -/
def poolFrames (c : Cmd) (q : Pool) (ts : Nat) (tout : FVal) : Nat → Nat → PoolRun → PoolRun
  | 0, _, r => r
  | n + 1, f, r =>
    if r.out.fail.isSome then r
    else
      let o := q.outm
      let px := o.pixels
      match framePixels (fun x => r.out.s.poolPixel c.part q ts f x.1 x.2.1 x.2.2) px with
      | (_, some a) =>
        { r with out := (Out.mk (r.out.s.noteReads c (q.inm.ranges (r.out.s.readable c.part q.inm ts (q.frameReads f)))) none).stop
                   (some (St.ecc, a)) }
      | (vals, none) =>
        let r := { r with out := { r.out with s := r.out.s.noteReads c (q.inm.ranges (q.frameReads f)) } }
        if o.fmt.narrow then
          let qs := (vals.zip px).map (fun vp =>
            quantBlock o.fmt { q.cvt with blk := o.b16 } tout (o.blockNo (f, vp.2) * o.kb) (vp.1.take (o.c - vp.2.1 * o.kb)))
          let r1 := { r with blocks := r.blocks ++ qs.map (fun (x : QResult) => x.block),
                             counts := qs.foldl (fun (k : Counts) (x : QResult) => k.add x.counts) r.counts }
          poolFrames c q ts tout n (f + 1) (r1.flush c q (n == 0))
        else
          let w := wideFrame o q.cvt f px vals
          let k := putFrame c o f o.ncb 0 w.1 r.out
          poolFrames c q ts tout n (f + 1) { r with out := k.1, counts := r.counts.add w.2, nonfin := r.nonfin + k.2 }

/-- The index and value of ARGMAX over the channels of a pixel (R200). -/
def argmaxOf : Nat → List FVal → Nat × FVal → Nat × FVal
  | _, [], best => best
  | i, v :: vs, best =>
    if best.2.isNan then best
    else if v.isNan then (i, .nan)
    else if best.2.lt v then argmaxOf (i + 1) vs (i, v)
    else argmaxOf (i + 1) vs best

/-- ARGMAX of a pixel whose channels have these values. -/
def argmaxPixel : List FVal → Nat × FVal
  | [] => (0, .nan)
  | v :: vs => argmaxOf 1 vs (0, v)

/-- All channel values of one pixel, and the first failure. -/
def State.pixelValues (s : State) (p : Nat) (m : MapDesc) (ts : Nat) (f y x : Nat) : List FVal × Option Nat :=
  let rs := (List.range m.ncb).map (fun cb => s.mapBlock p m ts (f, cb, y, x))
  match rs.findSome? (fun r => r.fail) with
  | some a => ([], some a)
  | none => ((rs.flatMap (fun r => r.values m (s.mapScale p ts))).take m.c, none)

/-- Frames from number `f` on of ARGMAX (R200). -/
def argmaxFrames (c : Cmd) (q : Pool) (ts : Nat) : Nat → Nat → Out → Out
  | 0, _, o => o
  | n + 1, f, o =>
    if o.fail.isSome then o
    else
      let m := q.inm
      let px := (List.range m.h).flatMap (fun y => (List.range m.w).map (fun x => (0, y, x)))
      match framePixels (fun yx => o.s.pixelValues c.part m ts f yx.2.1 yx.2.2) px with
      | (_, some a) =>
        (Out.mk (o.s.noteReads c (m.ranges (o.s.readable c.part m ts (q.frameReads f)))) none).stop (some (St.ecc, a))
      | (vals, none) =>
        let rows := chunk m.w m.h (vals.map argmaxPixel)
        let o0 : Out := ⟨o.s.noteReads c (m.ranges (q.frameReads f)), none⟩
        let o1 := (rows.zip (List.range m.h)).foldl (fun o ry =>
          let o1 := o.put c false (q.out + f * q.ofs + ry.2 * q.ocbs) (ry.1.flatMap (fun iv => leBytes 2 iv.1))
          if q.aux = 0 then o1
          else o1.put c false (q.aux + 2 * (f * q.ofs + ry.2 * q.ocbs)) (ry.1.flatMap (fun iv => leBytes 4 (fp32.encode iv.2)))) o0
        argmaxFrames c q ts n (f + 1) o1

/-- POOL (R197 to R202). -/
def State.runPool (s : State) (c : Cmd) : State :=
  let q := Pool.of c.bytes
  let m := q.inm
  let ts := s.mapTsidx m q.reads.head?
  let s1 := s.claimUnits c (m.ranges q.reads)
  let bad : Counts := ⟨0, 0, 0, s.mapBad c.part m ts q.reads⟩
  let o0 : Out := ⟨s1, s.mapStop c.part ts⟩
  if q.op = 3 then
    let cyc := m.d * (64 + ceilDiv (m.h * m.w * m.ncb * m.kb) 256 + 16)
    let o := argmaxFrames c q ts m.d 0 { o0 with s := s1.addCvt c.eg bad }
    o.finish c (Result.mk0 St.ok cyc)
  else
    let cyc := m.d * (64 + q.kh * q.kw * ceilDiv (q.outm.h * q.outm.w * m.ncb * m.kb) 256 + 16)
    let r := poolFrames c q ts (s.cvtScale c.part q.cvt) m.d 0 ⟨o0, [], 0, bad, 0⟩
    let s2 := (r.out.s.addCvt c.eg r.counts).count F.wagStat_NONFINITE_COUNT c.eg r.nonfin
    (Out.mk s2 r.out.fail).finish c (Result.mk0 St.ok cyc)

/-- Whether a command is POOL with an OP; a reserved OP belongs to MAX, where it is malformed. -/
def isPool (op : Nat) (b : List Byte) : Bool :=
  hdrOpcode b == 0x29 && (num b 54 1 == op || (op == 0 && decide (3 < num b 54 1)))

/-- POOL_MAX (R198): the maximum over valid taps. -/
def execPoolMax (i : Issuer) (s : State) : Host.Outcome State Fault Refusal :=
  inRange (issuerOk i) (fun _ => .next (s.issueRow i (isPool 0) State.poolCheck State.runPool))

/-- POOL_AVGV (R199): the average of the valid taps. -/
def execPoolAvgv (i : Issuer) (s : State) : Host.Outcome State Fault Refusal :=
  inRange (issuerOk i) (fun _ => .next (s.issueRow i (isPool 1) State.poolCheck State.runPool))

/-- POOL_AVGF (R199): the average over the full window, padding counting as zero. -/
def execPoolAvgf (i : Issuer) (s : State) : Host.Outcome State Fault Refusal :=
  inRange (issuerOk i) (fun _ => .next (s.issueRow i (isPool 2) State.poolCheck State.runPool))

/-- ARGMAX (R200): each pixel's lowest maximal channel index. -/
def execArgmax (i : Issuer) (s : State) : Host.Outcome State Fault Refusal :=
  inRange (issuerOk i) (fun _ => .next (s.issueRow i (isPool 3) State.poolCheck State.runPool))

end Sys2Proof.Machine
end

