-- ==== Sys2Proof/Machine/Tensor.lean ====
section
/-!
DEFINITION. The tensor engine's data: the engine layout (R81, R82), tile loads with their tags (R83, R243, R573), MATMUL and CONV
at issue (R91 to R94, R187 to R196), reduction steps with spills and reloads (R88, R89, R96 to R104), and drains (R86, R95, R193).
-/

set_option Elab.async false

namespace Sys2Proof.Machine

open Sys2Proof

/-! ## The engine layout (R81, R82) -/

/-- Element slot in bits (R81). -/
def slotBits : Fmt → Nat
  | .int2 | .tern5 => 2
  | .e2m0 | .e2m1 | .int4 => 4
  | .bf16 | .fp16 => 16
  | _ => 8

/-- Data bytes of a tile (R81). -/
def tileData (f : Fmt) : Nat := 8192 * slotBits f

/-- Blocks in a tile row. -/
def tileBlocks (b16 : Bool) : Nat := 256 / blockLen b16

/-- Bytes of a tile, Z (R81). -/
def tileSize (f : Fmt) (b16 : Bool) : Nat := tileData f + (if f.narrow then 256 * tileBlocks b16 else 0)

/-- The code a slot holds for an element code: E2M0 as E2M1 with mantissa 0 and no -0; TERN5 as the INT2 code of its value (R81). -/
def heldCode (f : Fmt) (c : Nat) : Nat := if f = .e2m0 then (if c = 4 then 0 else 2 * c) else c

/-- The value of a held code. -/
def heldValue (f : Fmt) (raw : Nat) : FVal :=
  match f with
  | .e2m0 => Fmt.e2m1.decode raw
  | .tern5 => Fmt.int2.decode raw
  | g => g.decode (raw % 2 ^ g.width)

/-- An operand panel in operand SRAM (R82). -/
structure Panel where
  base : Nat
  rt   : Nat
  kt   : Nat
  ring : Nat
  fmt  : Fmt
  b16  : Bool
  scl  : Bool
  deriving DecidableEq, Repr

/-- Z of a panel. -/
def Panel.z (p : Panel) : Nat := tileSize p.fmt p.b16

/-- Operand-SRAM offset of tile (i, kt) (R82). -/
def Panel.tileOff (p : Panel) (i kt : Nat) : Nat :=
  let x := kt * p.rt + i
  p.base + (if p.ring = 0 then x else x % p.ring) * p.z

/-- Bytes of a panel or ring. -/
def Panel.bytes (p : Panel) : Nat := (if p.ring = 0 then p.rt * p.kt else p.ring) * p.z

/-- Size of operand SRAM: 3 MiB. -/
def opSramSize : Nat := 0x300000

/-- Whether a ring extends beyond operand SRAM, whatever the bounds (R94). -/
def Panel.ringBig (p : Panel) : Bool := p.ring != 0 && decide (opSramSize < p.base + p.bytes)

/-- Whether a panel or ring extends beyond operand SRAM (R94). -/
def Panel.tooBig (p : Panel) : Bool := decide (opSramSize < p.base + p.bytes)

/-- One row of a tile as reduction groups: each group's values and its block-scale value (R62, R81). `g` is the group length, `n`
the number of groups. -/
def State.tileRow (s : State) (eg off : Nat) (f : Fmt) (b16 scl : Bool) (g n r : Nat) : List (List FVal × FVal) :=
  let a := opSramBase eg + off
  let codes := unpack (slotBits f) 256 (leNat (s.read (a + r * 32 * slotBits f) (32 * slotBits f)))
  let groups := chunk g n (codes.map (heldValue f))
  let scales := (List.range n).map (fun j =>
    if f.narrow then scaleValue scl (s.byteAt (a + tileData f + r * tileBlocks b16 + j)).toNat else FVal.one)
  groups.zip scales

/-- The bytes of a tile from rows of held codes and rows of scale bytes (R81). -/
def tileBytes (f : Fmt) (rows : List (List Nat × List Nat)) : List Byte :=
  rows.flatMap (fun r => leBytes (32 * slotBits f) (pack (slotBits f) r.1)) ++
    rows.flatMap (fun r => r.2.map (BitVec.ofNat 8))

/-! ## TLOAD (R83, R243, R573) -/

/-- A TLOAD command with its bounds. -/
structure Tload where
  src   : Nat
  ld    : Nat
  fb    : Nat
  rows  : Nat
  k     : Nat
  panel : Panel
  kt0   : Nat
  ktn   : Nat
  deriving DecidableEq, Repr

/-- Whether a format byte may name a tensor-engine operand (R79, R94). -/
def operandFmtOk (fb : Nat) : Bool := srcFmtOk fb && fb % 16 != 0

/-- Reads a TLOAD with the bounds given. -/
def Tload.of (b : List Byte) (rows k : Nat) : Tload :=
  let fb := num b 32 1
  let f := (byteFmt fb).getD .bf16
  let kt := ceilDiv k 256
  { src := num b 8 8, ld := num b 16 4, fb := fb, rows := rows, k := k,
    panel := { base := num b 20 4, rt := ceilDiv rows 256, kt := kt, ring := num b 34 2, fmt := f, b16 := byteBlk fb,
               scl := byteScl fb },
    kt0 := num b 36 2, ktn := if num b 38 2 = 0 then kt - num b 36 2 else num b 38 2 }

/-- The checks of TLOAD (R243). -/
def State.tloadCheck (s : State) (c : Cmd) : Verdict :=
  let b := c.bytes
  let x := s.bound c.part (num b 24 4)
  let y := s.bound c.part (num b 28 4)
  let t := Tload.of b x.get y.get
  let sr := srcRange t.fb t.src t.ld t.rows t.k
  let zero := t.rows = 0 || t.k = 0
  .first
    [ .badIf (!operandFmtOk t.fb || t.panel.base % 2048 != 0 || (t.panel.fmt.narrow && t.src % 2048 != 0)),
      .badIf (t.panel.ringBig || !inT0T1 t.src 1),
      x.verdict, y.verdict,
      Bound.need [x, y] (.first
        [ .badIf t.panel.tooBig,
          .badIf (!zero && (!inT0T1 sr.1 sr.2 || t.kt0 ≥ t.panel.kt || t.panel.kt < t.kt0 + t.ktn)),
          .okIf zero, .quotaIf (if zero then none else s.readRefused false c.part sr.1 sr.2) ]) ]

/-- The blocks of a narrow source that row `r` of step `kt` of a TLOAD reads, in order (R243). -/
def Tload.rowBlockNos (t : Tload) (kt r : Nat) : List Nat :=
  let per := rowBlocks t.panel.b16 t.k
  if t.rows ≤ r then []
  else ((List.range (tileBlocks t.panel.b16)).map (fun j => kt * tileBlocks t.panel.b16 + j)).filterMap (fun blk =>
    if per ≤ blk then none else some (r * per + blk))

/-- The range that reading row `r` of step `kt` of a wide source reads. -/
def Tload.rowRange (t : Tload) (kt r : Nat) : Nat × Nat := (t.src + r * t.ld + kt * 512, 2 * min 256 (t.k - kt * 256))

/-- The ranges that loading tile (i, kt) reads, in order, each burst once. -/
def Tload.tileReads (t : Tload) (i kt : Nat) : List (Nat × Nat) :=
  let rows := (List.range 256).map (fun r => 256 * i + r)
  if t.panel.fmt.narrow then
    ((rows.flatMap (t.rowBlockNos kt)).map (fun n => (t.src + 2048 * (n / burstN t.panel.fmt t.panel.b16), 2048))).eraseDups
  else (rows.filter (fun r => decide (r < t.rows))).map (t.rowRange kt)

/-- Held codes and scales of one tile row, or the address that failed (R82, R83). Rows beyond M or N hold zero codes; their block
scales, which R82 does not give, are 0x00 as those of R82's last step (DESIGN CHOICE, log entry 44). -/
def State.tloadRow (s : State) (p : Nat) (t : Tload) (tsidx kt r : Nat) : List Nat × List Nat × Option Nat :=
  let f := t.panel.fmt
  if t.rows ≤ r then (List.replicate 256 0, if f.narrow then List.replicate (tileBlocks t.panel.b16) 0 else [], none)
  else if f.narrow then
    let kb := blockLen t.panel.b16
    let per := rowBlocks t.panel.b16 t.k
    let rs := (List.range (tileBlocks t.panel.b16)).map (fun j =>
      let blk := kt * tileBlocks t.panel.b16 + j
      if per ≤ blk then (⟨0, List.replicate kb 0, none⟩ : BlockRead)
      else
        let x := s.burstBlock p f t.panel.b16 t.panel.scl t.src tsidx (r * per + blk)
        { x with codes := (x.codes.zip (List.range kb)).map (fun ci => if blk * kb + ci.2 < t.k then heldCode f ci.1 else 0) })
    match rs.findSome? (fun x => x.fail) with
    | some a => ([], [], some a)
    | none => (rs.flatMap (fun x => x.codes), rs.map (fun x => x.scale), none)
  else
    let a := t.rowRange kt r
    match s.badIn a.1 a.2 with
    | some e => ([], [], some e)
    | none => ((List.range 256).map (fun i => if 2 * i < a.2 then num (s.read (a.1 + 2 * i) 2) 0 2 else 0), [], none)

/-- Loads one tile: the state, or the address that failed. -/
def State.tloadTile (s0 : State) (c : Cmd) (t : Tload) (tsidx i kt : Nat) : Out :=
  let rows := (List.range 256).map (fun r => s0.tloadRow c.part t tsidx kt (256 * i + r))
  match rows.findSome? (fun r => r.2.2) with
  | some a => ⟨s0.noteReads c (readsUpTo (some (St.ecc, a)) (t.tileReads i kt)), some (St.ecc, a)⟩
  | none =>
    let s := s0.noteReads c (t.tileReads i kt)
    let off := t.panel.tileOff i kt
    let units := (List.range (ceilDiv (off + t.panel.z) 2048 - off / 2048)).map (fun k => off / 2048 + k)
    let s1 := s.storeFor c.uid (opSramBase c.eg + off) (tileBytes t.panel.fmt (rows.map (fun r => (r.1, r.2.1))))
    if t.panel.fmt.narrow then
      let te := s1.teOf c.eg
      let old := units.map (fun u => (u, Sparse.rd (fun _ => 0xFFFFFFFF#32) u (s.teOf c.eg).tags))
      ⟨(s1.setTe c.eg { te with tags := setTags te.tags (BitVec.ofNat 32 tsidx) off t.panel.z }).note c.uid (.tags c.eg old), none⟩
    else ⟨s1, none⟩

/-- Loads the tiles listed, stopping at a failure. -/
def tloadTiles (c : Cmd) (t : Tload) (tsidx : Nat) : List (Nat × Nat) → Out → Out
  | [], o => o
  | (i, kt) :: r, o => if o.fail.isSome then o else tloadTiles c t tsidx r (o.s.tloadTile c t tsidx i kt)

/-- TSIDX of the first burst a TLOAD reads. -/
def State.tloadTsidx (s : State) (t : Tload) : Nat :=
  if t.panel.fmt.narrow then
    burstTsidx (s.burstAt (t.src + 2048 * (t.kt0 * tileBlocks t.panel.b16 / burstN t.panel.fmt t.panel.b16)))
  else 0xFFFFFFFF

/-- The tiles of a TLOAD: steps ascending, tile rows ascending within a step (R243). -/
def Tload.tiles (t : Tload) : List (Nat × Nat) :=
  (List.range t.ktn).flatMap (fun x => (List.range t.panel.rt).map (fun i => (i, t.kt0 + x)))

/-- Invalid TERN5 bytes of the tiles that a TLOAD loads, up to the tile at which it failed (R46). -/
def State.tloadBad (s : State) (t : Tload) (fail : Option (Byte × Nat)) : Nat :=
  if t.panel.fmt ≠ .tern5 then 0
  else
    let blocks := t.tiles.flatMap (fun x => (List.range 256).flatMap (fun r => t.rowBlockNos x.2 (256 * x.1 + r)))
    let good := match fail with
      | none => blocks
      | some f => blocks.takeWhile (fun n => !overlaps (t.src + 2048 * (n / burstN t.panel.fmt t.panel.b16)) 2048 f.2 1)
    s.ternBad t.panel.fmt t.panel.b16 t.src good

/-- Carries out a TLOAD with its bounds as read at issue (R243, R573). -/
def State.doTload (s : State) (c : Cmd) (rows k : Nat) : Out :=
  let t := Tload.of c.bytes rows k
  let o := tloadTiles c t (s.tloadTsidx t) t.tiles ⟨s.claimUnits c ((t.tiles.flatMap (fun x => t.tileReads x.1 x.2)).eraseDups), none⟩
  { o with s := o.s.addCvt c.eg ⟨0, 0, 0, s.tloadBad t o.fail⟩ }

/-- Table time of a TLOAD (R243). -/
def tloadCycles (b : List Byte) (rows k : Nat) : Nat :=
  let t := Tload.of b rows k
  64 + t.ktn * t.panel.rt * ceilDiv t.panel.z 256

/-- The key of a job's reload list on an engine group. -/
def reloadKey (p j eg : Nat) : Nat := (8 * p + j) * 128 + eg

/-- A job's reload list on an engine group (R452). -/
def State.reloadList (s : State) (p j eg : Nat) : List ReloadEntry := Sparse.rd (fun _ => []) (reloadKey p j eg) s.reload

/-- Replaces a reload list. -/
def State.setReload (s : State) (p j eg : Nat) (l : List ReloadEntry) : State :=
  { s with reload := Sparse.wr (fun _ => []) (reloadKey p j eg) l s.reload }

/-- TLOAD: loads its tiles and enters the reload list of its job, which keeps the last 8 (R243, R452). -/
def State.runTload (s : State) (c : Cmd) : State :=
  let rows := (s.bound c.part (num c.bytes 24 4)).get
  let k := (s.bound c.part (num c.bytes 28 4)).get
  let l := s.reloadList c.part c.job c.eg ++ [⟨c.bytes, rows, k⟩]
  let s1 := s.setReload c.part c.job c.eg (l.drop (l.length - 8))
  (s1.doTload c rows k).finish c (Result.mk0 St.ok (tloadCycles c.bytes rows k))

/-- TLOAD (R243): loads panel tiles into operand SRAM in the engine layout and sets tensor-scale tags. -/
def execTload (i : Issuer) (s : State) : Host.Outcome State Fault Refusal :=
  inRange (issuerOk i) (fun _ => .next (s.issueRow i (isOp 0x11) State.tloadCheck State.runTload))

/-! ## The matrix product of MATMUL and CONV (R87, R91, R92, R189) -/

/-- A CONV command (R187, R188). -/
structure Conv where
  inm   : MapDesc
  outm  : MapDesc
  wbase : Nat
  fill  : Nat
  wring : Nat
  kh    : Nat
  kw    : Nat
  kd    : Nat
  sh    : Nat
  sw    : Nat
  sd    : Nat
  dh    : Nat
  dw    : Nat
  dd    : Nat
  uh    : Nat
  uw    : Nat
  ud    : Nat
  pt    : Nat
  pb    : Nat
  pl    : Nat
  pr    : Nat
  pf    : Nat
  pk    : Nat
  wfmt  : Nat
  ctl   : Nat
  octl  : Nat
  pad   : Nat
  bias  : Nat
  cvt   : Cvt
  deriving DecidableEq, Repr

/-- The upsampling factor of a code of UPS. -/
def upsFactor (c : Nat) : Nat := if c = 0 then 1 else if c = 1 then 2 else 4

/-- Reads a CONV command; the output map's sizes are OD, OH and OW of R190. -/
def Conv.of (b : List Byte) : Conv :=
  let ctl := num b 82 1
  let kb := if bit ctl 0 then 32 else 16
  let ups := num b 69 1
  let cvt := Cvt.ofBytes (sub b 112 16)
  let uh := upsFactor (bits ups 0 2)
  let uw := upsFactor (bits ups 2 2)
  let ud := upsFactor (bits ups 4 2)
  let inm : MapDesc :=
    { base := num b 8 8, cbs := num b 24 4, fs := num b 28 4, d := num b 54 2, h := num b 50 2, w := num b 52 2,
      c := num b 56 2, kb := kb, fmt := (byteFmt (num b 80 1)).getD .bf16, scl := byteScl (num b 80 1), comp := bits ctl 5 2 }
  { inm := inm,
    outm := { base := num b 16 8, cbs := num b 32 4, fs := num b 36 4,
              d := (outSize (ud * inm.d) (num b 78 1) (num b 79 1) (num b 68 1) (num b 62 1) (num b 65 1)).getD 0,
              h := (outSize (uh * inm.h) (num b 70 2) (num b 72 2) (num b 66 1) (num b 60 1) (num b 63 1)).getD 0,
              w := (outSize (uw * inm.w) (num b 74 2) (num b 76 2) (num b 67 1) (num b 61 1) (num b 64 1)).getD 0,
              c := num b 58 2, kb := kb, fmt := (Fmt.ofCode cvt.fmt).getD .bf16, scl := false, comp := bits (num b 83 1) 0 2 },
    wbase := num b 40 4, fill := num b 44 4, wring := num b 48 2, kh := num b 60 1, kw := num b 61 1, kd := num b 62 1,
    sh := num b 63 1, sw := num b 64 1, sd := num b 65 1, dh := num b 66 1, dw := num b 67 1, dd := num b 68 1,
    uh := uh, uw := uw, ud := ud, pt := num b 70 2, pb := num b 72 2, pl := num b 74 2, pr := num b 76 2, pf := num b 78 1,
    pk := num b 79 1, wfmt := num b 81 1, ctl := ctl, octl := num b 83 1, pad := num b 88 4, bias := num b 96 8, cvt := cvt }

/-- CINP of R189. -/
def Conv.cinp (v : Conv) : Nat := v.inm.ncb * v.inm.kb
/-- K of R189. -/
def Conv.k (v : Conv) : Nat := v.kd * v.kh * v.kw * v.cinp
/-- M of R189. -/
def Conv.m (v : Conv) : Nat := v.outm.d * v.outm.h * v.outm.w

/-- A matrix product as the TE runs it. -/
structure MatOp where
  m     : Nat
  n     : Nat
  k     : Nat
  open_ : Nat
  gdir  : Bool
  iacc  : Bool
  a     : Panel
  b     : Panel
  spill : Nat
  cvt   : Cvt
  conv  : Bool
  deriving DecidableEq, Repr

/-- The matrix product of a MATMUL with bounds m, n and k (R91, R92). -/
def matOf (x : List Byte) (m n k : Nat) : MatOp :=
  let ctl := num x 42 1
  let fa := num x 40 1
  let fb := num x 41 1
  { m := m, n := n, k := k, open_ := ctl % 8, gdir := bit ctl 3, iacc := bit ctl 4,
    a := { base := num x 8 4, rt := ceilDiv m 256, kt := ceilDiv k 256, ring := num x 44 2, fmt := (byteFmt fa).getD .bf16,
           b16 := byteBlk fa, scl := byteScl fa },
    b := { base := num x 12 4, rt := ceilDiv n 256, kt := ceilDiv k 256, ring := num x 46 2, fmt := (byteFmt fb).getD .bf16,
           b16 := byteBlk fb, scl := byteScl fb },
    spill := num x 43 1, cvt := Cvt.ofBytes (sub x 48 16), conv := false }

/-- The matrix product of a CONV (R189); its operand A is the pair of fill buffers. -/
def convMat (x : List Byte) : MatOp :=
  let v := Conv.of x
  { m := v.m, n := v.outm.c, k := v.k, open_ := bits v.ctl 1 3, gdir := false, iacc := bit v.ctl 4,
    a := { base := v.fill, rt := 1, kt := 2, ring := 2, fmt := v.inm.fmt, b16 := v.inm.b16, scl := v.inm.scl },
    b := { base := v.wbase, rt := ceilDiv v.outm.c 256, kt := ceilDiv v.k 256, ring := v.wring,
           fmt := (byteFmt v.wfmt).getD .bf16, b16 := byteBlk v.wfmt, scl := byteScl v.wfmt },
    spill := num x 84 1, cvt := v.cvt, conv := true }

/-- The matrix product of a TE command. -/
def TeCmd.mat (t : TeCmd) : MatOp :=
  if hdrOpcode t.cmd.bytes = 0x28 then convMat t.cmd.bytes else matOf t.cmd.bytes t.m t.n t.k

/-- MT, NT and KT of R87. -/
def MatOp.mt (o : MatOp) : Nat := ceilDiv o.m 256
/-- NT. -/
def MatOp.nt (o : MatOp) : Nat := ceilDiv o.n 256
/-- KT. -/
def MatOp.kt (o : MatOp) : Nat := ceilDiv o.k 256

/-- Groups of a row or column of tiles (R87). -/
def MatOp.perLine (o : MatOp) : Nat := ceilDiv (if o.gdir then o.mt else o.nt) o.open_

/-- Number of groups. -/
def MatOp.groups (o : MatOp) : Nat := (if o.gdir then o.nt else o.mt) * o.perLine

/-- The tiles (mt, nt) of group `g`, in order of w (R87). -/
def MatOp.groupTiles (o : MatOp) (g : Nat) : List (Nat × Nat) :=
  let line := g / o.perLine
  let first := g % o.perLine * o.open_
  let count := min o.open_ ((if o.gdir then o.mt else o.nt) - first)
  (List.range count).map (fun w => if o.gdir then (first + w, line) else (line, first + w))

/-- Length of a reduction group: a block of the narrow operand, or 16 when both are 16-bit (R62). -/
def MatOp.groupLen (o : MatOp) : Nat :=
  if o.a.fmt.narrow then blockLen o.a.b16 else if o.b.fmt.narrow then blockLen o.b.b16 else 16

/-- Cycles per 16 reduction elements of a format's rate class (R78, R96). -/
def classCycles : Fmt → Nat
  | .e2m0 | .int2 | .tern5 => 8
  | .e2m1 | .int4 => 16
  | .bf16 | .fp16 => 64
  | _ => 32

/-- Activity of a busy cycle of the array, by the cycles of its rate class (R478). -/
def classAct (c : Nat) : Nat := 256 * (if c = 8 then 4900 else if c = 16 then 4060 else if c = 64 then 3000 else 3400)

/-- Cycles of step kt (R96). -/
def MatOp.stepCycles (o : MatOp) (kt : Nat) : Nat :=
  ceilDiv (min 256 (o.k - 256 * kt)) 16 * max (classCycles o.a.fmt) (classCycles o.b.fmt)

/-- The address of unit `u` of a command's spill area (R101). -/
def spillBase (eg unit u : Nat) : Nat := mapStore (eg / 32) + (unit + u) * 0x40000

/-! ## MATMUL and CONV at issue -/

/-- The spill area must lie within the partition's window (R103). -/
def State.spillVerdict (s : State) (p eg unit units : Nat) : Verdict :=
  .quotaIf (s.firstOutside p (spillBase eg unit 0) (units * 0x40000))

/-- The verdict of a panel's tag: outside the tensor-scale table (R573), or of the entry that it names (R246, R303, R321). -/
def State.tagVerdict (s : State) (p eg : Nat) (pn : Panel) : Verdict :=
  if !pn.fmt.narrow then .go
  else if !s.tsKnown p (s.tagAt eg pn.base) then .eccIf (some (opSramBase eg + pn.base / 2048 * 2048))
  else s.tsVerdict p (s.tagAt eg pn.base)

/-- The tensor scale of a panel at issue (R573). -/
def State.panelScale (s : State) (p eg : Nat) (pn : Panel) : Nat :=
  if pn.fmt.narrow then s.tsEntry p (s.tagAt eg pn.base) else 0x3F800000

/-- Whether an operand may take part in integer accumulation (R63). -/
def iaccOk (f : Fmt) : Bool := f.isInt

/-- The output descriptor of a TE command: FP32, BF16 or FP16, TSM not 3 (R94). -/
def teCvtBad (c : Cvt) : Bool := c.malformed || c.fmt > 2

/-- The checks of MATMUL (R94, R103, R573). A C_ADDR or C_LD that is not a multiple of the output element size is none of R94's
malformed cases: the command runs with it (DESIGN CHOICE, log entry 44). -/
def State.matmulCheck (s : State) (c : Cmd) : Verdict :=
  let b := c.bytes
  let x := s.bound c.part (num b 28 4)
  let y := s.bound c.part (num b 32 4)
  let z := s.bound c.part (num b 36 4)
  let o := matOf b x.get y.get z.get
  let size := ((Fmt.ofCode o.cvt.fmt).getD .fp32).bytes
  let cAddr := num b 16 8
  let ld := num b 24 4
  let empty := o.m = 0 || o.n = 0
  let zero := empty || o.k = 0
  .first
    [ .badIf (!operandFmtOk (num b 40 1) || !operandFmtOk (num b 41 1)),
      .badIf (o.a.fmt.narrow && o.b.fmt.narrow && o.a.b16 != o.b.b16),
      .badIf (o.iacc && !(iaccOk o.a.fmt && iaccOk o.b.fmt)),
      .badIf (teCvtBad o.cvt || o.open_ = 0 || o.open_ = 7 || num b 42 1 / 32 != 0 || o.spill = 255 ||
        o.a.base % 2048 != 0 || o.b.base % 2048 != 0),
      .badIf (o.a.ringBig || o.b.ringBig || !inMsT1 cAddr 1),
      x.verdict, y.verdict, z.verdict,
      Bound.need [x, z] (.badIf o.a.tooBig), Bound.need [y, z] (.badIf o.b.tooBig),
      Bound.need [y] (.badIf (ld < o.n * size)),
      Bound.need [x, y] (.badIf (!empty && !inMsT1 cAddr ((o.m - 1) * ld + o.n * size))),
      s.spillVerdict c.part c.eg o.spill 2,
      Bound.need [x, y] (.quotaIf (if empty then none else firstRefused (s.writeRefused c.part) cAddr ld o.m (o.n * size))),
      Bound.need [x, y, z] (if zero then .go else .first [s.tagVerdict c.part c.eg o.a, s.tagVerdict c.part c.eg o.b]),
      Bound.need [x, y, z] (.okIf zero) ]

/-- A TE command as it enters the wait for slots (R99). -/
def TeCmd.start (c : Cmd) (m n k ta tb : Nat) (extra : List Nat) (tabs : List (List Byte)) (scales : List (Nat × Nat)) : TeCmd :=
  { cmd := c, m := m, n := n, k := k, ta := ta, tb := tb, extra := extra, slots := [], group := 0, kt := 0, pos := 0,
    tiles := [], drains := [], freed := [], spills := 0, at_ := 0, round := 0, carry := [], tabs := tabs, scales := scales, stopped := false,
    ended := false, seen := [] }

/-- Puts a TE command in the wait for slots (R99). -/
def State.teWait (s : State) (eg : Nat) (t : TeCmd) : State :=
  s.setTe eg { s.teOf eg with waiting := (s.teOf eg).waiting ++ [t] }

/-- MATMUL: reads bounds and tensor scales at issue, then waits for slots (R91, R99, R573). -/
def State.runMatmul (s : State) (c : Cmd) : State :=
  let b := c.bytes
  let m := (s.bound c.part (num b 28 4)).get
  let n := (s.bound c.part (num b 32 4)).get
  let k := (s.bound c.part (num b 36 4)).get
  let o := matOf b m n k
  s.teWait c.eg (TeCmd.start c m n k (s.panelScale c.part c.eg o.a) (s.panelScale c.part c.eg o.b) [] [] [])

/-- MATMUL (R91): reads its bounds, makes its issue checks and waits for accumulator slots. -/
def execMatmul (i : Issuer) (s : State) : Host.Outcome State Fault Refusal :=
  inRange (issuerOk i) (fun _ => .next (s.issueRow i (isOp 0x10) State.matmulCheck State.runMatmul))

/-- The malformed cases of CONV that its fields alone decide (R184, R185, R187, R188, R190, R196). -/
def Conv.fieldsBad (v : Conv) (b : List Byte) : Bool :=
  let m := v.inm
  let o := convMat b
  outside m.h 1 8192 || outside m.w 1 8192 || outside m.d 1 4096 || outside m.c 1 16384 || outside v.outm.c 1 16384 ||
  outside v.kh 1 15 || outside v.kw 1 15 || outside v.kd 1 7 || outside v.sh 1 8 || outside v.sw 1 8 || outside v.sd 1 4 ||
  outside v.dh 1 255 || outside v.dw 1 255 || outside v.dd 1 16 ||
  bits (num b 69 1) 0 2 == 3 || bits (num b 69 1) 2 2 == 3 || bits (num b 69 1) 4 2 == 3 || num b 69 1 / 64 != 0 ||
  decide (4095 < v.pt) || decide (4095 < v.pb) || decide (4095 < v.pl) || decide (4095 < v.pr) ||
  decide (63 < v.pf) || decide (63 < v.pk) ||
  outside v.outm.h 1 8192 || outside v.outm.w 1 8192 || outside v.outm.d 1 8192 || decide (2 ^ 30 ≤ v.m) ||
  bit v.ctl 7 || v.octl / 8 != 0 || m.comp == 3 || v.outm.comp == 3 || num b 85 3 != 0 || num b 92 4 != 0 ||
  num b 104 8 != 0 || o.open_ == 0 || o.open_ == 7 || o.spill == 255 ||
  !operandFmtOk (num b 80 1) || !operandFmtOk v.wfmt || (m.fmt.narrow && o.b.fmt.narrow && o.a.b16 != o.b.b16) ||
  (m.fmt.narrow && byteBlk (num b 80 1) != m.b16) || (o.b.fmt.narrow && o.b.b16 != m.b16) ||
  (m.comp != 0 && m.fmt != .bf16) || (v.outm.comp != 0 && v.outm.fmt != .bf16) ||
  teCvtBad v.cvt || v.cvt.tsm == 1 || v.wbase % 2048 != 0 || v.fill % 2048 != 0 || m.strideBad || v.outm.strideBad ||
  o.b.tooBig || decide (opSramSize < v.fill + 2 * o.a.z) || overlaps v.fill (2 * o.a.z) v.wbase o.b.bytes ||
  (o.iacc && (!(iaccOk m.fmt && iaccOk o.b.fmt) || v.pad != 0))

/-- Whether CONV adds a bias vector. -/
def Conv.biased (v : Conv) : Bool := bit v.octl 2

/-- The tap of a reduction element's block: kd, ky, kx and channel block (R189). -/
def Conv.tap (v : Conv) (e : Nat) : Nat × Nat × Nat × Nat :=
  let tap := e / v.cinp
  (tap / (v.kh * v.kw), tap / v.kw % v.kh, tap % v.kw, e % v.cinp / v.inm.kb)

/-- The channel block of the map that row `r` of operand A takes for the reduction elements from `e`; none where the tap is not valid
(R189 to R191). -/
def Conv.source (v : Conv) (r e : Nat) : Option MapPos :=
  let o := v.outm
  let k := v.tap e
  match tapCoord (r / (o.h * o.w)) v.sd k.1 v.dd v.pf v.ud v.inm.d, tapCoord (r / o.w % o.h) v.sh k.2.1 v.dh v.pt v.uh v.inm.h,
      tapCoord (r % o.w) v.sw k.2.2.1 v.dw v.pl v.uw v.inm.w with
  | some f, some y, some x => some (f, k.2.2.2, y, x)
  | _, _, _ => none

/-- The channel blocks that filling the A tile of tile row `mt` and step `kt` reads, in order. -/
def Conv.fillReads (v : Conv) (mt kt : Nat) : List MapPos :=
  (List.range 256).flatMap (fun r => (List.range (256 / v.inm.kb)).filterMap (fun j =>
    let e := 256 * kt + j * v.inm.kb
    if v.m ≤ 256 * mt + r ∨ v.k ≤ e then none else v.source (256 * mt + r) e))

/-- The first channel block that a CONV reads. -/
def Conv.firstRead (v : Conv) : Option MapPos :=
  let kt := ceilDiv v.k 256
  (List.range (ceilDiv v.m 256 * kt)).findSome? (fun x => (v.fillReads (x / kt) (x % kt)).head?)

/-- TSIDX of the input map of a CONV (R70, R185). -/
def State.convTsidx (s : State) (v : Conv) : Nat := if v.inm.fmt.narrow then s.mapTsidx v.inm v.firstRead else 0xFFFFFFFF

/-- The checks of CONV at issue (R103, R196, R573). -/
def State.convCheck (s : State) (c : Cmd) : Verdict :=
  let v := Conv.of c.bytes
  let o := convMat c.bytes
  if v.fieldsBad c.bytes then .malformed
  else
    .first
      [ .badIf (!inMsT1 v.inm.range.1 v.inm.range.2 || !inMsT1 v.outm.range.1 v.outm.range.2),
        .badIf (v.biased && !inT0T1T2 v.bias (4 * v.outm.c)),
        s.spillVerdict c.part c.eg o.spill 2,
        .quotaIf (s.readRefused false c.part v.inm.range.1 v.inm.range.2),
        .quotaIf (s.writeRefused c.part v.outm.range.1 v.outm.range.2),
        .quotaIf (if v.biased then s.readRefused false c.part v.bias (4 * v.outm.c) else none),
        s.tagVerdict c.part c.eg o.b,
        (match s.mapStop c.part (s.convTsidx v) with
         | some x => .done (Result.at x.1 x.2 0)
         | none => .go),
        .eccIf (if v.biased then s.badIn v.bias (4 * v.outm.c) else none) ]

/-- CONV: reads its bias vector and tensor scales at issue, then waits for slots (R189, R193, R573). -/
def State.runConv (s : State) (c : Cmd) : State :=
  let v := Conv.of c.bytes
  let o := convMat c.bytes
  let bias := if v.biased then (List.range o.n).map (fun i => s.word (v.bias + 4 * i)) else []
  let ts := s.convTsidx v
  let ta := s.tsEntry c.part ts
  let s1 := s.touchReads c (s.tsRange c.part ts ++ (if v.biased then [(v.bias, 4 * o.n)] else []))
  s1.teWait c.eg (TeCmd.start c o.m o.n o.k ta (s.panelScale c.part c.eg o.b) bias [] [(ts, ta)])

/-- CONV (R189): runs as a matrix product whose operand A the WAG builds from the map. -/
def execConv (i : Issuer) (s : State) : Host.Outcome State Fault Refusal :=
  inRange (issuerOk i) (fun _ => .next (s.issueRow i (isOp 0x28) State.convCheck State.runConv))

/-! ## Slot grants (R99, R440) -/

/-- Accumulator slots held on a tensor engine. -/
def Te.held (t : Te) : List Nat := t.flight.flatMap (fun c => c.slots)

/-- The free slots of a tensor engine, lowest first. -/
def Te.freeSlots (t : Te) : List Nat := (List.range 4).filter (fun j => !t.held.contains j)

/-- F of R99: free slots within the quota of a command's job (R440). -/
def State.slotsFor (s : State) (eg : Nat) (c : Cmd) : Nat :=
  let te := s.teNow eg
  let mine := ((te.flight.filter (fun x => x.cmd.job == c.job && x.cmd.part == c.part)).flatMap (fun x => x.slots)).length
  min te.freeSlots.length (s.fld F.cpJob_SLOTS (8 * c.part + c.job) - mine)

/-- Slots a command asks for at a grant, when F are free; none while it must wait (R99, R174). -/
def TeCmd.asks (t : TeCmd) (f : Nat) : Option Nat :=
  if hdrOpcode t.cmd.bytes = 0x22 then (if 2 ≤ f then some 2 else none)
  else
    let o := t.mat.open_
    if 1 ≤ f ∧ o - 2 ≤ f then some (min o f) else none

/-- Whether a job's commands may take slots and steps: it is not being saved, saved or resumed (R450). -/
def State.jobRuns (s : State) (p j : Nat) : Bool := decide (s.jobState p j < 2)

/-- The first waiting command that may have slots in the present cycle (R99). -/
def State.grantNext (s : State) (eg : Nat) : Option TeCmd :=
  (s.teOf eg).waiting.find? (fun t => s.jobRuns t.cmd.part t.cmd.job && (t.asks (s.slotsFor eg t.cmd)).isSome)

/-- The cycle in which the next command whose last drain has ended completes, if its completion is posted for it (R85). -/
def State.nextFree (s : State) (eg : Nat) : Option Nat :=
  let ended := (s.teNow eg).flight.filter (fun t => t.ended)
  let times := (s.entry (eg / 32) (eg % 32)).filterMap (fun k =>
    if decide (s.cycle < k.posted) && ended.any (fun t => t.cmd.uid == k.cmd.uid) then some k.posted else none)
  times.foldl (fun m x => match m with | none => some x | some y => some (min x y)) none

/-- The state in which a waiting command may have slots: the present one, or the one in which commands that only await their
completion have completed, up to `n` of them. -/
def State.untilGrant (s : State) (eg : Nat) : Nat → State
  | 0 => s
  | n + 1 => if (s.grantNext eg).isSome then s else match s.nextFree eg with
    | some t => (s.until t).untilGrant eg n
    | none => s

/-- Grants slots to the first waiting command that may have them (R99): the lowest-numbered free ones. -/
def State.grantSlots (s0 : State) (eg : Nat) : State :=
  let s := s0.untilGrant eg 4
  let te := s.teNow eg
  match s.grantNext eg with
  | none => s0
  | some t =>
    let n := (t.asks (s.slotsFor eg t.cmd)).getD 0
    let at0 := max s.cycle t.cmd.issued
    let t1 := { t with slots := te.freeSlots.take n, at_ := at0 + 64, round := at0 + 64 }
    let s1 := s.setTe eg { te with waiting := te.waiting.filter (fun x => x.cmd.uid != t.cmd.uid), flight := te.flight ++ [t1] }
    (s1.addWait t.cmd.part t.cmd.job (at0 - t.cmd.issued)).reachNext t.cmd.issuer

/-- TE_SLOT_GRANT (R99): a waiting TE command is granted the lowest free slots once enough are free. -/
def execTeSlotGrant (eg : Nat) (s : State) : Host.Outcome State Fault Refusal :=
  inRange (eg < 128) (fun _ => .next (s.grantSlots eg))

/-! ## The fill of operand A under CONV (R191, R195) -/

/-- The pad block of a CONV: scale byte, held codes, and the outcomes of its conversion (R59, R74, R191). -/
def Conv.padBlock (v : Conv) (t : FVal) (cb : Nat) : Nat × List Nat × Counts :=
  let m := v.inm
  let xs := (List.range m.kb).map (fun i => if cb * m.kb + i < m.c then f32 v.pad else FVal.zero)
  if m.fmt.narrow then
    let q := quantBlock m.fmt
      { fmt := m.fmt.code, blk := m.b16, scl := m.scl, sr := false, ovf := false, tsm := 2, tsidx := 0xFFFFFFFF, seed := 0 } t 0 xs
    (q.block.scale, q.block.elems.map (heldCode m.fmt), q.counts)
  else
    let cs := xs.map (fun x => convert m.fmt .rne false x)
    (0, cs.map (fun x => x.1), (cs.take (m.c - cb * m.kb)).foldl (fun n x => n.add x.2) Counts.none)

/-- One block of operand A: row `r` of the product, reduction elements from `e`, with the outcomes of writing a pad block (R189 to
R191). `ts` is the index and the code of the map's tensor scale. -/
def State.convBlock (s : State) (p : Nat) (v : Conv) (ts : Nat × Nat) (r e : Nat) : BlockRead × Counts :=
  match v.source r e with
  | some b =>
    let x := s.mapBlock p v.inm ts.1 b
    ({ x with codes := x.codes.map (heldCode v.inm.fmt) }, Counts.none)
  | none =>
    let q := v.padBlock (f32 ts.2) (v.tap e).2.2.2
    (⟨q.1, q.2.1, none⟩, q.2.2)

/-- One row of an A tile: held codes, scales and outcomes, or the address that failed. -/
def State.convRow (s : State) (p : Nat) (v : Conv) (ts : Nat × Nat) (r kt : Nat) : List Nat × List Nat × Counts × Option Nat :=
  let kb := v.inm.kb
  let rs := (List.range (256 / kb)).map (fun j =>
    let e := 256 * kt + j * kb
    if v.m ≤ r ∨ v.k ≤ e then ((⟨0, List.replicate kb 0, none⟩ : BlockRead), Counts.none) else s.convBlock p v ts r e)
  match rs.findSome? (fun b => b.1.fail) with
  | some a => ([], [], Counts.none, some a)
  | none => (rs.flatMap (fun b => b.1.codes), if v.inm.fmt.narrow then rs.map (fun b => b.1.scale) else [],
      rs.foldl (fun n b => n.add b.2) Counts.none, none)

/-- The fill buffer of a round: rounds alternate between the two (R195). -/
def MatOp.fillOff (o : MatOp) (group kt : Nat) : Nat := o.a.base + (group * o.kt + kt) % 2 * o.a.z

/-- Writes operand SRAM from inside the engine group: the tensor-scale tags stay. -/
def State.storeUntagged (s : State) (eg a : Nat) (bs : List Byte) : State := (s.store a bs).setTe eg (s.teOf eg)

/-- The WAG fills the A tile of a round (R195): its reads take their slots, its pad blocks' outcomes and the TERN5 bytes it reads for
the first time are counted. -/
def State.convFill (s : State) (eg : Nat) (t : TeCmd) (mt : Nat) : State × TeCmd × Option Nat :=
  let v := Conv.of t.cmd.bytes
  let o := convMat t.cmd.bytes
  let ts := t.scales.headD (0xFFFFFFFF, 0x3F800000)
  let p := t.cmd.part
  let rows := (List.range 256).map (fun r => s.convRow p v ts (256 * mt + r) t.kt)
  let fail := rows.findSome? (fun r => r.2.2.2)
  let bl := if fail.isNone then v.fillReads mt t.kt else s.readable p v.inm ts.1 (v.fillReads mt t.kt)
  let n := if v.inm.fmt = .tern5 then s.ternCount .tern5 v.inm.b16 v.inm.base (bl.map v.inm.blockNo) (t.seen, 0) else ([], 0)
  let rs := v.inm.ranges bl
  let s1 := ((s.claimUnits t.cmd rs).noteReads t.cmd rs).addCvt eg ((rows.foldl (fun k r => k.add r.2.2.1) Counts.none).add ⟨0, 0, 0, n.2⟩)
  let t1 := { t with seen := n.1 }
  match fail with
  | some a => (s1, t1, some a)
  | none =>
    (s1.storeUntagged eg (opSramBase eg + o.fillOff t.group t.kt) (tileBytes v.inm.fmt (rows.map (fun r => (r.1, r.2.1)))), t1, none)

/-- Runs of up to 16 consecutive positions of one output row in a tile's positions from m0, `fuel` positions at most (R195). -/
def convRuns (ow m : Nat) : Nat → Nat → Nat → Nat
  | 0, _, _ => 0
  | fuel + 1, m0, left =>
    if left = 0 ∨ m ≤ m0 then 0
    else
      let n := min (min 16 left) (min (ow - m0 % ow) (m - m0))
      1 + convRuns ow m fuel (m0 + n) (left - n)

/-- Cycles that filling an A tile takes (R195). -/
def Conv.fillCycles (v : Conv) (z mt kt : Nat) : Nat :=
  let last := min (256 * kt + 255) (v.k - 1)
  let taps := last / v.cinp - 256 * kt / v.cinp + 1
  max (ceilDiv z 256) (convRuns v.outm.w v.m 256 (256 * mt) 256 * taps)

/-! ## Steps, spills and reloads (R88, R89, R96 to R104, R442) -/

/-- Whether an operation of a job on an engine group's array or drain port that starts in a cycle ends within its entry (R442). -/
def State.fits (s : State) (eg job start len : Nat) : Bool :=
  s.wheelJob eg == some job && decide (start + len ≤ s.entryEnd eg)

/-- Replaces a command in flight. -/
def State.setFlight (s : State) (eg : Nat) (t : TeCmd) : State :=
  let te := s.teOf eg
  s.setTe eg { te with flight := te.flight.map (fun x => if x.cmd.uid = t.cmd.uid then t else x) }

/-- Ends an operation of the array: the clock, the array and the command move to its end. -/
def State.arrayEnd (s : State) (eg : Nat) (t : TeCmd) (stop : Nat) : State :=
  let s1 := (s.until stop).setFlight eg { t with at_ := stop }
  s1.setTe eg { s1.teOf eg with free := stop }

/-- A TE command makes no further step or drain: it holds its slots until it completes (R85, R99). -/
def State.leaveTe (s : State) (eg : Nat) (t : TeCmd) : State := s.setFlight eg { t with ended := true, drains := [] }

/-- What a command that spilled leaves in the spill area is not defined: free bytes (R103). -/
def State.loseSpill (s : State) (eg unit units : Nat) : State :=
  let s1 := s.draw
  s1.store (spillBase eg unit 0) (freeBytes s1.free (units * 0x40000))

/-- A TE command ends with an uncorrectable word (R94, R321); one that arrived so has been counted. -/
def State.failTe (s : State) (eg : Nat) (t : TeCmd) (a : Nat) : State :=
  let s1 := if (s.badIn a 1).isSome && s.arrivedBad t.cmd.uid != some a then s.noteUe a else s
  let s2 := s1.leaveTe eg t
  let s3 := if t.spills = 0 then s2 else s2.loseSpill eg t.mat.spill 2
  s3.finish t.cmd { Result.at St.ecc a (max s3.cycle t.at_ + 16 - t.cmd.issued) with
    flags := if t.spills = 0 then [] else [1] }

/-- The tile whose step comes next: its number in the group and its position (R88). -/
def TeCmd.nextTile (t : TeCmd) : Option (Nat × Nat × Nat) :=
  let ts := t.mat.groupTiles t.group
  let w := if t.kt % 2 = 0 then t.pos else ts.length - 1 - t.pos
  if t.mat.groups ≤ t.group then none else (ts[w]?).map (fun x => (w, x.1, x.2))

/-- Slots granted to a command that hold neither an open tile nor a tile that drains, with the cycle each became free. -/
def TeCmd.openSlots (t : TeCmd) : List (Nat × Nat) :=
  (t.slots.filter (fun j => !t.tiles.any (fun x => x.slot == some j) && !t.drains.any (fun x => x.slot == j))).map
    (fun j => (j, ((t.freed.find? (fun f => f.1 == j)).map (fun f => f.2)).getD 0))

/-- The free slot that became free first. R101 does not say which of several free granted slots a tile takes (DESIGN CHOICE, log entry
44). -/
def firstFree : List (Nat × Nat) → Option (Nat × Nat)
  | [] => none
  | x :: xs => some (xs.foldl (fun b y => if y.2 < b.2 then y else b) x)

/-- The resident tile whose most recent step ended earliest (R101). -/
def oldestTile (ts : List Tile) : Option Tile :=
  match ts.filter (fun t => t.slot.isSome) with
  | [] => none
  | x :: xs => some (xs.foldl (fun b y => if y.lastEnd < b.lastEnd then y else b) x)

/-- Replaces or adds an open tile. -/
def TeCmd.putTile (t : TeCmd) (x : Tile) : TeCmd :=
  { t with tiles := t.tiles.filter (fun y => y.w != x.w) ++ [x] }

/-- The spill unit a spill writes: one that holds no tile, else the one that the tile about to reload gives up (R100, R101). -/
def TeCmd.spillUnit (t : TeCmd) (w : Nat) : Nat :=
  let used := t.tiles.filterMap (fun x => x.spill)
  match [0, 1].find? (fun u => !used.contains u) with
  | some u => u
  | none => ((t.tiles.find? (fun x => x.w == w)).bind (fun x => x.spill)).getD 0

/-- One element of an output tile after a step (R62, R63, R89): its word, and clamps counted. -/
def stepElem (iacc : Bool) (acc : Nat) (a b : List (List FVal × FVal)) : Nat × Nat :=
  if iacc then
    let r := (a.zip b).foldl (fun (x : Int × Nat) gh =>
      let y := accGroupInt x.1 ((gh.1.1.zip gh.2.1).map (fun p => p.1.trunc * p.2.trunc))
      (y.1, x.2 + y.2)) (signed 32 acc, 0)
    (unsigned 32 r.1, r.2)
  else
    let v := (a.zip b).foldl (fun x gh => accGroup x ((gh.1.1.zip gh.2.1).map (fun p => p.1.mul p.2)) gh.1.2 gh.2.2) (f32 acc)
    (fp32.encode v, 0)

/-- The words of a tile after a step, row by row, and clamps counted. -/
def State.stepTile (s : State) (eg slot : Nat) (fresh iacc : Bool) (g n : Nat) (aOff : Nat) (a : Panel) (bOff : Nat) (b : Panel) :
    List Byte × Nat :=
  let brows := (List.range 256).map (s.tileRow eg bOff b.fmt b.b16 b.scl g n)
  let rows := (List.range 256).map (fun r =>
    let ar := s.tileRow eg aOff a.fmt a.b16 a.scl g n r
    (brows.zip (List.range 256)).map (fun bc =>
      stepElem iacc (if fresh then 0 else s.word (slotBase eg slot + 4 * (256 * r + bc.2))) ar bc.1))
  (rows.flatten.flatMap (fun x => leBytes 4 x.1), rows.flatten.foldl (fun k x => k + x.2) 0)

/-- Operand-SRAM offset of the A tile of the next step. -/
def TeCmd.aOff (t : TeCmd) (mt : Nat) : Nat := if t.mat.conv then t.mat.fillOff t.group t.kt else t.mat.a.tileOff mt t.kt

/-- The step of the next tile, resident in slot `j`, from cycle `start` (R88, R89, R96). -/
def State.doStep (s : State) (eg : Nat) (t : TeCmd) (w mt nt j start : Nat) (fresh : Bool) : State :=
  let o := t.mat
  let aOff := t.aOff mt
  let bOff := o.b.tileOff nt t.kt
  let bad := [(opSramBase eg + aOff, o.a.z), (opSramBase eg + bOff, o.b.z)].findSome? (fun r => s.badIn r.1 r.2)
  let bad2 := match bad with
    | some a => some a
    | none => if fresh then none else s.badIn (slotBase eg j) 0x40000
  match bad2 with
  | some a => s.failTe eg t a
  | none =>
    let g := o.groupLen
    let r := s.stepTile eg j fresh o.iacc g (ceilDiv (min 256 (o.k - 256 * t.kt)) g) aOff o.a bOff o.b
    let n := o.stepCycles t.kt
    let s0 := s.act ((s.egPart eg).getD 8) (n * classAct (max (classCycles o.a.fmt) (classCycles o.b.fmt)))
    let s1 := (s0.store (slotBase eg j) r.1).addCvt eg ⟨r.2, 0, 0, 0⟩
    let stop := start + n
    let last := t.kt + 1 = o.kt
    let t1 := if last then
        { t with tiles := t.tiles.filter (fun x => x.w != w), drains := t.drains ++ [⟨mt, nt, j, stop + 32⟩] }
      else t.putTile ⟨w, some j, none, stop⟩
    let ended := t.pos + 1 = (o.groupTiles t.group).length
    let t2 := { t1 with
      pos := if ended then 0 else t.pos + 1
      kt := if ended then (if last then 0 else t.kt + 1) else t.kt
      group := if ended && last then t.group + 1 else t.group
      round := if t.pos = 0 then start else t.round }
    s1.arrayEnd eg t2 stop

/-- What the array does next for a command: one operation, or nothing yet. The flag says that it was a step. -/
inductive ArrayOp where
  | none
  | more (s : State)
  | stepped (s : State)

/-- The slots that a command may open a tile in: a slot whose drain still writes to T1 is not yet free (R86). -/
def State.slotsOpen (s : State) (t : TeCmd) : List (Nat × Nat) :=
  if s.hasWrites t.cmd.uid then t.openSlots.filter (fun x => t.freed.getLast?.any (fun f => f.1 != x.1)) else t.openSlots

/-- A tile goes back from spill unit `u` to its slot `j`, from cycle `start` on (R101, R102). -/
def State.reloadTile (s : State) (eg : Nat) (t : TeCmd) (x : Tile) (start : Nat) : State :=
  (s.count F.teSpillcnt_PAIRS eg 1).arrayEnd eg (t.putTile { x with spill := none }) (start + 512)

/-- The resident tile `v` is written to spill unit `u`, from cycle `start` on (R101, R102). When the tile `x` that is to reload held
that unit, its words take the slot, where they wait for its own reload (log entry 44). -/
def State.spillTile (s : State) (eg : Nat) (t : TeCmd) (v : Tile) (u start : Nat) (x : Option Tile) : State :=
  let j := v.slot.getD 0
  let a := spillBase eg t.mat.spill u
  let back := s.read a 0x40000
  let s1 := (s.store a (s.read (slotBase eg j) 0x40000)).setFld F.egStat_SPILLED eg 1
  let t1 := { t.putTile { v with slot := none, spill := some u } with spills := t.spills + 1 }
  match x with
  | some x => if x.spill = some u then (s1.store (slotBase eg j) back).arrayEnd eg (t1.putTile { x with slot := some j }) (start + 512)
              else s1.arrayEnd eg t1 (start + 512)
  | none => s1.arrayEnd eg t1 (start + 512)

/-- The step of the next tile in slot `j`, with the fill of its A tile at the start of a round under CONV (R88, R195). -/
def State.stepAt (s : State) (eg : Nat) (t : TeCmd) (w mt nt j at0 : Nat) (fresh : Bool) : ArrayOp :=
  let o := t.mat
  if !s.fits eg t.cmd.job at0 (o.stepCycles t.kt) then .none
  else if o.conv && t.pos == 0 then
    match s.convFill eg t mt with
    | (s1, t1, some a) => .stepped (s1.failTe eg t1 a)
    | (s1, t1, .none) =>
      let fill := (Conv.of t.cmd.bytes).fillCycles o.a.z mt t.kt
      .stepped ((s1.act ((s.egPart eg).getD 8) (fill * unitAct)).doStep eg t1 w mt nt j at0 fresh)
  else .stepped (s.doStep eg t w mt nt j at0 fresh)

/-- One operation of the array for a command in flight: a spill, a reload or the next step, if it fits the job's entry (R88, R101,
R102, R442). A word that arrived uncorrectable ends the command (R321). -/
def State.arrayOp (s : State) (eg : Nat) (t : TeCmd) : ArrayOp :=
  let o := t.mat
  match s.arrivedBad t.cmd.uid, t.nextTile with
  | some a, _ => .stepped (s.failTe eg t a)
  | .none, .none => .none
  | .none, some (w, mt, nt) =>
    let base := max (max t.at_ (s.teOf eg).free) (s.wheel eg).start
    let start := if o.conv && t.pos == 0 then
        max base (t.round + (Conv.of t.cmd.bytes).fillCycles o.a.z mt t.kt) else base
    let x := t.tiles.find? (fun x => x.w == w)
    let away := (x.bind (fun x => x.spill)).map (fun u => spillBase eg o.spill u)
    match x.bind (fun x => x.slot), x.bind (fun x => x.spill) with
    | some j, .none => s.stepAt eg t w mt nt j start false
    | some _, some _ =>
      if !s.fits eg t.cmd.job start 512 then .none else .more (s.reloadTile eg t (x.getD ⟨w, .none, .none, 0⟩) start)
    | .none, u =>
      match firstFree (s.slotsOpen t) with
      | some (j, free) =>
        let at0 := max start free
        match u with
        | .none => s.stepAt eg t w mt nt j at0 true
        | some u =>
          let a := spillBase eg o.spill u
          if !s.fits eg t.cmd.job at0 512 then .none
          else match s.badIn a 0x40000 with
            | some e => .stepped (s.failTe eg t e)
            | .none => .more ((s.store (slotBase eg j) (s.read a 0x40000)).reloadTile eg t
                ⟨w, some j, .none, (x.map (fun x => x.lastEnd)).getD 0⟩ at0)
      | .none =>
        if !t.drains.isEmpty || s.hasWrites t.cmd.uid then .none
        else match oldestTile t.tiles with
          | .none => .none
          | some v =>
            if !s.fits eg t.cmd.job start 512 then .none
            else match away.bind (fun a => s.badIn a 0x40000) with
              | some e => .stepped (s.failTe eg t e)
              | .none => .more (s.spillTile eg t v (t.spillUnit w) start x)

/-- The step of a command in flight with the spill and reload that it needs (R88, R101). -/
def State.matStep (s : State) (eg uid : Nat) : Nat → State
  | 0 => s
  | fuel + 1 =>
    match (s.teOf eg).flight.find? (fun x => x.cmd.uid == uid && !x.ended) with
    | none => s
    | some t =>
      match s.arrayOp eg t with
      | .none => s
      | .stepped s1 => s1
      | .more s1 => s1.matStep eg uid fuel

/-! ## Drains (R64, R86, R95, R193) -/

/-- The value of an accumulator word after the tensor-scale product (R63, R64). -/
def drainValue (iacc : Bool) (t : FVal) (w : Nat) : FVal :=
  fl32c ((if iacc then fl32 (FVal.ofInt (signed 32 w)) else f32 w).mul t)

/-- One output element of a drain: bias added under CONV, then converted (R64, R95, R193). -/
def TeCmd.outCode (t : TeCmd) (o : MatOp) (sc : FVal) (w m n : Nat) : Nat × Counts :=
  let v := drainValue o.iacc sc w
  let y := match t.extra[n]? with | some b => fl32c (v.add (f32 b)) | none => v
  outElem o.cvt (m * o.n + n) y

/-- The codes of the valid part of a draining tile: rows of columns, and the counts. -/
def State.drainCodes (s : State) (eg : Nat) (t : TeCmd) (d : Drain) : List (List Nat) × Counts :=
  let o := t.mat
  let sc := fl32c ((f32 t.ta).mul (f32 t.tb))
  let rows := (List.range (min 256 (o.m - 256 * d.mt))).map (fun r =>
    (List.range (min 256 (o.n - 256 * d.nt))).map (fun k =>
      t.outCode o sc (s.word (slotBase eg d.slot + 4 * (256 * r + k))) (256 * d.mt + r) (256 * d.nt + k)))
  (rows.map (fun r => r.map (fun x => x.1)), rows.flatten.foldl (fun n x => n.add x.2) Counts.none)

/-- Writes a MATMUL tile row by row (R95). -/
def putMatRows (c : Cmd) (a0 ld size : Nat) : Nat → List (List Nat) → Out → Out
  | _, [], o => o
  | r, x :: xs, o => putMatRows c a0 ld size (r + 1) xs (o.put c false (a0 + r * ld) (x.flatMap (fun v => leBytes size v)))

/-- Writes a raw CONV tile: each pixel's channel blocks, padding channels +0 (R184, R186, R193). -/
def putConvRaw (c : Cmd) (undef : Bool) (m : MapDesc) (nt : Nat) : Nat → List (List Nat) → Out → Out
  | _, [], o => o
  | r, x :: xs, o =>
    let nb := ceilDiv x.length m.kb
    let bl := chunk m.kb nb (x ++ List.replicate (nb * m.kb - x.length) 0)
    let o1 := (bl.zip (List.range nb)).foldl (fun o bi =>
      o.put c undef (m.elemAddr (r / (m.h * m.w)) (256 * nt + bi.2 * m.kb) (r / m.w % m.h) (r % m.w))
        (bi.1.flatMap (fun v => leBytes m.fmt.bytes v))) o
    putConvRaw c undef m nt (r + 1) xs o1

/-- What writing fixed-rate blocks has gathered: the state, halves of blocks whose other half comes with another tile, non-finite
elements counted. -/
structure FrcRun where
  out    : Out
  carry  : List (Nat × List Nat)
  nonfin : Nat
  deriving DecidableEq, Repr

/-- Adds one pixel's channel block to a fixed-rate map: a block of 32 elements is written when its pixels are all there (R204). -/
def FrcRun.pixel (x : FrcRun) (c : Cmd) (undef : Bool) (m : MapDesc) (f cb pos : Nat) (codes : List Nat) : FrcRun :=
  let e0 := pos * m.kb
  let a := m.base + f * m.fs + cb * m.cbs + e0 / 32 * frcBytes m.comp
  let before := ((x.carry.find? (fun k => k.1 == a)).map (fun k => k.2)).getD []
  let all := before ++ codes
  let lastPixel := decide ((pos + 1) = m.h * m.w)
  if all.length < 32 && !lastPixel then { x with carry := x.carry.filter (fun k => k.1 != a) ++ [(a, all)] }
  else
    let e := frcEncode m.comp ((all ++ List.replicate 32 0).take 32)
    { out := x.out.put c undef a (leBytes (frcBytes m.comp) e.1), carry := x.carry.filter (fun k => k.1 != a),
      nonfin := x.nonfin + e.2 }

/-- Writes a CONV tile in fixed-rate form. -/
def putConvFrc (c : Cmd) (undef : Bool) (m : MapDesc) (nt : Nat) : Nat → List (List Nat) → FrcRun → FrcRun
  | _, [], x => x
  | r, row :: rows, x =>
    let nb := ceilDiv row.length m.kb
    let bl := chunk m.kb nb (row ++ List.replicate (nb * m.kb - row.length) 0)
    let x1 := (bl.zip (List.range nb)).foldl (fun x bi =>
      x.pixel c undef m (r / (m.h * m.w)) (256 * nt / m.kb + bi.2) (r % (m.h * m.w)) bi.1) x
    putConvFrc c undef m nt (r + 1) rows x1

/-- The next drain of a tensor engine: the first finished tile, the oldest command's first (R86). -/
def Te.nextDrain (te : Te) : Option (TeCmd × Drain) :=
  (te.flight.filter (fun t => !t.ended)).foldl (fun b t => match t.drains.head?, b with
    | none, _ => b
    | some d, none => some (t, d)
    | some d, some (u, e) => if d.ready < e.ready then some (t, d) else some (u, e)) none

/-- Ends a command whose last drain has ended: 16 cycles later it posts (R97). -/
def State.endTe (s : State) (eg : Nat) (t : TeCmd) (stop : Nat) : State :=
  let s1 := s.leaveTe eg t
  let s2 := if t.spills = 0 then s1 else s1.loseSpill eg t.mat.spill 2
  s2.finish t.cmd { Result.mk0 St.ok (stop + 16 - t.cmd.issued) with
    flags := if t.spills = 0 then [] else [1], detail0 := t.spills }

/-- Whether the drain before still waits for its write slots in T1 (R86). -/
def State.drainPending (s : State) (eg : Nat) : Bool := (s.teOf eg).flight.any (fun t => s.hasWrites t.cmd.uid)

/-- Drains a finished tile to C or the output map (R86, R95, R193); an output map that meets its input map holds free bytes (R196). -/
def State.matDrain (s : State) (eg : Nat) (t : TeCmd) (d : Drain) : State :=
  let o := t.mat
  let start := max (max d.ready (s.teOf eg).drainAt) (s.wheel eg).start
  let stop := start + 256
  if !s.jobRuns t.cmd.part t.cmd.job || !s.fits eg t.cmd.job start 256 || s.drainPending eg then s
  else match (s.arrivedBad t.cmd.uid).or (s.badIn (slotBase eg d.slot) 0x40000) with
    | some a => s.failTe eg t a
    | none =>
      let k := s.drainCodes eg t d
      let x : FrcRun := ⟨⟨s, none⟩, t.carry, 0⟩
      let r : FrcRun :=
        if o.conv then
          let m := (Conv.of t.cmd.bytes).outm
          let undef := rangesMeet (Conv.of t.cmd.bytes).inm.planes m.planes
          if m.comp = 0 then { x with out := putConvRaw t.cmd undef m d.nt (256 * d.mt) k.1 x.out }
          else putConvFrc t.cmd undef m d.nt (256 * d.mt) k.1 x
        else
          let size := ((Fmt.ofCode o.cvt.fmt).getD .fp32).bytes
          let ld := num t.cmd.bytes 24 4
          { x with out := putMatRows t.cmd (num t.cmd.bytes 16 8 + 256 * d.mt * ld + 256 * d.nt * size) ld size 0 k.1 x.out }
      match r.out.fail with
      | some f => r.out.s.failTe eg t f.2
      | none =>
        let s1 := (((r.out.s.until stop).addCvt eg k.2).count F.wagStat_NONFINITE_COUNT eg r.nonfin)
        let t1 := { t with drains := t.drains.drop 1, carry := r.carry,
                           freed := t.freed.filter (fun f => f.1 != d.slot) ++ [(d.slot, stop)] }
        let s2 := s1.setFlight eg t1
        let s3 := s2.setTe eg { s2.teOf eg with drainAt := stop }
        if t1.drains.isEmpty && t1.nextTile.isNone then s3.endTe eg t1 stop else s3

/-- TILE_DRAIN (R86): the next finished tile drains; the last drain of a command posts its completion 16 cycles later. -/
def execTileDrain (eg : Nat) (s : State) : Host.Outcome State Fault Refusal :=
  inRange (eg < 128) (fun _ => .next (match (s.teOf eg).nextDrain with
    | none => s
    | some (t, d) => s.matDrain eg t d))

end Sys2Proof.Machine
end

