-- ==== Sys2Proof/Machine/Sfu.lean ====
section
/-!
DEFINITION. The special-function unit (chapter 05): segment tables and their evaluation, functions, EVAL, GATE, RMSNORM, SOFTMAX,
SMRECOMP, and segment-table loads with their flips.
-/

set_option Elab.async false

namespace Sys2Proof.Machine

open Sys2Proof

/-! ## Segment tables (R132 to R135) -/

/-- An FP32 field of a table. -/
def tabF (tab : List Byte) (off : Nat) : FVal := f32 (num tab off 4)

/-- LOG2SUB. -/
def tabLog (tab : List Byte) : Nat := num tab 25 1 % 8
/-- SIGNED. -/
def tabSigned (tab : List Byte) : Bool := bit (num tab 25 1) 3
/-- E0. -/
def tabE0 (tab : List Byte) : Int := signed 8 (num tab 24 1)
/-- NB: binades, for each sign when signed (R133). -/
def tabNB (tab : List Byte) : Nat := (if tabSigned tab then 32 else 64) / 2 ^ tabLog tab
/-- MONO of entry k. -/
def tabMono (tab : List Byte) (k : Nat) : Nat := num tab (44 + 16 * k) 1 % 4

/-- Whether a table may be loaded (R133, R151): valid geometry, no MONO or RMONO of 3, reserved bits 0. -/
def tabOk (tab : List Byte) : Bool :=
  let rm := num tab 26 1
  decide (tabLog tab ≤ (if tabSigned tab then 5 else 6)) && decide (-126 ≤ tabE0 tab) && decide (tabE0 tab + tabNB tab ≤ 127) &&
    num tab 25 1 < 16 && rm < 64 && rm % 4 != 3 && rm / 4 % 4 != 3 && rm / 16 != 3 && num tab 27 5 == 0 &&
    (List.range 64).all (fun k => num tab (44 + 16 * k) 1 < 3 && num tab (45 + 16 * k) 3 == 0)

/-- C0, C1 and C2 of entry k. -/
def tabC (tab : List Byte) (k j : Nat) : FVal := tabF tab (32 + 16 * k + 4 * j)

/-- Entry k at t: fma(fma(C2, t, C1), t, C0) (R134). -/
def tabSeg (tab : List Byte) (k : Nat) (t : FVal) : FVal := fma32 (fma32 (tabC tab k 2) t (tabC tab k 1)) t (tabC tab k 0)

/-- The end value of entry k (R135). -/
def tabEnd (tab : List Byte) (k : Nat) : FVal := tabSeg tab k FVal.one

/-- 2^E0. -/
def tabLow (tab : List Byte) : FVal := .fin false 1 (tabE0 tab)
/-- 2^(E0 + NB). -/
def tabHigh (tab : List Byte) : FVal := .fin false 1 (tabE0 tab + tabNB tab)

/-- The seam clamp of R134 with a bound, when there is one. -/
def seamClamp (mono : Nat) (b : Option FVal) (p : FVal) : FVal :=
  match b with
  | none => p
  | some v => if mono = 1 then maxNan p v else if mono = 2 then minNan p v else p

/-- A large-region rule: an infinite u with a zero slope gives the constant (R134). -/
def largeRule (c1 u c0 : FVal) : FVal := if !u.isFin && c1.isZero then c0 else fma32 c1 u c0

/-- Evaluates a table at u: the result, and whether u lay below zero of an unsigned table (R134, R135). -/
def tabEval (tab : List Byte) (u : FVal) : FVal × Bool :=
  let sg := tabSigned tab
  let neg := u.lt FVal.zero
  let lastPos := if sg then 31 else 63
  let rm := num tab 26 1
  if u.isNan then (.nan, false)
  else if !sg && neg then (.nan, true)
  else
    let a := u.abs
    if a.lt (tabLow tab) then
      (seamClamp (rm % 4) (if sg then some (tabC tab 32 0) else none) (fma32 (tabF tab 4) u (tabF tab 0)), false)
    else if !a.lt (tabHigh tab) then
      if neg then (largeRule (tabF tab 20) u (tabF tab 16), false)
      else (seamClamp (rm / 4 % 4) (some (tabEnd tab lastPos)) (largeRule (tabF tab 12) u (tabF tab 8)), false)
    else
      let code := fp32.encode a
      let man := code % 2 ^ 23
      let w := 23 - tabLog tab
      let j : Int := (code / 2 ^ 23 : Nat) - 127 - tabE0 tab
      let k0 := j.toNat * 2 ^ tabLog tab + man / 2 ^ w
      let t : FVal := .fin false (man % 2 ^ w) (-(w : Int))
      let k := if neg then k0 + 32 else k0
      let b :=
        if neg then (if k = 63 then fma32 (tabF tab 20) (tabHigh tab).neg (tabF tab 16) else tabC tab (k + 1) 0)
        else if k = 0 then fma32 (tabF tab 4) (tabLow tab) (tabF tab 0)
        else tabEnd tab (k - 1)
      (seamClamp (tabMono tab k) (some b) (tabSeg tab k t), false)

/-! ## Functions (R136, R141) -/

/-- FP32 nearest log2(e). -/
def log2e32 : FVal := f32 0x3FB8AA3B
/-- FP32 nearest ln 2. -/
def ln232 : FVal := f32 0x3F317218

/-- A finite nonzero value as 2^e x m with 1 ≤ m < 2 (R136). -/
def splitExp : FVal → Int × FVal
  | .fin _ m e => (FVal.exponent m e, .fin false m (-(Nat.log2 m : Int)))
  | _ => (0, FVal.one)

/-- EXP2 (R136, R141). -/
def sfuExp2 (tab : Nat → List Byte) (x : FVal) : FVal :=
  match x with
  | .nan => .nan
  | .inf s => if s then FVal.zero else .inf false
  | x =>
    if x.isZero then FVal.one
    else if (FVal.ofNat 128).le x then .inf false
    else if x.le (FVal.ofInt (-150)) then FVal.zero
    else
      let n := x.floor
      let u := fl32 (x.sub (FVal.ofInt n))
      let n1 := if u.eq FVal.one then n + 1 else n
      let u1 := if u.eq FVal.one then FVal.zero else u
      fl32 ((tabEval (tab 0) u1).1.scale n1)

/-- EXP: EXP2 of round(x x log2 e) (R136, R141). -/
def sfuExp (tab : Nat → List Byte) (x : FVal) : FVal := if x.isFin then sfuExp2 tab (mul32 x log2e32) else sfuExp2 tab x

/-- LOG2 and whether the input is outside its domain (R136, R141). -/
def sfuLog2 (tab : Nat → List Byte) (x : FVal) : FVal × Bool :=
  match x with
  | .nan => (.nan, false)
  | .inf s => if s then (.nan, true) else (.inf false, false)
  | x =>
    if x.isZero then (.inf true, false)
    else if x.sign then (.nan, true)
    else
      let em := splitExp x
      let p := (tabEval (tab 1) (em.2.sub FVal.one)).1
      (add32 (FVal.ofInt em.1) p, false)

/-- RSQRT and whether the input is outside its domain (R136, R141). -/
def sfuRsqrt (tab : Nat → List Byte) (x : FVal) : FVal × Bool :=
  match x with
  | .nan => (.nan, false)
  | .inf s => if s then (.nan, true) else (FVal.zero, false)
  | x =>
    if x.isZero then (.inf x.sign, false)
    else if x.sign then (.nan, true)
    else
      let em := splitExp x
      let odd := em.1 % 2 ≠ 0
      let m1 := if odd then em.2.scale 1 else em.2
      let e1 := if odd then em.1 - 1 else em.1
      let r := tabEval (tab 2) m1
      (fl32 (r.1.scale (-(e1 / 2))), r.2)

/-- RECIP (R136, R141). -/
def sfuRecip (tab : Nat → List Byte) (x : FVal) : FVal × Bool :=
  match x with
  | .nan => (.nan, false)
  | .inf s => (.fin s 0 0, false)
  | x =>
    if x.isZero then (.inf x.sign, false)
    else
      let em := splitExp x
      let r := tabEval (tab 3) em.2
      let p := fl32 (r.1.scale (-em.1))
      (if x.sign then p.neg else p, r.2)

/-- SIGMOID (R136, R141). -/
def sfuSigmoid (tab : Nat → List Byte) (x : FVal) : FVal × Bool :=
  match x with
  | .nan => (.nan, false)
  | .inf s => (if s then FVal.zero else FVal.one, false)
  | x =>
    if x.isZero then (.fin false 1 (-1), false)
    else if x.le (FVal.ofInt (-8)) then (sfuExp tab x, false)
    else tabEval (tab 5) x

/-- A function of the function table: its result before flush and conversion, and whether DOMAIN_COUNT counts the input (R136,
R141). -/
def sfuFunc (tab : Nat → List Byte) (fn : Nat) (x : FVal) : FVal × Bool :=
  match fn with
  | 0x00 => (sfuExp2 tab x, false)
  | 0x01 => (sfuExp tab x, false)
  | 0x02 => sfuLog2 tab x
  | 0x03 =>
    let r := sfuLog2 tab x
    (if x.isFin && !x.isZero && !r.2 then mul32 r.1 ln232 else r.1, r.2)
  | 0x04 => sfuRsqrt tab x
  | 0x05 =>
    if x.isZero then (x, false)
    else match x with
      | .inf false => (.inf false, false)
      | x => let r := sfuRsqrt tab x; (mul32 x r.1, r.2)
  | 0x06 => sfuRecip tab x
  | 0x07 =>
    if x.isNan then (.nan, false)
    else if x.isZero then (x, false)
    else match x with
      | .inf s => (if s then FVal.one.neg else FVal.one, false)
      | x => let r := tabEval (tab 4) x.abs; (if x.sign then r.1.neg else r.1, r.2)
  | 0x08 => sfuSigmoid tab x
  | 0x09 =>
    if x.isZero then (x, false)
    else match x with
      | .inf s => (if s then .fin true 0 0 else .inf false, false)
      | x => let r := sfuSigmoid tab x; (mul32 x r.1, r.2)
  | 0x0A =>
    if x.isZero then (x, false)
    else match x with
      | .inf s => (if s then .fin true 0 0 else .inf false, false)
      | x => let r := tabEval (tab 6) x; (mul32 x r.1, r.2)
  | 0x0B => (if x.isNan then .nan else if FVal.zero.lt x then x else FVal.zero, false)
  | 0x0C => (x, false)
  | n => if x.isNan then (.nan, false) else tabEval (tab (n - 9)) x

/-- Whether FUNC names a function (R136). -/
def funcOk (fn : Nat) : Bool := fn ≤ 0x0C || (0x10 ≤ fn && fn ≤ 0x18)

/-- Whether FUNC names a user table (R136). -/
def funcUser (fn : Nat) : Bool := 0x10 ≤ fn && fn ≤ 0x18

/-! ## The command (R129) -/

/-- An SFU command. -/
structure Sfuop where
  src   : Nat
  src2  : Nat
  dst   : Nat
  sld   : Nat
  dld   : Nat
  op    : Nat
  fn    : Nat
  ifmt  : Nat
  flags : Nat
  fthr  : Nat
  slot  : Nat
  alpha : FVal
  beta  : FVal
  cvt   : Cvt
  aux   : Nat
  gamma : FVal
  deriving DecidableEq, Repr

/-- Reads an SFU command. -/
def Sfuop.of (b : List Byte) : Sfuop :=
  { src := num b 8 8, src2 := num b 16 8, dst := num b 24 8, sld := num b 40 4, dld := num b 44 4, op := num b 48 1,
    fn := num b 49 1, ifmt := num b 50 1, flags := num b 51 1, fthr := num b 52 1, slot := num b 53 1,
    alpha := f32 (num b 56 4), beta := f32 (num b 60 4), cvt := Cvt.ofBytes (sub b 64 16), aux := num b 80 8,
    gamma := f32 (num b 88 4) }

/-- INIT. -/
def Sfuop.init (q : Sfuop) : Bool := bit q.flags 0
/-- FINAL. -/
def Sfuop.final (q : Sfuop) : Bool := bit q.flags 1
/-- AXIS. -/
def Sfuop.axis (q : Sfuop) : Bool := bit q.flags 2 && q.op == 2

/-- The input format. -/
def Sfuop.inf (q : Sfuop) : Fmt := (byteFmt q.ifmt).getD .fp32
/-- The output format. -/
def Sfuop.outf (q : Sfuop) : Fmt := (Fmt.ofCode q.cvt.fmt).getD .fp32

/-- The map that AXIS = 1 reads or writes: one frame of `rows` pixels (R143, R185). -/
def Sfuop.map (q : Sfuop) (out : Bool) (rows len : Nat) : MapDesc :=
  let kb := if bit q.flags 3 then 32 else 16
  { base := if out then q.dst else q.src, cbs := if out then q.dld else q.sld, fs := 0, d := 1, h := 1, w := rows, c := len,
    kb := kb, fmt := if out then q.outf else q.inf, scl := if out then q.cvt.scl else byteScl q.ifmt, comp := 0 }

/-- First byte and length of the input. -/
def Sfuop.srcRange (q : Sfuop) (rows len : Nat) : Nat × Nat :=
  if q.axis then (q.map false rows len).range else Machine.srcRange q.ifmt q.src q.sld rows len

/-- First byte and length of the output. -/
def Sfuop.dstRange (q : Sfuop) (rows len : Nat) : Nat × Nat :=
  if q.axis then (q.map true rows len).range
  else if q.outf.narrow then (q.dst, tensorBytes q.outf q.cvt.blk rows len)
  else (q.dst, span rows q.dld (len * q.outf.bytes))

/-- The format of RMSNORM's gain vector: IN_FMT where that is wide, FP32 otherwise (R144; log entry 45). -/
def Sfuop.gainf (q : Sfuop) : Fmt := if q.inf.narrow then .fp32 else q.inf

/-- First byte and length of the second input: the gate or the gain vector (R129, R144). -/
def Sfuop.src2Range (q : Sfuop) (rows len : Nat) : Nat × Nat :=
  if q.op = 1 then Machine.srcRange q.ifmt q.src2 q.sld rows len
  else if q.op = 2 ∧ q.src2 ≠ 0 then (q.src2, len * q.gainf.bytes)
  else (0, 0)

/-- Map store, T1 or an accumulator slot: the tiers of SRC and SRC2 (R129). -/
def inSfuSrc (a n : Nat) : Bool :=
  match rangeRegion a n with
  | some .t1 | some .ms | some (.acc _) => true
  | _ => false

/-- Malformed cases that the fields alone decide (R130, R143, R152). -/
def Sfuop.fieldsBad (q : Sfuop) (b : List Byte) (loaded : Nat) : Bool :=
  q.op > 5 || !funcOk q.fn || (q.op ≤ 1 && funcUser q.fn && !bit loaded (q.fn - 9)) || q.flags / 16 != 0 ||
  num b 54 2 != 0 || num b 92 4 != 0 || q.slot > 15 || !srcFmtOk q.ifmt ||
  (q.op == 1 && (!(q.fn == 9 || q.fn == 10 || q.fn == 11 || q.fn == 12 || funcUser q.fn) || q.src2 == 0)) ||
  q.cvt.malformed || q.cvt.tsm == 1 || q.fthr == 255

/-- A table of an engine group's SFU (R132). -/
def State.sfuTable (s : State) (eg slot copy : Nat) : List Byte := Sparse.rd (fun _ => []) (eg * 32 + slot * 2 + copy) s.sfuTab

/-- Replaces a table of an engine group's SFU. -/
def State.setSfuTable (s : State) (eg slot copy : Nat) (t : List Byte) : State :=
  { s with sfuTab := Sparse.wr (fun _ => []) (eg * 32 + slot * 2 + copy) t s.sfuTab }

/-- The active copy of a slot. -/
def State.sfuActive (s : State) (eg slot : Nat) : Nat := bits (s.fld F.sfuTblstat_ACTIVE eg) slot 1

/-- PENDING of a slot. -/
def State.sfuPending (s : State) (eg slot : Nat) : Bool := bit (s.fld F.sfuTblstat_PENDING eg) slot

/-- Whether an ATTN that captured tables waits or is in flight on an engine group (R174). -/
def State.attnOpen (s : State) (eg : Nat) : Bool :=
  ((s.teNow eg).waiting ++ (s.teNow eg).flight).any (fun t => hdrOpcode t.cmd.bytes == 0x22)

/-- Whether a command that looks tables up waits at issue, as a flip that falls due before it waits for an ATTN (R151, R174). -/
def State.flipWaits (s : State) (eg : Nat) : Bool := s.attnOpen eg && s.fld F.sfuTblstat_PENDING eg != 0

/-- The flip of one pending slot (R150, R151). -/
def State.sfuFlipSlot (s : State) (eg slot : Nat) : State :=
  if !s.sfuPending eg slot then s
  else
    let act := 1 - s.sfuActive eg slot
    let old := s.fld F.sfuTblstat_ACTIVE eg
    let s1 := s.setFld F.sfuTblstat_ACTIVE eg (old - bits old slot 1 * 2 ^ slot + act * 2 ^ slot)
    let s2 := s1.setFld F.sfuTblstat_PENDING eg (s1.fld F.sfuTblstat_PENDING eg - 2 ^ slot)
    s2.setFld F.sfuTblloaded_LOADED eg (s2.fld F.sfuTblloaded_LOADED eg ||| 2 ^ slot)

/-- The flip of every pending slot at an SFU command boundary; it waits while an ATTN is open (R150, R174). -/
def State.sfuFlip (s : State) (eg : Nat) : State :=
  if s.attnOpen eg then s else (List.range 16).foldl (fun t k => t.sfuFlipSlot eg k) s

/-- The active tables of an engine group by slot: what a command captures at issue (R149). -/
def State.sfuTabs (s : State) (eg : Nat) : Nat → List Byte := fun slot => s.sfuTable eg slot (s.sfuActive eg slot)

/-- The checks of the SFU commands but TBLLOAD (R129, R130, R143, R152). -/
def State.sfuCheck (s0 : State) (c : Cmd) : Verdict :=
  let s := s0.sfuFlip c.eg
  let q := Sfuop.of c.bytes
  let x := s.bound c.part (num c.bytes 32 4)
  let y := s.bound c.part (num c.bytes 36 4)
  let rows := x.get
  let len := y.get
  let sr := q.srcRange rows len
  let dr := q.dstRange rows len
  let s2 := q.src2Range rows len
  let ar := (q.aux, if q.op = 3 ∨ q.op = 4 then 16 * rows else 0)
  let known := x.known && y.known && rows ≠ 0 && len ≠ 0
  let unit := (if bit q.flags 3 then 32 else 16)
  .first
    [ .badIf (q.fieldsBad c.bytes (s.fld F.sfuTblloaded_LOADED c.eg) || s.cvtBad c.part q.cvt), x.verdict, y.verdict,
      .badIf (q.op = 2 && y.known && 16384 < len),
      .badIf (q.axis && ((!q.inf.narrow && q.sld % (unit * q.inf.bytes) != 0) ||
        (!q.outf.narrow && q.dld % (unit * q.outf.bytes) != 0))),
      .badIf (q.axis && ((q.inf.narrow && byteBlk q.ifmt == bit q.flags 3) || (q.outf.narrow && q.cvt.blk == bit q.flags 3))),
      .badIf (!inSfuSrc q.src 1 || !inMsT1 q.dst 1),
      .badIf ((q.inf.narrow && (q.src % 2048 != 0 || (q.op == 1 && q.src2 % 2048 != 0))) || (q.outf.narrow && q.dst % 2048 != 0)),
      if !known then .go else .first
        [ .badIf (!inSfuSrc sr.1 sr.2 || !inMsT1 dr.1 dr.2), .badIf (s2.2 ≠ 0 && !inSfuSrc s2.1 s2.2),
          .badIf (ar.2 ≠ 0 && !inT0T1 ar.1 ar.2), .quotaIf (s.readRefused false c.part sr.1 sr.2),
          .quotaIf (if s2.2 = 0 then none else s.readRefused false c.part s2.1 s2.2),
          .quotaIf (s.writeRefused c.part dr.1 dr.2), .quotaIf (if ar.2 = 0 then none else s.writeRefused c.part ar.1 ar.2) ],
      s.cvtVerdict c.part q.cvt,
      .okIf (x = .val 0 || y = .val 0) ]

/-! ## Rows -/

/-- What an SFU command has done so far. -/
structure SfuRun where
  out    : Out
  blocks : List QBlock
  bursts : Nat
  counts : Counts
  flush  : Nat
  domain : Nat
  deriving DecidableEq, Repr

/-- GAMMA and the flush of R142: the value and whether it was flushed. -/
def Sfuop.flushed (q : Sfuop) (p : FVal) : FVal × Bool :=
  let y := mul32 p q.gamma
  let thr : FVal := .fin false 1 ((q.fthr : Int) - 127)
  if q.fthr ≠ 0 && y.isFin && !y.isZero && y.abs.lt thr then (.fin y.sign 0 0, true) else (y, false)

/-- A row's results: values to convert, flushes, inputs out of domain, and a statistics record to write. -/
structure RowOut where
  ys     : List FVal
  flush  : Nat
  domain : Nat
  stat   : Option (List Byte)
  deriving DecidableEq, Repr

/-- EVAL and GATE of a row (R142). -/
def Sfuop.evalRow (q : Sfuop) (tab : Nat → List Byte) (xs gs : List FVal) : RowOut :=
  let rs := (xs.zip (List.range xs.length)).map (fun xi =>
    let f := sfuFunc tab q.fn (fma32 xi.1 q.alpha q.beta)
    let p := if q.op = 1 then mul32 f.1 (gs.getD xi.2 FVal.zero) else f.1
    (q.flushed p, f.2))
  ⟨rs.map (fun r => r.1.1), (rs.filter (fun r => r.1.2)).length, (rs.filter (fun r => r.2)).length, none⟩

/-- Adds a value to its lane, lanes taken modulo 256 (R144). -/
def laneFold (step : FVal → FVal → FVal) : Nat → List FVal → List FVal → List FVal
  | _, [], acc => acc
  | i, x :: xs, acc => laneFold step (i + 1) xs (acc.set (i % 256) (step (acc.getD (i % 256) FVal.zero) x))

/-- One level of the pairwise sum (R144). -/
def pairUp : List FVal → List FVal
  | a :: b :: r => add32 a b :: pairUp r
  | l => l

/-- The pairwise sum of 256 lanes, 8 levels (R144). -/
def pairSum (l : List FVal) : FVal := ((List.range 8).foldl (fun l _ => pairUp l) l).headD FVal.zero

/-- 256 lanes of +0. -/
def lanes0 : List FVal := List.replicate 256 FVal.zero

/-- RMSNORM of a row (R144). -/
def Sfuop.normRow (q : Sfuop) (tab : Nat → List Byte) (xs : List FVal) (gain : Option (List FVal)) : RowOut :=
  let s := pairSum (laneFold (fun a x => fma32 x x a) 0 xs lanes0)
  let ms := div32 s (FVal.ofNat xs.length)
  let r := sfuRsqrt tab (add32 ms q.beta)
  let ys := (xs.zip (List.range xs.length)).map (fun xi =>
    let y := mul32 xi.1 r.1
    q.flushed (match gain with | some g => mul32 y (g.getD xi.2 FVal.zero) | none => y))
  ⟨ys.map (fun y => y.1), (ys.filter (fun y => y.2)).length, b2n r.2, none⟩

/-- What SOFTMAX leaves for a row: probabilities, M, SUM, CORR and LSE, and whether LOG2 met a negative SUM (R141, R145). -/
structure SoftRow where
  ps     : List FVal
  m      : FVal
  sum    : FVal
  corr   : FVal
  lse    : Nat
  domain : Bool
  deriving DecidableEq, Repr

/-- One block of SOFTMAX for a row (R146). `lse` is kept unless FINAL. CORR is 1 at INIT, as the record's table says (R145; DEDUCED,
log entry 45: the pseudocode of R146 alone would give EXP2(-inf) = +0 there). -/
def softmaxRow (tab : Nat → List Byte) (alpha : FVal) (init : Bool) (m sum : FVal) (lse : Nat) (final : Bool) (ss : List FVal) :
    SoftRow :=
  let zs := ss.map (fun x => mul32 x alpha)
  let mb := match zs with | [] => .inf true | z :: r => r.foldl maxNan z
  let mn := maxNan m mb
  let r : List FVal × FVal × FVal :=
    if mn == .inf true then (zs.map (fun _ => FVal.zero), sum, FVal.one)
    else
      let corr := sfuExp2 tab (sub32 m mn)
      let ps := zs.map (fun z => sfuExp2 tab (sub32 z mn))
      (ps, fma32 sum corr (pairSum (laneFold add32 0 ps lanes0)), corr)
  let lg := if r.2.1.isZero then (FVal.inf true, false) else sfuLog2 tab r.2.1
  { ps := r.1, m := mn, sum := r.2.1, corr := if init then FVal.one else r.2.2,
    lse := if final then fp32.encode (if r.2.1.isZero then .inf true else add32 mn lg.1) else lse,
    domain := final && lg.2 }

/-- The bytes of a row-statistics record (R145). -/
def statRecord (m sum corr : FVal) (lse : Nat) : List Byte :=
  leBytes 4 (fp32.encode m) ++ leBytes 4 (fp32.encode sum) ++ leBytes 4 (fp32.encode corr) ++ leBytes 4 lse

/-- SOFTMAX of a row whose record holds `rcd` (R146). -/
def Sfuop.softRow (q : Sfuop) (tab : Nat → List Byte) (rcd : List Byte) (xs : List FVal) : RowOut :=
  let m := if q.init then .inf true else f32 (num rcd 0 4)
  let sum := if q.init then FVal.zero else f32 (num rcd 4 4)
  let r := softmaxRow tab q.alpha q.init m sum (num rcd 12 4) q.final xs
  ⟨r.ps, 0, b2n r.domain, some ((statRecord r.m r.sum r.corr r.lse).take (if q.final then 16 else 12))⟩

/-- SMRECOMP of a row (R147). -/
def Sfuop.recompRow (q : Sfuop) (tab : Nat → List Byte) (rcd : List Byte) (xs : List FVal) : RowOut :=
  let lse := f32 (num rcd 12 4)
  ⟨xs.map (fun x => if lse == .inf true then FVal.zero else sfuExp2 tab (sub32 (mul32 x q.alpha) lse)), 0, 0, none⟩

/-- Writes whole bursts of a narrow output, all of them at the end (R130). -/
def SfuRun.flushBursts (r : SfuRun) (c : Cmd) (q : Sfuop) (last : Bool) : SfuRun :=
  let nb := burstN q.outf q.cvt.blk
  let n := if last then ceilDiv r.blocks.length nb else r.blocks.length / nb
  let bs := packBursts q.outf q.cvt.blk q.cvt.scl q.cvt.trailerIdx n (r.blocks.take (n * nb))
  { r with out := r.out.put c false (q.dst + 2048 * r.bursts) bs.flatten, blocks := r.blocks.drop (n * nb), bursts := r.bursts + n }

/-- Writes one row of results (R130, R142). The logical index of an element is its position in rows x COLS, that of a narrow map as R185
declares its shape (R58; log entry 45). -/
def SfuRun.putRow (r : SfuRun) (c : Cmd) (q : Sfuop) (tout : FVal) (rows len row : Nat) (y : RowOut) : SfuRun :=
  let r0 := { r with flush := r.flush + y.flush, domain := r.domain + y.domain }
  let r1 :=
    if q.axis then
      let m := q.map true rows len
      (List.range m.ncb).foldl (fun (r : SfuRun) cb =>
        if m.fmt.narrow then
          let qb := quantBlock m.fmt { q.cvt with blk := m.b16 } tout (m.blockNo (0, cb, 0, row) * m.kb)
            ((y.ys.drop (cb * m.kb)).take m.kb)
          { r with blocks := r.blocks ++ [qb.block], counts := r.counts.add qb.counts }
        else
          let w := wideBlock m q.cvt (len - cb * m.kb) (fun j => row * len + cb * m.kb + j) ((y.ys.drop (cb * m.kb)).take m.kb)
          { r with out := r.out.put c false (m.elemAddr 0 (cb * m.kb) 0 row) (w.1.flatMap (fun v => leBytes m.fmt.bytes v)),
                   counts := r.counts.add w.2 }) r0
    else if q.outf.narrow then
      let qs := quantRow q.outf q.cvt tout (rowBlocks q.cvt.blk len) (row * len) y.ys
      { r0 with blocks := r0.blocks ++ qs.map (fun (x : QResult) => x.block),
                counts := r0.counts.add (qCounts [qs]) }.flushBursts c q (row + 1 == rows)
    else
      let w := wideBytes q.outf q.cvt (row * len) y.ys
      { r0 with out := r0.out.put c false (q.dst + row * q.dld) w.1, counts := r0.counts.add w.2 }
  match y.stat with
  | some b => { r1 with out := r1.out.put c false (q.aux + 16 * row) b }
  | none => r1

/-- The blocks of a narrow AXIS = 1 output, gathered row by row, in map order: channel block, then pixel (R185). -/
def axisOrder (ncb rows : Nat) (bl : List QBlock) : List QBlock :=
  (List.range ncb).flatMap (fun cb => (List.range rows).filterMap (fun r => bl[r * ncb + cb]?))

/-- The channel blocks of row `r` of a map that AXIS = 1 reads. -/
def MapDesc.rowBlocks (m : MapDesc) (r : Nat) : List MapPos := (List.range m.ncb).map (fun cb => (0, cb, 0, r))

/-- Rows of the input of an SFU command (R130, R143). -/
def State.sfuRows (s : State) (p : Nat) (q : Sfuop) (rows len : Nat) : Rows :=
  if q.axis then
    let m := q.map false rows len
    let ts := s.mapTsidx m (some (0, 0, 0, 0))
    let bad := s.mapBad p m ts ((List.range rows).flatMap m.rowBlocks)
    let rs := (List.range rows).map (fun r => s.pixelValues p m ts 0 0 r)
    match s.mapStop p ts, (rs.zip (List.range rows)).findSome? (fun x => x.1.2.map (fun a => (x.2, a))) with
    | some f, _ => ⟨[], 0, some f⟩
    | none, some (n, a) => ⟨(rs.take n).map (fun x => x.1), bad, some (St.ecc, a)⟩
    | none, none => ⟨rs.map (fun x => x.1), bad, none⟩
  else s.readRows p q.ifmt q.src q.sld rows len

/-- The tensor-scale entry that the first burst of a narrow input names, as row 0 reads it after that burst (R70, R185). -/
def State.afterFirst (s : State) (p base r : Nat) (rs : List (Nat × Nat)) : List (Nat × Nat) :=
  if r = 0 then rs.take 1 ++ s.tsRange p (s.firstTsidx base) ++ rs.drop 1 else rs

/-- What row `r` reads of the tensor at `base`, which is the input or the gate. -/
def State.sfuReads (s : State) (p : Nat) (q : Sfuop) (base rows len r : Nat) : List (Nat × Nat) :=
  if q.axis then
    let m := q.map false rows len
    let rs := m.ranges (m.rowBlocks r)
    if m.fmt.narrow then s.afterFirst p base r rs else rs
  else if q.inf.narrow then s.afterFirst p base r (rowBursts q.inf (byteBlk q.ifmt) base len r)
  else [(base + r * q.sld, len * q.inf.bytes)]

/-- What row `r` of a command reads: its input and its gate. -/
def State.rowInputs (s : State) (p : Nat) (q : Sfuop) (rows len r : Nat) : List (Nat × Nat) :=
  s.sfuReads p q q.src rows len r ++ (if q.op = 1 then s.sfuReads p q q.src2 rows len r else [])

/-- Whether a row reads its statistics record (R145 to R147). -/
def Sfuop.readsStat (q : Sfuop) : Bool := (q.op == 3 && !q.init) || q.op == 4

/-- Processes rows from number `row` on; `reads` gives what a row reads, the record of R145 apart. -/
def sfuRowsGo (c : Cmd) (q : Sfuop) (tab : Nat → List Byte) (tout : FVal) (gain : Option (List FVal)) (rows len : Nat)
    (reads : Nat → List (Nat × Nat)) : Nat → List (List FVal) → List (List FVal) → SfuRun → SfuRun
  | _, [], _, r => r
  | row, x :: xs, gs, r0 =>
    if r0.out.fail.isSome then r0
    else
      let a := q.aux + 16 * row
      let stat := if q.readsStat then [(a, 16)] else []
      let r := { r0 with out := { r0.out with s := r0.out.s.noteReads c (reads row ++ stat) } }
      match if q.readsStat then r.out.s.badIn a 16 else none with
      | some e => { r with out := r.out.stop (some (St.ecc, e)) }
      | none =>
        let rcd := if q.op = 3 || q.op = 4 then r.out.s.read a 16 else []
        let y := if q.op = 2 then q.normRow tab x gain
          else if q.op = 3 then q.softRow tab rcd x
          else if q.op = 4 then q.recompRow tab rcd x
          else q.evalRow tab x (gs.headD [])
        sfuRowsGo c q tab tout gain rows len reads (row + 1) xs (gs.drop 1) (r.putRow c q tout rows len row y)

/-- Table time (R148). -/
def Sfuop.cycles (q : Sfuop) (rows len : Nat) : Nat :=
  let e := rows * ceilDiv len 256
  if q.op = 2 then 112 + 2 * e
  else if q.op = 3 then 48 + 2 * e + (if q.final then 16 * rows else 0)
  else 56 + e

/-- The input and the gate of a command, each as far as it is read: the rows go on together, and a row's input is read before its gate
(R142, R152). -/
def State.sfuInputs (s : State) (p : Nat) (q : Sfuop) (rows len : Nat) : Rows × Rows :=
  let x := s.sfuRows p q rows len
  if q.op ≠ 1 then (x, ⟨[], 0, none⟩)
  else
    let g := s.readRows p q.ifmt q.src2 q.sld (if x.fail.isSome then x.rows.length else rows) len
    (if g.fail.isSome then s.sfuRows p q (g.rows.length + 1) len else x, g)

/-- EVAL, GATE, RMSNORM, SOFTMAX and SMRECOMP (R142 to R147, R152). Each unit of the inputs is requested once; a row's reads come before
its writes, and RMSNORM's gain vector before the first row. -/
def State.runSfu (s0 : State) (c : Cmd) : State :=
  let s := s0.sfuFlip c.eg
  let q := Sfuop.of c.bytes
  let rows := (s.bound c.part (num c.bytes 32 4)).get
  let len := (s.bound c.part (num c.bytes 36 4)).get
  let hasGain := q.op = 2 ∧ q.src2 ≠ 0
  let s2 := q.src2Range rows len
  let gains := if hasGain then [s2] else []
  let inp := s.sfuInputs c.part q rows len
  let gbad := if hasGain then (s.badIn s2.1 s2.2).map (fun a => (St.ecc, a)) else none
  let gain := if hasGain then some (wideValues q.gainf len (s.read q.src2 s2.2)) else none
  let n := if gbad.isSome then 0 else if q.op = 1 then min inp.1.rows.length inp.2.rows.length else inp.1.rows.length
  let fail := if gbad.isSome then gbad
    else if q.op = 1 && inp.2.rows.length < inp.1.rows.length then inp.2.fail
    else if inp.1.fail.isSome then inp.1.fail else inp.2.fail
  let reads := s.rowInputs c.part q rows len
  let stats := if q.readsStat then [(q.aux, 16 * rows)] else []
  let st := (s.claimUnits c (gains ++ (List.range rows).flatMap reads ++ stats)).noteReads c (readsUpTo gbad gains)
  let bad := if gbad.isSome then 0 else inp.1.bad + inp.2.bad
  let r0 : SfuRun := ⟨⟨st, none⟩, [], 0, ⟨0, 0, 0, bad⟩, 0, 0⟩
  let r1 := sfuRowsGo c q (s.sfuTabs c.eg) (s.cvtScale c.part q.cvt) gain rows len reads 0 (inp.1.rows.take n) inp.2.rows r0
  let r2 := if q.axis && q.outf.narrow && fail.isNone then
      { r1 with blocks := axisOrder (q.map true rows len).ncb rows r1.blocks }.flushBursts c q true
    else r1
  let o : Out := if fail.isSome && gbad.isNone then { r2.out with s := r2.out.s.noteReads c (readsUpTo fail (reads n)) } else r2.out
  let o1 := o.stop fail
  let s3 := ((o1.s.addCvt c.eg r2.counts).count F.sfuStat_FLUSH_COUNT c.eg r2.flush).count F.sfuStat_DOMAIN_COUNT c.eg r2.domain
  (Out.mk s3 o1.fail).finish c (Result.mk0 St.ok (q.cycles rows len))

/-- The issue of an SFU command, which waits while `held` says so. A command that completes at issue is a command boundary of the unit
too, and flips pending tables (R150). -/
def State.sfuRowAs (s : State) (i : Issuer) (held : State → Decoded → Bool) (mine : List Byte → Bool)
    (check : State → Cmd → Verdict) (run : State → Cmd → State) : State :=
  match s.nextOf i with
  | none => s.issueRow i mine check run
  | some d =>
    if mine d.bytes && s.ready i d && held s d then s.noteWait i d
    else
      let t := s.issueRow i mine check run
      if s.doneAtIssue i mine check then t.sfuFlip (s.cmdEg i d.bytes) else t

/-- The issue of a command that looks tables up: it waits for a flip that an ATTN holds back (R151, R174). -/
def State.sfuRow (s : State) (i : Issuer) (mine : List Byte → Bool) (check : State → Cmd → Verdict)
    (run : State → Cmd → State) : State := s.sfuRowAs i (fun t d => t.flipWaits (t.cmdEg i d.bytes)) mine check run

/-- Whether a command is an SFU command with an OP; a reserved OP belongs to EVAL, where it is malformed. -/
def isSfu (op : Nat) (b : List Byte) : Bool :=
  hdrOpcode b == 0x18 && (num b 48 1 == op || (op == 0 && decide (5 < num b 48 1)))

/-- EVAL (R142): a function with fused scale, offset, multiplier and flush. -/
def execEval (i : Issuer) (s : State) : Host.Outcome State Fault Refusal :=
  inRange (issuerOk i) (fun _ => .next (s.sfuRow i (isSfu 0) State.sfuCheck State.runSfu))

/-- GATE (R142): a function multiplied by the gate input. -/
def execGate (i : Issuer) (s : State) : Host.Outcome State Fault Refusal :=
  inRange (issuerOk i) (fun _ => .next (s.sfuRow i (isSfu 1) State.sfuCheck State.runSfu))

/-- RMSNORM (R144): each row normalised by its root mean square. -/
def execRmsnorm (i : Issuer) (s : State) : Host.Outcome State Fault Refusal :=
  inRange (issuerOk i) (fun _ => .next (s.sfuRow i (isSfu 2) State.sfuCheck State.runSfu))

/-- SOFTMAX (R146): running maximum and sum, and unnormalised probabilities. -/
def execSoftmax (i : Issuer) (s : State) : Host.Outcome State Fault Refusal :=
  inRange (issuerOk i) (fun _ => .next (s.sfuRow i (isSfu 3) State.sfuCheck State.runSfu))

/-- SMRECOMP (R147): normalised probabilities from the saved LSE. -/
def execSmrecomp (i : Issuer) (s : State) : Host.Outcome State Fault Refusal :=
  inRange (issuerOk i) (fun _ => .next (s.sfuRow i (isSfu 4) State.sfuCheck State.runSfu))

/-! ## TBLLOAD (R150, R151) -/

/-- Bytes of a segment table (R132). -/
def tabLen : Nat := 1056

/-- The checks of TBLLOAD (R132, R133, R151, R152). -/
def State.tblloadCheck (s : State) (c : Cmd) : Verdict :=
  let q := Sfuop.of c.bytes
  let x := s.bound c.part (num c.bytes 32 4)
  let y := s.bound c.part (num c.bytes 36 4)
  let zero := x = .val 0 || y = .val 0
  .first
    [ .badIf (q.fieldsBad c.bytes 0 || q.src % 64 != 0 || !inT0T1 q.src tabLen), x.verdict, y.verdict, .okIf zero,
      if zero then .go else .first
        [ .quotaIf (s.readRefused false c.part q.src tabLen),
          Verdict.eccIf (s.badIn q.src tabLen),
          .badIf (inT0T1 q.src tabLen && (s.readRefused false c.part q.src tabLen).isNone && (s.badIn q.src tabLen).isNone &&
            !tabOk (s.read q.src tabLen)) ] ]

/-- TBLLOAD: writes the shadow copy of its slot and sets PENDING (R150). A word of the source that turns out uncorrectable as it arrives
takes both back (R151). -/
def State.runTblload (s0 : State) (c : Cmd) : State :=
  let s := s0.sfuFlip c.eg
  let q := Sfuop.of c.bytes
  let copy := 1 - s.sfuActive c.eg q.slot
  let s1 := ((s.touchRead c q.src tabLen).note c.uid (.sfu (c.eg * 32 + q.slot * 2 + copy) (s.sfuTable c.eg q.slot copy))).note c.uid
    (.reg .sfuTblstat c.eg (s.reg .sfuTblstat c.eg))
  let s2 := s1.setSfuTable c.eg q.slot copy (s.read q.src tabLen)
  (s2.setFld F.sfuTblstat_PENDING c.eg (s2.fld F.sfuTblstat_PENDING c.eg ||| 2 ^ q.slot)).finish c (Result.mk0 St.ok 80)

/-- TBLLOAD (R150): validates a segment table into the shadow copy of a slot and sets PENDING. One for a slot that stays pending,
because an ATTN captured the old epoch, waits; other slots are independent (R151, R174). -/
def execTblload (i : Issuer) (s : State) : Host.Outcome State Fault Refusal :=
  inRange (issuerOk i) (fun _ =>
    .next (s.sfuRowAs i (fun t d => t.attnOpen (t.cmdEg i d.bytes) && t.sfuPending (t.cmdEg i d.bytes) (Sfuop.of d.bytes).slot)
      (isSfu 5) State.tblloadCheck State.runTblload))

end Sys2Proof.Machine
end

