-- ==== Sys2Proof/Machine/Attn.lean ====
section
/-!
DEFINITION. Attention and the key-value cache (chapter 06): the pattern generator PATGEN, pages and APPEND in direct and staged
mode, and ATTN, which runs one record entry of one head for each TE_STEP it is given.
-/

set_option Elab.async false

namespace Sys2Proof.Machine

open Sys2Proof

/-! ## PATGEN (R155 to R163) -/

/-- A PATGEN command (R157). -/
structure Patgen where
  glist : Nat
  out   : Nat
  cap   : Nat
  fh    : Nat
  fw    : Nat
  qf0   : Nat
  qfn   : Nat
  kf0   : Nat
  qc0   : Nat
  qpw   : Nat
  kc0   : Nat
  kpw   : Nat
  tb    : Nat
  tf    : Nat
  wr    : Nat
  wc    : Nat
  gcount : Nat
  deriving DecidableEq, Repr

/-- Reads a PATGEN command. -/
def Patgen.of (b : List Byte) : Patgen :=
  { glist := num b 8 8, out := num b 16 8, cap := num b 24 4, fh := num b 28 2, fw := num b 30 2, qf0 := num b 32 2,
    qfn := num b 34 2, kf0 := num b 36 2, qc0 := num b 38 1, qpw := num b 39 1, kc0 := num b 40 1, kpw := num b 41 1,
    tb := num b 42 1, tf := num b 43 1, wr := num b 44 1, wc := num b 45 1, gcount := num b 46 2 }

/-- Patch rows PH (R155). -/
def Patgen.ph (g : Patgen) : Nat := ceilDiv g.fh 8
/-- Patch columns PW (R155). -/
def Patgen.pw (g : Patgen) : Nat := ceilDiv g.fw 8
/-- Query tiles of a patch row (R156). -/
def Patgen.qpt (g : Patgen) : Nat := ceilDiv g.qpw 4
/-- Key tiles of a patch row (R156). -/
def Patgen.kpt (g : Patgen) : Nat := ceilDiv g.kpw 4
/-- Query tiles, NQT (R160). -/
def Patgen.nqt (g : Patgen) : Nat := g.qfn * g.ph * g.qpt
/-- Key frames: KF0 to QF0 + QFN + TF - 1 (R157). -/
def Patgen.kfn (g : Patgen) : Nat := g.qf0 + g.qfn + g.tf - g.kf0

/-- The malformed cases of PATGEN (R163). -/
def Patgen.bad (g : Patgen) (b : List Byte) : Bool :=
  outside g.fh 1 512 || outside g.fw 1 512 || outside g.qfn 1 16384 || decide (g.qf0 < g.kf0) || outside g.qpw 1 64 ||
  decide (g.pw < g.qc0 + g.qpw) || outside g.kpw 1 64 || decide (g.pw < g.kc0 + g.kpw) || decide (63 < g.tb) ||
  decide (63 < g.tf) || decide (63 < g.wr) || decide (63 < g.wc) || decide (4096 < g.gcount) || g.out % 64 != 0 ||
  !allZero (sub b 48 16)

/-- A block: frame, patch row and patch column. -/
abbrev Blk := Nat × Nat × Nat

/-- The global block a position word marks, or none when the word is ignored (R158). -/
def Patgen.globalBlk (g : Patgen) (w : Nat) : Option Blk :=
  let f := bits w 18 14
  let r := bits w 9 9
  let c := bits w 0 9
  if g.fh ≤ r ∨ g.fw ≤ c ∨ f < g.kf0 ∨ g.kf0 + g.kfn ≤ f ∨ c / 8 < g.kc0 ∨ g.kc0 + g.kpw ≤ c / 8 then none
  else some (f, r / 8, c / 8)

/-- Absolute difference. -/
def absDiff (a b : Nat) : Nat := (a - b) + (b - a)

/-- Whether query block q and key block k are a live pair (R159). -/
def Patgen.live (g : Patgen) (globals : List Blk) (q k : Blk) : Bool :=
  if q.1 + g.tf < k.1 then false
  else
    (decide (q.1 ≤ k.1 + g.tb) && decide (absDiff q.2.1 k.2.1 ≤ g.wr) && decide (absDiff q.2.2 k.2.2 ≤ g.wc)) ||
      globals.contains k

/-- Frame, patch row and first column offset of query tile τ. -/
def Patgen.qTile (g : Patgen) (t : Nat) : Nat × Nat × Nat :=
  (g.qf0 + t / g.qpt / g.ph, t / g.qpt % g.ph, t % g.qpt * 4)

/-- Frame, patch row and first column offset of key tile t. -/
def Patgen.kTile (g : Patgen) (t : Nat) : Nat × Nat × Nat :=
  (g.kf0 + t / g.kpt / g.ph, t / g.kpt % g.ph, t % g.kpt * 4)

/-- Query block i of a query tile, none when it is empty (R156). -/
def Patgen.qBlk (g : Patgen) (t i : Nat) : Option Blk :=
  let x := g.qTile t
  if x.2.2 + i < g.qpw then some (x.1, x.2.1, g.qc0 + x.2.2 + i) else none

/-- Key block j of a key tile, none when it is empty. -/
def Patgen.kBlk (g : Patgen) (t j : Nat) : Option Blk :=
  let x := g.kTile t
  if x.2.2 + j < g.kpw then some (x.1, x.2.1, g.kc0 + x.2.2 + j) else none

/-- The sub-mask SM of a query tile and a key tile (R160). -/
def Patgen.sm (g : Patgen) (globals : List Blk) (tq tk : Nat) : Nat :=
  (List.range 16).foldl (fun m x =>
    match g.qBlk tq (x / 4), g.kBlk tk (x % 4) with
    | some q, some k => if g.live globals q k then m + 2 ^ x else m
    | _, _ => m) 0

/-- Key tiles. -/
def Patgen.nkt (g : Patgen) : Nat := g.kfn * g.ph * g.kpt

/-- The entries of a query tile's record: key tile and sub-mask, in ascending t (R160). -/
def Patgen.entries (g : Patgen) (globals : List Blk) (tq : Nat) : List (Nat × Nat) :=
  ((List.range g.nkt).map (fun tk => (tk, g.sm globals tq tk))).filter (fun e => e.2 != 0)

/-- Whether a key tile is a candidate of a query tile: it meets the windows of the tile's blocks, or holds a global block that
the forward limit admits (R162). -/
def Patgen.candidate (g : Patgen) (globals : List Blk) (tq tk : Nat) : Bool :=
  let q := g.qTile tq
  let k := g.kTile tk
  let qlo := g.qc0 + q.2.2
  let qhi := g.qc0 + min (q.2.2 + 3) (g.qpw - 1)
  let klo := g.kc0 + k.2.2
  let khi := g.kc0 + min (k.2.2 + 3) (g.kpw - 1)
  decide (k.1 ≤ q.1 + g.tf) &&
    ((decide (q.1 ≤ k.1 + g.tb) && decide (absDiff q.2.1 k.2.1 ≤ g.wr) && decide (klo ≤ qhi + g.wc) && decide (qlo ≤ khi + g.wc)) ||
     (List.range 4).any (fun j => match g.kBlk tk j with | some b => globals.contains b | none => false))

/-- The record of a query tile (R160). A count of entries that NENT cannot hold leaves NENT free (log entry 21). -/
def patRecord (free tq : Nat) (es : List (Nat × Nat)) : List Byte :=
  leBytes 4 tq ++ leBytes 2 (if es.length < 65536 then es.length else Config.freeNat free tq) ++ leBytes 2 0 ++
    es.flatMap (fun e => leBytes 4 e.1 ++ leBytes 2 e.2 ++ leBytes 2 0)

/-- Offset of the records from OUT_ADDR (R160). -/
def Patgen.recBase (g : Patgen) : Nat := 64 * ceilDiv (4 * g.nqt) 64

/-- The offsets of a list of records, the first at `o`. -/
def recOffsets : Nat → List (List Byte) → List Nat
  | _, [] => []
  | o, r :: rs => o :: recOffsets (o + r.length) rs

/-- The checks of PATGEN at issue (R161, R163, R289). -/
def State.patgenCheck (s : State) (c : Cmd) : Verdict :=
  let g := Patgen.of c.bytes
  let n := 4 * g.gcount
  .first
    [ .badIf (g.bad c.bytes || !inMsT1 g.out (max 1 g.cap) || (g.gcount ≠ 0 && !inT0T1T2 g.glist n)),
      .quotaIf (if g.gcount = 0 then none else s.readRefused false c.part g.glist n),
      .quotaIf (if g.cap = 0 then none else s.writeRefused c.part g.out g.cap) ]

/-- PATGEN (R157 to R163): sorts the global blocks, then writes the index and the records, or nothing if they do not fit. -/
def State.runPatgen (s : State) (c : Cmd) : State :=
  let g := Patgen.of c.bytes
  let n := 4 * g.gcount
  let s1 := if n = 0 then s else s.touchRead c g.glist n
  match if n = 0 then none else s1.badIn g.glist n with
  | some a => (Out.mk s1 (some (St.ecc, a))).finish c (Result.mk0 St.ok (64 + 12 * g.gcount))
  | none =>
    let marks := (List.range g.gcount).map (fun i => g.globalBlk (s1.word (g.glist + 4 * i)))
    let globals := marks.filterMap (fun m => m)
    let ignored := (marks.filter (fun m => m.isNone)).length
    let tiles := List.range g.nqt
    let recs := tiles.map (fun t => patRecord s1.free t (g.entries globals t))
    let size := g.recBase + (recs.map List.length).sum
    let cyc := 64 + 12 * g.gcount +
      (tiles.map (fun t => 8 + ((List.range g.nkt).filter (g.candidate globals t)).length)).sum
    if g.cap < size then s1.finish c { Result.mk0 St.quota cyc with detail0 := size }
    else
      let index := padTo g.recBase ((recOffsets g.recBase recs).flatMap (leBytes 4))
      ((Out.mk s1 none).put c false g.out (index ++ recs.flatten)).finish c { Result.mk0 St.ok cyc with detail0 := ignored }

/-- PATGEN (R160): writes the index and records of live 64 by 64 blocks. -/
def execPatgen (i : Issuer) (s : State) : Host.Outcome State Fault Refusal :=
  inRange (issuerOk i) (fun _ => .next (s.issueRow i (isOp 0x20) State.patgenCheck State.runPatgen))

/-! ## Pages (R164 to R166) -/

/-- Head dimension of the DH bit. -/
def dhOf (b : Bool) : Nat := if b then 128 else 64

/-- Value format of the VFMT bit (R166). -/
def vfmtOf (b : Bool) : Fmt := if b then .e2m1 else .e4m3

/-- Key bursts of a page (R164). -/
def keyBursts (dh : Nat) : Nat := tensorBursts .e4m3 false 256 dh

/-- Value bursts of a page. -/
def valBursts (dh : Nat) (vf : Fmt) : Nat := tensorBursts vf false dh 256

/-- Page size PS (R164). -/
def pageSize (dh : Nat) (vf : Fmt) : Nat := 2048 * (1 + keyBursts dh + valBursts dh vf)

/-- The header unit of a page (R165). -/
def pageHeader (ktile layer head : Nat) (dh128 e2m1 : Bool) (vmap : Nat) : List Byte :=
  let nv := ((List.range 256).filter (fun i => bit vmap i)).length
  let h := padTo 2045 (leBytes 4 ktile ++ leBytes 2 layer ++ leBytes 1 head ++ leBytes 1 (b2n dh128) ++ leBytes 1 3 ++
    leBytes 1 (formatByte (vfmtOf e2m1) false false) ++ leBytes 2 nv ++ leBytes 4 0 ++ leBytes 32 vmap)
  h ++ leBytes 3 (crc24 h)

/-- The descriptor of page conversions: UE4M3 scales, blocks of 32, TSM = 2, RNE, OVF = 0 (R168, R175). -/
def pageCvt (f : Fmt) : Cvt :=
  { fmt := f.code, blk := false, scl := false, sr := false, ovf := false, tsm := 2, tsidx := 0xFFFFFFFF, seed := 0 }

/-- A page-table entry (R166): page-group address, VFMT and PRESENT. -/
structure PageEntry where
  group   : Nat
  e2m1    : Bool
  present : Bool
  deriving DecidableEq, Repr

/-- Reads a page-table entry. -/
def PageEntry.of (v : Nat) : PageEntry := ⟨v / 2048 * 2048, bit v 1, bit v 0⟩

/-- The address of the entry for key tile `t` of a page table that begins with tile `base`; that of a tile below it lies before the
table (R166, R172, R179). -/
def entryAddr (pt base t : Nat) : Nat := (pt + 2 ^ 64 + 8 * t - 8 * base) % 2 ^ 64

/-- The page-table entry at an address. -/
def State.pageEntry (s : State) (a : Nat) : PageEntry := PageEntry.of (num (s.read a 8) 0 8)

/-! ## APPEND (R167 to R172) -/

/-- An APPEND command (R167). -/
structure Append where
  ksrc  : Nat
  vsrc  : Nat
  kld   : Nat
  vld   : Nat
  pt    : Nat
  pbase : Nat
  ktile : Nat
  vmap  : Nat
  sg    : Nat
  layer : Nat
  h0    : Nat
  hn    : Nat
  ctl   : Nat
  n     : Nat
  deriving DecidableEq, Repr

/-- Reads an APPEND command. -/
def Append.of (b : List Byte) : Append :=
  { ksrc := num b 8 8, vsrc := num b 16 8, kld := num b 24 4, vld := num b 28 4, pt := num b 32 8, pbase := num b 40 4,
    ktile := num b 44 4, vmap := num b 48 8, sg := num b 56 8, layer := num b 64 2, h0 := num b 66 1, hn := num b 67 1,
    ctl := num b 68 1, n := num b 70 2 }

/-- DH. -/
def Append.dh (a : Append) : Nat := dhOf (bit a.ctl 0)
/-- VFMT. -/
def Append.vf (a : Append) : Fmt := vfmtOf (bit a.ctl 1)
/-- MODE: true for staged. -/
def Append.staged (a : Append) : Bool := bit a.ctl 2
/-- FLUSH. -/
def Append.flush (a : Append) : Bool := bit a.ctl 3
/-- Bytes of one source row or slot: HN heads of DH BF16 values. -/
def Append.rowLen (a : Append) : Nat := 2 * a.hn * a.dh
/-- Source rows. -/
def Append.rows (a : Append) : Nat := if a.staged then a.n else 256
/-- Bytes of the map of slots or source rows. -/
def Append.mapLen (a : Append) : Nat := if a.staged then ceilDiv a.n 8 else 32
/-- Bytes of a staging record (R170). -/
def Append.sgLen (a : Append) : Nat := 64 + 2 * 256 * a.rowLen

/-- A range the command reads: in T0, T1 or T2 and within the windows; empty ranges pass. -/
def State.readVerdict (s : State) (p a n : Nat) : Verdict :=
  if n = 0 then .go else .first [.badIf (!inT0T1T2 a n), .quotaIf (s.readRefused false p a n)]

/-- A range the command writes: in T0 or T1 and within the windows; empty ranges pass. -/
def State.writeVerdict (s : State) (p a n : Nat) : Verdict :=
  if n = 0 then .go else .first [.badIf (!inT0T1 a n), .quotaIf (s.writeRefused p a n)]

/-- The checks of APPEND at issue (R172, R289, R303). -/
def State.appendCheck (s : State) (c : Cmd) : Verdict :=
  let a := Append.of c.bytes
  let p := c.part
  .first
    [ .badIf (outside a.hn 1 64 || decide (64 < a.h0 + a.hn) || a.ctl / 16 != 0 || decide (256 < a.n) || num c.bytes 69 1 != 0 ||
        num c.bytes 72 8 != 0),
      s.readVerdict p a.ksrc (span a.rows a.kld a.rowLen), s.readVerdict p a.vsrc (span a.rows a.vld a.rowLen),
      s.readVerdict p a.vmap a.mapLen,
      if a.staged then s.writeVerdict p a.sg a.sgLen
      else if a.ktile < a.pbase then .go else s.readVerdict p (entryAddr a.pt a.pbase a.ktile) 8 ]

/-- Rows of BF16 keys or values that a page is written from: `at_ r` is the address of row r of the head, invalid slots +0; or
the first uncorrectable word (R168). -/
def State.slotRows (s : State) (at_ : Nat → Nat) (vmap dh : Nat) : List (List FVal) × Option Nat :=
  match (List.range 256).findSome? (fun r => if bit vmap r then s.badIn (at_ r) (2 * dh) else none) with
  | some e => ([], some e)
  | none =>
    ((List.range 256).map (fun r =>
      if bit vmap r then wideValues .bf16 dh (s.read (at_ r) (2 * dh)) else List.replicate dh FVal.zero), none)

/-- Exchanges rows and columns: `n` rows of the result. -/
def columns (n : Nat) (rows : List (List FVal)) : List (List FVal) :=
  (List.range n).map (fun d => rows.map (fun r => r.getD d FVal.zero))

/-- The bursts of a quantised page tensor, and its counts (R51, R168). -/
def pageTensor (f : Fmt) (len : Nat) (rows : List (List FVal)) : List Byte × Counts :=
  let qs := quantRows f (pageCvt f) FVal.one len 0 rows
  let bl := qs.flatten.map (fun (x : QResult) => x.block)
  ((packBursts f false false 0xFFFFFFFF bl.length bl).flatten, qCounts qs)

/-- What an APPEND has done so far. -/
structure AppendRun where
  out    : Out
  counts : Counts
  cycles : Nat
  others : List (Nat × Nat)
  shared : Bool
  deriving DecidableEq, Repr

/-- Whether bytes of a page are not defined: another APPEND in flight writes the page or the staging record (R172). -/
def AppendRun.undef (r : AppendRun) (page len : Nat) : Bool := r.shared || r.others.any (fun y => overlaps page len y.1 y.2)

/-- The pages a direct APPEND to a key tile writes: address and bytes, none where its page-table entry gives none. -/
def State.appendPages (s : State) (a : Append) (ktile : Nat) : List (Nat × Nat) :=
  let e := s.pageEntry (entryAddr a.pt a.pbase ktile)
  if ktile < a.pbase || !e.present then [] else [(e.group + a.h0 * pageSize a.dh a.vf, a.hn * pageSize a.dh a.vf)]

/-- The APPENDs in flight beside a command: those under way and those whose completion is still to be posted. -/
def State.otherAppends (s : State) (c : Cmd) : List Append :=
  ((s.cmdsInFlight.filter (fun d => d.uid != c.uid && hdrOpcode d.bytes == 0x21)).map (fun d => Append.of d.bytes))

/-- The pages that other APPENDs in flight write. Of a staged one they are the pages of the two tiles before its record's, the most
that one APPEND flushes (log entry 46). -/
def State.otherPages (s : State) (c : Cmd) : List (Nat × Nat) :=
  (s.otherAppends c).flatMap (fun a =>
    if a.staged then
      let k := num (s.read a.sg 4) 0 4
      (if k < 1 then [] else s.appendPages a (k - 1)) ++ (if k < 2 then [] else s.appendPages a (k - 2))
    else s.appendPages a a.ktile)

/-- Whether another APPEND in flight writes a command's staging record. -/
def State.recordShared (s : State) (c : Cmd) (a : Append) : Bool :=
  a.staged && (s.otherAppends c).any (fun b => b.staged && overlaps a.sg a.sgLen b.sg b.sgLen)

/-- What writing the pages of head H0 + i reads: the keys, then the values of its valid slots (R168). -/
def headReads (dh vmap off : Nat) (ka va : Nat → Nat) : List (Nat × Nat) :=
  let live := (List.range 256).filter (bit vmap)
  live.map (fun x => (ka x + off, 2 * dh)) ++ live.map (fun x => (va x + off, 2 * dh))

/-- Writes the pages of heads from H0 + i on: for each the key bursts, the value bursts, then the header (R169). `ka` and `va`
give the address of a slot's keys and values of head H0. -/
def appendHeads (c : Cmd) (a : Append) (group ktile vmap : Nat) (ka va : Nat → Nat) : Nat → Nat → AppendRun → AppendRun
  | 0, _, r => r
  | n + 1, i, r =>
    if r.out.fail.isSome then r
    else
      let off := 2 * i * a.dh
      let ks := r.out.s.slotRows (fun x => ka x + off) vmap a.dh
      let vs := r.out.s.slotRows (fun x => va x + off) vmap a.dh
      let rs := headReads a.dh vmap off ka va
      match ks.2.or vs.2 with
      | some e => { r with out := (Out.mk (r.out.s.noteReads c (readsUpTo (some (St.ecc, e)) rs)) none).stop (some (St.ecc, e)) }
      | none =>
        let o0 : Out := ⟨r.out.s.noteReads c rs, none⟩
        let kt := pageTensor .e4m3 a.dh ks.1
        let vt := pageTensor a.vf 256 (columns a.dh vs.1)
        let page := group + (a.h0 + i) * pageSize a.dh a.vf
        let undef := r.undef page (pageSize a.dh a.vf)
        let o1 := o0.put c undef (page + 2048) kt.1
        let o2 := o1.put c undef (page + 2048 * (1 + keyBursts a.dh)) vt.1
        let o3 := o2.put c undef page (pageHeader ktile a.layer (a.h0 + i) (bit a.ctl 0) (bit a.ctl 1) vmap)
        appendHeads c a group ktile vmap ka va n (i + 1) { r with out := o3, counts := (r.counts.add kt.2).add vt.2 }

/-- A direct APPEND to a key tile (R168, R172): the page-table entry is checked before anything is written. -/
def appendTile (c : Cmd) (a : Append) (ktile vmap : Nat) (ka va : Nat → Nat) (r : AppendRun) : AppendRun :=
  if r.out.fail.isSome then r
  else
    let ea := entryAddr a.pt a.pbase ktile
    let s := r.out.s
    let e := s.pageEntry ea
    let first := e.group + a.h0 * pageSize a.dh a.vf
    let len := a.hn * pageSize a.dh a.vf
    let r1 := { r with cycles := r.cycles + 64 + a.hn * (4 * a.dh + 64) }
    if ktile < a.pbase then { r1 with out := r.out.stop (some (St.ecc, ea)) }
    else match s.readRefused false c.part ea 8 with
      | some x => { r1 with out := r.out.stop (some (St.quota, x)) }
      | none => match s.badIn ea 8 with
        | some x => { r1 with out := r.out.stop (some (St.ecc, x)) }
        | none =>
          if !e.present || vfmtOf e.e2m1 != a.vf then { r1 with out := r.out.stop (some (St.ecc, ea)) }
          else if !inMsT1 first len then { r1 with out := r.out.stop (some (St.quota, first)) }
          else match s.writeRefused c.part first len with
            | some x => { r1 with out := r.out.stop (some (St.quota, x)) }
            | none => appendHeads c a e.group ktile vmap ka va a.hn 0 { r1 with out := ⟨s.touchRead c ea 8, none⟩ }

/-- The source rows that an APPEND reads. -/
def Append.sources (a : Append) (use : Nat → Bool) : List (Nat × Nat) :=
  ((List.range a.rows).filter use).flatMap (fun r => [(a.ksrc + r * a.kld, a.rowLen), (a.vsrc + r * a.vld, a.rowLen)])

/-- Ends an APPEND: conversions go to the completion record (R74). -/
def AppendRun.finish (r : AppendRun) (c : Cmd) : State :=
  r.out.finish c { Result.mk0 St.ok r.cycles with cvt := r.counts.list }

/-- APPEND in direct mode (R168, R169, R172). -/
def State.runAppendDirect (s : State) (c : Cmd) : State :=
  let a := Append.of c.bytes
  match s.badIn a.vmap 32 with
  | some x => (Out.mk s (some (St.ecc, x))).finish c (Result.mk0 St.ok (64 + a.hn * (4 * a.dh + 64)))
  | none =>
    let vmap := leNat (s.read a.vmap 32)
    let s1 := (s.touchRead c a.vmap 32).claimUnits c (a.sources (bit vmap))
    (appendTile c a a.ktile vmap (fun r => a.ksrc + r * a.kld) (fun r => a.vsrc + r * a.vld)
      ⟨⟨s1, none⟩, Counts.none, 0, s.otherPages c, false⟩).finish c

/-- A staging record's header as it is worked on (R170). -/
structure Staging where
  ktile : Nat
  count : Nat
  vmap  : Nat
  deriving DecidableEq, Repr

/-- The 64 bytes of a staging record's header. -/
def Staging.bytes (g : Staging) : List Byte :=
  padTo 64 (leBytes 4 g.ktile ++ leBytes 2 g.count ++ leBytes 2 0 ++ leBytes 32 g.vmap)

/-- A flush: a direct APPEND of the record's slots and map, then the header advances (R170). -/
def stagingFlush (c : Cmd) (a : Append) (g : Staging) (r : AppendRun) : Staging × AppendRun :=
  let ka := fun x => a.sg + 64 + x * a.rowLen
  let va := fun x => a.sg + 64 + 256 * a.rowLen + x * a.rowLen
  let live := (List.range g.count).filter (bit g.vmap)
  let r0 := { r with out := { r.out with s := r.out.s.claimUnits c (live.map (fun x => (ka x, a.rowLen)) ++ live.map (fun x => (va x, a.rowLen))) } }
  let r1 := appendTile c a g.ktile (g.vmap % 2 ^ g.count) ka va r0
  if r1.out.fail.isSome then (g, r1) else (⟨(g.ktile + 1) % 2 ^ 32, 0, 0⟩, r1)

/-- Copies source rows from row i into the record, `n` to go, flushing a full record (R170). -/
def stagingRows (c : Cmd) (a : Append) (map : Nat) : Nat → Nat → Staging → AppendRun → Staging × AppendRun
  | 0, _, g, r => (g, r)
  | n + 1, i, g, r =>
    if r.out.fail.isSome then (g, r)
    else
      let k := a.ksrc + i * a.kld
      let v := a.vsrc + i * a.vld
      match (r.out.s.badIn k a.rowLen).or (r.out.s.badIn v a.rowLen) with
      | some e => (g, { r with out := r.out.stop (some (St.ecc, e)) })
      | none =>
        let o0 : Out := ⟨r.out.s.noteReads c [(k, a.rowLen), (v, a.rowLen)], none⟩
        let o1 := o0.put c r.shared (a.sg + 64 + g.count * a.rowLen) (r.out.s.read k a.rowLen)
        let o2 := o1.put c r.shared (a.sg + 64 + 256 * a.rowLen + g.count * a.rowLen) (r.out.s.read v a.rowLen)
        let g1 : Staging := ⟨g.ktile, g.count + 1, g.vmap % 2 ^ g.count + (if bit map i then 2 ^ g.count else 0)⟩
        let r1 := { r with out := o2 }
        let x := if g1.count = 256 then stagingFlush c a g1 r1 else (g1, r1)
        stagingRows c a map n (i + 1) x.1 x.2

/-- APPEND in staged mode (R170 to R172). A record whose COUNT is above 255 continues at a free slot (log entry 21). -/
def State.runAppendStaged (s : State) (c : Cmd) : State :=
  let a := Append.of c.bytes
  let cyc := 64 + ceilDiv (a.n * a.hn * a.dh * 4) 256
  match (if a.mapLen = 0 then none else s.badIn a.vmap a.mapLen).or (s.badIn a.sg 64) with
  | some x => (Out.mk s (some (St.ecc, x))).finish c (Result.mk0 St.ok cyc)
  | none =>
    let map := leNat (s.read a.vmap a.mapLen)
    let h := s.read a.sg 64
    let cnt := num h 4 2
    let s1 := if cnt < 256 then s else s.draw
    let g : Staging := ⟨num h 0 4, if cnt < 256 then cnt else Config.freeNat s1.free 0 % 256, num h 8 32⟩
    let s2 := ((s1.touchRead c a.vmap a.mapLen).touchRead c a.sg 64).claimUnits c (a.sources (fun _ => true))
    let x := stagingRows c a map a.n 0 g ⟨⟨s2, none⟩, Counts.none, cyc, s.otherPages c, s.recordShared c a⟩
    let y := if a.flush && 0 < x.1.count && x.2.out.fail.isNone then stagingFlush c a x.1 x.2 else x
    let o : Out := { (Out.mk y.2.out.s none).put c false a.sg y.1.bytes with fail := y.2.out.fail }
    { y.2 with out := o }.finish c

/-- Whether a command is an APPEND of a mode. -/
def isAppend (staged : Bool) (b : List Byte) : Bool := hdrOpcode b == 0x21 && (Append.of b).staged == staged

/-- APPEND_DIRECT (R168): quantises keys and values into the pages of one key tile. -/
def execAppendDirect (i : Issuer) (s : State) : Host.Outcome State Fault Refusal :=
  inRange (issuerOk i) (fun _ => .next (s.issueRow i (isAppend false) State.appendCheck State.runAppendDirect))

/-- APPEND_STAGED (R170): adds rows to a staging record and flushes full or requested pages. -/
def execAppendStaged (i : Issuer) (s : State) : Host.Outcome State Fault Refusal :=
  inRange (issuerOk i) (fun _ => .next (s.issueRow i (isAppend true) State.appendCheck State.runAppendStaged))

/-! ## ATTN at issue (R173, R174, R179) -/

/-- An ATTN command (R173). -/
structure Attn where
  q     : Nat
  qhs   : Nat
  mask  : Nat
  pt    : Nat
  pbase : Nat
  pcnt  : Nat
  o     : Nat
  old   : Nat
  ohs   : Nat
  stat  : Nat
  h0    : Nat
  hn    : Nat
  ctl   : Nat
  scr   : Nat
  alpha : FVal
  cvt   : Cvt
  layer : Nat
  deriving DecidableEq, Repr

/-- Reads an ATTN command. -/
def Attn.of (b : List Byte) : Attn :=
  { q := num b 8 8, qhs := num b 16 4, mask := num b 24 8, pt := num b 32 8, pbase := num b 40 4, pcnt := num b 44 4,
    o := num b 48 8, old := num b 56 4, ohs := num b 60 4, stat := num b 64 8, h0 := num b 72 1, hn := num b 73 1,
    ctl := num b 74 1, scr := num b 75 1, alpha := f32 (num b 76 4), cvt := Cvt.ofBytes (sub b 80 16), layer := num b 96 2 }

/-- DH. -/
def Attn.dh (a : Attn) : Nat := dhOf (bit a.ctl 0)
/-- SAVE. -/
def Attn.save (a : Attn) : Bool := bit a.ctl 1
/-- The output format. -/
def Attn.outf (a : Attn) : Fmt := (Fmt.ofCode a.cvt.fmt).getD .fp32

/-- First byte and length of Q over all heads. -/
def Attn.qRange (a : Attn) : Nat × Nat := (a.q, (a.hn - 1) * a.qhs + tensorBytes .e4m3 false 256 a.dh)
/-- First byte and length of the output over all heads. -/
def Attn.oRange (a : Attn) (rows : Nat) : Nat × Nat := (a.o, (a.hn - 1) * a.ohs + span rows a.old (a.dh * a.outf.bytes))
/-- First byte and length of the statistics records. -/
def Attn.statRange (a : Attn) : Nat × Nat := (a.stat, 4096 * a.hn)

/-- The checks of ATTN at issue, in the order of R94 (R174, R179): those of Q, the record, the page table and the statistics hold
whatever QROWS is; only the output's range depends on it. -/
def State.attnCheck (s : State) (c : Cmd) : Verdict :=
  let b := c.bytes
  let a := Attn.of b
  let x := s.bound c.part (num b 20 4)
  let rows := x.get
  .first
    [ .badIf (outside a.hn 1 64 || decide (64 < a.h0 + a.hn) || a.ctl / 4 != 0 || decide (251 < a.scr) || a.qhs % 2048 != 0 ||
        a.q % 2048 != 0 || teCvtBad a.cvt || a.cvt.tsm == 1 || !allZero (sub b 98 30)),
      x.verdict,
      Bound.need [x] (.badIf (decide (256 < rows))),
      s.readVerdict c.part a.qRange.1 a.qRange.2, s.readVerdict c.part a.mask 8, s.readVerdict c.part a.pt (8 * a.pcnt),
      Bound.need [x] (if rows = 0 then .go else s.writeVerdict c.part (a.oRange rows).1 (a.oRange rows).2),
      s.writeVerdict c.part a.statRange.1 a.statRange.2,
      s.spillVerdict c.part c.eg a.scr 5, Bound.need [x] (.okIf (rows = 0)) ]

/-- The indices of the tensor scales that an ATTN's operands name at its issue: in the first burst of Q of each head, and of the keys
and values of each page of its record (R70, R175). -/
def State.attnIndices (s : State) (a : Attn) : List Nat :=
  let heads := List.range a.hn
  let n := num (s.read a.mask 8) 4 2
  let pages := (List.range n).flatMap (fun e =>
    let x := s.pageEntry (entryAddr a.pt a.pbase (num (s.read (a.mask + 8 + 8 * e) 4) 0 4))
    if !x.present then []
    else heads.flatMap (fun h =>
      let page := x.group + (a.h0 + h) * pageSize a.dh (vfmtOf x.e2m1)
      [s.firstTsidx (page + 2048), s.firstTsidx (page + 2048 * (1 + keyBursts a.dh))]))
  (heads.map (fun h => s.firstTsidx (a.q + h * a.qhs)) ++ pages).eraseDups

/-- ATTN: reads QROWS and its tensor scales (R54), captures the SFU tables of slots 0 and 1, and waits for two slots (R174). -/
def State.runAttn (s0 : State) (c : Cmd) : State :=
  let s := s0.sfuFlip c.eg
  let rows := (s.bound c.part (num c.bytes 20 4)).get
  let is := (s.attnIndices (Attn.of c.bytes)).filter (fun i => i != 0xFFFFFFFF && s.tsKnown c.part i)
  let s1 := s.touchReads c (is.flatMap (s.tsRange c.part))
  s1.teWait c.eg (TeCmd.start c rows 0 0 0 0 [] [s.sfuTabs c.eg 0, s.sfuTabs c.eg 1] (is.map (fun i => (i, s.tsEntry c.part i))))

/-- ATTN (R175): computes one query tile's output over its live key tiles for its heads. It counts as one SFU command, so it waits
for a flip that an ATTN before it holds back (R151, R174). -/
def execAttn (i : Issuer) (s : State) : Host.Outcome State Fault Refusal :=
  inRange (issuerOk i) (fun _ => .next (s.sfuRow i (isOp 0x22) State.attnCheck State.runAttn))

/-! ## The entries of an ATTN (R175 to R178) -/

/-- A tensor of bursts read as an operand (R69, R70). -/
def State.operand (s : State) (p : Nat) (f : Fmt) (base rows len : Nat) : BurstRead :=
  readBursts (fun a => s.badIn a 2048) s.burstAt f false false (s.tsCount p) (tensorBursts f false rows len) base none [] 0

/-- Rows of an operand as reduction groups: the values of each block with its scale. -/
def groupRows (f : Fmt) (rows len : Nat) (bl : List QBlock) : List (List (List FVal × FVal)) :=
  (chunk (rowBlocks false len) rows bl).map (fun r => r.map (fun b => (b.elems.map f.decode, scaleValue false b.scale)))

/-- One element of a product of one reduction step, drained with a tensor scale and converted to FP32 (R62, R64, R89). R64 leaves a
product above the FP32 range to the output conversion, and a score or value product has none of its own: OVF of OUT_CVT decides it
and RANGE_COUNT counts it, as of a MATMUL that computes the same element (DEDUCED, log entry 46). -/
def productElem (ovf : Bool) (t : FVal) (a b : List (List FVal × FVal)) : FVal × Counts :=
  let x := convert .fp32 .rne ovf (drainValue false t (stepElem false 0 a b).1)
  (f32 x.1, x.2)

/-- The outcomes of a list of conversions. -/
def sumCounts (l : List (FVal × Counts)) : Counts := l.foldl (fun n x => n.add x.2) Counts.none

/-- A row of masked scores (R176): -∞ where the sub-mask or the page's slot map is 0. -/
def scoreRow (ovf : Bool) (t : FVal) (sm vmap r : Nat) (a : List (List FVal × FVal)) (keys : List (List (List FVal × FVal))) :
    List (FVal × Counts) :=
  (keys.zip (List.range 256)).map (fun kc =>
    if bit sm (4 * (r / 64) + kc.2 / 64) && bit vmap kc.2 then productElem ovf t a kc.1 else (.inf true, Counts.none))

/-- What one entry of a head gives for one row: the new output row, the statistics record, the counts, and whether LOG2 met a negative
SUM. -/
structure AttnRow where
  o      : List Nat
  stat   : List Byte
  counts : Counts
  domain : Bool
  deriving DecidableEq, Repr

/-- One row of one entry: scores, soft maximum, probabilities as E2M1, and the rescaled output (R175). -/
def attnRow (a : Attn) (tab : Nat → List Byte) (init final : Bool) (rcd : List Byte) (scores : List (FVal × Counts))
    (vals : List (List (List FVal × FVal))) (tv : FVal) (o : List Nat) : AttnRow :=
  let m := if init then .inf true else f32 (num rcd 0 4)
  let sum := if init then FVal.zero else f32 (num rcd 4 4)
  let r := softmaxRow tab a.alpha init m sum (num rcd 12 4) final (scores.map (fun x => x.1))
  let q := quantRow .e2m1 (pageCvt .e2m1) FVal.one 8 0 r.ps
  let p := q.map (fun (x : QResult) => (x.block.elems.map Fmt.e2m1.decode, scaleValue false x.block.scale))
  let b := vals.map (productElem a.cvt.ovf tv p)
  { o := (b.zip o).map (fun vo => fp32.encode (fma32 (f32 vo.2) r.corr vo.1.1)),
    stat := (statRecord r.m r.sum r.corr r.lse).take (if final then 16 else 12),
    counts := ((sumCounts scores).add (qCounts [q])).add (sumCounts b), domain := r.domain }

/-- Outcome of finding the page of an entry: its address and header, or a failure. -/
inductive PageFound where
  | ok (page : Nat) (e2m1 : Bool) (vmap : Nat)
  | fail (st : Byte) (addr : Nat)
  deriving DecidableEq, Repr

/-- Finds and verifies the page of key tile t and head h (R166, R175, R179). -/
def State.findPage (s : State) (p : Nat) (a : Attn) (t h : Nat) : PageFound :=
  let ea := entryAddr a.pt a.pbase t
  if t < a.pbase ∨ a.pbase + a.pcnt ≤ t then .fail St.ecc ea
  else match s.badIn ea 8 with
    | some x => .fail St.ecc x
    | none =>
      let e := s.pageEntry ea
      let vf := vfmtOf e.e2m1
      let page := e.group + h * pageSize a.dh vf
      if !e.present then .fail St.ecc ea
      else if !inMsT1 page (pageSize a.dh vf) then .fail St.quota page
      else match s.readRefused false p page (pageSize a.dh vf) with
        | some x => .fail St.quota x
        | none => match s.badIn page 2048 with
          | some x => .fail St.ecc x
          | none =>
            let hd := s.read page 2048
            if num hd 2045 3 = crc24 (hd.take 2045) ∧ num hd 0 4 = t ∧ num hd 4 2 = a.layer ∧ num hd 6 1 = h ∧
                num hd 7 1 = b2n (bit a.ctl 0) ∧ num hd 9 1 = formatByte vf false false then
              .ok page e.e2m1 (num hd 16 32)
            else .fail St.ecc page

/-- Ends an ATTN: it leaves the engine, its scratch area is not defined any more (R174), and it completes. An uncorrectable word that
arrived so has been counted. -/
def State.attnEnd (s : State) (eg : Nat) (t : TeCmd) (st : Byte) (addr stop : Nat) : State :=
  let s1 := if st = St.ecc ∧ (s.badIn addr 1).isSome ∧ s.arrivedBad t.cmd.uid ≠ some addr then s.noteUe addr else s
  ((s1.leaveTe eg t).loseSpill eg (Attn.of t.cmd.bytes).scr 5).finish t.cmd (Result.at st addr (stop - t.cmd.issued))

/-- The tables an ATTN captured (R174). -/
def TeCmd.tab (t : TeCmd) : Nat → List Byte := fun slot => t.tabs.getD slot []

/-- The running output rows, +0 where none has been kept (R175). -/
def TeCmd.outRow (t : TeCmd) (dh r : Nat) : List Nat :=
  ((t.carry.find? (fun k => k.1 == r)).map (fun k => k.2)).getD (List.replicate dh 0)

/-- Writes the output rows of a head (R175): +0 where SUM is 0, the quotient elsewhere, through OUT_CVT. -/
def putHead (c : Cmd) (a : Attn) (qrows hd : Nat) : List (Nat × List Nat) → Out → Counts → Out × Counts
  | [], o, k => (o, k)
  | (r, vs) :: rest, o, k =>
    let sum := f32 (num (o.s.read (a.stat + hd * 4096 + 16 * r + 4) 4) 0 4)
    let ys := (vs.zip (List.range a.dh)).map (fun vd =>
      outElem a.cvt ((hd * qrows + r) * a.dh + vd.2) (if sum.isZero then FVal.zero else div32 (f32 vd.1) sum))
    putHead c a qrows hd rest
      (o.put c false (a.o + hd * a.ohs + r * a.old) (ys.flatMap (fun y => leBytes a.outf.bytes y.1)))
      (ys.foldl (fun n y => n.add y.2) k)

/-- Writes all heads of a record with NENT = 0 (R175): outputs +0, and under SAVE the records of an empty row. -/
def putEmpty (c : Cmd) (a : Attn) (qrows : Nat) : Nat → Out → Out
  | 0, o => o
  | n + 1, o0 =>
    let o := putEmpty c a qrows n o0
    let z := (outElem a.cvt 0 FVal.zero).1
    let o1 := (List.range qrows).foldl (fun o r =>
      o.put c false (a.o + n * a.ohs + r * a.old) ((List.replicate a.dh z).flatMap (leBytes a.outf.bytes))) o
    if !a.save then o1
    else (List.range 256).foldl (fun o r =>
      o.put c false (a.stat + n * 4096 + 16 * r) (statRecord (.inf true) FVal.zero FVal.one 0xFF800000)) o1

/-- Score step, value step and interval of an entry (R178). -/
def attnTimes (dh : Nat) (e2m1 : Bool) : Nat × Nat × Nat :=
  let sc := if dh = 128 then 256 else 128
  let v := if e2m1 then 256 else 512
  (sc, v, max 560 (sc + v))

/-- The entry an ATTN comes to: tile and sub-mask, or the address that failed. -/
def State.attnEntry (s : State) (p : Nat) (a : Attn) (e : Nat) : Except (Byte × Nat) (Nat × Nat) :=
  let ra := a.mask + 8 + 8 * e
  if !inT0T1T2 ra 8 then .error (St.quota, ra)
  else match s.readRefused false p ra 8 with
    | some x => .error (St.quota, x)
    | none => match s.badIn ra 8 with
      | some x => .error (St.ecc, x)
      | none => .ok (num (s.read ra 8) 0 4, num (s.read ra 8) 4 2)

/-- The tensor scale that an index of a trailer names: as read at issue where the command read it there, else as it stands (R54; log
entry 46). -/
def State.attnScale (s : State) (t : TeCmd) (i : Nat) : FVal :=
  match t.scales.find? (fun x => x.1 == i) with
  | some x => f32 x.2
  | none => f32 (s.tsEntry t.cmd.part i)

/-- What an entry of a head reads: the record's entry, the page-table entry, Q with the head's first entry, else its statistics, and
the page (R175). -/
def attnReads (a : Attn) (t : TeCmd) (tile page : Nat) (vf : Fmt) : List (Nat × Nat) :=
  [(a.mask + 8 + 8 * t.kt, 8), (entryAddr a.pt a.pbase tile, 8)] ++
    (if t.kt = 0 then [(a.q + t.group * a.qhs, tensorBytes .e4m3 false 256 a.dh)] else [(a.stat + t.group * 4096, 4096)]) ++
    [(page, pageSize a.dh vf)]

/-- Carries out one entry of one head, whose page is found: rows, statistics, and after the head's last entry its output; the
TE command moves on (R175, R178). -/
def State.attnCompute (s : State) (eg : Nat) (t : TeCmd) (tile sm page : Nat) (e2m1 : Bool) (vmap start : Nat) : State :=
  let a := Attn.of t.cmd.bytes
  let c := t.cmd
  let dh := a.dh
  let hd := t.group
  let vf := vfmtOf e2m1
  let tm := attnTimes dh e2m1
  let q := s.operand c.part .e4m3 (a.q + hd * a.qhs) 256 dh
  let k := s.operand c.part .e4m3 (page + 2048) 256 dh
  let v := s.operand c.part vf (page + 2048 * (1 + keyBursts dh)) dh 256
  let sa := a.stat + hd * 4096
  let init := t.kt = 0
  let last := t.kt + 1 = t.n
  let final := last && a.save
  let stop := start + tm.1 + tm.2.1
  let next := start + tm.2.2 + (if final then 4096 else 0)
  let data := ((q.fail.or k.fail).or (if init then none else s.badIn sa 4096)).or v.fail
  match (data.map (fun x => (St.ecc, x))).or ([q.tsidx, k.tsidx, v.tsidx].findSome? (s.tsStop c.part)) with
  | some x => s.attnEnd eg t x.1 x.2 (max s.cycle stop + 16)
  | none =>
    let ts := fl32c ((s.attnScale t q.tsidx).mul (s.attnScale t k.tsidx))
    let tv := s.attnScale t v.tsidx
    let qr := groupRows .e4m3 256 dh q.blocks
    let kr := groupRows .e4m3 256 dh k.blocks
    let vr := groupRows vf dh 256 v.blocks
    let rows := (qr.zip (List.range 256)).map (fun x =>
      attnRow a t.tab init final (s.read (sa + 16 * x.2) 16) (scoreRow a.cvt.ovf ts sm vmap x.2 x.1 kr) vr tv
        (if init then List.replicate dh 0 else t.outRow dh x.2))
    let s1 := s.touchReads c (attnReads a t tile page vf)
    let o1 := (rows.zip (List.range 256)).foldl (fun o x => o.put c false (sa + 16 * x.2) x.1.stat) (Out.mk s1 none)
    let carry := (List.range 256).zip (rows.map (fun x => x.o))
    let h := if last then putHead c a t.m hd (carry.take t.m) o1 Counts.none else (o1, Counts.none)
    match h.1.fail with
    | some f => h.1.s.attnEnd eg t f.1 f.2 (max s.cycle stop + 16)
    | none =>
      let busy := tm.1 * classAct 32 + tm.2.1 * classAct (if e2m1 then 16 else 32) + (560 + (if final then 4096 else 0)) * unitAct
      let s2 := (((h.1.s.act c.part busy).until stop).addCvt eg (rows.foldl (fun n x => n.add x.counts) h.2)).count
        F.sfuStat_DOMAIN_COUNT eg (rows.filter (fun x => x.domain)).length
      let t1 := { t with carry := if last then [] else carry, kt := if last then 0 else t.kt + 1,
                         group := if last then hd + 1 else hd, at_ := next }
      if last && decide (hd + 1 = a.hn) then s2.attnEnd eg t1 St.ok 0 (next - tm.2.2 + (tm.1 + tm.2.1 + 1400) + 544)
      else
        let s3 := s2.setFlight eg t1
        s3.setTe eg { s3.teOf eg with free := stop }

/-- One TE_STEP of an ATTN in flight: it reads the record's header once, then takes one entry of one head at a time, when the
score and value steps of the entry each fit the job's wheel entry (R175 to R178, R442). -/
def State.attnStep (s : State) (eg : Nat) (t0 : TeCmd) : State :=
  let a := Attn.of t0.cmd.bytes
  let begun := t0.pos = 1
  match (s.arrivedBad t0.cmd.uid).or (if begun then none else s.badIn a.mask 8) with
  | some x => s.attnEnd eg t0 St.ecc x (max s.cycle t0.at_ + 16)
  | none =>
    let t := if begun then t0 else { t0 with pos := 1, n := num (s.read a.mask 8) 4 2 }
    if t.n = 0 then
      let o := putEmpty t.cmd a t.m a.hn ⟨s.touchRead t.cmd a.mask 8, none⟩
      match o.fail with
      | some f => o.s.attnEnd eg t f.1 f.2 (t.at_ + 16 + 256 * a.hn)
      | none => o.s.attnEnd eg t St.ok 0 (t.at_ + 16 + 256 * a.hn)
    else
      match s.attnEntry t.cmd.part a t.kt with
      | .error f => s.attnEnd eg t f.1 f.2 (max s.cycle t.at_ + 16)
      | .ok (tile, sm) => match s.findPage t.cmd.part a tile (a.h0 + t.group) with
        | .fail st x => s.attnEnd eg t st x (max s.cycle t.at_ + 16)
        | .ok page e2m1 vmap =>
          let tm := attnTimes a.dh e2m1
          let start := max (max t.at_ (s.teOf eg).free) (s.wheel eg).start
          if s.fits eg t.cmd.job start (max tm.1 tm.2.1) then
            (if begun then s else s.touchRead t.cmd a.mask 8).attnCompute eg t tile sm page e2m1 vmap start
          else s

/-- TE_STEP (R96): the array performs the next reduction step of command `k` in flight, oldest first; of an ATTN, the score and
value steps of its next entry. -/
def execTeStep (eg k : Nat) (s : State) : Host.Outcome State Fault Refusal :=
  inRange (eg < 128 && k < 4) (fun _ => .next (match (s.teNow eg).flight[k]? with
    | none => s
    | some t =>
      if t.ended || !s.jobRuns t.cmd.part t.cmd.job then s
      else if hdrOpcode t.cmd.bytes = 0x22 then s.attnStep eg t
      else s.matStep eg t.cmd.uid 4))

end Sys2Proof.Machine
end

