-- ==== Sys2Proof/Machine/Safeguards.lean ====
section
/-!
DEFINITION. The safeguards (chapter 04): SENTINEL with its probes and counts, and ESCALATE. Residual carry stands with the
converting DMA, the escalation guard with the operand forms.
-/

set_option Elab.async false

namespace Sys2Proof.Machine

open Sys2Proof

/-! ## SENTINEL (R117 to R122) -/

/-- A SENTINEL command (R117). -/
structure Sentinel where
  a      : Nat
  b      : Nat
  c      : Nat
  ld     : Nat
  fa     : Nat
  fb     : Nat
  fc     : Nat
  ctl    : Nat
  rate   : Nat
  pass   : Nat
  layer  : Nat
  entry  : Nat
  thresh : FVal
  deriving DecidableEq, Repr

/-- Reads a SENTINEL command. -/
def Sentinel.of (b : List Byte) : Sentinel :=
  { a := num b 8 8, b := num b 16 8, c := num b 24 8, ld := num b 32 4, fa := num b 48 1, fb := num b 49 1, fc := num b 50 1,
    ctl := num b 51 1, rate := num b 52 2, pass := num b 54 2, layer := num b 56 2, entry := num b 58 2,
    thresh := f32 (num b 60 4) }

/-- POLICY. -/
def Sentinel.policy (q : Sentinel) : Nat := q.ctl % 4
/-- IACC. -/
def Sentinel.iacc (q : Sentinel) : Bool := bit q.ctl 2
/-- The format of C. -/
def Sentinel.cf (q : Sentinel) : Fmt := (Fmt.ofCode q.fc).getD .fp32

/-- First byte and length of an operand of rows x k elements: Alhel bursts, or a row-major array (R117). -/
def sentRange (fb base rows k : Nat) : Nat × Nat :=
  srcRange fb base (k * ((byteFmt fb).getD .fp32).bytes) rows k

/-- The checks of SENTINEL at issue (R122, R123). The windows of its operands are judged also under RATE = 0, which R122 does not place
against QUOTA_EXCEEDED; R94 puts a zero bound after it (DEDUCED, log entry 47). -/
def State.sentinelCheck (s : State) (c : Cmd) : Verdict :=
  let b := c.bytes
  let q := Sentinel.of b
  let x := s.bound c.part (num b 36 4)
  let y := s.bound c.part (num b 40 4)
  let z := s.bound c.part (num b 44 4)
  let m := x.get
  let n := y.get
  let k := z.get
  let fa := (byteFmt q.fa).getD .fp32
  let fb := (byteFmt q.fb).getD .fp32
  let ra := sentRange q.fa q.a m k
  let rb := sentRange q.fb q.b n k
  let rc := (q.c, span m q.ld (n * q.cf.bytes))
  let known := x.known && y.known && z.known
  let zero := m = 0 || n = 0 || k = 0
  .first
    [ .badIf (decide (4096 ≤ q.entry) || q.thresh.isNan || q.thresh.lt FVal.zero || decide (2 < q.fc) ||
        !srcFmtOk q.fa || !srcFmtOk q.fb || q.ctl / 8 != 0 ||
        (fa.narrow && q.a % 2048 != 0) || (fb.narrow && q.b % 2048 != 0) || (q.iacc && !(fa.isInt && fb.isInt))),
      .badIf (!inT0T1T2 q.a 1 || !inT0T1T2 q.b 1 || !inMsT1 q.c 1),
      x.verdict, y.verdict, z.verdict,
      s.escVerdict c.part q.entry 1,
      if !known || zero then .go else .first
        [ s.readVerdict c.part ra.1 ra.2, s.readVerdict c.part rb.1 rb.2, .badIf (!inMsT1 rc.1 rc.2),
          .quotaIf (s.readRefused false c.part rc.1 rc.2) ],
      .okIf (q.rate = 0 || (known && zero)) ]

/-- The 16-bit sample index of a tile and the place of its probe (R118): first row and column within C, and its size. -/
structure Probe where
  tile : Nat
  r0   : Nat
  c0   : Nat
  rows : Nat
  cols : Nat
  deriving DecidableEq, Repr

/-- The probe of output tile t, if it is sampled (R118). -/
def Sentinel.probe (q : Sentinel) (seed m n t : Nat) : Option Probe :=
  let z := mixer seed (q.pass * 2 ^ 44 + q.layer * 2 ^ 28 + t)
  let nt := ceilDiv n 256
  let mt := t / nt
  let vr := min 256 (m - 256 * mt)
  let vc := min 256 (n - 256 * (t % nt))
  let r0 := 16 * (bits z 44 4 % ceilDiv vr 16)
  let c0 := 16 * (bits z 40 4 % ceilDiv vc 16)
  if z / 2 ^ 48 < q.rate then
    some ⟨t, 256 * mt + r0, 256 * (t % nt) + c0, min 16 (vr - r0), min 16 (vc - c0)⟩
  else none

/-- One row of an operand: its values with the tensor scale (R55), its raw code values for integer accumulation with the scale of
each block, or the status and address that failed. -/
structure SentRow where
  vals : List FVal
  raw  : List FVal
  fail : Option (Byte × Nat)
  deriving DecidableEq, Repr

/-- An operand of SENTINEL: its format byte, its address, and TSIDX of the first burst of it that the command reads. -/
structure SentOp where
  fb   : Nat
  base : Nat
  ts   : Nat
  deriving DecidableEq, Repr

/-- The format of an operand. -/
def SentOp.fmt (o : SentOp) : Fmt := (byteFmt o.fb).getD .fp32

/-- The blocks of row `r` of a narrow operand. -/
def SentOp.blocks (o : SentOp) (k r : Nat) : List Nat :=
  (List.range (rowBlocks (byteBlk o.fb) k)).map (fun j => r * rowBlocks (byteBlk o.fb) k + j)

/-- Reads row r of an operand (R117, R119). -/
def State.sentRow (s : State) (p : Nat) (o : SentOp) (k r : Nat) : SentRow :=
  let f := o.fmt
  if f.narrow then
    let bl := (o.blocks k r).map (s.burstBlock p f (byteBlk o.fb) (byteScl o.fb) o.base o.ts)
    match (bl.findSome? (fun b => b.fail)).map (fun a => (St.ecc, a)), s.tsStop p o.ts with
    | some a, _ => ⟨[], [], some a⟩
    | none, some a => ⟨[], [], some a⟩
    | none, none =>
      let t := f32 (s.tsEntry p o.ts)
      ⟨(bl.flatMap (fun b => blockValues f (byteScl o.fb) t ⟨b.scale, b.codes⟩)).take k,
        (bl.flatMap (fun b => b.codes.map f.decode)).take k, none⟩
  else
    let a := o.base + r * k * f.bytes
    match s.badIn a (k * f.bytes) with
    | some e => ⟨[], [], some (St.ecc, e)⟩
    | none => ⟨wideValues f k (s.read a (k * f.bytes)), [], none⟩

/-- TSIDX of the burst that holds the first element of a row of an operand. -/
def State.sentTsidx (s : State) (fb base k r : Nat) : Nat :=
  let f := (byteFmt fb).getD .fp32
  if f.narrow then
    burstTsidx (s.burstAt (base + 2048 * (r * rowBlocks (byteBlk fb) k / burstN f (byteBlk fb))))
  else 0xFFFFFFFF

/-- The reference value of one probe element (R119), and the clamps of its integer accumulation, which count as conversions of the
cluster (R63, R74). -/
def sentRef (iacc : Bool) (g : Nat) (t : FVal) (a b : SentRow) : FVal × Nat :=
  if iacc then
    let n := ceilDiv a.raw.length g
    let ga := (chunk g n a.raw).map (fun x => (x, FVal.one))
    let gb := (chunk g n b.raw).map (fun x => (x, FVal.one))
    let r := stepElem true 0 ga gb
    (drainValue true t r.1, r.2)
  else ((a.vals.zip b.vals).foldl (fun r ab => fma32 ab.1 ab.2 r) FVal.zero, 0)

/-- The sums of a comparison (R119). -/
structure Compare where
  num    : FVal
  den    : FVal
  nonfin : Bool
  deriving DecidableEq, Repr

/-- Compares one element (R119). -/
def Compare.elem (x : Compare) (y ref : FVal) : Compare :=
  if y.isFin != ref.isFin then { x with nonfin := true }
  else if y.isFin && ref.isFin then
    let d := fl32 (y.sub ref)
    { x with num := fma32 d d x.num, den := fma32 ref ref x.den }
  else x

/-- Whether a probe diverged (R119). -/
def Compare.diverged (x : Compare) (thresh : FVal) : Bool :=
  x.nonfin || thresh.lt (sqrt32 (div32 x.num (maxNan x.den (.fin false 1 (-100)))))

/-- What a SENTINEL has done so far: probes run, whether one diverged, accumulator clamps, and the blocks of each operand whose TERN5
bytes have been counted. -/
structure SentRun where
  s      : State
  hit    : Bool
  n      : Nat
  clamps : Nat
  seenA  : List Nat × Nat
  seenB  : List Nat × Nat
  fail   : Option (Byte × Nat)
  deriving DecidableEq, Repr

/-- Adds to a 32-bit word in T1 by a memory-side update of its unit (R120, R313). -/
def State.memAdd (s : State) (c : Cmd) (a v : Nat) : State :=
  ((s.note c.uid (.rmw (unitOf a) 2048)).storeFor c.uid a (leBytes 4 (s.word a + v))).touch c.uid c.part c.eg a 4 .atomic

/-- What a probe computes: whether it diverged, accumulator clamps, and the status and address that failed. -/
structure ProbeOut where
  dv     : Bool
  clamps : Nat
  fail   : Option (Byte × Nat)
  deriving DecidableEq, Repr

/-- Reads a probe's operand rows and compares its elements row by row (R119). No rule gives the order of the reads, which decides ADDR
when several words fail: the rows of A come first, then those of B, then C; under IACC the groups are the blocks of A, also where B's
blocks are of another size, which R122 does not refuse (DESIGN CHOICE, log entry 47). -/
def State.runProbe (s : State) (c : Cmd) (q : Sentinel) (k : Nat) (oa ob : SentOp) (x : Probe) : ProbeOut :=
  let ar := (List.range x.rows).map (fun i => s.sentRow c.part oa k (x.r0 + i))
  let br := (List.range x.cols).map (fun i => s.sentRow c.part ob k (x.c0 + i))
  let es := (List.range (x.rows * x.cols)).map (fun i => (i / x.cols, i % x.cols))
  let addr := fun (e : Nat × Nat) => q.c + (x.r0 + e.1) * q.ld + (x.c0 + e.2) * q.cf.bytes
  match (ar.findSome? (fun r => r.fail)).or ((br.findSome? (fun r => r.fail)).or
      ((es.findSome? (fun e => s.badIn (addr e) q.cf.bytes)).map (fun a => (St.ecc, a)))) with
  | some a => ⟨false, 0, some a⟩
  | none =>
    let t := fl32c ((f32 (s.tsEntry c.part oa.ts)).mul (f32 (s.tsEntry c.part ob.ts)))
    let g := blockLen (byteBlk q.fa)
    let nil : SentRow := ⟨[], [], none⟩
    let r := es.foldl (fun (k : Compare × Nat) e =>
      let ref := sentRef q.iacc g t (ar.getD e.1 nil) (br.getD e.2 nil)
      (k.1.elem (q.cf.decode (num (s.read (addr e) q.cf.bytes) 0 q.cf.bytes)) ref.1, k.2 + ref.2))
      (⟨FVal.zero, FVal.zero, false⟩, 0)
    ⟨r.1.diverged q.thresh, r.2, none⟩

/-- The range that reading row `r` of an operand reads: its bursts, or its elements. -/
def SentOp.rowRange (o : SentOp) (k r : Nat) : Nat × Nat :=
  if o.fmt.narrow then
    let per := rowBlocks (byteBlk o.fb) k
    let nb := burstN o.fmt (byteBlk o.fb)
    (o.base + 2048 * (r * per / nb), 2048 * ((r * per + per - 1) / nb - r * per / nb + 1))
  else (o.base + r * k * o.fmt.bytes, k * o.fmt.bytes)

/-- What a probe reads, in order, the tensor-scale entries after the first row of each operand. -/
def State.probeReads (s : State) (p : Nat) (q : Sentinel) (k : Nat) (oa ob : SentOp) (x : Probe) : List (Nat × Nat) :=
  let rows := fun (o : SentOp) r0 n =>
    let rs := (List.range n).map (fun i => o.rowRange k (r0 + i))
    if o.fmt.narrow then rs.take 1 ++ s.tsRange p o.ts ++ rs.drop 1 else rs
  rows oa x.r0 x.rows ++ rows ob x.c0 x.cols ++
    (List.range x.rows).map (fun i => (q.c + (x.r0 + i) * q.ld + x.c0 * q.cf.bytes, x.cols * q.cf.bytes))

/-- Counts the TERN5 bytes that a probe reads of an operand for the first time (R46, R75). -/
def State.probeTern (s : State) (o : SentOp) (k r0 n : Nat) (seen : List Nat × Nat) : List Nat × Nat :=
  if o.fmt ≠ .tern5 then seen
  else s.ternCount .tern5 (byteBlk o.fb) o.base ((List.range n).flatMap (fun i => o.blocks k (r0 + i))) seen

/-- Runs the probes in ascending t, adding to the entry's counts and to EG_SENTSTAT after each (R120). -/
def sentProbes (c : Cmd) (q : Sentinel) (k : Nat) (oa ob : SentOp) (entry : Nat) : List Probe → SentRun → SentRun
  | [], r => r
  | x :: xs, r =>
    if r.fail.isSome then r
    else
      let y := r.s.runProbe c q k oa ob x
      let s1 := r.s.touchReads c (readsUpTo y.fail (r.s.probeReads c.part q k oa ob x))
      let r1 := { r with s := s1, clamps := r.clamps + y.clamps }
      match y.fail, (s1.badIn (unitOf entry) 2048).map (fun a => (St.ecc, a)) with
      | some a, _ => { r1 with fail := some a }
      | none, some a => { r1 with fail := some a }
      | none, none =>
        let s2 := (s1.memAdd c entry 1).note c.uid (.reg .egSentstat c.eg (s1.reg .egSentstat c.eg))
        let s3 := if y.dv then s2.memAdd c (entry + 4) 1 else s2
        let s4 := (s3.count F.egSentstat_PROBES c.eg 1).count F.egSentstat_DIVERGED c.eg (b2n y.dv)
        sentProbes c q k oa ob entry xs
          { r1 with s := s4, hit := r.hit || y.dv, n := r.n + 1, seenA := s1.probeTern oa k x.r0 x.rows r.seenA,
                    seenB := s1.probeTern ob k x.c0 x.cols r.seenB }

/-- SENTINEL (R117 to R122). A probe that diverged under POLICY 1 to 3 posts its event and stands in FLAGS also where a later word is
uncorrectable and decides STATUS (R19); PENDING is then left, as it is set after the last probe (DEDUCED, log entry 47). -/
def State.runSentinel (s : State) (c : Cmd) : State :=
  let b := c.bytes
  let q := Sentinel.of b
  let m := (s.bound c.part (num b 36 4)).get
  let n := (s.bound c.part (num b 40 4)).get
  let k := (s.bound c.part (num b 44 4)).get
  let seed := s.pair .sysSentseedLo .sysSentseedHi c.part
  let ps := (List.range (ceilDiv m 256 * ceilDiv n 256)).filterMap (q.probe seed m n)
  let first := ps.headD ⟨0, 0, 0, 0, 0⟩
  let entry := s.escEntry c.part q.entry
  let oa : SentOp := ⟨q.fa, q.a, s.sentTsidx q.fa q.a k first.r0⟩
  let ob : SentOp := ⟨q.fb, q.b, s.sentTsidx q.fb q.b k first.c0⟩
  let r := sentProbes c q k oa ob entry ps ⟨s, false, 0, 0, ([], 0), ([], 0), none⟩
  let cyc := 64 + ps.length * (384 + k)
  let hit := r.hit && q.policy != 0
  let s0 := r.s.addCvt c.eg ⟨r.clamps, 0, 0, r.seenA.2 + r.seenB.2⟩
  let s1 := if hit && r.fail.isNone && q.policy == 2 then
      ((s0.note c.uid (.rmw (unitOf entry) 2048)).storeFor c.uid (entry + 8) [0x01#8]).touch c.uid c.part c.eg (entry + 8) 1 .atomic else s0
  let queue := match c.issuer with | .queue x => x | .core _ _ => 0
  let s2 := if hit then s1.event evSentinel St.sentinelDiverged (some c.part) (q.pass + 2 ^ 16 * q.layer + 2 ^ 32 * q.entry) queue
    else s1
  (Out.mk s2 r.fail).finish c
    { Result.mk0 (if hit then St.sentinelDiverged else St.ok) cyc with
      flags := if hit then [4] else [], abort := hit && q.policy == 3 }

/-- SENTINEL (R117): samples output tiles by seed and recomputes probes on the Basil cluster. -/
def execSentinel (i : Issuer) (s : State) : Host.Outcome State Fault Refusal :=
  inRange (issuerOk i) (fun _ => .next (s.issueRow i (isOp 0x12) State.sentinelCheck State.runSentinel))

/-! ## ESCALATE (R125) -/

/-- The checks of ESCALATE (R123, R125, R242). FIRST = 4,096 with COUNT = 0 keeps FIRST + COUNT within the limit and names no entry: it
runs (DEDUCED, log entry 47). -/
def State.escalateCheck (s : State) (c : Cmd) : Verdict :=
  let first := num c.bytes 8 2
  let cnt := num c.bytes 10 2
  .first
    [ .badIf (decide (4096 < first + cnt) || !allZero (sub c.bytes 14 18)),
      if cnt = 0 then .go else s.escVerdict c.part first cnt ]

/-- Processes entries from number e on, ascending; an uncorrectable unit is not written (R125, R323). -/
def escalateEntries (c : Cmd) (pass : Nat) : Nat → Nat → Out → Out
  | 0, _, o => o
  | n + 1, e, o =>
    if o.fail.isSome then o
    else
      let a := o.s.escEntry c.part e
      match o.s.badIn (unitOf a) 2048 with
      | some x => o.stop (some (St.ecc, x))
      | none =>
        let lv := (o.s.byteAt (a + 9)).toNat
        let up := o.s.byteAt (a + 8) == 0x01#8 && decide (lv < (o.s.byteAt (a + 10)).toNat)
        let s0 := o.s.note c.uid (.rmw (unitOf a) 2048)
        let s1 := if up then (s0.storeFor c.uid (a + 9) [BitVec.ofNat 8 (lv + 1)]).storeFor c.uid (a + 12) (leBytes 2 pass) else s0
        let s2 := (s1.storeFor c.uid (a + 8) [0x00#8]).touch c.uid c.part c.eg a 16 .atomic
        escalateEntries c pass n (e + 1) ⟨s2, none⟩

/-- ESCALATE: raises LEVEL of each pending entry below MAXLEVEL and clears PENDING (R125). -/
def State.runEscalate (s : State) (c : Cmd) : State :=
  let first := num c.bytes 8 2
  let cnt := num c.bytes 10 2
  (escalateEntries c (num c.bytes 12 2) cnt first ⟨s, none⟩).finish c (Result.mk0 St.ok (8 * cnt))

/-- ESCALATE (R125): atomically raises LEVEL of each pending escalation entry below MAXLEVEL and clears PENDING. -/
def execEscalate (i : Issuer) (s : State) : Host.Outcome State Fault Refusal :=
  inRange (issuerOk i) (fun _ => .next (s.issueRow i (isOp 0x04) State.escalateCheck State.runEscalate))

end Sys2Proof.Machine
end

