-- ==== Sys2Proof/Machine/Sched.lean ====
section
/-!
DEFINITION. Schedule wheels, jobs and pre-emption (R439 to R453, R459): entries of a wheel, writes of the wheel and job
registers, SAVE, RESUME and the clearing of a job's counters, and lending mode (R447).
-/

set_option Elab.async false

namespace Sys2Proof.Machine

open Sys2Proof

/-! ## Wheel entries (R441, R443, R445) -/

/-- Takes the pending writes of a wheel, as it starts entry 0 (R445). -/
def State.takeWheelWrites (s : State) (eg : Nat) : State :=
  let w := s.wheel eg
  let s1 := w.entries.foldl (fun t iv => t.setReg .cpWheel (64 * eg + iv.1) iv.2) s
  let s2 := match w.wlen with | some v => s1.setReg .cpWlen eg v | none => s1
  s2.setWheel eg { w with wlen := none, entries := [] }

/-- The queues and posted streams with a decoded command for an engine group. -/
def State.issuersAt (s : State) (eg : Nat) : List (Issuer × Decoded) :=
  let qs := ((s.window (eg / 32)).map (fun d => d.queue)).eraseDups
  (qs.map Issuer.queue ++ (List.range 16).map (Issuer.core eg)).filterMap (fun i =>
    match s.nextOf i with
    | some d => if s.cmdEg i d.bytes = eg then some (i, d) else none
    | none => none)

/-- Counts the commands of the entry's job that would issue to a unit another job still holds (R443). -/
def State.entryOverruns (s : State) (eg : Nat) : State :=
  (s.issuersAt eg).foldl (fun t x => if t.ready x.1 x.2 && t.unitWait x.1 x.2 == some true then t.noteOverrun x.1 x.2 else t) s

/-- Starts a wheel at entry 0 in a cycle (R441). -/
def State.startWheel (s : State) (eg t : Nat) : State :=
  let s1 := (s.takeWheelWrites eg).setFld F.cpWstat_ENTRY eg 0
  s1.setWheel eg { s1.wheel eg with running := true, start := t, hold := 0 }

/-- The wheel of an engine group holds through the overruns whose commands still wait (R443, R499). -/
def State.holdOverruns (s : State) (eg : Nat) : State :=
  ((s.issuersAt eg).filter (fun x => s.ready x.1 x.2 && s.unitWait x.1 x.2 == some true)).foldl (fun t x => t.holdOverrun eg x.2) s

/-- A wheel as its current entry would end: in that cycle, held by the overruns that last until it (R441, R499). -/
def State.entryHeld (s : State) (eg : Nat) : State := (s.until (s.entryEnd eg)).holdOverruns eg

/-- A wheel moves on to its next entry as the current one ends (R441), with no overrun holding it. -/
def State.nextEntry (s : State) (eg : Nat) : State :=
  let t := s.entryEnd eg
  let e := s.fld F.cpWstat_ENTRY eg + 1
  let s1 := s.until t
  let s2 := if e < s.wheelLen eg then
      (s1.setFld F.cpWstat_ENTRY eg e).setWheel eg { s1.wheel eg with start := t, hold := 0 }
    else s1.startWheel eg t
  s2.entryOverruns eg

/-- WHEEL_ENTRY_START (R441): the wheel advances to its next entry, giving issue to that entry's job. While an overrun holds it, it
stays in its entry, which then ends later (R499). -/
def execWheelEntryStart (eg : Nat) (s : State) : Host.Outcome State Fault Refusal :=
  inRange (eg < 128) (fun _ =>
    .next (if !(s.wheel eg).running then s
      else if s.entryEnd eg < (s.entryHeld eg).entryEnd eg then s.entryHeld eg
      else s.nextEntry eg))

/-- Whether a job of a partition is RUNNING, SAVING or RESUMING (R445). -/
def State.jobLive (s : State) (p j : Nat) : Bool :=
  let k := s.jobState p j
  k == 1 || k == 2 || k == 4

/-- The partition an engine group's wheel registers belong to. -/
def State.wheelPart (s : State) (isLen : Bool) (n : Nat) : Option Nat := s.egPart (if isLen then n else n / 64)

/-- Whether a half of a CP_WHEEL word names a live job of a partition. -/
def State.halfLive (s : State) (p h : Nat) : Bool := bit h 3 && s.jobLive p (h % 8)

/-- Whether a write of CP_WHEEL or CP_WLEN must be ignored: it changes an entry of a live job, as it was or as it would be, or
the number of entries while any job of the partition is live (R445). -/
def State.wheelWriteBad (s : State) (isLen : Bool) (n : Nat) (v : Word) : Bool :=
  match s.wheelPart isLen n with
  | none => false
  | some p =>
    if isLen then v.toNat % 256 != s.fld F.cpWlen_ENTRIES n && (List.range 8).any (s.jobLive p)
    else
      let old := (s.reg .cpWheel n).toNat
      [0, 16].any (fun lo =>
        let a := bits old lo 16
        let b := bits v.toNat lo 16
        a != b && (s.halfLive p a || s.halfLive p b))

/-- A write of CP_WHEEL or CP_WLEN (R445): it takes effect when the wheel next starts entry 0. -/
def State.writeWheel (s : State) (isLen : Bool) (n : Nat) (v : Word) : State :=
  if s.wheelWriteBad isLen n v then s.writeIgnored (if isLen then .cpWlen else .cpWheel) n (s.wheelPart isLen n) v
  else if isLen then s.setWheel n { s.wheel n with wlen := some (v &&& 0xFF#32) }
  else s.setWheel (n / 64) { s.wheel (n / 64) with entries := (s.wheel (n / 64)).entries ++ [(n % 64, v)] }

/-- CP_WHEEL_WRITE (R445): a schedule-wheel write is ignored for running jobs or takes effect at entry 0. -/
def execCpWheelWrite (who : Requester) (isLen : Bool) (n : Nat) (v : Word) (s : State) : Host.Outcome State Fault Refusal :=
  inRange (n < if isLen then 128 else 8192) (fun _ =>
    .next (s.gated who (if isLen then .cpWlen else .cpWheel) n (s.writeWheel isLen n v)))

/-! ## Job registers (R440, R453) -/

/-- The sum of SLOTS of the valid jobs of a partition, with job j configured by the word given (R440). -/
def State.slotSum (s : State) (p j : Nat) (v : Word) : Nat :=
  ((List.range 8).map (fun i =>
    let w := if i = j then v.toNat else (s.reg .cpJob (8 * p + i)).toNat
    if bit w 0 then bits w 1 3 else 0)).sum

/-- A job's saved commands. -/
def State.savedOf (s : State) (p j : Nat) : List SavedJob := Sparse.rd (fun _ => []) (8 * p + j) s.saved

/-- Replaces a job's saved commands. -/
def State.setSaved (s : State) (p j : Nat) (l : List SavedJob) : State :=
  { s with saved := Sparse.wr (fun _ => []) (8 * p + j) l s.saved }

/-- The most slots that a saved job held on one engine group (R453). -/
def State.savedHeld (s : State) (p j : Nat) : Nat := (s.savedOf p j).foldl (fun m x => max m x.images.length) 0

/-- A write of CP_JOB (R440, R453). -/
def State.writeJob (s : State) (n : Nat) (v : Word) : State :=
  let p := n / 8
  let j := n % 8
  if 4 < s.slotSum p j v || (s.jobState p j == 3 && decide (bits v.toNat 1 3 < s.savedHeld p j)) then
    s.writeIgnored .cpJob n (some p) v
  else (s.setReg .cpJob n (plainWrite .cpJob false (s.reg .cpJob n) v)).settleJob p j

/-- CP_JOB_WRITE (R440): a CP_JOB write that would oversubscribe slots, or lower a saved job's SLOTS, is ignored. -/
def execCpJobWrite (who : Requester) (n : Nat) (v : Word) (s : State) : Host.Outcome State Fault Refusal :=
  inRange (n < 64) (fun _ => .next (s.gated who .cpJob n (s.writeJob n v)))

/-! ## Lending (R447) -/

/-- A write of SYS_PARTCFG: LEND changes only in Winter or Autumn (R447). A partition that enters lending mode in Autumn stops
being clean (R497, R506). -/
def State.writePartcfg (s : State) (p : Nat) (v : Word) : State :=
  let s1 := s.setFld F.sysPartcfg_BORROWMAX p (bits v.toNat 1 8)
  if s.season p = winter ∨ s.season p = autumn then
    let s2 := s1.setFld F.sysPartcfg_LEND p (v.toNat % 2)
    if s.season p = autumn ∧ v.toNat % 2 = 1 then s2.setFld F.sysDetstat_BROKEN p 1 else s2
  else s1

/-- SYS_PARTCFG_WRITE (R447): sets a partition's lending mode while it is in Winter or Autumn. -/
def execSysPartcfgWrite (who : Requester) (p : Nat) (v : Word) (s : State) : Host.Outcome State Fault Refusal :=
  inRange (p < 8) (fun _ => .next (s.gated who .sysPartcfg p (s.writePartcfg p v)))

/-! ## SAVE (R450, R451, R453) -/

/-- Whether a command is one of a job. -/
def Cmd.ofJob (c : Cmd) (p j : Nat) : Bool := c.part == p && c.job == j

/-- TE commands of a job in flight on an engine group that have drains or steps to come. -/
def State.teFlight (s : State) (p j eg : Nat) : List TeCmd :=
  (s.teOf eg).flight.filter (fun t => t.cmd.ofJob p j && !t.ended)

/-- Whether a command is one that a save of a job on an engine group waits for: not one of the command processor, whose waits may last,
nor a TE command, which stops where it is or has not begun (R450). -/
def State.awaited (s : State) (p j eg : Nat) (c : Cmd) : Bool :=
  c.ofJob p j && c.eg == eg && decide (0x08 ≤ hdrOpcode c.bytes) &&
    !(s.teFlight p j eg ++ (s.teOf eg).waiting).any (fun t => t.cmd.uid == c.uid)

/-- Commands of a job on other units of an engine group that have not completed (R450). -/
def State.unitsBusy (s : State) (p j eg : Nat) : Bool := s.cmdsInFlight.any (s.awaited p j eg)

/-- The state in which a job's last command on another unit has completed, where the completions are posted already (R450). -/
def State.untilUnits (s : State) (p j eg : Nat) : State :=
  if (s.cp.inflight ++ s.cp.parked.map (fun k => k.cmd)).any (s.awaited p j eg) then s
  else s.until ((s.cp.collector.flatMap (fun kv => kv.2.filter (fun k => s.awaited p j eg k.cmd))).foldl (fun m k => max m k.posted) s.cycle)

/-- Whether a job has anything in flight on an engine group. -/
def State.jobOn (s : State) (p j eg : Nat) : Bool := !(s.teFlight p j eg).isEmpty || s.unitsBusy p j eg

/-- The save area of a job for the engine group of rank r (R451). -/
def State.saveArea (s : State) (p j r : Nat) : Nat :=
  s.pair .cpJsaveLo .cpJsaveHi (8 * p + j) / 2048 * 2048 + r * 0x108000

/-- The first address of a job's save area that its partition's windows do not hold in T1 or a map store (R451, R453). -/
def State.saveRefused (s : State) (p j : Nat) : Option Nat :=
  let a := s.saveArea p j 0
  let n := (s.egsOf p).length * 0x108000
  if n = 0 then none else if !inMsT1 a n then some a else s.writeRefused p a n

/-- A job whose engine groups have all saved is SAVED. -/
def State.settleSave (s : State) (p j : Nat) : State :=
  if s.jobState p j = 2 && !(s.egsOf p).any (s.jobOn p j) then s.setFld F.cpJstat_STATE (8 * p + j) 3 else s

/-- ACTION = SAVE (R450, R453): the job issues no more, and its TE commands stop where they are. -/
def State.saveJob (s : State) (p j : Nat) : State :=
  let k := 8 * p + j
  if 2 ≤ s.jobState p j then s.writeIgnored .cpJctl 0 (some p) (BitVec.ofNat 32 (p + 8 * j + 64))
  else if !(s.egsOf p).any (s.jobOn p j) then s.setFld F.cpJstat_STATE k 3
  else if (s.saveRefused p j).isSome then
    s.event evWriteIgnored St.quota (some p) (regSpace + regOffset .cpJctl 0) (p + 8 * j + 64)
  else
    let stop := fun (t : TeCmd) => if t.cmd.ofJob p j then ({ t with stopped := true } : TeCmd) else t
    ({ s with te := s.te.map (fun (kv : Nat × Te) => (kv.1, { kv.2 with flight := kv.2.flight.map stop })) } : State).setFld F.cpJstat_STATE k 2

/-- JOB_SAVE (R450): CP_JCTL ACTION SAVE stops a job's issue and in-flight TE commands at their next step boundary. -/
def execJobSave (who : Requester) (p j : Nat) (s : State) : Host.Outcome State Fault Refusal :=
  inRange (p < 8 && j < 8) (fun _ => .next (s.gated who .cpJctl 0 (s.saveJob p j)))

/-- The save of a job on one engine group (R450, R451): slots and state records go to the save area and the slots are free. -/
def State.saveOn (s : State) (p j eg : Nat) : State :=
  let ts := s.teFlight p j eg
  let held := ts.flatMap (fun t => t.slots)
  let base := s.saveArea p j (s.egRank p eg)
  let len := held.length * 0x40000 + 0x8000
  let s1 := (s.until (s.cycle + 96 + ceilDiv (held.length * 0x40000) 256)).draw
  let s2 := (s1.store base (freeBytes s1.free len)).touch 0 p eg base len .write
  let te := s2.teOf eg
  let s3 := s2.setTe eg { te with flight := te.flight.filter (fun t => t.ended || !t.cmd.ofJob p j) }
  s3.setSaved p j (s3.savedOf p j ++
    [⟨eg, ts, held.map (fun k => (k, s.read (slotBase eg k) 0x40000)), base, len, s1.free⟩])

/-- SAVE_BEGIN (R450): once a job's commands have stopped on an engine group, its held slots and state records are saved. -/
def execSaveBegin (eg j : Nat) (s : State) : Host.Outcome State Fault Refusal :=
  inRange (eg < 128 && j < 8) (fun _ => .next (match s.egPart eg with
    | none => s
    | some p =>
      let t := s.untilUnits p j eg
      if s.jobState p j ≠ 2 || t.unitsBusy p j eg then s
      else (if (t.teFlight p j eg).isEmpty then t else t.saveOn p j eg).settleSave p j))

/-! ## RESUME (R452, R453) -/

/-- A command fabricated to carry out a load of the reload list again. -/
def reloadCmd (p j eg : Nat) (b : List Byte) : Cmd :=
  { issuer := .queue 0, uid := 0, bytes := b, field := eg / 32, eg := eg, part := p, job := j, unit := eg, seq := 0, issued := 0,
    ticket := 0, slotMiss := 0, overrun := false, squashed := false, early := [], late := 0, heldTo := 0, ecc := none }

/-- Executes the reload list of a job on an engine group again, oldest first, until one fails (R452). -/
def reloadAll (p j eg : Nat) : List ReloadEntry → Out → Out
  | [], o => o
  | e :: es, o => if o.fail.isSome then o else reloadAll p j eg es (o.s.doTload (reloadCmd p j eg e.bytes) e.rows e.k)

/-- The slot that takes the place of a saved one. -/
def newSlot (map : List (Nat × Nat)) (k : Nat) : Nat := ((map.find? (fun x => x.1 == k)).map (fun x => x.2)).getD k

/-- A saved command in its new slots, from a cycle on. -/
def TeCmd.restore (t : TeCmd) (map : List (Nat × Nat)) (cyc : Nat) : TeCmd :=
  let g := newSlot map
  { t with
    slots := t.slots.map g
    tiles := t.tiles.map (fun x => { x with slot := x.slot.map g })
    drains := t.drains.map (fun x => { x with slot := g x.slot })
    freed := t.freed.map (fun x => (g x.1, x.2))
    at_ := max t.at_ cyc
    stopped := false }

/-- Puts the slot images back (R452); an area that was written since the save gives free bytes. -/
def State.restoreSlots (s : State) (x : SavedJob) (map : List (Nat × Nat)) : State :=
  let intact := s.read x.base x.len == freeBytes x.key x.len
  let s1 := if intact then s else s.draw
  x.images.foldl (fun t im => t.store (slotBase x.eg (newSlot map im.1)) (if intact then im.2 else freeBytes s1.free 0x40000)) s1

/-- The cycle in which the restore of a job on one engine group ends: the table time of the loads, and T_in where commands were saved
(R452). -/
def State.resumeEnd (s : State) (p j eg : Nat) : Nat :=
  let load := ((s.reloadList p j eg).map (fun e => tloadCycles e.bytes e.rows e.k)).sum
  match (s.savedOf p j).find? (fun x => x.eg == eg) with
  | some x => s.cycle + load + 96 + ceilDiv (x.images.length * 0x40000) 256
  | none => s.cycle + load

/-- RESUME on one engine group (R452): the reload list, the slot images, the stopped commands, which go on when the restore has
ended. -/
def State.resumeOn (s : State) (p j eg : Nat) : State :=
  let l := s.reloadList p j eg
  let o := reloadAll p j eg l ⟨s, none⟩
  let x := (s.savedOf p j).find? (fun x => x.eg == eg)
  let cmds := (x.map (fun x => x.cmds)).getD []
  let fin := s.resumeEnd p j eg
  let s1 := o.s
  let bad := x.bind (fun x => s.badIn x.base x.len)
  match (o.fail.map (fun f => f.2)).or bad with
  | some a =>
    let s2 := if (s1.badIn a 1).isSome then s1.noteUe a else s1
    cmds.foldl (fun t k => t.finish k.cmd (Result.at St.ecc a (fin + 16 - k.cmd.issued))) s2
  | none => match x with
    | none => s1
    | some x =>
      let map := (x.images.map (fun im => im.1)).zip (s1.teNow eg).freeSlots
      let s2 := (s1.restoreSlots x map).touch 0 p eg x.base x.len .read
      let te := s2.teOf eg
      s2.setTe eg { te with flight := te.flight ++ x.cmds.map (fun t => t.restore map fin) }

/-- ACTION = RESUME (R452, R453): the engine groups restore at once, and the job is RESUMING until the last of them has ended. -/
def State.resumeJob (s : State) (p j : Nat) : State :=
  let k := 8 * p + j
  if s.jobState p j ≠ 3 then s.writeIgnored .cpJctl 0 (some p) (BitVec.ofNat 32 (p + 8 * j + 128))
  else
    let s1 := (s.egsOf p).foldl (fun t eg => t.resumeOn p j eg) s
    let fin := (s.egsOf p).foldl (fun m eg => max m (s.resumeEnd p j eg)) s.cycle
    let s2 := ((s1.setSaved p j []).setFld F.cpJstat_STATE k 4).setJob p j { s1.job p j with resume := fin }
    s2.settleJob p j

/-- JOB_RESUME (R452): re-executes the reload list, restores slots and resumes the stopped steps. -/
def execJobResume (who : Requester) (p j : Nat) (s : State) : Host.Outcome State Fault Refusal :=
  inRange (p < 8 && j < 8) (fun _ => .next (s.gated who .cpJctl 0 (s.resumeJob p j)))

/-- ACTION = 3: clears the job's CP_JHIST, CP_JDLCNT and CP_JWAIT (R459). -/
def State.clearJobStats (s : State) (p j : Nat) : State :=
  let k := 8 * p + j
  let s1 := (List.range 16).foldl (fun t b => t.setReg .cpJhist (16 * k + b) 0#32) s
  (s1.setReg .cpJdlcnt k 0#32).setReg .cpJwait k 0#32

/-- JOB_STATS_CLEAR (R459). -/
def execJobStatsClear (who : Requester) (p j : Nat) (s : State) : Host.Outcome State Fault Refusal :=
  inRange (p < 8 && j < 8) (fun _ => .next (s.gated who .cpJctl 0 (s.clearJobStats p j)))

/-- A write of CP_JCTL by its ACTION (R459). -/
def State.writeJctl (s : State) (v : Word) : State :=
  let p := bits v.toNat 0 3
  let j := bits v.toNat 3 3
  match bits v.toNat 6 2 with
  | 1 => s.saveJob p j
  | 2 => s.resumeJob p j
  | 3 => s.clearJobStats p j
  | _ => s

/-- A write of CP_QJOB: ignored while the queue is enabled (R445). -/
def State.writeQjob (s : State) (q : Nat) (v : Word) : State :=
  if s.flag F.qCfg_ENABLE q then s else s.setFld F.cpQjob_JOB q (v.toNat % 8)

end Sys2Proof.Machine
end

