-- ==== Sys2Proof/Machine/Clears.lean ====
section
/-!
DEFINITION. The CLEAR registers: a write of 1 to CLEAR (or ERRCLR) clears the counts its table names (R13, and the registers of
each chapter).
-/

set_option Elab.async false

namespace Sys2Proof.Machine

open Sys2Proof

/-- Clears the conversion counters of an engine group (R75). -/
def State.clearCvt (s : State) (n : Nat) : State := (s.setReg .teCvtcnta n 0#32).setReg .teCvtcntb n 0#32

/-- Clears the ECC and slot-miss counts of a controller (R327). -/
def State.clearMem (s : State) (n : Nat) : State := (s.setReg .memEccstat n 0#32).setReg .memSlotmiss n 0#32

/-- Clears the update counters of an engine group (R475). -/
def State.clearTrn (s : State) (n : Nat) : State := (s.setReg .trnStat n 0#32).setReg .trnFrozen n 0#32

/-- Clears PWR_OVER of every partition and SAGCNT (R495). -/
def State.clearPwr (s : State) : State :=
  ((List.range 8).foldl (fun t p => t.setReg .pwrOver p 0#32) s).setFld F.clkStat_SAGCNT 0 0

/-- Clears MISSES and OVERRUNS of a partition (R506). -/
def State.clearDet (s : State) (n : Nat) : State := (s.setFld F.sysDetstat_MISSES n 0).setFld F.sysDetstat_OVERRUNS n 0

/-- TE_CVTCLR (R75): a write of CLEAR clears the engine group's conversion counters. -/
def execTeCvtclr (who : Requester) (n : Nat) (s : State) : Host.Outcome State Fault Refusal :=
  inRange (n < 128) (fun _ => .next (s.gated who .teCvtclr n (s.clearCvt n)))

/-- TE_SPILLCLR (R106): a write of CLEAR clears TE_SPILLCNT. -/
def execTeSpillclr (who : Requester) (n : Nat) (s : State) : Host.Outcome State Fault Refusal :=
  inRange (n < 128) (fun _ => .next (s.gated who .teSpillclr n (s.setReg .teSpillcnt n 0#32)))

/-- EG_SENTCLR (R126): a write of CLEAR clears EG_SENTSTAT. -/
def execEgSentclr (who : Requester) (n : Nat) (s : State) : Host.Outcome State Fault Refusal :=
  inRange (n < 128) (fun _ => .next (s.gated who .egSentclr n (s.setReg .egSentstat n 0#32)))

/-- SFU_STATCLR (R153): a write of CLEAR clears SFU_STAT. -/
def execSfuStatclr (who : Requester) (n : Nat) (s : State) : Host.Outcome State Fault Refusal :=
  inRange (n < 128) (fun _ => .next (s.gated who .sfuStatclr n (s.setReg .sfuStat n 0#32)))

/-- CP_STATCLR (R267): a write of CLEAR clears SQUASHCNT. -/
def execCpStatclr (who : Requester) (n : Nat) (s : State) : Host.Outcome State Fault Refusal :=
  inRange (n < 4) (fun _ => .next (s.gated who .cpStatclr n (s.setFld F.cpStat_SQUASHCNT n 0)))

/-- MEM_STATCLR (R327): a write of CLEAR clears the controller's ECC and slot-miss counts. -/
def execMemStatclr (who : Requester) (n : Nat) (s : State) : Host.Outcome State Fault Refusal :=
  inRange (n < 216) (fun _ => .next (s.gated who .memStatclr n (s.clearMem n)))

/-- CMP_STATCLR (R346): a write of CLEAR clears CMP_STAT of a coder. -/
def execCmpStatclr (who : Requester) (n : Nat) (s : State) : Host.Outcome State Fault Refusal :=
  inRange (n < 130) (fun _ => .next (s.gated who .cmpStatclr n (s.setReg .cmpStat n 0#32)))

/-- LNK_STATCLR (R386): a write of CLEAR clears LNK_ERRCNT. -/
def execLnkStatclr (who : Requester) (n : Nat) (s : State) : Host.Outcome State Fault Refusal :=
  inRange (n < 6) (fun _ => .next (s.gated who .lnkStatclr n (s.setReg .lnkErrcnt n 0#32)))

/-- ETH_DROPCLR (R415): a write of CLEAR clears ETH_DROP. -/
def execEthDropclr (who : Requester) (n : Nat) (s : State) : Host.Outcome State Fault Refusal :=
  inRange (n < 4) (fun _ => .next (s.gated who .ethDropclr n (s.setReg .ethDrop n 0#32)))

/-- TRN_STATCLR (R475): a write of CLEAR clears TRN_STAT and TRN_FROZEN. -/
def execTrnStatclr (who : Requester) (n : Nat) (s : State) : Host.Outcome State Fault Refusal :=
  inRange (n < 128) (fun _ => .next (s.gated who .trnStatclr n (s.clearTrn n)))

/-- PWR_STATCLR (R495): a write of CLEAR clears PWR_OVER and SAGCNT. -/
def execPwrStatclr (who : Requester) (s : State) : Host.Outcome State Fault Refusal :=
  .next (s.gated who .pwrStatclr 0 s.clearPwr)

/-- SYS_DETCLR (R506): a write of CLEAR clears MISSES and OVERRUNS. -/
def execSysDetclr (who : Requester) (n : Nat) (s : State) : Host.Outcome State Fault Refusal :=
  inRange (n < 8) (fun _ => .next (s.gated who .sysDetclr n (s.clearDet n)))

/-- CP_WSTATCLR (R459): a write of CLEAR clears OVERRUNS of a wheel. -/
def execCpWstatclr (who : Requester) (n : Nat) (s : State) : Host.Outcome State Fault Refusal :=
  inRange (n < 128) (fun _ => .next (s.gated who .cpWstatclr n (s.setFld F.cpWstat_OVERRUNS n 0)))

/-- ERRCLR (R554): a write of ERRCLR clears PCI_ERRCNT of the port. -/
def execErrclr (who : Requester) (n : Nat) (s : State) : Host.Outcome State Fault Refusal :=
  inRange (n < 2) (fun _ => .next (s.gated who .pciVfctl n (s.setReg .pciErrcnt n 0#32)))

/-- The effect of a write of 1 to the CLEAR bit of a CLEAR register; none for other registers. -/
def State.clearOf (s : State) (n : RegName) (i : Nat) : Option State :=
  match n with
  | .teCvtclr => some (s.clearCvt i)
  | .teSpillclr => some (s.setReg .teSpillcnt i 0#32)
  | .egSentclr => some (s.setReg .egSentstat i 0#32)
  | .sfuStatclr => some (s.setReg .sfuStat i 0#32)
  | .cpStatclr => some (s.setFld F.cpStat_SQUASHCNT i 0)
  | .memStatclr => some (s.clearMem i)
  | .cmpStatclr => some (s.setReg .cmpStat i 0#32)
  | .lnkStatclr => some (s.setReg .lnkErrcnt i 0#32)
  | .ethDropclr => some (s.setReg .ethDrop i 0#32)
  | .trnStatclr => some (s.clearTrn i)
  | .pwrStatclr => some s.clearPwr
  | .sysDetclr => some (s.clearDet i)
  | .cpWstatclr => some (s.setFld F.cpWstat_OVERRUNS i 0)
  | _ => none

/-- A write of a register of an engine-group block: its CLEAR action, or its access types (R13); one that clears MALFORMED or
ECC_UNCORRECTED of WAG_STAT clears its count as well (R208). -/
def State.writeEgReg (s : State) (n : RegName) (i : Nat) (v : Word) : State :=
  match s.clearOf n i with
  | some t => if v.toNat % 2 = 1 then t else s
  | none =>
    let s1 := s.setReg n i (plainWrite n false (s.reg n i) v)
    if n = .wagStat ∧ bits v.toNat 1 2 ≠ 0 then s1.setFld F.wagStat_NONFINITE_COUNT i 0 else s1

end Sys2Proof.Machine
end

