-- ==== Sys2Proof/Machine/Ce.lean ====
section
/-!
DEFINITION. The collective engine: its messages (R364, R366) and sends (R367 to R370). A CE reads, converts and cuts the data of a
send when its GRANT arrives, and lands a message when its last frame has arrived.
-/

set_option Elab.async false

namespace Sys2Proof.Machine

open Sys2Proof

/-! ## Groups and messages -/

/-- A group's entry and queue. -/
def State.group (s : State) (g : Nat) : Group := Sparse.rd (fun _ => Group.reset) g s.groups

/-- Replaces a group's entry and queue. -/
def State.setGroup (s : State) (g : Nat) (v : Group) : State :=
  { s with groups := Sparse.wr (fun _ => Group.reset) g v s.groups }

/-- STATE of a group: 0 DISABLED, 1 READY, 2 HALTED. -/
def State.groupState (s : State) (g : Nat) : Nat := s.fld F.ceGrpstat_STATE g

/-- The packed coordinates of a member entry (R371). -/
def memCoord (e : Nat) : Nat := e % 4096

/-- The partition of a member entry. -/
def memPart (e : Nat) : Nat := bits e 12 3

/-- The rank of a member, from its coordinates and partition. -/
def Group.rankOf (g : Group) (coord part : Nat) : Option Nat :=
  g.members.findIdx? (fun e => memCoord e == coord && memPart e == part)

/-- Whether a message belongs to a collective: NOTICE, CDATA, and those whose CMDID has the top bit set (log entry 25). -/
def CtlMsg.isColl (m : CtlMsg) : Bool := m.kind == kNotice || m.kind == kCdata || bit m.cmdid 63

/-- The die whose CE takes a message that lands on die `d`: the group's HOME, or the die of the send that is answered (R373). -/
def State.ceFor (s : State) (d : Nat) (m : CtlMsg) : Nat :=
  if m.isColl then (if s.groupState m.group = 0 then d else (s.group m.group).home)
  else if m.kind = kGrant ∨ m.kind = kLandack ∨ m.kind = kReply then
    (if (s.ceOf (1 - d)).sends.any (fun x => x.cmd.uid == m.cmdid) then 1 - d else d)
  else d

/-- A message waits for the CE that takes it. -/
def State.pushMsg (s : State) (d : Nat) (x : InMsg) : State :=
  let e := s.ceFor d x.head
  s.setCe e { s.ceOf e with inbox := (s.ceOf e).inbox ++ [x] }

/-- The frames of a message (R366): a CTRL frame, or a HEAD frame and one DATA frame for each 256 bytes. -/
def messageFrames (m : CtlMsg) (dest dpart mid : Nat) (data : Option (List Byte)) : List Frame :=
  match data with
  | none => [⟨tyCtrl, 4, dest, dpart, mid, 0, 63, true, m.bytes⟩]
  | some bs =>
    let vc := if m.kind = kCdata then 2 else 0
    let ps := pieces 256 (ceilDiv bs.length 256) bs
    ⟨tyHead, vc, dest, dpart, mid, 0, 63, ps.isEmpty, m.bytes⟩ ::
      ps.zipIdx.map (fun (x : List Byte × Nat) =>
        (⟨tyData, vc, dest, dpart, mid, x.2, x.1.length - 1, decide (x.2 + 1 = ps.length), x.1⟩ : Frame))

/-- The CE of die `d` sends a message; one to this device's own coordinates lands at once. -/
def State.sendMsg (s : State) (d : Nat) (m : CtlMsg) (dest dpart : Nat) (data : Option (List Byte)) : State :=
  if dest = s.ownCoord then s.pushMsg d ⟨m, dpart, data⟩
  else
    let c := s.ceOf d
    s.setCe d { c with out := c.out ++ messageFrames m dest dpart c.mid data, mid := (c.mid + 1) % 4096 }

/-- An answer to a message: same command identity and transfer, from this device's partition (R366). -/
def State.answer (s : State) (d : Nat) (peer : InMsg) (m : CtlMsg) : State :=
  s.sendMsg d { m with spart := peer.dpart, srcc := s.ownCoord, group := peer.head.group, xfer := peer.head.xfer, cmdid := peer.head.cmdid }
    peer.head.srcc peer.head.spart none

/-- A REPLY with a status and a failing address (R364, R370). -/
def State.reply (s : State) (d : Nat) (peer : InMsg) (st : Byte) (addr : Nat) : State :=
  s.answer d peer { CtlMsg.zero with kind := kReply, status := st.toNat, addr := addr }

/-- Whether a partition takes messages: Summer or Autumn (R364). -/
def State.takesMessages (s : State) (p : Nat) : Bool := s.season p == summer || s.season p == autumn

/-! ## SEND and QSEND (R367 to R370) -/

/-- The fields of SEND (R367) and QSEND (R368). -/
structure SendArgs where
  quant  : Bool
  src    : Nat
  dst    : Nat
  lenW   : Nat
  rowsW  : Nat
  srcLd  : Nat
  dstLd  : Nat
  srcFmt : Nat
  xc     : Nat
  rslot  : Nat
  dpart  : Nat
  rso    : Nat
  ctl    : Nat
  due    : Nat
  cvt    : Cvt
  bad    : Bool      -- a reserved bit is set
  deriving DecidableEq, Repr

/-- Reads the fields of a SEND or QSEND. -/
def SendArgs.of (b : List Byte) : SendArgs :=
  if hdrOpcode b = 0x40 then
    { quant := false, src := num b 8 8, dst := num b 16 8, lenW := num b 24 4, rowsW := num b 28 4, srcLd := num b 32 4,
      dstLd := num b 36 4, srcFmt := 0, xc := 0, rslot := 0, dpart := num b 40 1, rso := num b 42 2, ctl := num b 41 1,
      due := num b 44 4, cvt := Cvt.ofBytes [], bad := !allZero (sub b 48 16) }
  else
    { quant := true, src := num b 8 8, dst := num b 16 8, lenW := num b 24 4, rowsW := num b 28 4, srcLd := num b 32 4,
      dstLd := 0, srcFmt := num b 36 1, xc := num b 37 1, rslot := num b 38 1, dpart := num b 39 1, rso := num b 40 2,
      ctl := num b 42 1, due := num b 44 4, cvt := Cvt.ofBytes (sub b 48 16),
      bad := !allZero (sub b 43 1) || !allZero (sub b 64 16) }

/-- Coordinates a remote address names, packed as DEST (R286). -/
def remoteCoord (a : Nat) : Nat := bits a 56 4 + 16 * bits a 52 4 + 256 * bits a 48 4

/-- Whether an address is remote: another device's (R286). -/
def State.isRemote (s : State) (a : Nat) : Bool := bits a 60 4 == 8 && remoteCoord a != s.ownCoord

/-- Coded by the sender. -/
def SendArgs.coded (a : SendArgs) : Bool := a.xc % 4 == 1

/-- The format byte of a QSEND's bursts. -/
def SendArgs.fb (a : SendArgs) : Nat := a.cvt.fmt + 16 * b2n a.cvt.blk + 32 * b2n a.cvt.scl

/-- The die whose CE runs a send: that of the first port of its path (log entry 26). -/
def State.sendDie (s : State) (dst : Nat) : Nat :=
  match s.route (remoteCoord dst) with | some r => r.1 % 2 | none => 0

/-- The converting descriptor that a QSEND stands for: CONVERT of its source under its CVT. -/
def SendArgs.dma (a : SendArgs) : Dma :=
  { src := a.src, dst := 0, lenW := a.lenW, rowsW := a.rowsW, srcLd := a.srcLd, dstLd := 0, op := 1, dtype := 0,
    srcFmt := a.srcFmt, xc := 0, flags := 0, aux := 0, cvt := a.cvt }

/-- Bytes of a source row. -/
def SendArgs.rowLen (a : SendArgs) (len : Nat) : Nat := if a.quant then fmtRow a.srcFmt len else len

/-- The format rules of QSEND (R368, R370). -/
def State.qsendBad (s : State) (p : Nat) (a : SendArgs) : Bool :=
  let wide := match byteFmt a.srcFmt with | some f => !f.narrow && !f.isScale | none => true && false
  !wide || s.cvtBad p a.cvt || !codeNarrow a.cvt.fmt || 2 ≤ a.xc % 4 || bit a.xc 5 || bit a.xc 7 || decide (7 < a.rslot) ||
    a.dst % 2048 != 0

/-- The table a coded QSEND captures (R339, R341). -/
def State.sendTable (s : State) (a : SendArgs) : List Byte :=
  let n := 128 + s.sendDie a.dst
  let slot := a.xc / 4 % 8
  s.codeTable n slot (s.codeActive n slot)

/-- The checks of SEND and QSEND (R367, R368, R370). -/
def State.sendCheck (s : State) (c : Cmd) : Verdict :=
  let a := SendArgs.of c.bytes
  let p := c.part
  let bl := s.bound p a.lenW
  let br := s.bound p a.rowsW
  let len := bl.get
  let rows := br.get
  let known := bl.known && br.known && len ≠ 0 && rows ≠ 0
  let n := span rows a.srcLd (a.rowLen len)
  let s1 := s.codeFlip (128 + s.sendDie a.dst) s.cycle none
  let tab := s1.sendTable a
  .first
    [ .badIf (a.bad || !s.isRemote a.dst || decide (7 < a.dpart) || decide (1 < a.ctl)), .badIf (!a.quant && hdrRes c.bytes),
      .badIf (a.quant && s.qsendBad p a), .badIf (a.quant && a.coded && (tab.isEmpty || num tab 0 1 != a.fb)),
      bl.verdict, br.verdict,
      if !known then .go else .first
        [ .badIf (if a.quant then !inT0T1 a.src n else !inT0T1T2 a.src n),
          .quotaIf (firstRefused (s.readRefused false p) a.src a.srcLd rows (a.rowLen len)),
          s.residVerdict p (cmdResid c.bytes) (rows * len), if a.quant then s.cvtVerdict p a.cvt else .go ],
      .okIf (bl = .val 0 || br = .val 0) ]

/-- Sends the READY of a send (R369, R370). -/
def State.sendReady (s : State) (d : Nat) (x : Send) : State :=
  let a := SendArgs.of x.cmd.bytes
  s.sendMsg d { CtlMsg.zero with kind := kReady, spart := x.cmd.part, srcc := s.ownCoord, len := x.rows * a.rowLen x.len,
                                 cmdid := x.cmd.uid } (remoteCoord a.dst) a.dpart none

/-- Replaces a send of a CE, by its command. -/
def State.putSend (s : State) (d : Nat) (x : Send) : State :=
  s.setCe d { s.ceOf d with sends := (s.ceOf d).sends.map (fun y => if y.cmd.uid = x.cmd.uid then x else y) }

/-- A send as its completion names it: by the CE that runs it, also where it completes at issue (R383). -/
def State.sendNamed (s : State) (c : Cmd) : Cmd := { c with unit := 0x200 + s.sendDie (SendArgs.of c.bytes).dst }

/-- Issues a SEND or QSEND: its first READY leaves (R369). -/
def State.runSend (s : State) (c : Cmd) : State :=
  let a := SendArgs.of c.bytes
  let d := s.sendDie a.dst
  let s1 := if a.quant && a.coded then s.codeFlip (128 + d) s.cycle none else s
  let x : Send := { cmd := s.sendNamed c, rows := (s.bound c.part a.rowsW).get, len := (s.bound c.part a.lenW).get,
                    table := if a.coded then s1.sendTable a else [], scale := s.cvtScale c.part a.cvt, granted := false, tries := 1, refused := false, msgs := 0,
                    acked := 0, cvt := Counts.none, watched := false }
  (s1.setCe d { s1.ceOf d with sends := (s1.ceOf d).sends ++ [x] }).sendReady d x

/-- SEND (R367): copies a local range to a remote address after a READY and GRANT. -/
def execSend (i : Issuer) (s : State) : Host.Outcome State Fault Refusal :=
  inRange (issuerOk i) (fun _ => .next (s.issueRowAs i (isOp 0x40) State.sendCheck State.runSend State.sendNamed))

/-- QSEND (R368): quantises, optionally codes, and sends a wide tensor as Alhel bursts to a remote address. -/
def execQsend (i : Issuer) (s : State) : Host.Outcome State Fault Refusal :=
  inRange (issuerOk i) (fun _ => .next (s.issueRowAs i (isOp 0x41) State.sendCheck State.runSend State.sendNamed))

/-- Ends a send: it leaves its CE and completes (R369, R370). -/
def State.endSend (s : State) (d : Nat) (x : Send) (st : Byte) (addr : Nat) (flags : List Nat) : State :=
  let s1 := s.setCe d { s.ceOf d with sends := (s.ceOf d).sends.filter (fun y => y.cmd.uid != x.cmd.uid) }
  s1.finish x.cmd { Result.mk0 st (s1.cycle - x.cmd.issued) with addr := addr, flags := flags, cvt := x.cvt.list }

/-- A message of a send: payload and local destination address. -/
structure Piece where
  data : List Byte
  addr : Nat
  deriving DecidableEq, Repr

/-- 8 MiB: the most uncoded bytes of a message (R369). -/
def maxMessage : Nat := 0x800000

/-- Cuts a contiguous range into messages. -/
def cutPieces (addr : Nat) (data : List Byte) : List Piece :=
  (pieces maxMessage (ceilDiv data.length maxMessage) data).zipIdx.map (fun x => ⟨x.1, addr + x.2 * maxMessage⟩)

/-- What a send moves: its messages, what ends it early, and the state with its reads and its residual and scale writes made. -/
structure Payload where
  msgs : List Piece
  fail : Option (Byte × Nat)
  cvt  : Counts
  s    : State
  deriving DecidableEq, Repr

/-- The rows of a SEND that can be read, before the first uncorrectable word. -/
def State.goodRows (s : State) (a : SendArgs) (len rows : Nat) : Nat × Option Nat :=
  match (List.range rows).findSome? (fun r => (s.badIn (a.src + r * a.srcLd) len).map (fun x => (r, x))) with
  | some (r, x) => (r, some x)
  | none => (rows, none)

/-- The messages of a SEND (R367, R369): rows that land back to back are cut together. -/
def State.sendPayload (s : State) (x : Send) (a : SendArgs) : Payload :=
  let dst := a.dst % 2 ^ 48
  let g := s.goodRows a x.len x.rows
  let row := fun r => s.read (a.src + r * a.srcLd) x.len
  let ms :=
    if a.dstLd = x.len ∨ x.rows = 1 then
      let l := cutPieces dst ((List.range g.1).flatMap row)
      if g.2.isSome then l.filter (fun p => p.data.length == maxMessage) else l
    else (List.range g.1).flatMap (fun r => cutPieces (dst + r * a.dstLd) (row r))
  let reads := (List.range g.1).map (fun r => (a.src + r * a.srcLd, x.len))
  ⟨ms, g.2.map (fun b => (St.ecc, b)), Counts.none, (s.claimReads x.cmd reads).noteReads x.cmd reads⟩

/-- Lengths in bytes of the chunks of a stream, from its index. -/
def chunkLens (st : List Byte) (n : Nat) : List Nat := (List.range n).map (fun k => 64 * bits (num st (64 + 8 * k) 8) 32 10)

/-- Cuts chunks into messages of 256; the first also carries the header and index (log entry 27). -/
def cutChunks (dst : Nat) : Nat → Nat → List Nat → List Byte → List Piece
  | 0, _, _, _ => []
  | fuel + 1, m, lens, bs =>
    if lens.isEmpty then []
    else
      let n := (lens.take 256).foldl (· + ·) 0 + (if m = 0 then bs.length - lens.foldl (· + ·) 0 else 0)
      ⟨bs.take n, dst + m * maxMessage⟩ :: cutChunks dst fuel (m + 1) (lens.drop 256) (bs.drop n)

/-- The messages of a QSEND (R51 to R53, R108 to R113, R368, R369): bursts at DST, coded as one stream object when MODE is 1. Residual
rows are written as their source rows and planes have been read (R322); under TSM = 1 the source is read a second time (R53). -/
def State.qsendPayload (s : State) (x : Send) (a : SendArgs) : Payload :=
  let dst := a.dst % 2 ^ 48
  let c := x.cmd
  let d := a.dma
  let rs := cmdResid c.bytes
  let src := s.withPlane rs x.len (s.convertSource c.part d x.rows x.len)
  let claims := s.convertClaims c.part d rs x.rows x.len
  let rowReads := s.rowReads c.part d rs x.rows x.len
  let reads := readsUpTo src.fail rowReads.flatten
  let clash := s.planeClash c.uid rs (x.rows * x.len)
  let s1 := (s.claimReads c claims).notePlanes c rs (x.rows * x.len)
  match Fmt.ofCode a.cvt.fmt with
  | none => ⟨[], none, Counts.none, s1⟩
  | some f =>
    let q := s.narrowRows x.scale f a.cvt rs x.len src.rows
    let blocks := q.rows.flatten.map (fun b => b.block)
    let nb := burstN f a.cvt.blk
    let failed := src.fail.isSome
    -- after a failure only the messages that were whole before it go, and none of what needs the whole tensor
    let none_ := failed && (a.cvt.tsm == 1 || a.coded)
    let whole := if failed then blocks.length / nb / 4096 * 4096 else tensorBursts f a.cvt.blk x.rows x.len
    let bursts := (packBursts f a.cvt.blk a.cvt.scl a.cvt.trailerIdx whole (blocks.take (whole * nb))).flatten
    let puts := match rs with
      | some r => if none_ then [] else residPuts r clash f a.cvt.scl q.t x.len 0 (readCounts 0 rowReads) q.rows q.vals
      | none => []
    let o : Out :=
      if a.cvt.tsm = 1 then
        let o0 : Out := ⟨s1.noteReads c reads, none⟩
        if failed then o0
        else
          let o1 := o0.put c false (s.tsAddr c.part a.cvt.tsidx) (leBytes 4 (fp32.encode q.t))
          weave c reads 0 puts { o1 with s := (o1.s.note c.uid .pass).claimReads c claims }
      else weave c reads 0 puts ⟨s1, none⟩
    let counts := (qCounts q.rows).add ⟨0, 0, 0, src.bad⟩
    let fail := (o.stop src.fail).fail
    if none_ then ⟨[], fail, counts, o.s⟩
    else if a.coded then
      let e := encodeStream a.fb f x.table bursts
      let n := ceilDiv bursts.length 32768
      let die := 128 + (c.unit - 0x200)
      let s2 := (o.s.count F.cmpStat_RAWCHUNKS die e.2.1).count F.cmpStat_ELIDEFAIL die e.2.2
      ⟨cutChunks dst (n + 1) 0 (chunkLens e.1 n) e.1, fail, counts, s2⟩
    else ⟨cutPieces dst bursts, fail, counts, o.s⟩

/-- Sends the messages of a send from number `i` on, `n` in all (R366, R369). -/
def State.sendPieces (d : Nat) (x : Send) (a : SendArgs) (n : Nat) : Nat → List Piece → State → State
  | _, [], s => s
  | i, p :: ps, s =>
    let m : CtlMsg := { CtlMsg.zero with
      kind := if a.quant then kQput else kPut, spart := x.cmd.part, srcc := s.ownCoord,
      flags := a.ctl % 2 + 2 * b2n a.coded + 8 * b2n (decide (i + 1 = n)), addr := p.addr, len := p.data.length, rso := a.rso,
      rslot := a.rslot, cmdid := x.cmd.uid }
    State.sendPieces d x a n (i + 1) ps (s.sendMsg d m (remoteCoord a.dst) a.dpart (some p.data))

/-- A send is granted: its data is read, converted and sent; an uncorrectable word ends it (R369, R370). -/
def State.grantSend (s : State) (d : Nat) (x : Send) : State :=
  let a := SendArgs.of x.cmd.bytes
  let pl := if a.quant then s.qsendPayload x a else s.sendPayload x a
  let n := pl.msgs.length + (if pl.fail.isSome then 1 else 0)
  let y := { x with granted := true, refused := false, msgs := pl.msgs.length, cvt := pl.cvt }
  let s1 := (State.sendPieces d x a n 0 pl.msgs pl.s).putSend d y
  match pl.fail with
  | some (st, addr) => (if (s1.badIn addr 1).isSome then s1.noteUe addr else s1).endSend d y st addr []
  | none => s1

/-- A LANDACK of a send; the last completes it, with SLOT_MISS after issue + DUE (R369). -/
def State.landack (s : State) (d : Nat) (x : Send) : State :=
  let a := SendArgs.of x.cmd.bytes
  let y := { x with acked := x.acked + 1 }
  if y.acked < y.msgs ∨ !y.granted then s.putSend d y
  else s.endSend d y St.ok 0 (if a.due ≠ 0 ∧ x.cmd.issued + a.due < s.cycle then [3] else [])

/-- LIMIT attempts were made (R370). -/
def State.triesOver (s : State) (n : Nat) : Bool := s.fld F.ceRetry_LIMIT 0 != 0 && decide (s.fld F.ceRetry_LIMIT 0 ≤ n)

/-- A REPLY to a send (R370): before the GRANT, TARGET_IN_RESET waits for the next attempt; else the send completes with it. -/
def State.replySend (s : State) (d : Nat) (x : Send) (m : CtlMsg) : State :=
  let a := SendArgs.of x.cmd.bytes
  let st := BitVec.ofNat 8 m.status
  if !x.granted && st == St.targetInReset then
    if s.triesOver x.tries then s.endSend d x St.targetInReset 0 [] else s.putSend d { x with refused := true }
  else s.endSend d x st (if st = St.targetInReset then 0 else a.dst / 2 ^ 48 * 2 ^ 48 + m.addr % 2 ^ 48) []

/-! ## Landing of sends (R364, R369, R370) -/

/-- The coded stream that a message continues. -/
def State.streamOf (s : State) (d : Nat) (m : CtlMsg) : Option RxStream :=
  (s.ceOf d).streams.find? (fun t => t.srcc == m.srcc && t.spart == m.spart && t.cmdid == m.cmdid)

/-- Forgets a coded stream. -/
def State.dropStream (s : State) (d : Nat) (m : CtlMsg) : State :=
  s.setCe d { s.ceOf d with streams := (s.ceOf d).streams.filter (fun t =>
    !(t.srcc == m.srcc && t.spart == m.spart && t.cmdid == m.cmdid)) }

/-- Decodes up to 256 chunks of a message, from chunk `k` of the stream `h` on. -/
def decodeMessage (h tab : List Byte) (f : Fmt) : Nat → Nat → List Byte → Option (List Byte)
  | 0, _, _ => some []
  | n + 1, k, bs =>
    let ulen := num h 8 8
    if num h 16 4 ≤ k then some []
    else
      let e := num h (64 + 8 * k) 8
      let ln := bits e 32 10
      if ln = 0 ∨ 512 < ln ∨ e / 2 ^ 43 ≠ 0 ∨ bs.length < 64 * ln then none
      else match decodeChunk (num h 0 1) f tab (num h 4 4) (min 32768 (ulen - 32768 * k)) (bit e 42) (bs.take (64 * ln)) with
        | none => none
        | some u => (decodeMessage h tab f n (k + 1) (bs.drop (64 * ln))).map (fun r => u ++ r)

/-- The bytes a landed message writes: its payload, or, coded, what its chunks decode to with the copy of RSLOT captured at the
send's first message; none when the table or the decoding fails (R345, R369, R370). -/
def State.landedBytes (s : State) (d : Nat) (m : CtlMsg) (data : List Byte) : Option (List Byte) × State :=
  if !bit m.flags 1 then (some data, s)
  else
    let s0 := if (s.streamOf d m).isSome then s else s.codeFlip (128 + d) s.cycle none
    let fresh := match s0.streamOf d m with
      | some t => (t, data)
      | none =>
        let hl := 64 + 64 * ceilDiv (num data 16 4) 8
        (⟨m.srcc, m.spart, m.cmdid, s0.codeTable (128 + d) m.rslot (s0.codeActive (128 + d) m.rslot), data.take hl, 0⟩,
          data.drop hl)
    let t := fresh.1
    let s1 := s0.dropStream d m
    let s2 := if bit m.flags 3 then s1
      else s1.setCe d { s1.ceOf d with streams := (s1.ceOf d).streams ++ [{ t with next := t.next + 256 }] }
    match byteFmt (num t.head 0 1) with
    | none => (none, s2)
    | some f => if headerOk t.head t.table 0 then (decodeMessage t.head t.table f 256 t.next fresh.2, s2) else (none, s2)

/-- The first address of a landed range that may not be written: outside the partition's windows, or not in T0 or T1 (R364). -/
def State.landRefused (s : State) (p a n : Nat) : Option Nat :=
  match s.firstOutside p a n with
  | some x => some x
  | none => if n = 0 ∨ inT0T1 a n then none else some a

/-- A whole message of a send has landed on die `d` (R364, R369): it is written, RSO is signalled after the last, and a LANDACK
goes back; or a REPLY. -/
def State.landPut (s : State) (d : Nat) (x : InMsg) (data : List Byte) : State :=
  let m := x.head
  let p := x.dpart
  if !s.takesMessages p then s.reply d x St.targetInReset 0
  else
    let r := s.landedBytes d m data
    match r.1 with
    | none => r.2.reply d x St.ecc m.addr
    | some bs =>
      match r.2.landRefused p m.addr bs.length with
      | some a => r.2.reply d x St.quota a
      | none =>
        let s1 := r.2.storeWhole p m.addr bs
        match r.2.brokenEnds m.addr bs.length with
        | g :: _ => s1.reply d x St.ecc g
        | [] =>
        let s2 := if bit m.flags 0 && bit m.flags 3 && s1.actsFor (.ce d p) (s1.objPart m.rso) && s1.objOpOk m.rso 2
          then (s1.objOp m.rso 2 1#32 s1.cycle).2 else s1
        s2.answer d x { CtlMsg.zero with kind := kLandack }

end Sys2Proof.Machine
end

