-- ==== Sys2Proof/Machine/Colls.lean ====
section
/-!
DEFINITION. Groups and collectives (R371 to R383): the collective commands, the transfer steps of a member, the comparison of READY
and GRANT, notices, aborts, and the registers of groups. A member goes on with a collective whenever a command or a message
gives it something to do; that is one operation, `State.ceRun`.
-/

set_option Elab.async false

namespace Sys2Proof.Machine

open Sys2Proof

/-! ## The collective command (R374, R375) -/

/-- The fields of COLL. -/
structure CollArgs where
  src    : Nat
  dst    : Nat
  countW : Nat
  group  : Nat
  op     : Nat
  red    : Nat
  dtype  : Nat
  chk    : Bool
  root   : Nat
  gseq   : Nat
  step   : Nat
  rlist  : Nat
  nrange : Nat
  due    : Nat
  bad    : Bool     -- a reserved bit is set
  deriving DecidableEq, Repr

/-- Reads the fields of a COLL. -/
def CollArgs.of (b : List Byte) : CollArgs :=
  { src := num b 8 8, dst := num b 16 8, countW := num b 24 4, group := num b 28 2, op := num b 30 1, red := num b 31 1,
    dtype := num b 32 1, chk := bit (num b 33 1) 0, root := num b 34 2, gseq := num b 36 4, step := num b 40 8,
    rlist := num b 48 8, nrange := num b 56 4, due := num b 60 4,
    bad := decide (3 < num b 31 1) || decide (1 < num b 33 1) || !allZero (sub b 64 32) }

/-- Whether an operation reduces. -/
def opReduces (op : Nat) : Bool := op == 0 || op == 1 || op == 3

/-- Bytes of an element, or 1 where COUNT counts bytes. -/
def CollArgs.esize (a : CollArgs) : Nat := if opReduces a.op then atomicSize a.dtype else 1

/-- The type partials travel in: FP32 for the float types, else DTYPE (R376). -/
def CollArgs.wire (a : CollArgs) : Nat := if a.dtype ≤ 2 then 0 else a.dtype

/-- The operation code of R314 for RED: 2 ADD, 3 MAX, 4 MIN. -/
def CollArgs.atomOp (a : CollArgs) : Nat := a.red + 2

/-- SIG of a collective (R366). -/
def CollArgs.sig (a : CollArgs) : Nat :=
  a.op % 16 + a.red % 4 * 2 ^ 4 + a.dtype % 8 * 2 ^ 6 + b2n a.chk * 2 ^ 9 + a.root % 4096 * 2 ^ 10

/-- The first element of chunk c of COUNT elements over n members (R376). -/
def chunkStart (count n c : Nat) : Nat := c * count / n

/-- The elements of chunk c. -/
def chunkCount (count n c : Nat) : Nat := chunkStart count n (c + 1) - chunkStart count n c

/-- Bytes of SRC that a member of rank r reads (R375). -/
def CollArgs.srcLen (a : CollArgs) (n r count : Nat) : Nat :=
  match a.op with
  | 0 | 1 | 3 => count * a.esize
  | 2 => count
  | 4 => if r = a.root then count else 0
  | 5 => n * count
  | _ => 0

/-- Bytes of DST that a member of rank r writes (R375). -/
def CollArgs.dstLen (a : CollArgs) (n r count : Nat) : Nat :=
  match a.op with
  | 0 => count * a.esize
  | 1 => if n = 1 then count * a.esize else chunkCount count n r * a.esize
  | 3 => if r = a.root then count * a.esize else 0
  | 2 | 5 => n * count
  | 4 => count
  | _ => 0

/-! ## Transfer steps (R376) -/

/-- A transfer step with nothing done; what has no partner is done already. -/
def XferStep.mk0 (snd rcv : Option Nat) (step : Nat) (data : Bool) : XferStep :=
  { snd := snd, rcv := rcv, step := step, data := data, sst := if snd.isSome then 0 else 3, rst := if rcv.isSome then 0 else 2,
    segs := [], seg := 0, credit := 0, lim := 0, landed := 0, given := 0, tries := 0, refused := false }

/-- The transfer steps of rank r (R376): around the ring for the ring operations, along one chain for REDUCE (after handshakes with
both ring neighbours, R380) and BROADCAST, directly in order of (j - r) mod n for ALLTOALL and PERMUTE; a handshake with every
member for BARRIER, and for PERMUTE once more when a member's own ranges have landed, so that none completes before the last range
has (R283; log entry 28). With COUNT = 0 only the handshakes of the first step. -/
def collSteps (op n r root : Nat) (empty : Bool) : List XferStep :=
  let next := some ((r + 1) % n)
  let prev := some ((r + n - 1) % n)
  let ring := fun (k : Nat) => (List.range k).map (fun i => XferStep.mk0 next prev i true)
  let direct := fun (first : Nat) (data : Bool) =>
    (List.range (n - 1)).map (fun i => XferStep.mk0 (some ((r + i + 1) % n)) (some ((r + n - i - 1) % n)) (first + i) data)
  if n = 1 then []
  else if empty && op < 6 then [XferStep.mk0 next prev 0 false]
  else match op with
    | 0 => ring (2 * n - 2)
    | 1 | 2 => ring (n - 1)
    | 3 =>
      let q := (r + 2 * n - root - 1) % n
      [XferStep.mk0 next prev 0 false] ++ (if 0 < q then [XferStep.mk0 none prev q true] else []) ++
        (if q < n - 1 then [XferStep.mk0 next none (q + 1) true] else [])
    | 4 =>
      let q := (r + n - root) % n
      (if 0 < q then [XferStep.mk0 none prev (q - 1) true] else []) ++
        (if q < n - 1 then [XferStep.mk0 next none q true] else [])
    | 6 => direct 1 true ++ direct n false
    | 7 => direct 1 false
    | _ => direct 1 true

/-- The number k of a transfer step in R376 and R378, which count the steps that move data from 0. -/
def stepIndex (op step : Nat) : Nat := if op = 3 ∨ 5 ≤ op then step - 1 else step

/-- Whether every transfer of an operation may go on at once: PERMUTE and BARRIER (R283, R375). -/
def opParallel (op : Nat) : Bool := op == 6 || op == 7

/-- Whether a transfer step is over. -/
def XferStep.isOver (x : XferStep) : Bool := x.sst == 3 && x.rst == 2

/-! ## Groups in use -/

/-- The collective a group runs. -/
def Group.current (g : Group) : Option Coll := g.queue.head?

/-- Replaces the collective a group runs. -/
def Group.setCurrent (g : Group) (k : Coll) : Group := { g with queue := k :: g.queue.drop 1 }

/-- Replaces one transfer step of a collective. -/
def Coll.setStep (k : Coll) (i : Nat) (x : XferStep) : Coll := { k with steps := k.steps.set i x }

/-- The numbers of the transfer steps that may go on now: of a parallel operation all that move data, then all handshakes; of another
the first that is not over. -/
def Coll.active (k : Coll) (op : Nat) : List Nat :=
  let open_ := (List.range k.steps.length).filter (fun i => !((k.steps[i]?).map XferStep.isOver).getD true)
  let moving := open_.filter (fun i => ((k.steps[i]?).map (fun x => x.data)).getD false)
  if !opParallel op then open_.take 1 else if moving.isEmpty then open_ else moving

/-- Posts GROUP_STATE (R372, R381, R551). -/
def State.groupEvent (s : State) (g : Nat) : State :=
  s.event evGroupState 0x00#8 (some (s.group g).part) g (s.groupState g)

/-- Sends a message of a group to one of its members. -/
def State.toMember (s : State) (g : Nat) (rank : Nat) (m : CtlMsg) (data : Option (List Byte)) : State :=
  let G := s.group g
  let e := G.members.getD rank 0
  s.sendMsg G.home { m with spart := G.part, srcc := s.ownCoord, group := g } (memCoord e) (memPart e) data

/-- A collective completes with a status, an address and details (R379, R383); the group's queue goes on behind it. The READYs held for
one that did not run to its end go with it. -/
def State.endColl (s : State) (g : Nat) (k : Coll) (st : Byte) (addr d0 d1 : Nat) : State :=
  let G := s.group g
  let s1 := s.setGroup g { G with queue := G.queue.filter (fun x => x.cmd.uid != k.cmd.uid),
                                  done := some (CollArgs.of k.cmd.bytes).gseq, failed := st != St.ok
                                  readys := if st = St.ok then G.readys
                                    else G.readys.filter (fun m => m.gseq != (CollArgs.of k.cmd.bytes).gseq) }
  let c := { k.cmd with slotMiss := satAdd 32 k.cmd.slotMiss k.misses }
  s1.finish c { Result.mk0 st (s1.cycle - c.issued) with addr := addr, detail0 := d0, detail1 := d1, cvt := k.cvt.list }

/-- Halts a group with a code: what its queue still holds completes with that code (R379, R382). -/
def State.haltGroup (s : State) (g : Nat) (code : Byte) : State :=
  let s1 := (s.setFld F.ceGrpstat_STATE g 2).setFld F.ceGrpstat_HALTCODE g code.toNat
  let s2 := (s1.group g).queue.foldl (fun t k => t.endColl g k code 0 0 0) s1
  s2.groupEvent g

/-- DETAIL0 of a difference this member found: its coordinates and rank (R379). -/
def State.finder (s : State) (g : Nat) : Nat := s.ownCoord + (s.group g).rank * 2 ^ 16

/-- Sends a NOTICE with a code to every other member, in ascending rank (R379); DETAIL1 goes in LEN (log entry 25). -/
def State.notify (s : State) (g gseq : Nat) (code : Byte) (d1 : Nat) : State :=
  let G := s.group g
  (List.range G.n).foldl (fun t r =>
    if r = G.rank then t
    else t.toMember g r { CtlMsg.zero with kind := kNotice, status := code.toNat, gseq := gseq, len := d1 } none) s

/-- This member found a difference or a failure in its current collective: notices, its own completion, and the group halted after
SEQ_MISMATCH (R379, R383). -/
def State.failColl (s : State) (g : Nat) (k : Coll) (code : Byte) (addr d1 : Nat) : State :=
  let s1 := s.notify g (CollArgs.of k.cmd.bytes).gseq code d1
  let s2 := s1.endColl g k code addr (s.finder g) d1
  if code = St.seqMismatch then s2.haltGroup g code else s2

/-! ## Data of a collective (R375, R376) -/

/-- Bytes read for a collective, or the address of the first uncorrectable word. -/
def State.collRead (s : State) (a n : Nat) : Except Nat (List Byte) :=
  match s.badIn a n with
  | some x => .error x
  | none => .ok (s.read a n)

/-- Bytes of elements as they travel: float elements as FP32 (R376). -/
def toWire (a : CollArgs) : Nat → List Byte → List Byte
  | 0, _ => []
  | n + 1, bs =>
    let k := a.esize
    let v := num bs 0 k
    let w := if a.dtype = 1 then fp32.encode (bf16.decode v) else if a.dtype = 2 then fp32.encode (fp16.decode v) else v
    leBytes (atomicSize a.wire) w ++ toWire a n (bs.drop k)

/-- The final value of travelling elements in DTYPE, under R59 with OVF = 0, with its conversion outcomes (R376). -/
def fromWire (a : CollArgs) : Nat → List Byte → List Byte × Counts
  | 0, _ => ([], Counts.none)
  | n + 1, bs =>
    let v := num bs 0 (atomicSize a.wire)
    let r := fromWire a n (bs.drop (atomicSize a.wire))
    let asFmt := fun (f : Fmt) =>
      let q := convert f .rne false (f32 v)
      (leBytes f.bytes q.1 ++ r.1, q.2.add r.2)
    match a.dtype with
    | 0 => asFmt .fp32
    | 1 => asFmt .bf16
    | 2 => asFmt .fp16
    | _ => (leBytes a.esize v ++ r.1, r.2)

/-- A member's own elements of chunk c as they travel. -/
def State.ownChunk (s : State) (a : CollArgs) (n count c : Nat) : Except Nat (List Byte) :=
  (s.collRead (a.src + chunkStart count n c * a.esize) (chunkCount count n c * a.esize)).map (toWire a (chunkCount count n c))

/-- All of a member's elements as they travel (REDUCE). -/
def State.ownAll (s : State) (a : CollArgs) (count : Nat) : Except Nat (List Byte) :=
  (s.collRead a.src (count * a.esize)).map (toWire a count)

/-- Kept bytes of a collective. -/
def Coll.kept (k : Coll) (i : Nat) : List Byte := Sparse.rd (fun _ => []) i k.acc

/-- Keeps bytes. -/
def Coll.keep (k : Coll) (i : Nat) (b : List Byte) : Coll := { k with acc := Sparse.wr (fun _ => []) i b k.acc }

/-- Adds to kept bytes. -/
def Coll.grow (k : Coll) (i : Nat) (b : List Byte) : Coll := k.keep i (k.kept i ++ b)

/-- A range of a PERMUTE list (R380). -/
structure PermRange where
  src  : Nat
  rank : Nat
  zero : Bool
  dst  : Nat
  len  : Nat
  deriving DecidableEq, Repr

/-- Reads range i of a PERMUTE list. -/
def State.permRange (s : State) (a : CollArgs) (i : Nat) : PermRange :=
  let b := s.read (a.rlist + 32 * i) 32
  ⟨num b 0 8, num b 8 2, allZero (sub b 10 6), num b 16 8, num b 24 8⟩

/-- The ranges of a PERMUTE list that move to rank r. -/
def State.rangesTo (s : State) (a : CollArgs) (r : Nat) : List PermRange :=
  ((List.range a.nrange).map (s.permRange a)).filter (fun x => x.rank == r)

/-- Cuts bytes into segments of at most `size` bytes, the last marked when `last`; an empty transfer is one empty segment. -/
def cutSegs (size addr : Nat) (last : Bool) (bs : List Byte) : List Segment :=
  let ps := pieces size (ceilDiv bs.length size) bs
  if ps.isEmpty then (if last then [⟨[], addr, true⟩] else [])
  else ps.zipIdx.map (fun x => ⟨x.1, addr + x.2 * size, last && decide (x.2 + 1 = ps.length)⟩)

/-- What a member sends in a transfer step (R375, R376) to an address that the GRANT names, or the address of an uncorrectable word. -/
def State.stepData (s : State) (G : Group) (k : Coll) (a : CollArgs) (x : XferStep) (to_ : Nat) : Except Nat (List Segment) :=
  let n := G.n
  let r := G.rank
  let size := G.seg * 16384
  let one := fun (e : Except Nat (List Byte)) => e.map (cutSegs size to_ true)
  match a.op with
  | 0 | 1 =>
    if x.step < n - 1 then
      let c := (r + 2 * n - x.step - 1) % n
      one (if x.step = 0 then s.ownChunk a n k.count c else .ok (k.kept c))
    else one (.ok (k.kept (n + (r + n - (x.step - (n - 1))) % n)))
  | 2 =>
    let b := (r + n - x.step) % n
    one (if x.step = 0 then s.collRead a.src k.count else .ok (k.kept b))
  | 3 => one (if x.step = 1 then s.ownAll a k.count else .ok (k.kept 0))
  | 4 => one (if r = a.root then s.collRead a.src k.count else .ok (k.kept 0))
  | 5 => one (s.collRead (a.src + (x.snd.getD 0) * k.count) k.count)
  | _ =>
    let rs := s.rangesTo a (x.snd.getD 0)
    match rs.mapM (fun q => (s.collRead q.src q.len).map (cutSegs size q.dst false)) with
    | .error e => .error e
    | .ok segs => .ok (segs.flatten ++ [⟨[], 0, true⟩])

/-- Whether the result of a collective is not defined on a member (R377, R285): SRC and DST overlap other than as ALLREDUCE's SRC = DST,
or a PERMUTE's destination meets one of the member's own source ranges. -/
def State.collUndef (s : State) (G : Group) (k : Coll) (a : CollArgs) (at_ len : Nat) : Bool :=
  if a.op = 6 then
    ((List.range a.nrange).map (s.permRange a)).any (fun q => decide (0 < q.len) && decide (0 < len) && overlaps q.src q.len at_ len)
  else
    let n := a.srcLen G.n G.rank k.count
    let m := a.dstLen G.n G.rank k.count
    decide (0 < n) && decide (0 < m) && overlaps a.src n a.dst m && !(a.op == 0 && a.src == a.dst)

/-- Writes bytes of a collective to this member's memory, in its partition's slots; free where its result is not defined. The second
component is an uncorrectable granule that the write covers in part (R293, R323). -/
def State.collWrite (s : State) (G : Group) (k : Coll) (a : CollArgs) (at_ : Nat) (bs : List Byte) : State × Option Nat :=
  let o := (⟨s, none⟩ : Out).put k.cmd (s.collUndef G k a at_ bs.length) at_ bs
  (o.s, o.fail.map (fun e => e.2))

/-- Where the bytes of a transfer step go in this member's memory: 0 for a partial, which stays in the group's area (R376, R380). -/
def Group.destOf (G : Group) (k : Coll) (a : CollArgs) (x : XferStep) : Nat :=
  let n := G.n
  let r := G.rank
  match a.op with
  | 0 | 1 =>
    if x.step + 2 < n then 0
    else if x.step < n - 1 then
      a.dst + (if a.op = 0 then chunkStart k.count n ((r + 2 * n - x.step - 2) % n) * a.esize else 0)
    else a.dst + chunkStart k.count n ((r + n - 1 - (x.step - (n - 1))) % n) * a.esize
  | 2 => a.dst + (r + 2 * n - 1 - x.step) % n * k.count
  | 3 => if r = a.root then a.dst else 0
  | 4 => a.dst
  | 5 => a.dst + (x.rcv.getD 0) * k.count
  | _ => 0

/-- How many of `m` own elements from an address can be combined before an uncorrectable word, in whole frames of 256 bytes (R378). -/
def State.ownGood (s : State) (a : CollArgs) (src m : Nat) : Nat × Option Nat :=
  match s.badIn src (m * a.esize) with
  | none => (m, none)
  | some e =>
    let per := 256 / atomicSize a.wire
    (min m ((e - src) / a.esize) / per * per, some e)

/-- A member combines landed partials with its own elements from `src` on and keeps the result as part `slot`; the last member of a
chain converts it, writes it and keeps it as part `slot + n` (R376, R378). -/
def State.reduceLanded (s : State) (G : Group) (k : Coll) (a : CollArgs) (x : XferStep) (slot src : Nat) (final : Bool)
    (bs : List Byte) : State × Coll × Option Nat :=
  let w := atomicSize a.wire
  let g := s.ownGood a src (bs.length / w)
  let v := atomicBytes a.atomOp a.wire g.1 (bs.take (g.1 * w)) (toWire a g.1 (s.read src (g.1 * a.esize)))
  if !final then (s, k.grow slot v, g.2)
  else
    let f := fromWire a g.1 v
    let o := s.collWrite G k a (G.destOf k a x + x.landed / w * a.esize) f.1
    (o.1, { k.grow (slot + G.n) f.1 with cvt := k.cvt.add f.2 }, match o.2 with | some e => some e | none => g.2)

/-- What a member does with bytes of a transfer step as they land (R375, R376): the state, the collective, and an uncorrectable word
that stopped it; what was written before stays. -/
def State.stepLanded (s : State) (G : Group) (k : Coll) (a : CollArgs) (x : XferStep) (bs : List Byte) : State × Coll × Option Nat :=
  let n := G.n
  let r := G.rank
  let first := x.landed / atomicSize a.wire
  let put := fun (slot : Option Nat) =>
    let o := s.collWrite G k a (G.destOf k a x + x.landed) bs
    (o.1, (match slot with | some i => k.grow i bs | none => k), o.2)
  match a.op with
  | 0 | 1 =>
    if x.step < n - 1 then
      let c := (r + 2 * n - x.step - 2) % n
      s.reduceLanded G k a x c (a.src + (chunkStart k.count n c + first) * a.esize) (decide (n ≤ x.step + 2)) bs
    else put (some (n + (r + n - 1 - (x.step - (n - 1))) % n))
  | 2 => put (some ((r + 2 * n - 1 - x.step) % n))
  | 3 => s.reduceLanded G k a x 0 (a.src + first * a.esize) (decide (r = a.root)) bs
  | 4 => put (some 0)
  | 5 => put none
  | _ => (s, k, none)

/-- What a member copies of its own (R375, R376): its own block, BROADCAST's source, the whole of SRC in a group of one, once all
transfers are over; the ranges of a PERMUTE that stay on it at once. -/
def State.ownCopy (s : State) (G : Group) (k : Coll) (a : CollArgs) : State × Option Nat :=
  let r := G.rank
  let copy := fun (x : State × Option Nat) (m : Nat × Nat × Nat) =>
    if x.2.isSome then x
    else match x.1.collRead m.1 m.2.2 with
      | .error e => (x.1, some e)
      | .ok bs => x.1.collWrite G k a m.2.1 bs
  if k.count = 0 ∧ a.op < 6 then (s, none)
  else match a.op with
    | 0 | 1 | 3 => if G.n = 1 then copy (s, none) (a.src, a.dst, k.count * a.esize) else (s, none)
    | 2 => copy (s, none) (a.src, a.dst + r * k.count, k.count)
    | 4 => if r = a.root then copy (s, none) (a.src, a.dst, k.count) else (s, none)
    | 5 => copy (s, none) (a.src + r * k.count, a.dst + r * k.count, k.count)
    | 6 => ((s.rangesTo a r).map (fun q => (q.src, q.dst, q.len))).foldl copy (s, none)
    | _ => (s, none)

/-- The first refused address of a collective's ranges on this member, and an uncorrectable word of RLIST (R303, R383). -/
def State.collRefused (s : State) (G : Group) (k : Coll) (a : CollArgs) : Option (Byte × Nat) :=
  let p := G.part
  let q := fun (o : Option Nat) => o.map (fun x => (St.quota, x))
  let n := a.srcLen G.n G.rank k.count
  let m := a.dstLen G.n G.rank k.count
  if a.op = 6 then
    match s.firstOutside p a.rlist (32 * a.nrange), s.badIn a.rlist (32 * a.nrange) with
    | some x, _ => some (St.quota, x)
    | none, some x => some (St.ecc, x)
    | none, none =>
      ((List.range a.nrange).map (s.permRange a)).findSome? (fun r =>
        match q (s.readRefused false p r.src r.len) with
        | some e => some e
        | none =>
          if r.len ≠ 0 ∧ !inT0T1T2 r.src r.len then some (St.quota, r.src)
          else if r.rank = G.rank then q (s.landRefused p r.dst r.len)
          else none)
  else match q (s.readRefused false p a.src n) with
    | some e => if n = 0 then none else some e
    | none => if m = 0 then none else q (s.firstOutside p a.dst m)

/-! ## Going on with a collective -/

/-- The notice of highest value that a group holds. -/
def worstNotice (l : List (Nat × Nat × Nat × Nat)) : Option (Nat × Nat × Nat × Nat) :=
  l.foldl (fun m x => match m with | none => some x | some y => if y.1 < x.1 then some x else some y) none

/-- Begins the collective at the front of a group's queue; one that the group holds notices for completes with them (R379). A PERMUTE
moves the member's own ranges at once (R283). -/
def State.collBegin (s : State) (g : Nat) (G : Group) (k : Coll) (a : CollArgs) : State :=
  let mine := fun (x : Nat × Nat × Nat × Nat) => x.2.2.2 == a.gseq
  match worstNotice (G.notices.filter mine), s.collRefused G k a with
  | some (code, d0, d1, _), _ =>
    (s.setGroup g { G with notices := G.notices.filter (fun x => !mine x) }).endColl g k (BitVec.ofNat 8 code) 0 d0 d1
  | none, some (st, x) => (if st = St.ecc then s.noteUe x else s).failColl g k st x 0
  | none, none =>
    let steps := collSteps a.op G.n G.rank a.root (k.count == 0)
    let reads := if a.op = 6 then (a.rlist, 32 * a.nrange) :: ((List.range a.nrange).map (s.permRange a)).map (fun q => (q.src, q.len))
      else [(a.src, a.srcLen G.n G.rank k.count)]
    let k1 := { k with begun := true, steps := steps }
    let s1 := (s.touchReads k.cmd reads).setGroup g (G.setCurrent k1)
    let own := if a.op = 6 then s1.ownCopy G k1 a else (s1, none)
    match own.2 with
    | none => own.1
    | some e => (own.1.noteUe e).failColl g k1 St.ecc e 0

/-- The READY or GRANT fields of a collective on this member (R379). -/
def collFields (a : CollArgs) (k : Coll) (x : XferStep) (kind : Nat) : CtlMsg :=
  { CtlMsg.zero with kind := kind, flags := 4 * b2n a.chk, gseq := a.gseq, sig := a.sig, len := k.count, step := if a.chk then a.step else 0,
                     xfer := x.step, cmdid := 2 ^ 63 + k.cmd.uid }

/-- What a comparison of READY or GRANT finds (R379): a code and DETAIL1. -/
def collDiff (a : CollArgs) (k : Coll) (m : CtlMsg) : Option (Byte × Nat) :=
  if m.gseq ≠ a.gseq then some (St.seqMismatch, 0)
  else if m.sig ≠ a.sig ∨ m.len ≠ k.count then some (St.seqMismatch, 1)
  else if a.chk ∧ m.step ≠ a.step then some (St.stepMismatch, 0)
  else none

/-- The READY held for a transfer step: the first of its sender, whose READYs arrive in the order of its transfers, so that one of
another operation is compared too (R379). -/
def Group.heldReady (G : Group) (x : XferStep) : Option CtlMsg :=
  match x.rcv with
  | none => none
  | some r => G.readys.find? (fun m => G.rankOf m.srcc m.spart == some r)

/-- The units of this member's area that a sender is given (R378): all of it, or an equal share where several send at once. -/
def Group.share (G : Group) (k : Coll) (a : CollArgs) : Nat :=
  let free := G.seg - (k.steps.map (fun x => x.given)).sum
  min free (if opParallel a.op then max 1 (G.seg / max 1 (G.n - 1)) else G.seg)

/-- The segment a transfer sends next against its credit, and what is left: one larger than the receiver's whole area for it is cut
to that area (R378). -/
def XferStep.front (x : XferStep) : Option (Segment × List Segment) :=
  match x.segs with
  | [] => none
  | q :: r =>
    if ceilDiv q.data.length 16384 ≤ x.credit then some (q, r)
    else if 0 < x.lim ∧ x.credit = x.lim then
      let n := x.lim * 16384
      some (⟨q.data.take n, q.addr, false⟩, ⟨q.data.drop n, q.addr + n, q.last⟩ :: r)
    else none

/-- Something a collective can do now: which step, and what. -/
inductive CollAct where
  | ready (i : Nat) (x : XferStep) (dst : Nat)
  | grant (i : Nat) (x : XferStep) (m : CtlMsg)
  | credit (i : Nat) (x : XferStep) (n : Nat)
  | segment (i : Nat) (x : XferStep) (q : Segment) (rest : List Segment)
  | sent (i : Nat) (x : XferStep)
  | finish
  deriving DecidableEq, Repr

/-- What this member can do for the receiving side of a transfer step: answer a held READY, or give credit. For step 0 of a reducing
operation no credit goes out before the member's own READY has been granted, so that nothing is written before both of its handshakes
have succeeded (R378, R380). -/
def Group.receiveAct (G : Group) (k : Coll) (a : CollArgs) (i : Nat) (x : XferStep) : Option CollAct :=
  let n := G.share k a
  if x.rst = 0 then (G.heldReady x).map (CollAct.grant i x)
  else if x.rst = 1 && x.given = 0 && 0 < n && !(opReduces a.op && x.step = 0 && decide (x.sst < 2)) then some (.credit i x n)
  else none

/-- The next thing a collective can do. -/
def Group.nextAct (G : Group) (k : Coll) (a : CollArgs) : Option CollAct :=
  if k.steps.all XferStep.isOver then some .finish
  else (k.active a.op).findSome? (fun i =>
    match k.steps[i]? with
    | none => none
    | some x =>
      if x.sst = 0 then x.snd.map (CollAct.ready i x)
      else if x.sst = 2 ∧ x.segs.isEmpty then some (.sent i x)
      else match (if x.sst = 2 then x.front else none) with
        | some q => some (.segment i x q.1 q.2)
        | none => G.receiveAct k a i x)

/-- Does one thing for a collective. -/
def State.collDo (s : State) (g : Nat) (G : Group) (k : Coll) (a : CollArgs) : CollAct → State
  | .ready i x dst =>
    (s.setGroup g (G.setCurrent (k.setStep i { x with sst := 1, tries := 1 }))).toMember g dst (collFields a k x kReady) none
  | .grant i x m =>
    let s0 := s.setGroup g { G with readys := G.readys.erase m }
    match collDiff a k m with
    | some (code, d1) => s0.failColl g k code 0 d1
    | none =>
      let k1 := k.setStep i { x with rst := if x.data then 1 else 2 }
      (s0.setGroup g ((s0.group g).setCurrent k1)).toMember g (x.rcv.getD 0)
        { collFields a k x kGrant with addr := G.destOf k a x, cmdid := m.cmdid } none
  | .credit i x n =>
    (s.setGroup g (G.setCurrent (k.setStep i { x with given := n }))).toMember g (x.rcv.getD 0)
      { CtlMsg.zero with kind := kGrant, len := n, gseq := a.gseq, sig := a.sig, xfer := x.step, cmdid := 2 ^ 63 + k.cmd.uid } none
  | .segment i x q rest =>
    let y := { x with segs := rest, seg := x.seg + 1, credit := x.credit - ceilDiv q.data.length 16384 }
    let m : CtlMsg := { CtlMsg.zero with
      kind := kCdata, flags := 8 * b2n q.last, addr := q.addr, len := q.data.length, gseq := a.gseq,
      xfer := x.step % 65536 + x.seg % 65536 * 65536, cmdid := 2 ^ 63 + k.cmd.uid }
    (s.setGroup g (G.setCurrent (k.setStep i y))).toMember g (x.snd.getD 0) m (some q.data)
  | .sent i x => s.setGroup g (G.setCurrent (k.setStep i { x with sst := 3 }))
  | .finish =>
    let r := if a.op = 6 then (s, none) else s.ownCopy G k a
    match r.2 with
    | none => r.1.endColl g k St.ok 0 0 0
    | some x => (r.1.noteUe x).failColl g k St.ecc x 0

/-- Goes on with the collectives of a group until nothing more can be done now. -/
def State.ceRun (g : Nat) : Nat → State → State
  | 0, s => s
  | fuel + 1, s =>
    let G := s.group g
    match G.current with
    | none => s
    | some k =>
      let a := CollArgs.of k.cmd.bytes
      if s.groupState g ≠ 1 then s
      else if !k.begun then State.ceRun g fuel (s.collBegin g G k a)
      else match G.nextAct k a with
        | none => s
        | some act => State.ceRun g fuel (s.collDo g G k a act)

/-- The most things one command or message can set off in a group: a bound that no collective reaches. -/
def ceFuel : Nat := 0x100000000

/-! ## Landing messages of collectives -/

/-- The bytes of a message of a collective as they land: a PERMUTE's at the address they name, checked (R364, R380), another's as its
step says. -/
def State.landBytes (s : State) (G : Group) (k : Coll) (a : CollArgs) (y : XferStep) (at_ : Nat) (data : List Byte) :
    State × Coll × Option (Byte × Nat) :=
  if a.op ≠ 6 then let r := s.stepLanded G k a y data; (r.1, r.2.1, r.2.2.map (fun e => (St.ecc, e)))
  else if data.isEmpty then (s, k, none)
  else match s.landRefused G.part at_ data.length with
    | some bad => (s, k, some (St.quota, bad))
    | none => let o := s.collWrite G k a at_ data; (o.1, k, o.2.map (fun e => (St.ecc, e)))

/-- A segment of a collective has landed on this member (R378 to R380): it is combined or written, and its area is freed and granted
again. A step that lands after its share of DUE counts one slot miss. -/
def State.landCdata (s : State) (x : InMsg) (data : List Byte) : State :=
  let m := x.head
  let g := m.group
  let G := s.group g
  match G.current, G.rankOf m.srcc m.spart with
  | some k, some from_ =>
    let a := CollArgs.of k.cmd.bytes
    match k.steps.findIdx? (fun y => y.rcv == some from_ && y.step == m.xfer % 65536 && y.rst == 1) with
    | none => s
    | some i =>
      match k.steps[i]? with
      | none => s
      | some y =>
        let last := bit m.flags 3
        let r := s.landBytes G k a y m.addr data
        let miss := last && decide (a.due ≠ 0) && decide (k.cmd.issued + (stepIndex a.op y.step + 1) * a.due < s.cycle)
        let y1 := { y with landed := y.landed + data.length, given := if last then 0 else y.given, rst := if last then 2 else 1 }
        let k1 := { r.2.1.setStep i y1 with misses := k.misses + b2n miss }
        let back : CtlMsg := { CtlMsg.zero with
          kind := kGrant, len := ceilDiv data.length 16384, gseq := a.gseq, sig := a.sig,
          xfer := y.step + (m.xfer / 65536 + 1) % 65536 * 65536, cmdid := m.cmdid }
        let s1 := r.1.setGroup g (G.setCurrent k1)
        match r.2.2 with
        | some (st, e) => (if st = St.ecc then s1.noteUe e else s1).failColl g k1 st e 0
        | none => if last then s1 else s1.toMember g from_ back none
  | _, _ => s

/-- A whole data message has landed on die `d` (R364). -/
def State.landMessage (s : State) (d : Nat) (x : InMsg) (data : List Byte) : State :=
  if x.head.kind = kCdata then
    if !s.takesMessages x.dpart || s.groupState x.head.group == 0 || (s.group x.head.group).part != x.dpart
    then s.reply d x St.targetInReset 0
    else State.ceRun x.head.group ceFuel (s.landCdata x data)
  else s.landPut d x data

/-- Lands the data messages of this device's own at the front of a CE's inbox. -/
def State.drainLocal (d : Nat) : Nat → State → State
  | 0, s => s
  | fuel + 1, s =>
    match (s.ceOf d).inbox with
    | x :: rest =>
      match x.data with
      | some data => State.drainLocal d fuel ((s.setCe d { s.ceOf d with inbox := rest }).landMessage d x data)
      | none => s
    | [] => s

/-- Lands this device's own data messages on both dies. -/
def State.settleCe (s : State) : State := State.drainLocal 1 ceFuel (State.drainLocal 0 ceFuel s)

/-! ## Collective commands (R375, R382, R383) -/

/-- The checks of COLL at issue (R383). -/
def State.collCheck (s : State) (c : Cmd) : Verdict :=
  let a := CollArgs.of c.bytes
  let G := s.group a.group
  let b := s.bound c.part a.countW
  let n := a.srcLen G.n G.rank b.get
  let m := a.dstLen G.n G.rank b.get
  .first
    [ .badIf (a.bad || decide (4095 < a.group) || decide (7 < a.op) || a.red == 3 || (opReduces a.op && decide (6 < a.dtype)) ||
        (a.chk && !opReduces a.op) || s.groupState a.group == 0 || G.part != c.part),
      .badIf (decide (G.n ≤ a.root)), .badIf (a.op = 6 ∧ 65535 < a.nrange), b.verdict,
      if !b.known then .go else .first
        [ .badIf (n ≠ 0 && !inT0T1T2 a.src n), .badIf (m ≠ 0 && !inT0T1 a.dst m),
          .badIf (a.op = 6 ∧ a.nrange ≠ 0 ∧ !inT0T1T2 a.rlist (32 * a.nrange)) ] ]

/-- A collective command as its completion names it: by the CE of its group's HOME die (R383). -/
def State.collNamed (s : State) (c : Cmd) : Cmd := { c with unit := 0x200 + (s.group (num c.bytes 28 2)).home }

/-- Issues a collective (R373, R379, R382): it enters its group's queue and goes on; a halted group, or notices held for it,
complete it at issue, the first with the finder that they name. -/
def State.runColl (s : State) (c : Cmd) : State :=
  let a := CollArgs.of c.bytes
  let g := a.group
  let G := s.group g
  let c1 := s.collNamed c
  let k : Coll := ⟨c1, (s.bound c.part a.countW).get, false, [], [], Counts.none, 0, false⟩
  match worstNotice G.notices with
  | some (code, d0, d1, _) =>
    if s.groupState g = 2 ∨ G.queue.isEmpty then
      (s.setGroup g { G with notices := [], done := some a.gseq, failed := true }).finish c1
        { Result.mk0 (if s.groupState g = 2 then BitVec.ofNat 8 (s.fld F.ceGrpstat_HALTCODE g) else BitVec.ofNat 8 code) 0 with
          detail0 := d0, detail1 := d1 }
    else s.setGroup g { G with queue := G.queue ++ [k] }
  | none =>
    if s.groupState g = 2 then s.finish c1 (Result.mk0 (BitVec.ofNat 8 (s.fld F.ceGrpstat_HALTCODE g)) 0)
    else (State.ceRun g ceFuel (s.setGroup g { G with queue := G.queue ++ [k] })).settleCe

/-- Whether a command is a COLL with an operation; a reserved one belongs to BARRIER's row, where it is malformed. -/
def isColl (op : Nat) (b : List Byte) : Bool :=
  hdrOpcode b == 0x42 && (num b 30 1 == op || (op == 7 && decide (7 < num b 30 1)))

/-- Whether an issuer's next command is a collective of a group whose queue is full: it waits (R373). -/
def State.collFull (s : State) (i : Issuer) : Bool :=
  match s.nextOf i with
  | some d => hdrOpcode d.bytes == 0x42 && decide (64 ≤ (s.group (CollArgs.of d.bytes).group).queue.length)
  | none => false

/-- The shared form of the collective commands. -/
def State.collRow (s : State) (i : Issuer) (op : Nat) : State :=
  if s.collFull i then s else s.issueRowAs i (isColl op) State.collCheck State.runColl State.collNamed

/-- ALLREDUCE (R376): reduces all members' sources in the fixed order and writes the result to every member. -/
def execAllreduce (i : Issuer) (s : State) : Host.Outcome State Fault Refusal :=
  inRange (issuerOk i) (fun _ => .next (s.collRow i 0))

/-- REDUCESCATTER (R376): writes chunk c of the reduction to rank c. -/
def execReducescatter (i : Issuer) (s : State) : Host.Outcome State Fault Refusal :=
  inRange (issuerOk i) (fun _ => .next (s.collRow i 1))

/-- ALLGATHER (R375): writes every member's source into block j of every destination. -/
def execAllgather (i : Issuer) (s : State) : Host.Outcome State Fault Refusal :=
  inRange (issuerOk i) (fun _ => .next (s.collRow i 2))

/-- REDUCE (R376): writes the reduction to the root along one chain. -/
def execReduce (i : Issuer) (s : State) : Host.Outcome State Fault Refusal :=
  inRange (issuerOk i) (fun _ => .next (s.collRow i 3))

/-- BROADCAST (R375): writes the root's source to every destination. -/
def execBroadcast (i : Issuer) (s : State) : Host.Outcome State Fault Refusal :=
  inRange (issuerOk i) (fun _ => .next (s.collRow i 4))

/-- ALLTOALL (R375): exchanges block j of each source with rank j. -/
def execAlltoall (i : Issuer) (s : State) : Host.Outcome State Fault Refusal :=
  inRange (issuerOk i) (fun _ => .next (s.collRow i 5))

/-- PERMUTE (R380): moves each listed range to its destination rank once both ends have issued it. -/
def execPermute (i : Issuer) (s : State) : Host.Outcome State Fault Refusal :=
  inRange (issuerOk i) (fun _ => .next (s.collRow i 6))

/-- BARRIER (R375): completes when every member has issued it. -/
def execBarrier (i : Issuer) (s : State) : Host.Outcome State Fault Refusal :=
  inRange (issuerOk i) (fun _ => .next (s.collRow i 7))

/-- Aborts a group (R382): its pending collectives complete with SEQ_MISMATCH and DETAIL1 = 2, every member gets that NOTICE, and
the group is HALTED. -/
def State.abortGroup (s : State) (g : Nat) : State :=
  let G := s.group g
  let gseq := match G.current with | some k => (CollArgs.of k.cmd.bytes).gseq | none => G.done.getD 0
  let s1 := G.queue.foldl (fun t k => t.endColl g k St.seqMismatch 0 (s.finder g) 2) s
  ((s1.notify g gseq St.seqMismatch 2).haltGroup g St.seqMismatch).settleCe

/-- The checks of GRPABORT (R383). -/
def State.grpabortCheck (s : State) (c : Cmd) : Verdict :=
  let g := num c.bytes 8 2
  .badIf (4095 < g || !allZero (sub c.bytes 10 22) || s.groupState g == 0 || (s.group g).part != c.part)

/-- A GRPABORT as its completion names it (R383). -/
def State.abortNamed (s : State) (c : Cmd) : Cmd := { c with unit := 0x200 + (s.group (num c.bytes 8 2)).home }

/-- GRPABORT (R382): the abort, and its own completion. -/
def State.runGrpabort (s : State) (c : Cmd) : State :=
  let g := num c.bytes 8 2
  (s.abortGroup g).finish (s.abortNamed c) (Result.mk0 St.ok 0)

/-- GRPABORT (R382): completes the group's pending collectives with SEQ_MISMATCH, notifies members and halts the group. -/
def execGrpabort (i : Issuer) (s : State) : Host.Outcome State Fault Refusal :=
  inRange (issuerOk i) (fun _ => .next (s.issueRowAs i (isOp 0x43) State.grpabortCheck State.runGrpabort State.abortNamed))

/-! ## Control messages (R364, R366, R379) -/

/-- Takes the message at the front of a CE's inbox if it is of a kind; else the state stays as it is (log entry 3). -/
def State.withMsg (s : State) (d kind : Nat) (go : State → InMsg → State) : State :=
  match (s.ceOf d).inbox with
  | x :: rest =>
    if x.data.isNone && x.head.kind == kind then (go (s.setCe d { s.ceOf d with inbox := rest }) x).settleCe else s
  | [] => s

/-- A READY (R364, R379): for a group that is enabled for its partition here it is compared once this member has issued the
collective; for a send it is granted; else a REPLY with TARGET_IN_RESET. One for a collective that ended early here is dropped. -/
def State.onReady (d : Nat) (s : State) (x : InMsg) : State :=
  let m := x.head
  if m.isColl then
    let g := m.group
    if !s.takesMessages x.dpart || s.groupState g == 0 || (s.group g).part != x.dpart then s.reply d x St.targetInReset 0
    else if (s.group g).failed && (s.group g).done == some m.gseq then s
    else State.ceRun g ceFuel (s.setGroup g { s.group g with readys := (s.group g).readys ++ [m] })
  else if s.takesMessages x.dpart then s.answer d x { CtlMsg.zero with kind := kGrant, len := m.len }
  else s.reply d x St.targetInReset 0

/-- READY (R379): compared and answered with GRANT, REPLY or a NOTICE. -/
def execReady (d : Nat) (s : State) : Host.Outcome State Fault Refusal :=
  inRange (d < 2) (fun _ => .next (s.withMsg d kReady (State.onReady d)))

/-- The transfer step of a collective that a GRANT or REPLY answers. -/
def Group.answered (G : Group) (k : Coll) (m : CtlMsg) (sst : Nat) : Option (Nat × XferStep) :=
  match G.rankOf m.srcc m.spart with
  | none => none
  | some r => (k.steps.zipIdx.find? (fun y => y.1.snd == some r && y.1.step == m.xfer % 65536 && y.1.sst == sst)).map
      (fun y => (y.2, y.1))

/-- A GRANT of a collective (R378, R379): the comparison that opens the transfer, or credit for one that is open. -/
def State.grantColl (s : State) (m : CtlMsg) : State :=
  let g := m.group
  let G := s.group g
  match G.current with
  | none => s
  | some k =>
    let a := CollArgs.of k.cmd.bytes
    match G.answered k m 1, G.answered k m 2 with
    | some (i, x), _ =>
      match collDiff a k m with
      | some (code, d1) => State.ceRun g ceFuel (s.failColl g k code 0 d1)
      | none =>
        if !x.data then State.ceRun g ceFuel (s.setGroup g (G.setCurrent (k.setStep i { x with sst := 3 })))
        else match s.stepData G k a x m.addr with
          | .error e => State.ceRun g ceFuel ((s.noteUe e).failColl g k St.ecc e 0)
          | .ok segs => State.ceRun g ceFuel (s.setGroup g (G.setCurrent (k.setStep i { x with sst := 2, segs := segs })))
    | none, some (i, x) =>
      let y := { x with credit := x.credit + m.len, lim := max x.lim (x.credit + m.len) }
      State.ceRun g ceFuel (s.setGroup g (G.setCurrent (k.setStep i y)))
    | none, none => s

/-- A GRANT (R369, R379). -/
def State.onGrant (d : Nat) (s : State) (x : InMsg) : State :=
  if x.head.isColl then s.grantColl x.head
  else match (s.ceOf d).sends.find? (fun y => y.cmd.uid == x.head.cmdid) with
    | some y => if y.granted then s else s.grantSend d y
    | none => s

/-- GRANT (R379): lets the sender proceed after comparison of sequence, signature and step. -/
def execGrant (d : Nat) (s : State) : Host.Outcome State Fault Refusal :=
  inRange (d < 2) (fun _ => .next (s.withMsg d kGrant (State.onGrant d)))

/-- LANDACK (R369): confirms a landed message; the last completes the send. -/
def execLandack (d : Nat) (s : State) : Host.Outcome State Fault Refusal :=
  inRange (d < 2) (fun _ => .next (s.withMsg d kLandack (fun t x =>
    match (t.ceOf d).sends.find? (fun y => y.cmd.uid == x.head.cmdid) with
    | some y => t.landack d y
    | none => t)))

/-- A REPLY to a collective's READY (R370, R381): that READY waits for its next attempt, or after LIMIT attempts the collective
completes. -/
def State.replyColl (s : State) (m : CtlMsg) : State :=
  let g := m.group
  let G := s.group g
  match G.current with
  | none => s
  | some k =>
    match G.answered k m 1 with
    | none => s
    | some (i, x) =>
      if m.status ≠ St.targetInReset.toNat then s
      else if s.triesOver x.tries then State.ceRun g ceFuel (s.endColl g k St.targetInReset 0 0 0)
      else s.setGroup g (G.setCurrent (k.setStep i { x with refused := true }))

/-- REPLY (R370): reports TARGET_IN_RESET or QUOTA_EXCEEDED to the sender. -/
def execReply (d : Nat) (s : State) : Host.Outcome State Fault Refusal :=
  inRange (d < 2) (fun _ => .next (s.withMsg d kReply (fun t x =>
    if x.head.isColl then t.replyColl x.head
    else match (t.ceOf d).sends.find? (fun y => y.cmd.uid == x.head.cmdid) with
      | some y => t.replySend d y x.head
      | none => t)))

/-- A NOTICE (R379, R381). SEQ_MISMATCH and TARGET_IN_RESET end the current collective, whatever its GSEQ, and halt the group. The other
codes end the collective whose GSEQ they carry: the current one, or one still to come, which completes with them when it issues or
begins; a notice for one that has completed is dropped. -/
def State.onNotice (s : State) (x : InMsg) : State :=
  let m := x.head
  let g := m.group
  let G := s.group g
  let code := BitVec.ofNat 8 m.status
  if s.groupState g ≠ 1 || G.part != x.dpart then s
  else
    let d0 := m.srcc + (G.rankOf m.srcc m.spart).getD 0 * 2 ^ 16
    let kept := s.setGroup g { G with notices := G.notices ++ [(m.status, d0, m.len, m.gseq)] }
    if code == St.seqMismatch || code == St.targetInReset then
      (match G.current with
       | some k => s.endColl g k code 0 d0 m.len
       | none => kept).haltGroup g code
    else match G.current with
      | some k =>
        if (CollArgs.of k.cmd.bytes).gseq = m.gseq then State.ceRun g ceFuel (s.endColl g k code 0 d0 m.len)
        else if G.done = some m.gseq then s
        else kept
      | none => if G.done = some m.gseq then s else kept

/-- NOTICE (R379): completes the member's current collective of the group with the notified code. -/
def execNotice (d : Nat) (s : State) : Host.Outcome State Fault Refusal :=
  inRange (d < 2) (fun _ => .next (s.withMsg d kNotice State.onNotice))

/-! ## Waiting (R370, R382) -/

/-- The send number `n` of a CE, oldest first. -/
def State.sendAt (s : State) (d n : Nat) : Option Send := (s.ceOf d).sends[n]?

/-- Sends the READYs again that were answered TARGET_IN_RESET (R370, R381). -/
def State.retryColl (s : State) (g : Nat) : State :=
  match (s.group g).current with
  | none => s
  | some k =>
    let a := CollArgs.of k.cmd.bytes
    let again := fun (x : XferStep) => x.sst == 1 && x.refused
    let k1 := { k with steps := k.steps.map (fun x => if again x then { x with refused := false, tries := x.tries + 1 } else x) }
    (k.steps.filter again).foldl (fun t x => t.toMember g (x.snd.getD 0) (collFields a k x kReady) none)
      (s.setGroup g ((s.group g).setCurrent k1))

/-- READY_RETRY (R370): after TARGET_IN_RESET a sender resends READY. `n` below 4,096 names a group served by the die, above that
send number n - 4,096 of its CE. -/
def execReadyRetry (d n : Nat) (s : State) : Host.Outcome State Fault Refusal :=
  inRange (d < 2) (fun _ => .next
    (if n < 4096 then (if s.groupState n = 1 ∧ (s.group n).home = d then s.retryColl n else s)
     else match s.sendAt d (n - 4096) with
      | some x =>
        if x.refused then
          let y := { x with tries := x.tries + 1, refused := false }
          (s.putSend d y).sendReady d y
        else s
      | none => s))

/-- The ranks from which a READY or GRANT of a collective is outstanding, ascending. -/
def Coll.outstanding (k : Coll) (op : Nat) : List Nat :=
  let l := (k.active op).flatMap (fun i => match k.steps[i]? with
    | some x => (if x.sst = 1 then x.snd.toList else []) ++ (if x.rst = 0 then x.rcv.toList else [])
    | none => [])
  (List.range 4096).filter (fun r => l.contains r)

/-- COLL_WATCH of a group's current collective (R382, R551). -/
def State.watchColl (s : State) (g : Nat) : State :=
  match (s.group g).current with
  | none => s
  | some k =>
    let a := CollArgs.of k.cmd.bytes
    let l := k.outstanding a.op
    if k.watched then s
    else (s.setGroup g ((s.group g).setCurrent { k with watched := true })).event evCollWatch 0x00#8 (some k.cmd.part)
      (g + a.gseq * 2 ^ 32) (l.headD 0 + l.length % 65536 * 65536)

/-- COLL_WATCH (R382): a collective or send pending for CE_COLLWATCH posts its record once per episode. `n` is read as in
READY_RETRY; a send names no group (ARG0 and ARG1 are 0). -/
def execCollWatch (d n : Nat) (s : State) : Host.Outcome State Fault Refusal :=
  inRange (d < 2) (fun _ => .next
    (if s.fld F.ceCollwatch_LIMIT 0 = 0 then s
     else if n < 4096 then (if s.groupState n ≠ 0 ∧ (s.group n).home = d then s.watchColl n else s)
     else match s.sendAt d (n - 4096) with
      | some x => if x.watched then s else
          (s.putSend d { x with watched := true }).event evCollWatch 0x00#8 (some x.cmd.part) 0 0
      | none => s))

/-! ## Groups (R371, R372, R381, R382) -/

/-- The address of a group's table entry (R371). -/
def State.groupEntry (s : State) (g : Nat) : Nat := s.pair .ceGrptabLo .ceGrptabHi 0 / 64 * 64 + 64 * g

/-- Reads a group's entry and member list (R371). -/
def State.readGroup (s : State) (g : Nat) : Group :=
  let b := s.read (s.groupEntry g) 64
  let n := num b 0 2
  let ml := num b 8 8
  { n := n, rank := num b 2 2, home := num b 4 1, part := num b 5 1, seg := num b 6 2,
    members := (List.range n).map (fun i => leNat (s.read (ml + 2 * i) 2)), queue := [], readys := [], notices := [],
    done := none, failed := false }

/-- 16 KiB units of the reserved areas of the groups enabled on a die. -/
def State.areaUsed (s : State) (home : Nat) : Nat :=
  s.groups.foldl (fun n kv => if s.groupState kv.1 ≠ 0 ∧ kv.2.home = home then n + kv.2.seg else n) 0

/-- Whether a group may be enabled (R372): its entry can be read, CHECK passes, every field is in range, the entry at MYRANK names
this device and PART, and the reserved areas on HOME total at most 64 MiB. -/
def State.groupOk (s : State) (g : Nat) : Bool :=
  let ea := s.groupEntry g
  let b := s.read ea 64
  let G := s.readGroup g
  let ml := num b 8 8
  let me := G.members.getD G.rank 0
  rangeRegion ea 64 == some .t1 && (s.badIn ea 64).isNone && num b 61 3 == crc24 (b.take 61) && allZero (sub b 16 45) &&
    decide (1 ≤ G.n) && decide (G.n ≤ 4096) && decide (G.rank < G.n) && decide (G.home ≤ 1) && decide (G.part ≤ 7) &&
    decide (1 ≤ G.seg) && decide (G.seg ≤ 1024) && rangeRegion ml (2 * G.n) == some .t1 && (s.badIn ml (2 * G.n)).isNone &&
    G.members.all (fun e => decide (e < 32768)) && memCoord me == s.ownCoord && memPart me == G.part &&
    decide (s.areaUsed G.home + G.seg ≤ 4096)

/-- ENABLE of a group that is DISABLED (R372): READY, or DISABLED with a record that names its entry. -/
def State.enableGroup (s : State) (g : Nat) (v : Word) : State :=
  if s.groupState g ≠ 0 then s
  else if s.groupOk g then
    (((s.setGroup g (s.readGroup g)).setFld F.ceGrpstat_STATE g 1).setFld F.ceGrpstat_HALTCODE g 0).groupEvent g
  else s.event evWriteIgnored 0x00#8 none (s.groupEntry g) v.toNat

/-- RESET of a halted group (R382): READY again, nothing held. -/
def State.resetGroup (s : State) (g : Nat) : State :=
  if s.groupState g ≠ 2 then s
  else (((s.setGroup g { s.group g with readys := [], notices := [], done := none, failed := false }).setFld F.ceGrpstat_STATE g 1).setFld
    F.ceGrpstat_HALTCODE g 0).groupEvent g

/-- A group is DISABLED and its reserved area free. -/
def State.dropGroup (s : State) (g : Nat) : State :=
  let s1 := ((s.setFld F.ceGrpstat_STATE g 0).setFld F.ceGrpstat_HALTCODE g 0).groupEvent g
  s1.setGroup g Group.reset

/-- DISABLE (R372): refused with a record while collectives are pending. -/
def State.disableGroup (s : State) (g : Nat) (v : Word) : State :=
  if s.groupState g = 0 then s
  else if !(s.group g).queue.isEmpty then s.writeIgnored .ceGrpctl 0 (some (s.group g).part) v
  else s.dropGroup g

/-- The word of CE_GRPCTL with a group and an action. -/
def grpctlWord (g action : Nat) : Word := BitVec.ofNat 32 (g % 4096 + action * 4096)

/-- A write of CE_GRPCTL (R386): 1 ENABLE, 2 RESET, 3 DISABLE, 4 ABORT; others none. -/
def State.writeGrpctl (s : State) (v : Word) : State :=
  let g := v.toNat % 4096
  match bits v.toNat 12 3 with
  | 1 => s.enableGroup g v
  | 2 => s.resetGroup g
  | 3 => s.disableGroup g v
  | 4 => if s.groupState g = 0 then s else s.abortGroup g
  | _ => s

/-- GROUP_ENABLE (R372): reads and checks a group entry and makes the group READY or posts an event. -/
def execGroupEnable (who : Requester) (g : Nat) (s : State) : Host.Outcome State Fault Refusal :=
  inRange (g < 4096) (fun _ => .next (s.gated who .ceGrpctl 0 (s.writeGrpctl (grpctlWord g 1))))

/-- GROUP_RESET (R382): returns a halted group to READY. -/
def execGroupReset (who : Requester) (g : Nat) (s : State) : Host.Outcome State Fault Refusal :=
  inRange (g < 4096) (fun _ => .next (s.gated who .ceGrpctl 0 (s.writeGrpctl (grpctlWord g 2))))

/-- GROUP_DISABLE (R372): releases a group's reserved area unless collectives are pending. -/
def execGroupDisable (who : Requester) (g : Nat) (s : State) : Host.Outcome State Fault Refusal :=
  inRange (g < 4096) (fun _ => .next (s.gated who .ceGrpctl 0 (s.writeGrpctl (grpctlWord g 3))))

/-- GROUP_ABORT (R382): acts as GRPABORT for the group. -/
def execGroupAbort (who : Requester) (g : Nat) (s : State) : Host.Outcome State Fault Refusal :=
  inRange (g < 4096) (fun _ => .next (s.gated who .ceGrpctl 0 (s.writeGrpctl (grpctlWord g 4))))

/-- The groups of a partition when it enters reset (R381): those with a collective in progress notify every member with
TARGET_IN_RESET, and all lose their state and are disabled. Its sends are discarded. -/
def State.ceResetPart (s : State) (p : Nat) : State :=
  let gs := (s.groups.map (fun kv => kv.1)).filter (fun g => s.groupState g ≠ 0 && (s.group g).part == p)
  let s1 := gs.foldl (fun t g =>
    let t1 := match (t.group g).current with
      | some k => t.notify g (CollArgs.of k.cmd.bytes).gseq St.targetInReset 0
      | none => t
    t1.dropGroup g) s
  let keep := fun (c : Ce) => { c with sends := c.sends.filter (fun x => x.cmd.part != p) }
  (s1.setCe 0 (keep (s1.ceOf 0))).setCe 1 (keep (s1.ceOf 1))

end Sys2Proof.Machine
end

