-- ==== Sys2Proof/Machine/Cmaf.lean ====
section
/-!
DEFINITION. The package of a clip (R413): INITSEG and SEGMENTs as ISO BMFF under CMAF. The forms of the boxes are those of ISO/IEC
14496-12 (log entry 33, PRESUMED); what the manual gives no value for is free, the same for the same request (R409).
-/

set_option Elab.async false

namespace Sys2Proof.Machine

open Sys2Proof

/-- What the bits of a clip depend on, beside the escalation decisions (R409): the record with its conditioning, the installed model and
the compiled job. -/
structure Clip where
  rcd   : List Byte
  model : List Byte
  job   : List Byte
  deriving DecidableEq, Repr

/-- Bytes of a box that the manual gives no value for. -/
def Clip.any (c : Clip) (field n : Nat) : List Byte := (List.range n).map (Config.boxByte c.rcd c.model c.job field)

/-- A box: its size, its type and its content. -/
def box (t : String) (b : List Byte) : List Byte := beBytes 4 (8 + b.length) ++ ascii t ++ b

/-- A box with a version and flags. -/
def fullBox (t : String) (version flags : Nat) (b : List Byte) : List Byte := box t (beBytes 1 version ++ beBytes 3 flags ++ b)

/-- The brands of a clip: cmfc and iso6 (R413). -/
def Clip.brands (c : Clip) (t : String) : List Byte :=
  box t ((if c.any 0 1 = [0x00#8] then ascii "iso6" else ascii "cmfc") ++ c.any 1 4 ++ ascii "cmfc" ++ ascii "iso6")

/-- The timescale: 1,000 x FPS (R413). -/
def Clip.timescale (c : Clip) : Nat := 1000 * num c.rcd 20 2

/-- Units of the timescale that a picture lasts (R413). -/
def sampleDuration : Nat := 1000

/-- The sample entry: hvc1 with its parameter sets for HEVC, av01 with its configuration record for AV1 (R408, R413). -/
def Clip.sampleEntry (c : Clip) : List Byte :=
  let hevc := decide (num c.rcd 28 1 ≤ 1)
  let visual := beBytes 6 0 ++ beBytes 2 1 ++ beBytes 16 0 ++ beBytes 2 (num c.rcd 16 2) ++ beBytes 2 (num c.rcd 18 2) ++
    beBytes 4 0x00480000 ++ beBytes 4 0x00480000 ++
    beBytes 4 0 ++ beBytes 2 1 ++ c.any 2 32 ++ beBytes 2 24 ++ beBytes 2 0xFFFF
  box (if hevc then "hvc1" else "av01") (visual ++ box (if hevc then "hvcC" else "av1C") (Config.codecConfig c.rcd c.model c.job))

/-- The one video track (R413, R414). -/
def Clip.track (c : Clip) : List Byte :=
  let tkhd := fullBox "tkhd" 0 3 (c.any 3 8 ++ beBytes 4 1 ++ c.any 4 60 ++
    beBytes 4 (num c.rcd 16 2 * 65536) ++ beBytes 4 (num c.rcd 18 2 * 65536))
  let mdhd := fullBox "mdhd" 0 0 (c.any 5 8 ++ beBytes 4 c.timescale ++ c.any 6 8)
  let hdlr := fullBox "hdlr" 0 0 (beBytes 4 0 ++ ascii "vide" ++ beBytes 12 0 ++ [0x00#8])
  let dinf := box "dinf" (fullBox "dref" 0 0 (beBytes 4 1 ++ fullBox "url " 0 1 []))
  let stbl := box "stbl" (fullBox "stsd" 0 0 (beBytes 4 1 ++ c.sampleEntry) ++ fullBox "stts" 0 0 (beBytes 4 0) ++
    fullBox "stsc" 0 0 (beBytes 4 0) ++
    fullBox "stsz" 0 0 (beBytes 8 0) ++ fullBox "stco" 0 0 (beBytes 4 0))
  box "trak" (tkhd ++ box "mdia" (mdhd ++ hdlr ++ box "minf" (fullBox "vmhd" 0 1 (beBytes 8 0) ++ dinf ++ stbl)))

/-- INITSEG (R413): ftyp with the brands, and moov with one video track. Samples last 1,000 units and are no random access points
unless a fragment says so. -/
def initSegment (c : Clip) : List Byte :=
  let mvex := box "mvex" (fullBox "trex" 0 0
    (beBytes 4 1 ++ beBytes 4 1 ++ beBytes 4 sampleDuration ++ beBytes 4 0 ++ beBytes 4 0x01010000))
  c.brands "ftyp" ++ box "moov" (fullBox "mvhd" 0 0 (c.any 7 96) ++ c.track ++ mvex)

/-- The moof of a fragment with number `index`: the time of its first picture, and the sizes of its samples, which begin at an offset
from its start; the first sample is a random access point (R413). -/
def moof (index first offset : Nat) (sizes : List Nat) : List Byte :=
  let tfhd := fullBox "tfhd" 0 0x020000 (beBytes 4 1)
  let tfdt := fullBox "tfdt" 1 0 (beBytes 8 (first * sampleDuration))
  let trun := fullBox "trun" 0 0x000205 (beBytes 4 sizes.length ++ beBytes 4 offset ++ beBytes 4 0x02000000 ++ sizes.flatMap (beBytes 4))
  box "moof" (fullBox "mfhd" 0 0 (beBytes 4 (index + 1)) ++ box "traf" (tfhd ++ tfdt ++ trun))

/-- SEGMENT `index` (R413): styp, then one fragment of moof and mdat, with the coded pictures from the picture `first` on. -/
def cmafSegment (c : Clip) (decisions index first pictures : Nat) : List Byte :=
  let samples := (List.range pictures).map (Config.sample c.rcd c.model c.job decisions index)
  let sizes := samples.map List.length
  let offset := (moof index first 0 sizes).length + 8
  c.brands "styp" ++ moof index first offset sizes ++ box "mdat" samples.flatten

end Sys2Proof.Machine
end

