-- ==== Sys2Proof/Machine/Sceman.lean ====
section
/-!
DEFINITION. Sceman's request protocol, admission and placement (R407 to R412, R457, R458, R483). Widths of the fields of its
answers, which the manual does not give, are those of log entry 32.
-/

set_option Elab.async false

namespace Sys2Proof.Machine

open Sys2Proof

/-- Replaces Sceman's tables. -/
def State.setSceman (s : State) (m : Sceman) : State := { s with sceman := m }

/-- Takes the oldest delivered message of one KIND of a session. -/
def State.withMsgKind (s : State) (sid kind : Nat) (go : State → Session → List Byte → State) : State :=
  match (s.session sid).bind (fun y => (y.inbox.find? (fun m => m.1 == kind)).map (fun m => (y, m))) with
  | none => s
  | some (y, m) =>
    let y1 := { y with inbox := y.inbox.erase m }
    go (s.setSession y1) y1 m.2

/-! ## Jobs and the assembly they were compiled for (R35, R279, R548) -/

/-- The body of the assembly record: words 2 to 7 (R548). -/
def assemblyWords : List Nat :=
  let w := [0x0801820C, 0x40242464, 0x03E809C4, 0x25802580, 0x00400040]
  w ++ [crc24 (w.flatMap (fun x => leBytes 4 x))]

/-- Whether a compiled job may run on this device: it was compiled for an assembly whose words 2 to 6 are the device's, and its chain's
placement names only coordinates within the axis lengths that SYS_COORD reports (R35, R279, R548). -/
def State.jobFits (s : State) (v : Variant) (c : Chain) : Bool :=
  v.words == assemblyWords.take 5 &&
    c.coords.all (fun x => decide (x.1 ≤ s.fld F.sysCoord_XLEN 0) && decide (x.2.1 ≤ s.fld F.sysCoord_YLEN 0) &&
      decide (x.2.2 ≤ s.fld F.sysCoord_ZLEN 0))

/-! ## Answers (R407) -/

/-- The body of ACCEPTED. -/
def Request.acceptedBody (r : Request) : List Byte := r.rid ++ leBytes 4 r.number ++ leBytes 8 r.pstart ++ leBytes 8 r.pend

/-- The body of COMPLETE. -/
def Request.completeBody (r : Request) : List Byte :=
  r.rid ++ [r.status] ++ leBytes 2 r.reason ++ leBytes 4 r.sent ++ leBytes 4 r.misses ++ leBytes 4 r.diverged

/-- The body of STATE. -/
def Request.stateBody (r : Request) : List Byte := r.rid ++ leBytes 1 r.state ++ leBytes 4 r.sent

/-- Sends REFUSED. -/
def State.refuseRequest (s : State) (sid : Nat) (rid : List Byte) (st : Byte) (reason : Nat) : State :=
  s.sendMessage sid 0x82 (rid ++ [st] ++ leBytes 2 reason)

/-- Replaces a request. -/
def State.putRequest (s : State) (r : Request) : State :=
  s.setSceman { s.sceman with requests := s.sceman.requests.map (fun q => if q.number = r.number then r else q) }

/-! ## Admission (R408, R410, R458) -/

/-- The class of a request. -/
def Request.cls (r : Request) : Nat := num r.rcd 8 2

/-- Whether a SUBMIT is well formed (R408, R410 step 1, R457). -/
def submitOk (b : List Byte) : Bool :=
  decide (64 ≤ b.length) && b.length == 64 + num b 48 4 && allZero (sub b 10 2) && allZero (sub b 29 3) && allZero (sub b 52 12) &&
    decide (num b 28 1 ≤ 3) && decide (num b 8 2 ≤ 63)

/-- The variant a SUBMIT matches (R410 step 4). -/
def Sceman.variantOf (m : Sceman) (b : List Byte) : Option Nat :=
  m.variants.findIdx? (fun v => v.model == num b 12 4 && v.cls == num b 8 2 && v.width == num b 16 2 && v.height == num b 18 2 &&
    v.fps == num b 20 2 && v.frames == num b 24 4)

/-- No variant. -/
def Variant.none : Variant := ⟨[], [], 0, 0, 0, 0, 0, 0, 0, 0, [], []⟩

/-- The plan of a variant on a partition: reconciled where Sceman has reconciled it (R483, R484). -/
def Variant.planOf (v : Variant) (p : Nat) : Nat :=
  let own := (v.plans.find? (fun x => x.1 == p)).map (fun x => x.2)
  ((v.recon.find? (fun x => x.1 == p)).map (fun x => x.2)).getD (own.getD 0)

/-- The order of a class queue: absolute deadline, then acceptance (R411). -/
def Request.before (a b : Request) : Bool := decide (a.deadline < b.deadline) || (a.deadline == b.deadline && decide (a.number < b.number))

/-- The waiting requests of a class. -/
def Sceman.queueOf (m : Sceman) (c : Nat) : List Request := m.requests.filter (fun r => r.state == 0 && r.cls == c)

/-- The head of a class queue. -/
def Sceman.headOf (m : Sceman) (c : Nat) : Option Request :=
  (m.queueOf c).foldl (fun h r => match h with | none => some r | some q => if r.before q then some r else some q) none

/-- The chain compiled for a variant that is idle first, with its time; the lowest number on a tie (R458). -/
def firstIdle (chains : List Chain) (v : Nat) (idle : List Nat) : Option (Nat × Nat) :=
  (chains.zip idle).zipIdx.foldl (fun m x =>
    if x.1.1.variants.contains v then
      match m with
      | none => some (x.2, x.1.2)
      | some (_, t) => if x.1.2 < t then some (x.2, x.1.2) else m
    else m) none

/-- Idle times of the chains after the requests of a list have taken theirs, in order (R458). -/
def Sceman.idleAfter (m : Sceman) : List Request → List Nat → List Nat
  | [], idle => idle
  | r :: rs, idle =>
    match firstIdle m.chains r.variant idle with
    | some (c, t) => m.idleAfter rs (idle.set c (t + ((m.variants[r.variant]?).map (fun v => v.docc)).getD 0))
    | none => m.idleAfter rs idle

/-- Puts a request into a list in queue order. -/
def insertReq (r : Request) : List Request → List Request
  | [] => [r]
  | q :: qs => if r.before q then r :: q :: qs else q :: insertReq r qs

/-- Planned start of a request whose turn comes at a deadline (R458); none without a chain compiled for it. -/
def Sceman.planStart (m : Sceman) (now c v deadline : Nat) : Option Nat :=
  let ahead := ((m.queueOf c).filter (fun r => decide (r.deadline ≤ deadline))).foldl (fun l r => insertReq r l) []
  let idle := m.chains.map (fun k => if k.busy.isSome then max now k.idleAt else now)
  (firstIdle m.chains v (m.idleAfter ahead idle)).map (fun x => max now x.2)

/-- An encoding that has not begun (R430). -/
def Encode.start : Encode := ⟨0, 0, none, none, [], false⟩

/-- A SUBMIT of a tenant: the checks of R410 in order, and its answer. -/
def State.submit (s : State) (y : Session) (b : List Byte) : State :=
  let m := s.sceman
  let rid := padTo 8 (b.take 8)
  let now := s.nowMs
  let c := num b 8 2
  let ten := m.tenants.find? (fun t => num t 0 4 == y.tenant)
  let crec := m.classes.getD c []
  let mine := m.requests.filter (fun r => r.tenant == y.tenant)
  match mine.find? (fun r => r.rid == rid && (decide (r.state < 2) || decide (now ≤ r.ended + 60000))) with
  | some r => s.sendMessage y.sid 0x81 r.acceptedBody
  | none =>
    if !submitOk b then s.refuseRequest y.sid rid St.ok 4
    else if !(match ten with | some t => bit (num t 4 8) c | none => false) then s.refuseRequest y.sid rid St.quota 1
    else if !m.models.any (fun x => x.1 == num b 12 4) then s.refuseRequest y.sid rid St.ok 2
    else match m.variantOf b with
      | none => s.refuseRequest y.sid rid St.ok 3
      | some v =>
        let V := m.variants.getD v Variant.none
        let dl := now + (if num b 44 4 = 0 then num crec 0 4 else num b 44 4)
        if (match ten with | some t => num t 12 2 | none => 0) ≤ (mine.filter (fun r => r.state < 2)).length then
          s.refuseRequest y.sid rid St.quota 5
        else if num crec 4 2 ≤ (m.queueOf c).length then s.refuseRequest y.sid rid St.quota 6
        else if V.plans.any (fun p => decide (s.fld F.pwrBudget_BUDGET p.1 < V.planOf p.1)) then s.refuseRequest y.sid rid St.budget 7
        else match (m.planStart now c v dl).filter (fun t => t + V.ddone ≤ dl) with
          | none => s.refuseRequest y.sid rid St.ok 8
          | some t =>
            let r : Request :=
              { number := m.nextNum, tenant := y.tenant, sid := y.sid, rid := rid, rcd := b, variant := v, accepted := now, deadline := dl,
                pstart := t, pend := t + V.ddone, state := 0, chain := 0, status := St.ok, reason := 0, held := [], sent := 0,
                misses := 0, diverged := 0, ended := 0, away := false, draining := false, escal := 0, enc := Encode.start }
            (s.setSceman { m with nextNum := m.nextNum + 1, requests := m.requests ++ [r] }).sendMessage y.sid 0x81 r.acceptedBody

/-- SUBMIT (R410): a SUBMIT is checked in order and answered ACCEPTED or REFUSED. Only TENANT sessions submit (R407). -/
def execSubmit (sid : Nat) (s : State) : Host.Outcome State Fault Refusal :=
  .next (s.withMsgKind sid 0x01 (fun t y b => if y.role = 0 then t.submit y b else t))

/-! ## Completion (R412, R457) -/

/-- The bucket of a latency in ms (R457). -/
def latencyBucket (l : Nat) : Nat := if l < 2048 then 0 else min 11 (Nat.log2 l - 10)

/-- Counts a completed request in its class record (R457): counts of 4 bytes that stop at their maximum. -/
def countClass (b : List Byte) (l : Nat) (met : Bool) : List Byte :=
  let up := fun (x : List Byte) (off : Nat) => patch x off (leBytes 4 (satAdd 32 (num x off 4) 1))
  if b.isEmpty then b else up (up b (if met then 8 else 12)) (16 + 4 * latencyBucket l)

/-- Ends a request: its chain is idle, its reservation is released, its class counts it, and COMPLETE is sent (R411, R412, R483). The
slot misses and diverged probes of a request that ran are those of the whole chain, whose other modules this device does not see: free
(log entry 33). -/
def State.completeRequest (s : State) (r : Request) (st : Byte) (reason : Nat) : State :=
  let m := s.sceman
  let now := s.nowMs
  let ran := decide (r.state = 1)
  let q := { r with
    state := 2, status := st, reason := reason, ended := now, held := if reason = 12 then [] else r.held,
    misses := if ran then Config.freeNat s.free 0 else 0, diverged := if ran then Config.freeNat s.free 1 else 0 }
  let chains := if r.state = 1 then m.chains.map (fun c => if c.busy = some r.number then { c with busy := none, idleAt := now } else c)
    else m.chains
  let c := r.cls
  let classes := m.classes.set c (countClass (m.classes.getD c []) (now - r.accepted) (decide (now ≤ r.deadline)))
  ((s.draw.setSceman { m with chains := chains, classes := classes }).putRequest q).sendMessage r.sid 0x85 q.completeBody

/-- CANCEL (R412): a queued request completes with REASON 9, the chain of a running one drains, and a completed one answers again. -/
def execCancel (sid : Nat) (s : State) : Host.Outcome State Fault Refusal :=
  .next (s.withMsgKind sid 0x02 (fun t y b =>
    match t.sceman.requests.reverse.find? (fun r => r.tenant == y.tenant && r.rid == padTo 8 b && y.role == 0) with
    | none => t
    | some r =>
      if r.state = 0 then t.completeRequest { r with sid := sid } St.ok 9
      else if r.state = 1 then t.putRequest { r with draining := true, reason := 9 }
      else t.sendMessage sid 0x85 r.completeBody))

/-! ## Segments (R408, R409, R413) -/

/-- SEGFR of a request: its field, or 2 s of frames (R408). -/
def Request.segfr (r : Request) : Nat := if num r.rcd 22 2 = 0 then 2 * num r.rcd 20 2 else num r.rcd 22 2

/-- Segments of a request's clip: SEGFR frames each, or 2 s of frames. -/
def Request.segments (r : Request) : Nat := ceilDiv (num r.rcd 24 4) (max 1 r.segfr)

/-- Index of the segment that a request's next pictures belong to. -/
def Request.segment (r : Request) : Nat := r.sent + r.held.length

/-- The pictures of that segment: SEGFR, or what is left of FRAMES. -/
def Request.pictures (r : Request) : Nat := min r.segfr (num r.rcd 24 4 - r.segment * r.segfr)

/-- The installed model and the compiled job of a request. -/
def Sceman.content (m : Sceman) (r : Request) : List Byte × List Byte :=
  (((m.models.find? (fun x => x.1 == num r.rcd 12 4)).map (fun x => x.2)).getD [], (m.variants.getD r.variant Variant.none).job)

/-- Sends a segment; INITSEG goes before the first (R413). -/
def State.sendSegment (s : State) (r : Request) (g : Nat × List Byte) : State :=
  let c := s.sceman.content r
  let s1 := if g.1 = 0 then s.sendMessage r.sid 0x83 (r.rid ++ initSegment ⟨r.rcd, c.1, c.2⟩) else s
  s1.sendMessage r.sid 0x84 (r.rid ++ leBytes 4 g.1 ++ g.2)

/-- The next segment of a request is complete: it is sent, or held while the request has no session (R412, R413). Its bytes are a
function of the request, its model and job, and the escalation decisions of its run alone (R409). -/
def State.segmentDone (s : State) (r : Request) : State :=
  let c := s.sceman.content r
  let g := (r.segment, cmafSegment ⟨r.rcd, c.1, c.2⟩ r.escal r.segment (r.segment * r.segfr) r.pictures)
  if r.away then s.putRequest { r with held := r.held ++ [g] }
  else (s.putRequest { r with sent := r.sent + 1 }).sendSegment r g

/-! ## Picture targets of the header firmware (R430) -/

/-- Bits per picture: floor(BITRATE x 1000 / FPS). -/
def Request.perPicture (r : Request) : Nat := num r.rcd 32 4 * 1000 / num r.rcd 20 2

/-- Weight of picture `j` of a segment: 4 for the I or key picture, 1 for the others. -/
def picWeight (j : Nat) : Nat := if j = 0 then 4 else 1

/-- Bits left of the segment's budget: SEGFR x a at its start. -/
def Request.left (r : Request) : Int := if r.enc.pos = 0 then (r.segfr * r.perPicture : Nat) else r.enc.rem

/-- B[j] of the next picture: the floor of its share of what is left. -/
def Request.target (r : Request) : Int :=
  let j := r.enc.pos
  let w := ((List.range r.segfr).filter (fun k => decide (j ≤ k))).foldl (fun n k => n + picWeight k) 0
  Int.fdiv (r.left * picWeight j) w

/-- DEPTH of a request: 10 for HEVC Main 10 and 10-bit AV1 (R408). -/
def Request.depth (r : Request) : Nat := if num r.rcd 28 1 % 2 = 1 then 10 else 8

/-- The clamp of an integer between two bounds. -/
def clampInt (v lo hi : Int) : Int := min hi (max lo v)

/-- QP0 of the next picture: the first of the request, the first P picture, or from the previous picture of the same type. The manual
gives no result for a target of 0, so that the step is then free within its clamp (log entry 33). -/
def Request.qp0 (r : Request) (free : Nat) : Int :=
  let same := if r.enc.pos = 0 then r.enc.intra else r.enc.inter
  match same, r.enc.intra with
  | some (q, b), _ =>
    let d := if r.target = 0 then (Config.freeNat free 0 % 13 : Nat) - (6 : Int) else Int.fdiv (12 * ((b : Int) - r.target)) r.target
    clampInt (q + d) ((q : Int) - 6) (q + 6)
  | none, some (q, _) => (q : Int) + 2
  | none, none => 30 + 6 * (r.depth - 8 : Nat)

/-- A number as an unsigned field of a descriptor; one that does not fit has no stated value and is free (log entry 33). -/
def fieldOf (free n : Nat) (v : Int) : List Byte :=
  if 0 ≤ v ∧ v < 256 ^ n then leBytes n v.toNat else (List.range n).map (Config.freeByte free)

/-- The descriptor of a request's next picture: the firmware sets the references, up to 4 of the segment's previous pictures, QP0 and
BTARGET (R430); how many of the latest it takes is its choice (log entry 33). -/
def Request.describe (r : Request) (free : Nat) (d : List Byte) : List Byte :=
  let prev := (r.enc.dests.filter (fun e => e != num d 44 1)).take 4
  let refs := prev.take (1 + Config.freeNat free 1 % 4)
  let d1 := patch d 45 (leBytes 1 refs.length ++ padTo 7 (refs.flatMap (leBytes 1)))
  patch (patch d1 54 (fieldOf free 1 (r.qp0 free))) 60 (fieldOf (free + 1) 4 r.target)

/-- What a coded picture leaves of its request's encoding: QPAVG, BITS, and the budget less eight bits for each byte of its NAL units or
OBUs, the firmware's headers among them, whose bytes are free (R430; log entry 33). -/
def Encode.after (e : Encode) (left : Int) (qp bits bytes dest : Nat) : Encode :=
  { e with
    pos := e.pos + 1, rem := left - 8 * bytes, busy := false, dests := dest :: e.dests
    intra := if e.pos = 0 then some (qp, bits) else e.intra
    inter := if e.pos = 0 then e.inter else some (qp, bits) }

/-- A picture of a request is coded: its encoding goes on, and with the last picture of a segment the segment is complete (R413, R430).
-/
def State.pictureCoded (s : State) (number qp bits bytes dest : Nat) : State :=
  match s.sceman.requests.find? (fun r => r.number == number && r.state == 1) with
  | none => s
  | some r =>
    let e := r.enc.after r.left qp bits (bytes + Config.freeNat s.free 0) dest
    if e.pos < r.pictures then s.draw.putRequest { r with enc := e }
    else s.draw.segmentDone { r with enc := { e with pos := 0, dests := [] } }

/-- QUERY (R407, R412): a QUERY returns a request's STATE and delivers the segments held for its tenant. -/
def execQuery (sid : Nat) (s : State) : Host.Outcome State Fault Refusal :=
  .next (s.withMsgKind sid 0x03 (fun t y b =>
    match t.sceman.requests.reverse.find? (fun r => r.tenant == y.tenant && r.rid == padTo 8 b && y.role == 0) with
    | none => t
    | some r =>
      let q := { r with sid := sid, away := false, held := [], sent := r.sent + r.held.length }
      let t1 := (t.putRequest q).sendMessage sid 0x86 q.stateBody
      r.held.foldl (fun u g => u.sendSegment q g) t1))

/-- Energy reserved on a partition: the reconciled plans of the requests running on it (R483). -/
def Sceman.reserved (m : Sceman) (p : Nat) : Nat :=
  m.requests.foldl (fun n r => if r.state = 1 then n + ((m.variants[r.variant]?).map (fun v => v.planOf p)).getD 0 else n) 0

/-- Whether a chain can take a request: compiled for it, idle, and with budget (R411, R483). -/
def State.chainTakes (s : State) (v : Nat) (c : Chain) : Bool :=
  let m := s.sceman
  let plan := fun p => ((m.variants[v]?).map (fun x => x.planOf p)).getD 0
  c.variants.contains v && c.busy.isNone && c.parts.all (fun p => decide (m.reserved p + plan p ≤ s.fld F.pwrBudget_BUDGET p))

/-- Writes the seeds of a job where it lists them: the mixer of R57 over SEED, with i = 0, 1, 2 and so on (R409). -/
def State.putSeeds (s : State) (p seed : Nat) (at_ : List Nat) : State :=
  at_.zipIdx.foldl (fun t x => (t.store x.1 (leBytes 8 (mixer seed x.2))).putTouch 0 p noEg x.1 8) s

/-- Starts a placed request: its record goes to the chain's request area, the job's seeds are derived, and the start objects are
signalled (R409, R411). The escalation decisions of its run are free (log entry 33). -/
def State.startRequest (s : State) (r : Request) (n : Nat) (c : Chain) : State :=
  let m := s.sceman
  let p := c.parts.headD 0
  let occ := ((m.variants[r.variant]?).map (fun v => v.docc)).getD 0
  let s1 := s.draw.setSceman { m with chains := m.chains.set n { c with busy := some r.number, idleAt := s.nowMs + occ } }
  let s2 := (s1.putRequest { r with state := 1, chain := n, escal := Config.freeNat s.free 0, enc := Encode.start }).store c.area r.rcd
  let s3 := (s2.putTouch 0 p noEg c.area r.rcd.length).putSeeds p (num r.rcd 36 8) c.seeds
  c.starts.foldl (fun t o => (t.objOp o 2 1#32 t.cycle).2) s3

/-- A job that does not fit the device is refused and reported as failed: COMPLETE with REASON 12 and a STATUS that the manual does not
give (R279; log entry 32). -/
def State.refuseJob (s : State) (r : Request) : State := s.draw.completeRequest r (Config.freeByte s.free 0) 12

/-- REQUEST_PLACEMENT (R411): the head of a class queue is placed on the lowest suitable idle chain with budget and starts, unless the
job does not fit the device (R279). -/
def execRequestPlacement (cls : Nat) (s : State) : Host.Outcome State Fault Refusal :=
  .next (match s.sceman.headOf cls with
    | none => s
    | some r => match s.sceman.chains.findIdx? (s.chainTakes r.variant) with
      | none => s
      | some n => match s.sceman.chains[n]? with
        | some c => if s.jobFits (s.sceman.variants.getD r.variant Variant.none) c then s.startRequest r n c else s.refuseJob r
        | none => s)

/-- The STATUS and REASON of a request that ends: a failure is the higher status beside a cancellation (R19, R410, R412). -/
def reasonOf (r : Request) (st : Byte) : Byte × Nat :=
  if st = St.targetInReset then (st, 11)
  else if st = St.sentinelDiverged ∨ 0x10 ≤ st.toNat then (st, 12)
  else if r.draining then (St.ok, r.reason)
  else (st, 0)

/-- REQUEST_COMPLETE (R412): a finished, failed or reset request is reported with COMPLETE and releases its reservation. -/
def execRequestComplete (req : Nat) (status : Byte) (s : State) : Host.Outcome State Fault Refusal :=
  .next (match s.sceman.requests.find? (fun r => r.number == req && r.state == 1) with
    | none => s
    | some r => s.completeRequest r (reasonOf r status).1 (reasonOf r status).2)

/-- SESSION_LOST_TIMEOUT (R412): a running request with no session of its tenant for 30 s is cancelled with REASON 10. -/
def execSessionLostTimeout (req : Nat) (s : State) : Host.Outcome State Fault Refusal :=
  .next (match s.sceman.requests.find? (fun r => r.number == req && r.state == 1 && r.away) with
    | none => s
    | some r => s.putRequest { r with draining := true, reason := 10 })

/-- TENANT_TABLE_REWRITE (R457): an OPERATOR session rewrites Sceman's tenant table or class table. -/
def execTenantTableRewrite (sid : Nat) (isClass : Bool) (recs : List (List Byte)) (s : State) : Host.Outcome State Fault Refusal :=
  .next (match (s.session sid).filter (fun y => 2 ≤ y.state && y.role == 1) with
    | none => s
    | some _ =>
      if isClass then s.setSceman { s.sceman with classes := (recs.take 64).map (padTo 64) }
      else s.setSceman { s.sceman with tenants := recs.map (padTo 32) })

/-! ## Fetching from REPOSITORY peers (R305, R407) -/

/-- The numbers of a field of fetched content: their count first. -/
def contentList (b : List Byte) (field : Nat) : List Nat :=
  (List.range (Config.contentNum b field 0)).map (fun i => Config.contentNum b field (i + 1))

/-- The compiled variant that content carries; its body is the compiled job. -/
def contentVariant (b : List Byte) : Variant :=
  let n := fun f => Config.contentNum b f 0
  { words := contentList b 0, job := b, model := n 1, cls := n 2, width := n 3, height := n 4, fps := n 5, frames := n 6, docc := n 7,
    ddone := n 8, plans := (contentList b 9).zip (contentList b 10), recon := [] }

/-- The chain that content carries. -/
def contentChain (b : List Byte) : Chain :=
  { variants := contentList b 0, parts := contentList b 1, area := Config.contentNum b 2 0, starts := contentList b 3, busy := none,
    idleAt := 0, coords := (contentList b 4).zip ((contentList b 5).zip (contentList b 6)), seeds := contentList b 7 }

/-- Whether two variants serve the same requests. -/
def Variant.same (a b : Variant) : Bool :=
  a.model == b.model && a.cls == b.cls && a.width == b.width && a.height == b.height && a.fps == b.fps && a.frames == b.frames

/-- Installs fetched content in Sceman's tables (R407, R410; log entry 32): a variant that is installed again loses its reconciled plans
(R484). -/
def Sceman.install (m : Sceman) (b : List Byte) : Sceman :=
  match Config.contentKind b with
  | 1 =>
    let i := Config.contentNum b 0 0
    { m with models := m.models.filter (fun x => x.1 != i) ++ [(i, b)] }
  | 2 =>
    let v := contentVariant b
    { m with variants := match m.variants.findIdx? (fun w => w.same v) with
      | some i => m.variants.set i v
      | none => m.variants ++ [v] }
  | 3 => { m with chains := m.chains ++ [contentChain b] }
  | _ => m

/-- One message from a REPOSITORY peer lands in T1, at an address and in the slots of a partition that Sceman chooses, and is installed
(R305, R407; log entry 32). -/
def State.fetched (s : State) (b : List Byte) : State :=
  let a := Config.freeNat s.free 0 % (432 * gib - b.length)
  let s1 := (s.draw.store a b).putTouch 0 (Config.freeNat s.free 1 % 8) noEg a b.length
  s1.setSceman (s1.sceman.install b)

/-- Sceman takes the delivered messages of a session with a REPOSITORY peer. -/
def State.takeFetched (s : State) (sid : Nat) : State :=
  match (s.session sid).filter (fun y => y.role == 2) with
  | none => s
  | some y => y.inbox.foldl (fun t m => t.fetched m.2) (s.setSession { y with inbox := [] })

/-- BIRSAN_DATA (R401): a received DATA packet places message bytes at OFFSET and delivers complete messages; Sceman takes those of a
REPOSITORY peer at once (R407). -/
def execBirsanData (e : Nat) (s : State) : Host.Outcome State Fault Refusal :=
  inRange (e < 4) (fun _ => .next (s.withRx e 20 (fun s x => s.withOpen e x (fun s y p => (s.takeData y x p).takeFetched y.sid))))

end Sys2Proof.Machine
end

