-- ==== Sys2Proof/Machine/Reset.lean ====
section
/-!
DEFINITION. The resets of R512 to R516 as shared operations: seasons, what a partition, compute-only, PCIe-port and module reset do
to the state, the start of a boot attempt, ALERT_N (R564) and critical readings (R494).
-/

set_option Elab.async false

namespace Sys2Proof.Machine

open Sys2Proof

/-! ## Sparse tables -/

/-- Changes listed values by a function, keeping the canonical form. -/
def Sparse.remap {α : Type} [DecidableEq α] (d : Nat → α) (f : Nat → α → α) (m : Sparse α) : Sparse α :=
  m.filterMap (fun kv => if f kv.1 kv.2 = d kv.1 then none else some (kv.1, f kv.1 kv.2))

/-- Returns the registers that a predicate on code and index chooses to their reset values (R514). -/
def State.dropRegs (s : State) (p : Nat → Nat → Bool) : State :=
  { s with regs := Sparse.drop (fun k => p (k % 256) (k / 256)) s.regs
           hi := Sparse.drop (fun k => p (k % 256) (k / 256)) s.hi }

/-- Changes the words of one register name, for the indexes a predicate chooses. -/
def State.mapRegs (s : State) (n : RegName) (p : Nat → Bool) (f : Word → Word) : State :=
  { s with regs := Sparse.remap regDefault (fun k v => if k % 256 = n.code && p (k / 256) then f v else v) s.regs }

/-- Register codes. -/
def codesOf (l : List RegName) : List Nat := l.map RegName.code

/-! ## ALERT_N (R564) -/

/-- A condition of ALERT_N arises; in I3C mode the assertion raises an in-band interrupt (R566). -/
def State.raiseAlert (s : State) : State :=
  if s.sage.alert then s
  else
    let s1 := { s with sage := { s.sage with alert := true } }
    if s.mgmt.i3c.isSome then s1.send .ibi else s1

/-- Releases ALERT_N when none of its conditions holds. -/
def State.settleAlert (s : State) : State :=
  if s.sage.failed || s.sage.critical || s.flag F.pwrStat_STUCK 0 then s
  else { s with sage := { s.sage with alert := false } }

/-! ## Seasons (R508, R509) -/

/-- Changes a partition's season and posts SEASON; `lim` marks the Autumn limit (R511, R551). -/
def State.setSeason (s : State) (p v : Nat) (lim : Bool) : State :=
  if s.season p = v then s
  else (s.setFld F.sysPseason_SEASON p v).event evSeason St.ok (some p) p (v + 256 * b2n lim)

/-- Changes the season of the compute die and posts SEASON. -/
def State.setDie (s : State) (v : Nat) : State :=
  if s.dieSeason = v then s else (s.setFld F.sysSeason_DIE 0 v).event evSeason St.ok none 0xFF v

/-! ## Stopping (R513) -/

/-- Keeps the memory requests that a reset of the partitions `mp` lets complete: writes accepted, and host accesses (R513). -/
def MemCtl.discard (m : MemCtl) (mp : Nat → Bool) : MemCtl :=
  let gone := fun (r : MemReq) => mp r.part && r.uid != 0
  { m with queues := Sparse.remap (fun _ => []) (fun _ l => l.filter (fun r => !(gone r && r.kind == .read))) m.queues
           reads := m.reads.filter (fun o => !gone o.req) }

/-- Stops the commands of the partitions `mp`, with the queues `mq` and the engine groups `me`: what is decoded, issued or
finished and not drained is discarded, and the units stop (R513). -/
def State.discard (s : State) (mp mq me : Nat → Bool) : State :=
  let c := s.cp
  { s with
    cp := { c with
      window := Sparse.remap (fun _ => []) (fun _ l => l.filter (fun d => !mq d.queue)) c.window
      posts := Sparse.drop (fun k => me (k / 16)) c.posts
      holds := c.holds.filter (fun h => !mp h.cmd.part)
      inflight := c.inflight.filter (fun x => !mp x.part)
      parked := c.parked.filter (fun k => !mp k.cmd.part)
      collector := Sparse.remap (fun _ => []) (fun _ l => l.filter (fun k => !mp k.cmd.part)) c.collector
      queues := Sparse.drop mq c.queues
      traces := Sparse.drop (fun u => s.cmdsInFlight.any (fun x => x.uid == u && mp x.part)) c.traces
      bsets := c.bsets.filter (fun x => !mp (x.2.1 / 256)) }
    memc := Sparse.remap (fun _ => MemCtl.reset) (fun _ m => m.discard mp) s.memc
    te := Sparse.remap (fun _ => Te.reset) (fun eg t => if me eg then { Te.reset with tags := t.tags } else t) s.te
    cores := Sparse.remap (fun _ => Core.reset) (fun k v => if me (k / 16) then { v with running := false, wait := .none } else v) s.cores
    clrun := Sparse.drop me s.clrun }

/-- The tables that an engine group's resets and its partition's Spring empty: SFU slots 7 to 15 and every slot of its coder (R151, R341,
R510). -/
def State.dropTables (s : State) (me : Nat → Bool) : State :=
  { s with
    sfuTab := Sparse.drop (fun k => me (k / 32) && decide (14 ≤ k % 32)) s.sfuTab
    codeTab := Sparse.drop (fun k => decide (k / 16 < 128) && me (k / 16)) s.codeTab }

/-- Keeps WINDOW of CP_STAT equal to the windows' lengths (R267). -/
def State.settleWindows (s : State) : State :=
  (List.range 4).foldl (fun t f => t.setWindow f (t.window f)) s

/-- Stops the schedule wheels of engine groups; writes that wait for a revolution stand (R445). -/
def State.stopWheels (s : State) (me : Nat → Bool) : State :=
  let s1 := (s.wheels.filter (fun kv => me kv.1)).foldl (fun t kv => t.takeWheelWrites kv.1) s
  { s1 with wheels := Sparse.drop me s1.wheels }

/-- Running requests on chains with one of the partitions complete with TARGET_IN_RESET, REASON 11 (R412). -/
def State.failRequests (s : State) (mp : Nat → Bool) : State :=
  (s.sceman.requests.filter (fun r => r.state == 1 &&
    ((s.sceman.chains[r.chain]?).map (fun c => c.parts.any mp)).getD false)).foldl
      (fun t r => t.completeRequest r St.targetInReset 11) s

/-! ## Partition reset (R512 to R514) -/

/-- Registers of queues that return to their reset values. -/
def queueRegs : List Nat := codesOf [.qStat, .qCmpidx, .qCmplost]

/-- Registers of the EG, TE, SFU, WAG, TRN and CMP blocks. -/
def egRegs : List Nat := codesOf [.egStat, .egSentstat, .egBstat, .egBfaultpcLo, .egBfaultpcHi, .teCvtcnta, .teCvtcntb, .teSpillcnt,
  .sfuStat, .sfuTblstat, .sfuTblloaded, .wagStat, .trnStat, .trnFrozen, .cmpTblstat, .cmpStat]

/-- The registers that a reset of partition p returns to their reset values (R513, R514). -/
def State.partReg (s : State) (p code i : Nat) : Bool :=
  (queueRegs.contains code && s.qPart i == p) || (egRegs.contains code && i < 128 && s.egPart i == some p) ||
  (code == RegName.cpBound.code && i / 256 == p) ||
  ((code == RegName.cpJstat.code || code == RegName.cpJdlcnt.code || code == RegName.cpJwait.code) && i / 8 == p) ||
  (code == RegName.cpJhist.code && i / 64 == p) || (code == RegName.sysDetstat.code && i == p) ||
  (code == RegName.syncObj.code && s.objPart i == p)

/-- PART and MODE of SYNC_CFG alone (R513). -/
def keepPartMode (v : Word) : Word := BitVec.ofNat 32 (v.toNat % 16)

/-- The state that queues, objects, jobs, SFUs and coders of partition p lose in its reset (R151, R341, R453, R513, R514). -/
def State.clearPart (s : State) (p : Nat) : State :=
  let t := s.dropTables (fun eg => s.egPart eg == some p)
  let s1 := { t with
    cp := { t.cp with objLimit := Sparse.drop (fun o => s.objPart o == p) t.cp.objLimit }
    jobs := Sparse.drop (fun k => k / 8 == p) t.jobs
    reload := Sparse.drop (fun k => k / 1024 == p) t.reload
    saved := Sparse.drop (fun k => k / 8 == p) t.saved }
  let s2 := (s1.dropRegs (s.partReg p)).mapRegs .syncCfg (fun o => s.objPart o == p) keepPartMode
  s2.mapRegs .qCfg (fun q => s.qPart q == p) (fun v => putField v F.qCfg_ENABLE.lo F.qCfg_ENABLE.width 0)

/-- The reset of partition p: its units stop, its commands are discarded, its queues and objects are reset, its collectives end,
its requests fail and it enters Winter (R381, R412, R453, R513, R514). -/
def State.resetPart (s : State) (p : Nat) (lim : Bool) : State :=
  let me := fun eg => s.egPart eg == some p
  let s1 := (s.setSeason p winter lim).ceResetPart p
  let s2 := s1.stopWheels me
  let s3 := (s2.discard (fun x => x == p) (fun q => s.qPart q == p) me).settleWindows
  (s3.clearPart p).failRequests (fun x => x == p)

/-! ## Compute-only reset (R512 to R514, R307) -/

/-- Whether an address lies on the compute die or in T1: contents that do not survive CRST_N (R307, R512). -/
def onDie (a : Nat) : Bool :=
  match region a with
  | some .t1 | some (.opSram _) | some (.acc _) | some (.clu _) | some .ms => true
  | _ => false

/-- CP registers that a compute-only reset returns to their reset values (R514). -/
def cpRegs : List Nat := codesOf [.cpBound, .cpStat, .cpJctl, .cpJstat, .cpJdlcnt, .cpJwait, .cpJhist, .cpWstat]

/-- The registers that a compute-only reset returns to their reset values (R514). -/
def dieReg (code i : Nat) : Bool :=
  (egRegs.contains code && i < 128) || cpRegs.contains code || queueRegs.contains code ||
  code == RegName.syncObj.code || code == RegName.syncCfg.code ||
  ((code == RegName.memEccstat.code || code == RegName.memSlotmiss.code || code == RegName.memRepair.code) && i < 192) ||
  code == RegName.sysDetstat.code

/-- What the compute die loses in a compute-only reset. The service cores lie outside it (R230). -/
def State.clearDie (s : State) : State :=
  let all := fun (_ : Nat) => true
  let s1 := (s.stopWheels all).discard all all all
  let chans := (List.range 192).map (fun c => (c, { MemCtl.reset with at_ := s.cycle }))
  let s2 := { s1 with
    mem := Sparse.drop onDie s1.mem
    bad := s1.bad.filter (fun a => !onDie a)
    cp := { CpState.reset with nextUid := s1.cp.nextUid, evSeq := s1.cp.evSeq }
    jobs := []
    reload := []
    saved := []
    memc := (if s.cycle = 0 then [] else chans) ++ s1.memc.filter (fun (kv : Nat × MemCtl) => decide (192 ≤ kv.1))
    te := []
    sfuTab := []
    codeTab := Sparse.drop (fun k => k / 16 < 128) s1.codeTab
    cores := Sparse.drop (fun k => decide (k / 16 < 128)) s1.cores
    clrun := [] }
  (s2.dropRegs dieReg).mapRegs .qCfg all (fun v => putField v F.qCfg_ENABLE.lo F.qCfg_ENABLE.width 0)

/-- The die enters Winter: every partition does, collectives end, requests fail, and the die's state is lost (R508, R512). -/
def State.dieWinter (s : State) : State :=
  let s1 := (List.range 8).foldl (fun t p => (t.setSeason p winter false).ceResetPart p) s
  ((s1.setDie winter).clearDie).failRequests (fun _ => true)

/-! ## The start of boot stages (R517, R527) -/

/-- Comes to a stage: under STEP Sage stops before it (R527). -/
def State.enterStage (s : State) (n : Nat) : State :=
  let step := s.flag F.bootCtl_STEP 0
  let s1 := (s.setFld F.bootStat_STAGE 0 n).setFld F.bootStat_STEPWAIT 0 (b2n step)
  { s1 with sage := { s1.sage with phase := if step then .stepWait else .ready } }

/-- Whether the inputs let the module run: rails on, PRESENT_N mated, oscillator, PWRGOOD and RESET_N high, temperatures (R494,
R559 to R563). -/
def Board.runs (b : Board) : Bool := b.shut.isNone && b.mated && b.osc && b.pwrgood && b.resetN && !b.hotIo

/-- Starts a boot attempt when the inputs let a held module run (R561); TIME restarts (R550). -/
def State.tryStart (s : State) : State :=
  if s.board.runs && s.sage.phase == .held then { s with tick := 0 }.enterStage 0 else s

/-! ## PCIe port reset (R512, R514, R535) -/

/-- A port that loses its reference, link or partner: its functions lose their configuration, T3 reads on their way complete with
ECC_UNCORRECTED, and HOSTLINK goes to ring 18 and the other port's PF (R535). -/
def State.portDown (s : State) (d : Nat) : State :=
  let reads := (s.ctl (216 + d)).reads
  let s1 := { s with pci := Sparse.drop (fun f => f / 9 == d) s.pci, spdm := Sparse.drop (fun x => x == d) s.spdm }
  let s2 := (s1.setReg .pciStat d 0#32).setCtl (216 + d) { s1.ctl (216 + d) with reads := [] }
  let s3 := reads.foldl (fun t o =>
    (if o.req.uid = 0 then t else t.failRead o.req.uid o.req.unit).unpark o.req.uid) s2
  let rcd := eventRecord evHostlink St.ok none s3.cp.evSeq s3.tick d (s3.reg .pciStat d).toNat
  let s4 := { s3 with cp := { s3.cp with evSeq := (s3.cp.evSeq + 1) % 2 ^ 32 } }
  [9 * (1 - d), 18].foldl (fun t f => t.ringWrite f none rcd) s4

/-- PERST of a port: as a lost link, and its other PCI registers but PCI_FNMAP and PCI_T3XLAT are reset (R514, R535; log entry
34). -/
def State.portReset (s : State) (d : Nat) : State :=
  let s1 := s.portDown d
  s1.dropRegs (fun code i => (code == RegName.pciVfctl.code || code == RegName.pciErrcnt.code) && i == d)

/-! ## Module reset (R512, R514, R532) -/

/-- The registers that a module reset keeps: BOOT, the fuse-backed fields of SEC and SYS_RSTCAUSE (R514). -/
def keptReg (boot : Bool) (code : Nat) : Bool :=
  (boot && (codesOf [.bootStat, .bootCtl, .bootHaddrLo, .bootHaddrHi]).contains code) ||
    (codesOf [.secStat, .secSvn, .sysRstcause]).contains code

/-- What Sage keeps through a module reset: fuses, flash and the conditions of ALERT_N. -/
def Sage.afterReset (g : Sage) (boot : Bool) : Sage :=
  { Sage.reset with
    phase := .held, uds := g.uds, fuseImg := g.fuseImg, fuseOwn := g.fuseOwn, serial := g.serial, flash := g.flash
    alert := g.alert, critical := g.critical, failed := g.failed && boot }

/-- Module reset: everything but the always-on domain and the fuses; BOOT stays unless PWRGOOD fell (R512, R514, R532). The
module is then held until its inputs let it run. -/
def State.moduleReset (s : State) (boot : Bool) : State :=
  let s1 := { State.reset with
    pending := s.pending, free := s.free, resp := s.resp, out := s.out
    regs := Sparse.drop (fun k => !keptReg boot (k % 256)) s.regs
    sage := s.sage.afterReset boot
    board := s.board
    mgmt := { Mgmt.reset with strap := s.mgmt.strap } }
  (s1.setFld F.secStat_UDSLOCK 0 0).setFld F.sysSeason_CRSTHELD 0 (s.fld F.sysSeason_CRSTHELD 0)

/-- CRST_N is honoured active, or a compute reading is critical (R494, R512): the die is in Winter, and the boot attempt repeats
from stage 5 once it may; an attempt in Spring does not count as failed (R516). -/
def State.crstReset (s : State) : State :=
  let s1 := s.dieWinter.setFld F.sysRstcause_CRST 0 1
  if s.dieSeason = winter then s1
  else { s1 with sage := { s1.sage with wave := 0 } }.enterStage 5

/-! ## Critical readings (R494) -/

/-- A critical reading: THERMAL names the sensor, and ALERT_N is asserted (R494, R564). -/
def State.criticalEvent (s : State) (sensor temp : Nat) : State :=
  { s with sage := { s.sage with critical := true } }.raiseAlert.event evThermal St.ok none sensor temp

/-- A critical reading of the compute die or a stack (R494). -/
def State.criticalDie (s : State) : State :=
  { s.crstReset with board := { s.board with hotDie := true } }

/-- A critical reading of an I/O die or LP5X package, or of the power stage (R494, R560): every rail but the always-on one turns
off. -/
def State.criticalIo (s : State) : State :=
  let s1 := (s.moduleReset true).setFld F.sysRstcause_IOTEMP 0 1
  { s1 with board := { s1.board with hotIo := true, hotDie := false } }

end Sys2Proof.Machine
end

