-- ==== Sys2Proof/Machine/Power.lean ====
section
/-!
DEFINITION. Energy accounts, budgets and caps, the limiters and the compute clock, supply sag, THROTTLE_N and temperatures (chapter
18). Commands count their activity where they run (`State.act`).
-/

set_option Elab.async false

namespace Sys2Proof.Machine

open Sys2Proof

/-! ## Energy accounts (R476 to R484) -/

/-- The partition a block is assigned to in a word of SYS_PARTMAP. -/
def blockIn (w : Word) (b : Nat) : Option Nat :=
  let v := bits w.toNat (4 * b) 4
  if bit v 3 then some (v % 8) else none

/-- The activity of a sample with its static part: 40 uJ for each assigned block, by the map at the sample's start, and 2,150 uJ
for the shared account (R478). -/
def Power.sampleAct (p : Power) : List Nat :=
  (List.range 9).map (fun a =>
    p.act.getD a 0 + (if a = 8 then 2150000000 * 256 else 0) +
      ((List.range 8).filter (fun b => blockIn p.map b == some a)).length * (40000000 * 256))

/-- The division of a sample's energy M by activity, the remainder to account 8 (R478). -/
def shares (m : Nat) (act : List Nat) : List Nat :=
  let total := act.foldl (fun x y => x + y) 0
  let e := act.map (fun a => m * a / total)
  e.set 8 (e.getD 8 0 + (m - e.foldl (fun x y => x + y) 0))

/-- The end of a sample (R476 to R478). -/
def State.sample (s : State) (m : Nat) : State :=
  let p := s.power
  { s with power := { p with
      act := List.replicate 9 0
      sums := p.sums.zipWith (fun x y => x + y) (shares m p.sampleAct)
      map := s.reg .sysPartmap 0
      budWas := p.budNow
      budNow := (List.range 8).map (fun q => s.fld F.pwrBudget_BUDGET q) } }

/-- ENERGY_SAMPLE (R477): the energy of a 10 us sample is divided among the nine accounts. -/
def execEnergySample (microjoules : Nat) (s : State) : Host.Outcome State Fault Refusal := .next (s.sample microjoules)

/-- Whether a partition owns a block. -/
def State.ownsBlock (s : State) (p : Nat) : Bool := (List.range 8).any (fun b => s.blockPart b == some p)

/-- RESERVE and the budgets of the partitions that own a block (R481). -/
def State.planSum (s : State) (budget : Nat → Nat) (reserve : Nat) : Nat :=
  (List.range 8).foldl (fun n p => if s.ownsBlock p then n + budget p else n) reserve

/-- The variants running on a partition. -/
def Sceman.runningOn (m : Sceman) (p : Nat) : List Nat :=
  ((m.requests.filter (fun r => r.state == 1 && ((m.chains[r.chain]?).map (fun c => c.parts.contains p)).getD false)).map
    (fun r => r.variant)).eraseDups

/-- E_plan of a variant on a partition. -/
def Variant.ePlan (v : Variant) (p : Nat) : Nat := ((v.plans.find? (fun x => x.1 == p)).map (fun x => x.2)).getD 0

/-- Sceman reconciles the plans of the variants running on a partition over its budget (R484). -/
def State.reconcile (s : State) (p ewin : Nat) : State :=
  let m := s.sceman
  let vs := m.runningOn p
  let total := vs.foldl (fun n i => n + ((m.variants[i]?).map (fun v => v.ePlan p)).getD 0) 0
  let up := fun (v : Variant) =>
    let new := max (v.planOf p) (ceilDiv (v.ePlan p * ewin) total)
    { v with recon := v.recon.filter (fun x => x.1 != p) ++ [(p, new)] }
  s.setSceman { m with variants := (m.variants.zip (List.range m.variants.length)).map (fun x =>
    if vs.contains x.2 && decide (0 < total) then up x.1 else x.1) }

/-- A partition over its budget: counted, reported, and its plans reconciled (R484). -/
def State.overBudget (s : State) (p ewin : Nat) : State :=
  ((s.count F.pwrOver_WINDOWS p 1).event evEnergy St.budget (some p) (s.reg .pwrWinseq 0).toNat ewin).reconcile p ewin

/-- The window limiter at a window's end (R488). -/
def State.windowLimit (s : State) (total : Nat) (inForce : Bool) : State :=
  let cap := s.fld F.pwrCap_WINCAP 0 * 1000
  let lvl := s.fld F.pwrStat_LWIN 0
  if inForce then { s with power := { s.power with lows := 0 } }
  else if cap < total then { s with power := { s.power with lows := 0 } }.setFld F.pwrStat_LWIN 0 (lvl - 1)
  else if total * 100 < cap * 95 then
    if s.power.lows + 1 < 10 then { s with power := { s.power with lows := s.power.lows + 1 } }
    else { s with power := { s.power with lows := 0 } }.setFld F.pwrStat_LWIN 0 (min 15 (lvl + 1))
  else { s with power := { s.power with lows := 0 } }

/-- The end of a window: accounts are reported, overruns counted, plans reconciled and the window limiter steps; a budget written in
the last sample does not count yet (R476, R478, R484, R488). -/
def State.windowEndEnergy (s : State) : State :=
  let p := s.power
  let ewin := fun a => p.sums.getD a 0 / 1000
  let budget := fun q => p.budWas.getD q 0
  let s1 := (List.range 9).foldl (fun t a => t.setReg .pwrEwin a (BitVec.ofNat 32 (ewin a))) s
  let s2 := s1.count F.pwrWinseq_WINDOW 0 1
  let s3 := (List.range 8).foldl (fun t q => if budget q < ewin q then t.overBudget q (ewin q) else t) s2
  let inForce := decide (s3.planSum budget (s3.fld F.pwrReserve_BUDGET 0) ≤ s3.fld F.pwrCap_WINCAP 0) &&
    (List.range 8).all (fun q => decide (ewin q ≤ budget q)) && decide (ewin 8 ≤ s3.fld F.pwrReserve_BUDGET 0)
  let s4 := s3.windowLimit (p.sums.foldl (fun x y => x + y) 0) inForce
  { s4 with power := { s4.power with sums := List.replicate 9 0 } }

/-- ENERGY_WINDOW_END (R484): a 10 ms window reports account energy, counts budget overruns and steps the window limiter. -/
def execEnergyWindowEnd (s : State) : Host.Outcome State Fault Refusal := .next s.windowEndEnergy

/-- A write of PWR_CAP (R480): after LOCK, and outside the limits, it is ignored. -/
def State.writePwrCap (s : State) (v : Word) : State :=
  let win := bits v.toNat 0 16
  let fast := bits v.toNat 16 12
  if s.flag F.pwrCap_LOCK 0 then s
  else if 27500 < win ∨ 2900 < fast ∨ win < 17000 ∨ fast < 1700 then s.writeIgnored .pwrCap 0 none v
  else s.setReg .pwrCap 0 (plainWrite .pwrCap false (s.reg .pwrCap 0) v)

/-- PWR_CAP_WRITE (R480): a PWR_CAP write outside the limits, or after LOCK, is ignored. -/
def execPwrCapWrite (who : Requester) (v : Word) (s : State) : Host.Outcome State Fault Refusal :=
  .next (s.gated who .pwrCap 0 (s.writePwrCap v))

/-- A write of PWR_BUDGET[n], or of PWR_RESERVE for n = 8: a sum above WINCAP is ignored (R481). -/
def State.writeBudget (s : State) (n : Nat) (v : Word) : State :=
  let x := bits v.toNat 0 16
  let budget := fun p => if p = n then x else s.fld F.pwrBudget_BUDGET p
  let reserve := if n = 8 then x else s.fld F.pwrReserve_BUDGET 0
  let bad := decide (s.fld F.pwrCap_WINCAP 0 < s.planSum budget reserve)
  if n = 8 then (if bad then s.writeIgnored .pwrReserve 0 none v else s.setFld F.pwrReserve_BUDGET 0 x)
  else if bad then s.writeIgnored .pwrBudget n (some n) v else s.setFld F.pwrBudget_BUDGET n x

/-- PWR_BUDGET_WRITE (R481): a budget or reserve write exceeding WINCAP is ignored; n = 8 names PWR_RESERVE. -/
def execPwrBudgetWrite (who : Requester) (n : Nat) (v : Word) (s : State) : Host.Outcome State Fault Refusal :=
  inRange (n < 9) (fun _ => .next (s.gated who (if n = 8 then .pwrReserve else .pwrBudget) (if n = 8 then 0 else n) (s.writeBudget n v)))

/-! ## The compute clock (R486 to R488) -/

/-- The fast limiter takes a 1 us reading (R487). -/
def State.fastReading (s : State) (watts : Nat) : State :=
  let cap := s.fld F.pwrCap_FASTCAP 0
  let lvl := s.fld F.pwrStat_LFAST 0
  let calm := fun n => { s with power := { s.power with calm := n } }
  if cap - 50 < watts then (calm 0).setFld F.pwrStat_LFAST 0 (lvl - 1)
  else if watts < cap - 200 then
    if s.power.calm + 1 < 10 then calm (s.power.calm + 1) else (calm 0).setFld F.pwrStat_LFAST 0 (min 15 (lvl + 1))
  else calm 0

/-- FAST_LIMITER_READING (R487): a 1 us power reading lowers or raises the fast-limiter level. -/
def execFastLimiterReading (watts : Nat) (s : State) : Host.Outcome State Fault Refusal := .next (s.fastReading watts)

/-- The target level (R486); in Spring the PLL stays at level 0, and THROTTLE_N counts from Summer on (R517, R563). -/
def State.targetLevel (s : State) : Nat :=
  if s.dieSeason = spring then 0
  else if s.dieSeason = summer ∧ s.flag F.pwrStat_THROTTLE 0 then 0
  else min (min (s.fld F.clkNom_LEVEL 0) (s.fld F.pwrStat_LTHERM 0)) (min (s.fld F.pwrStat_LFAST 0) (s.fld F.pwrStat_LWIN 0))

/-- The PLL moves one level toward the target (R486). -/
def State.slew (s : State) : State :=
  let l := s.fld F.clkStat_LEVEL 0
  let t := s.targetLevel
  s.setFld F.clkStat_LEVEL 0 (if l < t then l + 1 else if t < l then l - 1 else l)

/-- CLOCK_SLEW_STEP (R486): the compute PLL moves one level toward the target. -/
def execClockSlewStep (s : State) : Host.Outcome State Fault Refusal := .next s.slew

/-! ## Supply sag (R490) -/

/-- DROOP_DETECT (R490): a droop doubles every compute cycle period while it lasts. -/
def execDroopDetect (s : State) : Host.Outcome State Fault Refusal :=
  .next (if s.power.droop then s
    else { s with power := { s.power with droop := true, recover := 0 } }.count F.clkStat_SAGCNT 0 1)

/-- DROOP_END (R490): the end of a droop returns the period over 1 us. -/
def execDroopEnd (s : State) : Host.Outcome State Fault Refusal :=
  .next (if s.power.droop then { s with power := { s.power with droop := false, recover := s.tick + 25 } } else s)

/-! ## THROTTLE_N (R491, R492) -/

/-- Honours the filtered level of THROTTLE_N; for 100 us the input is then ignored. The inactive level clears STUCK. -/
def State.honourThrottle (s : State) : State :=
  let on := s.board.throttle
  let s1 := { s with board := { s.board with throttleHold := true } }.setFld F.pwrStat_THROTTLE 0 (b2n on)
  if on then s1 else (s1.setFld F.pwrStat_STUCK 0 0).settleAlert

/-- A level of THROTTLE_N has passed the filter: it is honoured unless the hold runs or it is honoured already. -/
def State.throttleLevel (s : State) (active : Bool) : State :=
  let s1 := { s with board := { s.board with throttle := active } }
  if s.board.throttleHold || s.flag F.pwrStat_THROTTLE 0 == active then s1 else s1.honourThrottle

/-- THROTTLE_N_CHANGE (R491): a filtered THROTTLE_N level is honoured, setting or releasing the floor-clock target. -/
def execThrottleNChange (active : Bool) (s : State) : Host.Outcome State Fault Refusal := .next (s.throttleLevel active)

/-- THROTTLE_HOLD_END (R491): at the end of the hold the current filtered level is honoured if it differs. -/
def execThrottleHoldEnd (s : State) : Host.Outcome State Fault Refusal :=
  .next (if s.board.throttleHold then
      { s with board := { s.board with throttleHold := false } }.throttleLevel s.board.throttle
    else s)

/-- THROTTLE_STUCK (R492): the active level honoured for 10 s posts THROTTLE_STUCK, once an episode. -/
def execThrottleStuck (s : State) : Host.Outcome State Fault Refusal :=
  .next (if s.flag F.pwrStat_THROTTLE 0 && !s.flag F.pwrStat_STUCK 0 then
      ((s.setFld F.pwrStat_STUCK 0 1).raiseAlert).event evThrottle St.throttleStuck none 0 0
    else s)

/-! ## Temperature (R493, R494) -/

/-- Throttle threshold of a sensor, in units of 0.0625 C (R493). -/
def tempLimit (i : Nat) : Nat := if i < 40 then 1600 else 1520

/-- Critical temperature of a sensor. -/
def tempCritical (i : Nat) : Nat := if i < 40 then 1840 else 1680

/-- Whether a sensor's critical reading concerns the compute die or a stack, and not an I/O die or LP5X package (R494). -/
def dieSensor (i : Nat) : Bool := i < 32 || (40 ≤ i && i < 52)

/-- Whether every sensor is at least `c` degrees below its threshold. -/
def allBelow (t : Nat → Nat) (c : Nat) : Bool := (List.range 76).all (fun i => decide (t i + 16 * c ≤ tempLimit i))

/-- The thermal level after a sample (R493). -/
def State.thermalLevel (s : State) (t : Nat → Nat) : State :=
  let lvl := s.fld F.pwrStat_LTHERM 0
  let put := fun h c => { s with power := { s.power with hot := h, cool := c } }
  if (List.range 76).any (fun i => decide (tempLimit i < t i)) then
    if s.power.hot + 1 < 10 then put (s.power.hot + 1) 0 else (put 0 0).setFld F.pwrStat_LTHERM 0 (lvl - 1)
  else if allBelow t 5 then
    if s.power.cool + 1 < 100 then put 0 (s.power.cool + 1) else (put 0 0).setFld F.pwrStat_LTHERM 0 (min 15 (lvl + 1))
  else put 0 0

/-- What waits for temperatures goes on once every sensor is 10 C below its threshold (R494). -/
def State.cooled (s : State) (t : Nat → Nat) : State :=
  if allBelow t 10 then { s with board := { s.board with hotDie := false, hotIo := false } }.tryStart else s

/-- A sample of the sensors, listed by index (R493, R494). A module held in reset only waits to cool. -/
def State.thermal (s : State) (temps : List Nat) : State :=
  let old := fun i => s.fld F.pwrTemp_TEMP i
  let t := fun i => (temps.getD i (old i)) % 4096
  let new := (List.range 76).filter (fun i => decide (tempCritical i ≤ t i) && decide (old i < tempCritical i))
  if !s.board.runs then s.cooled t
  else
    let s1 := (List.range 76).foldl (fun u i => u.setFld F.pwrTemp_TEMP i (t i)) s
    let s2 := (s1.cooled t).thermalLevel t
    let s3 := new.foldl (fun u i => u.criticalEvent i (t i)) s2
    let s4 := if new.any dieSensor && !s3.board.hotDie then s3.criticalDie else s3
    if new.any (fun i => !dieSensor i) then s4.criticalIo else s4

/-- THERMAL_SAMPLE (R493): every 10 us the sensors are read and the thermal level adjusted. -/
def execThermalSample (temps : List Nat) (s : State) : Host.Outcome State Fault Refusal := .next (s.thermal temps)

end Sys2Proof.Machine
end

