-- ==== Sys2Proof/Machine/RvFloat.lean ====
section
/-!
DEFINITION. Floating-point arithmetic of the Basil cores (R210, R211): IEEE 754 with the five rounding modes and the accrued
exception flags of RISC-V. The RISC-V specification is outside the manual, which names it (log entry 7).
-/

set_option Elab.async false

namespace Sys2Proof.Machine

/-- A result code with the exception flags it raises: NX 1, UF 2, OF 4, DZ 8, NV 16. -/
structure FRes where
  code  : Nat
  flags : Nat
  deriving DecidableEq, Repr

/-- The rounding of magnitudes under rounding mode `rm` (0 RNE, 1 RTZ, 2 RDN, 3 RUP, 4 RMM) for a sign. -/
def rvRound (rm : Nat) (neg : Bool) : Rounding :=
  match rm with
  | 0 => .rne
  | 1 => .down
  | 2 => if neg then .up else .down
  | 3 => if neg then .down else .up
  | _ => .away

/-- Rounds an exact (or sticky) value to a format. -/
def rvEncode (F : IEEE) (rm : Nat) (v : FVal) : FRes :=
  match v with
  | .nan => ⟨F.qnan, 0⟩
  | .inf s => ⟨F.infCode + (if s then F.signBit else 0), 0⟩
  | .fin s m e =>
    let sg := if s then F.signBit else 0
    let r := rvRound rm s
    let c := magCode F.man F.bias r m e
    if F.infCode ≤ c then
      ⟨sg + (match r with | .down => F.infCode - 1 | _ => F.infCode), 5⟩
    else
      let back := codeMag F.man F.bias s c
      if back.eq (.fin s m e) then ⟨sg + c, 0⟩
      else
        let wide := codeMag F.man (F.bias + 1000000) false (magCode F.man (F.bias + 1000000) r m e)
        let tiny := wide.lt (.fin false 1 (1 - F.bias))
        ⟨sg + c, if tiny then 3 else 1⟩

/-- Whether a code is a signalling NaN. -/
def snan (F : IEEE) (c : Nat) : Bool :=
  decide (F.infCode < c % F.signBit) && !bit c (F.man - 1)

/-- The flag NV when the condition holds. -/
def nvIf (b : Bool) : Nat := if b then 16 else 0

/-- Sum of two values; an exact zero of opposite signs is -0 under RDN. -/
def rvSum (rm : Nat) (x y : FVal) : FVal :=
  let v := x.add y
  if v.isZero && x.isFin && y.isFin && x.sign != y.sign then .fin (rm == 2) 0 0 else v

/-- Finishes an operation on codes: rounding, and NV for a signalling input or a NaN made from numbers. -/
def rvFinish (F : IEEE) (rm : Nat) (ins : List Nat) (v : FVal) : FRes :=
  let r := rvEncode F rm v
  let made := v.isNan && !ins.any (fun c => (F.decode c).isNan)
  ⟨r.code, r.flags ||| nvIf (made || ins.any (snan F))⟩

/-- Addition. -/
def rvAdd (F : IEEE) (rm a b : Nat) : FRes := rvFinish F rm [a, b] (rvSum rm (F.decode a) (F.decode b))
/-- Subtraction. -/
def rvSub (F : IEEE) (rm a b : Nat) : FRes := rvFinish F rm [a, b] (rvSum rm (F.decode a) (F.decode b).neg)
/-- Multiplication. -/
def rvMul (F : IEEE) (rm a b : Nat) : FRes := rvFinish F rm [a, b] ((F.decode a).mul (F.decode b))

/-- Division. -/
def rvDiv (F : IEEE) (rm a b : Nat) : FRes :=
  let x := F.decode a
  let y := F.decode b
  let r := rvFinish F rm [a, b] (divPre 64 x y)
  if y.isZero && x.isFin && !x.isZero then ⟨r.code, 8⟩ else r

/-- Square root. -/
def rvSqrt (F : IEEE) (rm a : Nat) : FRes := rvFinish F rm [a] (sqrtPre 64 (F.decode a))

/-- Fused multiply-add a x b + c, with the signs of the product and of c changed as asked. -/
def rvFma (F : IEEE) (rm : Nat) (np nc : Bool) (a b c : Nat) : FRes :=
  let p := (F.decode a).mul (F.decode b)
  let z := F.decode c
  let r := rvFinish F rm [a, b, c] (rvSum rm (if np then p.neg else p) (if nc then z.neg else z))
  let bad := p.isNan && !(F.decode a).isNan && !(F.decode b).isNan
  ⟨r.code, r.flags ||| nvIf bad⟩

/-- Minimum or maximum: a NaN loses against a number, -0 is below +0. -/
def rvMinMax (F : IEEE) (isMax : Bool) (a b : Nat) : FRes :=
  let x := F.decode a
  let y := F.decode b
  let nv := nvIf (snan F a || snan F b)
  if x.isNan && y.isNan then ⟨F.qnan, nv⟩
  else if x.isNan then ⟨b, nv⟩
  else if y.isNan then ⟨a, nv⟩
  else
    let aLess := x.lt y || (x.isZero && y.isZero && x.sign && !y.sign)
    ⟨if aLess != isMax then a else b, nv⟩

/-- Comparison: 0 le, 1 lt, 2 eq; the ordered ones signal on any NaN. -/
def rvCmp (F : IEEE) (k a b : Nat) : FRes :=
  let x := F.decode a
  let y := F.decode b
  match k with
  | 0 => ⟨b2n (x.le y), nvIf (x.isNan || y.isNan)⟩
  | 1 => ⟨b2n (x.lt y), nvIf (x.isNan || y.isNan)⟩
  | _ => ⟨b2n (x.eq y), nvIf (snan F a || snan F b)⟩

/-- Classification mask. -/
def rvClass (F : IEEE) (a : Nat) : Nat :=
  let neg := decide (a / F.signBit % 2 = 1)
  let mag := a % F.signBit
  if F.infCode < mag then (if snan F a then 256 else 512)
  else if mag = F.infCode then (if neg then 1 else 128)
  else if mag = 0 then (if neg then 8 else 16)
  else if mag < 2 ^ F.man then (if neg then 4 else 32)
  else (if neg then 2 else 64)

/-- Sign injection: 0 copy, 1 negate, 2 exclusive or. -/
def rvSgnj (F : IEEE) (k a b : Nat) : Nat :=
  let sa := a / F.signBit % 2
  let sb := b / F.signBit % 2
  let s := match k with | 0 => sb | 1 => 1 - sb | _ => (sa + sb) % 2
  a % F.signBit + s * F.signBit

/-- Conversion between formats. -/
def rvCvt (F G : IEEE) (rm a : Nat) : FRes :=
  let r := rvEncode G rm (F.decode a)
  ⟨r.code, r.flags ||| nvIf (snan F a)⟩

/-- Rounds a value to an integer under a rounding mode: the integer, and whether that was inexact. -/
def rvRoundInt (rm : Nat) : FVal → Int × Bool
  | .fin s m e =>
    let mag : Nat × Bool :=
      if 0 ≤ e then (m * 2 ^ e.toNat, false)
      else
        let den := 2 ^ (-e).toNat
        ((rvRound rm s).choose (m / den) (m % den) den, m % den != 0)
    (if s then -(mag.1 : Int) else (mag.1 : Int), mag.2)
  | _ => (0, false)

/-- Conversion to an integer of `w` bits: out-of-range values and NaN saturate and raise NV. -/
def rvToInt (F : IEEE) (rm w : Nat) (sgn : Bool) (a : Nat) : FRes :=
  let lo : Int := if sgn then -((2 ^ (w - 1) : Nat) : Int) else 0
  let hi : Int := if sgn then ((2 ^ (w - 1) : Nat) : Int) - 1 else ((2 ^ w : Nat) : Int) - 1
  match F.decode a with
  | .nan => ⟨unsigned w hi, 16⟩
  | .inf s => ⟨unsigned w (if s then lo else hi), 16⟩
  | v =>
    let r := rvRoundInt rm v
    if r.1 < lo then ⟨unsigned w lo, 16⟩
    else if hi < r.1 then ⟨unsigned w hi, 16⟩
    else ⟨unsigned w r.1, b2n r.2⟩

/-- Conversion from an integer of `w` bits. -/
def rvOfInt (F : IEEE) (rm w : Nat) (sgn : Bool) (a : Nat) : FRes :=
  rvEncode F rm (FVal.ofInt (if sgn then signed w a else ((a % 2 ^ w : Nat) : Int)))

/-- The format of a FMT field: 0 S, 1 D, 2 H. -/
def rvFmt (n : Nat) : Option IEEE :=
  match n with
  | 0 => some fp32
  | 1 => some fp64
  | 2 => some fp16
  | _ => none

/-- Width of a format in bits. -/
def IEEE.bits (F : IEEE) : Nat := 1 + F.exp + F.man

/-- A float register's value in a format: what is not NaN-boxed reads as the canonical NaN. -/
def unbox (F : IEEE) (v : Nat) : Nat :=
  if v / 2 ^ F.bits = 2 ^ (64 - F.bits) - 1 then v % 2 ^ F.bits else F.qnan

/-- NaN-boxes a code. -/
def nanbox (F : IEEE) (c : Nat) : Nat := c % 2 ^ F.bits + (2 ^ 64 - 2 ^ F.bits)

/-! ## The 7-bit estimates of V version 1.0 (log entry 7) -/

/-- Entry i of the reciprocal table: 256 / (1 + (i + 1/2) / 128) rounded to an integer, less 128. -/
def rec7Table (i : Nat) : Nat := (131072 + (257 + 2 * i)) / (2 * (257 + 2 * i)) - 128

/-- Entry i of the reciprocal-square-root table: 256 over the root of 1 + (i mod 64 + 1/2) / 64, doubled for i below 64, rounded to
an integer, less 128. -/
def rsqrt7Table (i : Nat) : Nat :=
  (isqrt (33554432 / ((129 + 2 * (i % 64)) * (if i < 64 then 2 else 1))) + 1) / 2 - 128

/-- Biased exponent and significand below the leading 1 of a finite code other than zero, a subnormal one normalised. -/
def IEEE.normParts (F : IEEE) (c : Nat) : Int × Nat :=
  let e := c % F.signBit / 2 ^ F.man
  let m := c % 2 ^ F.man
  if e = 0 then
    let lead := F.man - Nat.log2 m
    (1 - (lead : Int), m * 2 ^ lead % 2 ^ F.man)
  else ((e : Int), m)

/-- vfrsqrt7.v. -/
def rvRsqrt7 (F : IEEE) (a : Nat) : FRes :=
  let neg := decide (F.signBit ≤ a)
  match F.decode a with
  | .nan => ⟨F.qnan, nvIf (snan F a)⟩
  | .inf s => if s then ⟨F.qnan, 16⟩ else ⟨0, 0⟩
  | .fin _ m _ =>
    if m = 0 then ⟨F.infCode + (if neg then F.signBit else 0), 8⟩
    else if neg then ⟨F.qnan, 16⟩
    else
      let p := F.normParts a
      let i := (p.1 % 2).toNat * 64 + p.2 / 2 ^ (F.man - 6)
      ⟨((3 * F.bias - 1 - p.1) / 2).toNat * 2 ^ F.man + rsqrt7Table i * 2 ^ (F.man - 7), 0⟩

/-- vfrec7.v under rounding mode `rm`, which decides what an overflow gives. -/
def rvRec7 (F : IEEE) (rm a : Nat) : FRes :=
  let neg := decide (F.signBit ≤ a)
  let sg := if neg then F.signBit else 0
  match F.decode a with
  | .nan => ⟨F.qnan, nvIf (snan F a)⟩
  | .inf _ => ⟨sg, 0⟩
  | .fin _ m _ =>
    let p := F.normParts a
    let e := 2 * F.bias - 1 - p.1
    let f := rec7Table (p.2 / 2 ^ (F.man - 7)) * 2 ^ (F.man - 7)
    if m = 0 then ⟨F.infCode + sg, 8⟩
    else if p.1 < -1 then ⟨sg + (match rvRound rm neg with | .down => F.infCode - 1 | _ => F.infCode), 5⟩
    else if e ≤ 0 then ⟨sg + (f / 2 + 2 ^ (F.man - 1)) / 2 ^ (-e).toNat, 0⟩
    else ⟨sg + e.toNat * 2 ^ F.man + f, 0⟩

end Sys2Proof.Machine
end

