-- ==== Sys2Proof/Machine/Riscv.lean ====
section
/-!
DEFINITION. The scalar instructions of a Basil core: RV64I with M, A, F, D, C, Zicsr, Zifencei and Zfh (R210, R211), the core's
address space (R213 to R215), and the timing of each class (R212). The RISC-V specification is named by the manual and stands
outside it (log entry 7).
-/

set_option Elab.async false

namespace Sys2Proof.Machine

open Sys2Proof

/-! ## Registers -/

/-- Integer register `r`; x0 is 0. -/
def Core.rx (k : Core) (r : Nat) : BitVec 64 := if r = 0 then 0#64 else Sparse.rd (fun _ => 0#64) r k.x

/-- Writes integer register `r`; a write of x0 is discarded. -/
def Core.wx (k : Core) (r : Nat) (v : BitVec 64) : Core :=
  if r = 0 then k else { k with x := Sparse.wr (fun _ => 0#64) r v k.x }

/-- Float register `r`. -/
def Core.rf (k : Core) (r : Nat) : Nat := (Sparse.rd (fun _ => 0#64) r k.f).toNat

/-- Writes float register `r`. -/
def Core.wf (k : Core) (r v : Nat) : Core := { k with f := Sparse.wr (fun _ => 0#64) r (BitVec.ofNat 64 v) k.f }

/-- Accrues exception flags. -/
def Core.accrue (k : Core) (fl : Nat) : Core := { k with fcsr := k.fcsr ||| (fl % 32) }

/-- frm. -/
def Core.frm (k : Core) : Nat := k.fcsr / 32 % 8

/-- The rounding mode an instruction uses, none when it is reserved. -/
def Core.rm (k : Core) (f3 : Nat) : Option Nat :=
  let r := if f3 = 7 then k.frm else f3
  if r ≤ 4 then some r else none

/-! ## Memory (R213 to R215) -/

/-- Outcome of an access by a core. -/
inductive MemRes where
  | ok (v : Nat) (s : State)
  | fault
  | ecc (addr : Nat)
  deriving DecidableEq, Repr

/-- Core address of cluster SRAM. -/
def coreSram : Nat := 0x10000000
/-- Core address of the engine group's registers. -/
def coreRegs : Nat := 0x20000000
/-- Bytes of cluster SRAM. -/
def cluSize : Nat := 0x100000

/-- Bytes of the SRAM a core runs in: its cluster's 1 MiB, or a die's 8 MiB of service SRAM (R213, R229). -/
def coreSize (eg : Nat) : Nat := if 128 ≤ eg then 0x800000 else cluSize

/-- Whether n bytes from a core address lie in the SRAM a core reaches: cluster SRAM outside the firmware area, which the
firmware's PMP entries deny to cluster programs (R218, R524), or for a service core its die's service SRAM (log entry 56). -/
def inCoreSram (eg a n : Nat) : Bool :=
  decide (coreSram ≤ a) && decide (a + n ≤ coreSram + coreSize eg) && (decide (128 ≤ eg) || !overlaps a n (coreSram + 0xF0000) 0x4000)

/-- Whether n bytes from a core address lie in the register region, which a cluster's cores have (R215). -/
def inCoreRegs (eg a n : Nat) : Bool := decide (eg < 128) && decide (coreRegs ≤ a) && decide (a + n ≤ coreRegs + 0x10000)

/-- The device address of a core address in the SRAM a core runs in. -/
def cluAddr (eg a : Nat) : Nat := coreBase eg + (a - coreSram)

/-- The number of a service core (R229). -/
def svcNumber (eg c : Nat) : Nat := 8 * (eg - 128) + c

/-- The home bank of a core: its number, with the service cores numbered 0 to 15 over both dies (R213, R229). -/
def homeBank (eg c : Nat) : Nat := if 128 ≤ eg then svcNumber eg c else c

/-! ## Physical memory protection

16 entries, as the RISC-V specification defines them (log entry 7). A cluster's firmware has set its own, which `inCoreSram` stands
for; the entries of a service core are those its firmware writes. -/

/-- Machine CSR `n` as stored. -/
def Core.csr (k : Core) (n : Nat) : Nat := (Sparse.rd (fun _ => 0#64) n k.csrs).toNat

/-- Replaces machine CSR `n`. -/
def Core.setCsr (k : Core) (n v : Nat) : Core := { k with csrs := Sparse.wr (fun _ => 0#64) n (BitVec.ofNat 64 v) k.csrs }

/-- The configuration byte of PMP entry i. -/
def Core.pmpCfg (k : Core) (i : Nat) : Nat := bits (k.csr (0x3A0 + i / 8 * 2)) (i % 8 * 8) 8

/-- The range of PMP entry i as first byte and length, none when it is off. -/
def Core.pmpRange (k : Core) (i : Nat) : Option (Nat × Nat) :=
  let x := k.csr (0x3B0 + i)
  let below := if i = 0 then 0 else 4 * k.csr (0x3B0 + i - 1)
  match bits (k.pmpCfg i) 3 2 with
  | 0 => none
  | 1 => some (below, 4 * x - below)
  | 2 => some (4 * x, 4)
  | _ =>
    let n := 2 ^ ((List.range 54).takeWhile (bit x)).length
    some (4 * (x / (2 * n) * (2 * n)), 8 * n)

/-- Whether an access of the kind (0 read, 1 write, 2 fetch) may go on: the first entry that matches any byte decides; it must match
all of them; machine mode obeys locked entries only. -/
def Core.pmpOk (k : Core) (eg a n kind : Nat) : Bool :=
  let machine := if kind != 2 && bit (k.csr 0x300) 17 then bits (k.csr 0x300) 11 2 == 3 else k.mmode
  let hit := (List.range 16).find? (fun i => match k.pmpRange i with | some r => overlaps a n r.1 r.2 | none => false)
  if eg < 128 then true
  else match hit with
    | none => machine
    | some i =>
      let whole := match k.pmpRange i with | some r => decide (r.1 ≤ a) && decide (a + n ≤ r.1 + r.2) | none => false
      whole && ((machine && !bit (k.pmpCfg i) 7) || bit (k.pmpCfg i) kind)

/-! ## Accesses -/

/-- The register at a core address, if the core reaches it there (R215, R543). -/
def coreRegAt (eg a : Nat) : Option (RegName × Nat) :=
  match regAt (0x01000000 + 0x10000 * eg + (a - coreRegs)) with
  | some (n, i) => if n.isCoreReg then some (n, i) else none
  | none => none

/-- A core reads one 4-byte register; an unmapped offset reads 0 (R544). -/
def State.coreReg (s : State) (eg a : Nat) : Nat × State :=
  match coreRegAt eg a with
  | some (n, i) => let r := s.readAt n i; (r.1.toNat, r.2)
  | none => (0, s)

/-- A core reads n bytes at a core address (R215, R544). -/
def State.coreRead (s : State) (k : Core) (eg a n : Nat) : MemRes :=
  if !k.pmpOk eg a n 0 then .fault
  else if inCoreSram eg a n then
    match s.badIn (cluAddr eg a) n with
    | some x => .ecc x
    | none => .ok (leNat (s.read (cluAddr eg a) n)) s
  else if inCoreRegs eg a n then
    if n = 4 then let r := s.coreReg eg a; .ok r.1 r.2
    else if n = 8 then
      let r := s.coreReg eg a
      let q := r.2.coreReg eg (a + 4)
      .ok (r.1 + 2 ^ 32 * q.1) q.2
    else .ok 0 s
  else .fault

/-- A core writes one 4-byte register. -/
def State.coreRegWrite (s : State) (eg a v : Nat) : State :=
  match coreRegAt eg a with
  | some (n, i) => s.writeEgReg n i (BitVec.ofNat 32 v)
  | none => s

/-- A core writes n bytes at a core address (R215, R544). -/
def State.coreWrite (s : State) (k : Core) (eg a n v : Nat) : MemRes :=
  if !k.pmpOk eg a n 1 then .fault
  else if inCoreSram eg a n then .ok 0 (s.store (cluAddr eg a) (leBytes n v))
  else if inCoreRegs eg a n then
    if n = 4 then .ok 0 (s.coreRegWrite eg a v)
    else if n = 8 then .ok 0 ((s.coreRegWrite eg a v).coreRegWrite eg (a + 4) (v / 2 ^ 32))
    else .ok 0 s
  else .fault

/-- The wait w of core c for an access issued in cycle t (R213). -/
def bankWait (eg c a t : Nat) : Nat :=
  if !inCoreSram eg a 1 then 0
  else
    let b := (a - coreSram) / (coreSize eg / 16)
    let h := homeBank eg c
    if b = h then 0 else (h + 32 - b - t % 16) % 16

/-! ## Outcomes -/

/-- A completed instruction: state and core after it, issue interval, and the ready keys of its result with their latency. -/
structure RvDone where
  s    : State
  k    : Core
  ival : Nat
  dst  : Nat
  n    : Nat
  lat  : Nat
  deriving DecidableEq, Repr

/-- Outcome of an instruction: completed, trapped with a RISC-V cause (with stores made before it), or stopped by an
uncorrectable word (R218). -/
inductive RvOut where
  | done (d : RvDone)
  | trap (cause : Nat)
  | trapAt (s : State) (cause : Nat)
  | ecc (addr : Nat)
  deriving DecidableEq, Repr

/-- The core at the next instruction. -/
def Core.step (k : Core) (len : Nat) : Core := { k with pc := (k.pc + len) % 2 ^ 64 }

/-- Completes an instruction that writes an integer register. -/
def outX (s : State) (k : Core) (len rd : Nat) (v : BitVec 64) (ival lat : Nat) : RvOut :=
  .done ⟨s, (k.wx rd v).step len, ival, rd, 1, lat⟩

/-- Completes an instruction that writes a float register. -/
def outF (s : State) (k : Core) (len rd v fl ival lat : Nat) : RvOut :=
  .done ⟨s, ((k.wf rd v).accrue fl).step len, ival, 32 + rd, 1, lat⟩

/-- Completes an instruction without a register result. -/
def outN (s : State) (k : Core) (len ival : Nat) : RvOut := .done ⟨s, k.step len, ival, 0, 0, 0⟩

/-- Illegal instruction. -/
def illegal : RvOut := .trap causeIllegal

/-! ## Fields of an instruction word -/

/-- rd. -/
def rvRd (w : Nat) : Nat := bits w 7 5
/-- funct3. -/
def rvF3 (w : Nat) : Nat := bits w 12 3
/-- rs1. -/
def rvRs1 (w : Nat) : Nat := bits w 15 5
/-- rs2. -/
def rvRs2 (w : Nat) : Nat := bits w 20 5
/-- rs3. -/
def rvRs3 (w : Nat) : Nat := bits w 27 5
/-- funct7. -/
def rvF7 (w : Nat) : Nat := bits w 25 7
/-- I immediate. -/
def immI (w : Nat) : Int := signed 12 (bits w 20 12)
/-- S immediate. -/
def immS (w : Nat) : Int := signed 12 (bits w 7 5 + 32 * bits w 25 7)
/-- B immediate. -/
def immB (w : Nat) : Int :=
  signed 13 (2 * bits w 8 4 + 32 * bits w 25 6 + 2048 * bits w 7 1 + 4096 * bits w 31 1)
/-- U immediate. -/
def immU (w : Nat) : Int := signed 32 (bits w 12 20 * 4096)
/-- J immediate. -/
def immJ (w : Nat) : Int :=
  signed 21 (2 * bits w 21 10 + 2048 * bits w 20 1 + 4096 * bits w 12 8 + 1048576 * bits w 31 1)

/-- An integer as a 64-bit word. -/
def x64 (i : Int) : BitVec 64 := BitVec.ofInt 64 i

/-- Address base + offset. -/
def rvAddr (k : Core) (r : Nat) (i : Int) : Nat := (k.rx r + x64 i).toNat

/-! ## Integer arithmetic -/

/-- OP and OP-IMM on 64 bits. -/
def aluOp (f3 : Nat) (alt : Bool) (a b : BitVec 64) : BitVec 64 :=
  match f3 with
  | 0 => if alt then a - b else a + b
  | 1 => a <<< (b.toNat % 64)
  | 2 => if a.slt b then 1#64 else 0#64
  | 3 => if a.ult b then 1#64 else 0#64
  | 4 => a ^^^ b
  | 5 => if alt then a.sshiftRight (b.toNat % 64) else a >>> (b.toNat % 64)
  | 6 => a ||| b
  | _ => a &&& b

/-- The low word, sign-extended. -/
def sext32 (a : BitVec 64) : BitVec 64 := (a.setWidth 32).signExtend 64

/-- OP-32 and OP-IMM-32. -/
def aluOpW (f3 : Nat) (alt : Bool) (a b : BitVec 64) : BitVec 64 :=
  let x := a.setWidth 32
  let n := b.toNat % 32
  match f3 with
  | 0 => sext32 (if alt then a - b else a + b)
  | 1 => (x <<< n).signExtend 64
  | _ => (if alt then x.sshiftRight n else x >>> n).signExtend 64

/-- Quotient and remainder as RISC-V defines them, on `w`-bit operands: signed or unsigned, quotient or remainder. -/
def divRem (w : Nat) (sgn isRem : Bool) (a b : Nat) : Int :=
  if sgn then
    let x := signed w a
    let y := signed w b
    if y = 0 then (if isRem then x else -1) else if isRem then x.tmod y else x.tdiv y
  else
    let x := a % 2 ^ w
    let y := b % 2 ^ w
    if y = 0 then (if isRem then (x : Int) else -1) else if isRem then ((x % y : Nat) : Int) else ((x / y : Nat) : Int)

/-- The M extension on 64 bits: the value, and whether it is a divide. -/
def mulOp (f3 : Nat) (a b : BitVec 64) : BitVec 64 :=
  match f3 with
  | 0 => a * b
  | 1 => x64 (a.toInt * b.toInt / ((2 ^ 64 : Nat) : Int))
  | 2 => x64 (a.toInt * (b.toNat : Int) / ((2 ^ 64 : Nat) : Int))
  | 3 => BitVec.ofNat 64 (a.toNat * b.toNat / 2 ^ 64)
  | 4 => x64 (divRem 64 true false a.toNat b.toNat)
  | 5 => x64 (divRem 64 false false a.toNat b.toNat)
  | 6 => x64 (divRem 64 true true a.toNat b.toNat)
  | _ => x64 (divRem 64 false true a.toNat b.toNat)

/-- The M extension on 32 bits; funct3 1 to 3 name no instruction. -/
def mulOpW (f3 : Nat) (a b : BitVec 64) : Option (BitVec 64) :=
  let f := fun (i : Int) => some (sext32 (x64 i))
  match f3 with
  | 0 => some (sext32 (a * b))
  | 4 => f (divRem 32 true false a.toNat b.toNat)
  | 5 => f (divRem 32 false false a.toNat b.toNat)
  | 6 => f (divRem 32 true true a.toNat b.toNat)
  | 7 => f (divRem 32 false true a.toNat b.toNat)
  | _ => none

/-- A register-register operation of OP or OP-32. -/
def execOp (s : State) (k : Core) (w len : Nat) (half : Bool) : RvOut :=
  let a := k.rx (rvRs1 w)
  let b := k.rx (rvRs2 w)
  let f3 := rvF3 w
  let f7 := rvF7 w
  let rd := rvRd w
  if f7 = 1 then
    let lat := if f3 < 4 then (1, 3) else (34, 34)
    if half then
      match mulOpW f3 a b with
      | some v => outX s k len rd v lat.1 lat.2
      | none => illegal
    else outX s k len rd (mulOp f3 a b) lat.1 lat.2
  else if f7 = 0 ∨ (f7 = 0x20 ∧ (f3 = 0 ∨ f3 = 5)) then
    if half then (if f3 = 0 ∨ f3 = 1 ∨ f3 = 5 then outX s k len rd (aluOpW f3 (f7 = 0x20) a b) 1 1 else illegal)
    else outX s k len rd (aluOp f3 (f7 = 0x20) a b) 1 1
  else illegal

/-- A register-immediate operation of OP-IMM or OP-IMM-32. -/
def execOpImm (s : State) (k : Core) (w len : Nat) (half : Bool) : RvOut :=
  let a := k.rx (rvRs1 w)
  let f3 := rvF3 w
  let rd := rvRd w
  let top := if half then rvF7 w else bits w 26 6 * 2
  let sh := f3 = 1 ∨ f3 = 5
  let imm : BitVec 64 := if sh then BitVec.ofNat 64 (bits w 20 (if half then 5 else 6)) else x64 (immI w)
  if sh ∧ top ≠ 0 ∧ ¬(f3 = 5 ∧ top = 0x20) then illegal
  else if half then
    (if f3 = 0 ∨ sh then outX s k len rd (aluOpW f3 (f3 = 5 ∧ top = 0x20) a imm) 1 1 else illegal)
  else outX s k len rd (aluOp f3 (f3 = 5 ∧ top = 0x20) a imm) 1 1

/-! ## Loads, stores and atomics -/

/-- Extends a loaded value: width in bytes, signed or not. -/
def extend (n : Nat) (sgn : Bool) (v : Nat) : BitVec 64 := if sgn then x64 (signed (8 * n) v) else BitVec.ofNat 64 v

/-- A scalar load into an integer or a float register. -/
def State.execLoad (s : State) (eg c : Nat) (k : Core) (w len t : Nat) (flt : Bool) : RvOut :=
  let a := rvAddr k (rvRs1 w) (immI w)
  let f3 := rvF3 w
  let n := 2 ^ (f3 % 4)
  if (flt && (f3 = 0 || 3 < f3)) || (!flt && f3 = 7) then illegal
  else if a % n ≠ 0 then .trap causeLoadAccess
  else match s.coreRead k eg a n with
    | .fault => .trap causeLoadAccess
    | .ecc x => .ecc x
    | .ok v s1 =>
      let lat := 3 + bankWait eg c a t
      if flt then outF s1 k len (rvRd w) (v + (2 ^ 64 - 2 ^ (8 * n))) 0 1 lat
      else outX s1 k len (rvRd w) (extend n (f3 < 4) v) 1 lat

/-- A scalar store. -/
def State.execStore (s : State) (eg : Nat) (k : Core) (w len : Nat) (flt : Bool) : RvOut :=
  let a := rvAddr k (rvRs1 w) (immS w)
  let f3 := rvF3 w
  let n := 2 ^ (f3 % 4)
  let v := if flt then k.rf (rvRs2 w) else (k.rx (rvRs2 w)).toNat
  if 3 < f3 || (flt && f3 = 0) then illegal
  else if a % n ≠ 0 then .trap causeStoreAccess
  else match s.coreWrite k eg a n v with
    | .fault => .trap causeStoreAccess
    | .ecc x => .ecc x
    | .ok _ s1 => outN s1 k len 1

/-- The new value of an AMO on `w`-bit values. -/
def amoValue (f5 w : Nat) (m x : Nat) : Option Nat :=
  let a := m % 2 ^ w
  let b := x % 2 ^ w
  match f5 with
  | 0x00 => some ((a + b) % 2 ^ w)
  | 0x01 => some b
  | 0x04 => some (a ^^^ b)
  | 0x08 => some (a ||| b)
  | 0x0C => some (a &&& b)
  | 0x10 => some (if signed w b < signed w a then b else a)
  | 0x14 => some (if signed w a < signed w b then b else a)
  | 0x18 => some (min a b)
  | 0x1C => some (max a b)
  | _ => none

/-- The A extension, in cluster SRAM only (R214, R215). -/
def State.execAtomic (s : State) (eg c : Nat) (k : Core) (w len t : Nat) : RvOut :=
  let a := (k.rx (rvRs1 w)).toNat
  let f3 := rvF3 w
  let f5 := bits w 27 5
  let n := if f3 = 2 then 4 else 8
  let v := (k.rx (rvRs2 w)).toNat
  let word := (a - coreSram) / 8 * 8
  let known := f5 = 2 ∨ f5 = 3 ∨ (amoValue f5 64 0 0).isSome
  if (f3 ≠ 2 ∧ f3 ≠ 3) ∨ ¬known ∨ (f5 = 2 ∧ rvRs2 w ≠ 0) then illegal
  else if a % n ≠ 0 ∨ !inCoreSram eg a n then .trap (if f5 = 2 then causeLoadAccess else causeStoreAccess)
  else if f5 ≠ 2 ∧ !k.pmpOk eg a n 1 then .trap causeStoreAccess
  else if f5 = 3 then
    if k.resv = some word then
      outX (s.store (cluAddr eg a) (leBytes n v)) { k with resv := none } len (rvRd w) 0#64 1 (3 + bankWait eg c a t)
    else outX s { k with resv := none } len (rvRd w) 1#64 1 (3 + bankWait eg c a t)
  else match s.coreRead k eg a n with
    | .fault => .trap causeLoadAccess
    | .ecc x => .ecc x
    | .ok m s1 =>
      if f5 = 2 then outX s1 { k with resv := some word } len (rvRd w) (extend n true m) 1 (3 + bankWait eg c a t)
      else
        let new := (amoValue f5 (8 * n) m v).getD 0
        outX (s1.store (cluAddr eg a) (leBytes n new)) k len (rvRd w) (extend n true m) 2 (4 + bankWait eg c a t)

/-! ## Control flow and CSRs -/

/-- Whether a branch is taken. -/
def branchTaken (f3 : Nat) (a b : BitVec 64) : Option Bool :=
  match f3 with
  | 0 => some (a == b)
  | 1 => some (a != b)
  | 4 => some (a.slt b)
  | 5 => some (!a.slt b)
  | 6 => some (a.ult b)
  | 7 => some (!a.ult b)
  | _ => none

/-- Jumps: the fetch buffer is discarded (R216). -/
def Core.jump (k : Core) (pc : Nat) : Core := { k with pc := pc % 2 ^ 64, lines := [], portA := [] }

/-- A branch. -/
def execBranch (s : State) (k : Core) (w len : Nat) : RvOut :=
  match branchTaken (rvF3 w) (k.rx (rvRs1 w)) (k.rx (rvRs2 w)) with
  | none => illegal
  | some false => outN s k len 1
  | some true => .done ⟨s, k.jump (BitVec.ofNat 64 k.pc + x64 (immB w)).toNat, 3, 0, 0, 0⟩

/-- jal and jalr. -/
def execJump (s : State) (k : Core) (w len target : Nat) : RvOut :=
  .done ⟨s, (k.wx (rvRd w) (BitVec.ofNat 64 (k.pc + len))).jump target, 3, rvRd w, 1, 1⟩

/-- mstatus bits that may be written: MIE, MPIE, MPP (M or U) and MPRV. -/
def mstatusMask : Nat := 2 ^ 3 + 2 ^ 7 + 2 ^ 17

/-- The hart number of a core: the clusters' cores first, then the service cores. -/
def hartOf (eg c : Nat) : Nat := if 128 ≤ eg then 2048 + svcNumber eg c else 16 * eg + c

/-- Whether a counter may be read: always in machine mode, in user mode as mcounteren says. -/
def Core.counterOk (k : Core) (n : Nat) : Bool := k.mmode || bit (k.csr 0x306) n

/-- Reads a machine CSR; none for a number that names none (log entry 7). -/
def Core.readMcsr (k : Core) (s : State) (eg c t n : Nat) : Option Nat :=
  match n with
  -- FS and VS always on, SD, UXL = 64 bits
  | 0x300 => some (k.csr n + (0x6600 + 2 * 2 ^ 32 + 2 ^ 63))
  -- A, C, D, F, I, M, U, V with MXL = 64 bits
  | 0x301 => some (2 * 2 ^ 62 + 2 ^ 0 + 2 ^ 2 + 2 ^ 3 + 2 ^ 5 + 2 ^ 8 + 2 ^ 12 + 2 ^ 20 + 2 ^ 21)
  | 0x304 | 0x305 | 0x306 | 0x340 | 0x341 | 0x342 | 0x343 => some (k.csr n)
  -- the external interrupt is the only one there is
  | 0x344 => some (if decide (128 ≤ eg) && bit s.svcPend (svcNumber eg c) then 0x800 else 0)
  | 0xB00 => some ((t + k.csr 0xB00) % 2 ^ 64)
  | 0xB02 => some k.instret
  | 0xF14 => some (hartOf eg c)
  | 0x320 | 0xF11 | 0xF12 | 0xF13 | 0xF15 => some 0
  | n =>
    if (0x3A0 ≤ n ∧ n < 0x3B0 ∧ n % 2 = 0) ∨ (0x3B0 ≤ n ∧ n < 0x3F0) then some (k.csr n)
    else if (0xB03 ≤ n ∧ n < 0xB20) ∨ (0x323 ≤ n ∧ n < 0x340) then some 0
    else none

/-- Reads a CSR: the float, vector and counter CSRs, and in machine mode the machine CSRs. -/
def Core.readCsr (k : Core) (s : State) (eg c t n : Nat) : Option Nat :=
  match n with
  | 0x001 => some (k.fcsr % 32)
  | 0x002 => some k.frm
  | 0x003 => some (k.fcsr % 256)
  | 0x008 => some k.vstart
  | 0x009 => some (k.vcsr % 2)
  | 0x00A => some (k.vcsr / 2 % 4)
  | 0x00F => some (k.vcsr % 8)
  | 0xC00 => if k.counterOk 0 then some ((t + k.csr 0xB00) % 2 ^ 64) else none
  | 0xC01 => if k.counterOk 1 then some s.tick else none
  | 0xC02 => if k.counterOk 2 then some k.instret else none
  | 0xC20 => some k.vl
  | 0xC21 => some k.vtype
  | 0xC22 => some 64
  | n =>
    if 0xC03 ≤ n ∧ n < 0xC20 then (if k.counterOk (n - 0xC00) then some 0 else none)
    else if k.mmode then k.readMcsr s eg c t n else none

/-- PMP configuration bytes after a write: locked entries keep theirs, and W without R is not taken. -/
def pmpMerge (old v : Nat) : Nat :=
  leNat ((List.range 8).map (fun i =>
    let o := bits old (8 * i) 8
    let x := bits v (8 * i) 8
    BitVec.ofNat 8 (if bit o 7 ∨ (bit x 1 ∧ !bit x 0) then o else x % 32 + x / 128 * 128)))

/-- Whether PMP address register i is locked, by its own entry or by a locked range that ends with the next one. -/
def Core.pmpLocked (k : Core) (i : Nat) : Bool :=
  bit (k.pmpCfg i) 7 || (decide (i < 15) && bit (k.pmpCfg (i + 1)) 7 && bits (k.pmpCfg (i + 1)) 3 2 == 1)

/-- Writes a machine CSR; the others ignore writes. -/
def Core.writeMcsr (k : Core) (t n v : Nat) : Core :=
  match n with
  | 0x300 =>
    let mpp := if bits v 11 2 = 3 then 0x1800 else if bits v 11 2 = 0 then 0 else k.csr n &&& 0x1800
    k.setCsr n ((v &&& mstatusMask) + mpp)
  | 0x304 => k.setCsr n (v &&& 0x888)
  | 0x305 => k.setCsr n (v / 4 * 4 + v % 2)
  | 0x306 => k.setCsr n (v % 2 ^ 32)
  | 0x341 => k.setCsr n (v / 2 * 2)
  | 0x340 | 0x342 | 0x343 => k.setCsr n v
  | 0xB00 => k.setCsr n ((v + 2 ^ 64 - t % 2 ^ 64) % 2 ^ 64)
  | 0xB02 => { k with instret := v }
  | 0x3A0 | 0x3A2 => k.setCsr n (pmpMerge (k.csr n) v)
  | n => if 0x3B0 ≤ n ∧ n < 0x3C0 ∧ !k.pmpLocked (n - 0x3B0) then k.setCsr n (v % 2 ^ 54) else k

/-- Writes a CSR that may be written. -/
def Core.writeCsr (k : Core) (t n v : Nat) : Core :=
  match n with
  | 0x001 => { k with fcsr := k.fcsr / 32 * 32 + v % 32 }
  | 0x002 => { k with fcsr := k.fcsr % 32 + v % 8 * 32 }
  | 0x003 => { k with fcsr := v % 256 }
  | 0x008 => { k with vstart := v % 512 }
  | 0x009 => { k with vcsr := k.vcsr / 2 * 2 + v % 2 }
  | 0x00A => { k with vcsr := k.vcsr % 2 + v % 4 * 2 }
  | 0x00F => { k with vcsr := v % 8 }
  | n => k.writeMcsr t n v

/-- Zicsr. -/
def execCsr (s : State) (k : Core) (eg c w len t : Nat) : RvOut :=
  let n := bits w 20 12
  let f3 := rvF3 w
  let src := if 4 ≤ f3 then rvRs1 w else (k.rx (rvRs1 w)).toNat
  let writes := f3 % 4 = 1 ∨ rvRs1 w ≠ 0
  match k.readCsr s eg c t n with
  | none => illegal
  | some old =>
    if writes ∧ n / 1024 = 3 then illegal
    else
      let new := match f3 % 4 with
        | 1 => src
        | 2 => old ||| src
        | _ => old &&& (2 ^ 64 - 1 - src)
      outX s (if writes then k.writeCsr t n new else k) len (rvRd w) (BitVec.ofNat 64 old) 1 1

/-- A trap taken in machine mode (R210, R230): mepc, mcause, mtval = 0 and mstatus as the RISC-V specification has it; an interrupt
under a vectored mtvec goes to base + 4 x cause. -/
def Core.trap (k : Core) (cause : Nat) : Core :=
  let st := k.csr 0x300
  let mtvec := k.csr 0x305
  let k1 := ((k.setCsr 0x341 k.pc).setCsr 0x342 cause).setCsr 0x343 0
  let k2 := { k1.setCsr 0x300 (bits st 3 1 * 2 ^ 7 + (if k.mmode then 0x1800 else 0) + bits st 17 1 * 2 ^ 17) with mmode := true }
  k2.jump (mtvec / 4 * 4 + (if mtvec % 2 = 1 && 2 ^ 63 ≤ cause then 4 * (cause - 2 ^ 63) else 0))

/-- Whether a core takes its external interrupt before its next instruction: pending, enabled in mie, and MIE set or U mode. A core
that runs a cluster program takes none (R218, R230). -/
def State.interrupted (s : State) (k : Core) (eg c : Nat) : Bool :=
  decide (128 ≤ eg) && bit s.svcPend (svcNumber eg c) && bit (k.csr 0x304) 11 && (!k.mmode || bit (k.csr 0x300) 3)

/-- ecall, ebreak, wfi and mret (R210, R218). -/
def execSystem (s : State) (k : Core) (w len : Nat) : RvOut :=
  match bits w 7 25 with
  | 0x000000 => .trap (if k.mmode then 11 else 8)
  | 0x002000 => .trap 3
  | 0x20A000 => if k.mmode then outN s k len 1 else illegal
  | 0x604000 =>
    if k.mmode then
      -- MIE takes MPIE, MPIE becomes 1, MPP becomes U, and a return to U mode clears MPRV
      let st := k.csr 0x300
      let back := bits st 11 2 == 3
      let k1 := { k.setCsr 0x300 (bits st 7 1 * 8 + 2 ^ 7 + (if back then bits st 17 1 * 2 ^ 17 else 0)) with mmode := back }
      .done ⟨s, k1.jump (k.csr 0x341), 3, 0, 0, 0⟩
    else illegal
  | _ => illegal

/-! ## Float operations -/

/-- A result in a float register of format F. -/
def outFp (s : State) (k : Core) (len rd : Nat) (F : IEEE) (r : FRes) (ival lat : Nat) : RvOut :=
  outF s k len rd (nanbox F r.code) r.flags ival lat

/-- A result in an integer register with flags. -/
def outXf (s : State) (k : Core) (len rd : Nat) (v : BitVec 64) (fl : Nat) : RvOut := outX s (k.accrue fl) len rd v 1 4

/-- fcvt between a float and an integer format: rs2 gives w, wu, l or lu. -/
def execFcvtInt (s : State) (k : Core) (w len : Nat) (F : IEEE) (rm : Nat) (toInt : Bool) : RvOut :=
  let q := rvRs2 w
  let n := if q < 2 then 32 else 64
  if 3 < q then illegal
  else if toInt then
    let r := rvToInt F rm n (q % 2 = 0) (unbox F (k.rf (rvRs1 w)))
    outXf s k len (rvRd w) (x64 (signed n r.code)) r.flags
  else outFp s k len (rvRd w) F (rvOfInt F rm n (q % 2 = 0) (k.rx (rvRs1 w)).toNat) 1 4

/-- OP-FP. -/
def execOpFp (s : State) (k : Core) (w len : Nat) : RvOut :=
  match rvFmt (rvF7 w % 4), rvFmt (rvRs2 w) with
  | none, _ => illegal
  | some F, G =>
    let a := unbox F (k.rf (rvRs1 w))
    let b := unbox F (k.rf (rvRs2 w))
    let rd := rvRd w
    let f3 := rvF3 w
    let withRm := fun (g : Nat → RvOut) => match k.rm f3 with | some rm => g rm | none => illegal
    match rvF7 w / 4 with
    | 0x00 => withRm (fun rm => outFp s k len rd F (rvAdd F rm a b) 1 4)
    | 0x01 => withRm (fun rm => outFp s k len rd F (rvSub F rm a b) 1 4)
    | 0x02 => withRm (fun rm => outFp s k len rd F (rvMul F rm a b) 1 4)
    | 0x03 => withRm (fun rm => outFp s k len rd F (rvDiv F rm a b) 20 20)
    | 0x0B => if rvRs2 w ≠ 0 then illegal else withRm (fun rm => outFp s k len rd F (rvSqrt F rm a) 20 20)
    | 0x04 => if 2 < f3 then illegal else outFp s k len rd F ⟨rvSgnj F f3 a b, 0⟩ 1 4
    | 0x05 => if 1 < f3 then illegal else outFp s k len rd F (rvMinMax F (f3 = 1) a b) 1 4
    | 0x08 => match G with
      | some G => if G = F then illegal else
          withRm (fun rm => outFp s k len rd F (rvCvt G F rm (unbox G (k.rf (rvRs1 w)))) 1 4)
      | none => illegal
    | 0x14 => if 2 < f3 then illegal else let r := rvCmp F f3 a b; outXf s k len rd (BitVec.ofNat 64 r.code) r.flags
    | 0x18 => withRm (fun rm => execFcvtInt s k w len F rm true)
    | 0x1A => withRm (fun rm => execFcvtInt s k w len F rm false)
    | 0x1C =>
      if rvRs2 w ≠ 0 then illegal
      else if f3 = 0 then outX s k len rd (x64 (signed F.bits (k.rf (rvRs1 w)))) 1 4
      else if f3 = 1 then outX s k len rd (BitVec.ofNat 64 (rvClass F a)) 1 4
      else illegal
    | 0x1E =>
      if rvRs2 w ≠ 0 ∨ f3 ≠ 0 then illegal else outF s k len rd (nanbox F (k.rx (rvRs1 w)).toNat) 0 1 4
    | _ => illegal

/-- The fused multiply-adds. -/
def execFma (s : State) (k : Core) (w len : Nat) (np nc : Bool) : RvOut :=
  match rvFmt (bits w 25 2), k.rm (rvF3 w) with
  | some F, some rm =>
    outFp s k len (rvRd w) F
      (rvFma F rm np nc (unbox F (k.rf (rvRs1 w))) (unbox F (k.rf (rvRs2 w))) (unbox F (k.rf (rvRs3 w)))) 1 4
  | _, _ => illegal

/-! ## Compressed instructions -/

/-- An R-type word. -/
def encR (op f3 f7 rd rs1 rs2 : Nat) : Nat :=
  op + rd * 2 ^ 7 + f3 * 2 ^ 12 + rs1 * 2 ^ 15 + rs2 * 2 ^ 20 + f7 * 2 ^ 25

/-- An I-type word with a 12-bit immediate. -/
def encI (op f3 rd rs1 imm : Nat) : Nat := op + rd * 2 ^ 7 + f3 * 2 ^ 12 + rs1 * 2 ^ 15 + imm % 4096 * 2 ^ 20

/-- An S-type word. -/
def encS (op f3 rs1 rs2 imm : Nat) : Nat :=
  op + imm % 32 * 2 ^ 7 + f3 * 2 ^ 12 + rs1 * 2 ^ 15 + rs2 * 2 ^ 20 + imm / 32 % 128 * 2 ^ 25

/-- A B-type word from a 13-bit offset. -/
def encB (f3 rs1 rs2 off : Nat) : Nat :=
  0x63 + bits off 11 1 * 2 ^ 7 + bits off 1 4 * 2 ^ 8 + f3 * 2 ^ 12 + rs1 * 2 ^ 15 + rs2 * 2 ^ 20 + bits off 5 6 * 2 ^ 25 +
    bits off 12 1 * 2 ^ 31

/-- A J-type word from a 21-bit offset. -/
def encJ (rd off : Nat) : Nat :=
  0x6F + rd * 2 ^ 7 + bits off 12 8 * 2 ^ 12 + bits off 11 1 * 2 ^ 20 + bits off 1 10 * 2 ^ 21 + bits off 20 1 * 2 ^ 31

/-- The 6-bit signed immediate of the CI forms, as 12 bits. -/
def ci6 (h : Nat) : Nat := unsigned 12 (signed 6 (bits h 2 5 + 32 * bits h 12 1))

/-- Offset of c.j. -/
def cjOff (h : Nat) : Nat :=
  unsigned 21 (signed 12 (2 * bits h 3 3 + 16 * bits h 11 1 + 32 * bits h 2 1 + 64 * bits h 7 1 + 128 * bits h 6 1 +
    256 * bits h 9 2 + 1024 * bits h 8 1 + 2048 * bits h 12 1))

/-- Offset of c.beqz and c.bnez. -/
def cbOff (h : Nat) : Nat :=
  unsigned 13 (signed 9 (2 * bits h 3 2 + 8 * bits h 10 2 + 32 * bits h 2 1 + 64 * bits h 5 2 + 256 * bits h 12 1))

/-- Quadrant 0. -/
def rvc0 (h : Nat) : Option Nat :=
  let rd := 8 + bits h 2 3
  let rs := 8 + bits h 7 3
  let w4 := 4 * bits h 6 1 + 8 * bits h 10 3 + 64 * bits h 5 1
  let w8 := 8 * bits h 10 3 + 64 * bits h 5 2
  match bits h 13 3 with
  | 0 =>
    let imm := 4 * bits h 6 1 + 8 * bits h 5 1 + 16 * bits h 11 2 + 64 * bits h 7 4
    if imm = 0 then none else some (encI 0x13 0 rd 2 imm)
  | 1 => some (encI 0x07 3 rd rs w8)
  | 2 => some (encI 0x03 2 rd rs w4)
  | 3 => some (encI 0x03 3 rd rs w8)
  | 5 => some (encS 0x27 3 rs rd w8)
  | 6 => some (encS 0x23 2 rs rd w4)
  | 7 => some (encS 0x23 3 rs rd w8)
  | _ => none

/-- Quadrant 1. -/
def rvc1 (h : Nat) : Option Nat :=
  let rd := bits h 7 5
  let rc := 8 + bits h 7 3
  let r2 := 8 + bits h 2 3
  let sh := bits h 2 5 + 32 * bits h 12 1
  match bits h 13 3 with
  | 0 => some (encI 0x13 0 rd rd (ci6 h))
  | 1 => if rd = 0 then none else some (encI 0x1B 0 rd rd (ci6 h))
  | 2 => some (encI 0x13 0 rd 0 (ci6 h))
  | 3 =>
    if sh = 0 then none
    else if rd = 2 then
      some (encI 0x13 0 2 2 (unsigned 12 (signed 10 (16 * bits h 6 1 + 32 * bits h 2 1 + 64 * bits h 5 1 + 128 * bits h 3 2 +
        512 * bits h 12 1))))
    else some (0x37 + rd * 2 ^ 7 + unsigned 20 (signed 6 sh) * 2 ^ 12)
  | 4 => match bits h 10 2 with
    | 0 => some (encI 0x13 5 rc rc sh)
    | 1 => some (encI 0x13 5 rc rc (sh + 0x400))
    | 2 => some (encI 0x13 7 rc rc (ci6 h))
    | _ =>
      if bit h 12 then
        match bits h 5 2 with
        | 0 => some (encR 0x3B 0 0x20 rc rc r2)
        | 1 => some (encR 0x3B 0 0 rc rc r2)
        | _ => none
      else match bits h 5 2 with
        | 0 => some (encR 0x33 0 0x20 rc rc r2)
        | 1 => some (encR 0x33 4 0 rc rc r2)
        | 2 => some (encR 0x33 6 0 rc rc r2)
        | _ => some (encR 0x33 7 0 rc rc r2)
  | 5 => some (encJ 0 (cjOff h))
  | 6 => some (encB 0 rc 0 (cbOff h))
  | _ => some (encB 1 rc 0 (cbOff h))

/-- Quadrant 2. -/
def rvc2 (h : Nat) : Option Nat :=
  let rd := bits h 7 5
  let r2 := bits h 2 5
  let l8 := 8 * bits h 5 2 + 32 * bits h 12 1 + 64 * bits h 2 3
  let l4 := 4 * bits h 4 3 + 32 * bits h 12 1 + 64 * bits h 2 2
  let s8 := 8 * bits h 10 3 + 64 * bits h 7 3
  match bits h 13 3 with
  | 0 => some (encI 0x13 1 rd rd (r2 + 32 * bits h 12 1))
  | 1 => some (encI 0x07 3 rd 2 l8)
  | 2 => if rd = 0 then none else some (encI 0x03 2 rd 2 l4)
  | 3 => if rd = 0 then none else some (encI 0x03 3 rd 2 l8)
  | 4 =>
    if bit h 12 then
      if rd = 0 ∧ r2 = 0 then some 0x00100073
      else if r2 = 0 then some (encI 0x67 0 1 rd 0)
      else some (encR 0x33 0 0 rd rd r2)
    else if r2 = 0 then (if rd = 0 then none else some (encI 0x67 0 0 rd 0))
    else some (encR 0x33 0 0 rd 0 r2)
  | 5 => some (encS 0x27 3 2 r2 s8)
  | 6 => some (encS 0x23 2 2 r2 (4 * bits h 9 4 + 64 * bits h 7 2))
  | _ => some (encS 0x23 3 2 r2 s8)

/-- The 32-bit instruction that a 16-bit one stands for; none for an illegal one. -/
def rvcExpand (h : Nat) : Option Nat :=
  match h % 4 with
  | 0 => rvc0 h
  | 1 => rvc1 h
  | 2 => rvc2 h
  | _ => none

/-! ## Scalar dispatch -/

/-- Carries out a scalar instruction; `none` when the word belongs to the vector or tile opcodes. -/
def State.rvScalar (s : State) (eg c : Nat) (k : Core) (w len t : Nat) : Option RvOut :=
  let rd := rvRd w
  let f3 := rvF3 w
  match w % 128 with
  | 0x37 => some (outX s k len rd (x64 (immU w)) 1 1)
  | 0x17 => some (outX s k len rd (BitVec.ofNat 64 k.pc + x64 (immU w)) 1 1)
  | 0x6F => some (execJump s k w len (BitVec.ofNat 64 k.pc + x64 (immJ w)).toNat)
  | 0x67 => some (if f3 = 0 then execJump s k w len (rvAddr k (rvRs1 w) (immI w) / 2 * 2) else illegal)
  | 0x63 => some (execBranch s k w len)
  | 0x03 => some (s.execLoad eg c k w len t false)
  | 0x23 => some (s.execStore eg k w len false)
  | 0x13 => some (execOpImm s k w len false)
  | 0x1B => some (execOpImm s k w len true)
  | 0x33 => some (execOp s k w len false)
  | 0x3B => some (execOp s k w len true)
  | 0x0F => some (if f3 = 0 then outN s k len 1 else if f3 = 1 then outN s { k with lines := [] } len 1 else illegal)
  | 0x73 => some (if f3 = 0 then execSystem s k w len else if f3 = 4 then illegal else execCsr s k eg c w len t)
  | 0x2F => some (s.execAtomic eg c k w len t)
  | 0x07 => if f3 = 0 ∨ 5 ≤ f3 then none else some (s.execLoad eg c k w len t true)
  | 0x27 => if f3 = 0 ∨ 5 ≤ f3 then none else some (s.execStore eg k w len true)
  | 0x43 => some (execFma s k w len false false)
  | 0x47 => some (execFma s k w len false true)
  | 0x4B => some (execFma s k w len true false)
  | 0x4F => some (execFma s k w len true true)
  | 0x53 => some (execOpFp s k w len)
  | 0x57 | 0x0B => none
  | _ => some illegal

end Sys2Proof.Machine
end

