-- ==== Sys2Proof/Machine/Boot.lean ====
section
/-!
DEFINITION. The boot attempt: its stages, images and signatures, retry and alternation, host step mode, flash updates and the fuses
(chapter 20).
-/

set_option Elab.async false

namespace Sys2Proof.Machine

open Sys2Proof

/-! ## Flash (R518, R519, R529) -/

/-- An erased byte of the flash (log entry 1). -/
def flashDefault : Nat → Byte := fun _ => 0xFF#8

/-- Reads flash. -/
def State.flashRead (s : State) (a n : Nat) : List Byte :=
  (List.range n).map (fun i => Sparse.rd flashDefault (a + i) s.sage.flash)

/-- Writes bytes to a flash table. -/
def putFlash (m : Sparse Byte) (a : Nat) : List Byte → Sparse Byte
  | [] => m
  | b :: bs => putFlash (Sparse.wr flashDefault a b m) (a + 1) bs

/-- Writes flash. -/
def State.flashWrite (s : State) (a : Nat) (bs : List Byte) : State :=
  { s with sage := { s.sage with flash := putFlash s.sage.flash a bs } }

/-- A valid directory or leaf copy of 64 bytes: its SEQ and value bytes 4 to 7 (R519). -/
def dirCopy (b : List Byte) : Option (Nat × Nat) :=
  if num b 61 3 = crc24 (b.take 61) then some (num b 0 4, num b 4 4) else none

/-- The bytes of a copy. -/
def dirBytes (seq v : Nat) : List Byte :=
  let b := leBytes 4 seq ++ leBytes 4 v ++ leBytes 53 0
  b ++ leBytes 3 (crc24 b)

/-- The ruling copy of a pair: SEQ, value, and the address of the other copy (R519). -/
def State.dirRead (s : State) (base : Nat) : Option (Nat × Nat) × Nat :=
  let c0 := dirCopy (s.flashRead base 64)
  let c1 := dirCopy (s.flashRead (base + 0x8000) 64)
  match c0, c1 with
  | some x, some y => if x.1 < y.1 then (some y, base) else (some x, base + 0x8000)
  | some x, none => (some x, base + 0x8000)
  | none, some y => (some y, base)
  | none, none => (none, base)

/-- Writes the copy that does not rule, with the next SEQ. -/
def State.dirWrite (s : State) (base v : Nat) : State :=
  let d := s.dirRead base
  s.flashWrite d.2 (dirBytes (((d.1.map (fun x => x.1)).getD 0 + 1) % 2 ^ 32) v)

/-- Flash address of an image slot. -/
def imageBase (n : Nat) : Nat := if n = 0 then 0x00100000 else 0x01100000

/-! ## Images (R520, R521) -/

/-- A component entry: TYPE, OFFSET and LENGTH. -/
def compEntry (h : List Byte) (i : Nat) : Nat × Nat × Nat := (num h (64 + 32 * i) 4, num h (68 + 32 * i) 4, num h (72 + 32 * i) 4)

/-- Largest size of a component (R521). -/
def compMax : Nat → Nat
  | 1 => 1048576
  | 2 => 4194304
  | 3 => 1048576
  | 4 => 16384
  | 5 => 7392
  | 6 => 4096
  | 16 => 1048576 - 4096
  | _ => 0

/-- Whether an image (kind 0) or blob (kind 1) has the form of R520 and R521. -/
def imageForm (kind : Nat) (b : List Byte) : Bool :=
  let n := num b 6 2
  let len := num b 12 4
  let es := (List.range n).map (compEntry b)
  num b 0 4 == 0x56444B46 && num b 4 2 == 1 && decide (1 ≤ n) && decide (n ≤ 32) && decide (4096 ≤ len) &&
    decide (len ≤ if kind = 0 then 16777216 else 1048576) && num b 16 1 == kind && allZero (sub b 17 47) && allZero (sub b 3884 212) &&
    (List.range n).all (fun i => allZero (sub b (76 + 32 * i) 20)) &&
    es.all (fun e => decide (e.2.1 + e.2.2 ≤ len) && decide (4096 ≤ e.2.1) && decide (e.2.2 ≤ compMax e.1)) &&
    (if kind = 0 then n == 6 && [1, 2, 3, 4, 5, 6].all (fun t => es.any (fun e => e.1 == t)) else es.all (fun e => e.1 == 16))

/-- The digest D that both signatures cover. -/
def imageDigest (b : List Byte) : List Byte := sha384 (b.take 2048 ++ b.drop 4096)

/-- The 96 fused bytes that the keys of a kind are held against: the owner's for a blob once they are programmed (R520). -/
def State.fusedKeys (s : State) (kind : Nat) : List Byte :=
  if kind = 1 ∧ s.flag F.secStat_OWNER 0 then s.sage.fuseOwn else s.sage.fuseImg

/-- Whether both signatures verify under keys whose hashes are fused (R520). -/
def State.imageSigned (s : State) (kind : Nat) (b : List Byte) : Bool :=
  let h := b.take 4096
  let ek := (List.range 97).map (Config.imageKey 0 h)
  let lk := (List.range 48).map (Config.imageKey 1 h)
  let d := imageDigest b
  sha384 ek == (s.fusedKeys kind).take 48 && sha384 lk == (s.fusedKeys kind).drop 48 &&
    ecdsaVerify ek d (sub h 2048 96) && lmsVerify 20 lk d (sub h 2144 1740)

/-- What verifying an image or blob finds: it, or the CAUSE of the failure: 4 format, 2 signature, 3 rollback (R520). -/
def State.verify (s : State) (kind : Nat) (b : List Byte) : Except Nat Image :=
  if !imageForm kind b then .error 4
  else if !s.imageSigned kind b then .error 2
  else if kind = 0 ∧ num b 8 4 < (s.reg .secSvn 0).toNat then .error 3
  else .ok ⟨num b 8 4, (List.range (num b 6 2)).map (fun i => let e := compEntry b i; (e.1, sub b e.2.1 e.2.2)), b⟩

/-- The component of a type. -/
def Image.comp (m : Image) (t : Nat) : List Byte := ((m.comps.find? (fun c => c.1 == t)).map (fun c => c.2)).getD []

/-- The address in BOOT_HADDR, whose low 12 bits are 0. -/
def State.haddr (s : State) : Nat := s.pair .bootHaddrLo .bootHaddrHi 0 / 4096 * 4096

/-- Bytes of host memory over P0, or of T1 (R527, R542). -/
def State.hostRead (s : State) (t1 : Bool) (a n : Nat) : List Byte :=
  (List.range n).map (fun i => if t1 then s.byteAt (a + i) else Config.hostByte s.free 0 ((a + i) % 2 ^ 64))

/-- Reads an image or blob: the header first, then LENGTH bytes in all, at most `most`. -/
def readImage (rd : Nat → Nat → List Byte) (a most : Nat) : List Byte :=
  let h := rd a 4096
  h ++ rd (a + 4096) (min most (num h 12 4) - 4096)

/-! ## Failures and attempts (R526) -/

/-- The wait after the k-th consecutive failed attempt, 100 ms x 2^min(k - 1, 9), in 25 MHz counts (R526). -/
def backoffTicks (k : Nat) : Nat := 2500000 * 2 ^ min (k - 1) 9

/-- A failed attempt: CAUSE, FSTAGE and ATTEMPTS, ALERT_N, the BOOT event, the backoff, and what the next attempt will be (R526). -/
def State.bootFail (s0 : State) (cause stage : Nat) : State :=
  let s := if 5 ≤ stage then s0.dieWinter else s0
  let other := some (1 - s.fld F.bootStat_IMAGE 0 % 2)
  let twice := decide (5 ≤ stage) && decide (1 ≤ s.sage.fails5)
  let g := s.sage
  let g1 :=
    if cause = 7 then { g with nextFull := false, fails5 := 0, lpRetry := true }
    else if stage ≤ 3 then { g with nextFull := true, nextImg := other, fails5 := 0, lpRetry := false }
    else if stage = 4 then
      { g with nextFull := true, nextImg := some (s.fld F.bootStat_IMAGE 0), fails5 := 0, lpRetry := false }
    else if twice then { g with nextFull := true, nextImg := other, fails5 := 0, lpRetry := false }
    else { g with nextFull := false, fails5 := g.fails5 + 1, lpRetry := false }
  let s1 := { s with sage := { g1 with phase := .backoff, failed := true } }
  let s2 := ((s1.setFld F.bootStat_CAUSE 0 cause).setFld F.bootStat_FSTAGE 0 stage).count F.bootStat_ATTEMPTS 0 1
  let s3 := { s2 with sage := { s2.sage with retryAt := s2.tick + backoffTicks (s2.fld F.bootStat_ATTEMPTS 0) } }
  (s3.raiseAlert).event evBoot St.ok none (s2.reg .bootStat 0).toNat 0

/-- Whether stage `n` is the one about to run. -/
def State.stageReady (s : State) (n : Nat) : Bool := s.sage.phase == .ready && s.fld F.bootStat_STAGE 0 == n

/-- An attempt begins: at stage 0, or where R526 lets it repeat. -/
def State.startAttempt (s : State) (full : Bool) : State :=
  if full then { s with sage := { s.sage with lpRetry := false } }.enterStage 0
  else s.enterStage (if s.sage.lpRetry then 3 else 5)

/-- BOOT_BACKOFF_EXPIRY (R526): the backoff ends and the next boot attempt starts. -/
def execBootBackoffExpiry (s : State) : Host.Outcome State Fault Refusal :=
  .next (if s.sage.phase = .backoff then { s with tick := max s.tick s.sage.retryAt }.startAttempt s.sage.nextFull else s)

/-- Whether the die may leave Winter: CRST_N released and temperatures low (R494, R509). -/
def State.dieMayRise (s : State) : Bool := !s.flag F.sysSeason_CRSTHELD 0 && !s.board.hotDie

/-- BOOT_STAGE_TIMEOUT (R517): a boot stage exceeding its limit fails the attempt with CAUSE = 1. A stage that waits does not run. -/
def execBootStageTimeout (s : State) : Host.Outcome State Fault Refusal :=
  let n := s.fld F.bootStat_STAGE 0
  .next (if s.sage.phase = .ready ∧ n ≤ 8 ∧ (n ≠ 5 ∨ s.dieMayRise) then s.bootFail 1 n else s)

/-! ## Stages 0 to 4 -/

/-- BOOT_ROM (R517): stage 0 clears Sage SRAM; fuses are read and the UDS latched. -/
def execBootRom (s : State) : Host.Outcome State Fault Refusal :=
  .next (if s.stageReady 0 then
      let g := s.sage
      { s with sage := { g with image := none, blob := none, aliasSeed := List.replicate 48 0x00#8, aliasN := 0, chain := [], meas := [] } }
        |>.enterStage (if g.rom then 2 else 1)
    else s)

/-- BOOT_HOST (R517): stage 1 brings up P0, P1 and the management bus. -/
def execBootHost (s : State) : Host.Outcome State Fault Refusal :=
  .next (if s.stageReady 1 then { s with sage := { s.sage with rom := true } }.enterStage 2 else s)

/-- The image that an attempt from stage 0 reads: forced by IMGSEL, chosen by R526, or named by the directory. IMGSEL = 3 is
reserved: either image (log entry 35). -/
def State.pickImage (s : State) : Nat :=
  let sel := s.fld F.bootCtl_IMGSEL 0
  if sel = 1 then 0
  else if sel = 2 then 1
  else if sel = 3 then Config.freeNat s.free 0 % 2
  else s.sage.nextImg.getD (((s.dirRead 0).1.map (fun x => x.2 % 256)).getD 0 % 2)

/-- The digest of the Sage boot ROM (R531: its content is the device's own; log entry 6). -/
def romDigest : List Byte := (List.range 48).map Config.romDigest

/-- The measurement blocks 1 to 9 (R531). -/
def State.measure (s : State) (m b : Image) : List (List Byte) :=
  [romDigest, sha384 (m.comp 1), sha384 (m.comp 2), sha384 (m.comp 3), sha384 (m.comp 4), sha384 (m.comp 5 ++ m.comp 6),
   sha384 b.raw,
   sha384 (leBytes 4 (s.reg .secSvn 0).toNat ++ s.sage.fuseOwn ++ leBytes 1 (b2n (s.flag F.secStat_PRODUCTION 0))),
   sha384 (assemblyWords.flatMap (fun x => leBytes 4 x) ++ [0xA1#8])]

/-- Reserves DeviceID LMS leaves and takes one (R529). -/
def State.takeLeaf (s : State) : State :=
  let next := ((s.dirRead 0x20000).1.map (fun x => x.2)).getD 0
  if s.sage.leafNext < s.sage.leaf then { s with sage := { s.sage with leafNext := s.sage.leafNext + 1 } }
  else
    let s1 := s.dirWrite 0x20000 ((next + 64) % 2 ^ 32)
    { s1 with sage := { s1.sage with leaf := next + 64, leafNext := next + 1 } }

/-- A new alias key pair and its certificate, signed with a DeviceID leaf (R528, R529). -/
def State.newAlias (s : State) : State :=
  let g := s.sage
  let cdi := hmac384 g.uds (sha384 ((g.meas.drop 1).take 7).flatten)
  let seed := hkdf (cdi ++ s.freshBytes 48) [] [0x61#8, 0x6C#8, 0x69#8, 0x61#8, 0x73#8] 48
  let s1 := s.draw.takeLeaf
  let cert := (List.range (Config.aliasCertLen seed g.meas)).map (Config.aliasCert seed g.meas)
  { s1 with sage := { s1.sage with aliasSeed := seed, aliasN := 0, chain := cert ++ derChain 16 (s1.flashRead 0x10000 0x10000) } }

/-- Stage 2 fails for a CAUSE; a signature or rollback failure posts SIG_INVALID (R520). -/
def State.flashFail (s : State) (cause : Nat) : State :=
  let s1 := s.bootFail cause 2
  if cause = 2 ∨ cause = 3 then s1.event evSignature St.sigInvalid none (s1.reg .bootStat 0).toNat 0 else s1

/-- Holds the service cores in reset (R521). -/
def State.holdSvc (s : State) : State :=
  { s with cores := Sparse.drop (fun k => decide (2048 ≤ k)) s.cores }

/-- Writes the service-core firmware of an image to service SRAM: Sceman on both I/O dies, the Fennel header firmware in the upper
half of IOD1's (R521; log entry 56). -/
def State.loadSvc (s : State) (m : Image) : State :=
  ((s.store (svcSram 0) (m.comp 2)).store (svcSram 1) (m.comp 2)).store (svcSram 1 + 0x400000) (m.comp 3)

/-- Stage 3 of a whole attempt releases the 16 service cores in machine mode, at the start of the firmware each runs (R230; log
entry 56). -/
def State.releaseSvc (s : State) : State :=
  (List.range 16).foldl (fun t n => t.setCore (128 + n / 8) (n % 8) { Core.reset with
    running := true, mmode := true, pc := if n < 12 then coreSram else coreSram + 0x400000, at_ := s.cycle }) s

/-- Stage 2: one pass over flash, or the image and blob from the host under SRC; both must verify (R518, R520, R527). Then the UDS
is locked, the measurements are taken and the alias key is derived (R528, R531). -/
def State.stageFlash (s0 : State) : State :=
  let n := s0.pickImage
  let s := (s0.holdSvc.draw.setFld F.bootStat_IMAGE 0 n)
  let host := s.flag F.bootCtl_SRC 0
  if host && !s.flag F.pciStat_UP 0 then s.flashFail 5
  else
    let rd := if host then s.hostRead false else s.flashRead
    let img := readImage rd (if host then s.haddr else imageBase n) 16777216
    let blob := readImage rd (if host then s.haddr + 0x1000000 else 0x02100000) 1048576
    match s.verify 0 img, s.verify 1 blob with
    | .error c, _ => s.flashFail c
    | _, .error c => s.flashFail c
    | .ok m, .ok b =>
      let fails := if n = s.sage.slot then s.sage.fails5 else 0
      let s1 := State.loadSvc { s with sage := { s.sage with
        image := some m, blob := some b, slot := n, fails5 := fails, meas := s.measure m b } } m
      ((s1.setFld F.secStat_UDSLOCK 0 1).newAlias).enterStage 3

/-- BOOT_FLASH (R520): stage 2 reads the flash once and verifies both signatures of the image and the blob. -/
def execBootFlash (s : State) : Host.Outcome State Fault Refusal := .next (if s.stageReady 2 then s.stageFlash else s)

/-- Applies one configuration record (R522). `first` is false in an attempt without a module reset, which keeps SYS_COORD (R526). -/
def State.applyRecord (s : State) (first : Bool) (key : Nat) (v : List Byte) : State :=
  let word := fun (o : Nat) => BitVec.ofNat 32 (num v o 4)
  let e := num v 0 1
  match key with
  | 0x0001 => if first then { s.setReg .sysCoord 0 (putField (s.reg .sysCoord 0) 0 24 (num v 0 3)) with sage := { s.sage with coordIn := true } } else s
  | 0x0002 => s.writePwrCap (BitVec.ofNat 32 (num v 0 2 + num v 2 2 % 4096 * 65536))
  | 0x0003 => if s.sceman.anchors.length < 16 then s.setSceman { s.sceman with anchors := s.sceman.anchors ++ [v] } else s
  | 0x0004 => if e < 4 then s.setReg .ethCfg e (plainWrite .ethCfg false (s.reg .ethCfg e) (word 1)) else s
  | 0x0005 =>
    if e < 4 then s.setEth e { s.ethPort e with addrs := (s.ethPort e).addrs ++ [sub v 1 (if v.length = 18 then 16 else 4)] } else s
  | 0x0006 => (s.setReg .ethUdpport 0 (plainWrite .ethUdpport false (s.reg .ethUdpport 0) (word 0))).setReg .ethCctgt 0
      (plainWrite .ethCctgt false (s.reg .ethCctgt 0) (word 4))
  | 0x0007 => (s.setReg .memT3due 0 (plainWrite .memT3due false (s.reg .memT3due 0) (word 0))).setReg .memT3due 1
      (plainWrite .memT3due false (s.reg .memT3due 1) (word 4))
  | 0x0008 => s.setReg .clkNom 0 (plainWrite .clkNom false (s.reg .clkNom 0) (word 0))
  | 0x0009 => (s.setReg .ceCollwatch 0 (plainWrite .ceCollwatch false (s.reg .ceCollwatch 0) (word 0))).setReg .ceRetry 0
      (plainWrite .ceRetry false (s.reg .ceRetry 0) (word 4))
  | 0x000A => (List.range 6).foldl (fun t k => t.setFld F.lnkCfg_ENABLE k (b2n (bit e k))) s
  | _ => s

/-- Applies the records of the blob, back to back and padded to 4 bytes (R522). -/
def State.applyRecords (first : Bool) : Nat → List Byte → State → State
  | 0, _, s => s
  | n + 1, b, s =>
    if b.length < 4 then s
    else
      let len := num b 2 2
      State.applyRecords first n (b.drop (4 + ceilDiv len 4 * 4)) (s.applyRecord first (num b 0 2) (sub b 4 len))

/-- Stage 3 of a whole attempt: trust anchors and port addresses are loaded anew with the records, and LOCK is set (R522). -/
def State.configure (s : State) : State :=
  let recs := (s.sage.blob.map (fun b => b.comps.flatMap (fun c => c.2))).getD []
  let s1 := s.setSceman { s.sceman with anchors := [] }
  let s2 := (List.range 4).foldl (fun t e => t.setEth e { t.ethPort e with addrs := [] }) s1
  (State.applyRecords (!s.flag F.pwrCap_LOCK 0) recs.length recs s2).setFld F.pwrCap_LOCK 0 1

/-- Trains the LP5X controllers that are not trained; those in `failed` fail, marked FAILED (R325, R526). -/
def State.trainLp (s : State) (failed : List Nat) : State :=
  let todo := if s.sage.lpGood then [] else if s.sage.lpBad.isEmpty then (List.range 24).map (fun c => 192 + c) else s.sage.lpBad
  let bad := todo.filter (fun c => failed.contains c)
  let s1 := todo.foldl (fun t c => t.setFld F.memRepair_FAILED c (b2n (failed.contains c))) s
  { s1 with sage := { s1.sage with lpBad := bad, lpGood := bad.isEmpty } }

/-- BOOT_IOD (R522): stage 3 trains LP5X, releases service cores and Fennel and applies the configuration records. A repeated
training goes on at stage 5 once it passes (R526). -/
def execBootIod (failed : List Nat) (s : State) : Host.Outcome State Fault Refusal :=
  .next (if s.stageReady 3 then
      let s1 := s.trainLp failed
      if s.sage.lpRetry then (if s1.sage.lpGood then s1.enterStage 5 else s1.bootFail 7 3)
      else s1.configure.releaseSvc.enterStage 4
    else s)

/-- BOOT_LINKS (R517): stage 4 trains the torus and Ethernet ports that are not up; with an LP5X controller untrained the attempt
then fails (R526). -/
def execBootLinks (s : State) : Host.Outcome State Fault Refusal :=
  .next (if s.stageReady 4 then
      let s1 := ((List.range 6).foldl (fun t k => t.trainPort k) s).settleCoord
      let s2 := (List.range 4).foldl (fun t e => if t.ethUp e then t else t.ethTrain e) s1
      if s2.sage.lpGood then s2.enterStage 5 else s2.bootFail 7 3
    else s)

/-! ## Stages 5 to 8 -/

/-- Stage 5: the die enters Spring, the compute PLL is at level 0, every HBM3E channel is trained with its repairs (R324, R517). -/
def State.stageHbm (s : State) (repairs : List (Nat × Word)) : State :=
  let s1 := (s.setDie spring).setFld F.clkStat_LEVEL 0 0
  let word := fun c => ((repairs.find? (fun r => r.1 == c)).map (fun r => r.2.toNat % 1024)).getD 0
  let s2 := (List.range 192).foldl (fun t c => t.setReg .memRepair c (BitVec.ofNat 32 (word c))) s1
  if (List.range 192).any (fun c => bit (word c) 9) then
    -- FAILED stays reported while the die is in Winter (R325)
    let s3 := s2.bootFail 8 5
    (List.range 192).foldl (fun t c => t.setReg .memRepair c (BitVec.ofNat 32 (word c))) s3
  else { s2 with sage := { s2.sage with wave := 0 } }.enterStage 6

/-- BOOT_HBM (R324): stage 5 puts the die in Spring and trains and repairs every HBM3E channel. -/
def execBootHbm (repairs : List (Nat × Word)) (s : State) : Host.Outcome State Fault Refusal :=
  .next (if s.stageReady 5 && s.dieMayRise then s.stageHbm repairs else s)

/-- The order in which blocks are powered (R523). -/
def waveOrder : List Nat := [0, 2, 4, 6, 1, 3, 5, 7]

/-- POWER_WAVE (R523): one engine-group block is powered and its SRAMs self-tested and repaired. -/
def execPowerWave (good : Bool) (s : State) : Host.Outcome State Fault Refusal :=
  .next (if s.stageReady 6 then
      if !good then s.bootFail 9 6
      else
        let w := s.sage.wave + 1
        let s1 := { s with sage := { s.sage with wave := w } }
        if w < waveOrder.length then s1 else s1.enterStage 7
    else s)

/-- Sends the Basil firmware to the clusters of engine groups (R510, R524). -/
def State.broadcast (s : State) (egs : List Nat) : State :=
  let fw := (s.sage.image.map (fun m => m.comp 4)).getD []
  egs.foldl (fun t eg => t.store (cluBase eg + 0xF0000) fw) s

/-- Loads the factory tables of R137 and R138, which component 5 of a firmware image holds (log entry 45), into both copies of SFU
slots 0 to 6 of engine groups, which are loaded from then on (R153, R510, R524). -/
def State.loadSfu (s : State) (egs : List Nat) : State :=
  egs.foldl (fun t eg => ((List.range 7).foldl (fun u k =>
    (u.setSfuTable eg k 0 (factoryTable k)).setSfuTable eg k 1 (factoryTable k)) t).setFld F.sfuTblloaded_LOADED eg
      (t.fld F.sfuTblloaded_LOADED eg ||| 0x7F)) s

/-- BOOT_BROADCAST (R524): stage 7 multicasts the Basil firmware and loads SFU factory tables. -/
def execBootBroadcast (good : Bool) (s : State) : Host.Outcome State Fault Refusal :=
  .next (if s.stageReady 7 then
      if good then ((s.broadcast (List.range 128)).loadSfu (List.range 128)).enterStage 8 else s.bootFail 10 7
    else s)

/-- The die enters Summer: k returns to 0, and ALERT_N's boot and temperature conditions end (R509, R526, R564). -/
def State.dieSummer (s : State) : State :=
  let s1 := ((s.setDie summer).setFld F.bootStat_STAGE 0 9).setFld F.bootStat_ATTEMPTS 0 0
  { s1 with sage := { s1.sage with phase := .summer, fails5 := 0, nextImg := none, failed := false, critical := false } }.settleAlert

/-- BOOT_SELFTEST (R525): stage 8 runs logic self-test, and then the die enters Summer. -/
def execBootSelftest (failing : Option Nat) (s : State) : Host.Outcome State Fault Refusal :=
  inRange (match failing with | some eg => eg < 128 | none => true) (fun _ =>
    .next (if s.stageReady 8 then
        match failing with
        | none => s.dieSummer
        | some eg => (s.setFld F.bootStat_FAILEG 0 eg).bootFail 9 8
      else s))

/-! ## BOOT_CTL and SEC_CTL (R526, R527, R532) -/

/-- GO: the next stage runs (R527). -/
def State.bootGo (s : State) : State :=
  if s.sage.phase = .stepWait then { s with sage := { s.sage with phase := .ready } }.setFld F.bootStat_STEPWAIT 0 0 else s

/-- RESTART: ends a wait or backoff and starts an attempt at stage 0; a die in Spring goes back to Winter first (R509, R527). -/
def State.bootRestart (s : State) : State :=
  if s.sage.phase = .stepWait ∨ s.sage.phase = .backoff then
    (if s.dieSeason = spring then s.dieWinter else s).startAttempt true
  else s

/-- UPDATE: an image from BOOT_HADDR that verifies goes to the slot other than the one that booted, and the directory names it
(R527). -/
def State.bootUpdate (s0 : State) : State :=
  let a := s0.pair .bootHaddrLo .bootHaddrHi 0
  let t1 := decide (2 ^ 63 ≤ a)
  let s := s0.draw
  if !t1 && !s.flag F.pciStat_UP 0 then s
  else
    let b := readImage (s.hostRead t1) (if t1 then s.haddr % 2 ^ 48 else s.haddr) 16777216
    match s.verify 0 b with
    | .error c =>
      let s1 := s.setFld F.bootStat_CAUSE 0 c
      if c = 4 then s1 else s1.event evSignature St.sigInvalid none (s1.reg .bootStat 0).toNat 0
    | .ok _ =>
      let n := 1 - s.sage.slot
      (s.flashWrite (imageBase n) b).dirWrite 0 n

/-- ALERTCLR releases ALERT_N until a new condition arises (R564). -/
def State.alertClear (s : State) : State := { s with sage := { s.sage with alert := false } }

/-- COMMITSVN: MINSVN is fused to the SVN of the running image (R532). -/
def State.commitSvn (s : State) : State :=
  match s.sage.image with
  | some m => if (s.reg .secSvn 0).toNat < m.svn then s.setReg .secSvn 0 (BitVec.ofNat 32 m.svn) else s
  | none => s

/-- OWNERPROG: the owner key hashes are fused from the 96 bytes at BOOT_HADDR, once (R532). -/
def State.ownerProg (s : State) : State :=
  if s.flag F.secStat_OWNER 0 then s
  else { s with sage := { s.sage with fuseOwn := s.hostRead false s.haddr 96 } }.draw.setFld F.secStat_OWNER 0 1

/-- GO (R527): a write of GO runs the next stage in host step mode. -/
def execGo (who : Requester) (s : State) : Host.Outcome State Fault Refusal := .next (s.gated who .bootCtl 0 s.bootGo)

/-- RESTART (R527): a write of RESTART ends any wait or backoff and starts an attempt at stage 0. -/
def execRestart (who : Requester) (s : State) : Host.Outcome State Fault Refusal := .next (s.gated who .bootCtl 0 s.bootRestart)

/-- FLASH_UPDATE (R527): a write of UPDATE verifies an image, writes it to the other slot and updates the directory. -/
def execFlashUpdate (who : Requester) (s : State) : Host.Outcome State Fault Refusal := .next (s.gated who .bootCtl 0 s.bootUpdate)

/-- ALERTCLR (R564): a write of ALERTCLR releases ALERT_N until a new condition arises. -/
def execAlertclr (who : Requester) (s : State) : Host.Outcome State Fault Refusal := .next (s.gated who .bootCtl 0 s.alertClear)

/-- COMMITSVN (R532): a write of COMMITSVN fuses MINSVN to the running image's SVN. -/
def execCommitsvn (who : Requester) (s : State) : Host.Outcome State Fault Refusal := .next (s.gated who .secCtl 0 s.commitSvn)

/-- OWNERPROG (R532): a write of OWNERPROG fuses the owner key hashes unless already programmed. -/
def execOwnerprog (who : Requester) (s : State) : Host.Outcome State Fault Refusal := .next (s.gated who .secCtl 0 s.ownerProg)

end Sys2Proof.Machine
end

