-- ==== Sys2Proof/Machine/Board.lean ====
section
/-!
DEFINITION. The module's pins, resets from outside, input power and reference clocks (R512, R515, R535, R555 to R567).
-/

set_option Elab.async false

namespace Sys2Proof.Machine

open Sys2Proof

/-- Replaces the pins. -/
def State.setBoard (s : State) (b : Board) : State := { s with board := b }

/-! ## RESET_N and PWRGOOD (R512, R563) -/

/-- RESET_N low is honoured: module reset; ATTEMPTS becomes 0 (R532). -/
def State.pinReset (s : State) : State :=
  let s1 := { s with sage := { s.sage with failed := false } }
  let s2 := ((s1.moduleReset true).setFld F.bootStat_ATTEMPTS 0 0).setFld F.sysRstcause_PIN 0 1
  (s2.setBoard { s2.board with resetN := false }).settleAlert

/-- A low pulse of RESET_N of `ns` nanoseconds: below 50 it is ignored, from 200 on it is honoured; a pulse between, which the
platform must not drive, may be either (R563; log entry 36). -/
def State.resetPulse (s : State) (ns : Nat) : State :=
  if ns < 50 then s
  else if ns < 200 ∧ Config.freeNat s.free 0 % 2 = 0 then s.draw
  else s.draw.pinReset

/-- RESET_N_ASSERT (R512): RESET_N low puts the module in module reset. -/
def execResetNAssert (ns : Nat) (s : State) : Host.Outcome State Fault Refusal := .next (s.resetPulse ns)

/-- RESET_N_RELEASE (R561): RESET_N released with PWRGOOD high ramps the rails and starts a boot attempt. -/
def execResetNRelease (s : State) : Host.Outcome State Fault Refusal :=
  .next (s.setBoard { s.board with resetN := true }).tryStart

/-- PWRGOOD_LOW (R562): PWRGOOD honoured low puts the module in module reset, BOOT included (R532). -/
def execPwrgoodLow (s : State) : Host.Outcome State Fault Refusal :=
  .next (if s.board.pwrgood then
      let s1 := (s.moduleReset false).setFld F.sysRstcause_POWER 0 1
      (s1.setBoard { s1.board with pwrgood := false }).settleAlert
    else s)

/-- PWRGOOD_HIGH (R561): PWRGOOD honoured high allows the rails to ramp. -/
def execPwrgoodHigh (s : State) : Host.Outcome State Fault Refusal :=
  .next (s.setBoard { s.board with pwrgood := true }).tryStart

/-! ## CRST_N (R512, R515) -/

/-- Whether a channel or controller is marked FAILED. -/
def State.untrained (s : State) : Bool := (List.range 216).any (fun c => s.flag F.memRepair_FAILED c)

/-- Honours the filtered level of CRST_N; for 100 us the input is then ignored (R491, R515). A release tries training again where it
failed, without the backoff's end (R325). -/
def State.honourCrst (s : State) : State :=
  let on := s.board.crst
  let s1 := (s.setBoard { s.board with crstHold := true }).setFld F.sysSeason_CRSTHELD 0 (b2n on)
  if on then s1.crstReset else if s1.sage.phase == .backoff && s1.untrained then s1.startAttempt s1.sage.nextFull else s1

/-- A level of CRST_N has passed the filter. -/
def State.crstLevel (s : State) (active : Bool) : State :=
  let s1 := s.setBoard { s.board with crst := active }
  if s.board.crstHold || s.flag F.sysSeason_CRSTHELD 0 == active then s1 else s1.honourCrst

/-- CRST_N_ASSERT (R512): CRST_N honoured active puts the compute die in Winter while the I/O dies stay up. -/
def execCrstNAssert (s : State) : Host.Outcome State Fault Refusal := .next (s.crstLevel true)

/-- CRST_N_RELEASE (R509): CRST_N released lets a boot attempt take the die to Spring. -/
def execCrstNRelease (s : State) : Host.Outcome State Fault Refusal := .next (s.crstLevel false)

/-- CRST_N_HOLD_END (R515): at the end of the hold the current filtered level is honoured if it differs. -/
def execCrstNHoldEnd (s : State) : Host.Outcome State Fault Refusal :=
  .next (if s.board.crstHold then (s.setBoard { s.board with crstHold := false }).crstLevel s.board.crst else s)

/-! ## PCIe ports (R512, R534, R535, R563) -/

/-- PERST_ASSERT (R535): PERST_A_N or PERST_B_N resets its PCIe port and functions. -/
def execPerstAssert (d : Nat) (s : State) : Host.Outcome State Fault Refusal :=
  inRange (d < 2) (fun _ => .next (if s.board.perst.contains d then s
    else (s.portReset d).setBoard { s.board with perst := s.board.perst ++ [d] }))

/-- PERST_RELEASE (R563): release of PERST lets the port train. -/
def execPerstRelease (d : Nat) (s : State) : Host.Outcome State Fault Refusal :=
  inRange (d < 2) (fun _ => .next (s.setBoard { s.board with perst := s.board.perst.filter (fun x => x != d) }))

/-- PCIE_REFCLK_LOSS (R535): loss of a PCIe reference, link or partner takes the port down and clears its functions. -/
def execPcieRefclkLoss (d : Nat) (s : State) : Host.Outcome State Fault Refusal :=
  inRange (d < 2) (fun _ => .next (s.portDown d))

/-- A port trains to a generation and width: SPEED 1 to 4 and 1, 2, 4 or 8 lanes, in flit mode always at 64 GT/s and never at
8 GT/s (R534). -/
def State.linkUp (s : State) (d speed width : Nat) (flit : Bool) : State :=
  let f := speed = 4 || (flit && speed ≠ 1)
  (((s.setFld F.pciStat_UP d 1).setFld F.pciStat_SPEED d speed).setFld F.pciStat_WIDTH d width).setFld F.pciStat_FLIT d (b2n f)

/-- PCIE_LINK_UP (R534): a PCIe port trains to the highest common generation and width. A port in PERST or a module held in reset
does not train. -/
def execPcieLinkUp (d speed width : Nat) (flit : Bool) (s : State) : Host.Outcome State Fault Refusal :=
  inRange (d < 2) (fun _ => .next
    (if decide (1 ≤ speed) && decide (speed ≤ 4) && [1, 2, 4, 8].contains width && !s.board.perst.contains d && s.board.runs
      then s.linkUp d speed width flit else s))

/-! ## Sage's watchdog (R527) -/

/-- SAGE_WATCHDOG (R527): Sage unserviced for 1 s causes a module reset, and k is kept. -/
def execSageWatchdog (s : State) : Host.Outcome State Fault Refusal :=
  .next (if s.sage.phase = .held then s
    else
      let s1 := ((s.moduleReset true).setFld F.sysRstcause_WATCHDOG 0 1).setFld F.bootStat_CAUSE 0 11
      (s1.setFld F.bootStat_FSTAGE 0 (s.fld F.bootStat_STAGE 0)).tryStart)

/-! ## Input power (R558 to R562) -/

/-- All rails turn off, the always-on rail included (R560). -/
def State.railsOff (s : State) (why : Shut) : State :=
  let s1 := (s.moduleReset false).setFld F.sysRstcause_POWER 0 1
  (s1.setBoard { Board.reset with shut := some why, mated := s.board.mated, osc := s.board.osc, pwrgood := s.board.pwrgood
                                  resetN := s.board.resetN, perst := s.board.perst }).setFld F.sysSeason_CRSTHELD 0 0

/-- The rails start again, and with them the boot when the other inputs let it (R560, R561). -/
def State.railsOn (s : State) (why : Shut) : State :=
  if s.board.shut = some why then (s.setBoard { s.board with shut := none }).tryStart else s

/-- INPUT_POWER_ON (R561): the input reaching 36 V starts the hot-swap charge and then the always-on rail. -/
def execInputPowerOn (s : State) : Host.Outcome State Fault Refusal := .next (s.railsOn .under)

/-- INPUT_UNDERVOLTAGE (R560): an input below 34.0 V turns all rails off. -/
def execInputUndervoltage (s : State) : Host.Outcome State Fault Refusal := .next (s.railsOff .under)

/-- INPUT_OVERVOLTAGE (R560): an input above 47.0 V for 10 us turns all rails off. -/
def execInputOvervoltage (s : State) : Host.Outcome State Fault Refusal := .next (s.railsOff .overvolt)

/-- INPUT_OVERCURRENT (R560): excess input current turns all rails off and restarts 1 s later. -/
def execInputOvercurrent (s : State) : Host.Outcome State Fault Refusal := .next (s.railsOff .current)

/-- OVERCURRENT_RESTART (R560): one second after an overcurrent shutdown the module starts its rails again. -/
def execOvercurrentRestart (s : State) : Host.Outcome State Fault Refusal := .next (s.railsOn .current)

/-- INPUT_OVERVOLTAGE_RECOVERY (R560): an input below 45.0 V after an overvoltage shutdown lets the module restart. -/
def execInputOvervoltageRecovery (s : State) : Host.Outcome State Fault Refusal := .next (s.railsOn .overvolt)

/-- POWER_STAGE_OVERTEMP (R560): a power stage above 125 C acts as a critical I/O-die reading; no sensor number names the power
stage (log entry 37). -/
def execPowerStageOvertemp (s : State) : Host.Outcome State Fault Refusal :=
  .next (if s.board.hotIo then s else (s.draw.criticalEvent (Config.freeNat s.free 0) (Config.freeNat s.free 1)).criticalIo)

/-- PRESENT_N_MATE (R559): PRESENT_N mating lets the hot-swap stage start conversion. -/
def execPresentNMate (s : State) : Host.Outcome State Fault Refusal :=
  .next (s.setBoard { s.board with mated := true }).tryStart

/-! ## The always-on oscillator (R567) -/

/-- ALWAYS_ON_CLOCK_LOSS (R512): loss of the 25 MHz oscillator holds the module in reset until it returns. -/
def execAlwaysOnClockLoss (s : State) : Host.Outcome State Fault Refusal :=
  .next (if s.board.osc then (s.moduleReset true).setBoard { s.board with osc := false } else s)

/-- ALWAYS_ON_CLOCK_RETURN (R567): the oscillator's return releases the module from the reset it held itself in. -/
def execAlwaysOnClockReturn (s : State) : Host.Outcome State Fault Refusal :=
  .next (s.setBoard { s.board with osc := true }).tryStart

end Sys2Proof.Machine
end

