-- ==== Sys2Proof/Machine/Fennel.lean ====
section
/-!
DEFINITION. The Fennel video codec (chapter 15): the descriptor ring, stream contexts, descriptor checks, row-level rate control and
status records. The bits of a picture are functions of its inputs that the manual does not give (R417, R433; log entry 10).
-/

set_option Elab.async false

namespace Sys2Proof.Machine

open Sys2Proof

/-- A picture descriptor (R422). -/
structure Pic where
  op     : Nat
  codec  : Nat
  depth  : Nat
  part   : Nat
  width  : Nat
  height : Nat
  ctx    : Nat
  pool   : Nat
  luma   : Nat
  chroma : Nat
  pitch  : Nat
  dest   : Nat
  nref   : Nat
  refs   : List Nat
  core   : Nat
  qp0    : Nat
  qpmin  : Nat
  qpmax  : Nat
  dmax   : Nat
  target : Nat
  out    : Nat
  cap    : Nat
  rwt    : Nat
  stat   : Nat
  deriving DecidableEq, Repr

/-- Reads a descriptor. -/
def Pic.of (b : List Byte) : Pic :=
  { op := num b 0 1, codec := num b 1 1, depth := num b 2 1, part := num b 3 1, width := num b 4 2, height := num b 6 2,
    ctx := num b 8 8, pool := num b 16 8, luma := num b 24 8, chroma := num b 32 8, pitch := num b 40 4, dest := num b 44 1,
    nref := num b 45 1, refs := (List.range (min 7 (num b 45 1))).map (fun i => num b (46 + i) 1), core := num b 53 1,
    qp0 := num b 54 1, qpmin := num b 55 1, qpmax := num b 56 1, dmax := num b 57 1, target := num b 60 4, out := num b 64 8,
    cap := num b 72 4, rwt := num b 80 8, stat := num b 88 8 }

/-- Bytes of a luma sample (R419). -/
def Pic.ssize (p : Pic) : Nat := if p.depth = 10 then 2 else 1

/-- Block rows of 64 luma samples. -/
def Pic.rows (p : Pic) : Nat := ceilDiv p.height 64

/-- A reference pool entry (R426). -/
structure PoolEntry where
  luma   : Nat
  chroma : Nat
  pitch  : Nat
  width  : Nat
  height : Nat
  marks  : Nat
  deriving DecidableEq, Repr

/-- Reads a pool entry. -/
def PoolEntry.of (b : List Byte) : PoolEntry := ⟨num b 0 8, num b 8 8, num b 16 4, num b 20 2, num b 22 2, num b 24 1⟩

/-- Whether planes are placed as R419 asks. -/
def planesOk (luma chroma pitch row : Nat) : Bool :=
  luma % 2048 == 0 && chroma % 2048 == 0 && pitch % 256 == 0 && decide (row ≤ pitch)

/-- Whether an encode may use the dimensions, the QPs and the source planes (R416, R422). -/
def Pic.encodeOk (p : Pic) : Bool :=
  let top := 51 + 6 * (p.depth - 8)
  decide (p.codec ≤ 1) && decide (64 ≤ p.width) && decide (p.width ≤ 7680) && decide (64 ≤ p.height) && decide (p.height ≤ 4320) &&
    p.width % 8 == 0 && p.height % 8 == 0 && decide (p.qp0 ≤ top) && decide (p.qpmin ≤ top) && decide (p.qpmax ≤ top) &&
    decide (p.dmax ≤ 12) && planesOk p.luma p.chroma p.pitch (p.width * p.ssize)

/-- Whether a decode may use the dimensions and depth (R416). -/
def Pic.decodeOk (p : Pic) : Bool :=
  decide (p.codec ≤ 2) && decide (1 ≤ p.width) && decide (p.width ≤ 8192) && decide (1 ≤ p.height) &&
    decide (p.height ≤ if p.codec = 2 then 4320 else 4352) && (p.codec != 2 || p.depth == 8)

/-- Whether a descriptor has no reserved value, as far as its own bytes tell (R422, R432). -/
def picOk (b : List Byte) : Bool :=
  let p := Pic.of b
  allZero (sub b 58 2) && allZero (sub b 76 4) && allZero (sub b 96 32) && decide (p.op ≤ 1) && (p.depth == 8 || p.depth == 10) &&
    decide (p.part ≤ 7) && p.ctx % 4096 == 0 && p.pool % 64 == 0 && p.stat % 64 == 0 && decide (p.dest ≤ 15) && decide (p.nref ≤ 7) &&
    p.refs.all (fun r => decide (r ≤ 15)) && decide (12 ≤ p.core) && decide (p.core ≤ 15) && !p.refs.contains p.dest &&
    decide (p.dmax ≤ 15) &&
    (if p.op = 0 then p.encodeOk else p.decodeOk)

/-- The pool entry `i` of a table. -/
def poolAt (tab : List Byte) (i : Nat) : PoolEntry := PoolEntry.of (sub tab (32 * i) 32)

/-- Whether every reference is VALID and of the picture's size and depth (R432). -/
def Pic.refsOk (p : Pic) (tab : List Byte) : Bool :=
  p.refs.all (fun r =>
    let e := poolAt tab r
    bit e.marks 0 && e.width == p.width && e.height == p.height && bit e.marks 4 == (p.depth == 10))

/-- Byte ranges of two planes: address and length of each row. -/
def planeRows (luma chroma pitch row height : Nat) : List (Nat × Nat) :=
  (List.range height).map (fun y => (luma + y * pitch, row)) ++ (List.range (height / 2)).map (fun y => (chroma + y * pitch, row))

/-- Rows of source samples that an encode reads. -/
def Pic.source (p : Pic) : List (Nat × Nat) :=
  if p.op = 0 then planeRows p.luma p.chroma p.pitch (p.width * p.ssize) p.height else []

/-- What a picture reads that is no sample: a decode's data, an encode's row weights. -/
def Pic.plain (p : Pic) : List (Nat × Nat) :=
  if p.op = 0 then (if p.rwt ≠ 0 then [(p.rwt, 2 * p.rows)] else []) else [(p.luma, p.chroma % 2 ^ 32)]

/-- Rows of the reference pictures. -/
def Pic.refRows (p : Pic) (tab : List Byte) : List (Nat × Nat) :=
  p.refs.flatMap (fun r => let e := poolAt tab r; planeRows e.luma e.chroma e.pitch (p.width * p.ssize) p.height)

/-- The ranges a picture reads beyond the descriptor, the pool table and the context: source or data, weights, references. -/
def Pic.reads (p : Pic) (tab : List Byte) : List (Nat × Nat) := p.source ++ p.plain ++ p.refRows tab

/-- A row of samples as Fennel reads and writes it: at 10-bit depth bits [15:10] of a sample are 0 (R419). -/
def Pic.samples (p : Pic) (b : List Byte) : List Byte :=
  if p.depth = 10 then b.mapIdx (fun i x => if i % 2 = 1 then x &&& 0x03#8 else x) else b

/-- What the bits of a picture depend on (R433): the descriptor, the context, the pool entries it reads, and what it reads through
them. -/
def State.fenInputs (s : State) (d : List Byte) (p : Pic) (tab : List Byte) : List (List Byte) :=
  let raw := fun (l : List (Nat × Nat)) => l.map (fun x => s.read x.1 x.2)
  d :: s.fen.data :: (p.refs ++ [p.dest]).flatMap (fun r => sub tab (32 * r) 32) ::
    ((raw p.source).map p.samples ++ raw p.plain ++ (raw (p.refRows tab)).map p.samples)

/-- The first address of some ranges that Fennel may not use: outside the partition's windows or outside T1 (R421). -/
def State.fenRefused (s : State) (p : Nat) (l : List (Nat × Nat)) : Option Nat :=
  l.findSome? (fun x =>
    if x.2 = 0 then none
    else match s.firstOutside p x.1 x.2 with
      | some a => some a
      | none => if rangeRegion x.1 x.2 = some .t1 then none else some x.1)

/-- The first uncorrectable word in some ranges. -/
def State.fenBad (s : State) (l : List (Nat × Nat)) : Option Nat := l.findSome? (fun x => s.badIn x.1 x.2)

/-! ## Rate control (R431) -/

/-- Clamps an integer into a range. -/
def clampI (v lo hi : Int) : Int := min hi (max lo v)

/-- The row weights: RWT_ADDR, or the luma height of each row. -/
def State.rowWeights (s : State) (p : Pic) : List Nat :=
  if p.rwt = 0 then (List.range p.rows).map (fun r => min 64 (p.height - 64 * r))
  else (List.range p.rows).map (fun r => leNat (s.read (p.rwt + 2 * r) 2))

/-- Tile columns of a coded picture: one for HEVC; for AV1 four, or one for each superblock column (R418). -/
def Pic.tiles (p : Pic) : Nat := if p.codec = 0 then 1 else min 4 (ceilDiv p.width 64)

/-- What the rows so far have given: QPs, bits by tile column, and the sums of R431, oldest first. -/
structure Rate where
  qps     : List Nat
  bits    : List (List Nat)
  spent   : Nat
  planned : Nat
  deriving DecidableEq, Repr

/-- bits[r]: the bits of a row, over its tiles (R431). -/
def Rate.rowBits (z : Rate) (r : Nat) : Nat := (z.bits.getD r []).sum

/-- The bit target of a row; where the weights sum to 0 the manual gives none (log entry 10). -/
def rowTarget (inputs : List (List Byte)) (p : Pic) (h : List Nat) (r : Nat) : Nat :=
  if h.sum = 0 then Config.fenOddTarget inputs r else p.target * h.getD r 0 / h.sum

/-- One row: its QP from the bits of the rows two places earlier, and its bits. -/
def rateRow (inputs : List (List Byte)) (p : Pic) (h : List Nat) (z : Rate) (r : Nat) : Rate :=
  let spent := if 2 ≤ r then z.spent + z.rowBits (r - 2) else z.spent
  let planned := if 2 ≤ r then z.planned + rowTarget inputs p h (r - 2) else z.planned
  let d := if 2 ≤ r then
      clampI (Int.fdiv (12 * ((spent : Int) - planned)) (max planned 1 : Nat)) (-(p.dmax : Int)) p.dmax
    else 0
  let qp := (clampI ((p.qp0 : Int) + d) p.qpmin p.qpmax).toNat
  ⟨z.qps ++ [qp], z.bits ++ [(List.range p.tiles).map (fun k => Config.fenBits inputs z.qps r k qp)], spent, planned⟩

/-- The rate control of a picture. -/
def State.rate (s : State) (inputs : List (List Byte)) (p : Pic) : Rate :=
  (List.range p.rows).foldl (rateRow inputs p (s.rowWeights p)) ⟨[], [], 0, 0⟩

/-- Mean row QP, weighted by row weight, rounded down (R425). -/
def meanQp (inputs : List (List Byte)) (qps h : List Nat) : Nat :=
  if h.sum = 0 then Config.fenOddMean inputs % 256 else (qps.zip h).foldl (fun n x => n + x.1 * x.2) 0 / h.sum

/-- Emulation prevention of HEVC: a byte 0x03 before a byte of at most 3 that follows two zero bytes; `z` zeros stand before. -/
def emulation : Nat → List Byte → List Byte
  | _, [] => []
  | z, b :: r =>
    if 2 ≤ z ∧ b.toNat ≤ 3 then 0x03#8 :: b :: emulation (if b = 0#8 then 1 else 0) r
    else b :: emulation (if b = 0#8 then z + 1 else 0) r

/-- The bits of each substream of a coded picture: rows (HEVC), or tiles (R418, R420). -/
def Pic.substreams (p : Pic) (z : Rate) : List Nat :=
  if p.codec = 0 then (List.range p.rows).map z.rowBits
  else (List.range p.tiles).map (fun k => (z.bits.map (fun r => r.getD k 0)).sum)

/-- The substreams as bytes, with emulation prevention for HEVC. -/
def Pic.streams (p : Pic) (inputs : List (List Byte)) (z : Rate) : List (List Byte) :=
  (p.substreams z).zipIdx.map (fun x =>
    let b := (List.range (ceilDiv x.1 8)).map (Config.fenByte inputs z.qps x.2)
    if p.codec = 0 then emulation 0 b else b)

/-! ## Running a descriptor -/

/-- Descriptors of the ring. -/
def State.fenRing (s : State) : Nat := 2 ^ s.fld F.fenCtl_LOG2N 0

/-- The descriptor at HEAD, when Fennel may start one (R423, R424, R435). -/
def State.fenNext (s : State) : Option (Nat × List Byte) :=
  if s.flag F.fenCtl_ENABLE 0 && s.fen.run.isNone && s.fld F.fenStat_HEAD 0 != s.fld F.fenPdqtail_TAIL 0 then
    let a := s.pair .fenPdqbaseLo .fenPdqbaseHi 0 + 128 * s.fld F.fenStat_HEAD 0
    some (a, s.read a 128)
  else none

/-- Whether a partition's memory may be used: it is in Summer or Autumn (R432). -/
def State.fenPartUp (s : State) (p : Nat) : Bool := s.season p == summer || s.season p == autumn

/-- A picture starts and runs; its result waits for PICTURE_COMPLETE. -/
def State.fenRun (s : State) (r : FenRun) : State :=
  ({ s with fen := { s.fen with run := some r } }).setFld F.fenStat_STATE 0 1

/-- Fennel reads a range in a partition's slots, as the picture with a number (R421). -/
def State.fenRead (uid part : Nat) (s : State) (x : Nat × Nat) : State :=
  (s.touch uid part noEg x.1 x.2 .read).note uid (.rd x.1 x.2)

/-- Fennel writes bytes in a partition's slots (R421), as the picture with a number; with number 0 the write stands whatever becomes of the
picture. -/
def State.fenWrite (uid part : Nat) (s : State) (x : Nat × List Byte) : State :=
  (s.storeFor uid x.1 x.2).putTouch uid part noEg x.1 x.2.length

/-- The current context is written back and the picture's is read when they differ: 2.0 us, 50 ticks (R423). -/
def State.fenSwitch (s : State) (uid : Nat) (p : Pic) : State :=
  if s.fen.ctx = some p.ctx then s
  else
    let s1 := match s.fen.ctx with
      | some a => if s.inWindows s.fen.part a 4096 && s.fenPartUp s.fen.part
        then State.fenWrite 0 s.fen.part s (a, s.fen.data) else s
      | none => s
    let s2 := State.fenRead uid p.part s1 (p.ctx, 4096)
    { s2 with fen := { s2.fen with ctx := some p.ctx, part := p.part, data := s2.read p.ctx 4096, sw := s2.tick + 50 } }

/-- The reconstruction of a picture, row by row (R419). -/
def Pic.recon (p : Pic) (e : PoolEntry) (inputs : List (List Byte)) (qps : List Nat) : List (Nat × List Byte) :=
  let row := p.width * p.ssize
  let line := fun (plane y : Nat) => p.samples ((List.range row).map (fun x => Config.fenRecon inputs qps plane (y * row + x)))
  (List.range p.height).map (fun y => (e.luma + y * e.pitch, line 0 y)) ++
    (List.range (p.height / 2)).map (fun y => (e.chroma + y * e.pitch, line 1 y))

/-- A result with nothing coded. -/
def FenRun.fail (d : List Byte) (uid : Nat) (st : Byte) (result addr : Nat) : FenRun := ⟨d, st, result, addr, 0, 0, 0, [], uid⟩

/-- VALID of DEST is cleared when the picture starts (R427). -/
def State.fenClear (s : State) (p : Pic) (e : PoolEntry) : State :=
  State.fenWrite 0 p.part s (p.pool + 32 * p.dest + 24, [BitVec.ofNat 8 (e.marks / 2 * 2)])

/-- The first outcome of the accesses that a picture makes: outside PART's windows or T1, or an uncorrectable word, one that is
written in part among them (R293, R421, R432). -/
def State.fenStops (s : State) (p : Nat) (reads writes : List (Nat × Nat)) : Option (Byte × Nat) :=
  match s.fenRefused p (reads ++ writes), (s.fenBad reads).or (writes.findSome? (fun x => if x.2 = 0 then none else (s.brokenEnds x.1 x.2).head?)) with
  | some x, _ => some (St.quota, x)
  | none, some x => some (St.ecc, x)
  | none, none => none

/-- A picture ends with RESULT 5 (R432). -/
def State.fenFail (s : State) (d : List Byte) (uid : Nat) (x : Byte × Nat) : State :=
  (if x.1 = St.ecc then s.noteUe x.2 else s).fenRun (.fail d uid x.1 5 x.2)

/-- Codes or decodes a picture whose reads are all permitted (R425 to R433). `s` is the state after the change of context, with VALID
of DEST cleared. -/
def State.fenCode (s : State) (d : List Byte) (uid : Nat) (p : Pic) (tab : List Byte) : State :=
  let e := poolAt tab p.dest
  let inputs := s.fenInputs d p tab
  let s1 := (p.reads tab).foldl (State.fenRead uid p.part) s
  let z := if p.op = 0 then s.rate inputs p else ⟨[], [], 0, 0⟩
  let ctx := (List.range 4096).map (Config.fenContext inputs z.qps)
  let found := if p.op = 1 then Config.fenFinds inputs % 3 else 0
  let streams := if p.op = 0 then p.streams inputs z else []
  let out := streams.flatten
  let full := decide (p.op = 0) && decide (p.cap < out.length)
  match if p.op = 0 then s.fenStops p.part [] [(p.out, min p.cap out.length)] else none with
  | some x => s1.fenFail d uid x
  | none =>
    let s2 := { s1 with fen := { s1.fen with data := ctx } }
    let s3 := if p.op = 1 then s2
      else if full then (State.fenWrite uid p.part s2 (p.out, freeBytes s2.free p.cap)).draw
      else State.fenWrite uid p.part s2 (p.out, out)
    let s4 := if found = 0 ∧ !full then (p.recon e inputs z.qps).foldl (State.fenWrite uid p.part) s3 else s3
    s4.fenRun
      { desc := d, status := St.ok, result := if full then 3 else found, addr := 0,
        qpavg := if p.op = 0 then meanQp inputs z.qps (s.rowWeights p) else 0, bytes := if full then 0 else out.length,
        bits := (z.bits.map List.sum).sum, rows := if full then [] else streams.map List.length, uid := uid }

/-- A descriptor starts (R423, R427, R432): the checks in order, then the picture. -/
def State.fenStart (s0 : State) (a : Nat) (d : List Byte) : State :=
  let p := Pic.of d
  let uid := s0.cp.nextUid
  let s := State.fenRead uid (p.part % 8) { s0 with cp := { s0.cp with nextUid := uid + 1 } } (a, 128)
  let tab := s.read p.pool 512
  let e := poolAt tab p.dest
  let writes := planeRows e.luma e.chroma e.pitch (p.width * p.ssize) p.height ++ [(p.pool + 32 * p.dest + 24, 1)]
  if !picOk d then s.fenRun (.fail d uid St.ok 4 0)
  else if !s.fenPartUp p.part then s.fenRun (.fail d uid St.targetInReset 5 0)
  else match (s.fenStops p.part [(p.pool, 512)] []).or ((s.fenBad [(a, 128)]).map (fun x => (St.ecc, x))) with
    | some x => s.fenFail d uid x
    | none =>
      let s1 := State.fenRead uid p.part s (p.pool, 512)
      if !p.refsOk tab then s1.fenRun (.fail d uid St.ok 4 0)
      else
        let s2 := s1.fenClear p e
        match s.fenStops p.part ((p.ctx, 4096) :: p.reads tab) writes with
        | some x => s2.fenFail d uid x
        | none => (s2.fenSwitch uid p).fenCode d uid p tab

/-- FEN_ENCODE (R431): Fennel starts an ENCODE descriptor, switching context if needed, and codes the picture with row-level rate
control. A descriptor with a reserved OP ends here too, as a descriptor error. -/
def execFenEncode (s : State) : Host.Outcome State Fault Refusal :=
  .next (match s.fenNext with
    | some (a, d) => if num d 0 1 = 1 then s else s.fenStart a d
    | none => s)

/-- FEN_DECODE (R416): Fennel starts a DECODE descriptor and decodes the picture into its pool entry. -/
def execFenDecode (s : State) : Host.Outcome State Fault Refusal :=
  .next (match s.fenNext with
    | some (a, d) => if num d 0 1 = 1 then s.fenStart a d else s
    | none => s)

/-- The status area with its row table (R425). -/
def FenRun.bytesOf (r : FenRun) (st : Byte) (result fcycles misses : Nat) : List Byte :=
  [st] ++ leBytes 1 result ++ leBytes 1 r.qpavg ++ leBytes 1 0 ++ leBytes 4 r.bytes ++ leBytes 4 r.bits ++ leBytes 4 fcycles ++
    leBytes 4 misses ++ leBytes 4 r.rows.length ++ leBytes 8 r.addr ++ List.replicate 32 0x00#8 ++ r.rows.flatMap (leBytes 4)

/-! ## Registers (R424, R435) -/

/-- A write of FEN_PDQTAIL: published, or refused with TAILFAULT and WRITE_IGNORED (R424). -/
def State.writePdqtail (s : State) (v : Word) : State :=
  let n := s.fenRing
  let h := s.fld F.fenStat_HEAD 0
  let t := v.toNat % 4096
  let back := (t + n - h % n) % n < (s.fld F.fenPdqtail_TAIL 0 + n - h % n) % n
  if n ≤ t ∨ back then (s.setFld F.fenStat_TAILFAULT 0 1).writeIgnored .fenPdqtail 0 none v
  else s.setFld F.fenPdqtail_TAIL 0 t

/-- Address of a descriptor slot. -/
def State.fenSlot (s : State) (k : Nat) : Nat := s.pair .fenPdqbaseLo .fenPdqbaseHi 0 + 128 * k

/-- The header firmware publishes a slot for a request: an ENCODE descriptor gets the references, QP0 and BTARGET of the request's next
picture (R420, R430). Which running request a picture is for, if for one, is the firmware's choice (log entry 33). -/
def State.fenFor (s : State) (k : Nat) : State :=
  let d := s.read (s.fenSlot k) 128
  let enc := num d 0 1 == 0
  let rs := s.sceman.requests.filter (fun r => r.state == 1 && (!enc || (!r.enc.busy && decide (r.segment < r.segments))))
  match rs[Config.freeNat s.free 2 % (rs.length + 1)]? with
  | none => s.draw
  | some r =>
    let s1 := { s with fen := { s.fen with posts := s.fen.posts.filter (fun (x : Nat × Nat) => x.1 != k) ++ [(k, r.number)] } }
    (if enc then (s1.store (s.fenSlot k) (r.describe s.free d)).putRequest { r with enc := { r.enc with busy := true } } else s1).draw.draw

/-- The slots from `a` up to `b` of a ring. -/
def ringSlots (n a b : Nat) : List Nat := (List.range ((b + n - a % n) % n)).map (fun i => (a + i) % n)

/-- Whether a requester is one of the service cores that run the header firmware (R230). -/
def headerFirmware : Requester → Bool
  | .service c => decide (12 ≤ c)
  | _ => false

/-- A requester's write of FEN_PDQTAIL (R424): the service cores' writes are the header firmware's, whose descriptors follow R430. -/
def State.publishPics (s : State) (who : Requester) (v : Word) : State :=
  let old := s.fld F.fenPdqtail_TAIL 0
  let s1 := s.writePdqtail v
  if headerFirmware who && s1.fld F.fenPdqtail_TAIL 0 != old then
    (ringSlots s.fenRing old (s1.fld F.fenPdqtail_TAIL 0)).foldl State.fenFor s1
  else s1

/-- FEN_PDQTAIL (R424): a write of TAIL publishes picture descriptors or is refused. -/
def execFenPdqtail (who : Requester) (v : Word) (s : State) : Host.Outcome State Fault Refusal :=
  .next (s.gated who .fenPdqtail 0 (s.publishPics who v))

/-- A write of FEN_CTL: ENABLE from 0 to 1 sets HEAD to 0 (R435). -/
def State.writeFenctl (s : State) (v : Word) : State :=
  let s1 := s.setReg .fenCtl 0 (plainWrite .fenCtl false (s.reg .fenCtl 0) v)
  if !s.flag F.fenCtl_ENABLE 0 && bit v.toNat 0 then { s1 with fen := { s1.fen with posts := [] } }.setFld F.fenStat_HEAD 0 0 else s1

/-- FEN_ENABLE (R435): setting ENABLE clears HEAD and starts execution; clearing it stops after the running picture. -/
def execFenEnable (who : Requester) (v : Word) (s : State) : Host.Outcome State Fault Refusal :=
  .next (s.gated who .fenCtl 0 (s.writeFenctl v))

/-! ## Completion (R423, R425, R427, R432) -/

/-- An ENCODE whose output was full is posted again by the firmware, with QP0 and QPMIN raised by 6 and the same target (R432), in the
slot at TAIL; for the same request, if for one. -/
def State.postAgain (s : State) (d : List Byte) (number : Option Nat) : State :=
  let k := s.fld F.fenPdqtail_TAIL 0
  let p := Pic.of d
  let d1 := patch (patch d 54 (leBytes 1 (p.qp0 + 6))) 55 (leBytes 1 (p.qpmin + 6))
  let s1 := { s with fen := { s.fen with posts := s.fen.posts ++ (number.map (fun n => (k, n))).toList } }
  (s1.store (s.fenSlot k) d1).writePdqtail (BitVec.ofNat 32 ((k + 1) % s.fenRing))

/-- What the firmware does when a picture has completed that was posted for a request, if for one (R430, R432): the encoding goes on, a
full output is coded again, and a stream that does not decode ends the request with REASON 4. -/
def State.firmware (s : State) (p : Pic) (r : FenRun) (result : Nat) (number : Option Nat) : State :=
  match number with
  | none => if p.op = 0 ∧ result = 3 then s.postAgain r.desc none else s
  | some n =>
    match s.sceman.requests.find? (fun q => q.number == n && q.state == 1) with
    | none => s
    | some q =>
      if p.op = 0 then
        match result with
        | 0 => s.pictureCoded n r.qpavg r.bits r.bytes p.dest
        | 3 => s.postAgain r.desc number
        | _ => s.putRequest { q with enc := { q.enc with busy := false } }
      else if result = 1 ∨ result = 2 then s.completeRequest q St.ok 4
      else s

/-- The running picture completes (R423, R425, R427, R432). -/
def State.fenComplete (s : State) (r : FenRun) (fcycles misses : Nat) : State :=
  let p := Pic.of r.desc
  let gone := r.result ≠ 4 && !s.fenPartUp p.part
  let st := if gone then St.targetInReset else if r.result = 0 ∧ misses ≠ 0 then St.slotMiss else r.status
  let result := if gone then 5 else r.result
  let bs := r.bytesOf st result fcycles misses
  let may := s.dieSeason == summer && s.inWindows p.part p.stat bs.length && rangeRegion p.stat bs.length == some .t1
  let s1 := if may then State.fenWrite 0 p.part s (p.stat, bs) else s
  let m := p.pool + 32 * p.dest + 24
  let s2 := if result = 0 then State.fenWrite 0 p.part s1 (m, [s1.byteAt m ||| 0x01#8]) else s1
  let s3 := (s2.setFld F.fenStat_HEAD 0 ((s2.fld F.fenStat_HEAD 0 + 1) % s2.fenRing)).setFld F.fenStat_STATE 0 0
  let s4 := { s3 with fen := { s3.fen with run := none } }.count F.fenCnt_PICTURES 0 1
  let s5 := if 12 ≤ p.core ∧ p.core ≤ 15 then (s4.send (.coreIrq p.core)).svcInterrupt p.core else s4
  let s6 := s5.setTrace r.uid []
  let post := s.fen.posts.find? (fun x => x.1 == s.fld F.fenStat_HEAD 0)
  { s6 with fen := { s6.fen with posts := post.elim s6.fen.posts s6.fen.posts.erase } }.firmware p r result (post.map Prod.snd)

/-- PICTURE_COMPLETE (R423): a finished picture writes its status area, sets VALID of DEST on success, advances HEAD and interrupts
its service core; Sceman packages a segment once its pictures have completed (R413). -/
def execPictureComplete (fcycles slotMisses : Nat) (s : State) : Host.Outcome State Fault Refusal :=
  .next (match s.fen.run with
    | some r => s.fenComplete r fcycles slotMisses
    | none => s)

end Sys2Proof.Machine
end

