-- ==== Sys2Proof/Machine/Seasons.lean ====
section
/-!
DEFINITION. Seasons of partitions: Spring with its clearing, Summer, Autumn and its limit, partition reset, and the assignment of
blocks to partitions (R436, R437, R508 to R513).
-/

set_option Elab.async false

namespace Sys2Proof.Machine

open Sys2Proof

/-- A refused request for a season: WRITE_IGNORED with the word written (R509, R551). -/
def State.seasonRefused (s : State) (p req : Nat) : State :=
  s.writeIgnored .sysPseason p (some p) (BitVec.ofNat 32 (4 * req))

/-! ## Spring (R510) -/

/-- Whether an address holds on-die state of partition p that its Spring zeroes: operand SRAM, accumulators, cluster SRAM outside the
firmware area, and its map-store windows (R510). -/
def State.springZeroes (s : State) (p a : Nat) : Bool :=
  match region a with
  | some (.opSram eg) | some (.acc eg) => s.egPart eg == some p
  | some (.clu eg) => s.egPart eg == some p && !overlaps a 1 (cluBase eg + 0xF0000) 0x4000
  | some .ms => (s.windowEnd p a).isSome
  | _ => false

/-- Clears the counters of an engine group's EG, TE, SFU, WAG, CMP and TRN blocks (R510). -/
def State.clearCounters (s : State) (eg : Nat) : State :=
  let s1 := [RegName.egSentstat, .teCvtcnta, .teCvtcntb, .teSpillcnt, .sfuStat, .cmpStat, .trnStat, .trnFrozen].foldl
    (fun t n => t.setReg n eg 0#32) s
  s1.setFld F.wagStat_NONFINITE_COUNT eg 0

/-- Empties the SFU's user slots and every coder slot of an engine group (R510). -/
def State.emptySlots (s : State) (eg : Nat) : State :=
  (((s.dropTables (fun e => e == eg)).setFld F.sfuTblloaded_LOADED eg 0).setFld F.sfuTblstat_PENDING eg 0).setReg .cmpTblstat eg 0#32

/-- Partition Spring (R510): zeros, firmware, factory tables, empty slots and counters. -/
def State.springClear (s : State) (p : Nat) : State :=
  let egs := s.egsOf p
  let s1 := { s with
    mem := Sparse.drop (s.springZeroes p) s.mem
    bad := s.bad.filter (fun a => !s.springZeroes p a)
    te := Sparse.drop (fun eg => egs.contains eg) s.te }
  let s2 := egs.foldl (fun t eg => (t.clearCounters eg).emptySlots eg) s1
  (s2.broadcast egs).loadSfu egs

/-- REQ = SPRING (R509, R510). -/
def State.reqSpring (s : State) (p : Nat) : State :=
  if s.dieSeason == summer && s.season p == winter && s.ownsBlock p then (s.setSeason p spring false).springClear p
  else s.seasonRefused p 1

/-- PARTITION_SPRING (R510): REQ = SPRING clears the partition's on-die state, broadcasts firmware and loads tables. -/
def execPartitionSpring (who : Requester) (p : Nat) (s : State) : Host.Outcome State Fault Refusal :=
  inRange (p < 8) (fun _ => .next (s.gated who .sysPseason p (s.reqSpring p)))

/-- Brings every job of a partition to the state its season gives it (R439). -/
def State.settleJobs (s : State) (p : Nat) : State := (List.range 8).foldl (fun t j => t.settleJob p j) s

/-- Clearing ends: the partition enters Summer, its wheels start at entry 0 in one cycle and SYS_DETSTAT clears (R441, R506, R510). -/
def State.enterSummer (s : State) (p : Nat) : State :=
  let s1 := (s.setSeason p summer false).setReg .sysDetstat p 0#32
  ((s1.egsOf p).foldl (fun t eg => t.startWheel eg s.cycle) s1).settleJobs p

/-- PARTITION_CLEARING_END (R510): the end of partition clearing puts the partition in Summer and starts its wheels. -/
def execPartitionClearingEnd (p : Nat) (s : State) : Host.Outcome State Fault Refusal :=
  inRange (p < 8) (fun _ => .next (if s.season p = spring then s.enterSummer p else s))

/-! ## Autumn (R511) -/

/-- Waiting SOWAITs of a partition complete with TARGET_IN_RESET (R511). -/
def State.endWaits (s : State) (p : Nat) : State :=
  (s.cp.holds.filter (fun h => h.cmd.part == p && h.sat.isNone)).foldl (fun t h =>
    let t1 := { t with cp := { t.cp with holds := t.cp.holds.filter (fun x => x.cmd.uid != h.cmd.uid) } }
    (t1.holdQueue h.cmd.issuer none).finish h.cmd (Result.mk0 St.targetInReset (t.cycle - h.cmd.issued))) s

/-- REQ = AUTUMN (R509, R511). -/
def State.reqAutumn (s : State) (p : Nat) : State :=
  if s.season p = summer then (s.setSeason p autumn false).endWaits p else s.seasonRefused p 2

/-- PARTITION_AUTUMN (R511): REQ = AUTUMN stops issue and completes waiting SOWAITs with TARGET_IN_RESET. -/
def execPartitionAutumn (who : Requester) (p : Nat) (s : State) : Host.Outcome State Fault Refusal :=
  inRange (p < 8) (fun _ => .next (s.gated who .sysPseason p (s.reqAutumn p)))

/-- Whether commands of a partition are in flight. -/
def State.partBusy (s : State) (p : Nat) : Bool := s.cmdsInFlight.any (fun c => c.part == p)

/-- The drained partition enters Winter and its wheels stop (R511). -/
def State.drained (s : State) (p : Nat) : State :=
  ((s.setSeason p winter false).stopWheels (fun eg => s.egPart eg == some p)).settleJobs p

/-- PARTITION_DRAINED (R511): an Autumn partition with nothing in flight enters Winter. -/
def execPartitionDrained (p : Nat) (s : State) : Host.Outcome State Fault Refusal :=
  inRange (p < 8) (fun _ => .next (if s.season p == autumn && !s.partBusy p then s.drained p else s))

/-- AUTUMN_LIMIT_EXPIRY (R511): SYS_AUTUMNLIM expiring applies the partition reset; 0 sets no limit. -/
def execAutumnLimitExpiry (p : Nat) (s : State) : Host.Outcome State Fault Refusal :=
  inRange (p < 8) (fun _ =>
    .next (if s.season p = autumn ∧ s.fld F.sysAutumnlim_LIMIT 0 ≠ 0 then s.resetPart p true else s))

/-- PARTITION_RESET (R513): REQ = RESET stops the partition's units, discards its commands and resets its queues and objects. -/
def execPartitionReset (who : Requester) (p : Nat) (s : State) : Host.Outcome State Fault Refusal :=
  inRange (p < 8) (fun _ => .next (s.gated who .sysPseason p (s.resetPart p false)))

/-- A write of REQ in SYS_PSEASON[p] (R532). -/
def State.writePseason (s : State) (p : Nat) (v : Word) : State :=
  match bits v.toNat 2 2 with
  | 1 => s.reqSpring p
  | 2 => s.reqAutumn p
  | 3 => s.resetPart p false
  | _ => s

/-! ## Blocks (R436, R437) -/

/-- Whether a block's field may change to a new value: the block is unassigned, or its partition and the new one are in Winter
(R437). -/
def State.blockMayMove (s : State) (b new : Nat) : Bool :=
  match s.blockPart b with
  | none => true
  | some p => s.season p == winter && (!bit new 3 || s.season (new % 8) == winter)

/-- A write of SYS_PARTMAP: each block field that may not change keeps its value, which WRITE_IGNORED reports (R437). -/
def State.writePartmap (s : State) (v : Word) : State :=
  let old := (s.reg .sysPartmap 0).toNat
  let ok := fun b => bits old (4 * b) 4 == bits v.toNat (4 * b) 4 || s.blockMayMove b (bits v.toNat (4 * b) 4)
  let new := (List.range 8).foldl (fun n b => n + (if ok b then bits v.toNat (4 * b) 4 else bits old (4 * b) 4) * 2 ^ (4 * b)) 0
  let s1 := s.setReg .sysPartmap 0 (BitVec.ofNat 32 new)
  if (List.range 8).all ok then s1 else s1.writeIgnored .sysPartmap 0 none v

/-- PARTMAP_WRITE (R437): a block changes its partition only while both partitions are in Winter or the block is unassigned. -/
def execPartmapWrite (who : Requester) (v : Word) (s : State) : Host.Outcome State Fault Refusal :=
  .next (s.gated who .sysPartmap 0 (s.writePartmap v))

end Sys2Proof.Machine
end

