-- ==== Sys2Proof/Machine/Host.lean ====
section
/-!
DEFINITION. The host interface: the capability list, reads and writes of registers by their offsets, access to device memory through
BAR2, the mapping and state of functions, and event rings (chapter 21).
-/

set_option Elab.async false

namespace Sys2Proof.Machine

open Sys2Proof

/-! ## The capability list (R545 to R548) -/

/-- ID and body of each record at A1, in ascending ID, VER 1 each (R546 to R548). Before an image has booted, the manual gives the
FIRMWARE record no value (log entry 38). -/
def State.capBodies (s : State) : List (Nat × List Nat) :=
  [(0x0001, [0x2D4B5646, 0x32313639, 0xA1, s.sage.serial % 2 ^ 32, s.sage.serial / 2 ^ 32 % 2 ^ 32, 0]),
   (0x0002, assemblyWords),
   (0x0003, match s.sage.image with
      | some m => [(Config.scemanRelease (m.comp 2)).toNat + 256 * s.sage.slot, m.svn]
      | none => [(Config.freeWord 0 0).toNat, (Config.freeWord 0 1).toNat]),
   (0x0010, [0x7FFF]),
   (0x0011, [0x1F]),
   (0x0012, [0x0FFE]),
   (0x0013, [28 + 256]),
   (0x0014, [4096 + 1024 * 65536])]

/-- The words of the records from an offset on, back to back (R545; log entry 38). -/
def capList (off : Nat) : List (Nat × List Nat) → List Nat
  | [] => []
  | (id, body) :: rest =>
    let len := 2 + body.length
    [id + 2 ^ 16 + 2 ^ 24 * len, if rest.isEmpty then 0 else off + 4 * len] ++ body ++ capList (off + 4 * len) rest

/-- The word at an offset of the CAP region from 0x0010 on; unmapped offsets read 0 (R544, R545). -/
def State.capWord (s : State) (off : Nat) : Word :=
  BitVec.ofNat 32 ((capList 0x10 s.capBodies).getD ((off - 0x10) / 4) 0)

/-! ## Register accesses (R12 to R16, R538, R543, R544) -/

/-- The answer of a register read. -/
def State.readsAs (s : State) (v : Word) : State := { s with resp := leBytes 4 v.toNat }

/-- A 4-byte register read at an offset: the register, a word of the capability list, or 0 for an unmapped offset; refused reads
return 0 and count (R538, R544). A read of SYNC_OBJ is the operation READ, which changes nothing (R268). -/
def State.regRead (s : State) (who : Requester) (off : Nat) : State :=
  if !s.hostServed who || off % 4 ≠ 0 then (s.readsAs 0#32).refuse who
  else match regAt off with
  | some (n, i) =>
    if s.mayRead who n i then let r := s.readAt n i; r.2.readsAs r.1 else (s.readsAs 0#32).refuse who
  | none =>
    if decide (0x10 ≤ off) && decide (off < 0x10000) then
      if s.mayRead who .capHead 0 then s.readsAs (s.capWord off) else (s.readsAs 0#32).refuse who
    else s.readsAs 0#32

/-- REG_READ_LO (R12): a read of a _LO register captures the _HI value for the next _HI read; every other register is read in the
same way. -/
def execRegReadLo (who : Requester) (offset : Nat) (s : State) : Host.Outcome State Fault Refusal := .next (s.regRead who offset)

/-- A change of FNMAP: fields of enabled VFs keep their value, and a write that leaves two VFs of the port mapped to one partition is
ignored (R537). -/
def State.writeFnmap (s : State) (d : Nat) (v : Word) : State :=
  let old := (s.reg .pciFnmap d).toNat
  let fields := (List.range 8).map (fun i => if s.vfOn d (i + 1) then bits old (4 * i) 4 else bits v.toNat (4 * i) 4)
  let mapped := fields.filter (fun x => bit x 3)
  if mapped.eraseDups.length = mapped.length then
    s.setReg .pciFnmap d (BitVec.ofNat 32 (fields.zipIdx.foldl (fun n x => n + x.1 * 16 ^ x.2) 0))
  else s.writeIgnored .pciFnmap d none v

/-- The partition a ring's records about itself name: the mapped one of a VF's ring (R552). -/
def State.ringOwner (s : State) (f : Nat) : Option Nat :=
  if fnIsPf f || f == 18 then none else s.vfMapped (fnPort f) (fnVf f)

/-- Whether ring f may be enabled as it stands: ring 18 always, others when they are aligned and placed (R553). -/
def State.ringMayRise (s : State) (f : Nat) : Bool :=
  f == 18 || (s.pair .sysEvbaseLo .sysEvbaseHi f % (32 * s.ringCap f) == 0 && s.ringPlaced f)

/-- A write of SYS_EVCFG[f] (R553): LOG2N and SPART stay while EN = 1, and setting EN checks the ring as it stands after the write. -/
def State.writeEvcfg (s : State) (f : Nat) (v : Word) : State :=
  let was := s.flag F.sysEvcfg_EN f
  let n := v.toNat
  let s1 := if was then s else (s.setFld F.sysEvcfg_LOG2N f (bits n 0 4)).setFld F.sysEvcfg_SPART f (bits n 5 3)
  let s2 := (s1.setFld F.sysEvcfg_VECTOR f (bits n 16 11)).setFld F.sysEvcfg_IRQEN f (bits n 27 1)
  if bit n 4 && !was && !s2.ringMayRise f then s2.writeIgnored .sysEvcfg f (s2.ringOwner f) v
  else s2.setFld F.sysEvcfg_EN f (bits n 4 1)

/-- A write of SYS_EVIDX[f]: EVHEAD, which clears SYS_EVLOST[f] (R553). -/
def State.writeEvhead (s : State) (f : Nat) (v : Word) : State :=
  (s.setFld F.sysEvidx_EVHEAD f (v.toNat / 65536)).setReg .sysEvlost f 0#32

/-- A write of BOOT_CTL: its fields, then the actions of the bits written 1; STEP = 0 ends a wait (R527, R532, R564). -/
def State.writeBootCtl (s : State) (v : Word) : State :=
  let n := v.toNat
  let s1 := s.setReg .bootCtl 0 (plainWrite .bootCtl false (s.reg .bootCtl 0) v)
  let s2 := if bit n 0 && !bit n 1 then s1 else s1.bootGo
  let s3 := if bit n 2 then s2.bootRestart else s2
  let s4 := if bit n 6 then s3.bootUpdate else s3
  if bit n 7 then s4.alertClear else s4

/-- A write of SEC_CTL (R532). -/
def State.writeSecCtl (s : State) (v : Word) : State :=
  let s1 := if bit v.toNat 0 then s.commitSvn else s
  if bit v.toNat 1 then s1.ownerProg else s1

/-- A write that acts by the access types alone (R13 to R16), or the CLEAR action of its register. -/
def State.writePlain (s : State) (n : RegName) (i : Nat) (v : Word) : State := s.writeEgReg n i v

/-- A register write by a requester that may make it, with what the register's block makes of it. -/
def State.writeReg (s : State) (who : Requester) (n : RegName) (i : Nat) (v : Word) : State :=
  match n with
  | .syncObj => { s.objAccess who i 1 v with resp := s.resp }
  | .syncCfg => s.writeSyncCfg who i v
  | .cpBound => s.settleBounds.setBound i v
  | .qDoorbell => s.doorbell who i v
  | .qCfg => s.writeQCfg who i v
  | .qRingbaseLo | .qRingbaseHi | .qCmpbaseLo | .qCmpbaseHi => if s.flag F.qCfg_ENABLE i then s else s.writePlain n i v
  | .qCtrl => s.writeQCtrl i v
  | .qCmpidx => s.writeChead i v
  | .cpQjob => s.writeQjob i v
  | .memT1win => s.writeWindow .t1 i v
  | .memMswin => s.writeWindow .ms i v
  | .memT2win => s.writeWindow .t2 i v
  | .memWheel => s.writeMemWheel i v
  | .cpWheel => s.writeWheel false i v
  | .cpWlen => s.writeWheel true i v
  | .cpJob => s.writeJob i v
  | .cpJctl => s.writeJctl v
  | .sysPartcfg => s.writePartcfg i v
  | .sysPartmap => s.writePartmap v
  | .sysPseason => s.writePseason i v
  | .sysEvcfg => s.writeEvcfg i v
  | .sysEvidx => s.writeEvhead i v
  | .sysEvbaseLo | .sysEvbaseHi => if s.flag F.sysEvcfg_EN i then s else s.writePlain n i v
  | .lnkCfg => s.writeLnkCfg i v
  | .ceGrpctl => s.writeGrpctl v
  | .ethCfg => s.writeEthCfg i v
  | .fenPdqtail => s.publishPics who v
  | .fenCtl => s.writeFenctl v
  | .pwrCap => s.writePwrCap v
  | .pwrBudget => s.writeBudget i v
  | .pwrReserve => s.writeBudget 8 v
  | .bootCtl => s.writeBootCtl v
  | .secCtl => s.writeSecCtl v
  | .pciFnmap => s.writeFnmap i v
  | .pciVfctl =>
    let s1 := s.writePlain n i v
    if bit v.toNat 8 then s1.setReg .pciErrcnt i 0#32 else s1
  | _ => s.writePlain n i v

/-- Registers whose own rules judge a requester that lacks their rights (R235, R254). -/
def judgesItself (who : Requester) (n : RegName) : Bool :=
  (n == .syncObj || n == .qDoorbell) && (who.isHost || who.svcOrSage)

/-- A 4-byte register write at an offset; unmapped offsets ignore it (R538, R544). -/
def State.regWrite (s : State) (who : Requester) (off : Nat) (v : Word) : State :=
  if !s.hostServed who || off % 4 ≠ 0 then s.refuse who
  else match regAt off with
  | none => s
  | some (n, i) => if judgesItself who n || s.mayWrite who n i then s.writeReg who n i v else s.refuse who

/-- REG_WRITE (R13): a write to a register acts by its access type and the block's rules. -/
def execRegWrite (who : Requester) (offset : Nat) (v : Word) (s : State) : Host.Outcome State Fault Refusal :=
  .next (s.regWrite who offset v)

/-- PCI_FNMAP_WRITE (R537): a VF mapping write is ignored if two VFs of one port would map one partition. -/
def execPciFnmapWrite (who : Requester) (n : Nat) (v : Word) (s : State) : Host.Outcome State Fault Refusal :=
  inRange (n < 2) (fun _ => .next (s.gated who .pciFnmap n (s.writeFnmap n v)))

/-- SYS_EVCFG_ENABLE (R553): setting EN of an event ring checks its placement or leaves EN 0. -/
def execSysEvcfgEnable (who : Requester) (n : Nat) (v : Word) (s : State) : Host.Outcome State Fault Refusal :=
  inRange (n < 19) (fun _ => .next (s.gated who .sysEvcfg n (s.writeEvcfg n v)))

/-- EVHEAD_WRITE (R553): records consumed event records and clears SYS_EVLOST. -/
def execEvheadWrite (who : Requester) (n : Nat) (v : Word) (s : State) : Host.Outcome State Fault Refusal :=
  inRange (n < 19) (fun _ => .next (s.gated who .sysEvidx n (s.writeEvhead n v)))

/-! ## Device memory through BAR2 (R538, R540) -/

/-- The partitions whose windows let a host function reach a range (R538): for the PF T1, map stores, and T2 for reads, within any
partition's windows; for a VF T1 within its partition's; both within BAR2 (R536). -/
def State.bar2Parts (s : State) (who : Requester) (write : Bool) (a n : Nat) : List Nat :=
  let tier := rangeRegion a (max 1 n)
  if (fnIdent who.fnNum).bar2 < a + max 1 n then [] else
  match who with
  | .pf _ =>
    if tier == some .t1 || tier == some .ms || (tier == some .t2 && !write) then
      (List.range 8).filter (fun p => s.inWindows p a (max 1 n))
    else []
  | .vf d v => match s.vfPart d v with
    | some p => if tier == some .t1 && s.inWindows p a (max 1 n) then [p] else []
    | none => []
  | _ => []

/-- Takes one of the partitions whose window holds the range; where T2 windows overlap, the manual names none of them (R302, R540;
log entry 39). -/
def pickPart (k : Nat) (ps : List Nat) : Nat := ps.getD (Config.freeNat k 0 % ps.length) 0

/-- The uncorrectable granules a range meets. -/
def State.badGranules (s : State) (a n : Nat) : List Nat := s.bad.filter (fun g => overlaps a n g (granuleLen g))

/-- Bytes as a host reads them: what an uncorrectable granule returns is not stated (R321; log entry 39). -/
def State.hostBytes (s : State) (a n : Nat) : List Byte :=
  let bad := s.badGranules a n
  (s.read a n).zipIdx.map (fun x =>
    if bad.any (fun g => overlaps (a + x.2) 1 g (granuleLen g)) then Config.freeByte s.free x.2 else x.1)

/-- A BAR2 read by a host function (R538, R540). -/
def State.bar2Read (s0 : State) (who : Requester) (a n : Nat) : State :=
  let s := s0.draw
  let ps := s.bar2Parts who false a n
  if !s.hostServed who || ps.isEmpty then ({ s with resp := [] }.refuse who).send (.unsupported who.port)
  else
    let s1 := { s with resp := s.hostBytes a n }.touch 0 (pickPart s.free ps) noEg a n .read
    (s.badGranules a n).foldl (fun t g => t.noteUe g) s1

/-- BAR2_READ (R540): a host BAR2 read of device memory is checked against the windows and served in the partition's slots. -/
def execBar2Read (who : Requester) (addr len : Nat) (s : State) : Host.Outcome State Fault Refusal :=
  .next (if who.isHost then s.bar2Read who addr len else s)

/-- A BAR2 write by a host function (R293, R538, R540). -/
def State.bar2Write (s0 : State) (who : Requester) (a : Nat) (bs : List Byte) : State :=
  let s := s0.draw
  let ps := s.bar2Parts who true a bs.length
  if !s.hostServed who || ps.isEmpty then s.refuse who
  else if bs.isEmpty then s
  else
    let p := pickPart s.free ps
    s.storeWhole p a bs

/-- BAR2_WRITE (R540): a host BAR2 write to device memory is checked against the windows and served in order. -/
def execBar2Write (who : Requester) (addr : Nat) (data : List Byte) (s : State) : Host.Outcome State Fault Refusal :=
  .next (if who.isHost then s.bar2Write who addr data else s)

/-! ## Functions (R536 to R539) -/

/-- A function returns to its configuration after reset, and its event ring is disabled (R539). -/
def State.clearFn (s : State) (f : Nat) : State := (s.setFn f PciFn.reset).setFld F.sysEvcfg_EN f 0

/-- FLR of a VF: its mapped partition is reset when FLRPART is set for it (R539). -/
def State.flrVf (s : State) (d v : Nat) : State :=
  let s1 := s.clearFn (9 * d + v)
  match s.vfMapped d v with
  | some p => if bit (s.fld F.pciVfctl_FLRPART d) (v - 1) then s1.resetPart p false else s1
  | none => s1

/-- FLR of a PF: the PF and every VF of its port, whose enables are part of the PF's configuration; no partition (R539). -/
def State.flrPf (s : State) (d : Nat) : State :=
  let s1 := (List.range 9).foldl (fun t i => t.clearFn (9 * d + i)) s
  { s1 with spdm := Sparse.drop (fun x => x == d) s1.spdm }.setFld F.pciStat_VFON d 0

/-- FLR (R539): Function Level Reset clears a function's configuration and may reset the mapped partition. -/
def execFlr (d fn : Nat) (s : State) : Host.Outcome State Fault Refusal :=
  inRange (d < 2 && fn < 9) (fun _ => .next (if fn = 0 then s.flrPf d else if s.vfOn d fn then s.flrVf d fn else s))

/-- D3HOT (R539): a function in D3hot refuses its accesses until it returns to D0. -/
def execD3hot (d fn : Nat) (enter : Bool) (s : State) : Host.Outcome State Fault Refusal :=
  inRange (d < 2 && fn < 9) (fun _ =>
    .next (if fn = 0 || s.vfOn d fn then s.setFn (9 * d + fn) { s.fn (9 * d + fn) with d3 := enter } else s))

/-- VF v of port d is enabled or disabled in its SR-IOV control; a change starts it in its configuration after reset (R537). -/
def State.setVf (s : State) (d v : Nat) (on : Bool) : State :=
  if s.vfOn d v = on then s
  else
    let mask := s.fld F.pciStat_VFON d
    (s.setFld F.pciStat_VFON d (if on then mask + 2 ^ (v - 1) else mask - 2 ^ (v - 1))).setFn (9 * d + v) PciFn.reset

/-- VF_ENABLE (R537): enabling or disabling a VF in its SR-IOV control gives or removes its access and lets its mapping change. -/
def execVfEnable (d v : Nat) (on : Bool) (s : State) : Host.Outcome State Fault Refusal :=
  inRange (d < 2 && 1 ≤ v && v ≤ 8) (fun _ => .next (s.setVf d v on))

end Sys2Proof.Machine
end

