-- ==== Sys2Proof/Machine/Attest.lean ====
section
/-!
DEFINITION. Attestation: the SPDM 1.3 responder of each physical function's DOE mailbox (R528 to R531). Message layouts are those of
DSP0274 (log entry 40, PRESUMED).
-/

set_option Elab.async false

namespace Sys2Proof.Machine

open Sys2Proof

/-- The responder of a port. -/
def State.spdmOf (s : State) (d : Nat) : Spdm := Sparse.rd (fun _ => Spdm.reset) d s.spdm

/-- Replaces the responder of a port. -/
def State.setSpdm (s : State) (d : Nat) (x : Spdm) : State := { s with spdm := Sparse.wr (fun _ => Spdm.reset) d x s.spdm }

/-- SPDM error codes: InvalidRequest. -/
def errInvalid : Nat := 0x01
/-- UnexpectedRequest. -/
def errUnexpected : Nat := 0x04
/-- Unspecified. -/
def errUnspecified : Nat := 0x05
/-- VersionMismatch. -/
def errVersion : Nat := 0x41

/-- The ERROR message with a code. -/
def spdmError (code : Nat) : List Byte := [0x13#8, 0x7F#8] ++ leBytes 1 code ++ [0x00#8]

/-- A byte of message `code` that the manual gives no value (log entry 6). -/
def spdmFree (code i n : Nat) : List Byte := (List.range n).map (fun j => Config.spdmByte code (i + j))

/-- Answers a request with an error; nothing else changes. -/
def State.spdmRefuse (s : State) (d code : Nat) : State := s.send (.spdm d (spdmError code))

/-- Runs a request of one code on a port whose DOE mailbox is up (R517 stage 1), at version 1.3 and once the phase is reached; a
message of another code is not this request (log entry 3). -/
def State.spdmRun (s : State) (d code phase : Nat) (req : List Byte) (k : Unit → State) : State :=
  if !s.sage.rom || num req 1 1 ≠ code then s
  else if num req 0 1 ≠ 0x13 then s.spdmRefuse d errVersion
  else if (s.spdmOf d).phase < phase then s.spdmRefuse d errUnexpected
  else k ()

/-- Answers a request and keeps the exchange in a transcript. -/
def State.spdmAnswer (s : State) (d : Nat) (x : Spdm) (raw : List Byte) : State := (s.setSpdm d x).send (.spdm d raw)

/-- GET_VERSION: VERSION with the one entry 1.3; every transcript begins anew. -/
def State.spdmVersion (s : State) (d : Nat) (req : List Byte) : State :=
  if !s.sage.rom || num req 1 1 ≠ 0x84 then s
  else if num req 0 1 ≠ 0x10 then s.spdmRefuse d errVersion
  else
    let raw : List Byte := [0x10#8, 0x04#8, 0x00#8, 0x00#8, 0x00#8, 0x01#8, 0x00#8, 0x13#8]
    s.spdmAnswer d ⟨1, req.take 4 ++ raw, [], [], (s.spdmOf d).last⟩ raw

/-- GET_VERSION (R530): the SPDM GET_VERSION request is answered over DOE. -/
def execGetVersion (d : Nat) (req : List Byte) (s : State) : Host.Outcome State Fault Refusal :=
  inRange (d < 2) (fun _ => .next (s.spdmVersion d req))

/-- Flags of CAPABILITIES: CERT_CAP, CHAL_CAP, MEAS_CAP with signatures, ALIAS_CERT_CAP; no sessions, no pre-shared keys, no
SET_CERTIFICATE and no mutual authentication (R530). -/
def spdmFlags : Nat := 0x2 + 0x4 + 0x10 + 0x10000

/-- GET_CAPABILITIES. -/
def State.spdmCaps (s : State) (d : Nat) (req : List Byte) : State :=
  s.spdmRun d 0xE1 1 req (fun _ =>
    let x := s.spdmOf d
    if x.phase ≠ 1 then s.spdmRefuse d errUnexpected
    else if req.length < 20 then s.spdmRefuse d errInvalid
    else
      let raw : List Byte := [0x13#8, 0x61#8, 0x00#8, 0x00#8, 0x00#8] ++ spdmFree 0x61 5 1 ++ [0x00#8, 0x00#8] ++
        leBytes 4 spdmFlags ++ spdmFree 0x61 12 8
      s.spdmAnswer d { x with phase := 2, vca := x.vca ++ req.take 20 ++ raw } raw)

/-- GET_CAPABILITIES (R530): the SPDM GET_CAPABILITIES request is answered. -/
def execGetCapabilities (d : Nat) (req : List Byte) (s : State) : Host.Outcome State Fault Refusal :=
  inRange (d < 2) (fun _ => .next (s.spdmCaps d req))

/-- NEGOTIATE_ALGORITHMS: TPM_ALG_ECDSA_ECC_NIST_P384 and TPM_ALG_SHA_384, if the request offers both (R530). -/
def State.spdmAlgs (s : State) (d : Nat) (req : List Byte) : State :=
  s.spdmRun d 0xE3 2 req (fun _ =>
    let x := s.spdmOf d
    if x.phase ≠ 2 then s.spdmRefuse d errUnexpected
    else if req.length < 32 ∨ !bit (num req 8 4) 7 ∨ !bit (num req 12 4) 1 then s.spdmRefuse d errInvalid
    else
      let raw : List Byte := [0x13#8, 0x63#8, 0x00#8, 0x00#8] ++ leBytes 2 36 ++ leBytes 1 (num req 6 1 % 2) ++ [0x00#8] ++ leBytes 4 0x4 ++
        leBytes 4 0x80 ++ leBytes 4 0x2 ++ leBytes 16 0
      s.spdmAnswer d { x with phase := 3, vca := x.vca ++ req.take (num req 4 2) ++ raw } raw)

/-- NEGOTIATE_ALGORITHMS (R530): selects P-384 and SHA-384. -/
def execNegotiateAlgorithms (d : Nat) (req : List Byte) (s : State) : Host.Outcome State Fault Refusal :=
  inRange (d < 2) (fun _ => .next (s.spdmAlgs d req))

/-! ## Certificates (R528, R530) -/

/-- The certificates, in DER, that lie back to back in bytes, one by one. -/
def derSplit : Nat → List Byte → List (List Byte)
  | 0, _ => []
  | n + 1, b =>
    let k := 4 + (num b 2 1 * 256 + num b 3 1)
    if b.isEmpty ∨ b.length < k then [] else b.take k :: derSplit n (b.drop k)

/-- The chain of slot 0 as SPDM carries it: its length, the hash of the root, then CA, DeviceID and Alias. -/
def State.spdmChain (s : State) : List Byte :=
  let n := Config.aliasCertLen s.sage.aliasSeed s.sage.meas
  let certs := (s.sage.chain.take n :: derSplit 16 (s.sage.chain.drop n)).reverse
  let body := sha384 (certs.headD []) ++ certs.flatten
  leBytes 2 (4 + body.length) ++ leBytes 2 0 ++ body

/-- GET_DIGESTS: the digest of the chain of slot 0. -/
def State.spdmDigests (s : State) (d : Nat) (req : List Byte) : State :=
  s.spdmRun d 0x81 3 req (fun _ =>
    let x := s.spdmOf d
    if s.sage.chain.isEmpty then s.spdmRefuse d errUnspecified
    else
      let raw : List Byte := [0x13#8, 0x01#8, 0x01#8, 0x01#8] ++ sha384 s.spdmChain
      s.spdmAnswer d { x with certs := x.certs ++ req.take 4 ++ raw, meas := [] } raw)

/-- GET_DIGESTS (R530): the SPDM GET_DIGESTS request is answered. -/
def execGetDigests (d : Nat) (req : List Byte) (s : State) : Host.Outcome State Fault Refusal :=
  inRange (d < 2) (fun _ => .next (s.spdmDigests d req))

/-- GET_CERTIFICATE: a portion of the chain of slot 0. -/
def State.spdmCert (s : State) (d : Nat) (req : List Byte) : State :=
  s.spdmRun d 0x82 3 req (fun _ =>
    let x := s.spdmOf d
    let chain := s.spdmChain
    let off := num req 4 2
    if s.sage.chain.isEmpty then s.spdmRefuse d errUnspecified
    else if req.length < 8 ∨ num req 2 1 % 16 ≠ 0 ∨ chain.length ≤ off then s.spdmRefuse d errInvalid
    else
      let part := (chain.drop off).take (num req 6 2)
      let raw : List Byte := [0x13#8, 0x02#8, 0x00#8, 0x00#8] ++ leBytes 2 part.length ++ leBytes 2 (chain.length - off - part.length) ++ part
      s.spdmAnswer d { x with certs := x.certs ++ req.take 8 ++ raw, meas := [] } raw)

/-- GET_CERTIFICATE (R530): returns the slot 0 chain. -/
def execGetCertificate (d : Nat) (req : List Byte) (s : State) : Host.Outcome State Fault Refusal :=
  inRange (d < 2) (fun _ => .next (s.spdmCert d req))

/-! ## Signatures (R529, R530) -/

/-- What is signed for a transcript hash under a context string. -/
def spdmSigned (context : String) (hash : List Byte) : List Byte :=
  let pre := ascii "dmtf-spdm-v1.3.*"
  let ctx := ascii context
  sha384 (pre ++ pre ++ pre ++ pre ++ List.replicate (36 - ctx.length) 0x00#8 ++ ctx ++ hash)

/-- Signs a transcript with the alias keys: the ECDSA signature, and the state that keeps the alias LMS signature over the same
transcript hash. When the alias LMS signatures are spent, a new alias key pair is derived (R529, R530). -/
def State.aliasSign (s : State) (d : Nat) (context : String) (transcript : List Byte) : List Byte × State :=
  let g := s.sage
  let hash := sha384 transcript
  let sig := ecdsaSign (Config.keyScalar g.aliasSeed) s.freshScalar (spdmSigned context hash)
  let lms := (List.range 1620).map (Config.lmsSign g.aliasSeed 15 g.aliasN hash)
  let s1 := s.draw.setSpdm d { s.spdmOf d with last := lms }
  (sig, if g.aliasN + 1 < 32768 then { s1 with sage := { g with aliasN := g.aliasN + 1 } } else s1.newAlias)

/-- The type byte of a measurement block is not given; its index, specification, sizes and digest are (R531). -/
def measBlock (i : Nat) (digest : List Byte) : List Byte :=
  leBytes 1 i ++ [0x01#8] ++ leBytes 2 51 ++ spdmFree 0x60 i 1 ++ leBytes 2 48 ++ digest

/-- The measurement blocks 1 to 9 (R531). -/
def State.measBlocks (s : State) : List (List Byte) := s.sage.meas.zipIdx.map (fun x => measBlock (x.2 + 1) x.1)

/-- The measurement summary that CHALLENGE asks for: none, of the trusted base, which the manual does not name, or of all blocks. -/
def State.measSummary (s : State) (kind : Nat) : List Byte :=
  if kind = 0 then [] else if kind = 0xFF then sha384 s.measBlocks.flatten else s.freshBytes 48

/-- CHALLENGE: CHALLENGE_AUTH over the transcript of every exchange so far. -/
def State.spdmChallenge (s0 : State) (d : Nat) (req : List Byte) : State :=
  s0.spdmRun d 0x83 3 req (fun _ =>
    let x := s0.spdmOf d
    let kind := num req 3 1
    if s0.sage.chain.isEmpty then s0.spdmRefuse d errUnspecified
    else if req.length < 44 ∨ num req 2 1 % 16 ≠ 0 ∨ (kind ≠ 0 ∧ kind ≠ 1 ∧ kind ≠ 0xFF) then s0.spdmRefuse d errInvalid
    else
      let s := s0.draw
      let raw : List Byte := [0x13#8, 0x03#8, 0x00#8, 0x01#8] ++ sha384 s.spdmChain ++ s.freshBytes 32 ++ s.draw.measSummary kind ++ leBytes 2 0 ++
        sub req 36 8
      let r := s.draw.aliasSign d "responder-challenge_auth signing" (x.vca ++ x.certs ++ req.take 44 ++ raw)
      r.2.spdmAnswer d { r.2.spdmOf d with certs := [], meas := [] } (raw ++ r.1))

/-- CHALLENGE (R530): signed with ECDSA and an alias LMS signature. -/
def execChallenge (d : Nat) (req : List Byte) (s : State) : Host.Outcome State Fault Refusal :=
  inRange (d < 2) (fun _ => .next (s.spdmChallenge d req))

/-- GET_MEASUREMENTS: the number of blocks, one block or all, signed if asked. -/
def State.spdmMeas (s0 : State) (d : Nat) (req : List Byte) : State :=
  s0.spdmRun d 0xE0 3 req (fun _ =>
    let x := s0.spdmOf d
    let op := num req 3 1
    let signed := num req 2 1 % 2 = 1
    let len := if signed then 45 else 12
    if s0.sage.chain.isEmpty then s0.spdmRefuse d errUnspecified
    else if req.length < len ∨ (op ≠ 0 ∧ op ≠ 0xFF ∧ 9 < op) ∨ (signed ∧ num req 36 1 % 16 ≠ 0) then s0.spdmRefuse d errInvalid
    else
      let s := s0.draw
      let blocks := if op = 0 then [] else if op = 0xFF then s.measBlocks else (s.measBlocks.drop (op - 1)).take 1
      let raw : List Byte := [0x13#8, 0x60#8] ++ leBytes 1 (if op = 0 then 9 else 0) ++ [0x00#8] ++ leBytes 1 blocks.length ++
        leBytes 3 blocks.flatten.length ++ blocks.flatten ++ s.freshBytes 32 ++ leBytes 2 0 ++ sub req (len - 8) 8
      let log := x.meas ++ req.take len ++ raw
      if signed then
        let r := s.aliasSign d "responder-measurements signing" (x.vca ++ log)
        r.2.spdmAnswer d { r.2.spdmOf d with meas := [] } (raw ++ r.1)
      else s.spdmAnswer d { x with meas := log } raw)

/-- GET_MEASUREMENTS (R531): returns the signed measurement blocks. -/
def execGetMeasurements (d : Nat) (req : List Byte) (s : State) : Host.Outcome State Fault Refusal :=
  inRange (d < 2) (fun _ => .next (s.spdmMeas d req))

/-- VENDOR_DEFINED_REQUEST: standard PCI-SIG, the function's vendor ID and payload 0x01 return the alias LMS signature of the last
transcript signed (R530). -/
def State.spdmVendor (s : State) (d : Nat) (req : List Byte) : State :=
  s.spdmRun d 0xFE 3 req (fun _ =>
    let x := s.spdmOf d
    if num req 4 2 ≠ 3 ∨ num req 6 1 ≠ 2 ∨ num req 7 2 ≠ (fnIdent (9 * d)).vendor ∨ num req 9 2 ≠ 1 ∨ num req 11 1 ≠ 1 then s.spdmRefuse d errInvalid
    else if x.last.isEmpty then s.spdmRefuse d errUnspecified
    else
      let raw : List Byte := [0x13#8, 0x7E#8, 0x00#8, 0x00#8] ++ leBytes 2 3 ++ leBytes 1 2 ++ leBytes 2 (fnIdent (9 * d)).vendor ++ leBytes 2 x.last.length ++ x.last
      s.spdmAnswer d { x with meas := [] } raw)

/-- VENDOR_DEFINED_REQUEST (R530): returns the alias LMS signature of the last transcript. -/
def execVendorDefinedRequest (d : Nat) (req : List Byte) (s : State) : Host.Outcome State Fault Refusal :=
  inRange (d < 2) (fun _ => .next (s.spdmVendor d req))

end Sys2Proof.Machine
end

