-- ==== Sys2Proof/Machine/RvVector.lean ====
section
/-!
DEFINITION. The vector instructions of a Basil core: V version 1.0 with VLEN 512 and ELEN 64, Zvfh and Zvfbfmin (R210, R211), with
the timing classes of R212. Tail and masked-off elements stay undisturbed (log entry 7).
-/

set_option Elab.async false

namespace Sys2Proof.Machine

open Sys2Proof

/-! ## Vector state -/

/-- Vector register `r` as a number. -/
def Core.vreg (k : Core) (r : Nat) : Nat := (Sparse.rd (fun _ => 0#512) r k.v).toNat

/-- Replaces vector register `r`. -/
def Core.setVreg (k : Core) (r v : Nat) : Core := { k with v := Sparse.wr (fun _ => 0#512) r (BitVec.ofNat 512 v) k.v }

/-- Element i of width `w` of the group that starts at register `r`. -/
def Core.velem (k : Core) (r w i : Nat) : Nat := bits (k.vreg (r + i * w / 512)) (i * w % 512) w

/-- Replaces element i of width `w`. -/
def Core.setVelem (k : Core) (r w i v : Nat) : Core :=
  let q := r + i * w / 512
  let lo := i * w % 512
  let old := k.vreg q
  k.setVreg q (old - bits old lo w * 2 ^ lo + v % 2 ^ w * 2 ^ lo)

/-- Mask bit i of register `r`. -/
def Core.vmask (k : Core) (r i : Nat) : Bool := bit (k.vreg r) i

/-- Replaces mask bit i. -/
def Core.setVmask (k : Core) (r i : Nat) (b : Bool) : Core := k.setVelem r 1 i (b2n b)

/-- SEW. -/
def Core.sew (k : Core) : Nat := 8 * 2 ^ bits k.vtype 3 3

/-- Eight times LMUL. -/
def lmul8 (vt : Nat) : Nat :=
  match bits vt 0 3 with
  | 0 => 8
  | 1 => 16
  | 2 => 32
  | 3 => 64
  | 5 => 1
  | 6 => 2
  | 7 => 4
  | _ => 0

/-- Registers of a group of `l8` eighths. -/
def groupRegs (l8 : Nat) : Nat := max 1 (l8 / 8)

/-- The register-group length m of R212. -/
def Core.vm (k : Core) : Nat := groupRegs (lmul8 k.vtype)

/-- Whether a vtype is supported (VLEN 512, ELEN 64). -/
def vtypeOk (vt : Nat) : Bool :=
  decide (vt < 256) && lmul8 vt != 0 && decide (bits vt 3 3 ≤ 3) && decide (8 * 2 ^ bits vt 3 3 * 8 ≤ lmul8 vt * 64)

/-- VLMAX of a vtype. -/
def vlmaxOf (vt : Nat) : Nat := lmul8 vt * 64 / (8 * 2 ^ bits vt 3 3)

/-- vill. -/
def Core.vill (k : Core) : Bool := bit k.vtype 63

/-- Whether a register may start a group of `l8` eighths. -/
def regOk (r l8 : Nat) : Bool := l8 != 0 && decide (l8 ≤ 64) && r % groupRegs l8 == 0 && decide (r + groupRegs l8 ≤ 32)

/-- vsetvli, vsetivli and vsetvl. -/
def execVset (s : State) (k : Core) (w len : Nat) : RvOut :=
  let rd := rvRd w
  let imm := bits w 30 2 = 3
  let vt := if !bit w 31 then bits w 20 11 else if imm then bits w 20 10 else (k.rx (rvRs2 w)).toNat
  if bit w 31 ∧ !imm ∧ rvF7 w ≠ 0x40 then illegal
  else if !vtypeOk vt then
    outX s { k with vtype := 2 ^ 63, vl := 0, vstart := 0 } len rd 0#64 1 1
  else
    let mx := vlmaxOf vt
    let vl := if imm then min (rvRs1 w) mx
      else if rvRs1 w ≠ 0 then min (k.rx (rvRs1 w)).toNat mx
      else if rd ≠ 0 then mx
      else min k.vl mx
    outX s { k with vtype := vt, vl := vl, vstart := 0 } len rd (BitVec.ofNat 64 vl) 1 1

/-! ## Element loops -/

/-- Active elements: from vstart to vl - 1, unmasked or with their mask bit set. -/
def Core.active (k : Core) (vm : Bool) : List Nat :=
  (List.range k.vl).filter (fun i => decide (k.vstart ≤ i) && (vm || k.vmask 0 i))

/-- Elements from vstart to vl - 1. -/
def Core.body (k : Core) : List Nat := (List.range k.vl).filter (fun i => decide (k.vstart ≤ i))

/-- Writes the elements a function gives. -/
def Core.vput (k : Core) (vd w : Nat) (is : List Nat) (f : Nat → Nat) : Core :=
  is.foldl (fun a i => a.setVelem vd w i (f i)) k

/-- Writes the mask bits a function gives. -/
def Core.mput (k : Core) (vd : Nat) (is : List Nat) (f : Nat → Bool) : Core :=
  is.foldl (fun a i => a.setVmask vd i (f i)) k

/-- Finishes a vector instruction that writes a vector group. -/
def vdone (s : State) (k : Core) (len vd n ival lat : Nat) : RvOut :=
  .done ⟨s, ({ k with vstart := 0 } : Core).step len, ival, 64 + vd, n, lat⟩

/-- Finishes a vector arithmetic instruction of class "vector integer and FP arithmetic". -/
def varith (s : State) (k0 k : Core) (len vd : Nat) : RvOut :=
  vdone s k len vd k0.vm k0.vm (4 + k0.vm)

/-- Finishes a vector arithmetic instruction whose result group is twice as long. -/
def varithW (s : State) (k0 k : Core) (len vd : Nat) : RvOut :=
  vdone s k len vd (2 * k0.vm) k0.vm (4 + k0.vm)

/-- Finishes a vector arithmetic instruction whose result is one register: a mask or element 0. -/
def varith1 (s : State) (k0 k : Core) (len vd : Nat) : RvOut := vdone s k len vd 1 k0.vm (4 + k0.vm)

/-- Finishes a vector reduction. -/
def vreduce (s : State) (k0 k : Core) (len vd : Nat) : RvOut :=
  vdone s k len vd 1 (k0.vm + 4) (k0.vm + 8)

/-! ## Loads and stores -/

/-- Element width of a vector load or store's width field. -/
def vwidth (f3 : Nat) : Nat := match f3 with | 0 => 8 | 5 => 16 | 6 => 32 | _ => 64

/-- The accesses of a vector load or store: register, element width in bits, element number and core address of each, in
order; or none for a reserved form. -/
def Core.vaccess (k : Core) (w : Nat) : Option (List (Nat × Nat × Nat × Nat)) :=
  let base := (k.rx (rvRs1 w)).toNat
  let nf := bits w 29 3 + 1
  let vm := bit w 25
  let eew := vwidth (rvF3 w)
  let vd := rvRd w
  let l8 := lmul8 k.vtype * eew / k.sew
  let at_ := fun (b : Nat) (d : Int) => (BitVec.ofNat 64 b + x64 d).toNat
  let seg := fun (l8 wd : Nat) (addr : Nat → Nat) =>
    if !regOk vd l8 ∨ 8 < nf * groupRegs l8 ∨ 32 < vd + nf * groupRegs l8 then none
    else some ((k.active vm).flatMap (fun i => (List.range nf).map (fun f =>
      (vd + f * groupRegs l8, wd, i, (addr i + f * (wd / 8)) % 2 ^ 64))))
  if bit w 28 then none
  else match bits w 26 2 with
    | 0 =>
      match rvRs2 w with
      | 0 | 16 => if k.vill then none else seg l8 eew (fun i => base + i * nf * (eew / 8))
      | 8 =>
        if (nf = 1 ∨ nf = 2 ∨ nf = 4 ∨ nf = 8) ∧ vd % nf = 0 ∧ vm then
          some (((List.range (nf * 512 / eew)).filter (fun i => decide (k.vstart ≤ i))).map
            (fun i => (vd, eew, i, (base + i * (eew / 8)) % 2 ^ 64)))
        else none
      | 11 =>
        if eew = 8 ∧ nf = 1 ∧ vm ∧ !k.vill then
          some (((List.range (ceilDiv k.vl 8)).filter (fun i => decide (k.vstart ≤ i))).map (fun i => (vd, 8, i, (base + i) % 2 ^ 64)))
        else none
      | _ => none
    | 2 => if k.vill then none else seg l8 eew (fun i => at_ base ((k.rx (rvRs2 w)).toInt * i))
    | _ =>
      if k.vill ∨ !regOk (rvRs2 w) l8 then none
      else seg (lmul8 k.vtype) k.sew (fun i => base + k.velem (rvRs2 w) eew i)

/-- The bank waits of a strided or indexed access, whose element j is issued in cycle t + j: w per element (R212, R213). -/
def elemWaits (eg c t nf : Nat) (l : List (Nat × Nat × Nat × Nat)) : Nat :=
  ((List.range (l.length / nf)).map (fun j => bankWait eg c (l.getD (j * nf) (0, 0, 0, 0)).2.2.2 (t + j))).sum

/-- Issue interval and latency of a vector load or store with its accesses (R212): w of a unit-stride one is that of its first or
of its last byte, the longer (log entry 7). -/
def Core.vmemTime (k : Core) (eg c w t : Nat) (l : List (Nat × Nat × Nat × Nat)) : Nat × Nat :=
  if bits w 26 2 = 0 then
    let first := match l.head? with | some x => bankWait eg c x.2.2.2 t | none => 0
    let last := match l.getLast? with | some x => bankWait eg c (x.2.2.2 + x.2.1 / 8 - 1) t | none => 0
    (k.vm, 3 + k.vm + max first last)
  else (k.vl, 3 + k.vl + elemWaits eg c t (bits w 29 3 + 1) l)

/-- Loads elements in order; a fault after element 0 of a fault-only-first load shortens vl. -/
def State.vloadGo (eg : Nat) (first : Bool) : List (Nat × Nat × Nat × Nat) → State → Core → RvOut
  | [], s, k => .done ⟨s, k, 0, 0, 0, 0⟩
  | (r, wd, i, a) :: rest, s, k =>
    match s.coreRead k eg a (wd / 8) with
    | .fault => if first && i ≠ 0 then .done ⟨s, { k with vl := i }, 0, 0, 0, 0⟩ else .trapAt s causeLoadAccess
    | .ecc x => .ecc x
    | .ok v s1 => State.vloadGo eg first rest s1 (k.setVelem r wd i v)

/-- A vector load. -/
def State.execVload (s : State) (eg c : Nat) (k : Core) (w len t : Nat) : RvOut :=
  match k.vaccess w with
  | none => illegal
  | some l => match State.vloadGo eg (bits w 26 2 = 0 ∧ rvRs2 w = 16) l s k with
    | .done d =>
      let x := k.vmemTime eg c w t l
      vdone d.s d.k len (rvRd w) (l.foldl (fun m y => max m (y.1 + y.2.2.1 * y.2.1 / 512 + 1 - rvRd w)) 0) x.1 x.2
    | o => o

/-- Stores elements in order. -/
def State.vstoreGo (eg : Nat) (k : Core) : List (Nat × Nat × Nat × Nat) → State → RvOut
  | [], s => .done ⟨s, k, 0, 0, 0, 0⟩
  | (r, wd, i, a) :: rest, s =>
    match s.coreWrite k eg a (wd / 8) (k.velem r wd i) with
    | .fault => .trapAt s causeStoreAccess
    | .ecc x => .ecc x
    | .ok _ s1 => State.vstoreGo eg k rest s1

/-- A vector store. -/
def State.execVstore (s : State) (eg c : Nat) (k : Core) (w len t : Nat) : RvOut :=
  match k.vaccess w with
  | none => illegal
  | some l =>
    if bits w 26 2 = 0 ∧ rvRs2 w = 16 then illegal
    else match State.vstoreGo eg k l s with
      | .done d => let x := k.vmemTime eg c w t l; vdone d.s d.k len 0 0 x.1 x.2
      | o => o

/-! ## Integer arithmetic -/

/-- vxrm. -/
def Core.vxrm (k : Core) : Nat := k.vcsr / 2 % 4

/-- Sets vxsat when the condition holds. -/
def Core.sat (k : Core) (b : Bool) : Core := if b then { k with vcsr := k.vcsr / 2 * 2 + 1 } else k

/-- Rounds a shifted value by vxrm. -/
def roundoff (rm : Nat) (v : Int) (d : Nat) : Int :=
  let q := v / ((2 ^ d : Nat) : Int)
  let r := v % ((2 ^ d : Nat) : Int)
  let half : Int := if d = 0 then 1 else ((2 ^ (d - 1) : Nat) : Int)
  match rm with
  | 0 => if half ≤ r then q + 1 else q
  | 1 => if half < r ∨ (half = r ∧ q % 2 = 1) then q + 1 else q
  | 2 => q
  | _ => if q % 2 = 0 ∧ r ≠ 0 then q + 1 else q

/-- Clamps to `w` bits: the value and whether it was out of range. -/
def clampTo (w : Nat) (sgn : Bool) (v : Int) : Nat × Bool :=
  let lo : Int := if sgn then -((2 ^ (w - 1) : Nat) : Int) else 0
  let hi : Int := if sgn then ((2 ^ (w - 1) : Nat) : Int) - 1 else ((2 ^ w : Nat) : Int) - 1
  (unsigned w (max lo (min hi v)), decide (v < lo) || decide (hi < v))

/-- Reads `w` bits as a signed or unsigned integer. -/
def rdInt (w : Nat) (sgn : Bool) (v : Nat) : Int := if sgn then signed w v else ((v % 2 ^ w : Nat) : Int)

/-- Single-width integer operations of the OPI forms that give one element from one of each source (a of vs2, b of the other). -/
def vopI (f6 w a b : Nat) : Option Nat :=
  let n := 2 ^ w
  let sh := b % w
  match f6 with
  | 0x00 => some ((a + b) % n)
  | 0x02 => some ((a + n - b % n) % n)
  | 0x03 => some ((b + n - a % n) % n)
  | 0x04 => some (min a b)
  | 0x05 => some (if signed w b < signed w a then b else a)
  | 0x06 => some (max a b)
  | 0x07 => some (if signed w a < signed w b then b else a)
  | 0x09 => some (a &&& b)
  | 0x0A => some (a ||| b)
  | 0x0B => some (a ^^^ b)
  | 0x25 => some (a * 2 ^ sh % n)
  | 0x28 => some (a / 2 ^ sh)
  | 0x29 => some (unsigned w (signed w a / ((2 ^ sh : Nat) : Int)))
  | _ => none

/-- Comparisons of the OPI forms. -/
def vcmpI (f6 w a b : Nat) : Option Bool :=
  match f6 with
  | 0x18 => some (a == b)
  | 0x19 => some (a != b)
  | 0x1A => some (decide (a < b))
  | 0x1B => some (decide (signed w a < signed w b))
  | 0x1C => some (decide (a ≤ b))
  | 0x1D => some (decide (signed w a ≤ signed w b))
  | 0x1E => some (decide (b < a))
  | 0x1F => some (decide (signed w b < signed w a))
  | _ => none

/-- Saturating and scaling operations of the OPI forms: value and saturation. -/
def vopSat (f6 w rm a b : Nat) : Option (Nat × Bool) :=
  let s := fun (sgn : Bool) (f : Int → Int → Int) => some (clampTo w sgn (f (rdInt w sgn a) (rdInt w sgn b)))
  match f6 with
  | 0x20 => s false (· + ·)
  | 0x21 => s true (· + ·)
  | 0x22 => s false (· - ·)
  | 0x23 => s true (· - ·)
  | 0x27 => some (clampTo w true (roundoff rm (signed w a * signed w b) (w - 1)))
  | 0x2A => some (unsigned w (roundoff rm (rdInt w false a) (b % w)), false)
  | 0x2B => some (unsigned w (roundoff rm (rdInt w true a) (b % w)), false)
  | _ => none

/-- Narrowing operations: a is 2w bits wide. -/
def vopNarrow (f6 w rm a b : Nat) : Option (Nat × Bool) :=
  let sh := b % (2 * w)
  match f6 with
  | 0x2C => some (a / 2 ^ sh % 2 ^ w, false)
  | 0x2D => some (unsigned w (signed (2 * w) a / ((2 ^ sh : Nat) : Int)), false)
  | 0x2E => some (clampTo w false (roundoff rm (rdInt (2 * w) false a) sh))
  | 0x2F => some (clampTo w true (roundoff rm (rdInt (2 * w) true a) sh))
  | _ => none

/-- Single-width operations of the OPM forms; `d` is the destination element. -/
def vopM (f6 w rm a b d : Nat) : Option Nat :=
  let n := 2 ^ w
  let av := fun (sgn sub : Bool) =>
    some (unsigned w (roundoff rm (if sub then rdInt w sgn a - rdInt w sgn b else rdInt w sgn a + rdInt w sgn b) 1))
  match f6 with
  | 0x08 => av false false
  | 0x09 => av true false
  | 0x0A => av false true
  | 0x0B => av true true
  | 0x20 => some (unsigned w (divRem w false false a b))
  | 0x21 => some (unsigned w (divRem w true false a b))
  | 0x22 => some (unsigned w (divRem w false true a b))
  | 0x23 => some (unsigned w (divRem w true true a b))
  | 0x24 => some (a * b / n)
  | 0x25 => some (a * b % n)
  | 0x26 => some (unsigned w (signed w a * (b : Int) / (n : Int)))
  | 0x27 => some (unsigned w (signed w a * signed w b / (n : Int)))
  | 0x29 => some ((b * d + a) % n)
  | 0x2B => some (unsigned w ((a : Int) - (b : Int) * (d : Int)))
  | 0x2D => some ((b * a + d) % n)
  | 0x2F => some (unsigned w ((d : Int) - (b : Int) * (a : Int)))
  | _ => none

/-- Widening operations of the OPM forms: operands as integers and the operation; d is the 2w-bit destination element. -/
def vopWide (f6 w a b d : Nat) : Option Nat :=
  let x := fun (sgn : Bool) (v : Nat) => rdInt w sgn v
  let y := fun (sgn : Bool) (v : Nat) => rdInt (2 * w) sgn v
  let r := fun (i : Int) => some (unsigned (2 * w) i)
  match f6 with
  | 0x30 => r (x false a + x false b)
  | 0x31 => r (x true a + x true b)
  | 0x32 => r (x false a - x false b)
  | 0x33 => r (x true a - x true b)
  | 0x34 => r (y false a + x false b)
  | 0x35 => r (y true a + x true b)
  | 0x36 => r (y false a - x false b)
  | 0x37 => r (y true a - x true b)
  | 0x38 => r (x false a * x false b)
  | 0x3A => r (x true a * x false b)
  | 0x3B => r (x true a * x true b)
  | 0x3C => r (x false a * x false b + y false d)
  | 0x3D => r (x true a * x true b + y false d)
  | 0x3E => r (x true a * x false b + y false d)
  | 0x3F => r (x false a * x true b + y false d)
  | _ => none

/-- Integer reduction operations of the OPM forms. -/
def vredI (f6 w a b : Nat) : Nat :=
  match f6 with
  | 0x00 => (a + b) % 2 ^ w
  | 0x01 => a &&& b
  | 0x02 => a ||| b
  | 0x03 => a ^^^ b
  | 0x04 => min a b
  | 0x05 => if signed w b < signed w a then b else a
  | 0x06 => max a b
  | _ => if signed w a < signed w b then b else a

/-! ## OPI -/

/-- The other source of an integer operation: vs1, x[rs1] or the immediate. -/
def Core.vsrcI (k : Core) (w i : Nat) : Nat :=
  match rvF3 w with
  | 0 | 2 => k.velem (rvRs1 w) k.sew i
  | 3 => unsigned k.sew (signed 5 (rvRs1 w))
  | _ => (k.rx (rvRs1 w)).toNat % 2 ^ k.sew

/-- The scalar offset of a slide or gather: x[rs1] or the unsigned immediate. -/
def Core.vscalar (k : Core) (w : Nat) : Nat := if rvF3 w = 3 then rvRs1 w else (k.rx (rvRs1 w)).toNat

/-- OPIVV, OPIVX and OPIVI. -/
def execVopI (s : State) (k : Core) (w len : Nat) : RvOut :=
  let f6 := bits w 26 6
  let f3 := rvF3 w
  let vm := bit w 25
  let vd := rvRd w
  let v2 := rvRs2 w
  let sw := k.sew
  let l8 := lmul8 k.vtype
  let mx := vlmaxOf k.vtype
  let a := fun i => k.velem v2 sw i
  let shift := f6 = 0x25 ∨ 0x28 ≤ f6
  -- shift immediates are unsigned
  let b := fun i => if f3 = 3 ∧ shift then rvRs1 w else k.vsrcI w i
  let act := k.active vm
  let one := regOk vd l8 && regOk v2 l8 && (f3 != 0 || regOk (rvRs1 w) l8) && (vm || vd != 0)
  let carry := fun i => if vm then 0 else b2n (k.vmask 0 i)
  let simple := fun (is : List Nat) (f : Nat → Nat) => if one then varith s k (k.vput vd sw is f) len vd else illegal
  let mask := fun (is : List Nat) (f : Nat → Bool) =>
    if regOk v2 l8 && (f3 != 0 || regOk (rvRs1 w) l8) then varith1 s k (k.mput vd is f) len vd else illegal
  match f6 with
  | 0x0C => simple act (fun i =>
      let x := if f3 = 0 then k.velem (rvRs1 w) sw i else k.vscalar w
      if x < mx then a x else 0)
  | 0x0E =>
    if f3 = 0 then simple act (fun i => let x := k.velem (rvRs1 w) 16 i; if x < mx then a x else 0)
    else simple (act.filter (fun i => decide (k.vscalar w ≤ i))) (fun i => a (i - k.vscalar w))
  | 0x0F =>
    if f3 = 0 then illegal else simple act (fun i => if i + k.vscalar w < mx then a (i + k.vscalar w) else 0)
  | 0x10 => if vm then illegal else simple k.body (fun i => a i + b i + carry i)
  | 0x12 => if vm ∨ f3 = 3 then illegal else simple k.body (fun i => a i + 2 * 2 ^ sw - b i - carry i)
  | 0x11 => mask k.body (fun i => decide (2 ^ sw ≤ a i + b i + carry i))
  | 0x13 => if f3 = 3 then illegal else mask k.body (fun i => decide (a i < b i + carry i))
  | 0x17 =>
    if vm then (if v2 = 0 then simple k.body b else illegal)
    else simple k.body (fun i => if k.vmask 0 i then b i else a i)
  | 0x30 | 0x31 =>
    if f3 ≠ 0 then illegal
    else
      let sg := f6 = 0x31
      let z := act.foldl (fun acc i => acc + rdInt sw sg (a i)) (rdInt (2 * sw) sg (k.velem (rvRs1 w) (2 * sw) 0))
      vreduce s k (k.setVelem vd (2 * sw) 0 (unsigned (2 * sw) z)) len vd
  | _ =>
    if f6 = 0x27 ∧ f3 = 3 then
      -- vmv<nr>r.v
      let nr := rvRs1 w + 1
      if vm ∧ (nr = 1 ∨ nr = 2 ∨ nr = 4 ∨ nr = 8) ∧ vd % nr = 0 ∧ v2 % nr = 0 then
        vdone s ((List.range nr).foldl (fun x i => x.setVreg (vd + i) (k.vreg (v2 + i))) k) len vd nr nr (4 + nr)
      else illegal
    else match vopI f6 sw 0 0, vcmpI f6 sw 0 0, vopSat f6 sw 0 0 0, vopNarrow f6 sw 0 0 0 with
      | some _, _, _, _ => if f6 = 0x02 ∧ f3 = 3 then illegal else simple act (fun i => (vopI f6 sw (a i) (b i)).getD 0)
      | _, some _, _, _ =>
        if (f3 = 3 ∧ (f6 = 0x1A ∨ f6 = 0x1B)) ∨ (f3 = 0 ∧ 0x1E ≤ f6) then illegal
        else mask act (fun i => (vcmpI f6 sw (a i) (b i)).getD false)
      | _, _, some _, _ =>
        let r := fun i => (vopSat f6 sw k.vxrm (a i) (b i)).getD (0, false)
        if one then varith s k ((k.vput vd sw act (fun i => (r i).1)).sat (act.any (fun i => (r i).2))) len vd else illegal
      | _, _, _, some _ =>
        let r := fun i => (vopNarrow f6 sw k.vxrm (k.velem v2 (2 * sw) i) (b i)).getD (0, false)
        if regOk vd l8 && regOk v2 (2 * l8) && sw ≤ 32 && (vm || vd != 0) then
          varith s k ((k.vput vd sw act (fun i => (r i).1)).sat (act.any (fun i => (r i).2))) len vd
        else illegal
      | _, _, _, _ => illegal

/-! ## OPM -/

/-- Mask-register logical operations. -/
def maskLogic (f6 : Nat) (a b : Bool) : Bool :=
  match f6 with
  | 0x18 => a && !b
  | 0x19 => a && b
  | 0x1A => a || b
  | 0x1B => a != b
  | 0x1C => a || !b
  | 0x1D => !(a && b)
  | 0x1E => !(a || b)
  | _ => a == b

/-- The first active element whose mask bit is set. -/
def Core.vfirst (k : Core) (v2 : Nat) (vm : Bool) : Option Nat := (k.active vm).find? (fun i => k.vmask v2 i)

/-- VMUNARY0: vmsbf, vmsof, vmsif, viota and vid. -/
def execVmunary (s : State) (k : Core) (w len : Nat) : RvOut :=
  let vm := bit w 25
  let vd := rvRd w
  let v2 := rvRs2 w
  let act := k.active vm
  let first := k.vfirst v2 vm
  let before := fun i => match first with | some f => decide (i < f) | none => true
  let at_ := fun i => first == some i
  if k.vstart ≠ 0 then illegal
  else match rvRs1 w with
    | 1 => varith1 s k (k.mput vd act before) len vd
    | 2 => varith1 s k (k.mput vd act at_) len vd
    | 3 => varith1 s k (k.mput vd act (fun i => before i || at_ i)) len vd
    | 0x10 => varith s k (k.vput vd k.sew act (fun i => (act.filter (fun j => decide (j < i) && k.vmask v2 j)).length)) len vd
    | 0x11 => varith s k (k.vput vd k.sew act (fun i => i)) len vd
    | _ => illegal

/-- OPMVV and OPMVX. -/
def execVopM (s : State) (k : Core) (w len : Nat) : RvOut :=
  let f6 := bits w 26 6
  let vv := rvF3 w = 2
  let vm := bit w 25
  let vd := rvRd w
  let v1 := rvRs1 w
  let v2 := rvRs2 w
  let sw := k.sew
  let l8 := lmul8 k.vtype
  let act := k.active vm
  let a := fun i => k.velem v2 sw i
  let b := fun i => k.vsrcI w i
  let one := regOk vd l8 && regOk v2 l8 && (!vv || regOk v1 l8) && (vm || vd != 0)
  if f6 < 8 then
    if !vv ∨ k.vstart ≠ 0 then illegal
    else
      let z := act.foldl (fun acc i => vredI f6 sw acc (a i)) (k.velem v1 sw 0)
      vreduce s k (k.setVelem vd sw 0 z) len vd
  else match f6 with
    | 0x0E =>
      if vv ∨ !one then illegal
      else varith s k (k.vput vd sw act (fun i => if i = 0 then b 0 else a (i - 1))) len vd
    | 0x0F =>
      if vv ∨ !one then illegal
      else varith s k (k.vput vd sw act (fun i => if i + 1 = k.vl then b 0 else a (i + 1))) len vd
    | 0x10 =>
      if vv then
        match v1 with
        | 0 => outX s { k with vstart := 0 } len vd (x64 (signed sw (a 0))) k.vm (4 + k.vm)
        | 0x10 => outX s k len vd (BitVec.ofNat 64 (act.filter (fun i => k.vmask v2 i)).length) k.vm (4 + k.vm)
        | 0x11 => outX s k len vd (match k.vfirst v2 vm with | some i => BitVec.ofNat 64 i | none => x64 (-1)) k.vm (4 + k.vm)
        | _ => illegal
      else if v2 = 0 ∧ vm then
        varith1 s k (if k.vl ≤ k.vstart then k else k.setVelem vd sw 0 (b 0)) len vd
      else illegal
    | 0x12 =>
      let d := if v1 = 2 ∨ v1 = 3 then 8 else if v1 = 4 ∨ v1 = 5 then 4 else 2
      if !vv ∨ v1 < 2 ∨ 7 < v1 ∨ sw / d < 8 ∨ !regOk vd l8 ∨ (!vm ∧ vd = 0) then illegal
      else varith s k (k.vput vd sw act (fun i => unsigned sw (rdInt (sw / d) (v1 % 2 = 1) (k.velem v2 (sw / d) i)))) len vd
    | 0x14 => if vv then execVmunary s k w len else illegal
    | 0x17 =>
      if !vv ∨ !vm ∨ k.vstart ≠ 0 then illegal
      else
        let src := k.body.filter (fun i => k.vmask v1 i)
        varith s k (k.vput vd sw (List.range src.length) (fun i => a (src.getD i 0))) len vd
    | _ =>
      if 0x18 ≤ f6 ∧ f6 ≤ 0x1F then
        if vv ∧ vm then varith1 s k (k.mput vd k.body (fun i => maskLogic f6 (k.vmask v2 i) (k.vmask v1 i))) len vd
        else illegal
      else match vopM f6 sw 0 0 0 0, vopWide f6 sw 0 0 0 with
        | some _, _ =>
          if one then varith s k (k.vput vd sw act (fun i => (vopM f6 sw k.vxrm (a i) (b i) (k.velem vd sw i)).getD 0)) len vd
          else illegal
        | _, some _ =>
          let wide := 0x34 ≤ f6 ∧ f6 ≤ 0x37
          let a2 := fun i => if wide then k.velem v2 (2 * sw) i else a i
          if sw ≤ 32 && regOk vd (2 * l8) && regOk v2 (if wide then 2 * l8 else l8) && (!vv || regOk v1 l8) && (vm || vd != 0) &&
              !(f6 == 0x3E && vv) then
            varithW s k (k.vput vd (2 * sw) act (fun i => (vopWide f6 sw (a2 i) (b i) (k.velem vd (2 * sw) i)).getD 0)) len vd
          else illegal
        | _, _ => illegal

/-! ## OPF -/

/-- The float format of an element width. -/
def vfmt (w : Nat) : Option IEEE := if w = 16 then some fp16 else if w = 32 then some fp32 else if w = 64 then some fp64 else none

/-- Writes the elements and accrues the flags a function gives. -/
def Core.fput (k : Core) (vd w : Nat) (is : List Nat) (f : Nat → FRes) : Core :=
  (k.vput vd w is (fun i => (f i).code)).accrue (is.foldl (fun m i => m ||| (f i).flags) 0)

/-- Single-width float operations: a of vs2, b of the other source, d of the destination. -/
def vopF (F : IEEE) (f6 rm a b d : Nat) : Option FRes :=
  match f6 with
  | 0x00 => some (rvAdd F rm a b)
  | 0x02 => some (rvSub F rm a b)
  | 0x04 => some (rvMinMax F false a b)
  | 0x06 => some (rvMinMax F true a b)
  | 0x08 => some ⟨rvSgnj F 0 a b, 0⟩
  | 0x09 => some ⟨rvSgnj F 1 a b, 0⟩
  | 0x0A => some ⟨rvSgnj F 2 a b, 0⟩
  | 0x20 => some (rvDiv F rm a b)
  | 0x21 => some (rvDiv F rm b a)
  | 0x24 => some (rvMul F rm a b)
  | 0x27 => some (rvSub F rm b a)
  | 0x28 => some (rvFma F rm false false b d a)
  | 0x29 => some (rvFma F rm true true b d a)
  | 0x2A => some (rvFma F rm false true b d a)
  | 0x2B => some (rvFma F rm true false b d a)
  | 0x2C => some (rvFma F rm false false b a d)
  | 0x2D => some (rvFma F rm true true b a d)
  | 0x2E => some (rvFma F rm false true b a d)
  | 0x2F => some (rvFma F rm true false b a d)
  | _ => none

/-- Widening float operations in the wide format G: a and b already widened where narrow. -/
def vopFw (G : IEEE) (f6 rm a b d : Nat) : Option FRes :=
  match f6 with
  | 0x30 | 0x34 => some (rvAdd G rm a b)
  | 0x32 | 0x36 => some (rvSub G rm a b)
  | 0x38 => some (rvMul G rm a b)
  | 0x3C => some (rvFma G rm false false b a d)
  | 0x3D => some (rvFma G rm true true b a d)
  | 0x3E => some (rvFma G rm false true b a d)
  | 0x3F => some (rvFma G rm true false b a d)
  | _ => none

/-- Comparisons: a of vs2, b of the other source. -/
def vcmpF (F : IEEE) (f6 a b : Nat) : Option (Bool × Nat) :=
  let r := fun (x : FRes) => some (x.code == 1, x.flags)
  match f6 with
  | 0x18 => r (rvCmp F 2 a b)
  | 0x19 => r (rvCmp F 0 a b)
  | 0x1B => r (rvCmp F 1 a b)
  | 0x1C => let x := rvCmp F 2 a b; some (x.code != 1, x.flags)
  | 0x1D => r (rvCmp F 1 b a)
  | 0x1F => r (rvCmp F 0 b a)
  | _ => none

/-- Rounds to odd: the truncated code with its last bit set when inexact. -/
def rvOdd (F G : IEEE) (a : Nat) : FRes :=
  let r := rvEncode G 1 (F.decode a)
  ⟨if r.flags % 2 = 1 then r.code / 2 * 2 + 1 else r.code, r.flags ||| nvIf (snan F a)⟩

/-- VFUNARY0: the conversions. `sw` is SEW. -/
def vcvt (op sw rm a : Nat) : Option (Nat × Nat × FRes) :=
  -- source width, destination width, result
  let n := vfmt sw
  let d := vfmt (2 * sw)
  match op with
  | 0x00 | 0x01 => n.map (fun F => (sw, sw, rvToInt F rm sw (op % 2 = 1) a))
  | 0x06 | 0x07 => n.map (fun F => (sw, sw, rvToInt F 1 sw (op % 2 = 1) a))
  | 0x02 | 0x03 => n.map (fun F => (sw, sw, rvOfInt F rm sw (op % 2 = 1) a))
  | 0x08 | 0x09 => n.bind (fun F => if sw ≤ 32 then some (sw, 2 * sw, rvToInt F rm (2 * sw) (op % 2 = 1) a) else none)
  | 0x0E | 0x0F => n.bind (fun F => if sw ≤ 32 then some (sw, 2 * sw, rvToInt F 1 (2 * sw) (op % 2 = 1) a) else none)
  | 0x0A | 0x0B => d.map (fun G => (sw, 2 * sw, rvOfInt G rm sw (op % 2 = 1) a))
  | 0x0C => match n, d with | some F, some G => some (sw, 2 * sw, rvCvt F G rm a) | _, _ => none
  | 0x0D => if sw = 16 then some (16, 32, rvCvt bf16 fp32 rm a) else none
  | 0x10 | 0x11 => d.map (fun G => (2 * sw, sw, rvToInt G rm sw (op % 2 = 1) a))
  | 0x16 | 0x17 => d.map (fun G => (2 * sw, sw, rvToInt G 1 sw (op % 2 = 1) a))
  | 0x12 | 0x13 => n.bind (fun F => if sw ≤ 32 then some (2 * sw, sw, rvOfInt F rm (2 * sw) (op % 2 = 1) a) else none)
  | 0x14 => match n, d with | some F, some G => some (2 * sw, sw, rvCvt G F rm a) | _, _ => none
  | 0x15 => match n, d with | some F, some G => some (2 * sw, sw, rvOdd G F a) | _, _ => none
  | 0x1D => if sw = 16 then some (32, 16, rvCvt fp32 bf16 rm a) else none
  | _ => none

/-- The other source of a float operation. -/
def Core.vsrcF (k : Core) (F : IEEE) (w i : Nat) : Nat :=
  if rvF3 w = 1 then k.velem (rvRs1 w) k.sew i else unbox F (k.rf (rvRs1 w))

/-- Adds the elements of a float reduction, in ascending order (R211). -/
def vsumF (G : IEEE) (rm : Nat) (f : Nat → Nat) : List Nat → FRes → FRes
  | [], acc => acc
  | i :: is, acc => let r := rvAdd G rm acc.code (f i); vsumF G rm f is ⟨r.code, acc.flags ||| r.flags⟩

/-- Least or greatest element of a float reduction. -/
def vextF (G : IEEE) (mx : Bool) (f : Nat → Nat) : List Nat → FRes → FRes
  | [], acc => acc
  | i :: is, acc => let r := rvMinMax G mx acc.code (f i); vextF G mx f is ⟨r.code, acc.flags ||| r.flags⟩

/-- Finishes a float reduction. -/
def vreduceF (s : State) (k : Core) (len vd w : Nat) (r : FRes) : RvOut :=
  vreduce s k ((k.setVelem vd w 0 r.code).accrue r.flags) len vd

/-- VFUNARY0: the conversions, whose formats their own widths decide, so that SEW = 8 has some. -/
def execVcvt (s : State) (k : Core) (w len rm : Nat) : RvOut :=
  let sw := k.sew
  let l8 := lmul8 k.vtype
  let vd := rvRd w
  let vm := bit w 25
  match vcvt (rvRs1 w) sw rm 0 with
  | some (sws, dws, _) =>
    if regOk vd (l8 * dws / sw) && regOk (rvRs2 w) (l8 * sws / sw) && (vm || vd != 0) then
      vdone s (k.fput vd dws (k.active vm) (fun i =>
        ((vcvt (rvRs1 w) sw rm (k.velem (rvRs2 w) sws i)).map (fun x => x.2.2)).getD ⟨0, 0⟩)) len vd
        (groupRegs (l8 * dws / sw)) k.vm (4 + k.vm)
    else illegal
  | none => illegal

/-- OPFVV and OPFVF. -/
def execVopF (s : State) (k : Core) (w len : Nat) : RvOut :=
  let sw := k.sew
  match vfmt sw, (if 4 < k.frm then none else some k.frm) with
  | some F, some rm =>
    let f6 := bits w 26 6
    let vv := rvF3 w = 1
    let vm := bit w 25
    let vd := rvRd w
    let v1 := rvRs1 w
    let v2 := rvRs2 w
    let l8 := lmul8 k.vtype
    let act := k.active vm
    let a := fun i => k.velem v2 sw i
    let b := fun i => k.vsrcF F w i
    let one := regOk vd l8 && regOk v2 l8 && (!vv || regOk v1 l8) && (vm || vd != 0)
    let long := fun (k1 : Core) => vdone s k1 len vd k.vm (20 * k.vm) (20 * k.vm + 4)
    match f6 with
    | 0x01 | 0x03 => if vv then vreduceF s k len vd sw (vsumF F rm a act ⟨k.velem v1 sw 0, 0⟩) else illegal
    | 0x05 => if vv then vreduceF s k len vd sw (vextF F false a act ⟨k.velem v1 sw 0, 0⟩) else illegal
    | 0x07 => if vv then vreduceF s k len vd sw (vextF F true a act ⟨k.velem v1 sw 0, 0⟩) else illegal
    | 0x31 | 0x33 => match vfmt (2 * sw) with
      | some G =>
        if vv then
          let r := vsumF G rm (fun i => (rvCvt F G rm (a i)).code) act ⟨k.velem v1 (2 * sw) 0, 0⟩
          vreduceF s k len vd (2 * sw) ⟨r.code, r.flags ||| nvIf (act.any (fun i => snan F (a i)))⟩
        else illegal
      | none => illegal
    | 0x0E => if vv ∨ !one then illegal
      else varith s k (k.vput vd sw act (fun i => if i = 0 then b 0 else a (i - 1))) len vd
    | 0x0F => if vv ∨ !one then illegal
      else varith s k (k.vput vd sw act (fun i => if i + 1 = k.vl then b 0 else a (i + 1))) len vd
    | 0x10 =>
      if vv then (if v1 = 0 ∧ vm then outF s { k with vstart := 0 } len vd (nanbox F (a 0)) 0 k.vm (4 + k.vm) else illegal)
      else if v2 = 0 ∧ vm then varith1 s k (if k.vl ≤ k.vstart then k else k.setVelem vd sw 0 (b 0)) len vd
      else illegal
    | 0x13 =>
      if !vv ∨ !one then illegal
      else match v1 with
        | 0x00 => long (k.fput vd sw act (fun i => rvSqrt F rm (a i)))
        | 0x04 => varith s k (k.fput vd sw act (fun i => rvRsqrt7 F (a i))) len vd
        | 0x05 => varith s k (k.fput vd sw act (fun i => rvRec7 F rm (a i))) len vd
        | 0x10 => varith s k (k.vput vd sw act (fun i => rvClass F (a i))) len vd
        | _ => illegal
    | 0x17 =>
      if vv then illegal
      else if vm then (if v2 = 0 then varith s k (k.vput vd sw k.body b) len vd else illegal)
      else if one then varith s k (k.vput vd sw k.body (fun i => if k.vmask 0 i then b i else a i)) len vd
      else illegal
    | _ => match vopF F f6 rm 0 0 0, vcmpF F f6 0 0, vfmt (2 * sw) with
      | some _, _, _ =>
        let k1 := k.fput vd sw act (fun i => (vopF F f6 rm (a i) (b i) (k.velem vd sw i)).getD ⟨0, 0⟩)
        if !one ∨ (vv ∧ (f6 = 0x21 ∨ f6 = 0x27)) then illegal
        else if f6 = 0x20 ∨ f6 = 0x21 then long k1
        else varith s k k1 len vd
      | _, some _, _ =>
        let r := fun i => (vcmpF F f6 (a i) (b i)).getD (false, 0)
        if (vv ∧ (f6 = 0x1D ∨ f6 = 0x1F)) ∨ !regOk v2 l8 ∨ (vv ∧ !regOk v1 l8) then illegal
        else varith1 s k ((k.mput vd act (fun i => (r i).1)).accrue (act.foldl (fun m i => m ||| (r i).2) 0)) len vd
      | _, _, some G =>
        let wide := f6 = 0x34 ∨ f6 = 0x36
        let up := fun x => rvCvt F G rm x
        let r := fun i =>
          let x : FRes := if wide then ⟨k.velem v2 (2 * sw) i, 0⟩ else up (a i)
          let y := up (b i)
          let z := (vopFw G f6 rm x.code y.code (k.velem vd (2 * sw) i)).getD ⟨0, 0⟩
          (⟨z.code, z.flags ||| x.flags ||| y.flags⟩ : FRes)
        if (vopFw G f6 rm 0 0 0).isSome && regOk vd (2 * l8) && regOk v2 (if wide then 2 * l8 else l8) && (vm || vd != 0) then
          varithW s k (k.fput vd (2 * sw) act r) len vd
        else illegal
      | _, _, _ => illegal
  | _, _ => illegal

/-! ## Vector dispatch -/

/-- A vector instruction with vl = 0 takes one cycle and writes nothing, unless it is illegal (R212). -/
def Core.voidAtZero (k : Core) (s : State) (len : Nat) (o : RvOut) : RvOut :=
  if k.vl ≠ 0 then o
  else match o with
    | .trap cause => if cause = causeIllegal then o else outN s { k with vstart := 0 } len 1
    | _ => outN s { k with vstart := 0 } len 1

/-- Carries out a vector instruction; `none` for the tile opcode. -/
def State.rvVector (s : State) (eg c : Nat) (k : Core) (w len t : Nat) : Option RvOut :=
  match w % 128 with
  | 0x07 => some (k.voidAtZero s len (s.execVload eg c k w len t))
  | 0x27 => some (k.voidAtZero s len (s.execVstore eg c k w len t))
  | 0x57 =>
    if rvF3 w = 7 then some (execVset s k w len)
    else if k.vill then some illegal
    else match rvF3 w with
      | 0 | 3 | 4 => some (k.voidAtZero s len (execVopI s k w len))
      | 2 | 6 => some (k.voidAtZero s len (execVopM s k w len))
      | 1 =>
        some (k.voidAtZero s len
          (if bits w 26 6 ≠ 0x12 then execVopF s k w len else if 4 < k.frm then illegal else execVcvt s k w len k.frm))
      | _ => some (k.voidAtZero s len (execVopF s k w len))
  | _ => none

end Sys2Proof.Machine
end

