-- ==== Sys2Proof/Machine/Basil.lean ====
section
/-!
DEFINITION. Basil cores (chapter 08): cluster programs, instruction fetch and issue (R212 to R218), and the tile extension (R219 to
R228). A core runs in its own time: `at_` is the first cycle in which its next instruction may issue.
-/

set_option Elab.async false

namespace Sys2Proof.Machine

open Sys2Proof

/-! ## Cluster programs (R217, R218) -/

/-- CORES of a CLRUN. -/
def clCores (b : List Byte) : List Nat := (List.range 16).filter (fun c => bit (num b 12 2) c)

/-- The checks of CLRUN (R217). -/
def clrunCheck (_ : State) (c : Cmd) : Verdict :=
  let b := c.bytes
  .badIf (num b 8 4 % 2 ≠ 0 || num b 12 2 = 0 || !allZero (sub b 14 2) || !allZero (sub b 24 8))

/-- A core as a cluster program finds it (R217): U mode at ENTRY, a0 = ARG, a1 = core number, sp at the top of its home bank, every
other register 0. Tickets, burst buffer and machine CSRs are not registers of the program and stay. -/
def Core.start (k : Core) (c entry arg t : Nat) : Core :=
  let k1 : Core := { Core.reset with running := true, pc := coreSram + entry, csrs := k.csrs, tickets := k.tickets,
                                     next := k.next, burst := k.burst, bfmt := k.bfmt, instret := k.instret, at_ := t, paid := t }
  ((k1.wx 2 (BitVec.ofNat 64 (coreSram + (c + 1) * 0x10000))).wx 10 (BitVec.ofNat 64 arg)).wx 11 (BitVec.ofNat 64 c)

/-- CLRUN (R217): starts the selected cores; their first instructions issue 16 cycles later. -/
def State.runClrun (s : State) (c : Cmd) : State :=
  let cores := clCores c.bytes
  let s1 := cores.foldl (fun t k =>
    t.setCore c.eg k ((t.coreOf c.eg k).start k (num c.bytes 8 4) (num c.bytes 16 8) (c.issued + 16))) s
  let s2 := s1.setFld F.egBstat_RUNNING c.eg (s1.fld F.egBstat_RUNNING c.eg ||| num c.bytes 12 2)
  s2.setClruns c.eg (s2.clruns c.eg ++ [⟨c, cores, St.ok, 0, false, c.issued⟩])

/-- CLRUN (R217): the cluster run command starts the selected Basil cores at ENTRY. -/
def execClrun (i : Issuer) (s : State) : Host.Outcome State Fault Refusal :=
  inRange (issuerOk i) (fun _ => .next (s.issueRow i (isOp 0x30) clrunCheck State.runClrun))

/-! ## Fetch (R216) -/

/-- Outcome of a fetch: the instruction (16-bit forms expanded), its length, the cycle it is there, and the fetch buffer. -/
inductive Fetch where
  | ok (w len t : Nat) (k : Core)
  | fault
  | ecc (addr : Nat)
  deriving DecidableEq, Repr

/-- The line at core address `l` as the fetch buffer holds it. -/
def Core.lineAt (k : Core) (l : Nat) : Option FetchLine := k.lines.find? (fun x => x.addr == l)

/-- The core with the line at core address `l` in its fetch buffer: read from SRAM, from cycle `t` on, where the buffer does not hold
it yet (R216). -/
def State.getLine (s : State) (eg c l t : Nat) (k : Core) : Core :=
  match k.lineAt l with
  | some _ => k
  | none =>
    let a := cluAddr eg l
    { k with lines := k.lines ++ [⟨l, t + bankWait eg c l t, s.read a 64, s.bad.filter (fun g => overlaps a 64 g (granuleLen g))⟩],
             portA := if (l - coreSram) / (coreSize eg / 16) = homeBank eg c then k.portA ++ [t] else k.portA }

/-- The cycle from `t` on in which the line at `l` is there. -/
def Core.lineThere (k : Core) (l t : Nat) : Nat := match k.lineAt l with | some x => max t x.there | none => t

/-- The core with the buffer's two sequential lines: the one that holds pc and the next. -/
def State.getLines (s : State) (eg c : Nat) (k : Core) : Core :=
  let l := k.pc / 64 * 64
  let had := (k.lineAt l).isSome
  let k0 := { k with lines := k.lines.filter (fun x => x.addr == l || x.addr == l + 64),
                     portA := k.portA.filter (fun t => decide (k.at_ ≤ t)) }
  let k1 := s.getLine eg c l k.at_ k0
  if inCoreSram eg (l + 64) 64 then s.getLine eg c (l + 64) (if had then k.at_ else k1.lineThere l k.at_ + 1) k1 else k1

/-- `n` bytes of the fetch buffer at a core address; the first uncorrectable granule among them comes with them. -/
def Core.fetched (k : Core) (eg a n : Nat) : Nat × Option Nat :=
  let byte := fun i => match k.lineAt ((a + i) / 64 * 64) with | some x => x.bytes.getD ((a + i) % 64) 0 | none => 0
  (leNat ((List.range n).map byte),
   (k.lines.flatMap (fun x => x.bad)).find? (fun g => overlaps (cluAddr eg a) n g (granuleLen g)))

/-- Fetches the instruction at pc, from the bytes of the fetch buffer (R216). -/
def State.fetch (s : State) (eg c : Nat) (k : Core) : Fetch :=
  if !inCoreSram eg k.pc 2 || !k.pmpOk eg k.pc 2 2 then .fault
  else
    let k1 := s.getLines eg c k
    let t := k1.lineThere (k.pc / 64 * 64) k.at_
    let h := k1.fetched eg k.pc 2
    match h.2 with
    | some g => .ecc g
    | none =>
      if h.1 % 4 ≠ 3 then .ok ((rvcExpand h.1).getD 0) 2 t k1
      else if !inCoreSram eg k.pc 4 || !k.pmpOk eg k.pc 4 2 then .fault
      else
        let w := k1.fetched eg k.pc 4
        match w.2 with
        | some g => .ecc g
        | none => .ok w.1 4 (k1.lineThere ((k.pc + 3) / 64 * 64) t) k1

/-! ## Issue (R212) -/

/-- Keys of a vector register group. -/
def vkeys (r n : Nat) : List Nat := (List.range n).map (fun i => 64 + r + i)

/-- How many registers a vector arithmetic instruction reads of vs1, vs2 and vd, 0 for a field that names no source register: a mask
and a scalar operand of a reduction are one register, wide operands twice a group, extended ones a fraction (log entry 7). -/
def vgroups (k : Core) (w : Nat) : Nat × Nat × Nat :=
  let f6 := bits w 26 6
  let g := lmul8 k.vtype
  let m := groupRegs g
  let m2 := groupRegs (2 * g)
  let f3 := rvF3 w
  let vm := bit w 25
  match f3 with
  | 0 | 3 | 4 =>
    (if f3 ≠ 0 then 0 else if f6 = 0x0E then groupRegs (g * 16 / k.sew) else if f6 = 0x30 ∨ f6 = 0x31 then 1 else m,
     if 0x2C ≤ f6 ∧ f6 ≤ 0x2F then m2 else if f6 = 0x27 ∧ f3 = 3 then rvRs1 w + 1 else if f6 = 0x17 ∧ vm then 0 else m,
     if f6 = 0x0E ∧ f3 ≠ 0 then m else 0)
  | 2 | 6 =>
    if f6 = 0x10 then (0, if f3 = 2 then 1 else 0, 0)
    else if f6 = 0x12 then (0, groupRegs (g / (if rvRs1 w < 4 then 8 else if rvRs1 w < 6 then 4 else 2)), 0)
    else if f6 = 0x14 then (0, if rvRs1 w = 0x11 then 0 else 1, 0)
    else if 0x18 ≤ f6 ∧ f6 ≤ 0x1F then (1, 1, 0)
    else
      (if f3 ≠ 2 then 0 else if f6 < 8 ∨ f6 = 0x17 then 1 else m,
       if 0x34 ≤ f6 ∧ f6 ≤ 0x37 then m2 else m,
       if 0x3C ≤ f6 then m2 else if 0x28 ≤ f6 ∧ f6 < 0x30 then m else 0)
  | _ =>
    if f6 = 0x10 then (0, if f3 = 1 then 1 else 0, 0)
    else if f6 = 0x12 then (0, if 0x10 ≤ rvRs1 w then m2 else m, 0)
    else
      (if f3 ≠ 1 ∨ f6 = 0x13 then 0
       else if f6 = 0x01 ∨ f6 = 0x03 ∨ f6 = 0x05 ∨ f6 = 0x07 ∨ f6 = 0x31 ∨ f6 = 0x33 then 1 else m,
       if f6 = 0x34 ∨ f6 = 0x36 then m2 else if f6 = 0x17 ∧ vm then 0 else m,
       if 0x3C ≤ f6 then m2 else if 0x28 ≤ f6 ∧ f6 < 0x30 then m else 0)

/-- The registers a vector load or store reads beside x[rs1]: its stride, its index group, and what it stores. -/
def vmemSources (k : Core) (w : Nat) : List Nat :=
  let g := lmul8 k.vtype
  let nf := bits w 29 3 + 1
  let mop := bits w 26 2
  let data :=
    if mop % 2 = 1 then nf * groupRegs g
    else if mop = 0 ∧ rvRs2 w = 8 then nf
    else if mop = 0 ∧ rvRs2 w = 11 then 1
    else nf * groupRegs (g * vwidth (rvF3 w) / k.sew)
  (if mop = 2 then [rvRs2 w] else if mop % 2 = 1 then vkeys (rvRs2 w) (groupRegs (g * vwidth (rvF3 w) / k.sew)) else []) ++
    (if w % 128 = 0x27 then vkeys (rvRd w) data else [])

/-- The ready keys of the registers an instruction reads. -/
def rvSources (k : Core) (w : Nat) : List Nat :=
  let x1 := rvRs1 w
  let x2 := rvRs2 w
  let mask := if bit w 25 then [] else [64]
  let f5 := bits w 27 5
  match w % 128 with
  | 0x67 | 0x03 | 0x13 | 0x1B => [x1]
  | 0x63 | 0x23 | 0x33 | 0x3B | 0x2F => [x1, x2]
  | 0x0B => if rvF3 w = 0 ∧ rvF7 w ≠ 0 then [x1] else [x1, x2]
  | 0x73 => if 0 < rvF3 w ∧ rvF3 w < 4 then [x1] else []
  | 0x43 | 0x47 | 0x4B | 0x4F => [32 + x1, 32 + x2, 32 + rvRs3 w]
  | 0x53 =>
    if f5 = 0x1A ∨ f5 = 0x1E then [x1]
    else if f5 = 0x08 ∨ f5 = 0x0B ∨ f5 = 0x18 ∨ f5 = 0x1C then [32 + x1]
    else [32 + x1, 32 + x2]
  | 0x07 | 0x27 =>
    if rvF3 w = 0 ∨ 5 ≤ rvF3 w then [x1] ++ mask ++ vmemSources k w
    else if w % 128 = 0x27 then [x1, 32 + x2] else [x1]
  | 0x57 =>
    if rvF3 w = 7 then (if bits w 30 2 = 2 then [x1, x2] else if bits w 30 2 = 3 then [] else [x1])
    else
      let n := vgroups k w
      (if rvF3 w = 4 ∨ rvF3 w = 6 then [x1] else if rvF3 w = 5 then [32 + x1] else []) ++ mask ++
        vkeys x1 n.1 ++ vkeys x2 n.2.1 ++ vkeys (rvRd w) n.2.2
  | _ => []

/-- Whether an instruction makes a data access. -/
def rvIsMem (w : Nat) : Bool :=
  match w % 128 with
  | 0x03 | 0x23 | 0x07 | 0x27 | 0x2F => true
  | 0x0B => (rvF3 w == 0 && rvF7 w < 2) || (rvF3 w == 2 && rvF7 w == 0)
  | _ => false

/-- The first cycle from `t` on that no fetch takes on port A (R216); at most the two lines of the buffer are in the way. -/
def afterFetch (port : List Nat) : Nat → Nat → Nat
  | 0, t => t
  | n + 1, t => if port.contains t then afterFetch port n (t + 1) else t

/-- The cycle in which an instruction that is there at `t` issues: in program order, its sources ready, its data access not in
a fetch cycle. -/
def Core.issueAt (k : Core) (w t : Nat) : Nat :=
  let u := (rvSources k w).foldl (fun m r => max m (Sparse.rd (fun _ => 0) r k.ready)) (max t k.at_)
  if rvIsMem w then afterFetch k.portA 4 u else u

/-- The core after an instruction that issued in cycle `t`: next issue, and the cycle in which its result may be used; x0 is always
ready. -/
def Core.retire (k : Core) (t : Nat) (d : RvDone) : Core :=
  { k with at_ := t + d.ival, instret := k.instret + 1,
           ready := (List.range d.n).foldl (fun r i =>
             if d.dst + i = 0 then r else Sparse.wr (fun _ => 0) (d.dst + i) (t + d.lat) r) k.ready }

/-- A trap: taken in machine mode by a service core; a core that runs a cluster program stops with its fault (R218, R230). -/
def State.coreTrap (s : State) (eg c : Nat) (k : Core) (cause : Nat) : State :=
  if k.mmode || decide (128 ≤ eg) then s.setCore eg c (k.trap cause)
  else (s.coreFault eg c cause k.pc).settleCluster eg

/-- A core meets an uncorrectable word: it stops with ECC_UNCORRECTED and the address (R218); a service core takes an access fault
(log entry 56). -/
def State.coreEcc (s : State) (eg c t a : Nat) : State :=
  if 128 ≤ eg then s.setCore eg c ((s.coreOf eg c).trap causeLoadAccess)
  else
    (s.stopCore eg c t (fun r =>
      { r with status := if r.status.toNat < St.ecc.toNat then St.ecc else r.status,
               addr := if r.addr = 0 then a else r.addr })).settleCluster eg

/-- Takes the outcome of an instruction of core `k` that issued in cycle `t`. The core's reservation is the instruction's own
result, or what a store left of it. -/
def State.commit (s : State) (eg c : Nat) (k : Core) (t : Nat) (o : RvOut) : State :=
  match o with
  | .done d =>
    let held := if d.k.resv = k.resv then (d.s.coreOf eg c).resv else d.k.resv
    d.s.setCore eg c ({ d.k with resv := held }.retire t d)
  | .trap cause => s.coreTrap eg c k cause
  | .trapAt s1 cause => s1.coreTrap eg c k cause
  | .ecc a => (s.noteUe a).coreEcc eg c t a

/-- Whether a word is an instruction of the tile extension, with its funct3 and funct7 (R219). -/
def isTile (f3 f7 w : Nat) : Bool := w % 128 == 0x0B && rvF3 w == f3 && rvF7 w == f7

/-- Whether a word is any instruction of the tile extension (R219). -/
def anyTile (w : Nat) : Bool :=
  isTile 0 0 w || isTile 0 1 w || isTile 0 2 w || isTile 0 3 w || isTile 0 4 w || isTile 1 0 w || isTile 1 1 w || isTile 1 2 w ||
    isTile 2 0 w || isTile 2 1 w

/-- A running core that waits for nothing issues its next instruction, if it is one that the row names: `go` gets the state and
the core with the instruction issued, its word, length and issue cycle. A fetch that fails belongs to the row of the base
instructions. A core that cannot issue such an instruction leaves the state as it is (log entry 3). -/
def State.runCore (s : State) (eg c : Nat) (base : Bool) (mine : Nat → Bool)
    (go : State → Core → Nat → Nat → Nat → State) : State :=
  let k := s.coreOf eg c
  if !k.running || k.wait != .none then s
  else match s.fetch eg c k with
    | .fault => if base then s.coreTrap eg c k 1 else s
    | .ecc a => if base then (s.noteUe a).coreEcc eg c k.at_ a else s
    | .ok w len t k1 =>
      if !mine w then s
      else
        let u := k1.issueAt w t
        let k2 := { k1 with at_ := u, paid := u + 1 }
        -- 39 pJ for each cycle that the core ran (R478)
        let s1 := if 128 ≤ eg then s else s.act ((s.egPart eg).getD 8) ((u + 1 - k.paid) * (39 * 256))
        go ((s1.until u).setCore eg c k2) k2 w len u

/-- Carries out a base or vector instruction (R210). -/
def State.coreInstr (eg c : Nat) (s : State) (k : Core) (w len t : Nat) : State :=
  s.commit eg c k t
    (match s.rvScalar eg c k w len t with
     | some o => o
     | none => (s.rvVector eg c k w len t).getD illegal)

/-- A service core takes its external interrupt: the request ends with it (R230; log entry 56). -/
def State.svcTakes (s : State) (eg c : Nat) : State :=
  ({ s with svcPend := s.svcPend - 2 ^ svcNumber eg c }).setCore eg c ((s.coreOf eg c).trap (2 ^ 63 + 11))

/-- BASIL_INSTRUCTION (R212): a core issues one base or vector RISC-V instruction with fixed timing. A service core, engine group
128 or 129 (R229), takes a due interrupt in its place; the tile extension is illegal there (log entry 56). -/
def execBasilInstruction (eg c : Nat) (s : State) : Host.Outcome State Fault Refusal :=
  inRange ((eg < 128 && c < 16) || (eg < 130 && c < 8)) (fun _ => .next
    (if (s.coreOf eg c).running && s.interrupted (s.coreOf eg c) eg c then s.svcTakes eg c
     else s.runCore eg c true (fun w => decide (128 ≤ eg) || !anyTile w) (State.coreInstr eg c)))

/-! ## Posting commands (R219 to R221) -/

/-- The job of the CLRUN that started a core's program (R439). -/
def State.coreJob (s : State) (eg c : Nat) : Nat :=
  match (s.clruns eg).find? (fun r => r.cores.contains c) with
  | some r => r.cmd.job
  | none => 0

/-- The cycle in which a command posted in cycle `t` enters the command path: one a cycle in each engine group (R220). -/
def State.postEntry (s : State) (eg t : Nat) : Nat :=
  let waiting := (List.range 16).flatMap (fun c => (s.posts eg c).map (fun d => d.since))
  let gone := (s.cmdsInFlight.filter (fun x => match x.issuer with | .core e _ => e == eg | .queue _ => false)).map (fun x => x.issued)
  (waiting ++ gone).foldl (fun m x => max m (x + 1)) t

/-- Posts a command into the command path: it takes the next ticket and joins the core's stream. With that ticket outstanding
the core waits for it (R220). -/
def State.postCmd (s : State) (eg c : Nat) (k : Core) (w len t : Nat) (b : List Byte) (ival : Nat) : State :=
  match k.tickets[k.next]? with
  | none => s
  | some tk =>
    if tk.busy then s.setCore eg c { k with wait := .post }
    else
      let d : Decoded :=
        { queue := 0, bytes := b, uid := s.cp.nextUid, units := b.length / 16, watch := [], early := [], squashed := false,
          span := [], reread := false, ringBad := none, misses := 0, ticket := k.next, job := s.coreJob eg c,
          since := s.postEntry eg t, waited := false, overrun := none }
      let s1 := s.setPosts eg c (s.posts eg c ++ [d])
      let s2 := { s1 with cp := { s1.cp with nextUid := s1.cp.nextUid + 1 } }
      let k1 := { k with tickets := k.tickets.set k.next { tk with busy := true, done := none }, next := (k.next + 1) % 8 }
      s2.commit eg c k t (outX s2 k1 len (rvRd w) (BitVec.ofNat 64 k.next) ival 1)

/-- Reads `n` bytes at a core address of cluster SRAM, then goes on with them. -/
def State.withBytes (s : State) (eg c : Nat) (k : Core) (t a n : Nat) (go : List Byte → State) : State :=
  if !inCoreSram eg a n then s.commit eg c k t (.trap causeLoadAccess)
  else match s.badIn (cluAddr eg a) n with
    | some x => s.commit eg c k t (.ecc x)
    | none => go (s.read (cluAddr eg a) n)

/-- TL.POST (R219): posts the command of rs2 bytes at rs1; any other length is an illegal instruction. -/
def State.tlPost (eg c : Nat) (s : State) (k : Core) (w len t : Nat) : State :=
  let n := (k.rx (rvRs2 w)).toNat
  if !([32, 64, 80, 96, 128].contains n) then s.commit eg c k t illegal
  else s.withBytes eg c k t (k.rx (rvRs1 w)).toNat n (fun b => s.postCmd eg c k w len t b (1 + ceilDiv n 64))

/-- TL_POST (R221): a core posts a command into its engine group's command path and receives a ticket. -/
def execTlPost (eg c : Nat) (s : State) : Host.Outcome State Fault Refusal :=
  inRange (eg < 128 && c < 16) (fun _ => .next (s.runCore eg c false (isTile 0 0) (State.tlPost eg c)))

/-- The header TL.DMA stands for: a DMA command of 80 bytes on the core's own engine group, nothing else set (R219, R239). -/
def dmaHeader (eg : Nat) : List Byte := leBytes 8 (0x08 + 5 * 2 ^ 8 + eg % 32 * 2 ^ 32) ++ leBytes 8 0

/-- TL.DMA (R219): posts the 64-byte DMA descriptor at rs1. -/
def State.tlDma (eg c : Nat) (s : State) (k : Core) (w len t : Nat) : State :=
  s.withBytes eg c k t (k.rx (rvRs1 w)).toNat 64 (fun b => s.postCmd eg c k w len t (dmaHeader eg ++ b) 2)

/-- TL_DMA (R219): a core posts a DMA descriptor and receives a ticket. -/
def execTlDma (eg c : Nat) (s : State) : Host.Outcome State Fault Refusal :=
  inRange (eg < 128 && c < 16) (fun _ => .next (s.runCore eg c false (isTile 0 1) (State.tlDma eg c)))

/-- The status TL.WAIT and TL.TEST return for a ticket that is not outstanding; for a number above 7, which no ticket has, a free
value. -/
def State.ticketStatus (s : State) (k : Core) (n : Nat) : State × Byte :=
  match (if n < 8 then k.tickets[n]? else none) with
  | some tk => (s, tk.last)
  | none => (s.draw, Config.freeByte s.free 0)

/-- Whether a ticket is outstanding. -/
def Core.ticketBusy (k : Core) (n : Nat) : Bool :=
  n < 8 && (match k.tickets[n]? with | some tk => tk.busy | none => false)

/-- TL.WAIT (R219, R220): waits until the ticket completes. -/
def State.tlWait (eg c : Nat) (s : State) (k : Core) (w len t : Nat) : State :=
  let n := (k.rx (rvRs1 w)).toNat
  if k.ticketBusy n then s.commit eg c k t (outN s { k with wait := .ticket n (rvRd w) } len 1)
  else
    let r := s.ticketStatus k n
    s.commit eg c k t (outX r.1 k len (rvRd w) (r.2.setWidth 64) 1 1)

/-- TL_WAIT (R219): a core waits until a ticket completes and receives its status. -/
def execTlWait (eg c : Nat) (s : State) : Host.Outcome State Fault Refusal :=
  inRange (eg < 128 && c < 16) (fun _ => .next (s.runCore eg c false (isTile 0 2) (State.tlWait eg c)))

/-- TL.TEST (R219): the status of a ticket, or 0xFF while it runs. -/
def State.tlTest (eg c : Nat) (s : State) (k : Core) (w len t : Nat) : State :=
  let n := (k.rx (rvRs1 w)).toNat
  let r := if k.ticketBusy n then (s, 0xFF#8) else s.ticketStatus k n
  s.commit eg c k t (outX r.1 k len (rvRd w) (r.2.setWidth 64) 1 2)

/-- TL_TEST (R219): a core reads a ticket's status, or 0xFF while it runs. -/
def execTlTest (eg c : Nat) (s : State) : Host.Outcome State Fault Refusal :=
  inRange (eg < 128 && c < 16) (fun _ => .next (s.runCore eg c false (isTile 0 3) (State.tlTest eg c)))

/-- What a core does when ticket `n` returns status `st`: a TL.WAIT on it returns 1 cycle later, a held post may issue. -/
def Core.ticketBack (k : Core) (n : Nat) (st : Byte) (t : Nat) : Core :=
  match k.wait with
  | .ticket m rd => if m = n then { (k.wx rd (st.setWidth 64)) with wait := .none, at_ := max k.at_ (t + 1) } else k
  | .post => if k.next = n then { k with wait := .none, at_ := max k.at_ t } else k
  | _ => k

/-- The status that has drained for a ticket returns (R220). -/
def State.returnTicket (s : State) (eg c n : Nat) : State :=
  let k := s.coreOf eg c
  match k.tickets[n]? with
  | none => s
  | some tk => match tk.done with
    | none => s
    | some st =>
      s.setCore eg c ({ k with tickets := k.tickets.set n ⟨false, none, st⟩ }.ticketBack n st s.cycle)

/-- TICKET_COMPLETION (R220): a posted command's status returns through its ticket. -/
def execTicketCompletion (eg c t : Nat) (s : State) : Host.Outcome State Fault Refusal :=
  inRange (eg < 128 && c < 16 && t < 8) (fun _ => .next (s.returnTicket eg c t))

/-- TL.END (R218, R219): ends the core's part with a status that R17 defines. -/
def State.tlEnd (eg c : Nat) (s : State) (k : Core) (w _len t : Nat) : State :=
  let st := (k.rx (rvRs1 w)).setWidth 8
  if !statusDefined st then s.commit eg c k t illegal
  else
    (s.stopCore eg c t (fun r => { r with status := if r.status.toNat < st.toNat then st else r.status })).settleCluster eg

/-- TL_END (R218): a core ends its part of a cluster program with a status code. -/
def execTlEnd (eg c : Nat) (s : State) : Host.Outcome State Fault Refusal :=
  inRange (eg < 128 && c < 16) (fun _ => .next (s.runCore eg c false (isTile 0 4) (State.tlEnd eg c)))

/-! ## Synchronisation objects and work counters (R222 to R228) -/

/-- The object an SO instruction names. -/
def soObjOf (k : Core) (w : Nat) : Nat := (k.rx (rvRs1 w)).toNat % 65536

/-- SO.OP (R219, R222, R254). -/
def State.coreSoOp (eg c : Nat) (s : State) (k : Core) (w len t : Nat) : State :=
  let o := soObjOf k w
  let op := (k.rx (rvRs2 w)).toNat % 256
  let v := BitVec.ofNat 32 ((k.rx (rvRs1 w)).toNat / 2 ^ 32)
  let n := objTime (eg / 32) o
  if !s.actsFor (.core eg c) (s.objPart o) || !s.objOpOk o op then
    s.commit eg c k t (.trap (if op = 0 ∨ op = 9 then causeLoadAccess else causeStoreAccess))
  else
    let r := s.objOp o op v (t + n)
    s.commit eg c k t (outX r.2 k len (rvRd w) (BitVec.ofNat 64 r.1) 1 n)

/-- SO_OP (R222): a core sends a synchronisation-object operation and receives its result. -/
def execSoOp (eg c : Nat) (s : State) : Host.Outcome State Fault Refusal :=
  inRange (eg < 128 && c < 16) (fun _ => .next (s.runCore eg c false (isTile 1 0) (State.coreSoOp eg c)))

/-- SO.WAIT (R219, R222): returns 0 once the object satisfies the condition. An object of another partition or in counter mode
is an access fault. -/
def State.coreSoWait (eg c : Nat) (s : State) (k : Core) (w len t : Nat) : State :=
  let o := soObjOf k w
  let x := (k.rx (rvRs1 w)).toNat
  let cond := bits x 16 2
  let comp := x / 2 ^ 32
  if !s.actsFor (.core eg c) (s.objPart o) || s.objCounter o then s.commit eg c k t (.trap causeLoadAccess)
  else if s.waitSat o cond comp then s.commit eg c k t (outX s k len (rvRd w) 0#64 1 (objTime (eg / 32) o))
  else s.commit eg c k t (outN s { k with wait := .obj o cond comp (rvRd w) t (k.rx (rvRs2 w)).toNat } len 1)

/-- SO_WAIT (R219): a core waits on a synchronisation-object condition with an optional cycle limit. -/
def execSoWait (eg c : Nat) (s : State) : Host.Outcome State Fault Refusal :=
  inRange (eg < 128 && c < 16) (fun _ => .next (s.runCore eg c false (isTile 1 1) (State.coreSoWait eg c)))

/-- An SO.WAIT whose cycle limit expires returns 1 (R219). -/
def State.soTimeout (s : State) (eg c : Nat) : State :=
  let k := s.coreOf eg c
  match k.wait with
  | .obj _ _ _ rd start limit =>
    if limit = 0 then s
    else (s.until (start + limit)).setCore eg c { (k.wx rd 1#64) with wait := .none, at_ := max k.at_ (start + limit) }
  | _ => s

/-- SO_WAIT_TIMEOUT (R219): an SO.WAIT whose cycle limit expires returns 1. -/
def execSoWaitTimeout (eg c : Nat) (s : State) : Host.Outcome State Fault Refusal :=
  inRange (eg < 128 && c < 16) (fun _ => .next (s.soTimeout eg c))

/-- What a claim of `n` indices of generation `gen` returns, and the object after it (R225). -/
def State.claim (s : State) (o gen n : Nat) : BitVec 64 × State :=
  let next := (s.reg .syncObj o).toNat
  if s.fld F.syncCfg_GEN o ≠ gen then (0x8000000000000011#64, s)
  else if s.objLimit o ≤ next then (0x8000000000000000#64, s)
  else
    let k := min n (s.objLimit o - next)
    (BitVec.ofNat 64 (next + k * 2 ^ 32), s.setReg .syncObj o (BitVec.ofNat 32 (next + k)))

/-- SO.CLAIM (R225). -/
def State.coreClaim (eg c : Nat) (s : State) (k : Core) (w len t : Nat) : State :=
  let o := soObjOf k w
  let n := (k.rx (rvRs2 w)).toNat % 65536
  if n = 0 || !s.objCounter o || !s.actsFor (.core eg c) (s.objPart o) then s.commit eg c k t (.trap causeStoreAccess)
  else
    let r := s.claim o (bits (k.rx (rvRs1 w)).toNat 16 16) n
    s.commit eg c k t (outX r.2 k len (rvRd w) r.1 1 (objTime (eg / 32) o))

/-- SO_CLAIM (R225): a work-counter claim grants indices when the generation matches. -/
def execSoClaim (eg c : Nat) (s : State) : Host.Outcome State Fault Refusal :=
  inRange (eg < 128 && c < 16) (fun _ => .next (s.runCore eg c false (isTile 1 2) (State.coreClaim eg c)))

/-! ## Burst decode (R223) -/

/-- TL.BLD (R223): loads and verifies one burst; a burst that fails stops the core with its address (R218). -/
def State.tlBld (eg c : Nat) (s : State) (k : Core) (w len t : Nat) : State :=
  let a := (k.rx (rvRs1 w)).toNat
  let fb := (k.rx (rvRs2 w)).toNat % 256
  s.withBytes eg c k t a 2048 (fun b =>
    if burstOk fb (s.tsCount ((s.egPart eg).getD 8)) b then
      s.commit eg c k t (outX s { k with burst := b, bfmt := BitVec.ofNat 8 fb } len (rvRd w) 0#64 40 40)
    else s.coreEcc eg c t (cluAddr eg a))

/-- TL_BLD (R223): a core loads and verifies one Alhel burst into its burst buffer. -/
def execTlBld (eg c : Nat) (s : State) : Host.Outcome State Fault Refusal :=
  inRange (eg < 128 && c < 16) (fun _ => .next (s.runCore eg c false (isTile 2 0) (State.tlBld eg c)))

/-- TL.BDEC (R223): decodes block rs1 of the burst buffer into vd, and vd + 1 for blocks of 32. A block the burst does not have, or
an empty buffer, gives free values in vd. -/
def State.tlBdec (eg c : Nat) (s : State) (k : Core) (w len t : Nat) : State :=
  let i := (k.rx (rvRs1 w)).toNat
  let vd := rvRd w
  let b16 := byteBlk k.bfmt.toNat
  let scl := byteScl k.bfmt.toNat
  let loaded := !k.burst.isEmpty
  let two := loaded && !b16
  if two && vd % 2 = 1 then s.commit eg c k t illegal
  else
    let n := if two then 2 else 1
    match byteFmt k.bfmt.toNat, (if loaded && i < burstN ((byteFmt k.bfmt.toNat).getD .fp32) b16 then some i else none) with
    | some f, some i =>
      let blk := (burstBlocks f b16 k.burst).getD i ⟨0, []⟩
      let v := pack 32 ((blockValues f scl (f32 (k.rx (rvRs2 w)).toNat) blk).map fp32.encode)
      let k1 := k.setVreg vd (v % 2 ^ 512)
      let k2 := if two then k1.setVreg (vd + 1) (v / 2 ^ 512) else k1
      let s1 := s.addCvt eg { Counts.none with bad := if f == .tern5 then blockBad b16 k.burst i false false else 0 }
      s1.commit eg c k t (.done ⟨s1, k2.step len, 2, 64 + vd, n, 6⟩)
    | _, _ =>
      let s1 := s.draw
      let k1 := (List.range n).foldl (fun x j =>
        x.setVreg (vd + j) (pack 32 ((List.range 16).map (fun e => Config.freeNat s.free (16 * j + e))))) k
      s1.commit eg c k t (.done ⟨s1, k1.step len, 2, 64 + vd, n, 6⟩)

/-- TL_BDEC (R223): a core decodes one block of its burst buffer into an FP32 vector register. -/
def execTlBdec (eg c : Nat) (s : State) : Host.Outcome State Fault Refusal :=
  inRange (eg < 128 && c < 16) (fun _ => .next (s.runCore eg c false (isTile 2 1) (State.tlBdec eg c)))

end Sys2Proof.Machine
end

