-- ==== Sys2Proof/Machine/LinkRx.lean ====
section
/-!
DEFINITION. Receiving link frames (R357 to R361, R364, R366): the checks of the link layer, what ACK, NAK and credits do, and the
delivery of routed frames to the switch or to a CE.
-/

set_option Elab.async false

namespace Sys2Proof.Machine

open Sys2Proof

/-- Whether `a` lies at or before `b` in the order of sequence numbers modulo 4,096. -/
def seqUpTo (a b : Nat) : Bool := decide ((b % 4096 + 4096 - a % 4096) % 4096 < 2048)

/-- A frame is discarded and NAK is due on the next frame sent (R359). -/
def State.nakDue (s : State) (k : Nat) : State := s.setPort k { s.port k with nak := true, nakDone := true }

/-- Counts a corrected frame: FECCORR counts units of 2^20 frames (R386). -/
def State.countFec (s : State) (k : Nat) : State :=
  let n := (s.port k).fec + 1
  if n < 2 ^ 20 then s.setPort k { s.port k with fec := n }
  else (s.setPort k { s.port k with fec := 0 }).count F.lnkErrcnt_FECCORR k 1

/-- Honours ACK and NAK of a frame whose CRC passed (R357 to R359): what ACK covers leaves the replay buffer, and NAK replays the
rest. -/
def State.honour (s : State) (k : Nat) (f : PortFields) : State :=
  let p := s.port k
  let rest := p.replay.filter (fun x => !seqUpTo x.seq f.ack)
  let moved := decide (rest.length < p.replay.length)
  let naks := if moved then 0 else p.naks
  let s1 := s.setPort k { p with replay := rest, naks := if f.nak then naks + 1 else naks }
  if f.nak && s1.linkState k == 2 then s1.replayAll k else s1

/-! ## Delivery (R361, R364, R366) -/

/-- One more credit is owed for a virtual channel. -/
def State.owe (s : State) (k vc : Nat) : State :=
  let p := s.port k
  s.setPort k { p with owed := Sparse.wr (fun _ => 0) vc (Sparse.rd (fun _ => 0) vc p.owed + 1) p.owed }

/-- The whole data message of a frame that carries LAST is landed by the CE that takes it (R364, R373). -/
def State.landWhole (s : State) (d : Nat) (m : RxMsg) : State :=
  (s.landMessage (s.ceFor d m.head) ⟨m.head, m.dpart, none⟩ m.data).settleCe

/-- A HEAD frame opens a message (R366). -/
def State.landHead (s : State) (k : Nat) (f : Frame) : State :=
  let d := k % 2
  let m : RxMsg := ⟨k, f.vc, f.mid, f.dpart, CtlMsg.of f.payload, []⟩
  if f.last then s.landWhole d m
  else s.setCe d { s.ceOf d with rx := m :: (s.ceOf d).rx }

/-- A DATA frame continues the message of its port, virtual channel and MID; one with no open message is dropped. -/
def State.landData (s : State) (k : Nat) (f : Frame) : State :=
  let d := k % 2
  let mine := fun (m : RxMsg) => m.port == k && m.vc == f.vc && m.mid == f.mid
  match (s.ceOf d).rx.find? mine with
  | none => s
  | some m =>
    let m1 := { m with data := m.data ++ f.payload.take (f.vbytes + 1) }
    let rest := (s.ceOf d).rx.erase m
    if f.last then (s.setCe d { s.ceOf d with rx := rest }).landWhole d m1
    else s.setCe d { s.ceOf d with rx := m1 :: rest }

/-- A routed frame that a port accepted: through traffic waits in the ingress buffer, and a frame for this device lands on the
port's I/O die (R361, R362, R364). Frames of VC 6 carry Sage's traffic and end there (log entry 23). -/
def State.deliver (s : State) (k : Nat) (f : Frame) : State :=
  if f.dest ≠ s.ownCoord then s.setPort k { s.port k with buf := (s.port k).buf ++ [f] }
  else
    let s1 := s.owe k f.vc
    if f.vc = 6 then s1
    else if f.typ = tyHead then s1.landHead k f
    else if f.typ = tyData then s1.landData k f
    else (s1.pushMsg (k % 2) ⟨CtlMsg.of f.payload, f.dpart, none⟩).settleCe

/-- A replayable frame in order is accepted: its credits come back, and it is delivered if it is routed (R357, R359, R361). -/
def State.acceptFrame (s : State) (k : Nat) (f : Frame) (h : PortFields) : State :=
  let p := s.port k
  let s1 := s.setPort k { p with
    rxSeq := h.seq, nakDone := false
    credit := Sparse.wr (fun _ => 0) h.crvc (Sparse.rd (fun _ => 0) h.crvc p.credit + h.crcnt) p.credit }
  if routed f.typ then s1.deliver k f else s1

/-- What the sequence number of a replayable frame decides (R359). -/
def State.sequence (s : State) (k : Nat) (f : Frame) (h : PortFields) : State :=
  let p := s.port k
  if h.seq = (p.rxSeq + 1) % 4096 then s.acceptFrame k f h
  else if seqUpTo h.seq p.rxSeq || p.nakDone then s
  else s.nakDue k

/-- A TRAIN frame during training reports the far end (R349, R352; log entry 22): SYS_COORD in bytes 0 to 3, the port in byte 4. -/
def State.rxTrain (s : State) (k : Nat) (f : Frame) : State :=
  let st := s.linkState k
  if st ≠ 1 ∧ st ≠ 3 then s
  else s.setPort k { s.port k with stage := 4, nbr := some (num f.payload 0 4 % 2 ^ 24 + num f.payload 4 1 % 16 * 2 ^ 24) }

/-- A frame of type `typ` received at port `k` (R357, R359). A good frame of another type belongs to another command; one of a reserved
type is an error, whichever command brings it. -/
def State.rxFrame (s : State) (k typ : Nat) (raw : List Byte) : State :=
  let st := s.linkState k
  match parseFrame raw with
  | none => if st = 2 then (s.nakDue k).linkAnswer k false else s
  | some (f, h, fixed) =>
    if f.typ ≠ typ ∧ !typReserved f.typ then s
    else
      let s1 := if fixed then s.countFec k else s
      let was := (s1.port k).rxSeq
      -- ACK and NAK count on every frame whose CRC passes, of whatever type
      let s2 := s1.honour k h
      if typReserved f.typ then (if st = 2 then (s2.nakDue k).linkAnswer k false else s2)
      else if typ = tyTrain then s2.rxTrain k f
      else if st ≠ 2 then s2
      else
        let s3 := if replayable typ then s2.sequence k f h else s2
        s3.linkAnswer k ((s3.port k).rxSeq != was)

/-- DATA_FRAME (R359): a received DATA frame is checked, accepted in order and delivered, or discarded with a NAK. -/
def execDataFrame (k : Nat) (raw : List Byte) (s : State) : Host.Outcome State Fault Refusal :=
  inRange (k < 6) (fun _ => .next (s.rxFrame k tyData raw))

/-- HEAD_FRAME (R366): a received HEAD frame opens a PUT, QPUT or CDATA message. -/
def execHeadFrame (k : Nat) (raw : List Byte) (s : State) : Host.Outcome State Fault Refusal :=
  inRange (k < 6) (fun _ => .next (s.rxFrame k tyHead raw))

/-- CTRL_FRAME (R366): a received CTRL frame carries a one-frame control message. -/
def execCtrlFrame (k : Nat) (raw : List Byte) (s : State) : Host.Outcome State Fault Refusal :=
  inRange (k < 6) (fun _ => .next (s.rxFrame k tyCtrl raw))

/-- ALIGN_FRAME (R357): an ALIGN frame carries its fixed pattern; only ACK and NAK of it act. -/
def execAlignFrame (k : Nat) (raw : List Byte) (s : State) : Host.Outcome State Fault Refusal :=
  inRange (k < 6) (fun _ => .next (s.rxFrame k tyAlign raw))

/-- TRAIN_FRAME (R349, R352): a TRAIN frame outside link up carries training data. -/
def execTrainFrame (k : Nat) (raw : List Byte) (s : State) : Host.Outcome State Fault Refusal :=
  inRange (k < 6) (fun _ => .next (s.rxFrame k tyTrain raw))

/-- CREDIT_FRAME (R361): a CREDIT frame accepted in order returns credits. -/
def execCreditFrame (k : Nat) (raw : List Byte) (s : State) : Host.Outcome State Fault Refusal :=
  inRange (k < 6) (fun _ => .next (s.rxFrame k tyCredit raw))

/-- IDLE_FRAME (R357): an IDLE frame carries ACK and NAK. -/
def execIdleFrame (k : Nat) (raw : List Byte) (s : State) : Host.Outcome State Fault Refusal :=
  inRange (k < 6) (fun _ => .next (s.rxFrame k 0 raw))

end Sys2Proof.Machine
end

