-- ==== Sys2Proof/Machine/Mgmt.lean ====
section
/-!
DEFINITION. The management bus: register accesses that Sage performs, the change between SMBus and I3C, and the Alert Response Address
(R564 to R566). The bus is up from stage 1 of a boot attempt on (R517).
-/

set_option Elab.async false

namespace Sys2Proof.Machine

open Sys2Proof

/-- Replaces the bus state. -/
def State.setMgmt (s : State) (m : Mgmt) : State := { s with mgmt := m }

/-- Whether a transaction is acted on: the bus is up, and in SMBus mode its PEC holds (R565). -/
def State.mgmtHeard (s : State) (pecOk : Bool) : Bool := s.sage.rom && (pecOk || s.mgmt.i3c.isSome)

/-- Brings the access in progress up to date: it has ended after 100 us, and may have ended before; the state then shows it (R566; log
entry 41). -/
def State.mgmtSettle (s : State) : State :=
  match s.mgmt.limit with
  | none => s
  | some t =>
    if t ≤ s.tick ∨ Config.freeNat s.free 0 % 2 = 0 then s.draw.setMgmt { s.mgmt with limit := none } else s.draw

/-- Starts an access whose result is given; it ends within 100 us, 2,500 ticks (R566). -/
def State.mgmtStart (s : State) (stat : Byte) (data : Word) : State :=
  s.setMgmt { s.mgmt with limit := some (s.tick + 2500), stat := stat, data := data }

/-- Whether the bus may read an offset: the CAP, SYS, PWR, CLK, BOOT and SEC blocks (R543, R566), at a 4-byte boundary (R544). -/
def mgmtReads (off : Nat) : Bool := decide (off < 0x40000) && off % 4 == 0

/-- Whether the bus may write an offset: BOOT_CTL, BOOT_HADDR_LO and BOOT_HADDR_HI (R566). -/
def mgmtWrites (off : Nat) : Bool :=
  match regAt off with
  | some (.bootCtl, _) | some (.bootHaddrLo, _) | some (.bootHaddrHi, _) => true
  | _ => false

/-- Command 0x10. A write gives no data, and the manual does not say what the result's data bytes then hold (log entry 41). -/
def State.mgmtWrite (s0 : State) (off : Nat) (v : Word) : State :=
  let s := s0.mgmtSettle
  if s.mgmt.limit.isSome then s
  else
    let data := Config.freeWord s.free 0
    if mgmtWrites off then (s.draw.mgmtStart 0x00#8 data).regWrite .sage off v else s.draw.mgmtStart 0x01#8 data

/-- MGMT_WRITE (R566): management-bus command 0x10 writes one permitted register. -/
def execMgmtWrite (offset : Nat) (v : Word) (pecOk : Bool) (s : State) : Host.Outcome State Fault Refusal :=
  .next (if s.mgmtHeard pecOk then s.mgmtWrite offset v else s)

/-- Command 0x11: Sage reads the register as a requester of row 8 of R257. -/
def State.mgmtRead (s0 : State) (off : Nat) : State :=
  let s := s0.mgmtSettle
  if s.mgmt.limit.isSome then s
  else if mgmtReads off then
    let t := s.regRead .sage off
    { t with resp := s.resp }.mgmtStart 0x00#8 (BitVec.ofNat 32 (leNat t.resp))
  else s.mgmtStart 0x01#8 0#32

/-- MGMT_READ_START (R566): management-bus command 0x11 starts a register read. -/
def execMgmtReadStart (offset : Nat) (pecOk : Bool) (s : State) : Host.Outcome State Fault Refusal :=
  .next (if s.mgmtHeard pecOk then s.mgmtRead offset else s)

/-- Command 0x12: STATUS and data of the last access, or 0x02 and zeros while it is pending. -/
def State.mgmtResult (s0 : State) : State :=
  let s := s0.mgmtSettle
  s.send (.mgmt (if s.mgmt.limit.isSome then [0x02#8, 0x00#8, 0x00#8, 0x00#8, 0x00#8] else s.mgmt.stat :: leBytes 4 s.mgmt.data.toNat))

/-- MGMT_READ_RESULT (R566): management-bus command 0x12 returns the status and data of the last access. -/
def execMgmtReadResult (s : State) : Host.Outcome State Fault Refusal := .next (if s.sage.rom then s.mgmtResult else s)

/-- SETDASA (R565): an I3C dynamic address assignment makes the module an I3C target; a target that has an address keeps it. -/
def execSetdasa (addr : Nat) (s : State) : Host.Outcome State Fault Refusal :=
  .next (if s.sage.rom && s.mgmt.i3c.isNone then s.setMgmt { s.mgmt with i3c := some (addr % 128) } else s)

/-- RSTDAA (R565): returns the module to SMBus. -/
def execRstdaa (s : State) : Host.Outcome State Fault Refusal :=
  .next (if s.sage.rom then s.setMgmt { s.mgmt with i3c := none } else s)

/-- Whether a condition of ALERT_N of the module's own is pending (R564). -/
def State.alertPending (s : State) : Bool := s.sage.failed || s.sage.critical || s.flag F.pwrStat_STUCK 0

/-- The answer to the Alert Response Address: the static address, whose byte's lowest bit SMBus leaves open. -/
def State.alertAnswer (s : State) : State :=
  s.draw.send (.mgmt [BitVec.ofNat 8 (2 * (0x48 + s.mgmt.strap) + Config.freeNat s.free 0 % 2)])

/-- ALERT_RESPONSE (R564): Sage answers the SMBus Alert Response Address only while its own condition is pending. -/
def execAlertResponse (s : State) : Host.Outcome State Fault Refusal :=
  .next (if s.sage.rom && s.mgmt.i3c.isNone && s.alertPending then s.alertAnswer else s)

end Sys2Proof.Machine
end

