-- ==== Sys2Proof/Machine/Update.lean ====
section
/-!
DEFINITION. UPDATE (chapter 17): the program record, its operations, scalars and schedules, the freeze mask, the gate and the step
record.
-/

set_option Elab.async false

namespace Sys2Proof.Machine

open Sys2Proof

/-- The fields of UPDATE (R460). -/
structure Upd where
  p      : Nat
  g      : Nat
  m      : Nat
  v      : Nat
  mask   : Nat
  prog   : Nat
  scal   : Nat
  firstW : Nat
  countW : Nat
  pf     : Nat
  gf     : Nat
  sf     : Nat
  ctl    : Nat
  gate   : Nat
  step   : Nat
  srec   : Nat
  seed   : Nat
  bad    : Bool      -- a reserved byte is set
  deriving DecidableEq, Repr

/-- Reads the fields. -/
def Upd.of (b : List Byte) : Upd :=
  { p := num b 8 8, g := num b 16 8, m := num b 24 8, v := num b 32 8, mask := num b 40 8, prog := num b 48 8, scal := scalarAddr b,
    firstW := num b 64 4, countW := num b 68 4, pf := num b 72 1, gf := num b 73 1, sf := num b 74 1, ctl := num b 75 1,
    gate := num b 76 2, step := num b 80 8, srec := num b 88 8, seed := num b 96 8,
    bad := !allZero (sub b 78 2) || !allZero (sub b 108 4) || num b 56 8 % 64 != 0 }

/-- The wide format a format byte names (R39). -/
def updFmt (b : Nat) : Fmt := (Fmt.ofCode (b % 16)).getD .fp32

/-- Whether a format byte names FP32, BF16 or FP16, with SR where it may. -/
def updFmtOk (b : Nat) (sr : Bool) : Bool :=
  (match Fmt.ofCode (b % 16) with | some f => f.wide | none => false) && decide (b < if sr then 32 else 16)

/-- One instruction of a program (R464). -/
structure UInst where
  op : Nat
  d  : Nat
  a  : Nat
  b  : Nat
  c  : Nat
  deriving DecidableEq, Repr

/-- Reads an instruction word. -/
def UInst.of (w : Nat) : UInst := ⟨bits w 0 5, bits w 5 3, bits w 8 5, bits w 13 5, bits w 18 5⟩

/-- Operands an operation uses: 1, 2 or 3 (R465). -/
def uArity (op : Nat) : Nat :=
  if op = 4 ∨ op = 12 then 3 else if op = 1 ∨ op = 2 ∨ op = 3 ∨ op = 5 ∨ op = 7 ∨ op = 8 then 2 else 1

/-- Whether an instruction word is defined: OP, operand codes, unused operands 0, top bits 0 (R464, R465). -/
def uWordOk (w : Nat) : Bool :=
  let i := UInst.of w
  decide (w < 2 ^ 23) && decide (i.op ≤ 12) && decide (i.a ≤ 28) && decide (i.b ≤ 28) && decide (i.c ≤ 28) &&
    (i.b == 0 || decide (2 ≤ uArity i.op)) && (i.c == 0 || uArity i.op == 3)

/-- The instructions of a program record. -/
def progInsts (r : List Byte) : List UInst := (List.range (num r 0 1)).map (fun j => UInst.of (num r (16 + 4 * j) 4))

/-- Whether a program record is well formed (R463, R473). -/
def progOk (r : List Byte) : Bool :=
  let n := num r 0 1
  decide (1 ≤ n) && decide (n ≤ 28) && decide (num r 1 1 ≤ 15) && decide (num r 2 1 ≤ 15) && decide (num r 3 1 ≤ 7) &&
    allZero (sub r 4 12) && (List.range n).all (fun j => uWordOk (num r (16 + 4 * j) 4))

/-- pow(beta, t) in FP32 with RNE: `n` bits of t to go (R466). -/
def upow : Nat → Nat → FVal → FVal → FVal
  | 0, _, _, r => r
  | n + 1, t, b, r => upow n (t / 2) (mul32 b b) (if t % 2 = 1 then mul32 r b else r)

/-- The value of an operand code: slots, scalars, C1, C2, t, 0 and 1 (R464). -/
def uOperand (slots ks : List FVal) (c1 c2 t : FVal) (code : Nat) : FVal :=
  if code < 8 then slots.getD code FVal.zero
  else if code < 24 then ks.getD (code - 8) FVal.zero
  else if code = 24 then c1
  else if code = 25 then c2
  else if code = 26 then t
  else if code = 27 then FVal.zero
  else FVal.one

/-- The result of an operation (R465). -/
def uResult (op : Nat) (a b c : FVal) : FVal :=
  match op with
  | 0 => a
  | 1 => add32 a b
  | 2 => sub32 a b
  | 3 => mul32 a b
  | 4 => fma32 a b c
  | 5 => div32 a b
  | 6 => sqrt32 a
  | 7 => maxNan a b
  | 8 => minNan a b
  | 9 => a.abs
  | 10 => a.neg
  | 11 => if a.isNan || a.isZero then a else if a.sign then FVal.one.neg else FVal.one
  | _ => if FVal.zero.lt a then b else c

/-- Cost in cycles of an operation (R465). -/
def uCost (op : Nat) : Nat := if op = 5 ∨ op = 6 then 20 else 1

/-- What a program runs with, the same for every element. -/
structure UEnv where
  insts : List UInst
  ks    : List FVal
  c1    : FVal
  c2    : FVal
  t     : FVal
  deriving DecidableEq, Repr

/-- The environment of an UPDATE: scalars, C1 and C2 at step t (R464, R466, R468). -/
def UEnv.of (rcd scal : List Byte) (t : Nat) : UEnv :=
  let ks := (List.range 16).map (fun i => f32 (num scal (4 * i) 4))
  let c := fun (i : Nat) => fl32 (FVal.one.sub (upow 64 t (ks.getD i FVal.zero) FVal.one))
  ⟨progInsts rcd, ks, c (num rcd 1 1), c (num rcd 2 1), fl32 (FVal.ofNat t)⟩

/-- Runs the program on the slots of an element. -/
def UEnv.run (e : UEnv) (slots : List FVal) : List FVal :=
  e.insts.foldl (fun sl i =>
    let v := uOperand sl e.ks e.c1 e.c2 e.t
    sl.set i.d (uResult i.op (v i.a) (v i.b) (v i.c))) slots

/-- Reads element i of a tensor as FP32; an absent tensor gives +0. -/
def State.uLoad (s : State) (addr : Nat) (f : Fmt) (i : Nat) : FVal :=
  if addr = 0 then FVal.zero else f.decode (leNat (s.read (addr + i * f.bytes) f.bytes))

/-- What UPDATE has done so far. -/
structure URun where
  o       : Out
  frozen  : Nat
  written : Nat
  cvt     : Counts
  deriving DecidableEq, Repr

/-- The tensors an UPDATE writes: slot, address, format byte (R467). -/
def Upd.writes (u : Upd) (wb : Nat) : List (Nat × Nat × Nat) :=
  ([(0, u.p, u.pf), (2, u.m, u.sf), (3, u.v, u.sf)].zip [0, 1, 2]).filterMap (fun x =>
    if bit wb x.2 && x.1.2.1 != 0 then some x.1 else none)

/-- One element (R464, R467, R469): read, run, converted and written unless it is frozen. -/
def updElem (c : Cmd) (u : Upd) (e : UEnv) (wb : Nat) (undef : Bool) (z : URun) (i : Nat) : URun :=
  if z.o.fail.isSome then z
  else
    let s := z.o.s
    let pf := updFmt u.pf
    let gf := updFmt u.gf
    let sf := updFmt u.sf
    let here := [(u.p, pf), (u.g, gf), (u.m, sf), (u.v, sf)].filter (fun x => x.1 != 0)
    let bad := (if u.mask = 0 then none else s.badIn (u.mask + i / 8) 1).or
      (here.findSome? (fun x => s.badIn (x.1 + i * x.2.bytes) x.2.bytes))
    match bad with
    | some a => { z with o := z.o.stop (some (St.ecc, a)) }
    | none =>
      if u.mask ≠ 0 ∧ bit (s.byteAt (u.mask + i / 8)).toNat (i % 8) then { z with frozen := z.frozen + 1 }
      else
        let sl := e.run ([s.uLoad u.p pf i, s.uLoad u.g gf i, s.uLoad u.m sf i, s.uLoad u.v sf i] ++ List.replicate 4 FVal.zero)
        let out := (u.writes wb).map (fun (w : Nat × Nat × Nat) =>
          let f := updFmt w.2.2
          let r := convert f (if bit w.2.2 4 then .sr (srDraw u.seed i) else .rne) false (sl.getD w.1 FVal.zero)
          ((w.2.1 + i * f.bytes, leBytes f.bytes r.1), r.2))
        let o := out.foldl (fun (o : Out) x => o.put c undef x.1.1 x.1.2) z.o
        ⟨o, z.frozen, z.written + 1, out.foldl (fun n x => n.add x.2) z.cvt⟩

/-- The ranges of tensors: address and length for elements `first` to `first + n - 1`. -/
def Upd.ranges (u : Upd) (first n : Nat) : List (Nat × Nat) :=
  ([(u.p, (updFmt u.pf).bytes), (u.g, (updFmt u.gf).bytes), (u.m, (updFmt u.sf).bytes), (u.v, (updFmt u.sf).bytes)].filterMap (fun x =>
    if x.1 = 0 ∨ n = 0 then none else some (x.1 + first * x.2, n * x.2))) ++
  (if u.mask = 0 ∨ n = 0 then [] else [(u.mask + first / 8, (first + n - 1) / 8 - first / 8 + 1)])

/-- The ranges an UPDATE writes, its step record included. -/
def Upd.stores (u : Upd) (wb first n : Nat) : List (Nat × Nat) :=
  (u.writes wb).map (fun w => let k := (updFmt w.2.2).bytes; (w.2.1 + first * k, n * k)) ++
    (if bit u.ctl 1 then [(u.srec, 8)] else [])

/-- Whether another UPDATE in flight writes what this one writes: contents not defined by the manual (R473). -/
def State.updClash (s : State) (c : Cmd) (mine : List (Nat × Nat)) : Bool :=
  s.cmdsInFlight.any (fun d =>
      d.uid != c.uid && hdrOpcode d.bytes == 0x50 &&
      (let u := Upd.of d.bytes
       (u.stores (num (s.read u.prog 128) 3 1) (s.bound d.part u.firstW).get (s.bound d.part u.countW).get).any (fun y =>
         mine.any (fun x => decide (0 < x.2) && decide (0 < y.2) && overlaps x.1 x.2 y.1 y.2))))

/-- The highest of the outcomes at issue (R19). -/
def worstOf (l : List (Option (Byte × Nat))) : Option (Byte × Nat) :=
  l.foldl (fun m x => match m, x with
    | none, y => y
    | some a, some b => if a.1.toNat < b.1.toNat then some b else some a
    | some a, none => some a) none

/-- What the gate and the step record decide (R470, R471). -/
def State.updGate (s : State) (u : Upd) : Option (Byte × Nat) :=
  let err := BitVec.ofNat 8 (s.fld F.syncCfg_ERR u.gate)
  worstOf
    [ if bit u.ctl 0 && err != 0#8 then some (err, 0) else none,
      if bit u.ctl 1 && u.step != leNat (s.read u.srec 8) + 1 then some (St.stepMismatch, 0) else none ]

/-- The ranges an UPDATE reads at issue: program, scalars and step record. -/
def Upd.fixed (u : Upd) : List (Nat × Nat) := [(u.prog, 128), (u.scal, 64)] ++ (if bit u.ctl 1 then [(u.srec, 8)] else [])

/-- The first address outside the windows, or in a tier that may not be read or written (R303, R473). -/
def State.updRefused (s : State) (p : Nat) (u : Upd) (first n : Nat) : Option Nat :=
  ((u.fixed ++ u.ranges first n).findSome? (fun x => s.readRefused false p x.1 x.2)).or
    ((u.stores (num (s.read u.prog 128) 3 1) first n).findSome? (fun x => s.writeRefused p x.1 x.2))

/-- The first uncorrectable word of what is read at issue. -/
def State.updBad (s : State) (u : Upd) : Option Nat := u.fixed.findSome? (fun x => s.badIn x.1 x.2)

/-- The checks of UPDATE that make it malformed, and its bounds (R460, R463, R473). -/
def State.updateCheck (s : State) (c : Cmd) : Verdict :=
  let u := Upd.of c.bytes
  let p := c.part
  let bf := s.bound p u.firstW
  let bc := s.bound p u.countW
  let gateBad := bit u.ctl 0 && (decide (65535 < u.gate) || s.objPart u.gate != p || s.objCounter u.gate)
  let known := bf.known && bc.known
  let n := if known then bc.get else 0
  .first
    [ .badIf (u.bad || hdrRes c.bytes || !updFmtOk u.pf true || !updFmtOk u.gf false || !updFmtOk u.sf true || decide (3 < u.ctl) ||
        u.g == 0 || u.p == 0 || u.step == 0 || u.prog % 64 != 0 || gateBad),
      bf.verdict, bc.verdict,
      .badIf ((u.fixed ++ u.ranges bf.get n).any (fun x => decide (0 < x.2) && !inT0T1 x.1 x.2)),
      .badIf ((s.updRefused p u bf.get n).isNone && (s.updBad u).isNone && !progOk (s.read u.prog 128)) ]

/-- The elements of an UPDATE, its step record and its completion (R464 to R472). -/
def State.runElements (s : State) (c : Cmd) (u : Upd) (first n : Nat) : State :=
  let rcd := s.read u.prog 128
  let wb := num rcd 3 1
  let e := UEnv.of rcd (s.read u.scal 64) u.step
  let undef := s.updClash c (u.stores wb first n)
  let s0 := (u.ranges first n).foldl (fun t x => t.touchRead c x.1 x.2) s
  let z := (List.range n).foldl (fun z i => updElem c u e wb undef z (first + i)) ⟨⟨s0, none⟩, 0, 0, Counts.none⟩
  let o := if bit u.ctl 1 && n != 0 then z.o.put c undef u.srec (leBytes 8 u.step) else z.o
  let costs := e.insts.foldl (fun k i => k + uCost i.op) 0 + (u.ranges 0 1).length + (u.writes wb).length
  let s1 := (o.s.addCvt c.eg z.cvt).count F.trnFrozen_ELEMENTS c.eg z.frozen
  let s2 := if o.fail.isNone then s1.count F.trnStat_UPDATES c.eg 1 else s1
  (Out.mk s2 o.fail).finish c
    { Result.mk0 St.ok (64 + 96 + ceilDiv n 256 * costs + 16) with detail0 := z.frozen, detail1 := z.written, cvt := z.cvt.list }

/-- UPDATE (R470, R471, R473, R475): the highest of what windows, words and gate decide at issue ends it; else its elements run. -/
def State.runUpdate (s : State) (c : Cmd) : State :=
  let u := Upd.of c.bytes
  let first := (s.bound c.part u.firstW).get
  let n := (s.bound c.part u.countW).get
  let bad := s.updBad u
  let gate := s.updGate u
  match worstOf [(s.updRefused c.part u first n).map (fun a => (St.quota, a)), bad.map (fun a => (St.ecc, a)), gate] with
  | none => s.runElements c u first n
  | some x =>
    let s1 := if gate = some x then s.count F.trnStat_REFUSED c.eg 1 else s
    (Out.mk s1 (if x.1 = St.ecc ∧ bad.isSome then some x else none)).finish c (Result.at x.1 x.2 64)

/-- UPDATE (R460): the update command runs an update program on each parameter element after the gate and step checks. -/
def execUpdate (i : Issuer) (s : State) : Host.Outcome State Fault Refusal :=
  inRange (issuerOk i) (fun _ => .next (s.issueRow i (isOp 0x50) State.updateCheck State.runUpdate))

end Sys2Proof.Machine
end

