-- ==== Sys2Proof/Machine/Dispatch.lean ====
section
/-!
DEFINITION. One arm for each command: a direct call of its meaning.
-/

namespace Sys2Proof.Machine

open Sys2Proof

/-- The effect of a command on everything but the queue of waiting commands. -/
def exec (i : Instr) (s : State) : Host.Outcome State Fault Refusal :=
  match i with
  | .cpDecode q => Sys2Proof.Machine.execCpDecode q s
  | .nop iss => Sys2Proof.Machine.execNop iss s
  | .soop iss => Sys2Proof.Machine.execSoop iss s
  | .sowait iss => Sys2Proof.Machine.execSowait iss s
  | .sowaitSatisfied iss => Sys2Proof.Machine.execSowaitSatisfied iss s
  | .boundset iss => Sys2Proof.Machine.execBoundset iss s
  | .escalate iss => Sys2Proof.Machine.execEscalate iss s
  | .dmaCopy iss => Sys2Proof.Machine.execDmaCopy iss s
  | .dmaConvert iss => Sys2Proof.Machine.execDmaConvert iss s
  | .dmaAdd iss => Sys2Proof.Machine.execDmaAdd iss s
  | .dmaMax iss => Sys2Proof.Machine.execDmaMax iss s
  | .dmaMin iss => Sys2Proof.Machine.execDmaMin iss s
  | .atomicWriteback c => Sys2Proof.Machine.execAtomicWriteback c s
  | .dmaEncode iss => Sys2Proof.Machine.execDmaEncode iss s
  | .dmaDecode iss => Sys2Proof.Machine.execDmaDecode iss s
  | .tableBuild iss => Sys2Proof.Machine.execTableBuild iss s
  | .tableLoad iss => Sys2Proof.Machine.execTableLoad iss s
  | .matmul iss => Sys2Proof.Machine.execMatmul iss s
  | .teSlotGrant eg => Sys2Proof.Machine.execTeSlotGrant eg s
  | .teStep eg k => Sys2Proof.Machine.execTeStep eg k s
  | .tileDrain eg => Sys2Proof.Machine.execTileDrain eg s
  | .tload iss => Sys2Proof.Machine.execTload iss s
  | .sentinel iss => Sys2Proof.Machine.execSentinel iss s
  | .eval iss => Sys2Proof.Machine.execEval iss s
  | .gate iss => Sys2Proof.Machine.execGate iss s
  | .rmsnorm iss => Sys2Proof.Machine.execRmsnorm iss s
  | .softmax iss => Sys2Proof.Machine.execSoftmax iss s
  | .smrecomp iss => Sys2Proof.Machine.execSmrecomp iss s
  | .tblload iss => Sys2Proof.Machine.execTblload iss s
  | .patgen iss => Sys2Proof.Machine.execPatgen iss s
  | .appendDirect iss => Sys2Proof.Machine.execAppendDirect iss s
  | .appendStaged iss => Sys2Proof.Machine.execAppendStaged iss s
  | .attn iss => Sys2Proof.Machine.execAttn iss s
  | .conv iss => Sys2Proof.Machine.execConv iss s
  | .poolMax iss => Sys2Proof.Machine.execPoolMax iss s
  | .poolAvgv iss => Sys2Proof.Machine.execPoolAvgv iss s
  | .poolAvgf iss => Sys2Proof.Machine.execPoolAvgf iss s
  | .argmax iss => Sys2Proof.Machine.execArgmax iss s
  | .clrun iss => Sys2Proof.Machine.execClrun iss s
  | .send iss => Sys2Proof.Machine.execSend iss s
  | .qsend iss => Sys2Proof.Machine.execQsend iss s
  | .allreduce iss => Sys2Proof.Machine.execAllreduce iss s
  | .reducescatter iss => Sys2Proof.Machine.execReducescatter iss s
  | .allgather iss => Sys2Proof.Machine.execAllgather iss s
  | .reduce iss => Sys2Proof.Machine.execReduce iss s
  | .broadcast iss => Sys2Proof.Machine.execBroadcast iss s
  | .alltoall iss => Sys2Proof.Machine.execAlltoall iss s
  | .permute iss => Sys2Proof.Machine.execPermute iss s
  | .barrier iss => Sys2Proof.Machine.execBarrier iss s
  | .grpabort iss => Sys2Proof.Machine.execGrpabort iss s
  | .update iss => Sys2Proof.Machine.execUpdate iss s
  | .basilInstruction eg c => Sys2Proof.Machine.execBasilInstruction eg c s
  | .tlPost eg c => Sys2Proof.Machine.execTlPost eg c s
  | .tlDma eg c => Sys2Proof.Machine.execTlDma eg c s
  | .tlWait eg c => Sys2Proof.Machine.execTlWait eg c s
  | .ticketCompletion eg c t => Sys2Proof.Machine.execTicketCompletion eg c t s
  | .tlTest eg c => Sys2Proof.Machine.execTlTest eg c s
  | .tlEnd eg c => Sys2Proof.Machine.execTlEnd eg c s
  | .soOp eg c => Sys2Proof.Machine.execSoOp eg c s
  | .soWait eg c => Sys2Proof.Machine.execSoWait eg c s
  | .soWaitTimeout eg c => Sys2Proof.Machine.execSoWaitTimeout eg c s
  | .soClaim eg c => Sys2Proof.Machine.execSoClaim eg c s
  | .tlBld eg c => Sys2Proof.Machine.execTlBld eg c s
  | .tlBdec eg c => Sys2Proof.Machine.execTlBdec eg c s
  | .soRead who obj => Sys2Proof.Machine.execSoRead who obj s
  | .soSet who obj operand => Sys2Proof.Machine.execSoSet who obj operand s
  | .soAdd who obj operand => Sys2Proof.Machine.execSoAdd who obj operand s
  | .soMax who obj operand => Sys2Proof.Machine.execSoMax who obj operand s
  | .soSeterr who obj operand => Sys2Proof.Machine.execSoSeterr who obj operand s
  | .soClrerr who obj => Sys2Proof.Machine.execSoClrerr who obj s
  | .creset who obj operand => Sys2Proof.Machine.execCreset who obj operand s
  | .cread who obj => Sys2Proof.Machine.execCread who obj s
  | .completionDrain f e => Sys2Proof.Machine.execCompletionDrain f e s
  | .qDoorbell who q v => Sys2Proof.Machine.execQDoorbell who q v s
  | .qEnable who q v => Sys2Proof.Machine.execQEnable who q v s
  | .qResume who q v => Sys2Proof.Machine.execQResume who q v s
  | .qSkip who q v => Sys2Proof.Machine.execQSkip who q v s
  | .cheadWrite who q v => Sys2Proof.Machine.execCheadWrite who q v s
  | .cpWatchExpiry q => Sys2Proof.Machine.execCpWatchExpiry q s
  | .syncCfgWrite who obj v => Sys2Proof.Machine.execSyncCfgWrite who obj v s
  | .wheelEntryStart eg => Sys2Proof.Machine.execWheelEntryStart eg s
  | .jobSave who p j => Sys2Proof.Machine.execJobSave who p j s
  | .saveBegin eg j => Sys2Proof.Machine.execSaveBegin eg j s
  | .jobResume who p j => Sys2Proof.Machine.execJobResume who p j s
  | .jobStatsClear who p j => Sys2Proof.Machine.execJobStatsClear who p j s
  | .cpJobWrite who n v => Sys2Proof.Machine.execCpJobWrite who n v s
  | .cpWheelWrite who isLen n v => Sys2Proof.Machine.execCpWheelWrite who isLen n v s
  | .partmapWrite who v => Sys2Proof.Machine.execPartmapWrite who v s
  | .sysPartcfgWrite who p v => Sys2Proof.Machine.execSysPartcfgWrite who p v s
  | .memWindowWrite who win n v => Sys2Proof.Machine.execMemWindowWrite who win n v s
  | .memWheelWrite who n v => Sys2Proof.Machine.execMemWheelWrite who n v s
  | .memSlotStart c => Sys2Proof.Machine.execMemSlotStart c s
  | .memReadArrival c late ecc => Sys2Proof.Machine.execMemReadArrival c late ecc s
  | .dataFrame k raw => Sys2Proof.Machine.execDataFrame k raw s
  | .headFrame k raw => Sys2Proof.Machine.execHeadFrame k raw s
  | .ctrlFrame k raw => Sys2Proof.Machine.execCtrlFrame k raw s
  | .ready d => Sys2Proof.Machine.execReady d s
  | .grant d => Sys2Proof.Machine.execGrant d s
  | .landack d => Sys2Proof.Machine.execLandack d s
  | .reply d => Sys2Proof.Machine.execReply d s
  | .notice d => Sys2Proof.Machine.execNotice d s
  | .alignFrame k raw => Sys2Proof.Machine.execAlignFrame k raw s
  | .trainFrame k raw => Sys2Proof.Machine.execTrainFrame k raw s
  | .creditFrame k raw => Sys2Proof.Machine.execCreditFrame k raw s
  | .idleFrame k raw => Sys2Proof.Machine.execIdleFrame k raw s
  | .replayTimeout k => Sys2Proof.Machine.execReplayTimeout k s
  | .switchSlot k => Sys2Proof.Machine.execSwitchSlot k s
  | .linkRetrainTrigger k lockLost => Sys2Proof.Machine.execLinkRetrainTrigger k lockLost s
  | .linkTrainingDone k good => Sys2Proof.Machine.execLinkTrainingDone k good s
  | .trainingStageTimeout k => Sys2Proof.Machine.execTrainingStageTimeout k s
  | .linkTrainRetry k => Sys2Proof.Machine.execLinkTrainRetry k s
  | .lnkRetrain who n v => Sys2Proof.Machine.execLnkRetrain who n v s
  | .readyRetry d n => Sys2Proof.Machine.execReadyRetry d n s
  | .collWatch d n => Sys2Proof.Machine.execCollWatch d n s
  | .groupEnable who g => Sys2Proof.Machine.execGroupEnable who g s
  | .groupReset who g => Sys2Proof.Machine.execGroupReset who g s
  | .groupDisable who g => Sys2Proof.Machine.execGroupDisable who g s
  | .groupAbort who g => Sys2Proof.Machine.execGroupAbort who g s
  | .ethFrameReceive e raw => Sys2Proof.Machine.execEthFrameReceive e raw s
  | .arpRequest e => Sys2Proof.Machine.execArpRequest e s
  | .neighborSolicitation e => Sys2Proof.Machine.execNeighborSolicitation e s
  | .echoRequest e => Sys2Proof.Machine.execEchoRequest e s
  | .cookie e => Sys2Proof.Machine.execCookie e s
  | .init e => Sys2Proof.Machine.execInit e s
  | .resp e => Sys2Proof.Machine.execResp e s
  | .confirm e => Sys2Proof.Machine.execConfirm e s
  | .birsanData e => Sys2Proof.Machine.execBirsanData e s
  | .ack e => Sys2Proof.Machine.execAck e s
  | .close e => Sys2Proof.Machine.execClose e s
  | .birsanSend sid => Sys2Proof.Machine.execBirsanSend sid s
  | .ackDelayExpiry sid => Sys2Proof.Machine.execAckDelayExpiry sid s
  | .retransmissionTimeout sid psn => Sys2Proof.Machine.execRetransmissionTimeout sid psn s
  | .keepalive sid => Sys2Proof.Machine.execKeepalive sid s
  | .sessionIdleTimeout sid => Sys2Proof.Machine.execSessionIdleTimeout sid s
  | .handshakeTimeout sid => Sys2Proof.Machine.execHandshakeTimeout sid s
  | .cookieSecretChange => Sys2Proof.Machine.execCookieSecretChange s
  | .rekey sid => Sys2Proof.Machine.execRekey sid s
  | .oldKeyExpiry sid => Sys2Proof.Machine.execOldKeyExpiry sid s
  | .submit sid => Sys2Proof.Machine.execSubmit sid s
  | .cancel sid => Sys2Proof.Machine.execCancel sid s
  | .query sid => Sys2Proof.Machine.execQuery sid s
  | .requestPlacement cls => Sys2Proof.Machine.execRequestPlacement cls s
  | .requestComplete req status => Sys2Proof.Machine.execRequestComplete req status s
  | .sessionLostTimeout req => Sys2Proof.Machine.execSessionLostTimeout req s
  | .ethRetrain who n v => Sys2Proof.Machine.execEthRetrain who n v s
  | .ethLinkLoss e => Sys2Proof.Machine.execEthLinkLoss e s
  | .fenPdqtail who v => Sys2Proof.Machine.execFenPdqtail who v s
  | .fenEnable who v => Sys2Proof.Machine.execFenEnable who v s
  | .fenEncode => Sys2Proof.Machine.execFenEncode s
  | .fenDecode => Sys2Proof.Machine.execFenDecode s
  | .pictureComplete fcycles slotMisses => Sys2Proof.Machine.execPictureComplete fcycles slotMisses s
  | .energySample microjoules => Sys2Proof.Machine.execEnergySample microjoules s
  | .energyWindowEnd => Sys2Proof.Machine.execEnergyWindowEnd s
  | .fastLimiterReading watts => Sys2Proof.Machine.execFastLimiterReading watts s
  | .thermalSample temps => Sys2Proof.Machine.execThermalSample temps s
  | .clockSlewStep => Sys2Proof.Machine.execClockSlewStep s
  | .droopDetect => Sys2Proof.Machine.execDroopDetect s
  | .droopEnd => Sys2Proof.Machine.execDroopEnd s
  | .throttleNChange active => Sys2Proof.Machine.execThrottleNChange active s
  | .throttleHoldEnd => Sys2Proof.Machine.execThrottleHoldEnd s
  | .throttleStuck => Sys2Proof.Machine.execThrottleStuck s
  | .pwrCapWrite who v => Sys2Proof.Machine.execPwrCapWrite who v s
  | .pwrBudgetWrite who n v => Sys2Proof.Machine.execPwrBudgetWrite who n v s
  | .resetNAssert ns => Sys2Proof.Machine.execResetNAssert ns s
  | .resetNRelease => Sys2Proof.Machine.execResetNRelease s
  | .pwrgoodLow => Sys2Proof.Machine.execPwrgoodLow s
  | .pwrgoodHigh => Sys2Proof.Machine.execPwrgoodHigh s
  | .crstNAssert => Sys2Proof.Machine.execCrstNAssert s
  | .crstNRelease => Sys2Proof.Machine.execCrstNRelease s
  | .perstAssert d => Sys2Proof.Machine.execPerstAssert d s
  | .perstRelease d => Sys2Proof.Machine.execPerstRelease d s
  | .sageWatchdog => Sys2Proof.Machine.execSageWatchdog s
  | .inputPowerOn => Sys2Proof.Machine.execInputPowerOn s
  | .inputUndervoltage => Sys2Proof.Machine.execInputUndervoltage s
  | .inputOvervoltage => Sys2Proof.Machine.execInputOvervoltage s
  | .inputOvercurrent => Sys2Proof.Machine.execInputOvercurrent s
  | .powerStageOvertemp => Sys2Proof.Machine.execPowerStageOvertemp s
  | .presentNMate => Sys2Proof.Machine.execPresentNMate s
  | .serdesRefclkLoss k => Sys2Proof.Machine.execSerdesRefclkLoss k s
  | .pcieRefclkLoss d => Sys2Proof.Machine.execPcieRefclkLoss d s
  | .alwaysOnClockLoss => Sys2Proof.Machine.execAlwaysOnClockLoss s
  | .partitionSpring who p => Sys2Proof.Machine.execPartitionSpring who p s
  | .partitionClearingEnd p => Sys2Proof.Machine.execPartitionClearingEnd p s
  | .partitionAutumn who p => Sys2Proof.Machine.execPartitionAutumn who p s
  | .partitionDrained p => Sys2Proof.Machine.execPartitionDrained p s
  | .autumnLimitExpiry p => Sys2Proof.Machine.execAutumnLimitExpiry p s
  | .partitionReset who p => Sys2Proof.Machine.execPartitionReset who p s
  | .bootRom => Sys2Proof.Machine.execBootRom s
  | .bootHost => Sys2Proof.Machine.execBootHost s
  | .bootFlash => Sys2Proof.Machine.execBootFlash s
  | .bootIod failed => Sys2Proof.Machine.execBootIod failed s
  | .bootLinks => Sys2Proof.Machine.execBootLinks s
  | .bootHbm repairs => Sys2Proof.Machine.execBootHbm repairs s
  | .powerWave good => Sys2Proof.Machine.execPowerWave good s
  | .bootBroadcast good => Sys2Proof.Machine.execBootBroadcast good s
  | .bootSelftest failing => Sys2Proof.Machine.execBootSelftest failing s
  | .bootStageTimeout => Sys2Proof.Machine.execBootStageTimeout s
  | .bootBackoffExpiry => Sys2Proof.Machine.execBootBackoffExpiry s
  | .go who => Sys2Proof.Machine.execGo who s
  | .restart who => Sys2Proof.Machine.execRestart who s
  | .flashUpdate who => Sys2Proof.Machine.execFlashUpdate who s
  | .alertclr who => Sys2Proof.Machine.execAlertclr who s
  | .commitsvn who => Sys2Proof.Machine.execCommitsvn who s
  | .ownerprog who => Sys2Proof.Machine.execOwnerprog who s
  | .bar2Read who addr len => Sys2Proof.Machine.execBar2Read who addr len s
  | .bar2Write who addr data => Sys2Proof.Machine.execBar2Write who addr data s
  | .regWrite who offset v => Sys2Proof.Machine.execRegWrite who offset v s
  | .regReadLo who offset => Sys2Proof.Machine.execRegReadLo who offset s
  | .pciFnmapWrite who n v => Sys2Proof.Machine.execPciFnmapWrite who n v s
  | .flr d fn => Sys2Proof.Machine.execFlr d fn s
  | .d3hot d fn enter => Sys2Proof.Machine.execD3hot d fn enter s
  | .pcieLinkUp d speed width flit => Sys2Proof.Machine.execPcieLinkUp d speed width flit s
  | .getVersion d req => Sys2Proof.Machine.execGetVersion d req s
  | .getCapabilities d req => Sys2Proof.Machine.execGetCapabilities d req s
  | .negotiateAlgorithms d req => Sys2Proof.Machine.execNegotiateAlgorithms d req s
  | .getDigests d req => Sys2Proof.Machine.execGetDigests d req s
  | .getCertificate d req => Sys2Proof.Machine.execGetCertificate d req s
  | .challenge d req => Sys2Proof.Machine.execChallenge d req s
  | .getMeasurements d req => Sys2Proof.Machine.execGetMeasurements d req s
  | .vendorDefinedRequest d req => Sys2Proof.Machine.execVendorDefinedRequest d req s
  | .sysEvcfgEnable who n v => Sys2Proof.Machine.execSysEvcfgEnable who n v s
  | .evheadWrite who n v => Sys2Proof.Machine.execEvheadWrite who n v s
  | .mgmtWrite offset v pecOk => Sys2Proof.Machine.execMgmtWrite offset v pecOk s
  | .mgmtReadStart offset pecOk => Sys2Proof.Machine.execMgmtReadStart offset pecOk s
  | .mgmtReadResult => Sys2Proof.Machine.execMgmtReadResult s
  | .setdasa addr => Sys2Proof.Machine.execSetdasa addr s
  | .rstdaa => Sys2Proof.Machine.execRstdaa s
  | .alertResponse => Sys2Proof.Machine.execAlertResponse s
  | .teCvtclr who n => Sys2Proof.Machine.execTeCvtclr who n s
  | .teSpillclr who n => Sys2Proof.Machine.execTeSpillclr who n s
  | .egSentclr who n => Sys2Proof.Machine.execEgSentclr who n s
  | .sfuStatclr who n => Sys2Proof.Machine.execSfuStatclr who n s
  | .cpStatclr who n => Sys2Proof.Machine.execCpStatclr who n s
  | .memStatclr who n => Sys2Proof.Machine.execMemStatclr who n s
  | .cmpStatclr who n => Sys2Proof.Machine.execCmpStatclr who n s
  | .lnkStatclr who n => Sys2Proof.Machine.execLnkStatclr who n s
  | .ethDropclr who n => Sys2Proof.Machine.execEthDropclr who n s
  | .trnStatclr who n => Sys2Proof.Machine.execTrnStatclr who n s
  | .pwrStatclr who => Sys2Proof.Machine.execPwrStatclr who s
  | .sysDetclr who n => Sys2Proof.Machine.execSysDetclr who n s
  | .cpWstatclr who n => Sys2Proof.Machine.execCpWstatclr who n s
  | .errclr who n => Sys2Proof.Machine.execErrclr who n s
  | .crstNHoldEnd => Sys2Proof.Machine.execCrstNHoldEnd s
  | .serdesRefclkReturn k => Sys2Proof.Machine.execSerdesRefclkReturn k s
  | .alwaysOnClockReturn => Sys2Proof.Machine.execAlwaysOnClockReturn s
  | .ethPortUp e => Sys2Proof.Machine.execEthPortUp e s
  | .overcurrentRestart => Sys2Proof.Machine.execOvercurrentRestart s
  | .inputOvervoltageRecovery => Sys2Proof.Machine.execInputOvervoltageRecovery s
  | .vfEnable d v on => Sys2Proof.Machine.execVfEnable d v on s
  | .tenantTableRewrite sid isClass recs => Sys2Proof.Machine.execTenantTableRewrite sid isClass recs s

end Sys2Proof.Machine
end

