-- ==== Sys2Proof/WellFormed.lean ====
section
/-!
DEFINITION. Which commands are well formed: every unit that a command names exists (R21 and the rules each check cites).
-/

set_option Elab.async false

namespace Sys2Proof

/-- Queues 0 to 32,767 (R233). -/
def queueOk (q : Nat) : Bool := decide (q < 32768)

/-- HBM3E channels 0 to 191 (R290). -/
def channelOk (c : Nat) : Bool := decide (c < 192)

/-- Engine groups 0 to 127 (R22). -/
def egOk (eg : Nat) : Bool := decide (eg < 128)

/-- The at most four TE commands in flight on an engine group (R99). -/
def teEntryOk (eg k : Nat) : Bool := egOk eg && decide (k < 4)

/-- Cluster cores 0 to 15 of an engine group (R210). -/
def coreOk (eg c : Nat) : Bool := egOk eg && decide (c < 16)

/-- Tickets 0 to 7 of a core (R220). -/
def ticketOk (eg c t : Nat) : Bool := coreOk eg c && decide (t < 8)

/-- Synchronisation objects 0 to 65,535 (R253). -/
def objectOk (obj : Nat) : Bool := decide (obj < 65536)

/-- Entries 0 to 47 of the collector of a field (R261). -/
def collectorOk (f e : Nat) : Bool := decide (f < 4) && decide (e < 48)

/-- Partitions 0 to 7 (R436). -/
def partOk (p : Nat) : Bool := decide (p < 8)

/-- Jobs 0 to 7 of a partition (R439). -/
def jobOk (p j : Nat) : Bool := partOk p && decide (j < 8)

/-- A job on an engine group (R450). -/
def egJobOk (eg j : Nat) : Bool := egOk eg && decide (j < 8)

/-- Indexes 8p + j of the job registers (R459). -/
def jobIndexOk (n : Nat) : Bool := decide (n < 64)

/-- Words of CP_WLEN and CP_WHEEL (R459). -/
def wheelWordOk (isLen : Bool) (n : Nat) : Bool := decide (n < if isLen then 128 else 8192)

/-- Window registers of R302. -/
def windowOk (win : MemWindow) (n : Nat) : Bool := match win with | .t2 => partOk n | _ => decide (n < 32)

/-- Words of MEM_WHEEL: 32 for each of 216 controllers (R446). -/
def memWheelOk (n : Nat) : Bool := decide (n < 6912)

/-- Memory controllers: 192 channels and 24 LP5X controllers (R327). -/
def controllerOk (c : Nat) : Bool := decide (c < 216)

/-- Sources of read data: the controllers and the two T3 ports (R299). -/
def readSourceOk (c : Nat) : Bool := decide (c < 218)

/-- Torus ports 0 to 5 (R27). -/
def torusPortOk (k : Nat) : Bool := decide (k < 6)

/-- I/O dies, and the PCIe port on each (R26, R27). -/
def dieOk (d : Nat) : Bool := decide (d < 2)

/-- Groups 0 to 4,095 (R371). -/
def groupOk (g : Nat) : Bool := decide (g < 4096)

/-- Fields 0 to 3 (R22, R267). -/
def fieldOk (f : Nat) : Bool := decide (f < 4)

/-- Ethernet ports 0 to 3 (R27). -/
def ethPortOk (e : Nat) : Bool := decide (e < 4)

/-- PWR_BUDGET of eight partitions, and PWR_RESERVE as the ninth (R481). -/
def budgetOk (n : Nat) : Bool := decide (n < 9)

/-- The PF and eight VFs of a port (R536). -/
def functionOk (d fn : Nat) : Bool := dieOk d && decide (fn < 9)

/-- VFs 1 to 8 of a port (R536). -/
def vfOk (d v : Nat) : Bool := dieOk d && decide (1 ≤ v) && decide (v ≤ 8)

/-- Event rings 0 to 18 (R552). -/
def ringOk (n : Nat) : Bool := decide (n < 19)

/-- Coders 0 to 129 (R339). -/
def coderOk (n : Nat) : Bool := decide (n < 130)

/-- The engine group that a self-test names, if any (R525). -/
def failingOk (failing : Option Nat) : Bool := match failing with | some eg => egOk eg | none => true

/-- An issuer that exists: a queue, or a core's posted stream. -/
def Issuer.ok : Issuer → Bool
  | .queue n => queueOk n
  | .core eg c => coreOk eg c

/-- Whether every unit that a command names exists. -/
def Instr.wellFormed : Instr → Bool
  | .cpDecode q => queueOk q
  | .nop i => i.ok
  | .soop i => i.ok
  | .sowait i => i.ok
  | .sowaitSatisfied i => i.ok
  | .boundset i => i.ok
  | .escalate i => i.ok
  | .dmaCopy i => i.ok
  | .dmaConvert i => i.ok
  | .dmaAdd i => i.ok
  | .dmaMax i => i.ok
  | .dmaMin i => i.ok
  | .atomicWriteback c => channelOk c
  | .dmaEncode i => i.ok
  | .dmaDecode i => i.ok
  | .tableBuild i => i.ok
  | .tableLoad i => i.ok
  | .matmul i => i.ok
  | .teSlotGrant eg => egOk eg
  | .teStep eg k => teEntryOk eg k
  | .tileDrain eg => egOk eg
  | .tload i => i.ok
  | .sentinel i => i.ok
  | .eval i => i.ok
  | .gate i => i.ok
  | .rmsnorm i => i.ok
  | .softmax i => i.ok
  | .smrecomp i => i.ok
  | .tblload i => i.ok
  | .patgen i => i.ok
  | .appendDirect i => i.ok
  | .appendStaged i => i.ok
  | .attn i => i.ok
  | .conv i => i.ok
  | .poolMax i => i.ok
  | .poolAvgv i => i.ok
  | .poolAvgf i => i.ok
  | .argmax i => i.ok
  | .clrun i => i.ok
  | .send i => i.ok
  | .qsend i => i.ok
  | .allreduce i => i.ok
  | .reducescatter i => i.ok
  | .allgather i => i.ok
  | .reduce i => i.ok
  | .broadcast i => i.ok
  | .alltoall i => i.ok
  | .permute i => i.ok
  | .barrier i => i.ok
  | .grpabort i => i.ok
  | .update i => i.ok
  | .basilInstruction eg c => coreOk eg c || (decide (eg < 130) && decide (c < 8))
  | .tlPost eg c => coreOk eg c
  | .tlDma eg c => coreOk eg c
  | .tlWait eg c => coreOk eg c
  | .ticketCompletion eg c t => ticketOk eg c t
  | .tlTest eg c => coreOk eg c
  | .tlEnd eg c => coreOk eg c
  | .soOp eg c => coreOk eg c
  | .soWait eg c => coreOk eg c
  | .soWaitTimeout eg c => coreOk eg c
  | .soClaim eg c => coreOk eg c
  | .tlBld eg c => coreOk eg c
  | .tlBdec eg c => coreOk eg c
  | .soRead _ obj => objectOk obj
  | .soSet _ obj _ => objectOk obj
  | .soAdd _ obj _ => objectOk obj
  | .soMax _ obj _ => objectOk obj
  | .soSeterr _ obj _ => objectOk obj
  | .soClrerr _ obj => objectOk obj
  | .creset _ obj _ => objectOk obj
  | .cread _ obj => objectOk obj
  | .completionDrain f e => collectorOk f e
  | .qDoorbell _ q _ => queueOk q
  | .qEnable _ q _ => queueOk q
  | .qResume _ q _ => queueOk q
  | .qSkip _ q _ => queueOk q
  | .cheadWrite _ q _ => queueOk q
  | .cpWatchExpiry q => queueOk q
  | .syncCfgWrite _ obj _ => objectOk obj
  | .wheelEntryStart eg => egOk eg
  | .jobSave _ p j => jobOk p j
  | .saveBegin eg j => egJobOk eg j
  | .jobResume _ p j => jobOk p j
  | .jobStatsClear _ p j => jobOk p j
  | .cpJobWrite _ n _ => jobIndexOk n
  | .cpWheelWrite _ isLen n _ => wheelWordOk isLen n
  | .partmapWrite _ _ => true
  | .sysPartcfgWrite _ p _ => partOk p
  | .memWindowWrite _ win n _ => windowOk win n
  | .memWheelWrite _ n _ => memWheelOk n
  | .memSlotStart c => controllerOk c
  | .memReadArrival c _ _ => readSourceOk c
  | .dataFrame k _ => torusPortOk k
  | .headFrame k _ => torusPortOk k
  | .ctrlFrame k _ => torusPortOk k
  | .ready d => dieOk d
  | .grant d => dieOk d
  | .landack d => dieOk d
  | .reply d => dieOk d
  | .notice d => dieOk d
  | .alignFrame k _ => torusPortOk k
  | .trainFrame k _ => torusPortOk k
  | .creditFrame k _ => torusPortOk k
  | .idleFrame k _ => torusPortOk k
  | .replayTimeout k => torusPortOk k
  | .switchSlot k => torusPortOk k
  | .linkRetrainTrigger k _ => torusPortOk k
  | .linkTrainingDone k _ => torusPortOk k
  | .trainingStageTimeout k => torusPortOk k
  | .linkTrainRetry k => torusPortOk k
  | .lnkRetrain _ n _ => torusPortOk n
  | .readyRetry d _ => dieOk d
  | .collWatch d _ => dieOk d
  | .groupEnable _ g => groupOk g
  | .groupReset _ g => groupOk g
  | .groupDisable _ g => groupOk g
  | .groupAbort _ g => groupOk g
  | .ethFrameReceive e _ => ethPortOk e
  | .arpRequest e => ethPortOk e
  | .neighborSolicitation e => ethPortOk e
  | .echoRequest e => ethPortOk e
  | .cookie e => ethPortOk e
  | .init e => ethPortOk e
  | .resp e => ethPortOk e
  | .confirm e => ethPortOk e
  | .birsanData e => ethPortOk e
  | .ack e => ethPortOk e
  | .close e => ethPortOk e
  | .birsanSend _ => true
  | .ackDelayExpiry _ => true
  | .retransmissionTimeout _ _ => true
  | .keepalive _ => true
  | .sessionIdleTimeout _ => true
  | .handshakeTimeout _ => true
  | .cookieSecretChange => true
  | .rekey _ => true
  | .oldKeyExpiry _ => true
  | .submit _ => true
  | .cancel _ => true
  | .query _ => true
  | .requestPlacement _ => true
  | .requestComplete _ _ => true
  | .sessionLostTimeout _ => true
  | .ethRetrain _ n _ => ethPortOk n
  | .ethLinkLoss e => ethPortOk e
  | .fenPdqtail _ _ => true
  | .fenEnable _ _ => true
  | .fenEncode => true
  | .fenDecode => true
  | .pictureComplete _ _ => true
  | .energySample _ => true
  | .energyWindowEnd => true
  | .fastLimiterReading _ => true
  | .thermalSample _ => true
  | .clockSlewStep => true
  | .droopDetect => true
  | .droopEnd => true
  | .throttleNChange _ => true
  | .throttleHoldEnd => true
  | .throttleStuck => true
  | .pwrCapWrite _ _ => true
  | .pwrBudgetWrite _ n _ => budgetOk n
  | .resetNAssert _ => true
  | .resetNRelease => true
  | .pwrgoodLow => true
  | .pwrgoodHigh => true
  | .crstNAssert => true
  | .crstNRelease => true
  | .perstAssert d => dieOk d
  | .perstRelease d => dieOk d
  | .sageWatchdog => true
  | .inputPowerOn => true
  | .inputUndervoltage => true
  | .inputOvervoltage => true
  | .inputOvercurrent => true
  | .powerStageOvertemp => true
  | .presentNMate => true
  | .serdesRefclkLoss k => k < 10
  | .pcieRefclkLoss d => dieOk d
  | .alwaysOnClockLoss => true
  | .partitionSpring _ p => partOk p
  | .partitionClearingEnd p => partOk p
  | .partitionAutumn _ p => partOk p
  | .partitionDrained p => partOk p
  | .autumnLimitExpiry p => partOk p
  | .partitionReset _ p => partOk p
  | .bootRom => true
  | .bootHost => true
  | .bootFlash => true
  | .bootIod _ => true
  | .bootLinks => true
  | .bootHbm _ => true
  | .powerWave _ => true
  | .bootBroadcast _ => true
  | .bootSelftest failing => failingOk failing
  | .bootStageTimeout => true
  | .bootBackoffExpiry => true
  | .go _ => true
  | .restart _ => true
  | .flashUpdate _ => true
  | .alertclr _ => true
  | .commitsvn _ => true
  | .ownerprog _ => true
  | .bar2Read _ _ _ => true
  | .bar2Write _ _ _ => true
  | .regWrite _ _ _ => true
  | .regReadLo _ _ => true
  | .pciFnmapWrite _ n _ => dieOk n
  | .flr d fn => functionOk d fn
  | .d3hot d fn _ => functionOk d fn
  | .pcieLinkUp d _ _ _ => dieOk d
  | .getVersion d _ => dieOk d
  | .getCapabilities d _ => dieOk d
  | .negotiateAlgorithms d _ => dieOk d
  | .getDigests d _ => dieOk d
  | .getCertificate d _ => dieOk d
  | .challenge d _ => dieOk d
  | .getMeasurements d _ => dieOk d
  | .vendorDefinedRequest d _ => dieOk d
  | .sysEvcfgEnable _ n _ => ringOk n
  | .evheadWrite _ n _ => ringOk n
  | .mgmtWrite _ _ _ => true
  | .mgmtReadStart _ _ => true
  | .mgmtReadResult => true
  | .setdasa _ => true
  | .rstdaa => true
  | .alertResponse => true
  | .teCvtclr _ n => egOk n
  | .teSpillclr _ n => egOk n
  | .egSentclr _ n => egOk n
  | .sfuStatclr _ n => egOk n
  | .cpStatclr _ n => fieldOk n
  | .memStatclr _ n => controllerOk n
  | .cmpStatclr _ n => coderOk n
  | .lnkStatclr _ n => torusPortOk n
  | .ethDropclr _ n => ethPortOk n
  | .trnStatclr _ n => egOk n
  | .pwrStatclr _ => true
  | .sysDetclr _ n => partOk n
  | .cpWstatclr _ n => egOk n
  | .errclr _ n => dieOk n
  | .crstNHoldEnd => true
  | .serdesRefclkReturn k => k < 10
  | .alwaysOnClockReturn => true
  | .ethPortUp e => ethPortOk e
  | .overcurrentRestart => true
  | .inputOvervoltageRecovery => true
  | .vfEnable d v _ => vfOk d v
  | .tenantTableRewrite _ _ _ => true

end Sys2Proof
end

