-- ==== Sys2Proof/Safety.lean ====
section
/-!
DEFINITION. The terms in which statements about the block are made: what a command answers, who may write a register, when a
command issues, what stays as it was, and the canonical form that every step keeps.
-/

set_option Elab.async false

namespace Sys2Proof.Machine

open Sys2Proof

/-- The command runs at a state and leaves this next state. -/
abbrev Runs (c : Instr) (s t : State) : Prop := exec c s = .next t

/-- Whether a requester's write of a register goes on (R538 and the rules of the register's block). -/
abbrev Permits (s : State) (who : Requester) (n : RegName) (i : Nat) : Prop :=
  s.hostServed who = true ∧ s.mayWrite who n i = true

/-- Nothing but registers that `p` names has changed, and so no byte of memory, queue or unit. -/
def OnlyRegs (p : RegName → Nat → Prop) (s t : State) : Prop :=
  t = { s with regs := t.regs } ∧ ∀ n i, ¬ p n i → t.reg n i = s.reg n i

/-- Nothing but fields of one register has changed, and those fields are named by `fs`. -/
def OnlyFields (fs : List Fld) (n : RegName) (i : Nat) (s t : State) : Prop :=
  OnlyRegs (fun m j => m = n ∧ j = i) s t ∧
    ∀ g : Fld, g.reg = n → (∀ f ∈ fs, f.reg = n ∧ (g.lo + g.width ≤ f.lo ∨ f.lo + f.width ≤ g.lo)) → t.fld g i = s.fld g i

/-- The next command of an issuer is of the row's kind, may issue, and passes every check, once BOUNDSETs whose 8 cycles have passed are
in force: the conditions of R237, R238, R240, R297, R323, R443 and of the command's chapter. -/
structure Issues (s : State) (i : Issuer) (d : Decoded) (mine : List Byte → Bool) (check : State → Cmd → Verdict) : Prop where
  exists_ : issuerOk i = true
  next    : s.settleBounds.nextOf i = some d
  landed  : d.ringBad = none
  kind    : mine d.bytes = true
  ready   : s.settleBounds.ready i d = true
  unit    : s.settleBounds.unitWait i d = none
  header  : s.settleBounds.headerBad i d.bytes = false
  guard   : s.settleBounds.guardVerdict (s.settleBounds.issuerPart i) d.bytes = .go
  checks  : check s.settleBounds (s.settleBounds.mkCmd i d) = .go
  room    : ∀ a, s.settleBounds.queueFull (s.settleBounds.issuerPart i) a = false

/-- What a row does with a command that issues: the state in which it has issued, and the command as issued. -/
abbrev IssuesTo (c : Instr) (s : State) (i : Issuer) (d : Decoded) (run : State → Cmd → State) : Prop :=
  Runs c s (run (s.settleBounds.issue i d) (s.settleBounds.mkCmd i d))

/-- The next instruction of a core is of a tile row's kind and issues, in cycle `u`, with core `k` as it then is (R212, R216). -/
structure CoreIssues (s : State) (eg c : Nat) (mine : Nat → Bool) (w len u : Nat) (k : Core) : Prop where
  exists_ : eg < 128 ∧ c < 16
  running : (s.coreOf eg c).running = true
  free    : (s.coreOf eg c).wait = .none
  kind    : mine w = true
  fetched : ∃ t k1, s.fetch eg c (s.coreOf eg c) = .ok w len t k1 ∧ u = k1.issueAt w t ∧ k = { k1 with at_ := u, paid := u + 1 }

/-- The state in which a core has issued an instruction: its cycles are paid for and the clock stands at the issue (R478). -/
def State.coreStart (s : State) (eg c u : Nat) (k : Core) : State :=
  ((s.act ((s.egPart eg).getD 8) ((u + 1 - (s.coreOf eg c).paid) * (39 * 256))).until u).setCore eg c k

/-- An address that no host memory stands behind: device memory, or no memory at all. -/
abbrev OnDevice (a : Nat) : Prop := ∀ d, region a ≠ some (.t3 d)

/-- Every byte of device memory reads as before. -/
def KeepsBytes (s t : State) : Prop := ∀ a, OnDevice a → t.byteAt a = s.byteAt a

/-- Every byte of device memory outside the `n` bytes from `a` reads as before. -/
def KeepsBytesBut (a n : Nat) (s t : State) : Prop := ∀ b, OnDevice b → ¬ (a ≤ b ∧ b < a + n) → t.byteAt b = s.byteAt b

/-- The registers whose writes have a rule of their own; a write of any other register acts by its access types alone (R13). -/
def ownRule : List RegName :=
  [.syncObj, .syncCfg, .cpBound, .qDoorbell, .qCfg, .qRingbaseLo, .qRingbaseHi, .qCmpbaseLo, .qCmpbaseHi, .qCtrl, .qCmpidx, .cpQjob] ++
  [.memT1win, .memMswin, .memT2win, .memWheel, .cpWheel, .cpWlen, .cpJob, .cpJctl, .sysPartcfg, .sysPartmap, .sysPseason] ++
  [.sysEvcfg, .sysEvidx, .sysEvbaseLo, .sysEvbaseHi, .lnkCfg, .ceGrpctl, .ethCfg, .fenPdqtail, .fenCtl, .pwrCap, .pwrBudget] ++
  [.pwrReserve, .bootCtl, .secCtl, .pciFnmap, .pciVfctl, .teCvtclr, .teSpillclr, .egSentclr, .sfuStatclr, .cpStatclr, .memStatclr] ++
  [.cmpStatclr, .lnkStatclr, .ethDropclr, .trnStatclr, .pwrStatclr, .sysDetclr, .cpWstatclr, .wagStat]

/-- A register whose writes act by its access types alone, with no field that a lock holds. -/
def PlainReg (n : RegName) : Bool := !ownRule.contains n && n.rwlMask == 0#32

/-- The registers that posting event records may change: the indices of the rings and the counts of what was lost. -/
def EventReg (n : RegName) : Prop := n = .sysEvidx ∨ n = .sysEvlost ∨ n = .pciErrcnt

/-- An address of an enabled event ring in device memory (R553). -/
def State.InRing (s : State) (a : Nat) : Prop :=
  ∃ f, f < 18 ∧ s.flag F.sysEvcfg_EN f = true ∧
    s.pair .sysEvbaseLo .sysEvbaseHi f ≤ a ∧ a < s.pair .sysEvbaseLo .sysEvbaseHi f + 32 * s.ringCap f

/-- A decoded command but for its marks of a squash. -/
def Decoded.unmarked (d : Decoded) : Decoded := { d with squashed := false, reread := false }

/-- Registers that `p` names have changed, and otherwise nothing but what posting event records changes: the event rings and their
indices, the count of events, the interrupts and the requests to memory that they make, and the marks of decoded commands whose
pre-reads a record's bytes meet (R250). -/
structure OnlyRegsAndEvents (p : RegName → Nat → Prop) (s t : State) : Prop where
  units : t = { s with
    regs := t.regs, mem := t.mem, bad := t.bad, memc := t.memc, power := { s.power with act := t.power.act }, ring18 := t.ring18,
    out := t.out, pci := t.pci, cp := { s.cp with evSeq := t.cp.evSeq, window := t.cp.window }, svcPend := t.svcPend }
  windows : ∀ f, (t.window f).map Decoded.unmarked = (s.window f).map Decoded.unmarked
  regs : ∀ n i, ¬ EventReg n → ¬ p n i → t.reg n i = s.reg n i
  bytes : ∀ a, OnDevice a → ¬ s.InRing a → t.byteAt a = s.byteAt a

/-- Nothing has changed but what posting event records changes. -/
abbrev OnlyEvents (s t : State) : Prop := OnlyRegsAndEvents (fun _ _ => False) s t

/-- A register that the map has (R543). -/
def Mapped (n : RegName) (i : Nat) : Prop := ∃ r ∈ mapRows, r.reg = n ∧ r.first ≤ i ∧ i < r.first + r.count

/-- The register that a command writes, with the requester that writes it, for the commands that are writes of one register. -/
inductive Writes : Instr → Requester → RegName → Nat → Prop where
  | qEnable : Writes (.qEnable who q v) who .qCfg q
  | qResume : Writes (.qResume who q v) who .qCtrl q
  | qSkip : Writes (.qSkip who q v) who .qCtrl q
  | cheadWrite : Writes (.cheadWrite who q v) who .qCmpidx q
  | syncCfgWrite : Writes (.syncCfgWrite who obj v) who .syncCfg obj
  | jobSave : Writes (.jobSave who p j) who .cpJctl 0
  | jobResume : Writes (.jobResume who p j) who .cpJctl 0
  | jobStatsClear : Writes (.jobStatsClear who p j) who .cpJctl 0
  | cpJobWrite : Writes (.cpJobWrite who n v) who .cpJob n
  | cpWheelWrite : Writes (.cpWheelWrite who isLen n v) who (if isLen then .cpWlen else .cpWheel) n
  | partmapWrite : Writes (.partmapWrite who v) who .sysPartmap 0
  | sysPartcfgWrite : Writes (.sysPartcfgWrite who p v) who .sysPartcfg p
  | memWindowWrite : Writes (.memWindowWrite who win n v) who (winReg win) n
  | memWheelWrite : Writes (.memWheelWrite who n v) who .memWheel n
  | lnkRetrain : Writes (.lnkRetrain who n v) who .lnkCfg n
  | groupEnable : Writes (.groupEnable who g) who .ceGrpctl 0
  | groupReset : Writes (.groupReset who g) who .ceGrpctl 0
  | groupDisable : Writes (.groupDisable who g) who .ceGrpctl 0
  | groupAbort : Writes (.groupAbort who g) who .ceGrpctl 0
  | ethRetrain : Writes (.ethRetrain who n v) who .ethCfg n
  | fenPdqtail : Writes (.fenPdqtail who v) who .fenPdqtail 0
  | fenEnable : Writes (.fenEnable who v) who .fenCtl 0
  | pwrCapWrite : Writes (.pwrCapWrite who v) who .pwrCap 0
  | pwrBudgetWrite : Writes (.pwrBudgetWrite who n v) who (if n = 8 then .pwrReserve else .pwrBudget) (if n = 8 then 0 else n)
  | partitionSpring : Writes (.partitionSpring who p) who .sysPseason p
  | partitionAutumn : Writes (.partitionAutumn who p) who .sysPseason p
  | partitionReset : Writes (.partitionReset who p) who .sysPseason p
  | go : Writes (.go who) who .bootCtl 0
  | restart : Writes (.restart who) who .bootCtl 0
  | flashUpdate : Writes (.flashUpdate who) who .bootCtl 0
  | alertclr : Writes (.alertclr who) who .bootCtl 0
  | commitsvn : Writes (.commitsvn who) who .secCtl 0
  | ownerprog : Writes (.ownerprog who) who .secCtl 0
  | pciFnmapWrite : Writes (.pciFnmapWrite who n v) who .pciFnmap n
  | sysEvcfgEnable : Writes (.sysEvcfgEnable who n v) who .sysEvcfg n
  | evheadWrite : Writes (.evheadWrite who n v) who .sysEvidx n
  | teCvtclr : Writes (.teCvtclr who n) who .teCvtclr n
  | teSpillclr : Writes (.teSpillclr who n) who .teSpillclr n
  | egSentclr : Writes (.egSentclr who n) who .egSentclr n
  | sfuStatclr : Writes (.sfuStatclr who n) who .sfuStatclr n
  | cpStatclr : Writes (.cpStatclr who n) who .cpStatclr n
  | memStatclr : Writes (.memStatclr who n) who .memStatclr n
  | cmpStatclr : Writes (.cmpStatclr who n) who .cmpStatclr n
  | lnkStatclr : Writes (.lnkStatclr who n) who .lnkStatclr n
  | ethDropclr : Writes (.ethDropclr who n) who .ethDropclr n
  | trnStatclr : Writes (.trnStatclr who n) who .trnStatclr n
  | pwrStatclr : Writes (.pwrStatclr who) who .pwrStatclr 0
  | sysDetclr : Writes (.sysDetclr who n) who .sysDetclr n
  | cpWstatclr : Writes (.cpWstatclr who n) who .cpWstatclr n
  | errclr : Writes (.errclr who n) who .pciVfctl n

/-- The canonical form of the tables that hold device memory and registers. -/
def State.Canonical (s : State) : Prop :=
  Sparse.wf memDefault s.mem = true ∧ Sparse.wf regDefault s.regs = true

/-- What every command keeps of a state `r`: the commands that wait, the fused values, the canonical form if `r` has it, and the order
in which free values are drawn. -/
structure State.Keeps (r s : State) : Prop where
  pending : s.pending = r.pending
  uds     : s.sage.uds = r.sage.uds
  keys    : s.sage.fuseImg = r.sage.fuseImg
  serial  : s.sage.serial = r.sage.serial
  free    : r.free ≤ s.free
  form    : r.Canonical → s.Canonical

end Sys2Proof.Machine
end

