-- ==== Sys2Proof/Certificates/Slice0/Obligations.lean ====
section
/-!
DEFINITION. The statements about the block that provers are asked to prove.
-/

set_option Elab.async false

open Sys2Proof Sys2Proof.Machine

/-- A step runs the command at the front of the queue on the state in which the rest waits. -/
def Obligations.StepRunsTheFrontCommand : Prop :=
  ∀ (c : Instr) (rest : List Instr) (s : State),
    step { s with pending := c :: rest } = exec c { s with pending := rest }

/-- Every command whose units exist answers a next state, in every state; every other one stops as naming no unit. -/
def Obligations.CommandsOfExistingUnitsRun : Prop :=
  ∀ (c : Instr) (s : State),
    (c.wellFormed = true → ∃ t, Runs c s t) ∧ (c.wellFormed = false → exec c s = .fault .noSuchUnit)

/-- After reset: registers at their Reset values, nothing listed in memory (log entry 1), nothing waiting, Winter everywhere. -/
def Obligations.ResetHoldsTheResetValues : Prop :=
  (∀ n i, Mapped n i → State.reset.reg n i = regReset n i) ∧
  (∀ a, OnDevice a → State.reset.byteAt a = 0x00#8) ∧
  State.reset.pending = [] ∧ State.reset.cycle = 0 ∧ State.reset.tick = 0 ∧
  State.reset.dieSeason = winter ∧ (∀ p, p < 8 → State.reset.season p = winter)

/-- The state after reset is in the canonical form. -/
def Obligations.ResetIsInCanonicalForm : Prop := State.reset.Canonical

/-- Every step keeps the canonical form, from every state that has it. -/
def Obligations.EveryStepKeepsTheCanonicalForm : Prop :=
  ∀ s t : State, s.Canonical → step s = .next t → t.Canonical

/-- No command changes the fuses that only manufacturing programs, the commands that wait, or the order of free values. -/
def Obligations.NoCommandChangesTheFusedValues : Prop :=
  ∀ (c : Instr) (s t : State), Runs c s t →
    t.sage.uds = s.sage.uds ∧ t.sage.fuseImg = s.sage.fuseImg ∧ t.sage.serial = s.sage.serial ∧
    t.pending = s.pending ∧ s.free ≤ t.free

/-- The register map and the offsets of registers are inverse to each other. -/
def Obligations.RegisterMapRoundTrip : Prop :=
  ∀ n i, Mapped n i →
    regAt (regOffset n i) = some (n, i) ∧ regOffset n i % 4 = 0 ∧
    ∀ m j, Mapped m j → regOffset m j = regOffset n i → m = n ∧ j = i

/-- What a store to device memory writes, and that it writes nothing else. -/
def Obligations.StoredBytesReadBack : Prop :=
  ∀ (s : State) (a : Nat) (bs : List Byte),
    (∀ b, OnDevice b → (s.store a bs).byteAt b = if a ≤ b ∧ b < a + bs.length then bs.getD (b - a) 0x00#8 else s.byteAt b) ∧
    (∀ n i, (s.store a bs).reg n i = s.reg n i) ∧
    (∀ g, a ≤ g → g + granuleLen g ≤ a + bs.length → g ∉ (s.store a bs).bad)

/-- What an event ring does with a record. -/
def Obligations.RingTakesARecord : Prop :=
  ∀ (s : State) (f : Nat) (part : Option Nat) (rcd : List Byte),
    f < 18 → rcd.length = 32 → s.flag F.sysEvcfg_EN f = true → s.ringPlaced f = true →
    let t := s.ringWrite f part rcd
    let tail := s.fld F.sysEvidx_EVTAIL f
    let a := s.pair .sysEvbaseLo .sysEvbaseHi f + 32 * (tail % s.ringCap f)
    (((tail + 65536 - s.fld F.sysEvidx_EVHEAD f) % 65536 ≠ s.ringCap f) →
      (∀ k, k < 32 → t.byteAt (a + k) = rcd.getD k 0x00#8) ∧ KeepsBytesBut a 32 s t ∧
      t.fld F.sysEvidx_EVTAIL f = (tail + 1) % 65536) ∧
    (((tail + 65536 - s.fld F.sysEvidx_EVHEAD f) % 65536 = s.ringCap f) →
      t = s.setFld F.sysEvlost_LOST f (min (s.fld F.sysEvlost_LOST f + 1) (2 ^ 32 - 1)))

/-- A register write acts by access type, bit by bit, and changes nothing else (registers with rules of their own have their own rows). -/
def Obligations.RegisterWritesActByAccessType : Prop :=
  (∀ (s : State) (who : Requester) (n : RegName) (i : Nat) (v : Word),
    Mapped n i → PlainReg n = true → Permits s who n i →
    ∃ t, Runs (.regWrite who (regOffset n i) v) s t ∧ OnlyRegs (fun m j => m = n ∧ j = i) s t ∧
      ∀ k, k < 32 → (t.reg n i).getLsbD k =
        if n.rwMask.getLsbD k then v.getLsbD k && !(n.w1cMask.getLsbD k && v.getLsbD k)
        else (s.reg n i).getLsbD k && !(n.w1cMask.getLsbD k && v.getLsbD k)) ∧
  (∀ (s : State) (who : Requester) (i : Nat) (v : Word), i < 128 → Permits s who .wagStat i →
    ∃ t, Runs (.regWrite who (regOffset .wagStat i) v) s t ∧ OnlyRegs (fun m j => m = .wagStat ∧ j = i) s t ∧
      t.fld F.wagStat_MALFORMED i = (if v.getLsbD 1 then 0 else s.fld F.wagStat_MALFORMED i) ∧
      t.fld F.wagStat_ECC_UNCORRECTED i = (if v.getLsbD 2 then 0 else s.fld F.wagStat_ECC_UNCORRECTED i) ∧
      t.fld F.wagStat_NONFINITE_COUNT i = (if v.getLsbD 1 || v.getLsbD 2 then 0 else s.fld F.wagStat_NONFINITE_COUNT i))

/-- R12: the two halves of a 64-bit quantity, and what their reads return. -/
def Obligations.ReadOfLowHalfCapturesHighHalf : Prop :=
  (∀ n i, Mapped n i → regOffset n i % 4 = 0) ∧
  ∀ (lo h : RegName) (i : Nat), lo.hiOf = some h → Mapped lo i →
    regOffset h i = regOffset lo i + 4 ∧
    ∀ (s : State) (who : Requester), s.hostServed who = true → s.mayRead who lo i = true → s.mayRead who h i = true →
      ∃ t, Runs (.regReadLo who (regOffset lo i)) s t ∧ t.resp = leBytes 4 (s.reg lo i).toNat ∧
        t = { s with resp := t.resp, hi := t.hi } ∧
        ∀ v : Word, ∃ u w, Runs (.regReadLo who (regOffset h i)) (t.setReg h i v) u ∧ u.resp = leBytes 4 (s.reg h i).toNat ∧
          Runs (.regReadLo who (regOffset h i)) u w ∧ w.resp = leBytes 4 v.toNat

/-- A write beyond a requester's rights is ignored, and counted for a host function. -/
def Obligations.RefusedWritesOnlyCount : Prop :=
  ∀ (c : Instr) (who : Requester) (n : RegName) (i : Nat) (s : State),
    Writes c who n i → c.wellFormed = true → ¬ Permits s who n i →
    ∃ t, Runs c s t ∧
      (if who.isHost = true ∧ who.port < 2 then
        OnlyFields [F.pciErrcnt_REFUSED] .pciErrcnt who.port s t ∧
        t.fld F.pciErrcnt_REFUSED who.port = min (s.fld F.pciErrcnt_REFUSED who.port + 1) (2 ^ F.pciErrcnt_REFUSED.width - 1)
       else t = s)

/-- CP_DECODE of a whole, good command. -/
def Obligations.CpDecodeTakesThePublishedCommand : Prop :=
  ∀ (q : Nat) (s : State),
    q < 32768 → s.flag F.qCfg_ENABLE q = true → s.fld F.qStat_STATE q = 1 → (s.window (s.qField q)).length < 64 →
    let pos := (s.queue q).dec
    let h := s.ringRead q pos 1
    let n := hdrLen h
    (∀ d, s.firstOf q = some d → d.ringBad = none) → s.queueFull (s.qPart q) (s.ringAddr q pos) = false →
    opBytes (hdrOpcode h) = some (16 * (n - b2n (hdrRes h))) → 0 < n - b2n (hdrRes h) → n ≤ s.undecoded q →
    s.ringBad q pos 1 = none → s.ringBad q pos n = none →
    ∃ t d, Runs (.cpDecode q) s t ∧ t.window (s.qField q) = s.settleBounds.window (s.qField q) ++ [d] ∧
      d.queue = q ∧ d.bytes = s.ringRead q pos n ∧ d.units = n ∧ d.squashed = false ∧ d.reread = false ∧ d.ringBad = none ∧
      (t.queue q).dec = (pos + n) % s.ringUnits q ∧ (∀ r, r ≠ q → t.queue r = s.queue r) ∧
      t.fld F.qStat_HEAD q = s.fld F.qStat_HEAD q ∧ KeepsBytes s t

/-- What issuing a command of a queue does. -/
def Obligations.IssuingPassesTheCommand : Prop :=
  ∀ (s : State) (q : Nat) (d : Decoded), s.ringUnits q ≤ 2 ^ 20 →
    let t := s.issue (.queue q) d
    t.fld F.qStat_HEAD q = (s.fld F.qStat_HEAD q + d.units) % s.ringUnits q ∧
    (∀ x, x ∈ (t.window (s.qField q)).map Decoded.uid ↔ x ∈ (s.window (s.qField q)).map Decoded.uid ∧ x ≠ d.uid) ∧
    (t.queue q).seq = ((s.queue q).seq + 1) % 2 ^ 32 ∧
    t.cp.inflight = s.cp.inflight ++ [s.mkCmd (.queue q) d] ∧
    t.fld F.cpStat_SQUASHCNT (s.qField q) =
      (if d.squashed || d.reread then min (s.fld F.cpStat_SQUASHCNT (s.qField q) + 1) (2 ^ F.cpStat_SQUASHCNT.width - 1)
       else s.fld F.cpStat_SQUASHCNT (s.qField q)) ∧
    KeepsBytes s t

/-- NOP and BOUNDSET: completion 8 cycles after issue, and the bound registers from then on. -/
def Obligations.NopAndBoundsetComplete : Prop :=
  ∀ (s : State) (i : Issuer) (d : Decoded), (∀ x ∈ s.cp.inflight, x.uid ≠ d.uid) →
    let r := s.settleBounds
    let c := r.mkCmd i d
    (r.issue i d).hasRequests d.uid = false →
    (Issues s i d (isOp 0x00) (fun _ _ => .go) →
      ∃ t, Runs (.nop i) s t ∧ t.entry c.field c.entry = s.entry c.field c.entry ++ [⟨c, Result.mk0 St.ok 8, c.issued + 8⟩] ∧
        (∀ n, t.reg .cpBound n = r.reg .cpBound n) ∧ t.cp.bsets = r.cp.bsets ∧ KeepsBytes s t) ∧
    (Issues s i d (isOp 0x03) boundsetCheck →
      ∃ t, Runs (.boundset i) s t ∧ t.entry c.field c.entry = s.entry c.field c.entry ++ [⟨c, Result.mk0 St.ok 8, c.issued + 8⟩] ∧
        (∀ n, t.reg .cpBound n = r.reg .cpBound n) ∧
        (∀ x ∈ t.cp.bsets, x ∈ r.cp.bsets ∨ x.1 = c.issued + 8) ∧
        (∀ n, (t.until (c.issued + 8)).settleBounds.reg .cpBound n =
          if 256 * c.part + num d.bytes 8 2 ≤ n ∧ n < 256 * c.part + num d.bytes 8 2 + num d.bytes 10 1 then
            BitVec.ofNat 32 (num d.bytes (12 + 4 * (n - 256 * c.part - num d.bytes 8 2)) 4)
          else (r.until (c.issued + 8)).settleBounds.reg .cpBound n) ∧ KeepsBytes s t)

/-- SOOP, SOWAIT and ESCALATE run, and a satisfied SOWAIT completes. -/
def Obligations.CpAndGuardCommandsRun : Prop :=
  ∀ (s : State) (i : Issuer) (d : Decoded),
    (Issues s i d (isOp 0x01) State.soopCheck → IssuesTo (.soop i) s i d State.runSoop) ∧
    (Issues s i d (isOp 0x02) State.sowaitCheck → IssuesTo (.sowait i) s i d State.runSowait) ∧
    (Issues s i d (isOp 0x04) State.escalateCheck → IssuesTo (.escalate i) s i d State.runEscalate) ∧
    (∀ h, issuerOk i = true → s.cp.holds.find? (fun x => x.cmd.issuer == i && x.sat.isSome) = some h →
      ∃ t, Runs (.sowaitSatisfied i) s t ∧ h ∉ t.cp.holds ∧
        t.cycle = max s.cycle (h.satAt + objTime h.cmd.field h.obj) ∧ KeepsBytes s t)

/-- What an issuing SOWAIT holds. -/
def Obligations.SowaitHoldsItsQueue : Prop :=
  ∀ (s : State) (q : Nat) (d : Decoded), Issues s (.queue q) d (isOp 0x02) State.sowaitCheck →
    let c := s.settleBounds.mkCmd (.queue q) d
    let o := soObj d.bytes
    let sat := s.waitSat o (num d.bytes 10 1 % 4) (num d.bytes 12 4)
    ∃ t, Runs (.sowait (.queue q)) s t ∧
      t.cp.holds = s.cp.holds ++ (if sat then [] else [⟨c, o, num d.bytes 10 1 % 4, num d.bytes 12 4, none, 0⟩]) ∧
      (sat = false → (t.queue q).held = some c.issued ∧ (t.queue q).heldSaw = false) ∧
      (∀ n, t.reg .syncObj n = s.reg .syncObj n) ∧ KeepsBytes s t

/-- A malformed command halts its queue. -/
def Obligations.MalformedCommandHaltsItsQueue : Prop :=
  ∀ (s : State) (q : Nat) (d : Decoded),
    let r := s.settleBounds
    q < 32768 → r.nextOf (.queue q) = some d → d.ringBad = none → r.ready (.queue q) d = true → r.unitWait (.queue q) d = none →
    ∀ c : Instr,
      ((c = .nop (.queue q) ∧ isOp 0x00 d.bytes = true ∧ s.headerBad (.queue q) d.bytes = true) ∨
        (c = .soop (.queue q) ∧ isOp 0x01 d.bytes = true ∧
          (s.objOpOk (soObj d.bytes) (num d.bytes 10 1) = false ∨ s.objPart (soObj d.bytes) ≠ s.qPart q))) →
      ∃ t, Runs c s t ∧ t.fld F.qStat_STATE q = 2 ∧ t.fld F.qStat_CAUSE q = 1 ∧ t.fld F.qStat_HEAD q = s.fld F.qStat_HEAD q ∧
        (∀ x ∈ t.window (s.qField q), x.queue ≠ q) ∧ (t.queue q).dec = s.fld F.qStat_HEAD q ∧
        t.cp.inflight = s.cp.inflight ∧ (∀ o, t.reg .syncObj o = s.reg .syncObj o)

/-- The operations of the table on objects, with their results and their frame. -/
def Obligations.ObjectOperationsChangeTheObject : Prop :=
  ∀ (s : State) (who : Requester) (o : Nat) (v : Word),
    o < 65536 → s.hostServed who = true → s.actsFor who (s.objPart o) = true →
    let val := s.reg .syncObj o
    let err := s.fld F.syncCfg_ERR o
    let gen := if s.objCounter o then s.fld F.syncCfg_GEN o else 0
    let eff := fun (c : Instr) (val1 : Word) (err1 : Nat) =>
      ∃ t, Runs c s t ∧ t.reg .syncObj o = val1 ∧ t.fld F.syncCfg_ERR o = err1 ∧ t.fld F.syncCfg_GEN o = s.fld F.syncCfg_GEN o ∧
        t.resp = leBytes 8 (val.toNat + 2 ^ 32 * err + 2 ^ 48 * gen) ∧
        (∀ n i, ¬ ((n = .syncObj ∨ n = .syncCfg) ∧ i = o) → t.reg n i = s.reg n i) ∧ KeepsBytes s t
    eff (.soRead who o) val err ∧
    (s.objCounter o = false →
      eff (.soSet who o v) v err ∧ eff (.soAdd who o v) (val + v) err ∧
      eff (.soMax who o v) (if val.toNat < v.toNat then v else val) err ∧
      eff (.soSeterr who o v) val (if err = 0 then v.toNat % 256 else err) ∧ eff (.soClrerr who o) val 0) ∧
    (s.objCounter o = true → eff (.cread who o) val err ∧
      ∃ t, Runs (.creset who o v) s t ∧ t.reg .syncObj o = 0#32 ∧ t.objLimit o = v.toNat ∧ t.fld F.syncCfg_ERR o = err ∧
        t.fld F.syncCfg_GEN o = (gen + 1) % 65536 ∧
        t.resp = leBytes 8 (val.toNat + 2 ^ 32 * err + 2 ^ 48 * ((gen + 1) % 65536)) ∧
        (∀ n i, ¬ ((n = .syncObj ∨ n = .syncCfg) ∧ i = o) → t.reg n i = s.reg n i) ∧ KeepsBytes s t)

/-- R224: CRESET. Bits [39:32] of the result hold ERR, 0 where no operation has set it. -/
def Obligations.CounterResetStartsAGeneration : Prop :=
  ∀ (s : State) (who : Requester) (o : Nat) (v : Word),
    o < 65536 → s.hostServed who = true → s.actsFor who (s.objPart o) = true → s.objCounter o = true →
    ∃ t, Runs (.creset who o v) s t ∧ t.reg .syncObj o = 0#32 ∧ t.objLimit o = v.toNat ∧
      t.fld F.syncCfg_GEN o = (s.fld F.syncCfg_GEN o + 1) % 65536 ∧
      t.resp = leBytes 8 ((s.reg .syncObj o).toNat + 2 ^ 32 * s.fld F.syncCfg_ERR o + 2 ^ 48 * ((s.fld F.syncCfg_GEN o + 1) % 65536)) ∧
      (∀ n i, ¬ ((n = .syncObj ∨ n = .syncCfg) ∧ i = o) → t.reg n i = s.reg n i) ∧
      (∀ p, p ≠ o → t.objLimit p = s.objLimit p) ∧ KeepsBytes s t ∧ s.fld F.syncCfg_GEN o < 65536

/-- Operations that the table does not admit. -/
def Obligations.MismatchedObjectOperationHasNoEffect : Prop :=
  ∀ (s : State) (who : Requester) (o : Nat) (v : Word) (c : Instr),
    o < 65536 → (who.isHost = true ∨ who.svcOrSage = true) →
    ((s.actsFor who (s.objPart o) = false ∧ (c = .soRead who o ∨ c = .cread who o)) ∨
      ((s.actsFor who (s.objPart o) = false ∨ s.objCounter o = true) ∧
        (c = .soSet who o v ∨ c = .soAdd who o v ∨ c = .soMax who o v ∨ c = .soSeterr who o v ∨ c = .soClrerr who o)) ∨
      ((s.actsFor who (s.objPart o) = false ∨ s.objCounter o = false) ∧ (c = .creset who o v ∨ c = .cread who o))) →
    ∃ t, Runs c s t ∧ t.resp = leBytes 8 0 ∧ (∀ p, t.reg .syncObj p = s.reg .syncObj p ∧ t.reg .syncCfg p = s.reg .syncCfg p ∧
      t.objLimit p = s.objLimit p)

/-- The drain of a completion with a record. -/
def Obligations.DrainWritesTheCompletionRecord : Prop :=
  ∀ (s : State) (f e q : Nat) (c : Completion),
    f < 4 → e < 48 → earliest (s.entry f e) = some c → c.cmd.issuer = .queue q →
    hdrIrq c.cmd.bytes = false → hdrCen c.cmd.bytes = false → (s.flag F.qCfg_CMPALL q = true ∨ c.final ≠ St.ok) →
    s.flag F.qCfg_HALTERR q = false → s.cmpOk q = true →
    let ct := s.fld F.qCmpidx_CTAIL q
    let full := (ct + 65536 - s.fld F.qCmpidx_CHEAD q) % 65536 = s.cmpCap q
    let a := s.cmpBase q + 64 * (ct % s.cmpCap q)
    ∃ t, Runs (.completionDrain f e) s t ∧ t.entry f e = dropFirst c (s.entry f e) ∧ (∀ x ∈ s.entry f e, c.posted ≤ x.posted) ∧
      t.cycle % 48 = e ∧ c.posted < t.cycle ∧ s.cycle ≤ t.cycle ∧ s.drainedAt f e ≤ t.cycle ∧ t.drainedAt f e = t.cycle + 1 ∧
      (¬ full → (∀ k, k < 64 → t.byteAt (a + k) = c.record.getD k 0x00#8) ∧ KeepsBytesBut a 64 s t ∧
        t.fld F.qCmpidx_CTAIL q = (ct + 1) % 65536 ∧ t.reg .qCmplost q = s.reg .qCmplost q) ∧
      (full → KeepsBytes s t ∧ t.fld F.qCmpidx_CTAIL q = ct ∧
        t.fld F.qCmplost_CMPLOST q = min (s.fld F.qCmplost_CMPLOST q + 1) (2 ^ 32 - 1))

/-- The outcomes of a doorbell. -/
def Obligations.DoorbellsPublishOrAreRefused : Prop :=
  ∀ (s : State) (who : Requester) (q : Nat) (v : Word), q < 32768 →
    let tail := v.toNat % 2 ^ 20
    let n := s.ringUnits q
    let head := s.fld F.qStat_HEAD q
    let good := s.flag F.qCfg_ENABLE q = true ∧ s.season (s.qPart q) ≠ winter ∧ s.season (s.qPart q) ≠ autumn ∧ tail < n ∧
      ((s.queue q).tail + n - head) % n ≤ (tail + n - head) % n
    (s.hostServed who = true → s.actsFor who (s.qPart q) = true → good →
      Runs (.qDoorbell who q v) s (s.setQueue q { s.queue q with tail := tail })) ∧
    (s.hostServed who = true → s.actsFor who (s.qPart q) = true → ¬ good →
      ∃ t, Runs (.qDoorbell who q v) s t ∧ t.fld F.qStat_DBFAULT q = 1 ∧ t.queue q = s.queue q ∧ t.fld F.qStat_HEAD q = head ∧
        t.cp.evSeq = (s.cp.evSeq + 1) % 2 ^ 32) ∧
    (s.hostServed who = false ∨ s.actsFor who (s.qPart q) = false →
      ∃ t, Runs (.qDoorbell who q v) s t ∧ t.queue q = s.queue q ∧ t.fld F.qStat_HEAD q = head)

/-- Q_ENABLE on a disabled queue. -/
def Obligations.EnablingAQueueChecksItsRings : Prop :=
  ∀ (s : State) (who : Requester) (q : Nat) (v : Word),
    q < 32768 → Permits s who .qCfg q → s.flag F.qCfg_ENABLE q = false → v.getLsbD 9 = true →
    let u := s.qCfgFields who q v
    (u.ringOk q = true ∧ u.cmpOk q = true →
      ∃ t, Runs (.qEnable who q v) s t ∧ t.flag F.qCfg_ENABLE q = true ∧ t.fld F.qStat_STATE q = 1 ∧ t.fld F.qStat_CAUSE q = 0 ∧
        t.fld F.qStat_HEAD q = 0 ∧ t.queue q = QueueState.reset ∧
        t.fld F.qCfg_LOG2SIZE q = v.toNat % 16 ∧ t.fld F.qCfg_CLOG2 q = v.toNat / 4096 % 16 ∧
        OnlyRegs (fun n i => (n = .qCfg ∨ n = .qStat) ∧ i = q) s { t with cp := s.cp } ∧ KeepsBytes s t) ∧
    (¬ (u.ringOk q = true ∧ u.cmpOk q = true) →
      ∃ t, Runs (.qEnable who q v) s t ∧ t.flag F.qCfg_ENABLE q = false ∧ t.fld F.qStat_STATE q = s.fld F.qStat_STATE q ∧
        t.cp.evSeq = (s.cp.evSeq + 1) % 2 ^ 32)

/-- R264. -/
def Obligations.ResumeAndSkipRestartAHaltedQueue : Prop :=
  (∀ (s : State) (q f e : Nat) (d : Decoded) (c : Completion),
    s.flag F.qCfg_HALTERR q = true → c ∈ s.entry f e → c.cmd.issuer = .queue q → c.posted ≤ s.cycle → 0x10 ≤ c.final.toNat →
    s.ready (.queue q) d = false) ∧
  (∀ (s : State) (q f e : Nat) (c : Completion),
    f < 4 → e < 48 → earliest (s.entry f e) = some c → c.cmd.issuer = .queue q → s.flag F.qCfg_HALTERR q = true →
    0x10 ≤ c.final.toNat → s.fld F.qStat_STATE q = 1 →
    ∃ t, Runs (.completionDrain f e) s t ∧ t.fld F.qStat_STATE q = 2 ∧ t.fld F.qStat_CAUSE q = 2 ∧
      t.cp.inflight = s.cp.inflight) ∧
  (∀ (s : State) (who : Requester) (q : Nat),
    q < 32768 → Permits s who .qCtrl q → s.fld F.qStat_STATE q = 2 → s.ringUnits q ≤ 2 ^ 20 →
    let n := s.ringUnits q
    let head := s.fld F.qStat_HEAD q
    let len := hdrLen (s.ringRead q head 1)
    let left := ((s.queue q).tail + n - head) % n
    let restarts := fun (c : Instr) (h : Nat) =>
      ∃ t, Runs c s t ∧ t.fld F.qStat_STATE q = 1 ∧ t.fld F.qStat_CAUSE q = 0 ∧ t.fld F.qStat_HEAD q = h ∧
        (t.queue q).dec = h ∧ (t.queue q).tail = (s.queue q).tail ∧ (∀ x ∈ t.window (s.qField q), x.queue ≠ q) ∧
        t.cp.inflight = s.cp.inflight ∧ KeepsBytes s t
    restarts (.qResume who q 1#32) head ∧
    restarts (.qSkip who q 2#32) ((head + min (if len = 0 then 1 else len) left) % n) ∧
    Runs (.qResume who q 3#32) s s ∧ Runs (.qSkip who q 3#32) s s)

/-- CHEAD_WRITE, CP_WATCH_EXPIRY and SYNC_CFG_WRITE. -/
def Obligations.QueueIndexWatchAndObjectConfig : Prop :=
  (∀ (s : State) (who : Requester) (q : Nat) (v : Word), q < 32768 → Permits s who .qCmpidx q →
    ∃ t, Runs (.cheadWrite who q v) s t ∧ t.fld F.qCmpidx_CHEAD q = v.toNat / 65536 ∧ t.reg .qCmplost q = 0#32 ∧
      t.fld F.qCmpidx_CTAIL q = s.fld F.qCmpidx_CTAIL q ∧ OnlyRegs (fun n i => (n = .qCmpidx ∨ n = .qCmplost) ∧ i = q) s t) ∧
  (∀ (s : State) (q c why : Nat), q < 32768 → (s.queue q).nextWatch = some (c, why) → s.reg .cpWatch (s.qPart q) ≠ 0#32 →
    ∃ t, Runs (.cpWatchExpiry q) s t ∧
      t.queue q = (if why = 1 then { s.queue q with haltSaw := true } else { s.queue q with heldSaw := true }) ∧
      ((why = 1 ∧ (s.queue q).halted = some c ∧ (s.queue q).haltSaw = false) ∨
        (why = 2 ∧ (s.queue q).held = some c ∧ (s.queue q).heldSaw = false)) ∧
      t.cycle = max s.cycle (c + (s.reg .cpWatch (s.qPart q)).toNat * 1024) ∧ t.cp.evSeq = (s.cp.evSeq + 1) % 2 ^ 32 ∧
      (∀ n, t.reg .qStat n = s.reg .qStat n)) ∧
  (∀ (s : State) (who : Requester) (o : Nat) (v : Word), o < 65536 → Permits s who .syncCfg o → isVf who = false →
    ∃ t, Runs (.syncCfgWrite who o v) s t ∧ t.fld F.syncCfg_PART o = v.toNat % 8 ∧ t.objCounter o = v.getLsbD 3 ∧
      OnlyRegs (fun n i => (n = .syncCfg ∨ n = .syncObj) ∧ i = o) s { t with cp := s.cp } ∧
      (if v.getLsbD 3 = s.objCounter o then
        t.reg .syncObj o = s.reg .syncObj o ∧ t.fld F.syncCfg_ERR o = s.fld F.syncCfg_ERR o ∧
          t.fld F.syncCfg_GEN o = s.fld F.syncCfg_GEN o ∧ t.objLimit o = s.objLimit o
       else t.reg .syncObj o = 0#32 ∧ t.objLimit o = 0 ∧ t.fld F.syncCfg_ERR o = 0 ∧ t.fld F.syncCfg_GEN o = 0))

/-- Commands of the DMA engine, the code tables, the clusters, the collective engines and the update path issue and run. -/
def Obligations.DataAndClusterCommandsRun : Prop :=
  ∀ (s : State) (i : Issuer) (d : Decoded),
    (Issues s i d (isDma .copy) State.copyCheck → IssuesTo (.dmaCopy i) s i d State.runCopy) ∧
    (Issues s i d (isDma .convert) State.convertCheck → IssuesTo (.dmaConvert i) s i d State.runConvert) ∧
    (Issues s i d (isDma .add) State.atomicCheck → IssuesTo (.dmaAdd i) s i d State.runAtomic) ∧
    (Issues s i d (isDma .max) State.atomicCheck → IssuesTo (.dmaMax i) s i d State.runAtomic) ∧
    (Issues s i d (isDma .min) State.atomicCheck → IssuesTo (.dmaMin i) s i d State.runAtomic) ∧
    (Issues s i d (isDma .encode) State.encodeCheck → IssuesTo (.dmaEncode i) s i d State.runEncode) ∧
    (Issues s i d (isDma .decode) State.decodeCheck → IssuesTo (.dmaDecode i) s i d State.runDecode) ∧
    (Issues s i d (isDma .build) State.buildCheck → IssuesTo (.tableBuild i) s i d State.runBuild) ∧
    (Issues s i d (isDma .load) State.loadCheck → s.loadHeld i = false →
      IssuesTo (.tableLoad i) s i d State.runLoad) ∧
    (Issues s i d (isOp 0x12) State.sentinelCheck → IssuesTo (.sentinel i) s i d State.runSentinel) ∧
    (Issues s i d (isOp 0x30) clrunCheck → IssuesTo (.clrun i) s i d State.runClrun) ∧
    (Issues s i d (isOp 0x50) State.updateCheck → IssuesTo (.update i) s i d State.runUpdate) ∧
    (Issues s i d (isOp 0x40) State.sendCheck → IssuesTo (.send i) s i d State.runSend) ∧
    (Issues s i d (isOp 0x41) State.sendCheck → IssuesTo (.qsend i) s i d State.runSend) ∧
    (Issues s i d (isOp 0x43) State.grpabortCheck → IssuesTo (.grpabort i) s i d State.runGrpabort) ∧
    (Issues s i d (isColl 0) State.collCheck → s.collFull i = false →
      IssuesTo (.allreduce i) s i d State.runColl) ∧
    (Issues s i d (isColl 1) State.collCheck → s.collFull i = false →
      IssuesTo (.reducescatter i) s i d State.runColl) ∧
    (Issues s i d (isColl 2) State.collCheck → s.collFull i = false →
      IssuesTo (.allgather i) s i d State.runColl) ∧
    (Issues s i d (isColl 3) State.collCheck → s.collFull i = false →
      IssuesTo (.reduce i) s i d State.runColl) ∧
    (Issues s i d (isColl 4) State.collCheck → s.collFull i = false →
      IssuesTo (.broadcast i) s i d State.runColl) ∧
    (Issues s i d (isColl 5) State.collCheck → s.collFull i = false →
      IssuesTo (.alltoall i) s i d State.runColl) ∧
    (Issues s i d (isColl 6) State.collCheck → s.collFull i = false →
      IssuesTo (.permute i) s i d State.runColl) ∧
    (Issues s i d (isColl 7) State.collCheck → s.collFull i = false →
      IssuesTo (.barrier i) s i d State.runColl)

/-- Commands of the tensor engine, of the special-function unit and of the window and address generator issue and run. -/
def Obligations.EngineGroupCommandsRun : Prop :=
  ∀ (s : State) (i : Issuer) (d : Decoded),
    (Issues s i d (isOp 0x10) State.matmulCheck → IssuesTo (.matmul i) s i d State.runMatmul) ∧
    (Issues s i d (isOp 0x11) State.tloadCheck → IssuesTo (.tload i) s i d State.runTload) ∧
    (Issues s i d (isOp 0x28) State.convCheck → IssuesTo (.conv i) s i d State.runConv) ∧
    (Issues s i d (isOp 0x22) State.attnCheck → s.flipWaits (s.cmdEg i d.bytes) = false →
      IssuesTo (.attn i) s i d State.runAttn) ∧
    (Issues s i d (isSfu 0) State.sfuCheck → s.flipWaits (s.cmdEg i d.bytes) = false →
      IssuesTo (.eval i) s i d State.runSfu) ∧
    (Issues s i d (isSfu 1) State.sfuCheck → s.flipWaits (s.cmdEg i d.bytes) = false →
      IssuesTo (.gate i) s i d State.runSfu) ∧
    (Issues s i d (isSfu 2) State.sfuCheck → s.flipWaits (s.cmdEg i d.bytes) = false →
      IssuesTo (.rmsnorm i) s i d State.runSfu) ∧
    (Issues s i d (isSfu 3) State.sfuCheck → s.flipWaits (s.cmdEg i d.bytes) = false →
      IssuesTo (.softmax i) s i d State.runSfu) ∧
    (Issues s i d (isSfu 4) State.sfuCheck → s.flipWaits (s.cmdEg i d.bytes) = false →
      IssuesTo (.smrecomp i) s i d State.runSfu) ∧
    (Issues s i d (isSfu 5) State.tblloadCheck → (s.attnOpen (s.cmdEg i d.bytes) && s.sfuPending (s.cmdEg i d.bytes) (Sfuop.of d.bytes).slot) = false →
      IssuesTo (.tblload i) s i d State.runTblload) ∧
    (Issues s i d (isOp 0x20) State.patgenCheck → IssuesTo (.patgen i) s i d State.runPatgen) ∧
    (Issues s i d (isAppend false) State.appendCheck → IssuesTo (.appendDirect i) s i d State.runAppendDirect) ∧
    (Issues s i d (isAppend true) State.appendCheck → IssuesTo (.appendStaged i) s i d State.runAppendStaged) ∧
    (Issues s i d (isPool 0) State.poolCheck → IssuesTo (.poolMax i) s i d State.runPool) ∧
    (Issues s i d (isPool 1) State.poolCheck → IssuesTo (.poolAvgv i) s i d State.runPool) ∧
    (Issues s i d (isPool 2) State.poolCheck → IssuesTo (.poolAvgf i) s i d State.runPool) ∧
    (Issues s i d (isPool 3) State.poolCheck → IssuesTo (.argmax i) s i d State.runPool)

/-- The bytes that a plain COPY moves. -/
def Obligations.CopyMovesTheRows : Prop :=
  ∀ (s : State) (i : Issuer) (d : Decoded), Issues s i d (isDma .copy) State.copyCheck → s.bad = [] →
    let x := Dma.of d.bytes
    let r := s.settleBounds
    let len := (r.dmaBounds (r.mkCmd i d)).1.get
    let rows := (r.dmaBounds (r.mkCmd i d)).2.get
    x.gather = false → x.scatter = false →
    (∀ q r, q < rows → r < rows → overlaps (x.src + q * x.srcLd) len (x.dst + r * x.dstLd) len = false) →
    (rows ≤ 1 ∨ len ≤ x.dstLd) → (∀ k, k < span rows x.srcLd len → OnDevice (x.src + k)) →
    ∃ t, Runs (.dmaCopy i) s t ∧
      (∀ r k, r < rows → k < len → t.byteAt (x.dst + r * x.dstLd + k) = s.byteAt (x.src + r * x.srcLd + k)) ∧
      (∀ b, OnDevice b → (∀ r, r < rows → ¬ (x.dst + r * x.dstLd ≤ b ∧ b < x.dst + r * x.dstLd + len)) → t.byteAt b = s.byteAt b)

/-- What keeps a command from issuing keeps the state as it is. -/
def Obligations.CommandsThatMayNotIssueWait : Prop :=
  (∀ (s : State) (i : Issuer) (d : Decoded), issuerOk i = true → s.nextOf i = some d → d.ringBad = none →
    ∀ p ∈ [(Instr.nop i, isOp 0x00), (.soop i, isOp 0x01), (.boundset i, isOp 0x03), (.dmaCopy i, isDma .copy), (.matmul i, isOp 0x10),
        (.clrun i, isOp 0x30)],
      p.2 d.bytes = false ∨ s.ready i d = false → Runs p.1 s s.settleBounds) ∧
  (∀ s : State, (∀ x ∈ s.cp.bsets, s.cycle < x.1) → s.settleBounds = s) ∧
  (∀ (s : State) (i : Issuer) (d : Decoded), s.season (s.issuerPart i) ≠ summer → s.ready i d = false) ∧
  (∀ (s : State) (i : Issuer) (d : Decoded),
    s.egPart (s.cmdEg i d.bytes) = some (s.issuerPart i) → s.wheelJob (s.cmdEg i d.bytes) ≠ some (s.issuerJob i d) → s.ready i d = false)

/-- The events of a tensor engine. -/
def Obligations.TensorEngineEventsRun : Prop :=
  ∀ (s : State) (eg : Nat), eg < 128 →
    (∀ c n, (s.teOf eg).waiting.find? (fun t => s.jobRuns t.cmd.part t.cmd.job && (t.asks (s.slotsFor eg t.cmd)).isSome) = some c →
      c.asks (s.slotsFor eg c.cmd) = some n →
      ∃ t f, Runs (.teSlotGrant eg) s t ∧ (t.teOf eg).flight = (s.teNow eg).flight ++ [f] ∧ f.cmd = c.cmd ∧
        f.slots = (s.teNow eg).freeSlots.take n ∧ (∀ x ∈ (t.teOf eg).waiting, x.cmd.uid ≠ c.cmd.uid) ∧ KeepsBytes s t) ∧
    (∀ k c, k < 4 → (s.teNow eg).flight[k]? = some c →
      (s.jobRuns c.cmd.part c.cmd.job = true → c.ended = false → hdrOpcode c.cmd.bytes = 0x22 →
        Runs (.teStep eg k) s (s.attnStep eg c)) ∧
      (s.jobRuns c.cmd.part c.cmd.job = true → c.ended = false → hdrOpcode c.cmd.bytes ≠ 0x22 →
        Runs (.teStep eg k) s (s.matStep eg c.cmd.uid 4)) ∧
      (s.jobRuns c.cmd.part c.cmd.job = false ∨ c.ended = true → Runs (.teStep eg k) s s)) ∧
    (∀ c x, (s.teOf eg).nextDrain = some (c, x) → Runs (.tileDrain eg) s (s.matDrain eg c x))

/-- Instructions and posts of a core. -/
def Obligations.CoresRunAndPost : Prop :=
  ∀ (s : State) (eg c w len u : Nat) (k : Core),
    let r := s.coreStart eg c u k
    (CoreIssues s eg c (fun w => !anyTile w) w len u k → Runs (.basilInstruction eg c) s (State.coreInstr eg c r k w len u)) ∧
    (CoreIssues s eg c (isTile 0 0) w len u k →
      let n := (k.rx (rvRs2 w)).toNat
      let a := (k.rx (rvRs1 w)).toNat
      n ∈ [32, 64, 80, 96, 128] → inCoreSram eg a n = true → r.badIn (cluAddr eg a) n = none →
      Runs (.tlPost eg c) s (r.postCmd eg c k w len u (r.read (cluAddr eg a) n) (1 + ceilDiv n 64))) ∧
    (CoreIssues s eg c (isTile 0 1) w len u k →
      let a := (k.rx (rvRs1 w)).toNat
      inCoreSram eg a 64 = true → r.badIn (cluAddr eg a) 64 = none →
      Runs (.tlDma eg c) s (r.postCmd eg c k w len u (dmaHeader eg ++ r.read (cluAddr eg a) 64) 2))

/-- Tickets of posted commands. -/
def Obligations.PostedCommandsTakeTickets : Prop :=
  (∀ (s : State) (eg c w len u ival : Nat) (k : Core) (b : List Byte) (tk : Ticket),
    eg < 128 → c < 16 → k.tickets[k.next]? = some tk →
    let t := s.postCmd eg c k w len u b ival
    (tk.busy = false →
      (∃ d, t.posts eg c = s.posts eg c ++ [d] ∧ d.bytes = b ∧ d.ticket = k.next ∧ d.job = s.coreJob eg c) ∧
      (t.coreOf eg c).tickets[k.next]? = some { tk with busy := true, done := none } ∧ (t.coreOf eg c).next = (k.next + 1) % 8 ∧
      (rvRd w ≠ 0 → (t.coreOf eg c).rx (rvRd w) = BitVec.ofNat 64 k.next)) ∧
    (tk.busy = true → t.posts eg c = s.posts eg c ∧ (t.coreOf eg c).wait = .post)) ∧
  (∀ (s : State) (eg c n : Nat) (tk : Ticket) (st : Byte),
    eg < 128 → c < 16 → n < 8 → (s.coreOf eg c).tickets[n]? = some tk → tk.done = some st →
    ∃ t, Runs (.ticketCompletion eg c n) s t ∧ (t.coreOf eg c).tickets[n]? = some ⟨false, none, st⟩ ∧ KeepsBytes s t ∧
      (∀ rd, (s.coreOf eg c).wait = .ticket n rd → (t.coreOf eg c).wait = .none ∧
        (rd ≠ 0 → (t.coreOf eg c).rx rd = st.setWidth 64)))

/-- Waits, ends and tile operations of a core. -/
def Obligations.CoresWaitAndEnd : Prop :=
  ∀ (s : State) (eg c w len u : Nat) (k : Core),
    let r := s.coreStart eg c u k
    let n := (k.rx (rvRs1 w)).toNat
    let o := soObjOf k w
    let back := fun (t : State) (v : BitVec 64) (ival lat : Nat) => t.commit eg c k u (outX t k len (rvRd w) v ival lat)
    (CoreIssues s eg c (isTile 0 2) w len u k →
      (k.ticketBusy n = true → Runs (.tlWait eg c) s (r.commit eg c k u (outN r { k with wait := .ticket n (rvRd w) } len 1))) ∧
      (k.ticketBusy n = false → Runs (.tlWait eg c) s (back (r.ticketStatus k n).1 ((r.ticketStatus k n).2.setWidth 64) 1 1))) ∧
    (CoreIssues s eg c (isTile 0 3) w len u k →
      (k.ticketBusy n = true → Runs (.tlTest eg c) s (back r 0xFF#64 1 2)) ∧
      (k.ticketBusy n = false → Runs (.tlTest eg c) s (back (r.ticketStatus k n).1 ((r.ticketStatus k n).2.setWidth 64) 1 2))) ∧
    (CoreIssues s eg c (isTile 0 4) w len u k → statusDefined ((k.rx (rvRs1 w)).setWidth 8) = true →
      Runs (.tlEnd eg c) s (State.tlEnd eg c r k w len u)) ∧
    (CoreIssues s eg c (isTile 1 0) w len u k →
      let op := (k.rx (rvRs2 w)).toNat % 256
      r.actsFor (.core eg c) (r.objPart o) = true → r.objOpOk o op = true →
      let x := r.objOp o op (BitVec.ofNat 32 (n / 2 ^ 32)) (u + objTime (eg / 32) o)
      Runs (.soOp eg c) s (back x.2 (BitVec.ofNat 64 x.1) 1 (objTime (eg / 32) o))) ∧
    (CoreIssues s eg c (isTile 1 1) w len u k → r.actsFor (.core eg c) (r.objPart o) = true → r.objCounter o = false →
      (r.waitSat o (bits n 16 2) (n / 2 ^ 32) = true → Runs (.soWait eg c) s (back r 0#64 1 (objTime (eg / 32) o))) ∧
      (r.waitSat o (bits n 16 2) (n / 2 ^ 32) = false →
        Runs (.soWait eg c) s (r.commit eg c k u
          (outN r { k with wait := .obj o (bits n 16 2) (n / 2 ^ 32) (rvRd w) u (k.rx (rvRs2 w)).toNat } len 1)))) ∧
    (∀ q cond comp rd start limit, eg < 128 → c < 16 → (s.coreOf eg c).wait = .obj q cond comp rd start limit → limit ≠ 0 →
      ∃ t, Runs (.soWaitTimeout eg c) s t ∧ (t.coreOf eg c).wait = .none ∧ t.cycle = max s.cycle (start + limit) ∧
        (rd ≠ 0 → (t.coreOf eg c).rx rd = 1#64) ∧ KeepsBytes s t) ∧
    (CoreIssues s eg c (isTile 2 0) w len u k → inCoreSram eg n 2048 = true → r.badIn (cluAddr eg n) 2048 = none →
      let fb := (k.rx (rvRs2 w)).toNat % 256
      let b := r.read (cluAddr eg n) 2048
      burstOk fb (r.tsCount ((r.egPart eg).getD 8)) b = true →
      Runs (.tlBld eg c) s (r.commit eg c k u (outX r { k with burst := b, bfmt := BitVec.ofNat 8 fb } len (rvRd w) 0#64 40 40))) ∧
    (CoreIssues s eg c (isTile 2 1) w len u k → k.burst ≠ [] → (byteBlk k.bfmt.toNat = true ∨ rvRd w % 2 = 0) →
      Runs (.tlBdec eg c) s (State.tlBdec eg c r k w len u))

/-- What SO_CLAIM grants. -/
def Obligations.ClaimsGrantDisjointIndices : Prop :=
  ∀ (s : State) (eg c w len u : Nat) (k : Core), CoreIssues s eg c (isTile 1 2) w len u k →
    let o := soObjOf k w
    let n := (k.rx (rvRs2 w)).toNat % 65536
    let gen := bits (k.rx (rvRs1 w)).toNat 16 16
    let next := (s.reg .syncObj o).toNat
    s.actsFor (.core eg c) (s.objPart o) = true → s.objCounter o = true → n ≠ 0 →
    ∃ t, Runs (.soClaim eg c) s t ∧ KeepsBytes s t ∧ (∀ m i, ¬ (m = .syncObj ∧ i = o) → t.reg m i = s.reg m i) ∧
      (s.fld F.syncCfg_GEN o ≠ gen →
        t.reg .syncObj o = s.reg .syncObj o ∧ (rvRd w ≠ 0 → (t.coreOf eg c).rx (rvRd w) = 0x8000000000000011#64)) ∧
      (s.fld F.syncCfg_GEN o = gen → s.objLimit o ≤ next →
        t.reg .syncObj o = s.reg .syncObj o ∧ (rvRd w ≠ 0 → (t.coreOf eg c).rx (rvRd w) = 0x8000000000000000#64)) ∧
      (s.fld F.syncCfg_GEN o = gen → next < s.objLimit o →
        let m := min n (s.objLimit o - next)
        (t.reg .syncObj o).toNat = next + m ∧ (rvRd w ≠ 0 → ((t.coreOf eg c).rx (rvRd w)).toNat = next + m * 2 ^ 32))

/-- Wheel entries, and writes of wheel and job registers. -/
def Obligations.WheelsAndJobsTakeTheirWrites : Prop :=
  (∀ (s : State) (eg : Nat), eg < 128 → (s.wheel eg).running = true →
    let e := s.fld F.cpWstat_ENTRY eg + 1
    ∃ t, Runs (.wheelEntryStart eg) s t ∧ t.cycle = max s.cycle (s.entryEnd eg) ∧ (t.wheel eg).running = true ∧
      ((s.entryHeld eg).entryEnd eg ≤ s.entryEnd eg → (t.wheel eg).start = s.entryEnd eg ∧ (t.wheel eg).hold = 0 ∧
        t.fld F.cpWstat_ENTRY eg = (if e < s.wheelLen eg then e else 0)) ∧
      (s.entryEnd eg < (s.entryHeld eg).entryEnd eg → (t.wheel eg).start = (s.wheel eg).start ∧ t.entryEnd eg = (s.entryHeld eg).entryEnd eg ∧
        t.fld F.cpWstat_ENTRY eg = s.fld F.cpWstat_ENTRY eg) ∧
      (∀ g, g ≠ eg → t.wheel g = s.wheel g) ∧ KeepsBytes s t) ∧
  (∀ (s : State) (who : Requester) (isLen : Bool) (n : Nat) (v : Word),
    (n < if isLen then 128 else 8192) → Permits s who (if isLen then .cpWlen else .cpWheel) n →
    let eg := if isLen then n else n / 64
    (s.wheelWriteBad isLen n v = false →
      ∃ t, Runs (.cpWheelWrite who isLen n v) s t ∧ t = { s with wheels := t.wheels } ∧ (∀ g, g ≠ eg → t.wheel g = s.wheel g) ∧
        t.wheel eg = if isLen then { s.wheel eg with wlen := some (v &&& 0xFF#32) }
          else { s.wheel eg with entries := (s.wheel eg).entries ++ [(n % 64, v)] }) ∧
    (s.wheelWriteBad isLen n v = true →
      ∃ t, Runs (.cpWheelWrite who isLen n v) s t ∧ OnlyEvents s t ∧ t.cp.evSeq = (s.cp.evSeq + 1) % 2 ^ 32)) ∧
  (∀ (s : State) (who : Requester) (n : Nat) (v : Word), n < 64 → Permits s who .cpJob n →
    let bad := 4 < s.slotSum (n / 8) (n % 8) v ∨ (s.jobState (n / 8) (n % 8) = 3 ∧ bits v.toNat 1 3 < s.savedHeld (n / 8) (n % 8))
    (¬ bad → ∃ t, Runs (.cpJobWrite who n v) s t ∧ t.reg .cpJob n = plainWrite .cpJob false (s.reg .cpJob n) v ∧
      OnlyRegs (fun m j => (m = .cpJob ∨ m = .cpJstat) ∧ j = n) s t) ∧
    (bad → ∃ t, Runs (.cpJobWrite who n v) s t ∧ OnlyEvents s t ∧ t.cp.evSeq = (s.cp.evSeq + 1) % 2 ^ 32))

/-- SAVE, RESUME and the counters of a job. -/
def Obligations.JobsAreSavedAndResumed : Prop :=
  (∀ (s : State) (who : Requester) (p j : Nat), p < 8 → j < 8 → Permits s who .cpJctl 0 → s.jobState p j < 2 →
    ((s.egsOf p).any (s.jobOn p j) = false →
      ∃ t, Runs (.jobSave who p j) s t ∧ t.jobState p j = 3 ∧ OnlyFields [F.cpJstat_STATE] .cpJstat (8 * p + j) s t) ∧
    ((s.egsOf p).any (s.jobOn p j) = true → s.saveRefused p j = none →
      ∃ t, Runs (.jobSave who p j) s t ∧ t.jobState p j = 2 ∧
        (∀ eg, ∀ c ∈ (t.teOf eg).flight, c.cmd.ofJob p j = true → c.stopped = true) ∧
        OnlyFields [F.cpJstat_STATE] .cpJstat (8 * p + j) s { t with te := s.te })) ∧
  (∀ (s : State) (eg j p : Nat), eg < 128 → j < 8 → s.egPart eg = some p → s.jobState p j = 2 → s.saveRefused p j = none →
      s.unitsBusy p j eg = false →
    ∃ t, Runs (.saveBegin eg j) s t ∧ t.teFlight p j eg = [] ∧ (∀ g, g ≠ eg → t.teOf g = s.teOf g) ∧
      (s.teFlight p j eg = [] → KeepsBytes s t)) ∧
  (∀ (s : State) (who : Requester) (p j : Nat), p < 8 → j < 8 → Permits s who .cpJctl 0 →
    (s.jobState p j = 3 →
      let u := (s.egsOf p).foldl (fun t eg => t.resumeOn p j eg) s
      ∃ t, Runs (.jobResume who p j) s t ∧ t.savedOf p j = [] ∧ t.te = u.te ∧ t.mem = u.mem ∧
        (t.job p j).resume = (s.egsOf p).foldl (fun m eg => max m (s.resumeEnd p j eg)) s.cycle ∧
        (t.jobState p j < 2 ∨ (t.jobState p j = 4 ∧ t.cycle < (t.job p j).resume))) ∧
    (s.jobState p j ≠ 3 → ∃ t, Runs (.jobResume who p j) s t ∧ OnlyEvents s t ∧ t.cp.evSeq = (s.cp.evSeq + 1) % 2 ^ 32) ∧
    (let k := 8 * p + j
     let mine := fun (m : RegName) (i : Nat) => (m = .cpJhist ∧ i / 16 = k) ∨ ((m = .cpJdlcnt ∨ m = .cpJwait) ∧ i = k)
     ∃ t, Runs (.jobStatsClear who p j) s t ∧ OnlyRegs mine s t ∧ (∀ m i, mine m i → t.reg m i = 0#32)))

/-- R437: when the blocks of SYS_PARTMAP move. -/
def Obligations.BlocksMoveInWinter : Prop :=
  ∀ (s : State) (who : Requester) (v : Word), Permits s who .sysPartmap 0 →
    ∃ t, Runs (.partmapWrite who v) s t ∧ OnlyRegsAndEvents (fun n i => n = .sysPartmap ∧ i = 0) s t ∧
      ∀ b, b < 8 →
        let old := bits (s.reg .sysPartmap 0).toNat (4 * b) 4
        let new := bits v.toNat (4 * b) 4
        let now := bits (t.reg .sysPartmap 0).toNat (4 * b) 4
        (bit old 3 = false → now = new) ∧
        (bit old 3 = true → s.season (old % 8) = winter → bit new 3 = true → s.season (new % 8) = winter → now = new) ∧
        (bit old 3 = true → new ≠ old → (s.season (old % 8) ≠ winter ∨ (bit new 3 = true ∧ s.season (new % 8) ≠ winter)) →
          now = old ∧ t.cp.evSeq = (s.cp.evSeq + 1) % 2 ^ 32)

/-- Writes of windows, memory wheels and lending. -/
def Obligations.WindowsAndMemoryWheelsTakeTheirWrites : Prop :=
  (∀ (s : State) (who : Requester) (win : MemWindow) (n : Nat) (v : Word),
    n < (if win = .t2 then 8 else 32) → Permits s who (winReg win) n →
    let z := s.season (winPart win n)
    ((z = spring ∨ z = summer) → Runs (.memWindowWrite who win n v) s s) ∧
    (z ≠ spring → z ≠ summer → s.windowBad win n v = true →
      ∃ t, Runs (.memWindowWrite who win n v) s t ∧ OnlyEvents s t ∧ t.cp.evSeq = (s.cp.evSeq + 1) % 2 ^ 32) ∧
    (z ≠ spring → z ≠ summer → s.windowBad win n v = false →
      ∃ t, Runs (.memWindowWrite who win n v) s t ∧ OnlyRegs (fun m i => m = winReg win ∧ i = n) s t ∧
        t.reg (winReg win) n = plainWrite (winReg win) false (s.reg (winReg win) n) v)) ∧
  (∀ (s : State) (who : Requester) (n : Nat) (v : Word), n < 6912 → Permits s who .memWheel n →
    (s.wheelLive n v = false → ∃ t, Runs (.memWheelWrite who n v) s t ∧ t = { s with memc := t.memc } ∧
      t.ctl (n / 32) = { s.ctl (n / 32) with pending := (s.ctl (n / 32)).pending ++ [(n, v)] } ∧
      (∀ c, c ≠ n / 32 → t.ctl c = s.ctl c)) ∧
    (s.wheelLive n v = true →
      ∃ t, Runs (.memWheelWrite who n v) s t ∧ OnlyEvents s t ∧ t.cp.evSeq = (s.cp.evSeq + 1) % 2 ^ 32)) ∧
  (∀ (s : State) (who : Requester) (p : Nat) (v : Word), p < 8 → Permits s who .sysPartcfg p →
    let z := s.season p
    ∃ t, Runs (.sysPartcfgWrite who p v) s t ∧ OnlyRegs (fun m i => (m = .sysPartcfg ∨ m = .sysDetstat) ∧ i = p) s t ∧
      t.fld F.sysPartcfg_BORROWMAX p = bits v.toNat 1 8 ∧
      t.fld F.sysPartcfg_LEND p = (if z = winter ∨ z = autumn then v.toNat % 2 else s.fld F.sysPartcfg_LEND p) ∧
      t.fld F.sysDetstat_BROKEN p = (if z = autumn ∧ v.toNat % 2 = 1 then 1 else s.fld F.sysDetstat_BROKEN p) ∧
      t.fld F.sysDetstat_MISSES p = s.fld F.sysDetstat_MISSES p ∧ t.fld F.sysDetstat_OVERRUNS p = s.fld F.sysDetstat_OVERRUNS p)

/-- The events of the memory controllers. -/
def Obligations.MemorySlotsAndArrivals : Prop :=
  (∀ (s : State) (c : Nat), c < 216 →
    let x := s.openSlot c
    let m := x.1.ctl c
    let owner := x.1.slotOwner c x.2.1
    (refreshSlot x.2.1 = true → Runs (.memSlotStart c) s x.1 ∧ KeepsBytes s x.1) ∧
    (refreshSlot x.2.1 = false → ∀ o, m.writeBack owner x.2.2 = some o →
      Runs (.memSlotStart c) s (x.1.doWriteBack c o) ∧ (c < 192 → Runs (.atomicWriteback c) s (x.1.doWriteBack c o)) ∧
        KeepsBytes s (x.1.doWriteBack c o)) ∧
    (refreshSlot x.2.1 = false → m.writeBack owner x.2.2 = none →
      (c < 192 → Runs (.atomicWriteback c) s s) ∧
      let y := x.1.passIdle c owner
      let n := y.ctl c
      (x.1.slotServes m owner = none → Runs (.memSlotStart c) s y) ∧
      ((∀ r, owner.bind m.nextReq = some r → r.kind ≠ .idle) → y = x.1) ∧
      (∀ p r, x.1.slotServes m owner = some (p, false) → n.nextReq p = some r →
        Runs (.memSlotStart c) s (y.serve c x.2.2 p r) ∧ KeepsBytes s (y.serve c x.2.2 p r)) ∧
      (∀ p r, x.1.slotServes m owner = some (p, true) → n.nextReq p = some r →
        Runs (.memSlotStart c) s ((y.setCtl c { n with
          borrowed := Sparse.wr (fun _ => 0) p (Sparse.rd (fun _ => 0) p n.borrowed + 1) n.borrowed }).serve c x.2.2 p r)))) ∧
  (∀ (s : State) (c late d : Nat) (o : Outstanding) (rest : List Outstanding),
    c < 218 → (s.ctl c).reads = o :: rest → o.due = some d → o.req.part < 8 →
    (∃ t, Runs (.memReadArrival c 0 .clean) s t ∧ (t.ctl c).reads = rest ∧ t.cycle = max s.cycle d ∧
      (∀ i, t.reg .memSlotmiss i = s.reg .memSlotmiss i) ∧ KeepsBytes s t) ∧
    (0 < late → ∃ t, Runs (.memReadArrival c late .clean) s t ∧ (t.ctl c).reads = rest ∧ t.cycle = max s.cycle (d + late) ∧
      (c < 216 → t.fld F.memSlotmiss_MISSES c = satAdd F.memSlotmiss_MISSES.width (s.fld F.memSlotmiss_MISSES c) 1) ∧
      t.fld F.sysDetstat_MISSES o.req.part = satAdd F.sysDetstat_MISSES.width (s.fld F.sysDetstat_MISSES o.req.part) 1 ∧
      t.fld F.sysDetstat_BROKEN o.req.part = 1 ∧ KeepsBytes s t) ∧
    (∀ n, c < 216 → ∃ t, Runs (.memReadArrival c 0 (.corrected n)) s t ∧
      t.fld F.memEccstat_CORRECTED c = satAdd F.memEccstat_CORRECTED.width (s.fld F.memEccstat_CORRECTED c) n ∧ KeepsBytes s t) ∧
    (∀ a, c < 216 → unitOf a = o.req.unit → controllerOf a = some c →
      ∃ t, Runs (.memReadArrival c 0 (.uncorrectable a)) s t ∧ granuleOf a ∈ t.bad ∧
        (s.undoFrom o.req.uid (granuleOf a) = none → (∀ x ∈ (s.ctl c).open_, x.req.unit ≠ unitOf a) →
          t.pair .memUeaddrLo .memUeaddrHi 0 = granuleOf a % 2 ^ 64 ∧
          t.fld F.memEccstat_UNCORRECTED c = satAdd F.memEccstat_UNCORRECTED.width (s.fld F.memEccstat_UNCORRECTED c) 1 ∧
          ∀ b, OnDevice b → ¬ s.InRing b → t.byteAt b = s.byteAt b)))

/-- Received frames. -/
def Obligations.FramesAreTakenInOrder : Prop :=
  ∀ (s : State) (k : Nat) (raw : List Byte) (f : Frame) (h : PortFields) (fixed : Bool),
    k < 6 → parseFrame raw = some (f, h, fixed) →
    (s.linkState k = 2 →
      let u := (if fixed then s.countFec k else s).honour k h
      (∀ x ∈ (u.port k).replay, seqUpTo x.seq h.ack = false) ∧
      (∀ p ∈ [(Instr.dataFrame k raw, tyData), (.headFrame k raw, tyHead), (.ctrlFrame k raw, tyCtrl), (.creditFrame k raw, tyCredit)],
        f.typ = p.2 →
        (h.seq = ((u.port k).rxSeq + 1) % 4096 →
          let t := u.acceptFrame k f h
          Runs p.1 s (t.linkAnswer k ((t.port k).rxSeq != (u.port k).rxSeq)) ∧
          (p.2 = tyCredit → (t.port k).rxSeq = h.seq ∧ t.ce = s.ce ∧ KeepsBytes s t ∧
            Sparse.rd (fun _ => 0) h.crvc (t.port k).credit = Sparse.rd (fun _ => 0) h.crvc (u.port k).credit + h.crcnt)) ∧
        (h.seq ≠ ((u.port k).rxSeq + 1) % 4096 →
          ∃ t, Runs p.1 s t ∧ (t.port k).rxSeq = (s.port k).rxSeq ∧ (t.port k).buf = (s.port k).buf ∧ t.ce = s.ce ∧ KeepsBytes s t)) ∧
      (∀ p ∈ [(Instr.alignFrame k raw, tyAlign), (.idleFrame k raw, 0)], f.typ = p.2 →
        ∃ t, Runs p.1 s t ∧ (t.port k).rxSeq = (s.port k).rxSeq ∧ (t.port k).buf = (s.port k).buf ∧ t.ce = s.ce ∧ KeepsBytes s t ∧
          ∃ new, (t.port k).replay = (s.port k).replay.filter (fun x => !seqUpTo x.seq h.ack) ++ new)) ∧
    ((s.linkState k = 1 ∨ s.linkState k = 3) → f.typ = tyTrain →
      ∃ t, Runs (.trainFrame k raw) s t ∧ OnlyFields [F.lnkErrcnt_FECCORR] .lnkErrcnt k s { t with links := s.links } ∧
        (∀ j, j ≠ k → t.port j = s.port j) ∧ (t.port k).replay = (s.port k).replay.filter (fun x => !seqUpTo x.seq h.ack) ∧
        (t.port k).nbr = some (num f.payload 0 4 % 2 ^ 24 + num f.payload 4 1 % 16 * 2 ^ 24))

/-- Training, replay and the switch. -/
def Obligations.LinksTrainReplayAndSwitch : Prop :=
  ∀ (s : State) (k : Nat), k < 6 →
    (∀ good : BitVec 18, (s.linkState k = 1 ∨ s.linkState k = 3) →
      let n := ((List.range 18).filter (fun i => bit good.toNat i)).length
      ∃ t, Runs (.linkTrainingDone k good) s t ∧ t.fld F.lnkStat_GOOD k = good.toNat ∧
        (∀ a, OnDevice a → ¬ s.InRing a → t.byteAt a = s.byteAt a) ∧
        (8 ≤ n → (s.port k).nbr = some (s.expectedNbr k) → t.linkState k = 2 ∧ t.fld F.lnkStat_HALF k = b2n (decide (n < 16)) ∧
          t.fld F.lnkStat_NBRFAIL k = 0 ∧ (t.port k).lanes = ((List.range 18).filter (fun i => bit good.toNat i)).take (if n < 16 then 8 else 16)) ∧
        (n < 8 → t.linkState k = 0 ∧ t.fld F.lnkStat_DEGRADED k = 1) ∧
        (8 ≤ n → (s.port k).nbr ≠ some (s.expectedNbr k) → t.linkState k = 0 ∧ t.fld F.lnkStat_NBRFAIL k = 1)) ∧
    (∀ lost, s.linkState k = 2 → (lost = true ∨ 32 ≤ (s.port k).naks) →
      ∃ t, Runs (.linkRetrainTrigger k lost) s t ∧ t.linkState k = 3 ∧ (t.port k).naks = 0 ∧ KeepsBytes s t ∧
        t.fld F.lnkErrcnt_RETRAINS k = satAdd F.lnkErrcnt_RETRAINS.width (s.fld F.lnkErrcnt_RETRAINS k) 1) ∧
    ((s.linkState k = 1 ∨ s.linkState k = 3) → (s.port k).stage < 3 →
      Runs (.trainingStageTimeout k) s (s.setPort k { s.port k with stage := (s.port k).stage + 1 })) ∧
    (s.flag F.lnkCfg_ENABLE k = true → s.linkState k = 0 → (s.port k).noRef = false →
      ∃ t, Runs (.linkTrainRetry k) s t ∧ t.linkState k = 1 ∧ KeepsBytes s t) ∧
    (∀ who v, Permits s who .lnkCfg k → v.toNat % 2 = 1 → bit v.toNat 1 = true →
      ∃ t, Runs (.lnkRetrain who k v) s t ∧ t.fld F.lnkCfg_ENABLE k = 1 ∧ KeepsBytes s t ∧ (s.linkState k = 2 → t.linkState k = 3) ∧
        (s.linkState k = 0 → (s.port k).noRef = false → t.linkState k = 1)) ∧
    ((s.port k).noRef = false → s.flag F.lnkCfg_ENABLE k = true →
      ∃ t, Runs (.serdesRefclkLoss k) s t ∧ t.linkState k = 0 ∧ (t.port k).noRef = true ∧ t.fld F.lnkStat_DEGRADED k = 1) ∧
    (∃ t, Runs (.serdesRefclkReturn k) s t ∧ (t.port k).noRef = false ∧ KeepsBytes s t ∧
      (s.flag F.lnkCfg_ENABLE k = true → s.linkState k = 0 → t.linkState k = 1)) ∧
    (s.linkState k = 2 → ∃ t, Runs (.replayTimeout k) s t ∧ (t.port k).replay = (s.port k).replay ∧ KeepsBytes s t ∧
      (∃ l, t.out = s.out ++ l ∧ (s.port k).replay.length ≤ l.length) ∧
      ((s.port k).replay ≠ [] → t.fld F.lnkErrcnt_RETRIES k = satAdd F.lnkErrcnt_RETRIES.width (s.fld F.lnkErrcnt_RETRIES k) 1)) ∧
    (let u := s.setPort k { s.port k with slot := ((s.port k).slot + 1) % 256 }
     let src := s.switchEntry k (s.port k).slot
     (u.pickFrame src k = none → Runs (.switchSlot k) s u) ∧
     (∀ f, s.linkState k = 2 → (s.port k).replay.length < 2048 → u.pickFrame src k = some f →
       ∃ t, Runs (.switchSlot k) s t ∧ f ∈ s.sourceFrames src ∧ KeepsBytes s t ∧
         (t.sourceFrames src).length + 1 = (s.sourceFrames src).length))

/-- Messages between CEs, and groups. -/
def Obligations.CollectiveMessagesAndGroupsAct : Prop :=
  (∀ (s : State) (d : Nat) (x : InMsg) (rest : List InMsg), d < 2 → (s.ceOf d).inbox = x :: rest → x.data = none →
    let u := s.setCe d { s.ceOf d with inbox := rest }
    (x.head.kind = kReady → Runs (.ready d) s (State.onReady d u x).settleCe) ∧
    (x.head.kind = kGrant → Runs (.grant d) s (State.onGrant d u x).settleCe) ∧
    (x.head.kind = kNotice → Runs (.notice d) s (State.onNotice u x).settleCe) ∧
    (∀ y, (u.ceOf d).sends.find? (fun y => y.cmd.uid == x.head.cmdid) = some y →
      (x.head.kind = kLandack → Runs (.landack d) s (u.landack d y).settleCe) ∧
      (x.head.kind = kReply → x.head.isColl = false → Runs (.reply d) s (u.replySend d y x.head).settleCe)) ∧
    (x.head.kind = kReply → x.head.isColl = true → Runs (.reply d) s (u.replyColl x.head).settleCe)) ∧
  (∀ (s : State) (d n : Nat), d < 2 →
    (n < 4096 → s.groupState n = 1 → (s.group n).home = d → Runs (.readyRetry d n) s (s.retryColl n)) ∧
    (∀ x, 4096 ≤ n → s.sendAt d (n - 4096) = some x → x.refused = true →
      let y := { x with tries := x.tries + 1, refused := false }
      Runs (.readyRetry d n) s ((s.putSend d y).sendReady d y)) ∧
    (s.fld F.ceCollwatch_LIMIT 0 ≠ 0 → n < 4096 → s.groupState n ≠ 0 → (s.group n).home = d → Runs (.collWatch d n) s (s.watchColl n)) ∧
    (∀ x, s.fld F.ceCollwatch_LIMIT 0 ≠ 0 → 4096 ≤ n → s.sendAt d (n - 4096) = some x → x.watched = false →
      Runs (.collWatch d n) s ((s.putSend d { x with watched := true }).event evCollWatch 0x00#8 (some x.cmd.part) 0 0))) ∧
  (∀ (s : State) (who : Requester) (g : Nat), g < 4096 → Permits s who .ceGrpctl 0 →
    (s.groupState g = 0 → s.groupOk g = true →
      ∃ t, Runs (.groupEnable who g) s t ∧ t.groupState g = 1 ∧ t.fld F.ceGrpstat_HALTCODE g = 0 ∧ t.group g = s.readGroup g ∧
        (∀ h, h ≠ g → t.group h = s.group h) ∧ OnlyRegsAndEvents (fun n i => n = .ceGrpstat ∧ i = g) s { t with groups := s.groups }) ∧
    (s.groupState g = 2 →
      ∃ t, Runs (.groupReset who g) s t ∧ t.groupState g = 1 ∧ t.fld F.ceGrpstat_HALTCODE g = 0 ∧
        OnlyRegsAndEvents (fun n i => n = .ceGrpstat ∧ i = g) s { t with groups := s.groups }) ∧
    (s.groupState g ≠ 0 → (s.group g).queue = [] →
      ∃ t, Runs (.groupDisable who g) s t ∧ t.groupState g = 0 ∧ t.group g = Group.reset ∧
        OnlyRegsAndEvents (fun n i => n = .ceGrpstat ∧ i = g) s { t with groups := s.groups }) ∧
    (s.groupState g ≠ 0 → (s.group g).queue ≠ [] → ∃ t, Runs (.groupDisable who g) s t ∧ OnlyEvents s t) ∧
    (s.groupState g ≠ 0 → Runs (.groupAbort who g) s (s.abortGroup g)))

/-- The Ethernet ports. -/
def Obligations.EthernetPortsAnswer : Prop :=
  ∀ (s : State) (e : Nat), e < 4 →
    let p := s.ethPort e
    (s.ethUp e = true → ∀ raw,
      (s.classify e raw = none → ∃ t, Runs (.ethFrameReceive e raw) s t ∧ OnlyFields [F.ethDrop_FOREIGN] .ethDrop e s t ∧
        t.fld F.ethDrop_FOREIGN e = satAdd F.ethDrop_FOREIGN.width (s.fld F.ethDrop_FOREIGN e) 1) ∧
      (∀ x, s.classify e raw = some x → ∃ t, Runs (.ethFrameReceive e raw) s t ∧ t = { s with eth := t.eth } ∧
        t.ethPort e = { p with rx := p.rx ++ [x] } ∧ (∀ d, d ≠ e → t.ethPort d = s.ethPort d))) ∧
    (s.ethUp e = true → ∀ x (c : Instr),
      ((c = .arpRequest e ∧ p.rx.find? (fun y => y.kind == 0) = some x ∧ x.dst ∈ p.addrs) ∨
       (c = .neighborSolicitation e ∧ p.rx.find? (fun y => y.kind == 1) = some x ∧ sub x.body 8 16 ∈ p.addrs ∧ x.src.length = 16) ∨
       (c = .echoRequest e ∧ p.rx.find? (fun y => y.kind == 2) = some x ∧ x.dst ∈ p.addrs ∧
         (p.second = s.nowSec → p.echoes < 1000) ∧ 4 ≤ x.body.length ∧
         ((x.dst.length = 4 ∧ 20 + x.body.length ≤ s.portMtu e) ∨
           (x.src.length = 16 ∧ x.dst.length = 16 ∧ 40 + x.body.length ≤ s.portMtu e)))) →
      ∃ t raw, Runs c s t ∧ t = { s with eth := t.eth, out := t.out, free := t.free } ∧ t.out = s.out ++ [.packet e raw] ∧
        (t.ethPort e).rx = p.rx.erase x ∧ (∀ d, d ≠ e → t.ethPort d = s.ethPort d)) ∧
    (∀ who v, Permits s who .ethCfg e → bit v.toNat 31 = true →
      ∃ t, Runs (.ethRetrain who e v) s t ∧ t.ethUp e = false ∧ (t.ethPort e).training = true ∧ KeepsBytes s t ∧
        t.reg .ethCfg e = plainWrite .ethCfg false (s.reg .ethCfg e) v ∧ (t.ethPort e).next = t.reg .ethCfg e ∧
        (t.ethPort e).lanes = ((cfgMode (t.reg .ethCfg e)).map (fun m => m.lanes)).getD 0) ∧
    (s.ethUp e = true → ∃ t, Runs (.ethLinkLoss e) s t ∧ t.ethUp e = false ∧ (t.ethPort e).training = true ∧
      (t.ethPort e).next = s.reg .ethCfg e ∧ KeepsBytes s t) ∧
    (∃ t, Runs (.serdesRefclkLoss (6 + e)) s t ∧ t.ethUp e = false ∧ (t.ethPort e).noRef = true ∧ Runs (.ethPortUp e) t t ∧
      ∃ u, Runs (.serdesRefclkReturn (6 + e)) t u ∧ (u.ethPort e).noRef = false ∧ (u.ethPort e).training = true) ∧
    (p.training = true → p.noRef = false → 0 < p.next.toNat % 16 → p.next.toNat % 16 < 12 →
      ∃ t, Runs (.ethPortUp e) s t ∧ t.ethUp e = true ∧ (t.ethPort e).training = false ∧ (t.ethPort e).cfg = p.next ∧
        OnlyFields [F.ethStat_UP] .ethStat e s { t with eth := s.eth })

/-- Birsan packets and timers. -/
def Obligations.BirsanSessionsRun : Prop :=
  (∀ (s : State) (e : Nat) (x : RxPkt), e < 4 →
    let p := s.ethPort e
    let u := s.setEth e { p with rx := p.rx.erase x }
    let front := fun (k : Nat) => p.rx.find? (fun y => y.kind == k) = some x
    let sid := num x.body 4 4
    (front 16 → ∀ y h, u.session sid = some y → y.hs = some h → h.initiator = true → h.step ≤ 2 → x.body.length = 64 →
      let g := { h with step := 2, cookie := x.body.drop 32 }
      Runs (.cookie e) s ((u.setSession { y with hs := some g, cookie := g.cookie }).sendInit y.sid y.psid g)) ∧
    (front 17 → 1232 ≤ x.body.length → allZero (sub x.body 36 32) = true →
      ∃ t, Runs (.init e) s t ∧ t = u.sendCookie e x ∧ t.birsan = s.birsan) ∧
    (front 17 → 68 ≤ x.body.length → allZero (sub x.body 36 32) = false →
      sub x.body 36 32 = cookieOf s.birsan.cookie x.src x.sport → Runs (.init e) s (u.keepInit e x)) ∧
    (front 18 → ∀ y h, u.session sid = some y → y.hs = some h → h.initiator = true → h.step = 2 → Runs (.resp e) s (State.onResp e u x)) ∧
    (front 19 → ∀ y h k z, u.session sid = some y → y.hs = some h → h.step = 3 → h.keys = some k → openPacket k x.body 32 = some z →
      Runs (.confirm e) s (State.onConfirm e u x)) ∧
    (∀ y b z, u.session sid = some y → 2 ≤ y.state → y.open_ x.body = some (b, z) →
      let w := z.notePath (num x.body 2 2) (x.peer e)
      (front 20 → Runs (.birsanData e) s ((u.takeData w x b).takeFetched w.sid)) ∧ (front 21 → Runs (.ack e) s (u.takeAck w x b)) ∧
      (front 22 → Runs (.close e) s ((u.setSession w).closeSession w.sid)))) ∧
  (∀ (s : State) (sid : Nat) (y : Session), s.session sid = some y →
    let c := (y.keys.map (fun k => k.ctr)).getD 0
    (2 ≤ y.state → Runs (.birsanSend sid) s (s.sendNext y)) ∧
    (∀ q, y.owed = some q → Runs (.ackDelayExpiry sid) s (s.sendAck y q.1 q.2)) ∧
    (∀ q, y.state = 2 → s.anyPath y = some q → Runs (.keepalive sid) s (s.sendAck y q.idx 0)) ∧
    (2 ≤ y.state → ∃ t, Runs (.sessionIdleTimeout sid) s t ∧ (∀ z ∈ t.birsan.sessions, z.sid = sid → z.state = 0 ∧ z.keys = none) ∧
      t = { s with birsan := t.birsan, sceman := t.sceman }) ∧
    (y.state = 1 → ∃ t, Runs (.handshakeTimeout sid) s t ∧ (∀ z ∈ t.birsan.sessions, z.sid = sid → z.state = 0 ∧ z.hs = none) ∧
      t = { s with birsan := t.birsan, sceman := t.sceman }) ∧
    (y.state ≠ 1 → y.hs.isSome = true → Runs (.handshakeTimeout sid) s (s.dropShake y)) ∧
    (2 ≤ y.state → 2 ^ 40 ≤ c → Runs (.rekey sid) s (s.sendClose y)) ∧
    (y.state = 2 ∨ (y.state = 3 ∧ y.hs = none ∧ y.trial = none) → 2 ^ 39 ≤ c → c < 2 ^ 40 → Runs (.rekey sid) s (s.startRekey y)) ∧
    (∀ k, y.keys = some k → k.seen.isEmpty = false → Runs (.oldKeyExpiry sid) s (s.setSession { y with old := none })) ∧
    (∀ q psn, y.unacked.find? (fun r => r.psn == psn && !r.lost && decide (r.due ≤ s.now10)) = some q →
      let y1 := { y with unacked := y.unacked.map (fun (r : TxPkt) =>
        if r.psn = psn then { r with lost := true, losses := r.losses + 1, expiries := r.expiries + 1 } else r) }
      let y2 := match y1.path q.path with | some p => y1.setPath (s.cutPath p 0) | none => y1
      Runs (.retransmissionTimeout sid psn) s (s.settleLoss y2))) ∧
  (∀ (s : State) (sid : Nat), s.session sid = none →
    (∀ p, s.freePeer = some p → sid < 2 ^ 32 → s.ethUp p.port = true → Runs (.birsanSend sid) s (s.draw.openSession sid p)) ∧
    Runs (.handshakeTimeout sid) s { s with birsan := s.birsan.prune s.now10 }) ∧
  (∀ s : State, ∃ t, Runs .cookieSecretChange s t ∧ t.birsan.cookieO = s.birsan.cookie ∧ t.birsan.cookie.length = 32 ∧
    t = { s with birsan := { s.birsan with cookie := t.birsan.cookie, cookieO := s.birsan.cookie }, free := t.free })

/-- The requests of tenants. -/
def Obligations.ScemanTakesRequests : Prop :=
  (∀ (s : State) (sid : Nat) (y : Session) (b : List Byte), s.session sid = some y → y.role = 0 →
    let u := fun (k : Nat) => s.setSession { y with inbox := y.inbox.erase (k, b) }
    let front := fun (k : Nat) => y.inbox.find? (fun m => m.1 == k) = some (k, b)
    let mine := s.sceman.requests.reverse.find? (fun r => r.tenant == y.tenant && r.rid == padTo 8 b && y.role == 0)
    (front 1 → Runs (.submit sid) s ((u 1).submit { y with inbox := y.inbox.erase (1, b) } b)) ∧
    (front 2 → ∀ r, mine = some r →
      (r.state = 0 → Runs (.cancel sid) s ((u 2).completeRequest { r with sid := sid } St.ok 9)) ∧
      (r.state = 1 → Runs (.cancel sid) s ((u 2).putRequest { r with draining := true, reason := 9 })) ∧
      (2 ≤ r.state → Runs (.cancel sid) s ((u 2).sendMessage sid 0x85 r.completeBody))) ∧
    (front 3 → ∀ r, mine = some r →
      let q := { r with sid := sid, away := false, held := [], sent := r.sent + r.held.length }
      Runs (.query sid) s (r.held.foldl (fun t g => t.sendSegment q g)
        (((u 3).putRequest q).sendMessage sid 0x86 q.stateBody)))) ∧
  (∀ (s : State) (cls n : Nat) (r : Request) (c : Chain), s.sceman.headOf cls = some r →
    s.sceman.chains.findIdx? (s.chainTakes r.variant) = some n → s.sceman.chains[n]? = some c →
    (s.jobFits (s.sceman.variants.getD r.variant Variant.none) c = false → Runs (.requestPlacement cls) s (s.refuseJob r)) ∧
    (s.jobFits (s.sceman.variants.getD r.variant Variant.none) c = true →
      Runs (.requestPlacement cls) s (s.startRequest r n c) ∧
      (∀ b, OnDevice b → ¬ (c.area ≤ b ∧ b < c.area + r.rcd.length) → (∀ a ∈ c.seeds, ¬ (a ≤ b ∧ b < a + 8)) →
        (s.startRequest r n c).byteAt b = s.byteAt b) ∧
      ((s.startRequest r n c).sceman.chains[n]?).map (fun k => k.busy) = some (some r.number))) ∧
  (∀ (s : State) (n : Nat) (st : Byte) (r : Request), s.sceman.requests.find? (fun r => r.number == n && r.state == 1) = some r →
    Runs (.requestComplete n st) s (s.completeRequest r (reasonOf r st).1 (reasonOf r st).2)) ∧
  (∀ (s : State) (n : Nat) (r : Request), s.sceman.requests.find? (fun r => r.number == n && r.state == 1 && r.away) = some r →
    Runs (.sessionLostTimeout n) s (s.putRequest { r with draining := true, reason := 10 })) ∧
  (∀ (s : State) (sid : Nat) (y : Session) (recs : List (List Byte)), s.session sid = some y → 2 ≤ y.state → y.role = 1 →
    (∃ t, Runs (.tenantTableRewrite sid true recs) s t ∧ t.sceman.classes = (recs.take 64).map (padTo 64) ∧
      t = { s with sceman := { s.sceman with classes := t.sceman.classes } }) ∧
    (∃ t, Runs (.tenantTableRewrite sid false recs) s t ∧ t.sceman.tenants = recs.map (padTo 32) ∧
      t = { s with sceman := { s.sceman with tenants := t.sceman.tenants } }))

/-- The codec's descriptors. -/
def Obligations.FennelRunsPictures : Prop :=
  (∀ (s : State) (who : Requester) (v : Word), Permits s who .fenPdqtail 0 →
    let n := s.fenRing
    let h := s.fld F.fenStat_HEAD 0
    let t := v.toNat % 4096
    let back := (t + n - h % n) % n < (s.fld F.fenPdqtail_TAIL 0 + n - h % n) % n
    (t < n → ¬ back → ∃ u, Runs (.fenPdqtail who v) s u ∧ u.fld F.fenPdqtail_TAIL 0 = t ∧
      (headerFirmware who = false → OnlyFields [F.fenPdqtail_TAIL] .fenPdqtail 0 s u) ∧
      (headerFirmware who = true →
        u = (ringSlots n (s.fld F.fenPdqtail_TAIL 0) t).foldl State.fenFor (s.setFld F.fenPdqtail_TAIL 0 t))) ∧
    ((n ≤ t ∨ back) → ∃ u, Runs (.fenPdqtail who v) s u ∧ u.fld F.fenStat_TAILFAULT 0 = 1 ∧
      OnlyRegsAndEvents (fun m i => m = .fenStat ∧ i = 0) s u ∧ u.fld F.fenStat_HEAD 0 = h)) ∧
  (∀ (s : State) (who : Requester) (v : Word), Permits s who .fenCtl 0 →
    ∃ t, Runs (.fenEnable who v) s t ∧ OnlyRegs (fun m i => (m = .fenCtl ∨ m = .fenStat) ∧ i = 0) s { t with fen := s.fen } ∧
      t.fen.run = s.fen.run ∧ t.fen.ctx = s.fen.ctx ∧
      t.reg .fenCtl 0 = plainWrite .fenCtl false (s.reg .fenCtl 0) v ∧
      (s.flag F.fenCtl_ENABLE 0 = false → bit v.toNat 0 = true → t.fld F.fenStat_HEAD 0 = 0)) ∧
  (∀ (s : State) (a : Nat) (d : List Byte), s.fenNext = some (a, d) →
    (num d 0 1 ≠ 1 → Runs .fenEncode s (s.fenStart a d) ∧ Runs .fenDecode s s) ∧
    (num d 0 1 = 1 → Runs .fenDecode s (s.fenStart a d) ∧ Runs .fenEncode s s)) ∧
  (∀ (s : State) (r : FenRun) (cycles misses : Nat), s.fen.run = some r →
    ∃ t, Runs (.pictureComplete cycles misses) s t ∧ t.fen.run = none ∧ t.fld F.fenStat_STATE 0 = 0 ∧
      t.fld F.fenStat_HEAD 0 = (s.fld F.fenStat_HEAD 0 + 1) % s.fenRing % 2 ^ F.fenStat_HEAD.width ∧
      t.fld F.fenCnt_PICTURES 0 = satAdd F.fenCnt_PICTURES.width (s.fld F.fenCnt_PICTURES 0) 1)

/-- R488: the window limiter, with what the window reports. -/
def Obligations.EnergyWindowsLimitTheClock : Prop :=
  ∀ s : State,
    let sums := s.power.sums
    let ewin := fun a => sums.getD a 0 / 1000
    let budget := fun q => s.power.budWas.getD q 0
    let total := sums.foldl (fun x y => x + y) 0
    let cap := 1000 * s.fld F.pwrCap_WINCAP 0
    let lvl := s.fld F.pwrStat_LWIN 0
    let lows := s.power.lows
    let plan := s.planSum budget (s.fld F.pwrReserve_BUDGET 0) ≤ s.fld F.pwrCap_WINCAP 0 ∧ (∀ q, q < 8 → ewin q ≤ budget q) ∧
      ewin 8 ≤ s.fld F.pwrReserve_BUDGET 0
    ∃ t, Runs .energyWindowEnd s t ∧
      (∀ a, a < 9 → (t.reg .pwrEwin a).toNat = ewin a % 2 ^ 32) ∧
      t.fld F.pwrWinseq_WINDOW 0 = satAdd F.pwrWinseq_WINDOW.width (s.fld F.pwrWinseq_WINDOW 0) 1 ∧
      (∀ q, q < 8 → t.fld F.pwrOver_WINDOWS q =
        if budget q < ewin q then satAdd F.pwrOver_WINDOWS.width (s.fld F.pwrOver_WINDOWS q) 1 else s.fld F.pwrOver_WINDOWS q) ∧
      (plan → t.fld F.pwrStat_LWIN 0 = lvl ∧ t.power.lows = 0) ∧
      (¬ plan → cap < total → t.fld F.pwrStat_LWIN 0 = lvl - 1 ∧ t.power.lows = 0) ∧
      (¬ plan → total * 100 < cap * 95 → lows + 1 < 10 → t.fld F.pwrStat_LWIN 0 = lvl ∧ t.power.lows = lows + 1) ∧
      (¬ plan → total * 100 < cap * 95 → 10 ≤ lows + 1 → t.fld F.pwrStat_LWIN 0 = min 15 (lvl + 1) ∧ t.power.lows = 0) ∧
      (¬ plan → total ≤ cap → cap * 95 ≤ total * 100 → t.fld F.pwrStat_LWIN 0 = lvl ∧ t.power.lows = 0)

/-- Energy samples, limiters and the compute clock. -/
def Obligations.LimitersAndClockStep : Prop :=
  (∀ (s : State) (m : Nat), s.power.sums.length = 9 →
    ∃ t, Runs (.energySample m) s t ∧ t.power.sums.length = 9 ∧ t.power.sums.sum = s.power.sums.sum + m ∧
      (∀ a, a < 9 → s.power.sums.getD a 0 ≤ t.power.sums.getD a 0) ∧ t = { s with power := t.power }) ∧
  (∀ (s : State) (w : Nat),
    let cap := s.fld F.pwrCap_FASTCAP 0
    let lvl := s.fld F.pwrStat_LFAST 0
    ∃ t, Runs (.fastLimiterReading w) s t ∧ OnlyFields [F.pwrStat_LFAST] .pwrStat 0 s { t with power := s.power } ∧
      (cap - 50 < w → t.fld F.pwrStat_LFAST 0 = lvl - 1 ∧ t.power.calm = 0) ∧
      (w ≤ cap - 50 → w < cap - 200 → s.power.calm + 1 < 10 → t.fld F.pwrStat_LFAST 0 = lvl ∧ t.power.calm = s.power.calm + 1) ∧
      (w ≤ cap - 50 → w < cap - 200 → 10 ≤ s.power.calm + 1 → t.fld F.pwrStat_LFAST 0 = min 15 (lvl + 1) ∧ t.power.calm = 0) ∧
      (w ≤ cap - 50 → cap - 200 ≤ w → t.fld F.pwrStat_LFAST 0 = lvl ∧ t.power.calm = 0)) ∧
  (∀ (s : State) (temps : List Nat), s.board.runs = true → s.sage.phase ≠ .held →
    let t := fun i => (temps.getD i (s.fld F.pwrTemp_TEMP i)) % 4096
    let lvl := s.fld F.pwrStat_LTHERM 0
    (∀ i, i < 76 → t i < tempCritical i ∨ tempCritical i ≤ s.fld F.pwrTemp_TEMP i) →
    ∃ u, Runs (.thermalSample temps) s u ∧ (∀ i, i < 76 → u.fld F.pwrTemp_TEMP i = t i) ∧
      OnlyRegs (fun n i => (n = .pwrTemp ∧ i < 76) ∨ (n = .pwrStat ∧ i = 0)) s { u with power := s.power, board := s.board } ∧
      u.fld F.pwrStat_LTHERM 0 =
        if ∃ i, i < 76 ∧ tempLimit i < t i then (if s.power.hot + 1 < 10 then lvl else lvl - 1)
        else if allBelow t 5 = true then (if s.power.cool + 1 < 100 then lvl else min 15 (lvl + 1)) else lvl) ∧
  (∀ s : State,
    let l := s.fld F.clkStat_LEVEL 0
    let g := s.targetLevel
    ∃ t, Runs .clockSlewStep s t ∧ OnlyFields [F.clkStat_LEVEL] .clkStat 0 s t ∧
      t.fld F.clkStat_LEVEL 0 = (if l < g then l + 1 else if g < l then l - 1 else l) ∧ g ≤ 15) ∧
  (∀ s : State,
    (s.power.droop = false → ∃ t, Runs .droopDetect s t ∧ t.power = { s.power with droop := true, recover := 0 } ∧
      OnlyFields [F.clkStat_SAGCNT] .clkStat 0 s { t with power := s.power } ∧
      t.fld F.clkStat_SAGCNT 0 = satAdd F.clkStat_SAGCNT.width (s.fld F.clkStat_SAGCNT 0) 1) ∧
    (s.power.droop = true → Runs .droopDetect s s ∧
      Runs .droopEnd s { s with power := { s.power with droop := false, recover := s.tick + 25 } }))

/-- THROTTLE_N, caps and budgets. -/
def Obligations.ThrottleAndPowerLimitsAreHonoured : Prop :=
  (∀ (s : State) (on : Bool),
    (s.board.throttleHold = false → s.flag F.pwrStat_THROTTLE 0 ≠ on →
      ∃ t, Runs (.throttleNChange on) s t ∧ t.flag F.pwrStat_THROTTLE 0 = on ∧ t.board.throttleHold = true ∧ t.board.throttle = on ∧
        (on = false → t.flag F.pwrStat_STUCK 0 = false) ∧ KeepsBytes s t) ∧
    (s.board.throttleHold = true → Runs (.throttleNChange on) s { s with board := { s.board with throttle := on } })) ∧
  (∀ s : State, s.board.throttleHold = true →
    ∃ t, Runs .throttleHoldEnd s t ∧ t.flag F.pwrStat_THROTTLE 0 = s.board.throttle ∧ KeepsBytes s t ∧
      (s.flag F.pwrStat_THROTTLE 0 = s.board.throttle → t.board.throttleHold = false)) ∧
  (∀ s : State, s.flag F.pwrStat_THROTTLE 0 = true → s.flag F.pwrStat_STUCK 0 = false →
    ∃ t, Runs .throttleStuck s t ∧ t.flag F.pwrStat_STUCK 0 = true ∧ t.sage.alert = true ∧ t.cp.evSeq = (s.cp.evSeq + 1) % 2 ^ 32) ∧
  (∀ (s : State) (who : Requester) (v : Word), Permits s who .pwrCap 0 →
    let win := bits v.toNat 0 16
    let fast := bits v.toNat 16 12
    let good := 17000 ≤ win ∧ win ≤ 27500 ∧ 1700 ≤ fast ∧ fast ≤ 2900
    (s.flag F.pwrCap_LOCK 0 = true → Runs (.pwrCapWrite who v) s s) ∧
    (s.flag F.pwrCap_LOCK 0 = false → good → ∃ t, Runs (.pwrCapWrite who v) s t ∧ OnlyRegs (fun n i => n = .pwrCap ∧ i = 0) s t ∧
      t.fld F.pwrCap_WINCAP 0 = win ∧ t.fld F.pwrCap_FASTCAP 0 = fast) ∧
    (s.flag F.pwrCap_LOCK 0 = false → ¬ good → ∃ t, Runs (.pwrCapWrite who v) s t ∧ OnlyEvents s t ∧
      t.cp.evSeq = (s.cp.evSeq + 1) % 2 ^ 32)) ∧
  (∀ (s : State) (who : Requester) (n : Nat) (v : Word), n < 9 →
    Permits s who (if n = 8 then .pwrReserve else .pwrBudget) (if n = 8 then 0 else n) →
    let x := v.toNat % 65536
    let sum := s.planSum (fun p => if p = n then x else s.fld F.pwrBudget_BUDGET p) (if n = 8 then x else s.fld F.pwrReserve_BUDGET 0)
    (sum ≤ s.fld F.pwrCap_WINCAP 0 → ∃ t, Runs (.pwrBudgetWrite who n v) s t ∧
      (if n = 8 then t.fld F.pwrReserve_BUDGET 0 else t.fld F.pwrBudget_BUDGET n) = x ∧
      OnlyRegs (fun m i => if n = 8 then m = .pwrReserve ∧ i = 0 else m = .pwrBudget ∧ i = n) s t) ∧
    (s.fld F.pwrCap_WINCAP 0 < sum → ∃ t, Runs (.pwrBudgetWrite who n v) s t ∧ OnlyEvents s t ∧
      t.cp.evSeq = (s.cp.evSeq + 1) % 2 ^ 32))

/-- Module reset and release. -/
def Obligations.ModuleResetsAndReleases : Prop :=
  (∀ (s : State) (c : Instr) (cause : Option Fld),
    ((∃ ns, 200 ≤ ns ∧ c = .resetNAssert ns ∧ cause = some F.sysRstcause_PIN) ∨
     (s.board.pwrgood = true ∧ c = .pwrgoodLow ∧ cause = some F.sysRstcause_POWER) ∨
     ((c = .inputUndervoltage ∨ c = .inputOvervoltage ∨ c = .inputOvercurrent) ∧ cause = some F.sysRstcause_POWER) ∨
     (s.board.osc = true ∧ c = .alwaysOnClockLoss ∧ cause = none) ∨
     (s.board.hotIo = false ∧ c = .powerStageOvertemp ∧ cause = some F.sysRstcause_IOTEMP) ∨
     (s.sage.phase ≠ .held ∧ c = .sageWatchdog ∧ cause = some F.sysRstcause_WATCHDOG)) →
    ∃ t, Runs c s t ∧ t.dieSeason = winter ∧ (∀ p, p < 8 → t.season p = winter) ∧ (∀ a, OnDevice a → t.byteAt a = 0x00#8) ∧
      t.cp.inflight = [] ∧ t.te = [] ∧ t.cores = [] ∧ t.cycle = 0 ∧ (∀ f, cause = some f → t.fld f 0 = 1) ∧
      t.sage.uds = s.sage.uds ∧ t.sage.fuseOwn = s.sage.fuseOwn ∧ t.sage.flash = s.sage.flash ∧ t.pending = s.pending) ∧
  (∀ (s : State) (ns : Nat), ns < 50 → Runs (.resetNAssert ns) s s) ∧
  (∀ (s : State) (c : Instr) (b : Board),
    ((c = .resetNRelease ∧ b = { s.board with resetN := true }) ∨ (c = .pwrgoodHigh ∧ b = { s.board with pwrgood := true }) ∨
     (c = .presentNMate ∧ b = { s.board with mated := true }) ∨ (c = .alwaysOnClockReturn ∧ b = { s.board with osc := true }) ∨
     (c = .inputPowerOn ∧ s.board.shut = some .under ∧ b = { s.board with shut := none }) ∨
     (c = .overcurrentRestart ∧ s.board.shut = some .current ∧ b = { s.board with shut := none }) ∨
     (c = .inputOvervoltageRecovery ∧ s.board.shut = some .overvolt ∧ b = { s.board with shut := none })) →
    ∃ t, Runs c s t ∧ t.board = b ∧ KeepsBytes s t ∧
      (b.runs = true → s.sage.phase = .held → t.tick = 0 ∧ t.fld F.bootStat_STAGE 0 = 0 ∧
        t.sage.phase = if s.flag F.bootCtl_STEP 0 then .stepWait else .ready) ∧
      (b.runs = false ∨ s.sage.phase ≠ .held → t = { s with board := b }))

/-- CRST_N, and the PCIe ports. -/
def Obligations.DieAndPortResetsAct : Prop :=
  (∀ (s : State) (on : Bool),
    let c := if on then Instr.crstNAssert else Instr.crstNRelease
    (s.board.crstHold = false → s.flag F.sysSeason_CRSTHELD 0 ≠ on →
      ∃ t, Runs c s t ∧ t.flag F.sysSeason_CRSTHELD 0 = on ∧ t.board.crstHold = true ∧ t.board.crst = on ∧
        (on = true → t.dieSeason = winter ∧ (∀ p, p < 8 → t.season p = winter) ∧ t.fld F.sysRstcause_CRST 0 = 1 ∧
          (∀ a, onDie a = true → t.byteAt a = 0x00#8))) ∧
    (s.board.crstHold = true → Runs c s { s with board := { s.board with crst := on } }) ∧
    (s.board.crstHold = true → s.flag F.sysSeason_CRSTHELD 0 = s.board.crst →
      Runs .crstNHoldEnd s { s with board := { s.board with crstHold := false } }) ∧
    (s.board.crstHold = true → s.flag F.sysSeason_CRSTHELD 0 ≠ s.board.crst →
      ∃ t, Runs .crstNHoldEnd s t ∧ t.flag F.sysSeason_CRSTHELD 0 = s.board.crst ∧ t.board.crstHold = true)) ∧
  (∀ (s : State) (d : Nat), d < 2 →
    (∃ t, Runs (.pcieRefclkLoss d) s t ∧ t.reg .pciStat d = 0#32 ∧ (∀ f, f / 9 = d → t.fn f = PciFn.reset) ∧
      (t.ctl (216 + d)).reads = []) ∧
    (d ∉ s.board.perst → ∃ t, Runs (.perstAssert d) s t ∧ t.board = { s.board with perst := s.board.perst ++ [d] } ∧
      t.reg .pciStat d = 0#32 ∧ (∀ f, f / 9 = d → t.fn f = PciFn.reset) ∧ t.reg .pciFnmap d = s.reg .pciFnmap d) ∧
    (∃ t, Runs (.perstRelease d) s t ∧ d ∉ t.board.perst ∧ t = { s with board := t.board }) ∧
    (∀ (speed width : Nat) (flit : Bool), 1 ≤ speed → speed ≤ 4 → width ∈ [1, 2, 4, 8] → d ∉ s.board.perst → s.board.runs = true →
      ∃ t, Runs (.pcieLinkUp d speed width flit) s t ∧ OnlyRegs (fun n i => n = .pciStat ∧ i = d) s t ∧ t.fld F.pciStat_UP d = 1 ∧
        t.fld F.pciStat_SPEED d = speed ∧ t.fld F.pciStat_WIDTH d = width ∧
        t.fld F.pciStat_FLIT d = b2n (decide (speed = 4) || (flit && decide (speed ≠ 1))) ∧
        t.fld F.pciStat_VFON d = s.fld F.pciStat_VFON d))

/-- The seasons of a partition. -/
def Obligations.PartitionsPassTheirSeasons : Prop :=
  ∀ (s : State) (p : Nat), p < 8 →
    let emptied := fun (t : State) => t.season p = winter ∧ (∀ c ∈ t.cp.inflight, c.part ≠ p) ∧ (∀ k ∈ t.cp.parked, k.cmd.part ≠ p) ∧
      (∀ h ∈ t.cp.holds, h.cmd.part ≠ p) ∧ (∀ q, q < 32768 → s.qPart q = p → t.flag F.qCfg_ENABLE q = false)
    (∀ who, Permits s who .sysPseason p →
      (s.dieSeason = summer → s.season p = winter → s.ownsBlock p = true →
        ∃ t, Runs (.partitionSpring who p) s t ∧ t.season p = spring ∧
          (∀ a, s.springZeroes p a = true → ¬ s.InRing a → t.byteAt a = 0x00#8) ∧ (∀ q, q ≠ p → t.season q = s.season q)) ∧
      (¬ (s.dieSeason = summer ∧ s.season p = winter ∧ s.ownsBlock p = true) →
        ∃ t, Runs (.partitionSpring who p) s t ∧ OnlyEvents s t ∧ t.cp.evSeq = (s.cp.evSeq + 1) % 2 ^ 32) ∧
      (s.season p = summer →
        ∃ t, Runs (.partitionAutumn who p) s t ∧ t.season p = autumn ∧ (∀ h ∈ t.cp.holds, h.cmd.part = p → h.sat ≠ none)) ∧
      (s.season p ≠ summer → ∃ t, Runs (.partitionAutumn who p) s t ∧ OnlyEvents s t ∧ t.cp.evSeq = (s.cp.evSeq + 1) % 2 ^ 32) ∧
      (∃ t, Runs (.partitionReset who p) s t ∧ emptied t)) ∧
    (s.season p = spring → ∃ t, Runs (.partitionClearingEnd p) s t ∧ t.season p = summer ∧
      (∀ eg, eg < 128 → s.egPart eg = some p → (t.wheel eg).running = true ∧ (t.wheel eg).start = s.cycle ∧ t.fld F.cpWstat_ENTRY eg = 0) ∧
      t.reg .sysDetstat p = 0#32) ∧
    (s.season p = autumn → s.partBusy p = false → ∃ t, Runs (.partitionDrained p) s t ∧ t.season p = winter ∧
      (∀ eg, s.egPart eg = some p → (t.wheel eg).running = false)) ∧
    (s.season p = autumn → s.fld F.sysAutumnlim_LIMIT 0 ≠ 0 → ∃ t, Runs (.autumnLimitExpiry p) s t ∧ emptied t)

/-- The stages of a boot attempt. -/
def Obligations.BootStagesRunInOrder : Prop :=
  ∀ s : State,
    let at_ := fun (t : State) (n : Nat) => t.fld F.bootStat_STAGE 0 = n ∧ t.sage.phase = if s.flag F.bootCtl_STEP 0 then .stepWait else .ready
    let failed := fun (t : State) (cause stage : Nat) => t.fld F.bootStat_CAUSE 0 = cause ∧ t.fld F.bootStat_FSTAGE 0 = stage ∧
      t.sage.phase = .backoff ∧ t.sage.failed = true ∧ t.sage.alert = true ∧
      t.sage.retryAt = s.tick + 2500000 * 2 ^ min (s.fld F.bootStat_ATTEMPTS 0) 9 ∧
      t.fld F.bootStat_ATTEMPTS 0 = satAdd F.bootStat_ATTEMPTS.width (s.fld F.bootStat_ATTEMPTS 0) 1 ∧ (5 ≤ stage → t.dieSeason = winter)
    (s.stageReady 0 = true → ∃ t, Runs .bootRom s t ∧ at_ t (if s.sage.rom then 2 else 1) ∧ t.sage.image = none ∧ KeepsBytes s t) ∧
    (s.stageReady 1 = true → ∃ t, Runs .bootHost s t ∧ at_ t 2 ∧ t.sage.rom = true ∧ KeepsBytes s t) ∧
    (s.stageReady 2 = true → Runs .bootFlash s s.stageFlash) ∧
    (s.stageReady 3 = true → s.sage.lpRetry = false → ∀ l, ∃ t, Runs (.bootIod l) s t ∧ at_ t 4 ∧ t.flag F.pwrCap_LOCK 0 = true) ∧
    (s.stageReady 3 = true → s.sage.lpRetry = true → ∀ l, ∃ t, Runs (.bootIod l) s t ∧
      ((s.trainLp l).sage.lpGood = true → at_ t 5) ∧ ((s.trainLp l).sage.lpGood = false → failed t 7 3)) ∧
    (s.stageReady 4 = true → ∃ t, Runs .bootLinks s t ∧ (s.sage.lpGood = true → at_ t 5) ∧ (s.sage.lpGood = false → failed t 7 3) ∧
      (∀ k, k < 6 → s.flag F.lnkCfg_ENABLE k = true → s.linkState k = 0 → (s.port k).noRef = false → t.linkState k = 1)) ∧
    (s.stageReady 5 = true → s.dieMayRise = true → ∀ r, Runs (.bootHbm r) s (s.stageHbm r)) ∧
    (s.stageReady 6 = true →
      (∃ t, Runs (.powerWave true) s t ∧ t.sage.wave = s.sage.wave + 1 ∧ (7 ≤ s.sage.wave → at_ t 7) ∧
        (s.sage.wave < 7 → t = { s with sage := t.sage })) ∧
      (∃ t, Runs (.powerWave false) s t ∧ failed t 9 6)) ∧
    (s.stageReady 7 = true → (∃ t, Runs (.bootBroadcast true) s t ∧ at_ t 8) ∧ (∃ t, Runs (.bootBroadcast false) s t ∧ failed t 10 7)) ∧
    (s.stageReady 8 = true →
      (∃ t, Runs (.bootSelftest none) s t ∧ t.dieSeason = summer ∧ t.fld F.bootStat_STAGE 0 = 9 ∧ t.fld F.bootStat_ATTEMPTS 0 = 0 ∧
        t.sage.phase = .summer) ∧
      (∀ eg, eg < 128 → ∃ t, Runs (.bootSelftest (some eg)) s t ∧ failed t 9 8 ∧ t.fld F.bootStat_FAILEG 0 = eg)) ∧
    (s.sage.phase = .ready → s.fld F.bootStat_STAGE 0 ≤ 8 → (s.fld F.bootStat_STAGE 0 = 5 → s.dieMayRise = true) →
      ∃ t, Runs .bootStageTimeout s t ∧ failed t 1 (s.fld F.bootStat_STAGE 0)) ∧
    (s.sage.phase = .backoff → ∃ t, Runs .bootBackoffExpiry s t ∧ KeepsBytes s t ∧ t.tick = max s.tick s.sage.retryAt ∧
      at_ t (if s.sage.nextFull then 0 else if s.sage.lpRetry then 3 else 5))

/-- The actions of BOOT_CTL and SEC_CTL. -/
def Obligations.BootAndFuseCommandsAct : Prop :=
  (∀ (s : State) (who : Requester), Permits s who .bootCtl 0 →
    (s.sage.phase = .stepWait → ∃ t, Runs (.go who) s t ∧ t.sage.phase = .ready ∧ t.fld F.bootStat_STEPWAIT 0 = 0 ∧
      OnlyFields [F.bootStat_STEPWAIT] .bootStat 0 s { t with sage := s.sage }) ∧
    (s.sage.phase ≠ .stepWait → Runs (.go who) s s) ∧
    (s.sage.phase = .stepWait ∨ s.sage.phase = .backoff →
      ∃ t, Runs (.restart who) s t ∧ t.fld F.bootStat_STAGE 0 = 0 ∧ t.dieSeason ≠ spring ∧
        t.sage.phase = if s.flag F.bootCtl_STEP 0 then .stepWait else .ready) ∧
    (let u := s.draw
     let t1 := decide (2 ^ 63 ≤ s.pair .bootHaddrLo .bootHaddrHi 0)
     let b := readImage (u.hostRead t1) (if t1 then s.haddr % 2 ^ 48 else s.haddr) 16777216
     (t1 = true ∨ s.flag F.pciStat_UP 0 = true → ∃ t, Runs (.flashUpdate who) s t ∧
       (∀ m, u.verify 0 b = .ok m → t = (u.flashWrite (imageBase (1 - s.sage.slot)) b).dirWrite 0 (1 - s.sage.slot)) ∧
       (∀ e, u.verify 0 b = .error e → t.sage = s.sage ∧ t.fld F.bootStat_CAUSE 0 = e % 16))) ∧
    (∃ t, Runs (.alertclr who) s t ∧ t.sage.alert = false ∧ t = { s with sage := { s.sage with alert := false } })) ∧
  (∀ (s : State) (who : Requester), Permits s who .secCtl 0 →
    (∀ m, s.sage.image = some m → m.svn < 2 ^ 32 → ∃ t, Runs (.commitsvn who) s t ∧
      (t.reg .secSvn 0).toNat = max (s.reg .secSvn 0).toNat m.svn ∧ OnlyRegs (fun n i => n = .secSvn ∧ i = 0) s t) ∧
    (s.flag F.secStat_OWNER 0 = true → Runs (.ownerprog who) s s) ∧
    (s.flag F.secStat_OWNER 0 = false → ∃ t, Runs (.ownerprog who) s t ∧ t.flag F.secStat_OWNER 0 = true ∧
      t.sage = { s.sage with fuseOwn := s.hostRead false s.haddr 96 } ∧ KeepsBytes s t))

/-- Host functions, their memory and their event rings. -/
def Obligations.HostFunctionsReachTheirMemory : Prop :=
  (∀ (s : State) (who : Requester) (a : Nat) (bs : List Byte), who.isHost = true →
    ((s.hostServed who = false ∨ s.bar2Parts who true a bs.length = []) → ∃ t, Runs (.bar2Write who a bs) s t ∧ t.mem = s.mem ∧
      ∀ n, ∃ u, Runs (.bar2Read who a n) s u ∧ u.mem = s.mem) ∧
    (s.hostServed who = true → s.bar2Parts who true a bs.length ≠ [] → s.bad = [] →
      ∃ t, Runs (.bar2Write who a bs) s t ∧ KeepsBytesBut a bs.length s t ∧
        (∀ k, k < bs.length → t.byteAt (a + k) = bs.getD k 0x00#8) ∧ (∀ n i, t.reg n i = s.reg n i)) ∧
    (∀ n, s.hostServed who = true → s.bar2Parts who false a n ≠ [] →
      ∃ t, Runs (.bar2Read who a n) s t ∧ t.mem = s.mem ∧ t.resp.length = n ∧ (s.bad = [] → t.resp = s.read a n))) ∧
  (∀ (s : State) (who : Requester) (d : Nat) (v : Word), d < 2 → Permits s who .pciFnmap d →
    let fields := (List.range 8).map (fun i => if s.vfOn d (i + 1) then bits (s.reg .pciFnmap d).toNat (4 * i) 4 else bits v.toNat (4 * i) 4)
    ((fields.filter (fun x => bit x 3)).Nodup →
      ∃ t, Runs (.pciFnmapWrite who d v) s t ∧ OnlyRegs (fun n i => n = .pciFnmap ∧ i = d) s t ∧
        (∀ i, i < 8 → bits (t.reg .pciFnmap d).toNat (4 * i) 4 = fields.getD i 0)) ∧
    (¬ (fields.filter (fun x => bit x 3)).Nodup → ∃ t, Runs (.pciFnmapWrite who d v) s t ∧ OnlyEvents s t)) ∧
  (∀ (s : State) (d : Nat), d < 2 →
    (∃ t, Runs (.flr d 0) s t ∧ (∀ i, i < 9 → t.fn (9 * d + i) = PciFn.reset ∧ t.flag F.sysEvcfg_EN (9 * d + i) = false) ∧
      t.fld F.pciStat_VFON d = 0 ∧ KeepsBytes s t) ∧
    (∀ v, 1 ≤ v → v ≤ 8 →
      (s.vfOn d v = true → (∀ p, s.vfMapped d v = some p → bit (s.fld F.pciVfctl_FLRPART d) (v - 1) = false) →
        ∃ t, Runs (.flr d v) s t ∧ t.fn (9 * d + v) = PciFn.reset ∧ t.flag F.sysEvcfg_EN (9 * d + v) = false ∧
          OnlyFields [F.sysEvcfg_EN] .sysEvcfg (9 * d + v) s { t with pci := s.pci }) ∧
      (s.vfOn d v = true → ∀ p, s.vfMapped d v = some p → bit (s.fld F.pciVfctl_FLRPART d) (v - 1) = true →
        ∃ t, Runs (.flr d v) s t ∧ t.season p = winter) ∧
      (s.vfOn d v = true → ∀ on, Runs (.d3hot d v on) s (s.setFn (9 * d + v) { s.fn (9 * d + v) with d3 := on })) ∧
      (∀ on, s.vfOn d v ≠ on → ∃ t, Runs (.vfEnable d v on) s t ∧ t.vfOn d v = on ∧ t.fn (9 * d + v) = PciFn.reset ∧
        (∀ w, 1 ≤ w → w ≤ 8 → w ≠ v → t.vfOn d w = s.vfOn d w) ∧
        OnlyFields [F.pciStat_VFON] .pciStat d s { t with pci := s.pci }))) ∧
  (∀ (s : State) (who : Requester) (f : Nat) (v : Word), f < 19 →
    (Permits s who .sysEvcfg f → s.flag F.sysEvcfg_EN f = false → bit v.toNat 4 = true →
      let u := (((s.setFld F.sysEvcfg_LOG2N f (bits v.toNat 0 4)).setFld F.sysEvcfg_SPART f (bits v.toNat 5 3)).setFld
        F.sysEvcfg_VECTOR f (bits v.toNat 16 11)).setFld F.sysEvcfg_IRQEN f (bits v.toNat 27 1)
      (u.ringMayRise f = true → ∃ t, Runs (.sysEvcfgEnable who f v) s t ∧ t.flag F.sysEvcfg_EN f = true ∧
        t.fld F.sysEvcfg_LOG2N f = bits v.toNat 0 4 ∧ OnlyRegs (fun n i => n = .sysEvcfg ∧ i = f) s t) ∧
      (u.ringMayRise f = false → ∃ t, Runs (.sysEvcfgEnable who f v) s t ∧ t.flag F.sysEvcfg_EN f = false ∧
        OnlyRegsAndEvents (fun n i => n = .sysEvcfg ∧ i = f) s t)) ∧
    (Permits s who .sysEvidx f → ∃ t, Runs (.evheadWrite who f v) s t ∧ t.fld F.sysEvidx_EVHEAD f = v.toNat / 65536 ∧
      t.fld F.sysEvidx_EVTAIL f = s.fld F.sysEvidx_EVTAIL f ∧ t.reg .sysEvlost f = 0#32 ∧
      OnlyRegs (fun n i => (n = .sysEvidx ∨ n = .sysEvlost) ∧ i = f) s t))

/-- What the clear commands zero. -/
def Obligations.ClearsZeroTheirCountersAlone : Prop :=
  ∀ (s : State) (who : Requester) (n : Nat),
    (n < 128 → Permits s who .teCvtclr n → ∃ t, Runs (.teCvtclr who n) s t ∧ t.reg .teCvtcnta n = 0#32 ∧ t.reg .teCvtcntb n = 0#32 ∧
      OnlyRegs (fun m i => (m = .teCvtcnta ∨ m = .teCvtcntb) ∧ i = n) s t) ∧
    (n < 128 → Permits s who .teSpillclr n → ∃ t, Runs (.teSpillclr who n) s t ∧ t.reg .teSpillcnt n = 0#32 ∧
      OnlyRegs (fun m i => m = .teSpillcnt ∧ i = n) s t) ∧
    (n < 128 → Permits s who .egSentclr n → ∃ t, Runs (.egSentclr who n) s t ∧ t.reg .egSentstat n = 0#32 ∧
      OnlyRegs (fun m i => m = .egSentstat ∧ i = n) s t) ∧
    (n < 128 → Permits s who .sfuStatclr n → ∃ t, Runs (.sfuStatclr who n) s t ∧ t.reg .sfuStat n = 0#32 ∧
      OnlyRegs (fun m i => m = .sfuStat ∧ i = n) s t) ∧
    (n < 216 → Permits s who .memStatclr n → ∃ t, Runs (.memStatclr who n) s t ∧ t.reg .memEccstat n = 0#32 ∧ t.reg .memSlotmiss n = 0#32 ∧
      OnlyRegs (fun m i => (m = .memEccstat ∨ m = .memSlotmiss) ∧ i = n) s t) ∧
    (n < 130 → Permits s who .cmpStatclr n → ∃ t, Runs (.cmpStatclr who n) s t ∧ t.reg .cmpStat n = 0#32 ∧
      OnlyRegs (fun m i => m = .cmpStat ∧ i = n) s t) ∧
    (n < 6 → Permits s who .lnkStatclr n → ∃ t, Runs (.lnkStatclr who n) s t ∧ t.reg .lnkErrcnt n = 0#32 ∧
      OnlyRegs (fun m i => m = .lnkErrcnt ∧ i = n) s t) ∧
    (n < 4 → Permits s who .ethDropclr n → ∃ t, Runs (.ethDropclr who n) s t ∧ t.reg .ethDrop n = 0#32 ∧
      OnlyRegs (fun m i => m = .ethDrop ∧ i = n) s t) ∧
    (n < 128 → Permits s who .trnStatclr n → ∃ t, Runs (.trnStatclr who n) s t ∧ t.reg .trnStat n = 0#32 ∧ t.reg .trnFrozen n = 0#32 ∧
      OnlyRegs (fun m i => (m = .trnStat ∨ m = .trnFrozen) ∧ i = n) s t) ∧
    (n < 2 → Permits s who .pciVfctl n → ∃ t, Runs (.errclr who n) s t ∧ t.reg .pciErrcnt n = 0#32 ∧
      OnlyRegs (fun m i => m = .pciErrcnt ∧ i = n) s t) ∧
    (n < 4 → Permits s who .cpStatclr n → ∃ t, Runs (.cpStatclr who n) s t ∧ t.fld F.cpStat_SQUASHCNT n = 0 ∧
      OnlyFields [F.cpStat_SQUASHCNT] .cpStat n s t) ∧
    (n < 128 → Permits s who .cpWstatclr n → ∃ t, Runs (.cpWstatclr who n) s t ∧ t.fld F.cpWstat_OVERRUNS n = 0 ∧
      OnlyFields [F.cpWstat_OVERRUNS] .cpWstat n s t) ∧
    (n < 8 → Permits s who .sysDetclr n → ∃ t, Runs (.sysDetclr who n) s t ∧ t.fld F.sysDetstat_MISSES n = 0 ∧ t.fld F.sysDetstat_OVERRUNS n = 0 ∧
      OnlyFields [F.sysDetstat_MISSES, F.sysDetstat_OVERRUNS] .sysDetstat n s t) ∧
    (Permits s who .pwrStatclr 0 → ∃ t, Runs (.pwrStatclr who) s t ∧ (∀ p, p < 8 → t.reg .pwrOver p = 0#32) ∧
      t.fld F.clkStat_SAGCNT 0 = 0 ∧ t.fld F.clkStat_LEVEL 0 = s.fld F.clkStat_LEVEL 0 ∧
      OnlyRegs (fun m i => (m = .pwrOver ∧ i < 8) ∨ (m = .clkStat ∧ i = 0)) s t)

/-- The responder of a port. -/
def Obligations.AttestationAnswersInOrder : Prop :=
  ∀ (s : State) (d : Nat) (req : List Byte), d < 2 → s.sage.rom = true →
    let x := s.spdmOf d
    let answers := fun (c : Instr) (code phase : Nat) =>
      ∃ t raw, Runs c s t ∧ t.out = s.out ++ [.spdm d raw] ∧ num raw 1 1 = code ∧ (t.spdmOf d).phase = phase ∧
        (∀ e, e ≠ d → t.spdmOf e = s.spdmOf e) ∧ t = { s with out := t.out, spdm := t.spdm, sage := t.sage, free := t.free }
    let v13 := num req 0 1 = 0x13
    (num req 0 1 = 0x10 → num req 1 1 = 0x84 → answers (.getVersion d req) 0x04 1) ∧
    (v13 → num req 1 1 = 0xE1 → x.phase = 1 → 20 ≤ req.length → answers (.getCapabilities d req) 0x61 2) ∧
    (v13 → num req 1 1 = 0xE3 → x.phase = 2 → 32 ≤ req.length → bit (num req 8 4) 7 = true → bit (num req 12 4) 1 = true →
      answers (.negotiateAlgorithms d req) 0x63 3) ∧
    (v13 → 3 ≤ x.phase → s.sage.chain ≠ [] →
      (num req 1 1 = 0x81 → answers (.getDigests d req) 0x01 x.phase) ∧
      (num req 1 1 = 0x82 → 8 ≤ req.length → num req 2 1 % 16 = 0 → num req 4 2 < s.spdmChain.length →
        answers (.getCertificate d req) 0x02 x.phase) ∧
      (num req 1 1 = 0x83 → 44 ≤ req.length → num req 2 1 % 16 = 0 → (num req 3 1 = 0 ∨ num req 3 1 = 1 ∨ num req 3 1 = 0xFF) →
        answers (.challenge d req) 0x03 x.phase) ∧
      (num req 1 1 = 0xE0 → 45 ≤ req.length → (num req 3 1 ≤ 9 ∨ num req 3 1 = 0xFF) → num req 36 1 % 16 = 0 →
        answers (.getMeasurements d req) 0x60 x.phase) ∧
      (num req 1 1 = 0xFE → num req 4 2 = 3 → num req 6 1 = 2 → num req 7 2 = 0x1E9B → num req 9 2 = 1 → num req 11 1 = 1 →
        x.last ≠ [] → answers (.vendorDefinedRequest d req) 0x7E x.phase)) ∧
    (v13 → ∀ p ∈ [(Instr.getCapabilities d req, 0xE1, 1), (.negotiateAlgorithms d req, 0xE3, 2), (.getDigests d req, 0x81, 3),
        (.getCertificate d req, 0x82, 3), (.challenge d req, 0x83, 3), (.getMeasurements d req, 0xE0, 3),
        (.vendorDefinedRequest d req, 0xFE, 3)],
      num req 1 1 = p.2.1 → x.phase < p.2.2 →
      ∃ raw, Runs p.1 s { s with out := s.out ++ [.spdm d raw] } ∧ raw.length = 4 ∧ num raw 1 1 = 0x7F)

/-- The management bus. -/
def Obligations.ManagementBusAccessesRegisters : Prop :=
  ∀ (s : State), s.sage.rom = true →
    (∀ off v pec, s.mgmtHeard pec = true → s.mgmt.limit = none →
      let data := Config.freeWord s.free 0
      (mgmtWrites off = true → Runs (.mgmtWrite off v pec) s ((s.draw.mgmtStart 0x00#8 data).regWrite .sage off v)) ∧
      (mgmtWrites off = false → Runs (.mgmtWrite off v pec) s (s.draw.mgmtStart 0x01#8 data)) ∧
      (mgmtReads off = true → ∃ t, Runs (.mgmtReadStart off pec) s t ∧ t.mgmt.stat = 0x00#8 ∧ t.mgmt.limit = some (s.tick + 2500) ∧
        t.resp = s.resp ∧ KeepsBytes s t ∧
        (∀ n i, regAt off = some (n, i) → t.mgmt.data = BitVec.ofNat 32 (leNat (s.regRead .sage off).resp))) ∧
      (mgmtReads off = false → Runs (.mgmtReadStart off pec) s (s.mgmtStart 0x01#8 0#32))) ∧
    (∀ off v, s.mgmtHeard false = false → Runs (.mgmtWrite off v false) s s ∧ Runs (.mgmtReadStart off false) s s) ∧
    (∃ t raw, Runs .mgmtReadResult s t ∧ t.out = s.out ++ [.mgmt raw] ∧ raw.length = 5 ∧
      (s.mgmt.limit = none → raw = s.mgmt.stat :: leBytes 4 s.mgmt.data.toNat) ∧
      t = { s with out := t.out, mgmt := t.mgmt, free := t.free }) ∧
    (∀ a, s.mgmt.i3c = none → Runs (.setdasa a) s { s with mgmt := { s.mgmt with i3c := some (a % 128) } }) ∧
    Runs .rstdaa s { s with mgmt := { s.mgmt with i3c := none } } ∧
    (s.mgmt.i3c = none → s.alertPending = true →
      ∃ t b, Runs .alertResponse s t ∧ t = { s with out := s.out ++ [.mgmt [b]], free := t.free } ∧
        b.toNat / 2 = (0x48 + s.mgmt.strap) % 128)

/-- Reading a sent frame gives the frame. -/
def Obligations.FramesRoundTrip : Prop :=
  ∀ (f : Frame) (p : PortFields),
    f.typ < 7 → f.vc < 8 → f.dest < 4096 → f.dpart < 8 → f.mid < 4096 → f.fidx < 65536 → f.vbytes < 256 → f.payload.length = 256 →
    p.seq < 4096 → p.ack < 4096 → p.crvc < 8 → p.crcnt < 256 →
    (f.bytes p).length = 288 ∧ parseFrame (f.bytes p) = some (f, p, false)
end

