-- ==== Sys2Proof/Laws/Sparse.lean ====
section
/-!
SUPPORT. Laws of sparse tables: reading after writing, and that writing and dropping keep the canonical form.
-/

set_option Elab.async false

namespace Sys2Proof.Machine

variable {α : Type} {d : Nat → α}

theorem Sparse.rd_ins_same (k : Nat) (v : α) (m : Sparse α) (h : ∀ x ∈ m, x.1 ≠ k) :
    Sparse.rd d k (Sparse.ins k v m) = v := by
  induction m with
  | nil => simp [Sparse.ins, Sparse.rd]
  | cons x r ih =>
    obtain ⟨k', v'⟩ := x
    have hk : k' ≠ k := h (k', v') (by simp)
    unfold Sparse.ins
    split
    · simp [Sparse.rd]
    · simp [Sparse.rd, hk, ih (fun y hy => h y (by simp [hy]))]

theorem Sparse.rd_ins_ne {k j : Nat} (v : α) (m : Sparse α) (h : j ≠ k) :
    Sparse.rd d j (Sparse.ins k v m) = Sparse.rd d j m := by
  induction m with
  | nil => simp [Sparse.ins, Sparse.rd, h.symm]
  | cons x r ih =>
    obtain ⟨k', v'⟩ := x
    unfold Sparse.ins
    split
    · simp [Sparse.rd, h.symm]
    · simp [Sparse.rd, ih]

theorem Sparse.rd_filter_ne {k j : Nat} (m : Sparse α) (h : j ≠ k) :
    Sparse.rd d j (m.filter (fun kv => kv.1 != k)) = Sparse.rd d j m := by
  induction m with
  | nil => rfl
  | cons x r ih =>
    obtain ⟨k', v'⟩ := x
    by_cases hk : k' = k
    · subst hk
      simp [Sparse.rd, h.symm, ih]
    · simp [Sparse.rd, hk, ih]

theorem Sparse.rd_filter_same (k : Nat) (m : Sparse α) :
    Sparse.rd d k (m.filter (fun kv => kv.1 != k)) = d k := by
  induction m with
  | nil => rfl
  | cons x r ih =>
    obtain ⟨k', v'⟩ := x
    by_cases hk : k' = k
    · simp [hk, ih]
    · simp [Sparse.rd, hk, ih]

/-- A dropped key reads as unlisted, every other key as before. -/
theorem Sparse.rd_drop (p : Nat → Bool) (k : Nat) (m : Sparse α) :
    Sparse.rd d k (Sparse.drop p m) = if p k then d k else Sparse.rd d k m := by
  induction m with
  | nil => simp [Sparse.drop, Sparse.rd]
  | cons x r ih =>
    obtain ⟨k', v'⟩ := x
    unfold Sparse.drop at ih ⊢
    rw [List.filter_cons]
    by_cases hk : k' = k
    · subst hk
      by_cases hp : p k' = true <;> simp_all [Sparse.rd]
    · by_cases hp : p k' = true <;> simp_all [Sparse.rd]

variable [DecidableEq α]

/-- A table reads what was written to it. -/
@[simp] theorem Sparse.rd_wr_same (k : Nat) (v : α) (m : Sparse α) : Sparse.rd d k (Sparse.wr d k v m) = v := by
  unfold Sparse.wr
  dsimp only
  split
  · next h => rw [Sparse.rd_filter_same, h]
  · exact Sparse.rd_ins_same k v _ (fun x hx => by simpa using (List.mem_filter.1 hx).2)

/-- A write changes no other key. -/
theorem Sparse.rd_wr_ne {k j : Nat} (v : α) (m : Sparse α) (h : j ≠ k) :
    Sparse.rd d j (Sparse.wr d k v m) = Sparse.rd d j m := by
  unfold Sparse.wr
  dsimp only
  split
  · exact Sparse.rd_filter_ne m h
  · rw [Sparse.rd_ins_ne v _ h, Sparse.rd_filter_ne m h]

/-- A write that sets every key of a list of keys reads so at each of them. -/
theorem Sparse.rd_wr (k j : Nat) (v : α) (m : Sparse α) :
    Sparse.rd d j (Sparse.wr d k v m) = if j = k then v else Sparse.rd d j m := by
  split
  · next h => rw [h, Sparse.rd_wr_same]
  · next h => exact Sparse.rd_wr_ne v m h

/-! ## The canonical form -/

theorem Sparse.wfFrom_cons {b k : Nat} {v : α} {r : Sparse α} :
    Sparse.wfFrom d b ((k, v) :: r) = true ↔ b ≤ k ∧ v ≠ d k ∧ Sparse.wfFrom d (k + 1) r = true := by
  simp [Sparse.wfFrom, and_assoc]

theorem Sparse.wfFrom_mono {b c : Nat} (h : c ≤ b) {m : Sparse α} (w : Sparse.wfFrom d b m = true) :
    Sparse.wfFrom d c m = true := by
  cases m with
  | nil => rfl
  | cons x r =>
    obtain ⟨k, v⟩ := x
    rw [Sparse.wfFrom_cons] at w ⊢
    exact ⟨by omega, w.2⟩

theorem Sparse.wfFrom_filter (p : Nat × α → Bool) {b : Nat} {m : Sparse α} (w : Sparse.wfFrom d b m = true) :
    Sparse.wfFrom d b (m.filter p) = true := by
  induction m generalizing b with
  | nil => rfl
  | cons x r ih =>
    obtain ⟨k, v⟩ := x
    rw [Sparse.wfFrom_cons] at w
    rw [List.filter_cons]
    split
    · rw [Sparse.wfFrom_cons]
      exact ⟨w.1, w.2.1, ih w.2.2⟩
    · exact Sparse.wfFrom_mono (by omega) (ih w.2.2)

theorem Sparse.wfFrom_ins {b k : Nat} {v : α} {m : Sparse α} (hb : b ≤ k) (hv : v ≠ d k) (hn : ∀ x ∈ m, x.1 ≠ k)
    (w : Sparse.wfFrom d b m = true) : Sparse.wfFrom d b (Sparse.ins k v m) = true := by
  induction m generalizing b with
  | nil => exact Sparse.wfFrom_cons.2 ⟨hb, hv, rfl⟩
  | cons x r ih =>
    obtain ⟨k', v'⟩ := x
    have hk : k' ≠ k := hn (k', v') (by simp)
    rw [Sparse.wfFrom_cons] at w
    unfold Sparse.ins
    split
    · exact Sparse.wfFrom_cons.2 ⟨hb, hv, Sparse.wfFrom_cons.2 ⟨by omega, w.2⟩⟩
    · exact Sparse.wfFrom_cons.2 ⟨w.1, w.2.1, ih (by omega) (fun y hy => hn y (by simp [hy])) w.2.2⟩

/-- A write keeps the canonical form. -/
theorem Sparse.wf_wr (k : Nat) (v : α) {m : Sparse α} (w : Sparse.wf d m = true) :
    Sparse.wf d (Sparse.wr d k v m) = true := by
  unfold Sparse.wr Sparse.wf
  dsimp only
  split
  · exact Sparse.wfFrom_filter _ w
  · next h =>
    exact Sparse.wfFrom_ins (by omega) h (fun x hx => by simpa using (List.mem_filter.1 hx).2) (Sparse.wfFrom_filter _ w)

/-- Dropping keys keeps the canonical form. -/
theorem Sparse.wf_drop (p : Nat → Bool) {m : Sparse α} (w : Sparse.wf d m = true) :
    Sparse.wf d (Sparse.drop p m) = true := Sparse.wfFrom_filter _ w

end Sys2Proof.Machine
end

