-- ==== Sys2Proof/Laws/Keeps.lean ====
section
/-!
SUPPORT. What keeps `State.Keeps`: an update of fields it does not look at, writes of registers, stores, and folds.
-/

set_option Elab.async false

namespace Sys2Proof.Machine

open Sys2Proof

variable {r s : State}

theorem State.Keeps.refl (s : State) : s.Keeps s := ⟨rfl, rfl, rfl, rfl, Nat.le_refl _, fun h => h⟩

theorem State.Keeps.trans {t : State} (h : r.Keeps s) (g : s.Keeps t) : r.Keeps t :=
  ⟨g.pending.trans h.pending, g.uds.trans h.uds, g.keys.trans h.keys, g.serial.trans h.serial, h.free.trans g.free,
    fun c => g.form (h.form c)⟩

/-- A state with the fields that `Keeps` looks at. -/
theorem State.Keeps.of_eq {t : State} (h : r.Keeps s) (p : t.pending = s.pending) (f : t.free = s.free) (g : t.regs = s.regs)
    (m : t.mem = s.mem) (u : t.sage.uds = s.sage.uds) (k : t.sage.fuseImg = s.sage.fuseImg)
    (n : t.sage.serial = s.sage.serial) : r.Keeps t :=
  ⟨p.trans h.pending, u.trans h.uds, k.trans h.keys, n.trans h.serial, f ▸ h.free, fun c => by
    have := h.form c
    unfold State.Canonical at this ⊢
    rw [g, m]
    exact this⟩

/-- An update of fields that `Keeps` does not look at. -/
theorem State.Keeps.upd (h : r.Keeps s) {cycle' : Nat} {tick' : Nat} {resp' : List Byte} {out' : List Msg} {hi' : Sparse (Option
    Word)} {bad' : List Nat} {cp' : CpState} {wheels' : Sparse Wheel} {jobs' : Sparse JobState} {reload' : Sparse (List
    ReloadEntry)} {saved' : Sparse (List SavedJob)} {memc' : Sparse MemCtl} {te' : Sparse Te} {sfuTab' : Sparse (List Byte)}
    {codeTab' : Sparse (List Byte)} {cores' : Sparse Core} {svcPend' : Nat} {clrun' : Sparse (List ClRun)} {links' : Sparse LinkPort} {ce' : Sparse
    Ce} {groups' : Sparse Group} {eth' : Sparse EthPort} {birsan' : Birsan} {sceman' : Sceman} {fen' : Fennel} {sage' : Sage}
    {power' : Power} {board' : Board} {spdm' : Sparse Spdm} {mgmt' : Mgmt} {pci' : Sparse PciFn} {ring18' : Sparse (List Byte)}
    (u : sage'.uds = s.sage.uds) (k : sage'.fuseImg = s.sage.fuseImg) (n : sage'.serial = s.sage.serial) :
    r.Keeps (State.mk s.pending s.free cycle' tick' resp' out' s.regs hi' s.mem bad' cp' wheels' jobs' reload' saved' memc' te'
    sfuTab' codeTab' cores' svcPend' clrun' links' ce' groups' eth' birsan' sceman' fen' sage' power' board' spdm' mgmt' pci' ring18') :=
  h.of_eq rfl rfl rfl rfl u k n

/-- Any step of a fold that keeps, keeps over the whole fold. -/
theorem State.Keeps.foldl {α : Type} {f : State → α → State} (hf : ∀ s x, r.Keeps s → r.Keeps (f s x)) :
    ∀ (l : List α) {s : State}, r.Keeps s → r.Keeps (l.foldl f s)
  | [], _, h => h
  | x :: l, _, h => State.Keeps.foldl hf l (hf _ x h)

/-! ## Registers, memory and the numbering of free values -/

theorem State.keeps_setReg (h : r.Keeps s) (n : RegName) (i : Nat) (v : Word) : r.Keeps (s.setReg n i v) :=
  ⟨h.pending, h.uds, h.keys, h.serial, h.free, fun c => ⟨(h.form c).1, Sparse.wf_wr _ _ (h.form c).2⟩⟩

theorem State.keeps_resetReg (h : r.Keeps s) (n : RegName) (i : Nat) : r.Keeps (s.resetReg n i) :=
  ⟨h.pending, h.uds, h.keys, h.serial, h.free, fun c => ⟨(h.form c).1, Sparse.wf_wr _ _ (h.form c).2⟩⟩

theorem State.keeps_draw (h : r.Keeps s) : r.Keeps s.draw :=
  ⟨h.pending, h.uds, h.keys, h.serial, Nat.le_succ_of_le h.free, h.form⟩

/-- Bytes put into a table in canonical form leave it in canonical form. -/
theorem putBytes_wf : ∀ (bs : List Byte) (m : Sparse Byte) (a : Nat), Sparse.wf memDefault m = true →
    Sparse.wf memDefault (putBytes m a bs) = true
  | [], _, _, h => h
  | _ :: bs, _, _, h => putBytes_wf bs _ _ (Sparse.wf_wr _ _ h)

theorem State.keeps_store (h : r.Keeps s) (a : Nat) (bs : List Byte) : r.Keeps (s.store a bs) := by
  have g : r.Keeps { s with mem := putBytes s.mem a bs } :=
    ⟨h.pending, h.uds, h.keys, h.serial, h.free, fun c => ⟨putBytes_wf _ _ _ (h.form c).1, (h.form c).2⟩⟩
  unfold State.store
  dsimp only
  split
  · exact h
  · split
    · exact g.of_eq rfl rfl rfl rfl rfl rfl rfl
    · exact g.of_eq rfl rfl rfl rfl rfl rfl rfl

end Sys2Proof.Machine
end

