-- ==== Sys2Proof/Laws/Regs.lean ====
section
/-!
SUPPORT. Laws of the register file: every register has a key of its own, reading a register or a field after a write, and what a
write leaves alone.
-/

set_option Elab.async false

namespace Sys2Proof.Machine

open Sys2Proof

/-- Register names in the order of their codes, part 0. -/
def regNames0 : List RegName :=
  [ .teCvtcnta, .teCvtcntb, .teCvtclr, .egStat, .teSpillcnt, .teSpillclr,
    .sysSentseedLo, .sysSentseedHi, .sysEscbaseLo, .sysEscbaseHi, .egSentstat, .egSentclr,
    .sfuStat, .sfuStatclr, .sfuTblstat, .sfuTblloaded, .wagStat, .egBstat,
    .egBfaultpcLo, .egBfaultpcHi, .qRingbaseLo, .qRingbaseHi, .qCmpbaseLo, .qCmpbaseHi,
    .qCfg, .qDoorbell, .qStat, .qCtrl, .qCmpidx, .qCmplost,
    .cpBound, .cpBndbaseLo, .cpBndbaseHi, .cpTsbaseLo, .cpTsbaseHi, .cpTscount,
    .cpWatch, .cpStat, .cpStatclr, .syncObj, .syncCfg, .sysCoord,
    .memT1win, .memMswin, .memT2win, .memT3due, .memEccstat, .memSlotmiss ]

/-- Register names in the order of their codes, part 1. -/
def regNames1 : List RegName :=
  [ .memStatclr, .memRepair, .memUeaddrLo, .memUeaddrHi, .cmpTblstat, .cmpStat,
    .cmpStatclr, .lnkCfg, .lnkStat, .lnkErrcnt, .lnkStatclr, .lnkSwtab,
    .ceGrptabLo, .ceGrptabHi, .ceGrpctl, .ceGrpstat, .ceCollwatch, .ceRetry,
    .ethCfg, .ethStat, .ethDrop, .ethDropclr, .ethUdpport, .ethCctgt,
    .fenCtl, .fenPdqbaseLo, .fenPdqbaseHi, .fenPdqtail, .fenStat, .fenCnt,
    .sysPartmap, .sysPartcfg, .cpQjob, .cpJob, .cpJdeadline, .cpJsaveLo,
    .cpJsaveHi, .cpWheel, .cpWlen, .cpJctl, .cpJstat, .cpJdlcnt,
    .cpJwait, .cpJhist, .cpWstat, .cpWstatclr, .memWheel, .trnStat ]

/-- Register names in the order of their codes, part 2. -/
def regNames2 : List RegName :=
  [ .trnFrozen, .trnStatclr, .pwrCap, .pwrBudget, .pwrReserve, .pwrEwin,
    .pwrOver, .pwrWinseq, .pwrTemp, .pwrStat, .clkNom, .clkStat,
    .pwrStatclr, .sysDetstat, .sysDetclr, .bootStat, .bootCtl, .bootHaddrLo,
    .bootHaddrHi, .sysSeason, .sysPseason, .sysAutumnlim, .sysRstcause, .secStat,
    .secSvn, .secCtl, .capHead, .pciFnmap, .pciVfctl, .pciT3xlatLo,
    .pciT3xlatHi, .pciStat, .pciErrcnt, .qVec, .sysEvbaseLo, .sysEvbaseHi,
    .sysEvcfg, .sysEvidx, .sysEvlost ]

/-- The register names in the order of their codes. -/
def regNames : List RegName := regNames0 ++ regNames1 ++ regNames2

theorem RegName.names_code (n : RegName) : regNames[n.code]? = some n := by cases n <;> rfl

/-- No two registers share a code. -/
theorem RegName.code_inj {n m : RegName} (h : n.code = m.code) : n = m := by
  have a := RegName.names_code n
  rw [h, RegName.names_code m] at a
  exact (Option.some.inj a).symm

theorem RegName.code_lt (n : RegName) : n.code < 256 := by cases n <;> decide

/-- No two registers share a key. -/
theorem regKey_inj {n m : RegName} {i j : Nat} : regKey n i = regKey m j ↔ n = m ∧ i = j := by
  have hn := n.code_lt
  have hm := m.code_lt
  constructor
  · intro h
    unfold regKey at h
    exact ⟨RegName.code_inj (by omega), by omega⟩
  · rintro ⟨rfl, rfl⟩
    rfl

/-- A register reads what was written to it. -/
@[simp] theorem State.reg_setReg_same (s : State) (n : RegName) (i : Nat) (v : Word) : (s.setReg n i v).reg n i = v :=
  Sparse.rd_wr_same _ _ _

/-- A write of a register changes no other one. -/
theorem State.reg_setReg_ne (s : State) {n m : RegName} {i j : Nat} (v : Word) (h : ¬ (m = n ∧ j = i)) :
    (s.setReg n i v).reg m j = s.reg m j :=
  Sparse.rd_wr_ne _ _ (fun e => h (regKey_inj.1 e))

theorem State.reg_setReg (s : State) (n m : RegName) (i j : Nat) (v : Word) :
    (s.setReg n i v).reg m j = if m = n ∧ j = i then v else s.reg m j := by
  split
  · next h => obtain ⟨rfl, rfl⟩ := h; simp
  · next h => exact State.reg_setReg_ne s v h

/-! ## Fields -/

theorem bits_lt (v lo w : Nat) : bits v lo w < 2 ^ w := Nat.mod_lt _ (Nat.two_pow_pos w)

/-- A word is made of what stands below a field, in it and above it. -/
theorem bits_split (v lo w : Nat) :
    v = v % 2 ^ lo + bits v lo w * 2 ^ lo + v / 2 ^ (lo + w) * 2 ^ (lo + w) := by
  have h1 := Nat.div_add_mod v (2 ^ lo)
  have h2 := Nat.div_add_mod (v / 2 ^ lo) (2 ^ w)
  rw [Nat.div_div_eq_div_mul, ← Nat.pow_add] at h2
  unfold bits
  have e : v / 2 ^ lo * 2 ^ lo =
      (2 ^ w * (v / 2 ^ (lo + w)) + v / 2 ^ lo % 2 ^ w) * 2 ^ lo := by rw [h2]
  rw [Nat.add_mul, Nat.mul_comm (2 ^ w), Nat.mul_assoc, ← Nat.pow_add, Nat.add_comm w lo] at e
  have h3 : 2 ^ lo * (v / 2 ^ lo) = v / 2 ^ lo * 2 ^ lo := Nat.mul_comm _ _
  omega

theorem putField_toNat (x : Word) {lo w : Nat} (v : Nat) (h : lo + w ≤ 32) :
    (putField x lo w v).toNat =
      x.toNat % 2 ^ lo + v % 2 ^ w * 2 ^ lo + x.toNat / 2 ^ (lo + w) * 2 ^ (lo + w) := by
  have hs := bits_split x.toNat lo w
  have hx := x.isLt
  have hp : 2 ^ lo * 2 ^ w = 2 ^ (lo + w) := (Nat.pow_add 2 lo w).symm
  have hq : 2 ^ (lo + w) * 2 ^ (32 - (lo + w)) = 2 ^ 32 := by rw [← Nat.pow_add]; congr 1; omega
  have hl : x.toNat % 2 ^ lo < 2 ^ lo := Nat.mod_lt _ (Nat.two_pow_pos lo)
  have hv : v % 2 ^ w * 2 ^ lo + 2 ^ lo ≤ 2 ^ (lo + w) := by
    have : (v % 2 ^ w + 1) * 2 ^ lo ≤ 2 ^ w * 2 ^ lo :=
      Nat.mul_le_mul_right _ (Nat.mod_lt _ (Nat.two_pow_pos w))
    rw [Nat.add_mul] at this
    rw [← hp, Nat.mul_comm (2 ^ lo)]
    omega
  have hh : x.toNat / 2 ^ (lo + w) * 2 ^ (lo + w) + 2 ^ (lo + w) ≤ 2 ^ 32 := by
    have hlt : x.toNat / 2 ^ (lo + w) < 2 ^ (32 - (lo + w)) := by
      rw [Nat.div_lt_iff_lt_mul (Nat.two_pow_pos _), Nat.mul_comm, hq]
      exact hx
    have : (x.toNat / 2 ^ (lo + w) + 1) * 2 ^ (lo + w) ≤ 2 ^ (32 - (lo + w)) * 2 ^ (lo + w) :=
      Nat.mul_le_mul_right _ hlt
    rw [Nat.add_mul, Nat.mul_comm (2 ^ (32 - (lo + w))), hq] at this
    omega
  unfold putField
  simp only [BitVec.toNat_ofNat]
  rw [Nat.mod_eq_of_lt] <;> omega

/-- A field reads what was written to it. -/
theorem bits_putField_same (x : Word) {lo w : Nat} (v : Nat) (h : lo + w ≤ 32) :
    bits (putField x lo w v).toNat lo w = v % 2 ^ w := by
  rw [putField_toNat x v h]
  have hl : x.toNat % 2 ^ lo < 2 ^ lo := Nat.mod_lt _ (Nat.two_pow_pos lo)
  have e : x.toNat % 2 ^ lo + v % 2 ^ w * 2 ^ lo + x.toNat / 2 ^ (lo + w) * 2 ^ (lo + w) =
      x.toNat % 2 ^ lo + 2 ^ lo * (v % 2 ^ w + 2 ^ w * (x.toNat / 2 ^ (lo + w))) := by
    rw [Nat.pow_add]; ring
  unfold bits
  rw [e, Nat.add_mul_div_left _ _ (Nat.two_pow_pos lo), Nat.div_eq_of_lt hl, Nat.zero_add, Nat.add_mul_mod_self_left,
    Nat.mod_mod]

/-- A write of a field leaves the fields below it. -/
theorem bits_putField_below (x : Word) {lo w : Nat} (v : Nat) (h : lo + w ≤ 32) {l k : Nat} (hb : l + k ≤ lo) :
    bits (putField x lo w v).toNat l k = bits x.toNat l k := by
  have e : ∀ y : Nat, bits y l k = y % 2 ^ lo / 2 ^ l % 2 ^ k := by
    intro y
    have hd : 2 ^ lo = 2 ^ l * (2 ^ k * 2 ^ (lo - (l + k))) := by
      rw [← Nat.mul_assoc, ← Nat.pow_add, ← Nat.pow_add]; congr 1; omega
    rw [hd, Nat.mod_mul_right_div_self, Nat.mod_mul_right_mod]
    rfl
  rw [e, e, putField_toNat x v h]
  congr 2
  have : x.toNat % 2 ^ lo + v % 2 ^ w * 2 ^ lo + x.toNat / 2 ^ (lo + w) * 2 ^ (lo + w) =
      x.toNat % 2 ^ lo + 2 ^ lo * (v % 2 ^ w + 2 ^ w * (x.toNat / 2 ^ (lo + w))) := by
    rw [Nat.pow_add]; ring
  rw [this, Nat.add_mul_mod_self_left, Nat.mod_mod]

/-- A write of a field leaves the fields above it. -/
theorem bits_putField_above (x : Word) {lo w : Nat} (v : Nat) (h : lo + w ≤ 32) {l k : Nat} (hb : lo + w ≤ l) :
    bits (putField x lo w v).toNat l k = bits x.toNat l k := by
  have e : ∀ y : Nat, bits y l k = y / 2 ^ (lo + w) / 2 ^ (l - (lo + w)) % 2 ^ k := by
    intro y
    rw [Nat.div_div_eq_div_mul, ← Nat.pow_add]
    unfold bits
    congr 3
    omega
  rw [e, e, putField_toNat x v h]
  congr 2
  have hl : x.toNat % 2 ^ lo < 2 ^ lo := Nat.mod_lt _ (Nat.two_pow_pos lo)
  have hv : v % 2 ^ w * 2 ^ lo + 2 ^ lo ≤ 2 ^ (lo + w) := by
    have : (v % 2 ^ w + 1) * 2 ^ lo ≤ 2 ^ w * 2 ^ lo :=
      Nat.mul_le_mul_right _ (Nat.mod_lt _ (Nat.two_pow_pos w))
    rw [Nat.add_mul] at this
    rw [Nat.pow_add, Nat.mul_comm (2 ^ lo)]
    omega
  rw [Nat.add_mul_div_right _ _ (Nat.two_pow_pos _), Nat.div_eq_of_lt (by omega), Nat.zero_add]

/-- Whether two fields of a register have no bit in common. -/
def Fld.apart (f g : Fld) : Bool := decide (g.lo + g.width ≤ f.lo) || decide (f.lo + f.width ≤ g.lo)

/-- Whether a field lies within its register. -/
def Fld.fits (f : Fld) : Bool := decide (f.lo + f.width ≤ 32)

/-- A field reads what was written to it. -/
theorem State.fld_setFld_same (s : State) (f : Fld) (i v : Nat) (h : f.fits = true) :
    (s.setFld f i v).fld f i = v % 2 ^ f.width := by
  unfold State.fld State.setFld
  rw [State.reg_setReg_same]
  exact bits_putField_same _ _ (by simpa [Fld.fits] using h)

/-- A write of a field leaves the other fields of its register. -/
theorem State.fld_setFld_apart (s : State) (f g : Fld) (i v : Nat) (h : f.fits = true) (r : g.reg = f.reg)
    (a : f.apart g = true) : (s.setFld f i v).fld g i = s.fld g i := by
  have h' : f.lo + f.width ≤ 32 := by simpa [Fld.fits] using h
  unfold State.fld State.setFld
  rw [r, State.reg_setReg_same]
  simp only [Fld.apart, Bool.or_eq_true, decide_eq_true_eq] at a
  rcases a with a | a
  · exact bits_putField_below _ _ h' a
  · exact bits_putField_above _ _ h' a

/-- A write of a field changes no other register. -/
theorem State.reg_setFld_ne (s : State) (f : Fld) {m : RegName} {i j : Nat} (v : Nat) (h : ¬ (m = f.reg ∧ j = i)) :
    (s.setFld f i v).reg m j = s.reg m j := State.reg_setReg_ne s _ h

/-- A write of a register changes no field of another. -/
theorem State.fld_setReg_ne (s : State) {n : RegName} (g : Fld) {i j : Nat} (v : Word) (h : ¬ (g.reg = n ∧ j = i)) :
    (s.setReg n i v).fld g j = s.fld g j := by
  unfold State.fld
  rw [State.reg_setReg_ne s v h]

/-- A write of a field changes no field of another register. -/
theorem State.fld_setFld_ne (s : State) (f g : Fld) {i j : Nat} (v : Nat) (h : ¬ (g.reg = f.reg ∧ j = i)) :
    (s.setFld f i v).fld g j = s.fld g j := State.fld_setReg_ne s g _ h

end Sys2Proof.Machine
end

