-- ==== Sys2Proof/Laws/State.lean ====
section
/-!
SUPPORT. What each replacement of a part of `State` leaves as it was, one lemma per field, so that no proof unfolds a record update.
-/

namespace Sys2Proof.Machine

open Sys2Proof

/-! ### Replacing a register -/

@[simp] theorem State.setReg_pending (s : State) (n : RegName) (i : Nat) (v : Word) : (s.setReg n i v).pending = s.pending := rfl
@[simp] theorem State.setReg_free (s : State) (n : RegName) (i : Nat) (v : Word) : (s.setReg n i v).free = s.free := rfl
@[simp] theorem State.setReg_cycle (s : State) (n : RegName) (i : Nat) (v : Word) : (s.setReg n i v).cycle = s.cycle := rfl
@[simp] theorem State.setReg_tick (s : State) (n : RegName) (i : Nat) (v : Word) : (s.setReg n i v).tick = s.tick := rfl
@[simp] theorem State.setReg_resp (s : State) (n : RegName) (i : Nat) (v : Word) : (s.setReg n i v).resp = s.resp := rfl
@[simp] theorem State.setReg_out (s : State) (n : RegName) (i : Nat) (v : Word) : (s.setReg n i v).out = s.out := rfl
@[simp] theorem State.setReg_hi (s : State) (n : RegName) (i : Nat) (v : Word) : (s.setReg n i v).hi = s.hi := rfl
@[simp] theorem State.setReg_mem (s : State) (n : RegName) (i : Nat) (v : Word) : (s.setReg n i v).mem = s.mem := rfl
@[simp] theorem State.setReg_bad (s : State) (n : RegName) (i : Nat) (v : Word) : (s.setReg n i v).bad = s.bad := rfl
@[simp] theorem State.setReg_cp (s : State) (n : RegName) (i : Nat) (v : Word) : (s.setReg n i v).cp = s.cp := rfl
@[simp] theorem State.setReg_wheels (s : State) (n : RegName) (i : Nat) (v : Word) : (s.setReg n i v).wheels = s.wheels := rfl
@[simp] theorem State.setReg_jobs (s : State) (n : RegName) (i : Nat) (v : Word) : (s.setReg n i v).jobs = s.jobs := rfl
@[simp] theorem State.setReg_reload (s : State) (n : RegName) (i : Nat) (v : Word) : (s.setReg n i v).reload = s.reload := rfl
@[simp] theorem State.setReg_saved (s : State) (n : RegName) (i : Nat) (v : Word) : (s.setReg n i v).saved = s.saved := rfl
@[simp] theorem State.setReg_memc (s : State) (n : RegName) (i : Nat) (v : Word) : (s.setReg n i v).memc = s.memc := rfl
@[simp] theorem State.setReg_te (s : State) (n : RegName) (i : Nat) (v : Word) : (s.setReg n i v).te = s.te := rfl
@[simp] theorem State.setReg_sfuTab (s : State) (n : RegName) (i : Nat) (v : Word) : (s.setReg n i v).sfuTab = s.sfuTab := rfl
@[simp] theorem State.setReg_codeTab (s : State) (n : RegName) (i : Nat) (v : Word) : (s.setReg n i v).codeTab = s.codeTab := rfl
@[simp] theorem State.setReg_cores (s : State) (n : RegName) (i : Nat) (v : Word) : (s.setReg n i v).cores = s.cores := rfl
@[simp] theorem State.setReg_svcPend (s : State) (n : RegName) (i : Nat) (v : Word) : (s.setReg n i v).svcPend = s.svcPend := rfl
@[simp] theorem State.setReg_clrun (s : State) (n : RegName) (i : Nat) (v : Word) : (s.setReg n i v).clrun = s.clrun := rfl
@[simp] theorem State.setReg_links (s : State) (n : RegName) (i : Nat) (v : Word) : (s.setReg n i v).links = s.links := rfl
@[simp] theorem State.setReg_ce (s : State) (n : RegName) (i : Nat) (v : Word) : (s.setReg n i v).ce = s.ce := rfl
@[simp] theorem State.setReg_groups (s : State) (n : RegName) (i : Nat) (v : Word) : (s.setReg n i v).groups = s.groups := rfl
@[simp] theorem State.setReg_eth (s : State) (n : RegName) (i : Nat) (v : Word) : (s.setReg n i v).eth = s.eth := rfl
@[simp] theorem State.setReg_birsan (s : State) (n : RegName) (i : Nat) (v : Word) : (s.setReg n i v).birsan = s.birsan := rfl
@[simp] theorem State.setReg_sceman (s : State) (n : RegName) (i : Nat) (v : Word) : (s.setReg n i v).sceman = s.sceman := rfl
@[simp] theorem State.setReg_fen (s : State) (n : RegName) (i : Nat) (v : Word) : (s.setReg n i v).fen = s.fen := rfl
@[simp] theorem State.setReg_sage (s : State) (n : RegName) (i : Nat) (v : Word) : (s.setReg n i v).sage = s.sage := rfl
@[simp] theorem State.setReg_power (s : State) (n : RegName) (i : Nat) (v : Word) : (s.setReg n i v).power = s.power := rfl
@[simp] theorem State.setReg_board (s : State) (n : RegName) (i : Nat) (v : Word) : (s.setReg n i v).board = s.board := rfl
@[simp] theorem State.setReg_spdm (s : State) (n : RegName) (i : Nat) (v : Word) : (s.setReg n i v).spdm = s.spdm := rfl
@[simp] theorem State.setReg_mgmt (s : State) (n : RegName) (i : Nat) (v : Word) : (s.setReg n i v).mgmt = s.mgmt := rfl
@[simp] theorem State.setReg_pci (s : State) (n : RegName) (i : Nat) (v : Word) : (s.setReg n i v).pci = s.pci := rfl
@[simp] theorem State.setReg_ring18 (s : State) (n : RegName) (i : Nat) (v : Word) : (s.setReg n i v).ring18 = s.ring18 := rfl

/-! ### Returning a register to its reset value -/

@[simp] theorem State.resetReg_pending (s : State) (n : RegName) (i : Nat) : (s.resetReg n i).pending = s.pending := rfl
@[simp] theorem State.resetReg_free (s : State) (n : RegName) (i : Nat) : (s.resetReg n i).free = s.free := rfl
@[simp] theorem State.resetReg_cycle (s : State) (n : RegName) (i : Nat) : (s.resetReg n i).cycle = s.cycle := rfl
@[simp] theorem State.resetReg_tick (s : State) (n : RegName) (i : Nat) : (s.resetReg n i).tick = s.tick := rfl
@[simp] theorem State.resetReg_resp (s : State) (n : RegName) (i : Nat) : (s.resetReg n i).resp = s.resp := rfl
@[simp] theorem State.resetReg_out (s : State) (n : RegName) (i : Nat) : (s.resetReg n i).out = s.out := rfl
@[simp] theorem State.resetReg_hi (s : State) (n : RegName) (i : Nat) : (s.resetReg n i).hi = s.hi := rfl
@[simp] theorem State.resetReg_mem (s : State) (n : RegName) (i : Nat) : (s.resetReg n i).mem = s.mem := rfl
@[simp] theorem State.resetReg_bad (s : State) (n : RegName) (i : Nat) : (s.resetReg n i).bad = s.bad := rfl
@[simp] theorem State.resetReg_cp (s : State) (n : RegName) (i : Nat) : (s.resetReg n i).cp = s.cp := rfl
@[simp] theorem State.resetReg_wheels (s : State) (n : RegName) (i : Nat) : (s.resetReg n i).wheels = s.wheels := rfl
@[simp] theorem State.resetReg_jobs (s : State) (n : RegName) (i : Nat) : (s.resetReg n i).jobs = s.jobs := rfl
@[simp] theorem State.resetReg_reload (s : State) (n : RegName) (i : Nat) : (s.resetReg n i).reload = s.reload := rfl
@[simp] theorem State.resetReg_saved (s : State) (n : RegName) (i : Nat) : (s.resetReg n i).saved = s.saved := rfl
@[simp] theorem State.resetReg_memc (s : State) (n : RegName) (i : Nat) : (s.resetReg n i).memc = s.memc := rfl
@[simp] theorem State.resetReg_te (s : State) (n : RegName) (i : Nat) : (s.resetReg n i).te = s.te := rfl
@[simp] theorem State.resetReg_sfuTab (s : State) (n : RegName) (i : Nat) : (s.resetReg n i).sfuTab = s.sfuTab := rfl
@[simp] theorem State.resetReg_codeTab (s : State) (n : RegName) (i : Nat) : (s.resetReg n i).codeTab = s.codeTab := rfl
@[simp] theorem State.resetReg_cores (s : State) (n : RegName) (i : Nat) : (s.resetReg n i).cores = s.cores := rfl
@[simp] theorem State.resetReg_svcPend (s : State) (n : RegName) (i : Nat) : (s.resetReg n i).svcPend = s.svcPend := rfl
@[simp] theorem State.resetReg_clrun (s : State) (n : RegName) (i : Nat) : (s.resetReg n i).clrun = s.clrun := rfl
@[simp] theorem State.resetReg_links (s : State) (n : RegName) (i : Nat) : (s.resetReg n i).links = s.links := rfl
@[simp] theorem State.resetReg_ce (s : State) (n : RegName) (i : Nat) : (s.resetReg n i).ce = s.ce := rfl
@[simp] theorem State.resetReg_groups (s : State) (n : RegName) (i : Nat) : (s.resetReg n i).groups = s.groups := rfl
@[simp] theorem State.resetReg_eth (s : State) (n : RegName) (i : Nat) : (s.resetReg n i).eth = s.eth := rfl
@[simp] theorem State.resetReg_birsan (s : State) (n : RegName) (i : Nat) : (s.resetReg n i).birsan = s.birsan := rfl
@[simp] theorem State.resetReg_sceman (s : State) (n : RegName) (i : Nat) : (s.resetReg n i).sceman = s.sceman := rfl
@[simp] theorem State.resetReg_fen (s : State) (n : RegName) (i : Nat) : (s.resetReg n i).fen = s.fen := rfl
@[simp] theorem State.resetReg_sage (s : State) (n : RegName) (i : Nat) : (s.resetReg n i).sage = s.sage := rfl
@[simp] theorem State.resetReg_power (s : State) (n : RegName) (i : Nat) : (s.resetReg n i).power = s.power := rfl
@[simp] theorem State.resetReg_board (s : State) (n : RegName) (i : Nat) : (s.resetReg n i).board = s.board := rfl
@[simp] theorem State.resetReg_spdm (s : State) (n : RegName) (i : Nat) : (s.resetReg n i).spdm = s.spdm := rfl
@[simp] theorem State.resetReg_mgmt (s : State) (n : RegName) (i : Nat) : (s.resetReg n i).mgmt = s.mgmt := rfl
@[simp] theorem State.resetReg_pci (s : State) (n : RegName) (i : Nat) : (s.resetReg n i).pci = s.pci := rfl
@[simp] theorem State.resetReg_ring18 (s : State) (n : RegName) (i : Nat) : (s.resetReg n i).ring18 = s.ring18 := rfl

/-! ### Replacing a field -/

@[simp] theorem State.setFld_pending (s : State) (f : Fld) (i v : Nat) : (s.setFld f i v).pending = s.pending := rfl
@[simp] theorem State.setFld_free (s : State) (f : Fld) (i v : Nat) : (s.setFld f i v).free = s.free := rfl
@[simp] theorem State.setFld_cycle (s : State) (f : Fld) (i v : Nat) : (s.setFld f i v).cycle = s.cycle := rfl
@[simp] theorem State.setFld_tick (s : State) (f : Fld) (i v : Nat) : (s.setFld f i v).tick = s.tick := rfl
@[simp] theorem State.setFld_resp (s : State) (f : Fld) (i v : Nat) : (s.setFld f i v).resp = s.resp := rfl
@[simp] theorem State.setFld_out (s : State) (f : Fld) (i v : Nat) : (s.setFld f i v).out = s.out := rfl
@[simp] theorem State.setFld_hi (s : State) (f : Fld) (i v : Nat) : (s.setFld f i v).hi = s.hi := rfl
@[simp] theorem State.setFld_mem (s : State) (f : Fld) (i v : Nat) : (s.setFld f i v).mem = s.mem := rfl
@[simp] theorem State.setFld_bad (s : State) (f : Fld) (i v : Nat) : (s.setFld f i v).bad = s.bad := rfl
@[simp] theorem State.setFld_cp (s : State) (f : Fld) (i v : Nat) : (s.setFld f i v).cp = s.cp := rfl
@[simp] theorem State.setFld_wheels (s : State) (f : Fld) (i v : Nat) : (s.setFld f i v).wheels = s.wheels := rfl
@[simp] theorem State.setFld_jobs (s : State) (f : Fld) (i v : Nat) : (s.setFld f i v).jobs = s.jobs := rfl
@[simp] theorem State.setFld_reload (s : State) (f : Fld) (i v : Nat) : (s.setFld f i v).reload = s.reload := rfl
@[simp] theorem State.setFld_saved (s : State) (f : Fld) (i v : Nat) : (s.setFld f i v).saved = s.saved := rfl
@[simp] theorem State.setFld_memc (s : State) (f : Fld) (i v : Nat) : (s.setFld f i v).memc = s.memc := rfl
@[simp] theorem State.setFld_te (s : State) (f : Fld) (i v : Nat) : (s.setFld f i v).te = s.te := rfl
@[simp] theorem State.setFld_sfuTab (s : State) (f : Fld) (i v : Nat) : (s.setFld f i v).sfuTab = s.sfuTab := rfl
@[simp] theorem State.setFld_codeTab (s : State) (f : Fld) (i v : Nat) : (s.setFld f i v).codeTab = s.codeTab := rfl
@[simp] theorem State.setFld_cores (s : State) (f : Fld) (i v : Nat) : (s.setFld f i v).cores = s.cores := rfl
@[simp] theorem State.setFld_svcPend (s : State) (f : Fld) (i v : Nat) : (s.setFld f i v).svcPend = s.svcPend := rfl
@[simp] theorem State.setFld_clrun (s : State) (f : Fld) (i v : Nat) : (s.setFld f i v).clrun = s.clrun := rfl
@[simp] theorem State.setFld_links (s : State) (f : Fld) (i v : Nat) : (s.setFld f i v).links = s.links := rfl
@[simp] theorem State.setFld_ce (s : State) (f : Fld) (i v : Nat) : (s.setFld f i v).ce = s.ce := rfl
@[simp] theorem State.setFld_groups (s : State) (f : Fld) (i v : Nat) : (s.setFld f i v).groups = s.groups := rfl
@[simp] theorem State.setFld_eth (s : State) (f : Fld) (i v : Nat) : (s.setFld f i v).eth = s.eth := rfl
@[simp] theorem State.setFld_birsan (s : State) (f : Fld) (i v : Nat) : (s.setFld f i v).birsan = s.birsan := rfl
@[simp] theorem State.setFld_sceman (s : State) (f : Fld) (i v : Nat) : (s.setFld f i v).sceman = s.sceman := rfl
@[simp] theorem State.setFld_fen (s : State) (f : Fld) (i v : Nat) : (s.setFld f i v).fen = s.fen := rfl
@[simp] theorem State.setFld_sage (s : State) (f : Fld) (i v : Nat) : (s.setFld f i v).sage = s.sage := rfl
@[simp] theorem State.setFld_power (s : State) (f : Fld) (i v : Nat) : (s.setFld f i v).power = s.power := rfl
@[simp] theorem State.setFld_board (s : State) (f : Fld) (i v : Nat) : (s.setFld f i v).board = s.board := rfl
@[simp] theorem State.setFld_spdm (s : State) (f : Fld) (i v : Nat) : (s.setFld f i v).spdm = s.spdm := rfl
@[simp] theorem State.setFld_mgmt (s : State) (f : Fld) (i v : Nat) : (s.setFld f i v).mgmt = s.mgmt := rfl
@[simp] theorem State.setFld_pci (s : State) (f : Fld) (i v : Nat) : (s.setFld f i v).pci = s.pci := rfl
@[simp] theorem State.setFld_ring18 (s : State) (f : Fld) (i v : Nat) : (s.setFld f i v).ring18 = s.ring18 := rfl

/-! ### A count -/

@[simp] theorem State.count_pending (s : State) (f : Fld) (i n : Nat) : (s.count f i n).pending = s.pending := rfl
@[simp] theorem State.count_free (s : State) (f : Fld) (i n : Nat) : (s.count f i n).free = s.free := rfl
@[simp] theorem State.count_cycle (s : State) (f : Fld) (i n : Nat) : (s.count f i n).cycle = s.cycle := rfl
@[simp] theorem State.count_tick (s : State) (f : Fld) (i n : Nat) : (s.count f i n).tick = s.tick := rfl
@[simp] theorem State.count_resp (s : State) (f : Fld) (i n : Nat) : (s.count f i n).resp = s.resp := rfl
@[simp] theorem State.count_out (s : State) (f : Fld) (i n : Nat) : (s.count f i n).out = s.out := rfl
@[simp] theorem State.count_hi (s : State) (f : Fld) (i n : Nat) : (s.count f i n).hi = s.hi := rfl
@[simp] theorem State.count_mem (s : State) (f : Fld) (i n : Nat) : (s.count f i n).mem = s.mem := rfl
@[simp] theorem State.count_bad (s : State) (f : Fld) (i n : Nat) : (s.count f i n).bad = s.bad := rfl
@[simp] theorem State.count_cp (s : State) (f : Fld) (i n : Nat) : (s.count f i n).cp = s.cp := rfl
@[simp] theorem State.count_wheels (s : State) (f : Fld) (i n : Nat) : (s.count f i n).wheels = s.wheels := rfl
@[simp] theorem State.count_jobs (s : State) (f : Fld) (i n : Nat) : (s.count f i n).jobs = s.jobs := rfl
@[simp] theorem State.count_reload (s : State) (f : Fld) (i n : Nat) : (s.count f i n).reload = s.reload := rfl
@[simp] theorem State.count_saved (s : State) (f : Fld) (i n : Nat) : (s.count f i n).saved = s.saved := rfl
@[simp] theorem State.count_memc (s : State) (f : Fld) (i n : Nat) : (s.count f i n).memc = s.memc := rfl
@[simp] theorem State.count_te (s : State) (f : Fld) (i n : Nat) : (s.count f i n).te = s.te := rfl
@[simp] theorem State.count_sfuTab (s : State) (f : Fld) (i n : Nat) : (s.count f i n).sfuTab = s.sfuTab := rfl
@[simp] theorem State.count_codeTab (s : State) (f : Fld) (i n : Nat) : (s.count f i n).codeTab = s.codeTab := rfl
@[simp] theorem State.count_cores (s : State) (f : Fld) (i n : Nat) : (s.count f i n).cores = s.cores := rfl
@[simp] theorem State.count_svcPend (s : State) (f : Fld) (i n : Nat) : (s.count f i n).svcPend = s.svcPend := rfl
@[simp] theorem State.count_clrun (s : State) (f : Fld) (i n : Nat) : (s.count f i n).clrun = s.clrun := rfl
@[simp] theorem State.count_links (s : State) (f : Fld) (i n : Nat) : (s.count f i n).links = s.links := rfl
@[simp] theorem State.count_ce (s : State) (f : Fld) (i n : Nat) : (s.count f i n).ce = s.ce := rfl
@[simp] theorem State.count_groups (s : State) (f : Fld) (i n : Nat) : (s.count f i n).groups = s.groups := rfl
@[simp] theorem State.count_eth (s : State) (f : Fld) (i n : Nat) : (s.count f i n).eth = s.eth := rfl
@[simp] theorem State.count_birsan (s : State) (f : Fld) (i n : Nat) : (s.count f i n).birsan = s.birsan := rfl
@[simp] theorem State.count_sceman (s : State) (f : Fld) (i n : Nat) : (s.count f i n).sceman = s.sceman := rfl
@[simp] theorem State.count_fen (s : State) (f : Fld) (i n : Nat) : (s.count f i n).fen = s.fen := rfl
@[simp] theorem State.count_sage (s : State) (f : Fld) (i n : Nat) : (s.count f i n).sage = s.sage := rfl
@[simp] theorem State.count_power (s : State) (f : Fld) (i n : Nat) : (s.count f i n).power = s.power := rfl
@[simp] theorem State.count_board (s : State) (f : Fld) (i n : Nat) : (s.count f i n).board = s.board := rfl
@[simp] theorem State.count_spdm (s : State) (f : Fld) (i n : Nat) : (s.count f i n).spdm = s.spdm := rfl
@[simp] theorem State.count_mgmt (s : State) (f : Fld) (i n : Nat) : (s.count f i n).mgmt = s.mgmt := rfl
@[simp] theorem State.count_pci (s : State) (f : Fld) (i n : Nat) : (s.count f i n).pci = s.pci := rfl
@[simp] theorem State.count_ring18 (s : State) (f : Fld) (i n : Nat) : (s.count f i n).ring18 = s.ring18 := rfl

/-! ### A count modulo its width -/

@[simp] theorem State.advance_pending (s : State) (f : Fld) (i n : Nat) : (s.advance f i n).pending = s.pending := rfl
@[simp] theorem State.advance_free (s : State) (f : Fld) (i n : Nat) : (s.advance f i n).free = s.free := rfl
@[simp] theorem State.advance_cycle (s : State) (f : Fld) (i n : Nat) : (s.advance f i n).cycle = s.cycle := rfl
@[simp] theorem State.advance_tick (s : State) (f : Fld) (i n : Nat) : (s.advance f i n).tick = s.tick := rfl
@[simp] theorem State.advance_resp (s : State) (f : Fld) (i n : Nat) : (s.advance f i n).resp = s.resp := rfl
@[simp] theorem State.advance_out (s : State) (f : Fld) (i n : Nat) : (s.advance f i n).out = s.out := rfl
@[simp] theorem State.advance_hi (s : State) (f : Fld) (i n : Nat) : (s.advance f i n).hi = s.hi := rfl
@[simp] theorem State.advance_mem (s : State) (f : Fld) (i n : Nat) : (s.advance f i n).mem = s.mem := rfl
@[simp] theorem State.advance_bad (s : State) (f : Fld) (i n : Nat) : (s.advance f i n).bad = s.bad := rfl
@[simp] theorem State.advance_cp (s : State) (f : Fld) (i n : Nat) : (s.advance f i n).cp = s.cp := rfl
@[simp] theorem State.advance_wheels (s : State) (f : Fld) (i n : Nat) : (s.advance f i n).wheels = s.wheels := rfl
@[simp] theorem State.advance_jobs (s : State) (f : Fld) (i n : Nat) : (s.advance f i n).jobs = s.jobs := rfl
@[simp] theorem State.advance_reload (s : State) (f : Fld) (i n : Nat) : (s.advance f i n).reload = s.reload := rfl
@[simp] theorem State.advance_saved (s : State) (f : Fld) (i n : Nat) : (s.advance f i n).saved = s.saved := rfl
@[simp] theorem State.advance_memc (s : State) (f : Fld) (i n : Nat) : (s.advance f i n).memc = s.memc := rfl
@[simp] theorem State.advance_te (s : State) (f : Fld) (i n : Nat) : (s.advance f i n).te = s.te := rfl
@[simp] theorem State.advance_sfuTab (s : State) (f : Fld) (i n : Nat) : (s.advance f i n).sfuTab = s.sfuTab := rfl
@[simp] theorem State.advance_codeTab (s : State) (f : Fld) (i n : Nat) : (s.advance f i n).codeTab = s.codeTab := rfl
@[simp] theorem State.advance_cores (s : State) (f : Fld) (i n : Nat) : (s.advance f i n).cores = s.cores := rfl
@[simp] theorem State.advance_svcPend (s : State) (f : Fld) (i n : Nat) : (s.advance f i n).svcPend = s.svcPend := rfl
@[simp] theorem State.advance_clrun (s : State) (f : Fld) (i n : Nat) : (s.advance f i n).clrun = s.clrun := rfl
@[simp] theorem State.advance_links (s : State) (f : Fld) (i n : Nat) : (s.advance f i n).links = s.links := rfl
@[simp] theorem State.advance_ce (s : State) (f : Fld) (i n : Nat) : (s.advance f i n).ce = s.ce := rfl
@[simp] theorem State.advance_groups (s : State) (f : Fld) (i n : Nat) : (s.advance f i n).groups = s.groups := rfl
@[simp] theorem State.advance_eth (s : State) (f : Fld) (i n : Nat) : (s.advance f i n).eth = s.eth := rfl
@[simp] theorem State.advance_birsan (s : State) (f : Fld) (i n : Nat) : (s.advance f i n).birsan = s.birsan := rfl
@[simp] theorem State.advance_sceman (s : State) (f : Fld) (i n : Nat) : (s.advance f i n).sceman = s.sceman := rfl
@[simp] theorem State.advance_fen (s : State) (f : Fld) (i n : Nat) : (s.advance f i n).fen = s.fen := rfl
@[simp] theorem State.advance_sage (s : State) (f : Fld) (i n : Nat) : (s.advance f i n).sage = s.sage := rfl
@[simp] theorem State.advance_power (s : State) (f : Fld) (i n : Nat) : (s.advance f i n).power = s.power := rfl
@[simp] theorem State.advance_board (s : State) (f : Fld) (i n : Nat) : (s.advance f i n).board = s.board := rfl
@[simp] theorem State.advance_spdm (s : State) (f : Fld) (i n : Nat) : (s.advance f i n).spdm = s.spdm := rfl
@[simp] theorem State.advance_mgmt (s : State) (f : Fld) (i n : Nat) : (s.advance f i n).mgmt = s.mgmt := rfl
@[simp] theorem State.advance_pci (s : State) (f : Fld) (i n : Nat) : (s.advance f i n).pci = s.pci := rfl
@[simp] theorem State.advance_ring18 (s : State) (f : Fld) (i n : Nat) : (s.advance f i n).ring18 = s.ring18 := rfl

/-! ### Writing a pair of registers -/

@[simp] theorem State.setPair_pending (s : State) (lo hi : RegName) (i v : Nat) : (s.setPair lo hi i v).pending = s.pending := rfl
@[simp] theorem State.setPair_free (s : State) (lo hi : RegName) (i v : Nat) : (s.setPair lo hi i v).free = s.free := rfl
@[simp] theorem State.setPair_cycle (s : State) (lo hi : RegName) (i v : Nat) : (s.setPair lo hi i v).cycle = s.cycle := rfl
@[simp] theorem State.setPair_tick (s : State) (lo hi : RegName) (i v : Nat) : (s.setPair lo hi i v).tick = s.tick := rfl
@[simp] theorem State.setPair_resp (s : State) (lo hi : RegName) (i v : Nat) : (s.setPair lo hi i v).resp = s.resp := rfl
@[simp] theorem State.setPair_out (s : State) (lo hi : RegName) (i v : Nat) : (s.setPair lo hi i v).out = s.out := rfl
@[simp] theorem State.setPair_hi (s : State) (lo hi : RegName) (i v : Nat) : (s.setPair lo hi i v).hi = s.hi := rfl
@[simp] theorem State.setPair_mem (s : State) (lo hi : RegName) (i v : Nat) : (s.setPair lo hi i v).mem = s.mem := rfl
@[simp] theorem State.setPair_bad (s : State) (lo hi : RegName) (i v : Nat) : (s.setPair lo hi i v).bad = s.bad := rfl
@[simp] theorem State.setPair_cp (s : State) (lo hi : RegName) (i v : Nat) : (s.setPair lo hi i v).cp = s.cp := rfl
@[simp] theorem State.setPair_wheels (s : State) (lo hi : RegName) (i v : Nat) : (s.setPair lo hi i v).wheels = s.wheels := rfl
@[simp] theorem State.setPair_jobs (s : State) (lo hi : RegName) (i v : Nat) : (s.setPair lo hi i v).jobs = s.jobs := rfl
@[simp] theorem State.setPair_reload (s : State) (lo hi : RegName) (i v : Nat) : (s.setPair lo hi i v).reload = s.reload := rfl
@[simp] theorem State.setPair_saved (s : State) (lo hi : RegName) (i v : Nat) : (s.setPair lo hi i v).saved = s.saved := rfl
@[simp] theorem State.setPair_memc (s : State) (lo hi : RegName) (i v : Nat) : (s.setPair lo hi i v).memc = s.memc := rfl
@[simp] theorem State.setPair_te (s : State) (lo hi : RegName) (i v : Nat) : (s.setPair lo hi i v).te = s.te := rfl
@[simp] theorem State.setPair_sfuTab (s : State) (lo hi : RegName) (i v : Nat) : (s.setPair lo hi i v).sfuTab = s.sfuTab := rfl
@[simp] theorem State.setPair_codeTab (s : State) (lo hi : RegName) (i v : Nat) : (s.setPair lo hi i v).codeTab = s.codeTab := rfl
@[simp] theorem State.setPair_cores (s : State) (lo hi : RegName) (i v : Nat) : (s.setPair lo hi i v).cores = s.cores := rfl
@[simp] theorem State.setPair_svcPend (s : State) (lo hi : RegName) (i v : Nat) : (s.setPair lo hi i v).svcPend = s.svcPend := rfl
@[simp] theorem State.setPair_clrun (s : State) (lo hi : RegName) (i v : Nat) : (s.setPair lo hi i v).clrun = s.clrun := rfl
@[simp] theorem State.setPair_links (s : State) (lo hi : RegName) (i v : Nat) : (s.setPair lo hi i v).links = s.links := rfl
@[simp] theorem State.setPair_ce (s : State) (lo hi : RegName) (i v : Nat) : (s.setPair lo hi i v).ce = s.ce := rfl
@[simp] theorem State.setPair_groups (s : State) (lo hi : RegName) (i v : Nat) : (s.setPair lo hi i v).groups = s.groups := rfl
@[simp] theorem State.setPair_eth (s : State) (lo hi : RegName) (i v : Nat) : (s.setPair lo hi i v).eth = s.eth := rfl
@[simp] theorem State.setPair_birsan (s : State) (lo hi : RegName) (i v : Nat) : (s.setPair lo hi i v).birsan = s.birsan := rfl
@[simp] theorem State.setPair_sceman (s : State) (lo hi : RegName) (i v : Nat) : (s.setPair lo hi i v).sceman = s.sceman := rfl
@[simp] theorem State.setPair_fen (s : State) (lo hi : RegName) (i v : Nat) : (s.setPair lo hi i v).fen = s.fen := rfl
@[simp] theorem State.setPair_sage (s : State) (lo hi : RegName) (i v : Nat) : (s.setPair lo hi i v).sage = s.sage := rfl
@[simp] theorem State.setPair_power (s : State) (lo hi : RegName) (i v : Nat) : (s.setPair lo hi i v).power = s.power := rfl
@[simp] theorem State.setPair_board (s : State) (lo hi : RegName) (i v : Nat) : (s.setPair lo hi i v).board = s.board := rfl
@[simp] theorem State.setPair_spdm (s : State) (lo hi : RegName) (i v : Nat) : (s.setPair lo hi i v).spdm = s.spdm := rfl
@[simp] theorem State.setPair_mgmt (s : State) (lo hi : RegName) (i v : Nat) : (s.setPair lo hi i v).mgmt = s.mgmt := rfl
@[simp] theorem State.setPair_pci (s : State) (lo hi : RegName) (i v : Nat) : (s.setPair lo hi i v).pci = s.pci := rfl
@[simp] theorem State.setPair_ring18 (s : State) (lo hi : RegName) (i v : Nat) : (s.setPair lo hi i v).ring18 = s.ring18 := rfl

/-! ### Counting conversions -/

@[simp] theorem State.addCvt_pending (s : State) (eg : Nat) (c : Counts) : (s.addCvt eg c).pending = s.pending := by
  unfold State.addCvt
  rw [State.count_pending, State.count_pending, State.count_pending, State.count_pending]
@[simp] theorem State.addCvt_free (s : State) (eg : Nat) (c : Counts) : (s.addCvt eg c).free = s.free := by
  unfold State.addCvt
  rw [State.count_free, State.count_free, State.count_free, State.count_free]
@[simp] theorem State.addCvt_cycle (s : State) (eg : Nat) (c : Counts) : (s.addCvt eg c).cycle = s.cycle := by
  unfold State.addCvt
  rw [State.count_cycle, State.count_cycle, State.count_cycle, State.count_cycle]
@[simp] theorem State.addCvt_tick (s : State) (eg : Nat) (c : Counts) : (s.addCvt eg c).tick = s.tick := by
  unfold State.addCvt
  rw [State.count_tick, State.count_tick, State.count_tick, State.count_tick]
@[simp] theorem State.addCvt_resp (s : State) (eg : Nat) (c : Counts) : (s.addCvt eg c).resp = s.resp := by
  unfold State.addCvt
  rw [State.count_resp, State.count_resp, State.count_resp, State.count_resp]
@[simp] theorem State.addCvt_out (s : State) (eg : Nat) (c : Counts) : (s.addCvt eg c).out = s.out := by
  unfold State.addCvt
  rw [State.count_out, State.count_out, State.count_out, State.count_out]
@[simp] theorem State.addCvt_hi (s : State) (eg : Nat) (c : Counts) : (s.addCvt eg c).hi = s.hi := by
  unfold State.addCvt
  rw [State.count_hi, State.count_hi, State.count_hi, State.count_hi]
@[simp] theorem State.addCvt_mem (s : State) (eg : Nat) (c : Counts) : (s.addCvt eg c).mem = s.mem := by
  unfold State.addCvt
  rw [State.count_mem, State.count_mem, State.count_mem, State.count_mem]
@[simp] theorem State.addCvt_bad (s : State) (eg : Nat) (c : Counts) : (s.addCvt eg c).bad = s.bad := by
  unfold State.addCvt
  rw [State.count_bad, State.count_bad, State.count_bad, State.count_bad]
@[simp] theorem State.addCvt_cp (s : State) (eg : Nat) (c : Counts) : (s.addCvt eg c).cp = s.cp := by
  unfold State.addCvt
  rw [State.count_cp, State.count_cp, State.count_cp, State.count_cp]
@[simp] theorem State.addCvt_wheels (s : State) (eg : Nat) (c : Counts) : (s.addCvt eg c).wheels = s.wheels := by
  unfold State.addCvt
  rw [State.count_wheels, State.count_wheels, State.count_wheels, State.count_wheels]
@[simp] theorem State.addCvt_jobs (s : State) (eg : Nat) (c : Counts) : (s.addCvt eg c).jobs = s.jobs := by
  unfold State.addCvt
  rw [State.count_jobs, State.count_jobs, State.count_jobs, State.count_jobs]
@[simp] theorem State.addCvt_reload (s : State) (eg : Nat) (c : Counts) : (s.addCvt eg c).reload = s.reload := by
  unfold State.addCvt
  rw [State.count_reload, State.count_reload, State.count_reload, State.count_reload]
@[simp] theorem State.addCvt_saved (s : State) (eg : Nat) (c : Counts) : (s.addCvt eg c).saved = s.saved := by
  unfold State.addCvt
  rw [State.count_saved, State.count_saved, State.count_saved, State.count_saved]
@[simp] theorem State.addCvt_memc (s : State) (eg : Nat) (c : Counts) : (s.addCvt eg c).memc = s.memc := by
  unfold State.addCvt
  rw [State.count_memc, State.count_memc, State.count_memc, State.count_memc]
@[simp] theorem State.addCvt_te (s : State) (eg : Nat) (c : Counts) : (s.addCvt eg c).te = s.te := by
  unfold State.addCvt
  rw [State.count_te, State.count_te, State.count_te, State.count_te]
@[simp] theorem State.addCvt_sfuTab (s : State) (eg : Nat) (c : Counts) : (s.addCvt eg c).sfuTab = s.sfuTab := by
  unfold State.addCvt
  rw [State.count_sfuTab, State.count_sfuTab, State.count_sfuTab, State.count_sfuTab]
@[simp] theorem State.addCvt_codeTab (s : State) (eg : Nat) (c : Counts) : (s.addCvt eg c).codeTab = s.codeTab := by
  unfold State.addCvt
  rw [State.count_codeTab, State.count_codeTab, State.count_codeTab, State.count_codeTab]
@[simp] theorem State.addCvt_cores (s : State) (eg : Nat) (c : Counts) : (s.addCvt eg c).cores = s.cores := by
  unfold State.addCvt
  rw [State.count_cores, State.count_cores, State.count_cores, State.count_cores]
@[simp] theorem State.addCvt_svcPend (s : State) (eg : Nat) (c : Counts) : (s.addCvt eg c).svcPend = s.svcPend := by
  unfold State.addCvt
  rw [State.count_svcPend, State.count_svcPend, State.count_svcPend, State.count_svcPend]
@[simp] theorem State.addCvt_clrun (s : State) (eg : Nat) (c : Counts) : (s.addCvt eg c).clrun = s.clrun := by
  unfold State.addCvt
  rw [State.count_clrun, State.count_clrun, State.count_clrun, State.count_clrun]
@[simp] theorem State.addCvt_links (s : State) (eg : Nat) (c : Counts) : (s.addCvt eg c).links = s.links := by
  unfold State.addCvt
  rw [State.count_links, State.count_links, State.count_links, State.count_links]
@[simp] theorem State.addCvt_ce (s : State) (eg : Nat) (c : Counts) : (s.addCvt eg c).ce = s.ce := by
  unfold State.addCvt
  rw [State.count_ce, State.count_ce, State.count_ce, State.count_ce]
@[simp] theorem State.addCvt_groups (s : State) (eg : Nat) (c : Counts) : (s.addCvt eg c).groups = s.groups := by
  unfold State.addCvt
  rw [State.count_groups, State.count_groups, State.count_groups, State.count_groups]
@[simp] theorem State.addCvt_eth (s : State) (eg : Nat) (c : Counts) : (s.addCvt eg c).eth = s.eth := by
  unfold State.addCvt
  rw [State.count_eth, State.count_eth, State.count_eth, State.count_eth]
@[simp] theorem State.addCvt_birsan (s : State) (eg : Nat) (c : Counts) : (s.addCvt eg c).birsan = s.birsan := by
  unfold State.addCvt
  rw [State.count_birsan, State.count_birsan, State.count_birsan, State.count_birsan]
@[simp] theorem State.addCvt_sceman (s : State) (eg : Nat) (c : Counts) : (s.addCvt eg c).sceman = s.sceman := by
  unfold State.addCvt
  rw [State.count_sceman, State.count_sceman, State.count_sceman, State.count_sceman]
@[simp] theorem State.addCvt_fen (s : State) (eg : Nat) (c : Counts) : (s.addCvt eg c).fen = s.fen := by
  unfold State.addCvt
  rw [State.count_fen, State.count_fen, State.count_fen, State.count_fen]
@[simp] theorem State.addCvt_sage (s : State) (eg : Nat) (c : Counts) : (s.addCvt eg c).sage = s.sage := by
  unfold State.addCvt
  rw [State.count_sage, State.count_sage, State.count_sage, State.count_sage]
@[simp] theorem State.addCvt_power (s : State) (eg : Nat) (c : Counts) : (s.addCvt eg c).power = s.power := by
  unfold State.addCvt
  rw [State.count_power, State.count_power, State.count_power, State.count_power]
@[simp] theorem State.addCvt_board (s : State) (eg : Nat) (c : Counts) : (s.addCvt eg c).board = s.board := by
  unfold State.addCvt
  rw [State.count_board, State.count_board, State.count_board, State.count_board]
@[simp] theorem State.addCvt_spdm (s : State) (eg : Nat) (c : Counts) : (s.addCvt eg c).spdm = s.spdm := by
  unfold State.addCvt
  rw [State.count_spdm, State.count_spdm, State.count_spdm, State.count_spdm]
@[simp] theorem State.addCvt_mgmt (s : State) (eg : Nat) (c : Counts) : (s.addCvt eg c).mgmt = s.mgmt := by
  unfold State.addCvt
  rw [State.count_mgmt, State.count_mgmt, State.count_mgmt, State.count_mgmt]
@[simp] theorem State.addCvt_pci (s : State) (eg : Nat) (c : Counts) : (s.addCvt eg c).pci = s.pci := by
  unfold State.addCvt
  rw [State.count_pci, State.count_pci, State.count_pci, State.count_pci]
@[simp] theorem State.addCvt_ring18 (s : State) (eg : Nat) (c : Counts) : (s.addCvt eg c).ring18 = s.ring18 := by
  unfold State.addCvt
  rw [State.count_ring18, State.count_ring18, State.count_ring18, State.count_ring18]

/-! ### Moving the clock on -/

@[simp] theorem State.until_pending (s : State) (t : Nat) : (s.until t).pending = s.pending := rfl
@[simp] theorem State.until_free (s : State) (t : Nat) : (s.until t).free = s.free := rfl
@[simp] theorem State.until_tick (s : State) (t : Nat) : (s.until t).tick = s.tick := rfl
@[simp] theorem State.until_resp (s : State) (t : Nat) : (s.until t).resp = s.resp := rfl
@[simp] theorem State.until_out (s : State) (t : Nat) : (s.until t).out = s.out := rfl
@[simp] theorem State.until_regs (s : State) (t : Nat) : (s.until t).regs = s.regs := rfl
@[simp] theorem State.until_hi (s : State) (t : Nat) : (s.until t).hi = s.hi := rfl
@[simp] theorem State.until_mem (s : State) (t : Nat) : (s.until t).mem = s.mem := rfl
@[simp] theorem State.until_bad (s : State) (t : Nat) : (s.until t).bad = s.bad := rfl
@[simp] theorem State.until_cp (s : State) (t : Nat) : (s.until t).cp = s.cp := rfl
@[simp] theorem State.until_wheels (s : State) (t : Nat) : (s.until t).wheels = s.wheels := rfl
@[simp] theorem State.until_jobs (s : State) (t : Nat) : (s.until t).jobs = s.jobs := rfl
@[simp] theorem State.until_reload (s : State) (t : Nat) : (s.until t).reload = s.reload := rfl
@[simp] theorem State.until_saved (s : State) (t : Nat) : (s.until t).saved = s.saved := rfl
@[simp] theorem State.until_memc (s : State) (t : Nat) : (s.until t).memc = s.memc := rfl
@[simp] theorem State.until_te (s : State) (t : Nat) : (s.until t).te = s.te := rfl
@[simp] theorem State.until_sfuTab (s : State) (t : Nat) : (s.until t).sfuTab = s.sfuTab := rfl
@[simp] theorem State.until_codeTab (s : State) (t : Nat) : (s.until t).codeTab = s.codeTab := rfl
@[simp] theorem State.until_cores (s : State) (t : Nat) : (s.until t).cores = s.cores := rfl
@[simp] theorem State.until_svcPend (s : State) (t : Nat) : (s.until t).svcPend = s.svcPend := rfl
@[simp] theorem State.until_clrun (s : State) (t : Nat) : (s.until t).clrun = s.clrun := rfl
@[simp] theorem State.until_links (s : State) (t : Nat) : (s.until t).links = s.links := rfl
@[simp] theorem State.until_ce (s : State) (t : Nat) : (s.until t).ce = s.ce := rfl
@[simp] theorem State.until_groups (s : State) (t : Nat) : (s.until t).groups = s.groups := rfl
@[simp] theorem State.until_eth (s : State) (t : Nat) : (s.until t).eth = s.eth := rfl
@[simp] theorem State.until_birsan (s : State) (t : Nat) : (s.until t).birsan = s.birsan := rfl
@[simp] theorem State.until_sceman (s : State) (t : Nat) : (s.until t).sceman = s.sceman := rfl
@[simp] theorem State.until_fen (s : State) (t : Nat) : (s.until t).fen = s.fen := rfl
@[simp] theorem State.until_sage (s : State) (t : Nat) : (s.until t).sage = s.sage := rfl
@[simp] theorem State.until_power (s : State) (t : Nat) : (s.until t).power = s.power := rfl
@[simp] theorem State.until_board (s : State) (t : Nat) : (s.until t).board = s.board := rfl
@[simp] theorem State.until_spdm (s : State) (t : Nat) : (s.until t).spdm = s.spdm := rfl
@[simp] theorem State.until_mgmt (s : State) (t : Nat) : (s.until t).mgmt = s.mgmt := rfl
@[simp] theorem State.until_pci (s : State) (t : Nat) : (s.until t).pci = s.pci := rfl
@[simp] theorem State.until_ring18 (s : State) (t : Nat) : (s.until t).ring18 = s.ring18 := rfl

/-! ### A cycle with no command -/

@[simp] theorem State.idle_pending (s : State) : s.idle.pending = s.pending := rfl
@[simp] theorem State.idle_free (s : State) : s.idle.free = s.free := rfl
@[simp] theorem State.idle_resp (s : State) : s.idle.resp = s.resp := rfl
@[simp] theorem State.idle_out (s : State) : s.idle.out = s.out := rfl
@[simp] theorem State.idle_regs (s : State) : s.idle.regs = s.regs := rfl
@[simp] theorem State.idle_hi (s : State) : s.idle.hi = s.hi := rfl
@[simp] theorem State.idle_mem (s : State) : s.idle.mem = s.mem := rfl
@[simp] theorem State.idle_bad (s : State) : s.idle.bad = s.bad := rfl
@[simp] theorem State.idle_cp (s : State) : s.idle.cp = s.cp := rfl
@[simp] theorem State.idle_wheels (s : State) : s.idle.wheels = s.wheels := rfl
@[simp] theorem State.idle_jobs (s : State) : s.idle.jobs = s.jobs := rfl
@[simp] theorem State.idle_reload (s : State) : s.idle.reload = s.reload := rfl
@[simp] theorem State.idle_saved (s : State) : s.idle.saved = s.saved := rfl
@[simp] theorem State.idle_memc (s : State) : s.idle.memc = s.memc := rfl
@[simp] theorem State.idle_te (s : State) : s.idle.te = s.te := rfl
@[simp] theorem State.idle_sfuTab (s : State) : s.idle.sfuTab = s.sfuTab := rfl
@[simp] theorem State.idle_codeTab (s : State) : s.idle.codeTab = s.codeTab := rfl
@[simp] theorem State.idle_cores (s : State) : s.idle.cores = s.cores := rfl
@[simp] theorem State.idle_svcPend (s : State) : s.idle.svcPend = s.svcPend := rfl
@[simp] theorem State.idle_clrun (s : State) : s.idle.clrun = s.clrun := rfl
@[simp] theorem State.idle_links (s : State) : s.idle.links = s.links := rfl
@[simp] theorem State.idle_ce (s : State) : s.idle.ce = s.ce := rfl
@[simp] theorem State.idle_groups (s : State) : s.idle.groups = s.groups := rfl
@[simp] theorem State.idle_eth (s : State) : s.idle.eth = s.eth := rfl
@[simp] theorem State.idle_birsan (s : State) : s.idle.birsan = s.birsan := rfl
@[simp] theorem State.idle_sceman (s : State) : s.idle.sceman = s.sceman := rfl
@[simp] theorem State.idle_fen (s : State) : s.idle.fen = s.fen := rfl
@[simp] theorem State.idle_sage (s : State) : s.idle.sage = s.sage := rfl
@[simp] theorem State.idle_power (s : State) :
    s.idle.power = { s.power with part := (s.power.part + s.cycleUnits) % (40 * nsUnits) } := rfl
@[simp] theorem State.idle_board (s : State) : s.idle.board = s.board := rfl
@[simp] theorem State.idle_spdm (s : State) : s.idle.spdm = s.spdm := rfl
@[simp] theorem State.idle_mgmt (s : State) : s.idle.mgmt = s.mgmt := rfl
@[simp] theorem State.idle_pci (s : State) : s.idle.pci = s.pci := rfl
@[simp] theorem State.idle_ring18 (s : State) : s.idle.ring18 = s.ring18 := rfl

/-! ### Drawing a free value -/

@[simp] theorem State.draw_pending (s : State) : s.draw.pending = s.pending := rfl
@[simp] theorem State.draw_cycle (s : State) : s.draw.cycle = s.cycle := rfl
@[simp] theorem State.draw_tick (s : State) : s.draw.tick = s.tick := rfl
@[simp] theorem State.draw_resp (s : State) : s.draw.resp = s.resp := rfl
@[simp] theorem State.draw_out (s : State) : s.draw.out = s.out := rfl
@[simp] theorem State.draw_regs (s : State) : s.draw.regs = s.regs := rfl
@[simp] theorem State.draw_hi (s : State) : s.draw.hi = s.hi := rfl
@[simp] theorem State.draw_mem (s : State) : s.draw.mem = s.mem := rfl
@[simp] theorem State.draw_bad (s : State) : s.draw.bad = s.bad := rfl
@[simp] theorem State.draw_cp (s : State) : s.draw.cp = s.cp := rfl
@[simp] theorem State.draw_wheels (s : State) : s.draw.wheels = s.wheels := rfl
@[simp] theorem State.draw_jobs (s : State) : s.draw.jobs = s.jobs := rfl
@[simp] theorem State.draw_reload (s : State) : s.draw.reload = s.reload := rfl
@[simp] theorem State.draw_saved (s : State) : s.draw.saved = s.saved := rfl
@[simp] theorem State.draw_memc (s : State) : s.draw.memc = s.memc := rfl
@[simp] theorem State.draw_te (s : State) : s.draw.te = s.te := rfl
@[simp] theorem State.draw_sfuTab (s : State) : s.draw.sfuTab = s.sfuTab := rfl
@[simp] theorem State.draw_codeTab (s : State) : s.draw.codeTab = s.codeTab := rfl
@[simp] theorem State.draw_cores (s : State) : s.draw.cores = s.cores := rfl
@[simp] theorem State.draw_svcPend (s : State) : s.draw.svcPend = s.svcPend := rfl
@[simp] theorem State.draw_clrun (s : State) : s.draw.clrun = s.clrun := rfl
@[simp] theorem State.draw_links (s : State) : s.draw.links = s.links := rfl
@[simp] theorem State.draw_ce (s : State) : s.draw.ce = s.ce := rfl
@[simp] theorem State.draw_groups (s : State) : s.draw.groups = s.groups := rfl
@[simp] theorem State.draw_eth (s : State) : s.draw.eth = s.eth := rfl
@[simp] theorem State.draw_birsan (s : State) : s.draw.birsan = s.birsan := rfl
@[simp] theorem State.draw_sceman (s : State) : s.draw.sceman = s.sceman := rfl
@[simp] theorem State.draw_fen (s : State) : s.draw.fen = s.fen := rfl
@[simp] theorem State.draw_sage (s : State) : s.draw.sage = s.sage := rfl
@[simp] theorem State.draw_power (s : State) : s.draw.power = s.power := rfl
@[simp] theorem State.draw_board (s : State) : s.draw.board = s.board := rfl
@[simp] theorem State.draw_spdm (s : State) : s.draw.spdm = s.spdm := rfl
@[simp] theorem State.draw_mgmt (s : State) : s.draw.mgmt = s.mgmt := rfl
@[simp] theorem State.draw_pci (s : State) : s.draw.pci = s.pci := rfl
@[simp] theorem State.draw_ring18 (s : State) : s.draw.ring18 = s.ring18 := rfl

/-! ### The word a read returns -/

@[simp] theorem State.readsAs_pending (s : State) (v : Word) : (s.readsAs v).pending = s.pending := rfl
@[simp] theorem State.readsAs_free (s : State) (v : Word) : (s.readsAs v).free = s.free := rfl
@[simp] theorem State.readsAs_cycle (s : State) (v : Word) : (s.readsAs v).cycle = s.cycle := rfl
@[simp] theorem State.readsAs_tick (s : State) (v : Word) : (s.readsAs v).tick = s.tick := rfl
@[simp] theorem State.readsAs_out (s : State) (v : Word) : (s.readsAs v).out = s.out := rfl
@[simp] theorem State.readsAs_regs (s : State) (v : Word) : (s.readsAs v).regs = s.regs := rfl
@[simp] theorem State.readsAs_hi (s : State) (v : Word) : (s.readsAs v).hi = s.hi := rfl
@[simp] theorem State.readsAs_mem (s : State) (v : Word) : (s.readsAs v).mem = s.mem := rfl
@[simp] theorem State.readsAs_bad (s : State) (v : Word) : (s.readsAs v).bad = s.bad := rfl
@[simp] theorem State.readsAs_cp (s : State) (v : Word) : (s.readsAs v).cp = s.cp := rfl
@[simp] theorem State.readsAs_wheels (s : State) (v : Word) : (s.readsAs v).wheels = s.wheels := rfl
@[simp] theorem State.readsAs_jobs (s : State) (v : Word) : (s.readsAs v).jobs = s.jobs := rfl
@[simp] theorem State.readsAs_reload (s : State) (v : Word) : (s.readsAs v).reload = s.reload := rfl
@[simp] theorem State.readsAs_saved (s : State) (v : Word) : (s.readsAs v).saved = s.saved := rfl
@[simp] theorem State.readsAs_memc (s : State) (v : Word) : (s.readsAs v).memc = s.memc := rfl
@[simp] theorem State.readsAs_te (s : State) (v : Word) : (s.readsAs v).te = s.te := rfl
@[simp] theorem State.readsAs_sfuTab (s : State) (v : Word) : (s.readsAs v).sfuTab = s.sfuTab := rfl
@[simp] theorem State.readsAs_codeTab (s : State) (v : Word) : (s.readsAs v).codeTab = s.codeTab := rfl
@[simp] theorem State.readsAs_cores (s : State) (v : Word) : (s.readsAs v).cores = s.cores := rfl
@[simp] theorem State.readsAs_svcPend (s : State) (v : Word) : (s.readsAs v).svcPend = s.svcPend := rfl
@[simp] theorem State.readsAs_clrun (s : State) (v : Word) : (s.readsAs v).clrun = s.clrun := rfl
@[simp] theorem State.readsAs_links (s : State) (v : Word) : (s.readsAs v).links = s.links := rfl
@[simp] theorem State.readsAs_ce (s : State) (v : Word) : (s.readsAs v).ce = s.ce := rfl
@[simp] theorem State.readsAs_groups (s : State) (v : Word) : (s.readsAs v).groups = s.groups := rfl
@[simp] theorem State.readsAs_eth (s : State) (v : Word) : (s.readsAs v).eth = s.eth := rfl
@[simp] theorem State.readsAs_birsan (s : State) (v : Word) : (s.readsAs v).birsan = s.birsan := rfl
@[simp] theorem State.readsAs_sceman (s : State) (v : Word) : (s.readsAs v).sceman = s.sceman := rfl
@[simp] theorem State.readsAs_fen (s : State) (v : Word) : (s.readsAs v).fen = s.fen := rfl
@[simp] theorem State.readsAs_sage (s : State) (v : Word) : (s.readsAs v).sage = s.sage := rfl
@[simp] theorem State.readsAs_power (s : State) (v : Word) : (s.readsAs v).power = s.power := rfl
@[simp] theorem State.readsAs_board (s : State) (v : Word) : (s.readsAs v).board = s.board := rfl
@[simp] theorem State.readsAs_spdm (s : State) (v : Word) : (s.readsAs v).spdm = s.spdm := rfl
@[simp] theorem State.readsAs_mgmt (s : State) (v : Word) : (s.readsAs v).mgmt = s.mgmt := rfl
@[simp] theorem State.readsAs_pci (s : State) (v : Word) : (s.readsAs v).pci = s.pci := rfl
@[simp] theorem State.readsAs_ring18 (s : State) (v : Word) : (s.readsAs v).ring18 = s.ring18 := rfl

/-! ### Sending a message -/

@[simp] theorem State.send_pending (s : State) (m : Msg) : (s.send m).pending = s.pending := rfl
@[simp] theorem State.send_free (s : State) (m : Msg) : (s.send m).free = s.free := rfl
@[simp] theorem State.send_cycle (s : State) (m : Msg) : (s.send m).cycle = s.cycle := rfl
@[simp] theorem State.send_tick (s : State) (m : Msg) : (s.send m).tick = s.tick := rfl
@[simp] theorem State.send_resp (s : State) (m : Msg) : (s.send m).resp = s.resp := rfl
@[simp] theorem State.send_regs (s : State) (m : Msg) : (s.send m).regs = s.regs := rfl
@[simp] theorem State.send_hi (s : State) (m : Msg) : (s.send m).hi = s.hi := rfl
@[simp] theorem State.send_mem (s : State) (m : Msg) : (s.send m).mem = s.mem := rfl
@[simp] theorem State.send_bad (s : State) (m : Msg) : (s.send m).bad = s.bad := rfl
@[simp] theorem State.send_cp (s : State) (m : Msg) : (s.send m).cp = s.cp := rfl
@[simp] theorem State.send_wheels (s : State) (m : Msg) : (s.send m).wheels = s.wheels := rfl
@[simp] theorem State.send_jobs (s : State) (m : Msg) : (s.send m).jobs = s.jobs := rfl
@[simp] theorem State.send_reload (s : State) (m : Msg) : (s.send m).reload = s.reload := rfl
@[simp] theorem State.send_saved (s : State) (m : Msg) : (s.send m).saved = s.saved := rfl
@[simp] theorem State.send_memc (s : State) (m : Msg) : (s.send m).memc = s.memc := rfl
@[simp] theorem State.send_te (s : State) (m : Msg) : (s.send m).te = s.te := rfl
@[simp] theorem State.send_sfuTab (s : State) (m : Msg) : (s.send m).sfuTab = s.sfuTab := rfl
@[simp] theorem State.send_codeTab (s : State) (m : Msg) : (s.send m).codeTab = s.codeTab := rfl
@[simp] theorem State.send_cores (s : State) (m : Msg) : (s.send m).cores = s.cores := rfl
@[simp] theorem State.send_svcPend (s : State) (m : Msg) : (s.send m).svcPend = s.svcPend := rfl
@[simp] theorem State.send_clrun (s : State) (m : Msg) : (s.send m).clrun = s.clrun := rfl
@[simp] theorem State.send_links (s : State) (m : Msg) : (s.send m).links = s.links := rfl
@[simp] theorem State.send_ce (s : State) (m : Msg) : (s.send m).ce = s.ce := rfl
@[simp] theorem State.send_groups (s : State) (m : Msg) : (s.send m).groups = s.groups := rfl
@[simp] theorem State.send_eth (s : State) (m : Msg) : (s.send m).eth = s.eth := rfl
@[simp] theorem State.send_birsan (s : State) (m : Msg) : (s.send m).birsan = s.birsan := rfl
@[simp] theorem State.send_sceman (s : State) (m : Msg) : (s.send m).sceman = s.sceman := rfl
@[simp] theorem State.send_fen (s : State) (m : Msg) : (s.send m).fen = s.fen := rfl
@[simp] theorem State.send_sage (s : State) (m : Msg) : (s.send m).sage = s.sage := rfl
@[simp] theorem State.send_power (s : State) (m : Msg) : (s.send m).power = s.power := rfl
@[simp] theorem State.send_board (s : State) (m : Msg) : (s.send m).board = s.board := rfl
@[simp] theorem State.send_spdm (s : State) (m : Msg) : (s.send m).spdm = s.spdm := rfl
@[simp] theorem State.send_mgmt (s : State) (m : Msg) : (s.send m).mgmt = s.mgmt := rfl
@[simp] theorem State.send_pci (s : State) (m : Msg) : (s.send m).pci = s.pci := rfl
@[simp] theorem State.send_ring18 (s : State) (m : Msg) : (s.send m).ring18 = s.ring18 := rfl

/-! ### Replacing a tensor engine -/

@[simp] theorem State.setTe_pending (s : State) (eg : Nat) (t : Te) : (s.setTe eg t).pending = s.pending := rfl
@[simp] theorem State.setTe_free (s : State) (eg : Nat) (t : Te) : (s.setTe eg t).free = s.free := rfl
@[simp] theorem State.setTe_cycle (s : State) (eg : Nat) (t : Te) : (s.setTe eg t).cycle = s.cycle := rfl
@[simp] theorem State.setTe_tick (s : State) (eg : Nat) (t : Te) : (s.setTe eg t).tick = s.tick := rfl
@[simp] theorem State.setTe_resp (s : State) (eg : Nat) (t : Te) : (s.setTe eg t).resp = s.resp := rfl
@[simp] theorem State.setTe_out (s : State) (eg : Nat) (t : Te) : (s.setTe eg t).out = s.out := rfl
@[simp] theorem State.setTe_regs (s : State) (eg : Nat) (t : Te) : (s.setTe eg t).regs = s.regs := rfl
@[simp] theorem State.setTe_hi (s : State) (eg : Nat) (t : Te) : (s.setTe eg t).hi = s.hi := rfl
@[simp] theorem State.setTe_mem (s : State) (eg : Nat) (t : Te) : (s.setTe eg t).mem = s.mem := rfl
@[simp] theorem State.setTe_bad (s : State) (eg : Nat) (t : Te) : (s.setTe eg t).bad = s.bad := rfl
@[simp] theorem State.setTe_cp (s : State) (eg : Nat) (t : Te) : (s.setTe eg t).cp = s.cp := rfl
@[simp] theorem State.setTe_wheels (s : State) (eg : Nat) (t : Te) : (s.setTe eg t).wheels = s.wheels := rfl
@[simp] theorem State.setTe_jobs (s : State) (eg : Nat) (t : Te) : (s.setTe eg t).jobs = s.jobs := rfl
@[simp] theorem State.setTe_reload (s : State) (eg : Nat) (t : Te) : (s.setTe eg t).reload = s.reload := rfl
@[simp] theorem State.setTe_saved (s : State) (eg : Nat) (t : Te) : (s.setTe eg t).saved = s.saved := rfl
@[simp] theorem State.setTe_memc (s : State) (eg : Nat) (t : Te) : (s.setTe eg t).memc = s.memc := rfl
@[simp] theorem State.setTe_sfuTab (s : State) (eg : Nat) (t : Te) : (s.setTe eg t).sfuTab = s.sfuTab := rfl
@[simp] theorem State.setTe_codeTab (s : State) (eg : Nat) (t : Te) : (s.setTe eg t).codeTab = s.codeTab := rfl
@[simp] theorem State.setTe_cores (s : State) (eg : Nat) (t : Te) : (s.setTe eg t).cores = s.cores := rfl
@[simp] theorem State.setTe_svcPend (s : State) (eg : Nat) (t : Te) : (s.setTe eg t).svcPend = s.svcPend := rfl
@[simp] theorem State.setTe_clrun (s : State) (eg : Nat) (t : Te) : (s.setTe eg t).clrun = s.clrun := rfl
@[simp] theorem State.setTe_links (s : State) (eg : Nat) (t : Te) : (s.setTe eg t).links = s.links := rfl
@[simp] theorem State.setTe_ce (s : State) (eg : Nat) (t : Te) : (s.setTe eg t).ce = s.ce := rfl
@[simp] theorem State.setTe_groups (s : State) (eg : Nat) (t : Te) : (s.setTe eg t).groups = s.groups := rfl
@[simp] theorem State.setTe_eth (s : State) (eg : Nat) (t : Te) : (s.setTe eg t).eth = s.eth := rfl
@[simp] theorem State.setTe_birsan (s : State) (eg : Nat) (t : Te) : (s.setTe eg t).birsan = s.birsan := rfl
@[simp] theorem State.setTe_sceman (s : State) (eg : Nat) (t : Te) : (s.setTe eg t).sceman = s.sceman := rfl
@[simp] theorem State.setTe_fen (s : State) (eg : Nat) (t : Te) : (s.setTe eg t).fen = s.fen := rfl
@[simp] theorem State.setTe_sage (s : State) (eg : Nat) (t : Te) : (s.setTe eg t).sage = s.sage := rfl
@[simp] theorem State.setTe_power (s : State) (eg : Nat) (t : Te) : (s.setTe eg t).power = s.power := rfl
@[simp] theorem State.setTe_board (s : State) (eg : Nat) (t : Te) : (s.setTe eg t).board = s.board := rfl
@[simp] theorem State.setTe_spdm (s : State) (eg : Nat) (t : Te) : (s.setTe eg t).spdm = s.spdm := rfl
@[simp] theorem State.setTe_mgmt (s : State) (eg : Nat) (t : Te) : (s.setTe eg t).mgmt = s.mgmt := rfl
@[simp] theorem State.setTe_pci (s : State) (eg : Nat) (t : Te) : (s.setTe eg t).pci = s.pci := rfl
@[simp] theorem State.setTe_ring18 (s : State) (eg : Nat) (t : Te) : (s.setTe eg t).ring18 = s.ring18 := rfl

/-! ### Replacing a core -/

@[simp] theorem State.setCore_pending (s : State) (eg c : Nat) (v : Core) : (s.setCore eg c v).pending = s.pending := rfl
@[simp] theorem State.setCore_free (s : State) (eg c : Nat) (v : Core) : (s.setCore eg c v).free = s.free := rfl
@[simp] theorem State.setCore_cycle (s : State) (eg c : Nat) (v : Core) : (s.setCore eg c v).cycle = s.cycle := rfl
@[simp] theorem State.setCore_tick (s : State) (eg c : Nat) (v : Core) : (s.setCore eg c v).tick = s.tick := rfl
@[simp] theorem State.setCore_resp (s : State) (eg c : Nat) (v : Core) : (s.setCore eg c v).resp = s.resp := rfl
@[simp] theorem State.setCore_out (s : State) (eg c : Nat) (v : Core) : (s.setCore eg c v).out = s.out := rfl
@[simp] theorem State.setCore_regs (s : State) (eg c : Nat) (v : Core) : (s.setCore eg c v).regs = s.regs := rfl
@[simp] theorem State.setCore_hi (s : State) (eg c : Nat) (v : Core) : (s.setCore eg c v).hi = s.hi := rfl
@[simp] theorem State.setCore_mem (s : State) (eg c : Nat) (v : Core) : (s.setCore eg c v).mem = s.mem := rfl
@[simp] theorem State.setCore_bad (s : State) (eg c : Nat) (v : Core) : (s.setCore eg c v).bad = s.bad := rfl
@[simp] theorem State.setCore_cp (s : State) (eg c : Nat) (v : Core) : (s.setCore eg c v).cp = s.cp := rfl
@[simp] theorem State.setCore_wheels (s : State) (eg c : Nat) (v : Core) : (s.setCore eg c v).wheels = s.wheels := rfl
@[simp] theorem State.setCore_jobs (s : State) (eg c : Nat) (v : Core) : (s.setCore eg c v).jobs = s.jobs := rfl
@[simp] theorem State.setCore_reload (s : State) (eg c : Nat) (v : Core) : (s.setCore eg c v).reload = s.reload := rfl
@[simp] theorem State.setCore_saved (s : State) (eg c : Nat) (v : Core) : (s.setCore eg c v).saved = s.saved := rfl
@[simp] theorem State.setCore_memc (s : State) (eg c : Nat) (v : Core) : (s.setCore eg c v).memc = s.memc := rfl
@[simp] theorem State.setCore_te (s : State) (eg c : Nat) (v : Core) : (s.setCore eg c v).te = s.te := rfl
@[simp] theorem State.setCore_sfuTab (s : State) (eg c : Nat) (v : Core) : (s.setCore eg c v).sfuTab = s.sfuTab := rfl
@[simp] theorem State.setCore_codeTab (s : State) (eg c : Nat) (v : Core) : (s.setCore eg c v).codeTab = s.codeTab := rfl
@[simp] theorem State.setCore_svcPend (s : State) (eg c : Nat) (v : Core) : (s.setCore eg c v).svcPend = s.svcPend := rfl
@[simp] theorem State.setCore_clrun (s : State) (eg c : Nat) (v : Core) : (s.setCore eg c v).clrun = s.clrun := rfl
@[simp] theorem State.setCore_links (s : State) (eg c : Nat) (v : Core) : (s.setCore eg c v).links = s.links := rfl
@[simp] theorem State.setCore_ce (s : State) (eg c : Nat) (v : Core) : (s.setCore eg c v).ce = s.ce := rfl
@[simp] theorem State.setCore_groups (s : State) (eg c : Nat) (v : Core) : (s.setCore eg c v).groups = s.groups := rfl
@[simp] theorem State.setCore_eth (s : State) (eg c : Nat) (v : Core) : (s.setCore eg c v).eth = s.eth := rfl
@[simp] theorem State.setCore_birsan (s : State) (eg c : Nat) (v : Core) : (s.setCore eg c v).birsan = s.birsan := rfl
@[simp] theorem State.setCore_sceman (s : State) (eg c : Nat) (v : Core) : (s.setCore eg c v).sceman = s.sceman := rfl
@[simp] theorem State.setCore_fen (s : State) (eg c : Nat) (v : Core) : (s.setCore eg c v).fen = s.fen := rfl
@[simp] theorem State.setCore_sage (s : State) (eg c : Nat) (v : Core) : (s.setCore eg c v).sage = s.sage := rfl
@[simp] theorem State.setCore_power (s : State) (eg c : Nat) (v : Core) : (s.setCore eg c v).power = s.power := rfl
@[simp] theorem State.setCore_board (s : State) (eg c : Nat) (v : Core) : (s.setCore eg c v).board = s.board := rfl
@[simp] theorem State.setCore_spdm (s : State) (eg c : Nat) (v : Core) : (s.setCore eg c v).spdm = s.spdm := rfl
@[simp] theorem State.setCore_mgmt (s : State) (eg c : Nat) (v : Core) : (s.setCore eg c v).mgmt = s.mgmt := rfl
@[simp] theorem State.setCore_pci (s : State) (eg c : Nat) (v : Core) : (s.setCore eg c v).pci = s.pci := rfl
@[simp] theorem State.setCore_ring18 (s : State) (eg c : Nat) (v : Core) : (s.setCore eg c v).ring18 = s.ring18 := rfl

/-! ### Replacing a controller -/

@[simp] theorem State.setCtl_pending (s : State) (c : Nat) (m : MemCtl) : (s.setCtl c m).pending = s.pending := rfl
@[simp] theorem State.setCtl_free (s : State) (c : Nat) (m : MemCtl) : (s.setCtl c m).free = s.free := rfl
@[simp] theorem State.setCtl_cycle (s : State) (c : Nat) (m : MemCtl) : (s.setCtl c m).cycle = s.cycle := rfl
@[simp] theorem State.setCtl_tick (s : State) (c : Nat) (m : MemCtl) : (s.setCtl c m).tick = s.tick := rfl
@[simp] theorem State.setCtl_resp (s : State) (c : Nat) (m : MemCtl) : (s.setCtl c m).resp = s.resp := rfl
@[simp] theorem State.setCtl_out (s : State) (c : Nat) (m : MemCtl) : (s.setCtl c m).out = s.out := rfl
@[simp] theorem State.setCtl_regs (s : State) (c : Nat) (m : MemCtl) : (s.setCtl c m).regs = s.regs := rfl
@[simp] theorem State.setCtl_hi (s : State) (c : Nat) (m : MemCtl) : (s.setCtl c m).hi = s.hi := rfl
@[simp] theorem State.setCtl_mem (s : State) (c : Nat) (m : MemCtl) : (s.setCtl c m).mem = s.mem := rfl
@[simp] theorem State.setCtl_bad (s : State) (c : Nat) (m : MemCtl) : (s.setCtl c m).bad = s.bad := rfl
@[simp] theorem State.setCtl_cp (s : State) (c : Nat) (m : MemCtl) : (s.setCtl c m).cp = s.cp := rfl
@[simp] theorem State.setCtl_wheels (s : State) (c : Nat) (m : MemCtl) : (s.setCtl c m).wheels = s.wheels := rfl
@[simp] theorem State.setCtl_jobs (s : State) (c : Nat) (m : MemCtl) : (s.setCtl c m).jobs = s.jobs := rfl
@[simp] theorem State.setCtl_reload (s : State) (c : Nat) (m : MemCtl) : (s.setCtl c m).reload = s.reload := rfl
@[simp] theorem State.setCtl_saved (s : State) (c : Nat) (m : MemCtl) : (s.setCtl c m).saved = s.saved := rfl
@[simp] theorem State.setCtl_te (s : State) (c : Nat) (m : MemCtl) : (s.setCtl c m).te = s.te := rfl
@[simp] theorem State.setCtl_sfuTab (s : State) (c : Nat) (m : MemCtl) : (s.setCtl c m).sfuTab = s.sfuTab := rfl
@[simp] theorem State.setCtl_codeTab (s : State) (c : Nat) (m : MemCtl) : (s.setCtl c m).codeTab = s.codeTab := rfl
@[simp] theorem State.setCtl_cores (s : State) (c : Nat) (m : MemCtl) : (s.setCtl c m).cores = s.cores := rfl
@[simp] theorem State.setCtl_svcPend (s : State) (c : Nat) (m : MemCtl) : (s.setCtl c m).svcPend = s.svcPend := rfl
@[simp] theorem State.setCtl_clrun (s : State) (c : Nat) (m : MemCtl) : (s.setCtl c m).clrun = s.clrun := rfl
@[simp] theorem State.setCtl_links (s : State) (c : Nat) (m : MemCtl) : (s.setCtl c m).links = s.links := rfl
@[simp] theorem State.setCtl_ce (s : State) (c : Nat) (m : MemCtl) : (s.setCtl c m).ce = s.ce := rfl
@[simp] theorem State.setCtl_groups (s : State) (c : Nat) (m : MemCtl) : (s.setCtl c m).groups = s.groups := rfl
@[simp] theorem State.setCtl_eth (s : State) (c : Nat) (m : MemCtl) : (s.setCtl c m).eth = s.eth := rfl
@[simp] theorem State.setCtl_birsan (s : State) (c : Nat) (m : MemCtl) : (s.setCtl c m).birsan = s.birsan := rfl
@[simp] theorem State.setCtl_sceman (s : State) (c : Nat) (m : MemCtl) : (s.setCtl c m).sceman = s.sceman := rfl
@[simp] theorem State.setCtl_fen (s : State) (c : Nat) (m : MemCtl) : (s.setCtl c m).fen = s.fen := rfl
@[simp] theorem State.setCtl_sage (s : State) (c : Nat) (m : MemCtl) : (s.setCtl c m).sage = s.sage := rfl
@[simp] theorem State.setCtl_power (s : State) (c : Nat) (m : MemCtl) : (s.setCtl c m).power = s.power := rfl
@[simp] theorem State.setCtl_board (s : State) (c : Nat) (m : MemCtl) : (s.setCtl c m).board = s.board := rfl
@[simp] theorem State.setCtl_spdm (s : State) (c : Nat) (m : MemCtl) : (s.setCtl c m).spdm = s.spdm := rfl
@[simp] theorem State.setCtl_mgmt (s : State) (c : Nat) (m : MemCtl) : (s.setCtl c m).mgmt = s.mgmt := rfl
@[simp] theorem State.setCtl_pci (s : State) (c : Nat) (m : MemCtl) : (s.setCtl c m).pci = s.pci := rfl
@[simp] theorem State.setCtl_ring18 (s : State) (c : Nat) (m : MemCtl) : (s.setCtl c m).ring18 = s.ring18 := rfl

/-! ### Activity -/

@[simp] theorem State.act_pending (s : State) (p x : Nat) : (s.act p x).pending = s.pending := rfl
@[simp] theorem State.act_free (s : State) (p x : Nat) : (s.act p x).free = s.free := rfl
@[simp] theorem State.act_cycle (s : State) (p x : Nat) : (s.act p x).cycle = s.cycle := rfl
@[simp] theorem State.act_tick (s : State) (p x : Nat) : (s.act p x).tick = s.tick := rfl
@[simp] theorem State.act_resp (s : State) (p x : Nat) : (s.act p x).resp = s.resp := rfl
@[simp] theorem State.act_out (s : State) (p x : Nat) : (s.act p x).out = s.out := rfl
@[simp] theorem State.act_regs (s : State) (p x : Nat) : (s.act p x).regs = s.regs := rfl
@[simp] theorem State.act_hi (s : State) (p x : Nat) : (s.act p x).hi = s.hi := rfl
@[simp] theorem State.act_mem (s : State) (p x : Nat) : (s.act p x).mem = s.mem := rfl
@[simp] theorem State.act_bad (s : State) (p x : Nat) : (s.act p x).bad = s.bad := rfl
@[simp] theorem State.act_cp (s : State) (p x : Nat) : (s.act p x).cp = s.cp := rfl
@[simp] theorem State.act_wheels (s : State) (p x : Nat) : (s.act p x).wheels = s.wheels := rfl
@[simp] theorem State.act_jobs (s : State) (p x : Nat) : (s.act p x).jobs = s.jobs := rfl
@[simp] theorem State.act_reload (s : State) (p x : Nat) : (s.act p x).reload = s.reload := rfl
@[simp] theorem State.act_saved (s : State) (p x : Nat) : (s.act p x).saved = s.saved := rfl
@[simp] theorem State.act_memc (s : State) (p x : Nat) : (s.act p x).memc = s.memc := rfl
@[simp] theorem State.act_te (s : State) (p x : Nat) : (s.act p x).te = s.te := rfl
@[simp] theorem State.act_sfuTab (s : State) (p x : Nat) : (s.act p x).sfuTab = s.sfuTab := rfl
@[simp] theorem State.act_codeTab (s : State) (p x : Nat) : (s.act p x).codeTab = s.codeTab := rfl
@[simp] theorem State.act_cores (s : State) (p x : Nat) : (s.act p x).cores = s.cores := rfl
@[simp] theorem State.act_svcPend (s : State) (p x : Nat) : (s.act p x).svcPend = s.svcPend := rfl
@[simp] theorem State.act_clrun (s : State) (p x : Nat) : (s.act p x).clrun = s.clrun := rfl
@[simp] theorem State.act_links (s : State) (p x : Nat) : (s.act p x).links = s.links := rfl
@[simp] theorem State.act_ce (s : State) (p x : Nat) : (s.act p x).ce = s.ce := rfl
@[simp] theorem State.act_groups (s : State) (p x : Nat) : (s.act p x).groups = s.groups := rfl
@[simp] theorem State.act_eth (s : State) (p x : Nat) : (s.act p x).eth = s.eth := rfl
@[simp] theorem State.act_birsan (s : State) (p x : Nat) : (s.act p x).birsan = s.birsan := rfl
@[simp] theorem State.act_sceman (s : State) (p x : Nat) : (s.act p x).sceman = s.sceman := rfl
@[simp] theorem State.act_fen (s : State) (p x : Nat) : (s.act p x).fen = s.fen := rfl
@[simp] theorem State.act_sage (s : State) (p x : Nat) : (s.act p x).sage = s.sage := rfl
@[simp] theorem State.act_board (s : State) (p x : Nat) : (s.act p x).board = s.board := rfl
@[simp] theorem State.act_spdm (s : State) (p x : Nat) : (s.act p x).spdm = s.spdm := rfl
@[simp] theorem State.act_mgmt (s : State) (p x : Nat) : (s.act p x).mgmt = s.mgmt := rfl
@[simp] theorem State.act_pci (s : State) (p x : Nat) : (s.act p x).pci = s.pci := rfl
@[simp] theorem State.act_ring18 (s : State) (p x : Nat) : (s.act p x).ring18 = s.ring18 := rfl

/-! ### Replacing a function -/

@[simp] theorem State.setFn_pending (s : State) (f : Nat) (v : PciFn) : (s.setFn f v).pending = s.pending := rfl
@[simp] theorem State.setFn_free (s : State) (f : Nat) (v : PciFn) : (s.setFn f v).free = s.free := rfl
@[simp] theorem State.setFn_cycle (s : State) (f : Nat) (v : PciFn) : (s.setFn f v).cycle = s.cycle := rfl
@[simp] theorem State.setFn_tick (s : State) (f : Nat) (v : PciFn) : (s.setFn f v).tick = s.tick := rfl
@[simp] theorem State.setFn_resp (s : State) (f : Nat) (v : PciFn) : (s.setFn f v).resp = s.resp := rfl
@[simp] theorem State.setFn_out (s : State) (f : Nat) (v : PciFn) : (s.setFn f v).out = s.out := rfl
@[simp] theorem State.setFn_regs (s : State) (f : Nat) (v : PciFn) : (s.setFn f v).regs = s.regs := rfl
@[simp] theorem State.setFn_hi (s : State) (f : Nat) (v : PciFn) : (s.setFn f v).hi = s.hi := rfl
@[simp] theorem State.setFn_mem (s : State) (f : Nat) (v : PciFn) : (s.setFn f v).mem = s.mem := rfl
@[simp] theorem State.setFn_bad (s : State) (f : Nat) (v : PciFn) : (s.setFn f v).bad = s.bad := rfl
@[simp] theorem State.setFn_cp (s : State) (f : Nat) (v : PciFn) : (s.setFn f v).cp = s.cp := rfl
@[simp] theorem State.setFn_wheels (s : State) (f : Nat) (v : PciFn) : (s.setFn f v).wheels = s.wheels := rfl
@[simp] theorem State.setFn_jobs (s : State) (f : Nat) (v : PciFn) : (s.setFn f v).jobs = s.jobs := rfl
@[simp] theorem State.setFn_reload (s : State) (f : Nat) (v : PciFn) : (s.setFn f v).reload = s.reload := rfl
@[simp] theorem State.setFn_saved (s : State) (f : Nat) (v : PciFn) : (s.setFn f v).saved = s.saved := rfl
@[simp] theorem State.setFn_memc (s : State) (f : Nat) (v : PciFn) : (s.setFn f v).memc = s.memc := rfl
@[simp] theorem State.setFn_te (s : State) (f : Nat) (v : PciFn) : (s.setFn f v).te = s.te := rfl
@[simp] theorem State.setFn_sfuTab (s : State) (f : Nat) (v : PciFn) : (s.setFn f v).sfuTab = s.sfuTab := rfl
@[simp] theorem State.setFn_codeTab (s : State) (f : Nat) (v : PciFn) : (s.setFn f v).codeTab = s.codeTab := rfl
@[simp] theorem State.setFn_cores (s : State) (f : Nat) (v : PciFn) : (s.setFn f v).cores = s.cores := rfl
@[simp] theorem State.setFn_svcPend (s : State) (f : Nat) (v : PciFn) : (s.setFn f v).svcPend = s.svcPend := rfl
@[simp] theorem State.setFn_clrun (s : State) (f : Nat) (v : PciFn) : (s.setFn f v).clrun = s.clrun := rfl
@[simp] theorem State.setFn_links (s : State) (f : Nat) (v : PciFn) : (s.setFn f v).links = s.links := rfl
@[simp] theorem State.setFn_ce (s : State) (f : Nat) (v : PciFn) : (s.setFn f v).ce = s.ce := rfl
@[simp] theorem State.setFn_groups (s : State) (f : Nat) (v : PciFn) : (s.setFn f v).groups = s.groups := rfl
@[simp] theorem State.setFn_eth (s : State) (f : Nat) (v : PciFn) : (s.setFn f v).eth = s.eth := rfl
@[simp] theorem State.setFn_birsan (s : State) (f : Nat) (v : PciFn) : (s.setFn f v).birsan = s.birsan := rfl
@[simp] theorem State.setFn_sceman (s : State) (f : Nat) (v : PciFn) : (s.setFn f v).sceman = s.sceman := rfl
@[simp] theorem State.setFn_fen (s : State) (f : Nat) (v : PciFn) : (s.setFn f v).fen = s.fen := rfl
@[simp] theorem State.setFn_sage (s : State) (f : Nat) (v : PciFn) : (s.setFn f v).sage = s.sage := rfl
@[simp] theorem State.setFn_power (s : State) (f : Nat) (v : PciFn) : (s.setFn f v).power = s.power := rfl
@[simp] theorem State.setFn_board (s : State) (f : Nat) (v : PciFn) : (s.setFn f v).board = s.board := rfl
@[simp] theorem State.setFn_spdm (s : State) (f : Nat) (v : PciFn) : (s.setFn f v).spdm = s.spdm := rfl
@[simp] theorem State.setFn_mgmt (s : State) (f : Nat) (v : PciFn) : (s.setFn f v).mgmt = s.mgmt := rfl
@[simp] theorem State.setFn_ring18 (s : State) (f : Nat) (v : PciFn) : (s.setFn f v).ring18 = s.ring18 := rfl

/-! ### Replacing LIMIT of a work counter -/

@[simp] theorem State.setObjLimit_pending (s : State) (o : Nat) (v : Word) : (s.setObjLimit o v).pending = s.pending := rfl
@[simp] theorem State.setObjLimit_free (s : State) (o : Nat) (v : Word) : (s.setObjLimit o v).free = s.free := rfl
@[simp] theorem State.setObjLimit_cycle (s : State) (o : Nat) (v : Word) : (s.setObjLimit o v).cycle = s.cycle := rfl
@[simp] theorem State.setObjLimit_tick (s : State) (o : Nat) (v : Word) : (s.setObjLimit o v).tick = s.tick := rfl
@[simp] theorem State.setObjLimit_resp (s : State) (o : Nat) (v : Word) : (s.setObjLimit o v).resp = s.resp := rfl
@[simp] theorem State.setObjLimit_out (s : State) (o : Nat) (v : Word) : (s.setObjLimit o v).out = s.out := rfl
@[simp] theorem State.setObjLimit_regs (s : State) (o : Nat) (v : Word) : (s.setObjLimit o v).regs = s.regs := rfl
@[simp] theorem State.setObjLimit_hi (s : State) (o : Nat) (v : Word) : (s.setObjLimit o v).hi = s.hi := rfl
@[simp] theorem State.setObjLimit_mem (s : State) (o : Nat) (v : Word) : (s.setObjLimit o v).mem = s.mem := rfl
@[simp] theorem State.setObjLimit_bad (s : State) (o : Nat) (v : Word) : (s.setObjLimit o v).bad = s.bad := rfl
@[simp] theorem State.setObjLimit_wheels (s : State) (o : Nat) (v : Word) : (s.setObjLimit o v).wheels = s.wheels := rfl
@[simp] theorem State.setObjLimit_jobs (s : State) (o : Nat) (v : Word) : (s.setObjLimit o v).jobs = s.jobs := rfl
@[simp] theorem State.setObjLimit_reload (s : State) (o : Nat) (v : Word) : (s.setObjLimit o v).reload = s.reload := rfl
@[simp] theorem State.setObjLimit_saved (s : State) (o : Nat) (v : Word) : (s.setObjLimit o v).saved = s.saved := rfl
@[simp] theorem State.setObjLimit_memc (s : State) (o : Nat) (v : Word) : (s.setObjLimit o v).memc = s.memc := rfl
@[simp] theorem State.setObjLimit_te (s : State) (o : Nat) (v : Word) : (s.setObjLimit o v).te = s.te := rfl
@[simp] theorem State.setObjLimit_sfuTab (s : State) (o : Nat) (v : Word) : (s.setObjLimit o v).sfuTab = s.sfuTab := rfl
@[simp] theorem State.setObjLimit_codeTab (s : State) (o : Nat) (v : Word) : (s.setObjLimit o v).codeTab = s.codeTab := rfl
@[simp] theorem State.setObjLimit_cores (s : State) (o : Nat) (v : Word) : (s.setObjLimit o v).cores = s.cores := rfl
@[simp] theorem State.setObjLimit_svcPend (s : State) (o : Nat) (v : Word) : (s.setObjLimit o v).svcPend = s.svcPend := rfl
@[simp] theorem State.setObjLimit_clrun (s : State) (o : Nat) (v : Word) : (s.setObjLimit o v).clrun = s.clrun := rfl
@[simp] theorem State.setObjLimit_links (s : State) (o : Nat) (v : Word) : (s.setObjLimit o v).links = s.links := rfl
@[simp] theorem State.setObjLimit_ce (s : State) (o : Nat) (v : Word) : (s.setObjLimit o v).ce = s.ce := rfl
@[simp] theorem State.setObjLimit_groups (s : State) (o : Nat) (v : Word) : (s.setObjLimit o v).groups = s.groups := rfl
@[simp] theorem State.setObjLimit_eth (s : State) (o : Nat) (v : Word) : (s.setObjLimit o v).eth = s.eth := rfl
@[simp] theorem State.setObjLimit_birsan (s : State) (o : Nat) (v : Word) : (s.setObjLimit o v).birsan = s.birsan := rfl
@[simp] theorem State.setObjLimit_sceman (s : State) (o : Nat) (v : Word) : (s.setObjLimit o v).sceman = s.sceman := rfl
@[simp] theorem State.setObjLimit_fen (s : State) (o : Nat) (v : Word) : (s.setObjLimit o v).fen = s.fen := rfl
@[simp] theorem State.setObjLimit_sage (s : State) (o : Nat) (v : Word) : (s.setObjLimit o v).sage = s.sage := rfl
@[simp] theorem State.setObjLimit_power (s : State) (o : Nat) (v : Word) : (s.setObjLimit o v).power = s.power := rfl
@[simp] theorem State.setObjLimit_board (s : State) (o : Nat) (v : Word) : (s.setObjLimit o v).board = s.board := rfl
@[simp] theorem State.setObjLimit_spdm (s : State) (o : Nat) (v : Word) : (s.setObjLimit o v).spdm = s.spdm := rfl
@[simp] theorem State.setObjLimit_mgmt (s : State) (o : Nat) (v : Word) : (s.setObjLimit o v).mgmt = s.mgmt := rfl
@[simp] theorem State.setObjLimit_pci (s : State) (o : Nat) (v : Word) : (s.setObjLimit o v).pci = s.pci := rfl
@[simp] theorem State.setObjLimit_ring18 (s : State) (o : Nat) (v : Word) : (s.setObjLimit o v).ring18 = s.ring18 := rfl

/-! ### Replacing the hidden state of a queue -/

@[simp] theorem State.setQueue_pending (s : State) (q : Nat) (v : QueueState) : (s.setQueue q v).pending = s.pending := rfl
@[simp] theorem State.setQueue_free (s : State) (q : Nat) (v : QueueState) : (s.setQueue q v).free = s.free := rfl
@[simp] theorem State.setQueue_cycle (s : State) (q : Nat) (v : QueueState) : (s.setQueue q v).cycle = s.cycle := rfl
@[simp] theorem State.setQueue_tick (s : State) (q : Nat) (v : QueueState) : (s.setQueue q v).tick = s.tick := rfl
@[simp] theorem State.setQueue_resp (s : State) (q : Nat) (v : QueueState) : (s.setQueue q v).resp = s.resp := rfl
@[simp] theorem State.setQueue_out (s : State) (q : Nat) (v : QueueState) : (s.setQueue q v).out = s.out := rfl
@[simp] theorem State.setQueue_regs (s : State) (q : Nat) (v : QueueState) : (s.setQueue q v).regs = s.regs := rfl
@[simp] theorem State.setQueue_hi (s : State) (q : Nat) (v : QueueState) : (s.setQueue q v).hi = s.hi := rfl
@[simp] theorem State.setQueue_mem (s : State) (q : Nat) (v : QueueState) : (s.setQueue q v).mem = s.mem := rfl
@[simp] theorem State.setQueue_bad (s : State) (q : Nat) (v : QueueState) : (s.setQueue q v).bad = s.bad := rfl
@[simp] theorem State.setQueue_wheels (s : State) (q : Nat) (v : QueueState) : (s.setQueue q v).wheels = s.wheels := rfl
@[simp] theorem State.setQueue_jobs (s : State) (q : Nat) (v : QueueState) : (s.setQueue q v).jobs = s.jobs := rfl
@[simp] theorem State.setQueue_reload (s : State) (q : Nat) (v : QueueState) : (s.setQueue q v).reload = s.reload := rfl
@[simp] theorem State.setQueue_saved (s : State) (q : Nat) (v : QueueState) : (s.setQueue q v).saved = s.saved := rfl
@[simp] theorem State.setQueue_memc (s : State) (q : Nat) (v : QueueState) : (s.setQueue q v).memc = s.memc := rfl
@[simp] theorem State.setQueue_te (s : State) (q : Nat) (v : QueueState) : (s.setQueue q v).te = s.te := rfl
@[simp] theorem State.setQueue_sfuTab (s : State) (q : Nat) (v : QueueState) : (s.setQueue q v).sfuTab = s.sfuTab := rfl
@[simp] theorem State.setQueue_codeTab (s : State) (q : Nat) (v : QueueState) : (s.setQueue q v).codeTab = s.codeTab := rfl
@[simp] theorem State.setQueue_cores (s : State) (q : Nat) (v : QueueState) : (s.setQueue q v).cores = s.cores := rfl
@[simp] theorem State.setQueue_svcPend (s : State) (q : Nat) (v : QueueState) : (s.setQueue q v).svcPend = s.svcPend := rfl
@[simp] theorem State.setQueue_clrun (s : State) (q : Nat) (v : QueueState) : (s.setQueue q v).clrun = s.clrun := rfl
@[simp] theorem State.setQueue_links (s : State) (q : Nat) (v : QueueState) : (s.setQueue q v).links = s.links := rfl
@[simp] theorem State.setQueue_ce (s : State) (q : Nat) (v : QueueState) : (s.setQueue q v).ce = s.ce := rfl
@[simp] theorem State.setQueue_groups (s : State) (q : Nat) (v : QueueState) : (s.setQueue q v).groups = s.groups := rfl
@[simp] theorem State.setQueue_eth (s : State) (q : Nat) (v : QueueState) : (s.setQueue q v).eth = s.eth := rfl
@[simp] theorem State.setQueue_birsan (s : State) (q : Nat) (v : QueueState) : (s.setQueue q v).birsan = s.birsan := rfl
@[simp] theorem State.setQueue_sceman (s : State) (q : Nat) (v : QueueState) : (s.setQueue q v).sceman = s.sceman := rfl
@[simp] theorem State.setQueue_fen (s : State) (q : Nat) (v : QueueState) : (s.setQueue q v).fen = s.fen := rfl
@[simp] theorem State.setQueue_sage (s : State) (q : Nat) (v : QueueState) : (s.setQueue q v).sage = s.sage := rfl
@[simp] theorem State.setQueue_power (s : State) (q : Nat) (v : QueueState) : (s.setQueue q v).power = s.power := rfl
@[simp] theorem State.setQueue_board (s : State) (q : Nat) (v : QueueState) : (s.setQueue q v).board = s.board := rfl
@[simp] theorem State.setQueue_spdm (s : State) (q : Nat) (v : QueueState) : (s.setQueue q v).spdm = s.spdm := rfl
@[simp] theorem State.setQueue_mgmt (s : State) (q : Nat) (v : QueueState) : (s.setQueue q v).mgmt = s.mgmt := rfl
@[simp] theorem State.setQueue_pci (s : State) (q : Nat) (v : QueueState) : (s.setQueue q v).pci = s.pci := rfl
@[simp] theorem State.setQueue_ring18 (s : State) (q : Nat) (v : QueueState) : (s.setQueue q v).ring18 = s.ring18 := rfl

/-! ### Replacing a run-ahead window -/

@[simp] theorem State.setWindow_pending (s : State) (f : Nat) (w : List Decoded) :
    (s.setWindow f w).pending = s.pending := (State.setFld_pending ..).trans rfl
@[simp] theorem State.setWindow_free (s : State) (f : Nat) (w : List Decoded) :
    (s.setWindow f w).free = s.free := (State.setFld_free ..).trans rfl
@[simp] theorem State.setWindow_cycle (s : State) (f : Nat) (w : List Decoded) :
    (s.setWindow f w).cycle = s.cycle := (State.setFld_cycle ..).trans rfl
@[simp] theorem State.setWindow_tick (s : State) (f : Nat) (w : List Decoded) :
    (s.setWindow f w).tick = s.tick := (State.setFld_tick ..).trans rfl
@[simp] theorem State.setWindow_resp (s : State) (f : Nat) (w : List Decoded) :
    (s.setWindow f w).resp = s.resp := (State.setFld_resp ..).trans rfl
@[simp] theorem State.setWindow_out (s : State) (f : Nat) (w : List Decoded) :
    (s.setWindow f w).out = s.out := (State.setFld_out ..).trans rfl
@[simp] theorem State.setWindow_hi (s : State) (f : Nat) (w : List Decoded) :
    (s.setWindow f w).hi = s.hi := (State.setFld_hi ..).trans rfl
@[simp] theorem State.setWindow_mem (s : State) (f : Nat) (w : List Decoded) :
    (s.setWindow f w).mem = s.mem := (State.setFld_mem ..).trans rfl
@[simp] theorem State.setWindow_bad (s : State) (f : Nat) (w : List Decoded) :
    (s.setWindow f w).bad = s.bad := (State.setFld_bad ..).trans rfl
@[simp] theorem State.setWindow_wheels (s : State) (f : Nat) (w : List Decoded) :
    (s.setWindow f w).wheels = s.wheels := (State.setFld_wheels ..).trans rfl
@[simp] theorem State.setWindow_jobs (s : State) (f : Nat) (w : List Decoded) :
    (s.setWindow f w).jobs = s.jobs := (State.setFld_jobs ..).trans rfl
@[simp] theorem State.setWindow_reload (s : State) (f : Nat) (w : List Decoded) :
    (s.setWindow f w).reload = s.reload := (State.setFld_reload ..).trans rfl
@[simp] theorem State.setWindow_saved (s : State) (f : Nat) (w : List Decoded) :
    (s.setWindow f w).saved = s.saved := (State.setFld_saved ..).trans rfl
@[simp] theorem State.setWindow_memc (s : State) (f : Nat) (w : List Decoded) :
    (s.setWindow f w).memc = s.memc := (State.setFld_memc ..).trans rfl
@[simp] theorem State.setWindow_te (s : State) (f : Nat) (w : List Decoded) :
    (s.setWindow f w).te = s.te := (State.setFld_te ..).trans rfl
@[simp] theorem State.setWindow_sfuTab (s : State) (f : Nat) (w : List Decoded) :
    (s.setWindow f w).sfuTab = s.sfuTab := (State.setFld_sfuTab ..).trans rfl
@[simp] theorem State.setWindow_codeTab (s : State) (f : Nat) (w : List Decoded) :
    (s.setWindow f w).codeTab = s.codeTab := (State.setFld_codeTab ..).trans rfl
@[simp] theorem State.setWindow_cores (s : State) (f : Nat) (w : List Decoded) :
    (s.setWindow f w).cores = s.cores := (State.setFld_cores ..).trans rfl
@[simp] theorem State.setWindow_svcPend (s : State) (f : Nat) (w : List Decoded) :
    (s.setWindow f w).svcPend = s.svcPend := (State.setFld_svcPend ..).trans rfl
@[simp] theorem State.setWindow_clrun (s : State) (f : Nat) (w : List Decoded) :
    (s.setWindow f w).clrun = s.clrun := (State.setFld_clrun ..).trans rfl
@[simp] theorem State.setWindow_links (s : State) (f : Nat) (w : List Decoded) :
    (s.setWindow f w).links = s.links := (State.setFld_links ..).trans rfl
@[simp] theorem State.setWindow_ce (s : State) (f : Nat) (w : List Decoded) :
    (s.setWindow f w).ce = s.ce := (State.setFld_ce ..).trans rfl
@[simp] theorem State.setWindow_groups (s : State) (f : Nat) (w : List Decoded) :
    (s.setWindow f w).groups = s.groups := (State.setFld_groups ..).trans rfl
@[simp] theorem State.setWindow_eth (s : State) (f : Nat) (w : List Decoded) :
    (s.setWindow f w).eth = s.eth := (State.setFld_eth ..).trans rfl
@[simp] theorem State.setWindow_birsan (s : State) (f : Nat) (w : List Decoded) :
    (s.setWindow f w).birsan = s.birsan := (State.setFld_birsan ..).trans rfl
@[simp] theorem State.setWindow_sceman (s : State) (f : Nat) (w : List Decoded) :
    (s.setWindow f w).sceman = s.sceman := (State.setFld_sceman ..).trans rfl
@[simp] theorem State.setWindow_fen (s : State) (f : Nat) (w : List Decoded) :
    (s.setWindow f w).fen = s.fen := (State.setFld_fen ..).trans rfl
@[simp] theorem State.setWindow_sage (s : State) (f : Nat) (w : List Decoded) :
    (s.setWindow f w).sage = s.sage := (State.setFld_sage ..).trans rfl
@[simp] theorem State.setWindow_power (s : State) (f : Nat) (w : List Decoded) :
    (s.setWindow f w).power = s.power := (State.setFld_power ..).trans rfl
@[simp] theorem State.setWindow_board (s : State) (f : Nat) (w : List Decoded) :
    (s.setWindow f w).board = s.board := (State.setFld_board ..).trans rfl
@[simp] theorem State.setWindow_spdm (s : State) (f : Nat) (w : List Decoded) :
    (s.setWindow f w).spdm = s.spdm := (State.setFld_spdm ..).trans rfl
@[simp] theorem State.setWindow_mgmt (s : State) (f : Nat) (w : List Decoded) :
    (s.setWindow f w).mgmt = s.mgmt := (State.setFld_mgmt ..).trans rfl
@[simp] theorem State.setWindow_pci (s : State) (f : Nat) (w : List Decoded) :
    (s.setWindow f w).pci = s.pci := (State.setFld_pci ..).trans rfl
@[simp] theorem State.setWindow_ring18 (s : State) (f : Nat) (w : List Decoded) :
    (s.setWindow f w).ring18 = s.ring18 := (State.setFld_ring18 ..).trans rfl

/-! ### Replacing a posted stream -/

@[simp] theorem State.setPosts_pending (s : State) (eg c : Nat) (w : List Decoded) :
    (s.setPosts eg c w).pending = s.pending := rfl
@[simp] theorem State.setPosts_free (s : State) (eg c : Nat) (w : List Decoded) : (s.setPosts eg c w).free = s.free := rfl
@[simp] theorem State.setPosts_cycle (s : State) (eg c : Nat) (w : List Decoded) : (s.setPosts eg c w).cycle = s.cycle := rfl
@[simp] theorem State.setPosts_tick (s : State) (eg c : Nat) (w : List Decoded) : (s.setPosts eg c w).tick = s.tick := rfl
@[simp] theorem State.setPosts_resp (s : State) (eg c : Nat) (w : List Decoded) : (s.setPosts eg c w).resp = s.resp := rfl
@[simp] theorem State.setPosts_out (s : State) (eg c : Nat) (w : List Decoded) : (s.setPosts eg c w).out = s.out := rfl
@[simp] theorem State.setPosts_regs (s : State) (eg c : Nat) (w : List Decoded) : (s.setPosts eg c w).regs = s.regs := rfl
@[simp] theorem State.setPosts_hi (s : State) (eg c : Nat) (w : List Decoded) : (s.setPosts eg c w).hi = s.hi := rfl
@[simp] theorem State.setPosts_mem (s : State) (eg c : Nat) (w : List Decoded) : (s.setPosts eg c w).mem = s.mem := rfl
@[simp] theorem State.setPosts_bad (s : State) (eg c : Nat) (w : List Decoded) : (s.setPosts eg c w).bad = s.bad := rfl
@[simp] theorem State.setPosts_wheels (s : State) (eg c : Nat) (w : List Decoded) : (s.setPosts eg c w).wheels = s.wheels := rfl
@[simp] theorem State.setPosts_jobs (s : State) (eg c : Nat) (w : List Decoded) : (s.setPosts eg c w).jobs = s.jobs := rfl
@[simp] theorem State.setPosts_reload (s : State) (eg c : Nat) (w : List Decoded) : (s.setPosts eg c w).reload = s.reload := rfl
@[simp] theorem State.setPosts_saved (s : State) (eg c : Nat) (w : List Decoded) : (s.setPosts eg c w).saved = s.saved := rfl
@[simp] theorem State.setPosts_memc (s : State) (eg c : Nat) (w : List Decoded) : (s.setPosts eg c w).memc = s.memc := rfl
@[simp] theorem State.setPosts_te (s : State) (eg c : Nat) (w : List Decoded) : (s.setPosts eg c w).te = s.te := rfl
@[simp] theorem State.setPosts_sfuTab (s : State) (eg c : Nat) (w : List Decoded) : (s.setPosts eg c w).sfuTab = s.sfuTab := rfl
@[simp] theorem State.setPosts_codeTab (s : State) (eg c : Nat) (w : List Decoded) :
    (s.setPosts eg c w).codeTab = s.codeTab := rfl
@[simp] theorem State.setPosts_cores (s : State) (eg c : Nat) (w : List Decoded) : (s.setPosts eg c w).cores = s.cores := rfl
@[simp] theorem State.setPosts_svcPend (s : State) (eg c : Nat) (w : List Decoded) :
    (s.setPosts eg c w).svcPend = s.svcPend := rfl
@[simp] theorem State.setPosts_clrun (s : State) (eg c : Nat) (w : List Decoded) : (s.setPosts eg c w).clrun = s.clrun := rfl
@[simp] theorem State.setPosts_links (s : State) (eg c : Nat) (w : List Decoded) : (s.setPosts eg c w).links = s.links := rfl
@[simp] theorem State.setPosts_ce (s : State) (eg c : Nat) (w : List Decoded) : (s.setPosts eg c w).ce = s.ce := rfl
@[simp] theorem State.setPosts_groups (s : State) (eg c : Nat) (w : List Decoded) : (s.setPosts eg c w).groups = s.groups := rfl
@[simp] theorem State.setPosts_eth (s : State) (eg c : Nat) (w : List Decoded) : (s.setPosts eg c w).eth = s.eth := rfl
@[simp] theorem State.setPosts_birsan (s : State) (eg c : Nat) (w : List Decoded) : (s.setPosts eg c w).birsan = s.birsan := rfl
@[simp] theorem State.setPosts_sceman (s : State) (eg c : Nat) (w : List Decoded) : (s.setPosts eg c w).sceman = s.sceman := rfl
@[simp] theorem State.setPosts_fen (s : State) (eg c : Nat) (w : List Decoded) : (s.setPosts eg c w).fen = s.fen := rfl
@[simp] theorem State.setPosts_sage (s : State) (eg c : Nat) (w : List Decoded) : (s.setPosts eg c w).sage = s.sage := rfl
@[simp] theorem State.setPosts_power (s : State) (eg c : Nat) (w : List Decoded) : (s.setPosts eg c w).power = s.power := rfl
@[simp] theorem State.setPosts_board (s : State) (eg c : Nat) (w : List Decoded) : (s.setPosts eg c w).board = s.board := rfl
@[simp] theorem State.setPosts_spdm (s : State) (eg c : Nat) (w : List Decoded) : (s.setPosts eg c w).spdm = s.spdm := rfl
@[simp] theorem State.setPosts_mgmt (s : State) (eg c : Nat) (w : List Decoded) : (s.setPosts eg c w).mgmt = s.mgmt := rfl
@[simp] theorem State.setPosts_pci (s : State) (eg c : Nat) (w : List Decoded) : (s.setPosts eg c w).pci = s.pci := rfl
@[simp] theorem State.setPosts_ring18 (s : State) (eg c : Nat) (w : List Decoded) : (s.setPosts eg c w).ring18 = s.ring18 := rfl

/-! ### Replacing a wheel -/

@[simp] theorem State.setWheel_pending (s : State) (eg : Nat) (w : Wheel) : (s.setWheel eg w).pending = s.pending := rfl
@[simp] theorem State.setWheel_free (s : State) (eg : Nat) (w : Wheel) : (s.setWheel eg w).free = s.free := rfl
@[simp] theorem State.setWheel_cycle (s : State) (eg : Nat) (w : Wheel) : (s.setWheel eg w).cycle = s.cycle := rfl
@[simp] theorem State.setWheel_tick (s : State) (eg : Nat) (w : Wheel) : (s.setWheel eg w).tick = s.tick := rfl
@[simp] theorem State.setWheel_resp (s : State) (eg : Nat) (w : Wheel) : (s.setWheel eg w).resp = s.resp := rfl
@[simp] theorem State.setWheel_out (s : State) (eg : Nat) (w : Wheel) : (s.setWheel eg w).out = s.out := rfl
@[simp] theorem State.setWheel_regs (s : State) (eg : Nat) (w : Wheel) : (s.setWheel eg w).regs = s.regs := rfl
@[simp] theorem State.setWheel_hi (s : State) (eg : Nat) (w : Wheel) : (s.setWheel eg w).hi = s.hi := rfl
@[simp] theorem State.setWheel_mem (s : State) (eg : Nat) (w : Wheel) : (s.setWheel eg w).mem = s.mem := rfl
@[simp] theorem State.setWheel_bad (s : State) (eg : Nat) (w : Wheel) : (s.setWheel eg w).bad = s.bad := rfl
@[simp] theorem State.setWheel_cp (s : State) (eg : Nat) (w : Wheel) : (s.setWheel eg w).cp = s.cp := rfl
@[simp] theorem State.setWheel_jobs (s : State) (eg : Nat) (w : Wheel) : (s.setWheel eg w).jobs = s.jobs := rfl
@[simp] theorem State.setWheel_reload (s : State) (eg : Nat) (w : Wheel) : (s.setWheel eg w).reload = s.reload := rfl
@[simp] theorem State.setWheel_saved (s : State) (eg : Nat) (w : Wheel) : (s.setWheel eg w).saved = s.saved := rfl
@[simp] theorem State.setWheel_memc (s : State) (eg : Nat) (w : Wheel) : (s.setWheel eg w).memc = s.memc := rfl
@[simp] theorem State.setWheel_te (s : State) (eg : Nat) (w : Wheel) : (s.setWheel eg w).te = s.te := rfl
@[simp] theorem State.setWheel_sfuTab (s : State) (eg : Nat) (w : Wheel) : (s.setWheel eg w).sfuTab = s.sfuTab := rfl
@[simp] theorem State.setWheel_codeTab (s : State) (eg : Nat) (w : Wheel) : (s.setWheel eg w).codeTab = s.codeTab := rfl
@[simp] theorem State.setWheel_cores (s : State) (eg : Nat) (w : Wheel) : (s.setWheel eg w).cores = s.cores := rfl
@[simp] theorem State.setWheel_svcPend (s : State) (eg : Nat) (w : Wheel) : (s.setWheel eg w).svcPend = s.svcPend := rfl
@[simp] theorem State.setWheel_clrun (s : State) (eg : Nat) (w : Wheel) : (s.setWheel eg w).clrun = s.clrun := rfl
@[simp] theorem State.setWheel_links (s : State) (eg : Nat) (w : Wheel) : (s.setWheel eg w).links = s.links := rfl
@[simp] theorem State.setWheel_ce (s : State) (eg : Nat) (w : Wheel) : (s.setWheel eg w).ce = s.ce := rfl
@[simp] theorem State.setWheel_groups (s : State) (eg : Nat) (w : Wheel) : (s.setWheel eg w).groups = s.groups := rfl
@[simp] theorem State.setWheel_eth (s : State) (eg : Nat) (w : Wheel) : (s.setWheel eg w).eth = s.eth := rfl
@[simp] theorem State.setWheel_birsan (s : State) (eg : Nat) (w : Wheel) : (s.setWheel eg w).birsan = s.birsan := rfl
@[simp] theorem State.setWheel_sceman (s : State) (eg : Nat) (w : Wheel) : (s.setWheel eg w).sceman = s.sceman := rfl
@[simp] theorem State.setWheel_fen (s : State) (eg : Nat) (w : Wheel) : (s.setWheel eg w).fen = s.fen := rfl
@[simp] theorem State.setWheel_sage (s : State) (eg : Nat) (w : Wheel) : (s.setWheel eg w).sage = s.sage := rfl
@[simp] theorem State.setWheel_power (s : State) (eg : Nat) (w : Wheel) : (s.setWheel eg w).power = s.power := rfl
@[simp] theorem State.setWheel_board (s : State) (eg : Nat) (w : Wheel) : (s.setWheel eg w).board = s.board := rfl
@[simp] theorem State.setWheel_spdm (s : State) (eg : Nat) (w : Wheel) : (s.setWheel eg w).spdm = s.spdm := rfl
@[simp] theorem State.setWheel_mgmt (s : State) (eg : Nat) (w : Wheel) : (s.setWheel eg w).mgmt = s.mgmt := rfl
@[simp] theorem State.setWheel_pci (s : State) (eg : Nat) (w : Wheel) : (s.setWheel eg w).pci = s.pci := rfl
@[simp] theorem State.setWheel_ring18 (s : State) (eg : Nat) (w : Wheel) : (s.setWheel eg w).ring18 = s.ring18 := rfl

/-! ### Replacing the state of a job -/

@[simp] theorem State.setJob_pending (s : State) (p j : Nat) (v : JobState) : (s.setJob p j v).pending = s.pending := rfl
@[simp] theorem State.setJob_free (s : State) (p j : Nat) (v : JobState) : (s.setJob p j v).free = s.free := rfl
@[simp] theorem State.setJob_cycle (s : State) (p j : Nat) (v : JobState) : (s.setJob p j v).cycle = s.cycle := rfl
@[simp] theorem State.setJob_tick (s : State) (p j : Nat) (v : JobState) : (s.setJob p j v).tick = s.tick := rfl
@[simp] theorem State.setJob_resp (s : State) (p j : Nat) (v : JobState) : (s.setJob p j v).resp = s.resp := rfl
@[simp] theorem State.setJob_out (s : State) (p j : Nat) (v : JobState) : (s.setJob p j v).out = s.out := rfl
@[simp] theorem State.setJob_regs (s : State) (p j : Nat) (v : JobState) : (s.setJob p j v).regs = s.regs := rfl
@[simp] theorem State.setJob_hi (s : State) (p j : Nat) (v : JobState) : (s.setJob p j v).hi = s.hi := rfl
@[simp] theorem State.setJob_mem (s : State) (p j : Nat) (v : JobState) : (s.setJob p j v).mem = s.mem := rfl
@[simp] theorem State.setJob_bad (s : State) (p j : Nat) (v : JobState) : (s.setJob p j v).bad = s.bad := rfl
@[simp] theorem State.setJob_cp (s : State) (p j : Nat) (v : JobState) : (s.setJob p j v).cp = s.cp := rfl
@[simp] theorem State.setJob_wheels (s : State) (p j : Nat) (v : JobState) : (s.setJob p j v).wheels = s.wheels := rfl
@[simp] theorem State.setJob_reload (s : State) (p j : Nat) (v : JobState) : (s.setJob p j v).reload = s.reload := rfl
@[simp] theorem State.setJob_saved (s : State) (p j : Nat) (v : JobState) : (s.setJob p j v).saved = s.saved := rfl
@[simp] theorem State.setJob_memc (s : State) (p j : Nat) (v : JobState) : (s.setJob p j v).memc = s.memc := rfl
@[simp] theorem State.setJob_te (s : State) (p j : Nat) (v : JobState) : (s.setJob p j v).te = s.te := rfl
@[simp] theorem State.setJob_sfuTab (s : State) (p j : Nat) (v : JobState) : (s.setJob p j v).sfuTab = s.sfuTab := rfl
@[simp] theorem State.setJob_codeTab (s : State) (p j : Nat) (v : JobState) : (s.setJob p j v).codeTab = s.codeTab := rfl
@[simp] theorem State.setJob_cores (s : State) (p j : Nat) (v : JobState) : (s.setJob p j v).cores = s.cores := rfl
@[simp] theorem State.setJob_svcPend (s : State) (p j : Nat) (v : JobState) : (s.setJob p j v).svcPend = s.svcPend := rfl
@[simp] theorem State.setJob_clrun (s : State) (p j : Nat) (v : JobState) : (s.setJob p j v).clrun = s.clrun := rfl
@[simp] theorem State.setJob_links (s : State) (p j : Nat) (v : JobState) : (s.setJob p j v).links = s.links := rfl
@[simp] theorem State.setJob_ce (s : State) (p j : Nat) (v : JobState) : (s.setJob p j v).ce = s.ce := rfl
@[simp] theorem State.setJob_groups (s : State) (p j : Nat) (v : JobState) : (s.setJob p j v).groups = s.groups := rfl
@[simp] theorem State.setJob_eth (s : State) (p j : Nat) (v : JobState) : (s.setJob p j v).eth = s.eth := rfl
@[simp] theorem State.setJob_birsan (s : State) (p j : Nat) (v : JobState) : (s.setJob p j v).birsan = s.birsan := rfl
@[simp] theorem State.setJob_sceman (s : State) (p j : Nat) (v : JobState) : (s.setJob p j v).sceman = s.sceman := rfl
@[simp] theorem State.setJob_fen (s : State) (p j : Nat) (v : JobState) : (s.setJob p j v).fen = s.fen := rfl
@[simp] theorem State.setJob_sage (s : State) (p j : Nat) (v : JobState) : (s.setJob p j v).sage = s.sage := rfl
@[simp] theorem State.setJob_power (s : State) (p j : Nat) (v : JobState) : (s.setJob p j v).power = s.power := rfl
@[simp] theorem State.setJob_board (s : State) (p j : Nat) (v : JobState) : (s.setJob p j v).board = s.board := rfl
@[simp] theorem State.setJob_spdm (s : State) (p j : Nat) (v : JobState) : (s.setJob p j v).spdm = s.spdm := rfl
@[simp] theorem State.setJob_mgmt (s : State) (p j : Nat) (v : JobState) : (s.setJob p j v).mgmt = s.mgmt := rfl
@[simp] theorem State.setJob_pci (s : State) (p j : Nat) (v : JobState) : (s.setJob p j v).pci = s.pci := rfl
@[simp] theorem State.setJob_ring18 (s : State) (p j : Nat) (v : JobState) : (s.setJob p j v).ring18 = s.ring18 := rfl

/-! ### Replacing a collector entry -/

@[simp] theorem State.setEntry_pending (s : State) (f e : Nat) (l : List Completion) :
    (s.setEntry f e l).pending = s.pending := rfl
@[simp] theorem State.setEntry_free (s : State) (f e : Nat) (l : List Completion) : (s.setEntry f e l).free = s.free := rfl
@[simp] theorem State.setEntry_cycle (s : State) (f e : Nat) (l : List Completion) : (s.setEntry f e l).cycle = s.cycle := rfl
@[simp] theorem State.setEntry_tick (s : State) (f e : Nat) (l : List Completion) : (s.setEntry f e l).tick = s.tick := rfl
@[simp] theorem State.setEntry_resp (s : State) (f e : Nat) (l : List Completion) : (s.setEntry f e l).resp = s.resp := rfl
@[simp] theorem State.setEntry_out (s : State) (f e : Nat) (l : List Completion) : (s.setEntry f e l).out = s.out := rfl
@[simp] theorem State.setEntry_regs (s : State) (f e : Nat) (l : List Completion) : (s.setEntry f e l).regs = s.regs := rfl
@[simp] theorem State.setEntry_hi (s : State) (f e : Nat) (l : List Completion) : (s.setEntry f e l).hi = s.hi := rfl
@[simp] theorem State.setEntry_mem (s : State) (f e : Nat) (l : List Completion) : (s.setEntry f e l).mem = s.mem := rfl
@[simp] theorem State.setEntry_bad (s : State) (f e : Nat) (l : List Completion) : (s.setEntry f e l).bad = s.bad := rfl
@[simp] theorem State.setEntry_wheels (s : State) (f e : Nat) (l : List Completion) : (s.setEntry f e l).wheels = s.wheels := rfl
@[simp] theorem State.setEntry_jobs (s : State) (f e : Nat) (l : List Completion) : (s.setEntry f e l).jobs = s.jobs := rfl
@[simp] theorem State.setEntry_reload (s : State) (f e : Nat) (l : List Completion) : (s.setEntry f e l).reload = s.reload := rfl
@[simp] theorem State.setEntry_saved (s : State) (f e : Nat) (l : List Completion) : (s.setEntry f e l).saved = s.saved := rfl
@[simp] theorem State.setEntry_memc (s : State) (f e : Nat) (l : List Completion) : (s.setEntry f e l).memc = s.memc := rfl
@[simp] theorem State.setEntry_te (s : State) (f e : Nat) (l : List Completion) : (s.setEntry f e l).te = s.te := rfl
@[simp] theorem State.setEntry_sfuTab (s : State) (f e : Nat) (l : List Completion) : (s.setEntry f e l).sfuTab = s.sfuTab := rfl
@[simp] theorem State.setEntry_codeTab (s : State) (f e : Nat) (l : List Completion) :
    (s.setEntry f e l).codeTab = s.codeTab := rfl
@[simp] theorem State.setEntry_cores (s : State) (f e : Nat) (l : List Completion) : (s.setEntry f e l).cores = s.cores := rfl
@[simp] theorem State.setEntry_svcPend (s : State) (f e : Nat) (l : List Completion) :
    (s.setEntry f e l).svcPend = s.svcPend := rfl
@[simp] theorem State.setEntry_clrun (s : State) (f e : Nat) (l : List Completion) : (s.setEntry f e l).clrun = s.clrun := rfl
@[simp] theorem State.setEntry_links (s : State) (f e : Nat) (l : List Completion) : (s.setEntry f e l).links = s.links := rfl
@[simp] theorem State.setEntry_ce (s : State) (f e : Nat) (l : List Completion) : (s.setEntry f e l).ce = s.ce := rfl
@[simp] theorem State.setEntry_groups (s : State) (f e : Nat) (l : List Completion) : (s.setEntry f e l).groups = s.groups := rfl
@[simp] theorem State.setEntry_eth (s : State) (f e : Nat) (l : List Completion) : (s.setEntry f e l).eth = s.eth := rfl
@[simp] theorem State.setEntry_birsan (s : State) (f e : Nat) (l : List Completion) : (s.setEntry f e l).birsan = s.birsan := rfl
@[simp] theorem State.setEntry_sceman (s : State) (f e : Nat) (l : List Completion) : (s.setEntry f e l).sceman = s.sceman := rfl
@[simp] theorem State.setEntry_fen (s : State) (f e : Nat) (l : List Completion) : (s.setEntry f e l).fen = s.fen := rfl
@[simp] theorem State.setEntry_sage (s : State) (f e : Nat) (l : List Completion) : (s.setEntry f e l).sage = s.sage := rfl
@[simp] theorem State.setEntry_power (s : State) (f e : Nat) (l : List Completion) : (s.setEntry f e l).power = s.power := rfl
@[simp] theorem State.setEntry_board (s : State) (f e : Nat) (l : List Completion) : (s.setEntry f e l).board = s.board := rfl
@[simp] theorem State.setEntry_spdm (s : State) (f e : Nat) (l : List Completion) : (s.setEntry f e l).spdm = s.spdm := rfl
@[simp] theorem State.setEntry_mgmt (s : State) (f e : Nat) (l : List Completion) : (s.setEntry f e l).mgmt = s.mgmt := rfl
@[simp] theorem State.setEntry_pci (s : State) (f e : Nat) (l : List Completion) : (s.setEntry f e l).pci = s.pci := rfl
@[simp] theorem State.setEntry_ring18 (s : State) (f e : Nat) (l : List Completion) : (s.setEntry f e l).ring18 = s.ring18 := rfl

/-! ### Replacing the running programs of a cluster -/

@[simp] theorem State.setClruns_pending (s : State) (eg : Nat) (v : List ClRun) : (s.setClruns eg v).pending = s.pending := rfl
@[simp] theorem State.setClruns_free (s : State) (eg : Nat) (v : List ClRun) : (s.setClruns eg v).free = s.free := rfl
@[simp] theorem State.setClruns_cycle (s : State) (eg : Nat) (v : List ClRun) : (s.setClruns eg v).cycle = s.cycle := rfl
@[simp] theorem State.setClruns_tick (s : State) (eg : Nat) (v : List ClRun) : (s.setClruns eg v).tick = s.tick := rfl
@[simp] theorem State.setClruns_resp (s : State) (eg : Nat) (v : List ClRun) : (s.setClruns eg v).resp = s.resp := rfl
@[simp] theorem State.setClruns_out (s : State) (eg : Nat) (v : List ClRun) : (s.setClruns eg v).out = s.out := rfl
@[simp] theorem State.setClruns_regs (s : State) (eg : Nat) (v : List ClRun) : (s.setClruns eg v).regs = s.regs := rfl
@[simp] theorem State.setClruns_hi (s : State) (eg : Nat) (v : List ClRun) : (s.setClruns eg v).hi = s.hi := rfl
@[simp] theorem State.setClruns_mem (s : State) (eg : Nat) (v : List ClRun) : (s.setClruns eg v).mem = s.mem := rfl
@[simp] theorem State.setClruns_bad (s : State) (eg : Nat) (v : List ClRun) : (s.setClruns eg v).bad = s.bad := rfl
@[simp] theorem State.setClruns_cp (s : State) (eg : Nat) (v : List ClRun) : (s.setClruns eg v).cp = s.cp := rfl
@[simp] theorem State.setClruns_wheels (s : State) (eg : Nat) (v : List ClRun) : (s.setClruns eg v).wheels = s.wheels := rfl
@[simp] theorem State.setClruns_jobs (s : State) (eg : Nat) (v : List ClRun) : (s.setClruns eg v).jobs = s.jobs := rfl
@[simp] theorem State.setClruns_reload (s : State) (eg : Nat) (v : List ClRun) : (s.setClruns eg v).reload = s.reload := rfl
@[simp] theorem State.setClruns_saved (s : State) (eg : Nat) (v : List ClRun) : (s.setClruns eg v).saved = s.saved := rfl
@[simp] theorem State.setClruns_memc (s : State) (eg : Nat) (v : List ClRun) : (s.setClruns eg v).memc = s.memc := rfl
@[simp] theorem State.setClruns_te (s : State) (eg : Nat) (v : List ClRun) : (s.setClruns eg v).te = s.te := rfl
@[simp] theorem State.setClruns_sfuTab (s : State) (eg : Nat) (v : List ClRun) : (s.setClruns eg v).sfuTab = s.sfuTab := rfl
@[simp] theorem State.setClruns_codeTab (s : State) (eg : Nat) (v : List ClRun) : (s.setClruns eg v).codeTab = s.codeTab := rfl
@[simp] theorem State.setClruns_cores (s : State) (eg : Nat) (v : List ClRun) : (s.setClruns eg v).cores = s.cores := rfl
@[simp] theorem State.setClruns_svcPend (s : State) (eg : Nat) (v : List ClRun) : (s.setClruns eg v).svcPend = s.svcPend := rfl
@[simp] theorem State.setClruns_links (s : State) (eg : Nat) (v : List ClRun) : (s.setClruns eg v).links = s.links := rfl
@[simp] theorem State.setClruns_ce (s : State) (eg : Nat) (v : List ClRun) : (s.setClruns eg v).ce = s.ce := rfl
@[simp] theorem State.setClruns_groups (s : State) (eg : Nat) (v : List ClRun) : (s.setClruns eg v).groups = s.groups := rfl
@[simp] theorem State.setClruns_eth (s : State) (eg : Nat) (v : List ClRun) : (s.setClruns eg v).eth = s.eth := rfl
@[simp] theorem State.setClruns_birsan (s : State) (eg : Nat) (v : List ClRun) : (s.setClruns eg v).birsan = s.birsan := rfl
@[simp] theorem State.setClruns_sceman (s : State) (eg : Nat) (v : List ClRun) : (s.setClruns eg v).sceman = s.sceman := rfl
@[simp] theorem State.setClruns_fen (s : State) (eg : Nat) (v : List ClRun) : (s.setClruns eg v).fen = s.fen := rfl
@[simp] theorem State.setClruns_sage (s : State) (eg : Nat) (v : List ClRun) : (s.setClruns eg v).sage = s.sage := rfl
@[simp] theorem State.setClruns_power (s : State) (eg : Nat) (v : List ClRun) : (s.setClruns eg v).power = s.power := rfl
@[simp] theorem State.setClruns_board (s : State) (eg : Nat) (v : List ClRun) : (s.setClruns eg v).board = s.board := rfl
@[simp] theorem State.setClruns_spdm (s : State) (eg : Nat) (v : List ClRun) : (s.setClruns eg v).spdm = s.spdm := rfl
@[simp] theorem State.setClruns_mgmt (s : State) (eg : Nat) (v : List ClRun) : (s.setClruns eg v).mgmt = s.mgmt := rfl
@[simp] theorem State.setClruns_pci (s : State) (eg : Nat) (v : List ClRun) : (s.setClruns eg v).pci = s.pci := rfl
@[simp] theorem State.setClruns_ring18 (s : State) (eg : Nat) (v : List ClRun) : (s.setClruns eg v).ring18 = s.ring18 := rfl

/-! ### Taking a command out of flight -/

@[simp] theorem State.land_pending (s : State) (uid : Nat) : (s.land uid).pending = s.pending := rfl
@[simp] theorem State.land_free (s : State) (uid : Nat) : (s.land uid).free = s.free := rfl
@[simp] theorem State.land_cycle (s : State) (uid : Nat) : (s.land uid).cycle = s.cycle := rfl
@[simp] theorem State.land_tick (s : State) (uid : Nat) : (s.land uid).tick = s.tick := rfl
@[simp] theorem State.land_resp (s : State) (uid : Nat) : (s.land uid).resp = s.resp := rfl
@[simp] theorem State.land_out (s : State) (uid : Nat) : (s.land uid).out = s.out := rfl
@[simp] theorem State.land_regs (s : State) (uid : Nat) : (s.land uid).regs = s.regs := rfl
@[simp] theorem State.land_hi (s : State) (uid : Nat) : (s.land uid).hi = s.hi := rfl
@[simp] theorem State.land_mem (s : State) (uid : Nat) : (s.land uid).mem = s.mem := rfl
@[simp] theorem State.land_bad (s : State) (uid : Nat) : (s.land uid).bad = s.bad := rfl
@[simp] theorem State.land_wheels (s : State) (uid : Nat) : (s.land uid).wheels = s.wheels := rfl
@[simp] theorem State.land_jobs (s : State) (uid : Nat) : (s.land uid).jobs = s.jobs := rfl
@[simp] theorem State.land_reload (s : State) (uid : Nat) : (s.land uid).reload = s.reload := rfl
@[simp] theorem State.land_saved (s : State) (uid : Nat) : (s.land uid).saved = s.saved := rfl
@[simp] theorem State.land_memc (s : State) (uid : Nat) : (s.land uid).memc = s.memc := rfl
@[simp] theorem State.land_te (s : State) (uid : Nat) : (s.land uid).te = s.te := rfl
@[simp] theorem State.land_sfuTab (s : State) (uid : Nat) : (s.land uid).sfuTab = s.sfuTab := rfl
@[simp] theorem State.land_codeTab (s : State) (uid : Nat) : (s.land uid).codeTab = s.codeTab := rfl
@[simp] theorem State.land_cores (s : State) (uid : Nat) : (s.land uid).cores = s.cores := rfl
@[simp] theorem State.land_svcPend (s : State) (uid : Nat) : (s.land uid).svcPend = s.svcPend := rfl
@[simp] theorem State.land_clrun (s : State) (uid : Nat) : (s.land uid).clrun = s.clrun := rfl
@[simp] theorem State.land_links (s : State) (uid : Nat) : (s.land uid).links = s.links := rfl
@[simp] theorem State.land_ce (s : State) (uid : Nat) : (s.land uid).ce = s.ce := rfl
@[simp] theorem State.land_groups (s : State) (uid : Nat) : (s.land uid).groups = s.groups := rfl
@[simp] theorem State.land_eth (s : State) (uid : Nat) : (s.land uid).eth = s.eth := rfl
@[simp] theorem State.land_birsan (s : State) (uid : Nat) : (s.land uid).birsan = s.birsan := rfl
@[simp] theorem State.land_sceman (s : State) (uid : Nat) : (s.land uid).sceman = s.sceman := rfl
@[simp] theorem State.land_fen (s : State) (uid : Nat) : (s.land uid).fen = s.fen := rfl
@[simp] theorem State.land_sage (s : State) (uid : Nat) : (s.land uid).sage = s.sage := rfl
@[simp] theorem State.land_power (s : State) (uid : Nat) : (s.land uid).power = s.power := rfl
@[simp] theorem State.land_board (s : State) (uid : Nat) : (s.land uid).board = s.board := rfl
@[simp] theorem State.land_spdm (s : State) (uid : Nat) : (s.land uid).spdm = s.spdm := rfl
@[simp] theorem State.land_mgmt (s : State) (uid : Nat) : (s.land uid).mgmt = s.mgmt := rfl
@[simp] theorem State.land_pci (s : State) (uid : Nat) : (s.land uid).pci = s.pci := rfl
@[simp] theorem State.land_ring18 (s : State) (uid : Nat) : (s.land uid).ring18 = s.ring18 := rfl

/-! ### Replacing a port -/

@[simp] theorem State.setPort_pending (s : State) (k : Nat) (p : LinkPort) : (s.setPort k p).pending = s.pending := rfl
@[simp] theorem State.setPort_free (s : State) (k : Nat) (p : LinkPort) : (s.setPort k p).free = s.free := rfl
@[simp] theorem State.setPort_cycle (s : State) (k : Nat) (p : LinkPort) : (s.setPort k p).cycle = s.cycle := rfl
@[simp] theorem State.setPort_tick (s : State) (k : Nat) (p : LinkPort) : (s.setPort k p).tick = s.tick := rfl
@[simp] theorem State.setPort_resp (s : State) (k : Nat) (p : LinkPort) : (s.setPort k p).resp = s.resp := rfl
@[simp] theorem State.setPort_out (s : State) (k : Nat) (p : LinkPort) : (s.setPort k p).out = s.out := rfl
@[simp] theorem State.setPort_regs (s : State) (k : Nat) (p : LinkPort) : (s.setPort k p).regs = s.regs := rfl
@[simp] theorem State.setPort_hi (s : State) (k : Nat) (p : LinkPort) : (s.setPort k p).hi = s.hi := rfl
@[simp] theorem State.setPort_mem (s : State) (k : Nat) (p : LinkPort) : (s.setPort k p).mem = s.mem := rfl
@[simp] theorem State.setPort_bad (s : State) (k : Nat) (p : LinkPort) : (s.setPort k p).bad = s.bad := rfl
@[simp] theorem State.setPort_cp (s : State) (k : Nat) (p : LinkPort) : (s.setPort k p).cp = s.cp := rfl
@[simp] theorem State.setPort_wheels (s : State) (k : Nat) (p : LinkPort) : (s.setPort k p).wheels = s.wheels := rfl
@[simp] theorem State.setPort_jobs (s : State) (k : Nat) (p : LinkPort) : (s.setPort k p).jobs = s.jobs := rfl
@[simp] theorem State.setPort_reload (s : State) (k : Nat) (p : LinkPort) : (s.setPort k p).reload = s.reload := rfl
@[simp] theorem State.setPort_saved (s : State) (k : Nat) (p : LinkPort) : (s.setPort k p).saved = s.saved := rfl
@[simp] theorem State.setPort_memc (s : State) (k : Nat) (p : LinkPort) : (s.setPort k p).memc = s.memc := rfl
@[simp] theorem State.setPort_te (s : State) (k : Nat) (p : LinkPort) : (s.setPort k p).te = s.te := rfl
@[simp] theorem State.setPort_sfuTab (s : State) (k : Nat) (p : LinkPort) : (s.setPort k p).sfuTab = s.sfuTab := rfl
@[simp] theorem State.setPort_codeTab (s : State) (k : Nat) (p : LinkPort) : (s.setPort k p).codeTab = s.codeTab := rfl
@[simp] theorem State.setPort_cores (s : State) (k : Nat) (p : LinkPort) : (s.setPort k p).cores = s.cores := rfl
@[simp] theorem State.setPort_svcPend (s : State) (k : Nat) (p : LinkPort) : (s.setPort k p).svcPend = s.svcPend := rfl
@[simp] theorem State.setPort_clrun (s : State) (k : Nat) (p : LinkPort) : (s.setPort k p).clrun = s.clrun := rfl
@[simp] theorem State.setPort_ce (s : State) (k : Nat) (p : LinkPort) : (s.setPort k p).ce = s.ce := rfl
@[simp] theorem State.setPort_groups (s : State) (k : Nat) (p : LinkPort) : (s.setPort k p).groups = s.groups := rfl
@[simp] theorem State.setPort_eth (s : State) (k : Nat) (p : LinkPort) : (s.setPort k p).eth = s.eth := rfl
@[simp] theorem State.setPort_birsan (s : State) (k : Nat) (p : LinkPort) : (s.setPort k p).birsan = s.birsan := rfl
@[simp] theorem State.setPort_sceman (s : State) (k : Nat) (p : LinkPort) : (s.setPort k p).sceman = s.sceman := rfl
@[simp] theorem State.setPort_fen (s : State) (k : Nat) (p : LinkPort) : (s.setPort k p).fen = s.fen := rfl
@[simp] theorem State.setPort_sage (s : State) (k : Nat) (p : LinkPort) : (s.setPort k p).sage = s.sage := rfl
@[simp] theorem State.setPort_power (s : State) (k : Nat) (p : LinkPort) : (s.setPort k p).power = s.power := rfl
@[simp] theorem State.setPort_board (s : State) (k : Nat) (p : LinkPort) : (s.setPort k p).board = s.board := rfl
@[simp] theorem State.setPort_spdm (s : State) (k : Nat) (p : LinkPort) : (s.setPort k p).spdm = s.spdm := rfl
@[simp] theorem State.setPort_mgmt (s : State) (k : Nat) (p : LinkPort) : (s.setPort k p).mgmt = s.mgmt := rfl
@[simp] theorem State.setPort_pci (s : State) (k : Nat) (p : LinkPort) : (s.setPort k p).pci = s.pci := rfl
@[simp] theorem State.setPort_ring18 (s : State) (k : Nat) (p : LinkPort) : (s.setPort k p).ring18 = s.ring18 := rfl

/-! ### Replacing a collective engine -/

@[simp] theorem State.setCe_pending (s : State) (d : Nat) (c : Ce) : (s.setCe d c).pending = s.pending := rfl
@[simp] theorem State.setCe_free (s : State) (d : Nat) (c : Ce) : (s.setCe d c).free = s.free := rfl
@[simp] theorem State.setCe_cycle (s : State) (d : Nat) (c : Ce) : (s.setCe d c).cycle = s.cycle := rfl
@[simp] theorem State.setCe_tick (s : State) (d : Nat) (c : Ce) : (s.setCe d c).tick = s.tick := rfl
@[simp] theorem State.setCe_resp (s : State) (d : Nat) (c : Ce) : (s.setCe d c).resp = s.resp := rfl
@[simp] theorem State.setCe_out (s : State) (d : Nat) (c : Ce) : (s.setCe d c).out = s.out := rfl
@[simp] theorem State.setCe_regs (s : State) (d : Nat) (c : Ce) : (s.setCe d c).regs = s.regs := rfl
@[simp] theorem State.setCe_hi (s : State) (d : Nat) (c : Ce) : (s.setCe d c).hi = s.hi := rfl
@[simp] theorem State.setCe_mem (s : State) (d : Nat) (c : Ce) : (s.setCe d c).mem = s.mem := rfl
@[simp] theorem State.setCe_bad (s : State) (d : Nat) (c : Ce) : (s.setCe d c).bad = s.bad := rfl
@[simp] theorem State.setCe_cp (s : State) (d : Nat) (c : Ce) : (s.setCe d c).cp = s.cp := rfl
@[simp] theorem State.setCe_wheels (s : State) (d : Nat) (c : Ce) : (s.setCe d c).wheels = s.wheels := rfl
@[simp] theorem State.setCe_jobs (s : State) (d : Nat) (c : Ce) : (s.setCe d c).jobs = s.jobs := rfl
@[simp] theorem State.setCe_reload (s : State) (d : Nat) (c : Ce) : (s.setCe d c).reload = s.reload := rfl
@[simp] theorem State.setCe_saved (s : State) (d : Nat) (c : Ce) : (s.setCe d c).saved = s.saved := rfl
@[simp] theorem State.setCe_memc (s : State) (d : Nat) (c : Ce) : (s.setCe d c).memc = s.memc := rfl
@[simp] theorem State.setCe_te (s : State) (d : Nat) (c : Ce) : (s.setCe d c).te = s.te := rfl
@[simp] theorem State.setCe_sfuTab (s : State) (d : Nat) (c : Ce) : (s.setCe d c).sfuTab = s.sfuTab := rfl
@[simp] theorem State.setCe_codeTab (s : State) (d : Nat) (c : Ce) : (s.setCe d c).codeTab = s.codeTab := rfl
@[simp] theorem State.setCe_cores (s : State) (d : Nat) (c : Ce) : (s.setCe d c).cores = s.cores := rfl
@[simp] theorem State.setCe_svcPend (s : State) (d : Nat) (c : Ce) : (s.setCe d c).svcPend = s.svcPend := rfl
@[simp] theorem State.setCe_clrun (s : State) (d : Nat) (c : Ce) : (s.setCe d c).clrun = s.clrun := rfl
@[simp] theorem State.setCe_links (s : State) (d : Nat) (c : Ce) : (s.setCe d c).links = s.links := rfl
@[simp] theorem State.setCe_groups (s : State) (d : Nat) (c : Ce) : (s.setCe d c).groups = s.groups := rfl
@[simp] theorem State.setCe_eth (s : State) (d : Nat) (c : Ce) : (s.setCe d c).eth = s.eth := rfl
@[simp] theorem State.setCe_birsan (s : State) (d : Nat) (c : Ce) : (s.setCe d c).birsan = s.birsan := rfl
@[simp] theorem State.setCe_sceman (s : State) (d : Nat) (c : Ce) : (s.setCe d c).sceman = s.sceman := rfl
@[simp] theorem State.setCe_fen (s : State) (d : Nat) (c : Ce) : (s.setCe d c).fen = s.fen := rfl
@[simp] theorem State.setCe_sage (s : State) (d : Nat) (c : Ce) : (s.setCe d c).sage = s.sage := rfl
@[simp] theorem State.setCe_power (s : State) (d : Nat) (c : Ce) : (s.setCe d c).power = s.power := rfl
@[simp] theorem State.setCe_board (s : State) (d : Nat) (c : Ce) : (s.setCe d c).board = s.board := rfl
@[simp] theorem State.setCe_spdm (s : State) (d : Nat) (c : Ce) : (s.setCe d c).spdm = s.spdm := rfl
@[simp] theorem State.setCe_mgmt (s : State) (d : Nat) (c : Ce) : (s.setCe d c).mgmt = s.mgmt := rfl
@[simp] theorem State.setCe_pci (s : State) (d : Nat) (c : Ce) : (s.setCe d c).pci = s.pci := rfl
@[simp] theorem State.setCe_ring18 (s : State) (d : Nat) (c : Ce) : (s.setCe d c).ring18 = s.ring18 := rfl

/-! ### Replacing a group -/

@[simp] theorem State.setGroup_pending (s : State) (g : Nat) (v : Group) : (s.setGroup g v).pending = s.pending := rfl
@[simp] theorem State.setGroup_free (s : State) (g : Nat) (v : Group) : (s.setGroup g v).free = s.free := rfl
@[simp] theorem State.setGroup_cycle (s : State) (g : Nat) (v : Group) : (s.setGroup g v).cycle = s.cycle := rfl
@[simp] theorem State.setGroup_tick (s : State) (g : Nat) (v : Group) : (s.setGroup g v).tick = s.tick := rfl
@[simp] theorem State.setGroup_resp (s : State) (g : Nat) (v : Group) : (s.setGroup g v).resp = s.resp := rfl
@[simp] theorem State.setGroup_out (s : State) (g : Nat) (v : Group) : (s.setGroup g v).out = s.out := rfl
@[simp] theorem State.setGroup_regs (s : State) (g : Nat) (v : Group) : (s.setGroup g v).regs = s.regs := rfl
@[simp] theorem State.setGroup_hi (s : State) (g : Nat) (v : Group) : (s.setGroup g v).hi = s.hi := rfl
@[simp] theorem State.setGroup_mem (s : State) (g : Nat) (v : Group) : (s.setGroup g v).mem = s.mem := rfl
@[simp] theorem State.setGroup_bad (s : State) (g : Nat) (v : Group) : (s.setGroup g v).bad = s.bad := rfl
@[simp] theorem State.setGroup_cp (s : State) (g : Nat) (v : Group) : (s.setGroup g v).cp = s.cp := rfl
@[simp] theorem State.setGroup_wheels (s : State) (g : Nat) (v : Group) : (s.setGroup g v).wheels = s.wheels := rfl
@[simp] theorem State.setGroup_jobs (s : State) (g : Nat) (v : Group) : (s.setGroup g v).jobs = s.jobs := rfl
@[simp] theorem State.setGroup_reload (s : State) (g : Nat) (v : Group) : (s.setGroup g v).reload = s.reload := rfl
@[simp] theorem State.setGroup_saved (s : State) (g : Nat) (v : Group) : (s.setGroup g v).saved = s.saved := rfl
@[simp] theorem State.setGroup_memc (s : State) (g : Nat) (v : Group) : (s.setGroup g v).memc = s.memc := rfl
@[simp] theorem State.setGroup_te (s : State) (g : Nat) (v : Group) : (s.setGroup g v).te = s.te := rfl
@[simp] theorem State.setGroup_sfuTab (s : State) (g : Nat) (v : Group) : (s.setGroup g v).sfuTab = s.sfuTab := rfl
@[simp] theorem State.setGroup_codeTab (s : State) (g : Nat) (v : Group) : (s.setGroup g v).codeTab = s.codeTab := rfl
@[simp] theorem State.setGroup_cores (s : State) (g : Nat) (v : Group) : (s.setGroup g v).cores = s.cores := rfl
@[simp] theorem State.setGroup_svcPend (s : State) (g : Nat) (v : Group) : (s.setGroup g v).svcPend = s.svcPend := rfl
@[simp] theorem State.setGroup_clrun (s : State) (g : Nat) (v : Group) : (s.setGroup g v).clrun = s.clrun := rfl
@[simp] theorem State.setGroup_links (s : State) (g : Nat) (v : Group) : (s.setGroup g v).links = s.links := rfl
@[simp] theorem State.setGroup_ce (s : State) (g : Nat) (v : Group) : (s.setGroup g v).ce = s.ce := rfl
@[simp] theorem State.setGroup_eth (s : State) (g : Nat) (v : Group) : (s.setGroup g v).eth = s.eth := rfl
@[simp] theorem State.setGroup_birsan (s : State) (g : Nat) (v : Group) : (s.setGroup g v).birsan = s.birsan := rfl
@[simp] theorem State.setGroup_sceman (s : State) (g : Nat) (v : Group) : (s.setGroup g v).sceman = s.sceman := rfl
@[simp] theorem State.setGroup_fen (s : State) (g : Nat) (v : Group) : (s.setGroup g v).fen = s.fen := rfl
@[simp] theorem State.setGroup_sage (s : State) (g : Nat) (v : Group) : (s.setGroup g v).sage = s.sage := rfl
@[simp] theorem State.setGroup_power (s : State) (g : Nat) (v : Group) : (s.setGroup g v).power = s.power := rfl
@[simp] theorem State.setGroup_board (s : State) (g : Nat) (v : Group) : (s.setGroup g v).board = s.board := rfl
@[simp] theorem State.setGroup_spdm (s : State) (g : Nat) (v : Group) : (s.setGroup g v).spdm = s.spdm := rfl
@[simp] theorem State.setGroup_mgmt (s : State) (g : Nat) (v : Group) : (s.setGroup g v).mgmt = s.mgmt := rfl
@[simp] theorem State.setGroup_pci (s : State) (g : Nat) (v : Group) : (s.setGroup g v).pci = s.pci := rfl
@[simp] theorem State.setGroup_ring18 (s : State) (g : Nat) (v : Group) : (s.setGroup g v).ring18 = s.ring18 := rfl

/-! ### Replacing an Ethernet port -/

@[simp] theorem State.setEth_pending (s : State) (e : Nat) (p : EthPort) : (s.setEth e p).pending = s.pending := rfl
@[simp] theorem State.setEth_free (s : State) (e : Nat) (p : EthPort) : (s.setEth e p).free = s.free := rfl
@[simp] theorem State.setEth_cycle (s : State) (e : Nat) (p : EthPort) : (s.setEth e p).cycle = s.cycle := rfl
@[simp] theorem State.setEth_tick (s : State) (e : Nat) (p : EthPort) : (s.setEth e p).tick = s.tick := rfl
@[simp] theorem State.setEth_resp (s : State) (e : Nat) (p : EthPort) : (s.setEth e p).resp = s.resp := rfl
@[simp] theorem State.setEth_out (s : State) (e : Nat) (p : EthPort) : (s.setEth e p).out = s.out := rfl
@[simp] theorem State.setEth_regs (s : State) (e : Nat) (p : EthPort) : (s.setEth e p).regs = s.regs := rfl
@[simp] theorem State.setEth_hi (s : State) (e : Nat) (p : EthPort) : (s.setEth e p).hi = s.hi := rfl
@[simp] theorem State.setEth_mem (s : State) (e : Nat) (p : EthPort) : (s.setEth e p).mem = s.mem := rfl
@[simp] theorem State.setEth_bad (s : State) (e : Nat) (p : EthPort) : (s.setEth e p).bad = s.bad := rfl
@[simp] theorem State.setEth_cp (s : State) (e : Nat) (p : EthPort) : (s.setEth e p).cp = s.cp := rfl
@[simp] theorem State.setEth_wheels (s : State) (e : Nat) (p : EthPort) : (s.setEth e p).wheels = s.wheels := rfl
@[simp] theorem State.setEth_jobs (s : State) (e : Nat) (p : EthPort) : (s.setEth e p).jobs = s.jobs := rfl
@[simp] theorem State.setEth_reload (s : State) (e : Nat) (p : EthPort) : (s.setEth e p).reload = s.reload := rfl
@[simp] theorem State.setEth_saved (s : State) (e : Nat) (p : EthPort) : (s.setEth e p).saved = s.saved := rfl
@[simp] theorem State.setEth_memc (s : State) (e : Nat) (p : EthPort) : (s.setEth e p).memc = s.memc := rfl
@[simp] theorem State.setEth_te (s : State) (e : Nat) (p : EthPort) : (s.setEth e p).te = s.te := rfl
@[simp] theorem State.setEth_sfuTab (s : State) (e : Nat) (p : EthPort) : (s.setEth e p).sfuTab = s.sfuTab := rfl
@[simp] theorem State.setEth_codeTab (s : State) (e : Nat) (p : EthPort) : (s.setEth e p).codeTab = s.codeTab := rfl
@[simp] theorem State.setEth_cores (s : State) (e : Nat) (p : EthPort) : (s.setEth e p).cores = s.cores := rfl
@[simp] theorem State.setEth_svcPend (s : State) (e : Nat) (p : EthPort) : (s.setEth e p).svcPend = s.svcPend := rfl
@[simp] theorem State.setEth_clrun (s : State) (e : Nat) (p : EthPort) : (s.setEth e p).clrun = s.clrun := rfl
@[simp] theorem State.setEth_links (s : State) (e : Nat) (p : EthPort) : (s.setEth e p).links = s.links := rfl
@[simp] theorem State.setEth_ce (s : State) (e : Nat) (p : EthPort) : (s.setEth e p).ce = s.ce := rfl
@[simp] theorem State.setEth_groups (s : State) (e : Nat) (p : EthPort) : (s.setEth e p).groups = s.groups := rfl
@[simp] theorem State.setEth_birsan (s : State) (e : Nat) (p : EthPort) : (s.setEth e p).birsan = s.birsan := rfl
@[simp] theorem State.setEth_sceman (s : State) (e : Nat) (p : EthPort) : (s.setEth e p).sceman = s.sceman := rfl
@[simp] theorem State.setEth_fen (s : State) (e : Nat) (p : EthPort) : (s.setEth e p).fen = s.fen := rfl
@[simp] theorem State.setEth_sage (s : State) (e : Nat) (p : EthPort) : (s.setEth e p).sage = s.sage := rfl
@[simp] theorem State.setEth_power (s : State) (e : Nat) (p : EthPort) : (s.setEth e p).power = s.power := rfl
@[simp] theorem State.setEth_board (s : State) (e : Nat) (p : EthPort) : (s.setEth e p).board = s.board := rfl
@[simp] theorem State.setEth_spdm (s : State) (e : Nat) (p : EthPort) : (s.setEth e p).spdm = s.spdm := rfl
@[simp] theorem State.setEth_mgmt (s : State) (e : Nat) (p : EthPort) : (s.setEth e p).mgmt = s.mgmt := rfl
@[simp] theorem State.setEth_pci (s : State) (e : Nat) (p : EthPort) : (s.setEth e p).pci = s.pci := rfl
@[simp] theorem State.setEth_ring18 (s : State) (e : Nat) (p : EthPort) : (s.setEth e p).ring18 = s.ring18 := rfl

/-! ### Replacing Sceman -/

@[simp] theorem State.setSceman_pending (s : State) (m : Sceman) : (s.setSceman m).pending = s.pending := rfl
@[simp] theorem State.setSceman_free (s : State) (m : Sceman) : (s.setSceman m).free = s.free := rfl
@[simp] theorem State.setSceman_cycle (s : State) (m : Sceman) : (s.setSceman m).cycle = s.cycle := rfl
@[simp] theorem State.setSceman_tick (s : State) (m : Sceman) : (s.setSceman m).tick = s.tick := rfl
@[simp] theorem State.setSceman_resp (s : State) (m : Sceman) : (s.setSceman m).resp = s.resp := rfl
@[simp] theorem State.setSceman_out (s : State) (m : Sceman) : (s.setSceman m).out = s.out := rfl
@[simp] theorem State.setSceman_regs (s : State) (m : Sceman) : (s.setSceman m).regs = s.regs := rfl
@[simp] theorem State.setSceman_hi (s : State) (m : Sceman) : (s.setSceman m).hi = s.hi := rfl
@[simp] theorem State.setSceman_mem (s : State) (m : Sceman) : (s.setSceman m).mem = s.mem := rfl
@[simp] theorem State.setSceman_bad (s : State) (m : Sceman) : (s.setSceman m).bad = s.bad := rfl
@[simp] theorem State.setSceman_cp (s : State) (m : Sceman) : (s.setSceman m).cp = s.cp := rfl
@[simp] theorem State.setSceman_wheels (s : State) (m : Sceman) : (s.setSceman m).wheels = s.wheels := rfl
@[simp] theorem State.setSceman_jobs (s : State) (m : Sceman) : (s.setSceman m).jobs = s.jobs := rfl
@[simp] theorem State.setSceman_reload (s : State) (m : Sceman) : (s.setSceman m).reload = s.reload := rfl
@[simp] theorem State.setSceman_saved (s : State) (m : Sceman) : (s.setSceman m).saved = s.saved := rfl
@[simp] theorem State.setSceman_memc (s : State) (m : Sceman) : (s.setSceman m).memc = s.memc := rfl
@[simp] theorem State.setSceman_te (s : State) (m : Sceman) : (s.setSceman m).te = s.te := rfl
@[simp] theorem State.setSceman_sfuTab (s : State) (m : Sceman) : (s.setSceman m).sfuTab = s.sfuTab := rfl
@[simp] theorem State.setSceman_codeTab (s : State) (m : Sceman) : (s.setSceman m).codeTab = s.codeTab := rfl
@[simp] theorem State.setSceman_cores (s : State) (m : Sceman) : (s.setSceman m).cores = s.cores := rfl
@[simp] theorem State.setSceman_svcPend (s : State) (m : Sceman) : (s.setSceman m).svcPend = s.svcPend := rfl
@[simp] theorem State.setSceman_clrun (s : State) (m : Sceman) : (s.setSceman m).clrun = s.clrun := rfl
@[simp] theorem State.setSceman_links (s : State) (m : Sceman) : (s.setSceman m).links = s.links := rfl
@[simp] theorem State.setSceman_ce (s : State) (m : Sceman) : (s.setSceman m).ce = s.ce := rfl
@[simp] theorem State.setSceman_groups (s : State) (m : Sceman) : (s.setSceman m).groups = s.groups := rfl
@[simp] theorem State.setSceman_eth (s : State) (m : Sceman) : (s.setSceman m).eth = s.eth := rfl
@[simp] theorem State.setSceman_birsan (s : State) (m : Sceman) : (s.setSceman m).birsan = s.birsan := rfl
@[simp] theorem State.setSceman_fen (s : State) (m : Sceman) : (s.setSceman m).fen = s.fen := rfl
@[simp] theorem State.setSceman_sage (s : State) (m : Sceman) : (s.setSceman m).sage = s.sage := rfl
@[simp] theorem State.setSceman_power (s : State) (m : Sceman) : (s.setSceman m).power = s.power := rfl
@[simp] theorem State.setSceman_board (s : State) (m : Sceman) : (s.setSceman m).board = s.board := rfl
@[simp] theorem State.setSceman_spdm (s : State) (m : Sceman) : (s.setSceman m).spdm = s.spdm := rfl
@[simp] theorem State.setSceman_mgmt (s : State) (m : Sceman) : (s.setSceman m).mgmt = s.mgmt := rfl
@[simp] theorem State.setSceman_pci (s : State) (m : Sceman) : (s.setSceman m).pci = s.pci := rfl
@[simp] theorem State.setSceman_ring18 (s : State) (m : Sceman) : (s.setSceman m).ring18 = s.ring18 := rfl

/-! ### Replacing the board -/

@[simp] theorem State.setBoard_pending (s : State) (b : Board) : (s.setBoard b).pending = s.pending := rfl
@[simp] theorem State.setBoard_free (s : State) (b : Board) : (s.setBoard b).free = s.free := rfl
@[simp] theorem State.setBoard_cycle (s : State) (b : Board) : (s.setBoard b).cycle = s.cycle := rfl
@[simp] theorem State.setBoard_tick (s : State) (b : Board) : (s.setBoard b).tick = s.tick := rfl
@[simp] theorem State.setBoard_resp (s : State) (b : Board) : (s.setBoard b).resp = s.resp := rfl
@[simp] theorem State.setBoard_out (s : State) (b : Board) : (s.setBoard b).out = s.out := rfl
@[simp] theorem State.setBoard_regs (s : State) (b : Board) : (s.setBoard b).regs = s.regs := rfl
@[simp] theorem State.setBoard_hi (s : State) (b : Board) : (s.setBoard b).hi = s.hi := rfl
@[simp] theorem State.setBoard_mem (s : State) (b : Board) : (s.setBoard b).mem = s.mem := rfl
@[simp] theorem State.setBoard_bad (s : State) (b : Board) : (s.setBoard b).bad = s.bad := rfl
@[simp] theorem State.setBoard_cp (s : State) (b : Board) : (s.setBoard b).cp = s.cp := rfl
@[simp] theorem State.setBoard_wheels (s : State) (b : Board) : (s.setBoard b).wheels = s.wheels := rfl
@[simp] theorem State.setBoard_jobs (s : State) (b : Board) : (s.setBoard b).jobs = s.jobs := rfl
@[simp] theorem State.setBoard_reload (s : State) (b : Board) : (s.setBoard b).reload = s.reload := rfl
@[simp] theorem State.setBoard_saved (s : State) (b : Board) : (s.setBoard b).saved = s.saved := rfl
@[simp] theorem State.setBoard_memc (s : State) (b : Board) : (s.setBoard b).memc = s.memc := rfl
@[simp] theorem State.setBoard_te (s : State) (b : Board) : (s.setBoard b).te = s.te := rfl
@[simp] theorem State.setBoard_sfuTab (s : State) (b : Board) : (s.setBoard b).sfuTab = s.sfuTab := rfl
@[simp] theorem State.setBoard_codeTab (s : State) (b : Board) : (s.setBoard b).codeTab = s.codeTab := rfl
@[simp] theorem State.setBoard_cores (s : State) (b : Board) : (s.setBoard b).cores = s.cores := rfl
@[simp] theorem State.setBoard_svcPend (s : State) (b : Board) : (s.setBoard b).svcPend = s.svcPend := rfl
@[simp] theorem State.setBoard_clrun (s : State) (b : Board) : (s.setBoard b).clrun = s.clrun := rfl
@[simp] theorem State.setBoard_links (s : State) (b : Board) : (s.setBoard b).links = s.links := rfl
@[simp] theorem State.setBoard_ce (s : State) (b : Board) : (s.setBoard b).ce = s.ce := rfl
@[simp] theorem State.setBoard_groups (s : State) (b : Board) : (s.setBoard b).groups = s.groups := rfl
@[simp] theorem State.setBoard_eth (s : State) (b : Board) : (s.setBoard b).eth = s.eth := rfl
@[simp] theorem State.setBoard_birsan (s : State) (b : Board) : (s.setBoard b).birsan = s.birsan := rfl
@[simp] theorem State.setBoard_sceman (s : State) (b : Board) : (s.setBoard b).sceman = s.sceman := rfl
@[simp] theorem State.setBoard_fen (s : State) (b : Board) : (s.setBoard b).fen = s.fen := rfl
@[simp] theorem State.setBoard_sage (s : State) (b : Board) : (s.setBoard b).sage = s.sage := rfl
@[simp] theorem State.setBoard_power (s : State) (b : Board) : (s.setBoard b).power = s.power := rfl
@[simp] theorem State.setBoard_spdm (s : State) (b : Board) : (s.setBoard b).spdm = s.spdm := rfl
@[simp] theorem State.setBoard_mgmt (s : State) (b : Board) : (s.setBoard b).mgmt = s.mgmt := rfl
@[simp] theorem State.setBoard_pci (s : State) (b : Board) : (s.setBoard b).pci = s.pci := rfl
@[simp] theorem State.setBoard_ring18 (s : State) (b : Board) : (s.setBoard b).ring18 = s.ring18 := rfl

/-! ### Replacing the management bus -/

@[simp] theorem State.setMgmt_pending (s : State) (m : Mgmt) : (s.setMgmt m).pending = s.pending := rfl
@[simp] theorem State.setMgmt_free (s : State) (m : Mgmt) : (s.setMgmt m).free = s.free := rfl
@[simp] theorem State.setMgmt_cycle (s : State) (m : Mgmt) : (s.setMgmt m).cycle = s.cycle := rfl
@[simp] theorem State.setMgmt_tick (s : State) (m : Mgmt) : (s.setMgmt m).tick = s.tick := rfl
@[simp] theorem State.setMgmt_resp (s : State) (m : Mgmt) : (s.setMgmt m).resp = s.resp := rfl
@[simp] theorem State.setMgmt_out (s : State) (m : Mgmt) : (s.setMgmt m).out = s.out := rfl
@[simp] theorem State.setMgmt_regs (s : State) (m : Mgmt) : (s.setMgmt m).regs = s.regs := rfl
@[simp] theorem State.setMgmt_hi (s : State) (m : Mgmt) : (s.setMgmt m).hi = s.hi := rfl
@[simp] theorem State.setMgmt_mem (s : State) (m : Mgmt) : (s.setMgmt m).mem = s.mem := rfl
@[simp] theorem State.setMgmt_bad (s : State) (m : Mgmt) : (s.setMgmt m).bad = s.bad := rfl
@[simp] theorem State.setMgmt_cp (s : State) (m : Mgmt) : (s.setMgmt m).cp = s.cp := rfl
@[simp] theorem State.setMgmt_wheels (s : State) (m : Mgmt) : (s.setMgmt m).wheels = s.wheels := rfl
@[simp] theorem State.setMgmt_jobs (s : State) (m : Mgmt) : (s.setMgmt m).jobs = s.jobs := rfl
@[simp] theorem State.setMgmt_reload (s : State) (m : Mgmt) : (s.setMgmt m).reload = s.reload := rfl
@[simp] theorem State.setMgmt_saved (s : State) (m : Mgmt) : (s.setMgmt m).saved = s.saved := rfl
@[simp] theorem State.setMgmt_memc (s : State) (m : Mgmt) : (s.setMgmt m).memc = s.memc := rfl
@[simp] theorem State.setMgmt_te (s : State) (m : Mgmt) : (s.setMgmt m).te = s.te := rfl
@[simp] theorem State.setMgmt_sfuTab (s : State) (m : Mgmt) : (s.setMgmt m).sfuTab = s.sfuTab := rfl
@[simp] theorem State.setMgmt_codeTab (s : State) (m : Mgmt) : (s.setMgmt m).codeTab = s.codeTab := rfl
@[simp] theorem State.setMgmt_cores (s : State) (m : Mgmt) : (s.setMgmt m).cores = s.cores := rfl
@[simp] theorem State.setMgmt_svcPend (s : State) (m : Mgmt) : (s.setMgmt m).svcPend = s.svcPend := rfl
@[simp] theorem State.setMgmt_clrun (s : State) (m : Mgmt) : (s.setMgmt m).clrun = s.clrun := rfl
@[simp] theorem State.setMgmt_links (s : State) (m : Mgmt) : (s.setMgmt m).links = s.links := rfl
@[simp] theorem State.setMgmt_ce (s : State) (m : Mgmt) : (s.setMgmt m).ce = s.ce := rfl
@[simp] theorem State.setMgmt_groups (s : State) (m : Mgmt) : (s.setMgmt m).groups = s.groups := rfl
@[simp] theorem State.setMgmt_eth (s : State) (m : Mgmt) : (s.setMgmt m).eth = s.eth := rfl
@[simp] theorem State.setMgmt_birsan (s : State) (m : Mgmt) : (s.setMgmt m).birsan = s.birsan := rfl
@[simp] theorem State.setMgmt_sceman (s : State) (m : Mgmt) : (s.setMgmt m).sceman = s.sceman := rfl
@[simp] theorem State.setMgmt_fen (s : State) (m : Mgmt) : (s.setMgmt m).fen = s.fen := rfl
@[simp] theorem State.setMgmt_sage (s : State) (m : Mgmt) : (s.setMgmt m).sage = s.sage := rfl
@[simp] theorem State.setMgmt_power (s : State) (m : Mgmt) : (s.setMgmt m).power = s.power := rfl
@[simp] theorem State.setMgmt_board (s : State) (m : Mgmt) : (s.setMgmt m).board = s.board := rfl
@[simp] theorem State.setMgmt_spdm (s : State) (m : Mgmt) : (s.setMgmt m).spdm = s.spdm := rfl
@[simp] theorem State.setMgmt_pci (s : State) (m : Mgmt) : (s.setMgmt m).pci = s.pci := rfl
@[simp] theorem State.setMgmt_ring18 (s : State) (m : Mgmt) : (s.setMgmt m).ring18 = s.ring18 := rfl

/-! ### Replacing a responder -/

@[simp] theorem State.setSpdm_pending (s : State) (d : Nat) (x : Spdm) : (s.setSpdm d x).pending = s.pending := rfl
@[simp] theorem State.setSpdm_free (s : State) (d : Nat) (x : Spdm) : (s.setSpdm d x).free = s.free := rfl
@[simp] theorem State.setSpdm_cycle (s : State) (d : Nat) (x : Spdm) : (s.setSpdm d x).cycle = s.cycle := rfl
@[simp] theorem State.setSpdm_tick (s : State) (d : Nat) (x : Spdm) : (s.setSpdm d x).tick = s.tick := rfl
@[simp] theorem State.setSpdm_resp (s : State) (d : Nat) (x : Spdm) : (s.setSpdm d x).resp = s.resp := rfl
@[simp] theorem State.setSpdm_out (s : State) (d : Nat) (x : Spdm) : (s.setSpdm d x).out = s.out := rfl
@[simp] theorem State.setSpdm_regs (s : State) (d : Nat) (x : Spdm) : (s.setSpdm d x).regs = s.regs := rfl
@[simp] theorem State.setSpdm_hi (s : State) (d : Nat) (x : Spdm) : (s.setSpdm d x).hi = s.hi := rfl
@[simp] theorem State.setSpdm_mem (s : State) (d : Nat) (x : Spdm) : (s.setSpdm d x).mem = s.mem := rfl
@[simp] theorem State.setSpdm_bad (s : State) (d : Nat) (x : Spdm) : (s.setSpdm d x).bad = s.bad := rfl
@[simp] theorem State.setSpdm_cp (s : State) (d : Nat) (x : Spdm) : (s.setSpdm d x).cp = s.cp := rfl
@[simp] theorem State.setSpdm_wheels (s : State) (d : Nat) (x : Spdm) : (s.setSpdm d x).wheels = s.wheels := rfl
@[simp] theorem State.setSpdm_jobs (s : State) (d : Nat) (x : Spdm) : (s.setSpdm d x).jobs = s.jobs := rfl
@[simp] theorem State.setSpdm_reload (s : State) (d : Nat) (x : Spdm) : (s.setSpdm d x).reload = s.reload := rfl
@[simp] theorem State.setSpdm_saved (s : State) (d : Nat) (x : Spdm) : (s.setSpdm d x).saved = s.saved := rfl
@[simp] theorem State.setSpdm_memc (s : State) (d : Nat) (x : Spdm) : (s.setSpdm d x).memc = s.memc := rfl
@[simp] theorem State.setSpdm_te (s : State) (d : Nat) (x : Spdm) : (s.setSpdm d x).te = s.te := rfl
@[simp] theorem State.setSpdm_sfuTab (s : State) (d : Nat) (x : Spdm) : (s.setSpdm d x).sfuTab = s.sfuTab := rfl
@[simp] theorem State.setSpdm_codeTab (s : State) (d : Nat) (x : Spdm) : (s.setSpdm d x).codeTab = s.codeTab := rfl
@[simp] theorem State.setSpdm_cores (s : State) (d : Nat) (x : Spdm) : (s.setSpdm d x).cores = s.cores := rfl
@[simp] theorem State.setSpdm_svcPend (s : State) (d : Nat) (x : Spdm) : (s.setSpdm d x).svcPend = s.svcPend := rfl
@[simp] theorem State.setSpdm_clrun (s : State) (d : Nat) (x : Spdm) : (s.setSpdm d x).clrun = s.clrun := rfl
@[simp] theorem State.setSpdm_links (s : State) (d : Nat) (x : Spdm) : (s.setSpdm d x).links = s.links := rfl
@[simp] theorem State.setSpdm_ce (s : State) (d : Nat) (x : Spdm) : (s.setSpdm d x).ce = s.ce := rfl
@[simp] theorem State.setSpdm_groups (s : State) (d : Nat) (x : Spdm) : (s.setSpdm d x).groups = s.groups := rfl
@[simp] theorem State.setSpdm_eth (s : State) (d : Nat) (x : Spdm) : (s.setSpdm d x).eth = s.eth := rfl
@[simp] theorem State.setSpdm_birsan (s : State) (d : Nat) (x : Spdm) : (s.setSpdm d x).birsan = s.birsan := rfl
@[simp] theorem State.setSpdm_sceman (s : State) (d : Nat) (x : Spdm) : (s.setSpdm d x).sceman = s.sceman := rfl
@[simp] theorem State.setSpdm_fen (s : State) (d : Nat) (x : Spdm) : (s.setSpdm d x).fen = s.fen := rfl
@[simp] theorem State.setSpdm_sage (s : State) (d : Nat) (x : Spdm) : (s.setSpdm d x).sage = s.sage := rfl
@[simp] theorem State.setSpdm_power (s : State) (d : Nat) (x : Spdm) : (s.setSpdm d x).power = s.power := rfl
@[simp] theorem State.setSpdm_board (s : State) (d : Nat) (x : Spdm) : (s.setSpdm d x).board = s.board := rfl
@[simp] theorem State.setSpdm_mgmt (s : State) (d : Nat) (x : Spdm) : (s.setSpdm d x).mgmt = s.mgmt := rfl
@[simp] theorem State.setSpdm_pci (s : State) (d : Nat) (x : Spdm) : (s.setSpdm d x).pci = s.pci := rfl
@[simp] theorem State.setSpdm_ring18 (s : State) (d : Nat) (x : Spdm) : (s.setSpdm d x).ring18 = s.ring18 := rfl

end Sys2Proof.Machine
end

