-- ==== Sys2Proof/Laws/Ops.lean ====
section
/-!
SUPPORT. What the shared operations do, one lemma each: reading and replacing the tables of the state, stores to device memory,
requests to controllers, event records and accesses by rights.
-/

set_option Elab.async false

namespace Sys2Proof.Machine

open Sys2Proof

/-! ## Guards -/

/-- A guarded meaning goes on exactly when the units exist. -/
theorem inRange_eq_next {p : Bool} {k : Unit → Host.Outcome State Fault Refusal} {t : State} :
    inRange p k = .next t ↔ p = true ∧ k () = .next t := by
  cases p <;> simp [inRange]

@[simp] theorem inRange_true (k : Unit → Host.Outcome State Fault Refusal) : inRange true k = k () := rfl

@[simp] theorem inRange_false (k : Unit → Host.Outcome State Fault Refusal) : inRange false k = .fault .noSuchUnit := rfl

theorem inRange_of {p : Bool} (h : p = true) (k : Unit → Host.Outcome State Fault Refusal) : inRange p k = k () := by
  rw [h, inRange_true]

/-! ## Registers that an update leaves alone -/

theorem State.reg_of_regs {s t : State} (h : t.regs = s.regs) (n : RegName) (i : Nat) : t.reg n i = s.reg n i := by
  unfold State.reg
  rw [h]

theorem State.fld_of_regs {s t : State} (h : t.regs = s.regs) (f : Fld) (i : Nat) : t.fld f i = s.fld f i := by
  unfold State.fld
  rw [State.reg_of_regs h]

theorem State.flag_of_regs {s t : State} (h : t.regs = s.regs) (f : Fld) (i : Nat) : t.flag f i = s.flag f i := by
  unfold State.flag
  rw [State.fld_of_regs h]

/-! ## Tables: what is read after a replacement -/

@[simp] theorem State.teOf_setTe (s : State) (eg : Nat) (t : Te) : (s.setTe eg t).teOf eg = t := Sparse.rd_wr_same _ _ _
theorem State.teOf_setTe_ne (s : State) {eg g : Nat} (t : Te) (h : g ≠ eg) : (s.setTe eg t).teOf g = s.teOf g :=
  Sparse.rd_wr_ne _ _ h
@[simp] theorem State.coreOf_setCore (s : State) (eg c : Nat) (v : Core) : (s.setCore eg c v).coreOf eg c = v :=
  Sparse.rd_wr_same _ _ _
theorem State.coreOf_setCore_ne (s : State) {eg c g d : Nat} (v : Core) (h : g * 16 + d ≠ eg * 16 + c) :
    (s.setCore eg c v).coreOf g d = s.coreOf g d := Sparse.rd_wr_ne _ _ h
@[simp] theorem State.ctl_setCtl (s : State) (c : Nat) (m : MemCtl) : (s.setCtl c m).ctl c = m := Sparse.rd_wr_same _ _ _
theorem State.ctl_setCtl_ne (s : State) {c d : Nat} (m : MemCtl) (h : d ≠ c) : (s.setCtl c m).ctl d = s.ctl d :=
  Sparse.rd_wr_ne _ _ h
@[simp] theorem State.fn_setFn (s : State) (f : Nat) (v : PciFn) : (s.setFn f v).fn f = v := Sparse.rd_wr_same _ _ _
theorem State.fn_setFn_ne (s : State) {f g : Nat} (v : PciFn) (h : g ≠ f) : (s.setFn f v).fn g = s.fn g :=
  Sparse.rd_wr_ne _ _ h
@[simp] theorem State.queue_setQueue (s : State) (q : Nat) (v : QueueState) : (s.setQueue q v).queue q = v :=
  Sparse.rd_wr_same _ _ _
theorem State.queue_setQueue_ne (s : State) {q r : Nat} (v : QueueState) (h : r ≠ q) : (s.setQueue q v).queue r = s.queue r :=
  Sparse.rd_wr_ne _ _ h
@[simp] theorem State.window_setWindow (s : State) (f : Nat) (w : List Decoded) : (s.setWindow f w).window f = w :=
  Sparse.rd_wr_same _ _ _
theorem State.window_setWindow_ne (s : State) {f g : Nat} (w : List Decoded) (h : g ≠ f) :
    (s.setWindow f w).window g = s.window g := Sparse.rd_wr_ne _ _ h
@[simp] theorem State.wheel_setWheel (s : State) (eg : Nat) (w : Wheel) : (s.setWheel eg w).wheel eg = w :=
  Sparse.rd_wr_same _ _ _
theorem State.wheel_setWheel_ne (s : State) {eg g : Nat} (w : Wheel) (h : g ≠ eg) : (s.setWheel eg w).wheel g = s.wheel g :=
  Sparse.rd_wr_ne _ _ h
@[simp] theorem State.job_setJob (s : State) (p j : Nat) (v : JobState) : (s.setJob p j v).job p j = v := Sparse.rd_wr_same _ _ _
@[simp] theorem State.objLimit_setObjLimit (s : State) (o : Nat) (v : Word) : (s.setObjLimit o v).objLimit o = v.toNat := by
  unfold State.objLimit State.setObjLimit
  rw [Sparse.rd_wr_same]
theorem State.objLimit_setObjLimit_ne (s : State) {o p : Nat} (v : Word) (h : p ≠ o) :
    (s.setObjLimit o v).objLimit p = s.objLimit p := by
  unfold State.objLimit State.setObjLimit
  rw [Sparse.rd_wr_ne _ _ h]
@[simp] theorem State.entry_setEntry (s : State) (f e : Nat) (l : List Completion) : (s.setEntry f e l).entry f e = l :=
  Sparse.rd_wr_same _ _ _
theorem State.entry_setEntry_ne (s : State) {f e g d : Nat} (l : List Completion) (h : collKey g d ≠ collKey f e) :
    (s.setEntry f e l).entry g d = s.entry g d := Sparse.rd_wr_ne _ _ h
@[simp] theorem State.port_setPort (s : State) (k : Nat) (p : LinkPort) : (s.setPort k p).port k = p := Sparse.rd_wr_same _ _ _
theorem State.port_setPort_ne (s : State) {k l : Nat} (p : LinkPort) (h : l ≠ k) : (s.setPort k p).port l = s.port l :=
  Sparse.rd_wr_ne _ _ h

/-- What a mapped table reads. -/
theorem Sparse.rd_map {α : Type} (g : α → α) (d : Nat → α) (h : ∀ k, g (d k) = d k) (k : Nat) (m : Sparse α) :
    Sparse.rd d k (m.map (fun kv => (kv.1, g kv.2))) = g (Sparse.rd d k m) := by
  induction m with
  | nil => exact (h k).symm
  | cons x m ih =>
    obtain ⟨a, v⟩ := x
    simp only [List.map_cons, Sparse.rd, ih]
    split <;> rfl

/-! ## Device memory -/

/-- A byte of device memory depends on device memory alone. -/
theorem State.byteAt_eq (s : State) {a : Nat} (h : OnDevice a) : s.byteAt a = Sparse.rd memDefault a s.mem := by
  unfold State.byteAt
  split
  · next d e => exact absurd e (h d)
  · rfl

theorem State.byteAt_of_mem {s t : State} (m : t.mem = s.mem) {a : Nat} (h : OnDevice a) : t.byteAt a = s.byteAt a := by
  rw [State.byteAt_eq t h, State.byteAt_eq s h, m]

theorem KeepsBytes.of_mem {s t : State} (m : t.mem = s.mem) : KeepsBytes s t := fun _ h => State.byteAt_of_mem m h

theorem KeepsBytes.refl (s : State) : KeepsBytes s s := fun _ _ => rfl

theorem KeepsBytes.trans {s t u : State} (h : KeepsBytes s t) (g : KeepsBytes t u) : KeepsBytes s u :=
  fun a o => (g a o).trans (h a o)

/-- What a byte table reads after bytes are put into it. -/
theorem rd_putBytes (bs : List Byte) (m : Sparse Byte) (a b : Nat) :
    Sparse.rd memDefault b (putBytes m a bs) =
      if a ≤ b ∧ b < a + bs.length then bs.getD (b - a) 0x00#8 else Sparse.rd memDefault b m := by
  induction bs generalizing m a with
  | nil =>
    rw [putBytes, List.length_nil, if_neg (by omega)]
  | cons x bs ih =>
    rw [putBytes, ih, List.length_cons]
    by_cases e : b = a
    · subst e
      rw [if_neg (by omega), if_pos (by omega), Sparse.rd_wr_same]
      simp
    · rw [Sparse.rd_wr_ne _ _ e]
      by_cases h : a + 1 ≤ b ∧ b < a + 1 + bs.length
      · rw [if_pos h, if_pos (by omega)]
        have : b - a = (b - (a + 1)) + 1 := by omega
        rw [this, List.getD_cons_succ]
      · rw [if_neg h, if_neg (by omega)]

/-- Everything a store can change: memory, the uncorrectable granules, marks of squashes, reservations and tensor-scale tags. -/
theorem State.store_parts (s : State) (a : Nat) (bs : List Byte) : s.store a bs = { s with
    mem := putBytes s.mem a bs, bad := (s.store a bs).bad, cores := (s.store a bs).cores, te := (s.store a bs).te,
    cp := { s.cp with window := (s.store a bs).cp.window } } := by
  unfold State.store
  dsimp only
  split
  · next h => rw [List.length_eq_zero_iff.1 h]; rfl
  · split <;> rfl

@[simp] theorem State.store_mem (s : State) (a : Nat) (bs : List Byte) : (s.store a bs).mem = putBytes s.mem a bs := by
  rw [State.store_parts]
@[simp] theorem State.store_regs (s : State) (a : Nat) (bs : List Byte) : (s.store a bs).regs = s.regs := by
  rw [State.store_parts]
@[simp] theorem State.store_free (s : State) (a : Nat) (bs : List Byte) : (s.store a bs).free = s.free := by
  rw [State.store_parts]
@[simp] theorem State.store_cycle (s : State) (a : Nat) (bs : List Byte) : (s.store a bs).cycle = s.cycle := by
  rw [State.store_parts]

/-- A store in the device address map, outside operand SRAM and cluster SRAM, reaches no engine. -/
theorem State.store_plain (s : State) (a : Nat) (bs : List Byte) (ho : ∀ g, region a ≠ some (.opSram g))
    (hc : ∀ g, region a ≠ some (.clu g)) (hs : a < svcSram 0) : (s.store a bs).te = s.te ∧ (s.store a bs).cores = s.cores := by
  unfold State.store
  dsimp only
  split
  · exact ⟨rfl, rfl⟩
  · split
    · next g e => exact absurd e (ho g)
    · refine ⟨rfl, ?_⟩
      dsimp only
      split
      · next g e => exact absurd e (hc g)
      · rw [if_neg (by omega)]

/-- A store changes nothing of the decoded commands but the marks of squashes (R250). -/
theorem State.store_windows (s : State) (a : Nat) (bs : List Byte) (f : Nat) :
    ((s.store a bs).window f).map Decoded.unmarked = (s.window f).map Decoded.unmarked := by
  have key : ∀ (g : Decoded → Decoded), (∀ d, (g d).unmarked = d.unmarked) →
      ((Sparse.rd (fun _ => []) f (s.cp.mapWindow g).window : List Decoded)).map Decoded.unmarked =
        (s.window f).map Decoded.unmarked := by
    intro g hg
    unfold CpState.mapWindow State.window
    dsimp only
    rw [Sparse.rd_map (List.map g) (fun _ => []) (fun _ => rfl), List.map_map]
    exact List.map_congr_left (fun d _ => hg d)
  have sq : ∀ n d, (squashMem a n d).unmarked = d.unmarked := by
    intro n d
    unfold squashMem
    split <;> rfl
  unfold State.store
  dsimp only
  split
  · rfl
  · split
    · exact key _ (sq _)
    · exact key _ (sq _)

/-! ## Requests to controllers -/

/-- A request changes the controllers' queues alone. -/
theorem State.request_parts (s : State) (q : MemReq) : s.request q = { s with memc := (s.request q).memc } := by
  unfold State.request
  split <;> rfl

/-- Requests, one after the other, change the controllers' queues alone. -/
theorem State.requests_fold (f : Nat → MemReq) : ∀ (l : List Nat) (s : State),
    l.foldl (fun s u => s.request (f u)) s = { s with memc := (l.foldl (fun s u => s.request (f u)) s).memc }
  | [], _ => rfl
  | u :: l, s => by rw [List.foldl_cons, State.requests_fold f l, State.request_parts]

/-- All that requests change: the controllers' queues and the activity of the partition. -/
theorem State.touch_parts (s : State) (uid p eg a n : Nat) (k : ReqKind) : s.touch uid p eg a n k =
    { s with memc := (s.touch uid p eg a n k).memc, power := { s.power with act := (s.touch uid p eg a n k).power.act } } := by
  have moved : s.moved p a n = { s with power := { s.power with act := (s.moved p a n).power.act } } := by
    unfold State.moved
    split <;> rfl
  have reqs : ∀ t : State, t.requests uid p eg a n k = { t with memc := (t.requests uid p eg a n k).memc } := by
    intro t
    unfold State.requests
    split
    · exact State.requests_fold _ _ _
    · exact State.requests_fold _ _ _
    · split <;> rfl
    · rfl
  unfold State.touch
  rw [reqs, moved]

/-- All that the requests of a write change. -/
theorem State.putTouch_parts (s : State) (uid p eg a n : Nat) : s.putTouch uid p eg a n =
    { s with memc := (s.putTouch uid p eg a n).memc, power := { s.power with act := (s.putTouch uid p eg a n).power.act } } := by
  unfold State.putTouch
  rw [State.touch_parts, State.requests_fold]

@[simp] theorem State.putTouch_regs (s : State) (uid p eg a n : Nat) : (s.putTouch uid p eg a n).regs = s.regs := by
  rw [State.putTouch_parts]
@[simp] theorem State.putTouch_mem (s : State) (uid p eg a n : Nat) : (s.putTouch uid p eg a n).mem = s.mem := by
  rw [State.putTouch_parts]
@[simp] theorem State.putTouch_cp (s : State) (uid p eg a n : Nat) : (s.putTouch uid p eg a n).cp = s.cp := by
  rw [State.putTouch_parts]
@[simp] theorem State.touch_regs (s : State) (uid p eg a n : Nat) (k : ReqKind) : (s.touch uid p eg a n k).regs = s.regs := by
  rw [State.touch_parts]
@[simp] theorem State.touch_mem (s : State) (uid p eg a n : Nat) (k : ReqKind) : (s.touch uid p eg a n k).mem = s.mem := by
  rw [State.touch_parts]
@[simp] theorem State.touch_cp (s : State) (uid p eg a n : Nat) (k : ReqKind) : (s.touch uid p eg a n k).cp = s.cp := by
  rw [State.touch_parts]
@[simp] theorem State.touch_cycle (s : State) (uid p eg a n : Nat) (k : ReqKind) :
    (s.touch uid p eg a n k).cycle = s.cycle := by rw [State.touch_parts]

/-! ## Event records -/

theorem OnlyRegsAndEvents.refl (p : RegName → Nat → Prop) (s : State) : OnlyRegsAndEvents p s s :=
  ⟨rfl, fun _ => rfl, fun _ _ _ _ => rfl, fun _ _ _ => rfl⟩

/-- An update of registers that `p` names. -/
theorem OnlyRegsAndEvents.of_regs {p : RegName → Nat → Prop} {s t : State} (h : t = { s with regs := t.regs })
    (r : ∀ n i, ¬ p n i → t.reg n i = s.reg n i) : OnlyRegsAndEvents p s t := by
  refine ⟨?_, ?_, fun n i _ => r n i, fun a o _ => State.byteAt_of_mem (by rw [h]) o⟩
  · rw [h]
  · intro f
    rw [h]
    rfl

/-- Where the rings lie is left alone by event records. -/
theorem OnlyRegsAndEvents.inRing {p : RegName → Nat → Prop} {s t : State} (h : OnlyRegsAndEvents p s t)
    (hp : ∀ n i, n = .sysEvcfg ∨ n = .sysEvbaseLo ∨ n = .sysEvbaseHi → ¬ p n i) (a : Nat) : t.InRing a ↔ s.InRing a := by
  have r : ∀ n i, n = .sysEvcfg ∨ n = .sysEvbaseLo ∨ n = .sysEvbaseHi → t.reg n i = s.reg n i := by
    intro n i hn
    refine h.regs n i ?_ (hp n i hn)
    rintro (e | e | e) <;> rw [e] at hn <;> rcases hn with g | g | g <;> cases g
  have e1 : ∀ i, t.reg .sysEvcfg i = s.reg .sysEvcfg i := fun i => r _ i (.inl rfl)
  have e2 : ∀ i, t.pair .sysEvbaseLo .sysEvbaseHi i = s.pair .sysEvbaseLo .sysEvbaseHi i := by
    intro i
    unfold State.pair
    rw [r _ i (.inr (.inl rfl)), r _ i (.inr (.inr rfl))]
  have e3 : ∀ i, t.flag F.sysEvcfg_EN i = s.flag F.sysEvcfg_EN i := by
    intro i
    unfold State.flag State.fld
    rw [show F.sysEvcfg_EN.reg = .sysEvcfg from rfl, e1]
  have e4 : ∀ i, t.ringCap i = s.ringCap i := by
    intro i
    unfold State.ringCap State.fld
    rw [show F.sysEvcfg_LOG2N.reg = .sysEvcfg from rfl, e1]
  unfold State.InRing
  simp only [e2, e3, e4]

/-- Registers of `p` and event records, and then registers of `p` and event records again, where `p` holds no ring's place. -/
theorem OnlyRegsAndEvents.trans {p : RegName → Nat → Prop} {s t u : State} (h : OnlyRegsAndEvents p s t)
    (g : OnlyRegsAndEvents p t u) (hp : ∀ n i, n = .sysEvcfg ∨ n = .sysEvbaseLo ∨ n = .sysEvbaseHi → ¬ p n i) :
    OnlyRegsAndEvents p s u := by
  refine ⟨?_, fun f => (g.windows f).trans (h.windows f), fun n i e q => (g.regs n i e q).trans (h.regs n i e q), ?_⟩
  · have e := g.units
    rw [h.units] at e
    exact e
  · intro a o r
    exact (g.bytes a o (mt (h.inRing hp a).1 r)).trans (h.bytes a o r)

theorem OnlyRegsAndEvents.mono {p q : RegName → Nat → Prop} {s t : State} (h : OnlyRegsAndEvents p s t)
    (i : ∀ n k, p n k → q n k) : OnlyRegsAndEvents q s t :=
  ⟨h.units, h.windows, fun n k e r => h.regs n k e (mt (i n k) r), h.bytes⟩

theorem OnlyEvents.trans {s t u : State} (h : OnlyEvents s t) (g : OnlyEvents t u) : OnlyEvents s u :=
  OnlyRegsAndEvents.trans h g (fun _ _ _ => not_false)

/-- A count of an event register. -/
theorem OnlyEvents.of_count (s : State) (f : Fld) (i n : Nat) (h : EventReg f.reg) : OnlyEvents s (s.count f i n) := by
  refine ⟨rfl, fun _ => rfl, fun m k e _ => ?_, fun a o _ => State.byteAt_of_mem (s := s) (t := s.count f i n) rfl o⟩
  exact State.reg_setReg_ne s _ (fun g => e (g.1 ▸ h))

theorem State.msix_onlyEvents (s : State) (f : Nat) (part : Option Nat) (vec : Nat) : OnlyEvents s (s.msix f part vec) := by
  have same : ∀ t : State, t = { s with out := t.out, pci := t.pci, svcPend := t.svcPend } → OnlyEvents s t := by
    intro t h
    rw [h]
    exact ⟨rfl, fun _ => rfl, fun _ _ _ _ => rfl, fun a o _ => State.byteAt_of_mem rfl o⟩
  unfold State.msix
  dsimp only
  generalize (fnIsPf f || (match part with
    | some p => s.vfPart (fnPort f) (fnVf f) == some p
    | none => false)) = x
  generalize decide (vec < (fnIdent f).vectors) = y
  by_cases h1 : f = 18
  · rw [if_pos h1]
    exact same _ rfl
  rw [if_neg h1]
  by_cases h2 : f > 18
  · rw [if_pos h2]
    exact OnlyRegsAndEvents.refl _ s
  rw [if_neg h2]
  generalize (x && !(s.fn f).d3 && (s.fn f).msix && y) = z
  cases z
  · exact OnlyEvents.of_count s F.pciErrcnt_LOSTIRQ _ _ (.inr (.inr rfl))
  · by_cases h3 : (s.fn f).masked.contains vec = true
    · rw [if_pos rfl, if_pos h3]
      exact same _ rfl
    · rw [if_pos rfl, if_neg h3]
      exact same _ rfl

theorem region_of_inMsT1 {a n : Nat} (h : inMsT1 a n = true) : region a = some .t1 ∨ region a = some .ms := by
  unfold inMsT1 rangeRegion at h
  split at h
  · next e =>
    split at e
    · next r q h1 h2 =>
      split at e
      · cases e; exact .inl h1
      · cases e
    · cases e
  · next e =>
    split at e
    · next r q h1 h2 =>
      split at e
      · cases e; exact .inr h1
      · cases e
    · cases e
  · cases h

/-- The regions of T1 and of the map stores are intervals. -/
theorem region_inMsT1 {a n b : Nat} (h : inMsT1 a n = true) (h1 : a ≤ b) (h2 : b < a + n) :
    region b = some .t1 ∨ region b = some .ms := by
  have lo := region_of_inMsT1 h
  have hi : region (a + n - 1) = region a := by
    unfold inMsT1 rangeRegion at h
    cases e1 : region a <;> cases e2 : region (a + n - 1) <;> rw [e1, e2] at h <;> try cases h
    dsimp only at h
    split at h
    · next e => split at e
                · next g => rw [g]
                · cases e
    · next e => split at e
                · next g => rw [g]
                · cases e
    · cases h
  have range : ∀ x, (region x = some .t1 ↔ x < 432 * gib) ∧
      (region x = some .ms ↔ msBase ≤ x ∧ x < msBase + 256 * mib) := by
    intro x
    unfold region gib t2Base egBase msBase redBase mib
    dsimp only
    repeat' split
    all_goals refine ⟨⟨fun g => ?_, fun g => ?_⟩, ⟨fun g => ?_, fun g => ?_⟩⟩
    all_goals first | rfl | omega | cases g
  rcases lo with l | l
  · rw [l] at hi
    rw [(range _).1] at l hi
    exact .inl ((range b).1.2 (by omega))
  · rw [l] at hi
    rw [(range _).2] at l hi
    exact .inr ((range b).2.2 (by omega))

/-- The device address map ends below service SRAM. -/
theorem lt_svcSram_of_region {a : Nat} (h : (region a).isSome = true) : a < svcSram 0 := by
  unfold region gib t2Base egBase msBase redBase mib at h
  unfold svcSram
  dsimp only at h
  repeat' split at h
  all_goals first | omega | cases h

/-- A record written to a ring changes the ring and what its interrupt changes. -/
theorem State.ringWrite_onlyEvents (s : State) (f : Nat) (part : Option Nat) (rcd : List Byte) (hf : f < 19)
    (hr : rcd.length = 32) : OnlyEvents s (s.ringWrite f part rcd) := by
  unfold State.ringWrite
  split
  · exact OnlyRegsAndEvents.refl _ s
  · next en =>
    split
    · exact OnlyEvents.of_count s _ _ _ (.inr (.inl rfl))
    · next pl =>
      dsimp only
      split
      · exact OnlyEvents.of_count s _ _ _ (.inr (.inl rfl))
      · next hfull =>
        have cap : 0 < s.ringCap f := by
          unfold State.ringCap
          split
          · omega
          · exact Nat.mul_pos (by omega) (Nat.two_pow_pos _)
        have step1 : ∀ t : State, OnlyEvents s t → OnlyEvents s (t.setFld F.sysEvidx_EVTAIL f
            ((s.fld F.sysEvidx_EVTAIL f + 1) % 65536)) := by
          intro t h
          refine OnlyEvents.trans h ⟨rfl, fun _ => rfl, fun m k e _ => ?_, fun a o _ =>
            State.byteAt_of_mem (s := t) (t := t.setFld F.sysEvidx_EVTAIL f _) rfl o⟩
          exact State.reg_setReg_ne t _ (fun g => e (.inl g.1))
        have last : ∀ t : State, OnlyEvents s t →
            OnlyEvents s (if t.flag F.sysEvcfg_IRQEN f = true then t.msix f part (t.fld F.sysEvcfg_VECTOR f) else t) := by
          intro t h
          split
          · exact OnlyEvents.trans h (State.msix_onlyEvents t _ _ _)
          · exact h
        refine last _ (step1 _ ?_)
        split
        · exact ⟨rfl, fun _ => rfl, fun _ _ _ _ => rfl, fun a o _ => State.byteAt_of_mem rfl o⟩
        · next h18 =>
          have hp : s.ringPlaced f = true := by
            simpa [h18] using pl
          have hm : inMsT1 (s.pair .sysEvbaseLo .sysEvbaseHi f) (32 * s.ringCap f) = true := by
            unfold State.ringPlaced at hp
            dsimp only at hp
            exact (Bool.and_eq_true _ _ ▸ hp).1
          have ht := Nat.mod_lt (s.fld F.sysEvidx_EVTAIL f) cap
          generalize hk : s.fld F.sysEvidx_EVTAIL f % s.ringCap f = k at ht ⊢
          have reg := region_inMsT1 hm (b := s.pair .sysEvbaseLo .sysEvbaseHi f + 32 * k) (by omega) (by omega)
          have pln := State.store_plain s (s.pair .sysEvbaseLo .sysEvbaseHi f + 32 * k) rcd
            (by intro g e; rcases reg with r | r <;> rw [r] at e <;> cases e)
            (by intro g e; rcases reg with r | r <;> rw [r] at e <;> cases e)
            (lt_svcSram_of_region (by rcases reg with r | r <;> rw [r] <;> rfl))
          generalize ha : s.pair .sysEvbaseLo .sysEvbaseHi f + 32 * k = a at *
          refine ⟨?_, ?_, ?_, ?_⟩
          · rw [State.putTouch_parts, State.store_parts, pln.1, pln.2]
          · intro g
            have : ((s.store a rcd).putTouch 0 (s.ringPart f) noEg a 32).window g = (s.store a rcd).window g := by
              unfold State.window
              rw [State.putTouch_cp]
            rw [this]
            exact State.store_windows s a rcd g
          · intro n i _ _
            exact State.reg_of_regs (by rw [State.putTouch_regs, State.store_regs]) n i
          · intro b o hb
            rw [State.byteAt_eq _ o, State.byteAt_eq _ o, State.putTouch_mem, State.store_mem, rd_putBytes]
            refine if_neg (fun hin => hb ⟨f, by omega, ?_, by omega, by omega⟩)
            simpa using en

@[simp] theorem leBytes_length (n v : Nat) : (leBytes n v).length = n := by
  induction n generalizing v with
  | zero => rfl
  | succ n ih => simp [leBytes, ih]

@[simp] theorem eventRecord_length (code : Nat) (status : Byte) (part : Option Nat) (seq time a0 a1 : Nat) :
    (eventRecord code status part seq time a0 a1).length = 32 := by
  simp [eventRecord]

/-- Posting an event record changes what event records change, and counts it (R550). -/
theorem State.event_onlyEvents (s : State) (code : Nat) (status : Byte) (part : Option Nat) (a0 a1 : Nat) :
    OnlyEvents s (s.event code status part a0 a1) := by
  have fold : ∀ (l : List Nat) (t : State) (rcd : List Byte), (∀ f ∈ l, f < 19) → rcd.length = 32 →
      OnlyEvents t (l.foldl (fun s f => s.ringWrite f part rcd) t) := by
    intro l
    induction l with
    | nil => intro t _ _ _; exact OnlyRegsAndEvents.refl _ t
    | cons f l ih =>
      intro t rcd hl hr
      rw [List.foldl_cons]
      exact OnlyEvents.trans (State.ringWrite_onlyEvents t f part rcd (hl f List.mem_cons_self) hr)
        (ih _ rcd (fun g hg => hl g (List.mem_cons_of_mem _ hg)) hr)
  unfold State.event
  dsimp only
  refine OnlyEvents.trans (t := { s with cp := { s.cp with evSeq := (s.cp.evSeq + 1) % 2 ^ 32 } })
    ⟨rfl, fun _ => rfl, fun _ _ _ _ => rfl, fun a o _ => State.byteAt_of_mem rfl o⟩ (fold _ _ _ ?_ (eventRecord_length ..))
  intro f hf
  unfold State.ringsFor at hf
  split at hf
  · simp at hf; omega
  · simp at hf; omega

/-! ## Accesses by rights -/

theorem State.gated_permitted {s k : State} {who : Requester} {n : RegName} {i : Nat} (h : Permits s who n i) :
    s.gated who n i k = k := by
  unfold State.gated
  rw [h.1, h.2]
  rfl

theorem State.gated_refused {s k : State} {who : Requester} {n : RegName} {i : Nat} (h : ¬ Permits s who n i) :
    s.gated who n i k = s.refuse who := by
  unfold State.gated
  refine if_neg (fun e => h ?_)
  rw [Bool.and_eq_true] at e
  exact e

/-- A refused access of a host function is counted at its port; any other changes nothing (R538, R544). -/
theorem State.refuse_eq (s : State) (who : Requester) : s.refuse who =
    if who.isHost = true ∧ who.port < 2 then s.count F.pciErrcnt_REFUSED who.port 1 else s := by
  unfold State.refuse
  simp

end Sys2Proof.Machine
end

