-- ==== Sys2Proof/Laws/PerInstr.lean ====
section
/-!
SUPPORT. The family Shape: a well-formed command that is a write of one register names a register of the map (R543), so that its
meaning is about a register that exists. One lemma per command; commands that are no such writes meet it for want of a register.
-/

set_option Elab.async false

namespace Sys2Proof.Laws.Shape

open Sys2Proof Sys2Proof.Machine

/-- Every register that a well-formed command writes is in the register map. -/
def Statement (c : Instr) : Prop := ∀ who n i, Writes c who n i → c.wellFormed = true → Mapped n i

/-- A register of the map is one of a row's instances. -/
theorem mapped_of {n : RegName} {i : Nat} (r : MapRow) (m : r ∈ mapRows) (e : r.reg = n) (l : r.first ≤ i)
    (h : i < r.first + r.count) : Mapped n i := ⟨r, m, e, l, h⟩

theorem mapped_qCfg {i : Nat} (h : i < 32768) : Mapped .qCfg i :=
  mapped_of ⟨.qCfg, 0, 32768, 0x10000010, 0x1000⟩ (by decide +kernel) rfl (Nat.zero_le i) (by simpa using h)

theorem mapped_qCtrl {i : Nat} (h : i < 32768) : Mapped .qCtrl i :=
  mapped_of ⟨.qCtrl, 0, 32768, 0x10000018, 0x1000⟩ (by decide +kernel) rfl (Nat.zero_le i) (by simpa using h)

theorem mapped_qCmpidx {i : Nat} (h : i < 32768) : Mapped .qCmpidx i :=
  mapped_of ⟨.qCmpidx, 0, 32768, 0x1000001C, 0x1000⟩ (by decide +kernel) rfl (Nat.zero_le i) (by simpa using h)

theorem mapped_syncCfg {i : Nat} (h : i < 65536) : Mapped .syncCfg i :=
  mapped_of ⟨.syncCfg, 0, 65536, 0x4000004, 0x8⟩ (by decide +kernel) rfl (Nat.zero_le i) (by simpa using h)

theorem mapped_cpJctl {i : Nat} (h : i < 1) : Mapped .cpJctl i :=
  mapped_of ⟨.cpJctl, 0, 1, 0x2020E0, 0x0⟩ (by decide +kernel) rfl (Nat.zero_le i) (by simpa using h)

theorem mapped_cpJob {i : Nat} (h : i < 64) : Mapped .cpJob i :=
  mapped_of ⟨.cpJob, 0, 64, 0x202100, 0x4⟩ (by decide +kernel) rfl (Nat.zero_le i) (by simpa using h)

theorem mapped_cpWlen {i : Nat} (h : i < 128) : Mapped .cpWlen i :=
  mapped_of ⟨.cpWlen, 0, 128, 0x204000, 0x4⟩ (by decide +kernel) rfl (Nat.zero_le i) (by simpa using h)

theorem mapped_cpWheel {i : Nat} (h : i < 8192) : Mapped .cpWheel i :=
  mapped_of ⟨.cpWheel, 0, 8192, 0x208000, 0x4⟩ (by decide +kernel) rfl (Nat.zero_le i) (by simpa using h)

theorem mapped_sysPartmap {i : Nat} (h : i < 1) : Mapped .sysPartmap i :=
  mapped_of ⟨.sysPartmap, 0, 1, 0x10008, 0x0⟩ (by decide +kernel) rfl (Nat.zero_le i) (by simpa using h)

theorem mapped_sysPartcfg {i : Nat} (h : i < 8) : Mapped .sysPartcfg i :=
  mapped_of ⟨.sysPartcfg, 0, 8, 0x10120, 0x4⟩ (by decide +kernel) rfl (Nat.zero_le i) (by simpa using h)

theorem mapped_memWheel {i : Nat} (h : i < 6912) : Mapped .memWheel i :=
  mapped_of ⟨.memWheel, 0, 6912, 0x104000, 0x4⟩ (by decide +kernel) rfl (Nat.zero_le i) (by simpa using h)

theorem mapped_lnkCfg {i : Nat} (h : i < 6) : Mapped .lnkCfg i :=
  mapped_of ⟨.lnkCfg, 0, 6, 0x80000, 0x4⟩ (by decide +kernel) rfl (Nat.zero_le i) (by simpa using h)

theorem mapped_ceGrpctl {i : Nat} (h : i < 1) : Mapped .ceGrpctl i :=
  mapped_of ⟨.ceGrpctl, 0, 1, 0x90008, 0x0⟩ (by decide +kernel) rfl (Nat.zero_le i) (by simpa using h)

theorem mapped_ethCfg {i : Nat} (h : i < 4) : Mapped .ethCfg i :=
  mapped_of ⟨.ethCfg, 0, 4, 0x70000, 0x4⟩ (by decide +kernel) rfl (Nat.zero_le i) (by simpa using h)

theorem mapped_fenPdqtail {i : Nat} (h : i < 1) : Mapped .fenPdqtail i :=
  mapped_of ⟨.fenPdqtail, 0, 1, 0x6000C, 0x0⟩ (by decide +kernel) rfl (Nat.zero_le i) (by simpa using h)

theorem mapped_fenCtl {i : Nat} (h : i < 1) : Mapped .fenCtl i :=
  mapped_of ⟨.fenCtl, 0, 1, 0x60000, 0x0⟩ (by decide +kernel) rfl (Nat.zero_le i) (by simpa using h)

theorem mapped_pwrCap {i : Nat} (h : i < 1) : Mapped .pwrCap i :=
  mapped_of ⟨.pwrCap, 0, 1, 0x20000, 0x0⟩ (by decide +kernel) rfl (Nat.zero_le i) (by simpa using h)

theorem mapped_pwrReserve {i : Nat} (h : i < 1) : Mapped .pwrReserve i :=
  mapped_of ⟨.pwrReserve, 0, 1, 0x20004, 0x0⟩ (by decide +kernel) rfl (Nat.zero_le i) (by simpa using h)

theorem mapped_pwrBudget {i : Nat} (h : i < 8) : Mapped .pwrBudget i :=
  mapped_of ⟨.pwrBudget, 0, 8, 0x20040, 0x4⟩ (by decide +kernel) rfl (Nat.zero_le i) (by simpa using h)

theorem mapped_sysPseason {i : Nat} (h : i < 8) : Mapped .sysPseason i :=
  mapped_of ⟨.sysPseason, 0, 8, 0x10100, 0x4⟩ (by decide +kernel) rfl (Nat.zero_le i) (by simpa using h)

theorem mapped_bootCtl {i : Nat} (h : i < 1) : Mapped .bootCtl i :=
  mapped_of ⟨.bootCtl, 0, 1, 0x30004, 0x0⟩ (by decide +kernel) rfl (Nat.zero_le i) (by simpa using h)

theorem mapped_secCtl {i : Nat} (h : i < 1) : Mapped .secCtl i :=
  mapped_of ⟨.secCtl, 0, 1, 0x30108, 0x0⟩ (by decide +kernel) rfl (Nat.zero_le i) (by simpa using h)

theorem mapped_pciFnmap {i : Nat} (h : i < 2) : Mapped .pciFnmap i :=
  mapped_of ⟨.pciFnmap, 0, 2, 0x40000, 0x1000⟩ (by decide +kernel) rfl (Nat.zero_le i) (by simpa using h)

theorem mapped_sysEvcfg {i : Nat} (h : i < 19) : Mapped .sysEvcfg i :=
  mapped_of ⟨.sysEvcfg, 0, 19, 0x10408, 0x20⟩ (by decide +kernel) rfl (Nat.zero_le i) (by simpa using h)

theorem mapped_sysEvidx {i : Nat} (h : i < 19) : Mapped .sysEvidx i :=
  mapped_of ⟨.sysEvidx, 0, 19, 0x1040C, 0x20⟩ (by decide +kernel) rfl (Nat.zero_le i) (by simpa using h)

theorem mapped_teCvtclr {i : Nat} (h : i < 128) : Mapped .teCvtclr i :=
  mapped_of ⟨.teCvtclr, 0, 128, 0x1000108, 0x10000⟩ (by decide +kernel) rfl (Nat.zero_le i) (by simpa using h)

theorem mapped_teSpillclr {i : Nat} (h : i < 128) : Mapped .teSpillclr i :=
  mapped_of ⟨.teSpillclr, 0, 128, 0x1000110, 0x10000⟩ (by decide +kernel) rfl (Nat.zero_le i) (by simpa using h)

theorem mapped_egSentclr {i : Nat} (h : i < 128) : Mapped .egSentclr i :=
  mapped_of ⟨.egSentclr, 0, 128, 0x1000008, 0x10000⟩ (by decide +kernel) rfl (Nat.zero_le i) (by simpa using h)

theorem mapped_sfuStatclr {i : Nat} (h : i < 128) : Mapped .sfuStatclr i :=
  mapped_of ⟨.sfuStatclr, 0, 128, 0x1000204, 0x10000⟩ (by decide +kernel) rfl (Nat.zero_le i) (by simpa using h)

theorem mapped_cpStatclr {i : Nat} (h : i < 4) : Mapped .cpStatclr i :=
  mapped_of ⟨.cpStatclr, 0, 4, 0x2020D0, 0x4⟩ (by decide +kernel) rfl (Nat.zero_le i) (by simpa using h)

theorem mapped_memStatclr {i : Nat} (h : i < 216) : Mapped .memStatclr i :=
  mapped_of ⟨.memStatclr, 0, 216, 0x101008, 0x10⟩ (by decide +kernel) rfl (Nat.zero_le i) (by simpa using h)

theorem mapped_lnkStatclr {i : Nat} (h : i < 6) : Mapped .lnkStatclr i :=
  mapped_of ⟨.lnkStatclr, 0, 6, 0x80060, 0x4⟩ (by decide +kernel) rfl (Nat.zero_le i) (by simpa using h)

theorem mapped_ethDropclr {i : Nat} (h : i < 4) : Mapped .ethDropclr i :=
  mapped_of ⟨.ethDropclr, 0, 4, 0x70030, 0x4⟩ (by decide +kernel) rfl (Nat.zero_le i) (by simpa using h)

theorem mapped_trnStatclr {i : Nat} (h : i < 128) : Mapped .trnStatclr i :=
  mapped_of ⟨.trnStatclr, 0, 128, 0x1000408, 0x10000⟩ (by decide +kernel) rfl (Nat.zero_le i) (by simpa using h)

theorem mapped_pwrStatclr {i : Nat} (h : i < 1) : Mapped .pwrStatclr i :=
  mapped_of ⟨.pwrStatclr, 0, 1, 0x20010, 0x0⟩ (by decide +kernel) rfl (Nat.zero_le i) (by simpa using h)

theorem mapped_sysDetclr {i : Nat} (h : i < 8) : Mapped .sysDetclr i :=
  mapped_of ⟨.sysDetclr, 0, 8, 0x101E0, 0x4⟩ (by decide +kernel) rfl (Nat.zero_le i) (by simpa using h)

theorem mapped_cpWstatclr {i : Nat} (h : i < 128) : Mapped .cpWstatclr i :=
  mapped_of ⟨.cpWstatclr, 0, 128, 0x204400, 0x4⟩ (by decide +kernel) rfl (Nat.zero_le i) (by simpa using h)

theorem mapped_pciVfctl {i : Nat} (h : i < 2) : Mapped .pciVfctl i :=
  mapped_of ⟨.pciVfctl, 0, 2, 0x40004, 0x1000⟩ (by decide +kernel) rfl (Nat.zero_le i) (by simpa using h)

theorem mapped_memT1win {i : Nat} (h : i < 32) : Mapped .memT1win i :=
  mapped_of ⟨.memT1win, 0, 32, 0x100000, 0x4⟩ (by decide +kernel) rfl (Nat.zero_le i) (by simpa using h)

theorem mapped_memMswin {i : Nat} (h : i < 32) : Mapped .memMswin i :=
  mapped_of ⟨.memMswin, 0, 32, 0x100080, 0x4⟩ (by decide +kernel) rfl (Nat.zero_le i) (by simpa using h)

theorem mapped_memT2win {i : Nat} (h : i < 8) : Mapped .memT2win i :=
  mapped_of ⟨.memT2win, 0, 8, 0x100100, 0x4⟩ (by decide +kernel) rfl (Nat.zero_le i) (by simpa using h)

theorem mapped_cmpStatclr {i : Nat} (h : i < 130) : Mapped .cmpStatclr i := by
  by_cases g : i < 128
  · exact mapped_of ⟨.cmpStatclr, 0, 128, 0x1000508, 0x10000⟩ (by decide +kernel) rfl (Nat.zero_le i) (by simpa using g)
  · exact mapped_of ⟨.cmpStatclr, 128, 2, 0x98008, 0x100⟩ (by decide +kernel) rfl (by simpa using g) (by simpa using h)

theorem cpDecode q : Statement (.cpDecode q) := by
  intro _ _ _ h
  cases h

theorem nop i : Statement (.nop i) := by
  intro _ _ _ h
  cases h

theorem soop i : Statement (.soop i) := by
  intro _ _ _ h
  cases h

theorem sowait i : Statement (.sowait i) := by
  intro _ _ _ h
  cases h

theorem sowaitSatisfied i : Statement (.sowaitSatisfied i) := by
  intro _ _ _ h
  cases h

theorem boundset i : Statement (.boundset i) := by
  intro _ _ _ h
  cases h

theorem escalate i : Statement (.escalate i) := by
  intro _ _ _ h
  cases h

theorem dmaCopy i : Statement (.dmaCopy i) := by
  intro _ _ _ h
  cases h

theorem dmaConvert i : Statement (.dmaConvert i) := by
  intro _ _ _ h
  cases h

theorem dmaAdd i : Statement (.dmaAdd i) := by
  intro _ _ _ h
  cases h

theorem dmaMax i : Statement (.dmaMax i) := by
  intro _ _ _ h
  cases h

theorem dmaMin i : Statement (.dmaMin i) := by
  intro _ _ _ h
  cases h

theorem atomicWriteback c : Statement (.atomicWriteback c) := by
  intro _ _ _ h
  cases h

theorem dmaEncode i : Statement (.dmaEncode i) := by
  intro _ _ _ h
  cases h

theorem dmaDecode i : Statement (.dmaDecode i) := by
  intro _ _ _ h
  cases h

theorem tableBuild i : Statement (.tableBuild i) := by
  intro _ _ _ h
  cases h

theorem tableLoad i : Statement (.tableLoad i) := by
  intro _ _ _ h
  cases h

theorem matmul i : Statement (.matmul i) := by
  intro _ _ _ h
  cases h

theorem teSlotGrant eg : Statement (.teSlotGrant eg) := by
  intro _ _ _ h
  cases h

theorem teStep eg k : Statement (.teStep eg k) := by
  intro _ _ _ h
  cases h

theorem tileDrain eg : Statement (.tileDrain eg) := by
  intro _ _ _ h
  cases h

theorem tload i : Statement (.tload i) := by
  intro _ _ _ h
  cases h

theorem sentinel i : Statement (.sentinel i) := by
  intro _ _ _ h
  cases h

theorem eval i : Statement (.eval i) := by
  intro _ _ _ h
  cases h

theorem gate i : Statement (.gate i) := by
  intro _ _ _ h
  cases h

theorem rmsnorm i : Statement (.rmsnorm i) := by
  intro _ _ _ h
  cases h

theorem softmax i : Statement (.softmax i) := by
  intro _ _ _ h
  cases h

theorem smrecomp i : Statement (.smrecomp i) := by
  intro _ _ _ h
  cases h

theorem tblload i : Statement (.tblload i) := by
  intro _ _ _ h
  cases h

theorem patgen i : Statement (.patgen i) := by
  intro _ _ _ h
  cases h

theorem appendDirect i : Statement (.appendDirect i) := by
  intro _ _ _ h
  cases h

theorem appendStaged i : Statement (.appendStaged i) := by
  intro _ _ _ h
  cases h

theorem attn i : Statement (.attn i) := by
  intro _ _ _ h
  cases h

theorem conv i : Statement (.conv i) := by
  intro _ _ _ h
  cases h

theorem poolMax i : Statement (.poolMax i) := by
  intro _ _ _ h
  cases h

theorem poolAvgv i : Statement (.poolAvgv i) := by
  intro _ _ _ h
  cases h

theorem poolAvgf i : Statement (.poolAvgf i) := by
  intro _ _ _ h
  cases h

theorem argmax i : Statement (.argmax i) := by
  intro _ _ _ h
  cases h

theorem clrun i : Statement (.clrun i) := by
  intro _ _ _ h
  cases h

theorem send i : Statement (.send i) := by
  intro _ _ _ h
  cases h

theorem qsend i : Statement (.qsend i) := by
  intro _ _ _ h
  cases h

theorem allreduce i : Statement (.allreduce i) := by
  intro _ _ _ h
  cases h

theorem reducescatter i : Statement (.reducescatter i) := by
  intro _ _ _ h
  cases h

theorem allgather i : Statement (.allgather i) := by
  intro _ _ _ h
  cases h

theorem reduce i : Statement (.reduce i) := by
  intro _ _ _ h
  cases h

theorem broadcast i : Statement (.broadcast i) := by
  intro _ _ _ h
  cases h

theorem alltoall i : Statement (.alltoall i) := by
  intro _ _ _ h
  cases h

theorem permute i : Statement (.permute i) := by
  intro _ _ _ h
  cases h

theorem barrier i : Statement (.barrier i) := by
  intro _ _ _ h
  cases h

theorem grpabort i : Statement (.grpabort i) := by
  intro _ _ _ h
  cases h

theorem update i : Statement (.update i) := by
  intro _ _ _ h
  cases h

theorem basilInstruction eg c : Statement (.basilInstruction eg c) := by
  intro _ _ _ h
  cases h

theorem tlPost eg c : Statement (.tlPost eg c) := by
  intro _ _ _ h
  cases h

theorem tlDma eg c : Statement (.tlDma eg c) := by
  intro _ _ _ h
  cases h

theorem tlWait eg c : Statement (.tlWait eg c) := by
  intro _ _ _ h
  cases h

theorem ticketCompletion eg c t : Statement (.ticketCompletion eg c t) := by
  intro _ _ _ h
  cases h

theorem tlTest eg c : Statement (.tlTest eg c) := by
  intro _ _ _ h
  cases h

theorem tlEnd eg c : Statement (.tlEnd eg c) := by
  intro _ _ _ h
  cases h

theorem soOp eg c : Statement (.soOp eg c) := by
  intro _ _ _ h
  cases h

theorem soWait eg c : Statement (.soWait eg c) := by
  intro _ _ _ h
  cases h

theorem soWaitTimeout eg c : Statement (.soWaitTimeout eg c) := by
  intro _ _ _ h
  cases h

theorem soClaim eg c : Statement (.soClaim eg c) := by
  intro _ _ _ h
  cases h

theorem tlBld eg c : Statement (.tlBld eg c) := by
  intro _ _ _ h
  cases h

theorem tlBdec eg c : Statement (.tlBdec eg c) := by
  intro _ _ _ h
  cases h

theorem soRead who obj : Statement (.soRead who obj) := by
  intro _ _ _ h
  cases h

theorem soSet who obj operand : Statement (.soSet who obj operand) := by
  intro _ _ _ h
  cases h

theorem soAdd who obj operand : Statement (.soAdd who obj operand) := by
  intro _ _ _ h
  cases h

theorem soMax who obj operand : Statement (.soMax who obj operand) := by
  intro _ _ _ h
  cases h

theorem soSeterr who obj operand : Statement (.soSeterr who obj operand) := by
  intro _ _ _ h
  cases h

theorem soClrerr who obj : Statement (.soClrerr who obj) := by
  intro _ _ _ h
  cases h

theorem creset who obj operand : Statement (.creset who obj operand) := by
  intro _ _ _ h
  cases h

theorem cread who obj : Statement (.cread who obj) := by
  intro _ _ _ h
  cases h

theorem completionDrain f e : Statement (.completionDrain f e) := by
  intro _ _ _ h
  cases h

theorem qDoorbell who q v : Statement (.qDoorbell who q v) := by
  intro _ _ _ h
  cases h

theorem qEnable who q v : Statement (.qEnable who q v) := by
  intro _ _ _ h w
  cases h
  exact mapped_qCfg (of_decide_eq_true w)

theorem qResume who q v : Statement (.qResume who q v) := by
  intro _ _ _ h w
  cases h
  exact mapped_qCtrl (of_decide_eq_true w)

theorem qSkip who q v : Statement (.qSkip who q v) := by
  intro _ _ _ h w
  cases h
  exact mapped_qCtrl (of_decide_eq_true w)

theorem cheadWrite who q v : Statement (.cheadWrite who q v) := by
  intro _ _ _ h w
  cases h
  exact mapped_qCmpidx (of_decide_eq_true w)

theorem cpWatchExpiry q : Statement (.cpWatchExpiry q) := by
  intro _ _ _ h
  cases h

theorem syncCfgWrite who obj v : Statement (.syncCfgWrite who obj v) := by
  intro _ _ _ h w
  cases h
  exact mapped_syncCfg (of_decide_eq_true w)

theorem wheelEntryStart eg : Statement (.wheelEntryStart eg) := by
  intro _ _ _ h
  cases h

theorem jobSave who p j : Statement (.jobSave who p j) := by
  intro _ _ _ h _
  cases h
  exact mapped_cpJctl (by decide)

theorem saveBegin eg j : Statement (.saveBegin eg j) := by
  intro _ _ _ h
  cases h

theorem jobResume who p j : Statement (.jobResume who p j) := by
  intro _ _ _ h _
  cases h
  exact mapped_cpJctl (by decide)

theorem jobStatsClear who p j : Statement (.jobStatsClear who p j) := by
  intro _ _ _ h _
  cases h
  exact mapped_cpJctl (by decide)

theorem cpJobWrite who n v : Statement (.cpJobWrite who n v) := by
  intro _ _ _ h w
  cases h
  exact mapped_cpJob (of_decide_eq_true w)

theorem cpWheelWrite who isLen n v : Statement (.cpWheelWrite who isLen n v) := by
  intro _ _ _ h w
  cases h
  have w := of_decide_eq_true w
  cases isLen
  · exact mapped_cpWheel w
  · exact mapped_cpWlen w

theorem partmapWrite who v : Statement (.partmapWrite who v) := by
  intro _ _ _ h _
  cases h
  exact mapped_sysPartmap (by decide)

theorem sysPartcfgWrite who p v : Statement (.sysPartcfgWrite who p v) := by
  intro _ _ _ h w
  cases h
  exact mapped_sysPartcfg (of_decide_eq_true w)

theorem memWindowWrite who win n v : Statement (.memWindowWrite who win n v) := by
  intro _ _ _ h w
  cases h
  cases win
  · exact mapped_memT1win (of_decide_eq_true w)
  · exact mapped_memMswin (of_decide_eq_true w)
  · exact mapped_memT2win (of_decide_eq_true w)

theorem memWheelWrite who n v : Statement (.memWheelWrite who n v) := by
  intro _ _ _ h w
  cases h
  exact mapped_memWheel (of_decide_eq_true w)

theorem memSlotStart c : Statement (.memSlotStart c) := by
  intro _ _ _ h
  cases h

theorem memReadArrival c late ecc : Statement (.memReadArrival c late ecc) := by
  intro _ _ _ h
  cases h

theorem dataFrame k raw : Statement (.dataFrame k raw) := by
  intro _ _ _ h
  cases h

theorem headFrame k raw : Statement (.headFrame k raw) := by
  intro _ _ _ h
  cases h

theorem ctrlFrame k raw : Statement (.ctrlFrame k raw) := by
  intro _ _ _ h
  cases h

theorem ready d : Statement (.ready d) := by
  intro _ _ _ h
  cases h

theorem grant d : Statement (.grant d) := by
  intro _ _ _ h
  cases h

theorem landack d : Statement (.landack d) := by
  intro _ _ _ h
  cases h

theorem reply d : Statement (.reply d) := by
  intro _ _ _ h
  cases h

theorem notice d : Statement (.notice d) := by
  intro _ _ _ h
  cases h

theorem alignFrame k raw : Statement (.alignFrame k raw) := by
  intro _ _ _ h
  cases h

theorem trainFrame k raw : Statement (.trainFrame k raw) := by
  intro _ _ _ h
  cases h

theorem creditFrame k raw : Statement (.creditFrame k raw) := by
  intro _ _ _ h
  cases h

theorem idleFrame k raw : Statement (.idleFrame k raw) := by
  intro _ _ _ h
  cases h

theorem replayTimeout k : Statement (.replayTimeout k) := by
  intro _ _ _ h
  cases h

theorem switchSlot k : Statement (.switchSlot k) := by
  intro _ _ _ h
  cases h

theorem linkRetrainTrigger k lockLost : Statement (.linkRetrainTrigger k lockLost) := by
  intro _ _ _ h
  cases h

theorem linkTrainingDone k good : Statement (.linkTrainingDone k good) := by
  intro _ _ _ h
  cases h

theorem trainingStageTimeout k : Statement (.trainingStageTimeout k) := by
  intro _ _ _ h
  cases h

theorem linkTrainRetry k : Statement (.linkTrainRetry k) := by
  intro _ _ _ h
  cases h

theorem lnkRetrain who n v : Statement (.lnkRetrain who n v) := by
  intro _ _ _ h w
  cases h
  exact mapped_lnkCfg (of_decide_eq_true w)

theorem readyRetry d n : Statement (.readyRetry d n) := by
  intro _ _ _ h
  cases h

theorem collWatch d n : Statement (.collWatch d n) := by
  intro _ _ _ h
  cases h

theorem groupEnable who g : Statement (.groupEnable who g) := by
  intro _ _ _ h _
  cases h
  exact mapped_ceGrpctl (by decide)

theorem groupReset who g : Statement (.groupReset who g) := by
  intro _ _ _ h _
  cases h
  exact mapped_ceGrpctl (by decide)

theorem groupDisable who g : Statement (.groupDisable who g) := by
  intro _ _ _ h _
  cases h
  exact mapped_ceGrpctl (by decide)

theorem groupAbort who g : Statement (.groupAbort who g) := by
  intro _ _ _ h _
  cases h
  exact mapped_ceGrpctl (by decide)

theorem ethFrameReceive e raw : Statement (.ethFrameReceive e raw) := by
  intro _ _ _ h
  cases h

theorem arpRequest e : Statement (.arpRequest e) := by
  intro _ _ _ h
  cases h

theorem neighborSolicitation e : Statement (.neighborSolicitation e) := by
  intro _ _ _ h
  cases h

theorem echoRequest e : Statement (.echoRequest e) := by
  intro _ _ _ h
  cases h

theorem cookie e : Statement (.cookie e) := by
  intro _ _ _ h
  cases h

theorem init e : Statement (.init e) := by
  intro _ _ _ h
  cases h

theorem resp e : Statement (.resp e) := by
  intro _ _ _ h
  cases h

theorem confirm e : Statement (.confirm e) := by
  intro _ _ _ h
  cases h

theorem birsanData e : Statement (.birsanData e) := by
  intro _ _ _ h
  cases h

theorem ack e : Statement (.ack e) := by
  intro _ _ _ h
  cases h

theorem close e : Statement (.close e) := by
  intro _ _ _ h
  cases h

theorem birsanSend sid : Statement (.birsanSend sid) := by
  intro _ _ _ h
  cases h

theorem ackDelayExpiry sid : Statement (.ackDelayExpiry sid) := by
  intro _ _ _ h
  cases h

theorem retransmissionTimeout sid psn : Statement (.retransmissionTimeout sid psn) := by
  intro _ _ _ h
  cases h

theorem keepalive sid : Statement (.keepalive sid) := by
  intro _ _ _ h
  cases h

theorem sessionIdleTimeout sid : Statement (.sessionIdleTimeout sid) := by
  intro _ _ _ h
  cases h

theorem handshakeTimeout sid : Statement (.handshakeTimeout sid) := by
  intro _ _ _ h
  cases h

theorem cookieSecretChange : Statement .cookieSecretChange := by
  intro _ _ _ h
  cases h

theorem rekey sid : Statement (.rekey sid) := by
  intro _ _ _ h
  cases h

theorem oldKeyExpiry sid : Statement (.oldKeyExpiry sid) := by
  intro _ _ _ h
  cases h

theorem submit sid : Statement (.submit sid) := by
  intro _ _ _ h
  cases h

theorem cancel sid : Statement (.cancel sid) := by
  intro _ _ _ h
  cases h

theorem query sid : Statement (.query sid) := by
  intro _ _ _ h
  cases h

theorem requestPlacement cls : Statement (.requestPlacement cls) := by
  intro _ _ _ h
  cases h

theorem requestComplete req status : Statement (.requestComplete req status) := by
  intro _ _ _ h
  cases h

theorem sessionLostTimeout req : Statement (.sessionLostTimeout req) := by
  intro _ _ _ h
  cases h

theorem ethRetrain who n v : Statement (.ethRetrain who n v) := by
  intro _ _ _ h w
  cases h
  exact mapped_ethCfg (of_decide_eq_true w)

theorem ethLinkLoss e : Statement (.ethLinkLoss e) := by
  intro _ _ _ h
  cases h

theorem fenPdqtail who v : Statement (.fenPdqtail who v) := by
  intro _ _ _ h _
  cases h
  exact mapped_fenPdqtail (by decide)

theorem fenEnable who v : Statement (.fenEnable who v) := by
  intro _ _ _ h _
  cases h
  exact mapped_fenCtl (by decide)

theorem fenEncode : Statement .fenEncode := by
  intro _ _ _ h
  cases h

theorem fenDecode : Statement .fenDecode := by
  intro _ _ _ h
  cases h

theorem pictureComplete fcycles slotMisses : Statement (.pictureComplete fcycles slotMisses) := by
  intro _ _ _ h
  cases h

theorem energySample microjoules : Statement (.energySample microjoules) := by
  intro _ _ _ h
  cases h

theorem energyWindowEnd : Statement .energyWindowEnd := by
  intro _ _ _ h
  cases h

theorem fastLimiterReading watts : Statement (.fastLimiterReading watts) := by
  intro _ _ _ h
  cases h

theorem thermalSample temps : Statement (.thermalSample temps) := by
  intro _ _ _ h
  cases h

theorem clockSlewStep : Statement .clockSlewStep := by
  intro _ _ _ h
  cases h

theorem droopDetect : Statement .droopDetect := by
  intro _ _ _ h
  cases h

theorem droopEnd : Statement .droopEnd := by
  intro _ _ _ h
  cases h

theorem throttleNChange active : Statement (.throttleNChange active) := by
  intro _ _ _ h
  cases h

theorem throttleHoldEnd : Statement .throttleHoldEnd := by
  intro _ _ _ h
  cases h

theorem throttleStuck : Statement .throttleStuck := by
  intro _ _ _ h
  cases h

theorem pwrCapWrite who v : Statement (.pwrCapWrite who v) := by
  intro _ _ _ h _
  cases h
  exact mapped_pwrCap (by decide)

theorem pwrBudgetWrite who n v : Statement (.pwrBudgetWrite who n v) := by
  intro _ _ _ h w
  cases h
  have w := of_decide_eq_true w
  by_cases g : n = 8
  · rw [if_pos g, if_pos g]
    exact mapped_pwrReserve (by decide)
  · rw [if_neg g, if_neg g]
    exact mapped_pwrBudget (by omega)

theorem resetNAssert ns : Statement (.resetNAssert ns) := by
  intro _ _ _ h
  cases h

theorem resetNRelease : Statement .resetNRelease := by
  intro _ _ _ h
  cases h

theorem pwrgoodLow : Statement .pwrgoodLow := by
  intro _ _ _ h
  cases h

theorem pwrgoodHigh : Statement .pwrgoodHigh := by
  intro _ _ _ h
  cases h

theorem crstNAssert : Statement .crstNAssert := by
  intro _ _ _ h
  cases h

theorem crstNRelease : Statement .crstNRelease := by
  intro _ _ _ h
  cases h

theorem perstAssert d : Statement (.perstAssert d) := by
  intro _ _ _ h
  cases h

theorem perstRelease d : Statement (.perstRelease d) := by
  intro _ _ _ h
  cases h

theorem sageWatchdog : Statement .sageWatchdog := by
  intro _ _ _ h
  cases h

theorem inputPowerOn : Statement .inputPowerOn := by
  intro _ _ _ h
  cases h

theorem inputUndervoltage : Statement .inputUndervoltage := by
  intro _ _ _ h
  cases h

theorem inputOvervoltage : Statement .inputOvervoltage := by
  intro _ _ _ h
  cases h

theorem inputOvercurrent : Statement .inputOvercurrent := by
  intro _ _ _ h
  cases h

theorem powerStageOvertemp : Statement .powerStageOvertemp := by
  intro _ _ _ h
  cases h

theorem presentNMate : Statement .presentNMate := by
  intro _ _ _ h
  cases h

theorem serdesRefclkLoss k : Statement (.serdesRefclkLoss k) := by
  intro _ _ _ h
  cases h

theorem pcieRefclkLoss d : Statement (.pcieRefclkLoss d) := by
  intro _ _ _ h
  cases h

theorem alwaysOnClockLoss : Statement .alwaysOnClockLoss := by
  intro _ _ _ h
  cases h

theorem partitionSpring who p : Statement (.partitionSpring who p) := by
  intro _ _ _ h w
  cases h
  exact mapped_sysPseason (of_decide_eq_true w)

theorem partitionClearingEnd p : Statement (.partitionClearingEnd p) := by
  intro _ _ _ h
  cases h

theorem partitionAutumn who p : Statement (.partitionAutumn who p) := by
  intro _ _ _ h w
  cases h
  exact mapped_sysPseason (of_decide_eq_true w)

theorem partitionDrained p : Statement (.partitionDrained p) := by
  intro _ _ _ h
  cases h

theorem autumnLimitExpiry p : Statement (.autumnLimitExpiry p) := by
  intro _ _ _ h
  cases h

theorem partitionReset who p : Statement (.partitionReset who p) := by
  intro _ _ _ h w
  cases h
  exact mapped_sysPseason (of_decide_eq_true w)

theorem bootRom : Statement .bootRom := by
  intro _ _ _ h
  cases h

theorem bootHost : Statement .bootHost := by
  intro _ _ _ h
  cases h

theorem bootFlash : Statement .bootFlash := by
  intro _ _ _ h
  cases h

theorem bootIod failed : Statement (.bootIod failed) := by
  intro _ _ _ h
  cases h

theorem bootLinks : Statement .bootLinks := by
  intro _ _ _ h
  cases h

theorem bootHbm repairs : Statement (.bootHbm repairs) := by
  intro _ _ _ h
  cases h

theorem powerWave good : Statement (.powerWave good) := by
  intro _ _ _ h
  cases h

theorem bootBroadcast good : Statement (.bootBroadcast good) := by
  intro _ _ _ h
  cases h

theorem bootSelftest failing : Statement (.bootSelftest failing) := by
  intro _ _ _ h
  cases h

theorem bootStageTimeout : Statement .bootStageTimeout := by
  intro _ _ _ h
  cases h

theorem bootBackoffExpiry : Statement .bootBackoffExpiry := by
  intro _ _ _ h
  cases h

theorem go who : Statement (.go who) := by
  intro _ _ _ h _
  cases h
  exact mapped_bootCtl (by decide)

theorem restart who : Statement (.restart who) := by
  intro _ _ _ h _
  cases h
  exact mapped_bootCtl (by decide)

theorem flashUpdate who : Statement (.flashUpdate who) := by
  intro _ _ _ h _
  cases h
  exact mapped_bootCtl (by decide)

theorem alertclr who : Statement (.alertclr who) := by
  intro _ _ _ h _
  cases h
  exact mapped_bootCtl (by decide)

theorem commitsvn who : Statement (.commitsvn who) := by
  intro _ _ _ h _
  cases h
  exact mapped_secCtl (by decide)

theorem ownerprog who : Statement (.ownerprog who) := by
  intro _ _ _ h _
  cases h
  exact mapped_secCtl (by decide)

theorem bar2Read who addr len : Statement (.bar2Read who addr len) := by
  intro _ _ _ h
  cases h

theorem bar2Write who addr data : Statement (.bar2Write who addr data) := by
  intro _ _ _ h
  cases h

theorem regWrite who offset v : Statement (.regWrite who offset v) := by
  intro _ _ _ h
  cases h

theorem regReadLo who offset : Statement (.regReadLo who offset) := by
  intro _ _ _ h
  cases h

theorem pciFnmapWrite who n v : Statement (.pciFnmapWrite who n v) := by
  intro _ _ _ h w
  cases h
  exact mapped_pciFnmap (of_decide_eq_true w)

theorem flr d fn : Statement (.flr d fn) := by
  intro _ _ _ h
  cases h

theorem d3hot d fn enter : Statement (.d3hot d fn enter) := by
  intro _ _ _ h
  cases h

theorem pcieLinkUp d speed width flit : Statement (.pcieLinkUp d speed width flit) := by
  intro _ _ _ h
  cases h

theorem getVersion d req : Statement (.getVersion d req) := by
  intro _ _ _ h
  cases h

theorem getCapabilities d req : Statement (.getCapabilities d req) := by
  intro _ _ _ h
  cases h

theorem negotiateAlgorithms d req : Statement (.negotiateAlgorithms d req) := by
  intro _ _ _ h
  cases h

theorem getDigests d req : Statement (.getDigests d req) := by
  intro _ _ _ h
  cases h

theorem getCertificate d req : Statement (.getCertificate d req) := by
  intro _ _ _ h
  cases h

theorem challenge d req : Statement (.challenge d req) := by
  intro _ _ _ h
  cases h

theorem getMeasurements d req : Statement (.getMeasurements d req) := by
  intro _ _ _ h
  cases h

theorem vendorDefinedRequest d req : Statement (.vendorDefinedRequest d req) := by
  intro _ _ _ h
  cases h

theorem sysEvcfgEnable who n v : Statement (.sysEvcfgEnable who n v) := by
  intro _ _ _ h w
  cases h
  exact mapped_sysEvcfg (of_decide_eq_true w)

theorem evheadWrite who n v : Statement (.evheadWrite who n v) := by
  intro _ _ _ h w
  cases h
  exact mapped_sysEvidx (of_decide_eq_true w)

theorem mgmtWrite offset v pecOk : Statement (.mgmtWrite offset v pecOk) := by
  intro _ _ _ h
  cases h

theorem mgmtReadStart offset pecOk : Statement (.mgmtReadStart offset pecOk) := by
  intro _ _ _ h
  cases h

theorem mgmtReadResult : Statement .mgmtReadResult := by
  intro _ _ _ h
  cases h

theorem setdasa addr : Statement (.setdasa addr) := by
  intro _ _ _ h
  cases h

theorem rstdaa : Statement .rstdaa := by
  intro _ _ _ h
  cases h

theorem alertResponse : Statement .alertResponse := by
  intro _ _ _ h
  cases h

theorem teCvtclr who n : Statement (.teCvtclr who n) := by
  intro _ _ _ h w
  cases h
  exact mapped_teCvtclr (of_decide_eq_true w)

theorem teSpillclr who n : Statement (.teSpillclr who n) := by
  intro _ _ _ h w
  cases h
  exact mapped_teSpillclr (of_decide_eq_true w)

theorem egSentclr who n : Statement (.egSentclr who n) := by
  intro _ _ _ h w
  cases h
  exact mapped_egSentclr (of_decide_eq_true w)

theorem sfuStatclr who n : Statement (.sfuStatclr who n) := by
  intro _ _ _ h w
  cases h
  exact mapped_sfuStatclr (of_decide_eq_true w)

theorem cpStatclr who n : Statement (.cpStatclr who n) := by
  intro _ _ _ h w
  cases h
  exact mapped_cpStatclr (of_decide_eq_true w)

theorem memStatclr who n : Statement (.memStatclr who n) := by
  intro _ _ _ h w
  cases h
  exact mapped_memStatclr (of_decide_eq_true w)

theorem cmpStatclr who n : Statement (.cmpStatclr who n) := by
  intro _ _ _ h w
  cases h
  exact mapped_cmpStatclr (of_decide_eq_true w)

theorem lnkStatclr who n : Statement (.lnkStatclr who n) := by
  intro _ _ _ h w
  cases h
  exact mapped_lnkStatclr (of_decide_eq_true w)

theorem ethDropclr who n : Statement (.ethDropclr who n) := by
  intro _ _ _ h w
  cases h
  exact mapped_ethDropclr (of_decide_eq_true w)

theorem trnStatclr who n : Statement (.trnStatclr who n) := by
  intro _ _ _ h w
  cases h
  exact mapped_trnStatclr (of_decide_eq_true w)

theorem pwrStatclr who : Statement (.pwrStatclr who) := by
  intro _ _ _ h _
  cases h
  exact mapped_pwrStatclr (by decide)

theorem sysDetclr who n : Statement (.sysDetclr who n) := by
  intro _ _ _ h w
  cases h
  exact mapped_sysDetclr (of_decide_eq_true w)

theorem cpWstatclr who n : Statement (.cpWstatclr who n) := by
  intro _ _ _ h w
  cases h
  exact mapped_cpWstatclr (of_decide_eq_true w)

theorem errclr who n : Statement (.errclr who n) := by
  intro _ _ _ h w
  cases h
  exact mapped_pciVfctl (of_decide_eq_true w)

theorem crstNHoldEnd : Statement .crstNHoldEnd := by
  intro _ _ _ h
  cases h

theorem serdesRefclkReturn k : Statement (.serdesRefclkReturn k) := by
  intro _ _ _ h
  cases h

theorem alwaysOnClockReturn : Statement .alwaysOnClockReturn := by
  intro _ _ _ h
  cases h

theorem ethPortUp e : Statement (.ethPortUp e) := by
  intro _ _ _ h
  cases h

theorem overcurrentRestart : Statement .overcurrentRestart := by
  intro _ _ _ h
  cases h

theorem inputOvervoltageRecovery : Statement .inputOvervoltageRecovery := by
  intro _ _ _ h
  cases h

theorem vfEnable d v on : Statement (.vfEnable d v on) := by
  intro _ _ _ h
  cases h

theorem tenantTableRewrite sid isClass recs : Statement (.tenantTableRewrite sid isClass recs) := by
  intro _ _ _ h
  cases h

end Sys2Proof.Laws.Shape
end

