-- ==== Sys2Proof/Tests/Slice0.lean ====
section
/-!
SUPPORT. The model's own tests: every check of WellFormed refuses an ill-formed command; a witness for the premises of every
statement; and results that the manual states, each over one step of a small state.
-/

namespace Sys2Proof.Tests

set_option Elab.async false

open Sys2Proof Sys2Proof.Machine

/-! ## Setting up states -/

/-- A state with fields of registers set. -/
def set (l : List (Fld × Nat × Nat)) (s : State) : State := l.foldl (fun t x => t.setFld x.1 x.2.1 x.2.2) s

/-- Partition 0 in Summer with block 0 and windows from the start of field 0's T1 and map store and of T2; queue 0 enabled and
running; the wheel of engine group 0 runs in an entry of job 0. -/
def base : State :=
  { set [(F.sysPartmap_BLOCKS, 0, 8), (F.sysPseason_SEASON, 0, 2), (F.cpJob_VALID, 0, 1), (F.memT1win_SIZE, 0, 4),
      (F.memMswin_SIZE, 0, 4), (F.memT2win_SIZE, 0, 4), (F.qCfg_ENABLE, 0, 1), (F.qStat_STATE, 0, 1), (F.cpWheel_VALIDA, 0, 1)]
      State.reset with wheels := [(0, ⟨true, 0, 0, 0, none, []⟩)] }

/-- `n` bytes with little-endian fields: offset and value. -/
def bytes (n : Nat) (fs : List (Nat × Nat)) : List Byte := leBytes n (fs.foldl (fun x f => x + f.2 * 256 ^ f.1) 0)

/-- A command of `n` bytes: opcode, LEN and fields (R239). -/
def cmd (op n : Nat) (fs : List (Nat × Nat)) : List Byte := bytes n ((0, op + 256 * (n / 16)) :: fs)

/-- A decoded command of queue 0. -/
def dec (b : List Byte) : Decoded := ⟨0, b, 1, b.length / 16, [], [], false, false, [], none, 0, 0, 0, 0, false, none⟩

/-- A state in which queue 0 holds one decoded command. -/
def put (b : List Byte) (s : State) : State := { s with cp := { s.cp with window := [(0, [dec b])] } }

/-! ## Ill-formed commands -/

theorem wf_queue : (Instr.cpDecode 32768).wellFormed = false := by decide
theorem wf_issuer_queue : (Instr.nop (.queue 32768)).wellFormed = false := by decide
theorem wf_issuer_core : (Instr.nop (.core 0 16)).wellFormed = false := by decide
theorem wf_channel : (Instr.atomicWriteback 192).wellFormed = false := by decide
theorem wf_eg : (Instr.tileDrain 128).wellFormed = false := by decide
theorem wf_te_entry : (Instr.teStep 0 4).wellFormed = false := by decide
theorem wf_core : (Instr.tlPost 127 16).wellFormed = false := by decide
theorem wf_ticket : (Instr.ticketCompletion 0 0 8).wellFormed = false := by decide
theorem wf_object : (Instr.soRead .sage 65536).wellFormed = false := by decide
theorem wf_collector : (Instr.completionDrain 3 48).wellFormed = false := by decide
theorem wf_part : (Instr.partitionDrained 8).wellFormed = false := by decide
theorem wf_job : (Instr.jobSave .sage 0 8).wellFormed = false := by decide
theorem wf_eg_job : (Instr.saveBegin 128 0).wellFormed = false := by decide
theorem wf_job_index : (Instr.cpJobWrite .sage 64 0#32).wellFormed = false := by decide
theorem wf_wheel_word : (Instr.cpWheelWrite .sage true 128 0#32).wellFormed = false := by decide
theorem wf_window : (Instr.memWindowWrite .sage .t2 8 0#32).wellFormed = false := by decide
theorem wf_mem_wheel : (Instr.memWheelWrite .sage 6912 0#32).wellFormed = false := by decide
theorem wf_controller : (Instr.memSlotStart 216).wellFormed = false := by decide
theorem wf_read_source : (Instr.memReadArrival 218 0 .clean).wellFormed = false := by decide
theorem wf_torus_port : (Instr.switchSlot 6).wellFormed = false := by decide
theorem wf_die : (Instr.ready 2).wellFormed = false := by decide
theorem wf_group : (Instr.groupEnable .sage 4096).wellFormed = false := by decide
theorem wf_field : (Instr.cpStatclr .sage 4).wellFormed = false := by decide
theorem wf_eth_port : (Instr.arpRequest 4).wellFormed = false := by decide
theorem wf_budget : (Instr.pwrBudgetWrite .sage 9 0#32).wellFormed = false := by decide
theorem wf_function : (Instr.flr 0 9).wellFormed = false := by decide
theorem wf_vf : (Instr.vfEnable 0 0 true).wellFormed = false := by decide
theorem wf_ring : (Instr.evheadWrite .sage 19 0#32).wellFormed = false := by decide
theorem wf_coder : (Instr.cmpStatclr .sage 130).wellFormed = false := by decide
theorem wf_failing : (Instr.bootSelftest (some 128)).wellFormed = false := by decide

/-! ## Witnesses: commands that issue -/

/-- No queue of a controller is full where no controller holds anything. -/
theorem queueFull_of_idle {s : State} (h : s.memc = []) (p a : Nat) : s.queueFull p a = false := by
  unfold State.queueFull
  cases controllerOf a with
  | none => rfl
  | some c => simp only [State.ctl, h]; rfl

/-- The premises of `Issues` for the command of queue 0, as a Bool. -/
def issues (s : State) (b : List Byte) (mine : List Byte → Bool) (check : State → Cmd → Verdict) : Bool :=
  let t := (put b s).settleBounds
  issuerOk (.queue 0) && t.nextOf (.queue 0) == some (dec b) && mine b && t.ready (.queue 0) (dec b) &&
    t.unitWait (.queue 0) (dec b) == none && !t.headerBad (.queue 0) b && t.guardVerdict (t.issuerPart (.queue 0)) b == .go &&
    check t (t.mkCmd (.queue 0) (dec b)) == .go && t.memc == []

theorem issues_spec {s b mine check} (h : issues s b mine check = true) : Issues (put b s) (.queue 0) (dec b) mine check := by
  simp only [issues, Bool.and_eq_true, beq_iff_eq, Bool.not_eq_true'] at h
  obtain ⟨⟨⟨⟨⟨⟨⟨⟨h1, h2⟩, h3⟩, h4⟩, h5⟩, h6⟩, h7⟩, h8⟩, h9⟩ := h
  exact ⟨h1, h2, rfl, h3, h4, h5, h6, h7, h8, fun a => queueFull_of_idle h9 _ a⟩

/-- A NOP. -/
def nopB : List Byte := cmd 0x00 32 []
/-- A BOUNDSET of the last bound register. -/
def boundB : List Byte := cmd 0x03 32 [(8, 255), (10, 1), (12, 7)]
/-- A SOWAIT on object 0, whose value 0 it does not find below 0. -/
def waitB : List Byte := cmd 0x02 32 [(10, 1)]
/-- A COPY of two rows of three bytes within T1. -/
def copyB : List Byte := cmd 0x08 80 [(16, 0), (24, 4096), (32, 3), (36, 2), (40, 8), (44, 3)]
/-- A DMA command on one element, by OP and XC. -/
def dmaB (op xc : Nat) : List Byte := cmd 0x08 80 [(24, 4096), (32, 2), (36, 1), (48, op), (50, b2n (decide (0 < xc))), (51, xc)]
/-- A collective of group 0. -/
def collB (op : Nat) : List Byte := cmd 0x42 96 [(30, op)]
/-- A MATMUL of one element. -/
def matB : List Byte := cmd 0x10 64 [(24, 4), (28, 1), (32, 1), (36, 1), (40, 1), (41, 1), (42, 1)]
/-- A CONV of one pixel and channel. -/
def convB : List Byte := cmd 0x28 128 ([(16, 65536), (24, 64), (28, 64), (32, 64), (36, 64), (44, 0x100000), (80, 1), (81, 1), (82, 2), (112, 1)] ++
  [50, 52, 54, 56, 58, 60, 61, 62, 63, 64, 65, 66, 67, 68].map (fun o => (o, 1)))
/-- An SFUOP on one element with function 9. -/
def sfuB (op : Nat) : List Byte :=
  cmd 0x18 96 [(16, if op = 1 then 64 else 0), (24, 4096), (32, 1), (36, 1), (40, 4), (44, 4), (48, op), (49, 9)]
/-- A POOL of one pixel and channel. -/
def poolB (op : Nat) : List Byte :=
  cmd 0x29 96 ([(16, 65536), (24, 64), (28, 64), (32, 64), (36, 64), (54, op), (64, 1), (80, 1)] ++
    [40, 42, 44, 46, 48, 49, 50, 51, 52, 53].map (fun o => (o, 1)))

/-- Slot 0 of engine group 0's coder holds a table for BF16. -/
def coded : State := { base with codeTab := [(0, [0x01#8])] }
/-- Group 0 is enabled, with two members. -/
def grouped : State := { set [(F.ceGrpstat_STATE, 0, 1)] base with groups := [(0, ⟨2, 0, 0, 0, 0, [0, 0x10], [], [], [], none, false⟩)] }
/-- A program of one instruction stands at address 0. -/
def programmed : State := base.store 0 (bytes 20 [(0, 1)])

theorem witness_NopAndBoundsetComplete_nop :
    Issues (put nopB base) (.queue 0) (dec nopB) (isOp 0x00) (fun _ _ => .go) ∧ ((put nopB base).settleBounds.issue (.queue 0) (dec nopB)).hasRequests (dec nopB).uid = false ∧
      (put nopB base).cp.inflight = [] := ⟨issues_spec (by decide +kernel), by decide +kernel, rfl⟩
theorem witness_NopAndBoundsetComplete_boundset :
    Issues (put boundB base) (.queue 0) (dec boundB) (isOp 0x03) boundsetCheck ∧ ((put boundB base).settleBounds.issue (.queue 0) (dec boundB)).hasRequests (dec boundB).uid = false ∧
      (put boundB base).cp.inflight = [] := ⟨issues_spec (by decide +kernel), by decide +kernel, rfl⟩
theorem witness_CpAndGuardCommandsRun_soop : Issues (put (cmd 0x01 32 [(10, 1)]) base) (.queue 0) (dec (cmd 0x01 32 [(10, 1)])) (isOp 0x01) State.soopCheck :=
  issues_spec (by decide +kernel)
theorem witness_SowaitHoldsItsQueue : Issues (put waitB base) (.queue 0) (dec waitB) (isOp 0x02) State.sowaitCheck ∧
    (put waitB base).waitSat (soObj waitB) (num waitB 10 1 % 4) (num waitB 12 4) = false :=
  ⟨issues_spec (by decide +kernel), by decide +kernel⟩
theorem witness_CpAndGuardCommandsRun_escalate :
    Issues (put (cmd 0x04 32 [(8, 4095), (10, 1)]) base) (.queue 0) (dec (cmd 0x04 32 [(8, 4095), (10, 1)])) (isOp 0x04) State.escalateCheck :=
  issues_spec (by decide +kernel)

theorem witness_DataAndClusterCommandsRun_dma :
    Issues (put copyB base) (.queue 0) (dec copyB) (isDma .copy) State.copyCheck ∧
    Issues (put (dmaB 1 0) base) (.queue 0) (dec (dmaB 1 0)) (isDma .convert) State.convertCheck ∧
    Issues (put (dmaB 2 0) base) (.queue 0) (dec (dmaB 2 0)) (isDma .add) State.atomicCheck ∧
    Issues (put (dmaB 3 0) base) (.queue 0) (dec (dmaB 3 0)) (isDma .max) State.atomicCheck ∧
    Issues (put (dmaB 4 0) base) (.queue 0) (dec (dmaB 4 0)) (isDma .min) State.atomicCheck :=
  ⟨issues_spec (by decide +kernel), issues_spec (by decide +kernel), issues_spec (by decide +kernel), issues_spec (by decide +kernel),
    issues_spec (by decide +kernel)⟩
theorem witness_DataAndClusterCommandsRun_coder :
    Issues (put (dmaB 0 1) coded) (.queue 0) (dec (dmaB 0 1)) (isDma .encode) State.encodeCheck ∧
    Issues (put (dmaB 0 2) coded) (.queue 0) (dec (dmaB 0 2)) (isDma .decode) State.decodeCheck ∧
    Issues (put (dmaB 0 3) coded) (.queue 0) (dec (dmaB 0 3)) (isDma .build) State.buildCheck ∧
    Issues (put (dmaB 0 35) coded) (.queue 0) (dec (dmaB 0 35)) (isDma .load) State.loadCheck ∧
    (put (dmaB 0 35) coded).loadHeld (.queue 0) = false :=
  ⟨issues_spec (by decide +kernel), issues_spec (by decide +kernel), issues_spec (by decide +kernel), issues_spec (by decide +kernel),
    by decide +kernel⟩
/-- A SENTINEL on one element. -/
def sentB : List Byte := cmd 0x12 64 [(36, 1), (40, 1), (44, 1), (48, 1), (49, 1), (52, 1)]
/-- An UPDATE of one element. -/
def updB : List Byte := cmd 0x50 112 [(8, 4096), (16, 8192), (68, 1), (80, 1)]
theorem witness_DataAndClusterCommandsRun_cluster :
    Issues (put sentB base) (.queue 0) (dec sentB) (isOp 0x12) State.sentinelCheck ∧
    Issues (put (cmd 0x30 32 [(12, 1)]) base) (.queue 0) (dec (cmd 0x30 32 [(12, 1)])) (isOp 0x30) clrunCheck ∧
    Issues (put updB programmed) (.queue 0) (dec updB) (isOp 0x50) State.updateCheck :=
  ⟨issues_spec (by decide +kernel), issues_spec (by decide +kernel), issues_spec (by decide +kernel)⟩
/-- A SEND of one byte to the device at x = 1. -/
def sendB : List Byte := cmd 0x40 64 [(16, 0x8100000000000000), (24, 1), (28, 1)]
/-- A QSEND of one element, in E4M3, to the device at x = 1. -/
def qsendB : List Byte := cmd 0x41 80 [(16, 0x8100000000000000), (24, 1), (28, 1), (48, 0x803)]
theorem witness_DataAndClusterCommandsRun_send :
    Issues (put sendB base) (.queue 0) (dec sendB) (isOp 0x40) State.sendCheck ∧
    Issues (put qsendB base) (.queue 0) (dec qsendB) (isOp 0x41) State.sendCheck ∧
    Issues (put (cmd 0x43 32 []) grouped) (.queue 0) (dec (cmd 0x43 32 [])) (isOp 0x43) State.grpabortCheck :=
  ⟨issues_spec (by decide +kernel), issues_spec (by decide +kernel), issues_spec (by decide +kernel)⟩
theorem witness_DataAndClusterCommandsRun_collectives : ∀ op, op < 8 →
    Issues (put (collB op) grouped) (.queue 0) (dec (collB op)) (isColl op) State.collCheck ∧ (put (collB op) grouped).collFull (.queue 0) = false :=
  fun op h => ⟨issues_spec ((by decide +kernel : ∀ op, op < 8 → issues grouped (collB op) (isColl op) State.collCheck = true) op h),
    (by decide +kernel : ∀ op, op < 8 → (put (collB op) grouped).collFull (.queue 0) = false) op h⟩

/-- A TLOAD of one element. -/
def tloadB : List Byte := cmd 0x11 64 [(24, 1), (28, 1), (32, 1)]
/-- An ATTN of one row. -/
def attnB : List Byte := cmd 0x22 128 [(20, 1), (48, 65536), (64, 131072), (73, 1)]
theorem witness_EngineGroupCommandsRun_te :
    Issues (put matB base) (.queue 0) (dec matB) (isOp 0x10) State.matmulCheck ∧
    Issues (put tloadB base) (.queue 0) (dec tloadB) (isOp 0x11) State.tloadCheck ∧
    Issues (put convB base) (.queue 0) (dec convB) (isOp 0x28) State.convCheck ∧
    Issues (put attnB base) (.queue 0) (dec attnB) (isOp 0x22) State.attnCheck ∧
    (put attnB base).flipWaits ((put attnB base).cmdEg (.queue 0) attnB) = false :=
  ⟨issues_spec (by decide +kernel), issues_spec (by decide +kernel), issues_spec (by decide +kernel), issues_spec (by decide +kernel),
    by decide +kernel⟩
theorem witness_EngineGroupCommandsRun_sfu : ∀ op, op < 5 →
    Issues (put (sfuB op) base) (.queue 0) (dec (sfuB op)) (isSfu op) State.sfuCheck ∧
      (put (sfuB op) base).flipWaits ((put (sfuB op) base).cmdEg (.queue 0) (sfuB op)) = false :=
  fun op h => ⟨issues_spec ((by decide +kernel : ∀ op, op < 5 → issues base (sfuB op) (isSfu op) State.sfuCheck = true) op h),
    (by decide +kernel : ∀ op, op < 5 → (put (sfuB op) base).flipWaits ((put (sfuB op) base).cmdEg (.queue 0) (sfuB op)) = false) op h⟩
/-- A TBLLOAD of slot 0. -/
def tblB : List Byte := cmd 0x18 96 [(32, 1), (36, 1), (48, 5)]
theorem witness_EngineGroupCommandsRun_tblload :
    Issues (put tblB base) (.queue 0) (dec tblB) (isSfu 5) State.tblloadCheck ∧
    (let s := put tblB base
     (s.attnOpen (s.cmdEg (.queue 0) tblB) && s.sfuPending (s.cmdEg (.queue 0) tblB) (Sfuop.of tblB).slot) = false) :=
  ⟨issues_spec (by decide +kernel), by decide +kernel⟩
/-- A PATGEN of one patch. -/
def patB : List Byte := cmd 0x20 64 [(28, 1), (30, 1), (34, 1), (39, 1), (41, 1)]
/-- An APPEND of one row, direct (0) or staged (4). -/
def appB (ctl : Nat) : List Byte := cmd 0x21 80 [(40, 1), (67, 1), (68, ctl), (70, 1)]
theorem witness_EngineGroupCommandsRun_wag :
    Issues (put patB base) (.queue 0) (dec patB) (isOp 0x20) State.patgenCheck ∧
    Issues (put (appB 0) base) (.queue 0) (dec (appB 0)) (isAppend false) State.appendCheck ∧
    Issues (put (appB 4) base) (.queue 0) (dec (appB 4)) (isAppend true) State.appendCheck :=
  ⟨issues_spec (by decide +kernel), issues_spec (by decide +kernel), issues_spec (by decide +kernel)⟩
theorem witness_EngineGroupCommandsRun_pool : ∀ op, op < 4 →
    Issues (put (poolB op) base) (.queue 0) (dec (poolB op)) (isPool op) State.poolCheck :=
  fun op h => issues_spec ((by decide +kernel : ∀ op, op < 4 → issues base (poolB op) (isPool op) State.poolCheck = true) op h)

theorem witness_CopyMovesTheRows :
    let s := put copyB base
    let d := dec copyB
    Issues s (.queue 0) d (isDma .copy) State.copyCheck ∧ s.bad = [] ∧ (Dma.of d.bytes).gather = false ∧ (Dma.of d.bytes).scatter = false ∧
      (s.dmaBounds (s.mkCmd (.queue 0) d)).1.get = 3 ∧ (s.dmaBounds (s.mkCmd (.queue 0) d)).2.get = 2 ∧
      (∀ q, q < 2 → ∀ r, r < 2 → overlaps ((Dma.of d.bytes).src + q * (Dma.of d.bytes).srcLd) 3
        ((Dma.of d.bytes).dst + r * (Dma.of d.bytes).dstLd) 3 = false) ∧
      3 ≤ (Dma.of d.bytes).dstLd ∧ (∀ k, k < span 2 (Dma.of d.bytes).srcLd 3 → OnDevice ((Dma.of d.bytes).src + k)) := by
  refine ⟨issues_spec (by decide +kernel), rfl, by decide +kernel, by decide +kernel, by decide +kernel, by decide +kernel,
    by decide +kernel, by decide +kernel, fun k hk d => ?_⟩
  have h : (∀ k, k < span 2 (Dma.of copyB).srcLd 3 → region ((Dma.of copyB).src + k) = some .t1) := by decide +kernel
  exact fun x => by have e := (h k hk).symm.trans x; cases e

theorem witness_CommandsThatMayNotIssueWait :
    issuerOk (.queue 0) = true ∧ (put nopB base).nextOf (.queue 0) = some (dec nopB) ∧ isOp 0x01 nopB = false ∧
    (put nopB State.reset).season ((put nopB State.reset).issuerPart (.queue 0)) ≠ summer ∧
    (let s := put nopB (set [(F.cpWheel_JOBA, 0, 7)] base)
     s.egPart (s.cmdEg (.queue 0) nopB) = some (s.issuerPart (.queue 0)) ∧
       s.wheelJob (s.cmdEg (.queue 0) nopB) ≠ some (s.issuerJob (.queue 0) (dec nopB))) ∧
    (let s : State := { base with cycle := 7, cp := { base.cp with bsets := [(8, 5, 1#32)] } }
     ∀ x ∈ s.cp.bsets, s.cycle < x.1) := by decide +kernel

theorem witness_SowaitSatisfied :
    let c := base.mkCmd (.queue 0) (dec waitB)
    let s : State := { base with cp := { base.cp with holds := [⟨c, 0, 0, 0, some 9, 0⟩] } }
    issuerOk (.queue 0) = true ∧ s.cp.holds.find? (fun x => x.cmd.issuer == .queue 0 && x.sat.isSome) = some ⟨c, 0, 0, 0, some 9, 0⟩ := by
  decide +kernel

theorem witness_MalformedCommandHaltsItsQueue :
    (let b := cmd 0x00 48 []
     let s := put b base
     s.nextOf (.queue 0) = some (dec b) ∧ s.ready (.queue 0) (dec b) = true ∧ s.unitWait (.queue 0) (dec b) = none ∧
       isOp 0x00 b = true ∧ s.headerBad (.queue 0) b = true) ∧
    (let b := cmd 0x01 32 [(8, 65535), (10, 255)]
     let s := put b base
     s.nextOf (.queue 0) = some (dec b) ∧ s.ready (.queue 0) (dec b) = true ∧ s.unitWait (.queue 0) (dec b) = none ∧
       isOp 0x01 b = true ∧ s.objOpOk (soObj b) (num b 10 1) = false) ∧
    (let b := cmd 0x01 32 [(8, 65535), (10, 1)]
     let s := put b (set [(F.syncCfg_PART, 65535, 7)] base)
     s.nextOf (.queue 0) = some (dec b) ∧ s.ready (.queue 0) (dec b) = true ∧ s.unitWait (.queue 0) (dec b) = none ∧
       isOp 0x01 b = true ∧ s.objPart (soObj b) ≠ s.qPart 0) := by decide +kernel

/-! ## Witnesses: registers, memory and events -/

theorem mapped_of {n i} (h : mapRows.any (fun r => decide (r.reg = n ∧ r.first ≤ i ∧ i < r.first + r.count)) = true) : Mapped n i := by
  simp only [List.any_eq_true, decide_eq_true_eq] at h
  exact h

theorem onDevice_of {a} (h : region a = some .t1 ∨ region a = some .ms) : OnDevice a := by
  intro d
  rcases h with h | h <;> rw [h] <;> simp

theorem witness_ResetHoldsTheResetValues : Mapped .qCfg 0 ∧ Mapped .qCfg 32767 ∧ Mapped .memWheel 6911 ∧ OnDevice 0 ∧ OnDevice (432 * gib - 1) :=
  ⟨mapped_of (by decide +kernel), mapped_of (by decide +kernel), mapped_of (by decide +kernel), onDevice_of (by decide +kernel),
    onDevice_of (by decide +kernel)⟩

theorem witness_EveryStepKeepsTheCanonicalForm : State.reset.Canonical ∧ ∃ t, step { State.reset with pending := [.bootRom] } = .next t :=
  ⟨⟨rfl, rfl⟩, _, rfl⟩

theorem witness_NoCommandChangesTheFusedValues : ∃ t, Runs (.sageWatchdog) State.reset t := ⟨_, rfl⟩

theorem witness_StoredBytesReadBack : OnDevice 4096 ∧ granuleLen 4096 ≤ 4096 := ⟨onDevice_of (by decide +kernel), by decide +kernel⟩

/-- The event ring of function 17, at address 0, is enabled. -/
def ring17 : State := set [(F.sysEvcfg_EN, 17, 1), (F.sysEvidx_EVTAIL, 17, 65535), (F.sysEvidx_EVHEAD, 17, 65535)] base

theorem witness_RingTakesARecord :
    ring17.flag F.sysEvcfg_EN 17 = true ∧ ring17.ringPlaced 17 = true ∧ (List.replicate 32 0x00#8).length = 32 ∧
    (65535 + 65536 - ring17.fld F.sysEvidx_EVHEAD 17) % 65536 ≠ ring17.ringCap 17 ∧
    (let s := set [(F.sysEvidx_EVTAIL, 17, 63)] ring17
     s.flag F.sysEvcfg_EN 17 = true ∧ s.ringPlaced 17 = true ∧ s.ringCap 17 = 64 ∧
       (s.fld F.sysEvidx_EVTAIL 17 + 65536 - s.fld F.sysEvidx_EVHEAD 17) % 65536 = 64) := by decide +kernel

theorem witness_RegisterWritesActByAccessType :
    Mapped .cpJdeadline 63 ∧ PlainReg .cpJdeadline = true ∧ Permits State.reset .sage .cpJdeadline 63 ∧
    Permits State.reset .sage .wagStat 127 :=
  ⟨mapped_of (by decide +kernel), by decide +kernel, by decide +kernel, by decide +kernel⟩

theorem witness_ReadOfLowHalfCapturesHighHalf :
    RegName.hiOf .qRingbaseLo = some .qRingbaseHi ∧ Mapped .qRingbaseLo 32767 ∧ State.reset.hostServed (.pf 1) = true ∧
      State.reset.mayRead (.pf 1) .qRingbaseLo 32767 = true ∧ State.reset.mayRead (.pf 1) .qRingbaseHi 32767 = true :=
  ⟨rfl, mapped_of (by decide +kernel), by decide +kernel, by decide +kernel, by decide +kernel⟩

theorem witness_RefusedWritesOnlyCount :
    Writes (.pwrCapWrite (.pf 1) 0#32) (.pf 1) .pwrCap 0 ∧ (Instr.pwrCapWrite (.pf 1) 0#32).wellFormed = true ∧
      ¬ Permits State.reset (.pf 1) .pwrCap 0 ∧ Requester.isHost (.pf 1) = true ∧ Requester.port (.pf 1) < 2 ∧
    Writes (.pwrCapWrite (.core 127 15) 0#32) (.core 127 15) .pwrCap 0 ∧ ¬ Permits State.reset (.core 127 15) .pwrCap 0 ∧
      Requester.isHost (.core 127 15) = false :=
  ⟨.pwrCapWrite, by decide, by decide +kernel, by decide, by decide, .pwrCapWrite, by decide +kernel, by decide⟩

/-! ## Witnesses: queues, objects and completions -/

/-- Queue 32767 of partition 0 with a NOP at its ring's base, address 65536; the two units are published. -/
def ring32767 : State :=
  let s := set [(F.qCfg_ENABLE, 32767, 1), (F.qStat_STATE, 32767, 1)] base
  (((s.setReg .qRingbaseLo 32767 65536#32).setReg .qCmpbaseLo 32767 131072#32).setQueue 32767 ⟨2, 0, 0, none, false, none, false⟩).store 65536 nopB

theorem witness_CpDecodeTakesThePublishedCommand :
    let s := ring32767
    let h := s.ringRead 32767 (s.queue 32767).dec 1
    s.flag F.qCfg_ENABLE 32767 = true ∧ s.fld F.qStat_STATE 32767 = 1 ∧ (s.window (s.qField 32767)).length < 64 ∧ hdrLen h = 2 ∧
      opBytes (hdrOpcode h) = some (16 * (hdrLen h - b2n (hdrRes h))) ∧ 0 < hdrLen h - b2n (hdrRes h) ∧ hdrLen h ≤ s.undecoded 32767 ∧
      s.ringBad 32767 0 1 = none ∧ s.ringBad 32767 0 2 = none ∧ s.firstOf 32767 = none ∧
      s.queueFull (s.qPart 32767) (s.ringAddr 32767 0) = false := by decide +kernel

theorem witness_IssuingPassesTheCommand : (put nopB base).ringUnits 0 ≤ 2 ^ 20 := by decide +kernel

/-- Object 65535 is a work counter. -/
def counter : State := set [(F.syncCfg_MODE, 65535, 1)] State.reset

theorem witness_ObjectOperationsChangeTheObject :
    State.reset.hostServed .sage = true ∧ State.reset.actsFor .sage (State.reset.objPart 65535) = true ∧ State.reset.objCounter 65535 = false ∧
    counter.hostServed .sage = true ∧ counter.actsFor .sage (counter.objPart 65535) = true ∧ counter.objCounter 65535 = true := by
  decide +kernel
theorem witness_CounterResetStartsAGeneration :
    counter.hostServed (.pf 0) = true ∧ counter.actsFor (.pf 0) (counter.objPart 65535) = true ∧ counter.objCounter 65535 = true := by
  decide +kernel
theorem witness_MismatchedObjectOperationHasNoEffect :
    Requester.isHost (.vf 0 1) = true ∧ State.reset.actsFor (.vf 0 1) (State.reset.objPart 65535) = false ∧
    Requester.svcOrSage .sage = true ∧ counter.objCounter 65535 = true ∧ State.reset.objCounter 65535 = false := by decide +kernel

/-- A completion of a NOP of queue 32767, with a status. -/
def done (st : Byte) : Completion := ⟨ring32767.mkCmd (.queue 32767) (dec nopB), Result.mk0 st 8, 8⟩

theorem witness_DrainWritesTheCompletionRecord :
    let s := set [(F.qCfg_CMPALL, 32767, 1)] (ring32767.setEntry 3 47 [done St.ok])
    let full := set [(F.qCmpidx_CTAIL, 32767, 32)] s
    earliest (s.entry 3 47) = some (done St.ok) ∧ (done St.ok).cmd.issuer = .queue 32767 ∧ hdrIrq (done St.ok).cmd.bytes = false ∧
      hdrCen (done St.ok).cmd.bytes = false ∧ s.flag F.qCfg_CMPALL 32767 = true ∧ s.flag F.qCfg_HALTERR 32767 = false ∧ s.cmpOk 32767 = true ∧
      (s.fld F.qCmpidx_CTAIL 32767 + 65536 - s.fld F.qCmpidx_CHEAD 32767) % 65536 ≠ s.cmpCap 32767 ∧
      earliest (full.entry 3 47) = some (done St.ok) ∧ full.cmpOk 32767 = true ∧ full.flag F.qCfg_CMPALL 32767 = true ∧
      (full.fld F.qCmpidx_CTAIL 32767 + 65536 - full.fld F.qCmpidx_CHEAD 32767) % 65536 = full.cmpCap 32767 := by decide +kernel
theorem witness_DoorbellsPublishOrAreRefused :
    let s := ring32767
    let good := fun (tail : Nat) => s.flag F.qCfg_ENABLE 32767 = true ∧ s.season (s.qPart 32767) ≠ winter ∧ s.season (s.qPart 32767) ≠ autumn ∧
      tail < s.ringUnits 32767 ∧ ((s.queue 32767).tail + s.ringUnits 32767 - 0) % s.ringUnits 32767 ≤ (tail + s.ringUnits 32767 - 0) % s.ringUnits 32767
    s.hostServed (.pf 0) = true ∧ s.actsFor (.pf 0) (s.qPart 32767) = true ∧ s.fld F.qStat_HEAD 32767 = 0 ∧ good 255 ∧ good 2 ∧ ¬ good 256 ∧ ¬ good 1 ∧
      s.hostServed (.vf 0 1) = false := by decide +kernel
theorem witness_EnablingAQueueChecksItsRings :
    let s := State.reset
    let v : Word := 0x200#32
    let w : Word := 0x20F#32
    Permits base (.pf 0) .qCfg 32767 ∧ base.flag F.qCfg_ENABLE 32767 = false ∧ v.getLsbD 9 = true ∧
      (base.qCfgFields (.pf 0) 32767 v).ringOk 32767 = true ∧ (base.qCfgFields (.pf 0) 32767 v).cmpOk 32767 = true ∧
    Permits s (.pf 0) .qCfg 32767 ∧ s.flag F.qCfg_ENABLE 32767 = false ∧ w.getLsbD 9 = true ∧
      (s.qCfgFields (.pf 0) 32767 w).ringOk 32767 = false := by decide +kernel

/-- Queue 32767 halts on errors, and a completion with ECC_UNCORRECTED waits. -/
def erring : State := set [(F.qCfg_HALTERR, 32767, 1)] ({ ring32767 with cycle := 8 }.setEntry 3 47 [done St.ecc])
theorem witness_ResumeAndSkipRestartAHaltedQueue :
    erring.flag F.qCfg_HALTERR 32767 = true ∧ done St.ecc ∈ erring.entry 3 47 ∧ (done St.ecc).cmd.issuer = .queue 32767 ∧
      (done St.ecc).posted ≤ erring.cycle ∧ 0x10 ≤ (done St.ecc).final.toNat ∧ earliest (erring.entry 3 47) = some (done St.ecc) ∧
      erring.fld F.qStat_STATE 32767 = 1 ∧
    (let s := set [(F.qStat_STATE, 32767, 2)] ring32767
     Permits s (.pf 0) .qCtrl 32767 ∧ s.fld F.qStat_STATE 32767 = 2 ∧ s.ringUnits 32767 ≤ 2 ^ 20) := by decide +kernel
theorem witness_QueueIndexWatchAndObjectConfig :
    Permits base (.pf 0) .qCmpidx 32767 ∧
    (∀ x ∈ [(some 5, some 4, 2, 4), (some 5, some 6, 1, 5)],
     let s := (base.setQueue 32767 ⟨0, 0, 0, x.1, false, x.2.1, false⟩).setReg .cpWatch 0 1#32
     (s.queue 32767).nextWatch = some (x.2.2.2, x.2.2.1) ∧ s.reg .cpWatch (s.qPart 32767) ≠ 0#32) ∧
    Permits base (.pf 0) .syncCfg 65535 ∧ isVf (.pf 0) = false := by decide +kernel

/-! ## Witnesses: tensor engines and cores -/

/-- A MATMUL as a TE command. -/
def teCmd : TeCmd :=
  ⟨base.mkCmd (.queue 0) (dec matB), 1, 1, 1, 0, 0, [], [], 0, 0, 0, [], [], [], 0, 0, 0, [], [], [], false, false, []⟩
/-- A MATMUL waits for slots on engine group 127; the other entries of the tensor engine hold what is given. -/
def teState (flight : List TeCmd) : State := set [(F.cpJob_SLOTS, 0, 4)] { base with te := [(127, ⟨[teCmd], flight, [], 0, 0⟩)] }

theorem witness_TensorEngineEventsRun :
    ((teState []).teOf 127).waiting.find? (fun t => (teState []).jobRuns t.cmd.part t.cmd.job && (t.asks ((teState []).slotsFor 127 t.cmd)).isSome) = some teCmd ∧
      teCmd.asks ((teState []).slotsFor 127 teCmd.cmd) = some 1 ∧
    (let a : TeCmd := { teCmd with cmd := base.mkCmd (.queue 0) (dec attnB) }
     let s := teState [teCmd, teCmd, teCmd, a]
     (s.teNow 127).flight[3]? = some a ∧ s.jobRuns a.cmd.part a.cmd.job = true ∧ hdrOpcode a.cmd.bytes = 0x22 ∧ a.ended = false ∧
     (s.teNow 127).flight[0]? = some teCmd ∧ s.jobRuns teCmd.cmd.part teCmd.cmd.job = true ∧ hdrOpcode teCmd.cmd.bytes ≠ 0x22 ∧ teCmd.ended = false ∧
     (let u := set [(F.cpJstat_STATE, 0, 2)] s
      (u.teNow 127).flight[0]? = some teCmd ∧ u.jobRuns teCmd.cmd.part teCmd.cmd.job = false)) ∧
    (let d : TeCmd := { teCmd with drains := [⟨0, 0, 3, 40⟩] }
     ((teState [d]).teOf 127).nextDrain = some (d, ⟨0, 0, 3, 40⟩)) := by decide +kernel

/-- What core 0 of engine group 0 fetches next: word, length, issue cycle and the core as it then is. -/
def fetched (s : State) : Option (Nat × Nat × Nat × Core) :=
  match s.fetch 0 0 (s.coreOf 0 0) with
  | .ok w len t k1 => some (w, len, k1.issueAt w t, { k1 with at_ := k1.issueAt w t, paid := k1.issueAt w t + 1 })
  | _ => none

/-- Whether core 0 issues a row's instruction for which `p` holds. -/
def coreCheck (s : State) (mine : Nat → Bool) (p : Nat → Nat → Core → Bool) : Bool :=
  (s.coreOf 0 0).running && (s.coreOf 0 0).wait == .none &&
    (match fetched s with | some (w, _, u, k) => mine w && p w u k | none => false)

theorem coreCheck_spec {s mine p} (h : coreCheck s mine p = true) : ∃ w len u k, CoreIssues s 0 0 mine w len u k ∧ p w u k = true := by
  unfold coreCheck fetched at h
  cases e : s.fetch 0 0 (s.coreOf 0 0) with
  | ok w len t k1 =>
    simp only [e, Bool.and_eq_true, beq_iff_eq] at h
    exact ⟨w, len, _, _, ⟨⟨by decide, by decide⟩, h.1.1, h.1.2, h.2.1, t, k1, e, rfl, rfl⟩, h.2.2⟩
  | _ => simp [e] at h

/-- Core 0 of engine group 0 is about to run one word, with x1 and x2 as given. -/
def coreState (s : State) (w : Nat) (x1 x2 : BitVec 64) : State :=
  { s with cores := [(0, { Core.reset with running := true, pc := coreSram, x := (if x1 = 0#64 then [] else [(1, x1)]) ++ (if x2 = 0#64 then [] else [(2, x2)]) })] }.store
    (cluAddr 0 coreSram) (leBytes 4 w)

/-- A word of the tile extension with rd = x3, rs1 = x1 and rs2 = x2 (R219). -/
def tileW (f3 f7 : Nat) : Nat := 0x0B + 3 * 2 ^ 7 + f3 * 2 ^ 12 + 1 * 2 ^ 15 + 2 * 2 ^ 20 + f7 * 2 ^ 25

theorem witness_CoresRunAndPost_instruction : ∃ w len u k, CoreIssues (coreState base 0x00100093 0#64 0#64) 0 0 (fun w => !anyTile w) w len u k := by
  obtain ⟨w, len, u, k, h, -⟩ := coreCheck_spec (p := fun _ _ _ => true) (by decide +kernel :
    coreCheck (coreState base 0x00100093 0#64 0#64) (fun w => !anyTile w) (fun _ _ _ => true) = true)
  exact ⟨w, len, u, k, h⟩
theorem witness_CoresRunAndPost_post : ∃ w len u k, CoreIssues (coreState base (tileW 0 0) (BitVec.ofNat 64 (coreSram + 64)) 128#64) 0 0 (isTile 0 0) w len u k ∧
    decide ((k.rx (rvRs2 w)).toNat = 128 ∧ inCoreSram 0 (k.rx (rvRs1 w)).toNat 128 = true ∧
      ((coreState base (tileW 0 0) (BitVec.ofNat 64 (coreSram + 64)) 128#64).coreStart 0 0 u k).badIn (cluAddr 0 (k.rx (rvRs1 w)).toNat) 128 = none) = true :=
  coreCheck_spec (by decide +kernel)
theorem witness_CoresRunAndPost_dma : ∃ w len u k, CoreIssues (coreState base (tileW 0 1) (BitVec.ofNat 64 (coreSram + 64)) 0#64) 0 0 (isTile 0 1) w len u k ∧
    decide (inCoreSram 0 (k.rx (rvRs1 w)).toNat 64 = true ∧
      ((coreState base (tileW 0 1) (BitVec.ofNat 64 (coreSram + 64)) 0#64).coreStart 0 0 u k).badIn (cluAddr 0 (k.rx (rvRs1 w)).toNat) 64 = none) = true :=
  coreCheck_spec (by decide +kernel)

/-- Core 15 of engine group 127 holds ticket 7, which has ended with a status, and waits as given. -/
def ticketed (w : CoreWait) : State :=
  { base with cores := [(2047, { Core.reset with wait := w, next := 7, tickets := List.replicate 7 Ticket.reset ++ [⟨true, some 0x11#8, 0x00#8⟩] })] }
theorem witness_PostedCommandsTakeTickets :
    Core.reset.tickets[Core.reset.next]? = some Ticket.reset ∧ Ticket.reset.busy = false ∧
    ((ticketed .none).coreOf 127 15).tickets[((ticketed .none).coreOf 127 15).next]? = some ⟨true, some 0x11#8, 0x00#8⟩ ∧
    ((ticketed (.ticket 7 31)).coreOf 127 15).tickets[7]? = some ⟨true, some 0x11#8, 0x00#8⟩ ∧
    ((ticketed (.ticket 7 31)).coreOf 127 15).wait = .ticket 7 31 := by decide +kernel

/-- A state whose ticket 1 is outstanding at core 0. -/
def withTicket (s : State) : State :=
  s.setCore 0 0 { s.coreOf 0 0 with tickets := [Ticket.reset, ⟨true, none, 0x00#8⟩] ++ List.replicate 6 Ticket.reset }
theorem witness_CoresWaitAndEnd_tickets :
    (∃ w len u k, CoreIssues (withTicket (coreState base (tileW 0 2) 1#64 0#64)) 0 0 (isTile 0 2) w len u k ∧ k.ticketBusy (k.rx (rvRs1 w)).toNat = true) ∧
    (∃ w len u k, CoreIssues (coreState base (tileW 0 2) 7#64 0#64) 0 0 (isTile 0 2) w len u k ∧ (!k.ticketBusy (k.rx (rvRs1 w)).toNat) = true) ∧
    (∃ w len u k, CoreIssues (withTicket (coreState base (tileW 0 3) 1#64 0#64)) 0 0 (isTile 0 3) w len u k ∧ k.ticketBusy (k.rx (rvRs1 w)).toNat = true) ∧
    (∃ w len u k, CoreIssues (coreState base (tileW 0 3) 8#64 0#64) 0 0 (isTile 0 3) w len u k ∧ (!k.ticketBusy (k.rx (rvRs1 w)).toNat) = true) :=
  ⟨coreCheck_spec (p := fun w _ k => k.ticketBusy (k.rx (rvRs1 w)).toNat) (by decide +kernel),
   coreCheck_spec (p := fun w _ k => !k.ticketBusy (k.rx (rvRs1 w)).toNat) (by decide +kernel),
   coreCheck_spec (p := fun w _ k => k.ticketBusy (k.rx (rvRs1 w)).toNat) (by decide +kernel),
   coreCheck_spec (p := fun w _ k => !k.ticketBusy (k.rx (rvRs1 w)).toNat) (by decide +kernel)⟩
theorem witness_CoresWaitAndEnd_end : ∃ w len u k, CoreIssues (coreState base (tileW 0 4) 0x17#64 0#64) 0 0 (isTile 0 4) w len u k ∧
    statusDefined ((k.rx (rvRs1 w)).setWidth 8) = true := coreCheck_spec (p := fun w _ k => statusDefined ((k.rx (rvRs1 w)).setWidth 8)) (by decide +kernel)

/-- What SO.OP and SO.WAIT ask of the object of core 0. -/
def objFor (s : State) (u : Nat) (k : Core) (w : Nat) (p : State → Nat → Bool) : Bool :=
  let r := s.coreStart 0 0 u k
  r.actsFor (.core 0 0) (r.objPart (soObjOf k w)) && p r (soObjOf k w)
theorem witness_CoresWaitAndEnd_objects :
    (∃ w len u k, CoreIssues (coreState base (tileW 1 0) 0xFFFF#64 2#64) 0 0 (isTile 1 0) w len u k ∧
      objFor (coreState base (tileW 1 0) 0xFFFF#64 2#64) u k w (fun r o => r.objOpOk o ((k.rx (rvRs2 w)).toNat % 256)) = true) ∧
    (∃ w len u k, CoreIssues (coreState base (tileW 1 1) 0xFFFF#64 2#64) 0 0 (isTile 1 1) w len u k ∧
      objFor (coreState base (tileW 1 1) 0xFFFF#64 2#64) u k w (fun r o => !r.objCounter o && r.waitSat o (bits (k.rx (rvRs1 w)).toNat 16 2) ((k.rx (rvRs1 w)).toNat / 2 ^ 32)) = true) ∧
    (∃ w len u k, CoreIssues (coreState base (tileW 1 1) 0x1FFFF#64 2#64) 0 0 (isTile 1 1) w len u k ∧
      objFor (coreState base (tileW 1 1) 0x1FFFF#64 2#64) u k w (fun r o => !r.objCounter o && !r.waitSat o (bits (k.rx (rvRs1 w)).toNat 16 2) ((k.rx (rvRs1 w)).toNat / 2 ^ 32)) = true) ∧
    ((ticketed (.obj 65535 3 0 31 5 1)).coreOf 127 15).wait = .obj 65535 3 0 31 5 1 :=
  ⟨coreCheck_spec (p := fun w u k => objFor (coreState base (tileW 1 0) 0xFFFF#64 2#64) u k w (fun r o => r.objOpOk o ((k.rx (rvRs2 w)).toNat % 256))) (by decide +kernel),
   coreCheck_spec (p := fun w u k => objFor (coreState base (tileW 1 1) 0xFFFF#64 2#64) u k w
     (fun r o => !r.objCounter o && r.waitSat o (bits (k.rx (rvRs1 w)).toNat 16 2) ((k.rx (rvRs1 w)).toNat / 2 ^ 32))) (by decide +kernel),
   coreCheck_spec (p := fun w u k => objFor (coreState base (tileW 1 1) 0x1FFFF#64 2#64) u k w
     (fun r o => !r.objCounter o && !r.waitSat o (bits (k.rx (rvRs1 w)).toNat 16 2) ((k.rx (rvRs1 w)).toNat / 2 ^ 32))) (by decide +kernel),
   by decide +kernel⟩

/-- Object 65535 is a work counter of generation 1 with LIMIT 5 and NEXT as given. -/
def claimed (next : Nat) : State := (set [(F.syncCfg_MODE, 65535, 1), (F.syncCfg_GEN, 65535, 1)] (base.setReg .syncObj 65535 (BitVec.ofNat 32 next))).setObjLimit 65535 5#32
theorem witness_ClaimsGrantDisjointIndices :
    (∀ next gen, next ∈ [4, 5] → gen ∈ [0, 1] → ∃ w len u k, CoreIssues (coreState (claimed next) (tileW 1 2) (BitVec.ofNat 64 (65535 + gen * 65536)) 0xFFFF#64) 0 0 (isTile 1 2) w len u k ∧
      (soObjOf k w == 65535 && (k.rx (rvRs2 w)).toNat % 65536 != 0 && bits (k.rx (rvRs1 w)).toNat 16 16 == gen) = true) ∧
    (claimed 4).actsFor (.core 0 0) ((claimed 4).objPart 65535) = true ∧ (claimed 4).objCounter 65535 = true ∧ (claimed 4).fld F.syncCfg_GEN 65535 = 1 ∧
    ((claimed 4).reg .syncObj 65535).toNat < (claimed 4).objLimit 65535 ∧ (claimed 5).objLimit 65535 ≤ ((claimed 5).reg .syncObj 65535).toNat :=
  ⟨fun next gen h1 h2 => coreCheck_spec (p := fun w _ k => soObjOf k w == 65535 && (k.rx (rvRs2 w)).toNat % 65536 != 0 && bits (k.rx (rvRs1 w)).toNat 16 16 == gen)
      ((by decide +kernel : ∀ next ∈ [4, 5], ∀ gen ∈ [0, 1], coreCheck (coreState (claimed next) (tileW 1 2) (BitVec.ofNat 64 (65535 + gen * 65536)) 0xFFFF#64)
        (isTile 1 2) (fun w _ k => soObjOf k w == 65535 && (k.rx (rvRs2 w)).toNat % 65536 != 0 && bits (k.rx (rvRs1 w)).toNat 16 16 == gen) = true) next h1 gen h2),
    by decide +kernel⟩
/-- A burst in E4M3 of zeros with a good CRC, at 64 bytes into cluster SRAM, which core 0 is about to load. -/
def burstState : State :=
  let b := bytes 2045 [(2040, 0xFFFFFFFF), (2044, 3)]
  (coreState base (tileW 2 0) (BitVec.ofNat 64 (coreSram + 64)) 3#64).store (cluAddr 0 (coreSram + 64)) (b ++ leBytes 3 (crc24 b))
set_option maxRecDepth 100000 in
theorem witness_CoresWaitAndEnd_bursts :
    (∃ w len u k, CoreIssues burstState 0 0 (isTile 2 0) w len u k ∧
      (let r := burstState.coreStart 0 0 u k
       let n := (k.rx (rvRs1 w)).toNat
       inCoreSram 0 n 2048 && (r.badIn (cluAddr 0 n) 2048).isNone &&
         burstOk ((k.rx (rvRs2 w)).toNat % 256) (r.tsCount ((r.egPart 0).getD 8)) (r.read (cluAddr 0 n) 2048)) = true) ∧
    (let s := coreState base (tileW 2 1) 0#64 0#64
     ∃ w len u k, CoreIssues (s.setCore 0 0 { s.coreOf 0 0 with burst := [0x00#8], bfmt := 0x13#8 }) 0 0 (isTile 2 1) w len u k ∧
      (!k.burst.isEmpty && byteBlk k.bfmt.toNat) = true) :=
  ⟨coreCheck_spec (p := fun w u k => let r := burstState.coreStart 0 0 u k
      let n := (k.rx (rvRs1 w)).toNat
      inCoreSram 0 n 2048 && (r.badIn (cluAddr 0 n) 2048).isNone &&
        burstOk ((k.rx (rvRs2 w)).toNat % 256) (r.tsCount ((r.egPart 0).getD 8)) (r.read (cluAddr 0 n) 2048)) (by decide +kernel),
   coreCheck_spec (p := fun _ _ k => !k.burst.isEmpty && byteBlk k.bfmt.toNat) (by decide +kernel)⟩


/-! ## Witnesses: jobs, partitions and the memory tiers -/

/-- A MATMUL of partition 0's job 0 is in flight on engine group 0. -/
def jobBusy0 : State := { base with te := [(0, ⟨[], [teCmd], [], 0, 0⟩)] }

/-- A DMA command of queue 0 whose unit job 1 holds, since cycle 0. -/
def overrunning : State :=
  let s := put copyB base
  { s with cp := { s.cp with
    window := [(0, [{ dec copyB with overrun := some 0 }])]
    inflight := [{ s.mkCmd (.queue 1) (dec copyB) with job := 1, uid := 2 }] } }

theorem witness_WheelsAndJobsTakeTheirWrites :
    ((base.entryHeld 0).entryEnd 0 ≤ base.entryEnd 0 ∧ (overrunning.wheel 0).running = true ∧
      overrunning.entryEnd 0 < (overrunning.entryHeld 0).entryEnd 0) ∧
    (base.wheel 0).running = true ∧ base.fld F.cpWstat_ENTRY 0 + 1 ≥ base.wheelLen 0 ∧
    (let s := set [(F.cpWlen_ENTRIES, 0, 2)] base
     (s.wheel 0).running = true ∧ s.fld F.cpWstat_ENTRY 0 + 1 < s.wheelLen 0) ∧
    Permits base .sage .cpWlen 127 ∧ base.wheelWriteBad true 127 255#32 = false ∧
    Permits base .sage .cpWheel 8191 ∧ base.wheelWriteBad false 8191 0xFFFFFFFF#32 = false ∧
    (let s := set [(F.cpJstat_STATE, 0, 1)] base
     Permits s .sage .cpWheel 0 ∧ s.wheelWriteBad false 0 0#32 = true) ∧
    Permits base .sage .cpJob 63 ∧ ¬ (4 < base.slotSum 7 7 9#32 ∨ (base.jobState 7 7 = 3 ∧ bits (9#32).toNat 1 3 < base.savedHeld 7 7)) ∧
    4 < base.slotSum 7 7 11#32 := by decide +kernel

theorem witness_JobsAreSavedAndResumed :
    Permits base .sage .cpJctl 0 ∧ base.jobState 7 7 < 2 ∧ (base.egsOf 7).any (base.jobOn 7 7) = false ∧
    jobBusy0.jobState 0 0 < 2 ∧ (jobBusy0.egsOf 0).any (jobBusy0.jobOn 0 0) = true ∧ jobBusy0.saveRefused 0 0 = none ∧
    (let s := set [(F.cpJstat_STATE, 0, 2)] jobBusy0
     s.egPart 0 = some 0 ∧ s.jobState 0 0 = 2 ∧ s.saveRefused 0 0 = none ∧ s.unitsBusy 0 0 0 = false ∧ s.teFlight 0 0 0 ≠ [] ∧
       s.egPart 15 = some 0 ∧ s.unitsBusy 0 0 15 = false ∧ s.teFlight 0 0 15 = []) ∧
    (set [(F.cpJstat_STATE, 63, 3)] base).jobState 7 7 = 3 ∧ Permits (set [(F.cpJstat_STATE, 63, 3)] base) .sage .cpJctl 0 ∧
    base.jobState 7 7 ≠ 3 := by decide +kernel

theorem witness_BlocksMoveInWinter :
    Permits base .sage .sysPartmap 0 ∧
    (let old := fun b => bits (base.reg .sysPartmap 0).toNat (4 * b) 4
     (old 0 = 8 ∧ bit (old 0) 3 = true ∧ base.season (old 0 % 8) ≠ winter ∧ bits (9#32).toNat 0 4 ≠ old 0) ∧ bit (old 7) 3 = false) ∧
    (let s := set [(F.sysPseason_SEASON, 0, 0)] base
     bit (bits (s.reg .sysPartmap 0).toNat 0 4) 3 = true ∧ s.season (bits (s.reg .sysPartmap 0).toNat 0 4 % 8) = winter ∧
       bit (bits (9#32).toNat 0 4) 3 = true ∧ s.season (bits (9#32).toNat 0 4 % 8) = winter) := by decide +kernel

theorem witness_WindowsAndMemoryWheelsTakeTheirWrites :
    Permits base .sage (winReg .t1) 3 ∧ base.season (winPart .t1 3) = summer ∧
    Permits base .sage (winReg .t1) 31 ∧ base.season (winPart .t1 31) = winter ∧ base.windowBad .t1 31 0xFFFF#32 = true ∧
      base.windowBad .t1 31 0#32 = false ∧
    Permits base .sage (winReg .ms) 31 ∧ base.windowBad .ms 31 0#32 = false ∧ Permits base .sage (winReg .t2) 7 ∧ base.windowBad .t2 7 0#32 = false ∧
    Permits base .sage .memWheel 6911 ∧ base.wheelLive 6911 0#32 = false ∧ base.wheelLive 0 0x88888889#32 = true ∧
    Permits base .sage .sysPartcfg 7 := by decide +kernel

/-- A read of partition 7 on its way from a controller, due in cycle 9. -/
def onItsWay (c : Nat) : State := { base with memc := [(c, { MemCtl.reset with reads := [⟨⟨1, 7, 0, 0, .read⟩, 0, some 9⟩] })] }

theorem witness_MemorySlotsAndArrivals :
    (let s := { base with memc := [(215, { MemCtl.reset with slot := 31 })] }
     refreshSlot (s.openSlot 215).2.1 = true) ∧
    (let s := set [(F.sysPartmap_BLOCKS, 0, 8)] ({ base with memc := [(0, { MemCtl.reset with slot := 1, at_ := 300, open_ := [⟨⟨1, 0, 0, 0, .atomic⟩, 0, none⟩] })] }.setReg
        .memWheel 0 0x88888888#32)
     let x := s.openSlot 0
     refreshSlot x.2.1 = false ∧ ((x.1.ctl 0).writeBack (x.1.slotOwner 0 x.2.1) x.2.2).isSome = true) ∧
    (let s := { base with memc := [(0, { MemCtl.reset with queues := [(0, [⟨1, 0, 0, 0, .read⟩])] })] }.setReg .memWheel 0 0x88888888#32
     let x := s.openSlot 0
     refreshSlot x.2.1 = false ∧ (x.1.ctl 0).writeBack (x.1.slotOwner 0 x.2.1) x.2.2 = none ∧
       x.1.slotServes (x.1.ctl 0) (x.1.slotOwner 0 x.2.1) = some (0, false) ∧ ((x.1.ctl 0).nextReq 0).isSome = true) ∧
    (let x := base.openSlot 191
     refreshSlot x.2.1 = false ∧ (x.1.ctl 191).writeBack (x.1.slotOwner 191 x.2.1) x.2.2 = none ∧
       x.1.slotServes (x.1.ctl 191) (x.1.slotOwner 191 x.2.1) = none) ∧
    ((onItsWay 217).ctl 217).reads = [⟨⟨1, 7, 0, 0, .read⟩, 0, some 9⟩] ∧ ((onItsWay 0).ctl 0).reads = [⟨⟨1, 7, 0, 0, .read⟩, 0, some 9⟩] ∧
    unitOf 0 = 0 ∧ controllerOf 0 = some 0 ∧ (onItsWay 0).undoFrom 1 (granuleOf 0) = none ∧ ((onItsWay 0).ctl 0).open_ = [] ∧
    (let s := (set [(F.sysPartcfg_LEND, 0, 1), (F.sysPartcfg_LEND, 1, 1), (F.sysPartcfg_BORROWMAX, 1, 1)] { base with
        memc := [(0, { MemCtl.reset with queues := [(0, [⟨1, 0, 0, 0, .idle⟩]), (1, [⟨1, 1, 0, 0, .read⟩])] })] }).setReg .memWheel 0 0x88888888#32
     let x := s.openSlot 0
     let owner := x.1.slotOwner 0 x.2.1
     refreshSlot x.2.1 = false ∧ (x.1.ctl 0).writeBack owner x.2.2 = none ∧ x.1.passIdle 0 owner ≠ x.1 ∧
       x.1.slotServes (x.1.ctl 0) owner = some (1, true) ∧ (((x.1.passIdle 0 owner).ctl 0).nextReq 1).isSome = true) := by decide +kernel

theorem witness_PartitionsPassTheirSeasons :
    let s := set [(F.sysSeason_DIE, 0, 2), (F.sysPartmap_BLOCKS, 0, 0xF0000008)] base
    let z := fun n => set [(F.sysPseason_SEASON, 7, n)] s
    (∀ n < 4, Permits (z n) .sage .sysPseason 7) ∧ (z 0).dieSeason = summer ∧ (z 0).season 7 = winter ∧ (z 0).ownsBlock 7 = true ∧
      (z 1).season 7 = spring ∧ (z 2).season 7 = summer ∧ (z 3).season 7 = autumn ∧ (z 3).partBusy 7 = false ∧
      (set [(F.sysAutumnlim_LIMIT, 0, 1)] (z 3)).fld F.sysAutumnlim_LIMIT 0 ≠ 0 ∧ (z 3).egPart 127 = some 7 := by decide +kernel

/-! ## Witnesses: links, messages and groups -/

/-- A torus port in a state, with what a port holds. -/
def link (k st : Nat) (p : LinkPort) : State := (set [(F.lnkStat_STATE, k, st), (F.lnkCfg_ENABLE, k, 1)] State.reset).setPort k p
/-- The frame with nothing in it, of a type. -/
def frameOf (typ : Nat) : Frame := ⟨typ, 0, 0, 0, 0, 0, 0, false, List.replicate 256 0x00#8⟩

theorem witness_LinksTrainReplayAndSwitch :
    let p := LinkPort.reset
    let n := fun (g : BitVec 18) => ((List.range 18).filter (fun i => bit g.toNat i)).length
    (link 5 1 { p with nbr := some (State.reset.expectedNbr 5) }).linkState 5 = 1 ∧ n 0xFF#18 = 8 ∧ n 0x7F#18 = 7 ∧ n 0xFFFF#18 = 16 ∧
    ((link 5 3 { p with nbr := some (State.reset.expectedNbr 5) }).port 5).nbr = some ((link 5 3 { p with nbr := some (State.reset.expectedNbr 5) }).expectedNbr 5) ∧
    ((link 5 3 p).port 5).nbr ≠ some ((link 5 3 p).expectedNbr 5) ∧
    (link 5 2 { p with naks := 32 }).linkState 5 = 2 ∧ 32 ≤ ((link 5 2 { p with naks := 32 }).port 5).naks ∧
    (link 0 3 { p with stage := 2 }).linkState 0 = 3 ∧ ((link 0 3 { p with stage := 2 }).port 0).stage < 3 ∧
    (link 5 0 p).flag F.lnkCfg_ENABLE 5 = true ∧ (link 5 0 p).linkState 5 = 0 ∧ ((link 5 0 p).port 5).noRef = false ∧
    Permits (link 5 2 p) .sage .lnkCfg 5 ∧ (3#32).toNat % 2 = 1 ∧ bit (3#32).toNat 1 = true ∧
    (link 5 2 { p with replay := [⟨frameOf 1, 0, 0, 0⟩] }).linkState 5 = 2 ∧
    ((link 5 2 { p with replay := [⟨frameOf 1, 0, 0, 0⟩] }).port 5).replay ≠ [] := by decide +kernel


/-- Entry 0 of port 4's switch wheel names CE 0, which holds a frame for the device at z = 1 of a ring of two. -/
def switching : State :=
  let s := set [(F.sysCoord_ZLEN, 0, 1)] ((link 4 2 { LinkPort.reset with credit := fullCredit }).setReg .lnkSwtab 128 6#32)
  s.setCe 0 { Ce.reset with out := [{ frameOf 1 with dest := 0x100 }] }
theorem witness_LinksTrainReplayAndSwitch_slot :
    switching.switchEntry 4 (switching.port 4).slot = 6 ∧ switching.linkState 4 = 2 ∧ (switching.port 4).replay.length < 2048 ∧
    (switching.setPort 4 { switching.port 4 with slot := 1 }).pickFrame 6 4 = some { frameOf 1 with dest := 0x100 } ∧
    (switching.setPort 4 { switching.port 4 with slot := 1 }).pickFrame 7 4 = none := by decide +kernel

/-- The fields of a frame that is the next one, or a repeated one. -/
def portFields (seq : Nat) : PortFields := ⟨seq, 4095, false, 7, 255⟩
/-- Whether the bytes of a frame of a type read as that frame. -/
def frameCheck (typ : Nat) : Bool := parseFrame ((frameOf typ).bytes (portFields 0)) == some (frameOf typ, portFields 0, false)
set_option maxRecDepth 100000 in
theorem witness_FramesAreTakenInOrder : ∀ typ, typ < 7 → frameCheck typ = true := by decide +kernel
theorem witness_FramesAreTakenInOrder_states :
    (∀ st ∈ [1, 2, 3], (link 5 st LinkPort.reset).linkState 5 = st) ∧
    (portFields 0).seq = ((((link 5 2 LinkPort.reset).honour 5 (portFields 0)).port 5).rxSeq + 1) % 4096 ∧
    (portFields 0).seq ≠ ((((link 5 2 { LinkPort.reset with rxSeq := 0 }).honour 5 (portFields 0)).port 5).rxSeq + 1) % 4096 := by decide +kernel

/-- A send in progress. -/
def aSend : Send := ⟨base.mkCmd (.queue 0) (dec sendB), 1, 1, [], FVal.one, false, 1, true, 0, 0, Counts.none, false⟩
/-- Message `m` waits at die 1, whose CE runs one send. -/
def landed (m : CtlMsg) : State := State.reset.setCe 1 { Ce.reset with inbox := [⟨m, 0, none⟩], sends := [aSend] }
theorem witness_CollectiveMessagesAndGroupsAct_messages : ∀ kind, kind < 8 →
    let m := { CtlMsg.zero with kind := kind, cmdid := 1 }
    ((landed m).ceOf 1).inbox = ⟨m, 0, none⟩ :: [] ∧
      (((landed m).setCe 1 { (landed m).ceOf 1 with inbox := [] }).ceOf 1).sends.find? (fun y => y.cmd.uid == m.cmdid) = some aSend ∧
      (kind = kReply → m.isColl = false ∧ { m with cmdid := 2 ^ 63 }.isColl = true) := by decide +kernel
/-- A READY group 4095 whose CE is die 1's. -/
def group4095 (st : Nat) (q : List Coll) : State :=
  { set [(F.ceGrpstat_STATE, 4095, st), (F.ceCollwatch_LIMIT, 0, 1)] State.reset with groups := [(4095, { Group.reset with n := 1, home := 1, members := [0], queue := q })] }
/-- A collective. -/
def aColl : Coll :=
  { cmd := base.mkCmd (.queue 0) (dec (collB 0)), count := 1, begun := false, steps := [], acc := [], cvt := Counts.none, misses := 0, watched := false }
theorem witness_CollectiveMessagesAndGroupsAct_timers :
    (group4095 1 []).groupState 4095 = 1 ∧ ((group4095 1 []).group 4095).home = 1 ∧ (group4095 1 []).fld F.ceCollwatch_LIMIT 0 ≠ 0 ∧
    (let s := set [(F.ceCollwatch_LIMIT, 0, 1)] (landed CtlMsg.zero)
     s.sendAt 1 (4096 - 4096) = some aSend ∧ aSend.refused = true ∧ aSend.watched = false ∧ s.fld F.ceCollwatch_LIMIT 0 ≠ 0) := by decide +kernel
/-- The entry of group 4095, with its member list behind it: one member, this device and partition 0. -/
def entry4095 : State :=
  let b := bytes 61 [(0, 1), (4, 1), (6, 1), (8, 0x100000)]
  base.store (State.reset.groupEntry 4095) (b ++ leBytes 3 (crc24 b))
theorem witness_CollectiveMessagesAndGroupsAct_groups :
    Permits entry4095 .sage .ceGrpctl 0 ∧ entry4095.groupState 4095 = 0 ∧ entry4095.groupOk 4095 = true ∧
    Permits (group4095 2 []) .sage .ceGrpctl 0 ∧ (group4095 2 []).groupState 4095 = 2 ∧
    (group4095 1 []).groupState 4095 ≠ 0 ∧ ((group4095 1 []).group 4095).queue = [] ∧
    (group4095 1 [aColl]).groupState 4095 ≠ 0 ∧ ((group4095 1 [aColl]).group 4095).queue ≠ [] := by decide +kernel

/-! ## Witnesses: Ethernet, Birsan and Sceman -/

/-- The address 10.0.0.1. -/
def ip1 : List Byte := [10#8, 0#8, 0#8, 1#8]
/-- A received packet of a kind, for 10.0.0.1. -/
def pkt (kind : Nat) (body : List Byte) : RxPkt := ⟨kind, List.replicate 6 0x02#8, ip1, ip1, false, 4096, body⟩
/-- Port 3 is up, has an address and holds packets. -/
def ethState (rx : List RxPkt) : State := (set [(F.ethStat_UP, 3, 1)] State.reset).setEth 3 { EthPort.reset with addrs := [ip1, List.replicate 16 0x01#8], rx := rx }
/-- An ARP request for 10.0.0.1, padded to 60 bytes (R391). -/
def arpRaw : List Byte :=
  padTo 60 ([0xFF#8, 0xFF#8, 0xFF#8, 0xFF#8, 0xFF#8, 0xFF#8, 2#8, 2#8, 2#8, 2#8, 2#8, 2#8, 8#8, 6#8, 0#8, 1#8, 8#8, 0#8, 6#8, 4#8, 0#8, 1#8,
    2#8, 2#8, 2#8, 2#8, 2#8, 2#8, 10#8, 0#8, 0#8, 2#8, 0#8, 0#8, 0#8, 0#8, 0#8, 0#8] ++ ip1)
theorem witness_EthernetPortsAnswer_receive :
    (ethState []).ethUp 3 = true ∧ (ethState []).classify 3 [] = none ∧ ((ethState []).classify 3 arpRaw).isSome = true := by decide +kernel
theorem witness_EthernetPortsAnswer_answers :
    (let s := ethState [pkt 2 (List.replicate 4 0x00#8), pkt 0 []]
     let x := pkt 2 (List.replicate 4 0x00#8)
     (s.ethPort 3).rx.find? (fun y => y.kind == 0) = some (pkt 0 []) ∧ (pkt 0 []).dst ∈ (s.ethPort 3).addrs ∧
     (s.ethPort 3).rx.find? (fun y => y.kind == 2) = some x ∧ x.dst ∈ (s.ethPort 3).addrs ∧ (s.ethPort 3).echoes < 1000 ∧
       4 ≤ x.body.length ∧ x.dst.length = 4 ∧ 20 + x.body.length ≤ s.portMtu 3) ∧
    (let x := { pkt 2 (List.replicate 4 0x00#8) with src := List.replicate 16 0x01#8, dst := List.replicate 16 0x01#8 }
     ((ethState [x]).ethPort 3).rx.find? (fun y => y.kind == 2) = some x ∧ x.dst ∈ ((ethState [x]).ethPort 3).addrs ∧
       x.src.length = 16 ∧ x.dst.length = 16 ∧ 40 + x.body.length ≤ (ethState [x]).portMtu 3) ∧
    (let x := { pkt 1 (List.replicate 24 0x01#8) with src := List.replicate 16 0x01#8 }
     ((ethState [x]).ethPort 3).rx.find? (fun y => y.kind == 1) = some x ∧ sub x.body 8 16 ∈ ((ethState [x]).ethPort 3).addrs ∧
       x.src.length = 16) := by decide +kernel
theorem witness_EthernetPortsAnswer_links :
    Permits (ethState []) .sage .ethCfg 3 ∧ bit (0x80000000#32).toNat 31 = true ∧
    (∀ n ∈ [1, 11], let s := State.reset.setEth 3 { EthPort.reset with training := true, next := BitVec.ofNat 32 n }
      (s.ethPort 3).training = true ∧ (s.ethPort 3).noRef = false ∧ 0 < (s.ethPort 3).next.toNat % 16 ∧ (s.ethPort 3).next.toNat % 16 < 12) := by decide +kernel

/-- A session of number 1 in a state, with a role. -/
def sess (st role : Nat) : Session :=
  { sid := 1, psid := 2, state := st, chain := [], role := role, tenant := 0, keys := none, old := none, trial := none, hs := none,
    cookie := List.replicate 32 0x00#8, ports := [], paths := [], psn := 0, sends := 0, probeAt := 0,
    unacked := [], txq := [], msgId := 0, rwnd := 0, cum := 0, beyond := [], since := 0, owed := none, parts := [], inbox := [] }
/-- A handshake. -/
def shake (initiator : Bool) (step : Nat) : Handshake := ⟨initiator, step, ⟨3, [], ip1, ip1⟩, 1, [], [], [], none, [], [], []⟩
/-- A path. -/
def path0 : BirPath := ⟨0, ⟨3, [], ip1, ip1⟩, 12000, none, 0, [], 0, 0, none, 0⟩
/-- Session 1 stands, and port 3 holds packets. -/
def birState (y : Session) (rx : List RxPkt) : State := { ethState rx with birsan := { Birsan.reset with sessions := [y] } }
theorem witness_BirsanSessionsRun_handshake :
    (let x := pkt 16 (bytes 64 [(4, 1)])
     let s := birState { sess 1 0 with hs := some (shake true 2) } [x]
     (s.ethPort 3).rx.find? (fun y => y.kind == 16) = some x ∧ s.session (num x.body 4 4) = some { sess 1 0 with hs := some (shake true 2) } ∧ x.body.length = 64) ∧
    (let x := pkt 17 (List.replicate 1232 0x00#8)
     ((ethState [x]).ethPort 3).rx.find? (fun y => y.kind == 17) = some x ∧ 1232 ≤ x.body.length ∧ allZero (sub x.body 36 32) = true) ∧
    (let x := pkt 18 (bytes 64 [(4, 1)])
     let s := birState { sess 1 0 with hs := some (shake true 2) } [x]
     (s.ethPort 3).rx.find? (fun y => y.kind == 18) = some x ∧ s.session (num x.body 4 4) = some { sess 1 0 with hs := some (shake true 2) }) := by decide +kernel
theorem witness_BirsanSessionsRun_timers :
    (∀ st ∈ [1, 2, 3], (birState (sess st 0) []).session 1 = some (sess st 0)) ∧
    (let y := { sess 2 0 with owed := some (0, 0), paths := [path0] }
     (birState y []).session 1 = some y ∧ (birState y []).anyPath y = some path0) ∧
    (∀ c ∈ [2 ^ 39, 2 ^ 40 - 1, 2 ^ 40], let y := { sess 2 0 with keys := some ⟨[], [], c, [0]⟩ }
      (birState y []).session 1 = some y ∧ (y.keys.map (fun k => k.ctr)).getD 0 = c ∧ (∀ k ∈ y.keys, k.seen.isEmpty = false)) ∧
    (let r : TxPkt := ⟨5, [], 0, 0, 0, 0, 0, false, false, 0, 0, 0⟩
     let y := { sess 2 0 with unacked := [r] }
     (birState y []).session 1 = some y ∧ y.unacked.find? (fun r => r.psn == 5 && !r.lost && decide (r.due ≤ (birState y []).now10)) = some r) := by decide +kernel

/-- Keys of zeros. -/
def keys0 : KeyPair := ⟨List.replicate 36 0x00#8, List.replicate 36 0x00#8, 0, []⟩
/-- A packet without content, for session 1, sealed under those keys. -/
def sealed : List Byte := sealPacket keys0 (bytes 32 [(4, 1)]) [] []
set_option maxRecDepth 100000 in
theorem witness_BirsanSessionsRun_cookie :
    let s := ethState []
    let c := cookieOf s.birsan.cookie ip1 4096
    let x := pkt 17 (List.replicate 36 0x00#8 ++ c)
    ((ethState [x]).ethPort 3).rx.find? (fun y => y.kind == 17) = some x ∧ 68 ≤ x.body.length ∧ allZero (sub x.body 36 32) = false ∧
      sub x.body 36 32 = cookieOf (ethState [x]).birsan.cookie x.src x.sport := by decide +kernel
theorem tag_length : (gcmTag (List.replicate 32 0x00#8) (List.replicate 12 0x00#8) (bytes 32 [(4, 1)]) []).length = 16 := by decide +kernel
theorem sealed_eq : sealed = bytes 32 [(4, 1)] ++ gcmTag (List.replicate 32 0x00#8) (List.replicate 12 0x00#8) (bytes 32 [(4, 1)]) [] := by
  have h : sub (bytes 32 [(4, 1)]) 8 8 = List.replicate 8 0x00#8 := by decide +kernel
  have e : ∀ k n, gcmCrypt k n [] = [] := fun k n => rfl
  have hn : List.drop 32 (List.replicate 36 0x00#8) ++ List.replicate 8 0x00#8 = List.replicate 12 0x00#8 := rfl
  have hk : List.take 32 (List.replicate 36 0x00#8) = List.replicate 32 0x00#8 := rfl
  simp only [sealed, sealPacket, keys0, h, e, hn, hk, List.append_nil]
theorem sealed_opens : (openPacket keys0 sealed 32).isSome = true := by
  have hb : (bytes 32 [(4, 1)]).length = 32 := by decide +kernel
  have h8 : sub (bytes 32 [(4, 1)]) 8 8 = List.replicate 8 0x00#8 := by decide +kernel
  have hl := tag_length
  rw [sealed_eq]
  generalize ht : gcmTag (List.replicate 32 0x00#8) (List.replicate 12 0x00#8) (bytes 32 [(4, 1)]) [] = tag at hl ⊢
  have hs : sub (bytes 32 [(4, 1)] ++ tag) 8 8 = List.replicate 8 0x00#8 := by
    rw [← h8]; simp [sub, List.drop_append, List.take_append, hb]
  have hn : List.drop 32 (List.replicate 36 0x00#8) ++ List.replicate 8 0x00#8 = List.replicate 12 0x00#8 := rfl
  have hk : List.take 32 (List.replicate 36 0x00#8) = List.replicate 32 0x00#8 := rfl
  have hc : sub (bytes 32 [(4, 1)] ++ tag) 32 0 = [] := by simp [sub]
  simp only [openPacket, keys0, hs, hn, hk, List.length_append, hb, hl, Nat.add_sub_cancel, hc]
  simpa [List.take_append, hb] using ht
theorem sealed_names : num sealed 4 4 = 1 := by
  have hb : (bytes 32 [(4, 1)]).length = 32 := by decide +kernel
  have h : num (bytes 32 [(4, 1)]) 4 4 = 1 := by decide +kernel
  rw [sealed_eq]
  generalize bytes 32 [(4, 1)] = hdr at hb h ⊢
  refine Eq.trans ?_ h
  simp [num, sub, List.drop_append, List.take_append, hb]
theorem confirm_state (b : List Byte) :
    let y := { sess 1 0 with hs := some { shake false 3 with keys := some keys0 } }
    let s := birState y [pkt 19 b]
    (s.ethPort 3).rx.find? (fun y => y.kind == 19) = some (pkt 19 b) ∧ s.session 1 = some y := ⟨rfl, rfl⟩
theorem witness_BirsanSessionsRun_confirm :
    let y := { sess 1 0 with hs := some { shake false 3 with keys := some keys0 } }
    let s := birState y [pkt 19 sealed]
    (s.ethPort 3).rx.find? (fun y => y.kind == 19) = some (pkt 19 sealed) ∧ s.session (num sealed 4 4) = some y ∧
      (openPacket keys0 sealed 32).isSome = true :=
  ⟨(confirm_state sealed).1, by rw [sealed_names]; exact (confirm_state sealed).2, sealed_opens⟩
theorem packet_state (kind : Nat) (b : List Byte) :
    let s := birState { sess 2 0 with keys := some keys0 } [pkt kind b]
    (s.ethPort 3).rx.find? (fun y => y.kind == kind) = some (pkt kind b) ∧ s.session 1 = some { sess 2 0 with keys := some keys0 } :=
  ⟨by simp [birState, ethState, pkt, State.ethPort, State.setEth], rfl⟩
theorem session_opens (y : Session) (k : KeyPair) (b : List Byte) (h : (openPacket k b 32).isSome = true) :
    (Session.open_ { y with keys := some k } b).isSome = true := by
  cases e : openPacket k b 32 with
  | none => rw [e] at h; cases h
  | some z => simp [Session.open_, e]
theorem witness_BirsanSessionsRun_packets (kind : Nat) :
    let y := { sess 2 0 with keys := some keys0 }
    let s := birState y [pkt kind sealed]
    (s.ethPort 3).rx.find? (fun y => y.kind == kind) = some (pkt kind sealed) ∧ s.session (num sealed 4 4) = some y ∧ 2 ≤ y.state ∧
      (y.open_ sealed).isSome = true :=
  ⟨(packet_state kind sealed).1, by rw [sealed_names]; exact (packet_state kind sealed).2, by decide, session_opens _ _ _ sealed_opens⟩

/-- A request of tenant 0 in a state. -/
def req0 (st : Nat) : Request :=
  { number := 7, tenant := 0, sid := 1, rid := padTo 8 [0x05#8], rcd := [], variant := 0, accepted := 0, deadline := 9, pstart := 0, pend := 0,
    state := st, chain := 0, status := St.ok, reason := 0, held := [], sent := 0, misses := 0, diverged := 0, ended := 0, away := decide (st = 1),
    draining := false, escal := 0, enc := ⟨0, 0, none, none, [], false⟩ }
/-- Session 1 of tenant 0 holds messages, and request 7 stands. -/
def scState (st : Nat) (inbox : List (Nat × List Byte)) : State :=
  { birState { sess 2 0 with inbox := inbox } [] with sceman :=
    { Sceman.reset with requests := [req0 st], variants := [⟨assemblyWords.take 5, [], 1, 0, 1, 1, 1, 1, 1, 1, [], []⟩], chains := [⟨[0], [0], 4096, [], [(0, 0, 0)], [8192], none, 0⟩] } }
theorem witness_ScemanTakesRequests_messages : ∀ kind ∈ [1, 2, 3], ∀ st ∈ [0, 1, 2],
    let s := scState st [(kind, [0x05#8])]
    let y := { sess 2 0 with inbox := [(kind, [0x05#8])] }
    s.session 1 = some y ∧ y.role = 0 ∧ y.inbox.find? (fun m => m.1 == kind) = some (kind, [0x05#8]) ∧
      s.sceman.requests.reverse.find? (fun r => r.tenant == y.tenant && r.rid == padTo 8 [0x05#8] && y.role == 0) = some (req0 st) ∧
      (req0 st).state = st := by decide +kernel
theorem witness_ScemanTakesRequests_placement :
    let s := scState 0 []
    s.sceman.headOf 0 = some (req0 0) ∧ s.sceman.chains.findIdx? (s.chainTakes 0) = some 0 ∧ (s.sceman.chains[0]?).isSome = true ∧
      ((s.sceman.chains[0]?).map (s.jobFits (s.sceman.variants.getD 0 Variant.none))) = some true ∧
      ((s.sceman.chains[0]?).map (fun c => s.jobFits Variant.none c || s.jobFits (s.sceman.variants.getD 0 Variant.none) { c with coords := [(0, 1, 0)] })) = some false ∧
    (scState 1 []).sceman.requests.find? (fun r => r.number == 7 && r.state == 1) = some (req0 1) ∧
    (scState 1 []).sceman.requests.find? (fun r => r.number == 7 && r.state == 1 && r.away) = some (req0 1) ∧
    (birState (sess 2 1) []).session 1 = some (sess 2 1) := by decide +kernel

/-- Every Ethernet port is up and has one address. -/
def allUp : State :=
  (List.range 4).foldl (fun s e => s.setEth e { EthPort.reset with addrs := [ip1] })
    (set ((List.range 4).map (fun e => (F.ethStat_UP, e, 1))) State.reset)
theorem freePeer_some (s : State) (h : ∀ e, e < 4 → (s.ethPort e).addrs = [ip1]) :
    ∃ p, s.freePeer = some p ∧ p.port = Config.freeNat s.free 0 % 4 := by
  have g := h (Config.freeNat s.free 0 % 4) (Nat.mod_lt _ (by decide))
  simp only [State.freePeer, g]
  exact ⟨_, by simp [Nat.mod_one]; rfl, rfl⟩
theorem witness_BirsanSessionsRun_open : allUp.session 1 = none ∧ ∃ p, allUp.freePeer = some p ∧ allUp.ethUp p.port = true := by
  obtain ⟨p, h, e⟩ := freePeer_some allUp (by decide +kernel)
  have g : ∀ e, e < 4 → allUp.ethUp e = true := by decide +kernel
  exact ⟨by decide +kernel, p, h, by rw [e]; exact g _ (Nat.mod_lt _ (by decide))⟩

/-! ## Witnesses: the codec, power and resets -/

/-- Fennel is enabled with a ring of four descriptors at 0, HEAD 1 and TAIL 3; the descriptor at HEAD has an operation. -/
def fenState (op : Nat) : State :=
  (set [(F.fenCtl_ENABLE, 0, 1), (F.fenCtl_LOG2N, 0, 2), (F.fenStat_HEAD, 0, 1), (F.fenPdqtail_TAIL, 0, 3)] State.reset).store 128
    [BitVec.ofNat 8 op]

theorem witness_FennelRunsPictures :
    Permits (fenState 0) .sage .fenPdqtail 0 ∧ headerFirmware .sage = false ∧
    Permits (fenState 0) (.service 12) .fenPdqtail 0 ∧ headerFirmware (.service 12) = true ∧ Permits (fenState 0) .sage .fenCtl 0 ∧ State.reset.flag F.fenCtl_ENABLE 0 = false ∧
    (let s := fenState 0
     let n := s.fenRing
     let h := s.fld F.fenStat_HEAD 0
     let back := fun t => (t + n - h % n) % n < (s.fld F.fenPdqtail_TAIL 0 + n - h % n) % n
     (3 < n ∧ ¬ back 3) ∧ (0 < n ∧ ¬ back 0) ∧ back 2 ∧ n ≤ 4) ∧
    (∀ op ∈ [0, 1, 2], (fenState op).fenNext = some (128, (fenState op).read 128 128) ∧ num ((fenState op).read 128 128) 0 1 = op) ∧
    ({ fenState 0 with fen := { (fenState 0).fen with run := some (.fail [] 7 0x01#8 4 0) } }).fen.run = some (.fail [] 7 0x01#8 4 0) := by
  decide +kernel

/-- A window's end: account sums in microjoules, windows below 95 % so far, and WINCAP 20,000 mJ. -/
def winState (a0 a8 lows : Nat) : State :=
  { set [(F.pwrCap_WINCAP, 0, 20000), (F.pwrReserve_BUDGET, 0, 20000)] State.reset with
    power := { Power.reset with sums := [a0, 0, 0, 0, 0, 0, 0, 0, a8], lows := lows } }
/-- Whether a plan is in force, as the statement has it. -/
def planOf (s : State) : Bool :=
  decide (s.planSum (fun q => s.power.budWas.getD q 0) (s.fld F.pwrReserve_BUDGET 0) ≤ s.fld F.pwrCap_WINCAP 0) &&
    (List.range 8).all (fun q => decide (s.power.sums.getD q 0 / 1000 ≤ s.power.budWas.getD q 0)) &&
    decide (s.power.sums.getD 8 0 / 1000 ≤ s.fld F.pwrReserve_BUDGET 0)
/-- The energy of the window in force. -/
def totalOf (s : State) : Nat := s.power.sums.foldl (fun x y => x + y) 0

theorem witness_EnergyWindowsLimitTheClock :
    planOf (winState 999 20000999 0) = true ∧
    (let s := winState 1000 19999001 0
     planOf s = false ∧ 20000000 < totalOf s ∧ 1000 * s.fld F.pwrCap_WINCAP 0 = 20000000) ∧
    (∀ lows ∈ [8, 9], let s := winState 1000 18998999 lows
     planOf s = false ∧ totalOf s * 100 < 20000000 * 95 ∧ (s.power.lows + 1 < 10 ↔ lows = 8)) ∧
    (∀ a8 ∈ [18999000, 19999000], let s := winState 1000 a8 0
     planOf s = false ∧ totalOf s ≤ 20000000 ∧ 20000000 * 95 ≤ totalOf s * 100) := by decide +kernel

theorem witness_LimitersAndClockStep :
    State.reset.power.sums.length = 9 ∧
    (let cap := State.reset.fld F.pwrCap_FASTCAP 0
     cap - 50 < cap - 49 ∧ 201 < cap ∧ cap - 201 ≤ cap - 50 ∧ cap - 201 < cap - 200 ∧ cap - 200 ≤ cap - 50) ∧
    (∀ calm ∈ [8, 9], ({ State.reset with power := { Power.reset with calm := calm } } : State).power.calm = calm) ∧
    State.reset.board.runs = true ∧ State.reset.sage.phase ≠ .held ∧
    (∀ t ∈ [List.replicate 76 0, List.replicate 39 1600 ++ [1839], List.replicate 40 1520 ++ List.replicate 36 1440, [1601]],
      ∀ i, i < 76 → (t.getD i (State.reset.fld F.pwrTemp_TEMP i)) % 4096 < tempCritical i) ∧
    tempLimit 39 < 1839 ∧ allBelow (fun i => if i < 40 then 1520 else 1440) 5 = true ∧ allBelow (fun _ => 1521) 5 = false ∧
    State.reset.power.droop = false ∧ ({ State.reset with power := { Power.reset with droop := true } } : State).power.droop = true := by
  decide +kernel

theorem witness_ThrottleAndPowerLimitsAreHonoured :
    (State.reset.board.throttleHold = false ∧ State.reset.flag F.pwrStat_THROTTLE 0 ≠ true) ∧
    (set [(F.pwrStat_THROTTLE, 0, 1)] State.reset).flag F.pwrStat_THROTTLE 0 ≠ false ∧
    ({ State.reset with board := { Board.reset with throttleHold := true } } : State).board.throttleHold = true ∧
    State.reset.flag F.pwrStat_THROTTLE 0 = State.reset.board.throttle ∧
    (set [(F.pwrStat_THROTTLE, 0, 1)] State.reset).flag F.pwrStat_STUCK 0 = false ∧
    Permits State.reset .sage .pwrCap 0 ∧ State.reset.flag F.pwrCap_LOCK 0 = false ∧
    (set [(F.pwrCap_LOCK, 0, 1)] State.reset).flag F.pwrCap_LOCK 0 = true ∧
    (∀ v ∈ [17000 + 65536 * 1700, 27500 + 65536 * 2900], let win := bits (BitVec.ofNat 32 v).toNat 0 16; let fast := bits (BitVec.ofNat 32 v).toNat 16 12
      17000 ≤ win ∧ win ≤ 27500 ∧ 1700 ≤ fast ∧ fast ≤ 2900) ∧
    (∀ v ∈ [16999 + 65536 * 1700, 27501 + 65536 * 2900, 17000 + 65536 * 1699, 17000 + 65536 * 2901],
      let win := bits (BitVec.ofNat 32 v).toNat 0 16; let fast := bits (BitVec.ofNat 32 v).toNat 16 12
      ¬ (17000 ≤ win ∧ win ≤ 27500 ∧ 1700 ≤ fast ∧ fast ≤ 2900)) ∧
    Permits State.reset .sage .pwrReserve 0 ∧ Permits State.reset .sage .pwrBudget 7 ∧
    (let s := winState 0 0 0
     s.planSum (fun p => s.fld F.pwrBudget_BUDGET p) 20000 ≤ s.fld F.pwrCap_WINCAP 0 ∧
       s.fld F.pwrCap_WINCAP 0 < s.planSum (fun p => s.fld F.pwrBudget_BUDGET p) 20001) := by decide +kernel

theorem witness_ModuleResetsAndReleases :
    (200 ≤ 200 ∧ 49 < 50) ∧ State.reset.board.pwrgood = true ∧ State.reset.board.osc = true ∧ State.reset.board.hotIo = false ∧
    State.reset.sage.phase ≠ .held ∧
    ({ Board.reset with shut := some .under }).shut = some .under ∧ ({ Board.reset with shut := some .current }).shut = some .current ∧
    ({ Board.reset with shut := some .overvolt }).shut = some .overvolt ∧
    ({ ({ Board.reset with resetN := false } : Board) with resetN := true }).runs = true ∧
    ({ ({ Board.reset with mated := false, pwrgood := false } : Board) with mated := true }).runs = false ∧
    ({ State.reset with sage := { Sage.reset with phase := .held } } : State).sage.phase = .held := by decide +kernel

theorem witness_DieAndPortResetsAct :
    State.reset.board.crstHold = false ∧ State.reset.flag F.sysSeason_CRSTHELD 0 ≠ true ∧
    (set [(F.sysSeason_CRSTHELD, 0, 1)] State.reset).flag F.sysSeason_CRSTHELD 0 ≠ false ∧
    (let s : State := { State.reset with board := { Board.reset with crstHold := true } }
     s.board.crstHold = true ∧ s.flag F.sysSeason_CRSTHELD 0 = s.board.crst) ∧
    (let s : State := { State.reset with board := { Board.reset with crstHold := true, crst := true } }
     s.board.crstHold = true ∧ s.flag F.sysSeason_CRSTHELD 0 ≠ s.board.crst) ∧
    (∀ d, d < 2 → d ∉ State.reset.board.perst) ∧ State.reset.board.runs = true := by decide +kernel

theorem witness_BootStagesRunInOrder :
    (∀ n, n < 9 → (set [(F.bootStat_STAGE, 0, n)] State.reset).stageReady n = true) ∧
    State.reset.sage.lpRetry = false ∧ ({ State.reset with sage := { Sage.reset with lpRetry := true } } : State).sage.lpRetry = true ∧
    (({ State.reset with sage := { Sage.reset with lpRetry := true, lpBad := [215] } } : State).trainLp []).sage.lpGood = true ∧
    (({ State.reset with sage := { Sage.reset with lpRetry := true, lpBad := [215] } } : State).trainLp [215]).sage.lpGood = false ∧
    ({ State.reset with sage := { Sage.reset with lpGood := true } } : State).sage.lpGood = true ∧ State.reset.sage.lpGood = false ∧
    (let s := set [(F.lnkCfg_ENABLE, 5, 1)] State.reset
     s.flag F.lnkCfg_ENABLE 5 = true ∧ s.linkState 5 = 0 ∧ (s.port 5).noRef = false) ∧
    State.reset.dieMayRise = true ∧
    (∀ w ∈ [6, 7], ({ State.reset with sage := { Sage.reset with wave := w } } : State).sage.wave = w) ∧
    ({ State.reset with sage := { Sage.reset with phase := .backoff } } : State).sage.phase = .backoff := by decide +kernel

theorem witness_BootAndFuseCommandsAct :
    Permits State.reset (.pf 1) .bootCtl 0 ∧ Permits State.reset .sage .secCtl 0 ∧ State.reset.sage.phase ≠ .stepWait ∧
    ({ State.reset with sage := { Sage.reset with phase := .stepWait } } : State).sage.phase = .stepWait ∧
    ({ State.reset with sage := { Sage.reset with phase := .backoff } } : State).sage.phase = .backoff ∧
    (let s := State.reset.setReg .bootHaddrHi 0 0x80000000#32
     Permits s .sage .bootCtl 0 ∧ 2 ^ 63 ≤ s.pair .bootHaddrLo .bootHaddrHi 0 ∧
       s.draw.verify 0 (readImage (s.draw.hostRead true) (s.haddr % 2 ^ 48) 16777216) = .error 4) ∧
    (set [(F.pciStat_UP, 0, 1)] State.reset).flag F.pciStat_UP 0 = true ∧
    (let s : State := { State.reset with sage := { Sage.reset with image := some ⟨2 ^ 32 - 1, [], []⟩ } }
     s.sage.image = some ⟨2 ^ 32 - 1, [], []⟩) ∧
    (set [(F.secStat_OWNER, 0, 1)] State.reset).flag F.secStat_OWNER 0 = true ∧ State.reset.flag F.secStat_OWNER 0 = false := by
  decide +kernel

/-! ## Witnesses: the host, attestation, the management bus and frames -/

/-- VF 8 of port 1 is enabled and mapped to partition 0. -/
def vfState (s : State) : State :=
  (set [(F.pciStat_VFON, 1, 128)] s).setReg .pciFnmap 1 0x80000000#32

theorem witness_HostFunctionsReachTheirMemory :
    (∀ who ∈ [Requester.pf 1, .vf 1 8], who.isHost = true ∧ (vfState base).hostServed who = true ∧
      (vfState base).bar2Parts who true 0 64 ≠ [] ∧ (vfState base).bar2Parts who false 0 64 ≠ []) ∧ (vfState base).bad = [] ∧
    base.hostServed (.vf 1 8) = false ∧ base.bar2Parts (.pf 0) true (2 ^ 47) 1 = [] ∧
    Permits (vfState base) .sage .pciFnmap 1 ∧
    (let fields := fun (v : Word) => (List.range 8).map (fun i =>
      if (vfState base).vfOn 1 (i + 1) then bits ((vfState base).reg .pciFnmap 1).toNat (4 * i) 4 else bits v.toNat (4 * i) 4)
     ((fields 0x0FEDCBA9#32).filter (fun x => bit x 3)).Nodup ∧ ¬ ((fields 8#32).filter (fun x => bit x 3)).Nodup) ∧
    (vfState base).vfOn 1 8 = true ∧ (vfState base).vfMapped 1 8 = some 0 ∧ bit ((vfState base).fld F.pciVfctl_FLRPART 1) 7 = false ∧
    bit ((set [(F.pciVfctl_FLRPART, 1, 128)] (vfState base)).fld F.pciVfctl_FLRPART 1) 7 = true ∧ base.vfOn 1 8 = false ∧
    Permits base .sage .sysEvcfg 18 ∧ (set [(F.sysEvcfg_EN, 18, 0)] base).flag F.sysEvcfg_EN 18 = false ∧ base.flag F.sysEvcfg_EN 0 = false ∧
    bit (0x10#32).toNat 4 = true ∧ base.ringMayRise 18 = true ∧
    Permits base .sage .sysEvcfg 0 ∧ base.ringMayRise 0 = true ∧ (base.setReg .sysEvbaseLo 0 32#32).ringMayRise 0 = false ∧
    Permits base .sage .sysEvidx 18 := by decide +kernel

theorem witness_ClearsZeroTheirCountersAlone :
    (∀ x ∈ [(RegName.teCvtclr, 127), (.teSpillclr, 127), (.egSentclr, 127), (.sfuStatclr, 127), (.memStatclr, 215), (.cmpStatclr, 129),
      (.lnkStatclr, 5), (.ethDropclr, 3), (.trnStatclr, 127), (.pciVfctl, 1), (.cpStatclr, 3), (.cpWstatclr, 127), (.sysDetclr, 7),
      (.pwrStatclr, 0)], Permits State.reset .sage x.1 x.2) := by decide +kernel

/-- An SPDM request of version 1.3 of `n` bytes. -/
def spdm (code n : Nat) (fs : List (Nat × Nat)) : List Byte := bytes n ((0, 0x13 + 256 * code) :: fs)
/-- Port 1's responder in a phase, after boot. -/
def attState (phase : Nat) : State :=
  { State.reset with sage := { Sage.reset with rom := true, chain := List.replicate 64 0x00#8 }, spdm := [(1, ⟨phase, [], [], [], [0x00#8]⟩)] }

theorem witness_AttestationAnswersInOrder :
    (attState 0).sage.rom = true ∧ num (bytes 4 [(0, 0x8410)]) 0 1 = 0x10 ∧ num (bytes 4 [(0, 0x8410)]) 1 1 = 0x84 ∧
    (∀ p, p < 4 → ((attState p).spdmOf 1).phase = p) ∧ (attState 3).sage.chain ≠ [] ∧ ((attState 3).spdmOf 1).last ≠ [] ∧
    (∀ x ∈ [(0xE1, 20), (0xE3, 32), (0x81, 4), (0x82, 8), (0x83, 44), (0xE0, 45), (0xFE, 12)],
      num (spdm x.1 x.2 []) 0 1 = 0x13 ∧ num (spdm x.1 x.2 []) 1 1 = x.1 ∧ (spdm x.1 x.2 []).length = x.2) ∧
    (let r := spdm 0xE3 32 [(8, 0x80), (12, 2)]
     32 ≤ r.length ∧ bit (num r 8 4) 7 = true ∧ bit (num r 12 4) 1 = true) ∧
    (let r := spdm 0x82 8 []
     num r 2 1 % 16 = 0 ∧ num r 4 2 < (attState 3).spdmChain.length) ∧
    (∀ p ∈ [0, 1, 0xFF], let r := spdm 0x83 44 [(3, p)]
     num r 2 1 % 16 = 0 ∧ num r 3 1 = p) ∧
    (∀ p ∈ [0, 9, 0xFF], let r := spdm 0xE0 45 [(3, p)]
     num r 3 1 = p ∧ num r 36 1 % 16 = 0) ∧
    (let r := spdm 0xFE 12 [(4, 3), (6, 2), (7, 0x1E9B), (9, 1), (11, 1)]
     num r 4 2 = 3 ∧ num r 6 1 = 2 ∧ num r 7 2 = 0x1E9B ∧ num r 9 2 = 1 ∧ num r 11 1 = 1) := by decide +kernel

theorem witness_ManagementBusAccessesRegisters :
    (let s := attState 0
     s.sage.rom = true ∧ s.mgmtHeard true = true ∧ s.mgmtHeard false = false ∧ s.mgmt.limit = none ∧ s.mgmt.i3c = none) ∧
    mgmtWrites (regOffset .bootHaddrHi 0) = true ∧ mgmtWrites (regOffset .secCtl 0) = false ∧ mgmtReads 0x3FFFC = true ∧
    mgmtReads 0x40000 = false ∧ mgmtReads 2 = false ∧
    regAt (regOffset .bootStat 0) = some (.bootStat, 0) ∧
    (let s : State := { attState 0 with sage := { (attState 0).sage with alert := true, failed := true } }
     s.mgmt.i3c = none ∧ s.alertPending = true) := by decide +kernel

theorem witness_FramesRoundTrip :
    let f : Frame := ⟨6, 7, 4095, 7, 4095, 65535, 255, true, List.replicate 256 0xFF#8⟩
    let p : PortFields := ⟨4095, 4095, true, 7, 255⟩
    f.typ < 7 ∧ f.vc < 8 ∧ f.dest < 4096 ∧ f.dpart < 8 ∧ f.mid < 4096 ∧ f.fidx < 65536 ∧ f.vbytes < 256 ∧ f.payload.length = 256 ∧
      p.seq < 4096 ∧ p.ack < 4096 ∧ p.crvc < 8 ∧ p.crcnt < 256 := by decide +kernel

theorem witness_RegisterMapRoundTrip :
    Mapped .qDoorbell 32767 ∧ Mapped .syncObj 65535 ∧ Mapped .sysEvcfg 18 ∧ Mapped .cpWheel 8191 :=
  ⟨mapped_of (by decide +kernel), mapped_of (by decide +kernel), mapped_of (by decide +kernel), mapped_of (by decide +kernel)⟩

/-! ## Results that the manual states -/

/-- R45's examples: (+1, -1, 0, 0, +1) packs as 0xC8, and five zeros as 121; 0xF3 and above decode as zeros (R46). -/
theorem test_tern5 : ternPack [1, 3, 0, 0, 1] = [0xC8] ∧ ternByte 0xC8 = [1, 3, 0, 0, 1] ∧ ternByte 121 = [0, 0, 0, 0, 0] ∧
    ternByte 0xF3 = [0, 0, 0, 0, 0] := by decide
/-- The worked example of chapter 2: 2.7, -1.1 and 0.2 in a block of E2M1 with a UE4M3 scale. -/
theorem test_quantise :
    let q := (quantBlock .e2m1 ⟨7, false, false, false, false, 2, 0, 0⟩ FVal.one 0
      ([f32 0x402CCCCD, f32 0xBF8CCCCD, f32 0x3E4CCCCD] ++ List.replicate 29 FVal.zero)).block
    q.scale = 0x2F ∧ q.elems.take 3 = [7, 0xC, 1] := by decide +kernel
/-- The same example: the three elements read back as 2.8125, -0.9375 and 0.234375. -/
theorem test_dequantise :
    ([7, 0xC, 1].map (fun c => fp32.encode (dequant (Fmt.e2m1.decode c) (ue4m3Value 0x2F) FVal.one))) = [0x40340000, 0xBF700000, 0x3E700000] := by
  decide +kernel
/-- R68 names the CRC-24 of RFC 4880; its catalogued check value over "123456789" is 0x21CF02. -/
theorem test_crc24 : crc24 [0x31#8, 0x32#8, 0x33#8, 0x34#8, 0x35#8, 0x36#8, 0x37#8, 0x38#8, 0x39#8] = 0x21CF02 := by decide +kernel
/-- R290's example: 0x0036_0012_3800 lies in channel 103. -/
theorem test_t1_channel : controllerOf 0x003600123800 = some 103 := by decide +kernel
/-- R184's example: element (0, 37, 2, 5) of a dense BF16 CB32 map lies at 0x7F_814A from BASE. -/
theorem test_map_address : (MapDesc.mk 0 8294400 16588800 1 270 480 64 32 .bf16 false 0).elemAddr 0 37 2 5 = 0x7F814A := by decide
/-- R219's example: TL.POST x5, x10, x11 is 0x00B5_028B. -/
theorem test_tl_post : isTile 0 0 0x00B5028B = true ∧ rvRd 0x00B5028B = 5 ∧ rvRs1 0x00B5028B = 10 ∧ rvRs2 0x00B5028B = 11 := by decide
/-- The example of chapter 15: of a picture target of 6,274,507 bits, rows of 64 and of 48 of 2,160 luma rows get these targets. -/
theorem test_row_targets :
    (let p := Pic.of (List.replicate 60 0x00#8 ++ leBytes 4 6274507)
     let h := List.replicate 33 64 ++ [48]
     rowTarget [] p h 0 = 185911 ∧ rowTarget [] p h 33 = 139433) := by decide +kernel
/-- R456's example: an episode of 4,137,500 cycles lands in bucket 5; the ends of the buckets. -/
theorem test_episode_bucket : episodeBucket 4137500 = 5 ∧ episodeBucket 131071 = 0 ∧ episodeBucket 131072 = 1 ∧
    episodeBucket (2 ^ 40) = 15 := by decide
/-- R543's places of some registers. -/
theorem test_register_map :
    regAt 0x00010000 = some (.sysCoord, 0) ∧ regAt 0x0001010C = some (.sysPseason, 3) ∧ regAt 0x00010444 = some (.sysEvbaseHi, 2) ∧
    regAt 0x00030104 = some (.secSvn, 0) := by decide +kernel
/-- R488 and R486: a window over WINCAP with no plan in force lowers the level by 1, and CLOCK_SLEW_STEP moves one level. -/
theorem test_window_and_slew :
    (let s := set [(F.pwrStat_LWIN, 0, 9)] (winState 1000 19999001 0)
     ((s.windowEndEnergy).fld F.pwrStat_LWIN 0)) = 8 ∧
    (let s := set [(F.sysSeason_DIE, 0, 2), (F.clkNom_LEVEL, 0, 12), (F.pwrStat_LTHERM, 0, 15), (F.pwrStat_LFAST, 0, 10), (F.pwrStat_LWIN, 0, 11),
        (F.clkStat_LEVEL, 0, 3)] State.reset
     (s.slew.fld F.clkStat_LEVEL 0, s.targetLevel)) = (4, 10) := by decide +kernel
/-- R551: a refused season change is reported as WRITE_IGNORED, 0x000D, in the first place of ring 18; the first event is number 0. -/
theorem test_event_record :
    (match exec (.partitionAutumn .sage 3) State.reset with
     | .next t => (t.cp.evSeq, t.ring18.map (fun x => (x.1, x.2.length, num x.2 0 2, num x.2 4 4)))
     | _ => (0, [])) = (1, [(0, 32, 0x000D, 0)]) := by decide +kernel
/-- R138's entry 0 of slot 3 over [1, 1 + 1/64]: f0 = 1, fm = 128/129 and f1 = 64/65, with C1 and C2 worked out by hand. -/
theorem test_factory_entry : (factoryEntry 3 (factoryRow 3) 0).take 12 =
    leBytes 4 0x3F800000 ++ leBytes 4 0xBC7FF840 ++ leBytes 4 0x397A2000 := by decide +kernel
/-- Chapter 15's worked example: the I picture's target and QP0, then those of the first P picture after an I picture on target. -/
theorem test_rate_control :
    let r : Request := { req0 1 with rcd := bytes 64 [(20, 24), (22, 48), (24, 1440), (28, 1), (32, 40000)] }
    let p : Request := { r with enc := ⟨1, 73725461, some (40, 6274507), none, [], false⟩ }
    (r.target, r.qp0 0, p.target, p.qp0 0) = (6274507, 42, 1568626, 42) := by decide +kernel

/-- R486, R490: 2.5 GHz at level 15 gives 100 cycles in each 40 ns, 1.0 GHz at level 0 gives 40, and a droop halves them. -/
theorem test_cycle_length :
    100 * (set [(F.clkStat_LEVEL, 0, 15)] State.reset).cycleUnits = 40 * nsUnits ∧
    40 * (set [(F.clkStat_LEVEL, 0, 0)] State.reset).cycleUnits = 40 * nsUnits ∧
    50 * ({ set [(F.clkStat_LEVEL, 0, 15)] State.reset with power := { Power.reset with droop := true } } : State).cycleUnits = 40 * nsUnits := by
  decide +kernel

end Sys2Proof.Tests
end

