-- ==== Sys2Proof/Proofs/RegisterMap.lean ====
section
/-!
SUPPORT. The register map (R543) as a bijection: no two of its rows share an offset or a register with its index, so that
`regOffset` and `regAt` are inverse to each other on the registers of the map. Facts about all rows are evaluated once, here.
-/

namespace Sys2Proof.Machine

open Sys2Proof

/-- The row gives register `n` the index `i`. -/
abbrev MapRow.Has (r : MapRow) (n : RegName) (i : Nat) : Prop := r.reg = n ∧ r.first ≤ i ∧ i < r.first + r.count

/-- The offset a row gives to its register of index `i`. -/
def MapRow.offset (r : MapRow) (i : Nat) : Nat := r.base + r.stride * (i - r.first)

/-- A row's registers stand at multiples of 4, and at different offsets when there are several. -/
abbrev MapRow.Aligned (r : MapRow) : Prop := r.base % 4 = 0 ∧ r.stride % 4 = 0 ∧ (r.count = 1 ∨ 0 < r.stride)

/-- Two rows have no offset in common: the last one of either stands before the other, or they interleave with one stride. -/
abbrev MapRow.Apart (r q : MapRow) : Prop :=
  r.base + r.stride * (r.count - 1) < q.base ∨ q.base + q.stride * (q.count - 1) < r.base ∨
    (r.stride = q.stride ∧ r.base % r.stride ≠ q.base % r.stride)

/-- Two rows have no register with its index in common. -/
abbrev MapRow.OtherRegs (r q : MapRow) : Prop :=
  r.reg ≠ q.reg ∨ r.first + r.count ≤ q.first ∨ q.first + q.count ≤ r.first

/-! ## Facts about all rows -/

theorem mapRows_aligned : ∀ r ∈ mapRows, r.Aligned := by decide +kernel

theorem mapRows_apart : ∀ r ∈ mapRows, ∀ q ∈ mapRows, r = q ∨ r.Apart q ∧ r.OtherRegs q := by decide +kernel

/-- The _HI registers of a row of _LO registers have a row too, 4 bytes above (R12, R543). -/
theorem mapRows_hi : ∀ r ∈ mapRows, ∀ h ∈ r.reg.hiOf, { r with reg := h, base := r.base + 4 } ∈ mapRows := by decide +kernel

/-! ## Offsets -/

theorem MapRow.offset_le {r : MapRow} {i : Nat} (h : i < r.first + r.count) :
    r.offset i ≤ r.base + r.stride * (r.count - 1) :=
  Nat.add_le_add_left (Nat.mul_le_mul_left _ (by omega)) _

theorem MapRow.offset_mod_stride (r : MapRow) (i : Nat) : r.offset i % r.stride = r.base % r.stride :=
  Nat.add_mul_mod_self_left ..

theorem MapRow.offset_mod_four {r : MapRow} (a : r.Aligned) (i : Nat) : r.offset i % 4 = 0 := by
  obtain ⟨hb, hs, -⟩ := a
  simp [MapRow.offset, Nat.add_mod, Nat.mul_mod, hb, hs]

theorem MapRow.offset_ne_of_apart {r q : MapRow} (a : r.Apart q) {i j : Nat} (hi : i < r.first + r.count)
    (hj : j < q.first + q.count) : r.offset i ≠ q.offset j := by
  intro e
  obtain below | above | ⟨stride, base⟩ := a
  · exact absurd (r.offset_le hi) (Nat.not_le.2 (below.trans_le (e ▸ Nat.le_add_right ..)))
  · exact absurd (q.offset_le hj) (Nat.not_le.2 (above.trans_le (e ▸ Nat.le_add_right ..)))
  · have hr := r.offset_mod_stride i
    have hq := q.offset_mod_stride j
    rw [e, stride] at hr
    exact base (stride ▸ hr.symm.trans hq)

/-- The index a row gives to an offset is the one whose offset it is. -/
theorem MapRow.indexAt_eq_some {r : MapRow} (a : r.Aligned) {off i : Nat} :
    r.indexAt off = some i ↔ r.first ≤ i ∧ i < r.first + r.count ∧ off = r.offset i := by
  unfold MapRow.indexAt MapRow.offset
  obtain ⟨-, -, pos⟩ := a
  by_cases below : off < r.base
  · rw [if_pos below]
    simp only [reduceCtorEq, false_iff]
    omega
  rw [if_neg below]
  by_cases one : r.count = 1
  · rw [if_pos one, one, Option.ite_none_right_eq_some, Option.some_inj]
    constructor
    · rintro ⟨rfl, rfl⟩
      simp
    · rintro ⟨first, last, at_i⟩
      obtain rfl : r.first = i := by omega
      simpa using at_i
  · have pos := pos.resolve_left one
    rw [if_neg one, Option.ite_none_right_eq_some, Option.some_inj]
    constructor
    · rintro ⟨⟨aligned, inside⟩, rfl⟩
      have e := Nat.div_add_mod (off - r.base) r.stride
      rw [Nat.add_sub_cancel_left]
      exact ⟨Nat.le_add_right .., Nat.add_lt_add_left inside _, by omega⟩
    · rintro ⟨first, last, rfl⟩
      rw [Nat.add_sub_cancel_left, Nat.mul_mod_right, Nat.mul_div_cancel_left _ pos]
      omega

/-! ## The map and the offsets are inverse to each other -/

/-- The offset of a register is the one its row gives it. -/
theorem regOffset_of_row {r : MapRow} (m : r ∈ mapRows) {n : RegName} {i : Nat} (h : r.Has n i) : regOffset n i = r.offset i := by
  unfold regOffset
  cases e : mapRows.find? (fun r => decide (r.reg = n ∧ r.first ≤ i ∧ i < r.first + r.count)) with
  | none => exact absurd h (by simpa using List.find?_eq_none.1 e r m)
  | some q =>
    have hq : q.Has n i := by simpa using List.find?_some e
    obtain rfl | ⟨-, other⟩ := mapRows_apart r m q (List.mem_of_find?_eq_some e)
    · rfl
    · obtain ⟨rfl, hr⟩ := h
      obtain ⟨name, hq⟩ := hq
      obtain ne | above | below := other
      · exact absurd name.symm ne
      · omega
      · omega

/-- The register at the offset a row gives is the row's. -/
theorem regAt_of_row {r : MapRow} (m : r ∈ mapRows) {n : RegName} {i : Nat} (h : r.Has n i) : regAt (r.offset i) = some (n, i) := by
  obtain ⟨rfl, hi⟩ := h
  have own : r.indexAt (r.offset i) = some i := (MapRow.indexAt_eq_some (mapRows_aligned r m)).2 ⟨hi.1, hi.2, rfl⟩
  unfold regAt
  cases e : mapRows.findSome? (fun q => (q.indexAt (r.offset i)).map (fun j => (q.reg, j))) with
  | none => simpa [own] using List.findSome?_eq_none_iff.1 e r m
  | some x =>
    obtain ⟨q, mq, hq⟩ := List.exists_of_findSome?_eq_some e
    obtain ⟨j, hj, rfl⟩ := Option.map_eq_some_iff.1 hq
    obtain rfl | ⟨apart, -⟩ := mapRows_apart r m q mq
    · rw [Option.some.inj (hj.symm.trans own)]
    · obtain ⟨-, lt, same⟩ := (MapRow.indexAt_eq_some (mapRows_aligned q mq)).1 hj
      exact absurd same (MapRow.offset_ne_of_apart apart hi.2 lt)

/-- The map gives the offset of a register back to it (R543). -/
theorem regAt_regOffset {n : RegName} {i : Nat} (h : Mapped n i) : regAt (regOffset n i) = some (n, i) := by
  obtain ⟨r, m, h⟩ := h
  rw [regOffset_of_row m h, regAt_of_row m h]

theorem regOffset_mod_four {n : RegName} {i : Nat} (h : Mapped n i) : regOffset n i % 4 = 0 := by
  obtain ⟨r, m, h⟩ := h
  rw [regOffset_of_row m h]
  exact MapRow.offset_mod_four (mapRows_aligned r m) i

theorem mapped_hi {lo h : RegName} (p : lo.hiOf = some h) {i : Nat} (m : Mapped lo i) : Mapped h i := by
  obtain ⟨r, mr, rfl, hi⟩ := m
  exact ⟨_, mapRows_hi r mr h p, rfl, hi⟩

/-- The _HI register of a pair follows its _LO register (R12). -/
theorem regOffset_hi {lo h : RegName} (p : lo.hiOf = some h) {i : Nat} (m : Mapped lo i) : regOffset h i = regOffset lo i + 4 := by
  obtain ⟨r, mr, rfl, hi⟩ := m
  rw [regOffset_of_row mr ⟨rfl, hi⟩, regOffset_of_row (mapRows_hi r mr h p) ⟨rfl, hi⟩]
  exact Nat.add_right_comm ..

end Sys2Proof.Machine
end

