-- ==== Sys2Proof/Proofs/RegisterReads.lean ====
section
/-!
SUPPORT. Reads of registers by offset (R12, R538): one rule for the read of a _LO register, one for a _HI register whose value is
captured and one for a register with nothing captured; and that a _HI register decides no requester's rights.
-/

namespace Sys2Proof.Machine

open Sys2Proof

/-! ## The captured values -/

/-- The value captured for the next read of a register, if any (R12). -/
def State.captured (s : State) (n : RegName) (i : Nat) : Option Word := Sparse.rd (fun _ => none) (regKey n i) s.hi

/-- Captures a value for the next read of a register, or takes the captured value away. -/
def State.setCaptured (s : State) (n : RegName) (i : Nat) (c : Option Word) : State :=
  { s with hi := Sparse.wr (fun _ => none) (regKey n i) c s.hi }

@[simp] theorem State.captured_setCaptured (s : State) (n : RegName) (i : Nat) (c : Option Word) :
    (s.setCaptured n i c).captured n i = c := Sparse.rd_wr_same ..

@[simp] theorem State.captured_setReg (s : State) (n m : RegName) (i j : Nat) (v : Word) :
    (s.setReg n i v).captured m j = s.captured m j := rfl

@[simp] theorem State.captured_readsAs (s : State) (v : Word) (n : RegName) (i : Nat) :
    (s.readsAs v).captured n i = s.captured n i := rfl

@[simp] theorem State.reg_setCaptured (s : State) (n m : RegName) (i j : Nat) (c : Option Word) :
    (s.setCaptured n i c).reg m j = s.reg m j := rfl

@[simp] theorem State.resp_readsAs (s : State) (v : Word) : (s.readsAs v).resp = leBytes 4 v.toNat := rfl

@[simp] theorem State.reg_readsAs (s : State) (v : Word) (n : RegName) (i : Nat) : (s.readsAs v).reg n i = s.reg n i := rfl

/-! ## The registers of a pair

`cases` on the name and on `p` leaves the pairs that `RegName.hiOf` names. -/

/-- A _HI register has no _HI register of its own. -/
theorem RegName.hiOf_hi {lo h : RegName} (p : lo.hiOf = some h) : h.hiOf = none := by
  cases lo <;> cases p <;> rfl

/-- A _LO register shows its stored word. -/
theorem State.readReg_lo {lo h : RegName} (p : lo.hiOf = some h) (s : State) (i : Nat) : s.readReg lo i = s.reg lo i := by
  cases lo <;> cases p <;> rfl

/-- A _HI register shows its stored word. -/
theorem State.readReg_hi {lo h : RegName} (p : lo.hiOf = some h) (s : State) (i : Nat) : s.readReg h i = s.reg h i := by
  cases lo <;> cases p <;> rfl

/-! ## Rights -/

/-- The registers that decide what a requester may read: the map of engine groups, the enabled and mapped VFs, and the owners of
queues and objects (R436, R537, R538). -/
def rightsRegs : List RegName := [.sysPartmap, .pciStat, .pciFnmap, .qCfg, .syncCfg]

theorem RegName.hi_not_rights {lo h : RegName} (p : lo.hiOf = some h) : h ∉ rightsRegs := by
  cases lo <;> cases p <;> decide

theorem State.vfPart_setReg {n : RegName} (g : n ∉ rightsRegs) (s : State) (i : Nat) (v : Word) : (s.setReg n i v).vfPart = s.vfPart := by
  funext d k
  have stat : .pciStat ≠ n := fun e => g (by simp [← e, rightsRegs])
  have fnmap : .pciFnmap ≠ n := fun e => g (by simp [← e, rightsRegs])
  unfold State.vfPart State.vfOn State.vfMapped
  rw [State.fld_setReg_ne _ _ _ (fun e => stat e.1), State.reg_setReg_ne _ _ (fun e => fnmap e.1)]

theorem State.vfReach_setReg {n : RegName} (g : n ∉ rightsRegs) (s : State) (i : Nat) (v : Word) :
    (s.setReg n i v).vfReach = s.vfReach := by
  funext d k p m j w
  have cfg : .qCfg ≠ n := fun e => g (by simp [← e, rightsRegs])
  have obj : .syncCfg ≠ n := fun e => g (by simp [← e, rightsRegs])
  have partmap : .sysPartmap ≠ n := fun e => g (by simp [← e, rightsRegs])
  unfold State.vfReach State.qPart State.objPart State.egPart State.blockPart
  rw [State.fld_setReg_ne _ _ _ (fun e => cfg e.1), State.fld_setReg_ne _ _ _ (fun e => obj e.1),
    State.reg_setReg_ne _ _ (fun e => partmap e.1)]

theorem State.hostServed_setReg {n : RegName} (g : n ∉ rightsRegs) (s : State) (i : Nat) (v : Word) :
    (s.setReg n i v).hostServed = s.hostServed := by
  funext who
  cases who with
  | vf d k => unfold State.hostServed; rw [State.vfPart_setReg g]; rfl
  | _ => rfl

theorem State.mayRead_setReg {n : RegName} (g : n ∉ rightsRegs) (s : State) (i : Nat) (v : Word) :
    (s.setReg n i v).mayRead = s.mayRead := by
  funext who
  cases who with
  | vf d k => unfold State.mayRead; rw [State.vfPart_setReg g, State.vfReach_setReg g]
  | _ => rfl

/-! Neither captured values nor answers decide rights. -/

@[simp] theorem State.hostServed_setCaptured (s : State) (n : RegName) (i : Nat) (c : Option Word) :
    (s.setCaptured n i c).hostServed = s.hostServed := rfl

@[simp] theorem State.mayRead_setCaptured (s : State) (n : RegName) (i : Nat) (c : Option Word) :
    (s.setCaptured n i c).mayRead = s.mayRead := rfl

@[simp] theorem State.hostServed_readsAs (s : State) (v : Word) : (s.readsAs v).hostServed = s.hostServed := rfl

@[simp] theorem State.mayRead_readsAs (s : State) (v : Word) : (s.readsAs v).mayRead = s.mayRead := rfl

/-- Whether a requester's read of a register is served (R538). -/
abbrev MayRead (s : State) (who : Requester) (n : RegName) (i : Nat) : Prop := s.hostServed who = true ∧ s.mayRead who n i = true

/-! ## Reads -/

/-- A served read of a register by its offset. -/
theorem runs_regReadLo {s : State} {who : Requester} {n : RegName} {i : Nat} (m : Mapped n i) (g : MayRead s who n i) :
    Runs (.regReadLo who (regOffset n i)) s ((s.readAt n i).2.readsAs (s.readAt n i).1) := by
  obtain ⟨served, rights⟩ := g
  change Host.Outcome.next (s.regRead who (regOffset n i)) = _
  simp [State.regRead, served, rights, regOffset_mod_four m, regAt_regOffset m]

/-- A read of a _LO register returns it and captures its _HI register (R12). -/
theorem runs_regReadLo_lo {s : State} {who : Requester} {lo h : RegName} {i : Nat} (p : lo.hiOf = some h) (m : Mapped lo i)
    (g : MayRead s who lo i) :
    Runs (.regReadLo who (regOffset lo i)) s ((s.setCaptured h i (some (s.reg h i))).readsAs (s.reg lo i)) := by
  have e : s.readAt lo i = (s.reg lo i, s.setCaptured h i (some (s.reg h i))) := by
    simp [State.readAt, p, State.readReg_lo p, State.readReg_hi p, State.setCaptured]
  simpa [e] using runs_regReadLo m g

/-- A read of a _HI register with a captured value returns and uses up that value (R12). -/
theorem runs_regReadLo_captured {s : State} {who : Requester} {h : RegName} {i : Nat} {c : Word} (p : h.hiOf = none)
    (m : Mapped h i) (g : MayRead s who h i) (e : s.captured h i = some c) :
    Runs (.regReadLo who (regOffset h i)) s ((s.setCaptured h i none).readsAs c) := by
  unfold State.captured at e
  have e : s.readAt h i = (c, s.setCaptured h i none) := by
    simp [State.readAt, p, e, State.setCaptured]
  simpa [e] using runs_regReadLo m g

/-- A read of a register with nothing captured returns what it shows (log entry 12). -/
theorem runs_regReadLo_uncaptured {s : State} {who : Requester} {h : RegName} {i : Nat} (p : h.hiOf = none)
    (m : Mapped h i) (g : MayRead s who h i) (e : s.captured h i = none) :
    Runs (.regReadLo who (regOffset h i)) s (s.readsAs (s.readReg h i)) := by
  unfold State.captured at e
  have e : s.readAt h i = (s.readReg h i, s) := by
    simp [State.readAt, p, e]
  simpa [e] using runs_regReadLo m g

/-- A read of a _LO register, a write of its _HI register and two reads of it. -/
theorem reads_of_pair {s : State} {who : Requester} {lo h : RegName} {i : Nat} (p : lo.hiOf = some h) (m : Mapped lo i)
    (gl : MayRead s who lo i) (gh : MayRead s who h i) :
    ∃ t, Runs (.regReadLo who (regOffset lo i)) s t ∧ t.resp = leBytes 4 (s.reg lo i).toNat ∧
      t = { s with resp := t.resp, hi := t.hi } ∧
      ∀ v : Word, ∃ u w, Runs (.regReadLo who (regOffset h i)) (t.setReg h i v) u ∧ u.resp = leBytes 4 (s.reg h i).toNat ∧
        Runs (.regReadLo who (regOffset h i)) u w ∧ w.resp = leBytes 4 v.toNat := by
  have single := RegName.hiOf_hi p
  have mh := mapped_hi p m
  refine ⟨_, runs_regReadLo_lo p m gl, rfl, rfl, fun v => ?_⟩
  have held := RegName.hi_not_rights p
  have served := State.hostServed_setReg held
  have rights := State.mayRead_setReg held
  refine ⟨_, _, runs_regReadLo_captured single mh (by simpa [MayRead, served, rights] using gh) (c := s.reg h i) (by simp), rfl,
    runs_regReadLo_uncaptured single mh (by simpa [MayRead, served, rights] using gh) (by simp), ?_⟩
  simp [State.readReg_hi p]

end Sys2Proof.Machine
end

