-- ==== Sys2Proof/Proofs/Scope.lean ====
section
/-!
PROOFS. The statements of chapter 00.
-/

open Sys2Proof Sys2Proof.Machine

/-- Settles O11: a row's offsets are multiples of 4 and its _HI row stands 4 bytes above; the three reads run by their rules, since
neither the captured value nor a write of the _HI register touches what decides the requester's rights. -/
theorem readOfLowHalfCapturesHighHalf : Obligations.ReadOfLowHalfCapturesHighHalf := by
  unfold Obligations.ReadOfLowHalfCapturesHighHalf
  exact ⟨fun _ _ m => regOffset_mod_four m, fun _ _ _ p m =>
    ⟨regOffset_hi p m, fun _ _ served lo hi => reads_of_pair p m ⟨served, lo⟩ ⟨served, hi⟩⟩⟩

end

