-- ==== Sys2Proof/Proofs/ObjectOps.lean ====
section
/-!
SUPPORT. Operations on synchronisation objects (R254): what an operation that the table admits answers and leaves alone, and what the
reset of a work counter (R224) sets.
-/

namespace Sys2Proof.Machine

open Sys2Proof

/-! ## The effect of an operation -/

/-- An operation leaves the state of its effect but for the waits that it latches, of queues and of cores, and the marks of pre-reads
that a change of ERR makes stale (R250, R256). -/
theorem State.objOp_eq_objEffect (s : State) (o op : Nat) (v : Word) (t : Nat) :
    let e := s.objEffect o op v
    let r := (s.objOp o op v t).2
    r = { e with cores := r.cores, cp := { e.cp with holds := r.cp.holds, window := r.cp.window } } := by
  unfold State.objOp
  dsimp only
  split <;> rfl

theorem State.objOp_regs (s : State) (o op : Nat) (v : Word) (t : Nat) : (s.objOp o op v t).2.regs = (s.objEffect o op v).regs :=
  (congrArg State.regs (State.objOp_eq_objEffect s o op v t) :)

theorem State.objOp_mem (s : State) (o op : Nat) (v : Word) (t : Nat) : (s.objOp o op v t).2.mem = (s.objEffect o op v).mem :=
  (congrArg State.mem (State.objOp_eq_objEffect s o op v t) :)

theorem State.objLimit_objOp (s : State) (o op : Nat) (v : Word) (t p : Nat) :
    (s.objOp o op v t).2.objLimit p = (s.objEffect o op v).objLimit p :=
  (congrArg (State.objLimit · p) (State.objOp_eq_objEffect s o op v t) :)

/-- The result of an operation: VALUE and ERR before it, and GEN of a work counter after it (R254). -/
theorem State.objOp_result (s : State) (o op : Nat) (v : Word) (t : Nat) :
    (s.objOp o op v t).1 = objResult (s.reg .syncObj o).toNat (s.fld F.syncCfg_ERR o)
      (if s.objCounter o then (s.objEffect o op v).fld F.syncCfg_GEN o else 0) := by
  rw [← State.fld_of_regs (State.objOp_regs s o op v t)]
  rfl

/-- No operation stores to memory. -/
theorem State.objEffect_mem (s : State) (o op : Nat) (v : Word) : (s.objEffect o op v).mem = s.mem := by
  unfold State.objEffect
  split
  case h_4 => split <;> rfl -- SO_SETERR, where ERR is 0 and where it is not
  all_goals rfl

/-- An operation changes no register but the two of its object. -/
theorem State.reg_objEffect_ne (s : State) {o : Nat} (op : Nat) (v : Word) {n : RegName} {i : Nat}
    (h : ¬ ((n = .syncObj ∨ n = .syncCfg) ∧ i = o)) : (s.objEffect o op v).reg n i = s.reg n i := by
  have value (u : State) (x : Word) : (u.setReg .syncObj o x).reg n i = u.reg n i :=
    State.reg_setReg_ne u x (fun e => h ⟨.inl e.1, e.2⟩)
  have config (u : State) (f : Fld) (hf : f.reg = .syncCfg) (x : Nat) : (u.setFld f o x).reg n i = u.reg n i :=
    State.reg_setFld_ne u f x (fun e => h ⟨.inr (e.1.trans hf), e.2⟩)
  unfold State.objEffect
  split
  · exact value _ _ -- SO_SET
  · exact value _ _ -- SO_ADD
  · exact value _ _ -- SO_MAX
  · split -- SO_SETERR, where ERR is 0 and where it is not
    · exact config _ _ rfl _
    · rfl
  · exact config _ _ rfl _ -- SO_CLRERR
  · exact (config _ _ rfl _).trans (value _ _) -- CRESET
  · rfl -- the reads

/-- An operation that the table admits, by a requester that acts for the object's partition, happens at the object (R254). -/
theorem State.objAccess_admitted {s : State} {who : Requester} {o op : Nat} (served : s.hostServed who = true)
    (acts : s.actsFor who (s.objPart o) = true) (admits : s.objOpOk o op = true) (v : Word) :
    s.objAccess who o op v = { (s.objOp o op v s.cycle).2 with resp := leBytes 8 (s.objOp o op v s.cycle).1 } := by
  simp [State.objAccess, served, acts, admits]

/-! ## The reset of a work counter (R224) -/

theorem State.objEffect_creset (s : State) (o : Nat) (v : Word) :
    s.objEffect o 8 v = ((s.setReg .syncObj o 0#32).setObjLimit o v).advance F.syncCfg_GEN o 1 := rfl

/-- The reset sets NEXT to 0. -/
theorem State.next_creset (s : State) (o : Nat) (v : Word) : (s.objEffect o 8 v).reg .syncObj o = 0#32 := by
  rw [State.objEffect_creset, State.advance, State.reg_setFld_ne _ _ _ (by simp [F.syncCfg_GEN])]
  exact State.reg_setReg_same ..

/-- The reset sets LIMIT to its operand. -/
theorem State.objLimit_creset (s : State) (o : Nat) (v : Word) : (s.objEffect o 8 v).objLimit o = v.toNat :=
  State.objLimit_setObjLimit (s.setReg .syncObj o 0#32) o v

/-- The reset changes LIMIT of no other object. -/
theorem State.objLimit_creset_ne (s : State) {o p : Nat} (v : Word) (h : p ≠ o) : (s.objEffect o 8 v).objLimit p = s.objLimit p :=
  State.objLimit_setObjLimit_ne (s.setReg .syncObj o 0#32) v h

/-- The reset advances GEN modulo 65,536. -/
theorem State.gen_creset (s : State) (o : Nat) (v : Word) :
    (s.objEffect o 8 v).fld F.syncCfg_GEN o = (s.fld F.syncCfg_GEN o + 1) % 65536 := by
  have kept : ((s.setReg .syncObj o 0#32).setObjLimit o v).fld F.syncCfg_GEN o = s.fld F.syncCfg_GEN o :=
    State.fld_setReg_ne s F.syncCfg_GEN 0#32 (by simp [F.syncCfg_GEN])
  rw [State.objEffect_creset, State.advance, State.fld_setFld_same _ _ _ _ rfl, kept]
  rfl

/-- The reset returns NEXT and ERR as they were and GEN as it becomes. -/
theorem State.result_creset {s : State} {o : Nat} (counter : s.objCounter o = true) (v : Word) (t : Nat) :
    (s.objOp o 8 v t).1 = (s.reg .syncObj o).toNat + 2 ^ 32 * s.fld F.syncCfg_ERR o + 2 ^ 48 * ((s.fld F.syncCfg_GEN o + 1) % 65536) := by
  rw [State.objOp_result, if_pos counter, State.gen_creset, objResult]

/-- CRESET on a work counter of the requester's partition happens at the object. -/
theorem runs_creset {s : State} {who : Requester} {o : Nat} (ho : o < 65536) (served : s.hostServed who = true)
    (acts : s.actsFor who (s.objPart o) = true) (counter : s.objCounter o = true) (v : Word) :
    Runs (.creset who o v) s { (s.objOp o 8 v s.cycle).2 with resp := leBytes 8 (s.objOp o 8 v s.cycle).1 } := by
  have admits : s.objOpOk o 8 = true := counter
  rw [← State.objAccess_admitted served acts admits v]
  exact inRange_of (decide_eq_true ho) (fun _ => .next (s.objAccess who o 8 v))

end Sys2Proof.Machine
end

