-- ==== Sys2Proof/Proofs/BasilCores.lean ====
section
/-!
PROOFS. The statements of chapter 08.
-/

open Sys2Proof Sys2Proof.Machine

/-- Settles O20: CRESET is admitted in counter mode, its effect on NEXT, LIMIT and GEN is that of the reset, and latching the waits
afterwards keeps all of them. -/
theorem counterResetStartsAGeneration : Obligations.CounterResetStartsAGeneration := by
  unfold Obligations.CounterResetStartsAGeneration
  intro s who o v ho served acts counter
  have regs := State.objOp_regs s o 8 v s.cycle
  have limit := State.objLimit_objOp s o 8 v s.cycle
  refine ⟨_, runs_creset ho served acts counter v, ?next, ?limit, ?gen, ?result, ?frame, ?limits, ?bytes, bits_lt ..⟩
  case next => exact (State.reg_of_regs regs ..).trans (State.next_creset s o v)
  case limit => exact (limit o).trans (State.objLimit_creset s o v)
  case gen => exact (State.fld_of_regs regs ..).trans (State.gen_creset s o v)
  case result => exact congrArg (leBytes 8) (State.result_creset counter v s.cycle)
  case frame => exact fun n i h => (State.reg_of_regs regs n i).trans (State.reg_objEffect_ne s 8 v h)
  case limits => exact fun p h => (limit p).trans (State.objLimit_creset_ne s v h)
  case bytes => exact KeepsBytes.of_mem ((State.objOp_mem s o 8 v s.cycle).trans (State.objEffect_mem s o 8 v))

end

