-- ==== Sys2Proof/Proofs/QueueHalts.lean ====
section
/-!
SUPPORT. Halts and restarts of queues (R264): what keeps the registers of the queues and the commands in flight, the halt that the
drain of an error completion takes, and the restart by RESUME or SKIP.
-/

namespace Sys2Proof.Machine

open Sys2Proof

/-- Q_CFG and Q_STAT of every queue stand as they were, and so do the commands in flight. -/
structure KeepsQueues (s t : State) : Prop where
  regs : ∀ n i, n = .qCfg ∨ n = .qStat → t.reg n i = s.reg n i
  inflight : t.cp.inflight = s.cp.inflight

namespace KeepsQueues

variable {r s t : State}

theorem refl (s : State) : KeepsQueues s s := ⟨fun _ _ _ => rfl, rfl⟩

theorem trans (h : KeepsQueues r s) (g : KeepsQueues s t) : KeepsQueues r t :=
  ⟨fun n i e => (g.regs n i e).trans (h.regs n i e), g.inflight.trans h.inflight⟩

theorem of_regs (regs : t.regs = s.regs) (inflight : t.cp.inflight = s.cp.inflight) : KeepsQueues s t :=
  ⟨fun n i _ => State.reg_of_regs regs n i, inflight⟩

/-- A write of a field of another register. -/
theorem setFld (s : State) {f : Fld} (other : f.reg ≠ .qCfg ∧ f.reg ≠ .qStat) (i v : Nat) : KeepsQueues s (s.setFld f i v) :=
  ⟨fun n j e => State.reg_setFld_ne s f v (fun g => by rcases e with rfl | rfl <;> simp_all), rfl⟩

/-- What posting event records changes. -/
theorem of_onlyEvents (h : OnlyEvents s t) : KeepsQueues s t := by
  refine ⟨fun n i e => h.regs n i ?_ not_false, (congrArg (·.cp.inflight) h.units :)⟩
  rcases e with rfl | rfl <;> simp [EventReg]

theorem fld (h : KeepsQueues s t) (f : Fld) (q : f.reg = .qCfg ∨ f.reg = .qStat) (i : Nat) : t.fld f i = s.fld f i := by
  unfold State.fld
  rw [h.regs _ i q]

theorem flag (h : KeepsQueues s t) (f : Fld) (q : f.reg = .qCfg ∨ f.reg = .qStat) (i : Nat) : t.flag f i = s.flag f i := by
  unfold State.flag
  rw [h.fld f q]

/-- Steps of a fold that keep, keep over the whole fold. -/
theorem foldl {α : Type} {f : State → α → State} (hf : ∀ s x, KeepsQueues s (f s x)) :
    ∀ (l : List α) (s : State), KeepsQueues s (l.foldl f s)
  | [], s => refl s
  | x :: l, s => (hf s x).trans (foldl hf l (f s x))

end KeepsQueues

/-! ## The actions of a drained completion -/

theorem State.keepsQueues_store (s : State) (a : Nat) (bs : List Byte) : KeepsQueues s (s.store a bs) :=
  .of_regs (State.store_regs ..) (congrArg (·.cp.inflight) (State.store_parts s a bs) :)

theorem State.keepsQueues_touch (s : State) (uid p eg a n : Nat) (k : ReqKind) : KeepsQueues s (s.touch uid p eg a n k) :=
  .of_regs (State.touch_regs ..) (by rw [State.touch_cp])

/-- A completion record goes to memory and advances CTAIL, or is counted in CMPLOST (R260). -/
theorem State.keepsQueues_putRecord (s : State) (q : Nat) (c : Completion) : KeepsQueues s (s.putRecord q c) := by
  unfold State.putRecord
  dsimp only
  split
  · exact .setFld _ (by decide) _ _
  · exact ((s.keepsQueues_store _ _).trans (State.keepsQueues_touch ..)).trans (.setFld _ (by decide) _ _)

/-- No operation on an object ends a command. -/
theorem State.objEffect_inflight (s : State) (o op : Nat) (v : Word) : (s.objEffect o op v).cp.inflight = s.cp.inflight := by
  unfold State.objEffect
  split
  case h_4 => split <;> rfl -- SO_SETERR, where ERR is 0 and where it is not
  all_goals rfl

theorem State.keepsQueues_objOp (s : State) (o op : Nat) (v : Word) (t : Nat) : KeepsQueues s (s.objOp o op v t).2 := by
  have effect : KeepsQueues s (s.objEffect o op v) :=
    ⟨fun n i e => State.reg_objEffect_ne s op v (fun g => by rcases e with rfl | rfl <;> simp at g), State.objEffect_inflight ..⟩
  exact effect.trans (.of_regs (State.objOp_regs ..) (congrArg (·.cp.inflight) (State.objOp_eq_objEffect s o op v t) :))

/-- The end of an episode counts in CP_JHIST and, where the job has a deadline, in CP_JDLCNT (R456). -/
theorem State.keepsQueues_endEpisode (s : State) (p j t : Nat) : KeepsQueues s (s.endEpisode p j t) := by
  have setJob (u : State) (v : JobState) : KeepsQueues u (u.setJob p j v) := .of_regs rfl rfl
  have count (u : State) (f : Fld) (other : f.reg ≠ .qCfg ∧ f.reg ≠ .qStat) (i : Nat) : KeepsQueues u (u.count f i 1) :=
    .setFld u other i _
  unfold State.endEpisode
  split
  · exact setJob _ _
  · refine .trans ?_ (setJob _ _)
    split
    · exact count s F.cpJhist_COUNT (by decide) _
    · split <;> exact (count s F.cpJhist_COUNT (by decide) _).trans (count _ _ (by decide) _)

theorem State.keepsQueues_endEpisodes (s : State) (p o t : Nat) : KeepsQueues s (s.endEpisodes p o t) := by
  refine .foldl (fun u j => ?_) _ s
  split
  · exact u.keepsQueues_endEpisode p j t
  · exact .refl u

theorem State.keepsQueues_signal (s : State) (c : Completion) (u : Nat) : KeepsQueues s (s.signal c u) := by
  unfold State.signal
  dsimp only
  split
  · exact .refl s
  · refine .trans ?_ (State.keepsQueues_endEpisodes ..)
    split <;> exact s.keepsQueues_objOp ..

theorem State.keepsQueues_settleJob (s : State) (p j : Nat) : KeepsQueues s (s.settleJob p j) := by
  unfold State.settleJob
  split
  · exact .refl s
  · exact .setFld s (by decide) _ _

/-! ## Halts -/

theorem State.keepsQueues_setQueue (s : State) (q : Nat) (v : QueueState) : KeepsQueues s (s.setQueue q v) :=
  .of_regs rfl rfl

/-- A field's window shows in WINDOW of its CP_STAT (R267). -/
theorem State.keepsQueues_setWindow (s : State) (f : Nat) (w : List Decoded) : KeepsQueues s (s.setWindow f w) := by
  have listed : KeepsQueues s { s with cp := { s.cp with window := Sparse.wr (fun _ => []) f w s.cp.window } } := .of_regs rfl rfl
  exact listed.trans (.setFld _ (f := F.cpStat_WINDOW) (by decide) f w.length)

theorem State.keepsQueues_undecode (s : State) (q : Nat) : KeepsQueues s (s.undecode q) := by
  unfold State.undecode
  exact (s.keepsQueues_setWindow _ _).trans (State.keepsQueues_setQueue ..)

/-- A halt changes STATE and CAUSE of its queue and of the queues' registers nothing else. -/
theorem State.keepsQueues_halt (s : State) (q cause addr : Nat) :
    KeepsQueues ((s.setFld F.qStat_STATE q 2).setFld F.qStat_CAUSE q cause) (s.halt q cause addr) := by
  unfold State.halt
  exact ((State.keepsQueues_undecode _ q).trans (State.keepsQueues_setQueue ..)).trans (.of_onlyEvents (State.event_onlyEvents ..))

/-- STATE and CAUSE of a queue after both are written. -/
theorem State.stateAndCause_written (s : State) (q : Nat) {state cause : Nat} (hs : state < 4) (hc : cause < 4) :
    ((s.setFld F.qStat_STATE q state).setFld F.qStat_CAUSE q cause).fld F.qStat_STATE q = state ∧
      ((s.setFld F.qStat_STATE q state).setFld F.qStat_CAUSE q cause).fld F.qStat_CAUSE q = cause := by
  constructor
  · rw [State.fld_setFld_apart _ F.qStat_CAUSE F.qStat_STATE q cause rfl rfl rfl, State.fld_setFld_same _ _ _ _ rfl]
    exact Nat.mod_eq_of_lt hs
  · rw [State.fld_setFld_same _ _ _ _ rfl]
    exact Nat.mod_eq_of_lt hc

theorem State.halt_inflight (s : State) (q cause addr : Nat) : (s.halt q cause addr).cp.inflight = s.cp.inflight := by
  rw [(s.keepsQueues_halt q cause addr).inflight, State.setFld_cp, State.setFld_cp]

/-- The drain of an error completion of a running queue with HALTERR = 1 ends in the queue's halt. -/
theorem State.drainActions_halts {s : State} {c : Completion} {q : Nat} (issuer : c.cmd.issuer = .queue q)
    (halterr : s.flag F.qCfg_HALTERR q = true) (error : 0x10 ≤ c.final.toNat) (running : s.fld F.qStat_STATE q = 1) (u : Nat) :
    ∃ r, KeepsQueues s r ∧ s.drainActions c u = r.halt q 2 c.res.addr := by
  unfold State.drainActions
  rw [issuer]
  dsimp only
  generalize record : (if hdrIrq c.cmd.bytes || s.flag F.qCfg_CMPALL q || c.final ≠ St.ok then s.putRecord q c else s) = s1
  generalize irq : (if hdrIrq c.cmd.bytes && (s1.signal c u).flag F.qVec_EN q then
    (s1.signal c u).msix ((s1.signal c u).fld F.qVec_FUNC q) (some c.cmd.part) ((s1.signal c u).fld F.qVec_VECTOR q)
      else s1.signal c u) = s3
  have recorded : KeepsQueues s s1 := by
    subst record
    split
    · exact s.keepsQueues_putRecord q c
    · exact .refl s
  have interrupted : KeepsQueues (s1.signal c u) s3 := by
    subst irq
    split
    · exact .of_onlyEvents (State.msix_onlyEvents ..)
    · exact .refl _
  have kept : KeepsQueues s s3 := (recorded.trans (s1.keepsQueues_signal c u)).trans interrupted
  refine ⟨s3, kept, if_pos ?_⟩
  simp [kept.flag F.qCfg_HALTERR (.inl rfl), kept.fld F.qStat_STATE (.inr rfl), halterr, error, running]

/-- The drain of a completion takes the actions of the earliest one of its entry. -/
theorem State.drain_earliest {s : State} {f e : Nat} {c : Completion} (first : earliest (s.entry f e) = some c) :
    ∃ r, KeepsQueues s r ∧ s.drain f e = (r.drainActions c (s.drainTime f e c)).settleJob c.cmd.part c.cmd.job := by
  unfold State.drain
  rw [first]
  refine ⟨_, ?_, rfl⟩
  exact .of_regs rfl rfl

/-- The drain of an error completion halts its queue, if that runs with HALTERR = 1, with CAUSE = 2. -/
theorem State.drain_halts {s : State} {f e q : Nat} {c : Completion} (first : earliest (s.entry f e) = some c)
    (issuer : c.cmd.issuer = .queue q) (halterr : s.flag F.qCfg_HALTERR q = true) (error : 0x10 ≤ c.final.toNat)
    (running : s.fld F.qStat_STATE q = 1) :
    (s.drain f e).fld F.qStat_STATE q = 2 ∧ (s.drain f e).fld F.qStat_CAUSE q = 2 ∧
      (s.drain f e).cp.inflight = s.cp.inflight := by
  obtain ⟨r, taken, drained⟩ := State.drain_earliest first
  obtain ⟨w, acted, halts⟩ := State.drainActions_halts issuer ((taken.flag _ (.inl rfl) q).trans halterr) error
    ((taken.fld _ (.inr rfl) q).trans running) (s.drainTime f e c)
  obtain ⟨state, cause⟩ := w.stateAndCause_written q (state := 2) (cause := 2) (by decide) (by decide)
  have settled := State.keepsQueues_settleJob (w.halt q 2 c.res.addr) c.cmd.part c.cmd.job
  have kept := (w.keepsQueues_halt q 2 c.res.addr).trans settled
  rw [drained, halts]
  refine ⟨(kept.fld F.qStat_STATE (.inr rfl) q).trans state, (kept.fld F.qStat_CAUSE (.inr rfl) q).trans cause, ?_⟩
  rw [settled.inflight, State.halt_inflight, acted.inflight, taken.inflight]

/-- What a table of lists reads at a key, one of its pairs lists. -/
theorem Sparse.mem_rd {α : Type} {k : Nat} {c : α} {m : Sparse (List α)} (h : c ∈ Sparse.rd (fun _ => []) k m) :
    ∃ kv ∈ m, c ∈ kv.2 := by
  induction m with
  | nil => simp [Sparse.rd] at h
  | cons x m ih =>
    rw [Sparse.rd] at h
    split at h
    · exact ⟨x, List.mem_cons_self, h⟩
    · obtain ⟨kv, mem, listed⟩ := ih h
      exact ⟨kv, List.mem_cons_of_mem x mem, listed⟩

/-- A posted error completion in any collector entry is due to halt its queue. -/
theorem State.errorDue_of_posted {s : State} {q f e : Nat} {c : Completion} (halterr : s.flag F.qCfg_HALTERR q = true)
    (listed : c ∈ s.entry f e) (issuer : c.cmd.issuer = .queue q) (posted : c.posted ≤ s.cycle) (error : 0x10 ≤ c.final.toNat) :
    s.errorDue q = true := by
  obtain ⟨kv, mem, here⟩ := Sparse.mem_rd listed
  have any : kv.2.any (fun k => k.cmd.issuer == .queue q && decide (k.posted ≤ s.cycle) && decide (0x10 ≤ k.final.toNat)) = true :=
    List.any_eq_true.2 ⟨c, here, by simp [issuer, posted, error]⟩
  unfold State.errorDue
  rw [halterr, Bool.true_and]
  exact List.any_eq_true.2 ⟨kv, mem, any⟩

/-- No command of a queue is ready while an error is due to halt it. -/
theorem State.not_ready_of_errorDue {s : State} {q : Nat} (due : s.errorDue q = true) (d : Decoded) :
    s.ready (.queue q) d = false := by
  unfold State.ready
  simp [due]

/-! ## Restarts -/

/-- From state `s`, queue `q` runs again at position `h`: it decodes from there, nothing of it stands decoded in its field's window,
and the commands in flight and the bytes of memory are as they were. -/
def RestartedAt (q h : Nat) (s t : State) : Prop :=
  t.fld F.qStat_STATE q = 1 ∧ t.fld F.qStat_CAUSE q = 0 ∧ t.fld F.qStat_HEAD q = h ∧
    (t.queue q).dec = h ∧ (t.queue q).tail = (s.queue q).tail ∧ (∀ x ∈ t.window (s.qField q), x.queue ≠ q) ∧
    t.cp.inflight = s.cp.inflight ∧ KeepsBytes s t

/-- A restart changes STATE and CAUSE of its queue and of the queues' registers nothing else. -/
theorem State.keepsQueues_restartQueue (s : State) (q : Nat) :
    KeepsQueues ((s.setFld F.qStat_STATE q 1).setFld F.qStat_CAUSE q 0) (s.restartQueue q) := by
  unfold State.restartQueue
  exact (State.keepsQueues_undecode _ q).trans (State.keepsQueues_setQueue ..)

theorem State.queue_setFld (s : State) (f : Fld) (i v q : Nat) : (s.setFld f i v).queue q = s.queue q := rfl

theorem State.window_setQueue (s : State) (q f : Nat) (v : QueueState) : (s.setQueue q v).window f = s.window f := rfl

/-- No write of Q_STAT moves a queue to another field. -/
theorem State.qField_setFld (s : State) {f : Fld} (stat : f.reg = .qStat) (i v q : Nat) : (s.setFld f i v).qField q = s.qField q :=
  State.fld_setFld_ne s f F.qCfg_FIELD v (by simp [stat, F.qCfg_FIELD])

theorem State.head_setStateAndCause (s : State) (q state cause : Nat) :
    ((s.setFld F.qStat_STATE q state).setFld F.qStat_CAUSE q cause).fld F.qStat_HEAD q = s.fld F.qStat_HEAD q :=
  (State.fld_setFld_apart _ F.qStat_CAUSE F.qStat_HEAD q cause rfl rfl rfl).trans
    (State.fld_setFld_apart s F.qStat_STATE F.qStat_HEAD q state rfl rfl rfl)

theorem State.undecode_mem (s : State) (q : Nat) : (s.undecode q).mem = s.mem := rfl

/-- A queue that drops its decoded commands decodes from HEAD again. -/
theorem State.queue_undecode (s : State) (q : Nat) :
    (s.undecode q).queue q = { s.queue q with dec := s.fld F.qStat_HEAD q } := by
  unfold State.undecode
  dsimp only
  rw [State.queue_setQueue, (s.keepsQueues_setWindow _ _).fld F.qStat_HEAD (.inr rfl)]
  rfl

theorem State.queue_ne_of_mem_undecode {s : State} {q : Nat} {x : Decoded} (h : x ∈ (s.undecode q).window (s.qField q)) :
    x.queue ≠ q := by
  have window : (s.undecode q).window (s.qField q) = (s.window (s.qField q)).filter (fun d => d.queue != q) :=
    State.window_setWindow ..
  rw [window, List.mem_filter] at h
  simpa using h.2

/-- A restarted queue decodes from HEAD again, and its halt is over. -/
theorem State.queue_restartQueue (s : State) (q : Nat) :
    (s.restartQueue q).queue q = { s.queue q with dec := s.fld F.qStat_HEAD q, halted := none, haltSaw := false } := by
  unfold State.restartQueue
  dsimp only
  rw [State.queue_setQueue, State.queue_undecode, State.head_setStateAndCause, State.queue_setFld, State.queue_setFld]

theorem State.queue_ne_of_mem_restartQueue {s : State} {q : Nat} {x : Decoded}
    (h : x ∈ (s.restartQueue q).window (s.qField q)) : x.queue ≠ q := by
  rw [← s.qField_setFld (f := F.qStat_STATE) rfl q 1 q, ← State.qField_setFld _ (f := F.qStat_CAUSE) rfl q 0 q] at h
  unfold State.restartQueue at h
  dsimp only at h
  rw [State.window_setQueue] at h
  exact State.queue_ne_of_mem_undecode h

theorem State.restartQueue_mem (s : State) (q : Nat) : (s.restartQueue q).mem = s.mem := by
  unfold State.restartQueue
  dsimp only
  rw [State.setQueue_mem, State.undecode_mem, State.setFld_mem, State.setFld_mem]

theorem State.restartQueue_inflight (s : State) (q : Nat) : (s.restartQueue q).cp.inflight = s.cp.inflight := by
  rw [(s.keepsQueues_restartQueue q).inflight, State.setFld_cp, State.setFld_cp]

/-- A restart runs at HEAD, wherever that was moved to from state `s`. -/
theorem State.restartQueue_restarts {s r : State} {q h : Nat} (head : r.fld F.qStat_HEAD q = h)
    (field : r.qField q = s.qField q) (cp : r.cp = s.cp) (mem : r.mem = s.mem) : RestartedAt q h s (r.restartQueue q) := by
  have kept := r.keepsQueues_restartQueue q
  have queue : (r.restartQueue q).queue q = { s.queue q with dec := h, halted := none, haltSaw := false } := by
    rw [r.queue_restartQueue, head]
    unfold State.queue
    rw [cp]
  obtain ⟨state, cause⟩ := r.stateAndCause_written q (state := 1) (cause := 0) (by decide) (by decide)
  refine ⟨(kept.fld F.qStat_STATE (.inr rfl) q).trans state, (kept.fld F.qStat_CAUSE (.inr rfl) q).trans cause,
    ?head, ?dec, ?tail, ?window, ?inflight, .of_mem ((r.restartQueue_mem q).trans mem)⟩
  case head => exact ((kept.fld F.qStat_HEAD (.inr rfl) q).trans (r.head_setStateAndCause q 1 0)).trans head
  case dec | tail => rw [queue]
  case inflight => rw [r.restartQueue_inflight, cp]
  case window => exact field ▸ fun _ => State.queue_ne_of_mem_restartQueue

theorem State.head_setHead (s : State) (q : Nat) {h : Nat} (fits : h < 2 ^ 20) :
    (s.setFld F.qStat_HEAD q h).fld F.qStat_HEAD q = h :=
  (State.fld_setFld_same _ _ _ _ rfl).trans (Nat.mod_eq_of_lt fits)

/-- A ring position fits into HEAD. -/
theorem State.mod_ringUnits_lt {s : State} {q : Nat} (small : s.ringUnits q ≤ 2 ^ 20) (h : Nat) : h % s.ringUnits q < 2 ^ 20 :=
  Nat.lt_of_lt_of_le (Nat.mod_lt h (Nat.mul_pos (by decide) (Nat.two_pow_pos _))) small

/-! ## Writes of Q_CTRL -/

theorem State.writeQCtrl_resume {s : State} {q : Nat} (halted : s.fld F.qStat_STATE q = 2) :
    s.writeQCtrl q 1#32 = s.restartQueue q := by
  simp [State.writeQCtrl, halted, bit]

theorem State.writeQCtrl_skip {s : State} {q : Nat} (halted : s.fld F.qStat_STATE q = 2) :
    s.writeQCtrl q 2#32 =
      (s.setFld F.qStat_HEAD q ((s.fld F.qStat_HEAD q + s.skipUnits q) % s.ringUnits q)).restartQueue q := by
  simp [State.writeQCtrl, halted, bit]

/-- RESUME and SKIP together change nothing. -/
theorem State.writeQCtrl_both (s : State) (q : Nat) : s.writeQCtrl q 3#32 = s := by
  simp [State.writeQCtrl, bit]

/-- SKIP passes LEN units of the header at HEAD, one when LEN is 0, and never TAIL. -/
theorem State.skipUnits_eq (s : State) (q : Nat) :
    let n := s.ringUnits q
    let head := s.fld F.qStat_HEAD q
    let len := hdrLen (s.ringRead q head 1)
    s.skipUnits q = min (if len = 0 then 1 else len) (((s.queue q).tail + n - head) % n) := by
  dsimp only [State.skipUnits]
  congr 1
  split <;> omega

/-- A permitted write of Q_CTRL acts, whichever of the two rows carries it. -/
theorem runs_writeQCtrl {s : State} {who : Requester} {q : Nat} (hq : q < 32768) (permits : Permits s who .qCtrl q) (v : Word) :
    Runs (.qResume who q v) s (s.writeQCtrl q v) ∧ Runs (.qSkip who q v) s (s.writeQCtrl q v) := by
  have acts : inRange (q < 32768) (fun _ => .next (s.gated who .qCtrl q (s.writeQCtrl q v))) = .next (s.writeQCtrl q v) := by
    rw [inRange_of (decide_eq_true hq), State.gated_permitted permits]
  exact ⟨acts, acts⟩

/-- A completion drains from any entry of the collector. -/
theorem runs_completionDrain {f e : Nat} (hf : f < 4) (he : e < 48) (s : State) : Runs (.completionDrain f e) s (s.drain f e) :=
  inRange_of (by simp [hf, he]) (fun _ => .next (s.drain f e))

end Sys2Proof.Machine
end

