-- ==== Sys2Proof/Proofs/CommandsQueuesSync.lean ====
section
/-!
PROOFS. The statements of chapter 09.
-/

open Sys2Proof Sys2Proof.Machine

/-- Settles O25: a posted error makes `errorDue` hold, and with it nothing is ready; its drain ends in `halt`, with nothing before or
after that touches Q_STAT; RESUME and SKIP both end in `restartQueue`, at HEAD as it stands or as SKIP has advanced it. -/
theorem resumeAndSkipRestartAHaltedQueue : Obligations.ResumeAndSkipRestartAHaltedQueue := by
  unfold Obligations.ResumeAndSkipRestartAHaltedQueue
  refine ⟨?ready, ?drain, ?control⟩
  case ready =>
    exact fun s q f e d c halterr listed issuer posted error =>
      State.not_ready_of_errorDue (State.errorDue_of_posted halterr listed issuer posted error) d
  case drain =>
    exact fun s q f e c hf he first issuer halterr error running =>
      ⟨_, runs_completionDrain hf he s, State.drain_halts first issuer halterr error running⟩
  case control =>
    intro s who q hq permits halted small n head len left restarts
    have runs := runs_writeQCtrl hq permits
    refine ⟨⟨_, (runs 1#32).1, ?resume⟩, ⟨_, (runs 2#32).2, ?skip⟩, ?both⟩
    case resume =>
      rw [State.writeQCtrl_resume halted]
      exact State.restartQueue_restarts rfl rfl rfl rfl
    case skip =>
      rw [State.writeQCtrl_skip halted, State.skipUnits_eq]
      exact State.restartQueue_restarts (s.head_setHead q (State.mod_ringUnits_lt small _)) (s.qField_setFld rfl ..) rfl rfl
    case both =>
      have both := runs 3#32
      rwa [State.writeQCtrl_both] at both

end

