-- ==== Sys2Proof/Proofs/EventCount.lean ====
section
/-!
SUPPORT. The count of event records (R550): posting a record adds one to it, and neither a ring nor an interrupt touches it again.
-/

namespace Sys2Proof.Machine

open Sys2Proof

/-- No way that an interrupt goes (R549) touches the command processor. -/
theorem State.msix_cp (s : State) (f : Nat) (part : Option Nat) (vec : Nat) : (s.msix f part vec).cp = s.cp := by
  have lost := s.count_cp F.pciErrcnt_LOSTIRQ (fnPort f) 1
  unfold State.msix
  dsimp only
  generalize s.count F.pciErrcnt_LOSTIRQ (fnPort f) 1 = counted at lost ⊢
  repeat' split
  any_goals exact lost
  all_goals rfl

theorem State.store_evSeq (s : State) (a : Nat) (bs : List Byte) : (s.store a bs).cp.evSeq = s.cp.evSeq := by
  rw [State.store_parts]

theorem State.ringWrite_evSeq (s : State) (f : Nat) (part : Option Nat) (rcd : List Byte) :
    (s.ringWrite f part rcd).cp.evSeq = s.cp.evSeq := by
  have interrupted : ∀ t : State, t.cp.evSeq = s.cp.evSeq →
      (if t.flag F.sysEvcfg_IRQEN f then t.msix f part (t.fld F.sysEvcfg_VECTOR f) else t).cp.evSeq = s.cp.evSeq := by
    intro t placed
    split
    · rwa [State.msix_cp]
    · exact placed
  unfold State.ringWrite
  split
  · rfl -- the ring is disabled
  · split
    · rw [State.count_cp] -- the ring lies outside its windows
    · dsimp only
      split
      · rw [State.count_cp] -- the ring is full
      · apply interrupted
        rw [State.setFld_cp]
        split
        · rfl
        · rw [State.putTouch_cp, State.store_evSeq]

theorem State.ringWrites_evSeq (part : Option Nat) (rcd : List Byte) : ∀ (rings : List Nat) (s : State),
    (rings.foldl (fun s f => s.ringWrite f part rcd) s).cp.evSeq = s.cp.evSeq
  | [], _ => rfl
  | f :: rings, s => (State.ringWrites_evSeq part rcd rings _).trans (s.ringWrite_evSeq f part rcd)

/-- Posting an event record advances the event number, whatever rings take the record (R550). -/
theorem State.event_evSeq (s : State) (code : Nat) (status : Byte) (part : Option Nat) (a0 a1 : Nat) :
    (s.event code status part a0 a1).cp.evSeq = (s.cp.evSeq + 1) % 2 ^ 32 :=
  State.ringWrites_evSeq part _ _ _

theorem State.writeIgnored_onlyEvents (s : State) (n : RegName) (i : Nat) (part : Option Nat) (v : Word) :
    OnlyEvents s (s.writeIgnored n i part v) :=
  State.event_onlyEvents ..

theorem State.writeIgnored_evSeq (s : State) (n : RegName) (i : Nat) (part : Option Nat) (v : Word) :
    (s.writeIgnored n i part v).cp.evSeq = (s.cp.evSeq + 1) % 2 ^ 32 :=
  State.event_evSeq ..

end Sys2Proof.Machine
end

