-- ==== Sys2Proof/Proofs/PartitionMap.lean ====
section
/-!
SUPPORT. Writes of SYS_PARTMAP (R436, R437): a word made of equally wide fields, which blocks take the written value, and what the
register then holds.
-/

namespace Sys2Proof.Machine

open Sys2Proof

/-! ## Words of equally wide fields -/

/-- The number whose fields of `w` bits, from the lowest, are the first `n` values of `d`. -/
def packed (w : Nat) (d : Nat → Nat) (n : Nat) : Nat := (List.range n).foldl (fun x i => x + d i * 2 ^ (w * i)) 0

theorem packed_succ (w : Nat) (d : Nat → Nat) (n : Nat) : packed w d (n + 1) = packed w d n + d n * 2 ^ (w * n) := by
  simp [packed, List.range_succ]

theorem packed_lt {w : Nat} {d : Nat → Nat} (fits : ∀ i, d i < 2 ^ w) (n : Nat) : packed w d n < 2 ^ (w * n) := by
  induction n with
  | zero => simp [packed]
  | succ n ih =>
    calc packed w d (n + 1)
        = packed w d n + d n * 2 ^ (w * n) := packed_succ w d n
      _ < (d n + 1) * 2 ^ (w * n) := by rw [Nat.add_one_mul]; omega
      _ ≤ 2 ^ w * 2 ^ (w * n) := Nat.mul_le_mul_right _ (fits n)
      _ = 2 ^ (w * (n + 1)) := by rw [← Nat.pow_add, Nat.mul_succ, Nat.add_comm]

/-- Each field of a packed number reads as its value: the fields below it make less than its unit, those above it multiples of the
next one. -/
theorem bits_packed {w : Nat} {d : Nat → Nat} (fits : ∀ i, d i < 2 ^ w) {b n : Nat} (h : b < n) :
    bits (packed w d n) (w * b) w = d b := by
  induction n with
  | zero => omega
  | succ n ih =>
    rw [packed_succ]
    unfold bits at ih ⊢
    rcases Nat.lt_succ_iff_lt_or_eq.1 h with below | rfl
    · have unit : d n * 2 ^ (w * n) = 2 ^ (w * b) * (2 ^ w * (d n * 2 ^ (w * (n - b - 1)))) := by
        have split : w * n = w * b + (w + w * (n - b - 1)) := by
          rw [Nat.add_comm w, ← Nat.mul_succ, ← Nat.mul_add]
          congr 1
          omega
        rw [split, Nat.pow_add, Nat.pow_add]; ring
      rw [unit, Nat.add_mul_div_left _ _ (Nat.two_pow_pos _), Nat.add_mul_mod_self_left, ih below]
    · rw [Nat.add_mul_div_right _ _ (Nat.two_pow_pos _), Nat.div_eq_of_lt (packed_lt fits b), Nat.zero_add,
        Nat.mod_eq_of_lt (fits b)]

/-! ## Which blocks take the written value -/

/-- The field of block `b` in SYS_PARTMAP. -/
def State.blockField (s : State) (b : Nat) : Nat := bits (s.reg .sysPartmap 0).toNat (4 * b) 4

/-- Whether a write of `v` leaves the field of block `b` holding what `v` has there. -/
def State.takesBlock (s : State) (v : Word) (b : Nat) : Bool :=
  s.blockField b == bits v.toNat (4 * b) 4 || s.blockMayMove b (bits v.toNat (4 * b) 4)

/-- The field of block `b` after a write of `v`. -/
def State.blockAfter (s : State) (v : Word) (b : Nat) : Nat :=
  if s.takesBlock v b then bits v.toNat (4 * b) 4 else s.blockField b

theorem State.blockPart_unassigned {s : State} {b : Nat} (h : bit (s.blockField b) 3 = false) : s.blockPart b = none :=
  if_neg (Bool.eq_false_iff.1 h)

theorem State.blockPart_assigned {s : State} {b : Nat} (h : bit (s.blockField b) 3 = true) :
    s.blockPart b = some (s.blockField b % 8) :=
  if_pos h

theorem State.blockMayMove_unassigned {s : State} {b : Nat} (h : bit (s.blockField b) 3 = false) (new : Nat) :
    s.blockMayMove b new = true := by
  rw [State.blockMayMove, State.blockPart_unassigned h]

theorem State.blockMayMove_assigned {s : State} {b : Nat} (h : bit (s.blockField b) 3 = true) (new : Nat) :
    s.blockMayMove b new = true ↔
      s.season (s.blockField b % 8) = winter ∧ (bit new 3 = true → s.season (new % 8) = winter) := by
  rw [State.blockMayMove, State.blockPart_assigned h]
  cases bit new 3 <;> simp

theorem State.blockAfter_of_mayMove {s : State} {v : Word} {b : Nat} (h : s.blockMayMove b (bits v.toNat (4 * b) 4) = true) :
    s.blockAfter v b = bits v.toNat (4 * b) 4 :=
  if_pos (by rw [State.takesBlock, h, Bool.or_true])

theorem State.blockAfter_of_refused {s : State} {v : Word} {b : Nat} (h : s.takesBlock v b = false) :
    s.blockAfter v b = s.blockField b :=
  if_neg (Bool.eq_false_iff.1 h)

theorem State.takesBlock_refused {s : State} {v : Word} {b : Nat} (changes : bits v.toNat (4 * b) 4 ≠ s.blockField b)
    (stays : ¬ s.blockMayMove b (bits v.toNat (4 * b) 4) = true) : s.takesBlock v b = false := by
  rw [State.takesBlock, Bool.eq_false_iff.2 stays, Bool.or_false]
  exact beq_false_of_ne changes.symm

/-! ## The write -/

theorem State.writePartmap_eq (s : State) (v : Word) :
    let s1 := s.setReg .sysPartmap 0 (BitVec.ofNat 32 (packed 4 (s.blockAfter v) 8))
    s.writePartmap v = if (List.range 8).all (s.takesBlock v) then s1 else s1.writeIgnored .sysPartmap 0 none v :=
  rfl

theorem State.blockAfter_lt (s : State) (v : Word) (b : Nat) : s.blockAfter v b < 2 ^ 4 := by
  unfold State.blockAfter
  split
  · exact bits_lt ..
  · exact bits_lt ..

/-- A write of SYS_PARTMAP with an event record, or without one. -/
theorem State.writePartmap_onlyEvents (s : State) (v : Word) :
    OnlyEvents (s.setReg .sysPartmap 0 (BitVec.ofNat 32 (packed 4 (s.blockAfter v) 8))) (s.writePartmap v) := by
  rw [State.writePartmap_eq]
  split
  · exact OnlyRegsAndEvents.refl ..
  · exact State.writeIgnored_onlyEvents ..

/-- A write of SYS_PARTMAP changes that register and what an event record changes. -/
theorem State.writePartmap_frame (s : State) (v : Word) :
    OnlyRegsAndEvents (fun n i => n = .sysPartmap ∧ i = 0) s (s.writePartmap v) := by
  have written : OnlyRegsAndEvents (fun n i => n = .sysPartmap ∧ i = 0) s
      (s.setReg .sysPartmap 0 (BitVec.ofNat 32 (packed 4 (s.blockAfter v) 8))) :=
    .of_regs rfl (fun _ _ other => State.reg_setReg_ne s _ other)
  refine written.trans ((s.writePartmap_onlyEvents v).mono fun _ _ => False.elim) ?_
  rintro n i (rfl | rfl | rfl) ⟨e, -⟩ <;> cases e

theorem State.writePartmap_blockField (s : State) (v : Word) {b : Nat} (h : b < 8) :
    (s.writePartmap v).blockField b = s.blockAfter v b := by
  have kept := (s.writePartmap_onlyEvents v).regs .sysPartmap 0 (by simp [EventReg]) not_false
  have small : packed 4 (s.blockAfter v) 8 < 2 ^ 32 := packed_lt (s.blockAfter_lt v) 8
  rw [State.blockField, kept, State.reg_setReg_same, BitVec.toNat_ofNat, Nat.mod_eq_of_lt small]
  exact bits_packed (s.blockAfter_lt v) h

/-- One block that does not take its value is enough for the event record. -/
theorem State.writePartmap_evSeq {s : State} {v : Word} {b : Nat} (h : b < 8) (refused : s.takesBlock v b = false) :
    (s.writePartmap v).cp.evSeq = (s.cp.evSeq + 1) % 2 ^ 32 := by
  have some_refused : ¬ (List.range 8).all (s.takesBlock v) = true := fun all => by
    rw [List.all_eq_true.1 all b (List.mem_range.2 h)] at refused
    cases refused
  rw [State.writePartmap_eq, if_neg some_refused, State.writeIgnored_evSeq, State.setReg_cp]

theorem runs_partmapWrite {s : State} {who : Requester} (permits : Permits s who .sysPartmap 0) (v : Word) :
    Runs (.partmapWrite who v) s (s.writePartmap v) :=
  congrArg Host.Outcome.next (State.gated_permitted permits)

end Sys2Proof.Machine
end

