-- ==== Sys2Proof/Proofs/SchedulingAndIsolation.lean ====
section
/-!
PROOFS. The statements of chapter 16.
-/

open Sys2Proof Sys2Proof.Machine

/-- Settles O38: each field of the register holds `blockAfter`, and `blockMayMove` decides by the seasons of the two partitions
whether that is the written value; a block that must stay makes the write post its event record. -/
theorem blocksMoveInWinter : Obligations.BlocksMoveInWinter := by
  unfold Obligations.BlocksMoveInWinter
  intro s who v permits
  refine ⟨_, runs_partmapWrite permits v, s.writePartmap_frame v, fun b hb => ?_⟩
  have now := s.writePartmap_blockField v hb
  refine ⟨?unassigned, ?winter, ?refused⟩
  case unassigned =>
    exact fun unassigned => now.trans (State.blockAfter_of_mayMove (State.blockMayMove_unassigned unassigned _))
  case winter =>
    exact fun assigned old _ new =>
      now.trans (State.blockAfter_of_mayMove ((State.blockMayMove_assigned assigned _).2 ⟨old, fun _ => new⟩))
  case refused =>
    intro assigned changes seasons
    have stays : ¬ s.blockMayMove b (bits v.toNat (4 * b) 4) = true := by
      rw [State.blockMayMove_assigned assigned]
      rintro ⟨old, new⟩
      rcases seasons with other | ⟨isAssigned, other⟩
      · exact other old
      · exact other (new isAssigned)
    have refused := State.takesBlock_refused changes stays
    exact ⟨now.trans (State.blockAfter_of_refused refused), State.writePartmap_evSeq hb refused⟩

end

