-- ==== Sys2Proof/Proofs/EnergyWindows.lean ====
section
/-!
SUPPORT. The end of an energy window (R481, R484, R488): the accounts reported, the partitions over their budgets, whether the energy
plan is in force, and the five outcomes of the window limiter.
-/

namespace Sys2Proof.Machine

open Sys2Proof

/-- A fold whose step for `q` alone changes what `g` sees acts on it once, as the step for `q` does. -/
theorem foldl_observed_once {α σ β : Type} {f : σ → α → σ} {g : σ → β} {F : β → β} {q : α}
    (own : ∀ t, g (f t q) = F (g t)) (other : ∀ t x, x ≠ q → g (f t x) = g t) :
    ∀ {l : List α}, l.Nodup → q ∈ l → ∀ s, g (l.foldl f s) = F (g s)
  | x :: l, nodup, mem, s => by
    obtain ⟨fresh, nodup⟩ := List.nodup_cons.1 nodup
    rw [List.foldl_cons]
    rcases List.mem_cons.1 mem with rfl | mem
    · have rest := List.foldlRecOn (motive := fun t => g t = g (f s q)) l f rfl fun t same x hx =>
        (other t x (ne_of_mem_of_not_mem hx fresh)).trans same
      exact rest.trans (own s)
    · have first := other s x (ne_of_mem_of_not_mem mem fresh).symm
      rw [foldl_observed_once own other nodup mem, first]

/-! ## Fields and the state beside them -/

theorem satAdd_lt (w a b : Nat) : satAdd w a b < 2 ^ w := by
  have := Nat.two_pow_pos w
  unfold satAdd
  omega

theorem State.fld_of_reg {s t : State} {f : Fld} {i : Nat} (h : t.reg f.reg i = s.reg f.reg i) : t.fld f i = s.fld f i := by
  rw [State.fld, State.fld, h]

theorem State.fld_count_same (s : State) {f : Fld} (fits : f.fits = true) (i n : Nat) :
    (s.count f i n).fld f i = satAdd f.width (s.fld f i) n := by
  rw [State.count, State.fld_setFld_same s f i _ fits, Nat.mod_eq_of_lt (satAdd_lt ..)]

theorem State.reg_count_ne (s : State) (f : Fld) {m : RegName} {i j n : Nat} (h : ¬ (m = f.reg ∧ j = i)) :
    (s.count f i n).reg m j = s.reg m j :=
  State.reg_setFld_ne s f _ h

/-! ## The parts of a window's end -/

/-- The energy of account `a` in the window, in whole millijoules. -/
def State.windowEnergy (s : State) (a : Nat) : Nat := s.power.sums.getD a 0 / 1000

/-- The budget of partition `q` that counts at the window's end. -/
def State.windowBudget (s : State) (q : Nat) : Nat := s.power.budWas.getD q 0

/-- The module's input energy in the window, in microjoules. -/
def State.windowTotal (s : State) : Nat := s.power.sums.foldl (fun x y => x + y) 0

/-- The energies of the accounts placed in PWR_EWIN. -/
def State.reportEnergy (s : State) (ewin : Nat → Nat) : State :=
  (List.range 9).foldl (fun t a => t.setReg .pwrEwin a (BitVec.ofNat 32 (ewin a))) s

/-- Every partition over its budget counted and reported, and its plans reconciled (R484). -/
def State.countOverruns (s : State) (ewin budget : Nat → Nat) : State :=
  (List.range 8).foldl (fun t q => if budget q < ewin q then t.overBudget q (ewin q) else t) s

/-- Whether the energy plan is in force (R481). -/
def State.planInForce (s : State) (ewin budget : Nat → Nat) : Bool :=
  decide (s.planSum budget (s.fld F.pwrReserve_BUDGET 0) ≤ s.fld F.pwrCap_WINCAP 0) &&
    (List.range 8).all (fun q => decide (ewin q ≤ budget q)) && decide (ewin 8 ≤ s.fld F.pwrReserve_BUDGET 0)

/-- The state in which a window's end has made its reports, and the limiter has still to act. -/
def State.windowReported (s : State) : State :=
  ((s.reportEnergy s.windowEnergy).count F.pwrWinseq_WINDOW 0 1).countOverruns s.windowEnergy s.windowBudget

/-- `n` low windows in a row. -/
def State.withLows (s : State) (n : Nat) : State := { s with power := { s.power with lows := n } }

theorem State.windowEndEnergy_eq (s : State) :
    let r := s.windowReported
    let t := r.windowLimit s.windowTotal (r.planInForce s.windowEnergy s.windowBudget)
    s.windowEndEnergy = { t with power := { t.power with sums := List.replicate 9 0 } } :=
  rfl

theorem runs_energyWindowEnd (s : State) : Runs .energyWindowEnd s s.windowEndEnergy := rfl

/-! ## Reports -/

theorem State.reg_reportEnergy_ewin (s : State) (ewin : Nat → Nat) {a : Nat} (h : a < 9) :
    (s.reportEnergy ewin).reg .pwrEwin a = BitVec.ofNat 32 (ewin a) := by
  refine foldl_observed_once (g := fun t => State.reg t .pwrEwin a) (F := fun _ => BitVec.ofNat 32 (ewin a))
    (fun t => ?own) (fun t x other => ?other) List.nodup_range (List.mem_range.2 h) s
  case own => exact t.reg_setReg_same ..
  case other => exact t.reg_setReg_ne _ (fun e => other e.2.symm)

theorem State.reg_reportEnergy (s : State) (ewin : Nat → Nat) {n : RegName} {i : Nat} (h : n ≠ .pwrEwin) :
    (s.reportEnergy ewin).reg n i = s.reg n i :=
  List.foldlRecOn (motive := fun t => State.reg t n i = s.reg n i) _ _ rfl fun t same _ _ =>
    (t.reg_setReg_ne _ (fun e => h e.1)).trans same

theorem State.lows_reportEnergy (s : State) (ewin : Nat → Nat) : (s.reportEnergy ewin).power.lows = s.power.lows :=
  List.foldlRecOn (motive := fun t : State => t.power.lows = s.power.lows) _ _ rfl fun _ same _ _ => same

theorem State.reconcile_regs (s : State) (p e : Nat) : (s.reconcile p e).regs = s.regs := rfl

theorem State.reconcile_power (s : State) (p e : Nat) : (s.reconcile p e).power = s.power := rfl

/-- Of the registers, a report of an overrun changes the partition's count and those of event records. -/
theorem State.reg_overBudget (s : State) (q e : Nat) {n : RegName} {i : Nat} (h : ¬ EventReg n) :
    (s.overBudget q e).reg n i = (s.count F.pwrOver_WINDOWS q 1).reg n i := by
  rw [State.overBudget, State.reg_of_regs (State.reconcile_regs ..), (State.event_onlyEvents ..).regs n i h not_false]

theorem State.lows_overBudget (s : State) (q e : Nat) : (s.overBudget q e).power.lows = s.power.lows := by
  rw [State.overBudget, State.reconcile_power, (State.event_onlyEvents ..).units, State.count_power]

theorem pwrOver_not_event : ¬ EventReg .pwrOver := by
  rintro (h | h | h) <;> cases h

theorem State.windows_overBudget_same (s : State) (q e : Nat) :
    (s.overBudget q e).fld F.pwrOver_WINDOWS q = satAdd F.pwrOver_WINDOWS.width (s.fld F.pwrOver_WINDOWS q) 1 :=
  (State.fld_of_reg (s.reg_overBudget q e pwrOver_not_event)).trans (s.fld_count_same rfl q 1)

theorem State.windows_overBudget_ne (s : State) {p q : Nat} (e : Nat) (h : q ≠ p) :
    (s.overBudget p e).fld F.pwrOver_WINDOWS q = s.fld F.pwrOver_WINDOWS q :=
  State.fld_of_reg ((s.reg_overBudget p e pwrOver_not_event).trans (s.reg_count_ne _ (fun g => h g.2)))

/-- The registers that the reports of a window's end leave alone. -/
def ReportKeeps (n : RegName) : Prop := n ≠ .pwrEwin ∧ n ≠ .pwrWinseq ∧ n ≠ .pwrOver ∧ ¬ EventReg n

theorem State.reg_countOverruns (s : State) (ewin budget : Nat → Nat) {n : RegName} {i : Nat} (notOver : n ≠ .pwrOver)
    (event : ¬ EventReg n) : (s.countOverruns ewin budget).reg n i = s.reg n i := by
  refine List.foldlRecOn (motive := fun t => State.reg t n i = s.reg n i) _ _ rfl fun t same q _ => ?_
  split
  · rw [t.reg_overBudget q _ event, t.reg_count_ne _ (fun e => notOver e.1), same]
  · exact same

theorem State.lows_countOverruns (s : State) (ewin budget : Nat → Nat) :
    (s.countOverruns ewin budget).power.lows = s.power.lows := by
  refine List.foldlRecOn (motive := fun t : State => t.power.lows = s.power.lows) _ _ rfl fun t same q _ => ?_
  split
  · rw [t.lows_overBudget, same]
  · exact same

theorem State.windows_countOverruns (s : State) (ewin budget : Nat → Nat) {q : Nat} (h : q < 8) :
    (s.countOverruns ewin budget).fld F.pwrOver_WINDOWS q =
      if budget q < ewin q then satAdd F.pwrOver_WINDOWS.width (s.fld F.pwrOver_WINDOWS q) 1 else s.fld F.pwrOver_WINDOWS q := by
  refine foldl_observed_once (g := fun t => State.fld t F.pwrOver_WINDOWS q)
    (F := fun n => if budget q < ewin q then satAdd F.pwrOver_WINDOWS.width n 1 else n)
    (fun t => ?own) (fun t p other => ?other) List.nodup_range (List.mem_range.2 h) s
  case own =>
    split
    · exact t.windows_overBudget_same q _
    · rfl
  case other =>
    split
    · exact t.windows_overBudget_ne _ other.symm
    · rfl

theorem State.reg_windowReported (s : State) {n : RegName} {i : Nat} (h : ReportKeeps n) :
    s.windowReported.reg n i = s.reg n i := by
  obtain ⟨ewin, winseq, notOver, event⟩ := h
  rw [State.windowReported, State.reg_countOverruns _ _ _ notOver event, State.reg_count_ne _ _ (fun e => winseq e.1),
    State.reg_reportEnergy _ _ ewin]

theorem State.fld_windowReported (s : State) {f : Fld} {i : Nat} (h : ReportKeeps f.reg) :
    s.windowReported.fld f i = s.fld f i :=
  State.fld_of_reg (s.reg_windowReported h)

theorem State.lows_windowReported (s : State) : s.windowReported.power.lows = s.power.lows := by
  rw [State.windowReported, State.lows_countOverruns, State.count_power, State.lows_reportEnergy]

/-- The reports of a window's end as they then stand: EWIN modulo its 32 bits, WINSEQ and the counts of overruns. -/
theorem State.windowReported_reports (s : State) :
    (∀ a, a < 9 → (s.windowReported.reg .pwrEwin a).toNat = s.windowEnergy a % 2 ^ 32) ∧
    s.windowReported.fld F.pwrWinseq_WINDOW 0 = satAdd F.pwrWinseq_WINDOW.width (s.fld F.pwrWinseq_WINDOW 0) 1 ∧
    (∀ q, q < 8 → s.windowReported.fld F.pwrOver_WINDOWS q =
      if s.windowBudget q < s.windowEnergy q then satAdd F.pwrOver_WINDOWS.width (s.fld F.pwrOver_WINDOWS q) 1
      else s.fld F.pwrOver_WINDOWS q) := by
  have keeps : ∀ {n : RegName} {i : Nat}, n ≠ .pwrOver → ¬ EventReg n → s.windowReported.reg n i =
      ((s.reportEnergy s.windowEnergy).count F.pwrWinseq_WINDOW 0 1).reg n i :=
    fun notOver event => State.reg_countOverruns _ _ _ notOver event
  refine ⟨fun a ha => ?ewin, ?winseq, fun q hq => ?overruns⟩
  case ewin =>
    rw [keeps (by decide) (by simp [EventReg]), State.reg_count_ne _ _ (by simp [F.pwrWinseq_WINDOW]),
      State.reg_reportEnergy_ewin _ _ ha, BitVec.toNat_ofNat]
  case winseq =>
    rw [State.fld_of_reg (keeps (by decide) (by simp [EventReg, F.pwrWinseq_WINDOW])), State.fld_count_same _ rfl,
      State.fld_of_reg (State.reg_reportEnergy _ _ (by decide))]
  case overruns =>
    have before : ((s.reportEnergy s.windowEnergy).count F.pwrWinseq_WINDOW 0 1).fld F.pwrOver_WINDOWS q =
        s.fld F.pwrOver_WINDOWS q :=
      State.fld_of_reg ((State.reg_count_ne _ _ (by simp [F.pwrOver_WINDOWS, F.pwrWinseq_WINDOW])).trans
        (State.reg_reportEnergy _ _ (by decide)))
    rw [State.windowReported, State.windows_countOverruns _ _ _ hq, before]

/-! ## The plan -/

theorem State.planInForce_iff (s : State) (ewin budget : Nat → Nat) :
    s.planInForce ewin budget = true ↔
      s.planSum budget (s.fld F.pwrReserve_BUDGET 0) ≤ s.fld F.pwrCap_WINCAP 0 ∧ (∀ q, q < 8 → ewin q ≤ budget q) ∧
        ewin 8 ≤ s.fld F.pwrReserve_BUDGET 0 := by
  simp only [State.planInForce, Bool.and_eq_true, decide_eq_true_eq, List.all_eq_true, List.mem_range, and_assoc]

theorem State.planSum_of_owners {s t : State} (h : ∀ b, t.blockPart b = s.blockPart b) (budget : Nat → Nat) (reserve : Nat) :
    t.planSum budget reserve = s.planSum budget reserve := by
  have owns : t.ownsBlock = s.ownsBlock := by
    funext p
    simp only [State.ownsBlock, h]
  rw [State.planSum, State.planSum, owns]

/-- The blocks' owners, PWR_RESERVE and PWR_CAP decide on the plan, and the reports touch none of them. -/
theorem State.planInForce_windowReported (s : State) (ewin budget : Nat → Nat) :
    s.windowReported.planInForce ewin budget = s.planInForce ewin budget := by
  have owners : ∀ b, s.windowReported.blockPart b = s.blockPart b := by
    intro b
    rw [State.blockPart, State.blockPart, s.reg_windowReported (by simp [ReportKeeps, EventReg])]
  have reserve : s.windowReported.fld F.pwrReserve_BUDGET 0 = s.fld F.pwrReserve_BUDGET 0 :=
    s.fld_windowReported (by simp [ReportKeeps, EventReg, F.pwrReserve_BUDGET])
  have cap : s.windowReported.fld F.pwrCap_WINCAP 0 = s.fld F.pwrCap_WINCAP 0 :=
    s.fld_windowReported (by simp [ReportKeeps, EventReg, F.pwrCap_WINCAP])
  rw [State.planInForce, State.planInForce, State.planSum_of_owners owners, reserve, cap]

/-! ## The window limiter -/

/-- The window limiter writes the level alone. -/
theorem State.reg_windowLimit (s : State) (total : Nat) (inForce : Bool) {n : RegName} {i : Nat} (h : n ≠ .pwrStat) :
    (s.windowLimit total inForce).reg n i = s.reg n i := by
  have level : ∀ (r : State) (v : Nat), (r.setFld F.pwrStat_LWIN 0 v).reg n i = r.reg n i :=
    fun r v => r.reg_setFld_ne _ v (fun e => h e.1)
  unfold State.windowLimit
  dsimp only
  split
  · rfl -- the plan is in force
  · split
    · rw [level]; rfl -- over WINCAP
    · split
      · split
        · rfl -- a low window before the tenth
        · rw [level]; rfl -- the tenth low window
      · rfl -- neither over WINCAP nor low

section
variable {s : State} {total : Nat}

theorem State.windowLimit_inForce : s.windowLimit total true = s.withLows 0 := rfl

theorem State.windowLimit_above (above : 1000 * s.fld F.pwrCap_WINCAP 0 < total) :
    s.windowLimit total false = (s.withLows 0).setFld F.pwrStat_LWIN 0 (s.fld F.pwrStat_LWIN 0 - 1) := by
  rw [Nat.mul_comm] at above
  simp only [State.windowLimit, if_pos above]
  rfl

theorem State.windowLimit_within (within : total ≤ 1000 * s.fld F.pwrCap_WINCAP 0)
    (level : 1000 * s.fld F.pwrCap_WINCAP 0 * 95 ≤ total * 100) : s.windowLimit total false = s.withLows 0 := by
  rw [Nat.mul_comm 1000] at within level
  simp only [State.windowLimit, if_neg (Nat.not_lt.2 within), if_neg (Nat.not_lt.2 level)]
  rfl

/-- A low window lets the count go on, and the tenth in a row raises the level. -/
theorem State.windowLimit_low (low : total * 100 < 1000 * s.fld F.pwrCap_WINCAP 0 * 95) :
    s.windowLimit total false =
      if s.power.lows + 1 < 10 then s.withLows (s.power.lows + 1)
      else (s.withLows 0).setFld F.pwrStat_LWIN 0 (min 15 (s.fld F.pwrStat_LWIN 0 + 1)) := by
  rw [Nat.mul_comm 1000] at low
  have within : ¬ s.fld F.pwrCap_WINCAP 0 * 1000 < total := by omega
  simp only [State.windowLimit, if_neg within, if_pos low]
  rfl

end

/-- The level and the count of low windows in a state. -/
def State.WindowLimiterAt (s : State) (lvl lows : Nat) : Prop := s.fld F.pwrStat_LWIN 0 = lvl ∧ s.power.lows = lows

theorem State.windowLimiterAt_withLows (s : State) (n : Nat) : (s.withLows n).WindowLimiterAt (s.fld F.pwrStat_LWIN 0) n :=
  ⟨rfl, rfl⟩

theorem State.windowLimiterAt_setLevel (s : State) {v : Nat} (n : Nat) (h : v < 16) :
    ((s.withLows n).setFld F.pwrStat_LWIN 0 v).WindowLimiterAt v n :=
  ⟨(State.fld_setFld_same _ _ _ _ rfl).trans (Nat.mod_eq_of_lt h), rfl⟩

/-- What the window limiter does with a level and a count of low windows (R488). -/
structure WindowLimited (cap total lvl lows : Nat) (plan : Prop) (t : State) : Prop where
  inForce : plan → t.WindowLimiterAt lvl 0
  above   : ¬ plan → cap < total → t.WindowLimiterAt (lvl - 1) 0
  low     : ¬ plan → total * 100 < cap * 95 → lows + 1 < 10 → t.WindowLimiterAt lvl (lows + 1)
  tenth   : ¬ plan → total * 100 < cap * 95 → 10 ≤ lows + 1 → t.WindowLimiterAt (min 15 (lvl + 1)) 0
  within  : ¬ plan → total ≤ cap → cap * 95 ≤ total * 100 → t.WindowLimiterAt lvl 0

theorem State.windowLimit_limited (s : State) (total : Nat) (inForce : Bool) :
    WindowLimited (1000 * s.fld F.pwrCap_WINCAP 0) total (s.fld F.pwrStat_LWIN 0) s.power.lows (inForce = true)
      (s.windowLimit total inForce) := by
  have lvl : s.fld F.pwrStat_LWIN 0 < 16 := bits_lt ..
  cases inForce with
  | true =>
    have still := s.windowLimiterAt_withLows 0
    exact ⟨fun _ => still, fun no => absurd rfl no, fun no => absurd rfl no, fun no => absurd rfl no, fun no => absurd rfl no⟩
  | false =>
    refine ⟨nofun, fun _ above => ?_, fun _ low few => ?_, fun _ low tenth => ?_, fun _ within level => ?_⟩
    · rw [State.windowLimit_above above]
      exact s.windowLimiterAt_setLevel 0 (by omega)
    · rw [State.windowLimit_low low, if_pos few]
      exact s.windowLimiterAt_withLows _
    · rw [State.windowLimit_low low, if_neg (Nat.not_lt.2 tenth)]
      exact s.windowLimiterAt_setLevel 0 (by omega)
    · rw [State.windowLimit_within within level]
      exact s.windowLimiterAt_withLows 0

/-! ## The whole -/

/-- Outside PWR_STAT a window's end leaves the registers as its reports do. -/
theorem State.reg_windowEndEnergy (s : State) {n : RegName} {i : Nat} (h : n ≠ .pwrStat) :
    s.windowEndEnergy.reg n i = s.windowReported.reg n i := by
  rw [State.windowEndEnergy_eq]
  exact State.reg_windowLimit _ _ _ h

/-- The limiter acts on WINCAP, the level and the count of low windows as they stood before the reports. -/
theorem State.windowEndEnergy_limited (s : State) :
    WindowLimited (1000 * s.fld F.pwrCap_WINCAP 0) s.windowTotal (s.fld F.pwrStat_LWIN 0) s.power.lows
      (s.planInForce s.windowEnergy s.windowBudget = true) s.windowEndEnergy := by
  have limited := s.windowReported.windowLimit_limited s.windowTotal (s.windowReported.planInForce s.windowEnergy s.windowBudget)
  have cap : s.windowReported.fld F.pwrCap_WINCAP 0 = s.fld F.pwrCap_WINCAP 0 :=
    s.fld_windowReported (by simp [ReportKeeps, EventReg, F.pwrCap_WINCAP])
  have level : s.windowReported.fld F.pwrStat_LWIN 0 = s.fld F.pwrStat_LWIN 0 :=
    s.fld_windowReported (by simp [ReportKeeps, EventReg, F.pwrStat_LWIN])
  rw [cap, level, s.lows_windowReported, s.planInForce_windowReported] at limited
  obtain ⟨inForce, above, low, tenth, within⟩ := limited
  rw [State.windowEndEnergy_eq, s.planInForce_windowReported]
  exact ⟨inForce, above, low, tenth, within⟩

end Sys2Proof.Machine
end

