-- ==== Sys2Proof/Proofs/PowerAndClocks.lean ====
section
/-!
PROOFS. The statements of chapter 18.
-/

open Sys2Proof Sys2Proof.Machine

/-- Settles O48: the reports of a window's end touch none of the registers that the plan, WINCAP and the level stand in, so that the
limiter acts on them as they stood. That low windows count anew after a plan, the budgets that count and the units of the compare
are log entry 18. -/
theorem energyWindowsLimitTheClock : Obligations.EnergyWindowsLimitTheClock := by
  unfold Obligations.EnergyWindowsLimitTheClock
  intro s sums ewin budget total cap lvl lows plan
  obtain ⟨ewins, winseq, overs⟩ := s.windowReported_reports
  have limited := s.windowEndEnergy_limited
  rw [State.planInForce_iff] at limited
  exact ⟨_, runs_energyWindowEnd s,
    fun a ha => by rw [s.reg_windowEndEnergy (by decide)]; exact ewins a ha,
    (State.fld_of_reg (s.reg_windowEndEnergy (by decide))).trans winseq,
    fun q hq => (State.fld_of_reg (s.reg_windowEndEnergy (by decide))).trans (overs q hq),
    limited.inForce, limited.above, limited.low, limited.tenth, limited.within⟩

end

