-- ==== Sys2Proof/Proofs/FrameBytes.lean ====
section
/-!
SUPPORT. The bytes of link frames (R353 to R356): the field and the parity of a codeword, which make it 0 at each root of the generator;
the two codewords of a frame, joined again; the header's fields and the checksum.
-/

set_option Elab.async false

namespace Sys2Proof.Machine

open Sys2Proof

/-! ## Numbers and their bytes -/

theorem leNat_leBytes (n v : Nat) : leNat (leBytes n v) = v % 256 ^ n := by
  induction n generalizing v with
  | zero => simp [leBytes, leNat, Nat.mod_one]
  | succ n ih =>
    have front : (BitVec.ofNat 8 v).toNat = v % 256 := BitVec.toNat_ofNat ..
    rw [leBytes, leNat, ih, front, Nat.pow_succ', Nat.mod_mul]

/-- The number at the front of a string, where it was written. -/
theorem num_leBytes_append (n v : Nat) (r : List Byte) : num (leBytes n v ++ r) 0 n = v % 256 ^ n := by
  have taken : (leBytes n v ++ r).take n = leBytes n v := List.take_left' (leBytes_length n v)
  rw [num, sub, List.drop_zero, taken, leNat_leBytes]

/-! ## The field (R354) -/

/-- Doubling in the field. -/
def gfDouble (a : Nat) : Nat := if 128 ≤ a then (2 * a) ^^^ 0x11D else 2 * a

theorem gfMulGo_succ (n a b : Nat) :
    gfMulGo (n + 1) a b = (if b % 2 = 1 then a else 0) ^^^ gfMulGo n (gfDouble a) (b / 2) := rfl

theorem gfDouble_lt : ∀ a < 256, gfDouble a < 256 := by decide +kernel

theorem gfDouble_xor {a c : Nat} (ha : a < 256) (hc : c < 256) : gfDouble (a ^^^ c) = gfDouble a ^^^ gfDouble c := by
  have top : ∀ x < 256, (128 ≤ x ↔ x.testBit 7 = true) := by decide +kernel
  have double : 2 * (a ^^^ c) = (2 * a) ^^^ (2 * c) := by
    simpa [Nat.shiftLeft_eq, Nat.mul_comm] using Nat.shiftLeft_xor_distrib (a := a) (b := c) (i := 1)
  have lt : a ^^^ c < 2 ^ 8 := Nat.xor_lt_two_pow ha hc
  simp only [gfDouble, top _ ha, top _ hc, top _ lt, Nat.testBit_xor, double]
  cases a.testBit 7 <;> cases c.testBit 7 <;> simp [Nat.xor_assoc, Nat.xor_left_comm, Nat.xor_comm]

theorem gfMulGo_xor (n : Nat) {a c : Nat} (ha : a < 256) (hc : c < 256) (b : Nat) :
    gfMulGo n (a ^^^ c) b = gfMulGo n a b ^^^ gfMulGo n c b := by
  induction n generalizing a c b with
  | zero => simp [gfMulGo]
  | succ n ih =>
    simp only [gfMulGo_succ, gfDouble_xor ha hc, ih (gfDouble_lt a ha) (gfDouble_lt c hc)]
    split <;> simp [Nat.xor_assoc, Nat.xor_left_comm]

theorem gfMulGo_lt (n : Nat) {a : Nat} (ha : a < 256) (b : Nat) : gfMulGo n a b < 256 := by
  induction n generalizing a b with
  | zero => simp [gfMulGo]
  | succ n ih =>
    rw [gfMulGo_succ]
    refine Nat.xor_lt_two_pow (n := 8) ?_ (ih (gfDouble_lt a ha) _)
    split
    · exact ha
    · exact Nat.two_pow_pos 8

theorem gfMul_xor {a c : Nat} (ha : a < 256) (hc : c < 256) (b : Nat) : gfMul (a ^^^ c) b = gfMul a b ^^^ gfMul c b :=
  gfMulGo_xor 8 ha hc b

theorem gfMul_lt {a : Nat} (ha : a < 256) (b : Nat) : gfMul a b < 256 := gfMulGo_lt 8 ha b

theorem zero_gfMul (b : Nat) : gfMul 0 b = 0 := by
  simpa using gfMul_xor (a := 0) (c := 0) (by decide) (by decide) b

/-! ## The parity of a codeword (R354) -/

/-- Whether every member of a list is a byte. -/
abbrev Bytes (l : List Nat) : Prop := ∀ x ∈ l, x < 256

/-- The value of a polynomial at `x` by Horner's rule, gone on from `v`. -/
def gfHorner (x v : Nat) (p : List Nat) : Nat := p.foldl (fun v c => gfMul v x ^^^ c) v

theorem gfEval_eq (p : List Nat) (x : Nat) : gfEval p x = gfHorner x 0 p := rfl

theorem gfHorner_append (x v : Nat) (p q : List Nat) : gfHorner x v (p ++ q) = gfHorner x (gfHorner x v p) q :=
  List.foldl_append

theorem gfHorner_lt (x : Nat) {v : Nat} (hv : v < 256) {p : List Nat} (hp : Bytes p) : gfHorner x v p < 256 := by
  induction p generalizing v with
  | nil => exact hv
  | cons c p ih =>
    obtain ⟨hc, hp⟩ := List.forall_mem_cons.1 hp
    exact ih (Nat.xor_lt_two_pow (n := 8) (gfMul_lt hv x) hc) hp

/-- Horner's rule is additive in the start and in the coefficients together. -/
theorem gfHorner_xor (x : Nat) {v w : Nat} (hv : v < 256) (hw : w < 256) {p q : List Nat} (hp : Bytes p) (hq : Bytes q)
    (len : p.length = q.length) :
    gfHorner x (v ^^^ w) (p.zipWith (fun a b => a ^^^ b) q) = gfHorner x v p ^^^ gfHorner x w q := by
  induction p generalizing v w q with
  | nil =>
    obtain rfl : q = [] := List.length_eq_zero_iff.1 len.symm
    rfl
  | cons a p ih =>
    obtain _ | ⟨b, q⟩ := q
    · simp at len
    obtain ⟨ha, hp⟩ := List.forall_mem_cons.1 hp
    obtain ⟨hb, hq⟩ := List.forall_mem_cons.1 hq
    have step : gfMul (v ^^^ w) x ^^^ (a ^^^ b) = (gfMul v x ^^^ a) ^^^ (gfMul w x ^^^ b) := by
      rw [gfMul_xor hv hw]
      simp [Nat.xor_assoc, Nat.xor_left_comm]
    have rest := ih (Nat.xor_lt_two_pow (n := 8) (gfMul_lt hv x) ha) (Nat.xor_lt_two_pow (n := 8) (gfMul_lt hw x) hb) hp hq
      (Nat.succ.inj len)
    rw [← step] at rest
    exact rest

theorem rsGen_bytes : Bytes rsGen := by decide +kernel

theorem rsGen_length : rsGen.length = 8 := by decide +kernel

/-- The powers of 2 below 256 span the bytes: what is additive and 0 at each of them is 0. -/
theorem additive_eq_zero {g : Nat → Nat} (additive : ∀ a < 256, ∀ c < 256, g (a ^^^ c) = g a ^^^ g c)
    (zero : ∀ k < 8, g (2 ^ k) = 0) {n : Nat} (hn : n ≤ 8) : ∀ f < 2 ^ n, g f = 0 := by
  have inside : ∀ {k x : Nat}, k ≤ 8 → x < 2 ^ k → x < 256 := fun hk hx =>
    Nat.lt_of_lt_of_le hx (Nat.pow_le_pow_right (by decide) hk)
  induction n with
  | zero =>
    intro f hf
    obtain rfl : f = 0 := by omega
    simpa using additive 0 (by decide) 0 (by decide)
  | succ n ih =>
    intro f hf
    have power : 2 ^ n < 2 ^ (n + 1) := Nat.pow_lt_pow_right (by decide) (Nat.lt_succ_self n)
    by_cases top : f < 2 ^ n
    · exact ih (by omega) f top
    · have one : f / 2 ^ n = 1 := Nat.div_eq_of_lt_le (by omega) (by omega)
      have rest : f ^^^ 2 ^ n < 2 ^ n := by
        have none_left : (f ^^^ 2 ^ n) / 2 ^ n = 0 := by
          rw [Nat.xor_div_two_pow, one, Nat.div_self (Nat.two_pow_pos n), Nat.xor_self]
        exact (Nat.div_eq_zero_iff_lt (Nat.two_pow_pos n)).1 none_left
      have back : f = (f ^^^ 2 ^ n) ^^^ 2 ^ n := by rw [Nat.xor_assoc, Nat.xor_self, Nat.xor_zero]
      rw [back, additive _ (inside (by omega) rest) _ (inside hn power), ih (by omega) _ rest, zero n hn]
      rfl

theorem gfMul_bytes {f : Nat} (hf : f < 256) : Bytes (rsGen.map (gfMul f)) :=
  List.forall_mem_map.2 fun g _ => gfMul_lt hf g

/-- The roots of the generator: each multiple of it is 0 at each of 2^0 to 2^7. -/
theorem gfHorner_multiple_of_generator {f i : Nat} (hf : f < 256) (hi : i < 8) :
    gfHorner (gfPow 2 i) f (rsGen.map (gfMul f)) = 0 := by
  have zero : ∀ i < 8, ∀ k < 8, gfHorner (gfPow 2 i) (2 ^ k) (rsGen.map (gfMul (2 ^ k))) = 0 := by decide +kernel
  refine additive_eq_zero (g := fun f => gfHorner (gfPow 2 i) f (rsGen.map (gfMul f))) (fun a ha c hc => ?_) (zero i hi) (Nat.le_refl 8) f hf
  have sum : rsGen.map (gfMul (a ^^^ c)) = (rsGen.map (gfMul a)).zipWith (fun u v => u ^^^ v) (rsGen.map (gfMul c)) := by
    simp [List.zipWith_map, gfMul_xor ha hc]
  rw [sum, gfHorner_xor _ ha hc (gfMul_bytes ha) (gfMul_bytes hc) (by simp)]

/-- What one byte of data does to the parity. -/
def rsStep (r : List Nat) (d : Nat) : List Nat :=
  (r.drop 1 ++ [0]).zipWith (fun u v => u ^^^ v) (rsGen.map (gfMul (d ^^^ r.headD 0)))

theorem rsParity_append (data : List Nat) (d : Nat) : rsParity (data ++ [d]) = rsStep (rsParity data) d := by
  simp [rsParity, rsStep, List.zipWith_map_right]

theorem rsStep_length {r : List Nat} (len : r.length = 8) (d : Nat) : (rsStep r d).length = 8 := by
  simp [rsStep, rsGen_length, len]

theorem headD_lt {r : List Nat} (hr : Bytes r) : r.headD 0 < 256 := by
  cases r with
  | nil => exact Nat.two_pow_pos 8
  | cons h t => exact hr h List.mem_cons_self

theorem bytes_zipWith_xor {p q : List Nat} (hp : Bytes p) (hq : Bytes q) : Bytes (p.zipWith (fun u v => u ^^^ v) q) := by
  intro x hx
  obtain ⟨i, hi, rfl⟩ := List.mem_iff_getElem.1 hx
  rw [List.getElem_zipWith]
  exact Nat.xor_lt_two_pow (n := 8) (hp _ (List.getElem_mem _)) (hq _ (List.getElem_mem _))

theorem rsStep_bytes {r : List Nat} (hr : Bytes r) {d : Nat} (hd : d < 256) : Bytes (rsStep r d) := by
  refine bytes_zipWith_xor ?_ (gfMul_bytes (Nat.xor_lt_two_pow (n := 8) hd (headD_lt hr)))
  intro x hx
  rcases List.mem_append.1 hx with hx | hx
  · exact hr x (List.mem_of_mem_drop hx)
  · rw [List.mem_singleton.1 hx]
    exact Nat.two_pow_pos 8

/-- A byte of data keeps the codeword's value at a root at 0: the parity moves up by one power, and a multiple of the generator takes
away the power that drops out and the new byte. -/
theorem gfHorner_rsStep {i : Nat} (hi : i < 8) {v d : Nat} (hv : v < 256) (hd : d < 256) {r : List Nat} (len : r.length = 8)
    (hr : Bytes r) (zero : gfHorner (gfPow 2 i) v r = 0) :
    gfHorner (gfPow 2 i) (gfMul v (gfPow 2 i) ^^^ d) (rsStep r d) = 0 := by
  obtain _ | ⟨h, t⟩ := r
  · cases len
  obtain ⟨hh, ht⟩ := List.forall_mem_cons.1 hr
  have hf : d ^^^ h < 256 := Nat.xor_lt_two_pow (n := 8) hd hh
  have hm : gfMul v (gfPow 2 i) ^^^ h < 256 := Nat.xor_lt_two_pow (n := 8) (gfMul_lt hv _) hh
  have start : gfMul v (gfPow 2 i) ^^^ d = (gfMul v (gfPow 2 i) ^^^ h) ^^^ (d ^^^ h) := by
    rw [Nat.xor_comm d h, Nat.xor_assoc, ← Nat.xor_assoc h h d, Nat.xor_self, Nat.zero_xor]
  have moved : gfHorner (gfPow 2 i) (gfMul v (gfPow 2 i) ^^^ h) (t ++ [0]) = 0 := by
    have rest : gfHorner (gfPow 2 i) (gfMul v (gfPow 2 i) ^^^ h) t = 0 := zero
    rw [gfHorner_append, rest]
    exact congrArg (· ^^^ 0) (zero_gfMul _)
  have tail : Bytes (t ++ [0]) := by
    intro x hx
    rcases List.mem_append.1 hx with hx | hx
    · exact ht x hx
    · rw [List.mem_singleton.1 hx]
      exact Nat.two_pow_pos 8
  have sum := gfHorner_xor (gfPow 2 i) hm hf tail (gfMul_bytes hf) (by simpa [rsGen_length] using len)
  rw [moved, gfHorner_multiple_of_generator hf hi] at sum
  rw [start]
  exact sum

/-- The parity of data: 8 bytes, with which the codeword is 0 at each root of the generator. -/
theorem rsParity_spec {data : List Nat} (hd : Bytes data) :
    (rsParity data).length = 8 ∧ Bytes (rsParity data) ∧ ∀ i < 8, gfEval (data ++ rsParity data) (gfPow 2 i) = 0 := by
  induction data using List.reverseRecOn with
  | nil => decide +kernel
  | append_singleton data d ih =>
    have hdata : Bytes data := fun x hx => hd x (List.mem_append_left _ hx)
    have hlast : d < 256 := hd d (List.mem_append_right _ (List.mem_singleton.2 rfl))
    obtain ⟨len, bytes, zero⟩ := ih hdata
    rw [rsParity_append]
    refine ⟨rsStep_length len d, rsStep_bytes bytes hlast, fun i hi => ?_⟩
    have before := zero i hi
    rw [gfEval_eq, gfHorner_append] at before
    rw [gfEval_eq, gfHorner_append, gfHorner_append]
    exact gfHorner_rsStep hi (gfHorner_lt _ (Nat.two_pow_pos 8) hdata) hlast len bytes before

/-- A codeword as it was made is taken as it is. -/
theorem rsDecode_parity {data : List Nat} (hd : Bytes data) :
    rsDecode (data ++ rsParity data) = some (data ++ rsParity data, false) := by
  have clean : (rsSyndromes (data ++ rsParity data)).all (fun v => v == 0) = true := by
    rw [rsSyndromes, List.all_map, List.all_eq_true]
    intro i hi
    simpa using (rsParity_spec hd).2.2 i (List.mem_range.1 hi)
  unfold rsDecode
  exact if_pos clean

/-! ## The two codewords of a frame (R354) -/

theorem evens_cons (a : Nat) (l : List Nat) : evens (a :: l) = a :: evens (l.drop 1) := by
  cases l <;> rfl

theorem bytes_evens : ∀ {l : List Nat}, Bytes l → Bytes (evens l)
  | [], h => h
  | [_], h => h
  | a :: b :: l, h => by
    obtain ⟨ha, h⟩ := List.forall_mem_cons.1 h
    exact List.forall_mem_cons.2 ⟨ha, bytes_evens (List.forall_mem_cons.1 h).2⟩

theorem evens_length : ∀ l : List Nat, (evens l).length = (l.length + 1) / 2
  | [] => rfl
  | [_] => by simp [evens]
  | _ :: _ :: l => by simp only [evens, List.length_cons, evens_length l]; omega

/-- Bytes at even and at odd places, joined again. -/
theorem interleave_evens : ∀ {l : List Nat}, l.length % 2 = 0 → interleave (evens l) (evens (l.drop 1)) = l
  | [], _ => rfl
  | [_], h => by simp at h
  | a :: b :: l, h => by
    have rest := interleave_evens (l := l) (by rw [List.length_cons, List.length_cons] at h; omega)
    rw [List.drop_succ_cons, List.drop_zero, evens_cons b l, evens, interleave, rest]

/-- The numbers of a string's bytes. -/
abbrev toNats (bs : List Byte) : List Nat := bs.map (fun b => b.toNat)

theorem toNats_bytes (bs : List Byte) : Bytes (toNats bs) := List.forall_mem_map.2 fun b _ => b.isLt

theorem ofNat_toNats (bs : List Byte) : (toNats bs).map (BitVec.ofNat 8) = bs := by
  simp [toNats, Function.comp_def]

theorem toNats_ofNat {l : List Nat} (h : Bytes l) : toNats (l.map (BitVec.ofNat 8)) = l := by
  unfold toNats
  rw [List.map_map]
  refine (List.map_congr_left fun x hx => ?_).trans (List.map_id l)
  exact (BitVec.toNat_ofNat x 8).trans (Nat.mod_eq_of_lt (h x hx))

/-- The parity of the bytes at even places, and that of those at odd places. -/
def evenParity (bs : List Byte) : List Nat := rsParity (evens (toNats bs))
/-- The parity of the bytes at odd places. -/
def oddParity (bs : List Byte) : List Nat := rsParity (evens ((toNats bs).drop 1))

theorem bytes_drop {l : List Nat} (h : Bytes l) (n : Nat) : Bytes (l.drop n) := fun x hx => h x (List.mem_of_mem_drop hx)

theorem evenParity_spec (bs : List Byte) : (evenParity bs).length = 8 ∧ Bytes (evenParity bs) := by
  obtain ⟨len, bytes, -⟩ := rsParity_spec (bytes_evens (toNats_bytes bs))
  exact ⟨len, bytes⟩

theorem oddParity_spec (bs : List Byte) : (oddParity bs).length = 8 ∧ Bytes (oddParity bs) := by
  obtain ⟨len, bytes, -⟩ := rsParity_spec (bytes_evens (bytes_drop (toNats_bytes bs) 1))
  exact ⟨len, bytes⟩

theorem fecEncode_eq (bs : List Byte) : fecEncode bs = bs ++ (evenParity bs ++ oddParity bs).map (BitVec.ofNat 8) := rfl

theorem fecEncode_length (bs : List Byte) : (fecEncode bs).length = bs.length + 16 := by
  simp [fecEncode_eq, evenParity_spec, oddParity_spec]

theorem toNats_fecEncode (bs : List Byte) : toNats (fecEncode bs) = toNats bs ++ (evenParity bs ++ oddParity bs) := by
  have parity : Bytes (evenParity bs ++ oddParity bs) :=
    List.forall_mem_append.2 ⟨(evenParity_spec bs).2, (oddParity_spec bs).2⟩
  have back := toNats_ofNat parity
  rw [fecEncode_eq]
  unfold toNats at back ⊢
  rw [List.map_append, back]

/-- The error correction finds nothing to correct in what it made. -/
theorem fecDecode_fecEncode {bs : List Byte} (len : bs.length = 272) : fecDecode (fecEncode bs) = some (bs, false) := by
  obtain ⟨evenLen, -⟩ := evenParity_spec bs
  have data : (toNats (fecEncode bs)).take 272 = toNats bs := by
    rw [toNats_fecEncode]
    exact List.take_left' (by simpa [toNats] using len)
  have parity : (toNats (fecEncode bs)).drop 272 = evenParity bs ++ oddParity bs := by
    rw [toNats_fecEncode]
    exact List.drop_left' (by simpa [toNats] using len)
  have even : fecDecode.sub' (toNats (fecEncode bs)) 272 8 = evenParity bs := by
    rw [fecDecode.sub', parity]
    exact List.take_left' evenLen
  have odd : fecDecode.sub' (toNats (fecEncode bs)) 280 8 = oddParity bs := by
    rw [fecDecode.sub', show 280 = 272 + 8 from rfl, ← List.drop_drop, parity, List.drop_left' evenLen]
    exact List.take_of_length_le (Nat.le_of_eq (oddParity_spec bs).1)
  have evenLength : (evens (toNats bs)).length = 136 := by rw [evens_length]; simp [toNats, len]
  have oddLength : (evens ((toNats bs).drop 1)).length = 136 := by rw [evens_length]; simp [toNats, len]
  unfold fecDecode
  rw [if_neg (by simp [fecEncode_length, len])]
  rw [even, odd, data, evenParity, oddParity, rsDecode_parity (bytes_evens (toNats_bytes bs)),
    rsDecode_parity (bytes_evens (bytes_drop (toNats_bytes bs) 1))]
  dsimp only
  rw [List.take_left' evenLength, List.take_left' oddLength, interleave_evens (by simp [toNats, len])]
  exact congrArg (fun l => some (l, false)) (ofNat_toNats bs)

/-! ## The checksum (R356) -/

theorem crc32cBits_lt (k : Nat) {c : Nat} (h : c < 2 ^ 32) : crc32cBits k c < 2 ^ 32 := by
  induction k generalizing c with
  | zero => exact h
  | succ k ih =>
    rw [crc32cBits]
    refine ih ?_
    split
    · exact Nat.xor_lt_two_pow (by omega) (by decide)
    · omega

theorem crc32c_lt (bs : List Byte) : crc32c bs < 2 ^ 32 := by
  refine Nat.xor_lt_two_pow (List.foldlRecOn (motive := (· < 2 ^ 32)) bs _ (by decide) fun c h b _ => ?_) (by decide)
  exact crc32cBits_lt 8 (Nat.xor_lt_two_pow h (Nat.lt_of_lt_of_le b.isLt (by decide)))

/-! ## Frames (R355) -/

/-- The header of a frame as a number. -/
def Frame.header (f : Frame) (p : PortFields) : Nat :=
  f.typ % 16 + p.seq % 4096 * 2 ^ 4 + p.ack % 4096 * 2 ^ 16 + b2n p.nak * 2 ^ 28 + f.vc % 8 * 2 ^ 29 +
    p.crvc % 8 * 2 ^ 32 + p.crcnt % 256 * 2 ^ 35 + f.dest % 4096 * 2 ^ 43 + f.dpart % 8 * 2 ^ 55 + f.mid % 4096 * 2 ^ 58 +
    f.fidx % 65536 * 2 ^ 70 + f.vbytes % 256 * 2 ^ 86 + b2n f.last * 2 ^ 94

/-- The 272 bytes of a frame before its parity. -/
def Frame.body (f : Frame) (p : PortFields) : List Byte :=
  let head := leBytes 12 (f.header p)
  head ++ (leBytes 4 (crc32c (head ++ f.payload)) ++ f.payload)

theorem padTo_self {n : Nat} {bs : List Byte} (h : bs.length = n) : padTo n bs = bs := by
  simp [padTo, ← h]

theorem Frame.bytes_eq {f : Frame} (p : PortFields) (h : f.payload.length = 256) : f.bytes p = fecEncode (f.body p) := by
  simp only [Frame.bytes, Frame.body, Frame.header, padTo_self h, List.append_assoc]

theorem Frame.body_length {f : Frame} (p : PortFields) (h : f.payload.length = 256) : (f.body p).length = 272 := by
  simp [Frame.body, h]

theorem b2n_lt (b : Bool) : b2n b < 2 := by cases b <;> decide

theorem bit_b2n {v i : Nat} {b : Bool} (h : v / 2 ^ i % 2 = b2n b) : bit v i = b := by
  rw [bit, h]
  cases b <;> rfl

theorem Frame.header_lt (f : Frame) (p : PortFields) : f.header p < 256 ^ 12 := by
  have nak := b2n_lt p.nak
  have last := b2n_lt f.last
  unfold Frame.header
  omega

/-- The fields that a receiver reads from the header are those that the header was made of. -/
theorem Frame.header_fields {f : Frame} {p : PortFields} (typ : f.typ < 16) (vc : f.vc < 8) (dest : f.dest < 4096)
    (dpart : f.dpart < 8) (mid : f.mid < 4096) (fidx : f.fidx < 65536) (vbytes : f.vbytes < 256) (seq : p.seq < 4096)
    (ack : p.ack < 4096) (crvc : p.crvc < 8) (crcnt : p.crcnt < 256) :
    let h := f.header p
    (h % 16 = f.typ ∧ bits h 29 3 = f.vc ∧ bits h 43 12 = f.dest ∧ bits h 55 3 = f.dpart ∧ bits h 58 12 = f.mid ∧
      bits h 70 16 = f.fidx ∧ bits h 86 8 = f.vbytes ∧ bit h 94 = f.last) ∧
    (bits h 4 12 = p.seq ∧ bits h 16 12 = p.ack ∧ bit h 28 = p.nak ∧ bits h 32 3 = p.crvc ∧ bits h 35 8 = p.crcnt) := by
  have nak := b2n_lt p.nak
  have last := b2n_lt f.last
  unfold bits Frame.header
  refine ⟨⟨?_, ?_, ?_, ?_, ?_, ?_, ?_, bit_b2n ?_⟩, ?_, ?_, bit_b2n ?_, ?_, ?_⟩ <;> omega

/-- A frame whose fields fit is read from its bytes as it was sent. -/
theorem parseFrame_bytes {f : Frame} {p : PortFields} (typ : f.typ < 16) (vc : f.vc < 8) (dest : f.dest < 4096)
    (dpart : f.dpart < 8) (mid : f.mid < 4096) (fidx : f.fidx < 65536) (vbytes : f.vbytes < 256) (payload : f.payload.length = 256)
    (seq : p.seq < 4096) (ack : p.ack < 4096) (crvc : p.crvc < 8) (crcnt : p.crcnt < 256) :
    parseFrame (f.bytes p) = some (f, p, false) := by
  have front : num (f.body p) 0 12 = f.header p := by
    rw [Frame.body, num_leBytes_append, Nat.mod_eq_of_lt (f.header_lt p)]
  have head : (f.body p).take 12 = leBytes 12 (f.header p) := List.take_left' (leBytes_length ..)
  have rest : (f.body p).drop 12 = leBytes 4 (crc32c (leBytes 12 (f.header p) ++ f.payload)) ++ f.payload :=
    List.drop_left' (leBytes_length ..)
  have check : num (f.body p) 12 4 = crc32c (leBytes 12 (f.header p) ++ f.payload) := by
    rw [num, sub, rest, ← List.drop_zero (l := _ ++ f.payload), ← sub, ← num, num_leBytes_append]
    exact Nat.mod_eq_of_lt (crc32c_lt _)
  have data : (f.body p).drop 16 = f.payload := by
    rw [show 16 = 12 + 4 from rfl, ← List.drop_drop, rest]
    exact List.drop_left' (leBytes_length ..)
  obtain ⟨⟨e1, e2, e3, e4, e5, e6, e7, e8⟩, g1, g2, g3, g4, g5⟩ :=
    Frame.header_fields typ vc dest dpart mid fidx vbytes seq ack crvc crcnt
  unfold parseFrame
  rw [Frame.bytes_eq p payload, fecDecode_fecEncode (f.body_length p payload)]
  dsimp only
  rw [front, check, head, data, if_neg (by simp), e1, e2, e3, e4, e5, e6, e7, e8, g1, g2, g3, g4, g5]

end Sys2Proof.Machine
end

