-- ==== Sys2Proof/Proofs/Links.lean ====
section
/-!
PROOFS. The statement of chapter 13 on the bytes of frames.
-/

set_option Elab.async false

open Sys2Proof Sys2Proof.Machine

/-- Settles O60: the parity makes both codewords multiples of the generator, so that no syndrome is left; the header then holds each
field at its place, and the checksum is the one that was sent. -/
theorem framesRoundTrip : Obligations.FramesRoundTrip := by
  unfold Obligations.FramesRoundTrip
  intro f p typ vc dest dpart mid fidx vbytes payload seq ack crvc crcnt
  refine ⟨?_, parseFrame_bytes (by omega) vc dest dpart mid fidx vbytes payload seq ack crvc crcnt⟩
  rw [Frame.bytes_eq p payload, fecEncode_length, f.body_length p payload]

end

