-- ==== Sys2Proof/Proofs/ResetValues.lean ====
section
/-!
SUPPORT. What the register file reads of a register that nothing has written (R554).
-/

set_option Elab.async false

namespace Sys2Proof.Machine

open Sys2Proof

/-- The key of a register holds its code. -/
theorem regKey_mod (n : RegName) (i : Nat) : regKey n i % 256 = n.code := by
  have := n.code_lt
  unfold regKey
  omega

/-- Of an unlisted register of the map the register file reads the Reset value. -/
theorem regDefault_regKey {n : RegName} {i : Nat} (m : Mapped n i) : regDefault (regKey n i) = regReset n i := by
  have ring : regKey n i = 18 * 256 + RegName.sysEvcfg.code ↔ n = .sysEvcfg ∧ i = 18 := by
    rw [← regKey_inj]
    rfl
  unfold regDefault regReset
  simp only [ring, regKey_mod]
  split
  · rfl
  · obtain ⟨r, mem, rfl, -⟩ := m
    split
    · next q found =>
      have same : q.reg.code = r.reg.code := by simpa using List.find?_some found
      rw [RegName.code_inj same]
    · next none => exact absurd (decide_eq_true rfl) (List.find?_eq_none.1 none r mem)

end Sys2Proof.Machine
end

