-- ==== Sys2Proof/Proofs/MapAndReset.lean ====
section
/-!
PROOFS. The statements about the register map, the state after reset and the front of the queue.
-/

set_option Elab.async false

open Sys2Proof Sys2Proof.Machine

/-- Settles O7: `regAt` takes the offset of every register of the map back to it, so that one offset has one register. -/
theorem registerMapRoundTrip : Obligations.RegisterMapRoundTrip := by
  unfold Obligations.RegisterMapRoundTrip
  intro n i mapped
  refine ⟨regAt_regOffset mapped, regOffset_mod_four mapped, fun m j other same => ?_⟩
  have back := regAt_regOffset other
  rw [same, regAt_regOffset mapped] at back
  cases back
  exact ⟨rfl, rfl⟩

/-- Settles O1: a step takes the front of the queue by its definition. -/
theorem stepRunsTheFrontCommand : Obligations.StepRunsTheFrontCommand := by
  unfold Obligations.StepRunsTheFrontCommand
  exact fun _ _ _ => rfl

/-- Settles O4: both tables are empty after reset. -/
theorem resetIsInCanonicalForm : Obligations.ResetIsInCanonicalForm := by
  unfold Obligations.ResetIsInCanonicalForm
  exact ⟨rfl, rfl⟩

/-- Settles O3: a register that nothing has written reads as its Reset value (those without one are log entry 2), and so do the seasons;
the memory table is empty (log entry 1). -/
theorem resetHoldsTheResetValues : Obligations.ResetHoldsTheResetValues := by
  unfold Obligations.ResetHoldsTheResetValues
  refine ⟨fun n i m => regDefault_regKey m, fun a o => State.byteAt_eq _ o, rfl, rfl, rfl, ?die, ?partitions⟩
  case die => decide +kernel
  case partitions => decide +kernel

end

