-- ==== Sys2Proof/Proofs/Guards.lean ====
section
/-!
SUPPORT. The guard of every command, the rights that every write of one register is judged by, and frames of register writes.
-/

set_option Elab.async false

namespace Sys2Proof.Machine

open Sys2Proof

/-! ## Guards and rights -/

/-- Every command has one meaning, guarded by the units it names: it stops as naming no unit, or leaves a next state. -/
theorem exec_guarded (c : Instr) (s : State) : ∃ t, exec c s = inRange c.wellFormed (fun _ => .next t) := by
  cases c
  case memWindowWrite who win n v => cases win <;> exact ⟨_, rfl⟩
  case bootSelftest failing => cases failing <;> exact ⟨_, rfl⟩
  all_goals exact ⟨_, rfl⟩

/-- A write of one register, of a unit that exists, acts by its requester's rights. -/
theorem Writes.gated {c : Instr} {who : Requester} {n : RegName} {i : Nat} (h : Writes c who n i) (w : c.wellFormed = true)
    (s : State) : ∃ k, Runs c s (s.gated who n i k) := by
  cases h
  case memWindowWrite =>
    rename_i win _
    cases win <;> exact ⟨_, inRange_of w (fun _ => .next (State.gated ..))⟩
  all_goals exact ⟨_, inRange_of w (fun _ => .next (State.gated ..))⟩

/-! ## Frames -/

theorem OnlyRegs.refl (p : RegName → Nat → Prop) (s : State) : OnlyRegs p s s := ⟨rfl, fun _ _ _ => rfl⟩

theorem OnlyRegs.setReg (s : State) (n : RegName) (i : Nat) (v : Word) : OnlyRegs (fun m j => m = n ∧ j = i) s (s.setReg n i v) :=
  ⟨rfl, fun _ _ other => State.reg_setReg_ne s v other⟩

/-- A write of a field changes of its register that field alone. -/
theorem OnlyFields.setFld (s : State) {f : Fld} (fits : f.fits = true) (i v : Nat) : OnlyFields [f] f.reg i s (s.setFld f i v) := by
  refine ⟨OnlyRegs.setReg s f.reg i _, fun g same apart => ?_⟩
  obtain ⟨-, disjoint⟩ := apart f (List.mem_singleton.2 rfl)
  exact State.fld_setFld_apart s f g i v fits same (by simpa [Fld.apart] using disjoint)

theorem OnlyFields.count (s : State) {f : Fld} (fits : f.fits = true) (i n : Nat) : OnlyFields [f] f.reg i s (s.count f i n) :=
  .setFld s fits ..

end Sys2Proof.Machine
end

