-- ==== Sys2Proof/Proofs/AllCommands.lean ====
section
/-!
PROOFS. The statements about every command and about every write of a register.
-/

set_option Elab.async false

open Sys2Proof Sys2Proof.Machine

/-- Settles O2: the units that a command names are the guard of its meaning (the fault is log entry 53). -/
theorem commandsOfExistingUnitsRun : Obligations.CommandsOfExistingUnitsRun := by
  unfold Obligations.CommandsOfExistingUnitsRun
  intro c s
  obtain ⟨t, meaning⟩ := exec_guarded c s
  exact ⟨fun w => ⟨t, meaning.trans (inRange_of w _)⟩, fun w => by rw [meaning, w, inRange_false]⟩

/-- Settles O12: a write beyond its requester's rights is refused before its own rule, and a refusal is counted in REFUSED of the port of
a host function (log entry 49). -/
theorem refusedWritesOnlyCount : Obligations.RefusedWritesOnlyCount := by
  unfold Obligations.RefusedWritesOnlyCount
  intro c who n i s h w refused
  obtain ⟨k, runs⟩ := h.gated w s
  rw [State.gated_refused refused, State.refuse_eq] at runs
  refine ⟨_, runs, ?_⟩
  split
  · exact ⟨OnlyFields.count s rfl .., State.fld_count_same s rfl ..⟩
  · rfl

end

