-- ==== Sys2Proof/Proofs/ClearCommands.lean ====
section
/-!
SUPPORT. Permitted writes of registers: that they run, frames of several of them, and the clears.
-/

set_option Elab.async false

namespace Sys2Proof.Machine

open Sys2Proof

/-- A command that its requester may make does what its rule says. -/
theorem runs_permitted {p : Bool} {s k : State} {who : Requester} {n : RegName} {i : Nat} (units : p = true)
    (permits : Permits s who n i) : inRange p (fun _ => .next (s.gated who n i k)) = .next k := by
  rw [inRange_of units, State.gated_permitted permits]

theorem OnlyRegs.trans {p : RegName → Nat → Prop} {s t u : State} (h : OnlyRegs p s t) (g : OnlyRegs p t u) : OnlyRegs p s u := by
  obtain ⟨hs, hr⟩ := h
  obtain ⟨gs, gr⟩ := g
  refine ⟨?_, fun n i other => (gr n i other).trans (hr n i other)⟩
  rw [gs, hs]

theorem OnlyRegs.mono {p q : RegName → Nat → Prop} {s t : State} (h : OnlyRegs p s t) (i : ∀ n k, p n k → q n k) : OnlyRegs q s t :=
  ⟨h.1, fun n k other => h.2 n k (mt (i n k) other)⟩

/-! ## Clears -/

/-- A register set to 0. -/
theorem cleared_setReg (s : State) (n : RegName) (i : Nat) :
    (s.setReg n i 0#32).reg n i = 0#32 ∧ OnlyRegs (fun m j => m = n ∧ j = i) s (s.setReg n i 0#32) :=
  ⟨State.reg_setReg_same .., .setReg ..⟩

/-- Two registers of one index set to 0. -/
theorem cleared_setRegs (s : State) {n m : RegName} (other : n ≠ m) (i : Nat) :
    let t := (s.setReg n i 0#32).setReg m i 0#32
    t.reg n i = 0#32 ∧ t.reg m i = 0#32 ∧ OnlyRegs (fun k j => (k = n ∨ k = m) ∧ j = i) s t :=
  ⟨(State.reg_setReg_ne _ _ (fun e => other e.1)).trans (State.reg_setReg_same ..), State.reg_setReg_same ..,
    ((OnlyRegs.setReg s n i _).mono fun _ _ e => ⟨.inl e.1, e.2⟩).trans
      ((OnlyRegs.setReg _ m i _).mono fun _ _ e => ⟨.inr e.1, e.2⟩)⟩

/-- A field set to 0. -/
theorem cleared_setFld (s : State) {f : Fld} (fits : f.fits = true) (i : Nat) :
    (s.setFld f i 0).fld f i = 0 ∧ OnlyFields [f] f.reg i s (s.setFld f i 0) :=
  ⟨(State.fld_setFld_same _ _ _ _ fits).trans (Nat.zero_mod _), .setFld s fits ..⟩

theorem OnlyFields.trans {fs gs : List Fld} {n : RegName} {i : Nat} {s t u : State} (h : OnlyFields fs n i s t)
    (g : OnlyFields gs n i t u) : OnlyFields (fs ++ gs) n i s u := by
  obtain ⟨hr, hf⟩ := h
  obtain ⟨gr, gf⟩ := g
  exact ⟨hr.trans gr, fun k same apart => (gf k same fun f m => apart f (List.mem_append_right _ m)).trans
    (hf k same fun f m => apart f (List.mem_append_left _ m))⟩

theorem State.clearDet_cleared (s : State) (p : Nat) :
    (s.clearDet p).fld F.sysDetstat_MISSES p = 0 ∧ (s.clearDet p).fld F.sysDetstat_OVERRUNS p = 0 ∧
      OnlyFields [F.sysDetstat_MISSES, F.sysDetstat_OVERRUNS] .sysDetstat p s (s.clearDet p) := by
  obtain ⟨misses, first⟩ := cleared_setFld s (f := F.sysDetstat_MISSES) rfl p
  obtain ⟨overruns, second⟩ := cleared_setFld (s.setFld F.sysDetstat_MISSES p 0) (f := F.sysDetstat_OVERRUNS) rfl p
  exact ⟨(State.fld_setFld_apart _ F.sysDetstat_OVERRUNS F.sysDetstat_MISSES p 0 rfl rfl rfl).trans misses, overruns, first.trans second⟩

/-- PWR_OVER of the eight partitions set to 0. -/
def State.clearOver (s : State) : State := (List.range 8).foldl (fun t p => t.setReg .pwrOver p 0#32) s

theorem State.clearPwr_eq (s : State) : s.clearPwr = s.clearOver.setFld F.clkStat_SAGCNT 0 0 := rfl

theorem State.reg_clearOver (s : State) {p : Nat} (h : p < 8) : s.clearOver.reg .pwrOver p = 0#32 :=
  foldl_observed_once (f := fun t q => State.setReg t .pwrOver q 0#32) (g := fun t => State.reg t .pwrOver p) (F := fun _ => 0#32)
    (fun t => t.reg_setReg_same ..)
    (fun t _ other => t.reg_setReg_ne _ (fun e => other e.2.symm)) List.nodup_range (List.mem_range.2 h) s

theorem State.clearOver_onlyRegs (s : State) : OnlyRegs (fun m i => m = .pwrOver ∧ i < 8) s s.clearOver :=
  List.foldlRecOn (motive := fun t => OnlyRegs (fun m i => m = .pwrOver ∧ i < 8) s t) _ _ (OnlyRegs.refl _ s) fun t only p hp =>
    only.trans ((OnlyRegs.setReg t .pwrOver p _).mono fun _ _ e => ⟨e.1, e.2 ▸ List.mem_range.1 hp⟩)

theorem State.clearPwr_cleared (s : State) :
    (∀ p, p < 8 → s.clearPwr.reg .pwrOver p = 0#32) ∧ s.clearPwr.fld F.clkStat_SAGCNT 0 = 0 ∧
      s.clearPwr.fld F.clkStat_LEVEL 0 = s.fld F.clkStat_LEVEL 0 ∧
      OnlyRegs (fun m i => (m = .pwrOver ∧ i < 8) ∨ (m = .clkStat ∧ i = 0)) s s.clearPwr := by
  rw [State.clearPwr_eq]
  obtain ⟨sag, field⟩ := cleared_setFld s.clearOver (f := F.clkStat_SAGCNT) rfl 0
  refine ⟨fun p hp => ?counts, sag, ?level, ?frame⟩
  case counts => rw [State.reg_setFld_ne _ _ _ (by simp [F.clkStat_SAGCNT]), s.reg_clearOver hp]
  case level =>
    rw [State.fld_setFld_apart _ F.clkStat_SAGCNT F.clkStat_LEVEL 0 0 rfl rfl rfl]
    exact State.fld_of_reg (s.clearOver_onlyRegs.2 _ _ (by simp [F.clkStat_LEVEL]))
  case frame => exact (s.clearOver_onlyRegs.mono fun _ _ => .inl).trans (field.1.mono fun _ _ => .inr)

end Sys2Proof.Machine
end

