-- ==== Sys2Proof/Proofs/Clears.lean ====
section
/-!
PROOFS. The statement about the clear commands.
-/

set_option Elab.async false

open Sys2Proof Sys2Proof.Machine

/-- Settles O57: a permitted CLEAR sets the registers or fields of its table to 0, one after the other. -/
theorem clearsZeroTheirCountersAlone : Obligations.ClearsZeroTheirCountersAlone := by
  unfold Obligations.ClearsZeroTheirCountersAlone
  intro s who n
  refine ⟨?cvt, ?spill, ?sent, ?sfu, ?mem, ?cmp, ?lnk, ?eth, ?trn, ?err, ?cp, ?wheel, ?det, ?pwr⟩
  case cvt => exact fun hn permits => ⟨_, runs_permitted (decide_eq_true hn) permits, cleared_setRegs s (by decide) n⟩
  case mem => exact fun hn permits => ⟨_, runs_permitted (decide_eq_true hn) permits, cleared_setRegs s (by decide) n⟩
  case trn => exact fun hn permits => ⟨_, runs_permitted (decide_eq_true hn) permits, cleared_setRegs s (by decide) n⟩
  case cp | wheel => exact fun hn permits => ⟨_, runs_permitted (decide_eq_true hn) permits, cleared_setFld s rfl n⟩
  case det => exact fun hn permits => ⟨_, runs_permitted (decide_eq_true hn) permits, s.clearDet_cleared n⟩
  case pwr => exact fun permits => ⟨_, runs_permitted (p := true) rfl permits, s.clearPwr_cleared⟩
  all_goals exact fun hn permits => ⟨_, runs_permitted (decide_eq_true hn) permits, cleared_setReg s _ n⟩

end

