-- ==== Sys2Proof/Proofs/ObjectAccess.lean ====
section
/-!
SUPPORT. Accesses to synchronisation objects by the operations of R254: what an admitted one leaves at the object and answers, and that
any other leaves every object alone.
-/

set_option Elab.async false

namespace Sys2Proof.Machine

open Sys2Proof

/-! ## Admitted operations -/

/-- What an operation leaves and answers: VALUE, ERR and GEN of the object, the result, and every other register and byte as before. -/
structure ObjectLeft (s t : State) (o : Nat) (value : Word) (err gen : Nat) (result : Nat) : Prop where
  value  : t.reg .syncObj o = value
  err    : t.fld F.syncCfg_ERR o = err
  gen    : t.fld F.syncCfg_GEN o = gen
  result : t.resp = leBytes 8 result
  others : ∀ n i, ¬ ((n = .syncObj ∨ n = .syncCfg) ∧ i = o) → t.reg n i = s.reg n i
  bytes  : KeepsBytes s t

/-- An admitted operation leaves at the object what its effect does. -/
theorem State.objAccess_left {s : State} {who : Requester} {o op : Nat} (served : s.hostServed who = true)
    (acts : s.actsFor who (s.objPart o) = true) (admits : s.objOpOk o op = true) (v : Word) :
    let e := s.objEffect o op v
    ObjectLeft s (s.objAccess who o op v) o (e.reg .syncObj o) (e.fld F.syncCfg_ERR o) (e.fld F.syncCfg_GEN o)
      ((s.reg .syncObj o).toNat + 2 ^ 32 * s.fld F.syncCfg_ERR o +
        2 ^ 48 * (if s.objCounter o then e.fld F.syncCfg_GEN o else 0)) := by
  intro e
  have regs := State.objOp_regs s o op v s.cycle
  rw [State.objAccess_admitted served acts admits]
  exact {
    value := State.reg_of_regs regs ..
    err := State.fld_of_regs regs ..
    gen := State.fld_of_regs regs ..
    result := congrArg (leBytes 8) (State.objOp_result ..)
    others := fun n i h => (State.reg_of_regs regs n i).trans (State.reg_objEffect_ne s op v h)
    bytes := .of_mem ((State.objOp_mem s o op v s.cycle).trans (State.objEffect_mem ..)) }

theorem State.syncCfg_setValue (s : State) (o : Nat) (v : Word) {f : Fld} (h : f.reg = .syncCfg) :
    (s.setReg .syncObj o v).fld f o = s.fld f o :=
  State.fld_setReg_ne s f v (by simp [h])

/-- The operations that leave ERR and GEN alone: READ, SET, ADD, MAX and CREAD. -/
theorem State.objEffect_value (s : State) (o op : Nat) (v : Word) (plain : op ∈ [0, 1, 2, 3, 9]) :
    let val := s.reg .syncObj o
    (s.objEffect o op v).reg .syncObj o = (match op with
      | 1 => v
      | 2 => val + v
      | 3 => if val.toNat < v.toNat then v else val
      | _ => val) ∧
    (s.objEffect o op v).fld F.syncCfg_ERR o = s.fld F.syncCfg_ERR o ∧
    (s.objEffect o op v).fld F.syncCfg_GEN o = s.fld F.syncCfg_GEN o := by
  simp only [List.mem_cons, List.not_mem_nil, or_false] at plain
  obtain rfl | rfl | rfl | rfl | rfl := plain
  · exact ⟨rfl, rfl, rfl⟩
  · exact ⟨State.reg_setReg_same .., s.syncCfg_setValue o _ rfl, s.syncCfg_setValue o _ rfl⟩
  · exact ⟨State.reg_setReg_same .., s.syncCfg_setValue o _ rfl, s.syncCfg_setValue o _ rfl⟩
  · exact ⟨State.reg_setReg_same .., s.syncCfg_setValue o _ rfl, s.syncCfg_setValue o _ rfl⟩
  · exact ⟨rfl, rfl, rfl⟩

/-- A write of ERR leaves VALUE and GEN alone. -/
theorem State.setErr_left (s : State) (o e : Nat) :
    (s.setFld F.syncCfg_ERR o e).reg .syncObj o = s.reg .syncObj o ∧
    (s.setFld F.syncCfg_ERR o e).fld F.syncCfg_ERR o = e % 256 ∧
    (s.setFld F.syncCfg_ERR o e).fld F.syncCfg_GEN o = s.fld F.syncCfg_GEN o :=
  ⟨State.reg_setFld_ne _ _ _ (by simp [F.syncCfg_ERR]), State.fld_setFld_same _ _ _ _ rfl,
    State.fld_setFld_apart _ F.syncCfg_ERR F.syncCfg_GEN _ _ rfl rfl rfl⟩

/-- SETERR sets ERR only when it is 0. -/
theorem State.objEffect_seterr (s : State) (o : Nat) (v : Word) :
    (s.objEffect o 4 v).reg .syncObj o = s.reg .syncObj o ∧
    (s.objEffect o 4 v).fld F.syncCfg_ERR o = (if s.fld F.syncCfg_ERR o = 0 then v.toNat % 256 else s.fld F.syncCfg_ERR o) ∧
    (s.objEffect o 4 v).fld F.syncCfg_GEN o = s.fld F.syncCfg_GEN o := by
  have effect : s.objEffect o 4 v = if s.fld F.syncCfg_ERR o = 0 then s.setFld F.syncCfg_ERR o (v.toNat % 256) else s := rfl
  rw [effect]
  split
  · simpa using s.setErr_left o (v.toNat % 256)
  · exact ⟨rfl, rfl, rfl⟩

/-- The reset of a work counter leaves ERR alone. -/
theorem State.err_creset (s : State) (o : Nat) (v : Word) : (s.objEffect o 8 v).fld F.syncCfg_ERR o = s.fld F.syncCfg_ERR o := by
  have kept : ((s.setReg .syncObj o 0#32).setObjLimit o v).fld F.syncCfg_ERR o = s.fld F.syncCfg_ERR o := s.syncCfg_setValue o _ rfl
  rw [State.objEffect_creset, State.advance, State.fld_setFld_apart _ F.syncCfg_GEN F.syncCfg_ERR _ _ rfl rfl rfl, kept]

/-! ## Operations without effect -/

/-- Every object's registers and LIMIT are as before, and the answer is 0. -/
structure ObjectsKept (s t : State) : Prop where
  answer  : t.resp = leBytes 8 0
  objects : ∀ p, t.reg .syncObj p = s.reg .syncObj p ∧ t.reg .syncCfg p = s.reg .syncCfg p ∧ t.objLimit p = s.objLimit p

theorem ObjectsKept.refuse (s : State) (who : Requester) : ObjectsKept s ({ s with resp := leBytes 8 0 }.refuse who) := by
  rw [State.refuse_eq]
  split
  · exact ⟨rfl, fun p => ⟨State.reg_count_ne _ _ (by simp [F.pciErrcnt_REFUSED]), State.reg_count_ne _ _ (by simp [F.pciErrcnt_REFUSED]),
      rfl⟩⟩
  · exact ⟨rfl, fun _ => ⟨rfl, rfl, rfl⟩⟩

theorem ObjectsKept.events {s t u : State} (h : ObjectsKept s t) (e : OnlyEvents t u) : ObjectsKept s u := by
  refine ⟨(congrArg State.resp e.units).trans h.answer, fun p => ?_⟩
  obtain ⟨value, config, limit⟩ := h.objects p
  exact ⟨(e.regs _ _ (by simp [EventReg]) not_false).trans value, (e.regs _ _ (by simp [EventReg]) not_false).trans config,
    (congrArg (State.objLimit · p) e.units).trans limit⟩

/-- An operation that the table gives no effect, by a host function, a service core or Sage (R254). -/
theorem State.objBad_kept (s : State) {who : Requester} (kind : who.isHost = true ∨ who.svcOrSage = true) (o op : Nat) (v : Word) :
    ObjectsKept s (s.objBad who o op v) := by
  have judged : ObjectsKept s (if s.actsFor who (s.objPart o) then { s with resp := leBytes 8 0 }
      else { s with resp := leBytes 8 0 }.refuse who) := by
    split
    · exact ⟨rfl, fun _ => ⟨rfl, rfl, rfl⟩⟩
    · exact .refuse s who
  unfold State.objBad
  split
  · simp [Requester.isHost, Requester.svcOrSage] at kind
  · exact ⟨rfl, fun _ => ⟨rfl, rfl, rfl⟩⟩
  · exact ⟨rfl, fun _ => ⟨rfl, rfl, rfl⟩⟩
  · dsimp only
    split
    · exact judged
    · exact judged.events (State.writeIgnored_onlyEvents ..)

theorem State.objAccess_kept {s : State} {who : Requester} (kind : who.isHost = true ∨ who.svcOrSage = true) {o op : Nat}
    (mismatch : s.actsFor who (s.objPart o) = false ∨ s.objOpOk o op = false) (v : Word) :
    ObjectsKept s (s.objAccess who o op v) := by
  unfold State.objAccess
  split
  · exact .refuse s who
  · rw [if_pos (by rcases mismatch with h | h <;> simp [h])]
    exact s.objBad_kept kind o op v

end Sys2Proof.Machine
end

