-- ==== Sys2Proof/Proofs/Objects.lean ====
section
/-!
PROOFS. The statements about operations on synchronisation objects.
-/

set_option Elab.async false

open Sys2Proof Sys2Proof.Machine

/-- Settles O19: each operation leaves at the object what `objEffect` gives it, and latching the waits keeps all registers and bytes. -/
theorem objectOperationsChangeTheObject : Obligations.ObjectOperationsChangeTheObject := by
  unfold Obligations.ObjectOperationsChangeTheObject
  intro s who o v ho served acts val err gen eff
  have run {c : Instr} {op : Nat} {w value1 : Word} {err1 : Nat} (meaning : exec c s = inRange (o < 65536) (fun _ => .next (s.objAccess who o op w)))
      (admits : s.objOpOk o op = true) (left : (s.objEffect o op w).reg .syncObj o = value1 ∧
        (s.objEffect o op w).fld F.syncCfg_ERR o = err1 ∧ (s.objEffect o op w).fld F.syncCfg_GEN o = s.fld F.syncCfg_GEN o) :
      eff c value1 err1 := by
    obtain ⟨value, error, generation⟩ := left
    obtain ⟨h1, h2, h3, h4, h5, h6⟩ := State.objAccess_left served acts admits w
    rw [generation] at h3 h4
    exact ⟨_, meaning.trans (inRange_of (decide_eq_true ho) _), h1.trans value, h2.trans error, h3, h4, h5, h6⟩
  refine ⟨run rfl rfl (s.objEffect_value o 0 _ (by decide)), fun plain => ?plain, fun counter => ⟨?cread, ?creset⟩⟩
  case plain =>
    have admits : ∀ op ∈ [1, 2, 3, 4, 5], s.objOpOk o op = true := by simp [State.objOpOk, plain]
    exact ⟨run rfl (admits 1 (by decide)) (s.objEffect_value o 1 v (by decide)),
      run rfl (admits 2 (by decide)) (s.objEffect_value o 2 v (by decide)),
      run rfl (admits 3 (by decide)) (s.objEffect_value o 3 v (by decide)),
      run rfl (admits 4 (by decide)) (s.objEffect_seterr o v),
      run rfl (admits 5 (by decide)) (s.setErr_left o 0)⟩
  case cread => exact run rfl counter (s.objEffect_value o 9 _ (by decide))
  case creset =>
    obtain ⟨h1, h2, h3, h4, h5, h6⟩ := State.objAccess_left (op := 8) served acts counter v
    rw [State.gen_creset] at h3 h4
    rw [if_pos counter] at h4
    have limit := (State.objLimit_objOp s o 8 v s.cycle o).trans (State.objLimit_creset s o v)
    have sameGen : gen = s.fld F.syncCfg_GEN o := if_pos counter
    rw [sameGen]
    refine ⟨_, inRange_of (decide_eq_true ho) (fun _ => .next (s.objAccess who o 8 v)), h1.trans (State.next_creset ..), ?limit,
      h2.trans (s.err_creset o v), h3, h4, h5, h6⟩
    rw [State.objAccess_admitted (op := 8) served acts counter]
    exact limit

/-- Settles O21: an operation that is not admitted ends in `objBad`, or is refused before, and neither touches an object. That it answers
0 is the model's choice. -/
theorem mismatchedObjectOperationHasNoEffect : Obligations.MismatchedObjectOperationHasNoEffect := by
  unfold Obligations.MismatchedObjectOperationHasNoEffect
  intro s who o v c ho kind mismatch
  have run {op : Nat} {w : Word} (meaning : exec c s = inRange (o < 65536) (fun _ => .next (s.objAccess who o op w)))
      (bad : s.actsFor who (s.objPart o) = false ∨ s.objOpOk o op = false) :
      ∃ t, Runs c s t ∧ t.resp = leBytes 8 0 ∧ (∀ p, t.reg .syncObj p = s.reg .syncObj p ∧ t.reg .syncCfg p = s.reg .syncCfg p ∧
        t.objLimit p = s.objLimit p) := by
    obtain ⟨answer, objects⟩ := State.objAccess_kept kind bad w
    exact ⟨_, meaning.trans (inRange_of (decide_eq_true ho) _), answer, objects⟩
  obtain ⟨foreign, rfl | rfl⟩ | ⟨bad, rfl | rfl | rfl | rfl | rfl⟩ | ⟨bad, rfl | rfl⟩ := mismatch
  case inl.inl | inl.inr => exact run rfl (.inl foreign)
  case inr.inr.inl | inr.inr.inr => exact run rfl (bad.imp_right id)
  all_goals exact run rfl (bad.imp_right fun counter => by simp [State.objOpOk, counter])

end

