-- ==== Sys2Proof/Proofs/DeviceMemory.lean ====
section
/-!
SUPPORT. Device memory after a store, and an event ring after a record (R319, R553).
-/

set_option Elab.async false

namespace Sys2Proof.Machine

open Sys2Proof

/-! ## Stores -/

/-- What a byte of device memory reads after a store. -/
theorem State.byteAt_store (s : State) (a : Nat) (bs : List Byte) {b : Nat} (o : OnDevice b) :
    (s.store a bs).byteAt b = if a ≤ b ∧ b < a + bs.length then bs.getD (b - a) 0x00#8 else s.byteAt b := by
  rw [State.byteAt_eq _ o, State.byteAt_eq _ o, State.store_mem, rd_putBytes]

theorem State.keepsBytesBut_store (s : State) (a : Nat) (bs : List Byte) : KeepsBytesBut a bs.length s (s.store a bs) := by
  intro b o outside
  rw [s.byteAt_store a bs o, if_neg outside]

theorem granuleLen_pos (g : Nat) : 0 < granuleLen g := by
  unfold granuleLen
  split <;> decide

/-- A store of some bytes mends the granules that it writes whole. -/
theorem State.store_bad (s : State) (a : Nat) {bs : List Byte} (some_ : bs.length ≠ 0) :
    (s.store a bs).bad = mendBad s.bad a bs.length := by
  unfold State.store
  rw [if_neg some_]
  dsimp only
  split <;> rfl

theorem State.not_mem_bad_store (s : State) {a g : Nat} {bs : List Byte} (lo : a ≤ g) (hi : g + granuleLen g ≤ a + bs.length) :
    g ∉ (s.store a bs).bad := by
  have := granuleLen_pos g
  rw [s.store_bad a (by omega)]
  simp [mendBad, lo, hi]

/-! ## Event rings (R553) -/

theorem State.ringCap_pos (s : State) (f : Nat) : 0 < s.ringCap f := by
  unfold State.ringCap
  split
  · decide
  · exact Nat.mul_pos (by decide) (Nat.two_pow_pos _)

/-- The bytes of a placed ring lie in device memory. -/
theorem State.ringPlaced_onDevice {s : State} {f : Nat} (placed : s.ringPlaced f = true) {b : Nat}
    (lo : s.pair .sysEvbaseLo .sysEvbaseHi f ≤ b) (hi : b < s.pair .sysEvbaseLo .sysEvbaseHi f + 32 * s.ringCap f) : OnDevice b := by
  have inside : inMsT1 (s.pair .sysEvbaseLo .sysEvbaseHi f) (32 * s.ringCap f) = true :=
    ((Bool.and_eq_true _ _).mp placed).1
  intro d e
  rcases region_inMsT1 inside lo hi with r | r <;> rw [r] at e <;> cases e

theorem State.msix_mem (s : State) (f : Nat) (part : Option Nat) (vec : Nat) : (s.msix f part vec).mem = s.mem := by
  have lost := s.count_mem F.pciErrcnt_LOSTIRQ (fnPort f) 1
  unfold State.msix
  dsimp only
  generalize s.count F.pciErrcnt_LOSTIRQ (fnPort f) 1 = counted at lost ⊢
  repeat' split
  any_goals exact lost
  all_goals rfl

/-- The address of a ring's slot for the next record. -/
def State.ringSlot (s : State) (f : Nat) : Nat :=
  s.pair .sysEvbaseLo .sysEvbaseHi f + 32 * (s.fld F.sysEvidx_EVTAIL f % s.ringCap f)

/-- The state in which a record stands in its slot and EVTAIL has moved on. -/
def State.ringTaken (s : State) (f : Nat) (rcd : List Byte) : State :=
  ((s.store (s.ringSlot f) rcd).putTouch 0 (s.ringPart f) noEg (s.ringSlot f) 32).setFld F.sysEvidx_EVTAIL f
    ((s.fld F.sysEvidx_EVTAIL f + 1) % 65536)

/-- Of the registers, an interrupt changes the counts of lost ones alone. -/
theorem State.reg_msix (s : State) (f : Nat) (part : Option Nat) (vec : Nat) {n : RegName} (h : n ≠ .pciErrcnt) (i : Nat) :
    (s.msix f part vec).reg n i = s.reg n i := by
  have lost : (s.count F.pciErrcnt_LOSTIRQ (fnPort f) 1).reg n i = s.reg n i := State.reg_count_ne _ _ (fun e => h e.1)
  unfold State.msix
  dsimp only
  generalize s.count F.pciErrcnt_LOSTIRQ (fnPort f) 1 = counted at lost ⊢
  repeat' split
  any_goals exact lost
  all_goals rfl

/-- A ring with room takes the record, and then interrupts if it asks for that. -/
theorem State.ringWrite_room {s : State} {f : Nat} (part : Option Nat) (rcd : List Byte) (host : f < 18)
    (enabled : s.flag F.sysEvcfg_EN f = true) (placed : s.ringPlaced f = true)
    (room : (s.fld F.sysEvidx_EVTAIL f + 65536 - s.fld F.sysEvidx_EVHEAD f) % 65536 ≠ s.ringCap f) :
    s.ringWrite f part rcd = if (s.ringTaken f rcd).flag F.sysEvcfg_IRQEN f
      then (s.ringTaken f rcd).msix f part ((s.ringTaken f rcd).fld F.sysEvcfg_VECTOR f) else s.ringTaken f rcd := by
  unfold State.ringWrite
  rw [if_neg (by simp [enabled]), if_neg (by simp [placed])]
  dsimp only
  rw [if_neg room, if_neg (show f ≠ 18 by omega)]
  rfl

theorem State.ringWrite_full {s : State} {f : Nat} (part : Option Nat) (rcd : List Byte)
    (enabled : s.flag F.sysEvcfg_EN f = true) (placed : s.ringPlaced f = true)
    (full : (s.fld F.sysEvidx_EVTAIL f + 65536 - s.fld F.sysEvidx_EVHEAD f) % 65536 = s.ringCap f) :
    s.ringWrite f part rcd = s.count F.sysEvlost_LOST f 1 := by
  unfold State.ringWrite
  rw [if_neg (by simp [enabled]), if_neg (by simp [placed]), if_pos full]

theorem State.ringTaken_mem (s : State) (f : Nat) (rcd : List Byte) : (s.ringTaken f rcd).mem = putBytes s.mem (s.ringSlot f) rcd := by
  rw [State.ringTaken, State.setFld_mem, State.putTouch_mem, State.store_mem]

theorem State.evtail_ringTaken (s : State) (f : Nat) (rcd : List Byte) :
    (s.ringTaken f rcd).fld F.sysEvidx_EVTAIL f = (s.fld F.sysEvidx_EVTAIL f + 1) % 65536 :=
  (State.fld_setFld_same _ _ _ _ rfl).trans (Nat.mod_mod _ _)

/-- Memory and EVTAIL of a ring that took a record. -/
theorem State.ringWrite_taken {s : State} {f : Nat} (part : Option Nat) (rcd : List Byte) (host : f < 18)
    (enabled : s.flag F.sysEvcfg_EN f = true) (placed : s.ringPlaced f = true)
    (room : (s.fld F.sysEvidx_EVTAIL f + 65536 - s.fld F.sysEvidx_EVHEAD f) % 65536 ≠ s.ringCap f) :
    (s.ringWrite f part rcd).mem = putBytes s.mem (s.ringSlot f) rcd ∧
      (s.ringWrite f part rcd).fld F.sysEvidx_EVTAIL f = (s.fld F.sysEvidx_EVTAIL f + 1) % 65536 := by
  rw [State.ringWrite_room part rcd host enabled placed room]
  split
  · exact ⟨(State.msix_mem ..).trans (s.ringTaken_mem f rcd),
      (State.fld_of_reg (State.reg_msix _ _ _ _ (by decide) _)).trans (s.evtail_ringTaken f rcd)⟩
  · exact ⟨s.ringTaken_mem f rcd, s.evtail_ringTaken f rcd⟩

end Sys2Proof.Machine
end

