-- ==== Sys2Proof/Proofs/StoresAndRings.lean ====
section
/-!
PROOFS. The statements about stores to device memory and about event rings.
-/

set_option Elab.async false

open Sys2Proof Sys2Proof.Machine

/-- Settles O8: a store puts its bytes into the table of memory and touches no register; the granules that it covers are mended. -/
theorem storedBytesReadBack : Obligations.StoredBytesReadBack := by
  unfold Obligations.StoredBytesReadBack
  exact fun s a bs => ⟨fun b o => s.byteAt_store a bs o, fun n i => State.reg_of_regs (State.store_regs ..) n i,
    fun g lo hi => s.not_mem_bad_store lo hi⟩

/-- Settles O9: a ring with room stores the record at its slot and moves EVTAIL on, which an interrupt leaves so; a full ring counts. -/
theorem ringTakesARecord : Obligations.RingTakesARecord := by
  unfold Obligations.RingTakesARecord
  intro s f part rcd host len enabled placed t tail a
  refine ⟨fun room => ?taken, fun full => State.ringWrite_full part rcd enabled placed full⟩
  obtain ⟨mem, evtail⟩ := State.ringWrite_taken part rcd host enabled placed room
  have stored : ∀ b, OnDevice b → t.byteAt b = (s.store a rcd).byteAt b :=
    fun b o => State.byteAt_of_mem (mem.trans (State.store_mem ..).symm) o
  refine ⟨fun k hk => ?record, fun b o outside => ?frame, evtail⟩
  case record =>
    have slot := Nat.mod_lt tail (s.ringCap_pos f)
    have o : OnDevice (a + k) := State.ringPlaced_onDevice placed (by omega) (by omega)
    rw [stored _ o, s.byteAt_store a rcd o, if_pos (by omega), Nat.add_sub_cancel_left]
  case frame => exact (stored b o).trans (s.keepsBytesBut_store a rcd b o (len ▸ outside))

end

