-- ==== Sys2Proof/Proofs/RegisterWrites.lean ====
section
/-!
SUPPORT. Writes of registers by offset that act by access types (R13 to R16, R208), bit by bit.
-/

set_option Elab.async false

namespace Sys2Proof.Machine

open Sys2Proof

/-- A field is made of its bits. -/
theorem bits_congr {x y : Word} {lo w : Nat} (same : ∀ k, lo ≤ k → k < lo + w → x.getLsbD k = y.getLsbD k) :
    bits x.toNat lo w = bits y.toNat lo w := by
  refine Nat.eq_of_testBit_eq fun k => ?_
  simp only [bits, Nat.testBit_mod_two_pow, Nat.testBit_div_two_pow]
  by_cases inside : k < w
  · simp only [inside, decide_true, Bool.true_and]
    exact same (k + lo) (by omega) (by omega)
  · simp [inside]

/-- Bit by bit, a plain write of a register without locked fields takes RW bits, clears W1C bits written 1 and keeps the rest. -/
theorem getLsbD_plainWrite {n : RegName} (unlocked : n.rwlMask = 0#32) (old v : Word) {k : Nat} (hk : k < 32) :
    (plainWrite n false old v).getLsbD k =
      if n.rwMask.getLsbD k then v.getLsbD k && !(n.w1cMask.getLsbD k && v.getLsbD k)
      else old.getLsbD k && !(n.w1cMask.getLsbD k && v.getLsbD k) := by
  simp only [plainWrite, unlocked, Bool.false_eq_true, if_false, BitVec.or_zero, BitVec.getLsbD_and, BitVec.getLsbD_or,
    BitVec.getLsbD_not, hk, decide_true, Bool.true_and]
  cases n.rwMask.getLsbD k <;> cases v.getLsbD k <;> cases old.getLsbD k <;> cases n.w1cMask.getLsbD k <;> rfl

/-- A permitted write by offset of a register of the map is the register's own write. -/
theorem runs_regWrite {s : State} {who : Requester} {n : RegName} {i : Nat} (m : Mapped n i) (permits : Permits s who n i) (v : Word) :
    Runs (.regWrite who (regOffset n i) v) s (s.writeReg who n i v) := by
  obtain ⟨served, rights⟩ := permits
  change Host.Outcome.next (s.regWrite who (regOffset n i) v) = _
  simp [State.regWrite, served, rights, regOffset_mod_four m, regAt_regOffset m]

theorem PlainReg.unlocked {n : RegName} (plain : PlainReg n = true) : n.rwlMask = 0#32 := by
  rw [PlainReg, Bool.and_eq_true] at plain
  exact eq_of_beq plain.2

/-- A register without a rule of its own takes a plain write. -/
theorem PlainReg.writeReg {n : RegName} (plain : PlainReg n = true) (s : State) (who : Requester) (i : Nat) (v : Word) :
    s.writeReg who n i v = s.setReg n i (plainWrite n false (s.reg n i) v) := by
  cases n
  case syncObj | syncCfg | cpBound | qDoorbell | qCfg | qRingbaseLo | qRingbaseHi | qCmpbaseLo | qCmpbaseHi | qCtrl | qCmpidx |
      cpQjob | memT1win | memMswin | memT2win | memWheel | cpWheel | cpWlen | cpJob | cpJctl | sysPartcfg | sysPartmap | sysPseason |
      sysEvcfg | sysEvidx | sysEvbaseLo | sysEvbaseHi | lnkCfg | ceGrpctl | ethCfg | fenPdqtail | fenCtl | pwrCap | pwrBudget |
      pwrReserve | bootCtl | secCtl | pciFnmap | pciVfctl | teCvtclr | teSpillclr | egSentclr | sfuStatclr | cpStatclr | memStatclr |
      cmpStatclr | lnkStatclr | ethDropclr | trnStatclr | pwrStatclr | sysDetclr | cpWstatclr | wagStat => cases plain
  all_goals rfl

/-! ## WAG_STAT (R208) -/

theorem mapped_wagStat {i : Nat} (h : i < 128) : Mapped .wagStat i :=
  ⟨⟨.wagStat, 0, 128, 0x1000300, 0x10000⟩, by decide +kernel, rfl, Nat.zero_le i, by simpa using h⟩

/-- WAG_STAT after a write: its error bits by their access types, and NONFINITE_COUNT cleared with one of them. -/
theorem State.writeReg_wagStat (s : State) (who : Requester) (i : Nat) (v : Word) :
    s.writeReg who .wagStat i v =
      let s1 := s.setReg .wagStat i (plainWrite .wagStat false (s.reg .wagStat i) v)
      if bits v.toNat 1 2 ≠ 0 then s1.setFld F.wagStat_NONFINITE_COUNT i 0 else s1 := by
  change s.writeEgReg .wagStat i v = _
  simp [State.writeEgReg, State.clearOf]

/-- Of WAG_STAT, only the two error bits can be written, by 1 to clear them. -/
theorem getLsbD_plainWrite_wagStat (old v : Word) {k : Nat} (hk : k < 32) :
    (plainWrite .wagStat false old v).getLsbD k = (old.getLsbD k && !((k == 1 || k == 2) && v.getLsbD k)) := by
  rw [getLsbD_plainWrite rfl _ _ hk]
  have masks : ∀ k < 32, RegName.wagStat.rwMask.getLsbD k = false ∧ RegName.wagStat.w1cMask.getLsbD k = (k == 1 || k == 2) := by decide
  rw [(masks k hk).1, (masks k hk).2]
  rfl

/-- An error bit of WAG_STAT after a plain write. -/
theorem bits_plainWrite_wagStat (old v : Word) {k : Nat} (error : k = 1 ∨ k = 2) :
    bits (plainWrite .wagStat false old v).toNat k 1 = if v.getLsbD k then 0 else bits old.toNat k 1 := by
  have only : ∀ j, k ≤ j → j < k + 1 → j = k := fun j lo hi => by omega
  split
  · next written =>
    have zero : bits (0#32).toNat k 1 = 0 := by simp [bits]
    rw [← zero]
    refine bits_congr fun j lo hi => ?_
    obtain rfl := only j lo hi
    rw [getLsbD_plainWrite_wagStat _ _ (by omega), written]
    rcases error with rfl | rfl <;> simp
  · next kept =>
    refine bits_congr fun j lo hi => ?_
    obtain rfl := only j lo hi
    rw [getLsbD_plainWrite_wagStat _ _ (by omega), Bool.eq_false_iff.2 kept]
    simp

theorem nonfinite_plainWrite_wagStat (old v : Word) :
    bits (plainWrite .wagStat false old v).toNat 16 16 = bits old.toNat 16 16 := by
  refine bits_congr fun j lo hi => ?_
  rw [getLsbD_plainWrite_wagStat _ _ (by omega)]
  have other : (j == 1 || j == 2) = false := by simp; omega
  simp [other]

/-- The two error bits and the count of WAG_STAT after a write. -/
theorem State.wagStat_writeReg (s : State) (who : Requester) (i : Nat) (v : Word) :
    let t := s.writeReg who .wagStat i v
    OnlyRegs (fun m j => m = .wagStat ∧ j = i) s t ∧
      t.fld F.wagStat_MALFORMED i = (if v.getLsbD 1 then 0 else s.fld F.wagStat_MALFORMED i) ∧
      t.fld F.wagStat_ECC_UNCORRECTED i = (if v.getLsbD 2 then 0 else s.fld F.wagStat_ECC_UNCORRECTED i) ∧
      t.fld F.wagStat_NONFINITE_COUNT i = (if v.getLsbD 1 || v.getLsbD 2 then 0 else s.fld F.wagStat_NONFINITE_COUNT i) := by
  intro t
  let p := s.setReg .wagStat i (plainWrite .wagStat false (s.reg .wagStat i) v)
  have written : t = if bits v.toNat 1 2 ≠ 0 then p.setFld F.wagStat_NONFINITE_COUNT i 0 else p := s.writeReg_wagStat who i v
  have own (f : Fld) (h : f.reg = .wagStat) :
      p.fld f i = bits (plainWrite .wagStat false (s.reg .wagStat i) v).toNat f.lo f.width := by
    rw [State.fld, h, State.reg_setReg_same]
  have malformed := (own F.wagStat_MALFORMED rfl).trans (bits_plainWrite_wagStat (s.reg .wagStat i) v (.inl rfl))
  have ecc := (own F.wagStat_ECC_UNCORRECTED rfl).trans (bits_plainWrite_wagStat (s.reg .wagStat i) v (.inr rfl))
  have count := (own F.wagStat_NONFINITE_COUNT rfl).trans (nonfinite_plainWrite_wagStat (s.reg .wagStat i) v)
  have either : bits v.toNat 1 2 ≠ 0 ↔ (v.getLsbD 1 || v.getLsbD 2) = true := by
    have h1 : v.getLsbD 1 = decide (v.toNat / 2 % 2 = 1) := Nat.testBit_eq_decide_div_mod_eq
    have h2 : v.getLsbD 2 = decide (v.toNat / 4 % 2 = 1) := Nat.testBit_eq_decide_div_mod_eq
    simp only [bits, h1, h2, Bool.or_eq_true, decide_eq_true_eq]
    omega
  rw [written]
  simp only [either]
  have plain : OnlyRegs (fun m j => m = .wagStat ∧ j = i) s p := .setReg ..
  split
  · have cleared := cleared_setFld p (f := F.wagStat_NONFINITE_COUNT) rfl i
    exact ⟨plain.trans cleared.2.1, (State.fld_setFld_apart p F.wagStat_NONFINITE_COUNT F.wagStat_MALFORMED i 0 rfl rfl rfl).trans malformed,
      (State.fld_setFld_apart p F.wagStat_NONFINITE_COUNT F.wagStat_ECC_UNCORRECTED i 0 rfl rfl rfl).trans ecc, cleared.1⟩
  · exact ⟨plain, malformed, ecc, count⟩

end Sys2Proof.Machine
end

