-- ==== Sys2Proof/Proofs/AccessTypes.lean ====
section
/-!
PROOFS. The statement about register writes by access type.
-/

set_option Elab.async false

open Sys2Proof Sys2Proof.Machine

/-- Settles O10: a write by offset is the register's own, which is a plain write for every register without a rule of its own, and for
WAG_STAT a plain write and the clearing of its count. -/
theorem registerWritesActByAccessType : Obligations.RegisterWritesActByAccessType := by
  unfold Obligations.RegisterWritesActByAccessType
  refine ⟨fun s who n i v mapped plain permits => ?plain, fun s who i v hi permits => ?wagStat⟩
  case plain =>
    refine ⟨_, runs_regWrite mapped permits v, ?_⟩
    rw [PlainReg.writeReg plain]
    refine ⟨.setReg .., fun k hk => ?_⟩
    rw [State.reg_setReg_same, getLsbD_plainWrite (PlainReg.unlocked plain) _ _ hk]
  case wagStat => exact ⟨_, runs_regWrite (mapped_wagStat hi) permits v, s.wagStat_writeReg who i v⟩

end

