-- ==== Sys2Proof/Proofs/QueueRegisters.lean ====
section
/-!
SUPPORT. Writes of queue registers and of SYNC_CFG (R234, R260, R265, R266, R268), with the rules for several fields of a register in a row.
-/

set_option Elab.async false

namespace Sys2Proof.Machine

open Sys2Proof

/-! ## Fields in a row -/

/-- A write of a field leaves every field that shares no bit with it. -/
theorem State.fld_setFld_other (s : State) (f g : Fld) (i j v : Nat)
    (h : (f.fits && (g.reg != f.reg || f.apart g)) = true) : (s.setFld f i v).fld g j = s.fld g j := by
  rw [Bool.and_eq_true, Bool.or_eq_true, bne_iff_ne] at h
  obtain ⟨fits, other | apart⟩ := h
  · exact State.fld_setFld_ne s f g v (fun e => other e.1)
  · by_cases same : g.reg = f.reg ∧ j = i
    · obtain ⟨reg, rfl⟩ := same
      exact State.fld_setFld_apart s f g j v fits reg apart
    · exact State.fld_setFld_ne s f g v same

theorem State.flag_setFld_other (s : State) (f g : Fld) (i j v : Nat)
    (h : (f.fits && (g.reg != f.reg || f.apart g)) = true) : (s.setFld f i v).flag g j = s.flag g j := by
  rw [State.flag, State.fld_setFld_other s f g i j v h, ← State.flag]

theorem OnlyRegs.of_setReg {p : RegName → Nat → Prop} {n : RegName} {i : Nat} (named : p n i) (s : State) (v : Word) :
    OnlyRegs p s (s.setReg n i v) :=
  (OnlyRegs.setReg s n i v).mono fun _ _ e => e.1 ▸ e.2 ▸ named

theorem OnlyRegs.of_setFld {p : RegName → Nat → Prop} {f : Fld} {i : Nat} (named : p f.reg i) (s : State) (v : Nat) :
    OnlyRegs p s (s.setFld f i v) :=
  .of_setReg named s _

theorem OnlyRegs.keepsBytes {p : RegName → Nat → Prop} {s t : State} (h : OnlyRegs p s t) : KeepsBytes s t :=
  .of_mem (congrArg State.mem h.1 :)

theorem OnlyRegs.cp_eq {p : RegName → Nat → Prop} {s t : State} (h : OnlyRegs p s t) : t.cp = s.cp := by
  rw [h.1]

theorem OnlyRegs.mem_eq {p : RegName → Nat → Prop} {s t : State} (h : OnlyRegs p s t) : t.mem = s.mem := by
  rw [h.1]

/-- What a queue keeps in the command processor stands apart from the registers. -/
theorem OnlyRegs.setQueue {p : RegName → Nat → Prop} {s t : State} (h : OnlyRegs p s t) (q : Nat) (v : QueueState) :
    OnlyRegs p s { t.setQueue q v with cp := s.cp } :=
  ⟨congrArg (fun u : State => { u with cp := s.cp }) h.1, h.2⟩

/-- A bit of a word, read of its number. -/
theorem bit_toNat (v : Word) (k : Nat) : bit v.toNat k = v.getLsbD k := by
  rw [bit, BitVec.getLsbD, Nat.testBit_eq_decide_div_mod_eq]
  rfl

theorem OnlyRegsAndEvents.fld_of {p : RegName → Nat → Prop} {s t : State} (h : OnlyRegsAndEvents p s t) {f : Fld} {i : Nat}
    (plain : ¬ EventReg f.reg) (unnamed : ¬ p f.reg i) : t.fld f i = s.fld f i :=
  State.fld_of_reg (h.regs _ _ plain unnamed)

theorem OnlyRegsAndEvents.flag_of {p : RegName → Nat → Prop} {s t : State} (h : OnlyRegsAndEvents p s t) {f : Fld} {i : Nat}
    (plain : ¬ EventReg f.reg) (unnamed : ¬ p f.reg i) : t.flag f i = s.flag f i := by
  rw [State.flag, h.fld_of plain unnamed, ← State.flag]

/-! ## Q_CFG -/

/-- The fields of Q_CFG that a write of a disabled queue takes. -/
theorem State.qCfgFields_disabled {s : State} {q : Nat} (off : s.flag F.qCfg_ENABLE q = false) (who : Requester) (v : Word) :
    let u := s.qCfgFields who q v
    u.flag F.qCfg_ENABLE q = false ∧ u.fld F.qCfg_LOG2SIZE q = v.toNat % 16 ∧ u.fld F.qCfg_CLOG2 q = v.toNat / 4096 % 16 ∧
      OnlyRegs (fun n i => n = .qCfg ∧ i = q) s u := by
  have size : v.toNat / 2 ^ 0 % 2 ^ 4 % 2 ^ 4 = v.toNat % 16 := by omega
  have csize : v.toNat / 2 ^ 12 % 2 ^ 4 % 2 ^ 4 = v.toNat / 4096 % 16 := by omega
  have set (t : State) (f : Fld) (cfg : f.reg = .qCfg) (x : Nat) : OnlyRegs (fun n i => n = .qCfg ∧ i = q) t (t.setFld f q x) :=
    .of_setFld ⟨cfg, rfl⟩ t x
  unfold State.qCfgFields
  simp only [off, Bool.false_or, Bool.false_eq_true, if_false]
  refine ⟨?enable, ?size, ?csize, ?frame⟩
  case enable => split <;> simpa (disch := decide) only [State.flag_setFld_other] using off
  case size =>
    split
    all_goals simp (disch := decide) only [State.fld_setFld_other, State.fld_setFld_same]
    all_goals exact size
  case csize =>
    split
    all_goals simp (disch := decide) only [State.fld_setFld_other, State.fld_setFld_same]
    all_goals exact csize
  case frame =>
    have sizes := (set s F.qCfg_LOG2SIZE rfl (bits v.toNat 0 4)).trans (set _ F.qCfg_CLOG2 rfl (bits v.toNat 12 4))
    split
    · exact (sizes.trans (set _ _ rfl _)).trans (set _ _ rfl _)
    · exact (((sizes.trans (set _ _ rfl _)).trans (set _ _ rfl _)).trans (set _ _ rfl _)).trans (set _ _ rfl _)

/-- The queue as it starts: enabled, running, at position 0. -/
def State.startQueue (s : State) (q : Nat) : State :=
  ((((s.setFld F.qCfg_ENABLE q 1).setFld F.qStat_STATE q 1).setFld F.qStat_CAUSE q 0).setFld F.qStat_HEAD q 0).setQueue q QueueState.reset

theorem State.startQueue_mem (s : State) (q : Nat) : (s.startQueue q).mem = s.mem := by
  rw [State.startQueue, State.setQueue_mem, State.setFld_mem, State.setFld_mem, State.setFld_mem, State.setFld_mem]

theorem State.writeQCfg_enables {s : State} {who : Requester} {q : Nat} {v : Word} (off : s.flag F.qCfg_ENABLE q = false)
    (on : v.getLsbD 9 = true) :
    let u := s.qCfgFields who q v
    s.writeQCfg who q v = if u.ringOk q && u.cmpOk q then u.startQueue q else u.writeIgnored .qCfg q (some (u.qPart q)) v := by
  simp only [State.writeQCfg, State.enableQueue, off, bit_toNat, on, Bool.false_and, Bool.not_false, Bool.true_and, Bool.false_eq_true,
    if_false, if_true, State.startQueue]

theorem State.startQueue_spec (s : State) (q : Nat) :
    let t := s.startQueue q
    t.flag F.qCfg_ENABLE q = true ∧ t.fld F.qStat_STATE q = 1 ∧ t.fld F.qStat_CAUSE q = 0 ∧ t.fld F.qStat_HEAD q = 0 ∧
      t.queue q = QueueState.reset ∧ t.fld F.qCfg_LOG2SIZE q = s.fld F.qCfg_LOG2SIZE q ∧ t.fld F.qCfg_CLOG2 q = s.fld F.qCfg_CLOG2 q ∧
      OnlyRegs (fun n i => (n = .qCfg ∨ n = .qStat) ∧ i = q) s { t with cp := s.cp } := by
  intro t
  let r := (((s.setFld F.qCfg_ENABLE q 1).setFld F.qStat_STATE q 1).setFld F.qStat_CAUSE q 0).setFld F.qStat_HEAD q 0
  have kept : ∀ f, t.fld f q = r.fld f q := fun f => State.fld_of_regs (State.setQueue_regs ..) f q
  have frame : OnlyRegs (fun n i => (n = .qCfg ∨ n = .qStat) ∧ i = q) s r :=
    (((OnlyRegs.of_setFld ⟨.inl rfl, rfl⟩ s _).trans (.of_setFld ⟨.inr rfl, rfl⟩ _ _)).trans (.of_setFld ⟨.inr rfl, rfl⟩ _ _)).trans
      (.of_setFld ⟨.inr rfl, rfl⟩ _ _)
  refine ⟨?enable, ?state, ?cause, ?head, State.queue_setQueue .., ?size, ?csize, frame.setQueue ..⟩
  case enable =>
    rw [State.flag, kept]
    simp (disch := decide) only [r, State.fld_setFld_other, State.fld_setFld_same]
    rfl
  case state | cause | head =>
    rw [kept]
    simp (disch := decide) only [r, State.fld_setFld_other, State.fld_setFld_same]
    rfl
  case size | csize =>
    rw [kept]
    simp (disch := decide) only [r, State.fld_setFld_other]

theorem runs_qEnable {s : State} {who : Requester} {q : Nat} (hq : q < 32768) (permits : Permits s who .qCfg q) (v : Word) :
    Runs (.qEnable who q v) s (s.writeQCfg who q v) :=
  runs_permitted (decide_eq_true hq) permits

end Sys2Proof.Machine
end

