-- ==== Sys2Proof/Proofs/Queues.lean ====
section
/-!
PROOFS. The statements about queue registers.
-/

set_option Elab.async false

open Sys2Proof Sys2Proof.Machine

/-- Settles O24: the fields are written first, and the check of both rings on the state with them decides between the start of the queue
and an event record. -/
theorem enablingAQueueChecksItsRings : Obligations.EnablingAQueueChecksItsRings := by
  unfold Obligations.EnablingAQueueChecksItsRings
  intro s who q v hq permits off on u
  obtain ⟨still, size, csize, fields⟩ := State.qCfgFields_disabled off who v
  have runs := runs_qEnable hq permits v
  rw [State.writeQCfg_enables off on] at runs
  refine ⟨fun good => ?starts, fun bad => ?ignored⟩
  case starts =>
    rw [if_pos (by simpa using good)] at runs
    obtain ⟨enable, state, cause, head, queue, keptSize, keptCsize, frame⟩ := State.startQueue_spec (s.qCfgFields who q v) q
    have frames := (fields.mono fun _ _ e => ⟨.inl e.1, e.2⟩).trans frame
    rw [fields.cp_eq] at frames
    refine ⟨_, runs, enable, state, cause, head, queue, keptSize.trans size, keptCsize.trans csize, frames, ?_⟩
    exact .of_mem ((State.startQueue_mem ..).trans fields.mem_eq)
  case ignored =>
    rw [if_neg (by simpa using bad)] at runs
    have event := State.writeIgnored_onlyEvents (s.qCfgFields who q v) .qCfg q (some ((s.qCfgFields who q v).qPart q)) v
    refine ⟨_, runs, ?enable, ?state, ?count⟩
    case enable => exact (event.flag_of (by simp [EventReg, F.qCfg_ENABLE]) not_false).trans still
    case state => exact (event.fld_of (by simp [EventReg, F.qStat_STATE]) not_false).trans (State.fld_of_reg (fields.2 _ _ (by simp [F.qStat_STATE])))
    case count => rw [State.writeIgnored_evSeq, congrArg State.cp fields.1]

end

