-- ==== Sys2Proof/Proofs/QueueIndices.lean ====
section
/-!
PROOFS. CHEAD, the watch of halted and held queues and the configuration of objects (R265, R266, R268).
-/

set_option Elab.async false

namespace Sys2Proof.Machine

open Sys2Proof

theorem State.writeChead_spec (s : State) (q : Nat) (v : Word) :
    let t := s.writeChead q v
    t.fld F.qCmpidx_CHEAD q = v.toNat / 65536 ∧ t.reg .qCmplost q = 0#32 ∧ t.fld F.qCmpidx_CTAIL q = s.fld F.qCmpidx_CTAIL q ∧
      OnlyRegs (fun n i => (n = .qCmpidx ∨ n = .qCmplost) ∧ i = q) s t := by
  have apart (f : Fld) (other : f.reg ≠ .qCmplost) (t : State) : (t.setReg .qCmplost q 0#32).fld f q = t.fld f q :=
    State.fld_of_reg (State.reg_setReg_ne _ _ (fun e => other e.1))
  refine ⟨?chead, State.reg_setReg_same .., ?ctail, ?frame⟩
  case chead =>
    refine (apart _ (by decide) _).trans ((State.fld_setFld_same _ _ _ _ (by decide)).trans ?_)
    exact Nat.mod_eq_of_lt (by have := v.isLt; show v.toNat / 65536 < 65536; omega)
  case ctail => exact (apart _ (by decide) _).trans (State.fld_setFld_other _ _ _ _ _ _ (by decide))
  case frame => exact (OnlyRegs.of_setFld ⟨.inl rfl, rfl⟩ s _).trans (.of_setReg ⟨.inr rfl, rfl⟩ _ _)

/-- The next watch is that of an episode that has begun and whose record has not been posted. -/
theorem QueueState.nextWatch_of {k : QueueState} {c why : Nat} (h : k.nextWatch = some (c, why)) :
    (why = 1 ∧ k.halted = some c ∧ k.haltSaw = false) ∨ (why = 2 ∧ k.held = some c ∧ k.heldSaw = false) := by
  have either : (if k.haltSaw then none else k.halted.map fun t => (t, 1)) = some (c, why) ∨
      (if k.heldSaw then none else k.held.map fun t => (t, 2)) = some (c, why) := by
    unfold QueueState.nextWatch at h
    dsimp only at h
    split at h
    · split at h <;> simp_all
    all_goals simp_all
  rcases either with halt | hold
  · simp at halt
    grind
  · simp at hold
    grind

theorem State.watchQueue_some {s : State} {q c why : Nat} (next : (s.queue q).nextWatch = some (c, why))
    (set : s.reg .cpWatch (s.qPart q) ≠ 0#32) :
    s.watchQueue q = ((s.until (c + (s.reg .cpWatch (s.qPart q)).toNat * 1024)).setQueue q
      (if why = 1 then { s.queue q with haltSaw := true } else { s.queue q with heldSaw := true })).event
      evQueueWatch 0x00#8 (some (s.qPart q)) q why := by
  have nonzero : (s.reg .cpWatch (s.qPart q)).toNat ≠ 0 := fun e => set (BitVec.eq_of_toNat_eq e)
  unfold State.watchQueue
  dsimp only
  rw [next]
  exact if_neg nonzero

/-! ## SYNC_CFG -/

theorem State.fld_lt (s : State) (f : Fld) (i : Nat) : s.fld f i < 2 ^ f.width :=
  Nat.mod_lt _ (Nat.two_pow_pos _)

/-- MODE of a written word is that of the object when both name the same kind of object. -/
theorem bits_mode_eq (s : State) (o : Nat) (v : Word) : bits v.toNat 3 1 = s.fld F.syncCfg_MODE o ↔ v.getLsbD 3 = s.objCounter o := by
  have mode : s.fld F.syncCfg_MODE o < 2 := s.fld_lt ..
  have written : bits v.toNat 3 1 < 2 := Nat.mod_lt _ (by decide)
  have bit : v.getLsbD 3 = (bits v.toNat 3 1 == 1) := (bit_toNat v 3).symm
  rw [bit, State.objCounter, State.flag, Bool.eq_iff_iff, beq_iff_eq, beq_iff_eq]
  omega

theorem State.setFld_setObjLimit (s : State) (o : Nat) (l : Word) (f : Fld) (i v : Nat) :
    (s.setObjLimit o l).setFld f i v = (s.setFld f i v).setObjLimit o l := rfl

/-- The registers of an object as a change of its MODE leaves them. -/
def State.clearObjRegs (s : State) (o mode : Nat) : State :=
  (((s.setFld F.syncCfg_MODE o mode).setReg .syncObj o 0#32).setFld F.syncCfg_ERR o 0).setFld F.syncCfg_GEN o 0

theorem State.writeSyncCfg_eq {s : State} {who : Requester} {o : Nat} {v : Word} (noVf : isVf who = false) :
    s.writeSyncCfg who o v =
      let s1 := s.setFld F.syncCfg_PART o (v.toNat % 8)
      if v.getLsbD 3 = s.objCounter o then s1
      else
        let s2 := (s1.clearObjRegs o (bits v.toNat 3 1)).setObjLimit o 0#32
        { s2 with cp := s2.cp.mapWindow (squashObj o) } := by
  rw [← if_congr (bits_mode_eq s o v) rfl rfl, State.clearObjRegs, ← State.setFld_setObjLimit, ← State.setFld_setObjLimit]
  cases who with
  | vf => cases noVf
  | _ => rfl

theorem State.clearObjRegs_spec (s : State) (o mode : Nat) :
    let t := s.clearObjRegs o mode
    t.fld F.syncCfg_PART o = s.fld F.syncCfg_PART o ∧ t.fld F.syncCfg_MODE o = mode % 2 ∧ t.reg .syncObj o = 0#32 ∧
      t.fld F.syncCfg_ERR o = 0 ∧ t.fld F.syncCfg_GEN o = 0 ∧ OnlyRegs (fun n i => (n = .syncCfg ∨ n = .syncObj) ∧ i = o) s t := by
  intro t
  have other (f : Fld) (cfg : f.reg ≠ .syncObj) (u : State) : (u.setReg .syncObj o 0#32).fld f o = u.fld f o :=
    State.fld_of_reg (State.reg_setReg_ne _ _ (fun e => cfg e.1))
  have cfg (f : Fld) (at_cfg : f.reg = .syncCfg) (u : State) : (u.setFld f o 0).reg .syncObj o = u.reg .syncObj o :=
    State.reg_setReg_ne _ _ (fun e => nomatch at_cfg.symm.trans e.1.symm)
  refine ⟨?part, ?mode, ?value, ?err, ?gen, ?frame⟩
  case part => simp (disch := decide) only [t, State.clearObjRegs, State.fld_setFld_other, other]
  case mode | err | gen =>
    simp (disch := decide) only [t, State.clearObjRegs, State.fld_setFld_other, State.fld_setFld_same, other]
    rfl
  case value => exact (cfg _ rfl _).trans ((cfg _ rfl _).trans (State.reg_setReg_same ..))
  case frame =>
    exact (((OnlyRegs.of_setFld ⟨.inl rfl, rfl⟩ s _).trans (.of_setReg ⟨.inr rfl, rfl⟩ _ _)).trans
      (.of_setFld ⟨.inl rfl, rfl⟩ _ _)).trans (.of_setFld ⟨.inl rfl, rfl⟩ _ _)

/-- What a write of SYNC_CFG by anyone but a VF leaves. -/
theorem State.writeSyncCfg_spec (s : State) {who : Requester} (o : Nat) (v : Word) (noVf : isVf who = false) :
    let t := s.writeSyncCfg who o v
    t.fld F.syncCfg_PART o = v.toNat % 8 ∧ t.objCounter o = v.getLsbD 3 ∧
      OnlyRegs (fun n i => (n = .syncCfg ∨ n = .syncObj) ∧ i = o) s { t with cp := s.cp } ∧
      (if v.getLsbD 3 = s.objCounter o then
        t.reg .syncObj o = s.reg .syncObj o ∧ t.fld F.syncCfg_ERR o = s.fld F.syncCfg_ERR o ∧
          t.fld F.syncCfg_GEN o = s.fld F.syncCfg_GEN o ∧ t.objLimit o = s.objLimit o
       else t.reg .syncObj o = 0#32 ∧ t.objLimit o = 0 ∧ t.fld F.syncCfg_ERR o = 0 ∧ t.fld F.syncCfg_GEN o = 0) := by
  have frame : OnlyRegs (fun n i => (n = .syncCfg ∨ n = .syncObj) ∧ i = o) s (s.setFld F.syncCfg_PART o (v.toNat % 8)) :=
    .of_setFld ⟨.inl rfl, rfl⟩ s _
  have part : (s.setFld F.syncCfg_PART o (v.toNat % 8)).fld F.syncCfg_PART o = v.toNat % 8 :=
    (State.fld_setFld_same _ _ _ _ (by decide)).trans (Nat.mod_mod _ _)
  rw [State.writeSyncCfg_eq noVf]
  dsimp only
  by_cases same : v.getLsbD 3 = s.objCounter o
  · rw [if_pos same, if_pos same]
    have other (f : Fld) (apart : (F.syncCfg_PART.fits && (f.reg != F.syncCfg_PART.reg || F.syncCfg_PART.apart f)) = true) :
        (s.setFld F.syncCfg_PART o (v.toNat % 8)).fld f o = s.fld f o := State.fld_setFld_other _ _ _ _ _ _ apart
    refine ⟨part, ?mode, frame, ?value, other _ (by decide), other _ (by decide), rfl⟩
    case mode => exact (State.flag_setFld_other _ _ _ _ _ _ (by decide)).trans same.symm
    case value => exact State.reg_setReg_ne _ _ (fun e => nomatch e.1)
  · rw [if_neg same, if_neg same]
    generalize s.setFld F.syncCfg_PART o (v.toNat % 8) = s1 at frame part
    obtain ⟨kept, mode, value, err, gen, cleared⟩ := s1.clearObjRegs_spec o (bits v.toNat 3 1)
    generalize s1.clearObjRegs o (bits v.toNat 3 1) = r at kept mode value err gen cleared
    refine ⟨kept.trans part, ?mode, ?frame, value, State.objLimit_setObjLimit r o 0#32, err, gen⟩
    case mode =>
      have bit : v.getLsbD 3 = (bits v.toNat 3 1 == 1) := (bit_toNat v 3).symm
      have digit : bits v.toNat 3 1 % 2 = bits v.toNat 3 1 := Nat.mod_mod _ _
      rw [bit, ← digit, ← mode]
      rfl
    case frame =>
      have both := frame.trans cleared
      exact ⟨congrArg (fun u : State => { u with cp := s.cp }) both.1, both.2⟩

end Sys2Proof.Machine
end

section
open Sys2Proof Sys2Proof.Machine

/-- Settles O26: one rule for each of the three writes. -/
theorem queueIndexWatchAndObjectConfig : Obligations.QueueIndexWatchAndObjectConfig := by
  unfold Obligations.QueueIndexWatchAndObjectConfig
  refine ⟨?chead, ?watch, ?config⟩
  case chead =>
    intro s who q v hq permits
    exact ⟨_, runs_permitted (decide_eq_true hq) permits, s.writeChead_spec q v⟩
  case watch =>
    intro s q c why hq next set
    have runs : Runs (.cpWatchExpiry q) s (s.watchQueue q) :=
      inRange_of (decide_eq_true hq) (fun _ => .next (s.watchQueue q))
    rw [State.watchQueue_some next set] at runs
    generalize marked : (if why = 1 then { s.queue q with haltSaw := true } else { s.queue q with heldSaw := true }) = k at runs ⊢
    have event := ((s.until (c + (s.reg .cpWatch (s.qPart q)).toNat * 1024)).setQueue q k).event_onlyEvents evQueueWatch 0x00#8
      (some (s.qPart q)) q why
    refine ⟨_, runs, ?queue, QueueState.nextWatch_of next, ?cycle, ?count, fun n => event.regs _ _ (by simp [EventReg]) not_false⟩
    case queue => exact (congrArg (State.queue · q) event.units).trans (State.queue_setQueue ..)
    case cycle => exact congrArg State.cycle event.units
    case count => exact State.event_evSeq ..
  case config =>
    intro s who o v ho permits noVf
    exact ⟨_, runs_permitted (decide_eq_true ho) permits, s.writeSyncCfg_spec o v noVf⟩

end

