-- ==== Sys2Proof/Proofs/KeepsState.lean ====
section
/-!
SUPPORT. What every command keeps: the state, its registers and memories, windows, requests, events and objects.
-/

set_option Elab.async false

namespace Sys2Proof.Machine

open Sys2Proof

variable {r s : State}

/-- A fold keeps a state in its accumulator that each turn keeps. -/
theorem State.Keeps.foldlOn {α β : Type} (p : β → State) {f : β → α → β} {b : β} (h : r.Keeps (p b))
    (hf : ∀ b x, r.Keeps (p b) → r.Keeps (p (f b x))) (l : List α) : r.Keeps (p (l.foldl f b)) := by
  induction l generalizing b with
  | nil => exact h
  | cons x l ih => exact ih (hf _ x h)

theorem State.Keeps.ite {c : Prop} [Decidable c] {t u : State} (ht : r.Keeps t) (hu : r.Keeps u) :
    r.Keeps (if c then t else u) := by
  split
  · exact ht
  · exact hu

theorem State.Keeps.iteOn {β : Type} (p : β → State) {c : Prop} [Decidable c] {t u : β} (ht : r.Keeps (p t)) (hu : r.Keeps (p u)) :
    r.Keeps (p (if c then t else u)) := by
  split
  · exact ht
  · exact hu

theorem State.Keeps.out (h : r.Keeps s) (f : Option (Byte × Nat)) : r.Keeps (Out.mk s f).s := h

theorem State.Keeps.rvDone (h : r.Keeps s) (k : Core) (a b c d : Nat) : r.Keeps (RvDone.mk s k a b c d).s := h

/-- What an instruction of a core leaves keeps what `r` holds, where it leaves a state. -/
def RvOut.Keeps (r : State) : RvOut → Prop
  | .done d => r.Keeps d.s
  | .trapAt s _ => r.Keeps s
  | _ => True

/-- What an access to memory by a core leaves keeps what `r` holds, where it leaves a state. -/
def MemRes.Keeps (r : State) : MemRes → Prop
  | .ok _ s => r.Keeps s
  | _ => True

/-- What an operation of an array leaves keeps what `r` holds, where it leaves a state. -/
def ArrayOp.Keeps (r : State) : ArrayOp → Prop
  | .more s => r.Keeps s
  | .stepped s => r.Keeps s
  | .none => True

theorem RvOut.Keeps.illegal : RvOut.Keeps r illegal := trivial

theorem RvOut.Keeps.ite {c : Prop} [Decidable c] {t u : RvOut} (ht : t.Keeps r) (hu : u.Keeps r) :
    RvOut.Keeps r (if c then t else u) := by
  split
  · exact ht
  · exact hu

theorem MemRes.Keeps.ite {c : Prop} [Decidable c] {t u : MemRes} (ht : t.Keeps r) (hu : u.Keeps r) :
    MemRes.Keeps r (if c then t else u) := by
  split
  · exact ht
  · exact hu

theorem ArrayOp.Keeps.ite {c : Prop} [Decidable c] {t u : ArrayOp} (ht : t.Keeps r) (hu : u.Keeps r) :
    ArrayOp.Keeps r (if c then t else u) := by
  split
  · exact ht
  · exact hu

/-- An outcome that, where it is a next state, keeps what `State.Keeps` says of `r`. -/
def Keeping (r : State) (o : Host.Outcome State Fault Refusal) : Prop := ∀ t, o = .next t → r.Keeps t

theorem Keeping.next (h : r.Keeps s) : Keeping r (.next s) := by
  rintro _ ⟨⟩
  exact h

theorem Keeping.inRange {p : Bool} {k : Unit → State} (h : r.Keeps (k ())) : Keeping r (inRange p fun u => .next (k u)) := by
  intro t ran
  cases p
  · cases ran
  · cases ran
    exact h

theorem State.Keeps.setReg (h : r.Keeps s) (n : RegName) (i : Nat) (v : Word) : r.Keeps (s.setReg n i v) :=
  State.keeps_setReg h n i v

theorem State.Keeps.setFld (h : r.Keeps s) (f : Fld) (i v : Nat) : r.Keeps (s.setFld f i v) :=
  h.setReg ..

theorem State.Keeps.count (h : r.Keeps s) (f : Fld) (i n : Nat) : r.Keeps (s.count f i n) :=
  h.setFld ..

theorem State.Keeps.advance (h : r.Keeps s) (f : Fld) (i n : Nat) : r.Keeps (s.advance f i n) :=
  h.setFld ..

theorem State.Keeps.setPair (h : r.Keeps s) (lo hi : RegName) (i v : Nat) : r.Keeps (s.setPair lo hi i v) :=
  (h.setReg ..).setReg ..

theorem State.Keeps.addCvt (h : r.Keeps s) (eg : Nat) (c : Counts) : r.Keeps (s.addCvt eg c) :=
  (((h.count ..).count ..).count ..).count ..

theorem State.Keeps.until (h : r.Keeps s) (t : Nat) : r.Keeps (s.until t) :=
  h.upd rfl rfl rfl

theorem State.Keeps.draw (h : r.Keeps s) : r.Keeps s.draw :=
  State.keeps_draw h

theorem State.Keeps.setTe (h : r.Keeps s) (eg : Nat) (t : Te) : r.Keeps (s.setTe eg t) :=
  h.upd rfl rfl rfl

theorem State.Keeps.setCore (h : r.Keeps s) (eg c : Nat) (v : Core) : r.Keeps (s.setCore eg c v) :=
  h.upd rfl rfl rfl

theorem State.Keeps.store (h : r.Keeps s) (a : Nat) (bs : List Byte) : r.Keeps (s.store a bs) :=
  State.keeps_store h a bs

theorem State.Keeps.noteUe (h : r.Keeps s) (a : Nat) : r.Keeps (s.noteUe a) := by
  unfold State.noteUe
  dsimp only
  split
  · exact (h.setPair ..).count ..
  · exact h.setPair ..

theorem State.Keeps.setCtl (h : r.Keeps s) (c : Nat) (m : MemCtl) : r.Keeps (s.setCtl c m) :=
  h.upd rfl rfl rfl

theorem State.Keeps.act (h : r.Keeps s) (p x : Nat) : r.Keeps (s.act p x) :=
  h.upd rfl rfl rfl

theorem State.Keeps.request (h : r.Keeps s) (r' : MemReq) : r.Keeps (s.request r') := by
  unfold State.request
  dsimp only
  split
  · exact h
  · exact h.setCtl ..

theorem State.Keeps.requests (h : r.Keeps s) (uid p eg a n : Nat) (k : ReqKind) : r.Keeps (s.requests uid p eg a n k) := by
  unfold State.requests
  dsimp only
  split
  · exact h.foldl (fun _ _ h => h.request ..) _
  · exact h.foldl (fun _ _ h => h.request ..) _
  · exact .ite h (h.setCtl ..)
  · exact h

theorem State.Keeps.moved (h : r.Keeps s) (p a n : Nat) : r.Keeps (s.moved p a n) := by
  unfold State.moved
  exact .ite h (h.act ..)

theorem State.Keeps.touch (h : r.Keeps s) (uid p eg a n : Nat) (k : ReqKind) : r.Keeps (s.touch uid p eg a n k) :=
  (h.moved ..).requests ..

theorem State.Keeps.setTrace (h : r.Keeps s) (uid : Nat) (l : List Access) : r.Keeps (s.setTrace uid l) :=
  h.upd rfl rfl rfl

theorem State.Keeps.note (h : r.Keeps s) (uid : Nat) (x : Access) : r.Keeps (s.note uid x) := by
  unfold State.note
  exact .ite h (h.setTrace ..)

theorem State.Keeps.storeFor (h : r.Keeps s) (uid a : Nat) (bs : List Byte) : r.Keeps (s.storeFor uid a bs) :=
  (h.store ..).note ..

theorem State.Keeps.takeBack (h : r.Keeps s) (x2 : Access) : r.Keeps (s.takeBack x2) := by
  unfold State.takeBack
  dsimp only
  split
  · exact (h.store ..).upd rfl rfl rfl
  · exact h.setTe ..
  · exact h.upd rfl rfl rfl
  · exact h.upd rfl rfl rfl
  · exact .ite (h.setReg ..) h
  · exact h

theorem State.Keeps.putTouch (h : r.Keeps s) (uid p eg a n : Nat) : r.Keeps (s.putTouch uid p eg a n) := by
  unfold State.putTouch
  exact (h.foldl (fun _ _ h => h.request ..) _).touch ..

theorem State.Keeps.setFn (h : r.Keeps s) (f : Nat) (v : PciFn) : r.Keeps (s.setFn f v) :=
  h.upd rfl rfl rfl

theorem State.Keeps.send (h : r.Keeps s) (m : Msg) : r.Keeps (s.send m) :=
  h.upd rfl rfl rfl

theorem State.Keeps.svcInterrupt (h : r.Keeps s) (n : Nat) : r.Keeps (s.svcInterrupt n) :=
  h.upd rfl rfl rfl

theorem State.Keeps.msix (h : r.Keeps s) (f : Nat) (part : Option Nat) (vec : Nat) : r.Keeps (s.msix f part vec) := by
  unfold State.msix
  exact .ite ((h.send ..).svcInterrupt ..) (.ite h (.ite (.ite (h.setFn ..) (h.send ..)) (h.count ..)))

theorem State.Keeps.ringWrite (h : r.Keeps s) (f : Nat) (part : Option Nat) (rcd : List Byte) :
    r.Keeps (s.ringWrite f part rcd) := by
  unfold State.ringWrite
  lift_lets
  intro tail head cap a s1 s2
  have h1 : r.Keeps s1 := .ite (h.upd rfl rfl rfl) ((h.store ..).putTouch ..)
  have h2 : r.Keeps s2 := h1.setFld ..
  exact .ite h (.ite (h.count ..) (.ite (h.count ..) (.ite (h2.msix ..) h2)))

theorem State.Keeps.event (h : r.Keeps s) (code : Nat) (status : Byte) (part : Option Nat) (a0 a1 : Nat) :
    r.Keeps (s.event code status part a0 a1) := by
  unfold State.event
  exact (h.upd rfl rfl rfl).foldl (fun _ _ h => h.ringWrite ..) _

theorem State.Keeps.writeIgnored (h : r.Keeps s) (n : RegName) (i : Nat) (part : Option Nat) (v : Word) :
    r.Keeps (s.writeIgnored n i part v) :=
  h.event ..

theorem State.Keeps.setObjLimit (h : r.Keeps s) (o : Nat) (v : Word) : r.Keeps (s.setObjLimit o v) :=
  h.upd rfl rfl rfl

theorem State.Keeps.wake (h : r.Keeps s) (o t : Nat) : r.Keeps (s.wake o t) :=
  h.upd rfl rfl rfl

theorem State.Keeps.objEffect (h : r.Keeps s) (o op : Nat) (v : Word) : r.Keeps (s.objEffect o op v) := by
  unfold State.objEffect
  split
  · exact h.setReg ..
  · exact h.setReg ..
  · exact h.setReg ..
  · exact .ite (h.setFld ..) h
  · exact h.setFld ..
  · exact ((h.setReg ..).setObjLimit ..).advance ..
  · exact h

theorem State.Keeps.objOp (h : r.Keeps s) (o op : Nat) (v : Word) (t : Nat) : r.Keeps (s.objOp o op v t).2 :=
  (State.Keeps.ite ((h.objEffect ..).upd rfl rfl rfl) (h.objEffect ..)).wake ..

theorem State.Keeps.setBound (h : r.Keeps s) (n : Nat) (v : Word) : r.Keeps (s.setBound n v) :=
  (h.setReg ..).upd rfl rfl rfl

theorem State.Keeps.settleBounds (h : r.Keeps s) : r.Keeps s.settleBounds := by
  unfold State.settleBounds
  exact (h.upd rfl rfl rfl).foldl (fun _ _ h => h.setBound ..) _

theorem State.Keeps.setQueue (h : r.Keeps s) (q : Nat) (v : QueueState) : r.Keeps (s.setQueue q v) :=
  h.upd rfl rfl rfl

theorem State.Keeps.setWindow (h : r.Keeps s) (f : Nat) (w : List Decoded) : r.Keeps (s.setWindow f w) :=
  (h.upd rfl rfl rfl).setFld ..

theorem State.Keeps.setPosts (h : r.Keeps s) (eg c : Nat) (w : List Decoded) : r.Keeps (s.setPosts eg c w) :=
  h.upd rfl rfl rfl

theorem State.Keeps.setWheel (h : r.Keeps s) (eg : Nat) (w : Wheel) : r.Keeps (s.setWheel eg w) :=
  h.upd rfl rfl rfl

theorem State.Keeps.holdWheel (h : r.Keeps s) (eg due land : Nat) : r.Keeps (s.holdWheel eg due land) := by
  unfold State.holdWheel
  exact .ite (h.setWheel ..) h

theorem State.Keeps.setJob (h : r.Keeps s) (p j : Nat) (v : JobState) : r.Keeps (s.setJob p j v) :=
  h.upd rfl rfl rfl

theorem State.Keeps.settleJob (h : r.Keeps s) (p j : Nat) : r.Keeps (s.settleJob p j) := by
  unfold State.settleJob
  exact .ite h (h.setFld ..)

end Sys2Proof.Machine
end

