-- ==== Sys2Proof/Proofs/KeepsCommands.lean ====
section
/-!
SUPPORT. What every command keeps: operands, pre-reads, issue and completion of commands and accesses to registers.
-/

set_option Elab.async false

namespace Sys2Proof.Machine

open Sys2Proof

variable {r s : State}

theorem State.Keeps.setClruns (h : r.Keeps s) (eg : Nat) (v : List ClRun) : r.Keeps (s.setClruns eg v) :=
  h.upd rfl rfl rfl

theorem State.Keeps.setEntry (h : r.Keeps s) (f e : Nat) (l : List Completion) : r.Keeps (s.setEntry f e l) :=
  h.upd rfl rfl rfl

theorem State.Keeps.noteEcc (h : r.Keeps s) (c : Cmd) (st : Byte) : r.Keeps (s.noteEcc c st) := by
  unfold State.noteEcc
  exact .ite h (.ite (h.setFld ..) (.ite (h.setFld ..) h))

theorem State.Keeps.post (h : r.Keeps s) (c : Completion) : r.Keeps (s.post c) :=
  (h.noteEcc ..).setEntry ..

theorem State.Keeps.land (h : r.Keeps s) (uid : Nat) : r.Keeps (s.land uid) :=
  h.upd rfl rfl rfl

theorem State.Keeps.finish (h : r.Keeps s) (c : Cmd) (r' : Result) : r.Keeps (s.finish c r') :=
  (State.Keeps.ite (((h.act ..).land ..).upd rfl rfl rfl) (((h.act ..).land ..).post ..)).settleJob ..

theorem State.Keeps.unpark (h : r.Keeps s) (uid : Nat) : r.Keeps (s.unpark uid) := by
  unfold State.unpark
  dsimp only
  refine .ite h ?_
  split
  · exact h
  · exact ((h.upd rfl rfl rfl).post ..).settleJob ..

theorem State.Keeps.undecode (h : r.Keeps s) (q : Nat) : r.Keeps (s.undecode q) :=
  (h.setWindow ..).setQueue ..

theorem State.Keeps.halt (h : r.Keeps s) (q cause addr : Nat) : r.Keeps (s.halt q cause addr) :=
  ((((h.setFld ..).setFld ..).undecode ..).setQueue ..).event ..

theorem State.Keeps.noteMalformed (h : r.Keeps s) (p eg op : Nat) : r.Keeps (s.noteMalformed p eg op) := by
  unfold State.noteMalformed
  exact .ite h (.ite (h.setFld ..) (.ite (h.setFld ..) h))

theorem State.Keeps.stopCore (h : r.Keeps s) (eg c t : Nat) (g : ClRun → ClRun) : r.Keeps (s.stopCore eg c t g) :=
  ((h.setCore ..).setFld ..).setClruns ..

theorem State.Keeps.coreFault (h : r.Keeps s) (eg c cause pc : Nat) : r.Keeps (s.coreFault eg c cause pc) := by
  unfold State.coreFault
  exact .ite (h.stopCore ..) (((((h.stopCore ..).setFld ..).setFld ..).setFld ..).setPair ..)

theorem State.Keeps.endRun (h : r.Keeps s) (r' : ClRun) : r.Keeps (s.endRun r') := by
  unfold State.endRun
  dsimp only
  refine .ite ?_ (h.finish ..)
  split
  · exact ((h.land ..).settleJob ..).halt ..
  · exact (h.land ..).settleJob ..

theorem State.Keeps.settleCluster (h : r.Keeps s) (eg : Nat) : r.Keeps (s.settleCluster eg) := by
  unfold State.settleCluster
  exact (h.setClruns ..).foldl (fun _ _ h => h.endRun ..) _

theorem State.Keeps.malformed (h : r.Keeps s) (i : Issuer) (b : List Byte) : r.Keeps (s.malformed i b) := by
  unfold State.malformed
  dsimp only
  split
  · exact (h.noteMalformed ..).halt ..
  · exact (((h.noteMalformed ..).setPosts ..).coreFault ..).settleCluster ..

theorem State.Keeps.reachNext (h : r.Keeps s) (i : Issuer) : r.Keeps (s.reachNext i) := by
  unfold State.reachNext
  split
  · exact h.setWindow ..
  · split
    · exact h
    · exact h.setPosts ..

theorem State.Keeps.addWait (h : r.Keeps s) (p j n : Nat) : r.Keeps (s.addWait p j n) :=
  h.setReg ..

theorem State.Keeps.issueTouch (h : r.Keeps s) (i : Issuer) (d : Decoded) : r.Keeps (s.issueTouch i d) := by
  unfold State.issueTouch
  dsimp only
  refine h.foldl (fun _ _ h => ?_) _
  split
  · exact h.touch ..
  · exact h

theorem State.Keeps.holdOverrun (h : r.Keeps s) (eg : Nat) (d : Decoded) : r.Keeps (s.holdOverrun eg d) := by
  unfold State.holdOverrun
  split
  · exact h.holdWheel ..
  · exact h

theorem State.Keeps.issue (h : r.Keeps s) (i : Issuer) (d : Decoded) : r.Keeps (s.issue i d) := by
  unfold State.issue
  dsimp only
  refine State.Keeps.settleJob ?_ ..
  refine State.Keeps.issueTouch ?_ ..
  refine State.Keeps.upd ?_ rfl rfl rfl
  split
  · refine State.Keeps.setJob ?_ ..
    refine State.Keeps.addWait ?_ ..
    refine State.Keeps.reachNext ?_ ..
    refine .ite ?_ ?_
    · refine State.Keeps.count ?_ ..
      split
      · exact (((((h.until ..).holdOverrun ..).draw).setFld ..).setWindow ..).setQueue ..
      · exact (((h.until ..).holdOverrun ..).draw).setPosts ..
    · split
      · exact (((((h.until ..).holdOverrun ..).draw).setFld ..).setWindow ..).setQueue ..
      · exact (((h.until ..).holdOverrun ..).draw).setPosts ..
  · refine State.Keeps.addWait ?_ ..
    refine State.Keeps.reachNext ?_ ..
    refine .ite ?_ ?_
    · refine State.Keeps.count ?_ ..
      split
      · exact (((((h.until ..).holdOverrun ..).draw).setFld ..).setWindow ..).setQueue ..
      · exact (((h.until ..).holdOverrun ..).draw).setPosts ..
    · split
      · exact (((((h.until ..).holdOverrun ..).draw).setFld ..).setWindow ..).setQueue ..
      · exact (((h.until ..).holdOverrun ..).draw).setPosts ..

theorem State.Keeps.setDecoded (h : r.Keeps s) (i : Issuer) (d : Decoded) : r.Keeps (s.setDecoded i d) := by
  unfold State.setDecoded
  split
  · exact h.setWindow ..
  · exact h.setPosts ..

theorem State.Keeps.noteWait (h : r.Keeps s) (i : Issuer) (d : Decoded) : r.Keeps (s.noteWait i d) := by
  unfold State.noteWait
  exact .ite h ((h.addWait ..).setDecoded ..)

theorem State.Keeps.noteOverrun (h : r.Keeps s) (i : Issuer) (d : Decoded) : r.Keeps (s.noteOverrun i d) := by
  unfold State.noteOverrun
  exact .ite h (((((h.noteWait ..).setDecoded ..).count ..).count ..).setFld ..)

theorem State.Keeps.finishAtIssue (h : r.Keeps s) (c : Cmd) (r' : Result) : r.Keeps (s.finishAtIssue c r') :=
  (State.Keeps.ite (h.noteUe ..) h).finish ..

theorem State.Keeps.ringStop (h : r.Keeps s) (i : Issuer) (d : Decoded) : r.Keeps (s.ringStop i d) := by
  unfold State.ringStop
  split
  · exact .ite (h.halt ..) h
  · exact h

theorem State.Keeps.issueRowAs (h : r.Keeps s) (i : Issuer) (mine : List Byte → Bool) (check : State → Cmd → Verdict)
    (run : State → Cmd → State) (named : State → Cmd → Cmd) (hrun : ∀ y0 y1, r.Keeps y0 → r.Keeps (run y0 y1)) :
    r.Keeps (s.issueRowAs i mine check run named) := by
  unfold State.issueRowAs
  dsimp only
  split
  · exact h.settleBounds
  · refine .ite (h.settleBounds.ringStop ..) ?_
    refine .ite h.settleBounds ?_
    refine .ite (.ite (h.settleBounds.noteOverrun ..) (h.settleBounds.noteWait ..)) ?_
    refine .ite (h.settleBounds.malformed ..) ?_
    refine .ite (h.settleBounds.malformed ..) ?_
    split
    · exact (h.settleBounds.issue ..).finishAtIssue ..
    · split
      · exact (h.settleBounds.issue ..).finishAtIssue ..
      · exact .ite h.settleBounds (hrun _ _ (h.settleBounds.issue ..))

theorem State.Keeps.issueRow (h : r.Keeps s) (i : Issuer) (mine : List Byte → Bool) (check : State → Cmd → Verdict)
    (run : State → Cmd → State) (hrun : ∀ y0 y1, r.Keeps y0 → r.Keeps (run y0 y1)) : r.Keeps (s.issueRow i mine check run) := by
  unfold State.issueRow
  exact h.issueRowAs (hrun := fun _ _ h => hrun _ _ h) ..

theorem State.Keeps.refuse (h : r.Keeps s) (who : Requester) : r.Keeps (s.refuse who) := by
  unfold State.refuse
  exact .ite (h.count ..) h

theorem State.Keeps.gated (h : r.Keeps s) (who : Requester) (n : RegName) (i : Nat) (k : State) (hk : r.Keeps k) :
    r.Keeps (s.gated who n i k) := by
  unfold State.gated
  exact .ite hk (h.refuse ..)

theorem State.Keeps.readAt (h : r.Keeps s) (n : RegName) (i : Nat) : r.Keeps (s.readAt n i).2 := by
  unfold State.readAt
  split
  · exact h.upd rfl rfl rfl
  · split
    · exact h.upd rfl rfl rfl
    · exact h

end Sys2Proof.Machine
end

