-- ==== Sys2Proof/Proofs/KeepsNetwork.lean ====
section
/-!
SUPPORT. What every command keeps: Ethernet, the torus links and Birsan.
-/

set_option Elab.async false

namespace Sys2Proof.Machine

open Sys2Proof

variable {r s : State}

theorem State.Keeps.setEth (h : r.Keeps s) (e : Nat) (p : EthPort) : r.Keeps (s.setEth e p) :=
  h.upd rfl rfl rfl

theorem State.Keeps.sendIp (h : r.Keeps s) (peer : Peer) (proto ecn hops : Nat) (body : List Byte) :
    r.Keeps (s.sendIp peer proto ecn hops body) := by
  unfold State.sendIp
  exact .ite h (.ite h (h.draw.send ..))

theorem State.Keeps.sendUdp (h : r.Keeps s) (peer : Peer) (path : Nat) (body : List Byte) : r.Keeps (s.sendUdp peer path body) :=
  h.sendIp ..

theorem State.Keeps.foreign (h : r.Keeps s) (e : Nat) : r.Keeps (s.foreign e) :=
  h.count ..

theorem State.Keeps.authFail (h : r.Keeps s) (e : Nat) : r.Keeps (s.authFail e) :=
  h.count ..

theorem State.Keeps.execEthFrameReceive (h : r.Keeps s) (e : Nat) (raw : List Byte) : Keeping r (execEthFrameReceive e raw s) := by
  refine Keeping.inRange ?_
  refine .ite h ?_
  split
  · exact h.foreign ..
  · exact h.setEth ..

theorem State.Keeps.withRx (h : r.Keeps s) (e kind : Nat) (go : State → RxPkt → State) (hgo : ∀ y0 y1, r.Keeps y0 → r.Keeps (go y0 y1)) :
    r.Keeps (s.withRx e kind go) := by
  unfold State.withRx
  dsimp only
  split
  · exact h
  · exact hgo _ _ (h.setEth ..)

theorem State.Keeps.execArpRequest (h : r.Keeps s) (e : Nat) : Keeping r (execArpRequest e s) :=
  .inRange (h.withRx (hgo := fun _ _ h => .ite (h.foreign ..) (.ite h (h.send ..))) ..)

theorem State.Keeps.execNeighborSolicitation (h : r.Keeps s) (e : Nat) : Keeping r (execNeighborSolicitation e s) :=
  .inRange (h.withRx (hgo := fun _ _ h => .ite (h.foreign ..) (h.sendIp ..)) ..)

theorem State.Keeps.execEchoRequest (h : r.Keeps s) (e : Nat) : Keeping r (execEchoRequest e s) :=
  .inRange (h.withRx (hgo := fun _ _ h => .ite (h.foreign ..) ((h.setEth ..).sendIp ..)) ..)

theorem State.Keeps.setPort (h : r.Keeps s) (k : Nat) (p : LinkPort) : r.Keeps (s.setPort k p) :=
  h.upd rfl rfl rfl

theorem State.Keeps.setCe (h : r.Keeps s) (d : Nat) (c : Ce) : r.Keeps (s.setCe d c) :=
  h.upd rfl rfl rfl

theorem State.Keeps.sendRaw (h : r.Keeps s) (k : Nat) (raw : List Byte) : r.Keeps (s.sendRaw k raw) :=
  h.send ..

theorem State.Keeps.lineOut (h : r.Keeps s) (k : Nat) (f : Frame) (seq crvc crcnt : Nat) :
    r.Keeps (s.lineOut k f seq crvc crcnt) := by
  unfold State.lineOut
  exact .ite ((((h.sendRaw ..).setPort ..).sendRaw ..).setPort ..) ((h.sendRaw ..).setPort ..)

theorem State.Keeps.sendFrame (h : r.Keeps s) (k : Nat) (f : Frame) : r.Keeps (s.sendFrame k f) :=
  (h.setPort ..).lineOut ..

theorem State.Keeps.replayAll (h : r.Keeps s) (k : Nat) : r.Keeps (s.replayAll k) := by
  unfold State.replayAll
  exact (State.Keeps.ite h (h.count ..)).foldl (fun _ _ h => h.lineOut ..) _

theorem State.Keeps.creditsOut (h : r.Keeps s) (k n : Nat) : r.Keeps (State.creditsOut k n s) := by
  induction n generalizing s with
  | zero => exact h
  | succ n ih =>
    unfold State.creditsOut
    exact .ite h (ih (h.sendFrame ..))

theorem State.Keeps.linkAnswer (h : r.Keeps s) (k : Nat) (moved : Bool) : r.Keeps (s.linkAnswer k moved) := by
  unfold State.linkAnswer
  exact .ite h (.ite (h.creditsOut ..) (.ite (h.lineOut ..) h))

theorem State.Keeps.execReplayTimeout (h : r.Keeps s) (k : Nat) : Keeping r (execReplayTimeout k s) :=
  .inRange (.ite (h.replayAll ..) h)

theorem State.Keeps.takeFrame (h : r.Keeps s) (src : Nat) (f : Frame) : r.Keeps (s.takeFrame src f) := by
  unfold State.takeFrame
  exact .ite (h.setPort ..) (h.setCe ..)

theorem State.Keeps.switchSlot (h : r.Keeps s) (k : Nat) : r.Keeps (s.switchSlot k) := by
  unfold State.switchSlot
  dsimp only
  refine .ite (h.setPort ..) ?_
  split
  · exact h.setPort ..
  · refine .ite (State.Keeps.linkAnswer ?_ ..) ?_
    all_goals exact (((h.setPort ..).takeFrame ..).setPort ..).sendFrame ..

theorem State.Keeps.execSwitchSlot (h : r.Keeps s) (k : Nat) : Keeping r (execSwitchSlot k s) :=
  .inRange (h.switchSlot ..)

theorem State.Keeps.linkEvent (h : r.Keeps s) (k : Nat) : r.Keeps (s.linkEvent k) :=
  (h.setFld ..).event ..

theorem State.Keeps.settleCoord (h : r.Keeps s) : r.Keeps s.settleCoord := by
  unfold State.settleCoord
  exact .ite (h.setFld ..) h

theorem State.Keeps.linkDown (h : r.Keeps s) (k : Nat) (nbrFail : Bool) : r.Keeps (s.linkDown k nbrFail) :=
  ((((h.setFld ..).setFld ..).setPort ..).linkEvent ..).settleCoord

theorem State.Keeps.trainPort (h : r.Keeps s) (k : Nat) : r.Keeps (s.trainPort k) := by
  unfold State.trainPort
  exact .ite ((h.setFld ..).setPort ..) h

theorem State.Keeps.retrainPort (h : r.Keeps s) (k : Nat) : r.Keeps (s.retrainPort k) := by
  unfold State.retrainPort
  exact .ite h (((h.setFld ..).count ..).setPort ..)

theorem State.Keeps.trainingDone (h : r.Keeps s) (k : Nat) (good : BitVec 18) : r.Keeps (s.trainingDone k good) := by
  unfold State.trainingDone
  lift_lets
  intro st lanes s1 half s2 s3 s4
  have h1 : r.Keeps s1 := h.setFld ..
  have h3 : r.Keeps s3 := (((h1.setFld ..).setFld ..).setFld ..).setPort ..
  have h4 : r.Keeps s4 := .ite (h3.linkEvent ..) h3
  exact .ite h (.ite (h1.linkDown ..) (.ite (h1.linkDown ..) (h4.replayAll ..).settleCoord))

theorem State.Keeps.execLinkTrainingDone (h : r.Keeps s) (k : Nat) (good : BitVec 18) : Keeping r (execLinkTrainingDone k good s) :=
  .inRange (h.trainingDone ..)

theorem State.Keeps.execLinkRetrainTrigger (h : r.Keeps s) (k : Nat) (lockLost : Bool) :
    Keeping r (execLinkRetrainTrigger k lockLost s) :=
  .inRange (.ite (h.retrainPort ..) h)

theorem State.Keeps.stageTimeout (h : r.Keeps s) (k : Nat) : r.Keeps (s.stageTimeout k) := by
  unfold State.stageTimeout
  exact .ite h (.ite (h.setPort ..) (h.linkDown ..))

theorem State.Keeps.execTrainingStageTimeout (h : r.Keeps s) (k : Nat) : Keeping r (execTrainingStageTimeout k s) :=
  .inRange (h.stageTimeout ..)

theorem State.Keeps.execLinkTrainRetry (h : r.Keeps s) (k : Nat) : Keeping r (execLinkTrainRetry k s) :=
  .inRange (h.trainPort ..)

theorem State.Keeps.writeLnkCfg (h : r.Keeps s) (k : Nat) (v : Word) : r.Keeps (s.writeLnkCfg k v) := by
  unfold State.writeLnkCfg
  have enabled := h.setFld F.lnkCfg_ENABLE k (v.toNat % 2)
  exact .ite ((enabled.setFld ..).setPort ..).settleCoord (.ite (.ite (enabled.retrainPort ..) (enabled.trainPort ..)) enabled)

theorem State.Keeps.execLnkRetrain (h : r.Keeps s) (who : Requester) (n : Nat) (v : Word) : Keeping r (execLnkRetrain who n v s) :=
  .inRange (h.gated (hk := h.writeLnkCfg ..) ..)

theorem State.Keeps.setSession (h : r.Keeps s) (x : Session) : r.Keeps (s.setSession x) :=
  h.upd rfl rfl rfl

theorem State.Keeps.closeSession (h : r.Keeps s) (sid : Nat) : r.Keeps (s.closeSession sid) :=
  h.upd rfl rfl rfl

theorem State.Keeps.sealOut (h : r.Keeps s) (x : Session) (p : BirPath) (typ flags psn tse : Nat) (plain : List Byte) :
    r.Keeps (s.sealOut x p typ flags psn tse plain) := by
  unfold State.sealOut
  dsimp only
  split
  · exact h
  · exact (h.setSession ..).sendUdp ..

theorem State.Keeps.sendClose (h : r.Keeps s) (x : Session) : r.Keeps (s.sendClose x) := by
  unfold State.sendClose
  dsimp only
  refine State.Keeps.closeSession ?_ ..
  split
  · exact h.sealOut ..
  · exact h

theorem State.Keeps.sigInvalid (h : r.Keeps s) (sid : Nat) : r.Keeps (s.sigInvalid sid) :=
  h.event ..

theorem State.Keeps.sendFirst (h : r.Keeps s) (sid psid : Nat) (p : Peer) : r.Keeps (s.sendFirst sid psid p) :=
  h.sendUdp ..

theorem State.Keeps.sendInit (h : r.Keeps s) (sid psid : Nat) (h' : Handshake) : r.Keeps (s.sendInit sid psid h') := by
  unfold State.sendInit
  exact h.foldl (fun _ _ h => h.sendUdp ..) _

theorem State.Keeps.sendCookie (h : r.Keeps s) (e : Nat) (x : RxPkt) : r.Keeps (s.sendCookie e x) :=
  h.sendUdp ..

theorem State.Keeps.answerInit (h : r.Keeps s) (x : InitPart) (body : List Byte) : r.Keeps (s.answerInit x body) := by
  unfold State.answerInit
  dsimp only
  refine .ite h ?_
  refine .ite (h.sigInvalid ..) ?_
  split
  · exact h.sigInvalid ..
  · refine State.Keeps.foldl (fun _ _ h => h.sendUdp ..) _ ?_
    split
    · exact h.draw.draw.draw.setSession ..
    · exact h.draw.draw.draw.upd rfl rfl rfl

theorem State.Keeps.keepInit (h : r.Keeps s) (e : Nat) (x : RxPkt) : r.Keeps (s.keepInit e x) := by
  unfold State.keepInit
  dsimp only
  refine .ite (h.authFail ..) ?_
  split
  · exact h.upd rfl rfl rfl
  · exact (h.upd rfl rfl rfl).answerInit ..

theorem State.Keeps.onInit (h : r.Keeps s) (e : Nat) (x : RxPkt) : r.Keeps (State.onInit e s x) := by
  unfold State.onInit
  exact .ite (h.authFail ..) (.ite (.ite (h.authFail ..) (h.sendCookie ..)) (.ite (h.keepInit ..) (h.authFail ..)))

theorem State.Keeps.execInit (h : r.Keeps s) (e : Nat) : Keeping r (execInit e s) :=
  .inRange (h.withRx (hgo := fun _ _ h => h.onInit ..) ..)

theorem State.Keeps.execCookie (h : r.Keeps s) (e : Nat) : Keeping r (execCookie e s) := by
  refine Keeping.inRange ?_
  refine h.withRx (hgo := ?_) ..
  intro _ _ h
  split
  · exact .ite ((h.setSession ..).sendInit ..) (h.authFail ..)
  · exact h.authFail ..

theorem State.Keeps.dropShake (h : r.Keeps s) (y : Session) : r.Keeps (s.dropShake y) := by
  unfold State.dropShake
  exact .ite (h.closeSession ..) (h.setSession ..)

theorem State.Keeps.finishResp (h : r.Keeps s) (y : Session) (h' : Handshake) (psid : Nat) (body : List Byte) :
    r.Keeps (s.finishResp y h' psid body) := by
  unfold State.finishResp
  exact .ite ((h.sigInvalid ..).dropShake ..) (.ite (h.dropShake ..) ((h.draw.setSession ..).sendUdp ..))

theorem State.Keeps.onResp (h : r.Keeps s) (e : Nat) (x : RxPkt) : r.Keeps (State.onResp e s x) := by
  unfold State.onResp
  dsimp only
  split
  · exact h.authFail ..
  · refine .ite (h.authFail ..) ?_
    split
    · exact h.authFail ..
    · split
      · exact h.authFail ..
      · split
        · exact h.setSession ..
        · exact h.finishResp ..

theorem State.Keeps.execResp (h : r.Keeps s) (e : Nat) : Keeping r (execResp e s) :=
  .inRange (h.withRx (hgo := fun _ _ h => h.onResp ..) ..)

theorem State.Keeps.onConfirm (h : r.Keeps s) (e : Nat) (x : RxPkt) : r.Keeps (State.onConfirm e s x) := by
  unfold State.onConfirm
  dsimp only
  split
  · exact h.authFail ..
  · split
    · exact h.authFail ..
    · split
      · exact h.setSession ..
      · exact .ite (h.setSession ..) ((h.sigInvalid ..).dropShake ..)

theorem State.Keeps.execConfirm (h : r.Keeps s) (e : Nat) : Keeping r (execConfirm e s) :=
  .inRange (h.withRx (hgo := fun _ _ h => h.onConfirm ..) ..)

theorem State.Keeps.execHandshakeTimeout (h : r.Keeps s) (sid : Nat) : Keeping r (execHandshakeTimeout sid s) := by
  refine Keeping.next ?_
  split
  · exact .ite (h.dropShake ..) h
  · exact h.upd rfl rfl rfl

theorem State.Keeps.execCookieSecretChange (h : r.Keeps s) : Keeping r (execCookieSecretChange s) :=
  .next (h.draw.upd rfl rfl rfl)

theorem State.Keeps.startShake (h : r.Keeps s) (y : Session) (p : Peer) : r.Keeps (s.startShake y p) := by
  unfold State.startShake
  exact .ite ((h.draw.draw.setSession ..).sendInit ..) ((h.draw.draw.setSession ..).sendFirst ..)

theorem State.Keeps.startRekey (h : r.Keeps s) (y : Session) : r.Keeps (s.startRekey y) := by
  unfold State.startRekey
  split
  · exact h.setSession ..
  · exact h.startShake ..

theorem State.Keeps.openSession (h : r.Keeps s) (sid : Nat) (p : Peer) : r.Keeps (s.openSession sid p) := by
  unfold State.openSession
  exact .ite h ((h.upd rfl rfl rfl).startShake ..)

theorem State.Keeps.execRekey (h : r.Keeps s) (sid : Nat) : Keeping r (execRekey sid s) := by
  refine Keeping.next ?_
  split
  · exact h
  · exact .ite (h.sendClose ..) (.ite (h.startRekey ..) h)

theorem State.Keeps.execOldKeyExpiry (h : r.Keeps s) (sid : Nat) : Keeping r (execOldKeyExpiry sid s) := by
  refine Keeping.next ?_
  split
  · exact .ite h (h.setSession ..)
  · exact h

theorem State.Keeps.sendAck (h : r.Keeps s) (x : Session) (path ts : Nat) : r.Keeps (s.sendAck x path ts) := by
  unfold State.sendAck
  split
  · exact h.setSession ..
  · exact h.sealOut ..

theorem State.Keeps.takeData (h : r.Keeps s) (y : Session) (x : RxPkt) (plain : List Byte) : r.Keeps (s.takeData y x plain) := by
  unfold State.takeData
  exact .ite (((h.setSession ..).sendClose ..).event ..) (.ite (h.sendAck ..) (h.setSession ..))

theorem State.Keeps.withOpen (h : r.Keeps s) (e : Nat) (x : RxPkt) (go : State → Session → List Byte → State)
    (hgo : ∀ y0 y1 y2, r.Keeps y0 → r.Keeps (go y0 y1 y2)) : r.Keeps (s.withOpen e x go) := by
  unfold State.withOpen
  split
  · exact h.authFail ..
  · split
    · exact h.authFail ..
    · exact hgo _ _ _ h

theorem State.Keeps.execAckDelayExpiry (h : r.Keeps s) (sid : Nat) : Keeping r (execAckDelayExpiry sid s) := by
  refine Keeping.next ?_
  split
  · split
    · exact h.sendAck ..
    · exact h
  · exact h

theorem State.Keeps.settleLoss (h : r.Keeps s) (y : Session) : r.Keeps (s.settleLoss y) := by
  unfold State.settleLoss
  split
  · exact .ite ((h.setSession ..).sendClose ..) (h.setSession ..)
  · exact h.setSession ..

theorem State.Keeps.takeAck (h : r.Keeps s) (y : Session) (x : RxPkt) (plain : List Byte) : r.Keeps (s.takeAck y x plain) :=
  h.settleLoss ..

theorem State.Keeps.execAck (h : r.Keeps s) (e : Nat) : Keeping r (execAck e s) :=
  .inRange (h.withRx (hgo := fun _ _ h => h.withOpen (hgo := fun _ _ _ h => h.takeAck ..) ..) ..)

theorem State.Keeps.execClose (h : r.Keeps s) (e : Nat) : Keeping r (execClose e s) :=
  .inRange (h.withRx (hgo := fun _ _ h => h.withOpen (hgo := fun _ _ _ h => (h.setSession ..).closeSession ..) ..) ..)

theorem State.Keeps.expire (h : r.Keeps s) (y : Session) (q : TxPkt) : r.Keeps (s.expire y q) :=
  h.settleLoss ..

theorem State.Keeps.execRetransmissionTimeout (h : r.Keeps s) (sid psn : Nat) :
    Keeping r (execRetransmissionTimeout sid psn s) := by
  refine Keeping.next ?_
  split
  · exact h
  · split
    · exact h
    · exact h.expire ..

theorem State.Keeps.execKeepalive (h : r.Keeps s) (sid : Nat) : Keeping r (execKeepalive sid s) := by
  refine Keeping.next ?_
  split
  · refine .ite ?_ h
    split
    · exact h.sendAck ..
    · exact h
  · exact h

theorem State.Keeps.execSessionIdleTimeout (h : r.Keeps s) (sid : Nat) : Keeping r (execSessionIdleTimeout sid s) := by
  refine Keeping.next ?_
  split
  · exact .ite (h.closeSession ..) h
  · exact h

theorem State.Keeps.sendMessage (h : r.Keeps s) (sid kind : Nat) (body : List Byte) : r.Keeps (s.sendMessage sid kind body) := by
  unfold State.sendMessage
  split
  · exact h
  · exact h.setSession ..

theorem State.Keeps.emit (h : r.Keeps s) (x : Session) (p : BirPath) (q : TxPkt) : r.Keeps (s.emit x p q) :=
  h.sealOut ..

theorem State.Keeps.sendNext (h : r.Keeps s) (x : Session) : r.Keeps (s.sendNext x) := by
  unfold State.sendNext
  dsimp only
  split
  · split
    · exact .ite (h.emit ..) h
    · exact h
  · split
    · exact .ite (h.emit ..) h
    · exact h

theorem State.Keeps.execBirsanSend (h : r.Keeps s) (sid : Nat) : Keeping r (execBirsanSend sid s) := by
  refine Keeping.next ?_
  split
  · exact .ite (h.sendNext ..) h
  · split
    · exact .ite (h.draw.openSession ..) h
    · exact h

theorem State.Keeps.closePaths (h : r.Keeps s) (e : Nat) : r.Keeps (s.closePaths e) :=
  h.upd rfl rfl rfl

theorem State.Keeps.ethTrain (h : r.Keeps s) (e : Nat) : r.Keeps (s.ethTrain e) :=
  ((h.setFld ..).closePaths ..).setEth ..

theorem State.Keeps.writeEthCfg (h : r.Keeps s) (n : Nat) (v : Word) : r.Keeps (s.writeEthCfg n v) := by
  unfold State.writeEthCfg
  exact .ite ((h.setReg ..).ethTrain ..) (h.setReg ..)

theorem State.Keeps.execEthRetrain (h : r.Keeps s) (who : Requester) (n : Nat) (v : Word) : Keeping r (execEthRetrain who n v s) :=
  .inRange (h.gated (hk := h.writeEthCfg ..) ..)

theorem State.Keeps.execEthLinkLoss (h : r.Keeps s) (e : Nat) : Keeping r (execEthLinkLoss e s) :=
  .inRange (.ite (h.ethTrain ..) h)

theorem State.Keeps.execEthPortUp (h : r.Keeps s) (e : Nat) : Keeping r (execEthPortUp e s) :=
  .inRange (.ite h ((h.setEth ..).setFld ..))

theorem State.Keeps.execSerdesRefclkLoss (h : r.Keeps s) (k : Nat) : Keeping r (execSerdesRefclkLoss k s) :=
  .inRange (.ite (.ite h (.ite ((h.setPort ..).linkDown ..) (h.setPort ..))) ((h.setEth ..).ethTrain ..))

theorem State.Keeps.execSerdesRefclkReturn (h : r.Keeps s) (k : Nat) : Keeping r (execSerdesRefclkReturn k s) :=
  .inRange (.ite ((h.setPort ..).trainPort ..) ((h.setEth ..).ethTrain ..))

end Sys2Proof.Machine
end

