-- ==== Sys2Proof/Proofs/KeepsMoves.lean ====
section
/-!
SUPPORT. What every command keeps: the coder and the DMA commands.
-/

set_option Elab.async false

namespace Sys2Proof.Machine

open Sys2Proof

variable {r s : State}

theorem State.Keeps.outPiece {o : Out} (h : r.Keeps o.s) (c : Cmd) (x : Nat × List Byte × Bool) : r.Keeps (Out.piece c o x).s := by
  unfold Out.piece
  exact .iteOn Out.s h (.iteOn Out.s (h.out ..) (((State.Keeps.ite (h.note ..) h).storeFor ..).out ..))

theorem State.Keeps.claimWrite (h : r.Keeps s) (c : Cmd) (join : Bool) (a n : Nat) : r.Keeps (s.claimWrite c join a n) := by
  unfold State.claimWrite
  exact .ite ((h.moved ..).requests ..) (h.putTouch ..)

theorem State.Keeps.outPut {o : Out} (h : r.Keeps o.s) (c : Cmd) (undef : Bool) (a : Nat) (bs : List Byte) :
    r.Keeps (o.put c undef a bs).s := by
  unfold Out.put
  exact .iteOn Out.s h (((((State.Keeps.ite h.draw h).out ..).foldlOn Out.s (fun _ _ h => h.outPiece ..) _).claimWrite ..).out ..)

theorem State.Keeps.outStop {o : Out} (h : r.Keeps o.s) (f : Option (Byte × Nat)) : r.Keeps (o.stop f).s := by
  unfold Out.stop
  exact .iteOn Out.s h (h.out ..)

theorem State.Keeps.outFinish {o : Out} (h : r.Keeps o.s) (c : Cmd) (r' : Result) : r.Keeps (o.finish c r') := by
  unfold Out.finish
  dsimp only
  split
  · exact h.finish ..
  · exact (State.Keeps.ite (h.noteUe ..) h).finish ..

theorem State.Keeps.claimAfter (h : r.Keeps s) (c : Cmd) (last : Option Nat) (a n : Nat) : r.Keeps (s.claimAfter c last a n) := by
  unfold State.claimAfter
  exact .ite h (.ite ((h.moved ..).requests ..) (h.touch ..))

theorem State.Keeps.noteRead (h : r.Keeps s) (c : Cmd) (a n : Nat) : r.Keeps (s.noteRead c a n) := by
  unfold State.noteRead
  split
  · exact .ite h (h.note ..)
  · exact .ite h (h.note ..)
  · exact .ite h (h.note ..)
  · exact h

theorem State.Keeps.touchRead (h : r.Keeps s) (c : Cmd) (a n : Nat) : r.Keeps (s.touchRead c a n) :=
  (h.claimAfter ..).noteRead ..

theorem State.Keeps.claimList (h : r.Keeps s) (c : Cmd) (last : Option Nat) (rs : List (Nat × Nat)) :
    r.Keeps (claimList c last rs s) := by
  induction rs generalizing last s with
  | nil => exact h
  | cons x rs ih => exact ih (h.claimAfter ..) _

theorem State.Keeps.claimReads (h : r.Keeps s) (c : Cmd) (rs : List (Nat × Nat)) : r.Keeps (s.claimReads c rs) :=
  h.claimList ..

theorem State.Keeps.touchReads (h : r.Keeps s) (c : Cmd) (rs : List (Nat × Nat)) : r.Keeps (s.touchReads c rs) := by
  unfold State.touchReads
  exact h.foldl (fun _ _ h => h.touchRead ..) _

theorem State.Keeps.noteReads (h : r.Keeps s) (c : Cmd) (rs : List (Nat × Nat)) : r.Keeps (s.noteReads c rs) := by
  unfold State.noteReads
  exact h.foldl (fun _ _ h => h.noteRead ..) _

theorem State.Keeps.weave {o : Out} (h : r.Keeps o.s) (c : Cmd) (rs : List (Nat × Nat)) (k : Nat) (ws : List Put) :
    r.Keeps (weave c rs k ws o).s := by
  induction ws generalizing rs k o with
  | nil => exact h.noteReads ..
  | cons w ws ih =>
    unfold Machine.weave
    exact .iteOn Out.s h (ih (((h.noteReads ..).out ..).outPut ..) _ _)

theorem State.Keeps.storeWhole (h : r.Keeps s) (p a : Nat) (bs : List Byte) : r.Keeps (s.storeWhole p a bs) := by
  unfold State.storeWhole
  exact .ite h (((h.store ..).foldl (fun _ _ h => h.noteUe ..) _).putTouch ..)

theorem State.Keeps.copyParts {o : Out} (h : r.Keeps o.s) (c : Cmd) (undef : Bool) (a t : Nat) (ps : List (Nat × Nat)) :
    r.Keeps (copyParts c undef a t ps o).s := by
  induction ps generalizing o with
  | nil => exact h
  | cons p ps ih =>
    unfold Machine.copyParts
    refine .iteOn Out.s h ?_
    dsimp only
    split
    · exact ((h.touchRead ..).out ..).outStop ..
    · exact ih (((h.touchRead ..).out ..).outPut ..)

theorem State.Keeps.copyRows {o : Out} (h : r.Keeps o.s) (c : Cmd) (d : Dma) (undef : Bool) (len n row : Nat) :
    r.Keeps (copyRows c d undef len n row o).s := by
  induction n generalizing row o with
  | zero => exact h
  | succ n ih =>
    have read := h.noteReads c (d.auxReads row)
    unfold Machine.copyRows
    refine .iteOn Out.s h ?_
    dsimp only
    split
    · exact (read.out ..).outStop ..
    · exact (read.out ..).outStop ..
    · exact (read.out ..).outStop ..
    · exact ih ((read.out ..).copyParts ..) _

theorem State.Keeps.runCopy (h : r.Keeps s) (c : Cmd) : r.Keeps (s.runCopy c) :=
  (((h.claimReads ..).out ..).copyRows ..).outFinish ..

theorem State.Keeps.execDmaCopy (h : r.Keeps s) (i : Issuer) : Keeping r (execDmaCopy i s) :=
  .inRange (h.issueRow (hrun := fun _ _ h => h.runCopy ..) ..)

theorem State.Keeps.notePlanes (h : r.Keeps s) (c : Cmd) (rs : Option Resid) (n : Nat) : r.Keeps (s.notePlanes c rs n) := by
  unfold State.notePlanes
  dsimp only
  split
  · exact h
  · exact ((h.foldl (fun _ _ h => h.draw.store ..) _).foldl (fun _ _ h => h.note ..) _).foldl (fun _ _ h => h.note ..) _

theorem State.Keeps.runMxIn (h : r.Keeps s) (c : Cmd) (d : Dma) (f : Fmt) (rows len : Nat) : r.Keeps (s.runMxIn c d f rows len) :=
  ((((((h.claimReads ..).notePlanes ..).draw).out ..).weave ..).outStop ..).outFinish ..

theorem State.Keeps.runMxOut (h : r.Keeps s) (c : Cmd) (d : Dma) (f : Fmt) (rows len : Nat) : r.Keeps (s.runMxOut c d f rows len) :=
  ((((((h.claimReads ..).notePlanes ..).draw).out ..).weave ..).outStop ..).outFinish ..

theorem State.Keeps.runConvertValues (h : r.Keeps s) (c : Cmd) (d : Dma) (f : Fmt) (rows len : Nat) :
    r.Keeps (s.runConvertValues c d f rows len) := by
  unfold State.runConvertValues
  dsimp only
  have read := fun claims n => (h.claimReads c claims).notePlanes c (cmdResid c.bytes) n
  refine .ite ?narrow ?wide
  case narrow =>
    refine State.Keeps.outFinish (State.Keeps.outStop (.iteOn Out.s (.iteOn Out.s ?failed ?twice) ?once) ..) ..
    case failed => exact (read ..).noteReads ..
    case twice => exact State.Keeps.weave ((((((read ..).noteReads ..).out none).outPut ..).note ..).claimReads ..) ..
    case once => exact State.Keeps.weave (read ..) ..
  case wide => exact ((((h.claimReads ..).out ..).weave ..).outStop ..).outFinish ..

theorem State.Keeps.runConvert (h : r.Keeps s) (c : Cmd) : r.Keeps (s.runConvert c) := by
  unfold State.runConvert
  dsimp only
  split
  · exact h.finish ..
  · exact .ite (h.runMxIn ..) (.ite (h.runMxOut ..) (h.runConvertValues ..))

theorem State.Keeps.execDmaConvert (h : r.Keeps s) (i : Issuer) : Keeping r (execDmaConvert i s) :=
  .inRange (h.issueRow (hrun := fun _ _ h => h.runConvert ..) ..)

theorem State.Keeps.atomicUnits {o : Out} (h : r.Keeps o.s) (c : Cmd) (op dtype : Nat) (undef : Bool) (n t : Nat) (xs : List Byte) :
    r.Keeps (atomicUnits c op dtype undef n t xs o).s := by
  induction n generalizing t xs o with
  | zero => exact h
  | succ n ih =>
    unfold Machine.atomicUnits
    refine .iteOn Out.s h ?_
    dsimp only
    split
    · exact h.outStop ..
    · exact ih (((((State.Keeps.ite h.draw h).note ..).storeFor ..).touch ..).out ..) _ _

theorem State.Keeps.atomicRows {o : Out} (h : r.Keeps o.s) (c : Cmd) (d : Dma) (undef : Bool) (len n row : Nat) :
    r.Keeps (atomicRows c d undef len n row o).s := by
  induction n generalizing row o with
  | zero => exact h
  | succ n ih =>
    have read := h.noteReads c (d.auxReads row)
    unfold Machine.atomicRows
    refine .iteOn Out.s h ?_
    dsimp only
    split
    · exact (read.out ..).outStop ..
    · exact ((read.touchRead ..).out ..).outStop ..
    · exact ih (((read.touchRead ..).out ..).atomicUnits ..) _

theorem State.Keeps.runAtomic (h : r.Keeps s) (c : Cmd) : r.Keeps (s.runAtomic c) :=
  (((h.claimReads ..).out ..).atomicRows ..).outFinish ..

theorem State.Keeps.execDmaAdd (h : r.Keeps s) (i : Issuer) : Keeping r (execDmaAdd i s) :=
  .inRange (h.issueRow (hrun := fun _ _ h => h.runAtomic ..) ..)

theorem State.Keeps.execDmaMax (h : r.Keeps s) (i : Issuer) : Keeping r (execDmaMax i s) :=
  .inRange (h.issueRow (hrun := fun _ _ h => h.runAtomic ..) ..)

theorem State.Keeps.execDmaMin (h : r.Keeps s) (i : Issuer) : Keeping r (execDmaMin i s) :=
  .inRange (h.issueRow (hrun := fun _ _ h => h.runAtomic ..) ..)

theorem State.Keeps.setCodeTable (h : r.Keeps s) (n slot copy : Nat) (r' : List Byte) : r.Keeps (s.setCodeTable n slot copy r') :=
  h.upd rfl rfl rfl

theorem State.Keeps.codeFlipSlot (h : r.Keeps s) (n slot t : Nat) (skip : Option Nat) : r.Keeps (s.codeFlipSlot n slot t skip) := by
  unfold State.codeFlipSlot
  exact .ite h (((h.setFld ..).setFld ..).setFld ..)

theorem State.Keeps.codeFlip (h : r.Keeps s) (n t : Nat) (skip : Option Nat) : r.Keeps (s.codeFlip n t skip) := by
  unfold State.codeFlip
  exact h.foldl (fun _ _ h => h.codeFlipSlot ..) _

theorem State.Keeps.codeFlipFor (h : r.Keeps s) (c : Cmd) : r.Keeps (s.codeFlipFor c) :=
  h.codeFlip ..

theorem State.Keeps.codeRow (h : r.Keeps s) (i : Issuer) (mine : List Byte → Bool) (check : State → Cmd → Verdict)
    (run : State → Cmd → State) (hrun : ∀ y0 y1, r.Keeps y0 → r.Keeps (run y0 y1)) : r.Keeps (s.codeRow i mine check run) := by
  unfold State.codeRow
  dsimp only
  refine .ite ?_ (h.issueRow (hrun := fun _ _ h => hrun _ _ h) ..)
  split
  · exact (h.issueRow (hrun := fun _ _ h => hrun _ _ h) ..).codeFlipFor ..
  · exact h.issueRow (hrun := fun _ _ h => hrun _ _ h) ..

theorem State.Keeps.codeInstall (h : r.Keeps s) (uid n slot : Nat) (r' : List Byte) : r.Keeps (s.codeInstall uid n slot r') :=
  (((h.note ..).note ..).setCodeTable ..).setFld ..

theorem State.Keeps.codeRead (h : r.Keeps s) (c : Cmd) (d : Dma) (rs : Option Resid) (rows len : Nat) (fail : Option (Byte × Nat)) :
    r.Keeps (s.codeRead c d rs rows len fail) := by
  unfold State.codeRead
  exact .ite ((((h.claimReads ..).noteReads ..).note ..).claimReads ..) ((h.claimReads ..).noteReads ..)

theorem State.Keeps.claimIdle (h : r.Keeps s) (c : Cmd) (a n : Nat) : r.Keeps (s.claimIdle c a n) :=
  h.requests ..

theorem State.Keeps.paceUncoded (h : r.Keeps s) (c : Cmd) (pace : Bool) (chunks : List (Nat × Nat × Nat)) :
    r.Keeps (s.paceUncoded c pace chunks) := by
  unfold State.paceUncoded
  exact .ite h (h.foldl (fun _ _ h => h.foldl (fun _ _ h => h.claimIdle ..) _) _)

theorem State.Keeps.runEncode (h : r.Keeps s) (c : Cmd) : r.Keeps (s.runEncode c) := by
  unfold State.runEncode
  dsimp only
  have read := fun d rs rows len fail n => ((h.codeFlipFor c).codeRead c d rs rows len fail).notePlanes c rs n
  split
  · refine State.Keeps.outFinish (State.Keeps.paceUncoded (State.Keeps.weave ?scale ..) ..) ..
    have counted := fun d rs rows len fail n x y => (((read d rs rows len fail n).count F.cmpStat_RAWCHUNKS c.eg x).count
      F.cmpStat_ELIDEFAIL c.eg y).out none
    split
    · exact .iteOn Out.s ((counted ..).outPut ..) (counted ..)
    · exact counted ..
  · exact (((read ..).out ..).outStop ..).outFinish ..

theorem State.Keeps.execDmaEncode (h : r.Keeps s) (i : Issuer) : Keeping r (execDmaEncode i s) :=
  .inRange (h.codeRow (hrun := fun _ _ h => h.runEncode ..) ..)

theorem State.Keeps.runDecode (h : r.Keeps s) (c : Cmd) : r.Keeps (s.runDecode c) := by
  have stop := fun a n f k => ((((h.codeFlipFor c).touchRead c a n).out none).outStop f).outFinish c k
  unfold State.runDecode
  dsimp only
  split
  · refine .ite (stop ..) ?_
    exact (((((((h.codeFlipFor ..).claimReads ..).paceUncoded ..).out none).weave ..).outStop ..).outFinish ..)
  · exact stop ..
  · exact stop ..

theorem State.Keeps.execDmaDecode (h : r.Keeps s) (i : Issuer) : Keeping r (execDmaDecode i s) :=
  .inRange (h.codeRow (hrun := fun _ _ h => h.runDecode ..) ..)

theorem State.Keeps.runBuild (h : r.Keeps s) (c : Cmd) : r.Keeps (s.runBuild c) := by
  unfold State.runBuild
  dsimp only
  split
  · refine State.Keeps.outFinish (o := ⟨_, _⟩) (.ite (State.Keeps.codeInstall ?_ ..) ?_) ..
    all_goals exact (((h.codeFlipFor ..).codeRead ..).out none).outPut ..
  · exact ((((h.codeFlipFor ..).codeRead ..).out none).outStop ..).outFinish ..

theorem State.Keeps.execTableBuild (h : r.Keeps s) (i : Issuer) : Keeping r (execTableBuild i s) :=
  .inRange (h.codeRow (hrun := fun _ _ h => h.runBuild ..) ..)

theorem State.Keeps.runLoad (h : r.Keeps s) (c : Cmd) : r.Keeps (s.runLoad c) := by
  unfold State.runLoad
  dsimp only
  split
  · exact (((h.touchRead ..).out ..).outStop ..).outFinish ..
  · exact .ite (((h.touchRead ..).codeInstall ..).finish ..) ((h.touchRead ..).finish ..)

theorem State.Keeps.execTableLoad (h : r.Keeps s) (i : Issuer) : Keeping r (execTableLoad i s) :=
  .inRange (.ite h (h.issueRow (hrun := fun _ _ h => h.runLoad ..) ..))

end Sys2Proof.Machine
end

