-- ==== Sys2Proof/Proofs/KeepsPaths.lean ====
section
/-!
SUPPORT. What every command keeps: the command path and the memory controllers.
-/

set_option Elab.async false

namespace Sys2Proof.Machine

open Sys2Proof

variable {r s : State}

theorem State.Keeps.ringTouch (h : r.Keeps s) (uid p eg : Nat) (span : List (Nat × Nat)) : r.Keeps (s.ringTouch uid p eg span) := by
  unfold State.ringTouch
  exact h.foldl (fun _ _ h => h.touch ..) _

theorem State.Keeps.decodeAt (h : r.Keeps s) (q pos len : Nat) : r.Keeps (s.decodeAt q pos len) := by
  unfold State.decodeAt
  dsimp only
  refine State.Keeps.upd ?_ rfl rfl rfl
  refine State.Keeps.setQueue ?_ ..
  refine State.Keeps.setWindow ?_ ..
  refine ((h.ringTouch ..).foldl (fun _ _ h => h.touch ..) _).foldl (fun _ _ h => ?_) _
  split
  · exact h.touch ..
  · exact h

theorem State.Keeps.decodeNext (h : r.Keeps s) (q : Nat) : r.Keeps (s.decodeNext q) := by
  unfold State.decodeNext
  dsimp only
  split
  · exact h.settleBounds.ringStop ..
  · refine .ite h.settleBounds ?_
    split
    · exact .ite ((h.settleBounds.noteUe ..).halt ..) h.settleBounds
    · refine .ite (.ite (((h.settleBounds.ringTouch ..).noteMalformed ..).halt ..) h.settleBounds) ?_
      refine .ite h.settleBounds ?_
      split
      · exact .ite ((h.settleBounds.noteUe ..).halt ..) h.settleBounds
      · exact h.settleBounds.decodeAt ..

theorem State.Keeps.execCpDecode (h : r.Keeps s) (q : Nat) : Keeping r (execCpDecode q s) :=
  .inRange (h.decodeNext ..)

theorem State.Keeps.execNop (h : r.Keeps s) (i : Issuer) : Keeping r (execNop i s) :=
  .inRange (h.issueRow (hrun := fun _ _ h => h.finish ..) ..)

theorem State.Keeps.runSoop (h : r.Keeps s) (c : Cmd) : r.Keeps (s.runSoop c) := by
  unfold State.runSoop
  exact (State.Keeps.iteOn Out.s ((h.objOp ..).out ..) (((h.objOp ..).out ..).outPut ..)).outFinish ..

theorem State.Keeps.execSoop (h : r.Keeps s) (i : Issuer) : Keeping r (execSoop i s) :=
  .inRange (h.issueRow (hrun := fun _ _ h => h.runSoop ..) ..)

theorem State.Keeps.holdQueue (h : r.Keeps s) (i : Issuer) (v : Option Nat) : r.Keeps (s.holdQueue i v) := by
  unfold State.holdQueue
  dsimp only
  split
  · exact h.setQueue ..
  · exact h

theorem State.Keeps.runSowait (h : r.Keeps s) (c : Cmd) : r.Keeps (s.runSowait c) := by
  unfold State.runSowait
  exact .ite (h.finish ..) ((h.upd rfl rfl rfl).holdQueue ..)

theorem State.Keeps.execSowait (h : r.Keeps s) (i : Issuer) : Keeping r (execSowait i s) :=
  .inRange (h.issueRow (hrun := fun _ _ h => h.runSowait ..) ..)

theorem State.Keeps.releaseHold (h : r.Keeps s) (i : Issuer) : r.Keeps (s.releaseHold i) := by
  unfold State.releaseHold
  dsimp only
  split
  · exact h
  · exact ((((h.until ..).upd rfl rfl rfl).holdQueue ..).reachNext ..).finish ..

theorem State.Keeps.execSowaitSatisfied (h : r.Keeps s) (i : Issuer) : Keeping r (execSowaitSatisfied i s) :=
  .inRange (h.releaseHold ..)

theorem State.Keeps.runBoundset (h : r.Keeps s) (c : Cmd) : r.Keeps (s.runBoundset c) :=
  (h.upd rfl rfl rfl).finish ..

theorem State.Keeps.execBoundset (h : r.Keeps s) (i : Issuer) : Keeping r (execBoundset i s) :=
  .inRange (h.issueRow (hrun := fun _ _ h => h.runBoundset ..) ..)

theorem State.Keeps.objBad (h : r.Keeps s) (who : Requester) (o op : Nat) (v : Word) : r.Keeps (s.objBad who o op v) := by
  have zero : r.Keeps { s with resp := leBytes 8 0 } := h.upd rfl rfl rfl
  have refused := fun w => State.Keeps.ite (c := s.actsFor w (s.objPart o) = true) zero (zero.refuse w)
  unfold State.objBad
  dsimp only
  split
  · exact (h.coreFault ..).settleCluster ..
  · exact zero
  · exact zero
  · exact .ite (refused _) ((refused _).writeIgnored ..)

theorem State.Keeps.objAccess (h : r.Keeps s) (who : Requester) (o op : Nat) (v : Word) : r.Keeps (s.objAccess who o op v) := by
  unfold State.objAccess
  exact .ite ((h.upd rfl rfl rfl).refuse ..) (.ite (h.objBad ..) ((h.objOp ..).upd rfl rfl rfl))

theorem State.Keeps.execSoRead (h : r.Keeps s) (who : Requester) (obj : Nat) : Keeping r (execSoRead who obj s) :=
  .inRange (h.objAccess ..)

theorem State.Keeps.execSoSet (h : r.Keeps s) (who : Requester) (obj : Nat) (operand : Word) :
    Keeping r (execSoSet who obj operand s) :=
  .inRange (h.objAccess ..)

theorem State.Keeps.execSoAdd (h : r.Keeps s) (who : Requester) (obj : Nat) (operand : Word) :
    Keeping r (execSoAdd who obj operand s) :=
  .inRange (h.objAccess ..)

theorem State.Keeps.execSoMax (h : r.Keeps s) (who : Requester) (obj : Nat) (operand : Word) :
    Keeping r (execSoMax who obj operand s) :=
  .inRange (h.objAccess ..)

theorem State.Keeps.execSoSeterr (h : r.Keeps s) (who : Requester) (obj : Nat) (operand : Word) :
    Keeping r (execSoSeterr who obj operand s) :=
  .inRange (h.objAccess ..)

theorem State.Keeps.execSoClrerr (h : r.Keeps s) (who : Requester) (obj : Nat) : Keeping r (execSoClrerr who obj s) :=
  .inRange (h.objAccess ..)

theorem State.Keeps.execCreset (h : r.Keeps s) (who : Requester) (obj : Nat) (operand : Word) :
    Keeping r (execCreset who obj operand s) :=
  .inRange (h.objAccess ..)

theorem State.Keeps.execCread (h : r.Keeps s) (who : Requester) (obj : Nat) : Keeping r (execCread who obj s) :=
  .inRange (h.objAccess ..)

theorem State.Keeps.writeSyncCfg (h : r.Keeps s) (who : Requester) (o : Nat) (v : Word) : r.Keeps (s.writeSyncCfg who o v) := by
  unfold State.writeSyncCfg
  dsimp only
  split
  · exact h
  · exact .ite (h.setFld ..) (((((((h.setFld ..).setFld ..).setReg ..).setObjLimit ..).setFld ..).setFld ..).upd rfl rfl rfl)

theorem State.Keeps.execSyncCfgWrite (h : r.Keeps s) (who : Requester) (obj : Nat) (v : Word) :
    Keeping r (execSyncCfgWrite who obj v s) :=
  .inRange (h.gated (hk := h.writeSyncCfg ..) ..)

theorem State.Keeps.putRecord (h : r.Keeps s) (q : Nat) (c : Completion) : r.Keeps (s.putRecord q c) := by
  unfold State.putRecord
  exact .ite (h.count ..) (((h.store ..).touch ..).setFld ..)

theorem State.Keeps.endEpisode (h : r.Keeps s) (p j t : Nat) : r.Keeps (s.endEpisode p j t) := by
  unfold State.endEpisode
  dsimp only
  split
  · exact h.setJob ..
  · exact (State.Keeps.ite (h.count ..) (.ite ((h.count ..).count ..) ((h.count ..).count ..))).setJob ..

theorem State.Keeps.endEpisodes (h : r.Keeps s) (p o t : Nat) : r.Keeps (s.endEpisodes p o t) := by
  unfold State.endEpisodes
  exact h.foldl (fun _ _ h => .ite (h.endEpisode ..) h) _

theorem State.Keeps.signal (h : r.Keeps s) (c : Completion) (u : Nat) : r.Keeps (s.signal c u) := by
  unfold State.signal
  exact .ite h ((State.Keeps.iteOn Prod.snd (h.objOp ..) (h.objOp ..)).endEpisodes ..)

theorem State.Keeps.ticketDone (h : r.Keeps s) (eg c t : Nat) (st : Byte) : r.Keeps (s.ticketDone eg c t st) := by
  unfold State.ticketDone
  dsimp only
  split
  · exact h
  · exact h.setCore ..

theorem State.Keeps.drainActions (h : r.Keeps s) (c : Completion) (u : Nat) : r.Keeps (s.drainActions c u) := by
  unfold State.drainActions
  dsimp only
  split
  · exact (h.signal ..).ticketDone ..
  case h_2 q issuer =>
    have recorded : r.Keeps (if (hdrIrq c.cmd.bytes || s.flag F.qCfg_CMPALL q || decide (c.final ≠ St.ok)) = true
      then s.putRecord q c else s) :=
      .ite (h.putRecord ..) h
    have signalled := recorded.signal c u
    generalize State.signal _ c u = s2 at signalled ⊢
    have told : r.Keeps (if (hdrIrq c.cmd.bytes && s2.flag F.qVec_EN q) = true then
        s2.msix (s2.fld F.qVec_FUNC q) (some c.cmd.part) (s2.fld F.qVec_VECTOR q) else s2) := .ite (signalled.msix ..) signalled
    exact .ite (told.halt ..) told

theorem State.Keeps.drain (h : r.Keeps s) (f e : Nat) : r.Keeps (s.drain f e) := by
  unfold State.drain
  dsimp only
  split
  · exact h
  · exact (((((h.until ..).setEntry ..).upd rfl rfl rfl).setTrace ..).drainActions ..).settleJob ..

theorem State.Keeps.execCompletionDrain (h : r.Keeps s) (f e : Nat) : Keeping r (execCompletionDrain f e s) :=
  .inRange (h.drain ..)

theorem State.Keeps.refuseDoorbell (h : r.Keeps s) (q tail : Nat) : r.Keeps (s.refuseDoorbell q tail) :=
  (h.setFld ..).event ..

theorem State.Keeps.doorbell (h : r.Keeps s) (who : Requester) (q : Nat) (v : Word) : r.Keeps (s.doorbell who q v) := by
  unfold State.doorbell
  exact .ite (h.refuse ..) (.ite ((h.refuse ..).refuseDoorbell ..) (.ite (h.refuseDoorbell ..) (h.setQueue ..)))

theorem State.Keeps.execQDoorbell (h : r.Keeps s) (who : Requester) (q : Nat) (v : Word) : Keeping r (execQDoorbell who q v s) :=
  .inRange (h.doorbell ..)

theorem State.Keeps.enableQueue (h : r.Keeps s) (q : Nat) (was now : Bool) (v : Word) : r.Keeps (s.enableQueue q was now v) := by
  unfold State.enableQueue
  refine .ite ?stops (.ite (.ite ?starts (h.writeIgnored ..)) h)
  case stops => exact ((((h.setFld ..).setFld ..).setFld ..).undecode ..).setQueue ..
  case starts => exact ((((h.setFld ..).setFld ..).setFld ..).setFld ..).setQueue ..

theorem State.Keeps.qCfgFields (h : r.Keeps s) (who : Requester) (q : Nat) (v : Word) : r.Keeps (s.qCfgFields who q v) := by
  unfold State.qCfgFields
  lift_lets
  intro n was s1 s2
  have h1 : r.Keeps s1 := .ite h ((h.setFld ..).setFld ..)
  have h2 : r.Keeps s2 := .ite h1 ((h1.setFld ..).setFld ..)
  exact (h2.setFld ..).setFld ..

theorem State.Keeps.writeQCfg (h : r.Keeps s) (who : Requester) (q : Nat) (v : Word) : r.Keeps (s.writeQCfg who q v) :=
  (h.qCfgFields ..).enableQueue ..

theorem State.Keeps.execQEnable (h : r.Keeps s) (who : Requester) (q : Nat) (v : Word) : Keeping r (execQEnable who q v s) :=
  .inRange (h.gated (hk := h.writeQCfg ..) ..)

theorem State.Keeps.restartQueue (h : r.Keeps s) (q : Nat) : r.Keeps (s.restartQueue q) :=
  (((h.setFld ..).setFld ..).undecode ..).setQueue ..

theorem State.Keeps.writeQCtrl (h : r.Keeps s) (q : Nat) (v : Word) : r.Keeps (s.writeQCtrl q v) := by
  unfold State.writeQCtrl
  exact .ite h (.ite (h.restartQueue ..) ((h.setFld ..).restartQueue ..))

theorem State.Keeps.execQResume (h : r.Keeps s) (who : Requester) (q : Nat) (v : Word) : Keeping r (execQResume who q v s) :=
  .inRange (h.gated (hk := h.writeQCtrl ..) ..)

theorem State.Keeps.execQSkip (h : r.Keeps s) (who : Requester) (q : Nat) (v : Word) : Keeping r (execQSkip who q v s) :=
  .inRange (h.gated (hk := h.writeQCtrl ..) ..)

theorem State.Keeps.writeChead (h : r.Keeps s) (q : Nat) (v : Word) : r.Keeps (s.writeChead q v) :=
  (h.setFld ..).setReg ..

theorem State.Keeps.execCheadWrite (h : r.Keeps s) (who : Requester) (q : Nat) (v : Word) : Keeping r (execCheadWrite who q v s) :=
  .inRange (h.gated (hk := h.writeChead ..) ..)

theorem State.Keeps.watchQueue (h : r.Keeps s) (q : Nat) : r.Keeps (s.watchQueue q) := by
  unfold State.watchQueue
  dsimp only
  split
  · exact h
  · exact .ite h (((h.until ..).setQueue ..).event ..)

theorem State.Keeps.execCpWatchExpiry (h : r.Keeps s) (q : Nat) : Keeping r (execCpWatchExpiry q s) :=
  .inRange (h.watchQueue ..)

theorem State.Keeps.endWrites (h : r.Keeps s) (eg uid : Nat) : r.Keeps (s.endWrites eg uid) := by
  unfold State.endWrites
  exact .ite h (h.setTe ..)

theorem State.Keeps.serve (h : r.Keeps s) (c t p : Nat) (r' : MemReq) : r.Keeps (s.serve c t p r') := by
  unfold State.serve
  dsimp only
  split
  · exact (((h.act ..).setCtl ..).endWrites ..).unpark ..
  · exact (h.act ..).setCtl ..
  · exact (h.act ..).setCtl ..
  · exact ((h.act ..).setCtl ..).unpark ..

theorem State.Keeps.revolution (h : r.Keeps s) (c : Nat) : r.Keeps (s.revolution c) := by
  unfold State.revolution
  exact (h.foldl (fun _ _ h => h.setReg ..) _).setCtl ..

theorem State.Keeps.catchUp (h : r.Keeps s) (c : Nat) : r.Keeps (s.catchUp c) :=
  (State.Keeps.ite (h.revolution ..) h).setCtl ..

theorem State.Keeps.openSlot (h : r.Keeps s) (c : Nat) : r.Keeps (s.openSlot c).1 :=
  ((State.Keeps.ite ((h.catchUp ..).revolution ..) (h.catchUp ..)).until ..).setCtl ..

theorem State.Keeps.doWriteBack (h : r.Keeps s) (c : Nat) (o : Outstanding) : r.Keeps (s.doWriteBack c o) :=
  ((h.act ..).setCtl ..).unpark ..

theorem State.Keeps.passIdle (h : r.Keeps s) (c : Nat) (owner : Option Nat) : r.Keeps (s.passIdle c owner) := by
  unfold State.passIdle
  dsimp only
  split
  · exact .ite h ((h.setCtl ..).unpark ..)
  · exact h

theorem State.Keeps.startSlot (h : r.Keeps s) (c : Nat) : r.Keeps (s.startSlot c) := by
  unfold State.startSlot
  dsimp only
  refine .ite (h.openSlot ..) ?_
  split
  · exact (h.openSlot ..).doWriteBack ..
  · split
    · exact (h.openSlot ..).passIdle ..
    · split
      · exact (h.openSlot ..).passIdle ..
      · exact (State.Keeps.ite (((h.openSlot ..).passIdle ..).setCtl ..) ((h.openSlot ..).passIdle ..)).serve ..

theorem State.Keeps.execMemSlotStart (h : r.Keeps s) (c : Nat) : Keeping r (execMemSlotStart c s) :=
  .inRange (h.startSlot ..)

theorem State.Keeps.execAtomicWriteback (h : r.Keeps s) (c : Nat) : Keeping r (execAtomicWriteback c s) :=
  .inRange (.ite (h.startSlot ..) h)

theorem State.Keeps.slotMiss (h : r.Keeps s) (c due land : Nat) (req : MemReq) : r.Keeps (s.slotMiss c due land req) := by
  unfold State.slotMiss
  lift_lets
  intro s1 s2 s3 s4
  have h2 : r.Keeps s2 := ((State.Keeps.ite (h.count ..) h).count ..).setFld ..
  have h3 : r.Keeps s3 := .ite h2 (h2.holdWheel ..)
  have h4 : r.Keeps s4 := h3.upd rfl rfl rfl
  exact .ite h3 (h4.upd rfl rfl rfl)

theorem State.Keeps.tellEcc (h : r.Keeps s) (uid g : Nat) : r.Keeps (s.tellEcc uid g) :=
  h.upd rfl rfl rfl

/-- What takes back the work of a command after a read keeps as well. -/
theorem State.Keeps.undoFrom (h : r.Keeps s) {uid g : Nat} {t : State} (undone : s.undoFrom uid g = some t) : r.Keeps t := by
  unfold State.undoFrom at undone
  obtain ⟨x, _, rfl⟩ := Option.map_eq_some_iff.1 undone
  exact (h.foldl (fun _ _ h => h.takeBack ..) _).setTrace ..

theorem State.Keeps.failRead (h : r.Keeps s) (uid g : Nat) : r.Keeps (s.failRead uid g) := by
  unfold State.failRead
  split
  case h_1 t undone => exact (h.undoFrom undone).tellEcc ..
  case h_2 => exact .ite h (h.tellEcc ..)

theorem State.Keeps.failRing (h : r.Keeps s) (uid g : Nat) : r.Keeps (s.failRing uid g) := by
  unfold State.failRing
  dsimp only
  split
  · exact h.upd rfl rfl rfl
  · exact .ite ((h.upd rfl rfl rfl).ringStop ..) (h.upd rfl rfl rfl)

theorem State.Keeps.arriveEcc (h : r.Keeps s) (c : Nat) (r' : MemReq) (x4 : EccOutcome) : r.Keeps (s.arriveEcc c r' x4) := by
  unfold State.arriveEcc
  dsimp only
  split
  · exact h
  · exact .ite (h.count ..) h
  · exact .ite h (((h.noteUe ..).foldl (fun _ _ h => .ite h ((h.failRead ..).failRing ..)) _).upd rfl rfl rfl)

theorem State.Keeps.arrive (h : r.Keeps s) (c late : Nat) (ecc : EccOutcome) : r.Keeps (s.arrive c late ecc) := by
  unfold State.arrive
  dsimp only
  split
  · exact h
  · refine State.Keeps.unpark ?_ ..
    refine State.Keeps.arriveEcc ?_ ..
    split
    · exact .ite ((h.setCtl ..).until ..) (((h.setCtl ..).until ..).slotMiss ..)
    · exact (h.setCtl ..).until ..

theorem State.Keeps.execMemReadArrival (h : r.Keeps s) (c late : Nat) (ecc : EccOutcome) :
    Keeping r (execMemReadArrival c late ecc s) :=
  .inRange (h.arrive ..)

theorem State.Keeps.writeWindow (h : r.Keeps s) (win : MemWindow) (n : Nat) (v : Word) : r.Keeps (s.writeWindow win n v) := by
  unfold State.writeWindow
  exact .ite h (.ite (h.writeIgnored ..) (h.setReg ..))

theorem State.Keeps.execMemWindowWrite (h : r.Keeps s) (who : Requester) (win : MemWindow) (n : Nat) (v : Word) :
    Keeping r (execMemWindowWrite who win n v s) :=
  .inRange (h.gated (hk := h.writeWindow ..) ..)

theorem State.Keeps.writeMemWheel (h : r.Keeps s) (n : Nat) (v : Word) : r.Keeps (s.writeMemWheel n v) := by
  unfold State.writeMemWheel
  exact .ite (h.writeIgnored ..) (h.setCtl ..)

theorem State.Keeps.execMemWheelWrite (h : r.Keeps s) (who : Requester) (n : Nat) (v : Word) :
    Keeping r (execMemWheelWrite who n v s) :=
  .inRange (h.gated (hk := h.writeMemWheel ..) ..)

end Sys2Proof.Machine
end

