-- ==== Sys2Proof/Proofs/KeepsEngines.lean ====
section
/-!
SUPPORT. What every command keeps: the address generators, the tensor engine and the special functions.
-/

set_option Elab.async false

namespace Sys2Proof.Machine

open Sys2Proof

variable {r s : State}

theorem State.Keeps.claimUnits (h : r.Keeps s) (c : Cmd) (rs : List (Nat × Nat)) : r.Keeps (s.claimUnits c rs) := by
  unfold State.claimUnits
  exact (h.foldl (fun _ _ h => h.moved ..) _).foldl (fun _ _ h => h.requests ..) _

theorem State.Keeps.putPlane {x : Out} (h : r.Keeps x.s) (c : Cmd) (o : MapDesc) (f cb : Nat) (codes : List Nat) :
    r.Keeps (putPlane c o f cb codes x).1.s := by
  unfold Machine.putPlane
  exact .iteOn (fun x : Out × Nat => x.1.s) (h.outPut ..) (h.outPut ..)

theorem State.Keeps.putFrame {x : Out} (h : r.Keeps x.s) (c : Cmd) (o : MapDesc) (f n cb : Nat) (px : List (List Nat)) :
    r.Keeps (putFrame c o f n cb px x).1.s := by
  induction n generalizing cb px x with
  | zero => exact h
  | succ n ih => exact ih (h.putPlane ..) _ _

theorem State.Keeps.poolRunFlush {x : PoolRun} (h : r.Keeps x.out.s) (c : Cmd) (q : Pool) (last : Bool) :
    r.Keeps (x.flush c q last).out.s :=
  h.outPut ..

theorem State.Keeps.poolFrames {x : PoolRun} (h : r.Keeps x.out.s) (c : Cmd) (q : Pool) (ts : Nat) (tout : FVal) (n f : Nat) :
    r.Keeps (poolFrames c q ts tout n f x).out.s := by
  induction n generalizing f x with
  | zero => exact h
  | succ n ih =>
    unfold Machine.poolFrames
    refine .iteOn (fun x : PoolRun => x.out.s) h ?_
    dsimp only
    split
    · exact ((h.noteReads ..).out none).outStop ..
    · refine .iteOn (fun x : PoolRun => x.out.s) (ih ?_ _) (ih ?_ _)
      · exact State.Keeps.poolRunFlush (h.noteReads ..) ..
      · exact ((h.noteReads ..).out ..).putFrame ..

theorem State.Keeps.argmaxFrames {o : Out} (h : r.Keeps o.s) (c : Cmd) (q : Pool) (ts n f : Nat) :
    r.Keeps (argmaxFrames c q ts n f o).s := by
  induction n generalizing f o with
  | zero => exact h
  | succ n ih =>
    unfold Machine.argmaxFrames
    refine .iteOn Out.s h ?_
    dsimp only
    split
    · exact ((h.noteReads ..).out ..).outStop ..
    · refine ih (State.Keeps.foldlOn Out.s (h.noteReads ..) (fun o row h => ?_) _) _
      exact .iteOn Out.s (h.outPut ..) ((h.outPut ..).outPut ..)

theorem State.Keeps.runPool (h : r.Keeps s) (c : Cmd) : r.Keeps (s.runPool c) := by
  unfold State.runPool
  have claimed := h.claimUnits c ((Pool.of c.bytes).inm.ranges (Pool.of c.bytes).reads)
  refine .ite ?argmax ?pool
  case argmax => exact (((claimed.addCvt ..).out ..).argmaxFrames ..).outFinish ..
  case pool =>
    refine State.Keeps.outFinish (o := ⟨_, _⟩) (State.Keeps.count (State.Keeps.addCvt ?_ ..) ..) ..
    exact State.Keeps.poolFrames claimed ..

theorem State.Keeps.execPoolMax (h : r.Keeps s) (i : Issuer) : Keeping r (execPoolMax i s) :=
  .inRange (h.issueRow (hrun := fun _ _ h => h.runPool ..) ..)

theorem State.Keeps.execPoolAvgv (h : r.Keeps s) (i : Issuer) : Keeping r (execPoolAvgv i s) :=
  .inRange (h.issueRow (hrun := fun _ _ h => h.runPool ..) ..)

theorem State.Keeps.execPoolAvgf (h : r.Keeps s) (i : Issuer) : Keeping r (execPoolAvgf i s) :=
  .inRange (h.issueRow (hrun := fun _ _ h => h.runPool ..) ..)

theorem State.Keeps.execArgmax (h : r.Keeps s) (i : Issuer) : Keeping r (execArgmax i s) :=
  .inRange (h.issueRow (hrun := fun _ _ h => h.runPool ..) ..)

theorem State.Keeps.tloadTile (h : r.Keeps s) (c : Cmd) (t : Tload) (tsidx i kt : Nat) :
    r.Keeps (s.tloadTile c t tsidx i kt).s := by
  unfold State.tloadTile
  dsimp only
  split
  · exact (h.noteReads ..).out ..
  · exact .iteOn Out.s (((((h.noteReads ..).storeFor ..).setTe ..).note ..).out ..) (((h.noteReads ..).storeFor ..).out ..)

theorem State.Keeps.tloadTiles {o : Out} (h : r.Keeps o.s) (c : Cmd) (t : Tload) (tsidx : Nat) (l : List (Nat × Nat)) :
    r.Keeps (tloadTiles c t tsidx l o).s := by
  induction l generalizing o with
  | nil => exact h
  | cons x l ih =>
    unfold Machine.tloadTiles
    exact .iteOn Out.s h (ih (h.tloadTile ..))

theorem State.Keeps.doTload (h : r.Keeps s) (c : Cmd) (rows k : Nat) : r.Keeps (s.doTload c rows k).s :=
  ((((h.claimUnits ..).out ..).tloadTiles ..).addCvt ..).out ..

theorem State.Keeps.setReload (h : r.Keeps s) (p j eg : Nat) (l : List ReloadEntry) : r.Keeps (s.setReload p j eg l) :=
  h.upd rfl rfl rfl

theorem State.Keeps.runTload (h : r.Keeps s) (c : Cmd) : r.Keeps (s.runTload c) :=
  ((h.setReload ..).doTload ..).outFinish ..

theorem State.Keeps.execTload (h : r.Keeps s) (i : Issuer) : Keeping r (execTload i s) :=
  .inRange (h.issueRow (hrun := fun _ _ h => h.runTload ..) ..)

theorem State.Keeps.teWait (h : r.Keeps s) (eg : Nat) (t : TeCmd) : r.Keeps (s.teWait eg t) :=
  h.setTe ..

theorem State.Keeps.runMatmul (h : r.Keeps s) (c : Cmd) : r.Keeps (s.runMatmul c) :=
  h.teWait ..

theorem State.Keeps.execMatmul (h : r.Keeps s) (i : Issuer) : Keeping r (execMatmul i s) :=
  .inRange (h.issueRow (hrun := fun _ _ h => h.runMatmul ..) ..)

theorem State.Keeps.runConv (h : r.Keeps s) (c : Cmd) : r.Keeps (s.runConv c) :=
  (h.touchReads ..).teWait ..

theorem State.Keeps.execConv (h : r.Keeps s) (i : Issuer) : Keeping r (execConv i s) :=
  .inRange (h.issueRow (hrun := fun _ _ h => h.runConv ..) ..)

theorem State.Keeps.untilGrant (h : r.Keeps s) (eg n : Nat) : r.Keeps (s.untilGrant eg n) := by
  induction n generalizing s with
  | zero => exact h
  | succ n ih =>
    unfold State.untilGrant
    refine .ite h ?_
    split
    · exact ih (h.until ..)
    · exact h

theorem State.Keeps.grantSlots (h : r.Keeps s) (eg : Nat) : r.Keeps (s.grantSlots eg) := by
  unfold State.grantSlots
  dsimp only
  split
  · exact h
  · exact (((h.untilGrant ..).setTe ..).addWait ..).reachNext ..

theorem State.Keeps.execTeSlotGrant (h : r.Keeps s) (eg : Nat) : Keeping r (execTeSlotGrant eg s) :=
  .inRange (h.grantSlots ..)

theorem State.Keeps.storeUntagged (h : r.Keeps s) (eg a : Nat) (bs : List Byte) : r.Keeps (s.storeUntagged eg a bs) :=
  (h.store ..).setTe ..

theorem State.Keeps.convFill (h : r.Keeps s) (eg : Nat) (t : TeCmd) (mt : Nat) : r.Keeps (s.convFill eg t mt).1 := by
  unfold State.convFill
  dsimp only
  split
  · exact ((h.claimUnits ..).noteReads ..).addCvt ..
  · exact (((h.claimUnits ..).noteReads ..).addCvt ..).storeUntagged ..

theorem State.Keeps.setFlight (h : r.Keeps s) (eg : Nat) (t : TeCmd) : r.Keeps (s.setFlight eg t) :=
  h.setTe ..

theorem State.Keeps.arrayEnd (h : r.Keeps s) (eg : Nat) (t : TeCmd) (stop : Nat) : r.Keeps (s.arrayEnd eg t stop) :=
  ((h.until ..).setFlight ..).setTe ..

theorem State.Keeps.leaveTe (h : r.Keeps s) (eg : Nat) (t : TeCmd) : r.Keeps (s.leaveTe eg t) :=
  h.setFlight ..

theorem State.Keeps.loseSpill (h : r.Keeps s) (eg unit units : Nat) : r.Keeps (s.loseSpill eg unit units) :=
  h.draw.store ..

theorem State.Keeps.failTe (h : r.Keeps s) (eg : Nat) (t : TeCmd) (a : Nat) : r.Keeps (s.failTe eg t a) :=
  (State.Keeps.ite ((State.Keeps.ite (h.noteUe ..) h).leaveTe ..) (((State.Keeps.ite (h.noteUe ..) h).leaveTe ..).loseSpill ..)).finish ..

theorem State.Keeps.doStep (h : r.Keeps s) (eg : Nat) (t : TeCmd) (w mt nt j start : Nat) (fresh : Bool) :
    r.Keeps (s.doStep eg t w mt nt j start fresh) := by
  unfold State.doStep
  dsimp only
  split
  · exact h.failTe ..
  · exact (((h.act ..).store ..).addCvt ..).arrayEnd ..

theorem State.Keeps.reloadTile (h : r.Keeps s) (eg : Nat) (t : TeCmd) (x : Tile) (start : Nat) :
    r.Keeps (s.reloadTile eg t x start) :=
  (h.count ..).arrayEnd ..

theorem State.Keeps.spillTile (h : r.Keeps s) (eg : Nat) (t : TeCmd) (v : Tile) (u start : Nat) (x : Option Tile) :
    r.Keeps (s.spillTile eg t v u start x) := by
  unfold State.spillTile
  dsimp only
  split
  · exact .ite ((((h.store ..).setFld ..).store ..).arrayEnd ..) (((h.store ..).setFld ..).arrayEnd ..)
  · exact ((h.store ..).setFld ..).arrayEnd ..

theorem State.Keeps.stepAt (h : r.Keeps s) (eg : Nat) (t : TeCmd) (w mt nt j at0 : Nat) (fresh : Bool) :
    ArrayOp.Keeps r (s.stepAt eg t w mt nt j at0 fresh) := by
  have filled := h.convFill eg t mt
  unfold State.stepAt
  refine .ite trivial (.ite ?_ (h.doStep ..))
  split
  case h_1 s1 t1 a eq =>
    rw [eq] at filled
    exact filled.failTe ..
  case h_2 s1 t1 eq =>
    rw [eq] at filled
    exact (filled.act ..).doStep ..

theorem State.Keeps.arrayOp (h : r.Keeps s) (eg : Nat) (t : TeCmd) : ArrayOp.Keeps r (s.arrayOp eg t) := by
  unfold State.arrayOp
  dsimp only
  split
  · exact h.failTe ..
  · exact trivial
  · split
    · exact h.stepAt ..
    · exact .ite trivial (h.reloadTile ..)
    · split
      · split
        · exact h.stepAt ..
        · refine .ite trivial ?_
          split
          · exact h.failTe ..
          · exact (h.store ..).reloadTile ..
      · refine .ite trivial ?_
        split
        · exact trivial
        · refine .ite trivial ?_
          split
          · exact h.failTe ..
          · exact h.spillTile ..

theorem State.Keeps.matStep (h : r.Keeps s) (eg uid fuel : Nat) : r.Keeps (s.matStep eg uid fuel) := by
  induction fuel generalizing s with
  | zero => exact h
  | succ fuel ih =>
    unfold State.matStep
    split
    · exact h
    case h_2 t found =>
      have op := h.arrayOp eg t
      generalize s.arrayOp eg t = x at op
      cases x with
      | none => exact h
      | stepped s1 => exact op
      | more s1 => exact ih op

theorem State.Keeps.putMatRows {o : Out} (h : r.Keeps o.s) (c : Cmd) (a0 ld size row : Nat) (l : List (List Nat)) :
    r.Keeps (putMatRows c a0 ld size row l o).s := by
  induction l generalizing row o with
  | nil => exact h
  | cons x l ih => exact ih (h.outPut ..) _

theorem State.Keeps.putConvRaw {o : Out} (h : r.Keeps o.s) (c : Cmd) (undef : Bool) (m : MapDesc) (nt row : Nat) (l : List (List Nat)) :
    r.Keeps (putConvRaw c undef m nt row l o).s := by
  induction l generalizing row o with
  | nil => exact h
  | cons x l ih => exact ih (h.foldlOn Out.s (fun _ _ h => h.outPut ..) _) _

theorem State.Keeps.frcRunPixel {x : FrcRun} (h : r.Keeps x.out.s) (c : Cmd) (undef : Bool) (m : MapDesc) (f cb pos : Nat)
    (codes : List Nat) : r.Keeps (x.pixel c undef m f cb pos codes).out.s := by
  unfold FrcRun.pixel
  exact .iteOn (fun x : FrcRun => x.out.s) h (h.outPut ..)

theorem State.Keeps.putConvFrc {x : FrcRun} (h : r.Keeps x.out.s) (c : Cmd) (undef : Bool) (m : MapDesc) (nt row : Nat)
    (l : List (List Nat)) : r.Keeps (putConvFrc c undef m nt row l x).out.s := by
  induction l generalizing row x with
  | nil => exact h
  | cons y l ih => exact ih (h.foldlOn (fun x : FrcRun => x.out.s) (fun _ _ h => h.frcRunPixel ..) _) _

theorem State.Keeps.endTe (h : r.Keeps s) (eg : Nat) (t : TeCmd) (stop : Nat) : r.Keeps (s.endTe eg t stop) :=
  (State.Keeps.ite (h.leaveTe ..) ((h.leaveTe ..).loseSpill ..)).finish ..

theorem State.Keeps.matDrain (h : r.Keeps s) (eg : Nat) (t : TeCmd) (d : Drain) : r.Keeps (s.matDrain eg t d) := by
  unfold State.matDrain
  dsimp only
  refine .ite h ?_
  split
  · exact h.failTe ..
  · generalize written : (if t.mat.conv then _ else _ : FrcRun) = x
    have kept : r.Keeps x.out.s := by
      rw [← written]
      refine .iteOn (fun x : FrcRun => x.out.s) (.iteOn (fun x : FrcRun => x.out.s) ?_ ?_) ?_
      · exact State.Keeps.putConvRaw h ..
      · exact State.Keeps.putConvFrc h ..
      · exact State.Keeps.putMatRows h ..
    split
    · exact kept.failTe ..
    · exact .ite ((((((kept.until ..).addCvt ..).count ..).setFlight ..).setTe ..).endTe ..)
        (((((kept.until ..).addCvt ..).count ..).setFlight ..).setTe ..)

theorem State.Keeps.execTileDrain (h : r.Keeps s) (eg : Nat) : Keeping r (execTileDrain eg s) := by
  refine Keeping.inRange ?_
  split
  · exact h
  · exact h.matDrain ..

theorem State.Keeps.setSfuTable (h : r.Keeps s) (eg slot copy : Nat) (t : List Byte) : r.Keeps (s.setSfuTable eg slot copy t) :=
  h.upd rfl rfl rfl

theorem State.Keeps.sfuFlipSlot (h : r.Keeps s) (eg slot : Nat) : r.Keeps (s.sfuFlipSlot eg slot) := by
  unfold State.sfuFlipSlot
  exact .ite h (((h.setFld ..).setFld ..).setFld ..)

theorem State.Keeps.sfuFlip (h : r.Keeps s) (eg : Nat) : r.Keeps (s.sfuFlip eg) := by
  unfold State.sfuFlip
  exact .ite h (h.foldl (fun _ _ h => h.sfuFlipSlot ..) _)

theorem State.Keeps.sfuRunFlushBursts {x : SfuRun} (h : r.Keeps x.out.s) (c : Cmd) (q : Sfuop) (last : Bool) :
    r.Keeps (x.flushBursts c q last).out.s :=
  h.outPut ..

/-- The row's results, written along an axis of a map, as whole bursts or as one row. -/
theorem State.Keeps.sfuRunPutRow {x : SfuRun} (h : r.Keeps x.out.s) (c : Cmd) (q : Sfuop) (tout : FVal) (rows len row : Nat)
    (y : RowOut) : r.Keeps (x.putRow c q tout rows len row y).out.s := by
  unfold SfuRun.putRow
  dsimp only
  generalize results : (if q.axis then _ else _ : SfuRun) = z
  have kept : r.Keeps z.out.s := by
    rw [← results]
    refine .iteOn (fun x : SfuRun => x.out.s) ?axis (.iteOn (fun x : SfuRun => x.out.s) ?narrow ?wide)
    case axis =>
      refine State.Keeps.foldlOn (b := { x with flush := x.flush + y.flush, domain := x.domain + y.domain }) (fun x : SfuRun => x.out.s) h
        (fun z block h => ?_) _
      exact .iteOn (fun x : SfuRun => x.out.s) h (State.Keeps.outPut h ..)
    case narrow =>
      refine State.Keeps.sfuRunFlushBursts ?_ ..
      exact h
    case wide =>
      dsimp only
      exact h.outPut ..
  clear results
  split
  · dsimp only
    exact kept.outPut ..
  · exact kept

theorem State.Keeps.sfuRowsGo {x : SfuRun} (h : r.Keeps x.out.s) (c : Cmd) (q : Sfuop) (tab : Nat → List Byte) (tout : FVal)
    (gain : Option (List FVal)) (rows len : Nat) (reads : Nat → List (Nat × Nat)) (row : Nat) (xs gs : List (List FVal)) :
    r.Keeps (sfuRowsGo c q tab tout gain rows len reads row xs gs x).out.s := by
  induction xs generalizing row gs x with
  | nil => exact h
  | cons y xs ih =>
    unfold Machine.sfuRowsGo
    refine .iteOn (fun x : SfuRun => x.out.s) h ?_
    dsimp only
    split
    · exact State.Keeps.outStop (h.noteReads ..) ..
    · exact ih (State.Keeps.sfuRunPutRow (h.noteReads ..) ..) _ _

theorem State.Keeps.runSfu (h : r.Keeps s) (c : Cmd) : r.Keeps (s.runSfu c) := by
  unfold State.runSfu
  dsimp only
  refine State.Keeps.outFinish (o := ⟨_, _⟩) (State.Keeps.count
    (State.Keeps.count (State.Keeps.addCvt (State.Keeps.outStop ?out ..) ..) ..) ..) ..
  generalize ran : (if ((Sfuop.of c.bytes).axis && _ && _) = true then _ else _ : SfuRun) = x
  have kept : r.Keeps x.out.s := by
    rw [← ran]
    refine .iteOn (fun x : SfuRun => x.out.s) (State.Keeps.sfuRunFlushBursts ?_ ..) ?_
    all_goals exact State.Keeps.sfuRowsGo (((h.sfuFlip ..).claimUnits ..).noteReads ..) ..
  exact .iteOn Out.s (kept.noteReads ..) kept

theorem State.Keeps.sfuRowAs (h : r.Keeps s) (i : Issuer) (held : State → Decoded → Bool) (mine : List Byte → Bool)
    (check : State → Cmd → Verdict) (run : State → Cmd → State) (hrun : ∀ y0 y1, r.Keeps y0 → r.Keeps (run y0 y1)) :
    r.Keeps (s.sfuRowAs i held mine check run) := by
  unfold State.sfuRowAs
  dsimp only
  split
  · exact h.issueRow (hrun := fun _ _ h => hrun _ _ h) ..
  · refine .ite (h.noteWait ..) (.ite (State.Keeps.sfuFlip ?_ ..) ?_)
    all_goals exact h.issueRow (hrun := fun _ _ h => hrun _ _ h) ..

theorem State.Keeps.sfuRow (h : r.Keeps s) (i : Issuer) (mine : List Byte → Bool) (check : State → Cmd → Verdict)
    (run : State → Cmd → State) (hrun : ∀ y0 y1, r.Keeps y0 → r.Keeps (run y0 y1)) : r.Keeps (s.sfuRow i mine check run) := by
  unfold State.sfuRow
  exact h.sfuRowAs (hrun := fun _ _ h => hrun _ _ h) ..

theorem State.Keeps.execEval (h : r.Keeps s) (i : Issuer) : Keeping r (execEval i s) :=
  .inRange (h.sfuRow (hrun := fun _ _ h => h.runSfu ..) ..)

theorem State.Keeps.execGate (h : r.Keeps s) (i : Issuer) : Keeping r (execGate i s) :=
  .inRange (h.sfuRow (hrun := fun _ _ h => h.runSfu ..) ..)

theorem State.Keeps.execRmsnorm (h : r.Keeps s) (i : Issuer) : Keeping r (execRmsnorm i s) :=
  .inRange (h.sfuRow (hrun := fun _ _ h => h.runSfu ..) ..)

theorem State.Keeps.execSoftmax (h : r.Keeps s) (i : Issuer) : Keeping r (execSoftmax i s) :=
  .inRange (h.sfuRow (hrun := fun _ _ h => h.runSfu ..) ..)

theorem State.Keeps.execSmrecomp (h : r.Keeps s) (i : Issuer) : Keeping r (execSmrecomp i s) :=
  .inRange (h.sfuRow (hrun := fun _ _ h => h.runSfu ..) ..)

theorem State.Keeps.runTblload (h : r.Keeps s) (c : Cmd) : r.Keeps (s.runTblload c) :=
  ((((((h.sfuFlip ..).touchRead ..).note ..).note ..).setSfuTable ..).setFld ..).finish ..

theorem State.Keeps.execTblload (h : r.Keeps s) (i : Issuer) : Keeping r (execTblload i s) :=
  .inRange (h.sfuRowAs (hrun := fun _ _ h => h.runTblload ..) ..)

end Sys2Proof.Machine
end

