-- ==== Sys2Proof/Proofs/KeepsAttention.lean ====
section
/-!
SUPPORT. What every command keeps: attention and the safeguards.
-/

set_option Elab.async false

namespace Sys2Proof.Machine

open Sys2Proof

variable {r s : State}

theorem State.Keeps.runPatgen (h : r.Keeps s) (c : Cmd) : r.Keeps (s.runPatgen c) := by
  unfold State.runPatgen
  dsimp only
  split
  · exact ((State.Keeps.ite h (h.touchRead ..)).out ..).outFinish ..
  · exact .ite ((State.Keeps.ite h (h.touchRead ..)).finish ..) ((((State.Keeps.ite h (h.touchRead ..)).out ..).outPut ..).outFinish ..)

theorem State.Keeps.execPatgen (h : r.Keeps s) (i : Issuer) : Keeping r (execPatgen i s) :=
  .inRange (h.issueRow (hrun := fun _ _ h => h.runPatgen ..) ..)

theorem State.Keeps.appendHeads {x : AppendRun} (h : r.Keeps x.out.s) (c : Cmd) (a : Append) (group ktile vmap : Nat)
    (ka va : Nat → Nat) (n i : Nat) : r.Keeps (appendHeads c a group ktile vmap ka va n i x).out.s := by
  induction n generalizing i x with
  | zero => exact h
  | succ n ih =>
    unfold Machine.appendHeads
    refine .iteOn (fun x : AppendRun => x.out.s) h ?_
    dsimp only
    split
    · exact ((h.noteReads ..).out none).outStop ..
    · refine ih ?_ _
      dsimp only
      exact ((((h.noteReads ..).out none).outPut ..).outPut ..).outPut ..

/-- The state that the run of an APPEND has reached. -/
def AppendRun.Keeps (r : State) (x : AppendRun) : Prop := r.Keeps x.out.s

theorem State.Keeps.appendTile {x : AppendRun} (h : r.Keeps x.out.s) (c : Cmd) (a : Append) (ktile vmap : Nat) (ka va : Nat → Nat) :
    r.Keeps (appendTile c a ktile vmap ka va x).out.s := by
  suffices go : AppendRun.Keeps r (Machine.appendTile c a ktile vmap ka va x) from go
  have stop (f : Option (Byte × Nat)) : r.Keeps (x.out.stop f).s := h.outStop ..
  unfold Machine.appendTile
  refine iteInduction (fun _ => h) fun _ => ?_
  lift_lets
  intro ea s e first len r1
  refine iteInduction (fun _ => stop _) fun _ => ?_
  split
  · exact stop _
  · split
    · exact stop _
    · refine iteInduction (fun _ => stop _) fun _ => iteInduction (fun _ => stop _) fun _ => ?_
      split
      · exact stop _
      · exact State.Keeps.appendHeads (h.touchRead ..) ..

theorem State.Keeps.appendRunFinish {x : AppendRun} (h : r.Keeps x.out.s) (c : Cmd) : r.Keeps (x.finish c) :=
  h.outFinish ..

theorem State.Keeps.runAppendDirect (h : r.Keeps s) (c : Cmd) : r.Keeps (s.runAppendDirect c) := by
  unfold State.runAppendDirect
  dsimp only
  split
  · exact (h.out ..).outFinish ..
  · exact State.Keeps.appendRunFinish (State.Keeps.appendTile ((h.touchRead ..).claimUnits ..) ..) ..

theorem State.Keeps.stagingFlush {x : AppendRun} (h : r.Keeps x.out.s) (c : Cmd) (a : Append) (g : Staging) :
    r.Keeps (stagingFlush c a g x).2.out.s := by
  unfold Machine.stagingFlush
  have tile := fun ktile vmap ka va l => State.Keeps.appendTile (x := { x with out := { x.out with s := x.out.s.claimUnits c l } })
    (h.claimUnits ..) c a ktile vmap ka va
  exact .iteOn (fun x : Staging × AppendRun => x.2.out.s) (tile ..) (tile ..)

theorem State.Keeps.stagingRows {x : AppendRun} (h : r.Keeps x.out.s) (c : Cmd) (a : Append) (map n i : Nat) (g : Staging) :
    r.Keeps (stagingRows c a map n i g x).2.out.s := by
  induction n generalizing i g x with
  | zero => exact h
  | succ n ih =>
    unfold Machine.stagingRows
    refine .iteOn (fun x : Staging × AppendRun => x.2.out.s) h ?_
    dsimp only
    split
    · exact h.outStop ..
    · refine ih (.iteOn (fun x : Staging × AppendRun => x.2.out.s) (State.Keeps.stagingFlush ?_ ..) ?_) _ _
      all_goals exact State.Keeps.outPut (State.Keeps.outPut (h.noteReads ..) ..) ..

theorem State.Keeps.runAppendStaged (h : r.Keeps s) (c : Cmd) : r.Keeps (s.runAppendStaged c) := by
  unfold State.runAppendStaged
  dsimp only
  split
  · exact (h.out ..).outFinish ..
  · refine State.Keeps.appendRunFinish (State.Keeps.outPut (State.Keeps.out ?_ ..) ..) ..
    refine .iteOn (fun x : Staging × AppendRun => x.2.out.s) (State.Keeps.stagingFlush (State.Keeps.stagingRows ?_ ..) ..)
      (State.Keeps.stagingRows ?_ ..)
    all_goals exact (((State.Keeps.ite h h.draw).touchRead ..).touchRead ..).claimUnits ..

theorem State.Keeps.execAppendDirect (h : r.Keeps s) (i : Issuer) : Keeping r (execAppendDirect i s) :=
  .inRange (h.issueRow (hrun := fun _ _ h => h.runAppendDirect ..) ..)

theorem State.Keeps.execAppendStaged (h : r.Keeps s) (i : Issuer) : Keeping r (execAppendStaged i s) :=
  .inRange (h.issueRow (hrun := fun _ _ h => h.runAppendStaged ..) ..)

theorem State.Keeps.runAttn (h : r.Keeps s) (c : Cmd) : r.Keeps (s.runAttn c) :=
  ((h.sfuFlip ..).touchReads ..).teWait ..

theorem State.Keeps.execAttn (h : r.Keeps s) (i : Issuer) : Keeping r (execAttn i s) :=
  .inRange (h.sfuRow (hrun := fun _ _ h => h.runAttn ..) ..)

theorem State.Keeps.attnEnd (h : r.Keeps s) (eg : Nat) (t : TeCmd) (st : Byte) (addr stop : Nat) :
    r.Keeps (s.attnEnd eg t st addr stop) :=
  (((State.Keeps.ite (h.noteUe ..) h).leaveTe ..).loseSpill ..).finish ..

theorem State.Keeps.putHead {o : Out} (h : r.Keeps o.s) (c : Cmd) (a : Attn) (qrows hd : Nat) (l : List (Nat × List Nat)) (k : Counts) :
    r.Keeps (putHead c a qrows hd l o k).1.s := by
  induction l generalizing o k with
  | nil => exact h
  | cons x l ih => exact ih (h.outPut ..) _

theorem State.Keeps.putEmpty {o : Out} (h : r.Keeps o.s) (c : Cmd) (a : Attn) (qrows n : Nat) :
    r.Keeps (putEmpty c a qrows n o).s := by
  induction n with
  | zero => exact h
  | succ n ih =>
    have rows := ih.foldlOn Out.s (fun o row h => State.Keeps.outPut (o := o) h c false (a.o + n * a.ohs + row * a.old)
      ((List.replicate a.dh (outElem a.cvt 0 FVal.zero).1).flatMap (leBytes a.outf.bytes))) (List.range qrows)
    exact .iteOn Out.s rows (rows.foldlOn Out.s (fun _ _ h => h.outPut ..) _)

theorem State.Keeps.attnCompute (h : r.Keeps s) (eg : Nat) (t : TeCmd) (tile sm page : Nat) (e2m1 : Bool) (vmap start : Nat) :
    r.Keeps (s.attnCompute eg t tile sm page e2m1 vmap start) := by
  unfold State.attnCompute
  dsimp only
  split
  · exact h.attnEnd ..
  · have rows {b : Out} {α : Type} {g : Out → α → Out} (hb : r.Keeps b.s)
        (hg : ∀ o x, r.Keeps o.s → r.Keeps (g o x).s) (l : List α) :=
      hb.foldlOn Out.s hg l
    generalize written : (if t.kt + 1 = t.n then _ else _ : Out × Counts) = x
    have kept : r.Keeps x.1.s := by
      rw [← written]
      refine .iteOn (fun x : Out × Counts => x.1.s) (State.Keeps.putHead ?_ ..) ?_
      all_goals exact rows (h.touchReads ..) (fun _ _ h => h.outPut ..) _
    clear written
    split
    · exact kept.attnEnd ..
    · refine .ite (State.Keeps.attnEnd ?_ ..) (State.Keeps.setTe (State.Keeps.setFlight ?_ ..) ..)
      all_goals exact (((kept.act ..).until ..).addCvt ..).count ..

theorem State.Keeps.attnStep (h : r.Keeps s) (eg : Nat) (t0 : TeCmd) : r.Keeps (s.attnStep eg t0) := by
  unfold State.attnStep
  dsimp only
  split
  · exact h.attnEnd ..
  · refine .ite ?_ ?_
    · split
      · exact (((h.touchRead ..).out ..).putEmpty ..).attnEnd ..
      · exact (((h.touchRead ..).out ..).putEmpty ..).attnEnd ..
    · split
      · exact h.attnEnd ..
      · split
        · exact h.attnEnd ..
        · exact .ite ((State.Keeps.ite h (h.touchRead ..)).attnCompute ..) h

theorem State.Keeps.execTeStep (h : r.Keeps s) (eg k : Nat) : Keeping r (execTeStep eg k s) := by
  refine Keeping.inRange ?_
  split
  · exact h
  · exact .ite h (.ite (h.attnStep ..) (h.matStep ..))

theorem State.Keeps.memAdd (h : r.Keeps s) (c : Cmd) (a v : Nat) : r.Keeps (s.memAdd c a v) :=
  ((h.note ..).storeFor ..).touch ..

theorem State.Keeps.sentProbes {x : SentRun} (h : r.Keeps x.s) (c : Cmd) (q : Sentinel) (k : Nat) (oa ob : SentOp) (entry : Nat)
    (l : List Probe) : r.Keeps (sentProbes c q k oa ob entry l x).s := by
  induction l generalizing x with
  | nil => exact h
  | cons y l ih =>
    have read := h.touchReads c (readsUpTo (x.s.runProbe c q k oa ob y).fail (x.s.probeReads c.part q k oa ob y))
    have probed := fun a v t => (read.memAdd c a v).note c.uid t
    unfold Machine.sentProbes
    refine .iteOn SentRun.s h ?_
    dsimp only
    split
    · exact read
    · exact read
    · exact ih (State.Keeps.count (State.Keeps.count (.ite ((probed ..).memAdd ..) (probed ..)) ..) ..)

theorem State.Keeps.runSentinel (h : r.Keeps s) (c : Cmd) : r.Keeps (s.runSentinel c) := by
  unfold State.runSentinel
  have probed := fun q k oa ob entry ps => State.Keeps.addCvt
    (State.Keeps.sentProbes (x := ⟨s, false, 0, 0, ([], 0), ([], 0), none⟩) h c q k oa ob entry ps) c.eg
  refine State.Keeps.outFinish (o := ⟨_, _⟩) (.ite (State.Keeps.event ?_ ..) ?_) ..
  · exact .ite (State.Keeps.touch (State.Keeps.storeFor (State.Keeps.note (probed ..) ..) ..) ..) (probed ..)
  · exact .ite (State.Keeps.touch (State.Keeps.storeFor (State.Keeps.note (probed ..) ..) ..) ..) (probed ..)

theorem State.Keeps.execSentinel (h : r.Keeps s) (i : Issuer) : Keeping r (execSentinel i s) :=
  .inRange (h.issueRow (hrun := fun _ _ h => h.runSentinel ..) ..)

theorem State.Keeps.escalateEntries {o : Out} (h : r.Keeps o.s) (c : Cmd) (pass n e : Nat) :
    r.Keeps (escalateEntries c pass n e o).s := by
  induction n generalizing e o with
  | zero => exact h
  | succ n ih =>
    unfold Machine.escalateEntries
    refine .iteOn Out.s h ?_
    dsimp only
    split
    · exact h.outStop ..
    · exact ih (((State.Keeps.ite (((h.note ..).storeFor ..).storeFor ..) (h.note ..)).storeFor ..).touch ..) _

theorem State.Keeps.runEscalate (h : r.Keeps s) (c : Cmd) : r.Keeps (s.runEscalate c) :=
  ((h.out ..).escalateEntries ..).outFinish ..

theorem State.Keeps.execEscalate (h : r.Keeps s) (i : Issuer) : Keeping r (execEscalate i s) :=
  .inRange (h.issueRow (hrun := fun _ _ h => h.runEscalate ..) ..)

end Sys2Proof.Machine
end

