-- ==== Sys2Proof/Proofs/KeepsJobs.lean ====
section
/-!
SUPPORT. What every command keeps: wheels, jobs and clears.
-/

set_option Elab.async false

namespace Sys2Proof.Machine

open Sys2Proof

variable {r s : State}

theorem State.Keeps.takeWheelWrites (h : r.Keeps s) (eg : Nat) : r.Keeps (s.takeWheelWrites eg) := by
  unfold State.takeWheelWrites
  dsimp only
  refine State.Keeps.setWheel ?_ ..
  split
  · exact (h.foldl (fun _ _ h => h.setReg ..) _).setReg ..
  · exact h.foldl (fun _ _ h => h.setReg ..) _

theorem State.Keeps.entryOverruns (h : r.Keeps s) (eg : Nat) : r.Keeps (s.entryOverruns eg) := by
  unfold State.entryOverruns
  exact h.foldl (fun _ _ h => .ite (h.noteOverrun ..) h) _

theorem State.Keeps.startWheel (h : r.Keeps s) (eg t : Nat) : r.Keeps (s.startWheel eg t) :=
  ((h.takeWheelWrites ..).setFld ..).setWheel ..

theorem State.Keeps.holdOverruns (h : r.Keeps s) (eg : Nat) : r.Keeps (s.holdOverruns eg) := by
  unfold State.holdOverruns
  exact h.foldl (fun _ _ h => h.holdOverrun ..) _

theorem State.Keeps.entryHeld (h : r.Keeps s) (eg : Nat) : r.Keeps (s.entryHeld eg) :=
  (h.until ..).holdOverruns ..

theorem State.Keeps.nextEntry (h : r.Keeps s) (eg : Nat) : r.Keeps (s.nextEntry eg) :=
  (State.Keeps.ite (((h.until ..).setFld ..).setWheel ..) ((h.until ..).startWheel ..)).entryOverruns ..

theorem State.Keeps.execWheelEntryStart (h : r.Keeps s) (eg : Nat) : Keeping r (execWheelEntryStart eg s) :=
  .inRange (.ite h (.ite (h.entryHeld ..) (h.nextEntry ..)))

theorem State.Keeps.writeWheel (h : r.Keeps s) (isLen : Bool) (n : Nat) (v : Word) : r.Keeps (s.writeWheel isLen n v) := by
  unfold State.writeWheel
  exact .ite (h.writeIgnored ..) (.ite (h.setWheel ..) (h.setWheel ..))

theorem State.Keeps.execCpWheelWrite (h : r.Keeps s) (who : Requester) (isLen : Bool) (n : Nat) (v : Word) :
    Keeping r (execCpWheelWrite who isLen n v s) :=
  .inRange (h.gated (hk := h.writeWheel ..) ..)

theorem State.Keeps.setSaved (h : r.Keeps s) (p j : Nat) (l : List SavedJob) : r.Keeps (s.setSaved p j l) :=
  h.upd rfl rfl rfl

theorem State.Keeps.writeJob (h : r.Keeps s) (n : Nat) (v : Word) : r.Keeps (s.writeJob n v) := by
  unfold State.writeJob
  exact .ite (h.writeIgnored ..) ((h.setReg ..).settleJob ..)

theorem State.Keeps.execCpJobWrite (h : r.Keeps s) (who : Requester) (n : Nat) (v : Word) : Keeping r (execCpJobWrite who n v s) :=
  .inRange (h.gated (hk := h.writeJob ..) ..)

theorem State.Keeps.writePartcfg (h : r.Keeps s) (p : Nat) (v : Word) : r.Keeps (s.writePartcfg p v) := by
  unfold State.writePartcfg
  exact .ite (.ite (((h.setFld ..).setFld ..).setFld ..) ((h.setFld ..).setFld ..)) (h.setFld ..)

theorem State.Keeps.execSysPartcfgWrite (h : r.Keeps s) (who : Requester) (p : Nat) (v : Word) :
    Keeping r (execSysPartcfgWrite who p v s) :=
  .inRange (h.gated (hk := h.writePartcfg ..) ..)

theorem State.Keeps.untilUnits (h : r.Keeps s) (p j eg : Nat) : r.Keeps (s.untilUnits p j eg) := by
  unfold State.untilUnits
  exact .ite h (h.until ..)

theorem State.Keeps.settleSave (h : r.Keeps s) (p j : Nat) : r.Keeps (s.settleSave p j) := by
  unfold State.settleSave
  exact .ite (h.setFld ..) h

theorem State.Keeps.saveJob (h : r.Keeps s) (p j : Nat) : r.Keeps (s.saveJob p j) := by
  unfold State.saveJob
  exact .ite (h.writeIgnored ..) (.ite (h.setFld ..) (.ite (h.event ..) ((h.upd rfl rfl rfl).setFld ..)))

theorem State.Keeps.execJobSave (h : r.Keeps s) (who : Requester) (p j : Nat) : Keeping r (execJobSave who p j s) :=
  .inRange (h.gated (hk := h.saveJob ..) ..)

theorem State.Keeps.saveOn (h : r.Keeps s) (p j eg : Nat) : r.Keeps (s.saveOn p j eg) :=
  (((((h.until ..).draw).store ..).touch ..).setTe ..).setSaved ..

theorem State.Keeps.execSaveBegin (h : r.Keeps s) (eg j : Nat) : Keeping r (execSaveBegin eg j s) := by
  refine Keeping.inRange ?_
  split
  · exact h
  · exact .ite h ((State.Keeps.ite (h.untilUnits ..) ((h.untilUnits ..).saveOn ..)).settleSave ..)

theorem State.Keeps.reloadAll {o : Out} (h : r.Keeps o.s) (p j eg : Nat) (l : List ReloadEntry) :
    r.Keeps (reloadAll p j eg l o).s := by
  induction l generalizing o with
  | nil => exact h
  | cons e l ih =>
    unfold Machine.reloadAll
    exact .iteOn Out.s h (ih (h.doTload ..))

theorem State.Keeps.restoreSlots (h : r.Keeps s) (x : SavedJob) (map : List (Nat × Nat)) : r.Keeps (s.restoreSlots x map) := by
  unfold State.restoreSlots
  exact (State.Keeps.ite h h.draw).foldl (fun _ _ h => h.store ..) _

theorem State.Keeps.resumeOn (h : r.Keeps s) (p j eg : Nat) : r.Keeps (s.resumeOn p j eg) := by
  unfold State.resumeOn
  dsimp only
  split
  · exact (State.Keeps.ite (((h.out ..).reloadAll ..).noteUe ..) ((h.out ..).reloadAll ..)).foldl (fun _ _ h => h.finish ..) _
  · split
    · exact (h.out ..).reloadAll ..
    · exact ((((h.out ..).reloadAll ..).restoreSlots ..).touch ..).setTe ..

theorem State.Keeps.resumeJob (h : r.Keeps s) (p j : Nat) : r.Keeps (s.resumeJob p j) := by
  unfold State.resumeJob
  exact .ite (h.writeIgnored ..) (((((h.foldl (fun _ _ h => h.resumeOn ..) _).setSaved ..).setFld ..).setJob ..).settleJob ..)

theorem State.Keeps.execJobResume (h : r.Keeps s) (who : Requester) (p j : Nat) : Keeping r (execJobResume who p j s) :=
  .inRange (h.gated (hk := h.resumeJob ..) ..)

theorem State.Keeps.clearJobStats (h : r.Keeps s) (p j : Nat) : r.Keeps (s.clearJobStats p j) := by
  unfold State.clearJobStats
  exact ((h.foldl (fun _ _ h => h.setReg ..) _).setReg ..).setReg ..

theorem State.Keeps.execJobStatsClear (h : r.Keeps s) (who : Requester) (p j : Nat) : Keeping r (execJobStatsClear who p j s) :=
  .inRange (h.gated (hk := h.clearJobStats ..) ..)

theorem State.Keeps.writeJctl (h : r.Keeps s) (v : Word) : r.Keeps (s.writeJctl v) := by
  unfold State.writeJctl
  dsimp only
  split
  · exact h.saveJob ..
  · exact h.resumeJob ..
  · exact h.clearJobStats ..
  · exact h

theorem State.Keeps.writeQjob (h : r.Keeps s) (q : Nat) (v : Word) : r.Keeps (s.writeQjob q v) := by
  unfold State.writeQjob
  exact .ite h (h.setFld ..)

theorem State.Keeps.clearCvt (h : r.Keeps s) (n : Nat) : r.Keeps (s.clearCvt n) :=
  (h.setReg ..).setReg ..

theorem State.Keeps.clearMem (h : r.Keeps s) (n : Nat) : r.Keeps (s.clearMem n) :=
  (h.setReg ..).setReg ..

theorem State.Keeps.clearTrn (h : r.Keeps s) (n : Nat) : r.Keeps (s.clearTrn n) :=
  (h.setReg ..).setReg ..

theorem State.Keeps.clearPwr (h : r.Keeps s) : r.Keeps s.clearPwr := by
  unfold State.clearPwr
  exact (h.foldl (fun _ _ h => h.setReg ..) _).setFld ..

theorem State.Keeps.clearDet (h : r.Keeps s) (n : Nat) : r.Keeps (s.clearDet n) :=
  (h.setFld ..).setFld ..

theorem State.Keeps.execTeCvtclr (h : r.Keeps s) (who : Requester) (n : Nat) : Keeping r (execTeCvtclr who n s) :=
  .inRange (h.gated (hk := h.clearCvt ..) ..)

theorem State.Keeps.execTeSpillclr (h : r.Keeps s) (who : Requester) (n : Nat) : Keeping r (execTeSpillclr who n s) :=
  .inRange (h.gated (hk := h.setReg ..) ..)

theorem State.Keeps.execEgSentclr (h : r.Keeps s) (who : Requester) (n : Nat) : Keeping r (execEgSentclr who n s) :=
  .inRange (h.gated (hk := h.setReg ..) ..)

theorem State.Keeps.execSfuStatclr (h : r.Keeps s) (who : Requester) (n : Nat) : Keeping r (execSfuStatclr who n s) :=
  .inRange (h.gated (hk := h.setReg ..) ..)

theorem State.Keeps.execCpStatclr (h : r.Keeps s) (who : Requester) (n : Nat) : Keeping r (execCpStatclr who n s) :=
  .inRange (h.gated (hk := h.setFld ..) ..)

theorem State.Keeps.execMemStatclr (h : r.Keeps s) (who : Requester) (n : Nat) : Keeping r (execMemStatclr who n s) :=
  .inRange (h.gated (hk := h.clearMem ..) ..)

theorem State.Keeps.execCmpStatclr (h : r.Keeps s) (who : Requester) (n : Nat) : Keeping r (execCmpStatclr who n s) :=
  .inRange (h.gated (hk := h.setReg ..) ..)

theorem State.Keeps.execLnkStatclr (h : r.Keeps s) (who : Requester) (n : Nat) : Keeping r (execLnkStatclr who n s) :=
  .inRange (h.gated (hk := h.setReg ..) ..)

theorem State.Keeps.execEthDropclr (h : r.Keeps s) (who : Requester) (n : Nat) : Keeping r (execEthDropclr who n s) :=
  .inRange (h.gated (hk := h.setReg ..) ..)

theorem State.Keeps.execTrnStatclr (h : r.Keeps s) (who : Requester) (n : Nat) : Keeping r (execTrnStatclr who n s) :=
  .inRange (h.gated (hk := h.clearTrn ..) ..)

theorem State.Keeps.execPwrStatclr (h : r.Keeps s) (who : Requester) : Keeping r (execPwrStatclr who s) :=
  .next (h.gated (hk := h.clearPwr) ..)

theorem State.Keeps.execSysDetclr (h : r.Keeps s) (who : Requester) (n : Nat) : Keeping r (execSysDetclr who n s) :=
  .inRange (h.gated (hk := h.clearDet ..) ..)

theorem State.Keeps.execCpWstatclr (h : r.Keeps s) (who : Requester) (n : Nat) : Keeping r (execCpWstatclr who n s) :=
  .inRange (h.gated (hk := h.setFld ..) ..)

theorem State.Keeps.execErrclr (h : r.Keeps s) (who : Requester) (n : Nat) : Keeping r (execErrclr who n s) :=
  .inRange (h.gated (hk := h.setReg ..) ..)

/-- The CLEAR action of a register keeps. -/
theorem State.Keeps.clearOf (h : r.Keeps s) {n : RegName} {i : Nat} {t : State} (clears : s.clearOf n i = some t) : r.Keeps t := by
  unfold State.clearOf at clears
  split at clears
  all_goals cases clears
  · exact h.clearCvt ..
  · exact h.setReg ..
  · exact h.setReg ..
  · exact h.setReg ..
  · exact h.setFld ..
  · exact h.clearMem ..
  · exact h.setReg ..
  · exact h.setReg ..
  · exact h.setReg ..
  · exact h.clearTrn ..
  · exact h.clearPwr ..
  · exact h.clearDet ..
  · exact h.setFld ..

theorem State.Keeps.writeEgReg (h : r.Keeps s) (n : RegName) (i : Nat) (v : Word) : r.Keeps (s.writeEgReg n i v) := by
  unfold State.writeEgReg
  split
  case h_1 t clears => exact .ite (h.clearOf clears) h
  case h_2 => exact .ite ((h.setReg ..).setFld ..) (h.setReg ..)

end Sys2Proof.Machine
end

