-- ==== Sys2Proof/Proofs/KeepsCollectives.lean ====
section
/-!
SUPPORT. What every command keeps: sends and collectives.
-/

set_option Elab.async false

namespace Sys2Proof.Machine

open Sys2Proof

variable {r s : State}

theorem State.Keeps.setGroup (h : r.Keeps s) (g : Nat) (v : Group) : r.Keeps (s.setGroup g v) :=
  h.upd rfl rfl rfl

theorem State.Keeps.pushMsg (h : r.Keeps s) (d : Nat) (x : InMsg) : r.Keeps (s.pushMsg d x) :=
  h.setCe ..

theorem State.Keeps.sendMsg (h : r.Keeps s) (d : Nat) (m : CtlMsg) (dest dpart : Nat) (data : Option (List Byte)) :
    r.Keeps (s.sendMsg d m dest dpart data) := by
  unfold State.sendMsg
  exact .ite (h.pushMsg ..) (h.setCe ..)

theorem State.Keeps.answer (h : r.Keeps s) (d : Nat) (peer : InMsg) (m : CtlMsg) : r.Keeps (s.answer d peer m) :=
  h.sendMsg ..

theorem State.Keeps.reply (h : r.Keeps s) (d : Nat) (peer : InMsg) (st : Byte) (addr : Nat) : r.Keeps (s.reply d peer st addr) :=
  h.answer ..

theorem State.Keeps.sendReady (h : r.Keeps s) (d : Nat) (x : Send) : r.Keeps (s.sendReady d x) :=
  h.sendMsg ..

theorem State.Keeps.putSend (h : r.Keeps s) (d : Nat) (x : Send) : r.Keeps (s.putSend d x) :=
  h.setCe ..

theorem State.Keeps.runSend (h : r.Keeps s) (c : Cmd) : r.Keeps (s.runSend c) :=
  ((State.Keeps.ite (h.codeFlip ..) h).setCe ..).sendReady ..

theorem State.Keeps.execSend (h : r.Keeps s) (i : Issuer) : Keeping r (execSend i s) :=
  .inRange (h.issueRowAs (hrun := fun _ _ h => h.runSend ..) ..)

theorem State.Keeps.execQsend (h : r.Keeps s) (i : Issuer) : Keeping r (execQsend i s) :=
  .inRange (h.issueRowAs (hrun := fun _ _ h => h.runSend ..) ..)

theorem State.Keeps.endSend (h : r.Keeps s) (d : Nat) (x : Send) (st : Byte) (addr : Nat) (flags : List Nat) :
    r.Keeps (s.endSend d x st addr flags) :=
  (h.setCe ..).finish ..

theorem State.Keeps.sendPayload (h : r.Keeps s) (x : Send) (a : SendArgs) : r.Keeps (s.sendPayload x a).s :=
  State.Keeps.noteReads (h.claimReads ..) ..

theorem State.Keeps.qsendPayload (h : r.Keeps s) (x : Send) (a : SendArgs) : r.Keeps (s.qsendPayload x a).s := by
  unfold State.qsendPayload
  dsimp only
  have read := fun claims n => (h.claimReads x.cmd claims).notePlanes x.cmd (cmdResid x.cmd.bytes) n
  split
  · exact read ..
  · generalize written : (if a.cvt.tsm = 1 then _ else _ : Out) = o
    have kept : r.Keeps o.s := by
      rw [← written]
      refine .iteOn Out.s (.iteOn Out.s (State.Keeps.noteReads (read ..) ..) ?_) (State.Keeps.weave (read ..) ..)
      exact State.Keeps.weave (((((State.Keeps.noteReads (read ..) ..).out none).outPut ..).note ..).claimReads ..) ..
    exact .iteOn Payload.s kept (.iteOn Payload.s ((kept.count ..).count ..) kept)

theorem State.Keeps.sendPieces (h : r.Keeps s) (d : Nat) (x : Send) (a : SendArgs) (n i : Nat) (l : List Piece) :
    r.Keeps (State.sendPieces d x a n i l s) := by
  induction l generalizing i s with
  | nil => exact h
  | cons p l ih => exact ih (h.sendMsg ..) _

theorem State.Keeps.grantSend (h : r.Keeps s) (d : Nat) (x : Send) : r.Keeps (s.grantSend d x) := by
  unfold State.grantSend
  lift_lets
  intro a pl n y s1
  have payload : r.Keeps pl.s := .iteOn Payload.s (h.qsendPayload ..) (h.sendPayload ..)
  have sent : r.Keeps s1 := (payload.sendPieces ..).putSend ..
  split
  · exact (State.Keeps.ite (sent.noteUe ..) sent).endSend ..
  · exact sent

theorem State.Keeps.landack (h : r.Keeps s) (d : Nat) (x : Send) : r.Keeps (s.landack d x) := by
  unfold State.landack
  exact .ite (h.putSend ..) (h.endSend ..)

theorem State.Keeps.replySend (h : r.Keeps s) (d : Nat) (x : Send) (m : CtlMsg) : r.Keeps (s.replySend d x m) := by
  unfold State.replySend
  exact .ite (.ite (h.endSend ..) (h.putSend ..)) (h.endSend ..)

theorem State.Keeps.dropStream (h : r.Keeps s) (d : Nat) (m : CtlMsg) : r.Keeps (s.dropStream d m) :=
  h.setCe ..

theorem State.Keeps.landedBytes (h : r.Keeps s) (d : Nat) (m : CtlMsg) (data : List Byte) : r.Keeps (s.landedBytes d m data).2 := by
  unfold State.landedBytes
  dsimp only
  refine .iteOn Prod.snd h ?_
  have flipped : r.Keeps (if (s.streamOf d m).isSome = true then s else s.codeFlip (128 + d) s.cycle none) := .ite h (h.codeFlip ..)
  generalize (if (s.streamOf d m).isSome = true then s else s.codeFlip (128 + d) s.cycle none) = s0 at flipped ⊢
  have dropped := flipped.dropStream d m
  split
  · exact .ite dropped (dropped.setCe ..)
  · exact .iteOn Prod.snd (.ite dropped (dropped.setCe ..)) (.ite dropped (dropped.setCe ..))

theorem State.Keeps.landPut (h : r.Keeps s) (d : Nat) (x : InMsg) (data : List Byte) : r.Keeps (s.landPut d x data) := by
  unfold State.landPut
  dsimp only
  refine .ite (h.reply ..) ?_
  split
  · exact (h.landedBytes ..).reply ..
  · split
    · exact (h.landedBytes ..).reply ..
    · split
      · exact ((h.landedBytes ..).storeWhole ..).reply ..
      · exact (State.Keeps.ite (((h.landedBytes ..).storeWhole ..).objOp ..) ((h.landedBytes ..).storeWhole ..)).answer ..

theorem State.Keeps.groupEvent (h : r.Keeps s) (g : Nat) : r.Keeps (s.groupEvent g) :=
  h.event ..

theorem State.Keeps.toMember (h : r.Keeps s) (g rank : Nat) (m : CtlMsg) (data : Option (List Byte)) :
    r.Keeps (s.toMember g rank m data) :=
  h.sendMsg ..

theorem State.Keeps.endColl (h : r.Keeps s) (g : Nat) (k : Coll) (st : Byte) (addr d0 d1 : Nat) :
    r.Keeps (s.endColl g k st addr d0 d1) :=
  (h.setGroup ..).finish ..

theorem State.Keeps.haltGroup (h : r.Keeps s) (g : Nat) (code : Byte) : r.Keeps (s.haltGroup g code) := by
  unfold State.haltGroup
  exact (((h.setFld ..).setFld ..).foldl (fun _ _ h => h.endColl ..) _).groupEvent ..

theorem State.Keeps.notify (h : r.Keeps s) (g gseq : Nat) (code : Byte) (d1 : Nat) : r.Keeps (s.notify g gseq code d1) := by
  unfold State.notify
  exact h.foldl (fun _ _ h => .ite h (h.toMember ..)) _

theorem State.Keeps.failColl (h : r.Keeps s) (g : Nat) (k : Coll) (code : Byte) (addr d1 : Nat) :
    r.Keeps (s.failColl g k code addr d1) := by
  unfold State.failColl
  exact .ite (((h.notify ..).endColl ..).haltGroup ..) ((h.notify ..).endColl ..)

theorem State.Keeps.collWrite (h : r.Keeps s) (G : Group) (k : Coll) (a : CollArgs) (at_ : Nat) (bs : List Byte) :
    r.Keeps (s.collWrite G k a at_ bs).1 :=
  (h.out ..).outPut ..

theorem State.Keeps.reduceLanded (h : r.Keeps s) (G : Group) (k : Coll) (a : CollArgs) (x : XferStep) (slot src : Nat)
    (final : Bool) (bs : List Byte) : r.Keeps (s.reduceLanded G k a x slot src final bs).1 := by
  unfold State.reduceLanded
  exact .iteOn Prod.fst h (h.collWrite ..)

theorem State.Keeps.stepLanded (h : r.Keeps s) (G : Group) (k : Coll) (a : CollArgs) (x : XferStep) (bs : List Byte) :
    r.Keeps (s.stepLanded G k a x bs).1 := by
  unfold State.stepLanded
  dsimp only
  split
  · exact .iteOn Prod.fst (h.reduceLanded ..) (h.collWrite ..)
  · exact .iteOn Prod.fst (h.reduceLanded ..) (h.collWrite ..)
  · exact h.collWrite ..
  · exact h.reduceLanded ..
  · exact h.collWrite ..
  · exact h.collWrite ..
  · exact h

theorem State.Keeps.ownCopy (h : r.Keeps s) (G : Group) (k : Coll) (a : CollArgs) : r.Keeps (s.ownCopy G k a).1 := by
  unfold State.ownCopy
  lift_lets
  intro rank copy
  have copied (x : State × Option Nat) (m : Nat × Nat × Nat) (hx : r.Keeps x.1) : r.Keeps (copy x m).1 := by
    refine .iteOn Prod.fst hx ?_
    split
    · exact hx
    · exact hx.collWrite ..
  have own (m) : r.Keeps (copy (s, none) m).1 := copied (s, none) m h
  refine .iteOn Prod.fst h ?_
  split
  · exact .iteOn Prod.fst (own _) h
  · exact .iteOn Prod.fst (own _) h
  · exact .iteOn Prod.fst (own _) h
  · exact own _
  · exact .iteOn Prod.fst (own _) h
  · exact own _
  · exact h.foldlOn Prod.fst copied _
  · exact h

theorem State.Keeps.collBegin (h : r.Keeps s) (g : Nat) (G : Group) (k : Coll) (a : CollArgs) : r.Keeps (s.collBegin g G k a) := by
  unfold State.collBegin
  dsimp only
  split
  · exact (h.setGroup ..).endColl ..
  · exact (State.Keeps.ite (h.noteUe ..) h).failColl ..
  · split
    · exact .iteOn Prod.fst (((h.touchReads ..).setGroup ..).ownCopy ..) ((h.touchReads ..).setGroup ..)
    · exact ((State.Keeps.iteOn Prod.fst (((h.touchReads ..).setGroup ..).ownCopy ..)
        ((h.touchReads ..).setGroup ..)).noteUe ..).failColl ..

theorem State.Keeps.collDo (h : r.Keeps s) (g : Nat) (G : Group) (k : Coll) (a : CollArgs) (x6 : CollAct) :
    r.Keeps (s.collDo g G k a x6) := by
  unfold State.collDo
  dsimp only
  split
  · exact (h.setGroup ..).toMember ..
  · split
    · exact (h.setGroup ..).failColl ..
    · exact ((h.setGroup ..).setGroup ..).toMember ..
  · exact (h.setGroup ..).toMember ..
  · exact (h.setGroup ..).toMember ..
  · exact h.setGroup ..
  · split
    · exact (State.Keeps.iteOn Prod.fst h (h.ownCopy ..)).endColl ..
    · exact ((State.Keeps.iteOn Prod.fst h (h.ownCopy ..)).noteUe ..).failColl ..

theorem State.Keeps.ceRun (h : r.Keeps s) (g fuel : Nat) : r.Keeps (State.ceRun g fuel s) := by
  induction fuel generalizing s with
  | zero => exact h
  | succ fuel ih =>
    unfold State.ceRun
    dsimp only
    split
    · exact h
    · refine .ite h (.ite (ih (h.collBegin ..)) ?_)
      split
      · exact h
      · exact ih (h.collDo ..)

theorem State.Keeps.landBytes (h : r.Keeps s) (G : Group) (k : Coll) (a : CollArgs) (y : XferStep) (at_ : Nat) (data : List Byte) :
    r.Keeps (s.landBytes G k a y at_ data).1 := by
  unfold State.landBytes
  dsimp only
  refine .iteOn Prod.fst (h.stepLanded ..) ?_
  refine .iteOn Prod.fst h ?_
  split
  · exact h
  · exact h.collWrite ..

theorem State.Keeps.landCdata (h : r.Keeps s) (x : InMsg) (data : List Byte) : r.Keeps (s.landCdata x data) := by
  unfold State.landCdata
  dsimp only
  split
  · split
    · exact h
    · split
      · exact h
      · split
        · exact (State.Keeps.ite (((h.landBytes ..).setGroup ..).noteUe ..) ((h.landBytes ..).setGroup ..)).failColl ..
        · exact .ite ((h.landBytes ..).setGroup ..) (((h.landBytes ..).setGroup ..).toMember ..)
  · exact h

theorem State.Keeps.landMessage (h : r.Keeps s) (d : Nat) (x : InMsg) (data : List Byte) : r.Keeps (s.landMessage d x data) := by
  unfold State.landMessage
  exact .ite (.ite (h.reply ..) ((h.landCdata ..).ceRun ..)) (h.landPut ..)

theorem State.Keeps.drainLocal (h : r.Keeps s) (d fuel : Nat) : r.Keeps (State.drainLocal d fuel s) := by
  induction fuel generalizing s with
  | zero => exact h
  | succ fuel ih =>
    unfold State.drainLocal
    split
    · split
      · exact ih ((h.setCe ..).landMessage ..)
      · exact h
    · exact h

theorem State.Keeps.settleCe (h : r.Keeps s) : r.Keeps s.settleCe :=
  (h.drainLocal ..).drainLocal ..

theorem State.Keeps.runColl (h : r.Keeps s) (c : Cmd) : r.Keeps (s.runColl c) := by
  unfold State.runColl
  dsimp only
  split
  · exact .ite ((h.setGroup ..).finish ..) (h.setGroup ..)
  · exact .ite (h.finish ..) (((h.setGroup ..).ceRun ..).settleCe)

theorem State.Keeps.collRow (h : r.Keeps s) (i : Issuer) (op : Nat) : r.Keeps (s.collRow i op) := by
  unfold State.collRow
  exact .ite h (h.issueRowAs (hrun := fun _ _ h => h.runColl ..) ..)

theorem State.Keeps.execAllreduce (h : r.Keeps s) (i : Issuer) : Keeping r (execAllreduce i s) :=
  .inRange (h.collRow ..)

theorem State.Keeps.execReducescatter (h : r.Keeps s) (i : Issuer) : Keeping r (execReducescatter i s) :=
  .inRange (h.collRow ..)

theorem State.Keeps.execAllgather (h : r.Keeps s) (i : Issuer) : Keeping r (execAllgather i s) :=
  .inRange (h.collRow ..)

theorem State.Keeps.execReduce (h : r.Keeps s) (i : Issuer) : Keeping r (execReduce i s) :=
  .inRange (h.collRow ..)

theorem State.Keeps.execBroadcast (h : r.Keeps s) (i : Issuer) : Keeping r (execBroadcast i s) :=
  .inRange (h.collRow ..)

theorem State.Keeps.execAlltoall (h : r.Keeps s) (i : Issuer) : Keeping r (execAlltoall i s) :=
  .inRange (h.collRow ..)

theorem State.Keeps.execPermute (h : r.Keeps s) (i : Issuer) : Keeping r (execPermute i s) :=
  .inRange (h.collRow ..)

theorem State.Keeps.execBarrier (h : r.Keeps s) (i : Issuer) : Keeping r (execBarrier i s) :=
  .inRange (h.collRow ..)

theorem State.Keeps.abortGroup (h : r.Keeps s) (g : Nat) : r.Keeps (s.abortGroup g) := by
  unfold State.abortGroup
  exact (((h.foldl (fun _ _ h => h.endColl ..) _).notify ..).haltGroup ..).settleCe

theorem State.Keeps.runGrpabort (h : r.Keeps s) (c : Cmd) : r.Keeps (s.runGrpabort c) :=
  (h.abortGroup ..).finish ..

theorem State.Keeps.execGrpabort (h : r.Keeps s) (i : Issuer) : Keeping r (execGrpabort i s) :=
  .inRange (h.issueRowAs (hrun := fun _ _ h => h.runGrpabort ..) ..)

theorem State.Keeps.withMsg (h : r.Keeps s) (d kind : Nat) (go : State → InMsg → State) (hgo : ∀ y0 y1, r.Keeps y0 → r.Keeps (go y0 y1)) :
    r.Keeps (s.withMsg d kind go) := by
  unfold State.withMsg
  dsimp only
  split
  · exact .ite ((hgo _ _ (h.setCe ..)).settleCe) h
  · exact h

theorem State.Keeps.onReady (h : r.Keeps s) (d : Nat) (x : InMsg) : r.Keeps (State.onReady d s x) := by
  unfold State.onReady
  exact .ite (.ite (h.reply ..) (.ite h ((h.setGroup ..).ceRun ..))) (.ite (h.answer ..) (h.reply ..))

theorem State.Keeps.execReady (h : r.Keeps s) (d : Nat) : Keeping r (execReady d s) :=
  .inRange (h.withMsg (hgo := fun _ _ h => h.onReady ..) ..)

theorem State.Keeps.grantColl (h : r.Keeps s) (m : CtlMsg) : r.Keeps (s.grantColl m) := by
  unfold State.grantColl
  dsimp only
  split
  · exact h
  · split
    · split
      · exact (h.failColl ..).ceRun ..
      · refine .ite ((h.setGroup ..).ceRun ..) ?_
        split
        · exact ((h.noteUe ..).failColl ..).ceRun ..
        · exact (h.setGroup ..).ceRun ..
    · exact (h.setGroup ..).ceRun ..
    · exact h

theorem State.Keeps.onGrant (h : r.Keeps s) (d : Nat) (x : InMsg) : r.Keeps (State.onGrant d s x) := by
  unfold State.onGrant
  refine .ite (h.grantColl ..) ?_
  split
  · exact .ite h (h.grantSend ..)
  · exact h

theorem State.Keeps.execGrant (h : r.Keeps s) (d : Nat) : Keeping r (execGrant d s) :=
  .inRange (h.withMsg (hgo := fun _ _ h => h.onGrant ..) ..)

theorem State.Keeps.execLandack (h : r.Keeps s) (d : Nat) : Keeping r (execLandack d s) := by
  refine Keeping.inRange ?_
  refine h.withMsg (hgo := ?_) ..
  intro _ _ h
  split
  · exact h.landack ..
  · exact h

theorem State.Keeps.replyColl (h : r.Keeps s) (m : CtlMsg) : r.Keeps (s.replyColl m) := by
  unfold State.replyColl
  dsimp only
  split
  · exact h
  · split
    · exact h
    · exact .ite h (.ite ((h.endColl ..).ceRun ..) (h.setGroup ..))

theorem State.Keeps.execReply (h : r.Keeps s) (d : Nat) : Keeping r (execReply d s) := by
  refine Keeping.inRange ?_
  refine h.withMsg (hgo := ?_) ..
  intro _ _ h
  refine .ite (h.replyColl ..) ?_
  split
  · exact h.replySend ..
  · exact h

theorem State.Keeps.onNotice (h : r.Keeps s) (x : InMsg) : r.Keeps (s.onNotice x) := by
  unfold State.onNotice
  dsimp only
  refine .ite h ?_
  refine .ite ?_ ?_
  · refine State.Keeps.haltGroup ?_ ..
    split
    · exact h.endColl ..
    · exact h.setGroup ..
  · split
    · exact .ite ((h.endColl ..).ceRun ..) (.ite h (h.setGroup ..))
    · exact .ite h (h.setGroup ..)

theorem State.Keeps.execNotice (h : r.Keeps s) (d : Nat) : Keeping r (execNotice d s) :=
  .inRange (h.withMsg (hgo := fun _ _ h => h.onNotice ..) ..)

theorem State.Keeps.retryColl (h : r.Keeps s) (g : Nat) : r.Keeps (s.retryColl g) := by
  unfold State.retryColl
  dsimp only
  split
  · exact h
  · exact (h.setGroup ..).foldl (fun _ _ h => h.toMember ..) _

theorem State.Keeps.execReadyRetry (h : r.Keeps s) (d n : Nat) : Keeping r (execReadyRetry d n s) := by
  refine Keeping.inRange ?_
  refine .ite (.ite (h.retryColl ..) h) ?_
  split
  · exact .ite ((h.putSend ..).sendReady ..) h
  · exact h

theorem State.Keeps.watchColl (h : r.Keeps s) (g : Nat) : r.Keeps (s.watchColl g) := by
  unfold State.watchColl
  dsimp only
  split
  · exact h
  · exact .ite h ((h.setGroup ..).event ..)

theorem State.Keeps.execCollWatch (h : r.Keeps s) (d n : Nat) : Keeping r (execCollWatch d n s) := by
  refine Keeping.inRange ?_
  refine .ite h ?_
  refine .ite (.ite (h.watchColl ..) h) ?_
  split
  · exact .ite h ((h.putSend ..).event ..)
  · exact h

theorem State.Keeps.enableGroup (h : r.Keeps s) (g : Nat) (v : Word) : r.Keeps (s.enableGroup g v) := by
  unfold State.enableGroup
  exact .ite h (.ite ((((h.setGroup ..).setFld ..).setFld ..).groupEvent ..) (h.event ..))

theorem State.Keeps.resetGroup (h : r.Keeps s) (g : Nat) : r.Keeps (s.resetGroup g) := by
  unfold State.resetGroup
  exact .ite h ((((h.setGroup ..).setFld ..).setFld ..).groupEvent ..)

theorem State.Keeps.dropGroup (h : r.Keeps s) (g : Nat) : r.Keeps (s.dropGroup g) :=
  (((h.setFld ..).setFld ..).groupEvent ..).setGroup ..

theorem State.Keeps.disableGroup (h : r.Keeps s) (g : Nat) (v : Word) : r.Keeps (s.disableGroup g v) := by
  unfold State.disableGroup
  exact .ite h (.ite (h.writeIgnored ..) (h.dropGroup ..))

theorem State.Keeps.writeGrpctl (h : r.Keeps s) (v : Word) : r.Keeps (s.writeGrpctl v) := by
  unfold State.writeGrpctl
  dsimp only
  split
  · exact h.enableGroup ..
  · exact h.resetGroup ..
  · exact h.disableGroup ..
  · exact .ite h (h.abortGroup ..)
  · exact h

theorem State.Keeps.execGroupEnable (h : r.Keeps s) (who : Requester) (g : Nat) : Keeping r (execGroupEnable who g s) :=
  .inRange (h.gated (hk := h.writeGrpctl ..) ..)

theorem State.Keeps.execGroupReset (h : r.Keeps s) (who : Requester) (g : Nat) : Keeping r (execGroupReset who g s) :=
  .inRange (h.gated (hk := h.writeGrpctl ..) ..)

theorem State.Keeps.execGroupDisable (h : r.Keeps s) (who : Requester) (g : Nat) : Keeping r (execGroupDisable who g s) :=
  .inRange (h.gated (hk := h.writeGrpctl ..) ..)

theorem State.Keeps.execGroupAbort (h : r.Keeps s) (who : Requester) (g : Nat) : Keeping r (execGroupAbort who g s) :=
  .inRange (h.gated (hk := h.writeGrpctl ..) ..)

theorem State.Keeps.ceResetPart (h : r.Keeps s) (p : Nat) : r.Keeps (s.ceResetPart p) := by
  unfold State.ceResetPart
  dsimp only
  refine State.Keeps.setCe ?_ ..
  refine State.Keeps.setCe ?_ ..
  refine h.foldl (fun _ _ h => ?_) _
  refine State.Keeps.dropGroup ?_ ..
  split
  · exact h.notify ..
  · exact h

end Sys2Proof.Machine
end

