-- ==== Sys2Proof/Proofs/KeepsManagement.lean ====
section
/-!
SUPPORT. What every command keeps: Sceman, resets, power and clocks.
-/

set_option Elab.async false

namespace Sys2Proof.Machine

open Sys2Proof

variable {r s : State}

theorem State.Keeps.setSceman (h : r.Keeps s) (m : Sceman) : r.Keeps (s.setSceman m) :=
  h.upd rfl rfl rfl

theorem State.Keeps.withMsgKind (h : r.Keeps s) (sid kind : Nat) (go : State → Session → List Byte → State)
    (hgo : ∀ y0 y1 y2, r.Keeps y0 → r.Keeps (go y0 y1 y2)) : r.Keeps (s.withMsgKind sid kind go) := by
  unfold State.withMsgKind
  dsimp only
  split
  · exact h
  · exact hgo _ _ _ (h.setSession ..)

theorem State.Keeps.refuseRequest (h : r.Keeps s) (sid : Nat) (rid : List Byte) (st : Byte) (reason : Nat) :
    r.Keeps (s.refuseRequest sid rid st reason) :=
  h.sendMessage ..

theorem State.Keeps.putRequest (h : r.Keeps s) (r' : Request) : r.Keeps (s.putRequest r') :=
  h.setSceman ..

theorem State.Keeps.submit (h : r.Keeps s) (y : Session) (b : List Byte) : r.Keeps (s.submit y b) := by
  unfold State.submit
  dsimp only
  split
  · exact h.sendMessage ..
  · refine .ite (h.refuseRequest ..) ?_
    refine .ite (h.refuseRequest ..) ?_
    refine .ite (h.refuseRequest ..) ?_
    split
    · exact h.refuseRequest ..
    · refine .ite (h.refuseRequest ..) ?_
      refine .ite (h.refuseRequest ..) ?_
      refine .ite (h.refuseRequest ..) ?_
      split
      · exact h.refuseRequest ..
      · exact (h.setSceman ..).sendMessage ..

theorem State.Keeps.execSubmit (h : r.Keeps s) (sid : Nat) : Keeping r (execSubmit sid s) :=
  .next (h.withMsgKind (hgo := fun _ _ _ h => .ite (h.submit ..) h) ..)

theorem State.Keeps.completeRequest (h : r.Keeps s) (r' : Request) (st : Byte) (reason : Nat) :
    r.Keeps (s.completeRequest r' st reason) :=
  ((h.draw.setSceman ..).putRequest ..).sendMessage ..

theorem State.Keeps.execCancel (h : r.Keeps s) (sid : Nat) : Keeping r (execCancel sid s) := by
  refine Keeping.next ?_
  refine h.withMsgKind (hgo := ?_) ..
  intro _ _ _ h
  split
  · exact h
  · exact .ite (h.completeRequest ..) (.ite (h.putRequest ..) (h.sendMessage ..))

theorem State.Keeps.sendSegment (h : r.Keeps s) (r' : Request) (g : Nat × List Byte) : r.Keeps (s.sendSegment r' g) :=
  (State.Keeps.ite (h.sendMessage ..) h).sendMessage ..

theorem State.Keeps.segmentDone (h : r.Keeps s) (r' : Request) : r.Keeps (s.segmentDone r') := by
  unfold State.segmentDone
  exact .ite (h.putRequest ..) ((h.putRequest ..).sendSegment ..)

theorem State.Keeps.pictureCoded (h : r.Keeps s) (number qp bits bytes dest : Nat) :
    r.Keeps (s.pictureCoded number qp bits bytes dest) := by
  unfold State.pictureCoded
  dsimp only
  split
  · exact h
  · exact .ite (h.draw.putRequest ..) (h.draw.segmentDone ..)

theorem State.Keeps.execQuery (h : r.Keeps s) (sid : Nat) : Keeping r (execQuery sid s) := by
  refine Keeping.next ?_
  refine h.withMsgKind (hgo := ?_) ..
  intro _ _ _ h
  split
  · exact h
  · exact ((h.putRequest ..).sendMessage ..).foldl (fun _ _ h => h.sendSegment ..) _

theorem State.Keeps.putSeeds (h : r.Keeps s) (p seed : Nat) (at_ : List Nat) : r.Keeps (s.putSeeds p seed at_) := by
  unfold State.putSeeds
  exact h.foldl (fun _ _ h => (h.store ..).putTouch ..) _

theorem State.Keeps.startRequest (h : r.Keeps s) (r' : Request) (n : Nat) (c : Chain) : r.Keeps (s.startRequest r' n c) := by
  unfold State.startRequest
  exact (((((h.draw.setSceman ..).putRequest ..).store ..).putTouch ..).putSeeds ..).foldl (fun _ _ h => h.objOp ..) _

theorem State.Keeps.refuseJob (h : r.Keeps s) (r' : Request) : r.Keeps (s.refuseJob r') :=
  h.draw.completeRequest ..

theorem State.Keeps.execRequestPlacement (h : r.Keeps s) (cls : Nat) : Keeping r (execRequestPlacement cls s) := by
  refine Keeping.next ?_
  split
  · exact h
  · split
    · exact h
    · split
      · exact .ite (h.startRequest ..) (h.refuseJob ..)
      · exact h

theorem State.Keeps.execRequestComplete (h : r.Keeps s) (req : Nat) (status : Byte) :
    Keeping r (execRequestComplete req status s) := by
  refine Keeping.next ?_
  split
  · exact h
  · exact h.completeRequest ..

theorem State.Keeps.execSessionLostTimeout (h : r.Keeps s) (req : Nat) : Keeping r (execSessionLostTimeout req s) := by
  refine Keeping.next ?_
  split
  · exact h
  · exact h.putRequest ..

theorem State.Keeps.execTenantTableRewrite (h : r.Keeps s) (sid : Nat) (isClass : Bool) (recs : List (List Byte)) :
    Keeping r (execTenantTableRewrite sid isClass recs s) := by
  refine Keeping.next ?_
  split
  · exact h
  · exact .ite (h.setSceman ..) (h.setSceman ..)

theorem State.Keeps.fetched (h : r.Keeps s) (b : List Byte) : r.Keeps (s.fetched b) :=
  ((h.draw.store ..).putTouch ..).setSceman ..

theorem State.Keeps.takeFetched (h : r.Keeps s) (sid : Nat) : r.Keeps (s.takeFetched sid) := by
  unfold State.takeFetched
  split
  · exact h
  · exact (h.setSession ..).foldl (fun _ _ h => h.fetched ..) _

theorem State.Keeps.execBirsanData (h : r.Keeps s) (e : Nat) : Keeping r (execBirsanData e s) :=
  .inRange (h.withRx (hgo := fun _ _ h => h.withOpen (hgo := fun _ _ _ h => (h.takeData ..).takeFetched ..) ..) ..)

theorem State.Keeps.dropRegs (h : r.Keeps s) (p : Nat → Nat → Bool) : r.Keeps (s.dropRegs p) := by
  have regs (c : r.Canonical) : Sparse.wf regDefault (s.dropRegs p).regs = true :=
    Sparse.wf_drop (fun k => p (k % 256) (k / 256)) (h.form c).2
  exact ⟨h.pending, h.uds, h.keys, h.serial, h.free, fun c => ⟨(h.form c).1, regs c⟩⟩

/-- A table whose values are changed one by one, those that become defaults dropped, stays in canonical form. -/
theorem Sparse.wf_remap {α : Type} [DecidableEq α] {d : Nat → α} (f : Nat → α → α) {m : Sparse α} (w : Sparse.wf d m = true) :
    Sparse.wf d (Sparse.remap d f m) = true := by
  suffices go : ∀ b, Sparse.wfFrom d b m = true → Sparse.wfFrom d b (Sparse.remap d f m) = true from go 0 w
  clear w
  induction m with
  | nil => exact fun _ w => w
  | cons x m ih =>
    intro b w
    obtain ⟨k, v⟩ := x
    obtain ⟨low, _, rest⟩ := Sparse.wfFrom_cons.1 w
    have tail := ih _ rest
    unfold Sparse.remap at tail ⊢
    rw [List.filterMap_cons]
    by_cases gone : f k v = d k
    · simp only [gone, if_true]
      exact Sparse.wfFrom_mono (by omega) tail
    · simp only [gone, if_false]
      exact Sparse.wfFrom_cons.2 ⟨low, gone, tail⟩

theorem State.Keeps.mapRegs (h : r.Keeps s) (n : RegName) (p : Nat → Bool) (f : Word → Word) : r.Keeps (s.mapRegs n p f) := by
  have regs (c : r.Canonical) : Sparse.wf regDefault (s.mapRegs n p f).regs = true :=
    Sparse.wf_remap (fun k v => if k % 256 = n.code && p (k / 256) then f v else v) (h.form c).2
  exact ⟨h.pending, h.uds, h.keys, h.serial, h.free, fun c => ⟨(h.form c).1, regs c⟩⟩

theorem State.Keeps.sage (h : r.Keeps s) {g : Sage} (uds : g.uds = s.sage.uds) (keys : g.fuseImg = s.sage.fuseImg)
    (serial : g.serial = s.sage.serial) : r.Keeps { s with sage := g } :=
  h.upd uds keys serial

theorem State.Keeps.raiseAlert (h : r.Keeps s) : r.Keeps s.raiseAlert := by
  have raised : r.Keeps { s with sage := { s.sage with alert := true } } := h.sage rfl rfl rfl
  unfold State.raiseAlert
  exact .ite h (.ite (raised.send ..) raised)

theorem State.Keeps.settleAlert (h : r.Keeps s) : r.Keeps s.settleAlert := by
  unfold State.settleAlert
  exact .ite h (h.upd rfl rfl rfl)

theorem State.Keeps.setSeason (h : r.Keeps s) (p v : Nat) (lim : Bool) : r.Keeps (s.setSeason p v lim) := by
  unfold State.setSeason
  exact .ite h ((h.setFld ..).event ..)

theorem State.Keeps.setDie (h : r.Keeps s) (v : Nat) : r.Keeps (s.setDie v) := by
  unfold State.setDie
  exact .ite h ((h.setFld ..).event ..)

theorem State.Keeps.discard (h : r.Keeps s) (mp : Nat → Bool) (mq : Nat → Bool) (me : Nat → Bool) : r.Keeps (s.discard mp mq me) :=
  h.upd rfl rfl rfl

theorem State.Keeps.dropTables (h : r.Keeps s) (me : Nat → Bool) : r.Keeps (s.dropTables me) :=
  h.upd rfl rfl rfl

theorem State.Keeps.settleWindows (h : r.Keeps s) : r.Keeps s.settleWindows := by
  unfold State.settleWindows
  exact h.foldl (fun _ _ h => h.setWindow ..) _

theorem State.Keeps.stopWheels (h : r.Keeps s) (me : Nat → Bool) : r.Keeps (s.stopWheels me) := by
  unfold State.stopWheels
  exact (h.foldl (fun _ _ h => h.takeWheelWrites ..) _).upd rfl rfl rfl

theorem State.Keeps.failRequests (h : r.Keeps s) (mp : Nat → Bool) : r.Keeps (s.failRequests mp) := by
  unfold State.failRequests
  exact h.foldl (fun _ _ h => h.completeRequest ..) _

theorem State.Keeps.clearPart (h : r.Keeps s) (p : Nat) : r.Keeps (s.clearPart p) := by
  unfold State.clearPart
  refine State.Keeps.mapRegs (State.Keeps.mapRegs (State.Keeps.dropRegs ?_ ..) ..) ..
  exact (h.dropTables ..).upd rfl rfl rfl

theorem State.Keeps.resetPart (h : r.Keeps s) (p : Nat) (lim : Bool) : r.Keeps (s.resetPart p lim) :=
  ((((((h.setSeason ..).ceResetPart ..).stopWheels ..).discard ..).settleWindows).clearPart ..).failRequests ..

/-- Dropping bytes of device memory keeps, whatever else that `Keeps` does not look at changes. -/
theorem State.Keeps.dropMem (h : r.Keeps s) (p : Nat → Bool) : r.Keeps { s with mem := Sparse.drop p s.mem } :=
  ⟨h.pending, h.uds, h.keys, h.serial, h.free, fun c => ⟨Sparse.wf_drop _ (h.form c).1, (h.form c).2⟩⟩

theorem State.Keeps.clearDie (h : r.Keeps s) : r.Keeps s.clearDie := by
  unfold State.clearDie
  refine State.Keeps.mapRegs (State.Keeps.dropRegs ?_ ..) ..
  have dropped := State.Keeps.dropMem ((h.stopWheels fun _ => true).discard (fun _ => true) (fun _ => true) (fun _ => true)) onDie
  exact dropped.upd rfl rfl rfl

theorem State.Keeps.dieWinter (h : r.Keeps s) : r.Keeps s.dieWinter := by
  unfold State.dieWinter
  exact (((h.foldl (fun _ _ h => (h.setSeason ..).ceResetPart ..) _).setDie ..).clearDie).failRequests ..

theorem State.Keeps.enterStage (h : r.Keeps s) (n : Nat) : r.Keeps (s.enterStage n) :=
  ((h.setFld ..).setFld ..).upd rfl rfl rfl

theorem State.Keeps.tryStart (h : r.Keeps s) : r.Keeps s.tryStart := by
  unfold State.tryStart
  exact .ite ((h.upd rfl rfl rfl).enterStage ..) h

theorem State.Keeps.portDown (h : r.Keeps s) (d : Nat) : r.Keeps (s.portDown d) := by
  unfold State.portDown
  lift_lets
  intro reads s1 ctl s2 s3 rcd cp s4
  have h2 : r.Keeps s2 := ((h.upd rfl rfl rfl : r.Keeps s1).setReg ..).setCtl ..
  have h3 : r.Keeps s3 := h2.foldl (fun _ _ h => (State.Keeps.ite h (h.failRead ..)).unpark ..) _
  have h4 : r.Keeps s4 := h3.upd rfl rfl rfl
  exact h4.foldl (fun _ _ h => h.ringWrite ..) _

theorem State.Keeps.portReset (h : r.Keeps s) (d : Nat) : r.Keeps (s.portReset d) := by
  unfold State.portReset
  exact (h.portDown d).dropRegs ..

theorem State.Keeps.moduleReset (h : r.Keeps s) (boot : Bool) : r.Keeps (s.moduleReset boot) := by
  have regs (c : r.Canonical) : Sparse.wf regDefault (Sparse.drop (fun k => !keptReg boot (k % 256)) s.regs) = true :=
    Sparse.wf_drop _ (h.form c).2
  unfold State.moduleReset
  refine State.Keeps.setFld (State.Keeps.setFld ?_ ..) ..
  exact ⟨h.pending, h.uds, h.keys, h.serial, h.free, fun c => ⟨rfl, regs c⟩⟩

theorem State.Keeps.crstReset (h : r.Keeps s) : r.Keeps s.crstReset := by
  unfold State.crstReset
  have winter := h.dieWinter.setFld F.sysRstcause_CRST 0 1
  generalize s.dieWinter.setFld F.sysRstcause_CRST 0 1 = t at winter
  have waveless : r.Keeps { t with sage := { t.sage with wave := 0 } } := winter.sage rfl rfl rfl
  exact .ite winter (waveless.enterStage ..)

theorem State.Keeps.criticalEvent (h : r.Keeps s) (sensor temp : Nat) : r.Keeps (s.criticalEvent sensor temp) := by
  have noted : r.Keeps { s with sage := { s.sage with critical := true } } := h.sage rfl rfl rfl
  exact noted.raiseAlert.event ..

theorem State.Keeps.criticalDie (h : r.Keeps s) : r.Keeps s.criticalDie :=
  h.crstReset.upd rfl rfl rfl

theorem State.Keeps.criticalIo (h : r.Keeps s) : r.Keeps s.criticalIo :=
  ((h.moduleReset ..).setFld ..).upd rfl rfl rfl

theorem State.Keeps.sample (h : r.Keeps s) (m : Nat) : r.Keeps (s.sample m) :=
  h.upd rfl rfl rfl

theorem State.Keeps.execEnergySample (h : r.Keeps s) (microjoules : Nat) : Keeping r (execEnergySample microjoules s) :=
  .next (h.sample ..)

theorem State.Keeps.reconcile (h : r.Keeps s) (p ewin : Nat) : r.Keeps (s.reconcile p ewin) :=
  h.setSceman ..

theorem State.Keeps.overBudget (h : r.Keeps s) (p ewin : Nat) : r.Keeps (s.overBudget p ewin) :=
  ((h.count ..).event ..).reconcile ..

theorem State.Keeps.windowLimit (h : r.Keeps s) (total : Nat) (inForce : Bool) : r.Keeps (s.windowLimit total inForce) := by
  have lows (n : Nat) : r.Keeps { s with power := { s.power with lows := n } } := h.upd rfl rfl rfl
  unfold State.windowLimit
  exact .ite (lows _) (.ite ((lows _).setFld ..) (.ite (.ite (lows _) ((lows _).setFld ..)) (lows _)))

theorem State.Keeps.windowEndEnergy (h : r.Keeps s) : r.Keeps s.windowEndEnergy := by
  unfold State.windowEndEnergy
  exact ((((h.foldl (fun _ _ h => h.setReg ..) _).count ..).foldl (fun _ _ h => .ite (h.overBudget ..) h) _).windowLimit ..).upd rfl rfl rfl

theorem State.Keeps.execEnergyWindowEnd (h : r.Keeps s) : Keeping r (execEnergyWindowEnd s) :=
  .next (h.windowEndEnergy)

theorem State.Keeps.writePwrCap (h : r.Keeps s) (v : Word) : r.Keeps (s.writePwrCap v) := by
  unfold State.writePwrCap
  exact .ite h (.ite (h.writeIgnored ..) (h.setReg ..))

theorem State.Keeps.execPwrCapWrite (h : r.Keeps s) (who : Requester) (v : Word) : Keeping r (execPwrCapWrite who v s) :=
  .next (h.gated (hk := h.writePwrCap ..) ..)

theorem State.Keeps.writeBudget (h : r.Keeps s) (n : Nat) (v : Word) : r.Keeps (s.writeBudget n v) := by
  unfold State.writeBudget
  exact .ite (.ite (h.writeIgnored ..) (h.setFld ..)) (.ite (h.writeIgnored ..) (h.setFld ..))

theorem State.Keeps.execPwrBudgetWrite (h : r.Keeps s) (who : Requester) (n : Nat) (v : Word) :
    Keeping r (execPwrBudgetWrite who n v s) :=
  .inRange (h.gated (hk := h.writeBudget ..) ..)

theorem State.Keeps.fastReading (h : r.Keeps s) (watts : Nat) : r.Keeps (s.fastReading watts) := by
  unfold State.fastReading
  exact .ite ((h.upd rfl rfl rfl).setFld ..) (.ite (.ite (h.upd rfl rfl rfl) ((h.upd rfl rfl rfl).setFld ..)) (h.upd rfl rfl rfl))

theorem State.Keeps.execFastLimiterReading (h : r.Keeps s) (watts : Nat) : Keeping r (execFastLimiterReading watts s) :=
  .next (h.fastReading ..)

theorem State.Keeps.slew (h : r.Keeps s) : r.Keeps s.slew :=
  h.setFld ..

theorem State.Keeps.execClockSlewStep (h : r.Keeps s) : Keeping r (execClockSlewStep s) :=
  .next (h.slew)

theorem State.Keeps.execDroopDetect (h : r.Keeps s) : Keeping r (execDroopDetect s) :=
  .next (.ite h ((h.upd rfl rfl rfl).count ..))

theorem State.Keeps.execDroopEnd (h : r.Keeps s) : Keeping r (execDroopEnd s) :=
  .next (.ite (h.upd rfl rfl rfl) h)

theorem State.Keeps.honourThrottle (h : r.Keeps s) : r.Keeps s.honourThrottle := by
  unfold State.honourThrottle
  exact .ite ((h.upd rfl rfl rfl).setFld ..) ((((h.upd rfl rfl rfl).setFld ..).setFld ..).settleAlert)

theorem State.Keeps.throttleLevel (h : r.Keeps s) (active : Bool) : r.Keeps (s.throttleLevel active) := by
  unfold State.throttleLevel
  exact .ite (h.upd rfl rfl rfl) ((h.upd rfl rfl rfl).honourThrottle)

theorem State.Keeps.execThrottleNChange (h : r.Keeps s) (active : Bool) : Keeping r (execThrottleNChange active s) :=
  .next (h.throttleLevel ..)

theorem State.Keeps.execThrottleHoldEnd (h : r.Keeps s) : Keeping r (execThrottleHoldEnd s) :=
  .next (.ite ((h.upd rfl rfl rfl).throttleLevel ..) h)

theorem State.Keeps.execThrottleStuck (h : r.Keeps s) : Keeping r (execThrottleStuck s) :=
  .next (.ite (((h.setFld ..).raiseAlert).event ..) h)

theorem State.Keeps.thermalLevel (h : r.Keeps s) (t : Nat → Nat) : r.Keeps (s.thermalLevel t) := by
  have put (x y : Nat) : r.Keeps { s with power := { s.power with hot := x, cool := y } } := h.upd rfl rfl rfl
  unfold State.thermalLevel
  exact .ite (.ite (put ..) ((put ..).setFld ..)) (.ite (.ite (put ..) ((put ..).setFld ..)) (put ..))

theorem State.Keeps.cooled (h : r.Keeps s) (t : Nat → Nat) : r.Keeps (s.cooled t) := by
  unfold State.cooled
  exact .ite ((h.upd rfl rfl rfl).tryStart) h

theorem State.Keeps.thermal (h : r.Keeps s) (temps : List Nat) : r.Keeps (s.thermal temps) := by
  unfold State.thermal
  lift_lets
  intro old t new s1 s2 s3 s4
  have h2 : r.Keeps s2 := ((h.foldl (fun _ _ h => h.setFld ..) _).cooled ..).thermalLevel ..
  have h3 : r.Keeps s3 := h2.foldl (fun _ _ h => h.criticalEvent ..) _
  have h4 : r.Keeps s4 := .ite h3.criticalDie h3
  exact .ite (h.cooled ..) (.ite h4.criticalIo h4)

theorem State.Keeps.execThermalSample (h : r.Keeps s) (temps : List Nat) : Keeping r (execThermalSample temps s) :=
  .next (h.thermal ..)

end Sys2Proof.Machine
end

