-- ==== Sys2Proof/Proofs/KeepsScalar.lean ====
section
/-!
SUPPORT. What every command keeps: base instructions of cores.
-/

set_option Elab.async false

namespace Sys2Proof.Machine

open Sys2Proof

variable {r s : State}

/-- The model's function is opened as a whole: the kernel never evaluates the register at a core's address. -/
theorem State.Keeps.coreReg (h : r.Keeps s) (eg a : Nat) : r.Keeps (s.coreReg eg a).2 := by
  obtain ⟨f, read⟩ : ∃ f, f = State.coreReg := ⟨_, rfl⟩
  rw [← read]
  delta State.coreReg at read
  have value := congrFun (congrFun (congrFun read s) eg) a
  beta_reduce at value
  rw [value]
  generalize coreRegAt eg a = x
  rcases x with _ | ⟨n, i⟩
  · exact h
  · exact h.readAt ..

theorem State.Keeps.coreRead (h : r.Keeps s) (k : Core) (eg a n : Nat) : MemRes.Keeps r (s.coreRead k eg a n) := by
  unfold State.coreRead
  dsimp only
  refine .ite trivial ?_
  refine .ite ?_ (.ite (.ite (h.coreReg ..) (.ite ((h.coreReg ..).coreReg ..) h)) trivial)
  split
  · exact trivial
  · exact h

theorem State.Keeps.coreRegWrite (h : r.Keeps s) (eg a v : Nat) : r.Keeps (s.coreRegWrite eg a v) := by
  obtain ⟨f, write⟩ : ∃ f, f = State.coreRegWrite := ⟨_, rfl⟩
  rw [← write]
  delta State.coreRegWrite at write
  have value := congrFun (congrFun (congrFun (congrFun write s) eg) a) v
  beta_reduce at value
  rw [value]
  generalize coreRegAt eg a = x
  rcases x with _ | ⟨n, i⟩
  · exact h
  · exact h.writeEgReg ..

theorem State.Keeps.coreWrite (h : r.Keeps s) (k : Core) (eg a n v : Nat) : MemRes.Keeps r (s.coreWrite k eg a n v) := by
  unfold State.coreWrite
  exact .ite trivial (.ite (h.store ..) (.ite (.ite (h.coreRegWrite ..) (.ite ((h.coreRegWrite ..).coreRegWrite ..) h)) trivial))

theorem State.Keeps.outX (h : r.Keeps s) (k : Core) (len rd : Nat) (v : BitVec 64) (ival lat : Nat) :
    RvOut.Keeps r (outX s k len rd v ival lat) :=
  h.rvDone ..

theorem State.Keeps.outF (h : r.Keeps s) (k : Core) (len rd v fl ival lat : Nat) : RvOut.Keeps r (outF s k len rd v fl ival lat) :=
  h.rvDone ..

theorem State.Keeps.outN (h : r.Keeps s) (k : Core) (len ival : Nat) : RvOut.Keeps r (outN s k len ival) :=
  h.rvDone ..

--nostate

theorem State.Keeps.execOp (h : r.Keeps s) (k : Core) (w len : Nat) (half : Bool) : RvOut.Keeps r (execOp s k w len half) := by
  unfold Machine.execOp
  dsimp only
  refine .ite ?_ (.ite (.ite (.ite (h.outX ..) .illegal) (h.outX ..)) .illegal)
  refine .ite ?_ (h.outX ..)
  split
  · exact h.outX ..
  · exact .illegal

theorem State.Keeps.execOpImm (h : r.Keeps s) (k : Core) (w len : Nat) (half : Bool) :
    RvOut.Keeps r (execOpImm s k w len half) := by
  unfold Machine.execOpImm
  exact .ite .illegal (.ite (.ite (h.outX ..) .illegal) (h.outX ..))

theorem State.Keeps.execLoad (h : r.Keeps s) (eg c : Nat) (k : Core) (w len t : Nat) (flt : Bool) :
    RvOut.Keeps r (s.execLoad eg c k w len t flt) := by
  have read := fun a n => h.coreRead k eg a n
  unfold State.execLoad
  refine .ite .illegal (.ite trivial ?_)
  split
  · trivial
  · trivial
  case h_3 v s1 eq =>
    have kept : r.Keeps s1 := (eq ▸ read .. : MemRes.Keeps r (.ok v s1))
    exact .ite (kept.outF ..) (kept.outX ..)

theorem State.Keeps.execStore (h : r.Keeps s) (eg : Nat) (k : Core) (w len : Nat) (flt : Bool) :
    RvOut.Keeps r (s.execStore eg k w len flt) := by
  have write := fun a n v => h.coreWrite k eg a n v
  unfold State.execStore
  refine .ite .illegal (.ite trivial ?_)
  split
  · trivial
  · trivial
  case h_3 v s1 eq =>
    have kept : r.Keeps s1 := (eq ▸ write .. : MemRes.Keeps r (.ok v s1))
    exact kept.outN ..

theorem State.Keeps.execAtomic (h : r.Keeps s) (eg c : Nat) (k : Core) (w len t : Nat) :
    RvOut.Keeps r (s.execAtomic eg c k w len t) := by
  have read := fun a n => h.coreRead k eg a n
  unfold State.execAtomic
  refine .ite .illegal (.ite trivial (.ite trivial (.ite (.ite ((h.store ..).outX ..) (h.outX ..)) ?_)))
  split
  · trivial
  · trivial
  case h_3 m s1 eq =>
    have kept : r.Keeps s1 := (eq ▸ read .. : MemRes.Keeps r (.ok m s1))
    exact .ite (kept.outX ..) ((kept.store ..).outX ..)

theorem State.Keeps.execBranch (h : r.Keeps s) (k : Core) (w len : Nat) : RvOut.Keeps r (execBranch s k w len) := by
  unfold Machine.execBranch
  split
  · exact .illegal
  · exact h.outN ..
  · exact h.rvDone ..

theorem State.Keeps.execJump (h : r.Keeps s) (k : Core) (w len target : Nat) : RvOut.Keeps r (execJump s k w len target) :=
  h.rvDone ..

theorem State.Keeps.execCsr (h : r.Keeps s) (k : Core) (eg c w len t : Nat) : RvOut.Keeps r (execCsr s k eg c w len t) := by
  unfold Machine.execCsr
  dsimp only
  split
  · exact .illegal
  · exact .ite .illegal (h.outX ..)

theorem State.Keeps.execSystem (h : r.Keeps s) (k : Core) (w len : Nat) : RvOut.Keeps r (execSystem s k w len) := by
  unfold Machine.execSystem
  dsimp only
  split
  · exact trivial
  · exact trivial
  · exact .ite (h.outN ..) .illegal
  · exact .ite (h.rvDone ..) .illegal
  · exact .illegal

theorem State.Keeps.outFp (h : r.Keeps s) (k : Core) (len rd : Nat) (F : IEEE) (r' : FRes) (ival lat : Nat) :
    RvOut.Keeps r (outFp s k len rd F r' ival lat) :=
  h.outF ..

theorem State.Keeps.outXf (h : r.Keeps s) (k : Core) (len rd : Nat) (v : BitVec 64) (fl : Nat) :
    RvOut.Keeps r (outXf s k len rd v fl) :=
  h.outX ..

theorem State.Keeps.execFcvtInt (h : r.Keeps s) (k : Core) (w len : Nat) (F : IEEE) (rm : Nat) (toInt : Bool) :
    RvOut.Keeps r (execFcvtInt s k w len F rm toInt) := by
  unfold Machine.execFcvtInt
  exact .ite .illegal (.ite (h.outXf ..) (h.outFp ..))

theorem State.Keeps.execOpFp (h : r.Keeps s) (k : Core) (w len : Nat) : RvOut.Keeps r (execOpFp s k w len) := by
  unfold Machine.execOpFp
  dsimp only
  split
  · exact .illegal
  · split
    · split
      · exact h.outFp ..
      · exact .illegal
    · split
      · exact h.outFp ..
      · exact .illegal
    · split
      · exact h.outFp ..
      · exact .illegal
    · split
      · exact h.outFp ..
      · exact .illegal
    · refine .ite .illegal ?_
      split
      · exact h.outFp ..
      · exact .illegal
    · exact .ite .illegal (h.outFp ..)
    · exact .ite .illegal (h.outFp ..)
    · split
      · refine .ite .illegal ?_
        split
        · exact h.outFp ..
        · exact .illegal
      · exact .illegal
    · exact .ite .illegal (h.outXf ..)
    · split
      · exact h.execFcvtInt ..
      · exact .illegal
    · split
      · exact h.execFcvtInt ..
      · exact .illegal
    · exact .ite .illegal (.ite (h.outX ..) (.ite (h.outX ..) .illegal))
    · exact .ite .illegal (h.outF ..)
    · exact .illegal

theorem State.Keeps.execFma (h : r.Keeps s) (k : Core) (w len : Nat) (np nc : Bool) : RvOut.Keeps r (execFma s k w len np nc) := by
  unfold Machine.execFma
  split
  · exact h.outFp ..
  · exact .illegal

end Sys2Proof.Machine
end

