-- ==== Sys2Proof/Proofs/KeepsBoot.lean ====
section
/-!
SUPPORT. What every command keeps: boot, the board, Fennel, seasons, hosts and attestation.
-/

set_option Elab.async false

namespace Sys2Proof.Machine

open Sys2Proof

variable {r s : State}

theorem State.Keeps.flashWrite (h : r.Keeps s) (a : Nat) (bs : List Byte) : r.Keeps (s.flashWrite a bs) :=
  h.upd rfl rfl rfl

theorem State.Keeps.dirWrite (h : r.Keeps s) (base v : Nat) : r.Keeps (s.dirWrite base v) :=
  h.flashWrite ..

theorem State.Keeps.bootFail (h : r.Keeps s) (cause stage : Nat) : r.Keeps (s.bootFail cause stage) := by
  unfold State.bootFail
  have winter : r.Keeps (if 5 ≤ stage then s.dieWinter else s) := .ite h.dieWinter h
  generalize (if 5 ≤ stage then s.dieWinter else s) = t at winter
  refine State.Keeps.event (State.Keeps.raiseAlert (State.Keeps.sage (State.Keeps.count (State.Keeps.setFld (State.Keeps.setFld
    (State.Keeps.sage winter ?uds ?keys ?serial) ..) ..) ..) rfl rfl rfl)) ..
  case uds | keys | serial =>
    dsimp only
    repeat' split
    all_goals rfl

theorem State.Keeps.startAttempt (h : r.Keeps s) (full : Bool) : r.Keeps (s.startAttempt full) := by
  have trained : r.Keeps { s with sage := { s.sage with lpRetry := false } } := h.sage rfl rfl rfl
  unfold State.startAttempt
  exact .ite (trained.enterStage ..) (h.enterStage ..)

theorem State.Keeps.execBootBackoffExpiry (h : r.Keeps s) : Keeping r (execBootBackoffExpiry s) :=
  .next (.ite ((h.upd rfl rfl rfl).startAttempt ..) h)

theorem State.Keeps.execBootStageTimeout (h : r.Keeps s) : Keeping r (execBootStageTimeout s) :=
  .next (.ite (h.bootFail ..) h)

theorem State.Keeps.execBootRom (h : r.Keeps s) : Keeping r (execBootRom s) := by
  refine .next (.ite (State.Keeps.enterStage ?_ _) h)
  exact h.sage rfl rfl rfl

theorem State.Keeps.execBootHost (h : r.Keeps s) : Keeping r (execBootHost s) := by
  have loaded : r.Keeps { s with sage := { s.sage with rom := true } } := h.sage rfl rfl rfl
  exact .next (.ite (loaded.enterStage 2) h)

theorem State.Keeps.takeLeaf (h : r.Keeps s) : r.Keeps s.takeLeaf := by
  unfold State.takeLeaf
  exact .ite (h.upd rfl rfl rfl) ((h.dirWrite ..).upd rfl rfl rfl)

theorem State.Keeps.newAlias (h : r.Keeps s) : r.Keeps s.newAlias :=
  h.draw.takeLeaf.upd rfl rfl rfl

theorem State.Keeps.flashFail (h : r.Keeps s) (cause : Nat) : r.Keeps (s.flashFail cause) := by
  unfold State.flashFail
  exact .ite ((h.bootFail ..).event ..) (h.bootFail ..)

theorem State.Keeps.holdSvc (h : r.Keeps s) : r.Keeps s.holdSvc :=
  h.upd rfl rfl rfl

theorem State.Keeps.loadSvc (h : r.Keeps s) (m : Image) : r.Keeps (s.loadSvc m) :=
  ((h.store ..).store ..).store ..

theorem State.Keeps.releaseSvc (h : r.Keeps s) : r.Keeps s.releaseSvc := by
  unfold State.releaseSvc
  exact h.foldl (fun _ _ h => h.setCore ..) _

theorem State.Keeps.stageFlash (h : r.Keeps s) : r.Keeps s.stageFlash := by
  unfold State.stageFlash
  have picked := h.holdSvc.draw.setFld F.bootStat_IMAGE 0 s.pickImage
  dsimp only
  generalize s.holdSvc.draw.setFld F.bootStat_IMAGE 0 s.pickImage = t at picked
  refine .ite (picked.flashFail ..) ?_
  split
  · exact picked.flashFail ..
  · exact picked.flashFail ..
  · refine State.Keeps.enterStage (State.Keeps.newAlias (State.Keeps.setFld (State.Keeps.loadSvc ?_ ..) ..)) ..
    exact picked.sage rfl rfl rfl

theorem State.Keeps.execBootFlash (h : r.Keeps s) : Keeping r (execBootFlash s) :=
  .next (.ite h.stageFlash h)

theorem State.Keeps.applyRecord (h : r.Keeps s) (first : Bool) (key : Nat) (v : List Byte) :
    r.Keeps (s.applyRecord first key v) := by
  unfold State.applyRecord
  dsimp only
  split
  · exact .ite ((h.setReg ..).upd rfl rfl rfl) h
  · exact h.writePwrCap ..
  · exact .ite (h.setSceman ..) h
  · exact .ite (h.setReg ..) h
  · exact .ite (h.setEth ..) h
  · exact (h.setReg ..).setReg ..
  · exact (h.setReg ..).setReg ..
  · exact h.setReg ..
  · exact (h.setReg ..).setReg ..
  · exact h.foldl (fun _ _ h => h.setFld ..) _
  · exact h

theorem State.Keeps.applyRecords (h : r.Keeps s) (first : Bool) (n : Nat) (b : List Byte) :
    r.Keeps (State.applyRecords first n b s) := by
  induction n generalizing b s with
  | zero => exact h
  | succ n ih =>
    unfold State.applyRecords
    exact .ite h (ih (h.applyRecord ..) _)

theorem State.Keeps.configure (h : r.Keeps s) : r.Keeps s.configure := by
  unfold State.configure
  exact (((h.setSceman ..).foldl (fun _ _ h => h.setEth ..) _).applyRecords ..).setFld ..

theorem State.Keeps.trainLp (h : r.Keeps s) (failed : List Nat) : r.Keeps (s.trainLp failed) := by
  unfold State.trainLp
  exact (h.foldl (fun _ _ h => h.setFld ..) _).upd rfl rfl rfl

theorem State.Keeps.execBootIod (h : r.Keeps s) (failed : List Nat) : Keeping r (execBootIod failed s) := by
  have trained := h.trainLp failed
  exact .next (.ite (.ite (.ite (trained.enterStage 5) (trained.bootFail 7 3)) (trained.configure.releaseSvc.enterStage 4)) h)

theorem State.Keeps.execBootLinks (h : r.Keeps s) : Keeping r (execBootLinks s) := by
  have links := (h.foldl (f := fun t k => t.trainPort k) (fun _ _ h => h.trainPort ..) (List.range 6)).settleCoord
  have ports := links.foldl (f := fun t e => if t.ethUp e then t else t.ethTrain e) (fun _ _ h => .ite h (h.ethTrain ..)) (List.range 4)
  exact .next (.ite (.ite (ports.enterStage 5) (ports.bootFail 7 3)) h)

theorem State.Keeps.stageHbm (h : r.Keeps s) (repairs : List (Nat × Word)) : r.Keeps (s.stageHbm repairs) := by
  have repaired {t : State} (kept : r.Keeps t) (word : Nat → Word) :
      r.Keeps ((List.range 192).foldl (fun t c => t.setReg .memRepair c (word c)) t) := kept.foldl (fun _ _ h => h.setReg ..) _
  have rising := repaired ((h.setDie spring).setFld F.clkStat_LEVEL 0 0) fun c =>
    BitVec.ofNat 32 (((repairs.find? (fun r => r.1 == c)).map (fun r => r.2.toNat % 1024)).getD 0)
  unfold State.stageHbm
  dsimp only
  generalize List.foldl _ ((s.setDie spring).setFld F.clkStat_LEVEL 0 0) (List.range 192) = t at rising ⊢
  have waveless : r.Keeps { t with sage := { t.sage with wave := 0 } } := rising.sage rfl rfl rfl
  exact .ite (repaired (rising.bootFail ..) _) (waveless.enterStage ..)

theorem State.Keeps.execBootHbm (h : r.Keeps s) (repairs : List (Nat × Word)) : Keeping r (execBootHbm repairs s) :=
  .next (.ite (h.stageHbm ..) h)

theorem State.Keeps.execPowerWave (h : r.Keeps s) (good : Bool) : Keeping r (execPowerWave good s) := by
  have waved : r.Keeps { s with sage := { s.sage with wave := s.sage.wave + 1 } } := h.sage rfl rfl rfl
  exact .next (.ite (.ite (h.bootFail ..) (.ite waved (waved.enterStage 7))) h)

theorem State.Keeps.broadcast (h : r.Keeps s) (egs : List Nat) : r.Keeps (s.broadcast egs) := by
  unfold State.broadcast
  exact h.foldl (fun _ _ h => h.store ..) _

theorem State.Keeps.loadSfu (h : r.Keeps s) (egs : List Nat) : r.Keeps (s.loadSfu egs) := by
  unfold State.loadSfu
  exact h.foldl (fun _ _ h => (h.foldl (fun _ _ h => (h.setSfuTable ..).setSfuTable ..) _).setFld ..) _

theorem State.Keeps.execBootBroadcast (h : r.Keeps s) (good : Bool) : Keeping r (execBootBroadcast good s) :=
  .next (.ite (.ite (((h.broadcast ..).loadSfu ..).enterStage ..) (h.bootFail ..)) h)

theorem State.Keeps.dieSummer (h : r.Keeps s) : r.Keeps s.dieSummer := by
  unfold State.dieSummer
  exact State.Keeps.settleAlert (State.Keeps.sage (((h.setDie ..).setFld ..).setFld ..) rfl rfl rfl)

theorem State.Keeps.execBootSelftest (h : r.Keeps s) (failing : Option Nat) : Keeping r (execBootSelftest failing s) := by
  refine Keeping.inRange ?_
  refine .ite ?_ h
  split
  · exact h.dieSummer
  · exact (h.setFld ..).bootFail ..

theorem State.Keeps.bootGo (h : r.Keeps s) : r.Keeps s.bootGo := by
  have ready : r.Keeps { s with sage := { s.sage with phase := .ready } } := h.sage rfl rfl rfl
  unfold State.bootGo
  exact .ite (ready.setFld ..) h

theorem State.Keeps.bootRestart (h : r.Keeps s) : r.Keeps s.bootRestart := by
  unfold State.bootRestart
  exact .ite ((State.Keeps.ite h.dieWinter h).startAttempt ..) h

theorem State.Keeps.bootUpdate (h : r.Keeps s) : r.Keeps s.bootUpdate := by
  unfold State.bootUpdate
  dsimp only
  refine .ite h.draw ?_
  split
  · exact .ite (h.draw.setFld ..) ((h.draw.setFld ..).event ..)
  · exact (h.draw.flashWrite ..).dirWrite ..

theorem State.Keeps.alertClear (h : r.Keeps s) : r.Keeps s.alertClear :=
  h.upd rfl rfl rfl

theorem State.Keeps.commitSvn (h : r.Keeps s) : r.Keeps s.commitSvn := by
  unfold State.commitSvn
  split
  · exact .ite (h.setReg ..) h
  · exact h

theorem State.Keeps.ownerProg (h : r.Keeps s) : r.Keeps s.ownerProg := by
  have fused : r.Keeps { s with sage := { s.sage with fuseOwn := s.hostRead false s.haddr 96 } } := h.sage rfl rfl rfl
  unfold State.ownerProg
  exact .ite h (fused.draw.setFld ..)

theorem State.Keeps.execGo (h : r.Keeps s) (who : Requester) : Keeping r (execGo who s) :=
  .next (h.gated (hk := h.bootGo) ..)

theorem State.Keeps.execRestart (h : r.Keeps s) (who : Requester) : Keeping r (execRestart who s) :=
  .next (h.gated (hk := h.bootRestart) ..)

theorem State.Keeps.execFlashUpdate (h : r.Keeps s) (who : Requester) : Keeping r (execFlashUpdate who s) :=
  .next (h.gated (hk := h.bootUpdate) ..)

theorem State.Keeps.execAlertclr (h : r.Keeps s) (who : Requester) : Keeping r (execAlertclr who s) :=
  .next (h.gated (hk := h.alertClear) ..)

theorem State.Keeps.execCommitsvn (h : r.Keeps s) (who : Requester) : Keeping r (execCommitsvn who s) :=
  .next (h.gated (hk := h.commitSvn) ..)

theorem State.Keeps.execOwnerprog (h : r.Keeps s) (who : Requester) : Keeping r (execOwnerprog who s) :=
  .next (h.gated (hk := h.ownerProg) ..)

theorem State.Keeps.setBoard (h : r.Keeps s) (b : Board) : r.Keeps (s.setBoard b) :=
  h.upd rfl rfl rfl

theorem State.Keeps.pinReset (h : r.Keeps s) : r.Keeps s.pinReset := by
  have calm : r.Keeps { s with sage := { s.sage with failed := false } } := h.sage rfl rfl rfl
  unfold State.pinReset
  exact ((((calm.moduleReset true).setFld ..).setFld ..).setBoard ..).settleAlert

theorem State.Keeps.resetPulse (h : r.Keeps s) (ns : Nat) : r.Keeps (s.resetPulse ns) := by
  unfold State.resetPulse
  exact .ite h (.ite h.draw h.draw.pinReset)

theorem State.Keeps.execResetNAssert (h : r.Keeps s) (ns : Nat) : Keeping r (execResetNAssert ns s) :=
  .next (h.resetPulse ..)

theorem State.Keeps.execResetNRelease (h : r.Keeps s) : Keeping r (execResetNRelease s) :=
  .next ((h.setBoard ..).tryStart)

theorem State.Keeps.execPwrgoodLow (h : r.Keeps s) : Keeping r (execPwrgoodLow s) :=
  .next (.ite ((((h.moduleReset ..).setFld ..).setBoard ..).settleAlert) h)

theorem State.Keeps.execPwrgoodHigh (h : r.Keeps s) : Keeping r (execPwrgoodHigh s) :=
  .next ((h.setBoard ..).tryStart)

theorem State.Keeps.honourCrst (h : r.Keeps s) : r.Keeps s.honourCrst := by
  unfold State.honourCrst
  exact .ite (((h.setBoard ..).setFld ..).crstReset) (.ite (((h.setBoard ..).setFld ..).startAttempt ..) ((h.setBoard ..).setFld ..))

theorem State.Keeps.crstLevel (h : r.Keeps s) (active : Bool) : r.Keeps (s.crstLevel active) := by
  unfold State.crstLevel
  exact .ite (h.setBoard ..) ((h.setBoard ..).honourCrst)

theorem State.Keeps.execCrstNAssert (h : r.Keeps s) : Keeping r (execCrstNAssert s) :=
  .next (h.crstLevel ..)

theorem State.Keeps.execCrstNRelease (h : r.Keeps s) : Keeping r (execCrstNRelease s) :=
  .next (h.crstLevel ..)

theorem State.Keeps.execCrstNHoldEnd (h : r.Keeps s) : Keeping r (execCrstNHoldEnd s) :=
  .next (.ite ((h.setBoard ..).crstLevel ..) h)

theorem State.Keeps.execPerstAssert (h : r.Keeps s) (d : Nat) : Keeping r (execPerstAssert d s) :=
  .inRange (.ite h ((h.portReset ..).setBoard ..))

theorem State.Keeps.execPerstRelease (h : r.Keeps s) (d : Nat) : Keeping r (execPerstRelease d s) :=
  .inRange (h.setBoard ..)

theorem State.Keeps.execPcieRefclkLoss (h : r.Keeps s) (d : Nat) : Keeping r (execPcieRefclkLoss d s) :=
  .inRange (h.portDown ..)

theorem State.Keeps.linkUp (h : r.Keeps s) (d speed width : Nat) (flit : Bool) : r.Keeps (s.linkUp d speed width flit) :=
  (((h.setFld ..).setFld ..).setFld ..).setFld ..

theorem State.Keeps.execPcieLinkUp (h : r.Keeps s) (d speed width : Nat) (flit : Bool) :
    Keeping r (execPcieLinkUp d speed width flit s) :=
  .inRange (.ite (h.linkUp ..) h)

theorem State.Keeps.execSageWatchdog (h : r.Keeps s) : Keeping r (execSageWatchdog s) :=
  .next (.ite h (((((h.moduleReset ..).setFld ..).setFld ..).setFld ..).tryStart))

theorem State.Keeps.railsOff (h : r.Keeps s) (why : Shut) : r.Keeps (s.railsOff why) :=
  (((h.moduleReset ..).setFld ..).setBoard ..).setFld ..

theorem State.Keeps.railsOn (h : r.Keeps s) (why : Shut) : r.Keeps (s.railsOn why) := by
  unfold State.railsOn
  exact .ite ((h.setBoard ..).tryStart) h

theorem State.Keeps.execInputPowerOn (h : r.Keeps s) : Keeping r (execInputPowerOn s) :=
  .next (h.railsOn ..)

theorem State.Keeps.execInputUndervoltage (h : r.Keeps s) : Keeping r (execInputUndervoltage s) :=
  .next (h.railsOff ..)

theorem State.Keeps.execInputOvervoltage (h : r.Keeps s) : Keeping r (execInputOvervoltage s) :=
  .next (h.railsOff ..)

theorem State.Keeps.execInputOvercurrent (h : r.Keeps s) : Keeping r (execInputOvercurrent s) :=
  .next (h.railsOff ..)

theorem State.Keeps.execOvercurrentRestart (h : r.Keeps s) : Keeping r (execOvercurrentRestart s) :=
  .next (h.railsOn ..)

theorem State.Keeps.execInputOvervoltageRecovery (h : r.Keeps s) : Keeping r (execInputOvervoltageRecovery s) :=
  .next (h.railsOn ..)

theorem State.Keeps.execPowerStageOvertemp (h : r.Keeps s) : Keeping r (execPowerStageOvertemp s) :=
  .next (.ite h ((h.draw.criticalEvent ..).criticalIo))

theorem State.Keeps.execPresentNMate (h : r.Keeps s) : Keeping r (execPresentNMate s) :=
  .next ((h.setBoard ..).tryStart)

theorem State.Keeps.execAlwaysOnClockLoss (h : r.Keeps s) : Keeping r (execAlwaysOnClockLoss s) :=
  .next (.ite ((h.moduleReset ..).setBoard ..) h)

theorem State.Keeps.execAlwaysOnClockReturn (h : r.Keeps s) : Keeping r (execAlwaysOnClockReturn s) :=
  .next ((h.setBoard ..).tryStart)

theorem State.Keeps.fenRun (h : r.Keeps s) (r' : FenRun) : r.Keeps (s.fenRun r') :=
  (h.upd rfl rfl rfl).setFld ..

theorem State.Keeps.fenRead (h : r.Keeps s) (uid part : Nat) (x : Nat × Nat) : r.Keeps (State.fenRead uid part s x) :=
  (h.touch ..).note ..

theorem State.Keeps.fenWrite (h : r.Keeps s) (uid part : Nat) (x : Nat × List Byte) : r.Keeps (State.fenWrite uid part s x) :=
  (h.storeFor ..).putTouch ..

theorem State.Keeps.fenSwitch (h : r.Keeps s) (uid : Nat) (p : Pic) : r.Keeps (s.fenSwitch uid p) := by
  unfold State.fenSwitch
  dsimp only
  refine .ite h ?_
  refine State.Keeps.upd ?_ rfl rfl rfl
  refine State.Keeps.fenRead ?_ ..
  split
  · exact .ite (h.fenWrite ..) h
  · exact h

theorem State.Keeps.fenClear (h : r.Keeps s) (p : Pic) (e : PoolEntry) : r.Keeps (s.fenClear p e) :=
  h.fenWrite ..

theorem State.Keeps.fenFail (h : r.Keeps s) (d : List Byte) (uid : Nat) (x : Byte × Nat) : r.Keeps (s.fenFail d uid x) :=
  (State.Keeps.ite (h.noteUe ..) h).fenRun ..

theorem State.Keeps.fenCode (h : r.Keeps s) (d : List Byte) (uid : Nat) (p : Pic) (tab : List Byte) :
    r.Keeps (s.fenCode d uid p tab) := by
  unfold State.fenCode
  lift_lets
  intro e inputs s1 z ctx found streams out full fen s2 s3 s4
  have h1 : r.Keeps s1 := h.foldl (fun _ _ h => h.fenRead ..) _
  have h2 : r.Keeps s2 := h1.upd rfl rfl rfl
  have h3 : r.Keeps s3 := .ite h2 (.ite (h2.fenWrite ..).draw (h2.fenWrite ..))
  have h4 : r.Keeps s4 := .ite (h3.foldl (fun _ _ h => h.fenWrite ..) _) h3
  split
  · exact h1.fenFail ..
  · exact h4.fenRun ..

theorem State.Keeps.fenStart (h : r.Keeps s) (a : Nat) (d : List Byte) : r.Keeps (s.fenStart a d) := by
  unfold State.fenStart
  dsimp only
  refine .ite (((h.upd rfl rfl rfl).fenRead ..).fenRun ..) ?_
  refine .ite (((h.upd rfl rfl rfl).fenRead ..).fenRun ..) ?_
  split
  · exact ((h.upd rfl rfl rfl).fenRead ..).fenFail ..
  · refine .ite ((((h.upd rfl rfl rfl).fenRead ..).fenRead ..).fenRun ..) ?_
    split
    · exact ((((h.upd rfl rfl rfl).fenRead ..).fenRead ..).fenClear ..).fenFail ..
    · exact (((((h.upd rfl rfl rfl).fenRead ..).fenRead ..).fenClear ..).fenSwitch ..).fenCode ..

theorem State.Keeps.execFenEncode (h : r.Keeps s) : Keeping r (execFenEncode s) := by
  refine Keeping.next ?_
  split
  · exact .ite h (h.fenStart ..)
  · exact h

theorem State.Keeps.execFenDecode (h : r.Keeps s) : Keeping r (execFenDecode s) := by
  refine Keeping.next ?_
  split
  · exact .ite (h.fenStart ..) h
  · exact h

theorem State.Keeps.writePdqtail (h : r.Keeps s) (v : Word) : r.Keeps (s.writePdqtail v) := by
  unfold State.writePdqtail
  exact .ite ((h.setFld ..).writeIgnored ..) (h.setFld ..)

theorem State.Keeps.fenFor (h : r.Keeps s) (k : Nat) : r.Keeps (s.fenFor k) := by
  unfold State.fenFor
  dsimp only
  split
  · exact h.draw
  · exact ((State.Keeps.ite (((h.upd rfl rfl rfl).store ..).putRequest ..) (h.upd rfl rfl rfl)).draw).draw

theorem State.Keeps.publishPics (h : r.Keeps s) (who : Requester) (v : Word) : r.Keeps (s.publishPics who v) := by
  unfold State.publishPics
  exact .ite ((h.writePdqtail ..).foldl (fun _ _ h => h.fenFor ..) _) (h.writePdqtail ..)

theorem State.Keeps.execFenPdqtail (h : r.Keeps s) (who : Requester) (v : Word) : Keeping r (execFenPdqtail who v s) :=
  .next (h.gated (hk := h.publishPics ..) ..)

theorem State.Keeps.writeFenctl (h : r.Keeps s) (v : Word) : r.Keeps (s.writeFenctl v) := by
  unfold State.writeFenctl
  exact .ite (((h.setReg ..).upd rfl rfl rfl).setFld ..) (h.setReg ..)

theorem State.Keeps.execFenEnable (h : r.Keeps s) (who : Requester) (v : Word) : Keeping r (execFenEnable who v s) :=
  .next (h.gated (hk := h.writeFenctl ..) ..)

theorem State.Keeps.postAgain (h : r.Keeps s) (d : List Byte) (number : Option Nat) : r.Keeps (s.postAgain d number) :=
  ((h.upd rfl rfl rfl).store ..).writePdqtail ..

theorem State.Keeps.firmware (h : r.Keeps s) (p : Pic) (r' : FenRun) (result : Nat) (number : Option Nat) :
    r.Keeps (s.firmware p r' result number) := by
  unfold State.firmware
  dsimp only
  split
  · exact .ite (h.postAgain ..) h
  · split
    · exact h
    · refine .ite ?_ (.ite (h.completeRequest ..) h)
      split
      · exact h.pictureCoded ..
      · exact h.postAgain ..
      · exact h.putRequest ..

theorem State.Keeps.fenComplete (h : r.Keeps s) (x : FenRun) (fcycles misses : Nat) : r.Keeps (s.fenComplete x fcycles misses) := by
  unfold State.fenComplete
  lift_lets
  intro p gone st result bs may s1 m s2 s3 fen s4 s5 s6 post fen'
  have h1 : r.Keeps s1 := .ite (h.fenWrite ..) h
  have h2 : r.Keeps s2 := .ite (h1.fenWrite ..) h1
  have h3 : r.Keeps s3 := (h2.setFld ..).setFld ..
  have h4 : r.Keeps s4 := (h3.upd rfl rfl rfl).count ..
  have h6 : r.Keeps s6 := (State.Keeps.ite ((h4.send ..).svcInterrupt ..) h4).setTrace ..
  exact (h6.upd rfl rfl rfl).firmware ..

theorem State.Keeps.execPictureComplete (h : r.Keeps s) (fcycles slotMisses : Nat) :
    Keeping r (execPictureComplete fcycles slotMisses s) := by
  refine Keeping.next ?_
  split
  · exact h.fenComplete ..
  · exact h

theorem State.Keeps.seasonRefused (h : r.Keeps s) (p req : Nat) : r.Keeps (s.seasonRefused p req) :=
  h.writeIgnored ..

theorem State.Keeps.clearCounters (h : r.Keeps s) (eg : Nat) : r.Keeps (s.clearCounters eg) := by
  unfold State.clearCounters
  exact (h.foldl (fun _ _ h => h.setReg ..) _).setFld ..

theorem State.Keeps.emptySlots (h : r.Keeps s) (eg : Nat) : r.Keeps (s.emptySlots eg) :=
  (((h.dropTables ..).setFld ..).setFld ..).setReg ..

theorem State.Keeps.springClear (h : r.Keeps s) (p : Nat) : r.Keeps (s.springClear p) := by
  unfold State.springClear
  refine State.Keeps.loadSfu (State.Keeps.broadcast (State.Keeps.foldl (fun _ _ h => (h.clearCounters ..).emptySlots ..) _ ?_) ..) ..
  exact (h.dropMem _).upd rfl rfl rfl

theorem State.Keeps.reqSpring (h : r.Keeps s) (p : Nat) : r.Keeps (s.reqSpring p) := by
  unfold State.reqSpring
  exact .ite ((h.setSeason ..).springClear ..) (h.seasonRefused ..)

theorem State.Keeps.execPartitionSpring (h : r.Keeps s) (who : Requester) (p : Nat) : Keeping r (execPartitionSpring who p s) :=
  .inRange (h.gated (hk := h.reqSpring ..) ..)

theorem State.Keeps.settleJobs (h : r.Keeps s) (p : Nat) : r.Keeps (s.settleJobs p) := by
  unfold State.settleJobs
  exact h.foldl (fun _ _ h => h.settleJob ..) _

theorem State.Keeps.enterSummer (h : r.Keeps s) (p : Nat) : r.Keeps (s.enterSummer p) := by
  unfold State.enterSummer
  exact (((h.setSeason ..).setReg ..).foldl (fun _ _ h => h.startWheel ..) _).settleJobs ..

theorem State.Keeps.execPartitionClearingEnd (h : r.Keeps s) (p : Nat) : Keeping r (execPartitionClearingEnd p s) :=
  .inRange (.ite (h.enterSummer ..) h)

theorem State.Keeps.endWaits (h : r.Keeps s) (p : Nat) : r.Keeps (s.endWaits p) := by
  unfold State.endWaits
  exact h.foldl (fun _ _ h => ((h.upd rfl rfl rfl).holdQueue ..).finish ..) _

theorem State.Keeps.reqAutumn (h : r.Keeps s) (p : Nat) : r.Keeps (s.reqAutumn p) := by
  unfold State.reqAutumn
  exact .ite ((h.setSeason ..).endWaits ..) (h.seasonRefused ..)

theorem State.Keeps.execPartitionAutumn (h : r.Keeps s) (who : Requester) (p : Nat) : Keeping r (execPartitionAutumn who p s) :=
  .inRange (h.gated (hk := h.reqAutumn ..) ..)

theorem State.Keeps.drained (h : r.Keeps s) (p : Nat) : r.Keeps (s.drained p) :=
  ((h.setSeason ..).stopWheels ..).settleJobs ..

theorem State.Keeps.execPartitionDrained (h : r.Keeps s) (p : Nat) : Keeping r (execPartitionDrained p s) :=
  .inRange (.ite (h.drained ..) h)

theorem State.Keeps.execAutumnLimitExpiry (h : r.Keeps s) (p : Nat) : Keeping r (execAutumnLimitExpiry p s) :=
  .inRange (.ite (h.resetPart ..) h)

theorem State.Keeps.execPartitionReset (h : r.Keeps s) (who : Requester) (p : Nat) : Keeping r (execPartitionReset who p s) :=
  .inRange (h.gated (hk := h.resetPart ..) ..)

theorem State.Keeps.writePseason (h : r.Keeps s) (p : Nat) (v : Word) : r.Keeps (s.writePseason p v) := by
  unfold State.writePseason
  split
  · exact h.reqSpring ..
  · exact h.reqAutumn ..
  · exact h.resetPart ..
  · exact h

theorem State.Keeps.writePartmap (h : r.Keeps s) (v : Word) : r.Keeps (s.writePartmap v) := by
  unfold State.writePartmap
  exact .ite (h.setReg ..) ((h.setReg ..).writeIgnored ..)

theorem State.Keeps.execPartmapWrite (h : r.Keeps s) (who : Requester) (v : Word) : Keeping r (execPartmapWrite who v s) :=
  .next (h.gated (hk := h.writePartmap ..) ..)

theorem State.Keeps.readsAs (h : r.Keeps s) (v : Word) : r.Keeps (s.readsAs v) :=
  h.upd rfl rfl rfl

theorem State.Keeps.regRead (h : r.Keeps s) (who : Requester) (off : Nat) : r.Keeps (s.regRead who off) := by
  unfold State.regRead
  dsimp only
  refine .ite ((h.readsAs ..).refuse ..) ?_
  split
  · exact .ite ((h.readAt ..).readsAs ..) ((h.readsAs ..).refuse ..)
  · exact .ite (.ite (h.readsAs ..) ((h.readsAs ..).refuse ..)) (h.readsAs ..)

theorem State.Keeps.execRegReadLo (h : r.Keeps s) (who : Requester) (offset : Nat) : Keeping r (execRegReadLo who offset s) :=
  .next (h.regRead ..)

theorem State.Keeps.writeFnmap (h : r.Keeps s) (d : Nat) (v : Word) : r.Keeps (s.writeFnmap d v) := by
  unfold State.writeFnmap
  exact .ite (h.setReg ..) (h.writeIgnored ..)

theorem State.Keeps.writeEvcfg (h : r.Keeps s) (f : Nat) (v : Word) : r.Keeps (s.writeEvcfg f v) := by
  unfold State.writeEvcfg
  lift_lets
  intro was n s1 s2
  have h1 : r.Keeps s1 := .ite h ((h.setFld ..).setFld ..)
  have h2 : r.Keeps s2 := (h1.setFld ..).setFld ..
  exact .ite (h2.writeIgnored ..) (h2.setFld ..)

theorem State.Keeps.writeEvhead (h : r.Keeps s) (f : Nat) (v : Word) : r.Keeps (s.writeEvhead f v) :=
  (h.setFld ..).setReg ..

theorem State.Keeps.writeBootCtl (h : r.Keeps s) (v : Word) : r.Keeps (s.writeBootCtl v) := by
  unfold State.writeBootCtl
  lift_lets
  intro n s1 s2 s3 s4
  have h1 : r.Keeps s1 := h.setReg ..
  have h2 : r.Keeps s2 := .ite h1 h1.bootGo
  have h3 : r.Keeps s3 := .ite h2.bootRestart h2
  have h4 : r.Keeps s4 := .ite h3.bootUpdate h3
  exact .ite h4.alertClear h4

theorem State.Keeps.writeSecCtl (h : r.Keeps s) (v : Word) : r.Keeps (s.writeSecCtl v) := by
  unfold State.writeSecCtl
  exact .ite ((State.Keeps.ite h.commitSvn h).ownerProg) (.ite h.commitSvn h)

theorem State.Keeps.writePlain (h : r.Keeps s) (n : RegName) (i : Nat) (v : Word) : r.Keeps (s.writePlain n i v) :=
  h.writeEgReg ..

theorem State.Keeps.writeReg (h : r.Keeps s) (who : Requester) (n : RegName) (i : Nat) (v : Word) :
    r.Keeps (s.writeReg who n i v) := by
  unfold State.writeReg
  dsimp only
  split
  · exact (h.objAccess ..).upd rfl rfl rfl
  · exact h.writeSyncCfg ..
  · exact h.settleBounds.setBound ..
  · exact h.doorbell ..
  · exact h.writeQCfg ..
  · exact .ite h (h.writePlain ..)
  · exact .ite h (h.writePlain ..)
  · exact .ite h (h.writePlain ..)
  · exact .ite h (h.writePlain ..)
  · exact h.writeQCtrl ..
  · exact h.writeChead ..
  · exact h.writeQjob ..
  · exact h.writeWindow ..
  · exact h.writeWindow ..
  · exact h.writeWindow ..
  · exact h.writeMemWheel ..
  · exact h.writeWheel ..
  · exact h.writeWheel ..
  · exact h.writeJob ..
  · exact h.writeJctl ..
  · exact h.writePartcfg ..
  · exact h.writePartmap ..
  · exact h.writePseason ..
  · exact h.writeEvcfg ..
  · exact h.writeEvhead ..
  · exact .ite h (h.writePlain ..)
  · exact .ite h (h.writePlain ..)
  · exact h.writeLnkCfg ..
  · exact h.writeGrpctl ..
  · exact h.writeEthCfg ..
  · exact h.publishPics ..
  · exact h.writeFenctl ..
  · exact h.writePwrCap ..
  · exact h.writeBudget ..
  · exact h.writeBudget ..
  · exact h.writeBootCtl ..
  · exact h.writeSecCtl ..
  · exact h.writeFnmap ..
  · exact .ite ((h.writePlain ..).setReg ..) (h.writePlain ..)
  · exact h.writePlain ..

theorem State.Keeps.regWrite (h : r.Keeps s) (who : Requester) (off : Nat) (v : Word) : r.Keeps (s.regWrite who off v) := by
  unfold State.regWrite
  refine .ite (h.refuse ..) ?_
  split
  · exact h
  · exact .ite (h.writeReg ..) (h.refuse ..)

theorem State.Keeps.execRegWrite (h : r.Keeps s) (who : Requester) (offset : Nat) (v : Word) :
    Keeping r (execRegWrite who offset v s) :=
  .next (h.regWrite ..)

theorem State.Keeps.execPciFnmapWrite (h : r.Keeps s) (who : Requester) (n : Nat) (v : Word) :
    Keeping r (execPciFnmapWrite who n v s) :=
  .inRange (h.gated (hk := h.writeFnmap ..) ..)

theorem State.Keeps.execSysEvcfgEnable (h : r.Keeps s) (who : Requester) (n : Nat) (v : Word) :
    Keeping r (execSysEvcfgEnable who n v s) :=
  .inRange (h.gated (hk := h.writeEvcfg ..) ..)

theorem State.Keeps.execEvheadWrite (h : r.Keeps s) (who : Requester) (n : Nat) (v : Word) :
    Keeping r (execEvheadWrite who n v s) :=
  .inRange (h.gated (hk := h.writeEvhead ..) ..)

theorem State.Keeps.bar2Read (h : r.Keeps s) (who : Requester) (a n : Nat) : r.Keeps (s.bar2Read who a n) := by
  unfold State.bar2Read
  exact .ite (((h.draw.upd rfl rfl rfl).refuse ..).send ..) (((h.draw.upd rfl rfl rfl).touch ..).foldl (fun _ _ h => h.noteUe ..) _)

theorem State.Keeps.execBar2Read (h : r.Keeps s) (who : Requester) (addr len : Nat) : Keeping r (execBar2Read who addr len s) :=
  .next (.ite (h.bar2Read ..) h)

theorem State.Keeps.bar2Write (h : r.Keeps s) (who : Requester) (a : Nat) (bs : List Byte) : r.Keeps (s.bar2Write who a bs) := by
  unfold State.bar2Write
  exact .ite (h.draw.refuse ..) (.ite h.draw (h.draw.storeWhole ..))

theorem State.Keeps.execBar2Write (h : r.Keeps s) (who : Requester) (addr : Nat) (data : List Byte) :
    Keeping r (execBar2Write who addr data s) :=
  .next (.ite (h.bar2Write ..) h)

theorem State.Keeps.clearFn (h : r.Keeps s) (f : Nat) : r.Keeps (s.clearFn f) :=
  (h.setFn ..).setFld ..

theorem State.Keeps.flrVf (h : r.Keeps s) (d v : Nat) : r.Keeps (s.flrVf d v) := by
  unfold State.flrVf
  dsimp only
  split
  · exact .ite ((h.clearFn ..).resetPart ..) (h.clearFn ..)
  · exact h.clearFn ..

theorem State.Keeps.flrPf (h : r.Keeps s) (d : Nat) : r.Keeps (s.flrPf d) := by
  unfold State.flrPf
  exact ((h.foldl (fun _ _ h => h.clearFn ..) _).upd rfl rfl rfl).setFld ..

theorem State.Keeps.execFlr (h : r.Keeps s) (d fn : Nat) : Keeping r (execFlr d fn s) :=
  .inRange (.ite (h.flrPf ..) (.ite (h.flrVf ..) h))

theorem State.Keeps.execD3hot (h : r.Keeps s) (d fn : Nat) (enter : Bool) : Keeping r (execD3hot d fn enter s) :=
  .inRange (.ite (h.setFn ..) h)

theorem State.Keeps.setVf (h : r.Keeps s) (d v : Nat) (on : Bool) : r.Keeps (s.setVf d v on) := by
  unfold State.setVf
  exact .ite h ((h.setFld ..).setFn ..)

theorem State.Keeps.execVfEnable (h : r.Keeps s) (d v : Nat) (on : Bool) : Keeping r (execVfEnable d v on s) :=
  .inRange (h.setVf ..)

theorem State.Keeps.setSpdm (h : r.Keeps s) (d : Nat) (x : Spdm) : r.Keeps (s.setSpdm d x) :=
  h.upd rfl rfl rfl

theorem State.Keeps.spdmRefuse (h : r.Keeps s) (d code : Nat) : r.Keeps (s.spdmRefuse d code) :=
  h.send ..

theorem State.Keeps.spdmRun (h : r.Keeps s) (d code phase : Nat) (req : List Byte) (k : Unit → State) (hk : ∀ y0, r.Keeps (k y0)) :
    r.Keeps (s.spdmRun d code phase req k) := by
  unfold State.spdmRun
  exact .ite h (.ite (h.spdmRefuse ..) (.ite (h.spdmRefuse ..) (hk _)))

theorem State.Keeps.spdmAnswer (h : r.Keeps s) (d : Nat) (x : Spdm) (raw : List Byte) : r.Keeps (s.spdmAnswer d x raw) :=
  (h.setSpdm ..).send ..

theorem State.Keeps.spdmVersion (h : r.Keeps s) (d : Nat) (req : List Byte) : r.Keeps (s.spdmVersion d req) := by
  unfold State.spdmVersion
  exact .ite h (.ite (h.spdmRefuse ..) (h.spdmAnswer ..))

theorem State.Keeps.execGetVersion (h : r.Keeps s) (d : Nat) (req : List Byte) : Keeping r (execGetVersion d req s) :=
  .inRange (h.spdmVersion ..)

theorem State.Keeps.spdmCaps (h : r.Keeps s) (d : Nat) (req : List Byte) : r.Keeps (s.spdmCaps d req) := by
  unfold State.spdmCaps
  exact h.spdmRun (hk := fun _ => .ite (h.spdmRefuse ..) (.ite (h.spdmRefuse ..) (h.spdmAnswer ..))) ..

theorem State.Keeps.execGetCapabilities (h : r.Keeps s) (d : Nat) (req : List Byte) : Keeping r (execGetCapabilities d req s) :=
  .inRange (h.spdmCaps ..)

theorem State.Keeps.spdmAlgs (h : r.Keeps s) (d : Nat) (req : List Byte) : r.Keeps (s.spdmAlgs d req) := by
  unfold State.spdmAlgs
  exact h.spdmRun (hk := fun _ => .ite (h.spdmRefuse ..) (.ite (h.spdmRefuse ..) (h.spdmAnswer ..))) ..

theorem State.Keeps.execNegotiateAlgorithms (h : r.Keeps s) (d : Nat) (req : List Byte) :
    Keeping r (execNegotiateAlgorithms d req s) :=
  .inRange (h.spdmAlgs ..)

theorem State.Keeps.spdmDigests (h : r.Keeps s) (d : Nat) (req : List Byte) : r.Keeps (s.spdmDigests d req) := by
  unfold State.spdmDigests
  exact h.spdmRun (hk := fun _ => .ite (h.spdmRefuse ..) (h.spdmAnswer ..)) ..

theorem State.Keeps.execGetDigests (h : r.Keeps s) (d : Nat) (req : List Byte) : Keeping r (execGetDigests d req s) :=
  .inRange (h.spdmDigests ..)

theorem State.Keeps.spdmCert (h : r.Keeps s) (d : Nat) (req : List Byte) : r.Keeps (s.spdmCert d req) := by
  unfold State.spdmCert
  exact h.spdmRun (hk := fun _ => .ite (h.spdmRefuse ..) (.ite (h.spdmRefuse ..) (h.spdmAnswer ..))) ..

theorem State.Keeps.execGetCertificate (h : r.Keeps s) (d : Nat) (req : List Byte) : Keeping r (execGetCertificate d req s) :=
  .inRange (h.spdmCert ..)

theorem State.Keeps.aliasSign (h : r.Keeps s) (d : Nat) (context : String) (transcript : List Byte) :
    r.Keeps (s.aliasSign d context transcript).2 := by
  unfold State.aliasSign
  exact .ite ((h.draw.setSpdm ..).upd rfl rfl rfl) ((h.draw.setSpdm ..).newAlias)

theorem State.Keeps.spdmChallenge (h : r.Keeps s) (d : Nat) (req : List Byte) : r.Keeps (s.spdmChallenge d req) := by
  unfold State.spdmChallenge
  exact h.spdmRun (hk := fun _ => .ite (h.spdmRefuse ..) (.ite (h.spdmRefuse ..) ((h.draw.draw.aliasSign ..).spdmAnswer ..))) ..

theorem State.Keeps.execChallenge (h : r.Keeps s) (d : Nat) (req : List Byte) : Keeping r (execChallenge d req s) :=
  .inRange (h.spdmChallenge ..)

theorem State.Keeps.spdmMeas (h : r.Keeps s) (d : Nat) (req : List Byte) : r.Keeps (s.spdmMeas d req) := by
  unfold State.spdmMeas
  refine h.spdmRun (hk := fun _ => .ite (h.spdmRefuse ..) (.ite (h.spdmRefuse ..) ?_)) ..
  exact .ite ((h.draw.aliasSign ..).spdmAnswer ..) (h.draw.spdmAnswer ..)

theorem State.Keeps.execGetMeasurements (h : r.Keeps s) (d : Nat) (req : List Byte) : Keeping r (execGetMeasurements d req s) :=
  .inRange (h.spdmMeas ..)

theorem State.Keeps.spdmVendor (h : r.Keeps s) (d : Nat) (req : List Byte) : r.Keeps (s.spdmVendor d req) := by
  unfold State.spdmVendor
  exact h.spdmRun (hk := fun _ => .ite (h.spdmRefuse ..) (.ite (h.spdmRefuse ..) (h.spdmAnswer ..))) ..

theorem State.Keeps.execVendorDefinedRequest (h : r.Keeps s) (d : Nat) (req : List Byte) :
    Keeping r (execVendorDefinedRequest d req s) :=
  .inRange (h.spdmVendor ..)

end Sys2Proof.Machine
end

