-- ==== Sys2Proof/Proofs/KeepsVector.lean ====
section
/-!
SUPPORT. What every command keeps: vector instructions of cores and what cores post.
-/

set_option Elab.async false

namespace Sys2Proof.Machine

open Sys2Proof

variable {r s : State}

theorem State.Keeps.execVset (h : r.Keeps s) (k : Core) (w len : Nat) : RvOut.Keeps r (execVset s k w len) := by
  unfold Machine.execVset
  exact .ite .illegal (.ite (h.outX ..) (h.outX ..))

theorem State.Keeps.vdone (h : r.Keeps s) (k : Core) (len vd n ival lat : Nat) : RvOut.Keeps r (vdone s k len vd n ival lat) :=
  h.rvDone ..

theorem State.Keeps.varith (h : r.Keeps s) (k0 k : Core) (len vd : Nat) : RvOut.Keeps r (varith s k0 k len vd) :=
  h.vdone ..

theorem State.Keeps.varithW (h : r.Keeps s) (k0 k : Core) (len vd : Nat) : RvOut.Keeps r (varithW s k0 k len vd) :=
  h.vdone ..

theorem State.Keeps.varith1 (h : r.Keeps s) (k0 k : Core) (len vd : Nat) : RvOut.Keeps r (varith1 s k0 k len vd) :=
  h.vdone ..

theorem State.Keeps.vreduce (h : r.Keeps s) (k0 k : Core) (len vd : Nat) : RvOut.Keeps r (vreduce s k0 k len vd) :=
  h.vdone ..

theorem State.Keeps.vloadGo (h : r.Keeps s) (eg : Nat) (first : Bool) (l : List (Nat × Nat × Nat × Nat)) (k : Core) :
    RvOut.Keeps r (State.vloadGo eg first l s k) := by
  induction l generalizing s k with
  | nil => exact h
  | cons x l ih =>
    have read := h.coreRead k eg x.2.2.2 (x.2.1 / 8)
    unfold State.vloadGo
    split
    · exact .ite h h
    · trivial
    case h_3 v s1 eq => exact ih (eq ▸ read : MemRes.Keeps r (.ok v s1)) _

theorem State.Keeps.execVload (h : r.Keeps s) (eg c : Nat) (k : Core) (w len t : Nat) :
    RvOut.Keeps r (s.execVload eg c k w len t) := by
  unfold State.execVload
  split
  · exact .illegal
  case h_2 l found =>
    have go := h.vloadGo eg (bits w 26 2 = 0 ∧ rvRs2 w = 16) l k
    split
    case h_1 d eq => exact State.Keeps.vdone (eq ▸ go : RvOut.Keeps r (.done d)) ..
    case h_2 => exact go

theorem State.Keeps.vstoreGo (h : r.Keeps s) (eg : Nat) (k : Core) (l : List (Nat × Nat × Nat × Nat)) :
    RvOut.Keeps r (State.vstoreGo eg k l s) := by
  induction l generalizing s with
  | nil => exact h
  | cons x l ih =>
    have write := h.coreWrite k eg x.2.2.2 (x.2.1 / 8) (k.velem x.1 x.2.1 x.2.2.1)
    unfold State.vstoreGo
    split
    · exact h
    · trivial
    case h_3 v s1 eq => exact ih (eq ▸ write : MemRes.Keeps r (.ok v s1))

theorem State.Keeps.execVstore (h : r.Keeps s) (eg c : Nat) (k : Core) (w len t : Nat) :
    RvOut.Keeps r (s.execVstore eg c k w len t) := by
  unfold State.execVstore
  split
  · exact .illegal
  case h_2 l found =>
    have go := h.vstoreGo eg k l
    refine .ite .illegal ?_
    split
    case h_1 d eq => exact State.Keeps.vdone (eq ▸ go : RvOut.Keeps r (.done d)) ..
    case h_2 => exact go

theorem State.Keeps.execVopI (h : r.Keeps s) (k : Core) (w len : Nat) : RvOut.Keeps r (execVopI s k w len) := by
  unfold Machine.execVopI
  dsimp only
  split
  · exact .ite (h.varith ..) .illegal
  · exact .ite (.ite (h.varith ..) .illegal) (.ite (h.varith ..) .illegal)
  · exact .ite .illegal (.ite (h.varith ..) .illegal)
  · exact .ite .illegal (.ite (h.varith ..) .illegal)
  · exact .ite .illegal (.ite (h.varith ..) .illegal)
  · exact .ite (h.varith1 ..) .illegal
  · exact .ite .illegal (.ite (h.varith1 ..) .illegal)
  · exact .ite (.ite (.ite (h.varith ..) .illegal) .illegal) (.ite (h.varith ..) .illegal)
  · exact .ite .illegal (h.vreduce ..)
  · exact .ite .illegal (h.vreduce ..)
  · refine .ite (.ite (h.vdone ..) .illegal) ?_
    split
    · exact .ite .illegal (.ite (h.varith ..) .illegal)
    · exact .ite .illegal (.ite (h.varith1 ..) .illegal)
    · exact .ite (h.varith ..) .illegal
    · exact .ite (h.varith ..) .illegal
    · exact .illegal

theorem State.Keeps.execVmunary (h : r.Keeps s) (k : Core) (w len : Nat) : RvOut.Keeps r (execVmunary s k w len) := by
  unfold Machine.execVmunary
  dsimp only
  refine .ite .illegal ?_
  split
  · exact h.varith1 ..
  · exact h.varith1 ..
  · exact h.varith1 ..
  · exact h.varith ..
  · exact h.varith ..
  · exact .illegal

theorem State.Keeps.execVopM (h : r.Keeps s) (k : Core) (w len : Nat) : RvOut.Keeps r (execVopM s k w len) := by
  unfold Machine.execVopM
  dsimp only
  refine .ite (.ite .illegal (h.vreduce ..)) ?_
  split
  · exact .ite .illegal (h.varith ..)
  · exact .ite .illegal (h.varith ..)
  · refine .ite ?_ (.ite (h.varith1 ..) .illegal)
    split
    · exact h.outX ..
    · exact h.outX ..
    · exact h.outX ..
    · exact .illegal
  · exact .ite .illegal (h.varith ..)
  · exact .ite (h.execVmunary ..) .illegal
  · exact .ite .illegal (h.varith ..)
  · refine .ite (.ite (h.varith1 ..) .illegal) ?_
    split
    · exact .ite (h.varith ..) .illegal
    · exact .ite (h.varithW ..) .illegal
    · exact .illegal

theorem State.Keeps.vreduceF (h : r.Keeps s) (k : Core) (len vd w : Nat) (r' : FRes) : RvOut.Keeps r (vreduceF s k len vd w r') :=
  h.vreduce ..

theorem State.Keeps.execVcvt (h : r.Keeps s) (k : Core) (w len rm : Nat) : RvOut.Keeps r (execVcvt s k w len rm) := by
  unfold Machine.execVcvt
  dsimp only
  split
  · exact .ite (h.vdone ..) .illegal
  · exact .illegal

theorem State.Keeps.execVopF (h : r.Keeps s) (k : Core) (w len : Nat) : RvOut.Keeps r (execVopF s k w len) := by
  unfold Machine.execVopF
  dsimp only
  split
  · split
    · exact .ite (h.vreduceF ..) .illegal
    · exact .ite (h.vreduceF ..) .illegal
    · exact .ite (h.vreduceF ..) .illegal
    · exact .ite (h.vreduceF ..) .illegal
    · split
      · exact .ite (h.vreduceF ..) .illegal
      · exact .illegal
    · split
      · exact .ite (h.vreduceF ..) .illegal
      · exact .illegal
    · exact .ite .illegal (h.varith ..)
    · exact .ite .illegal (h.varith ..)
    · exact .ite (.ite (h.outF ..) .illegal) (.ite (h.varith1 ..) .illegal)
    · refine .ite .illegal ?_
      split
      · exact h.vdone ..
      · exact h.varith ..
      · exact h.varith ..
      · exact h.varith ..
      · exact .illegal
    · exact .ite .illegal (.ite (.ite (h.varith ..) .illegal) (.ite (h.varith ..) .illegal))
    · split
      · exact .ite .illegal (.ite (h.vdone ..) (h.varith ..))
      · exact .ite .illegal (h.varith1 ..)
      · exact .ite (h.varithW ..) .illegal
      · exact .illegal
  · exact .illegal

theorem State.Keeps.coreVoidAtZero (h : r.Keeps s) (k : Core) (len : Nat) (o : RvOut) (ho : RvOut.Keeps r o) :
    RvOut.Keeps r (Core.voidAtZero k s len o) := by
  unfold Core.voidAtZero
  refine .ite ho ?_
  split
  · exact .ite ho (h.outN ..)
  · exact h.outN ..

theorem State.Keeps.runClrun (h : r.Keeps s) (c : Cmd) : r.Keeps (s.runClrun c) := by
  unfold State.runClrun
  exact ((h.foldl (fun _ _ h => h.setCore ..) _).setFld ..).setClruns ..

theorem State.Keeps.execClrun (h : r.Keeps s) (i : Issuer) : Keeping r (execClrun i s) :=
  .inRange (h.issueRow (hrun := fun _ _ h => h.runClrun ..) ..)

theorem State.Keeps.coreTrap (h : r.Keeps s) (eg c : Nat) (k : Core) (cause : Nat) : r.Keeps (s.coreTrap eg c k cause) := by
  unfold State.coreTrap
  exact .ite (h.setCore ..) ((h.coreFault ..).settleCluster ..)

theorem State.Keeps.coreEcc (h : r.Keeps s) (eg c t a : Nat) : r.Keeps (s.coreEcc eg c t a) := by
  unfold State.coreEcc
  exact .ite (h.setCore ..) ((h.stopCore ..).settleCluster ..)

theorem State.Keeps.commit (h : r.Keeps s) (eg c : Nat) (k : Core) (t : Nat) {o : RvOut} (ho : o.Keeps r) :
    r.Keeps (s.commit eg c k t o) := by
  cases o with
  | done d => exact State.Keeps.setCore ho ..
  | trap cause => exact h.coreTrap ..
  | trapAt s1 cause => exact State.Keeps.coreTrap ho ..
  | ecc a => exact (h.noteUe ..).coreEcc ..

theorem State.Keeps.runCore (h : r.Keeps s) (eg c : Nat) (base : Bool) (mine : Nat → Bool)
    (go : State → Core → Nat → Nat → Nat → State) (hgo : ∀ y0 y1 y2 y3 y4, r.Keeps y0 → r.Keeps (go y0 y1 y2 y3 y4)) :
    r.Keeps (s.runCore eg c base mine go) := by
  unfold State.runCore
  dsimp only
  refine .ite h ?_
  split
  · exact .ite (h.coreTrap ..) h
  · exact .ite ((h.noteUe ..).coreEcc ..) h
  · exact .ite h (hgo _ _ _ _ _ (((State.Keeps.ite h (h.act ..)).until ..).setCore ..))

theorem State.Keeps.rvScalar (h : r.Keeps s) (eg c : Nat) (k : Core) (w len t : Nat) :
    RvOut.Keeps r ((s.rvScalar eg c k w len t).getD illegal) := by
  unfold State.rvScalar
  dsimp only
  split
  · exact h.outX ..
  · exact h.outX ..
  · exact h.execJump ..
  · exact .ite (h.execJump ..) .illegal
  · exact h.execBranch ..
  · exact h.execLoad ..
  · exact h.execStore ..
  · exact h.execOpImm ..
  · exact h.execOpImm ..
  · exact h.execOp ..
  · exact h.execOp ..
  · exact .ite (h.outN ..) (.ite (h.outN ..) .illegal)
  · exact .ite (h.execSystem ..) (.ite .illegal (h.execCsr ..))
  · exact h.execAtomic ..
  · split
    · exact .illegal
    · exact h.execLoad ..
  · split
    · exact .illegal
    · exact h.execStore ..
  · exact h.execFma ..
  · exact h.execFma ..
  · exact h.execFma ..
  · exact h.execFma ..
  · exact h.execOpFp ..
  · exact .illegal
  · exact .illegal
  · exact .illegal

theorem State.Keeps.rvVector (h : r.Keeps s) (eg c : Nat) (k : Core) (w len t : Nat) :
    RvOut.Keeps r ((s.rvVector eg c k w len t).getD illegal) := by
  have void {o : RvOut} (kept : o.Keeps r) : RvOut.Keeps r (k.voidAtZero s len o) := h.coreVoidAtZero (ho := kept) ..
  unfold State.rvVector
  split
  · exact void (h.execVload ..)
  · exact void (h.execVstore ..)
  · split
    · exact h.execVset ..
    · split
      · exact .illegal
      · split
        · exact void (h.execVopI ..)
        · exact void (h.execVopI ..)
        · exact void (h.execVopI ..)
        · exact void (h.execVopM ..)
        · exact void (h.execVopM ..)
        · exact void (.ite (h.execVopF ..) (.ite .illegal (h.execVcvt ..)))
        · exact void (h.execVopF ..)
  · exact .illegal

theorem State.Keeps.coreInstr (h : r.Keeps s) (eg c : Nat) (k : Core) (w len t : Nat) :
    r.Keeps (State.coreInstr eg c s k w len t) := by
  have scalar := h.rvScalar eg c k w len t
  unfold State.coreInstr
  refine h.commit _ _ _ _ ?_
  split
  case h_1 o eq =>
    rw [eq] at scalar
    exact scalar
  case h_2 => exact h.rvVector ..

theorem State.Keeps.svcTakes (h : r.Keeps s) (eg c : Nat) : r.Keeps (s.svcTakes eg c) :=
  (h.upd rfl rfl rfl).setCore ..

theorem State.Keeps.execBasilInstruction (h : r.Keeps s) (eg c : Nat) : Keeping r (execBasilInstruction eg c s) :=
  .inRange (.ite (h.svcTakes ..) (h.runCore (hgo := fun _ _ _ _ _ h => h.coreInstr ..) ..))

theorem State.Keeps.postCmd (h : r.Keeps s) (eg c : Nat) (k : Core) (w len t : Nat) (b : List Byte) (ival : Nat) :
    r.Keeps (s.postCmd eg c k w len t b ival) := by
  unfold State.postCmd
  dsimp only
  split
  · exact h
  · exact .ite (h.setCore ..) (((h.setPosts ..).upd rfl rfl rfl).commit (ho := ((h.setPosts ..).upd rfl rfl rfl).outX ..) ..)

theorem State.Keeps.withBytes (h : r.Keeps s) (eg c : Nat) (k : Core) (t a n : Nat) (go : List Byte → State)
    (hgo : ∀ y0, r.Keeps (go y0)) : r.Keeps (s.withBytes eg c k t a n go) := by
  unfold State.withBytes
  refine .ite (h.commit (ho := trivial) ..) ?_
  split
  · exact h.commit (ho := trivial) ..
  · exact hgo _

theorem State.Keeps.tlPost (h : r.Keeps s) (eg c : Nat) (k : Core) (w len t : Nat) : r.Keeps (State.tlPost eg c s k w len t) := by
  unfold State.tlPost
  exact .ite (h.commit (ho := .illegal) ..) (h.withBytes (hgo := fun _ => h.postCmd ..) ..)

theorem State.Keeps.execTlPost (h : r.Keeps s) (eg c : Nat) : Keeping r (execTlPost eg c s) :=
  .inRange (h.runCore (hgo := fun _ _ _ _ _ h => h.tlPost ..) ..)

theorem State.Keeps.tlDma (h : r.Keeps s) (eg c : Nat) (k : Core) (w len t : Nat) : r.Keeps (State.tlDma eg c s k w len t) := by
  unfold State.tlDma
  exact h.withBytes (hgo := fun _ => h.postCmd ..) ..

theorem State.Keeps.execTlDma (h : r.Keeps s) (eg c : Nat) : Keeping r (execTlDma eg c s) :=
  .inRange (h.runCore (hgo := fun _ _ _ _ _ h => h.tlDma ..) ..)

theorem State.Keeps.ticketStatus (h : r.Keeps s) (k : Core) (n : Nat) : r.Keeps (s.ticketStatus k n).1 := by
  unfold State.ticketStatus
  split
  · exact h
  · exact h.draw

theorem State.Keeps.tlWait (h : r.Keeps s) (eg c : Nat) (k : Core) (w len t : Nat) : r.Keeps (State.tlWait eg c s k w len t) := by
  unfold State.tlWait
  exact .ite (h.commit (ho := h.outN ..) ..) (h.commit (ho := (h.ticketStatus ..).outX ..) ..)

theorem State.Keeps.execTlWait (h : r.Keeps s) (eg c : Nat) : Keeping r (execTlWait eg c s) :=
  .inRange (h.runCore (hgo := fun _ _ _ _ _ h => h.tlWait ..) ..)

theorem State.Keeps.tlTest (h : r.Keeps s) (eg c : Nat) (k : Core) (w len t : Nat) : r.Keeps (State.tlTest eg c s k w len t) := by
  unfold State.tlTest
  exact h.commit (ho := (State.Keeps.iteOn Prod.fst h (h.ticketStatus ..)).outX ..) ..

theorem State.Keeps.execTlTest (h : r.Keeps s) (eg c : Nat) : Keeping r (execTlTest eg c s) :=
  .inRange (h.runCore (hgo := fun _ _ _ _ _ h => h.tlTest ..) ..)

theorem State.Keeps.returnTicket (h : r.Keeps s) (eg c n : Nat) : r.Keeps (s.returnTicket eg c n) := by
  unfold State.returnTicket
  dsimp only
  split
  · exact h
  · split
    · exact h
    · exact h.setCore ..

theorem State.Keeps.execTicketCompletion (h : r.Keeps s) (eg c t : Nat) : Keeping r (execTicketCompletion eg c t s) :=
  .inRange (h.returnTicket ..)

theorem State.Keeps.tlEnd (h : r.Keeps s) (eg c : Nat) (k : Core) (w x6 t : Nat) : r.Keeps (State.tlEnd eg c s k w x6 t) := by
  unfold State.tlEnd
  exact .ite (h.commit (ho := .illegal) ..) ((h.stopCore ..).settleCluster ..)

theorem State.Keeps.execTlEnd (h : r.Keeps s) (eg c : Nat) : Keeping r (execTlEnd eg c s) :=
  .inRange (h.runCore (hgo := fun _ _ _ _ _ h => h.tlEnd ..) ..)

theorem State.Keeps.coreSoOp (h : r.Keeps s) (eg c : Nat) (k : Core) (w len t : Nat) :
    r.Keeps (State.coreSoOp eg c s k w len t) := by
  unfold State.coreSoOp
  exact .ite (h.commit (ho := trivial) ..) (h.commit (ho := (h.objOp ..).outX ..) ..)

theorem State.Keeps.execSoOp (h : r.Keeps s) (eg c : Nat) : Keeping r (execSoOp eg c s) :=
  .inRange (h.runCore (hgo := fun _ _ _ _ _ h => h.coreSoOp ..) ..)

theorem State.Keeps.coreSoWait (h : r.Keeps s) (eg c : Nat) (k : Core) (w len t : Nat) :
    r.Keeps (State.coreSoWait eg c s k w len t) := by
  unfold State.coreSoWait
  exact .ite (h.commit (ho := trivial) ..) (.ite (h.commit (ho := h.outX ..) ..) (h.commit (ho := h.outN ..) ..))

theorem State.Keeps.execSoWait (h : r.Keeps s) (eg c : Nat) : Keeping r (execSoWait eg c s) :=
  .inRange (h.runCore (hgo := fun _ _ _ _ _ h => h.coreSoWait ..) ..)

theorem State.Keeps.soTimeout (h : r.Keeps s) (eg c : Nat) : r.Keeps (s.soTimeout eg c) := by
  unfold State.soTimeout
  dsimp only
  split
  · exact .ite h ((h.until ..).setCore ..)
  · exact h

theorem State.Keeps.execSoWaitTimeout (h : r.Keeps s) (eg c : Nat) : Keeping r (execSoWaitTimeout eg c s) :=
  .inRange (h.soTimeout ..)

theorem State.Keeps.claim (h : r.Keeps s) (o gen n : Nat) : r.Keeps (s.claim o gen n).2 := by
  unfold State.claim
  exact .iteOn Prod.snd h (.iteOn Prod.snd h (h.setReg ..))

theorem State.Keeps.coreClaim (h : r.Keeps s) (eg c : Nat) (k : Core) (w len t : Nat) :
    r.Keeps (State.coreClaim eg c s k w len t) := by
  unfold State.coreClaim
  exact .ite (h.commit (ho := trivial) ..) (h.commit (ho := (h.claim ..).outX ..) ..)

theorem State.Keeps.execSoClaim (h : r.Keeps s) (eg c : Nat) : Keeping r (execSoClaim eg c s) :=
  .inRange (h.runCore (hgo := fun _ _ _ _ _ h => h.coreClaim ..) ..)

theorem State.Keeps.tlBld (h : r.Keeps s) (eg c : Nat) (k : Core) (w len t : Nat) : r.Keeps (State.tlBld eg c s k w len t) := by
  unfold State.tlBld
  exact h.withBytes (hgo := fun _ => .ite (h.commit (ho := h.outX ..) ..) (h.coreEcc ..)) ..

theorem State.Keeps.execTlBld (h : r.Keeps s) (eg c : Nat) : Keeping r (execTlBld eg c s) :=
  .inRange (h.runCore (hgo := fun _ _ _ _ _ h => h.tlBld ..) ..)

theorem State.Keeps.tlBdec (h : r.Keeps s) (eg c : Nat) (k : Core) (w len t : Nat) : r.Keeps (State.tlBdec eg c s k w len t) := by
  unfold State.tlBdec
  dsimp only
  refine .ite (h.commit (ho := .illegal) ..) ?_
  split
  · exact (h.addCvt ..).commit (ho := (h.addCvt ..).rvDone ..) ..
  · exact h.draw.commit (ho := h.draw.rvDone ..) ..

theorem State.Keeps.execTlBdec (h : r.Keeps s) (eg c : Nat) : Keeping r (execTlBdec eg c s) :=
  .inRange (h.runCore (hgo := fun _ _ _ _ _ h => h.tlBdec ..) ..)

end Sys2Proof.Machine
end

