-- ==== Sys2Proof/Proofs/KeepsArrivals.lean ====
section
/-!
SUPPORT. What every command keeps: arriving frames, the management bus and updates.
-/

set_option Elab.async false

namespace Sys2Proof.Machine

open Sys2Proof

variable {r s : State}

theorem State.Keeps.nakDue (h : r.Keeps s) (k : Nat) : r.Keeps (s.nakDue k) :=
  h.setPort ..

theorem State.Keeps.countFec (h : r.Keeps s) (k : Nat) : r.Keeps (s.countFec k) := by
  unfold State.countFec
  exact .ite (h.setPort ..) ((h.setPort ..).count ..)

theorem State.Keeps.honour (h : r.Keeps s) (k : Nat) (f : PortFields) : r.Keeps (s.honour k f) := by
  unfold State.honour
  exact .ite ((h.setPort ..).replayAll ..) (h.setPort ..)

theorem State.Keeps.owe (h : r.Keeps s) (k vc : Nat) : r.Keeps (s.owe k vc) :=
  h.setPort ..

theorem State.Keeps.landWhole (h : r.Keeps s) (d : Nat) (m : RxMsg) : r.Keeps (s.landWhole d m) :=
  (h.landMessage ..).settleCe

theorem State.Keeps.landHead (h : r.Keeps s) (k : Nat) (f : Frame) : r.Keeps (s.landHead k f) := by
  unfold State.landHead
  exact .ite (h.landWhole ..) (h.setCe ..)

theorem State.Keeps.landData (h : r.Keeps s) (k : Nat) (f : Frame) : r.Keeps (s.landData k f) := by
  unfold State.landData
  dsimp only
  split
  · exact h
  · exact .ite ((h.setCe ..).landWhole ..) (h.setCe ..)

theorem State.Keeps.deliver (h : r.Keeps s) (k : Nat) (f : Frame) : r.Keeps (s.deliver k f) := by
  have owed := h.owe k f.vc
  unfold State.deliver
  exact .ite (h.setPort ..) (.ite owed (.ite (owed.landHead ..) (.ite (owed.landData ..) (owed.pushMsg ..).settleCe)))

theorem State.Keeps.acceptFrame (h : r.Keeps s) (k : Nat) (f : Frame) (h' : PortFields) : r.Keeps (s.acceptFrame k f h') := by
  unfold State.acceptFrame
  exact .ite ((h.setPort ..).deliver ..) (h.setPort ..)

theorem State.Keeps.sequence (h : r.Keeps s) (k : Nat) (f : Frame) (h' : PortFields) : r.Keeps (s.sequence k f h') := by
  unfold State.sequence
  exact .ite (h.acceptFrame ..) (.ite h (h.nakDue ..))

theorem State.Keeps.rxTrain (h : r.Keeps s) (k : Nat) (f : Frame) : r.Keeps (s.rxTrain k f) := by
  unfold State.rxTrain
  exact .ite h (h.setPort ..)

theorem State.Keeps.rxFrame (h : r.Keeps s) (k typ : Nat) (raw : List Byte) : r.Keeps (s.rxFrame k typ raw) := by
  unfold State.rxFrame
  dsimp only
  split
  · exact .ite ((h.nakDue ..).linkAnswer ..) h
  case h_2 f fields fixed parsed =>
    have counted : r.Keeps (if fixed = true then s.countFec k else s) := .ite (h.countFec ..) h
    have heard := counted.honour k fields
    refine .ite h (.ite (.ite ((heard.nakDue ..).linkAnswer ..) heard) (.ite (heard.rxTrain ..) (.ite heard ?_)))
    exact (State.Keeps.ite (heard.sequence ..) heard).linkAnswer ..

theorem State.Keeps.execDataFrame (h : r.Keeps s) (k : Nat) (raw : List Byte) : Keeping r (execDataFrame k raw s) :=
  .inRange (h.rxFrame ..)

theorem State.Keeps.execHeadFrame (h : r.Keeps s) (k : Nat) (raw : List Byte) : Keeping r (execHeadFrame k raw s) :=
  .inRange (h.rxFrame ..)

theorem State.Keeps.execCtrlFrame (h : r.Keeps s) (k : Nat) (raw : List Byte) : Keeping r (execCtrlFrame k raw s) :=
  .inRange (h.rxFrame ..)

theorem State.Keeps.execAlignFrame (h : r.Keeps s) (k : Nat) (raw : List Byte) : Keeping r (execAlignFrame k raw s) :=
  .inRange (h.rxFrame ..)

theorem State.Keeps.execTrainFrame (h : r.Keeps s) (k : Nat) (raw : List Byte) : Keeping r (execTrainFrame k raw s) :=
  .inRange (h.rxFrame ..)

theorem State.Keeps.execCreditFrame (h : r.Keeps s) (k : Nat) (raw : List Byte) : Keeping r (execCreditFrame k raw s) :=
  .inRange (h.rxFrame ..)

theorem State.Keeps.execIdleFrame (h : r.Keeps s) (k : Nat) (raw : List Byte) : Keeping r (execIdleFrame k raw s) :=
  .inRange (h.rxFrame ..)

theorem State.Keeps.setMgmt (h : r.Keeps s) (m : Mgmt) : r.Keeps (s.setMgmt m) :=
  h.upd rfl rfl rfl

theorem State.Keeps.mgmtSettle (h : r.Keeps s) : r.Keeps s.mgmtSettle := by
  unfold State.mgmtSettle
  dsimp only
  split
  · exact h
  · exact .ite (h.draw.setMgmt ..) h.draw

theorem State.Keeps.mgmtStart (h : r.Keeps s) (stat : Byte) (data : Word) : r.Keeps (s.mgmtStart stat data) :=
  h.setMgmt ..

theorem State.Keeps.mgmtWrite (h : r.Keeps s) (off : Nat) (v : Word) : r.Keeps (s.mgmtWrite off v) := by
  unfold State.mgmtWrite
  exact .ite h.mgmtSettle (.ite ((h.mgmtSettle.draw.mgmtStart ..).regWrite ..) (h.mgmtSettle.draw.mgmtStart ..))

theorem State.Keeps.execMgmtWrite (h : r.Keeps s) (offset : Nat) (v : Word) (pecOk : Bool) :
    Keeping r (execMgmtWrite offset v pecOk s) :=
  .next (.ite (h.mgmtWrite ..) h)

theorem State.Keeps.mgmtRead (h : r.Keeps s) (off : Nat) : r.Keeps (s.mgmtRead off) := by
  unfold State.mgmtRead
  exact .ite h.mgmtSettle (.ite (((h.mgmtSettle.regRead ..).upd rfl rfl rfl).mgmtStart ..) (h.mgmtSettle.mgmtStart ..))

theorem State.Keeps.execMgmtReadStart (h : r.Keeps s) (offset : Nat) (pecOk : Bool) :
    Keeping r (execMgmtReadStart offset pecOk s) :=
  .next (.ite (h.mgmtRead ..) h)

theorem State.Keeps.mgmtResult (h : r.Keeps s) : r.Keeps s.mgmtResult :=
  h.mgmtSettle.send ..

theorem State.Keeps.execMgmtReadResult (h : r.Keeps s) : Keeping r (execMgmtReadResult s) :=
  .next (.ite h.mgmtResult h)

theorem State.Keeps.execSetdasa (h : r.Keeps s) (addr : Nat) : Keeping r (execSetdasa addr s) :=
  .next (.ite (h.setMgmt ..) h)

theorem State.Keeps.execRstdaa (h : r.Keeps s) : Keeping r (execRstdaa s) :=
  .next (.ite (h.setMgmt ..) h)

theorem State.Keeps.alertAnswer (h : r.Keeps s) : r.Keeps s.alertAnswer :=
  h.draw.send ..

theorem State.Keeps.execAlertResponse (h : r.Keeps s) : Keeping r (execAlertResponse s) :=
  .next (.ite h.alertAnswer h)

theorem State.Keeps.updElem {z : URun} (h : r.Keeps z.o.s) (c : Cmd) (u : Upd) (e : UEnv) (wb : Nat) (undef : Bool) (i : Nat) :
    r.Keeps (updElem c u e wb undef z i).o.s := by
  unfold Machine.updElem
  refine .iteOn (fun z : URun => z.o.s) h ?_
  dsimp only
  split
  · exact h.outStop ..
  · exact .iteOn (fun z : URun => z.o.s) h (State.Keeps.foldlOn Out.s h (fun _ _ h => h.outPut ..) _)

theorem State.Keeps.runElements (h : r.Keeps s) (c : Cmd) (u : Upd) (first n : Nat) : r.Keeps (s.runElements c u first n) := by
  unfold State.runElements
  dsimp only
  generalize ran : List.foldl _ (URun.mk _ 0 0 Counts.none) (List.range n) = z
  have kept : r.Keeps z.o.s := by
    rw [← ran]
    refine State.Keeps.foldlOn (fun z : URun => z.o.s) ?_ (fun z i h => h.updElem ..) _
    exact h.foldl (fun _ _ h => h.touchRead ..) _
  clear ran
  refine State.Keeps.outFinish (o := ⟨_, _⟩) (.ite (State.Keeps.count (State.Keeps.count (State.Keeps.addCvt ?_ ..) ..) ..)
    (State.Keeps.count (State.Keeps.addCvt ?_ ..) ..)) ..
  all_goals exact .iteOn Out.s (kept.outPut ..) kept

theorem State.Keeps.runUpdate (h : r.Keeps s) (c : Cmd) : r.Keeps (s.runUpdate c) := by
  unfold State.runUpdate
  dsimp only
  split
  · exact h.runElements ..
  · exact ((State.Keeps.ite (h.count ..) h).out ..).outFinish ..

theorem State.Keeps.execUpdate (h : r.Keeps s) (i : Issuer) : Keeping r (execUpdate i s) :=
  .inRange (h.issueRow (hrun := fun _ _ h => h.runUpdate ..) ..)

end Sys2Proof.Machine
end

