-- ==== Sys2Proof/Proofs/KeepsCommand.lean ====
section
/-!
SUPPORT. Every command and every step keeps what `State.Keeps` says.
-/

set_option Elab.async false

namespace Sys2Proof.Machine

open Sys2Proof

variable {r s : State}

theorem State.Keeps.exec (h : r.Keeps s) (c : Instr) : Keeping r (exec c s) :=
  match c with
  | .cpDecode .. => h.execCpDecode _
  | .nop .. => h.execNop _
  | .soop .. => h.execSoop _
  | .sowait .. => h.execSowait _
  | .sowaitSatisfied .. => h.execSowaitSatisfied _
  | .boundset .. => h.execBoundset _
  | .escalate .. => h.execEscalate _
  | .dmaCopy .. => h.execDmaCopy _
  | .dmaConvert .. => h.execDmaConvert _
  | .dmaAdd .. => h.execDmaAdd _
  | .dmaMax .. => h.execDmaMax _
  | .dmaMin .. => h.execDmaMin _
  | .atomicWriteback .. => h.execAtomicWriteback _
  | .dmaEncode .. => h.execDmaEncode _
  | .dmaDecode .. => h.execDmaDecode _
  | .tableBuild .. => h.execTableBuild _
  | .tableLoad .. => h.execTableLoad _
  | .matmul .. => h.execMatmul _
  | .teSlotGrant .. => h.execTeSlotGrant _
  | .teStep .. => h.execTeStep _ _
  | .tileDrain .. => h.execTileDrain _
  | .tload .. => h.execTload _
  | .sentinel .. => h.execSentinel _
  | .eval .. => h.execEval _
  | .gate .. => h.execGate _
  | .rmsnorm .. => h.execRmsnorm _
  | .softmax .. => h.execSoftmax _
  | .smrecomp .. => h.execSmrecomp _
  | .tblload .. => h.execTblload _
  | .patgen .. => h.execPatgen _
  | .appendDirect .. => h.execAppendDirect _
  | .appendStaged .. => h.execAppendStaged _
  | .attn .. => h.execAttn _
  | .conv .. => h.execConv _
  | .poolMax .. => h.execPoolMax _
  | .poolAvgv .. => h.execPoolAvgv _
  | .poolAvgf .. => h.execPoolAvgf _
  | .argmax .. => h.execArgmax _
  | .clrun .. => h.execClrun _
  | .send .. => h.execSend _
  | .qsend .. => h.execQsend _
  | .allreduce .. => h.execAllreduce _
  | .reducescatter .. => h.execReducescatter _
  | .allgather .. => h.execAllgather _
  | .reduce .. => h.execReduce _
  | .broadcast .. => h.execBroadcast _
  | .alltoall .. => h.execAlltoall _
  | .permute .. => h.execPermute _
  | .barrier .. => h.execBarrier _
  | .grpabort .. => h.execGrpabort _
  | .update .. => h.execUpdate _
  | .basilInstruction .. => h.execBasilInstruction _ _
  | .tlPost .. => h.execTlPost _ _
  | .tlDma .. => h.execTlDma _ _
  | .tlWait .. => h.execTlWait _ _
  | .ticketCompletion .. => h.execTicketCompletion _ _ _
  | .tlTest .. => h.execTlTest _ _
  | .tlEnd .. => h.execTlEnd _ _
  | .soOp .. => h.execSoOp _ _
  | .soWait .. => h.execSoWait _ _
  | .soWaitTimeout .. => h.execSoWaitTimeout _ _
  | .soClaim .. => h.execSoClaim _ _
  | .tlBld .. => h.execTlBld _ _
  | .tlBdec .. => h.execTlBdec _ _
  | .soRead .. => h.execSoRead _ _
  | .soSet .. => h.execSoSet _ _ _
  | .soAdd .. => h.execSoAdd _ _ _
  | .soMax .. => h.execSoMax _ _ _
  | .soSeterr .. => h.execSoSeterr _ _ _
  | .soClrerr .. => h.execSoClrerr _ _
  | .creset .. => h.execCreset _ _ _
  | .cread .. => h.execCread _ _
  | .completionDrain .. => h.execCompletionDrain _ _
  | .qDoorbell .. => h.execQDoorbell _ _ _
  | .qEnable .. => h.execQEnable _ _ _
  | .qResume .. => h.execQResume _ _ _
  | .qSkip .. => h.execQSkip _ _ _
  | .cheadWrite .. => h.execCheadWrite _ _ _
  | .cpWatchExpiry .. => h.execCpWatchExpiry _
  | .syncCfgWrite .. => h.execSyncCfgWrite _ _ _
  | .wheelEntryStart .. => h.execWheelEntryStart _
  | .jobSave .. => h.execJobSave _ _ _
  | .saveBegin .. => h.execSaveBegin _ _
  | .jobResume .. => h.execJobResume _ _ _
  | .jobStatsClear .. => h.execJobStatsClear _ _ _
  | .cpJobWrite .. => h.execCpJobWrite _ _ _
  | .cpWheelWrite .. => h.execCpWheelWrite _ _ _ _
  | .partmapWrite .. => h.execPartmapWrite _ _
  | .sysPartcfgWrite .. => h.execSysPartcfgWrite _ _ _
  | .memWindowWrite .. => h.execMemWindowWrite _ _ _ _
  | .memWheelWrite .. => h.execMemWheelWrite _ _ _
  | .memSlotStart .. => h.execMemSlotStart _
  | .memReadArrival .. => h.execMemReadArrival _ _ _
  | .dataFrame .. => h.execDataFrame _ _
  | .headFrame .. => h.execHeadFrame _ _
  | .ctrlFrame .. => h.execCtrlFrame _ _
  | .ready .. => h.execReady _
  | .grant .. => h.execGrant _
  | .landack .. => h.execLandack _
  | .reply .. => h.execReply _
  | .notice .. => h.execNotice _
  | .alignFrame .. => h.execAlignFrame _ _
  | .trainFrame .. => h.execTrainFrame _ _
  | .creditFrame .. => h.execCreditFrame _ _
  | .idleFrame .. => h.execIdleFrame _ _
  | .replayTimeout .. => h.execReplayTimeout _
  | .switchSlot .. => h.execSwitchSlot _
  | .linkRetrainTrigger .. => h.execLinkRetrainTrigger _ _
  | .linkTrainingDone .. => h.execLinkTrainingDone _ _
  | .trainingStageTimeout .. => h.execTrainingStageTimeout _
  | .linkTrainRetry .. => h.execLinkTrainRetry _
  | .lnkRetrain .. => h.execLnkRetrain _ _ _
  | .readyRetry .. => h.execReadyRetry _ _
  | .collWatch .. => h.execCollWatch _ _
  | .groupEnable .. => h.execGroupEnable _ _
  | .groupReset .. => h.execGroupReset _ _
  | .groupDisable .. => h.execGroupDisable _ _
  | .groupAbort .. => h.execGroupAbort _ _
  | .ethFrameReceive .. => h.execEthFrameReceive _ _
  | .arpRequest .. => h.execArpRequest _
  | .neighborSolicitation .. => h.execNeighborSolicitation _
  | .echoRequest .. => h.execEchoRequest _
  | .cookie .. => h.execCookie _
  | .init .. => h.execInit _
  | .resp .. => h.execResp _
  | .confirm .. => h.execConfirm _
  | .birsanData .. => h.execBirsanData _
  | .ack .. => h.execAck _
  | .close .. => h.execClose _
  | .birsanSend .. => h.execBirsanSend _
  | .ackDelayExpiry .. => h.execAckDelayExpiry _
  | .retransmissionTimeout .. => h.execRetransmissionTimeout _ _
  | .keepalive .. => h.execKeepalive _
  | .sessionIdleTimeout .. => h.execSessionIdleTimeout _
  | .handshakeTimeout .. => h.execHandshakeTimeout _
  | .cookieSecretChange => h.execCookieSecretChange
  | .rekey .. => h.execRekey _
  | .oldKeyExpiry .. => h.execOldKeyExpiry _
  | .submit .. => h.execSubmit _
  | .cancel .. => h.execCancel _
  | .query .. => h.execQuery _
  | .requestPlacement .. => h.execRequestPlacement _
  | .requestComplete .. => h.execRequestComplete _ _
  | .sessionLostTimeout .. => h.execSessionLostTimeout _
  | .ethRetrain .. => h.execEthRetrain _ _ _
  | .ethLinkLoss .. => h.execEthLinkLoss _
  | .fenPdqtail .. => h.execFenPdqtail _ _
  | .fenEnable .. => h.execFenEnable _ _
  | .fenEncode => h.execFenEncode
  | .fenDecode => h.execFenDecode
  | .pictureComplete .. => h.execPictureComplete _ _
  | .energySample .. => h.execEnergySample _
  | .energyWindowEnd => h.execEnergyWindowEnd
  | .fastLimiterReading .. => h.execFastLimiterReading _
  | .thermalSample .. => h.execThermalSample _
  | .clockSlewStep => h.execClockSlewStep
  | .droopDetect => h.execDroopDetect
  | .droopEnd => h.execDroopEnd
  | .throttleNChange .. => h.execThrottleNChange _
  | .throttleHoldEnd => h.execThrottleHoldEnd
  | .throttleStuck => h.execThrottleStuck
  | .pwrCapWrite .. => h.execPwrCapWrite _ _
  | .pwrBudgetWrite .. => h.execPwrBudgetWrite _ _ _
  | .resetNAssert .. => h.execResetNAssert _
  | .resetNRelease => h.execResetNRelease
  | .pwrgoodLow => h.execPwrgoodLow
  | .pwrgoodHigh => h.execPwrgoodHigh
  | .crstNAssert => h.execCrstNAssert
  | .crstNRelease => h.execCrstNRelease
  | .perstAssert .. => h.execPerstAssert _
  | .perstRelease .. => h.execPerstRelease _
  | .sageWatchdog => h.execSageWatchdog
  | .inputPowerOn => h.execInputPowerOn
  | .inputUndervoltage => h.execInputUndervoltage
  | .inputOvervoltage => h.execInputOvervoltage
  | .inputOvercurrent => h.execInputOvercurrent
  | .powerStageOvertemp => h.execPowerStageOvertemp
  | .presentNMate => h.execPresentNMate
  | .serdesRefclkLoss .. => h.execSerdesRefclkLoss _
  | .pcieRefclkLoss .. => h.execPcieRefclkLoss _
  | .alwaysOnClockLoss => h.execAlwaysOnClockLoss
  | .partitionSpring .. => h.execPartitionSpring _ _
  | .partitionClearingEnd .. => h.execPartitionClearingEnd _
  | .partitionAutumn .. => h.execPartitionAutumn _ _
  | .partitionDrained .. => h.execPartitionDrained _
  | .autumnLimitExpiry .. => h.execAutumnLimitExpiry _
  | .partitionReset .. => h.execPartitionReset _ _
  | .bootRom => h.execBootRom
  | .bootHost => h.execBootHost
  | .bootFlash => h.execBootFlash
  | .bootIod .. => h.execBootIod _
  | .bootLinks => h.execBootLinks
  | .bootHbm .. => h.execBootHbm _
  | .powerWave .. => h.execPowerWave _
  | .bootBroadcast .. => h.execBootBroadcast _
  | .bootSelftest .. => h.execBootSelftest _
  | .bootStageTimeout => h.execBootStageTimeout
  | .bootBackoffExpiry => h.execBootBackoffExpiry
  | .go .. => h.execGo _
  | .restart .. => h.execRestart _
  | .flashUpdate .. => h.execFlashUpdate _
  | .alertclr .. => h.execAlertclr _
  | .commitsvn .. => h.execCommitsvn _
  | .ownerprog .. => h.execOwnerprog _
  | .bar2Read .. => h.execBar2Read _ _ _
  | .bar2Write .. => h.execBar2Write _ _ _
  | .regWrite .. => h.execRegWrite _ _ _
  | .regReadLo .. => h.execRegReadLo _ _
  | .pciFnmapWrite .. => h.execPciFnmapWrite _ _ _
  | .flr .. => h.execFlr _ _
  | .d3hot .. => h.execD3hot _ _ _
  | .pcieLinkUp .. => h.execPcieLinkUp _ _ _ _
  | .getVersion .. => h.execGetVersion _ _
  | .getCapabilities .. => h.execGetCapabilities _ _
  | .negotiateAlgorithms .. => h.execNegotiateAlgorithms _ _
  | .getDigests .. => h.execGetDigests _ _
  | .getCertificate .. => h.execGetCertificate _ _
  | .challenge .. => h.execChallenge _ _
  | .getMeasurements .. => h.execGetMeasurements _ _
  | .vendorDefinedRequest .. => h.execVendorDefinedRequest _ _
  | .sysEvcfgEnable .. => h.execSysEvcfgEnable _ _ _
  | .evheadWrite .. => h.execEvheadWrite _ _ _
  | .mgmtWrite .. => h.execMgmtWrite _ _ _
  | .mgmtReadStart .. => h.execMgmtReadStart _ _
  | .mgmtReadResult => h.execMgmtReadResult
  | .setdasa .. => h.execSetdasa _
  | .rstdaa => h.execRstdaa
  | .alertResponse => h.execAlertResponse
  | .teCvtclr .. => h.execTeCvtclr _ _
  | .teSpillclr .. => h.execTeSpillclr _ _
  | .egSentclr .. => h.execEgSentclr _ _
  | .sfuStatclr .. => h.execSfuStatclr _ _
  | .cpStatclr .. => h.execCpStatclr _ _
  | .memStatclr .. => h.execMemStatclr _ _
  | .cmpStatclr .. => h.execCmpStatclr _ _
  | .lnkStatclr .. => h.execLnkStatclr _ _
  | .ethDropclr .. => h.execEthDropclr _ _
  | .trnStatclr .. => h.execTrnStatclr _ _
  | .pwrStatclr .. => h.execPwrStatclr _
  | .sysDetclr .. => h.execSysDetclr _ _
  | .cpWstatclr .. => h.execCpWstatclr _ _
  | .errclr .. => h.execErrclr _ _
  | .crstNHoldEnd => h.execCrstNHoldEnd
  | .serdesRefclkReturn .. => h.execSerdesRefclkReturn _
  | .alwaysOnClockReturn => h.execAlwaysOnClockReturn
  | .ethPortUp .. => h.execEthPortUp _
  | .overcurrentRestart => h.execOvercurrentRestart
  | .inputOvervoltageRecovery => h.execInputOvervoltageRecovery
  | .vfEnable .. => h.execVfEnable _ _ _
  | .tenantTableRewrite .. => h.execTenantTableRewrite _ _ _

end Sys2Proof.Machine
end

