-- ==== Sys2Proof/Proofs/Invariants.lean ====
section
/-!
PROOFS. The canonical form and the fused values over every step.
-/

set_option Elab.async false

open Sys2Proof Sys2Proof.Machine

/-- Settles O5: an idle step lets a cycle pass, and a command keeps the form of memory and registers. -/
theorem everyStepKeepsTheCanonicalForm : Obligations.EveryStepKeepsTheCanonicalForm := by
  unfold Obligations.EveryStepKeepsTheCanonicalForm
  intro s t canonical ran
  unfold step at ran
  split at ran
  · cases ran
    exact canonical
  · next c rest waiting =>
    have taken : State.Canonical { s with pending := rest } := canonical
    exact ((State.Keeps.refl { s with pending := rest }).exec c t ran).form taken

/-- Settles O6: a field of what every command keeps for each of the values. -/
theorem noCommandChangesTheFusedValues : Obligations.NoCommandChangesTheFusedValues := by
  unfold Obligations.NoCommandChangesTheFusedValues
  intro c s t ran
  obtain ⟨pending, uds, keys, serial, free, form⟩ := (State.Keeps.refl s).exec c t ran
  exact ⟨uds, keys, serial, pending, free⟩

end

