-- ==== Sys2Proof/Proofs/Completions.lean ====
section
/-!
PROOFS. Completion records and the collector entries that they drain from (R258 to R261).
-/

set_option Elab.async false

namespace Sys2Proof.Machine

open Sys2Proof

theorem length_padTo (n : Nat) (bs : List Byte) : (padTo n bs).length = n := by
  simp [padTo]
  omega

theorem Completion.length_record (c : Completion) : c.record.length = 64 := by
  simp [Completion.record, length_padTo]

/-- The completion posted first is posted no later than those looked at. -/
theorem foldl_posted_le (cs : List Completion) (m : Completion) :
    (cs.foldl (fun m x => if x.posted < m.posted then x else m) m).posted ≤ m.posted ∧
      ∀ x ∈ cs, (cs.foldl (fun m x => if x.posted < m.posted then x else m) m).posted ≤ x.posted := by
  induction cs generalizing m with
  | nil => simp
  | cons y cs ih =>
    obtain ⟨least, all⟩ := ih (if y.posted < m.posted then y else m)
    rw [List.foldl_cons]
    have next : (if y.posted < m.posted then y else m).posted ≤ m.posted ∧ (if y.posted < m.posted then y else m).posted ≤ y.posted := by
      split <;> omega
    exact ⟨least.trans next.1, List.forall_mem_cons.2 ⟨least.trans next.2, all⟩⟩

theorem earliest_le {l : List Completion} {c : Completion} (first : earliest l = some c) : ∀ x ∈ l, c.posted ≤ x.posted := by
  cases l with
  | nil => cases first
  | cons y cs =>
    cases first
    obtain ⟨least, all⟩ := foldl_posted_le cs y
    exact List.forall_mem_cons.2 ⟨least, all⟩

/-- The cycle found is of the entry's turn, and not before the cycle asked for. -/
theorem drainCycle_turn {e : Nat} (turn : e < 48) (t : Nat) : drainCycle t e % 48 = e ∧ t ≤ drainCycle t e := by
  unfold drainCycle
  omega

theorem State.drainTime_turn (s : State) (f : Nat) {e : Nat} (c : Completion) (turn : e < 48) :
    s.drainTime f e c % 48 = e ∧ c.posted < s.drainTime f e c ∧ s.cycle ≤ s.drainTime f e c ∧ s.drainedAt f e ≤ s.drainTime f e c := by
  obtain ⟨here, later⟩ := drainCycle_turn turn (max (max (c.posted + 1) (s.drainedAt f e)) s.cycle)
  exact ⟨here, by unfold State.drainTime; omega⟩

/-! ## Records -/

/-- Where the next completion record of a queue goes. -/
def State.recordSlot (s : State) (q : Nat) : Nat := s.cmpBase q + 64 * (s.fld F.qCmpidx_CTAIL q % s.cmpCap q)

/-- Whether the completion ring of a queue has no room. -/
def State.cmpFull (s : State) (q : Nat) : Prop :=
  (s.fld F.qCmpidx_CTAIL q + 65536 - s.fld F.qCmpidx_CHEAD q) % 65536 = s.cmpCap q

theorem State.putRecord_full {s : State} {q : Nat} (full : s.cmpFull q) (c : Completion) :
    s.putRecord q c = s.count F.qCmplost_CMPLOST q 1 :=
  if_pos full

theorem State.putRecord_room {s : State} {q : Nat} (room : ¬ s.cmpFull q) (c : Completion) :
    s.putRecord q c = ((s.store (s.recordSlot q) c.record).touch 0 c.cmd.part noEg (s.recordSlot q) 64 .write).setFld F.qCmpidx_CTAIL q
      (s.fld F.qCmpidx_CTAIL q + 1) :=
  if_neg room

/-- What a record of a queue changes: its bytes and CTAIL, or the count of lost records. -/
theorem State.putRecord_spec (s : State) (q : Nat) (c : Completion) :
    let t := s.putRecord q c
    t.cp = { s.cp with window := t.cp.window } ∧ t.cycle = s.cycle ∧
      (¬ s.cmpFull q → t.mem = putBytes s.mem (s.recordSlot q) c.record ∧
        t.fld F.qCmpidx_CTAIL q = (s.fld F.qCmpidx_CTAIL q + 1) % 65536 ∧ t.reg .qCmplost q = s.reg .qCmplost q) ∧
      (s.cmpFull q → t.mem = s.mem ∧ t.fld F.qCmpidx_CTAIL q = s.fld F.qCmpidx_CTAIL q ∧
        t.fld F.qCmplost_CMPLOST q = min (s.fld F.qCmplost_CMPLOST q + 1) (2 ^ 32 - 1)) := by
  intro t
  by_cases full : s.cmpFull q
  · have counted : t = s.count F.qCmplost_CMPLOST q 1 := State.putRecord_full full c
    rw [counted]
    exact ⟨rfl, rfl, fun room => absurd full room, fun _ => ⟨rfl, State.fld_setFld_other _ _ _ _ _ _ (by decide),
      State.fld_count_same _ rfl _ _⟩⟩
  · have stored := State.putRecord_room full c
    rw [show t = _ from stored]
    refine ⟨?cp, by simp, fun _ => ⟨by simp, State.fld_setFld_same _ _ _ _ (by decide), ?lost⟩, fun room => absurd room full⟩
    case cp =>
      rw [State.setFld_cp, State.touch_cp]
      exact congrArg State.cp (s.store_parts (s.recordSlot q) c.record)
    case lost => exact (State.reg_setReg_ne _ _ (fun e => by cases e.1)).trans (State.reg_of_regs (by simp) _ _)

/-- The drain of a completion that asks for a record, and for nothing else, writes the record. -/
theorem State.drainActions_record {s : State} {c : Completion} {q : Nat} (issuer : c.cmd.issuer = .queue q)
    (silent : hdrIrq c.cmd.bytes = false) (signalless : hdrCen c.cmd.bytes = false)
    (asked : s.flag F.qCfg_CMPALL q = true ∨ c.final ≠ St.ok) (halterr : s.flag F.qCfg_HALTERR q = false) (u : Nat) :
    s.drainActions c u = s.putRecord q c := by
  have recorded : (if hdrIrq c.cmd.bytes || s.flag F.qCfg_CMPALL q || c.final ≠ St.ok then s.putRecord q c else s) = s.putRecord q c :=
    if_pos (by simpa [silent] using asked)
  have unsignalled (t : State) : t.signal c u = t := if_pos (by simp [signalless])
  have halts : (s.putRecord q c).flag F.qCfg_HALTERR q = false :=
    ((s.keepsQueues_putRecord q c).flag F.qCfg_HALTERR (.inl rfl) q).trans halterr
  unfold State.drainActions
  rw [issuer]
  dsimp only
  rw [recorded, unsignalled, silent, Bool.false_and, if_neg Bool.false_ne_true, halts, Bool.false_and, Bool.false_and,
    if_neg Bool.false_ne_true]

/-- The end of a command settles the state of its job, and with it CP_JSTAT alone. -/
theorem State.settleJob_onlyRegs (s : State) (p j : Nat) : OnlyRegs (fun n _ => n = .cpJstat) s (s.settleJob p j) := by
  unfold State.settleJob
  split
  · exact .refl _ s
  · exact .of_setFld rfl s _

/-- The state in which an entry has let its earliest completion go, whose actions follow. -/
def State.drainTaken (s : State) (f e : Nat) (c : Completion) : State :=
  let s1 := (s.until (s.drainTime f e c)).setEntry f e (dropFirst c (s.entry f e))
  { s1 with cp := { s1.cp with drained := Sparse.wr (fun _ => 0) (collKey f e) (s.drainTime f e c + 1) s1.cp.drained } }.setTrace
    c.cmd.uid []

theorem State.drain_of_earliest {s : State} {f e : Nat} {c : Completion} (first : earliest (s.entry f e) = some c) :
    s.drain f e = ((s.drainTaken f e c).drainActions c (s.drainTime f e c)).settleJob c.cmd.part c.cmd.job := by
  unfold State.drain
  rw [first]
  rfl

theorem State.drainTaken_regs (s : State) (f e : Nat) (c : Completion) : (s.drainTaken f e c).regs = s.regs := rfl

theorem State.drainTaken_mem (s : State) (f e : Nat) (c : Completion) : (s.drainTaken f e c).mem = s.mem := rfl

theorem State.entry_drainTaken (s : State) (f e : Nat) (c : Completion) :
    (s.drainTaken f e c).entry f e = dropFirst c (s.entry f e) :=
  (s.until _).entry_setEntry f e _

theorem State.drainedAt_drainTaken (s : State) (f e : Nat) (c : Completion) :
    (s.drainTaken f e c).drainedAt f e = s.drainTime f e c + 1 :=
  Sparse.rd_wr_same (d := fun _ => 0) (collKey f e) (s.drainTime f e c + 1) s.cp.drained

theorem State.cycle_drainTaken {s : State} {f e : Nat} {c : Completion} (later : s.cycle ≤ s.drainTime f e c) :
    (s.drainTaken f e c).cycle = s.drainTime f e c :=
  max_eq_right later

/-- The bytes of a placed completion ring lie in device memory. -/
theorem State.cmpOk_onDevice {s : State} {q : Nat} (placed : s.cmpOk q = true) {b : Nat} (lo : s.cmpBase q ≤ b)
    (hi : b < s.cmpBase q + 64 * s.cmpCap q) : OnDevice b := by
  obtain ⟨⟨-, inside⟩, -⟩ : ((_ ∧ _) ∧ inMsT1 (s.cmpBase q) (64 * s.cmpCap q) = true) ∧ _ := by
    simpa [State.cmpOk] using placed
  intro d e
  rcases region_inMsT1 inside lo hi with r | r <;> rw [r] at e <;> cases e

theorem State.cmpCap_pos (s : State) (q : Nat) : 0 < s.cmpCap q :=
  Nat.mul_pos (by decide) (Nat.two_pow_pos _)

end Sys2Proof.Machine

open Sys2Proof Sys2Proof.Machine

/-- Settles O22: the entry lets its earliest completion go in its turn, and the actions of that one are its record. -/
theorem drainWritesTheCompletionRecord : Obligations.DrainWritesTheCompletionRecord := by
  unfold Obligations.DrainWritesTheCompletionRecord
  intro s f e q c hf he first issuer silent signalless asked halterr placed ct full a
  let r := s.drainTaken f e c
  let w := r.putRecord q c
  let t := w.settleJob c.cmd.part c.cmd.job
  have drained : s.drain f e = t :=
    (State.drain_of_earliest first).trans (congrArg (·.settleJob c.cmd.part c.cmd.job)
      (State.drainActions_record (s := r) issuer silent signalless asked halterr _))
  have runs : Runs (.completionDrain f e) s t :=
    drained ▸ inRange_of (by simp [hf, he]) (fun _ => .next (s.drain f e))
  obtain ⟨turn, posted, later, next⟩ := s.drainTime_turn f c he
  obtain ⟨cp, cycle, taken, lost⟩ := r.putRecord_spec q c
  have settled := w.settleJob_onlyRegs c.cmd.part c.cmd.job
  have now : t.cycle = s.drainTime f e c :=
    (congrArg State.cycle settled.1).trans (cycle.trans (State.cycle_drainTaken later))
  have collector : t.cp.collector = r.cp.collector := by rw [settled.cp_eq, cp]
  have drains : t.cp.drained = r.cp.drained := by rw [settled.cp_eq, cp]
  have queues (g : Fld) (other : g.reg ≠ .cpJstat) : t.fld g q = w.fld g q := State.fld_of_reg (settled.2 _ _ other)
  have entry : t.entry f e = dropFirst c (s.entry f e) := by
    rw [State.entry, collector]
    exact s.entry_drainTaken f e c
  have at_ : t.drainedAt f e = t.cycle + 1 := by
    rw [now, State.drainedAt, drains]
    exact s.drainedAt_drainTaken f e c
  refine ⟨t, runs, entry, earliest_le first, now ▸ turn, now ▸ posted, now ▸ later, now ▸ next, at_, fun room => ?room, fun none => ?full⟩
  case room =>
    obtain ⟨mem, ctail, cmplost⟩ := taken room
    have stored : ∀ b, OnDevice b → t.byteAt b = (r.store a c.record).byteAt b :=
      fun b o => State.byteAt_of_mem (settled.mem_eq.trans (mem.trans (State.store_mem ..).symm)) o
    refine ⟨fun k hk => ?_, fun b o outside => ?_, (queues _ (by decide)).trans ctail, (settled.2 _ _ (fun e => by cases e)).trans cmplost⟩
    · have slot := Nat.mod_lt ct (s.cmpCap_pos q)
      have o : OnDevice (a + k) := State.cmpOk_onDevice placed (by omega) (by omega)
      rw [stored _ o, r.byteAt_store a _ o, if_pos (by rw [c.length_record]; omega), Nat.add_sub_cancel_left]
    · rw [stored b o, r.keepsBytesBut_store a _ b o (c.length_record.symm ▸ outside)]
      exact State.byteAt_of_mem rfl o
  case full =>
    obtain ⟨mem, ctail, cmplost⟩ := lost none
    exact ⟨.of_mem (settled.mem_eq.trans mem), (queues _ (by decide)).trans ctail, (queues _ (by decide)).trans cmplost⟩

end

