-- ==== Sys2Proof/Proofs/Issuing.lean ====
section
/-!
SUPPORT. What requests to memory and BOUNDSETs that take effect leave unchanged, and what decoding a command adds to its window.
-/

set_option Elab.async false

namespace Sys2Proof.Machine

open Sys2Proof

/-! ## Requests -/

/-- Nothing has changed but the queues of the memory controllers and the activity of the partitions. -/
def OnlyRequests (s t : State) : Prop := t = { s with memc := t.memc, power := { s.power with act := t.power.act } }

namespace OnlyRequests

variable {r s t : State}

theorem refl (s : State) : OnlyRequests s s := rfl

theorem trans (h : OnlyRequests r s) (g : OnlyRequests s t) : OnlyRequests r t := by
  unfold OnlyRequests at h g ⊢
  rw [g, h]

theorem touch (s : State) (uid p eg a n : Nat) (k : ReqKind) : OnlyRequests s (s.touch uid p eg a n k) :=
  State.touch_parts ..

theorem foldl {α : Type} {f : State → α → State} (hf : ∀ s x, OnlyRequests s (f s x)) :
    ∀ (l : List α) (s : State), OnlyRequests s (l.foldl f s)
  | [], s => refl s
  | x :: l, s => (hf s x).trans (foldl hf l (f s x))

theorem regs (h : OnlyRequests s t) : t.regs = s.regs := by rw [h]

theorem mem (h : OnlyRequests s t) : t.mem = s.mem := by rw [h]

theorem cp (h : OnlyRequests s t) : t.cp = s.cp := by rw [h]

theorem cycle (h : OnlyRequests s t) : t.cycle = s.cycle := by rw [h]

theorem fld (h : OnlyRequests s t) (f : Fld) (i : Nat) : t.fld f i = s.fld f i := State.fld_of_regs h.regs f i

theorem window (h : OnlyRequests s t) (f : Nat) : t.window f = s.window f := by rw [State.window, h.cp, ← State.window]

theorem queue (h : OnlyRequests s t) (q : Nat) : t.queue q = s.queue q := by rw [State.queue, h.cp, ← State.queue]

end OnlyRequests

/-! ## BOUNDSETs that take effect (R242) -/

/-- Nothing has changed but bound registers, the BOUNDSETs that wait and the marks of decoded commands (R250). -/
structure OnlyBounds (s t : State) : Prop where
  units : t = { s with regs := t.regs, cp := { s.cp with window := t.cp.window, bsets := t.cp.bsets } }
  windows : ∀ f, (t.window f).map Decoded.unmarked = (s.window f).map Decoded.unmarked
  regs : ∀ n i, n ≠ .cpBound → t.reg n i = s.reg n i

namespace OnlyBounds

variable {r s t : State}

theorem refl (s : State) : OnlyBounds s s := ⟨rfl, fun _ => rfl, fun _ _ _ => rfl⟩

theorem trans (h : OnlyBounds r s) (g : OnlyBounds s t) : OnlyBounds r t := by
  refine ⟨?_, fun f => (g.windows f).trans (h.windows f), fun n i other => (g.regs n i other).trans (h.regs n i other)⟩
  rw [g.units, h.units]

/-- A mark that changes nothing else of a decoded command. -/
theorem windows_mapWindow (s : State) {g : Decoded → Decoded} (marks : ∀ d, (g d).unmarked = d.unmarked) (f : Nat) :
    (State.window { s with cp := s.cp.mapWindow g } f).map Decoded.unmarked = (s.window f).map Decoded.unmarked := by
  unfold CpState.mapWindow State.window
  dsimp only
  rw [Sparse.rd_map (List.map g) (fun _ => []) (fun _ => rfl), List.map_map]
  exact List.map_congr_left (fun d _ => marks d)

theorem setBound (s : State) (n : Nat) (v : Word) : OnlyBounds s (s.setBound n v) := by
  refine ⟨rfl, windows_mapWindow (s.setReg .cpBound n v) fun d => ?_, fun m i other => State.reg_setReg_ne s v fun e => other e.1⟩
  unfold squashBound
  split <;> rfl

theorem settleBounds (s : State) : OnlyBounds s s.settleBounds := by
  have writes (l : List (Nat × Nat × Word)) (t : State) : OnlyBounds t (l.foldl (fun t x => t.setBound x.2.1 x.2.2) t) := by
    induction l generalizing t with
    | nil => exact .refl t
    | cons x l ih => exact (setBound t x.2.1 x.2.2).trans (ih _)
  have dropped : OnlyBounds s { s with cp := { s.cp with bsets := s.cp.bsets.filter (fun x => !decide (x.1 ≤ s.cycle)) } } :=
    ⟨rfl, fun _ => rfl, fun _ _ _ => rfl⟩
  exact dropped.trans (writes _ _)

theorem fld (h : OnlyBounds s t) {f : Fld} (other : f.reg ≠ .cpBound) (i : Nat) : t.fld f i = s.fld f i :=
  State.fld_of_reg (h.regs _ _ other)

theorem flag (h : OnlyBounds s t) {f : Fld} (other : f.reg ≠ .cpBound) (i : Nat) : t.flag f i = s.flag f i := by
  rw [State.flag, h.fld other, ← State.flag]

theorem mem (h : OnlyBounds s t) : t.mem = s.mem := by rw [h.units]

theorem queue (h : OnlyBounds s t) (q : Nat) : t.queue q = s.queue q := by rw [h.units]; rfl

theorem free (h : OnlyBounds s t) : t.free = s.free := by rw [h.units]

theorem byteAt (h : OnlyBounds s t) (a : Nat) : t.byteAt a = s.byteAt a := by
  simp only [State.byteAt, State.hostAddr, State.pair, h.free, h.mem, h.regs _ _ (show RegName.pciT3xlatLo ≠ .cpBound by decide),
    h.regs _ _ (show RegName.pciT3xlatHi ≠ .cpBound by decide)]

theorem badIn (h : OnlyBounds s t) (a n : Nat) : t.badIn a n = s.badIn a n := by rw [h.units]; rfl

theorem queueFull (h : OnlyBounds s t) (p a : Nat) : t.queueFull p a = s.queueFull p a := by rw [h.units]; rfl

theorem qField (h : OnlyBounds s t) (q : Nat) : t.qField q = s.qField q := h.fld (by decide) q

theorem qPart (h : OnlyBounds s t) (q : Nat) : t.qPart q = s.qPart q := h.fld (by decide) q

theorem ringUnits (h : OnlyBounds s t) (q : Nat) : t.ringUnits q = s.ringUnits q := by
  rw [State.ringUnits, h.fld (by decide), ← State.ringUnits]

theorem ringAddr (h : OnlyBounds s t) (q pos : Nat) : t.ringAddr q pos = s.ringAddr q pos := by
  unfold State.ringAddr State.ringBase State.pair
  rw [h.ringUnits, h.regs _ _ (by decide), h.regs _ _ (by decide)]

theorem read (h : OnlyBounds s t) (a n : Nat) : t.read a n = s.read a n := by
  induction n generalizing a with
  | zero => rfl
  | succ n ih => rw [State.read, State.read, h.byteAt, ih]

theorem ringRead (h : OnlyBounds s t) (q pos n : Nat) : t.ringRead q pos n = s.ringRead q pos n := by
  induction n generalizing pos with
  | zero => rfl
  | succ n ih => rw [State.ringRead, State.ringRead, h.read, h.ringAddr, ih]

theorem ringBad (h : OnlyBounds s t) (q pos n : Nat) : t.ringBad q pos n = s.ringBad q pos n := by
  simp only [State.ringBad, h.ringAddr, h.badIn]

theorem undecoded (h : OnlyBounds s t) (q : Nat) : t.undecoded q = s.undecoded q := by
  simp only [State.undecoded, h.queue, h.ringUnits]

theorem window_length (h : OnlyBounds s t) (f : Nat) : (t.window f).length = (s.window f).length := by
  simpa using congrArg List.length (h.windows f)

/-- The first decoded command of a queue is the same one but for its marks. -/
theorem firstOf (h : OnlyBounds s t) (q : Nat) : (t.firstOf q).map Decoded.unmarked = (s.firstOf q).map Decoded.unmarked := by
  have found (l : List Decoded) : (l.find? (fun d => d.queue == q)).map Decoded.unmarked =
      (l.map Decoded.unmarked).find? (fun d => d.queue == q) := by
    rw [List.find?_map]
    rfl
  rw [State.firstOf, State.firstOf, found, found, h.qField, h.windows]

end OnlyBounds

/-! ## Decoding (R236, R240, R247) -/

theorem State.fld_setWindow (s : State) (f : Nat) (w : List Decoded) {g : Fld} (other : g.reg ≠ .cpStat) (i : Nat) :
    (s.setWindow f w).fld g i = s.fld g i :=
  (State.fld_setFld_ne { s with cp := { s.cp with window := Sparse.wr (fun _ => []) f w s.cp.window } } F.cpStat_WINDOW g w.length
    (fun e => other e.1)).trans (State.fld_of_regs rfl g i)

/-- Puts a decoded command at the end of its field's window, and its queue's decode position after it. -/
def State.addDecoded (s : State) (f : Nat) (d : Decoded) (dec : Nat) : State :=
  let s1 := s.setWindow f (s.window f ++ [d])
  let s2 := s1.setQueue d.queue { s1.queue d.queue with dec := dec }
  { s2 with cp := { s2.cp with nextUid := d.uid + 1 } }

theorem State.window_addDecoded (s : State) (f : Nat) (d : Decoded) (dec : Nat) :
    (s.addDecoded f d dec).window f = s.window f ++ [d] :=
  s.window_setWindow ..

theorem State.dec_addDecoded (s : State) (f : Nat) (d : Decoded) (dec : Nat) : ((s.addDecoded f d dec).queue d.queue).dec = dec :=
  congrArg QueueState.dec ((s.setWindow f (s.window f ++ [d])).queue_setQueue d.queue _)

theorem State.queue_addDecoded_ne (s : State) (f : Nat) {d : Decoded} (dec : Nat) {r : Nat} (other : r ≠ d.queue) :
    (s.addDecoded f d dec).queue r = s.queue r :=
  State.queue_setQueue_ne _ _ other

theorem State.fld_addDecoded (s : State) (f : Nat) (d : Decoded) (dec : Nat) {g : Fld} (other : g.reg ≠ .cpStat) (i : Nat) :
    (s.addDecoded f d dec).fld g i = s.fld g i :=
  (State.fld_of_regs (s := s.setWindow f (s.window f ++ [d])) rfl g i).trans (s.fld_setWindow _ _ other i)

theorem State.addDecoded_mem (s : State) (f : Nat) (d : Decoded) (dec : Nat) : (s.addDecoded f d dec).mem = s.mem := by
  unfold State.addDecoded
  simp

/-- Decoding a whole command adds it to the window of its queue's field, after requests for what it reads. -/
theorem State.decodeAt_adds (s : State) (q pos len : Nat) :
    ∃ u d, OnlyRequests s u ∧ s.decodeAt q pos len = u.addDecoded (s.qField q) d ((pos + len) % s.ringUnits q) ∧
      d.queue = q ∧ d.bytes = s.ringRead q pos len ∧ d.units = len ∧ d.squashed = false ∧ d.reread = false ∧ d.ringBad = none := by
  have reading (uid p eg : Nat) (u : State) (r : Nat × Nat) : OnlyRequests u (u.touch uid p eg r.1 r.2 .read) := .touch ..
  unfold State.decodeAt
  lift_lets
  intro f w p b eg uid span s1 rs s2 known watch s3 first d s4 last s5 cp
  have read1 : OnlyRequests s s1 := .foldl (reading _ _ _) span s
  have read2 : OnlyRequests s1 s2 := .foldl (reading _ _ _) rs s1
  have read3 : OnlyRequests s2 s3 := .foldl (fun u x => by split <;> first | exact .touch .. | exact .refl u) watch s2
  have read : OnlyRequests s s3 := (read1.trans read2).trans read3
  refine ⟨s3, d, read, ?_, rfl, rfl, rfl, rfl, rfl, rfl⟩
  have window : s3.window f = w := read.window f
  unfold State.addDecoded
  rw [window]

end Sys2Proof.Machine
end

