-- ==== Sys2Proof/Proofs/Decoding.lean ====
section
/-!
PROOFS. Decoding ahead of issue (R236, R240, R247).
-/

set_option Elab.async false

namespace Sys2Proof.Machine

open Sys2Proof

/-- A queue that may decode, whose next command is whole, published and of a right LEN, decodes it. -/
theorem State.decodeNext_whole {s0 : State} {q pos : Nat} {h : List Byte} (enabled : s0.settleBounds.flag F.qCfg_ENABLE q = true)
    (running : s0.settleBounds.fld F.qStat_STATE q = 1) (room : (s0.settleBounds.window (s0.settleBounds.qField q)).length < 64)
    (landed : ∀ d, s0.settleBounds.firstOf q = some d → d.ringBad = none) :
    (s0.settleBounds.queue q).dec = pos → s0.settleBounds.ringRead q pos 1 = h →
    s0.settleBounds.queueFull (s0.settleBounds.qPart q) (s0.settleBounds.ringAddr q pos) = false →
    opBytes (hdrOpcode h) = some (16 * (hdrLen h - b2n (hdrRes h))) → 0 < hdrLen h - b2n (hdrRes h) →
    hdrLen h ≤ s0.settleBounds.undecoded q → s0.settleBounds.ringBad q pos 1 = none →
    s0.settleBounds.ringBad q pos (hdrLen h) = none → s0.decodeNext q = s0.settleBounds.decodeAt q pos (hdrLen h) := by
  generalize settled : s0.settleBounds = s at *
  rintro rfl rfl served length some_ published header whole
  have first : (s.firstOf q).filter (fun d => d.ringBad.isSome) = none := by
    cases found : s.firstOf q with
    | none => rfl
    | some d => simp [Option.filter, landed d found]
  have waits : ¬ ((!s.flag F.qCfg_ENABLE q || s.fld F.qStat_STATE q ≠ 1 || s.undecoded q = 0 || 64 ≤ (s.window (s.qField q)).length ||
      s.queueFull (s.qPart q) (s.ringAddr q (s.queue q).dec)) = true) := by
    have hs : s.undecoded q ≠ 0 := by omega
    simp [enabled, running, served, hs, room]
  unfold State.decodeNext
  dsimp only
  rw [settled, first]
  dsimp only
  rw [if_neg waits, header, length]
  dsimp only
  rw [if_neg (by simp; omega), if_neg (by omega), whole]

end Sys2Proof.Machine

open Sys2Proof Sys2Proof.Machine

/-- Settles O13: BOUNDSETs that take effect leave the ring and the queue as they are, and the command that stands there is decoded. -/
theorem cpDecodeTakesThePublishedCommand : Obligations.CpDecodeTakesThePublishedCommand := by
  unfold Obligations.CpDecodeTakesThePublishedCommand
  intro q s hq enabled running room pos h n landed served length some_ published header whole
  have b := OnlyBounds.settleBounds s
  have firstLanded (d : Decoded) (found : s.settleBounds.firstOf q = some d) : d.ringBad = none := by
    have marks := b.firstOf q
    rw [found] at marks
    obtain ⟨e, found', same⟩ := Option.map_eq_some_iff.1 marks.symm
    exact (congrArg Decoded.ringBad same).symm.trans (landed e found')
  have decoded : s.decodeNext q = s.settleBounds.decodeAt q pos n := by
    refine State.decodeNext_whole ((b.flag (by decide) q).trans enabled) ((b.fld (by decide) q).trans running) ?_ firstLanded
      (congrArg QueueState.dec (b.queue q)) (b.ringRead q pos 1) ?_ length some_ ?_ ((b.ringBad ..).trans header) ((b.ringBad ..).trans whole)
    · rwa [b.qField, b.window_length]
    · rwa [b.qPart, b.queueFull, b.ringAddr]
    · rwa [b.undecoded]
  obtain ⟨u, d, read, adds, queue, bytes, units, squashed, reread, ringBad⟩ := s.settleBounds.decodeAt_adds q pos n
  rw [b.qField, b.ringUnits] at adds
  rw [b.ringRead] at bytes
  have runs : Runs (.cpDecode q) s (s.decodeNext q) := inRange_of (decide_eq_true hq) (fun _ => .next (s.decodeNext q))
  refine ⟨s.decodeNext q, d, runs, ?window, queue, bytes, units, squashed, reread,
    ringBad, ?dec, ?others, ?head, ?bytes⟩
  all_goals rw [decoded, adds]
  case window => rw [State.window_addDecoded, read.window]
  case dec =>
    have dec := u.dec_addDecoded (s.qField q) d ((pos + n) % s.ringUnits q)
    rwa [queue] at dec
  case others =>
    intro r other
    rw [State.queue_addDecoded_ne _ _ _ (queue ▸ other), read.queue, b.queue]
  case head => rw [State.fld_addDecoded _ _ _ _ (by decide), read.fld, b.fld (by decide)]
  case bytes => exact .of_mem ((u.addDecoded_mem ..).trans (read.mem.trans b.mem))

end

