-- ==== Sys2Proof/Proofs/IssueFrames.lean ====
section
/-!
SUPPORT. What issuing a command changes (R237, R238, R252, R259, R444, R456), stage by stage.
-/

set_option Elab.async false

namespace Sys2Proof.Machine

open Sys2Proof

/-- The registers that issuing a command may change. -/
def IssueReg (n : RegName) : Prop := n = .qStat ∨ n = .cpStat ∨ n = .cpJwait ∨ n = .cpJstat

/-- What no stage of an issue changes: memory, of the command processor all but windows, queues, posted streams and commands in flight,
and the registers of other rules. -/
structure OnlyIssue (s t : State) : Prop where
  mem : t.mem = s.mem
  cp : t.cp = { s.cp with window := t.cp.window, queues := t.cp.queues, posts := t.cp.posts, inflight := t.cp.inflight }
  regs : ∀ n i, ¬ IssueReg n → t.reg n i = s.reg n i

namespace OnlyIssue

variable {r s t : State}

theorem refl (s : State) : OnlyIssue s s := ⟨rfl, rfl, fun _ _ _ => rfl⟩

theorem trans (h : OnlyIssue r s) (g : OnlyIssue s t) : OnlyIssue r t := by
  refine ⟨g.mem.trans h.mem, ?_, fun n i other => (g.regs n i other).trans (h.regs n i other)⟩
  rw [g.cp, h.cp]

theorem of_tables (regs : t.regs = s.regs) (cp : t.cp = s.cp) (mem : t.mem = s.mem) : OnlyIssue s t :=
  ⟨mem, by rw [cp], fun n i _ => State.reg_of_regs regs n i⟩

theorem of_requests (h : OnlyRequests s t) : OnlyIssue s t := .of_tables h.regs h.cp h.mem

theorem setReg (s : State) {n : RegName} (own : IssueReg n) (i : Nat) (v : Word) : OnlyIssue s (s.setReg n i v) :=
  ⟨rfl, rfl, fun _ _ other => State.reg_setReg_ne s v fun e => other (e.1 ▸ own)⟩

theorem setFld (s : State) {f : Fld} (own : IssueReg f.reg) (i v : Nat) : OnlyIssue s (s.setFld f i v) :=
  .setReg s own i _

theorem setWindow (s : State) (f : Nat) (w : List Decoded) : OnlyIssue s (s.setWindow f w) :=
  have listed : OnlyIssue s { s with cp := { s.cp with window := Sparse.wr (fun _ => []) f w s.cp.window } } :=
    ⟨rfl, rfl, fun _ _ _ => rfl⟩
  listed.trans (.setFld _ (.inr (.inl rfl)) _ _)

theorem setQueue (s : State) (q : Nat) (v : QueueState) : OnlyIssue s (s.setQueue q v) := ⟨rfl, rfl, fun _ _ _ => rfl⟩

theorem setPosts (s : State) (eg c : Nat) (w : List Decoded) : OnlyIssue s (s.setPosts eg c w) := ⟨rfl, rfl, fun _ _ _ => rfl⟩

theorem fld (h : OnlyIssue s t) {f : Fld} (other : ¬ IssueReg f.reg) (i : Nat) : t.fld f i = s.fld f i :=
  State.fld_of_reg (h.regs _ _ other)

end OnlyIssue

/-! ## The stages -/

/-- The state in which an issue begins: in the issue cycle, its wheel having held through its overrun. -/
def State.issueStart (s : State) (i : Issuer) (d : Decoded) : State :=
  ((s.until (s.mkCmd i d).issued).holdOverrun (s.mkCmd i d).eg d).draw

/-- HEAD passes a command of a queue, which leaves the window, and the queue counts it. -/
def State.passHead (s : State) (q : Nat) (d : Decoded) : State :=
  let s1 := s.setFld F.qStat_HEAD q ((s.fld F.qStat_HEAD q + d.units) % s.ringUnits q)
  let s2 := s1.setWindow (s.qField q) (dropUid d.uid (s1.window (s.qField q)))
  s2.setQueue q { s2.queue q with seq := ((s2.queue q).seq + 1) % 2 ^ 32 }

/-- A command leaves its issuer's window or posted stream. -/
def State.pass (s : State) (i : Issuer) (d : Decoded) : State :=
  match i with
  | .queue q => s.passHead q d
  | .core eg c => s.setPosts eg c ((s.posts eg c).drop 1)

/-- The first issue of a job starts its episode. -/
def State.startEpisode (s : State) (p j : Nat) : State :=
  match (s.job p j).episode with
  | none => s.setJob p j { s.job p j with episode := some s.cycle }
  | some _ => s

/-- An issue up to the counts: the command has left its issuer, and the squash and the waiting are counted. -/
def State.issueCounted (s : State) (i : Issuer) (d : Decoded) : State :=
  let s1 := (s.issueStart i d).pass i d
  let s2 := if (s.mkCmd i d).squashed then s1.count F.cpStat_SQUASHCNT (s.mkCmd i d).field 1 else s1
  ((s2.reachNext i).addWait (s.mkCmd i d).part (s.mkCmd i d).job (s.wheelWait d)).startEpisode (s.mkCmd i d).part (s.mkCmd i d).job

/-- The state in which an issued command is among the commands in flight. -/
def State.inFlight (s : State) (c : Cmd) : State := { s with cp := { s.cp with inflight := s.cp.inflight ++ [c] } }

theorem State.issue_eq (s : State) (i : Issuer) (d : Decoded) :
    s.issue i d = (((s.issueCounted i d).inFlight (s.mkCmd i d)).issueTouch i d).settleJob (s.mkCmd i d).part (s.mkCmd i d).job := by
  cases i <;> rfl

/-! ## Frames of the stages -/

theorem State.holdOverrun_tables (s : State) (eg : Nat) (d : Decoded) :
    s.holdOverrun eg d = { s with wheels := (s.holdOverrun eg d).wheels } := by
  unfold State.holdOverrun State.holdWheel
  split
  · dsimp only
    split <;> rfl
  · rfl

theorem State.issueStart_tables (s : State) (i : Issuer) (d : Decoded) :
    s.issueStart i d = { s with free := s.free + 1, cycle := max s.cycle (s.mkCmd i d).issued, wheels := (s.issueStart i d).wheels } := by
  unfold State.issueStart
  rw [State.holdOverrun_tables]
  rfl

theorem State.issueStart_only (s : State) (i : Issuer) (d : Decoded) : OnlyIssue s (s.issueStart i d) := by
  rw [State.issueStart_tables]
  exact .of_tables rfl rfl rfl

theorem State.passHead_only (s : State) (q : Nat) (d : Decoded) : OnlyIssue s (s.passHead q d) :=
  ((OnlyIssue.setFld s (.inl rfl) q _).trans (.setWindow _ _ _)).trans (.setQueue _ _ _)

theorem State.pass_only (s : State) (i : Issuer) (d : Decoded) : OnlyIssue s (s.pass i d) := by
  cases i with
  | queue q => exact s.passHead_only q d
  | core eg c => exact .setPosts ..

/-- What is left as it is once a command has left its issuer and its squash is counted: HEAD and the queues, which commands the windows
hold, the counts of squashes, and the commands in flight. -/
structure OnlyWaits (s t : State) : Prop where
  only : OnlyIssue s t
  heads : ∀ i, t.reg .qStat i = s.reg .qStat i
  squashes : ∀ i, t.fld F.cpStat_SQUASHCNT i = s.fld F.cpStat_SQUASHCNT i
  queues : t.cp.queues = s.cp.queues
  inflight : t.cp.inflight = s.cp.inflight
  uids : ∀ f, (t.window f).map Decoded.uid = (s.window f).map Decoded.uid
  cycle : t.cycle = s.cycle

namespace OnlyWaits

variable {r s t : State}

theorem refl (s : State) : OnlyWaits s s := ⟨.refl s, fun _ => rfl, fun _ => rfl, rfl, rfl, fun _ => rfl, rfl⟩

theorem trans (h : OnlyWaits r s) (g : OnlyWaits s t) : OnlyWaits r t :=
  ⟨h.only.trans g.only, fun i => (g.heads i).trans (h.heads i), fun i => (g.squashes i).trans (h.squashes i), g.queues.trans h.queues,
    g.inflight.trans h.inflight, fun f => (g.uids f).trans (h.uids f), g.cycle.trans h.cycle⟩

theorem of_requests (h : OnlyRequests s t) : OnlyWaits s t :=
  ⟨.of_requests h, fun _ => State.reg_of_regs h.regs _ _, fun i => h.fld _ i, by rw [h.cp], by rw [h.cp], fun f => by rw [h.window],
    h.cycle⟩

theorem setReg (s : State) {n : RegName} (own : n = .cpJwait ∨ n = .cpJstat) (i : Nat) (v : Word) : OnlyWaits s (s.setReg n i v) where
  only := .setReg s (by rcases own with rfl | rfl <;> simp [IssueReg]) i v
  heads _ := State.reg_setReg_ne s v fun e => by rcases own with rfl | rfl <;> cases e.1
  squashes _ := State.fld_of_reg (State.reg_setReg_ne s v fun e => by rcases own with rfl | rfl <;> cases e.1)
  queues := rfl
  inflight := rfl
  uids _ := rfl
  cycle := rfl

end OnlyWaits

theorem uid_markReached (q cyc : Nat) (w : List Decoded) : (markReached q cyc w).map Decoded.uid = w.map Decoded.uid := by
  induction w with
  | nil => rfl
  | cons d w ih =>
    rw [markReached]
    split
    · rfl
    · rw [List.map_cons, List.map_cons, ih]

theorem State.reachNext_waits (s : State) (i : Issuer) : OnlyWaits s (s.reachNext i) := by
  cases i with
  | queue q =>
    refine ⟨.setWindow .., fun _ => State.reg_setReg_ne _ _ (fun e => by cases e.1),
      fun _ => State.fld_setFld_other _ _ _ _ _ _ (by decide), rfl, rfl,
      fun f => ?_, by simp [State.reachNext]⟩
    by_cases own : f = s.qField q
    · rw [own, State.reachNext, State.window_setWindow, uid_markReached]
    · rw [State.reachNext, State.window_setWindow_ne _ _ own]
  | core eg c =>
    rw [State.reachNext]
    split
    · exact .refl s
    · exact ⟨.setPosts .., fun _ => rfl, fun _ => rfl, rfl, rfl, fun _ => rfl, rfl⟩

theorem State.startEpisode_waits (s : State) (p j : Nat) : OnlyWaits s (s.startEpisode p j) := by
  unfold State.startEpisode
  split
  · exact ⟨.of_tables rfl rfl rfl, fun _ => rfl, fun _ => rfl, rfl, rfl, fun _ => rfl, rfl⟩
  · exact .refl s

theorem State.issueTouch_requests (s : State) (i : Issuer) (d : Decoded) : OnlyRequests s (s.issueTouch i d) := by
  refine .foldl (fun t w => ?_) _ s
  split
  · exact .touch ..
  · exact .refl t

theorem State.settleJob_waits (s : State) (p j : Nat) : OnlyWaits s (s.settleJob p j) := by
  unfold State.settleJob
  split
  · exact .refl s
  · exact .setReg s (.inr rfl) _ _

/-- The state in which a command has left its issuer, and its squash is counted. -/
def State.issuePassed (s : State) (i : Issuer) (d : Decoded) : State :=
  let s1 := (s.issueStart i d).pass i d
  if (s.mkCmd i d).squashed then s1.count F.cpStat_SQUASHCNT (s.mkCmd i d).field 1 else s1

theorem State.issueCounted_waits (s : State) (i : Issuer) (d : Decoded) : OnlyWaits (s.issuePassed i d) (s.issueCounted i d) :=
  (((s.issuePassed i d).reachNext_waits i).trans (.setReg _ (.inl rfl) _ _)).trans (State.startEpisode_waits ..)

theorem State.issue_waits (s : State) (i : Issuer) (d : Decoded) :
    OnlyWaits ((s.issueCounted i d).inFlight (s.mkCmd i d)) (s.issue i d) := by
  rw [State.issue_eq]
  exact (OnlyWaits.of_requests (State.issueTouch_requests ..)).trans (State.settleJob_waits ..)

theorem State.issuePassed_only (s : State) (i : Issuer) (d : Decoded) : OnlyIssue s (s.issuePassed i d) := by
  have passed := (s.issueStart_only i d).trans ((s.issueStart i d).pass_only i d)
  unfold State.issuePassed
  dsimp only
  split
  · exact passed.trans (.setFld _ (.inr (.inl rfl)) _ _)
  · exact passed

theorem State.inFlight_only (s : State) (c : Cmd) : OnlyIssue s (s.inFlight c) := ⟨rfl, rfl, fun _ _ _ => rfl⟩

theorem State.issue_only (s : State) (i : Issuer) (d : Decoded) : OnlyIssue s (s.issue i d) :=
  (((s.issuePassed_only i d).trans (s.issueCounted_waits i d).only).trans (State.inFlight_only ..)).trans (s.issue_waits i d).only

theorem State.pass_cycle (s : State) (i : Issuer) (d : Decoded) : (s.pass i d).cycle = s.cycle := by
  cases i <;> simp [State.pass, State.passHead]

theorem State.pass_inflight (s : State) (i : Issuer) (d : Decoded) : (s.pass i d).cp.inflight = s.cp.inflight := by
  cases i <;> rfl

theorem State.issuePassed_cycle (s : State) (i : Issuer) (d : Decoded) :
    (s.issuePassed i d).cycle = max s.cycle (s.mkCmd i d).issued := by
  have passed : ((s.issueStart i d).pass i d).cycle = max s.cycle (s.mkCmd i d).issued := by
    rw [State.pass_cycle, State.issueStart_tables]
  unfold State.issuePassed
  dsimp only
  split <;> exact passed

theorem State.issuePassed_inflight (s : State) (i : Issuer) (d : Decoded) : (s.issuePassed i d).cp.inflight = s.cp.inflight := by
  have passed : ((s.issueStart i d).pass i d).cp.inflight = s.cp.inflight := by
    rw [State.pass_inflight, State.issueStart_tables]
  unfold State.issuePassed
  dsimp only
  split <;> exact passed

/-- A command that has issued is the last one in flight. -/
theorem State.issue_inflight (s : State) (i : Issuer) (d : Decoded) : (s.issue i d).cp.inflight = s.cp.inflight ++ [s.mkCmd i d] := by
  rw [(s.issue_waits i d).inflight, State.inFlight, (s.issueCounted_waits i d).inflight, s.issuePassed_inflight]

theorem State.issue_cycle (s : State) (i : Issuer) (d : Decoded) : (s.issue i d).cycle = max s.cycle (s.mkCmd i d).issued := by
  rw [(s.issue_waits i d).cycle, State.inFlight, (s.issueCounted_waits i d).cycle, s.issuePassed_cycle]

end Sys2Proof.Machine
end

