-- ==== Sys2Proof/Proofs/IssuedCommands.lean ====
section
/-!
PROOFS. A command of a queue that issues (R237, R252, R259, R267).
-/

set_option Elab.async false

namespace Sys2Proof.Machine

open Sys2Proof

theorem State.ringUnits_pos (s : State) (q : Nat) : 0 < s.ringUnits q :=
  Nat.mul_pos (by decide) (Nat.two_pow_pos _)

theorem State.window_passHead (s : State) (q : Nat) (d : Decoded) :
    (s.passHead q d).window (s.qField q) = dropUid d.uid (s.window (s.qField q)) := by
  unfold State.passHead
  dsimp only
  rw [State.window_setQueue, State.window_setWindow, State.window, State.setFld_cp, ← State.window]

theorem State.queue_setWindow (s : State) (f : Nat) (w : List Decoded) (q : Nat) : (s.setWindow f w).queue q = s.queue q := rfl

theorem State.seq_passHead (s : State) (q : Nat) (d : Decoded) :
    ((s.passHead q d).queue q).seq = ((s.queue q).seq + 1) % 2 ^ 32 := by
  unfold State.passHead
  dsimp only
  rw [State.queue_setQueue, State.queue_setWindow, State.queue_setFld]

theorem State.passHead_regs (s : State) (q : Nat) (d : Decoded) :
    (s.passHead q d).regs = ((s.setFld F.qStat_HEAD q ((s.fld F.qStat_HEAD q + d.units) % s.ringUnits q)).setWindow (s.qField q)
      (dropUid d.uid (s.window (s.qField q)))).regs := by
  unfold State.passHead
  dsimp only
  rw [State.setQueue_regs, State.window, State.setFld_cp, ← State.window]

theorem State.head_passHead {s : State} {q : Nat} (fits : s.ringUnits q ≤ 2 ^ 20) (d : Decoded) :
    (s.passHead q d).fld F.qStat_HEAD q = (s.fld F.qStat_HEAD q + d.units) % s.ringUnits q := by
  have below := Nat.mod_lt (s.fld F.qStat_HEAD q + d.units) (s.ringUnits_pos q)
  refine (State.fld_of_regs (s.passHead_regs q d) _ _).trans ((State.fld_setWindow _ _ _ (by decide) q).trans ?_)
  exact (State.fld_setFld_same s F.qStat_HEAD q _ (by decide)).trans (Nat.mod_eq_of_lt (below.trans_le fits))

theorem State.squashes_setWindow (s : State) (f : Nat) (w : List Decoded) (i : Nat) :
    (s.setWindow f w).fld F.cpStat_SQUASHCNT i = s.fld F.cpStat_SQUASHCNT i :=
  (State.fld_setFld_other { s with cp := { s.cp with window := Sparse.wr (fun _ => []) f w s.cp.window } } F.cpStat_WINDOW
    F.cpStat_SQUASHCNT _ _ _ (by decide)).trans (State.fld_of_regs rfl _ _)

theorem State.squashes_passHead (s : State) (q : Nat) (d : Decoded) (f : Nat) :
    (s.passHead q d).fld F.cpStat_SQUASHCNT f = s.fld F.cpStat_SQUASHCNT f :=
  (State.fld_of_regs (s.passHead_regs q d) _ _).trans ((State.squashes_setWindow ..).trans
    (State.fld_setFld_other s F.qStat_HEAD F.cpStat_SQUASHCNT _ _ _ (by decide)))

/-- The passed command of a queue, in terms of the state before. -/
theorem State.issuePassed_queue (s : State) (q : Nat) (d : Decoded) :
    let u := s.issuePassed (.queue q) d
    let p := (s.issueStart (.queue q) d).passHead q d
    u.cp = p.cp ∧ u.reg .qStat q = p.reg .qStat q ∧ u.fld F.cpStat_SQUASHCNT (s.qField q) =
      if d.squashed || d.reread then satAdd F.cpStat_SQUASHCNT.width (s.fld F.cpStat_SQUASHCNT (s.qField q)) 1
      else s.fld F.cpStat_SQUASHCNT (s.qField q) := by
  intro u p
  have before : p.fld F.cpStat_SQUASHCNT (s.qField q) = s.fld F.cpStat_SQUASHCNT (s.qField q) :=
    (State.squashes_passHead ..).trans (State.fld_of_regs (congrArg State.regs (s.issueStart_tables (.queue q) d) :) _ _)
  have passed : u = if d.squashed || d.reread then p.count F.cpStat_SQUASHCNT (s.qField q) 1 else p := rfl
  rw [passed]
  split
  · exact ⟨rfl, State.reg_count_ne _ _ (fun e => by cases e.1), before ▸ State.fld_count_same p rfl _ _⟩
  · exact ⟨rfl, rfl, before⟩

end Sys2Proof.Machine

open Sys2Proof Sys2Proof.Machine

/-- Settles O14: HEAD, the window, the queue and the count are those of the stage that passes the command, which the later stages keep. -/
theorem issuingPassesTheCommand : Obligations.IssuingPassesTheCommand := by
  unfold Obligations.IssuingPassesTheCommand
  intro s q d fits t
  have start := s.issueStart_tables (.queue q) d
  have counted := s.issueCounted_waits (.queue q) d
  have later := s.issue_waits (.queue q) d
  obtain ⟨cp, stat, squashes⟩ := s.issuePassed_queue q d
  have field : (s.issueStart (.queue q) d).qField q = s.qField q := by rw [start]; rfl
  have ring : (s.issueStart (.queue q) d).ringUnits q = s.ringUnits q := by rw [start]; rfl
  refine ⟨?head, fun x => ?uids, ?seq, s.issue_inflight (.queue q) d, ?squash, .of_mem (s.issue_only (.queue q) d).mem⟩
  case head =>
    have head : t.fld F.qStat_HEAD q = ((s.issueStart (.queue q) d).passHead q d).fld F.qStat_HEAD q :=
      State.fld_of_reg ((later.heads q).trans ((counted.heads q).trans stat))
    rw [head, State.head_passHead (ring ▸ fits), ring, State.fld_of_regs (s := s) (congrArg State.regs start :)]
  case uids =>
    have uids : (t.window (s.qField q)).map Decoded.uid = (dropUid d.uid (s.window (s.qField q))).map Decoded.uid := by
      rw [later.uids, show ((s.issueCounted (.queue q) d).inFlight _).window _ = (s.issueCounted (.queue q) d).window _ from rfl,
        counted.uids, State.window, cp, ← State.window, ← field, State.window_passHead, start]
      rfl
    rw [uids, dropUid]
    simp only [List.mem_map, List.mem_filter, bne_iff_ne]
    constructor
    · rintro ⟨e, ⟨listed, other⟩, rfl⟩
      exact ⟨⟨e, listed, rfl⟩, other⟩
    · rintro ⟨⟨e, listed, rfl⟩, other⟩
      exact ⟨e, ⟨listed, other⟩, rfl⟩
  case seq =>
    have queues : t.queue q = ((s.issueStart (.queue q) d).passHead q d).queue q := by
      rw [State.queue, later.queues, State.inFlight, counted.queues, cp, ← State.queue]
    rw [queues, State.seq_passHead, start]
    rfl
  case squash =>
    exact (later.squashes _).trans ((counted.squashes _).trans squashes)

end


-- ==== Sys2Proof/Proofs/Rows.lean ====
section
/-!
SUPPORT. The shared form of the rows that issue a command: the command that passes every check runs, and one that may not issue waits.
-/

set_option Elab.async false

namespace Sys2Proof.Machine

open Sys2Proof

/-- A command that meets every condition of its row issues and runs. -/
theorem Issues.issueRowAs {s : State} {i : Issuer} {d : Decoded} {mine : List Byte → Bool} {check : State → Cmd → Verdict}
    (h : Issues s i d mine check) (run : State → Cmd → State) (named : State → Cmd → Cmd) :
    s.issueRowAs i mine check run named = run (s.settleBounds.issue i d) (s.settleBounds.mkCmd i d) := by
  have served (t : State) : s.settleBounds.requestWaits t (s.settleBounds.mkCmd i d) = false := by
    unfold State.requestWaits
    split
    · exact h.room _
    · rfl
  have guard : s.settleBounds.guardVerdict (s.settleBounds.mkCmd i d).part d.bytes = .go := h.guard
  unfold State.issueRowAs
  simp [h.next, h.landed, h.kind, h.ready, h.unit, h.header, h.checks, guard, served]

theorem Issues.issueRow {s : State} {i : Issuer} {d : Decoded} {mine : List Byte → Bool} {check : State → Cmd → Verdict}
    (h : Issues s i d mine check) (run : State → Cmd → State) :
    s.issueRow i mine check run = run (s.settleBounds.issue i d) (s.settleBounds.mkCmd i d) :=
  h.issueRowAs run _

namespace OnlyBounds

variable {s t : State}

theorem season (h : OnlyBounds s t) (p : Nat) : t.season p = s.season p := h.fld (by decide) p

theorem egPart (h : OnlyBounds s t) (eg : Nat) : t.egPart eg = s.egPart eg := by
  simp only [State.egPart, State.blockPart, h.regs _ _ (show RegName.sysPartmap ≠ .cpBound by decide)]

theorem issuerPart (h : OnlyBounds s t) (i : Issuer) : t.issuerPart i = s.issuerPart i := by
  cases i with
  | queue q => exact h.qPart q
  | core eg c => exact congrArg (·.getD 8) (h.egPart eg)

theorem cmdEg (h : OnlyBounds s t) (i : Issuer) (b : List Byte) : t.cmdEg i b = s.cmdEg i b := by
  cases i with
  | queue q => simp only [State.cmdEg, State.issuerField, h.qField]
  | core eg c => rfl

theorem issuerJob (h : OnlyBounds s t) (i : Issuer) {d e : Decoded} (same : e.job = d.job) : t.issuerJob i e = s.issuerJob i d := by
  cases i with
  | queue q => exact h.fld (by decide) q
  | core eg c => exact same

theorem errorDue (h : OnlyBounds s t) (q : Nat) : t.errorDue q = s.errorDue q := by
  have collector : t.cp.collector = s.cp.collector := by rw [h.units]
  have cycle : t.cycle = s.cycle := by rw [h.units]
  rw [State.errorDue, h.flag (by decide), collector, cycle, ← State.errorDue]

theorem fetching (h : OnlyBounds s t) (uid : Nat) : t.fetching uid = s.fetching uid := by
  rw [h.units]
  rfl

theorem teWaiting (h : OnlyBounds s t) (i : Issuer) : t.teWaiting i = s.teWaiting i := by
  rw [h.units]
  rfl

theorem earlierOpen (h : OnlyBounds s t) (i : Issuer) : t.earlierOpen i = s.earlierOpen i := by
  rw [h.units]
  rfl

theorem holds (h : OnlyBounds s t) : t.cp.holds = s.cp.holds := by rw [h.units]

theorem jobState (h : OnlyBounds s t) (p j : Nat) : t.jobState p j = s.jobState p j := by
  have job : t.job p j = s.job p j := by rw [h.units]; rfl
  have cycle : t.cycle = s.cycle := by rw [h.units]
  simp only [State.jobState, h.fld (show F.cpJstat_STATE.reg ≠ .cpBound by decide), job, cycle]

theorem wheelEntry (h : OnlyBounds s t) (eg k : Nat) : t.wheelEntry eg k = s.wheelEntry eg k := by
  rw [State.wheelEntry, h.regs _ _ (by decide), ← State.wheelEntry]

theorem wheelJob (h : OnlyBounds s t) (eg : Nat) : t.wheelJob eg = s.wheelJob eg := by
  have wheel : t.wheel eg = s.wheel eg := by rw [h.units]; rfl
  rw [State.wheelJob, wheel, h.fld (by decide), h.wheelEntry, ← State.wheelJob]

/-- BOUNDSETs that take effect make no command ready, and none unready. -/
theorem ready (h : OnlyBounds s t) (i : Issuer) {d e : Decoded} (same : e.unmarked = d.unmarked) : t.ready i e = s.ready i d := by
  have bytes : e.bytes = d.bytes := (congrArg Decoded.bytes same :)
  have uid : e.uid = d.uid := (congrArg Decoded.uid same :)
  have ring : e.ringBad = d.ringBad := (congrArg Decoded.ringBad same :)
  have job : e.job = d.job := (congrArg Decoded.job same :)
  have valid (k : Nat) : t.flag F.cpJob_VALID k = s.flag F.cpJob_VALID k := h.flag (by decide) k
  have enabled (q : Nat) : t.flag F.qCfg_ENABLE q = s.flag F.qCfg_ENABLE q := h.flag (by decide) q
  have state (q : Nat) : t.fld F.qStat_STATE q = s.fld F.qStat_STATE q := h.fld (by decide) q
  unfold State.ready
  simp only [h.issuerPart, h.issuerJob i job, bytes, uid, ring, h.cmdEg, h.fetching, h.season, h.holds, h.teWaiting, h.earlierOpen, valid,
    h.jobState, h.wheelJob, h.egPart, enabled, state, h.errorDue]

end OnlyBounds

/-- A command of another kind, or not ready, waits: its row leaves the state as it is once BOUNDSETs have taken effect (log entry 3). -/
theorem State.issueRow_waits {s : State} {i : Issuer} {d : Decoded} {mine : List Byte → Bool}
    (next : s.settleBounds.nextOf i = some d) (landed : d.ringBad = none)
    (waits : mine d.bytes = false ∨ s.settleBounds.ready i d = false) (check : State → Cmd → Verdict) (run : State → Cmd → State) :
    s.issueRow i mine check run = s.settleBounds := by
  unfold State.issueRow State.issueRowAs
  dsimp only
  rw [next]
  dsimp only
  rw [landed, Option.isSome_none, if_neg Bool.false_ne_true, if_pos (by rcases waits with w | w <;> simp [w])]

/-- A command that passes every check does not complete at issue. -/
theorem Issues.doneAtIssue {s : State} {i : Issuer} {d : Decoded} {mine : List Byte → Bool} {check : State → Cmd → Verdict}
    (h : Issues s i d mine check) : s.doneAtIssue i mine check = false := by
  unfold State.doneAtIssue
  simp [h.next, h.guard, h.checks]

/-- The next command of an issuer is the same one, but for its marks, once BOUNDSETs have taken effect. -/
theorem State.nextOf_settleBounds (s : State) (i : Issuer) :
    (s.settleBounds.nextOf i).map Decoded.unmarked = (s.nextOf i).map Decoded.unmarked := by
  cases i with
  | queue q => exact (OnlyBounds.settleBounds s).firstOf q
  | core eg c => rw [State.nextOf, State.posts, (OnlyBounds.settleBounds s).units]; rfl

/-- No BOUNDSET takes effect while every one waits for a later cycle. -/
theorem State.settleBounds_of_early {s : State} (early : ∀ x ∈ s.cp.bsets, s.cycle < x.1) : s.settleBounds = s := by
  have due : s.cp.bsets.filter (fun x => decide (x.1 ≤ s.cycle)) = [] :=
    List.filter_eq_nil_iff.2 fun x listed => by simpa using early x listed
  have left : s.cp.bsets.filter (fun x => !decide (x.1 ≤ s.cycle)) = s.cp.bsets :=
    List.filter_eq_self.2 fun x listed => by simpa using early x listed
  unfold State.settleBounds
  dsimp only
  rw [due, left, List.foldl_nil]

theorem Issues.next_bytes {s : State} {i : Issuer} {d : Decoded} {mine : List Byte → Bool} {check : State → Cmd → Verdict}
    (h : Issues s i d mine check) : ∃ e, s.nextOf i = some e ∧ e.bytes = d.bytes := by
  have marks := s.nextOf_settleBounds i
  rw [h.next] at marks
  obtain ⟨e, found, same⟩ := Option.map_eq_some_iff.1 marks.symm
  exact ⟨e, found, (congrArg Decoded.bytes same :)⟩

theorem Issues.codeRow {s : State} {i : Issuer} {d : Decoded} {mine : List Byte → Bool} {check : State → Cmd → Verdict}
    (h : Issues s i d mine check) (run : State → Cmd → State) :
    s.codeRow i mine check run = run (s.settleBounds.issue i d) (s.settleBounds.mkCmd i d) := by
  unfold State.codeRow
  dsimp only
  rw [h.doneAtIssue, if_neg Bool.false_ne_true, h.issueRow]

/-- A command of the special-function unit that no ATTN holds back issues as others do (R150). -/
theorem Issues.sfuRowAs {s : State} {i : Issuer} {d : Decoded} {mine : List Byte → Bool} {check : State → Cmd → Verdict}
    (h : Issues s i d mine check) {held : State → Decoded → Bool} (free : ∀ e, e.bytes = d.bytes → held s e = false)
    (run : State → Cmd → State) :
    s.sfuRowAs i held mine check run = run (s.settleBounds.issue i d) (s.settleBounds.mkCmd i d) := by
  obtain ⟨e, next, same⟩ := h.next_bytes
  unfold State.sfuRowAs
  dsimp only
  rw [next]
  dsimp only
  rw [free e same, Bool.and_false, if_neg Bool.false_ne_true, h.doneAtIssue, if_neg Bool.false_ne_true, h.issueRow]

theorem Issues.sfuRow {s : State} {i : Issuer} {d : Decoded} {mine : List Byte → Bool} {check : State → Cmd → Verdict}
    (h : Issues s i d mine check) (free : s.flipWaits (s.cmdEg i d.bytes) = false) (run : State → Cmd → State) :
    s.sfuRow i mine check run = run (s.settleBounds.issue i d) (s.settleBounds.mkCmd i d) :=
  h.sfuRowAs (fun e same => by rw [same, free]) run

theorem Issues.collRow {s : State} {i : Issuer} {d : Decoded} {op : Nat} (h : Issues s i d (isColl op) State.collCheck)
    (room : s.collFull i = false) :
    s.collRow i op = State.runColl (s.settleBounds.issue i d) (s.settleBounds.mkCmd i d) := by
  rw [State.collRow, room, if_neg Bool.false_ne_true, h.issueRowAs]

/-- A row runs what its condition finds, for an issuer that exists. -/
theorem runs_row {c : Instr} {s : State} {i : Issuer} (ok : issuerOk i = true) {t u : State}
    (meaning : exec c s = inRange (issuerOk i) (fun _ => .next t)) (row : t = u) : Runs c s u := by
  rw [Runs, meaning, ok, row]
  rfl

end Sys2Proof.Machine
end

