-- ==== Sys2Proof/Proofs/Dispatch.lean ====
section
/-!
PROOFS. The commands that issue through the shared form of a row.
-/

set_option Elab.async false

open Sys2Proof Sys2Proof.Machine

/-- Settles O27: each command runs what its row names, since its row is the shared form. -/
theorem dataAndClusterCommandsRun : Obligations.DataAndClusterCommandsRun := by
  unfold Obligations.DataAndClusterCommandsRun
  intro s i d
  have row {c : Instr} {mine : List Byte → Bool} {check : State → Cmd → Verdict} {run : State → Cmd → State}
      (meaning : exec c s = inRange (issuerOk i) (fun _ => .next (s.issueRow i mine check run))) (h : Issues s i d mine check) :
      IssuesTo c s i d run := runs_row h.exists_ meaning (h.issueRow run)
  have named {c : Instr} {mine : List Byte → Bool} {check : State → Cmd → Verdict} {run : State → Cmd → State}
      {name : State → Cmd → Cmd}
      (meaning : exec c s = inRange (issuerOk i) (fun _ => .next (s.issueRowAs i mine check run name))) (h : Issues s i d mine check) :
      IssuesTo c s i d run := runs_row h.exists_ meaning (h.issueRowAs run name)
  have code {c : Instr} {mine : List Byte → Bool} {check : State → Cmd → Verdict} {run : State → Cmd → State}
      (meaning : exec c s = inRange (issuerOk i) (fun _ => .next (s.codeRow i mine check run))) (h : Issues s i d mine check) :
      IssuesTo c s i d run := runs_row h.exists_ meaning (h.codeRow run)
  have coll {c : Instr} {op : Nat} (meaning : exec c s = inRange (issuerOk i) (fun _ => .next (s.collRow i op)))
      (h : Issues s i d (isColl op) State.collCheck) (room : s.collFull i = false) : IssuesTo c s i d State.runColl :=
    runs_row h.exists_ meaning (h.collRow room)
  have load (h : Issues s i d (isDma .load) State.loadCheck) (free : s.loadHeld i = false) :
      IssuesTo (.tableLoad i) s i d State.runLoad :=
    runs_row h.exists_ rfl ((if_neg (by simp [free])).trans (h.issueRow State.runLoad))
  exact ⟨row rfl, row rfl, row rfl, row rfl, row rfl, code rfl, code rfl, code rfl, load, row rfl, row rfl, row rfl, named rfl, named rfl,
    named rfl, coll rfl, coll rfl, coll rfl, coll rfl, coll rfl, coll rfl, coll rfl, coll rfl⟩

/-- Settles O28: as O27; a flip of tables holds back none of the commands of the special-function unit named. -/
theorem engineGroupCommandsRun : Obligations.EngineGroupCommandsRun := by
  unfold Obligations.EngineGroupCommandsRun
  intro s i d
  have row {c : Instr} {mine : List Byte → Bool} {check : State → Cmd → Verdict} {run : State → Cmd → State}
      (meaning : exec c s = inRange (issuerOk i) (fun _ => .next (s.issueRow i mine check run))) (h : Issues s i d mine check) :
      IssuesTo c s i d run := runs_row h.exists_ meaning (h.issueRow run)
  have sfu {c : Instr} {mine : List Byte → Bool} {check : State → Cmd → Verdict} {run : State → Cmd → State}
      (meaning : exec c s = inRange (issuerOk i) (fun _ => .next (s.sfuRow i mine check run))) (h : Issues s i d mine check)
      (free : s.flipWaits (s.cmdEg i d.bytes) = false) : IssuesTo c s i d run :=
    runs_row h.exists_ meaning (h.sfuRow free run)
  have load (h : Issues s i d (isSfu 5) State.tblloadCheck)
      (free : (s.attnOpen (s.cmdEg i d.bytes) && s.sfuPending (s.cmdEg i d.bytes) (Sfuop.of d.bytes).slot) = false) :
      IssuesTo (.tblload i) s i d State.runTblload :=
    runs_row h.exists_ rfl (h.sfuRowAs (fun e same => by rw [same, free]) State.runTblload)
  exact ⟨row rfl, row rfl, row rfl, sfu rfl, sfu rfl, sfu rfl, sfu rfl, sfu rfl, sfu rfl, load, row rfl, row rfl, row rfl, row rfl, row rfl,
    row rfl, row rfl⟩

/-- Settles O30: the rows leave the state as it is but for BOUNDSETs that take effect (that is log entry 3), and what holds a command
back is a conjunct of its readiness. -/
theorem commandsThatMayNotIssueWait : Obligations.CommandsThatMayNotIssueWait := by
  unfold Obligations.CommandsThatMayNotIssueWait
  refine ⟨fun s i d ok next landed p listed waits => ?rows, fun s early => ?settled, fun s i d season => ?season, fun s i d own other => ?wheel⟩
  case rows =>
    have marks := s.nextOf_settleBounds i
    rw [next] at marks
    obtain ⟨e, found, same⟩ := Option.map_eq_some_iff.1 marks
    have bytes : e.bytes = d.bytes := (congrArg Decoded.bytes same :)
    have waits' : p.2 e.bytes = false ∨ s.settleBounds.ready i e = false := by
      rwa [bytes, (OnlyBounds.settleBounds s).ready i same]
    have row {c : Instr} {mine : List Byte → Bool} {check : State → Cmd → Verdict} {run : State → Cmd → State}
        (meaning : exec c s = inRange (issuerOk i) (fun _ => .next (s.issueRow i mine check run)))
        (waits : mine e.bytes = false ∨ s.settleBounds.ready i e = false) : Runs c s s.settleBounds :=
      runs_row ok meaning (State.issueRow_waits found ((congrArg Decoded.ringBad same :).trans landed) waits check run)
    simp only [List.mem_cons, List.not_mem_nil, or_false] at listed
    rcases listed with rfl | rfl | rfl | rfl | rfl | rfl
    all_goals exact row rfl waits'
  case settled => exact State.settleBounds_of_early early
  case season =>
    unfold State.ready
    simp [season]
  case wheel =>
    unfold State.ready
    simp [own, other]

end

