-- ==== Sys2Proof/Proofs/Finishing.lean ====
section
/-!
SUPPORT. What the end of a command changes (R258, R261, R439), and the bound registers once BOUNDSETs have taken effect (R242).
-/

set_option Elab.async false

namespace Sys2Proof.Machine

open Sys2Proof

/-- The registers that the end of a command may change. -/
def FinishReg (n : RegName) : Prop := n = .egStat ∨ n = .wagStat ∨ n = .cpJstat

/-- What the end of a command leaves unchanged. -/
structure OnlyFinish (s t : State) : Prop where
  mem : t.mem = s.mem
  cycle : t.cycle = s.cycle
  cp : t.cp = { s.cp with inflight := t.cp.inflight, parked := t.cp.parked, collector := t.cp.collector }
  regs : ∀ n i, ¬ FinishReg n → t.reg n i = s.reg n i

namespace OnlyFinish

variable {r s t : State}

theorem refl (s : State) : OnlyFinish s s := ⟨rfl, rfl, rfl, fun _ _ _ => rfl⟩

theorem trans (h : OnlyFinish r s) (g : OnlyFinish s t) : OnlyFinish r t := by
  refine ⟨g.mem.trans h.mem, g.cycle.trans h.cycle, ?_, fun n i other => (g.regs n i other).trans (h.regs n i other)⟩
  rw [g.cp, h.cp]

theorem setFld (s : State) {f : Fld} (own : FinishReg f.reg) (i v : Nat) : OnlyFinish s (s.setFld f i v) :=
  ⟨rfl, rfl, rfl, fun _ _ other => State.reg_setReg_ne s _ fun e => other (e.1 ▸ own)⟩

theorem setEntry (s : State) (f e : Nat) (l : List Completion) : OnlyFinish s (s.setEntry f e l) := ⟨rfl, rfl, rfl, fun _ _ _ => rfl⟩

theorem noteEcc (s : State) (c : Cmd) (st : Byte) : OnlyFinish s (s.noteEcc c st) := by
  unfold State.noteEcc
  dsimp only
  split
  · exact .refl s
  · split
    · exact .setFld s (.inl rfl) _ _
    · split
      · exact .setFld s (.inr (.inl rfl)) _ _
      · exact .refl s

theorem post (s : State) (c : Completion) : OnlyFinish s (s.post c) := (noteEcc s c.cmd c.final).trans (.setEntry ..)

theorem settleJob (s : State) (p j : Nat) : OnlyFinish s (s.settleJob p j) := by
  unfold State.settleJob
  split
  · exact .refl s
  · exact .setFld s (.inr (.inr rfl)) _ _

theorem finish (s : State) (c : Cmd) (x : Result) : OnlyFinish s (s.finish c x) := by
  unfold State.finish
  dsimp only
  generalize landed : (s.act c.part (cmdAct (hdrOpcode c.bytes) x.cycles)).land c.uid = u
  have start : OnlyFinish s u := by
    subst landed
    exact ⟨rfl, rfl, rfl, fun _ _ _ => rfl⟩
  refine start.trans (trans ?_ (.settleJob _ _ _))
  split
  · exact ⟨rfl, rfl, rfl, fun _ _ _ => rfl⟩
  · exact .post ..

end OnlyFinish

/-- The end of a command that met nothing in flight and has no request to be served posts its completion. -/
theorem State.finish_posts {s : State} {c : Cmd} (x : Result) (served : s.hasRequests c.uid = false) (own : s.withMisses c = c)
    (clean : c.ecc = none) (timely : c.late = 0) (good : (Completion.mk c x (c.issued + x.cycles)).final ≠ St.ecc) :
    (s.finish c x).entry c.field c.entry = s.entry c.field c.entry ++ [⟨c, x, c.issued + x.cycles⟩] := by
  have kept (u : State) (p j f e : Nat) : (u.settleJob p j).entry f e = u.entry f e := by
    rw [State.entry, (u.settleJob_onlyRegs p j).cp_eq, ← State.entry]
  unfold State.finish
  dsimp only
  rw [kept, own, clean, timely]
  rw [if_neg (show ¬ ((s.act c.part _).land c.uid).hasRequests c.uid = true from fun e => by
    have waits : s.hasRequests c.uid = true := e
    rw [served] at waits
    cases waits)]
  have whole : x.withEcc none = x := rfl
  rw [whole, Nat.add_zero, State.post, State.noteEcc, if_pos good]
  exact State.entry_setEntry ..

/-! ## Bound registers -/

/-- What a bound register holds after writes, from what it held. -/
def boundAfter (l : List (Nat × Nat × Word)) (n : Nat) (v : Word) : Word := l.foldl (fun v x => if x.2.1 = n then x.2.2 else v) v

theorem boundAfter_append (l m : List (Nat × Nat × Word)) (n : Nat) (v : Word) :
    boundAfter (l ++ m) n v = boundAfter m n (boundAfter l n v) :=
  List.foldl_append

theorem State.reg_setBound (s : State) (m n : Nat) (v : Word) : (s.setBound m v).reg .cpBound n = if m = n then v else s.reg .cpBound n := by
  by_cases same : m = n
  · subst same
    rw [if_pos rfl]
    exact State.reg_setReg_same s .cpBound m v
  · rw [if_neg same]
    exact State.reg_setReg_ne s v fun e => same e.2.symm

theorem State.reg_setBounds (l : List (Nat × Nat × Word)) (n : Nat) (s : State) :
    (l.foldl (fun t x => t.setBound x.2.1 x.2.2) s).reg .cpBound n = boundAfter l n (s.reg .cpBound n) := by
  induction l generalizing s with
  | nil => rfl
  | cons x l ih => rw [List.foldl_cons, ih, State.reg_setBound, boundAfter, boundAfter, List.foldl_cons]

/-- What a bound register holds once the BOUNDSETs that are due have taken effect. -/
theorem State.bound_settleBounds (s : State) (n : Nat) :
    s.settleBounds.reg .cpBound n = boundAfter (s.cp.bsets.filter (fun x => decide (x.1 ≤ s.cycle))) n (s.reg .cpBound n) :=
  State.reg_setBounds _ n _

/-- The writes of one BOUNDSET, to `k` registers from `a` on. -/
theorem boundAfter_range (at_ a n : Nat) (w : Nat → Word) (v : Word) (k : Nat) :
    boundAfter ((List.range k).map (fun j => (at_, a + j, w j))) n v = if a ≤ n ∧ n < a + k then w (n - a) else v := by
  induction k with
  | zero => simp [boundAfter]
  | succ k ih =>
    rw [List.range_succ, List.map_append, boundAfter_append, ih]
    simp only [boundAfter, List.map_cons, List.map_nil, List.foldl_cons, List.foldl_nil]
    by_cases last : a + k = n
    · rw [if_pos last, if_pos (by omega), show n - a = k by omega]
    · rw [if_neg last]
      exact if_congr (by omega) rfl rfl

end Sys2Proof.Machine
end

