-- ==== Sys2Proof/Proofs/ProcessorCommands.lean ====
section
/-!
PROOFS. NOP, BOUNDSET and SOWAIT as they issue (R242, R255, R256).
-/

set_option Elab.async false

namespace Sys2Proof.Machine

open Sys2Proof

/-- A command that has just issued, under a number of its own, has met nothing in flight. -/
theorem State.withMisses_issue {s : State} {i : Issuer} {d : Decoded} (fresh : ∀ x ∈ s.cp.inflight, x.uid ≠ d.uid) {u : State}
    (last : u.cp.inflight = s.cp.inflight ++ [s.mkCmd i d]) : u.withMisses (s.mkCmd i d) = s.mkCmd i d := by
  have none_ : s.cp.inflight.find? (fun x => x.uid == (s.mkCmd i d).uid) = none :=
    List.find?_eq_none.2 fun x listed => by simpa [State.mkCmd] using fresh x listed
  unfold State.withMisses
  rw [last, List.find?_append, none_]
  simp [State.mkCmd]

/-- The flags of a squash and of a slot miss are no error. -/
theorem final_ok (c : Cmd) (n t : Nat) : (Completion.mk c (Result.mk0 St.ok n) t).final ≠ St.ecc := by
  have flags : (Completion.mk c (Result.mk0 St.ok n) t).allFlags =
      (if c.squashed then [2] else []) ++ (if c.slotMiss ≠ 0 || c.overrun then [3] else []) := by
    simp [Completion.allFlags, Result.mk0, St.ok]
  rw [Completion.final, flags, show (Completion.mk c (Result.mk0 St.ok n) t).res.status.toNat = 0 from rfl]
  split <;> split <;> decide

/-- NOP and BOUNDSET complete in the collector entry of their engine group. -/
theorem State.finish_issued {s : State} {i : Issuer} {d : Decoded} (fresh : ∀ x ∈ s.cp.inflight, x.uid ≠ d.uid) {u : State}
    (last : u.cp.inflight = s.cp.inflight ++ [s.mkCmd i d]) (served : u.hasRequests d.uid = false)
    (collector : u.cp.collector = s.cp.collector) (n : Nat) :
    let c := s.mkCmd i d
    (u.finish c (Result.mk0 St.ok n)).entry c.field c.entry = s.entry c.field c.entry ++ [⟨c, Result.mk0 St.ok n, c.issued + n⟩] := by
  have entries (f e : Nat) : u.entry f e = s.entry f e := by rw [State.entry, collector, ← State.entry]
  intro c
  rw [← entries]
  exact State.finish_posts (c := c) _ served (State.withMisses_issue fresh last) rfl rfl (final_ok c n _)

end Sys2Proof.Machine

open Sys2Proof Sys2Proof.Machine

/-- Settles O15: both rows issue and end at once; the bound registers are those of the BOUNDSETs that wait, the command's own last. -/
theorem nopAndBoundsetComplete : Obligations.NopAndBoundsetComplete := by
  unfold Obligations.NopAndBoundsetComplete
  intro s i d fresh r c served
  have settled : OnlyBounds s r := .settleBounds s
  have inflight : r.cp.inflight = s.cp.inflight := by rw [settled.units]
  have collector : r.cp.collector = s.cp.collector := by rw [settled.units]
  have entries (f e : Nat) : r.entry f e = s.entry f e := by rw [State.entry, collector, ← State.entry]
  have issued := r.issue_only i d
  have last := r.issue_inflight i d
  have bound (u : State) (n : Nat) (same : ∀ n i, ¬ IssueReg n → u.reg n i = r.reg n i) : u.reg .cpBound n = r.reg .cpBound n :=
    same _ _ (by simp [IssueReg])
  refine ⟨fun h => ?nop, fun h => ?boundset⟩
  case nop =>
    have ended := OnlyFinish.finish (r.issue i d) c (Result.mk0 St.ok 8)
    refine ⟨_, runs_row h.exists_ rfl (h.issueRow fun t c => t.finish c (Result.mk0 St.ok 8)), ?_, fun n => ?_, ?_,
      .of_mem (ended.mem.trans (issued.mem.trans settled.mem))⟩
    · rw [← entries]
      exact State.finish_issued (inflight ▸ fresh) last served (by rw [issued.cp]) 8
    · exact (ended.regs _ _ (by simp [FinishReg])).trans (issued.regs _ _ (by simp [IssueReg]))
    · rw [ended.cp, issued.cp]
  case boundset =>
    let ws := (List.range (num d.bytes 10 1)).map fun k =>
      (c.issued + 8, 256 * c.part + num d.bytes 8 2 + k, BitVec.ofNat 32 (num d.bytes (12 + 4 * k) 4))
    let w : State := { r.issue i d with cp := { (r.issue i d).cp with bsets := (r.issue i d).cp.bsets ++ ws } }
    let t := w.finish c (Result.mk0 St.ok 8)
    have ended : OnlyFinish w t := .finish w c (Result.mk0 St.ok 8)
    have bsets : t.cp.bsets = r.cp.bsets ++ ws := by
      have kept : (r.issue i d).cp.bsets = r.cp.bsets := by rw [issued.cp]
      rw [ended.cp, ← kept]
    have bounds (n : Nat) : t.reg .cpBound n = r.reg .cpBound n :=
      (ended.regs _ _ (by simp [FinishReg])).trans (issued.regs _ _ (by simp [IssueReg]))
    have now : max t.cycle (c.issued + 8) = max r.cycle (c.issued + 8) := by
      have cycle : t.cycle = max r.cycle c.issued := ended.cycle.trans (r.issue_cycle i d)
      omega
    refine ⟨t, runs_row h.exists_ rfl (h.issueRow State.runBoundset), ?entry, bounds, ?waiting, fun n => ?written,
      .of_mem (ended.mem.trans (issued.mem.trans settled.mem))⟩
    case entry =>
      rw [← entries]
      exact State.finish_issued (u := w) (inflight ▸ fresh) last served (congrArg CpState.collector issued.cp :) 8
    case waiting =>
      intro x listed
      rw [bsets] at listed
      rcases List.mem_append.1 listed with old | new
      · exact .inl old
      · obtain ⟨k, -, rfl⟩ := List.mem_map.1 new
        exact .inr rfl
    case written =>
      have due : ws.filter (fun x => decide (x.1 ≤ max r.cycle (c.issued + 8))) = ws :=
        List.filter_eq_self.2 fun x listed => by
          obtain ⟨k, -, rfl⟩ := List.mem_map.1 listed
          simp
      rw [State.bound_settleBounds, State.bound_settleBounds]
      show boundAfter (t.cp.bsets.filter (fun x => decide (x.1 ≤ max t.cycle (c.issued + 8)))) n (t.reg .cpBound n) = if _ then _ else
        boundAfter (r.cp.bsets.filter (fun x => decide (x.1 ≤ max r.cycle (c.issued + 8)))) n (r.reg .cpBound n)
      rw [now, bsets, bounds, List.filter_append, due, boundAfter_append, boundAfter_range, Nat.sub_sub]

/-- Settles O17: a SOWAIT that holds joins the holds and marks its queue; a satisfied one ends. -/
theorem sowaitHoldsItsQueue : Obligations.SowaitHoldsItsQueue := by
  unfold Obligations.SowaitHoldsItsQueue
  intro s q d h c o sat
  have settled := OnlyBounds.settleBounds s
  have issued := s.settleBounds.issue_only (.queue q) d
  have holds : (s.settleBounds.issue (.queue q) d).cp.holds = s.cp.holds := by rw [issued.cp, settled.holds]
  have objects (n : RegName) (k : Nat) (plain : n = .syncObj ∨ n = .syncCfg) :
      (s.settleBounds.issue (.queue q) d).reg n k = s.reg n k := by
    refine (issued.regs n k ?_).trans (settled.regs n k ?_)
    all_goals rcases plain with rfl | rfl <;> simp [IssueReg]
  have same : (s.settleBounds.issue (.queue q) d).waitSat o (num d.bytes 10 1 % 4) (num d.bytes 12 4) = sat := by
    rw [State.waitSat, State.fld_of_reg (objects _ o (.inr rfl)), objects _ _ (.inl rfl), ← State.waitSat]
  have runs : Runs (.sowait (.queue q)) s (State.runSowait (s.settleBounds.issue (.queue q) d) c) :=
    runs_row h.exists_ rfl (h.issueRow State.runSowait)
  have tested : (s.settleBounds.issue (.queue q) d).waitSat (soObj c.bytes) (num c.bytes 10 1 % 4) (num c.bytes 12 4) = sat := same
  refine ⟨_, runs, ?_⟩
  unfold State.runSowait
  dsimp only
  rw [tested]
  cases held : sat with
  | true =>
    rw [if_pos rfl]
    have ended := OnlyFinish.finish (s.settleBounds.issue (.queue q) d) c
    refine ⟨?_, fun no => Bool.noConfusion no, fun n => ?_, .of_mem (((ended _).mem.trans issued.mem).trans settled.mem)⟩
    · rw [(ended _).cp, holds]
      exact (List.append_nil _).symm
    · exact ((ended _).regs _ _ (by simp [FinishReg])).trans (objects _ n (.inl rfl))
  | false =>
    rw [if_neg Bool.false_ne_true]
    refine ⟨?_, fun _ => ?_, fun n => objects _ n (.inl rfl), .of_mem (issued.mem.trans settled.mem)⟩
    · exact congrArg (· ++ _) holds
    · have mark := State.queue_setQueue (s.settleBounds.issue (.queue q) d) q
        { (s.settleBounds.issue (.queue q) d).queue q with held := some c.issued, heldSaw := false }
      exact ⟨congrArg QueueState.held mark, congrArg QueueState.heldSaw mark⟩

end

