-- ==== Sys2Proof/Proofs/CoreRows.lean ====
section
/-!
SUPPORT. The shared form of the rows of Basil cores (R212), and what the end of an instruction leaves in its core.
-/

set_option Elab.async false

namespace Sys2Proof.Machine

open Sys2Proof

/-- An instruction of the row's kind that issues is carried out in the state in which it has issued. -/
theorem CoreIssues.runCore {s : State} {eg c w len u : Nat} {k : Core} {mine : Nat → Bool} (h : CoreIssues s eg c mine w len u k)
    {base : Bool} {mine' : Nat → Bool} (kind : mine' w = true) (go : State → Core → Nat → Nat → Nat → State) :
    s.runCore eg c base mine' go = go (s.coreStart eg c u k) k w len u := by
  obtain ⟨⟨heg, -⟩, running, free, -, t, k1, fetched, rfl, rfl⟩ := h
  unfold State.runCore
  simp [running, free, fetched, kind, show ¬ 128 ≤ eg by omega, State.coreStart]

theorem CoreIssues.runs {s : State} {eg c w len u : Nat} {k : Core} {mine : Nat → Bool} (h : CoreIssues s eg c mine w len u k)
    {i : Instr} {go : State → Core → Nat → Nat → Nat → State}
    (meaning : exec i s = inRange (eg < 128 && c < 16) (fun _ => .next (s.runCore eg c false mine go))) :
    Runs i s (go (s.coreStart eg c u k) k w len u) := by
  rw [Runs, meaning, h.runCore h.kind]
  simp [inRange, h.exists_.1, h.exists_.2]

/-- Bytes of cluster SRAM that hold no uncorrectable word are read. -/
theorem State.withBytes_read {s : State} {eg a n : Nat} (inside : inCoreSram eg a n = true) (clean : s.badIn (cluAddr eg a) n = none)
    (c : Nat) (k : Core) (t : Nat) (go : List Byte → State) :
    s.withBytes eg c k t a n go = go (s.read (cluAddr eg a) n) := by
  unfold State.withBytes
  rw [inside, clean]
  rfl

/-! ## The end of an instruction that writes one register -/

theorem Core.rx_wx (k : Core) {rd : Nat} (some_ : rd ≠ 0) (v : BitVec 64) : (k.wx rd v).rx rd = v := by
  unfold Core.wx Core.rx
  rw [if_neg some_, if_neg some_]
  exact Sparse.rd_wr_same ..

/-- The core that an instruction leaves which writes `v` to a register. -/
theorem State.coreOf_commit_outX (s r : State) (eg c : Nat) (k l : Core) (t len rd : Nat) (v : BitVec 64) (ival lat : Nat) :
    ∃ resv, (s.commit eg c k t (outX r l len rd v ival lat)).coreOf eg c =
      { (l.wx rd v).step len with resv := resv }.retire t ⟨r, (l.wx rd v).step len, ival, rd, 1, lat⟩ :=
  ⟨_, State.coreOf_setCore ..⟩

theorem State.rx_commit_outX (s r : State) (eg c : Nat) (k l : Core) (t len : Nat) {rd : Nat} (some_ : rd ≠ 0) (v : BitVec 64)
    (ival lat : Nat) : ((s.commit eg c k t (outX r l len rd v ival lat)).coreOf eg c).rx rd = v := by
  obtain ⟨resv, core⟩ := s.coreOf_commit_outX r eg c k l t len rd v ival lat
  rw [core]
  exact l.rx_wx some_ v

theorem Core.tickets_wx (k : Core) (rd : Nat) (v : BitVec 64) : (k.wx rd v).tickets = k.tickets ∧ (k.wx rd v).next = k.next := by
  unfold Core.wx
  split <;> exact ⟨rfl, rfl⟩

theorem State.tickets_commit_outX (s r : State) (eg c : Nat) (k l : Core) (t len rd : Nat) (v : BitVec 64) (ival lat : Nat) :
    ((s.commit eg c k t (outX r l len rd v ival lat)).coreOf eg c).tickets = l.tickets ∧
      ((s.commit eg c k t (outX r l len rd v ival lat)).coreOf eg c).next = l.next := by
  obtain ⟨resv, core⟩ := s.coreOf_commit_outX r eg c k l t len rd v ival lat
  rw [core]
  exact l.tickets_wx rd v

/-! ## Claims (R225) -/

/-- A claim changes NEXT of its object alone. -/
theorem State.claim_frame (s : State) (o gen n : Nat) :
    (s.claim o gen n).2.mem = s.mem ∧ ∀ m i, ¬ (m = .syncObj ∧ i = o) → (s.claim o gen n).2.reg m i = s.reg m i := by
  unfold State.claim
  dsimp only
  split
  · exact ⟨rfl, fun _ _ _ => rfl⟩
  · split
    · exact ⟨rfl, fun _ _ _ => rfl⟩
    · exact ⟨rfl, fun _ _ other => State.reg_setReg_ne s _ other⟩

/-! ## Tickets (R220) -/

/-- A core that takes its next ticket, as it stood, for a command. -/
def Core.takeTicket (k : Core) (tk : Ticket) : Core :=
  { k with tickets := k.tickets.set k.next { tk with busy := true, done := none }, next := (k.next + 1) % 8 }

/-- A post whose ticket is free puts the command at the back of the core's stream and ends as an instruction that takes the ticket. -/
theorem State.postCmd_free (s : State) {k : Core} {tk : Ticket} (next : k.tickets[k.next]? = some tk) (free : tk.busy = false)
    (eg c w len t : Nat) (b : List Byte) (ival : Nat) :
    ∃ (d : Decoded) (r : State), s.postCmd eg c k w len t b ival =
        r.commit eg c k t (outX r (k.takeTicket tk) len (rvRd w) (BitVec.ofNat 64 k.next) ival 1) ∧
      r.posts eg c = s.posts eg c ++ [d] ∧ d.bytes = b ∧ d.ticket = k.next ∧ d.job = s.coreJob eg c := by
  unfold State.postCmd
  rw [next]
  dsimp only
  rw [if_neg (by simp [free])]
  exact ⟨_, _, rfl, Sparse.rd_wr_same (d := fun _ => []) (eg * 16 + c) _ s.cp.posts, rfl, rfl, rfl⟩

theorem Core.tickets_ticketBack (k : Core) (n : Nat) (st : Byte) (t : Nat) : (k.ticketBack n st t).tickets = k.tickets := by
  unfold Core.ticketBack
  split
  · split
    · exact (k.tickets_wx _ _).1
    · rfl
  · split <;> rfl
  · rfl

end Sys2Proof.Machine
end

