-- ==== Sys2Proof/Proofs/CoreInstructions.lean ====
section
/-!
PROOFS. The instructions of Basil cores (R210 to R228).
-/

set_option Elab.async false

open Sys2Proof Sys2Proof.Machine

/-- Settles O32: the rows are the shared form; what posts takes its bytes from cluster SRAM (log entry 50). -/
theorem coresRunAndPost : Obligations.CoresRunAndPost := by
  unfold Obligations.CoresRunAndPost
  intro s eg c w len u k r
  refine ⟨fun h => ?base, ?post, ?dma⟩
  case base =>
    have calm : s.interrupted (s.coreOf eg c) eg c = false := by
      simp [State.interrupted, show ¬ 128 ≤ eg by have := h.exists_.1; omega]
    refine Eq.trans (inRange_of (by simp [h.exists_.1, h.exists_.2]) (fun _ => .next _)) (congrArg Host.Outcome.next ?_)
    rw [calm, Bool.and_false, if_neg Bool.false_ne_true]
    exact h.runCore (by simpa using Or.inr h.kind) _
  case post =>
    intro h n a length inside clean
    have runs := h.runs (i := .tlPost eg c) (go := State.tlPost eg c) rfl
    have valid : (!([32, 64, 80, 96, 128].contains n)) = false := by
      rw [List.contains_iff_mem.2 length]
      rfl
    have posts : State.tlPost eg c r k w len u = r.postCmd eg c k w len u (r.read (cluAddr eg a) n) (1 + ceilDiv n 64) := by
      unfold State.tlPost
      dsimp only
      rw [if_neg (fun e => Bool.false_ne_true (valid.symm.trans e)), State.withBytes_read inside clean]
    rwa [posts] at runs
  case dma =>
    intro h a inside clean
    have runs := h.runs (i := .tlDma eg c) (go := State.tlDma eg c) rfl
    rwa [State.tlDma, State.withBytes_read inside clean] at runs

/-- Settles O34: each row is the shared form, and the instruction takes the branch that its condition names (the intervals are log entry
50). -/
theorem coresWaitAndEnd : Obligations.CoresWaitAndEnd := by
  unfold Obligations.CoresWaitAndEnd
  intro s eg c w len u k r n o back
  refine ⟨fun h => ⟨fun busy => ?wait, fun free => ?waited⟩, fun h => ⟨fun busy => ?test, fun free => ?tested⟩, fun h _ => ?end_, ?op, ?so,
    ?timeout, ?load, fun h _ _ => ?decode⟩
  case wait =>
    have runs := h.runs (i := .tlWait eg c) (go := State.tlWait eg c) rfl
    rwa [State.tlWait, if_pos busy] at runs
  case waited =>
    have runs := h.runs (i := .tlWait eg c) (go := State.tlWait eg c) rfl
    rwa [State.tlWait, if_neg (by simp [free, n])] at runs
  case test =>
    have runs := h.runs (i := .tlTest eg c) (go := State.tlTest eg c) rfl
    rwa [State.tlTest, if_pos busy] at runs
  case tested =>
    have runs := h.runs (i := .tlTest eg c) (go := State.tlTest eg c) rfl
    rwa [State.tlTest, if_neg (by simp [free, n])] at runs
  case end_ => exact h.runs (i := .tlEnd eg c) (go := State.tlEnd eg c) rfl
  case op =>
    intro h op acts admits x
    have runs := h.runs (i := .soOp eg c) (go := State.coreSoOp eg c) rfl
    rwa [State.coreSoOp, if_neg (by simp [acts, admits, r, o, op])] at runs
  case so =>
    intro h acts plain
    have runs := h.runs (i := .soWait eg c) (go := State.coreSoWait eg c) rfl
    rw [State.coreSoWait, if_neg (by simp [acts, plain, r, o])] at runs
    refine ⟨fun sat => ?_, fun waits => ?_⟩
    · rwa [if_pos sat] at runs
    · rwa [if_neg (fun sat => Bool.false_ne_true (waits.symm.trans sat))] at runs
  case timeout =>
    intro q cond comp rd start limit heg hc waits limited
    let k1 := s.coreOf eg c
    let k2 : Core := { k1.wx rd 1#64 with wait := .none, at_ := max k1.at_ (start + limit) }
    have timeout : s.soTimeout eg c = (s.until (start + limit)).setCore eg c k2 := by
      unfold State.soTimeout
      dsimp only
      rw [waits]
      exact if_neg limited
    have core : ((s.until (start + limit)).setCore eg c k2).coreOf eg c = k2 := State.coreOf_setCore ..
    have runs : Runs (.soWaitTimeout eg c) s ((s.until (start + limit)).setCore eg c k2) :=
      timeout ▸ inRange_of (by simp [heg, hc]) (fun _ => .next (s.soTimeout eg c))
    refine ⟨_, runs, by rw [core], rfl, fun some_ => ?_, .of_mem rfl⟩
    rw [core]
    exact k1.rx_wx some_ 1#64
  case load =>
    intro h inside clean fb b verifies
    have runs := h.runs (i := .tlBld eg c) (go := State.tlBld eg c) rfl
    rwa [State.tlBld, State.withBytes_read inside clean, if_pos verifies] at runs
  case decode => exact h.runs (i := .tlBdec eg c) (go := State.tlBdec eg c) rfl

/-- Settles O33: a post that finds its ticket free commits a core that holds the ticket; a ticket's return sets it free. -/
theorem postedCommandsTakeTickets : Obligations.PostedCommandsTakeTickets := by
  unfold Obligations.PostedCommandsTakeTickets
  refine ⟨?post, ?back⟩
  case post =>
    intro s eg c w len u ival k b tk heg hc next t
    refine ⟨fun free => ?_, fun busy => ?_⟩
    · obtain ⟨d, r, posted, posts, bytes, ticket, job⟩ := s.postCmd_free next free eg c w len u b ival
      obtain ⟨tickets, turn⟩ := r.tickets_commit_outX r eg c k (k.takeTicket tk) u len (rvRd w) (BitVec.ofNat 64 k.next) ival 1
      have held : k.next < k.tickets.length := (List.getElem?_eq_some_iff.1 next).1
      rw [← posted] at tickets turn
      refine ⟨⟨d, ?_, bytes, ticket, job⟩, ?_, turn, fun some_ => ?_⟩
      · rw [← posts, show t = _ from posted]
        rfl
      · rw [tickets]
        exact List.getElem?_set_self held
      · rw [show t = _ from posted]
        exact State.rx_commit_outX r r eg c k _ u len some_ _ ival 1
    · have held : t = s.setCore eg c { k with wait := .post } := by
        show s.postCmd eg c k w len u b ival = _
        unfold State.postCmd
        rw [next]
        exact if_pos busy
      rw [held]
      exact ⟨rfl, congrArg Core.wait (State.coreOf_setCore ..)⟩
  case back =>
    intro s eg c n tk st heg hc hn ticket done
    let k := s.coreOf eg c
    let k1 : Core := { k with tickets := k.tickets.set n ⟨false, none, st⟩ }
    have returns : s.returnTicket eg c n = s.setCore eg c (k1.ticketBack n st s.cycle) := by
      unfold State.returnTicket
      dsimp only
      rw [ticket]
      dsimp only
      rw [done]
    have runs : Runs (.ticketCompletion eg c n) s (s.setCore eg c (k1.ticketBack n st s.cycle)) :=
      returns ▸ inRange_of (by simp [heg, hc, hn]) (fun _ => .next (s.returnTicket eg c n))
    have core : (s.setCore eg c (k1.ticketBack n st s.cycle)).coreOf eg c = k1.ticketBack n st s.cycle := State.coreOf_setCore ..
    refine ⟨_, runs, ?_, .of_mem rfl, fun rd waits => ?_⟩
    · rw [core, Core.tickets_ticketBack]
      exact List.getElem?_set_self (List.getElem?_eq_some_iff.1 ticket).1
    · have woken : k1.ticketBack n st s.cycle = { k1.wx rd (st.setWidth 64) with wait := .none, at_ := max k1.at_ (s.cycle + 1) } := by
        unfold Core.ticketBack
        rw [show k1.wait = .ticket n rd from waits]
        exact if_pos rfl
      rw [core, woken]
      exact ⟨rfl, fun some_ => k1.rx_wx some_ _⟩

/-- Settles O35: the claim is on an object as it stood, and its end writes the result to the core alone. -/
theorem claimsGrantDisjointIndices : Obligations.ClaimsGrantDisjointIndices := by
  unfold Obligations.ClaimsGrantDisjointIndices
  intro s eg c w len u k h o n gen next acts counter some_
  let r := s.coreStart eg c u k
  let x := r.claim o gen n
  let t := r.commit eg c k u (outX x.2 k len (rvRd w) x.1 1 (objTime (eg / 32) o))
  have regs : r.regs = s.regs := rfl
  have runs : Runs (.soClaim eg c) s t := by
    have runs := h.runs (i := .soClaim eg c) (go := State.coreClaim eg c) rfl
    have allowed : ¬ ((n = 0 || !r.objCounter o || !r.actsFor (.core eg c) (r.objPart o)) = true) := by
      have counter' : r.objCounter o = true := counter
      have acts' : r.actsFor (.core eg c) (r.objPart o) = true := acts
      simp [some_, counter', acts']
    rwa [State.coreClaim, if_neg allowed] at runs
  have gen_eq : r.fld F.syncCfg_GEN o = s.fld F.syncCfg_GEN o := State.fld_of_regs regs _ _
  have returned (some_ : rvRd w ≠ 0) : (t.coreOf eg c).rx (rvRd w) = x.1 := State.rx_commit_outX r x.2 eg c k k u len some_ x.1 1 _
  have regs_t (m : RegName) (i : Nat) : t.reg m i = x.2.reg m i := rfl
  refine ⟨t, runs, .of_mem ?mem, fun m i other => ?frame, fun stale => ?stale, fun current ended => ?ended, fun current left => ?granted⟩
  case mem => exact (r.claim_frame o gen n).1
  case frame => exact (regs_t m i).trans ((r.claim_frame o gen n).2 m i other)
  case stale =>
    have claimed : x = (0x8000000000000011#64, r) := if_pos (gen_eq.symm ▸ stale)
    exact ⟨by rw [regs_t, claimed]; rfl, fun some_ => (returned some_).trans (congrArg Prod.fst claimed)⟩
  case ended =>
    have claimed : x = (0x8000000000000000#64, r) := (if_neg (not_not.2 (gen_eq.trans current))).trans (if_pos ended)
    exact ⟨by rw [regs_t, claimed]; rfl, fun some_ => (returned some_).trans (congrArg Prod.fst claimed)⟩
  case granted =>
    intro m
    have claimed : x = (BitVec.ofNat 64 (next + m * 2 ^ 32), r.setReg .syncObj o (BitVec.ofNat 32 (next + m))) :=
      (if_neg (not_not.2 (gen_eq.trans current))).trans (if_neg (not_le.2 left))
    have limit : s.objLimit o < 2 ^ 32 := (Sparse.rd (fun _ => 0#32) o s.cp.objLimit).isLt
    have few : n < 65536 := Nat.mod_lt _ (by decide)
    refine ⟨?_, fun some_ => ?_⟩
    · rw [regs_t, claimed, State.reg_setReg_same, BitVec.toNat_ofNat]
      exact Nat.mod_eq_of_lt (by omega)
    · rw [returned some_, claimed, BitVec.toNat_ofNat]
      exact Nat.mod_eq_of_lt (by omega)

end

