-- ==== Sys2Proof/Proofs/Wheels.lean ====
section
/-!
PROOFS. Schedule wheels and job registers (R440, R441, R443, R445, R453).
-/

set_option Elab.async false

namespace Sys2Proof.Machine

open Sys2Proof

/-! ## Overruns hold a wheel -/

/-- What holding the wheel of an engine group through overruns leaves as it is. -/
structure OnlyHeld (eg : Nat) (s t : State) : Prop where
  units : t = { s with wheels := t.wheels }
  others : ∀ g, g ≠ eg → t.wheel g = s.wheel g
  start : (t.wheel eg).start = (s.wheel eg).start
  running : (t.wheel eg).running = (s.wheel eg).running

theorem OnlyHeld.refl (eg : Nat) (s : State) : OnlyHeld eg s s := ⟨rfl, fun _ _ => rfl, rfl, rfl⟩

theorem OnlyHeld.trans {eg : Nat} {r s t : State} (h : OnlyHeld eg r s) (g : OnlyHeld eg s t) : OnlyHeld eg r t := by
  refine ⟨?_, fun k other => (g.others k other).trans (h.others k other), g.start.trans h.start, g.running.trans h.running⟩
  rw [g.units, h.units]

theorem State.holdOverrun_held (s : State) (eg : Nat) (d : Decoded) : OnlyHeld eg s (s.holdOverrun eg d) := by
  unfold State.holdOverrun State.holdWheel
  split
  · dsimp only
    split
    · exact ⟨rfl, fun g other => State.wheel_setWheel_ne _ _ other, by rw [State.wheel_setWheel], by rw [State.wheel_setWheel]⟩
    · exact .refl ..
  · exact .refl ..

theorem State.holdOverruns_held (s : State) (eg : Nat) : OnlyHeld eg s (s.holdOverruns eg) := by
  unfold State.holdOverruns
  generalize List.filter _ (s.issuersAt eg) = held
  induction held generalizing s with
  | nil => exact .refl ..
  | cons x held ih => exact (s.holdOverrun_held eg x.2).trans (ih _)

theorem State.entryHeld_held (s : State) (eg : Nat) : OnlyHeld eg (s.until (s.entryEnd eg)) (s.entryHeld eg) :=
  State.holdOverruns_held ..

/-! ## Overruns are counted -/

/-- What counting overruns leaves as it is. -/
structure OnlyCounted (s t : State) : Prop where
  wheels : t.wheels = s.wheels
  mem : t.mem = s.mem
  cycle : t.cycle = s.cycle
  entry : ∀ i, t.fld F.cpWstat_ENTRY i = s.fld F.cpWstat_ENTRY i

theorem OnlyCounted.refl (s : State) : OnlyCounted s s := ⟨rfl, rfl, rfl, fun _ => rfl⟩

theorem OnlyCounted.trans {r s t : State} (h : OnlyCounted r s) (g : OnlyCounted s t) : OnlyCounted r t :=
  ⟨g.wheels.trans h.wheels, g.mem.trans h.mem, g.cycle.trans h.cycle, fun i => (g.entry i).trans (h.entry i)⟩

theorem OnlyCounted.setReg (s : State) {n : RegName} (other : n ≠ .cpWstat) (i : Nat) (v : Word) : OnlyCounted s (s.setReg n i v) :=
  ⟨rfl, rfl, rfl, fun _ => State.fld_of_reg (State.reg_setReg_ne s v fun e => other e.1.symm)⟩

theorem State.setDecoded_counted (s : State) (i : Issuer) (d : Decoded) : OnlyCounted s (s.setDecoded i d) := by
  cases i with
  | queue q => exact ⟨rfl, rfl, rfl, fun i => State.fld_setWindow _ _ _ (by decide) i⟩
  | core eg c => exact ⟨rfl, rfl, rfl, fun _ => rfl⟩

theorem State.noteWait_counted (s : State) (i : Issuer) (d : Decoded) : OnlyCounted s (s.noteWait i d) := by
  unfold State.noteWait
  split
  · exact .refl s
  · exact (OnlyCounted.setReg s (by decide) _ _).trans (State.setDecoded_counted ..)

theorem State.noteOverrun_counted (s : State) (i : Issuer) (d : Decoded) : OnlyCounted s (s.noteOverrun i d) := by
  unfold State.noteOverrun
  split
  · exact .refl s
  · have overruns (s : State) (j : Nat) : OnlyCounted s (s.count F.cpWstat_OVERRUNS j 1) :=
      ⟨rfl, rfl, rfl, fun k => State.fld_setFld_other s F.cpWstat_OVERRUNS F.cpWstat_ENTRY j k _ (by decide)⟩
    exact ((((s.noteWait_counted i d).trans (State.setDecoded_counted ..)).trans (overruns _ _)).trans
      (.setReg _ (by decide) _ _)).trans (.setReg _ (by decide) _ _)

theorem State.entryOverruns_counted (s : State) (eg : Nat) : OnlyCounted s (s.entryOverruns eg) := by
  unfold State.entryOverruns
  generalize s.issuersAt eg = waiting
  induction waiting generalizing s with
  | nil => exact .refl s
  | cons x waiting ih =>
    refine OnlyCounted.trans ?_ (ih _)
    beta_reduce
    split
    · exact s.noteOverrun_counted x.1 x.2
    · exact .refl s

/-! ## The next entry -/

/-- A wheel that has just entered an entry in a cycle, the other wheels as before. -/
structure Entered (eg cyc e : Nat) (s t : State) : Prop where
  running : (t.wheel eg).running = true
  start : (t.wheel eg).start = cyc
  hold : (t.wheel eg).hold = 0
  entry : t.fld F.cpWstat_ENTRY eg = e
  others : ∀ g, g ≠ eg → t.wheel g = s.wheel g
  mem : t.mem = s.mem
  cycle : t.cycle = s.cycle

theorem Entered.counted {eg cyc e : Nat} {s t u : State} (h : Entered eg cyc e s t) (g : OnlyCounted t u) : Entered eg cyc e s u := by
  have same (k : Nat) : u.wheel k = t.wheel k := by rw [State.wheel, g.wheels, ← State.wheel]
  exact ⟨by rw [same, h.running], by rw [same, h.start], by rw [same, h.hold], (g.entry eg).trans h.entry,
    fun k other => (same k).trans (h.others k other), g.mem.trans h.mem, g.cycle.trans h.cycle⟩

theorem State.takeWheelWrites_units (s : State) (eg : Nat) :
    s.takeWheelWrites eg = { s with regs := (s.takeWheelWrites eg).regs, wheels := (s.takeWheelWrites eg).wheels } ∧
      ∀ g, g ≠ eg → (s.takeWheelWrites eg).wheel g = s.wheel g := by
  have entries (l : List (Nat × Word)) (u : State) :
      l.foldl (fun t iv => t.setReg .cpWheel (64 * eg + iv.1) iv.2) u
        = { u with regs := (l.foldl (fun t iv => t.setReg .cpWheel (64 * eg + iv.1) iv.2) u).regs } := by
    induction l generalizing u with
    | nil => rfl
    | cons x l ih => rw [List.foldl_cons, ih]; rfl
  unfold State.takeWheelWrites
  lift_lets
  intro w s1 s2
  have first : s1 = { s with regs := s1.regs } := entries ..
  have second : s2 = { s with regs := s2.regs } := by
    simp only [s2]
    cases w.wlen with
    | none => exact first
    | some v => exact congrArg (fun u : State => u.setReg .cpWlen eg v) first
  rw [second]
  exact ⟨rfl, fun g other => State.wheel_setWheel_ne _ _ other⟩

theorem State.startWheel_entered (s : State) (eg t : Nat) : Entered eg t 0 s (s.startWheel eg t) := by
  obtain ⟨units, others⟩ := s.takeWheelWrites_units eg
  have mem : (s.takeWheelWrites eg).mem = s.mem := by rw [units]
  have cycle : (s.takeWheelWrites eg).cycle = s.cycle := by rw [units]
  unfold State.startWheel
  exact ⟨by rw [State.wheel_setWheel], by rw [State.wheel_setWheel], by rw [State.wheel_setWheel],
    State.fld_setFld_same _ F.cpWstat_ENTRY eg 0 rfl,
    fun g other => (State.wheel_setWheel_ne _ _ other).trans (others g other), mem, cycle⟩

/-- The entry after the current one, or entry 0 after the last. -/
def State.entryAfter (s : State) (eg : Nat) : Nat :=
  if s.fld F.cpWstat_ENTRY eg + 1 < s.wheelLen eg then s.fld F.cpWstat_ENTRY eg + 1 else 0

theorem State.nextEntry_entered {s : State} {eg : Nat} (running : (s.wheel eg).running = true) :
    Entered eg (s.entryEnd eg) (s.entryAfter eg) (s.until (s.entryEnd eg)) (s.nextEntry eg) := by
  unfold State.nextEntry State.entryAfter
  refine Entered.counted ?_ (State.entryOverruns_counted ..)
  split
  next within =>
    have fits : s.fld F.cpWstat_ENTRY eg + 1 < 2 ^ F.cpWstat_ENTRY.width := by
      have most : s.wheelLen eg ≤ 128 := by rw [State.wheelLen]; omega
      exact Nat.lt_of_lt_of_le within (Nat.le_trans most (by decide))
    exact ⟨by rw [State.wheel_setWheel]; exact running, by rw [State.wheel_setWheel], by rw [State.wheel_setWheel],
      (State.fld_setFld_same _ F.cpWstat_ENTRY eg _ rfl).trans (Nat.mod_eq_of_lt fits),
      fun g other => State.wheel_setWheel_ne _ _ other, rfl, rfl⟩
  next => exact State.startWheel_entered ..

/-! ## Writes of wheels and jobs -/

theorem State.writeWheel_taken {s : State} {isLen : Bool} {n : Nat} {v : Word} (good : s.wheelWriteBad isLen n v = false) :
    let t := s.writeWheel isLen n v
    let eg := if isLen then n else n / 64
    t = { s with wheels := t.wheels } ∧ (∀ g, g ≠ eg → t.wheel g = s.wheel g) ∧
      t.wheel eg = if isLen then { s.wheel eg with wlen := some (v &&& 0xFF#32) }
        else { s.wheel eg with entries := (s.wheel eg).entries ++ [(n % 64, v)] } := by
  unfold State.writeWheel
  rw [if_neg (by simp [good])]
  cases isLen with
  | true => exact ⟨rfl, fun g other => State.wheel_setWheel_ne _ _ other, State.wheel_setWheel ..⟩
  | false => exact ⟨rfl, fun g other => State.wheel_setWheel_ne _ _ other, State.wheel_setWheel ..⟩

theorem State.settleJob_only (s : State) (p j : Nat) :
    OnlyRegs (fun m i => m = .cpJstat ∧ i = 8 * p + j) s (s.settleJob p j) := by
  unfold State.settleJob
  split
  · exact .refl _ s
  · exact .setReg ..

end Sys2Proof.Machine

open Sys2Proof Sys2Proof.Machine

/-- Settles O36: an entry that overruns hold stays; else the wheel enters the next one, whose overruns are counted without touching a
wheel; writes are taken or ignored by their own checks (log entry 47 reads which halves decide). -/
theorem wheelsAndJobsTakeTheirWrites : Obligations.WheelsAndJobsTakeTheirWrites := by
  unfold Obligations.WheelsAndJobsTakeTheirWrites
  refine ⟨?entries, ?wheels, ?jobs⟩
  case entries =>
    intro s eg hEg running e
    have held := s.entryHeld_held eg
    have runs : Runs (.wheelEntryStart eg) s _ := inRange_of (decide_eq_true hEg) (fun _ => .next _)
    rw [if_neg (by simp [running])] at runs
    by_cases stays : s.entryEnd eg < (s.entryHeld eg).entryEnd eg
    · rw [if_pos stays] at runs
      refine ⟨s.entryHeld eg, runs, by rw [held.units]; rfl, held.running.trans running, fun ends => absurd stays (Nat.not_lt.2 ends),
        fun _ => ⟨held.start, rfl, ?_⟩, held.others, .of_mem ?_⟩
      · rw [held.units]; rfl
      · rw [held.units]; rfl
    · rw [if_neg stays] at runs
      have entered := State.nextEntry_entered (s := s) running
      refine ⟨s.nextEntry eg, runs, entered.cycle, entered.running, fun _ => ⟨entered.start, entered.hold, entered.entry⟩,
        fun held => absurd held stays, entered.others, .of_mem entered.mem⟩
  case wheels =>
    intro s who isLen n v hn permits eg
    have runs : Runs (.cpWheelWrite who isLen n v) s (s.writeWheel isLen n v) := runs_permitted (decide_eq_true hn) permits
    refine ⟨fun good => ⟨_, runs, State.writeWheel_taken good⟩, fun bad => ⟨_, runs, ?_⟩⟩
    rw [State.writeWheel, if_pos bad]
    exact ⟨State.writeIgnored_onlyEvents .., State.writeIgnored_evSeq ..⟩
  case jobs =>
    intro s who n v hn permits bad
    have runs : Runs (.cpJobWrite who n v) s (s.writeJob n v) := runs_permitted (decide_eq_true hn) permits
    have decides : (4 < s.slotSum (n / 8) (n % 8) v ||
        (s.jobState (n / 8) (n % 8) == 3 && decide (bits v.toNat 1 3 < s.savedHeld (n / 8) (n % 8)))) = true ↔ bad := by
      simp [bad]
    rw [State.writeJob] at runs
    refine ⟨fun good => ⟨_, by rwa [if_neg (mt decides.1 good)] at runs, ?_, ?_⟩, fun isBad => ⟨_, by rwa [if_pos (decides.2 isBad)] at runs, ?_, ?_⟩⟩
    · exact ((State.settleJob_only ..).2 _ _ (by simp)).trans (State.reg_setReg_same ..)
    · exact (OnlyRegs.of_setReg ⟨.inl rfl, rfl⟩ _ _).trans
        ((State.settleJob_only ..).mono fun m i e => ⟨.inr e.1, e.2.trans (Nat.div_add_mod n 8)⟩)
    · exact State.writeIgnored_onlyEvents ..
    · exact State.writeIgnored_evSeq ..

end

