-- ==== Sys2Proof/Proofs/SavingJobs.lean ====
section
/-!
PROOFS. ACTIONs of CP_JCTL: SAVE, RESUME and the clear (R450 to R453, R459).
-/

set_option Elab.async false

namespace Sys2Proof.Machine

open Sys2Proof

/-! ## SAVE -/

theorem State.jobState_setFld (s : State) (p j : Nat) {v : Nat} (small : v < 4) :
    (s.setFld F.cpJstat_STATE (8 * p + j) v).jobState p j = v := by
  have field : (s.setFld F.cpJstat_STATE (8 * p + j) v).fld F.cpJstat_STATE (8 * p + j) = v :=
    (State.fld_setFld_same s F.cpJstat_STATE _ v rfl).trans (Nat.mod_eq_of_lt (Nat.lt_trans small (by decide)))
  unfold State.jobState
  rw [field]
  exact if_neg fun e => by omega

/-- A tensor-engine command of a job that its save has stopped. -/
def TeCmd.stopFor (p j : Nat) (t : TeCmd) : TeCmd := if t.cmd.ofJob p j then { t with stopped := true } else t

/-- The tensor engines with a job's commands stopped. -/
def State.stopTe (s : State) (p j : Nat) : State :=
  { s with te := s.te.map fun kv => (kv.1, { kv.2 with flight := kv.2.flight.map (TeCmd.stopFor p j) }) }

theorem State.teOf_stopTe (s : State) (p j eg : Nat) :
    (s.stopTe p j).teOf eg = { s.teOf eg with flight := (s.teOf eg).flight.map (TeCmd.stopFor p j) } :=
  Sparse.rd_map (fun t : Te => { t with flight := t.flight.map (TeCmd.stopFor p j) }) (fun _ => Te.reset) (fun _ => rfl) eg s.te

theorem State.stopped_of_stopTe {s : State} {p j eg : Nat} {c : TeCmd} (inFlight : c ∈ ((s.stopTe p j).teOf eg).flight)
    (mine : c.cmd.ofJob p j = true) : c.stopped = true := by
  rw [State.teOf_stopTe] at inFlight
  obtain ⟨t, -, rfl⟩ := List.mem_map.1 inFlight
  unfold TeCmd.stopFor at mine ⊢
  split at mine
  next own => rw [if_pos own]
  next other => exact absurd mine other

theorem State.saveJob_idle {s : State} {p j : Nat} (state : s.jobState p j < 2) (idle : (s.egsOf p).any (s.jobOn p j) = false) :
    s.saveJob p j = s.setFld F.cpJstat_STATE (8 * p + j) 3 := by
  unfold State.saveJob
  rw [if_neg (Nat.not_le.2 state), if_pos (by rw [idle]; rfl)]

theorem State.saveJob_busy {s : State} {p j : Nat} (state : s.jobState p j < 2) (busy : (s.egsOf p).any (s.jobOn p j) = true)
    (placed : s.saveRefused p j = none) : s.saveJob p j = (s.stopTe p j).setFld F.cpJstat_STATE (8 * p + j) 2 := by
  unfold State.saveJob
  rw [if_neg (Nat.not_le.2 state), if_neg (by rw [busy]; decide), if_neg (by rw [placed]; decide)]
  rfl

/-! ## SAVE_BEGIN -/

theorem State.unitsBusy_until {s : State} {p j eg : Nat} (free : s.unitsBusy p j eg = false) (t : Nat) :
    (s.until t).unitsBusy p j eg = false := by
  have awaited : (s.until t).awaited p j eg = s.awaited p j eg := rfl
  unfold State.unitsBusy at free ⊢
  rw [List.any_eq_false] at free ⊢
  rw [awaited]
  intro c open_
  refine free c ?_
  simp only [State.cmdsInFlight, State.until, List.mem_append, List.mem_flatMap, List.mem_map, List.mem_filter, decide_eq_true_eq]
    at open_ ⊢
  rcases open_ with waiting | ⟨kv, entry, k, ⟨mem, later⟩, e⟩
  · exact .inl waiting
  · exact .inr ⟨kv, entry, k, ⟨mem, Nat.lt_of_le_of_lt (Nat.le_max_left ..) (of_decide_eq_true later)⟩, e⟩

theorem State.untilUnits_until (s : State) (p j eg : Nat) : ∃ n, s.untilUnits p j eg = s.until n := by
  unfold State.untilUnits
  split
  · exact ⟨0, by rw [State.until, Nat.max_zero]⟩
  · exact ⟨_, rfl⟩

theorem State.egRank_lt {s : State} {p eg : Nat} (unit : eg < 128) (own : s.egPart eg = some p) : s.egRank p eg < (s.egsOf p).length := by
  have mem : eg ∈ s.egsOf p := List.mem_filter.2 ⟨List.mem_range.2 unit, by rw [own]; exact beq_self_eq_true _⟩
  refine List.length_filter_lt_length_iff_exists.2 ⟨eg, mem, ?_⟩
  simp

/-- A save area within the windows lies in T1 or a map store. -/
theorem State.saveArea_region {s : State} {p j eg : Nat} (unit : eg < 128) (own : s.egPart eg = some p)
    (placed : s.saveRefused p j = none) :
    region (s.saveArea p j (s.egRank p eg)) = some .t1 ∨ region (s.saveArea p j (s.egRank p eg)) = some .ms := by
  have rank := State.egRank_lt unit own
  have inside : inMsT1 (s.saveArea p j 0) ((s.egsOf p).length * 0x108000) = true := by
    by_contra outside
    unfold State.saveRefused at placed
    rw [if_neg (by omega), if_pos (by simpa using outside)] at placed
    cases placed
  have start : s.saveArea p j (s.egRank p eg) = s.saveArea p j 0 + s.egRank p eg * 0x108000 := by
    rw [State.saveArea, State.saveArea, Nat.zero_mul, Nat.add_zero]
  exact region_inMsT1 inside (by omega) (by omega)

theorem State.settleSave_te (s : State) (p j : Nat) : (s.settleSave p j).te = s.te := by
  unfold State.settleSave
  split <;> rfl

theorem State.settleSave_mem (s : State) (p j : Nat) : (s.settleSave p j).mem = s.mem := by
  unfold State.settleSave
  split <;> rfl

theorem State.store_te_of_region (s : State) {a : Nat} (bs : List Byte) (r : region a = some .t1 ∨ region a = some .ms) :
    (s.store a bs).te = s.te := by
  have below : a < svcSram 0 := lt_svcSram_of_region (by rcases r with r | r <;> rw [r] <;> rfl)
  have other (x : Region) (tx : x ≠ .t1) (mx : x ≠ .ms) : region a ≠ some x := by
    rintro e
    rcases r with r | r <;> rw [r] at e <;> cases e <;> contradiction
  exact (s.store_plain a bs (fun g => other _ (by simp) (by simp)) (fun g => other _ (by simp) (by simp)) below).1

/-- A tensor engine without a job's commands that have steps or drains to come. -/
def Te.without (te : Te) (p j : Nat) : Te := { te with flight := te.flight.filter fun t => t.ended || !t.cmd.ofJob p j }

theorem State.teOf_of_te {s t : State} (h : t.te = s.te) (eg : Nat) : t.teOf eg = s.teOf eg := by
  rw [State.teOf, h, ← State.teOf]

theorem State.te_touch_store (s : State) {a : Nat} (bs : List Byte) (r : region a = some .t1 ∨ region a = some .ms)
    (uid p eg n : Nat) (k : ReqKind) : ((s.store a bs).touch uid p eg a n k).te = s.te := by
  rw [State.touch_parts]
  exact s.store_te_of_region bs r

theorem State.te_setSaved (s : State) (p j : Nat) (l : List SavedJob) : (s.setSaved p j l).te = s.te := rfl

theorem State.te_setTe (s : State) (eg : Nat) (t : Te) : (s.setTe eg t).te = Sparse.wr (fun _ => Te.reset) eg t s.te := rfl

theorem State.te_until_draw (s : State) (n : Nat) : (s.until n).draw.te = s.te := rfl

theorem State.saveOn_te {s : State} {p j eg : Nat}
    (r : region (s.saveArea p j (s.egRank p eg)) = some .t1 ∨ region (s.saveArea p j (s.egRank p eg)) = some .ms) :
    (s.saveOn p j eg).te = (s.setTe eg ((s.teOf eg).without p j)).te := by
  have stored (n : Nat) (bs : List Byte) (len : Nat) := ((s.until n).draw.te_touch_store bs r 0 p eg len .write).trans (s.te_until_draw n)
  unfold State.saveOn
  dsimp only
  rw [State.te_setSaved, State.te_setTe, State.teOf_of_te (stored ..), stored]
  rfl

theorem State.saveOn_empties {s : State} {p j eg : Nat}
    (r : region (s.saveArea p j (s.egRank p eg)) = some .t1 ∨ region (s.saveArea p j (s.egRank p eg)) = some .ms) :
    (s.saveOn p j eg).teFlight p j eg = [] ∧ ∀ g, g ≠ eg → (s.saveOn p j eg).teOf g = s.teOf g := by
  have same (g : Nat) := State.teOf_of_te (State.saveOn_te r) g
  refine ⟨?_, fun g other => ?_⟩
  · unfold State.teFlight
    rw [same, State.teOf_setTe, Te.without, List.filter_filter, List.filter_eq_nil_iff]
    intro t _
    cases t.ended <;> cases t.cmd.ofJob p j <;> decide
  · rw [same, State.teOf_setTe_ne _ _ other]

/-! ## RESUME -/

/-- The state in which the engine groups of a resumed job restore. -/
def State.resuming (s : State) (p j : Nat) : State :=
  let u := (s.egsOf p).foldl (fun t eg => t.resumeOn p j eg) s
  let fin := (s.egsOf p).foldl (fun m eg => max m (s.resumeEnd p j eg)) s.cycle
  ((u.setSaved p j []).setFld F.cpJstat_STATE (8 * p + j) 4).setJob p j { u.job p j with resume := fin }

theorem State.resumeJob_saved {s : State} {p j : Nat} (saved : s.jobState p j = 3) :
    s.resumeJob p j = (s.resuming p j).settleJob p j := by
  unfold State.resumeJob State.resuming
  exact if_neg (not_not_intro saved)

theorem State.state_resuming (s : State) (p j : Nat) : (s.resuming p j).fld F.cpJstat_STATE (8 * p + j) = 4 := by
  unfold State.resuming
  lift_lets
  intro u fin
  exact State.fld_setFld_same (u.setSaved p j []) F.cpJstat_STATE (8 * p + j) 4 rfl

theorem State.savedOf_resuming (s : State) (p j : Nat) : (s.resuming p j).savedOf p j = [] := by
  unfold State.resuming
  lift_lets
  intro u fin
  exact Sparse.rd_wr_same (d := fun _ => []) (8 * p + j) [] u.saved

/-- A job that would be in RESUMING with its restore ended settles in RUNNING or IDLE. -/
theorem State.jobState_settleJob_restored {s : State} {p j : Nat} (state : s.fld F.cpJstat_STATE (8 * p + j) = 4) :
    (s.settleJob p j).jobState p j < 2 ∨
      ((s.settleJob p j).jobState p j = 4 ∧ (s.settleJob p j).cycle < ((s.settleJob p j).job p j).resume) := by
  have before : s.jobState p j = if (s.job p j).resume ≤ s.cycle then 1 else 4 := by
    unfold State.jobState
    simp only [state, true_and]
  unfold State.settleJob
  by_cases ended : (s.job p j).resume ≤ s.cycle
  · rw [if_pos ended] at before
    rw [if_neg (by omega)]
    dsimp only
    rw [State.jobState_setFld _ _ _ (by split <;> decide)]
    exact .inl (by split <;> decide)
  · rw [if_neg ended] at before
    rw [if_pos (by omega)]
    exact .inr ⟨before, Nat.not_le.1 ended⟩

/-! ## The clear -/

theorem State.clearJobStats_hist (s : State) (k n : Nat) :
    let t := (List.range n).foldl (fun t b => t.setReg .cpJhist (16 * k + b) 0#32) s
    OnlyRegs (fun m i => m = .cpJhist ∧ 16 * k ≤ i ∧ i < 16 * k + n) s t ∧
      ∀ i, 16 * k ≤ i → i < 16 * k + n → t.reg .cpJhist i = 0#32 := by
  induction n with
  | zero => exact ⟨.refl _ s, fun i lo hi => absurd hi (Nat.not_lt.2 lo)⟩
  | succ n ih =>
    rw [List.range_succ, List.foldl_append]
    obtain ⟨frame, zero⟩ := ih
    refine ⟨(frame.mono fun m i e => ⟨e.1, e.2.1, Nat.lt_succ_of_lt e.2.2⟩).trans (.of_setReg ⟨rfl, by omega, by omega⟩ _ _), ?_⟩
    intro i lo hi
    by_cases last : i = 16 * k + n
    · rw [last]
      exact State.reg_setReg_same ..
    · exact (State.reg_setReg_ne _ _ fun e => last e.2).trans (zero i lo (by omega))

theorem State.clearJobStats_spec (s : State) (p j : Nat) :
    let mine := fun (m : RegName) (i : Nat) => (m = .cpJhist ∧ i / 16 = 8 * p + j) ∨ ((m = .cpJdlcnt ∨ m = .cpJwait) ∧ i = 8 * p + j)
    OnlyRegs mine s (s.clearJobStats p j) ∧ ∀ m i, mine m i → (s.clearJobStats p j).reg m i = 0#32 := by
  intro mine
  obtain ⟨frame, zero⟩ := s.clearJobStats_hist (8 * p + j) 16
  obtain ⟨deadlines, waits, counts⟩ := cleared_setRegs
    ((List.range 16).foldl (fun t b => t.setReg .cpJhist (16 * (8 * p + j) + b) 0#32) s) (n := .cpJdlcnt) (m := .cpJwait) (by decide)
    (8 * p + j)
  refine ⟨(frame.mono fun m i e => .inl ⟨e.1, by omega⟩).trans (counts.mono fun m i e => .inr e), ?_⟩
  rintro m i (⟨rfl, bucket⟩ | ⟨rfl | rfl, rfl⟩)
  · exact (counts.2 .cpJhist i (by simp)).trans (zero i (by omega) (by omega))
  · exact deadlines
  · exact waits

end Sys2Proof.Machine

open Sys2Proof Sys2Proof.Machine

/-- Settles O37: SAVE and SAVE_BEGIN by what a job has in flight (decided before the save area, log entry 47), RESUME through the state
in which its engine groups restore, the clear register by register. -/
theorem jobsAreSavedAndResumed : Obligations.JobsAreSavedAndResumed := by
  unfold Obligations.JobsAreSavedAndResumed
  refine ⟨?save, ?begin, ?act⟩
  case save =>
    intro s who p j hp hj permits state
    have runs : Runs (.jobSave who p j) s (s.saveJob p j) := runs_permitted (by simp [hp, hj]) permits
    refine ⟨fun idle => ?_, fun busy placed => ?_⟩
    · rw [State.saveJob_idle state idle] at runs
      exact ⟨_, runs, s.jobState_setFld p j (by decide), .setFld s rfl ..⟩
    · rw [State.saveJob_busy state busy placed] at runs
      exact ⟨_, runs, State.jobState_setFld _ p j (by decide), fun eg c mem own => State.stopped_of_stopTe mem own, .setFld s rfl ..⟩
  case begin =>
    intro s eg j p hEg hj own saving placed free
    obtain ⟨n, waits⟩ := s.untilUnits_until p j eg
    have runs : Runs (.saveBegin eg j) s _ := inRange_of (by simp [hEg, hj]) (fun _ => .next _)
    rw [own] at runs
    dsimp only at runs
    rw [waits, if_neg (by rw [State.unitsBusy_until free]; simp [saving])] at runs
    refine ⟨_, runs, ?_⟩
    have settled (t : State) (g : Nat) := State.teOf_of_te (t.settleSave_te p j) g
    have flights (t : State) : (t.settleSave p j).teFlight p j eg = t.teFlight p j eg := by
      rw [State.teFlight, settled, ← State.teFlight]
    rw [flights]
    cases inFlight : s.teFlight p j eg with
    | nil =>
      have none_ : (s.until n).teFlight p j eg = [] := inFlight
      rw [none_]
      exact ⟨none_, fun g _ => settled _ g, fun _ => .of_mem (State.settleSave_mem ..)⟩
    | cons c rest =>
      have some_ : ((s.until n).teFlight p j eg).isEmpty = false := by
        rw [show (s.until n).teFlight p j eg = c :: rest from inFlight]; rfl
      rw [if_neg (by rw [some_]; decide)]
      obtain ⟨empty, others⟩ := State.saveOn_empties (s := s.until n) (p := p) (j := j) (eg := eg)
        (State.saveArea_region (s := s) hEg own placed)
      exact ⟨empty, fun g other => (settled _ g).trans (others g other), fun e => by cases e⟩
  case act =>
    intro s who p j hp hj permits
    refine ⟨?saved, fun other => ?_, s.clearJobStats p j, runs_permitted (by simp [hp, hj]) permits, s.clearJobStats_spec p j⟩
    · intro saved u
      have runs : Runs (.jobResume who p j) s (s.resumeJob p j) := runs_permitted (by simp [hp, hj]) permits
      rw [State.resumeJob_saved saved] at runs
      have only := (s.resuming p j).settleJob_only p j
      refine ⟨_, runs, ?_, ?_, only.mem_eq, ?_, State.jobState_settleJob_restored (s.state_resuming p j)⟩
      · rw [State.savedOf, congrArg State.saved only.1]
        exact s.savedOf_resuming p j
      · exact (congrArg State.te only.1 :)
      · rw [State.job, congrArg State.jobs only.1]
        exact congrArg JobState.resume (State.job_setJob ..)
    · have runs : Runs (.jobResume who p j) s (s.resumeJob p j) := runs_permitted (by simp [hp, hj]) permits
      rw [State.resumeJob, if_pos other] at runs
      exact ⟨_, runs, State.writeIgnored_onlyEvents .., State.writeIgnored_evSeq ..⟩

end

