-- ==== Sys2Proof/Proofs/WindowWrites.lean ====
section
/-!
PROOFS. Writes of memory windows, memory wheels and lending (R302, R327, R446, R447).
-/

set_option Elab.async false

namespace Sys2Proof.Machine

open Sys2Proof

theorem runs_memWindowWrite {s : State} {who : Requester} {win : MemWindow} {n : Nat} (hn : n < (if win = .t2 then 8 else 32))
    (permits : Permits s who (winReg win) n) (v : Word) : Runs (.memWindowWrite who win n v) s (s.writeWindow win n v) := by
  refine runs_permitted ?_ permits
  cases win <;> exact decide_eq_true hn

theorem State.writePartcfg_only (s : State) (p : Nat) (v : Word) :
    OnlyRegs (fun m i => (m = .sysPartcfg ∨ m = .sysDetstat) ∧ i = p) s (s.writePartcfg p v) := by
  have borrow := OnlyRegs.of_setFld (p := fun m i => (m = .sysPartcfg ∨ m = .sysDetstat) ∧ i = p) (f := F.sysPartcfg_BORROWMAX)
    (i := p) ⟨.inl rfl, rfl⟩ s (bits v.toNat 1 8)
  have lend := borrow.trans (OnlyRegs.of_setFld (f := F.sysPartcfg_LEND) ⟨.inl rfl, rfl⟩ _ (v.toNat % 2))
  unfold State.writePartcfg
  dsimp only
  split
  · split
    · exact lend.trans (OnlyRegs.of_setFld (f := F.sysDetstat_BROKEN) ⟨.inr rfl, rfl⟩ _ 1)
    · exact lend
  · exact borrow

theorem State.writePartcfg_fields (s : State) (p : Nat) (v : Word) :
    let z := s.season p
    let t := s.writePartcfg p v
    t.fld F.sysPartcfg_BORROWMAX p = bits v.toNat 1 8 ∧
    t.fld F.sysPartcfg_LEND p = (if z = winter ∨ z = autumn then v.toNat % 2 else s.fld F.sysPartcfg_LEND p) ∧
    t.fld F.sysDetstat_BROKEN p = (if z = autumn ∧ v.toNat % 2 = 1 then 1 else s.fld F.sysDetstat_BROKEN p) ∧
    t.fld F.sysDetstat_MISSES p = s.fld F.sysDetstat_MISSES p ∧ t.fld F.sysDetstat_OVERRUNS p = s.fld F.sysDetstat_OVERRUNS p := by
  intro z t
  have keeps {f g : Fld} (u : State) (x : Nat) (h : (f.fits && (g.reg != f.reg || f.apart g)) = true) :
      (u.setFld f p x).fld g p = u.fld g p := State.fld_setFld_other u f g p p x h
  have takes {f : Fld} (u : State) {x : Nat} (fits : f.fits = true) (small : x < 2 ^ f.width) : (u.setFld f p x).fld f p = x :=
    (State.fld_setFld_same u f p x fits).trans (Nat.mod_eq_of_lt small)
  have most : bits v.toNat 1 8 < 2 ^ 8 := Nat.mod_lt _ (by decide)
  have one : v.toNat % 2 < 2 ^ 1 := Nat.mod_lt _ (by decide)
  by_cases settles : s.season p = winter ∨ s.season p = autumn
  · by_cases breaks : s.season p = autumn ∧ v.toNat % 2 = 1
    · have written : t = ((s.setFld F.sysPartcfg_BORROWMAX p (bits v.toNat 1 8)).setFld F.sysPartcfg_LEND p (v.toNat % 2)).setFld
          F.sysDetstat_BROKEN p 1 := by
        rw [show t = s.writePartcfg p v from rfl, State.writePartcfg, if_pos settles, if_pos breaks]
      rw [written, if_pos settles, if_pos breaks]
      refine ⟨?_, ?_, takes _ rfl (by decide), ?_, ?_⟩
      · exact (keeps _ _ rfl).trans ((keeps _ _ rfl).trans (takes s rfl most))
      · exact (keeps _ _ rfl).trans (takes _ rfl one)
      · exact (keeps _ _ rfl).trans ((keeps _ _ rfl).trans (keeps s _ rfl))
      · exact (keeps _ _ rfl).trans ((keeps _ _ rfl).trans (keeps s _ rfl))
    · have written : t = (s.setFld F.sysPartcfg_BORROWMAX p (bits v.toNat 1 8)).setFld F.sysPartcfg_LEND p (v.toNat % 2) := by
        rw [show t = s.writePartcfg p v from rfl, State.writePartcfg, if_pos settles, if_neg breaks]
      rw [written, if_pos settles, if_neg breaks]
      exact ⟨(keeps _ _ rfl).trans (takes s rfl most), takes _ rfl one, (keeps _ _ rfl).trans (keeps s _ rfl),
        (keeps _ _ rfl).trans (keeps s _ rfl), (keeps _ _ rfl).trans (keeps s _ rfl)⟩
  · have written : t = s.setFld F.sysPartcfg_BORROWMAX p (bits v.toNat 1 8) := by
      rw [show t = s.writePartcfg p v from rfl, State.writePartcfg, if_neg settles]
    rw [written, if_neg settles, if_neg fun e => settles (.inr e.1)]
    exact ⟨takes s rfl most, keeps s _ rfl, keeps s _ rfl, keeps s _ rfl, keeps s _ rfl⟩

end Sys2Proof.Machine

open Sys2Proof Sys2Proof.Machine

/-- Settles O39: each write is taken or ignored by its own check; BROKEN follows R497 and R506, and BORROWMAX is taken at any time (log
entry 47). -/
theorem windowsAndMemoryWheelsTakeTheirWrites : Obligations.WindowsAndMemoryWheelsTakeTheirWrites := by
  unfold Obligations.WindowsAndMemoryWheelsTakeTheirWrites
  refine ⟨?windows, ?wheels, ?lending⟩
  case windows =>
    intro s who win n v hn permits z
    have runs := runs_memWindowWrite hn permits v
    unfold State.writeWindow at runs
    refine ⟨fun live => ?_, fun spring summer bad => ?_, fun spring summer good => ?_⟩
    · rwa [if_pos live] at runs
    · rw [if_neg (not_or.2 ⟨spring, summer⟩), if_pos bad] at runs
      exact ⟨_, runs, State.writeIgnored_onlyEvents .., State.writeIgnored_evSeq ..⟩
    · rw [if_neg (not_or.2 ⟨spring, summer⟩), if_neg (by rw [good]; decide)] at runs
      exact ⟨_, runs, .setReg .., State.reg_setReg_same ..⟩
  case wheels =>
    intro s who n v hn permits
    have runs : Runs (.memWheelWrite who n v) s (s.writeMemWheel n v) := runs_permitted (decide_eq_true hn) permits
    unfold State.writeMemWheel at runs
    refine ⟨fun free => ?_, fun live => ?_⟩
    · rw [if_neg (by rw [free]; decide)] at runs
      exact ⟨_, runs, rfl, State.ctl_setCtl .., fun c other => State.ctl_setCtl_ne _ _ other⟩
    · rw [if_pos live] at runs
      exact ⟨_, runs, State.writeIgnored_onlyEvents .., State.writeIgnored_evSeq ..⟩
  case lending =>
    intro s who p v hp permits z
    exact ⟨_, runs_permitted (decide_eq_true hp) permits, s.writePartcfg_only p v, s.writePartcfg_fields p v⟩

end

