-- ==== Sys2Proof/Proofs/MemorySlots.lean ====
section
/-!
PROOFS. Slots of the memory controllers and arrivals of read data (R295 to R301, R313, R319 to R323, R499).
-/

set_option Elab.async false

namespace Sys2Proof.Machine

open Sys2Proof

/-- A command that waited for its last request completes, and nothing else changes. -/
theorem OnlyFinish.unpark (s : State) (uid : Nat) : OnlyFinish s (s.unpark uid) := by
  unfold State.unpark
  split
  · exact .refl s
  · split
    · exact .refl s
    · next k _ =>
      have taken : OnlyFinish s { s with cp := { s.cp with parked := s.cp.parked.filter (fun x => x.cmd.uid != uid) } } :=
        ⟨rfl, rfl, rfl, fun _ _ _ => rfl⟩
      exact (taken.trans (.post ..)).trans (.settleJob ..)

/-! ## Slots keep memory -/

theorem State.revolution_mem (s : State) (c : Nat) : (s.revolution c).mem = s.mem := by
  unfold State.revolution
  dsimp only
  generalize (s.ctl c).pending = writes
  have writes_mem (u : State) : (writes.foldl (fun t iv => t.setReg .memWheel iv.1 iv.2) u).mem = u.mem := by
    induction writes generalizing u with
    | nil => rfl
    | cons x writes ih => exact ih _
  exact writes_mem s

theorem State.catchUp_mem (s : State) (c : Nat) : (s.catchUp c).mem = s.mem := by
  unfold State.catchUp
  dsimp only
  split
  · exact s.revolution_mem c
  · rfl

theorem State.openSlot_mem (s : State) (c : Nat) : (s.openSlot c).1.mem = s.mem := by
  unfold State.openSlot
  dsimp only
  split
  · exact (State.revolution_mem ..).trans (s.catchUp_mem c)
  · exact s.catchUp_mem c

theorem State.doWriteBack_mem (s : State) (c : Nat) (o : Outstanding) : (s.doWriteBack c o).mem = s.mem :=
  (OnlyFinish.unpark ..).mem

theorem State.passIdle_mem (s : State) (c : Nat) (owner : Option Nat) : (s.passIdle c owner).mem = s.mem := by
  unfold State.passIdle
  split
  · split
    · rfl
    · exact (OnlyFinish.unpark ..).mem
  · rfl

theorem State.endWrites_mem (s : State) (eg uid : Nat) : (s.endWrites eg uid).mem = s.mem := by
  unfold State.endWrites
  dsimp only
  split <;> rfl

theorem State.serve_mem (s : State) (c t p : Nat) (r : MemReq) : (s.serve c t p r).mem = s.mem := by
  unfold State.serve
  dsimp only
  split
  · exact (OnlyFinish.unpark ..).mem.trans (State.endWrites_mem ..)
  · rfl
  · rfl
  · exact (OnlyFinish.unpark ..).mem

/-! ## Arrivals -/

theorem State.noteEcc_units (s : State) (c : Cmd) (st : Byte) : ∃ regs, s.noteEcc c st = { s with regs := regs } := by
  unfold State.noteEcc
  dsimp only
  split
  · exact ⟨_, rfl⟩
  · split
    · exact ⟨_, rfl⟩
    · split <;> exact ⟨_, rfl⟩

/-- What completes with its last request changes no unit but the command processor. -/
theorem State.unpark_units (s : State) (uid : Nat) : ∃ regs cp, s.unpark uid = { s with regs := regs, cp := cp } := by
  unfold State.unpark
  split
  · exact ⟨_, _, rfl⟩
  · split
    · exact ⟨_, _, rfl⟩
    next k _ =>
      dsimp only
      rw [(State.settleJob_onlyRegs _ _ _).1]
      unfold State.post
      obtain ⟨regs, noted⟩ := State.noteEcc_units { s with cp := { s.cp with parked := s.cp.parked.filter (fun x => x.cmd.uid != uid) } }
        k.cmd (Completion.mk k.cmd k.res (max k.posted (s.cycle + postDelay (hdrOpcode k.cmd.bytes)))).final
      rw [noted]
      exact ⟨_, _, rfl⟩

theorem State.memc_unpark (s : State) (uid : Nat) : (s.unpark uid).memc = s.memc := by
  obtain ⟨regs, cp, e⟩ := s.unpark_units uid
  rw [e]

theorem State.bad_unpark (s : State) (uid : Nat) : (s.unpark uid).bad = s.bad := by
  obtain ⟨regs, cp, e⟩ := s.unpark_units uid
  rw [e]

/-- The state in which a controller's oldest read has landed in a cycle. -/
def State.landed (s : State) (c t : Nat) (rest : List Outstanding) : State := (s.setCtl c { s.ctl c with reads := rest }).until t

theorem State.arrive_timely {s : State} {c d : Nat} {o : Outstanding} {rest : List Outstanding} (reads : (s.ctl c).reads = o :: rest)
    (due : o.due = some d) (ecc : EccOutcome) :
    s.arrive c 0 ecc = ((s.landed c d rest).arriveEcc c o.req ecc).unpark o.req.uid := by
  have first : (s.ctl c).arriving = some (o, rest) := by rw [MemCtl.arriving, reads]
  unfold State.arrive
  dsimp only
  rw [first]
  dsimp only
  rw [due]
  rfl

theorem State.arrive_late {s : State} {c d late : Nat} {o : Outstanding} {rest : List Outstanding}
    (reads : (s.ctl c).reads = o :: rest) (due : o.due = some d) (isLate : 0 < late) :
    s.arrive c late .clean = (((s.landed c (d + late) rest).slotMiss c d (d + late) o.req)).unpark o.req.uid := by
  have first : (s.ctl c).arriving = some (o, rest) := by rw [MemCtl.arriving, reads]
  unfold State.arrive
  dsimp only
  rw [first]
  dsimp only
  rw [due]
  dsimp only
  rw [if_neg (by omega)]
  rfl

theorem State.ctl_landed (s : State) (c t : Nat) (rest : List Outstanding) :
    (s.landed c t rest).ctl c = { s.ctl c with reads := rest } :=
  State.ctl_setCtl s c _

theorem State.ctl_of_memc {s t : State} (h : t.memc = s.memc) (c : Nat) : t.ctl c = s.ctl c := by
  rw [State.ctl, h, ← State.ctl]

/-- The counts of a slot miss. -/
def State.missCounted (s : State) (c p : Nat) : State :=
  (((if c < 216 then s.count F.memSlotmiss_MISSES c 1 else s).count F.sysDetstat_MISSES p 1).setFld F.sysDetstat_BROKEN p 1)

theorem State.missCounted_only (s : State) (c p : Nat) :
    OnlyRegs (fun n _ => n = .memSlotmiss ∨ n = .sysDetstat) s (s.missCounted c p) := by
  have misses : OnlyRegs (fun n _ => n = .memSlotmiss ∨ n = .sysDetstat) s (if c < 216 then s.count F.memSlotmiss_MISSES c 1 else s) := by
    split
    · exact .of_setFld (f := F.memSlotmiss_MISSES) (.inl rfl) s _
    · exact .refl _ s
  exact (misses.trans (.of_setFld (f := F.sysDetstat_MISSES) (.inr rfl) _ _)).trans
    (.of_setFld (f := F.sysDetstat_BROKEN) (.inr rfl) _ _)

/-- The counts as they stand after a slot miss. -/
theorem State.missCounted_fields (s : State) (c p : Nat) :
    let t := s.missCounted c p
    (c < 216 → t.fld F.memSlotmiss_MISSES c = satAdd F.memSlotmiss_MISSES.width (s.fld F.memSlotmiss_MISSES c) 1) ∧
      t.fld F.sysDetstat_MISSES p = satAdd F.sysDetstat_MISSES.width (s.fld F.sysDetstat_MISSES p) 1 ∧
      t.fld F.sysDetstat_BROKEN p = 1 := by
  have first (g : Fld) (other : g.reg ≠ .memSlotmiss) (i : Nat) :
      (if c < 216 then s.count F.memSlotmiss_MISSES c 1 else s).fld g i = s.fld g i := by
    split
    · exact State.fld_of_reg (State.reg_setReg_ne s _ fun e => other e.1)
    · rfl
  refine ⟨fun unit => ?_, ?_, State.fld_setFld_same _ F.sysDetstat_BROKEN p 1 rfl⟩
  · refine (State.fld_setFld_other _ F.sysDetstat_BROKEN F.memSlotmiss_MISSES p c 1 rfl).trans
      ((State.fld_setFld_other _ F.sysDetstat_MISSES F.memSlotmiss_MISSES p c _ rfl).trans ?_)
    rw [if_pos unit]
    exact State.fld_count_same s rfl c 1
  · refine (State.fld_setFld_other _ F.sysDetstat_BROKEN F.sysDetstat_MISSES p p 1 rfl).trans ((State.fld_count_same _ rfl p 1).trans ?_)
    rw [first F.sysDetstat_MISSES (by decide)]

/-- The wheel of a read's engine group held by a slot miss. -/
def State.missHeld (s : State) (due land : Nat) (r : MemReq) : State := if r.eg = noEg then s else s.holdWheel r.eg due land

/-- The commands that wait for late data. -/
def missedCp (cp : CpState) (due land : Nat) (r : MemReq) : CpState :=
  { cp.mapWindow (missDecoded r) with
    parked := cp.parked.map (missCompletion r.uid due land), inflight := cp.inflight.map (missCmd r.uid due land) }

def State.missMarked (s : State) (due land : Nat) (r : MemReq) : State :=
  if r.uid = 0 then s else { s with cp := missedCp s.cp due land r }

theorem State.slotMiss_eq (s : State) (c due land : Nat) (r : MemReq) :
    s.slotMiss c due land r = ((s.missCounted c r.part).missHeld due land r).missMarked due land r := rfl

/-- After its counts, a slot miss holds a wheel and marks the commands that wait. -/
theorem State.slotMiss_units (s : State) (c due land : Nat) (r : MemReq) :
    ∃ wheels cp, s.slotMiss c due land r = { s with regs := (s.missCounted c r.part).regs, wheels := wheels, cp := cp } := by
  have counted := (s.missCounted_only c r.part).1
  have held (u : State) : ∃ w, u.missHeld due land r = { u with wheels := w } := by
    unfold State.missHeld State.holdWheel
    split
    · exact ⟨_, rfl⟩
    · dsimp only
      split <;> exact ⟨_, rfl⟩
  have marked (u : State) : ∃ cp, u.missMarked due land r = { u with cp := cp } := by
    unfold State.missMarked
    split
    · exact ⟨_, rfl⟩
    · exact ⟨_, rfl⟩
  obtain ⟨w, holds⟩ := held (s.missCounted c r.part)
  obtain ⟨cp, marks⟩ := marked ((s.missCounted c r.part).missHeld due land r)
  refine ⟨w, cp, ?_⟩
  rw [State.slotMiss_eq, marks, holds, counted]

theorem State.slotMiss_kept (s : State) (c due land : Nat) (r : MemReq) :
    (s.slotMiss c due land r).regs = (s.missCounted c r.part).regs ∧ (s.slotMiss c due land r).mem = s.mem ∧
      (s.slotMiss c due land r).cycle = s.cycle ∧ (s.slotMiss c due land r).memc = s.memc := by
  obtain ⟨wheels, cp, units⟩ := s.slotMiss_units c due land r
  simp only [units, and_self]

/-! ## Uncorrectable data -/

theorem State.inRing_of_regs {s t : State} (same : ∀ n i, n = .sysEvcfg ∨ n = .sysEvbaseLo ∨ n = .sysEvbaseHi → t.reg n i = s.reg n i)
    (a : Nat) : t.InRing a ↔ s.InRing a := by
  have flag (i : Nat) : t.flag F.sysEvcfg_EN i = s.flag F.sysEvcfg_EN i := by
    rw [State.flag, State.flag, State.fld_of_reg (same .sysEvcfg i (.inl rfl))]
  have base (i : Nat) : t.pair .sysEvbaseLo .sysEvbaseHi i = s.pair .sysEvbaseLo .sysEvbaseHi i := by
    rw [State.pair, State.pair, same _ i (.inr (.inl rfl)), same _ i (.inr (.inr rfl))]
  have cap (i : Nat) : t.ringCap i = s.ringCap i := by
    rw [State.ringCap, State.ringCap, State.fld_of_reg (f := F.sysEvcfg_LOG2N) (same .sysEvcfg i (.inl rfl))]
  unfold State.InRing
  simp only [flag, base, cap]

/-- The registers that a command's end at bad data, or its queue's halt, may change. -/
def StopReg (n : RegName) : Prop := EventReg n ∨ FinishReg n ∨ n = .qStat ∨ n = .cpStat

/-- What ending a command at bad data, and halting its queue, leave as it is. -/
structure OnlyStops (s t : State) : Prop where
  bytes : ∀ b, OnDevice b → ¬ s.InRing b → t.byteAt b = s.byteAt b
  regs : ∀ n i, ¬ StopReg n → t.reg n i = s.reg n i

namespace OnlyStops

variable {r s t : State}

theorem inRing (h : OnlyStops s t) (b : Nat) : t.InRing b ↔ s.InRing b :=
  State.inRing_of_regs (fun n i e => h.regs n i (by
    rcases e with rfl | rfl | rfl <;> simp [StopReg, EventReg, FinishReg])) b

theorem trans (h : OnlyStops r s) (g : OnlyStops s t) : OnlyStops r t :=
  ⟨fun b device off => (g.bytes b device (mt (h.inRing b).1 off)).trans (h.bytes b device off),
    fun n i other => (g.regs n i other).trans (h.regs n i other)⟩

theorem of_tables (regs : t.regs = s.regs) (mem : t.mem = s.mem) : OnlyStops s t :=
  ⟨fun _ device _ => State.byteAt_of_mem mem device, fun n i _ => State.reg_of_regs regs n i⟩

theorem refl (s : State) : OnlyStops s s := .of_tables rfl rfl

theorem setFld (s : State) {f : Fld} (own : StopReg f.reg) (i v : Nat) : OnlyStops s (s.setFld f i v) :=
  ⟨fun _ device _ => State.byteAt_of_mem (State.setFld_mem ..) device, fun _ _ other => State.reg_setReg_ne s _ fun e => other (e.1 ▸ own)⟩

theorem of_finish (h : OnlyFinish s t) : OnlyStops s t :=
  ⟨fun _ device _ => State.byteAt_of_mem h.mem device, fun n i other => h.regs n i fun e => other (.inr (.inl e))⟩

theorem event (s : State) (code : Nat) (status : Byte) (part : Option Nat) (a0 a1 : Nat) :
    OnlyStops s (s.event code status part a0 a1) :=
  have h := State.event_onlyEvents s code status part a0 a1
  ⟨h.bytes, fun n i other => h.regs n i (fun e => other (.inl e)) id⟩

theorem undecode (s : State) (q : Nat) : OnlyStops s (s.undecode q) := by
  have window (u : State) (f : Nat) (w : List Decoded) : OnlyStops u (u.setWindow f w) :=
    have listed : OnlyStops u { u with cp := { u.cp with window := Sparse.wr (fun _ => []) f w u.cp.window } } := .of_tables rfl rfl
    listed.trans (.setFld _ (f := F.cpStat_WINDOW) (.inr (.inr (.inr rfl))) f w.length)
  have queue (u : State) (v : QueueState) : OnlyStops u (u.setQueue q v) := .of_tables rfl rfl
  exact (window ..).trans (queue ..)

theorem halt (s : State) (q cause addr : Nat) : OnlyStops s (s.halt q cause addr) := by
  have queue (u : State) (v : QueueState) : OnlyStops u (u.setQueue q v) := .of_tables rfl rfl
  have state : OnlyStops s ((s.setFld F.qStat_STATE q 2).setFld F.qStat_CAUSE q cause) :=
    (setFld s (.inr (.inr (.inl rfl))) q 2).trans (setFld _ (.inr (.inr (.inl rfl))) q cause)
  exact ((state.trans (.undecode ..)).trans (queue ..)).trans (.event ..)

theorem failRing (s : State) (uid g : Nat) : OnlyStops s (s.failRing uid g) := by
  have marked : OnlyStops s { s with cp := s.cp.mapWindow (badRing uid g) } := .of_tables rfl rfl
  unfold State.failRing
  refine marked.trans ?_
  dsimp only
  split
  · exact .refl _
  next d _ =>
    split
    · unfold State.ringStop
      split
      · split
        · exact .halt ..
        · exact .refl _
      · exact .refl _
    · exact .refl _

/-- A command that has done nothing since it read a bad granule is told of it. -/
theorem failRead {uid g : Nat} (idle : s.undoFrom uid g = none) : OnlyStops s (s.failRead uid g) := by
  unfold State.failRead
  rw [idle]
  dsimp only
  split
  · exact .refl s
  · exact .of_tables rfl rfl

end OnlyStops

theorem lt_of_region_t1 {a : Nat} (r : region a = some .t1) : a < 432 * gib := by
  by_contra above
  unfold region at r
  rw [if_neg above] at r
  dsimp only at r
  split_ifs at r <;> cases r

theorem range_of_region_t2 {a : Nat} (r : region a = some .t2) : ¬ a < 432 * gib ∧ t2Base ≤ a ∧ a < t2Base + 1536 * gib := by
  unfold region at r
  by_cases below : a < 432 * gib
  · rw [if_pos below] at r
    cases r
  · refine ⟨below, ?_⟩
    by_contra outside
    rw [if_neg below, if_neg outside] at r
    dsimp only at r
    split_ifs at r <;> cases r

/-- A granule lies in the same controller's memory as each of its bytes. -/
theorem controllerOf_granuleOf {a c : Nat} (unit : controllerOf a = some c) : controllerOf (granuleOf a) = some c := by
  unfold controllerOf at unit
  split at unit
  next r =>
    have below := lt_of_region_t1 r
    have same : region (a / 64 * 64) = some .t1 := if_pos (Nat.lt_of_le_of_lt (Nat.div_mul_le_self a 64) below)
    have field : a / 64 * 64 / fieldRegion = a / fieldRegion := by unfold fieldRegion; omega
    have channel : a / 64 * 64 % fieldRegion / 2048 = a % fieldRegion / 2048 := by unfold fieldRegion; omega
    rw [controllerOf, granuleOf, r]
    dsimp only
    rw [same]
    dsimp only
    rw [field, channel, unit]
  next r =>
    have range := range_of_region_t2 r
    unfold t2Base gib at range
    have same : region (a / 64 * 64) = some .t2 := by
      rw [region, if_neg (by unfold gib; omega), if_pos (by unfold t2Base gib; omega)]
    have page : (a / 64 * 64 - t2Base) / 4096 = (a - t2Base) / 4096 := by unfold t2Base; omega
    rw [controllerOf, granuleOf, r]
    dsimp only
    rw [same]
    dsimp only
    rw [page, unit]
  next => cases unit

theorem State.noteUe_spec {s : State} {g c : Nat} (unit : controllerOf g = some c) :
    (s.noteUe g).pair .memUeaddrLo .memUeaddrHi 0 = g % 2 ^ 64 ∧
      (s.noteUe g).fld F.memEccstat_UNCORRECTED c =
        satAdd F.memEccstat_UNCORRECTED.width (s.fld F.memEccstat_UNCORRECTED c) 1 := by
  have counted : s.noteUe g = (s.setPair .memUeaddrLo .memUeaddrHi 0 g).count F.memEccstat_UNCORRECTED c 1 := by
    rw [State.noteUe, unit]
  have kept (n : RegName) (other : n ≠ .memUeaddrLo ∧ n ≠ .memUeaddrHi) (i : Nat) :
      (s.setPair .memUeaddrLo .memUeaddrHi 0 g).reg n i = s.reg n i :=
    (State.reg_setReg_ne _ _ fun e => other.2 e.1).trans (State.reg_setReg_ne _ _ fun e => other.1 e.1)
  rw [counted]
  constructor
  · have lo : ((s.setPair .memUeaddrLo .memUeaddrHi 0 g).count F.memEccstat_UNCORRECTED c 1).reg .memUeaddrLo 0 = BitVec.ofNat 32 g :=
      (State.reg_setReg_ne _ _ fun e => by cases e.1).trans
        ((State.reg_setReg_ne _ _ fun e => by cases e.1).trans (State.reg_setReg_same ..))
    have hi : ((s.setPair .memUeaddrLo .memUeaddrHi 0 g).count F.memEccstat_UNCORRECTED c 1).reg .memUeaddrHi 0
        = BitVec.ofNat 32 (g / 2 ^ 32) :=
      (State.reg_setReg_ne _ _ fun e => by cases e.1).trans (State.reg_setReg_same ..)
    rw [State.pair, lo, hi, BitVec.toNat_ofNat, BitVec.toNat_ofNat]
    omega
  · refine (State.fld_count_same _ rfl c 1).trans ?_
    rw [State.fld_of_reg (kept F.memEccstat_UNCORRECTED.reg (by decide) c)]

/-- The state in which bad data has been noted and the commands that read it are told. -/
def State.ueTold (s : State) (g : Nat) (owners : List Nat) : State :=
  owners.foldl (fun t uid => if uid = 0 then t else (t.failRead uid g).failRing uid g) (s.noteUe g)

theorem State.arriveEcc_uncorrectable {s : State} {c a : Nat} {r : MemReq} (device : c < 216) (here : unitOf a = r.unit)
    (unit : controllerOf a = some c) :
    let t := s.ueTold (granuleOf a)
      (r.uid :: ((s.ctl c).open_.filter (fun o => o.req.unit == unitOf a)).map (fun o => o.req.uid))
    s.arriveEcc c r (.uncorrectable a) =
      { t with bad := if t.bad.contains (granuleOf a) then t.bad else t.bad ++ [granuleOf a] } := by
  unfold State.arriveEcc
  simp only [if_pos device, here, unit, beq_self_eq_true, Bool.and_self, if_true]
  rfl

theorem State.mem_bad_arriveEcc {s : State} {c a : Nat} {r : MemReq} (device : c < 216) (here : unitOf a = r.unit)
    (unit : controllerOf a = some c) : granuleOf a ∈ (s.arriveEcc c r (.uncorrectable a)).bad := by
  rw [State.arriveEcc_uncorrectable device here unit]
  dsimp only
  split
  next known => simpa using known
  next => exact List.mem_append_right _ (List.mem_singleton_self _)

theorem State.noteUe_units (s : State) (a : Nat) :
    OnlyRegs (fun n _ => n = .memUeaddrLo ∨ n = .memUeaddrHi ∨ n = .memEccstat) s (s.noteUe a) := by
  have address : OnlyRegs (fun n _ => n = .memUeaddrLo ∨ n = .memUeaddrHi ∨ n = .memEccstat) s
      (s.setPair .memUeaddrLo .memUeaddrHi 0 a) :=
    (OnlyRegs.of_setReg (.inl rfl) s _).trans (.of_setReg (.inr (.inl rfl)) _ _)
  unfold State.noteUe
  dsimp only
  split
  · exact address.trans (.of_setFld (f := F.memEccstat_UNCORRECTED) (.inr (.inr rfl)) _ _)
  · exact address

theorem State.undoFrom_none_of_cp {s t : State} (same : t.cp = s.cp) {uid g : Nat} (idle : s.undoFrom uid g = none) :
    t.undoFrom uid g = none := by
  have trace : t.trace uid = s.trace uid := by rw [State.trace, same, ← State.trace]
  unfold State.undoFrom at idle ⊢
  rw [Option.map_eq_none_iff] at idle ⊢
  rw [trace, idle]

/-- Uncorrectable data that no command has acted on and no atomic holds. -/
theorem State.arriveEcc_unread {s : State} {c a : Nat} {r : MemReq} (device : c < 216) (here : unitOf a = r.unit)
    (unit : controllerOf a = some c) (idle : s.undoFrom r.uid (granuleOf a) = none)
    (free : ∀ x ∈ (s.ctl c).open_, x.req.unit ≠ unitOf a) :
    OnlyStops (s.noteUe (granuleOf a)) (s.arriveEcc c r (.uncorrectable a)) := by
  have none_ : (s.ctl c).open_.filter (fun o => o.req.unit == unitOf a) = [] :=
    List.filter_eq_nil_iff.2 fun x mem => by simpa using free x mem
  have still := State.undoFrom_none_of_cp (s.noteUe_units (granuleOf a)).cp_eq idle
  rw [State.arriveEcc_uncorrectable device here unit, none_]
  unfold State.ueTold
  simp only [List.map_nil, List.foldl_cons, List.foldl_nil]
  split
  · exact .of_tables rfl rfl
  · exact ((OnlyStops.failRead still).trans (.failRing ..)).trans (.of_tables rfl rfl)

/-! ## The rows -/

theorem State.startSlot_refresh {s : State} {c : Nat} (refresh : refreshSlot (s.openSlot c).2.1 = true) :
    s.startSlot c = (s.openSlot c).1 := by
  unfold State.startSlot
  exact if_pos refresh

theorem State.writeBackDue_none {s : State} {c : Nat}
    (none_ : ((s.openSlot c).1.ctl c).writeBack ((s.openSlot c).1.slotOwner c (s.openSlot c).2.1) (s.openSlot c).2.2 = none) :
    s.writeBackDue c = false := by
  unfold State.writeBackDue
  dsimp only
  rw [none_, Option.isSome_none, Bool.and_false]

section Data

variable {s : State} {c : Nat} (data : refreshSlot (s.openSlot c).2.1 = false)

include data

theorem State.startSlot_writeBack {o : Outstanding}
    (due : ((s.openSlot c).1.ctl c).writeBack ((s.openSlot c).1.slotOwner c (s.openSlot c).2.1) (s.openSlot c).2.2 = some o) :
    s.startSlot c = (s.openSlot c).1.doWriteBack c o := by
  unfold State.startSlot
  dsimp only
  rw [if_neg (by rw [data]; decide), due]

variable (none_ : ((s.openSlot c).1.ctl c).writeBack ((s.openSlot c).1.slotOwner c (s.openSlot c).2.1) (s.openSlot c).2.2 = none)

include none_

theorem State.startSlot_idle
    (idle : (s.openSlot c).1.slotServes ((s.openSlot c).1.ctl c) ((s.openSlot c).1.slotOwner c (s.openSlot c).2.1) = none) :
    s.startSlot c = (s.openSlot c).1.passIdle c ((s.openSlot c).1.slotOwner c (s.openSlot c).2.1) := by
  unfold State.startSlot
  dsimp only
  rw [if_neg (by rw [data]; decide), none_]
  dsimp only
  rw [idle]

theorem State.startSlot_serves {p : Nat} {borrowed : Bool} {r : MemReq}
    (serves : (s.openSlot c).1.slotServes ((s.openSlot c).1.ctl c) ((s.openSlot c).1.slotOwner c (s.openSlot c).2.1) = some (p, borrowed))
    (next : (((s.openSlot c).1.passIdle c ((s.openSlot c).1.slotOwner c (s.openSlot c).2.1)).ctl c).nextReq p = some r) :
    let y := (s.openSlot c).1.passIdle c ((s.openSlot c).1.slotOwner c (s.openSlot c).2.1)
    s.startSlot c = (if borrowed then
        y.setCtl c { y.ctl c with
          borrowed := Sparse.wr (fun _ => 0) p (Sparse.rd (fun _ => 0) p (y.ctl c).borrowed + 1) (y.ctl c).borrowed }
      else y).serve c (s.openSlot c).2.2 p r := by
  intro y
  unfold State.startSlot
  dsimp only
  rw [if_neg (by rw [data]; decide), none_]
  dsimp only
  rw [serves]
  dsimp only
  rw [next]

end Data

theorem State.passIdle_of_data {s : State} {c : Nat} {owner : Option Nat}
    (data : ∀ r, owner.bind (s.ctl c).nextReq = some r → r.kind ≠ .idle) : s.passIdle c owner = s := by
  unfold State.passIdle
  split
  next r next => rw [if_pos (bne_iff_ne.2 (data r next))]
  next => rfl

end Sys2Proof.Machine

open Sys2Proof Sys2Proof.Machine

/-- Settles O40: a slot by the branches of its start (a write-back keeps every byte: an atomic changed memory at its issue, log entry 43,
and one that is not due does nothing, log entry 3), an arrival by what the error correction finds. -/
theorem memorySlotsAndArrivals : Obligations.MemorySlotsAndArrivals := by
  unfold Obligations.MemorySlotsAndArrivals
  refine ⟨?slots, ?arrivals⟩
  case slots =>
    intro s c hc x m owner
    have runs : Runs (.memSlotStart c) s (s.startSlot c) := inRange_of (decide_eq_true hc) (fun _ => .next (s.startSlot c))
    have writes (h : c < 192) : Runs (.atomicWriteback c) s (if s.writeBackDue c then s.startSlot c else s) :=
      inRange_of (decide_eq_true h) (fun _ => .next (if s.writeBackDue c then s.startSlot c else s))
    refine ⟨fun refresh => ?_, fun data o due => ?_, fun data none_ => ?_⟩
    · rw [State.startSlot_refresh refresh] at runs
      exact ⟨runs, .of_mem (s.openSlot_mem c)⟩
    · have carried : s.writeBackDue c = true := by
        unfold State.writeBackDue
        dsimp only
        rw [show refreshSlot (s.openSlot c).2.1 = false from data]
        exact congrArg Option.isSome due
      rw [State.startSlot_writeBack data due] at runs writes
      exact ⟨runs, fun h => by simpa only [carried, if_true] using writes h,
        .of_mem ((State.doWriteBack_mem ..).trans (s.openSlot_mem c))⟩
    · refine ⟨fun h => by simpa only [State.writeBackDue_none none_, Bool.false_eq_true, if_false] using writes h, ?_⟩
      intro y n
      have kept : y.mem = s.mem := (State.passIdle_mem ..).trans (s.openSlot_mem c)
      refine ⟨fun idle => ?_, State.passIdle_of_data, fun p r serves next => ?_, fun p r serves next => ?_⟩
      · rwa [State.startSlot_idle data none_ idle] at runs
      · rw [State.startSlot_serves data none_ serves next] at runs
        exact ⟨runs, .of_mem ((State.serve_mem ..).trans kept)⟩
      · rwa [State.startSlot_serves data none_ serves next] at runs
  case arrivals =>
    intro s c late d o rest hc reads due hp
    have runs (late : Nat) (ecc : EccOutcome) : Runs (.memReadArrival c late ecc) s (s.arrive c late ecc) :=
      inRange_of (decide_eq_true hc) (fun _ => .next (s.arrive c late ecc))
    refine ⟨⟨_, runs 0 .clean, ?_⟩, fun isLate => ⟨_, runs late .clean, ?_⟩, fun n device => ⟨_, runs 0 (.corrected n), ?_⟩,
      fun a device here unit => ⟨_, runs 0 (.uncorrectable a), ?_⟩⟩
    · rw [State.arrive_timely reads due]
      have ends := OnlyFinish.unpark (s.landed c d rest) o.req.uid
      refine ⟨?_, ends.cycle, fun i => ends.regs .memSlotmiss i (by simp [FinishReg]), .of_mem ends.mem⟩
      rw [State.arriveEcc, State.ctl_of_memc (State.memc_unpark ..), State.ctl_landed]
    · rw [State.arrive_late reads due isLate]
      obtain ⟨regs, mem, cycle, memc⟩ := (s.landed c (d + late) rest).slotMiss_kept c d (d + late) o.req
      have ends := OnlyFinish.unpark ((s.landed c (d + late) rest).slotMiss c d (d + late) o.req) o.req.uid
      obtain ⟨slots, misses, broken⟩ := (s.landed c (d + late) rest).missCounted_fields c o.req.part
      have counted {f : Fld} (other : ¬ FinishReg f.reg) (i : Nat) :
          (((s.landed c (d + late) rest).slotMiss c d (d + late) o.req).unpark o.req.uid).fld f i
            = ((s.landed c (d + late) rest).missCounted c o.req.part).fld f i :=
        (State.fld_of_reg (ends.regs _ i other)).trans (State.fld_of_regs regs f i)
      refine ⟨?_, ends.cycle.trans cycle, fun device => ?_, ?_, ?_, .of_mem (ends.mem.trans mem)⟩
      · rw [State.ctl_of_memc ((State.memc_unpark ..).trans memc)]
        rw [State.ctl_landed]
      · exact (counted (by rintro (e | e | e) <;> cases e) c).trans (slots device)
      · exact (counted (by rintro (e | e | e) <;> cases e) o.req.part).trans misses
      · exact (counted (by rintro (e | e | e) <;> cases e) o.req.part).trans broken
    · rw [State.arrive_timely reads due, State.arriveEcc, if_pos device]
      have ends := OnlyFinish.unpark ((s.landed c d rest).count F.memEccstat_CORRECTED c n) o.req.uid
      refine ⟨?_, .of_mem ends.mem⟩
      exact (State.fld_of_reg (ends.regs _ c (by rintro (e | e | e) <;> cases e))).trans (State.fld_count_same _ rfl c n)
    · rw [State.arrive_timely reads due]
      refine ⟨?_, fun idle free => ?_⟩
      · rw [State.bad_unpark]
        exact State.mem_bad_arriveEcc device here unit
      · have open_ : ∀ y ∈ ((s.landed c d rest).ctl c).open_, y.req.unit ≠ unitOf a := by
          rw [State.ctl_landed]
          exact free
        have stops := (State.arriveEcc_unread (s := s.landed c d rest) device here unit (State.undoFrom_none_of_cp (s := s) (t := s.landed c d rest) rfl idle) open_).trans
          (.of_finish (OnlyFinish.unpark _ o.req.uid))
        obtain ⟨address, count⟩ := State.noteUe_spec (s := s.landed c d rest) (controllerOf_granuleOf unit)
        have noted := (s.landed c d rest).noteUe_units (granuleOf a)
        refine ⟨?_, ?_, fun b device off => ?_⟩
        · rw [← address, State.pair, State.pair, stops.regs _ _ (by simp [StopReg, EventReg, FinishReg]),
            stops.regs _ _ (by simp [StopReg, EventReg, FinishReg])]
        · exact (State.fld_of_reg (stops.regs _ c (by rintro ((e | e | e) | (e | e | e) | e | e) <;> cases e))).trans count
        · have ring : ((s.landed c d rest).noteUe (granuleOf a)).InRing b ↔ s.InRing b :=
            State.inRing_of_regs (fun n i e => noted.2 n i (by rcases e with rfl | rfl | rfl <;> simp)) b
          exact (stops.bytes b device (mt ring.1 off)).trans (State.byteAt_of_mem noted.mem_eq device)

end

