-- ==== Sys2Proof/Proofs/TensorEvents.lean ====
section
/-!
PROOFS. Slot grants, steps and drains of a tensor engine (R86, R96, R99).
-/

set_option Elab.async false

namespace Sys2Proof.Machine

open Sys2Proof

/-- A command as its slots are granted. -/
def State.granted (s : State) (eg : Nat) (c : TeCmd) (n : Nat) : TeCmd :=
  let at0 := max s.cycle c.cmd.issued
  { c with slots := (s.teNow eg).freeSlots.take n, at_ := at0 + 64, round := at0 + 64 }

/-- A tensor engine after a grant. -/
def State.grantedTe (s : State) (eg : Nat) (c : TeCmd) (n : Nat) : Te :=
  { s.teNow eg with
    waiting := (s.teNow eg).waiting.filter (fun x => x.cmd.uid != c.cmd.uid), flight := (s.teNow eg).flight ++ [s.granted eg c n] }

theorem State.grantSlots_granted {s : State} {eg n : Nat} {c : TeCmd} (next : s.grantNext eg = some c)
    (asks : c.asks (s.slotsFor eg c.cmd) = some n) :
    s.grantSlots eg = ((s.setTe eg (s.grantedTe eg c n)).addWait c.cmd.part c.cmd.job (max s.cycle c.cmd.issued - c.cmd.issued)).reachNext
      c.cmd.issuer := by
  have now : s.untilGrant eg 4 = s := by
    rw [State.untilGrant, if_pos (by rw [next]; rfl)]
  unfold State.grantSlots
  rw [now]
  dsimp only
  rw [next]
  dsimp only
  rw [asks]
  rfl

theorem State.te_reachNext (s : State) (i : Issuer) : (s.reachNext i).te = s.te := by
  cases i with
  | queue q => rfl
  | core eg c =>
    rw [State.reachNext]
    split <;> rfl

theorem State.grantSlots_spec {s : State} {eg n : Nat} {c : TeCmd} (next : s.grantNext eg = some c)
    (asks : c.asks (s.slotsFor eg c.cmd) = some n) :
    (s.grantSlots eg).teOf eg = s.grantedTe eg c n ∧ KeepsBytes s (s.grantSlots eg) := by
  rw [State.grantSlots_granted next asks]
  refine ⟨(State.teOf_of_te (State.te_reachNext ..) eg).trans ?_, .of_mem (State.reachNext_waits ..).only.mem⟩
  exact State.teOf_setTe s eg _

end Sys2Proof.Machine

open Sys2Proof Sys2Proof.Machine

/-- Settles O31: the grant by the first waiting command that may have its slots, steps and drains by the branches of their rows (a step
of an ended command changes nothing, log entry 3). -/
theorem tensorEngineEventsRun : Obligations.TensorEngineEventsRun := by
  unfold Obligations.TensorEngineEventsRun
  intro s eg hEg
  refine ⟨fun c n next asks => ?grant, fun k c hk flight => ?step, fun c x next => ?drain⟩
  case grant =>
    obtain ⟨te, bytes⟩ := State.grantSlots_spec (s := s) (eg := eg) next asks
    refine ⟨s.grantSlots eg, s.granted eg c n, inRange_of (decide_eq_true hEg) (fun _ => .next (s.grantSlots eg)), ?_, rfl, rfl,
      fun x waits => ?_, bytes⟩
    · rw [te]
      rfl
    · rw [te] at waits
      simpa using (List.mem_filter.1 waits).2
  case step =>
    have runs : Runs (.teStep eg k) s _ := inRange_of (by simp [hEg, hk]) (fun _ => .next _)
    rw [flight] at runs
    dsimp only at runs
    refine ⟨fun job going attn => ?_, fun job going mat => ?_, fun held => ?_⟩
    · rwa [if_neg (by simp [job, going]), if_pos attn] at runs
    · rwa [if_neg (by simp [job, going]), if_neg mat] at runs
    · rwa [if_pos (by rcases held with held | held <;> simp [held])] at runs
  case drain =>
    have runs : Runs (.tileDrain eg) s _ := inRange_of (decide_eq_true hEg) (fun _ => .next _)
    rwa [next] at runs

end

