-- ==== Sys2Proof/Proofs/Copying.lean ====
section
/-!
PROOFS. COPY without gather or scatter (R309): what a put, a row and the rows of a copy write.
-/

set_option Elab.async false

namespace Sys2Proof.Machine

open Sys2Proof

/-! ## Bytes of device memory -/

/-- The byte that the table of device memory holds at an address. -/
def State.cell (s : State) (b : Nat) : Byte := Sparse.rd memDefault b s.mem

theorem State.cell_of_mem {s t : State} (m : t.mem = s.mem) (b : Nat) : t.cell b = s.cell b := by rw [State.cell, m, ← State.cell]

theorem State.getD_read (s : State) (a n k : Nat) (h : k < n) : (s.read a n).getD k 0x00#8 = s.byteAt (a + k) := by
  induction n generalizing a k with
  | zero => exact absurd h (Nat.not_lt_zero k)
  | succ n ih =>
    cases k with
    | zero => rfl
    | succ k => rw [State.read, List.getD_cons_succ, ih (a + 1) k (by omega), Nat.add_right_comm, Nat.add_assoc]

theorem State.length_read (s : State) (a n : Nat) : (s.read a n).length = n := by
  induction n generalizing a with
  | zero => rfl
  | succ n ih => rw [State.read, List.length_cons, ih]

theorem putBytes_append (m : Sparse Byte) (a : Nat) (xs ys : List Byte) :
    putBytes m a (xs ++ ys) = putBytes (putBytes m a xs) (a + xs.length) ys := by
  induction xs generalizing m a with
  | nil => rfl
  | cons x xs ih => rw [List.cons_append, putBytes, ih, putBytes, List.length_cons, Nat.add_assoc, Nat.add_comm 1]

/-! ## A put -/

/-- A run that has met no failure, where no granule is bad. -/
structure Out.Clean (o : Out) : Prop where
  fail : o.fail = none
  bad : o.s.bad = []

theorem State.storeFor_spec (s : State) (uid a : Nat) (bs : List Byte) :
    (s.storeFor uid a bs).mem = putBytes s.mem a bs ∧ (s.storeFor uid a bs).bad = (s.store a bs).bad := by
  unfold State.storeFor State.note
  dsimp only
  split
  · exact ⟨State.store_mem .., rfl⟩
  · exact ⟨State.store_mem .., rfl⟩

theorem State.bad_store_nil {s : State} (clean : s.bad = []) (a : Nat) (bs : List Byte) : (s.store a bs).bad = [] := by
  by_cases some_ : bs.length = 0
  · rw [State.store, if_pos some_, clean]
  · rw [State.store_bad s a some_, clean]
    rfl

theorem Out.piece_clean {o : Out} (clean : o.Clean) (c : Cmd) (x : Nat × List Byte × Bool) :
    (o.piece c x).Clean ∧ (o.piece c x).s.mem = putBytes o.s.mem x.1 x.2.1 := by
  have noted (s : State) (y : Access) : (s.note c.uid y).mem = s.mem ∧ (s.note c.uid y).bad = s.bad := by
    unfold State.note
    split <;> exact ⟨rfl, rfl⟩
  unfold Out.piece
  rw [clean.fail, clean.bad]
  simp only [Option.isSome_none, List.contains_nil, Bool.and_false, Bool.false_eq_true, if_false]
  have start : (if x.2.2 = true then o.s.note c.uid (.rmw (granuleOf x.1) 64) else o.s).mem = o.s.mem ∧
      (if x.2.2 = true then o.s.note c.uid (.rmw (granuleOf x.1) 64) else o.s).bad = [] := by
    split
    · exact ⟨(noted ..).1, (noted ..).2.trans clean.bad⟩
    · exact ⟨rfl, clean.bad⟩
  generalize (if x.2.2 = true then o.s.note c.uid (.rmw (granuleOf x.1) 64) else o.s) = u at start ⊢
  obtain ⟨mem, bad⟩ := u.storeFor_spec c.uid x.1 x.2.1
  exact ⟨⟨rfl, bad.trans (State.bad_store_nil start.2 ..)⟩, by rw [mem, start.1]⟩

theorem Out.pieces_clean (c : Cmd) (ps : List (Nat × List Byte × Bool)) {o : Out} (clean : o.Clean) :
    (ps.foldl (Out.piece c) o).Clean ∧
      (ps.foldl (Out.piece c) o).s.mem = ps.foldl (fun m x => putBytes m x.1 x.2.1) o.s.mem := by
  induction ps generalizing o with
  | nil => exact ⟨clean, rfl⟩
  | cons x ps ih =>
    obtain ⟨next, mem⟩ := Out.piece_clean clean c x
    obtain ⟨last, rest⟩ := ih next
    exact ⟨last, by rw [List.foldl_cons, List.foldl_cons, rest, mem]⟩

/-- The pieces of a write together are the write. -/
theorem putBytes_writePieces (m : Sparse Byte) (a : Nat) (bs : List Byte) :
    (writePieces a bs).foldl (fun m x => putBytes m x.1 x.2.1) m = putBytes m a bs := by
  have filtered (ps : List (Nat × List Byte × Bool)) (m : Sparse Byte) :
      (ps.filter (fun x => !x.2.1.isEmpty)).foldl (fun m x => putBytes m x.1 x.2.1) m = ps.foldl (fun m x => putBytes m x.1 x.2.1) m := by
    induction ps generalizing m with
    | nil => rfl
    | cons x ps ih =>
      rw [List.filter_cons]
      split
      · rw [List.foldl_cons, List.foldl_cons, ih]
      next empty =>
        have none_ : x.2.1 = [] := by simpa using empty
        rw [List.foldl_cons, ih, none_]
        rfl
  unfold writePieces
  split
  · dsimp only
    rw [filtered]
    generalize lead : min bs.length ((64 - a % 64) % 64) = h
    generalize whole : (bs.length - h) / 64 * 64 = n
    have fits : h ≤ bs.length := by omega
    have inner : n ≤ bs.length - h := by omega
    have first : (bs.take h).length = h := by rw [List.length_take]; omega
    have second : ((bs.drop h).take n).length = n := by rw [List.length_take, List.length_drop]; omega
    simp only [List.foldl_cons, List.foldl_nil]
    have parts : bs = bs.take h ++ ((bs.drop h).take n ++ bs.drop (h + n)) := by
      rw [← List.drop_drop, List.take_append_drop, List.take_append_drop]
    conv_rhs => rw [parts, putBytes_append, putBytes_append, first, second]
  · rfl

theorem OnlyRequests.bad {s t : State} (h : OnlyRequests s t) : t.bad = s.bad := by rw [h]

theorem State.request_requests (s : State) (r : MemReq) : OnlyRequests s (s.request r) := by
  unfold State.request
  split <;> rfl

theorem OnlyRequests.requests (s : State) (uid p eg a n : Nat) (k : ReqKind) : OnlyRequests s (s.requests uid p eg a n k) := by
  unfold State.requests
  split
  · exact .foldl (fun u _ => u.request_requests _) _ s
  · exact .foldl (fun u _ => u.request_requests _) _ s
  · split
    · exact .refl s
    · rfl
  · exact .refl s

theorem OnlyRequests.moved (s : State) (p a n : Nat) : OnlyRequests s (s.moved p a n) := by
  unfold State.moved
  split
  · exact .refl s
  · rfl

theorem OnlyRequests.claimWrite (s : State) (c : Cmd) (join : Bool) (a n : Nat) : OnlyRequests s (s.claimWrite c join a n) := by
  unfold State.claimWrite
  split
  · exact (OnlyRequests.moved ..).trans (.requests ..)
  · exact (OnlyRequests.foldl (fun u _ => u.request_requests _) _ s).trans (.touch ..)

theorem OnlyRequests.claimAfter (s : State) (c : Cmd) (last : Option Nat) (a n : Nat) : OnlyRequests s (s.claimAfter c last a n) := by
  unfold State.claimAfter
  split
  · exact .refl s
  · split
    · exact (OnlyRequests.moved ..).trans (.requests ..)
    · exact .touch ..

/-- A put with no bad granule writes all its bytes. -/
theorem Out.put_clean {o : Out} (clean : o.Clean) (c : Cmd) (a : Nat) (bs : List Byte) :
    (o.put c false a bs).Clean ∧ (o.put c false a bs).s.mem = putBytes o.s.mem a bs := by
  obtain ⟨next, mem⟩ := Out.pieces_clean c (writePieces a bs) (o := ⟨o.s, none⟩) ⟨rfl, clean.bad⟩
  unfold Out.put
  rw [clean.fail]
  simp only [Option.isSome_none, Bool.false_eq_true, if_false]
  have claimed := OnlyRequests.claimWrite ((writePieces a bs).foldl (Out.piece c) ⟨o.s, none⟩).s c
  refine ⟨⟨next.fail, (claimed ..).bad.trans next.bad⟩, (claimed ..).mem.trans (mem.trans (putBytes_writePieces ..))⟩

/-! ## A row -/

theorem State.touchRead_tables (s : State) (c : Cmd) (a n : Nat) : (s.touchRead c a n).mem = s.mem ∧ (s.touchRead c a n).bad = s.bad := by
  have noted (u : State) : (u.noteRead c a n).mem = u.mem ∧ (u.noteRead c a n).bad = u.bad := by
    unfold State.noteRead State.note
    split
    iterate 3
      split
      · exact ⟨rfl, rfl⟩
      · split <;> exact ⟨rfl, rfl⟩
    exact ⟨rfl, rfl⟩
  have claimed := OnlyRequests.claimAfter s c (lastRead (s.trace c.uid)) a n
  exact ⟨(noted _).1.trans claimed.mem, (noted _).2.trans claimed.bad⟩

/-- The byte that a part of a row, copied from `a` to `t`, leaves at an address. -/
def State.copied (s : State) (a t : Nat) (ps : List (Nat × Nat)) (b : Nat) : Byte :=
  if ps.any (fun p => decide (t + p.1 ≤ b) && decide (b < t + p.1 + p.2)) then s.cell (a + (b - t)) else s.cell b

/-- The parts of a row that does not meet its source are copied. -/
theorem copyParts_clean {c : Cmd} {a t len : Nat} (device : ∀ k, k < len → OnDevice (a + k))
    (apart : overlaps a len t len = false) (ps : List (Nat × Nat)) (inside : ∀ p ∈ ps, p.1 + p.2 ≤ len) {o : Out} (clean : o.Clean) :
    (copyParts c false a t ps o).Clean ∧ ∀ b, (copyParts c false a t ps o).s.cell b = o.s.copied a t ps b := by
  induction ps generalizing o with
  | nil => exact ⟨clean, fun _ => rfl⟩
  | cons p ps ih =>
    obtain ⟨mem, bad⟩ := o.s.touchRead_tables c (a + p.1) p.2
    have fits := inside p (List.mem_cons_self ..)
    have good : (o.s.touchRead c (a + p.1) p.2).badIn (a + p.1) p.2 = none := by
      rw [State.badIn, bad, clean.bad]
      rfl
    obtain ⟨next, put⟩ := Out.put_clean (o := ⟨o.s.touchRead c (a + p.1) p.2, none⟩) ⟨rfl, bad.trans clean.bad⟩ c (t + p.1)
      ((o.s.touchRead c (a + p.1) p.2).read (a + p.1) p.2)
    have after (b : Nat) : (Out.put ⟨o.s.touchRead c (a + p.1) p.2, none⟩ c false (t + p.1)
        ((o.s.touchRead c (a + p.1) p.2).read (a + p.1) p.2)).s.cell b
          = if t + p.1 ≤ b ∧ b < t + p.1 + p.2 then o.s.cell (a + (b - t)) else o.s.cell b := by
      rw [State.cell, put, rd_putBytes, State.length_read]
      split
      next covered =>
        rw [State.getD_read _ _ _ _ (by omega), show a + p.1 + (b - (t + p.1)) = a + (b - t) from by omega,
          State.byteAt_eq _ (device _ (by omega))]
        exact State.cell_of_mem mem _
      next => exact State.cell_of_mem mem b
    have outside : t + len ≤ a ∨ a + len ≤ t ∨ len = 0 := by
      simp only [overlaps, Bool.and_eq_false_iff, decide_eq_false_iff_not] at apart
      omega
    obtain ⟨last, rest⟩ := ih (fun q mem => inside q (List.mem_cons_of_mem _ mem)) next
    have step : copyParts c false a t (p :: ps) o = copyParts c false a t ps (Out.put ⟨o.s.touchRead c (a + p.1) p.2, none⟩ c false
        (t + p.1) ((o.s.touchRead c (a + p.1) p.2).read (a + p.1) p.2)) := by
      rw [copyParts, clean.fail]
      simp only [Option.isSome_none, Bool.false_eq_true, if_false]
      rw [good]
    rw [step]
    refine ⟨last, fun b => ?_⟩
    rw [rest b, State.copied, State.copied, List.any_cons]
    by_cases later : ps.any (fun p => decide (t + p.1 ≤ b) && decide (b < t + p.1 + p.2)) = true
    · obtain ⟨q, mem, covers⟩ := List.any_eq_true.1 later
      have bound := inside q (List.mem_cons_of_mem _ mem)
      simp only [Bool.and_eq_true, decide_eq_true_eq] at covers
      rw [if_pos later, if_pos (by rw [later, Bool.or_true]), after, if_neg (by omega)]
    · rw [if_neg later, after]
      simp only [Bool.or_eq_true, later, Bool.and_eq_true, decide_eq_true_eq, Bool.false_eq_true, or_false]

/-- The length of the access units of an address's tier. -/
def unitLen (a : Nat) : Nat := match region a with | some .t2 => 4096 | _ => 2048

theorem unitLen_cases (a : Nat) : (unitLen a = 4096 ∧ region a = some .t2) ∨ (unitLen a = 2048 ∧ region a ≠ some .t2) := by
  unfold unitLen
  split
  next e => exact .inl ⟨rfl, e⟩
  next other => exact .inr ⟨rfl, other⟩

theorem mem_unitCuts {a n : Nat} {p : Nat × Nat} : p ∈ unitCuts a n ↔ n ≠ 0 ∧ ∃ i, i < (a + n - 1) / unitLen a - a / unitLen a + 1 ∧
    p = (max ((a / unitLen a + i) * unitLen a) a - a,
      min (a + n) (nextUnit ((a / unitLen a + i) * unitLen a)) - max ((a / unitLen a + i) * unitLen a) a) := by
  unfold unitCuts unitsOf
  by_cases empty : n = 0
  · simp [empty]
  · rw [if_neg empty]
    change p ∈ List.map _ (List.map (fun i => (a / unitLen a + i) * unitLen a) (List.range ((a + n - 1) / unitLen a - a / unitLen a + 1))) ↔ _
    simp only [List.mem_map, List.mem_range, exists_exists_and_eq_and, empty, ne_eq, not_false_eq_true, true_and]
    exact ⟨fun ⟨i, lt, e⟩ => ⟨i, lt, e.symm⟩, fun ⟨i, lt, e⟩ => ⟨i, lt, e.symm⟩⟩

theorem unitOf_eq (a : Nat) : unitOf a = a / unitLen a * unitLen a := by
  unfold unitOf
  rcases unitLen_cases a with ⟨len, tier⟩ | ⟨len, other⟩
  · rw [len, tier]
  · rw [len]
    split
    next tier => exact absurd tier other
    next => rfl

theorem nextUnit_eq (a : Nat) : nextUnit a = unitOf a + unitLen a := rfl

/-- A multiple of a unit's length starts a unit at least as long. -/
theorem le_nextUnit {u l : Nat} (start : l ∣ u) (len : l = 4096 ∧ region u = some .t2 ∨ l = 2048) : u + l ≤ nextUnit u := by
  rw [nextUnit_eq, unitOf_eq]
  obtain ⟨m, rfl⟩ := start
  rcases len with ⟨rfl, tier⟩ | rfl
  · obtain ⟨unit, -⟩ | ⟨-, other⟩ := unitLen_cases (4096 * m)
    · rw [unit]
      omega
    · exact absurd tier other
  · obtain ⟨unit, -⟩ | ⟨unit, -⟩ := unitLen_cases (2048 * m)
    · rw [unit]
      omega
    · rw [unit]
      omega

theorem region_t2_of_range {a : Nat} (h : t2Base ≤ a ∧ a < t2Base + 1536 * gib) : region a = some .t2 := by
  unfold t2Base gib at h
  rw [region, if_neg (by unfold gib; omega), if_pos (by unfold t2Base gib; omega)]

/-- Unit by unit a range is covered. -/
theorem unitCuts_cover {a n k : Nat} (h : k < n) (whole : region a = some .t2 → region (a + n - 1) = some .t2) :
    ∃ p ∈ unitCuts a n, p.1 ≤ k ∧ k < p.1 + p.2 := by
  have positive : 0 < unitLen a := by rcases unitLen_cases a with e | e <;> omega
  have first : a / unitLen a ≤ (a + k) / unitLen a := Nat.div_le_div_right (Nat.le_add_right ..)
  have last : (a + k) / unitLen a ≤ (a + n - 1) / unitLen a := Nat.div_le_div_right (by omega)
  have lo : (a + k) / unitLen a * unitLen a ≤ a + k := Nat.div_mul_le_self ..
  have hi : a + k < (a + k) / unitLen a * unitLen a + unitLen a := by
    have := Nat.lt_div_mul_add (a := a + k) positive
    omega
  refine ⟨_, mem_unitCuts.2 ⟨by omega, (a + k) / unitLen a - a / unitLen a, by omega, rfl⟩, ?_⟩
  rw [Nat.add_sub_cancel' first]
  have next : (a + k) / unitLen a * unitLen a + unitLen a ≤ nextUnit ((a + k) / unitLen a * unitLen a) := by
    refine le_nextUnit (Nat.dvd_mul_left ..) ?_
    rcases unitLen_cases a with ⟨len, r⟩ | ⟨len, -⟩
    · refine .inl ⟨len, region_t2_of_range ?_⟩
      obtain ⟨-, base, -⟩ := range_of_region_t2 r
      obtain ⟨-, -, top⟩ := range_of_region_t2 (whole r)
      rw [len] at lo ⊢
      unfold t2Base gib at *
      omega
    · exact .inr len
  dsimp only
  omega

theorem unitCuts_inside {a n : Nat} : ∀ p ∈ unitCuts a n, p.1 + p.2 ≤ n := by
  intro p mem
  obtain ⟨some_, i, lt, rfl⟩ := mem_unitCuts.1 mem
  have positive : 0 < unitLen a := by rcases unitLen_cases a with e | e <;> omega
  have starts : (a / unitLen a + i) * unitLen a ≤ a + n - 1 :=
    Nat.le_trans (Nat.mul_le_mul_right _ (by
      have : a / unitLen a ≤ (a + n - 1) / unitLen a := Nat.div_le_div_right (by omega)
      omega)) (Nat.div_mul_le_self (a + n - 1) (unitLen a))
  dsimp only
  omega

/-- A row that does not meet its source is copied, and nothing else changes. -/
theorem copyRow_clean {c : Cmd} {a t len : Nat} (device : ∀ k, k < len → OnDevice (a + k)) (apart : overlaps a len t len = false)
    (whole : region a = some .t2 → region (a + len - 1) = some .t2) {o : Out} (clean : o.Clean) :
    (copyParts c false a t (unitCuts a len) o).Clean ∧
      (∀ k, k < len → (copyParts c false a t (unitCuts a len) o).s.cell (t + k) = o.s.cell (a + k)) ∧
      ∀ b, ¬ (t ≤ b ∧ b < t + len) → (copyParts c false a t (unitCuts a len) o).s.cell b = o.s.cell b := by
  obtain ⟨next, cells⟩ := copyParts_clean (c := c) device apart (unitCuts a len) unitCuts_inside clean
  refine ⟨next, fun k h => ?_, fun b outside => ?_⟩
  · obtain ⟨p, mem, lo, hi⟩ := unitCuts_cover h whole
    rw [cells, State.copied, if_pos (List.any_eq_true.2 ⟨p, mem, by simp; omega⟩), Nat.add_sub_cancel_left]
  · rw [cells, State.copied, if_neg]
    intro covered
    obtain ⟨p, mem, covers⟩ := List.any_eq_true.1 covered
    have fits := unitCuts_inside p mem
    simp only [Bool.and_eq_true, decide_eq_true_eq] at covers
    omega

/-! ## The rows -/

/-- Rows to be copied, without gather or scatter: their sources lie in device memory, no source row meets a destination row, and
destination rows are apart. -/
structure RowsApart (x : Dma) (rows len : Nat) : Prop where
  gather : x.gather = false
  scatter : x.scatter = false
  device : ∀ r k, r < rows → k < len → OnDevice (x.src + r * x.srcLd + k)
  whole : ∀ r, r < rows → region (x.src + r * x.srcLd) = some .t2 → region (x.src + r * x.srcLd + len - 1) = some .t2
  meets : ∀ q r, q < rows → r < rows → overlaps (x.src + q * x.srcLd) len (x.dst + r * x.dstLd) len = false
  apart : rows ≤ 1 ∨ len ≤ x.dstLd

theorem RowsApart.rows {x : Dma} {rows len : Nat} (h : RowsApart x rows len) {q r j k : Nat} (hq : q < rows) (hr : r < rows)
    (hj : j < len) (hk : k < len) (other : q ≠ r) : x.dst + q * x.dstLd + j ≠ x.dst + r * x.dstLd + k := by
  rcases h.apart with one | far
  · omega
  · intro e
    rcases Nat.lt_or_gt_of_ne other with lt | gt
    · have := Nat.mul_le_mul_right x.dstLd (Nat.succ_le_of_lt lt)
      rw [Nat.succ_mul] at this
      omega
    · have := Nat.mul_le_mul_right x.dstLd (Nat.succ_le_of_lt gt)
      rw [Nat.succ_mul] at this
      omega

theorem copyRows_clean {c : Cmd} {x : Dma} {rows len : Nat} (h : RowsApart x rows len) (n : Nat) {r : Nat} (fits : r + n ≤ rows)
    {o : Out} (clean : o.Clean) :
    (copyRows c x false len n r o).Clean ∧
      (∀ q k, r ≤ q → q < r + n → k < len →
        (copyRows c x false len n r o).s.cell (x.dst + q * x.dstLd + k) = o.s.cell (x.src + q * x.srcLd + k)) ∧
      ∀ b, (∀ q, r ≤ q → q < r + n → ¬ (x.dst + q * x.dstLd ≤ b ∧ b < x.dst + q * x.dstLd + len)) →
        (copyRows c x false len n r o).s.cell b = o.s.cell b := by
  induction n generalizing r o with
  | zero => exact ⟨clean, fun q k lo hi => absurd hi (Nat.not_lt.2 lo), fun _ _ => rfl⟩
  | succ n ih =>
    have here : r < rows := by omega
    obtain ⟨first, copied, kept⟩ := copyRow_clean (c := c) (fun k => h.device r k here) (h.meets r r here here) (h.whole r here) clean
    obtain ⟨last, later, rest⟩ := ih (r := r + 1) (by omega) first
    have step : copyRows c x false len (n + 1) r o = copyRows c x false len n (r + 1)
        (copyParts c false (x.src + r * x.srcLd) (x.dst + r * x.dstLd) (unitCuts (x.src + r * x.srcLd) len) o) := by
      have whole : o = ⟨o.s, none⟩ := by rw [← clean.fail]
      rw [copyRows, clean.fail]
      simp only [Option.isSome_none, Dma.auxReads, State.auxStop, State.gatherStop, State.scatterStop, State.srcRow, State.dstRow,
        h.gather, h.scatter, Bool.or_false, Bool.false_eq_true, if_false, Bool.not_false, if_true]
      rw [State.noteReads, List.foldl_nil, ← whole]
    rw [step]
    refine ⟨last, fun q k lo hi hk => ?_, fun b outside => ?_⟩
    · rcases Nat.eq_or_lt_of_le lo with rfl | lt
      · rw [rest, copied k hk]
        intro p lo' hi' inside
        exact h.rows (q := r) (r := p) (j := k) (k := x.dst + r * x.dstLd + k - (x.dst + p * x.dstLd)) here (by omega) hk (by omega)
          (by omega) (by omega)
      · rw [later q k lt (by omega) hk, kept]
        have apart := h.meets q r (by omega) here
        simp only [overlaps, Bool.and_eq_false_iff, decide_eq_false_iff_not] at apart
        omega
    · rw [rest b fun q lo hi => outside q (by omega) (by omega), kept b (outside r (Nat.le_refl r) (by omega))]

/-! ## What the checks of a COPY say -/

theorem Verdict.higher_go {v w : Verdict} : v.higher w = .go ↔ v = .go ∧ w = .go := by
  cases v <;> cases w <;> simp [Verdict.higher]
  split <;> simp

theorem Verdict.first_go {vs : List Verdict} : Verdict.first vs = .go ↔ ∀ v ∈ vs, v = .go := by
  have go (u : Verdict) : vs.foldl Verdict.higher u = .go ↔ u = .go ∧ ∀ v ∈ vs, v = .go := by
    induction vs generalizing u with
    | nil => simp
    | cons v vs ih => rw [List.foldl_cons, ih, Verdict.higher_go, List.forall_mem_cons, and_assoc]
  rw [Verdict.first, go]
  simp

theorem Verdict.badIf_go {b : Bool} : Verdict.badIf b = .go ↔ b = false := by cases b <;> simp [Verdict.badIf]

theorem region_low {e : Nat} {r : Region} (h : region e = some r) (tier : r ≠ .regs) (host : ∀ d, r ≠ .t3 d) : e < 0x800000000000 := by
  by_contra high
  unfold region at h
  rw [if_neg (by unfold gib; omega), if_neg (by unfold t2Base gib; omega), if_neg (by unfold egBase gib; omega),
    if_neg (by unfold msBase mib; omega), if_neg (by unfold redBase mib; omega)] at h
  split_ifs at h
  · exact host 0 (Option.some.inj h).symm
  · exact host 1 (Option.some.inj h).symm
  · exact tier (Option.some.inj h).symm

theorem onDevice_low {b : Nat} (h : b < 0x800000000000) : OnDevice b := by
  intro d r
  unfold region at r
  dsimp only at r
  split_ifs at r <;> cases r <;> omega

theorem rangeRegion_some {a n : Nat} {r : Region} (h : rangeRegion a n = some r) : region a = some r ∧ region (a + n - 1) = some r := by
  unfold rangeRegion at h
  split at h
  next p q start stop =>
    split at h
    next same =>
      obtain rfl := Option.some.inj h
      exact ⟨start, same ▸ stop⟩
    next => cases h
  next => cases h

/-- A range in one tier that meets T2 goes on in T2. -/
theorem region_t2_within {a n q e : Nat} (tier : inAnyTier a n = true) (lo : a ≤ q) (mid : q ≤ e) (hi : e ≤ a + n - 1)
    (r : region q = some .t2) : region e = some .t2 := by
  obtain ⟨above, base, top⟩ := range_of_region_t2 r
  obtain ⟨r0, range⟩ : ∃ r0, rangeRegion a n = some r0 := by
    cases range : rangeRegion a n with
    | none => rw [inAnyTier, range] at tier; cases tier
    | some r0 => exact ⟨r0, rfl⟩
  obtain ⟨start, stop⟩ := rangeRegion_some range
  have place : a < 432 * gib ∨ (t2Base ≤ a ∧ a < t2Base + 1536 * gib) := by
    by_contra outside
    unfold t2Base gib at outside top
    unfold region at start
    rw [if_neg (by unfold gib; omega), if_neg (by unfold t2Base gib; omega), if_neg (by unfold egBase gib; omega),
      if_neg (by unfold msBase mib; omega), if_neg (by unfold redBase mib; omega), if_neg (by omega), if_neg (by omega),
      if_neg (by omega)] at start
    cases start
  rcases place with t1 | t2
  · have same : region a = some .t1 := if_pos t1
    obtain rfl := Option.some.inj (same.symm.trans start)
    have := lt_of_region_t1 stop
    omega
  · obtain rfl := Option.some.inj ((region_t2_of_range t2).symm.trans start)
    obtain ⟨-, -, last⟩ := range_of_region_t2 stop
    exact region_t2_of_range ⟨by omega, by omega⟩

/-- T0, T1 and T2 lie in the device. -/
theorem onDevice_of_inT0T1T2 {a n b : Nat} (tier : inT0T1T2 a n = true) (hi : b < a + n) : OnDevice b := by
  have low : a + n - 1 < 0x800000000000 := by
    unfold inT0T1T2 at tier
    split at tier
    next range => exact region_low (rangeRegion_some range).2 (by simp) (by simp)
    next range => exact region_low (rangeRegion_some range).2 (by simp) (by simp)
    next r _ _ range =>
      refine region_low (rangeRegion_some range).2 ?_ ?_
      · rintro rfl
        cases tier
      · rintro d rfl
        cases tier
    next => cases tier
  exact onDevice_low (by omega)

theorem inT0T1T2_of_inT0T1 {a n : Nat} (tier : inT0T1 a n = true) : inT0T1T2 a n = true := by
  unfold inT0T1 at tier
  unfold inT0T1T2
  split at tier
  next range => rw [range]
  next r other range =>
    rw [range]
    split
    next => rfl
    next => rfl
    next e => exact Option.some.inj e ▸ tier
    next e => cases e
  next => cases tier

/-! ## The bounds at issue -/

theorem State.issue_bad (s : State) (i : Issuer) (d : Decoded) : (s.issue i d).bad = s.bad := by
  have passed (u : State) : (u.pass i d).bad = u.bad := by cases i <;> rfl
  have reached (u : State) : (u.reachNext i).bad = u.bad := by
    cases i with
    | queue q => rfl
    | core eg c =>
      rw [State.reachNext]
      split <;> rfl
  have started (u : State) (p j : Nat) : (u.startEpisode p j).bad = u.bad := by
    unfold State.startEpisode
    split <;> rfl
  have squashed (u : State) (x : Bool) (f : Nat) : (if x then u.count F.cpStat_SQUASHCNT f 1 else u).bad = u.bad := by cases x <;> rfl
  have waits (u : State) (p j n : Nat) : (u.addWait p j n).bad = u.bad := rfl
  have first : (s.issueStart i d).bad = s.bad := by rw [State.issueStart_tables]
  have counted : (s.issueCounted i d).bad = s.bad := by
    unfold State.issueCounted
    dsimp only
    rw [started, waits, reached, squashed, passed, first]
  have inFlight (u : State) (c : Cmd) : (u.inFlight c).bad = u.bad := rfl
  rw [State.issue_eq, congrArg State.bad (State.settleJob_onlyRegs _ _ _).1, (State.issueTouch_requests ..).bad, inFlight, counted]

theorem OnlyBounds.bad {s t : State} (h : OnlyBounds s t) : t.bad = s.bad := by rw [h.units]

theorem State.firstOutside_of_regs {s t : State} (regs : ∀ n i, ¬ IssueReg n → t.reg n i = s.reg n i) (p a n : Nat) :
    t.firstOutside p a n = s.firstOutside p a n := by
  have fld (f : Fld) (other : ¬ IssueReg f.reg) (i : Nat) : t.fld f i = s.fld f i := State.fld_of_reg (regs _ i other)
  have part (eg : Nat) : t.egPart eg = s.egPart eg := by
    rw [State.egPart, State.egPart, State.blockPart, State.blockPart, regs .sysPartmap 0 (by rintro (e | e | e | e) <;> cases e)]
  have windowEnd (b : Nat) : t.windowEnd p b = s.windowEnd p b := by
    unfold State.windowEnd
    simp only [part, fld F.memT1win_BASE (by rintro (e | e | e | e) <;> cases e),
      fld F.memT1win_SIZE (by rintro (e | e | e | e) <;> cases e), fld F.memMswin_BASE (by rintro (e | e | e | e) <;> cases e),
      fld F.memMswin_SIZE (by rintro (e | e | e | e) <;> cases e), fld F.memT2win_BASE (by rintro (e | e | e | e) <;> cases e),
      fld F.memT2win_SIZE (by rintro (e | e | e | e) <;> cases e)]
  have go (fuel b e : Nat) : t.firstOutsideGo p fuel b e = s.firstOutsideGo p fuel b e := by
    induction fuel generalizing b with
    | zero => rfl
    | succ fuel ih => simp only [State.firstOutsideGo, windowEnd, ih]
  exact go ..

theorem State.read_of_bytes {s t : State} {a n : Nat} (same : ∀ k, k < n → t.byteAt (a + k) = s.byteAt (a + k)) :
    t.read a n = s.read a n := by
  induction n generalizing a with
  | zero => rfl
  | succ n ih =>
    have first : t.byteAt a = s.byteAt a := same 0 (Nat.zero_lt_succ n)
    have rest : t.read (a + 1) n = s.read (a + 1) n := ih fun k h => by
      have := same (k + 1) (Nat.succ_lt_succ h)
      rwa [Nat.add_assoc, Nat.add_comm 1 k]
    rw [State.read, State.read, first, rest]

theorem State.bound_of_issue {s t : State} (only : OnlyIssue s t) (bad : t.bad = s.bad) (p w : Nat) : t.bound p w = s.bound p w := by
  have addr : t.boundAddr p w = s.boundAddr p w := by
    rw [State.boundAddr, State.boundAddr, State.pair, State.pair, only.regs .cpBndbaseLo p (by rintro (e | e | e | e) <;> cases e),
      only.regs .cpBndbaseHi p (by rintro (e | e | e | e) <;> cases e)]
  have reg (i : Nat) : t.reg .cpBound i = s.reg .cpBound i := only.regs _ i (by rintro (e | e | e | e) <;> cases e)
  have word (tier : inT0T1 (s.boundAddr p w) 4 = true) : t.word (s.boundAddr p w) = s.word (s.boundAddr p w) := by
    have byte (k : Nat) (h : k < 4) : t.byteAt (s.boundAddr p w + k) = s.byteAt (s.boundAddr p w + k) :=
      State.byteAt_of_mem only.mem (onDevice_of_inT0T1T2 (inT0T1T2_of_inT0T1 tier) (by omega))
    have same : t.read (s.boundAddr p w) 4 = s.read (s.boundAddr p w) 4 := State.read_of_bytes byte
    rw [State.word, same, ← State.word]
  unfold State.bound
  rw [addr]
  split
  · rfl
  · simp only [reg]
  · dsimp only
    split
    · rfl
    next tier =>
      rw [State.firstOutside_of_regs only.regs, State.badIn, bad, ← State.badIn, word (by simpa using tier)]
  · rfl

/-- What a COPY that passes its checks says about its rows. -/
theorem State.copyCheck_go {s : State} {c : Cmd} (go : s.copyCheck c = .go) (plain : (Dma.of c.bytes).gather = false)
    (scatter : (Dma.of c.bytes).scatter = false) :
    let len := (s.dmaBounds c).1.get
    let rows := (s.dmaBounds c).2.get
    len ≠ 0 ∧ rows ≠ 0 ∧ inAnyTier (Dma.of c.bytes).src (span rows (Dma.of c.bytes).srcLd len) = true ∧
      inT0T1T2 (Dma.of c.bytes).dst (span rows (Dma.of c.bytes).dstLd len) = true := by
  intro len rows
  have all := Verdict.first_go.1 go
  simp only [List.forall_mem_cons, List.not_mem_nil, false_implies, implies_true, and_true] at all
  obtain ⟨-, lenGoes, rowsGo, tiers, nonempty⟩ := all
  have val {b : Bound} (h : b.verdict = .go) : b = .val b.get := by
    cases b with
    | val n => rfl
    | bad => cases h
    | quota a => cases h
    | ecc a => cases h
  have known {b : Bound} (h : b.verdict = .go) : b.known = true := by rw [val h]; rfl
  have filled : ¬ ((s.dmaBounds c).1 = .val 0 || (s.dmaBounds c).2 = .val 0) = true := by
    intro empty
    rw [empty] at nonempty
    cases nonempty
  have lenSome : len ≠ 0 := fun e => filled (by
    have zero : (s.dmaBounds c).1 = .val 0 := (val lenGoes).trans (congrArg Bound.val e)
    simp [zero])
  have rowsSome : rows ≠ 0 := fun e => filled (by
    have zero : (s.dmaBounds c).2 = .val 0 := (val rowsGo).trans (congrArg Bound.val e)
    simp [zero])
  have checked : ¬ (!((s.dmaBounds c).1.known && (s.dmaBounds c).2.known && decide (len ≠ 0) && decide (rows ≠ 0))) = true := by
    simp [known lenGoes, known rowsGo, lenSome, rowsSome]
  rw [if_neg checked] at tiers
  have each := Verdict.first_go.1 tiers
  simp only [List.forall_mem_cons] at each
  obtain ⟨source, target, -⟩ := each
  rw [Verdict.badIf_go, plain] at source
  rw [Verdict.badIf_go, scatter] at target
  exact ⟨lenSome, rowsSome, by simpa using source, by simpa using target⟩

/-- A COPY of rows that are apart copies each of them. -/
theorem State.runCopy_rows {s : State} {c : Cmd} {rows len : Nat} (bounds : (s.dmaBounds c).1.get = len ∧ (s.dmaBounds c).2.get = rows)
    (h : RowsApart (Dma.of c.bytes) rows len) (clean : s.bad = []) :
    let x := Dma.of c.bytes
    (∀ q k, q < rows → k < len → (s.runCopy c).cell (x.dst + q * x.dstLd + k) = s.cell (x.src + q * x.srcLd + k)) ∧
      ∀ b, (∀ q, q < rows → ¬ (x.dst + q * x.dstLd ≤ b ∧ b < x.dst + q * x.dstLd + len)) → (s.runCopy c).cell b = s.cell b := by
  intro x
  have apart : rangesMeet (s.srcRows x rows len) (s.dstRows x rows len) = false := by
    rw [rangesMeet, List.any_eq_false]
    intro p source
    rw [Bool.not_eq_true, List.any_eq_false]
    intro r target
    simp only [State.srcRows, State.dstRows, State.srcRow, State.dstRow, x, h.gather, h.scatter, Bool.false_eq_true, if_false,
      List.mem_map, List.mem_range] at source target
    obtain ⟨i, hi, rfl⟩ := source
    obtain ⟨j, hj, rfl⟩ := target
    rw [Bool.not_eq_true]
    exact h.meets i j hi hj
  have reads : s.claimReads c (x.auxRange rows) = s := by
    simp only [Dma.auxRange, x, h.gather, h.scatter, Bool.or_false, Bool.false_eq_true, if_false]
    rfl
  have mem : (s.runCopy c).mem = (copyRows c x false len rows 0 ⟨s, none⟩).s.mem := by
    unfold State.runCopy
    dsimp only
    rw [bounds.1, bounds.2, apart, reads]
    obtain ⟨done, -⟩ := copyRows_clean (c := c) h rows (r := 0) (by omega) (o := ⟨s, none⟩) ⟨rfl, clean⟩
    rw [Out.finish, done.fail]
    exact (OnlyFinish.finish ..).mem
  obtain ⟨-, copied, kept⟩ := copyRows_clean (c := c) h rows (r := 0) (by omega) (o := ⟨s, none⟩) ⟨rfl, clean⟩
  exact ⟨fun q k hq hk => (State.cell_of_mem mem _).trans (copied q k (Nat.zero_le q) (by omega) hk),
    fun b outside => (State.cell_of_mem mem b).trans (kept b fun q _ hq => outside q (by omega))⟩

end Sys2Proof.Machine

open Sys2Proof Sys2Proof.Machine

/-- Settles O29: the command issues with its bounds unchanged, and row after row its unit-sized parts are read and written. -/
theorem copyMovesTheRows : Obligations.CopyMovesTheRows := by
  unfold Obligations.CopyMovesTheRows
  intro s i d h clean x r len rows plain scatter meets apart device
  have settled : OnlyBounds s r := OnlyBounds.settleBounds s
  have only := r.issue_only i d
  have clean' : (r.issue i d).bad = [] := by
    rw [State.issue_bad, settled.bad, clean]
  have bounds (w : Nat) : (r.issue i d).bound (r.mkCmd i d).part w = r.bound (r.mkCmd i d).part w :=
    State.bound_of_issue only (r.issue_bad i d) _ w
  obtain ⟨lenSome, rowsSome, source, target⟩ : len ≠ 0 ∧ rows ≠ 0 ∧ inAnyTier x.src (span rows x.srcLd len) = true ∧
      inT0T1T2 x.dst (span rows x.dstLd len) = true := State.copyCheck_go h.checks plain scatter
  have lenIs : ((r.issue i d).dmaBounds (r.mkCmd i d)).1.get = len := congrArg Bound.get (bounds _)
  have rowsIs : ((r.issue i d).dmaBounds (r.mkCmd i d)).2.get = rows := congrArg Bound.get (bounds _)
  clear_value len rows
  have inSpan (ld q k : Nat) (hq : q < rows) (hk : k < len) : q * ld + k < span rows ld len := by
    have := Nat.mul_le_mul_right ld (Nat.le_sub_one_of_lt hq)
    rw [span, if_neg (by simp [lenSome, rowsSome])]
    omega
  have placed : RowsApart x rows len := by
    refine ⟨plain, scatter, fun q k hq hk => ?_, fun q hq t2 => ?_, meets, apart⟩
    · have inside := device (q * x.srcLd + k) (inSpan _ q k hq hk)
      rwa [← Nat.add_assoc] at inside
    · have last := inSpan x.srcLd q (len - 1) hq (by omega)
      exact region_t2_within source (q := x.src + q * x.srcLd) (by omega) (by omega) (by omega) t2
  obtain ⟨copied, kept⟩ := State.runCopy_rows (s := r.issue i d) (c := r.mkCmd i d) (rows := rows) (len := len)
    ⟨lenIs, rowsIs⟩ placed clean'
  have cell (b : Nat) : (r.issue i d).cell b = s.cell b := State.cell_of_mem (only.mem.trans settled.mem) b
  have runs : Runs (.dmaCopy i) s (s.issueRow i (isDma .copy) State.copyCheck State.runCopy) :=
    inRange_of h.exists_ (fun _ => .next (s.issueRow i (isDma .copy) State.copyCheck State.runCopy))
  rw [h.issueRow State.runCopy] at runs
  refine ⟨_, runs, fun q k hq hk => ?_, fun b inDevice outside => ?_⟩
  · have inTarget : OnDevice (x.dst + q * x.dstLd + k) :=
      onDevice_of_inT0T1T2 target (by have := inSpan x.dstLd q k hq hk; omega)
    rw [State.byteAt_eq _ inTarget, State.byteAt_eq _ (placed.device q k hq hk)]
    exact (copied q k hq hk).trans (cell _)
  · rw [State.byteAt_eq _ inDevice, State.byteAt_eq _ inDevice]
    exact (kept b outside).trans (cell b)

end

