-- ==== Sys2Proof/Proofs/SpringFirmware.lean ====
section
/-!
PROOFS. Spring of a partition whose firmware is longer than its area (R510, R521, R524).
-/

set_option Elab.async false

namespace Sys2Proof.Machine

open Sys2Proof

theorem State.clearEgs_sage (egs : List Nat) (s : State) : (egs.foldl (fun t eg => (t.clearCounters eg).emptySlots eg) s).sage = s.sage := by
  induction egs generalizing s with
  | nil => rfl
  | cons eg egs ih =>
    have registers (ns : List RegName) (u : State) : (ns.foldl (fun t n => t.setReg n eg 0#32) u).sage = u.sage := by
      induction ns generalizing u with
      | nil => rfl
      | cons n ns ih => rw [List.foldl_cons, ih, State.setReg_sage]
    have counters (u : State) : (u.clearCounters eg).sage = u.sage := by
      unfold State.clearCounters
      dsimp only
      rw [State.setFld_sage, registers]
    have slots (u : State) : (u.emptySlots eg).sage = u.sage := by
      unfold State.emptySlots
      rw [State.setReg_sage, State.setFld_sage, State.setFld_sage, State.dropTables]
    rw [List.foldl_cons, ih, slots, counters]

theorem State.loadSfu_mem (egs : List Nat) (s : State) : (s.loadSfu egs).mem = s.mem := by
  have tables (ks : List Nat) (u : State) (eg : Nat) : (ks.foldl (fun u k =>
      (u.setSfuTable eg k 0 (factoryTable k)).setSfuTable eg k 1 (factoryTable k)) u).mem = u.mem := by
    have written (u : State) (k c : Nat) (x : List Byte) : (u.setSfuTable eg k c x).mem = u.mem := rfl
    induction ks generalizing u with
    | nil => rfl
    | cons k ks ih => rw [List.foldl_cons, ih, written, written]
  unfold State.loadSfu
  induction egs generalizing s with
  | nil => rfl
  | cons eg egs ih =>
    rw [List.foldl_cons, ih, State.setFld_mem, tables]

/-- The Basil firmware that a state broadcasts. -/
def State.basilFirmware (s : State) : List Byte := (s.sage.image.map (fun m => m.comp 4)).getD []

/-- The engine group with the highest number gets its firmware last, whole. -/
theorem State.byteAt_springClear {s : State} {p k : Nat} (last : s.egPart 127 = some p) (h : k < s.basilFirmware.length)
    (device : OnDevice (cluBase 127 + 0xF0000 + k)) :
    (s.springClear p).byteAt (cluBase 127 + 0xF0000 + k) = s.basilFirmware.getD k 0x00#8 := by
  have egs : s.egsOf p = (List.range 127).filter (fun e => s.egPart e == some p) ++ [127] := by
    rw [State.egsOf, List.range_succ, List.filter_append, List.filter_cons_of_pos (by rw [last]; exact beq_self_eq_true _)]
    rfl
  unfold State.springClear
  dsimp only
  rw [State.byteAt_of_mem (State.loadSfu_mem ..) device, State.broadcast, State.clearEgs_sage]
  generalize List.foldl (fun (t : State) eg => (t.clearCounters eg).emptySlots eg) _ _ = u
  change (List.foldl (fun (t : State) eg => t.store (cluBase eg + 0xF0000) s.basilFirmware) u (s.egsOf p)).byteAt _ = _
  rw [egs, List.foldl_append, List.foldl_cons, List.foldl_nil, State.byteAt_store _ _ _ device, if_pos (by omega), Nat.add_sub_cancel_left]

/-- A die in Summer that gives block 7 to partition 7, in Winter, whose running image has one byte more of Basil firmware than its area
holds. -/
def overlongFirmware : State :=
  { (State.reset.setFld F.sysSeason_DIE 0 2).setFld F.sysPartmap_BLOCKS 0 0xF0000000 with
    sage := { Sage.reset with image := some ⟨0, [(4, List.replicate 0x4001 0x01#8)], []⟩ } }

end Sys2Proof.Machine

open Sys2Proof Sys2Proof.Machine

/-- Refutes O53: the statement is about every state, and one whose image holds more than 16 KiB of Basil firmware (which no image that
verified does, R521) broadcasts it past the firmware area, over cluster SRAM that Spring is to leave at 0. -/
theorem not_partitionsPassTheirSeasons : ¬ Obligations.PartitionsPassTheirSeasons := by
  unfold Obligations.PartitionsPassTheirSeasons
  intro h
  obtain ⟨bySage, -⟩ := h overlongFirmware 7 (by decide)
  have permits : Permits overlongFirmware .sage .sysPseason 7 := by decide +kernel
  have die : overlongFirmware.dieSeason = summer := by decide +kernel
  have season : overlongFirmware.season 7 = winter := by decide +kernel
  have owns : overlongFirmware.ownsBlock 7 = true := by decide +kernel
  obtain ⟨t, runs, -, zeroes, -⟩ := (bySage .sage permits).1 die season owns
  have zeroed : overlongFirmware.springZeroes 7 (cluBase 127 + 0xF0000 + 0x4000) = true := by decide +kernel
  have off : ¬ overlongFirmware.InRing (cluBase 127 + 0xF0000 + 0x4000) := by
    rintro ⟨f, host, enabled, -⟩
    have disabled : ∀ f, f < 18 → overlongFirmware.flag F.sysEvcfg_EN f = false := by decide +kernel
    rw [disabled f host] at enabled
    cases enabled
  have spring : Runs (.partitionSpring .sage 7) overlongFirmware
      ((overlongFirmware.setSeason 7 Machine.spring false).springClear 7) := by
    have reached := runs_permitted (k := overlongFirmware.reqSpring 7) (p := decide (7 < 8)) rfl permits
    rw [State.reqSpring, if_pos (by rw [die, season, owns]; rfl)] at reached
    exact reached
  have same : t = (overlongFirmware.setSeason 7 Machine.spring false).springClear 7 :=
    Host.Outcome.next.inj ((show exec _ _ = _ from runs).symm.trans spring)
  have events := State.event_onlyEvents (overlongFirmware.setFld F.sysPseason_SEASON 7 Machine.spring) evSeason St.ok (some 7) 7
    (Machine.spring + 256 * b2n false)
  have changed : overlongFirmware.setSeason 7 Machine.spring false
      = (overlongFirmware.setFld F.sysPseason_SEASON 7 Machine.spring).event evSeason St.ok (some 7) 7 (Machine.spring + 256 * b2n false) :=
    if_neg (by rw [season]; decide)
  have sage : (overlongFirmware.setSeason 7 Machine.spring false).sage = overlongFirmware.sage := by
    rw [changed, events.units]
    rfl
  have last : (overlongFirmware.setSeason 7 Machine.spring false).egPart 127 = some 7 := by
    have map : (overlongFirmware.setSeason 7 Machine.spring false).reg .sysPartmap 0 = 0xF0000000#32 := by
      rw [changed, events.regs .sysPartmap 0 (by simp [EventReg]) id]
      decide +kernel
    rw [State.egPart, State.blockPart, map]
    decide +kernel
  have firmware : (overlongFirmware.setSeason 7 Machine.spring false).basilFirmware = List.replicate 0x4001 0x01#8 := by
    rw [State.basilFirmware, sage]
    rfl
  have written := State.byteAt_springClear (k := 0x4000) last (by rw [firmware, List.length_replicate]; decide)
    (onDevice_low (by decide))
  rw [← same, zeroes _ zeroed off, firmware, List.getD_replicate _ (by decide)] at written
  exact absurd written (by decide)

end

