-- ==== Sys2Proof/Proofs/ListedTwice.lean ====
section
/-!
PROOFS. Resets of the compute die in a state whose register table lists a register twice. The first entry is what reads see; the reset
drops it when it holds the default (`Sparse.remap`), and the second one is read from then on.
-/

set_option Elab.async false

namespace Sys2Proof.Machine

open Sys2Proof

/-- A module about to power its blocks, whose register table lists SYS_SEASON twice: in Winter, and behind it in Summer. -/
def seasonTwice : State :=
  { State.reset with
    regs := [(regKey .bootStat 0, 6#32), (regKey .sysSeason 0, 0#32), (regKey .sysSeason 0, 2#32)]
    sage := { Sage.reset with phase := .ready } }

/-- A die whose register table lists SYS_PSEASON of partition 0 twice: in Winter, and behind it in Summer. -/
def partitionTwice : State :=
  { State.reset with regs := [(regKey .sysPseason 0, 0#32), (regKey .sysPseason 0, 2#32)] }

end Sys2Proof.Machine

open Sys2Proof Sys2Proof.Machine

/-- Refutes O54: the statement is about every state, in canonical form or not. A failing POWER_WAVE takes the die to Winter through
the drop of default entries, and where SYS_SEASON is listed twice its second entry, Summer, is read after it. -/
theorem not_bootStagesRunInOrder : ¬ Obligations.BootStagesRunInOrder := by
  unfold Obligations.BootStagesRunInOrder
  intro h
  obtain ⟨-, -, -, -, -, -, -, waves, -⟩ := h seasonTwice
  obtain ⟨-, t, runs, -, -, -, -, -, -, -, winters⟩ := waves (by decide +kernel)
  have fails : Runs (.powerWave false) seasonTwice (seasonTwice.bootFail 9 6) := by
    have ready : seasonTwice.stageReady 6 = true := by decide +kernel
    show Host.Outcome.next _ = _
    rw [if_pos ready]
    rfl
  have same : t = seasonTwice.bootFail 9 6 := Host.Outcome.next.inj ((show exec _ _ = _ from runs).symm.trans fails)
  have winter_ := winters (by decide)
  rw [same] at winter_
  exact absurd winter_ (by decide +kernel)

/-- Refutes O52: the statement is about every state, in canonical form or not. CRST_N honoured active leaves the season of a partition
that the register table lists twice, in Winter and behind it in Summer, at Summer. -/
theorem not_dieAndPortResetsAct : ¬ Obligations.DieAndPortResetsAct := by
  unfold Obligations.DieAndPortResetsAct
  rintro ⟨crst, -⟩
  obtain ⟨honoured, -⟩ := crst partitionTwice true
  obtain ⟨t, runs, -, -, -, acts⟩ := honoured (by decide +kernel) (by decide +kernel)
  have asserts : Runs .crstNAssert partitionTwice (partitionTwice.crstLevel true) := rfl
  have same : t = partitionTwice.crstLevel true := Host.Outcome.next.inj ((show exec _ _ = _ from runs).symm.trans asserts)
  obtain ⟨-, seasons, -⟩ := acts rfl
  have winter_ := seasons 0 (by decide)
  rw [same] at winter_
  exact absurd winter_ (by decide +kernel)

end

