-- ==== Sys2Proof/Proofs/ModuleResets.lean ====
section
/-!
PROOFS. Module resets and what releases them (R512, R514, R527, R532, R558 to R567).
-/

set_option Elab.async false

namespace Sys2Proof.Machine

open Sys2Proof

/-! ## The module in reset -/

/-- A state emptied by a module reset, with what it keeps of the state before. -/
structure Emptied (s t : State) : Prop where
  die : t.dieSeason = winter
  seasons : ∀ p, p < 8 → t.season p = winter
  mem : t.mem = []
  inflight : t.cp.inflight = []
  te : t.te = []
  cores : t.cores = []
  cycle : t.cycle = 0
  uds : t.sage.uds = s.sage.uds
  owner : t.sage.fuseOwn = s.sage.fuseOwn
  flash : t.sage.flash = s.sage.flash
  pending : t.pending = s.pending

theorem mapped_sysSeason : Mapped .sysSeason 0 :=
  Laws.Shape.mapped_of ⟨.sysSeason, 0, 1, 0x10004, 0x0⟩ (by decide +kernel) rfl (Nat.zero_le 0) (by decide)

/-- A register that no module reset keeps holds its Reset value after the drop. -/
theorem rd_drop_keptReg {boot : Bool} {n : RegName} {i : Nat} (m : Mapped n i) (gone : keptReg boot n.code = false) (regs : Sparse Word) :
    Sparse.rd regDefault (regKey n i) (Sparse.drop (fun k => !keptReg boot (k % 256)) regs) = regReset n i := by
  rw [Sparse.rd_drop, regKey_mod, gone]
  exact regDefault_regKey m

theorem Emptied.moduleReset (s : State) (boot : Bool) : Emptied s (s.moduleReset boot) := by
  refine ⟨?_, fun p h => ?_, rfl, rfl, rfl, rfl, rfl, rfl, rfl, rfl, rfl⟩
  · refine (State.fld_setFld_other _ F.sysSeason_CRSTHELD F.sysSeason_DIE 0 0 _ rfl).trans
      ((State.fld_setFld_other _ F.secStat_UDSLOCK F.sysSeason_DIE 0 0 _ rfl).trans ?_)
    have gone := rd_drop_keptReg (boot := boot) mapped_sysSeason (by cases boot <;> decide) s.regs
    exact (congrArg (fun w : Word => bits w.toNat 0 2) gone :)
  · refine (State.fld_setFld_other _ F.sysSeason_CRSTHELD F.sysPseason_SEASON 0 p _ rfl).trans
      ((State.fld_setFld_other _ F.secStat_UDSLOCK F.sysPseason_SEASON 0 p _ rfl).trans ?_)
    have gone := rd_drop_keptReg (boot := boot) (Laws.Shape.mapped_sysPseason h) (by cases boot <;> decide) s.regs
    have zero : regReset .sysPseason p = 0#32 := by simp [regReset, RegName.resetWord]
    rw [zero] at gone
    exact (congrArg (fun w : Word => bits w.toNat 0 2) gone :)

/-- A write of a field apart from the seasons. -/
theorem Emptied.setFld {s t : State} (h : Emptied s t) (f : Fld) (i v : Nat)
    (apart : (f.fits && (F.sysSeason_DIE.reg != f.reg || f.apart F.sysSeason_DIE)) = true)
    (other : (f.fits && (F.sysPseason_SEASON.reg != f.reg || f.apart F.sysPseason_SEASON)) = true) : Emptied s (t.setFld f i v) :=
  ⟨(State.fld_setFld_other t f F.sysSeason_DIE i 0 v apart).trans h.die,
    fun p hp => (State.fld_setFld_other t f F.sysPseason_SEASON i p v other).trans (h.seasons p hp),
    h.mem, h.inflight, h.te, h.cores, h.cycle, h.uds, h.owner, h.flash, h.pending⟩

/-- What a reset emptied is empty in a state with the same registers, memory and units. -/
theorem Emptied.of_units {s t u : State} (h : Emptied s t) (regs : u.regs = t.regs) (mem : u.mem = t.mem) (cp : u.cp = t.cp)
    (te : u.te = t.te) (cores : u.cores = t.cores) (cycle : u.cycle = t.cycle) (uds : u.sage.uds = t.sage.uds)
    (owner : u.sage.fuseOwn = t.sage.fuseOwn) (flash : u.sage.flash = t.sage.flash) (pending : u.pending = t.pending) : Emptied s u :=
  ⟨(State.fld_of_regs regs F.sysSeason_DIE 0).trans h.die,
    fun p hp => (State.fld_of_regs regs F.sysPseason_SEASON p).trans (h.seasons p hp), mem.trans h.mem,
    (congrArg CpState.inflight cp).trans h.inflight, te.trans h.te, cores.trans h.cores, cycle.trans h.cycle, uds.trans h.uds,
    owner.trans h.owner, flash.trans h.flash, pending.trans h.pending⟩

theorem Emptied.setBoard {s t : State} (h : Emptied s t) (b : Board) : Emptied s (t.setBoard b) :=
  h.of_units rfl rfl rfl rfl rfl rfl rfl rfl rfl rfl

theorem Emptied.settleAlert {s t : State} (h : Emptied s t) : Emptied s t.settleAlert := by
  unfold State.settleAlert
  split
  · exact h
  · exact h.of_units rfl rfl rfl rfl rfl rfl rfl rfl rfl rfl

theorem State.enterStage_regs (s : State) (n : Nat) :
    (s.enterStage n).regs = ((s.setFld F.bootStat_STAGE 0 n).setFld F.bootStat_STEPWAIT 0 (b2n (s.flag F.bootCtl_STEP 0))).regs := by
  simp only [State.enterStage]

/-- A write of a field changes the registers alone. -/
theorem State.setFld_regs (s : State) (f : Fld) (i v : Nat) : ∃ regs, s.setFld f i v = { s with regs := regs } := ⟨_, rfl⟩

/-- Entering a stage writes registers and Sage's phase alone. -/
theorem State.enterStage_units (s : State) (n : Nat) : ∃ regs,
    s.enterStage n = { s with regs := regs, sage := { s.sage with phase := if s.flag F.bootCtl_STEP 0 then .stepWait else .ready } } := by
  obtain ⟨r1, e1⟩ := s.setFld_regs F.bootStat_STAGE 0 n
  obtain ⟨r2, e2⟩ := State.setFld_regs { s with regs := r1 } F.bootStat_STEPWAIT 0 (b2n (s.flag F.bootCtl_STEP 0))
  refine ⟨r2, ?_⟩
  simp only [State.enterStage]
  rw [e1, e2]

theorem Emptied.enterStage {s t : State} (h : Emptied s t) (n : Nat) : Emptied s (t.enterStage n) := by
  have staged := (h.setFld F.bootStat_STAGE 0 n rfl rfl).setFld F.bootStat_STEPWAIT 0 (b2n (t.flag F.bootCtl_STEP 0)) rfl rfl
  have regs := State.enterStage_regs t n
  obtain ⟨r, e⟩ := State.enterStage_units t n
  rw [e] at regs ⊢
  exact ⟨(State.fld_of_regs regs F.sysSeason_DIE 0).trans staged.die,
    fun p hp => (State.fld_of_regs regs F.sysPseason_SEASON p).trans (staged.seasons p hp),
    h.mem, h.inflight, h.te, h.cores, h.cycle, h.uds, h.owner, h.flash, h.pending⟩

theorem Emptied.tryStart {s t : State} (h : Emptied s t) : Emptied s t.tryStart := by
  have ticked : Emptied s { t with tick := 0 } := h.of_units rfl rfl rfl rfl rfl rfl rfl rfl rfl rfl
  unfold State.tryStart
  split
  · exact ticked.enterStage 0
  · exact h

/-- What a reset empties depends on the fuses, the flash and the waiting commands alone. -/
theorem Emptied.of_kept {r s t : State} (h : Emptied s t) (uds : s.sage.uds = r.sage.uds) (owner : s.sage.fuseOwn = r.sage.fuseOwn)
    (flash : s.sage.flash = r.sage.flash) (pending : s.pending = r.pending) : Emptied r t :=
  ⟨h.die, h.seasons, h.mem, h.inflight, h.te, h.cores, h.cycle, h.uds.trans uds, h.owner.trans owner, h.flash.trans flash,
    h.pending.trans pending⟩

/-! ## The resets -/

theorem State.settleAlert_regs (s : State) : s.settleAlert.regs = s.regs := by
  unfold State.settleAlert
  split <;> rfl

/-- A reset leaves its cause set. -/
theorem State.fld_cause {s t : State} {f : Fld} (regs : t.regs = (s.setFld f 0 1).regs) (fits : f.fits = true) (one : f.width = 1) :
    t.fld f 0 = 1 := by
  rw [State.fld_of_regs regs, State.fld_setFld_same s f 0 1 fits, one]
  rfl

theorem State.pinReset_spec (s : State) : Emptied s s.pinReset ∧ s.pinReset.fld F.sysRstcause_PIN 0 = 1 := by
  have start := (Emptied.moduleReset { s with sage := { s.sage with failed := false } } true).of_kept (r := s) rfl rfl rfl rfl
  simp only [State.pinReset]
  generalize State.moduleReset _ true = s1 at start ⊢
  have set := (start.setFld F.bootStat_ATTEMPTS 0 0 rfl rfl).setFld F.sysRstcause_PIN 0 1 rfl rfl
  generalize s1.setFld F.bootStat_ATTEMPTS 0 0 = s2 at set ⊢
  have cause : (s2.setFld F.sysRstcause_PIN 0 1).fld F.sysRstcause_PIN 0 = 1 := State.fld_cause rfl rfl rfl
  exact ⟨(set.setBoard _).settleAlert, (State.fld_of_regs (State.settleAlert_regs _) F.sysRstcause_PIN 0).trans cause⟩

theorem State.pwrgoodReset_spec (s : State) :
    let s1 := (s.moduleReset false).setFld F.sysRstcause_POWER 0 1
    let t := (s1.setBoard { s1.board with pwrgood := false }).settleAlert
    Emptied s t ∧ t.fld F.sysRstcause_POWER 0 = 1 := by
  have set := (Emptied.moduleReset s false).setFld F.sysRstcause_POWER 0 1 rfl rfl
  exact ⟨(set.setBoard _).settleAlert, State.fld_cause (State.settleAlert_regs _) rfl rfl⟩

theorem State.railsOff_spec (s : State) (why : Shut) :
    Emptied s (s.railsOff why) ∧ (s.railsOff why).fld F.sysRstcause_POWER 0 = 1 := by
  have set := (Emptied.moduleReset s false).setFld F.sysRstcause_POWER 0 1 rfl rfl
  unfold State.railsOff
  exact ⟨(set.setBoard _).setFld F.sysSeason_CRSTHELD 0 0 rfl rfl,
    (State.fld_setFld_other _ F.sysSeason_CRSTHELD F.sysRstcause_POWER 0 0 0 rfl).trans (State.fld_cause rfl rfl rfl)⟩

theorem State.criticalIo_spec (s : State) : Emptied s s.criticalIo ∧ s.criticalIo.fld F.sysRstcause_IOTEMP 0 = 1 := by
  have set := (Emptied.moduleReset s true).setFld F.sysRstcause_IOTEMP 0 1 rfl rfl
  unfold State.criticalIo
  exact ⟨set.setBoard _, State.fld_cause rfl rfl rfl⟩

theorem State.oscillatorLoss_emptied (s : State) : Emptied s ((s.moduleReset true).setBoard { s.board with osc := false }) :=
  (Emptied.moduleReset s true).setBoard _

/-- An event record leaves Sage and the waiting commands as they are. -/
theorem State.event_sagePending (s : State) (code : Nat) (status : Byte) (part : Option Nat) (a0 a1 : Nat) :
    (s.event code status part a0 a1).sage = s.sage ∧ (s.event code status part a0 a1).pending = s.pending := by
  have posted := s.event_onlyEvents code status part a0 a1
  exact ⟨(congrArg State.sage posted.units :), (congrArg State.pending posted.units :)⟩

/-- Raising ALERT_N leaves the fuses, the flash and the waiting commands as they are. -/
theorem State.raiseAlert_kept (s : State) : s.raiseAlert.sage.uds = s.sage.uds ∧ s.raiseAlert.sage.fuseOwn = s.sage.fuseOwn ∧
    s.raiseAlert.sage.flash = s.sage.flash ∧ s.raiseAlert.pending = s.pending := by
  unfold State.raiseAlert
  split
  · exact ⟨rfl, rfl, rfl, rfl⟩
  · dsimp only
    split <;> exact ⟨rfl, rfl, rfl, rfl⟩

theorem State.hotStage_spec (s : State) (sensor temp : Nat) :
    Emptied s (s.draw.criticalEvent sensor temp).criticalIo ∧ (s.draw.criticalEvent sensor temp).criticalIo.fld F.sysRstcause_IOTEMP 0 = 1 := by
  obtain ⟨emptied, cause⟩ := (s.draw.criticalEvent sensor temp).criticalIo_spec
  refine ⟨?_, cause⟩
  generalize raised : ({ s.draw with sage := { s.draw.sage with critical := true } } : State).raiseAlert = r
  have kept := State.raiseAlert_kept { s.draw with sage := { s.draw.sage with critical := true } }
  rw [raised] at kept
  obtain ⟨uds, owner, flash, pending⟩ := kept
  obtain ⟨sage, waiting⟩ := r.event_sagePending evThermal St.ok none sensor temp
  have posted : s.draw.criticalEvent sensor temp = r.event evThermal St.ok none sensor temp := by
    rw [State.criticalEvent, raised]
  rw [posted] at emptied ⊢
  exact emptied.of_kept ((congrArg Sage.uds sage).trans uds) ((congrArg Sage.fuseOwn sage).trans owner)
    ((congrArg Sage.flash sage).trans flash) (waiting.trans pending)

theorem State.fld_enterStage {s : State} (n : Nat) (f : Fld) (i : Nat)
    (stage : (F.bootStat_STAGE.fits && (f.reg != F.bootStat_STAGE.reg || F.bootStat_STAGE.apart f)) = true)
    (wait : (F.bootStat_STEPWAIT.fits && (f.reg != F.bootStat_STEPWAIT.reg || F.bootStat_STEPWAIT.apart f)) = true) :
    (s.enterStage n).fld f i = s.fld f i := by
  rw [State.fld_of_regs (State.enterStage_regs s n), State.fld_setFld_other _ F.bootStat_STEPWAIT f 0 i _ wait,
    State.fld_setFld_other _ F.bootStat_STAGE f 0 i _ stage]

theorem State.fld_tryStart {s : State} (f : Fld) (i : Nat)
    (stage : (F.bootStat_STAGE.fits && (f.reg != F.bootStat_STAGE.reg || F.bootStat_STAGE.apart f)) = true)
    (wait : (F.bootStat_STEPWAIT.fits && (f.reg != F.bootStat_STEPWAIT.reg || F.bootStat_STEPWAIT.apart f)) = true) :
    s.tryStart.fld f i = s.fld f i := by
  unfold State.tryStart
  split
  · exact (State.fld_enterStage 0 f i stage wait).trans (State.fld_of_regs rfl f i)
  · rfl

theorem State.watchdogReset_spec (s : State) (stage : Nat) :
    let t := ((((s.moduleReset true).setFld F.sysRstcause_WATCHDOG 0 1).setFld F.bootStat_CAUSE 0 11).setFld F.bootStat_FSTAGE 0
      stage).tryStart
    Emptied s t ∧ t.fld F.sysRstcause_WATCHDOG 0 = 1 := by
  have set := (((Emptied.moduleReset s true).setFld F.sysRstcause_WATCHDOG 0 1 rfl rfl).setFld F.bootStat_CAUSE 0 11 rfl rfl).setFld
    F.bootStat_FSTAGE 0 stage rfl rfl
  refine ⟨set.tryStart, (State.fld_tryStart F.sysRstcause_WATCHDOG 0 rfl rfl).trans ?_⟩
  rw [State.fld_setFld_other _ F.bootStat_FSTAGE F.sysRstcause_WATCHDOG 0 0 _ rfl,
    State.fld_setFld_other _ F.bootStat_CAUSE F.sysRstcause_WATCHDOG 0 0 _ rfl]
  exact State.fld_cause rfl rfl rfl

/-! ## What releases a held module -/

theorem State.tryStart_mem (s : State) : s.tryStart.mem = s.mem := by
  unfold State.tryStart
  split <;> rfl

theorem State.tryStart_board (s : State) : s.tryStart.board = s.board := by
  unfold State.tryStart
  split <;> rfl

/-- An attempt begins at stage 0 with TIME at 0, before which Sage waits under STEP. -/
theorem State.tryStart_started {s : State} (runs : s.board.runs = true) (held : s.sage.phase = .held) :
    s.tryStart.tick = 0 ∧ s.tryStart.fld F.bootStat_STAGE 0 = 0 ∧
      s.tryStart.sage.phase = if s.flag F.bootCtl_STEP 0 then .stepWait else .ready := by
  have start : s.tryStart = { s with tick := 0 }.enterStage 0 := if_pos (by rw [runs, held]; rfl)
  rw [start]
  refine ⟨rfl, ?_, rfl⟩
  rw [State.fld_of_regs (State.enterStage_regs _ 0), State.fld_setFld_other _ F.bootStat_STEPWAIT F.bootStat_STAGE 0 0 _ rfl,
    State.fld_setFld_same _ F.bootStat_STAGE 0 0 rfl]
  rfl

theorem State.tryStart_idle {s : State} (h : s.board.runs = false ∨ s.sage.phase ≠ .held) : s.tryStart = s := by
  refine if_neg fun both => ?_
  rw [Bool.and_eq_true, beq_iff_eq] at both
  exact h.elim (fun off => Bool.noConfusion (off.symm.trans both.1)) (fun other => other both.2)

/-- What the release of an input does. -/
theorem State.release_spec (s : State) (b : Board) :
    (s.setBoard b).tryStart.board = b ∧ KeepsBytes s (s.setBoard b).tryStart ∧
      (b.runs = true → s.sage.phase = .held → (s.setBoard b).tryStart.tick = 0 ∧ (s.setBoard b).tryStart.fld F.bootStat_STAGE 0 = 0 ∧
        (s.setBoard b).tryStart.sage.phase = if s.flag F.bootCtl_STEP 0 then .stepWait else .ready) ∧
      (b.runs = false ∨ s.sage.phase ≠ .held → (s.setBoard b).tryStart = { s with board := b }) :=
  ⟨State.tryStart_board _, KeepsBytes.of_mem (State.tryStart_mem (s.setBoard b)),
    fun runs held => State.tryStart_started (s := s.setBoard b) runs held,
    fun idle => State.tryStart_idle (s := s.setBoard b) idle⟩

end Sys2Proof.Machine

open Sys2Proof Sys2Proof.Machine

/-- Settles O51: each input empties the module and leaves its cause, and an input released starts an attempt once all of them let the
module run. -/
theorem moduleResetsAndReleases : Obligations.ModuleResetsAndReleases := by
  refine ⟨fun s c cause reset => ?_, fun s ns short => ?_, fun s c b release => ?_⟩
  · have finish {t : State} (runs : Runs c s t) (empty : Emptied s t) (left : ∀ f, cause = some f → t.fld f 0 = 1) :
        ∃ t, Runs c s t ∧ t.dieSeason = winter ∧ (∀ p, p < 8 → t.season p = winter) ∧ (∀ a, OnDevice a → t.byteAt a = 0x00#8) ∧
          t.cp.inflight = [] ∧ t.te = [] ∧ t.cores = [] ∧ t.cycle = 0 ∧ (∀ f, cause = some f → t.fld f 0 = 1) ∧
          t.sage.uds = s.sage.uds ∧ t.sage.fuseOwn = s.sage.fuseOwn ∧ t.sage.flash = s.sage.flash ∧ t.pending = s.pending :=
      ⟨t, runs, empty.die, empty.seasons, fun a device => by rw [t.byteAt_eq device, empty.mem]; rfl, empty.inflight, empty.te,
        empty.cores, empty.cycle, left, empty.uds, empty.owner, empty.flash, empty.pending⟩
    have named {t : State} {f : Fld} (set : t.fld f 0 = 1) : ∀ g, some f = some g → t.fld g 0 = 1 :=
      fun g e => Option.some.inj e ▸ set
    obtain ⟨ns, long, rfl, rfl⟩ | ⟨good, rfl, rfl⟩ | ⟨power, rfl⟩ | ⟨osc, rfl, rfl⟩ | ⟨cool, rfl, rfl⟩ | ⟨started, rfl, rfl⟩ := reset
    case inl =>
      obtain ⟨empty, left⟩ := s.draw.pinReset_spec
      have pulse : s.resetPulse ns = s.draw.pinReset := by
        rw [State.resetPulse, if_neg (by omega), if_neg (by omega)]
      exact finish (congrArg Host.Outcome.next pulse) (empty.of_kept rfl rfl rfl rfl) (named left)
    case inr.inl =>
      obtain ⟨empty, left⟩ := s.pwrgoodReset_spec
      exact finish (congrArg Host.Outcome.next (if_pos good)) empty (named left)
    case inr.inr.inl =>
      have off (why : Shut) (runs : Runs c s (s.railsOff why)) := finish runs (s.railsOff_spec why).1 (named (s.railsOff_spec why).2)
      obtain rfl | rfl | rfl := power
      · exact off .under rfl
      · exact off .overvolt rfl
      · exact off .current rfl
    case inr.inr.inr.inl =>
      exact finish (congrArg Host.Outcome.next (if_pos osc)) s.oscillatorLoss_emptied (fun g e => nomatch e)
    case inr.inr.inr.inr.inl =>
      obtain ⟨empty, left⟩ := s.hotStage_spec (Config.freeNat s.free 0) (Config.freeNat s.free 1)
      exact finish (congrArg Host.Outcome.next (if_neg (by rw [cool]; exact Bool.false_ne_true))) empty (named left)
    case inr.inr.inr.inr.inr =>
      obtain ⟨empty, left⟩ := s.watchdogReset_spec (s.fld F.bootStat_STAGE 0)
      exact finish (congrArg Host.Outcome.next (if_neg started)) empty (named left)
  · exact congrArg Host.Outcome.next (if_pos short)
  · have shut {why : Shut} (e : s.board.shut = some why) : s.railsOn why = (s.setBoard { s.board with shut := none }).tryStart := if_pos e
    obtain ⟨rfl, rfl⟩ | ⟨rfl, rfl⟩ | ⟨rfl, rfl⟩ | ⟨rfl, rfl⟩ | ⟨rfl, low, rfl⟩ | ⟨rfl, much, rfl⟩ | ⟨rfl, high, rfl⟩ := release
    · exact ⟨_, rfl, s.release_spec _⟩
    · exact ⟨_, rfl, s.release_spec _⟩
    · exact ⟨_, rfl, s.release_spec _⟩
    · exact ⟨_, rfl, s.release_spec _⟩
    · exact ⟨_, congrArg Host.Outcome.next (shut low), s.release_spec _⟩
    · exact ⟨_, congrArg Host.Outcome.next (shut much), s.release_spec _⟩
    · exact ⟨_, congrArg Host.Outcome.next (shut high), s.release_spec _⟩

end

