-- ==== Sys2Proof/Proofs/LongSources.lean ====
section
/-!
PROOFS. An echo request from a source address that no IPv4 packet has (R389, R391).
-/

set_option Elab.async false

namespace Sys2Proof.Machine

open Sys2Proof

/-- An echo request whose source address has 1,300 bytes, to an IPv4 address. -/
def longSourceEcho : RxPkt := ⟨2, [], List.replicate 1300 0x00#8, [0x0A#8, 0x00#8, 0x00#8, 0x01#8], false, 0, List.replicate 4 0x00#8⟩

/-- Port 0 is up with an MTU of 1,280 and holds that echo request. -/
def longSource : State :=
  { State.reset with
    regs := [(regKey .ethStat 0, BitVec.ofNat 32 (2 ^ F.ethStat_UP.lo))]
    eth := [(0, { EthPort.reset with cfg := BitVec.ofNat 32 (1280 * 16), addrs := [longSourceEcho.dst], rx := [longSourceEcho] })] }

/-- The answer would have to carry the 1,300 bytes, more than the MTU, so the port sends nothing. -/
theorem longSource_silent : (match exec (.echoRequest 0) longSource with | .next t => t.out.isEmpty | _ => false) = true := by
  decide +kernel

end Sys2Proof.Machine

open Sys2Proof Sys2Proof.Machine

/-- Refutes O44: the clause on echo requests for an IPv4 address says nothing of the length of the source address, which the answer
carries as its destination; with one of 1,300 bytes the answer is above the MTU and no packet goes out (R389). A classified frame
always has addresses of one length. -/
theorem not_ethernetPortsAnswer : ¬ Obligations.EthernetPortsAnswer := by
  intro holds
  obtain ⟨-, answers, -⟩ := holds longSource 0 (by decide)
  have up : longSource.ethUp 0 = true := by decide +kernel
  obtain ⟨t, raw, runs, -, sent, -⟩ := answers up longSourceEcho (.echoRequest 0)
    (.inr (.inr ⟨rfl, by decide +kernel, by decide +kernel, by decide +kernel, by decide +kernel, .inl (by decide +kernel)⟩))
  have silent := longSource_silent
  rw [runs] at silent
  have empty := List.isEmpty_iff.mp silent
  rw [sent] at empty
  exact List.append_ne_nil_of_right_ne_nil _ (List.cons_ne_nil _ _) empty

end

