-- ==== Sys2Proof/Proofs/Limiters.lean ====
section
/-!
PROOFS. Energy samples, the fast and thermal limiters, the compute clock and supply sag (R477, R478, R486, R487, R490, R493).
-/

set_option Elab.async false

namespace Sys2Proof.Machine

open Sys2Proof

/-! ## The division of a sample -/

theorem sum_floors_mul (m total : Nat) (l : List Nat) : (l.map fun a => m * a / total).sum * total ≤ m * l.sum := by
  induction l with
  | nil => exact Nat.le_of_eq (Nat.zero_mul total)
  | cons a l ih =>
    rw [List.map_cons, List.sum_cons, List.sum_cons, Nat.add_mul, Nat.mul_add]
    exact Nat.add_le_add (Nat.div_mul_le_self (m * a) total) ih

/-- The rounded-down shares never exceed the energy. -/
theorem sum_floors_le (m : Nat) (act : List Nat) : (act.map fun a => m * a / act.sum).sum ≤ m := by
  obtain zero | pos := act.sum.eq_zero_or_pos
  · simp [zero]
  · exact Nat.le_of_mul_le_mul_right (sum_floors_mul m act.sum act) pos

theorem sum_set_add (l : List Nat) (i r : Nat) (h : i < l.length) : (l.set i (l.getD i 0 + r)).sum = l.sum + r := by
  induction l generalizing i with
  | nil => exact absurd h (Nat.not_lt_zero i)
  | cons x xs ih =>
    cases i with
    | zero => rw [List.set_cons_zero, List.getD_cons_zero, List.sum_cons, List.sum_cons, Nat.add_right_comm]
    | succ i =>
      rw [List.set_cons_succ, List.getD_cons_succ, List.sum_cons, List.sum_cons, ih i (Nat.lt_of_succ_lt_succ h), Nat.add_assoc]

/-- The shares of nine accounts add up to the energy: what the division leaves goes to account 8 (R478). -/
theorem sum_shares (m : Nat) (act : List Nat) (nine : act.length = 9) : (shares m act).sum = m := by
  have fold (l : List Nat) : l.foldl (fun x y => x + y) 0 = l.sum := List.sum_eq_foldl_nat.symm
  simp only [shares, fold]
  rw [sum_set_add _ 8 _ (by rw [List.length_map, nine]; decide)]
  exact Nat.add_sub_cancel' (sum_floors_le m act)

theorem length_shares (m : Nat) (act : List Nat) : (shares m act).length = act.length := by
  simp only [shares, List.length_set, List.length_map]

theorem Power.length_sampleAct (p : Power) : p.sampleAct.length = 9 := by
  rw [Power.sampleAct, List.length_map, List.length_range]

theorem getD_le_getD_zipWith_add (l k : List Nat) (same : l.length = k.length) (a : Nat) :
    l.getD a 0 ≤ (l.zipWith (fun x y => x + y) k).getD a 0 := by
  induction l generalizing k a with
  | nil => exact Nat.zero_le _
  | cons x l ih =>
    cases k with
    | nil => cases same
    | cons y k =>
      cases a with
      | zero => exact Nat.le_add_right x y
      | succ a => exact ih k (Nat.succ.inj same) a

/-! ## Levels -/

theorem State.fld_setFld_level (s : State) {f : Fld} (fits : f.fits = true) {i v : Nat} (h : v < 2 ^ f.width) :
    (s.setFld f i v).fld f i = v := by
  rw [State.fld_setFld_same s f i v fits, Nat.mod_eq_of_lt h]

/-- A limiter's new level with its new counts. -/
theorem State.setLevel_spec (s : State) (p : Power) {f : Fld} (fits : f.fits = true) (i : Nat) {v : Nat} (h : v < 2 ^ f.width) :
    OnlyFields [f] f.reg i s { ({ s with power := p }).setFld f i v with power := s.power } ∧
      (({ s with power := p }).setFld f i v).fld f i = v :=
  ⟨OnlyFields.setFld s fits i v, State.fld_setFld_level _ fits h⟩

/-- A limiter's new counts alone. -/
theorem State.setCounts_spec (s : State) (p : Power) (f : Fld) (n : RegName) (i : Nat) :
    OnlyFields [f] n i s { ({ s with power := p }) with power := s.power } ∧ ({ s with power := p } : State).fld f i = s.fld f i :=
  ⟨⟨OnlyRegs.refl _ s, fun _ _ _ => rfl⟩, rfl⟩

theorem State.fastReading_spec (s : State) (w : Nat) :
    let cap := s.fld F.pwrCap_FASTCAP 0
    let lvl := s.fld F.pwrStat_LFAST 0
    let t := s.fastReading w
    OnlyFields [F.pwrStat_LFAST] .pwrStat 0 s { t with power := s.power } ∧
      (cap - 50 < w → t.fld F.pwrStat_LFAST 0 = lvl - 1 ∧ t.power.calm = 0) ∧
      (w ≤ cap - 50 → w < cap - 200 → s.power.calm + 1 < 10 → t.fld F.pwrStat_LFAST 0 = lvl ∧ t.power.calm = s.power.calm + 1) ∧
      (w ≤ cap - 50 → w < cap - 200 → 10 ≤ s.power.calm + 1 → t.fld F.pwrStat_LFAST 0 = min 15 (lvl + 1) ∧ t.power.calm = 0) ∧
      (w ≤ cap - 50 → cap - 200 ≤ w → t.fld F.pwrStat_LFAST 0 = lvl ∧ t.power.calm = 0) := by
  intro cap lvl t
  have small : lvl < 16 := s.fld_lt F.pwrStat_LFAST 0
  have lowered : lvl - 1 < 2 ^ F.pwrStat_LFAST.width := Nat.lt_of_le_of_lt (Nat.sub_le lvl 1) small
  have raised : min 15 (lvl + 1) < 2 ^ F.pwrStat_LFAST.width := Nat.lt_of_le_of_lt (Nat.min_le_left 15 _) (by decide)
  by_cases high : cap - 50 < w
  · have step : t = ({ s with power := { s.power with calm := 0 } }).setFld F.pwrStat_LFAST 0 (lvl - 1) := if_pos high
    obtain ⟨only, level⟩ := s.setLevel_spec { s.power with calm := 0 } (f := F.pwrStat_LFAST) rfl 0 lowered
    rw [step]
    exact ⟨only, fun _ => ⟨level, rfl⟩, fun low => absurd low (by omega), fun low => absurd low (by omega),
      fun low => absurd low (by omega)⟩
  · by_cases low : w < cap - 200
    · by_cases short : s.power.calm + 1 < 10
      · have step : t = { s with power := { s.power with calm := s.power.calm + 1 } } :=
          (if_neg high).trans ((if_pos low).trans (if_pos short))
        obtain ⟨only, level⟩ := s.setCounts_spec { s.power with calm := s.power.calm + 1 } F.pwrStat_LFAST .pwrStat 0
        rw [step]
        exact ⟨only, fun up => absurd up high, fun _ _ _ => ⟨level, rfl⟩, fun _ _ long => absurd short (by omega),
          fun _ mid => absurd low (by omega)⟩
      · have step : t = ({ s with power := { s.power with calm := 0 } }).setFld F.pwrStat_LFAST 0 (min 15 (lvl + 1)) :=
          (if_neg high).trans ((if_pos low).trans (if_neg short))
        obtain ⟨only, level⟩ := s.setLevel_spec { s.power with calm := 0 } (f := F.pwrStat_LFAST) rfl 0 raised
        rw [step]
        exact ⟨only, fun up => absurd up high, fun _ _ few => absurd few short, fun _ _ _ => ⟨level, rfl⟩,
          fun _ mid => absurd low (by omega)⟩
    · have step : t = { s with power := { s.power with calm := 0 } } := (if_neg high).trans (if_neg low)
      obtain ⟨only, level⟩ := s.setCounts_spec { s.power with calm := 0 } F.pwrStat_LFAST .pwrStat 0
      rw [step]
      exact ⟨only, fun up => absurd up high, fun _ under => absurd under low, fun _ under => absurd under low, fun _ _ => ⟨level, rfl⟩⟩

/-! ## Temperatures -/

/-- A sample's readings, written sensor by sensor. -/
def State.setTemps (s : State) (t : Nat → Nat) (l : List Nat) : State := l.foldl (fun u i => u.setFld F.pwrTemp_TEMP i (t i)) s

theorem State.setTemps_spec (t : Nat → Nat) (l : List Nat) (s : State) :
    OnlyRegs (fun n i => n = .pwrTemp ∧ i ∈ l) s (s.setTemps t l) ∧
      ∀ i, i ∈ l → t i < 4096 → (s.setTemps t l).fld F.pwrTemp_TEMP i = t i := by
  induction l generalizing s with
  | nil => exact ⟨OnlyRegs.refl _ s, fun i none => absurd none List.not_mem_nil⟩
  | cons j l ih =>
    obtain ⟨only, reads⟩ := ih (s.setFld F.pwrTemp_TEMP j (t j))
    have first : OnlyRegs (fun n i => n = .pwrTemp ∧ i ∈ j :: l) s (s.setFld F.pwrTemp_TEMP j (t j)) :=
      .of_setFld (p := fun n i => n = .pwrTemp ∧ i ∈ j :: l) ⟨rfl, List.mem_cons_self⟩ s _
    refine ⟨first.trans (only.mono fun n i h => ⟨h.1, List.mem_cons_of_mem j h.2⟩), fun i listed fits => ?_⟩
    by_cases later : i ∈ l
    · exact reads i later fits
    · obtain rfl : i = j := (List.mem_cons.1 listed).resolve_right later
      have kept := only.2 .pwrTemp i fun h => later h.2
      exact (State.fld_of_reg (f := F.pwrTemp_TEMP) kept).trans (State.fld_setFld_level s (f := F.pwrTemp_TEMP) rfl fits)

/-- Cooling changes the pins alone where the module runs already. -/
theorem State.cooled_started {s : State} (started : s.sage.phase ≠ .held) (t : Nat → Nat) : ∃ b, s.cooled t = { s with board := b } := by
  unfold State.cooled
  split
  · exact ⟨_, State.tryStart_idle (s := { s with board := _ }) (.inr started)⟩
  · exact ⟨s.board, rfl⟩

theorem any_overLimit (t : Nat → Nat) :
    ((List.range 76).any fun i => decide (tempLimit i < t i)) = true ↔ ∃ i, i < 76 ∧ tempLimit i < t i := by
  simp only [List.any_eq_true, List.mem_range, decide_eq_true_eq]

theorem State.thermalLevel_spec (s : State) (t : Nat → Nat) :
    let lvl := s.fld F.pwrStat_LTHERM 0
    OnlyFields [F.pwrStat_LTHERM] .pwrStat 0 s { s.thermalLevel t with power := s.power } ∧
      (s.thermalLevel t).fld F.pwrStat_LTHERM 0 =
        if ∃ i, i < 76 ∧ tempLimit i < t i then (if s.power.hot + 1 < 10 then lvl else lvl - 1)
        else if allBelow t 5 = true then (if s.power.cool + 1 < 100 then lvl else min 15 (lvl + 1)) else lvl := by
  intro lvl
  have small : lvl < 16 := s.fld_lt F.pwrStat_LTHERM 0
  have lowered : lvl - 1 < 2 ^ F.pwrStat_LTHERM.width := Nat.lt_of_le_of_lt (Nat.sub_le lvl 1) small
  have raised : min 15 (lvl + 1) < 2 ^ F.pwrStat_LTHERM.width := Nat.lt_of_le_of_lt (Nat.min_le_left 15 _) (by decide)
  have level {v : Nat} (h : v < 2 ^ F.pwrStat_LTHERM.width) := s.setLevel_spec { s.power with hot := 0, cool := 0 }
    (f := F.pwrStat_LTHERM) rfl 0 h
  have counts (hot cool : Nat) := s.setCounts_spec { s.power with hot := hot, cool := cool } F.pwrStat_LTHERM .pwrStat 0
  unfold State.thermalLevel
  by_cases warm : ∃ i, i < 76 ∧ tempLimit i < t i
  · simp only [if_pos ((any_overLimit t).2 warm), if_pos warm]
    by_cases few : s.power.hot + 1 < 10
    · simp only [if_pos few]
      exact counts (s.power.hot + 1) 0
    · simp only [if_neg few]
      exact level lowered
  · simp only [if_neg (mt (any_overLimit t).1 warm), if_neg warm]
    by_cases cool : allBelow t 5 = true
    · simp only [if_pos cool]
      by_cases few : s.power.cool + 1 < 100
      · simp only [if_pos few]
        exact counts 0 (s.power.cool + 1)
      · simp only [if_neg few]
        exact level raised
    · simp only [if_neg cool]
      exact counts 0 0

/-- A sample with nothing newly critical stores the temperatures and steps the level (R493). -/
theorem State.thermal_eq (s : State) (temps : List Nat) (runs : s.board.runs = true)
    (calm : ∀ i, i < 76 → (temps.getD i (s.fld F.pwrTemp_TEMP i)) % 4096 < tempCritical i ∨ tempCritical i ≤ s.fld F.pwrTemp_TEMP i) :
    let t := fun i => (temps.getD i (s.fld F.pwrTemp_TEMP i)) % 4096
    s.thermal temps = ((s.setTemps t (List.range 76)).cooled t).thermalLevel t := by
  intro t
  have none_ : ((List.range 76).filter fun i => decide (tempCritical i ≤ t i) && decide (s.fld F.pwrTemp_TEMP i < tempCritical i)) = [] := by
    refine List.filter_eq_nil_iff.2 fun i listed both => ?_
    rw [Bool.and_eq_true, decide_eq_true_eq, decide_eq_true_eq] at both
    exact (calm i (List.mem_range.1 listed)).elim (Nat.not_lt.2 both.1) (Nat.not_le.2 both.2)
  unfold State.thermal
  simp only [runs]
  rw [none_]
  rfl

/-! ## The compute clock -/

theorem State.targetLevel_le (s : State) : s.targetLevel ≤ 15 := by
  have nominal : s.fld F.clkNom_LEVEL 0 < 16 := s.fld_lt F.clkNom_LEVEL 0
  unfold State.targetLevel
  split
  · exact Nat.zero_le 15
  · split
    · exact Nat.zero_le 15
    · omega

end Sys2Proof.Machine

open Sys2Proof Sys2Proof.Machine

/-- Settles O49: the shares of a sample add up to its energy, and each limiter, the thermal level and the clock take one of the steps
of their rules. -/
theorem limitersAndClockStep : Obligations.LimitersAndClockStep := by
  refine ⟨fun s m nine => ?_, fun s w => ?_, fun s temps runs started => ?_, fun s => ?_, fun s => ⟨fun quiet => ?_, fun sags => ⟨?_, ?_⟩⟩⟩
  · have shared : (shares m s.power.sampleAct).length = 9 := (length_shares m _).trans s.power.length_sampleAct
    have same : s.power.sums.length = (shares m s.power.sampleAct).length := nine.trans shared.symm
    refine ⟨s.sample m, rfl, ?_, ?_, fun a _ => getD_le_getD_zipWith_add _ _ same a, rfl⟩
    · exact List.length_zipWith.trans (by rw [nine, shared]; rfl)
    · exact (List.sum_add_sum_eq_sum_zipWith_of_length_eq _ _ same).symm.trans
        (congrArg (s.power.sums.sum + ·) (sum_shares m _ s.power.length_sampleAct))
  · exact ⟨s.fastReading w, rfl, s.fastReading_spec w⟩
  · intro t lvl calm
    have step : s.thermal temps = ((s.setTemps t (List.range 76)).cooled t).thermalLevel t := s.thermal_eq temps runs calm
    obtain ⟨stored, reads⟩ := State.setTemps_spec t (List.range 76) s
    have started1 : (s.setTemps t (List.range 76)).sage.phase ≠ .held := by
      rw [stored.1]
      exact started
    obtain ⟨b, cooled⟩ := State.cooled_started started1 t
    rw [cooled] at step
    generalize s.setTemps t (List.range 76) = s1 at stored reads step
    obtain ⟨⟨⟨units, other⟩, -⟩, level⟩ := State.thermalLevel_spec { s1 with board := b } t
    refine ⟨s.thermal temps, rfl, fun i sensor => ?_, ⟨?_, fun n i apart => ?_⟩, ?_⟩
    all_goals rw [step]
    · have kept := other .pwrTemp i fun h => RegName.noConfusion h.1
      exact (State.fld_of_reg (f := F.pwrTemp_TEMP) kept).trans (reads i (List.mem_range.2 sensor) (Nat.mod_lt _ (by decide)))
    · generalize State.thermalLevel _ t = u at units
      have eqn := congrArg (fun x : State => { x with power := s.power, board := s.board }) units
      refine eqn.trans ?_
      rw [stored.1]
    · exact (other n i fun h => apart (.inr h)).trans (stored.2 n i fun h => apart (.inl ⟨h.1, List.mem_range.1 h.2⟩))
    · have before : s1.fld F.pwrStat_LTHERM 0 = lvl :=
        State.fld_of_reg (f := F.pwrStat_LTHERM) (stored.2 .pwrStat 0 fun h => RegName.noConfusion h.1)
      have power : s1.power = s.power := (congrArg State.power stored.1 :)
      refine level.trans ?_
      rw [show State.fld { s1 with board := b } F.pwrStat_LTHERM 0 = lvl from before]
      dsimp only
      rw [power]
  · intro l g
    have small : l < 16 := s.fld_lt F.clkStat_LEVEL 0
    have target : g ≤ 15 := s.targetLevel_le
    refine ⟨s.slew, rfl, OnlyFields.setFld s (f := F.clkStat_LEVEL) rfl 0 _, State.fld_setFld_level s (f := F.clkStat_LEVEL) rfl ?_, target⟩
    show (if l < g then l + 1 else if g < l then l - 1 else l) < 16
    split <;> [skip; split] <;> omega
  · have step : Runs .droopDetect s (({ s with power := { s.power with droop := true, recover := 0 } }).count F.clkStat_SAGCNT 0 1) :=
      congrArg Host.Outcome.next (if_neg (by rw [quiet]; exact Bool.false_ne_true))
    exact ⟨_, step, rfl, OnlyFields.count s (f := F.clkStat_SAGCNT) rfl 0 1,
      State.fld_count_same { s with power := _ } (f := F.clkStat_SAGCNT) rfl 0 1⟩
  · exact congrArg Host.Outcome.next (if_pos sags)
  · exact congrArg Host.Outcome.next (if_pos sags)

end

