-- ==== Sys2Proof/Proofs/SeasonListedTwice.lean ====
section
/-!
PROOFS. Function Level Reset of a VF in a state whose register table lists a season twice (R539). The reset of the mapped partition
drops the first entry, which holds the default (`Sparse.remap`), and the second one is read from then on.
-/

set_option Elab.async false

namespace Sys2Proof.Machine

open Sys2Proof

/-- VF 1 of port 0 is enabled, mapped to partition 0 and marked in FLRPART; the register table lists the season of partition 0 twice: in
Winter, and behind it in Summer. -/
def mappedTwice : State :=
  { State.reset with
    regs := [(regKey .pciStat 0, BitVec.ofNat 32 (2 ^ F.pciStat_VFON.lo)), (regKey .pciFnmap 0, 0x8#32),
      (regKey .pciVfctl 0, BitVec.ofNat 32 (2 ^ F.pciVfctl_FLRPART.lo)), (regKey .sysPseason 0, 0#32), (regKey .sysPseason 0, 2#32)] }

end Sys2Proof.Machine

open Sys2Proof Sys2Proof.Machine

/-- Refutes O56: the statement is about every state, in canonical form or not. FLR of a VF marked in FLRPART leaves the season of its
partition at Summer where the register table lists it twice, in Winter and behind it in Summer. -/
theorem not_hostFunctionsReachTheirMemory : ¬ Obligations.HostFunctionsReachTheirMemory := by
  rintro ⟨-, -, functions, -⟩
  obtain ⟨-, virtual⟩ := functions mappedTwice 0 (by decide)
  obtain ⟨-, resets, -⟩ := virtual 1 (by decide) (by decide)
  obtain ⟨t, runs, winter_⟩ := resets (by decide +kernel) 0 (by decide +kernel) (by decide +kernel)
  have on : mappedTwice.vfOn 0 1 = true := by decide +kernel
  have flr : Runs (.flr 0 1) mappedTwice (mappedTwice.flrVf 0 1) := by
    show Host.Outcome.next (if mappedTwice.vfOn 0 1 then mappedTwice.flrVf 0 1 else mappedTwice) = _
    rw [if_pos on]
  have same : t = mappedTwice.flrVf 0 1 := Host.Outcome.next.inj ((show exec _ _ = _ from runs).symm.trans flr)
  rw [same] at winter_
  exact absurd winter_ (by decide +kernel)

end

