-- ==== Sys2Proof/Proofs/Attestation.lean ====
section
/-!
PROOFS. The order of SPDM requests and their answers (R529 to R531).
-/

set_option Elab.async false

namespace Sys2Proof.Machine

open Sys2Proof

/-! ## What an answer changes -/

/-- Nothing has changed but the responder of port `d`, Sage's keys and the numbering of free values. -/
structure OnlyResponder (d : Nat) (s t : State) : Prop where
  units  : t = { s with spdm := t.spdm, sage := t.sage, free := t.free }
  phase  : (t.spdmOf d).phase = (s.spdmOf d).phase
  others : ∀ e, e ≠ d → t.spdmOf e = s.spdmOf e

theorem OnlyResponder.refl (d : Nat) (s : State) : OnlyResponder d s s := ⟨rfl, rfl, fun _ _ => rfl⟩

theorem OnlyResponder.trans {d : Nat} {s t u : State} (h : OnlyResponder d s t) (g : OnlyResponder d t u) : OnlyResponder d s u :=
  ⟨by rw [g.units, h.units], g.phase.trans h.phase, fun e other => (g.others e other).trans (h.others e other)⟩

theorem OnlyResponder.draw (d : Nat) (s : State) : OnlyResponder d s s.draw := ⟨rfl, rfl, fun _ _ => rfl⟩

theorem State.spdmOf_setSpdm (s : State) (d : Nat) (x : Spdm) : (s.setSpdm d x).spdmOf d = x := Sparse.rd_wr_same ..

theorem State.spdmOf_setSpdm_ne (s : State) {d e : Nat} (x : Spdm) (other : e ≠ d) : (s.setSpdm d x).spdmOf e = s.spdmOf e :=
  Sparse.rd_wr_ne _ _ other

/-- New certificate keys change Sage and the numbering of free values alone. -/
theorem OnlyResponder.newAlias (d : Nat) (s : State) : OnlyResponder d s s.newAlias := by
  have leaf (u : State) : OnlyResponder d u u.takeLeaf := by
    unfold State.takeLeaf
    split <;> exact ⟨rfl, rfl, fun _ _ => rfl⟩
  have keyed := (OnlyResponder.draw d s).trans (leaf s.draw)
  unfold State.newAlias
  dsimp only
  generalize s.draw.takeLeaf = u at keyed
  exact keyed.trans ⟨rfl, rfl, fun _ _ => rfl⟩

/-- A signature keeps its LMS signature in the responder and counts on Sage's keys. -/
theorem OnlyResponder.aliasSign (d : Nat) (s : State) (context : String) (transcript : List Byte) :
    OnlyResponder d s (s.aliasSign d context transcript).2 := by
  have kept (lms : List Byte) : OnlyResponder d s (s.draw.setSpdm d { s.spdmOf d with last := lms }) :=
    ⟨rfl, (congrArg Spdm.phase (State.spdmOf_setSpdm s.draw d _) :), fun e other => State.spdmOf_setSpdm_ne s.draw _ other⟩
  unfold State.aliasSign
  dsimp only
  split
  · exact (kept _).trans ⟨rfl, rfl, fun _ _ => rfl⟩
  · exact (kept _).trans (.newAlias d _)

/-! ## Requests -/

/-- A request is answered with one message of the code, and the responder is in the phase after it. -/
def Answers (s : State) (d : Nat) (c : Instr) (code phase : Nat) : Prop :=
  ∃ t raw, Runs c s t ∧ t.out = s.out ++ [.spdm d raw] ∧ num raw 1 1 = code ∧ (t.spdmOf d).phase = phase ∧
    (∀ e, e ≠ d → t.spdmOf e = s.spdmOf e) ∧ t = { s with out := t.out, spdm := t.spdm, sage := t.sage, free := t.free }

/-- A request that ends in an answer is answered. -/
theorem Answers.of_runs {s r : State} {d : Nat} {c : Instr} {x : Spdm} {raw : List Byte} {code phase : Nat}
    (runs : Runs c s (r.spdmAnswer d x raw)) (only : OnlyResponder d s r) (named : num raw 1 1 = code) (after : x.phase = phase) :
    Answers s d c code phase := by
  have sent : r.out = s.out := (congrArg State.out only.units :)
  refine ⟨_, raw, runs, (congrArg (· ++ [Msg.spdm d raw]) sent :), named, ?_, fun e other => ?_, ?_⟩
  · exact (congrArg Spdm.phase (State.spdmOf_setSpdm r d x)).trans after
  · exact (State.spdmOf_setSpdm_ne r x other).trans (only.others e other)
  · have units := congrArg (fun u : State => u.spdmAnswer d x raw) only.units
    have now : (r.spdmAnswer d x raw).out = s.out ++ [.spdm d raw] := (congrArg (· ++ [Msg.spdm d raw]) sent :)
    rw [now]
    exact units

/-- The code of a message that begins with two known bytes. -/
theorem num_code (a b : Byte) (l : List Byte) : num (a :: b :: l) 1 1 = b.toNat := by
  simp [num, sub, leNat]

theorem State.spdmRun_ready {s : State} {d code phase : Nat} {req : List Byte} (k : Unit → State) (rom : s.sage.rom = true)
    (named : num req 1 1 = code) (version : num req 0 1 = 0x13) (reached : phase ≤ (s.spdmOf d).phase) :
    s.spdmRun d code phase req k = k () := by
  unfold State.spdmRun
  rw [rom, if_neg (by simp [named]), if_neg (not_not.2 version), if_neg (Nat.not_lt.2 reached)]

/-- A request before its turn is refused with the error UnexpectedRequest. -/
theorem State.spdmRun_early {s : State} {d code phase : Nat} {req : List Byte} (k : Unit → State) (rom : s.sage.rom = true)
    (named : num req 1 1 = code) (version : num req 0 1 = 0x13) (early : (s.spdmOf d).phase < phase) :
    s.spdmRun d code phase req k = s.spdmRefuse d errUnexpected := by
  unfold State.spdmRun
  rw [rom, if_neg (by simp [named]), if_neg (not_not.2 version), if_pos early]

/-- A request of the commands over DOE that names a port runs. -/
theorem runs_port {c : Instr} {s t u : State} {d : Nat} (port : d < 2)
    (effect : exec c s = inRange (decide (d < 2)) (fun _ => .next t)) (e : t = u) : Runs c s u :=
  effect.trans ((inRange_of (decide_eq_true port) _).trans (congrArg Host.Outcome.next e))

/-- A request before its turn gets one error message. -/
theorem early_refused {s : State} {d : Nat} {c : Instr} (refused : Runs c s (s.spdmRefuse d errUnexpected)) :
    ∃ raw, Runs c s { s with out := s.out ++ [.spdm d raw] } ∧ raw.length = 4 ∧ num raw 1 1 = 0x7F :=
  ⟨spdmError errUnexpected, refused, rfl, rfl⟩

section Requests

variable {s : State} {d : Nat} {req : List Byte} (port : d < 2) (rom : s.sage.rom = true)
include port rom

theorem answers_getVersion (version : num req 0 1 = 0x10) (named : num req 1 1 = 0x84) : Answers s d (.getVersion d req) 0x04 1 := by
  have answered := runs_port (u := s.spdmAnswer d _ _) port (show exec (.getVersion d req) s = _ from rfl)
    ((if_neg (by simp [rom, named])).trans (if_neg (not_not.2 version)))
  exact .of_runs answered (.refl d s) rfl rfl

theorem answers_getCapabilities (version : num req 0 1 = 0x13) (named : num req 1 1 = 0xE1) (phase : (s.spdmOf d).phase = 1)
    (long : 20 ≤ req.length) : Answers s d (.getCapabilities d req) 0x61 2 := by
  have answered := runs_port (u := s.spdmAnswer d _ _) port (show exec (.getCapabilities d req) s = _ from rfl)
    ((State.spdmRun_ready _ rom named version (Nat.le_of_eq phase.symm)).trans
      ((if_neg (not_not.2 phase)).trans (if_neg (Nat.not_lt.2 long))))
  exact .of_runs answered (.refl d s) (num_code ..) rfl

theorem answers_negotiateAlgorithms (version : num req 0 1 = 0x13) (named : num req 1 1 = 0xE3) (phase : (s.spdmOf d).phase = 2)
    (long : 32 ≤ req.length) (p384 : bit (num req 8 4) 7 = true) (sha : bit (num req 12 4) 1 = true) :
    Answers s d (.negotiateAlgorithms d req) 0x63 3 := by
  have answered := runs_port (u := s.spdmAnswer d _ _) port (show exec (.negotiateAlgorithms d req) s = _ from rfl)
    ((State.spdmRun_ready _ rom named version (Nat.le_of_eq phase.symm)).trans
      ((if_neg (not_not.2 phase)).trans (if_neg (by simp [p384, sha, Nat.not_lt.2 long]))))
  exact .of_runs answered (.refl d s) (num_code ..) rfl

variable (version : num req 0 1 = 0x13) (phase : 3 ≤ (s.spdmOf d).phase)
include version phase

theorem answers_vendorDefined (named : num req 1 1 = 0xFE)
    (fields : num req 4 2 = 3 ∧ num req 6 1 = 2 ∧ num req 7 2 = 0x1E9B ∧ num req 9 2 = 1 ∧ num req 11 1 = 1)
    (last : (s.spdmOf d).last ≠ []) : Answers s d (.vendorDefinedRequest d req) 0x7E (s.spdmOf d).phase := by
  obtain ⟨standard, length, vendor, size, payload⟩ := fields
  have ours : (fnIdent (9 * d)).vendor = 0x1E9B := by
    obtain rfl | rfl : d = 0 ∨ d = 1 := by omega
    · rfl
    · rfl
  have answered := runs_port (u := s.spdmAnswer d _ _) port (show exec (.vendorDefinedRequest d req) s = _ from rfl)
    ((State.spdmRun_ready _ rom named version phase).trans
      ((if_neg (by simp [standard, length, vendor, size, payload, ours])).trans (if_neg (by simpa using last))))
  exact .of_runs answered (.refl d s) (num_code ..) rfl

variable (chain : s.sage.chain ≠ [])
include chain

theorem answers_getDigests (named : num req 1 1 = 0x81) : Answers s d (.getDigests d req) 0x01 (s.spdmOf d).phase := by
  have answered := runs_port (u := s.spdmAnswer d _ _) port (show exec (.getDigests d req) s = _ from rfl)
    ((State.spdmRun_ready _ rom named version phase).trans (if_neg (by simpa using chain)))
  exact .of_runs answered (.refl d s) (num_code ..) rfl

theorem answers_getCertificate (named : num req 1 1 = 0x82) (long : 8 ≤ req.length) (slot : num req 2 1 % 16 = 0)
    (inside : num req 4 2 < s.spdmChain.length) : Answers s d (.getCertificate d req) 0x02 (s.spdmOf d).phase := by
  have answered := runs_port (u := s.spdmAnswer d _ _) port (show exec (.getCertificate d req) s = _ from rfl)
    ((State.spdmRun_ready _ rom named version phase).trans ((if_neg (by simpa using chain)).trans (if_neg (by simp [slot]; omega))))
  exact .of_runs answered (.refl d s) (num_code ..) rfl

theorem answers_challenge (named : num req 1 1 = 0x83) (long : 44 ≤ req.length) (slot : num req 2 1 % 16 = 0)
    (kind : num req 3 1 = 0 ∨ num req 3 1 = 1 ∨ num req 3 1 = 0xFF) : Answers s d (.challenge d req) 0x03 (s.spdmOf d).phase := by
  have answered := runs_port (u := State.spdmAnswer _ d _ _) port (show exec (.challenge d req) s = _ from rfl)
    ((State.spdmRun_ready _ rom named version phase).trans
      ((if_neg (by simpa using chain)).trans (if_neg (by rintro (short | slot' | none_) <;> omega))))
  have only (context : String) (transcript : List Byte) := (OnlyResponder.draw d s).trans
    ((OnlyResponder.draw d s.draw).trans (OnlyResponder.aliasSign d s.draw.draw context transcript))
  exact .of_runs answered (only _ _) (num_code ..) (only _ _).phase

theorem answers_getMeasurements (named : num req 1 1 = 0xE0) (long : 45 ≤ req.length) (op : num req 3 1 ≤ 9 ∨ num req 3 1 = 0xFF)
    (slot : num req 36 1 % 16 = 0) : Answers s d (.getMeasurements d req) 0x60 (s.spdmOf d).phase := by
  by_cases signed : num req 2 1 % 2 = 1
  · have answered := runs_port (u := State.spdmAnswer _ d _ _) port (show exec (.getMeasurements d req) s = _ from rfl)
      ((State.spdmRun_ready _ rom named version phase).trans
        ((if_neg (by simpa using chain)).trans ((if_neg (by rw [if_pos signed]; omega)).trans (if_pos signed))))
    have only (context : String) (transcript : List Byte) :=
      (OnlyResponder.draw d s).trans (OnlyResponder.aliasSign d s.draw context transcript)
    exact .of_runs answered (only _ _) (num_code ..) (only _ _).phase
  · have answered := runs_port (u := State.spdmAnswer _ d _ _) port (show exec (.getMeasurements d req) s = _ from rfl)
      ((State.spdmRun_ready _ rom named version phase).trans
        ((if_neg (by simpa using chain)).trans ((if_neg (by rw [if_neg signed]; omega)).trans (if_neg signed))))
    exact .of_runs answered (.draw d s) (num_code ..) rfl

end Requests

end Sys2Proof.Machine

open Sys2Proof Sys2Proof.Machine

/-- Settles O58: each request of the protocol's order ends in its answer, and one before its turn in the error UnexpectedRequest. -/
theorem attestationAnswersInOrder : Obligations.AttestationAnswersInOrder := by
  intro s d req port rom x answers v13
  refine ⟨fun version named => answers_getVersion port rom version named,
    fun version named phase long => answers_getCapabilities port rom version named phase long,
    fun version named phase long p384 sha => answers_negotiateAlgorithms port rom version named phase long p384 sha,
    fun version phase chain => ⟨answers_getDigests port rom version phase chain,
      answers_getCertificate port rom version phase chain, answers_challenge port rom version phase chain,
      answers_getMeasurements port rom version phase chain, fun named standard length vendor size payload last =>
        answers_vendorDefined port rom version phase named ⟨standard, length, vendor, size, payload⟩ last⟩,
    fun version p listed named early => ?_⟩
  simp only [List.mem_cons, List.not_mem_nil, or_false] at listed
  obtain rfl | rfl | rfl | rfl | rfl | rfl | rfl := listed
  all_goals exact early_refused (runs_port port rfl (State.spdmRun_early _ rom named version early))

end

