-- ==== Sys2Proof/Proofs/CollectiveControl.lean ====
section
/-!
PROOFS. The control messages of the collective engines, their retries and watches, and CE_GRPCTL (R369 to R372, R379 to R382, R386).
-/

set_option Elab.async false

namespace Sys2Proof.Machine

open Sys2Proof

/-! ## Messages -/

/-- The message at the front of an inbox is taken when it is of the kind. -/
theorem State.withMsg_front {s : State} {d kind : Nat} {x : InMsg} {rest : List InMsg} (front : (s.ceOf d).inbox = x :: rest)
    (control : x.data = none) (named : x.head.kind = kind) (go : State → InMsg → State) :
    s.withMsg d kind go = (go (s.setCe d { s.ceOf d with inbox := rest }) x).settleCe := by
  unfold State.withMsg
  rw [front]
  exact if_pos (by rw [control, named, beq_self_eq_true]; rfl)

theorem runs_message {c : Instr} {s : State} {d kind : Nat} {x : InMsg} {rest : List InMsg} {go : State → InMsg → State} {t : State}
    (die : d < 2) (front : (s.ceOf d).inbox = x :: rest) (control : x.data = none) (named : x.head.kind = kind)
    (effect : exec c s = inRange (decide (d < 2)) (fun _ => .next (s.withMsg d kind go)))
    (acts : go (s.setCe d { s.ceOf d with inbox := rest }) x = t) : Runs c s t.settleCe :=
  runs_port die effect ((State.withMsg_front front control named go).trans (congrArg State.settleCe acts))

/-! ## Groups -/

theorem grpctlWord_group {g action : Nat} (h : g < 4096) : (grpctlWord g action).toNat % 4096 = g := by
  rw [grpctlWord, BitVec.toNat_ofNat]
  omega

theorem grpctlWord_action (g : Nat) {action : Nat} (few : action < 8) : bits (grpctlWord g action).toNat 12 3 = action := by
  rw [grpctlWord, BitVec.toNat_ofNat, bits]
  omega

/-- A write of CE_GRPCTL by a permitted requester runs. -/
theorem runs_grpctl {c : Instr} {s t : State} {who : Requester} {g : Nat} (v : Word) (group : g < 4096) (permits : Permits s who .ceGrpctl 0)
    (effect : exec c s = inRange (decide (g < 4096)) (fun _ => .next (s.gated who .ceGrpctl 0 (s.writeGrpctl v))))
    (acts : s.writeGrpctl v = t) : Runs c s t :=
  effect.trans ((runs_permitted (decide_eq_true group) permits).trans (congrArg Host.Outcome.next acts))

/-- What happens to a state whose groups changed, seen from the groups before. -/
theorem OnlyRegsAndEvents.setGroups {p : RegName → Nat → Prop} {s t : State} {groups : Sparse Group}
    (h : OnlyRegsAndEvents p { s with groups := groups } t) : OnlyRegsAndEvents p s { t with groups := s.groups } :=
  ⟨congrArg (fun u : State => { u with groups := s.groups }) h.units, h.windows, h.regs, h.bytes⟩

/-- STATE and HALTCODE of a group, and the record of its change. -/
def State.moveGroup (s : State) (g state : Nat) : State :=
  ((s.setFld F.ceGrpstat_STATE g state).setFld F.ceGrpstat_HALTCODE g 0).groupEvent g

theorem State.moveGroup_spec (s : State) (g : Nat) {state : Nat} (h : state < 4) :
    (s.moveGroup g state).groupState g = state ∧ (s.moveGroup g state).fld F.ceGrpstat_HALTCODE g = 0 ∧
      (s.moveGroup g state).groups = s.groups ∧ OnlyRegsAndEvents (fun n i => n = .ceGrpstat ∧ i = g) s (s.moveGroup g state) := by
  have wrote : OnlyRegs (fun n i => n = .ceGrpstat ∧ i = g) s ((s.setFld F.ceGrpstat_STATE g state).setFld F.ceGrpstat_HALTCODE g 0) :=
    (OnlyRegs.of_setFld (f := F.ceGrpstat_STATE) ⟨rfl, rfl⟩ s _).trans (.of_setFld (f := F.ceGrpstat_HALTCODE) ⟨rfl, rfl⟩ _ _)
  have code := State.fld_setFld_same (s.setFld F.ceGrpstat_STATE g state) F.ceGrpstat_HALTCODE g 0 rfl
  have now := (State.fld_setFld_other (s.setFld F.ceGrpstat_STATE g state) F.ceGrpstat_HALTCODE F.ceGrpstat_STATE g g 0 rfl).trans
    (State.fld_setFld_level s (f := F.ceGrpstat_STATE) rfl h)
  unfold State.moveGroup
  generalize (s.setFld F.ceGrpstat_STATE g state).setFld F.ceGrpstat_HALTCODE g 0 = u at wrote code now ⊢
  have plain : ¬ EventReg .ceGrpstat := by rintro (e | e | e) <;> cases e
  have posted := u.event_onlyEvents evGroupState 0x00#8 (some (u.group g).part) g (u.groupState g)
  refine ⟨?_, ?_, ?_, (OnlyRegsAndEvents.of_regs wrote.1 wrote.2).trans (posted.mono fun _ _ => False.elim) ?_⟩
  · exact (posted.fld_of (f := F.ceGrpstat_STATE) plain not_false).trans now
  · exact (posted.fld_of (f := F.ceGrpstat_HALTCODE) plain not_false).trans code
  · exact (congrArg State.groups posted.units :).trans (congrArg State.groups wrote.1 :)
  · rintro n i (rfl | rfl | rfl) ⟨e, -⟩ <;> cases e

theorem State.writeGrpctl_enable (s : State) {g : Nat} (h : g < 4096) : s.writeGrpctl (grpctlWord g 1) = s.enableGroup g (grpctlWord g 1) := by
  rw [State.writeGrpctl, grpctlWord_group h, grpctlWord_action g (by decide)]
  rfl

theorem State.writeGrpctl_reset (s : State) {g : Nat} (h : g < 4096) : s.writeGrpctl (grpctlWord g 2) = s.resetGroup g := by
  rw [State.writeGrpctl, grpctlWord_group h, grpctlWord_action g (by decide)]
  rfl

theorem State.writeGrpctl_disable (s : State) {g : Nat} (h : g < 4096) :
    s.writeGrpctl (grpctlWord g 3) = s.disableGroup g (grpctlWord g 3) := by
  rw [State.writeGrpctl, grpctlWord_group h, grpctlWord_action g (by decide)]
  rfl

theorem State.writeGrpctl_abort (s : State) {g : Nat} (h : g < 4096) :
    s.writeGrpctl (grpctlWord g 4) = if s.groupState g = 0 then s else s.abortGroup g := by
  rw [State.writeGrpctl, grpctlWord_group h, grpctlWord_action g (by decide)]
  rfl

theorem State.group_setGroup (s : State) (g : Nat) (v : Group) : (s.setGroup g v).group g = v := Sparse.rd_wr_same ..

/-- What the state of a group reads as is apart from the groups' entries. -/
theorem State.groupState_setGroup (s : State) (g h : Nat) (v : Group) : (s.setGroup g v).groupState h = s.groupState h := rfl

/-- A state whose groups are put back as they were. -/
theorem State.setGroup_back {s t : State} (groups : t.groups = s.groups) (g : Nat) (v : Group) :
    ({ t.setGroup g v with groups := s.groups } : State) = t := by
  rw [← groups]
  rfl

end Sys2Proof.Machine

open Sys2Proof Sys2Proof.Machine

/-- Settles O43: a message is taken by its kind, and each action of CE_GRPCTL moves its group to the state of its rule. -/
theorem collectiveMessagesAndGroupsAct : Obligations.CollectiveMessagesAndGroupsAct := by
  refine ⟨fun s d x rest die front control => ?_, fun s d n die => ⟨fun group ready home => ?_, fun x send at_ refused => ?_,
    fun limit group enabled home => ?_, fun x limit send at_ quiet => ?_⟩, fun s who g group permits => ?_⟩
  · refine ⟨fun named => ?_, fun named => ?_, fun named => ?_, fun y found => ⟨fun named => ?_, fun named single => ?_⟩, fun named coll => ?_⟩
    · exact runs_message die front control named rfl rfl
    · exact runs_message die front control named rfl rfl
    · exact runs_message die front control named rfl rfl
    · exact runs_message die front control named rfl (by rw [found])
    · exact runs_message die front control named rfl ((if_neg (by rw [single]; exact Bool.false_ne_true)).trans (by rw [found]))
    · exact runs_message die front control named rfl (if_pos coll)
  · exact runs_port die rfl ((if_pos group).trans (if_pos ⟨ready, home⟩))
  · exact runs_port die rfl ((if_neg (Nat.not_lt.2 send)).trans (by rw [at_]; exact if_pos refused))
  · exact runs_port die rfl ((if_neg limit).trans ((if_pos group).trans (if_pos ⟨enabled, home⟩)))
  · exact runs_port die rfl ((if_neg limit).trans ((if_neg (Nat.not_lt.2 send)).trans
      (by rw [at_]; exact if_neg (by rw [quiet]; exact Bool.false_ne_true))))
  · refine ⟨fun disabled good => ?_, fun halted => ?_, fun enabled empty => ?_, fun enabled pending => ?_, fun enabled => ?_⟩
    · obtain ⟨ready, code, groups, only⟩ := (s.setGroup g (s.readGroup g)).moveGroup_spec g (state := 1) (by decide)
      have enable : s.enableGroup g (grpctlWord g 1) = (s.setGroup g (s.readGroup g)).moveGroup g 1 :=
        (if_neg (not_not.2 disabled)).trans (if_pos good)
      refine ⟨_, runs_grpctl _ group permits rfl ((s.writeGrpctl_enable group).trans enable), ready, code, ?_, fun h other => ?_, only.setGroups⟩
      · exact (congrArg (Sparse.rd _ g) groups).trans (Sparse.rd_wr_same ..)
      · exact (congrArg (Sparse.rd _ h) groups).trans (Sparse.rd_wr_ne _ _ other)
    · obtain ⟨ready, code, -, only⟩ := (s.setGroup g { s.group g with readys := [], notices := [], done := none, failed := false }).moveGroup_spec
        g (state := 1) (by decide)
      exact ⟨_, runs_grpctl _ group permits rfl ((s.writeGrpctl_reset group).trans (if_neg (not_not.2 halted))), ready, code, only.setGroups⟩
    · obtain ⟨disabled, -, groups, only⟩ := s.moveGroup_spec g (state := 0) (by decide)
      have drop : s.disableGroup g (grpctlWord g 3) = (s.moveGroup g 0).setGroup g Group.reset :=
        (if_neg enabled).trans (if_neg (by rw [empty]; exact Bool.false_ne_true))
      exact ⟨_, runs_grpctl _ group permits rfl ((s.writeGrpctl_disable group).trans drop),
        (State.groupState_setGroup _ g g Group.reset).trans disabled, State.group_setGroup _ g Group.reset, (State.setGroup_back groups g Group.reset).symm ▸ only⟩
    · have refused : s.disableGroup g (grpctlWord g 3) = s.writeIgnored .ceGrpctl 0 (some (s.group g).part) (grpctlWord g 3) :=
        (if_neg enabled).trans (if_pos (by simpa using pending))
      exact ⟨_, runs_grpctl _ group permits rfl ((s.writeGrpctl_disable group).trans refused), s.writeIgnored_onlyEvents ..⟩
    · exact runs_grpctl _ group permits rfl ((s.writeGrpctl_abort group).trans (if_neg enabled))

end

