-- ==== Sys2Proof/Proofs/BirsanSessions.lean ====
section
/-!
PROOFS. Birsan packets, timers and the sessions they belong to (R392 to R406).
-/

set_option Elab.async false

namespace Sys2Proof.Machine

open Sys2Proof

/-! ## Packets -/

/-- The oldest waiting packet of a kind is handled, and has left the buffer. -/
theorem State.withRx_front {s : State} {e kind : Nat} {x : RxPkt} (front : (s.ethPort e).rx.find? (fun y => y.kind == kind) = some x)
    (go : State → RxPkt → State) : s.withRx e kind go = go (s.setEth e { s.ethPort e with rx := (s.ethPort e).rx.erase x }) x := by
  simp only [State.withRx, front]

theorem runs_packet {c : Instr} {s t : State} {e kind : Nat} {x : RxPkt} {go : State → RxPkt → State} (port : e < 4)
    (front : (s.ethPort e).rx.find? (fun y => y.kind == kind) = some x)
    (effect : exec c s = inRange (decide (e < 4)) (fun _ => .next (s.withRx e kind go)))
    (acts : go (s.setEth e { s.ethPort e with rx := (s.ethPort e).rx.erase x }) x = t) : Runs c s t :=
  effect.trans ((inRange_of (decide_eq_true port) _).trans (congrArg Host.Outcome.next ((State.withRx_front front go).trans acts)))

/-- A packet that opens under the keys of its session acts on it. -/
theorem State.withOpen_opened {s : State} {e : Nat} {x : RxPkt} {y z : Session} {b : List Byte} (go : State → Session → List Byte → State)
    (found : s.session (num x.body 4 4) = some y) (up : 2 ≤ y.state) (opened : y.open_ x.body = some (b, z)) :
    s.withOpen e x go = go s (z.notePath (num x.body 2 2) (x.peer e)) b := by
  unfold State.withOpen
  rw [found, Option.filter_some, if_pos (decide_eq_true up)]
  simp only [opened]

theorem State.sendIp_birsan (s : State) (peer : Peer) (proto ecn hops : Nat) (body : List Byte) :
    (s.sendIp peer proto ecn hops body).birsan = s.birsan := by
  unfold State.sendIp
  split
  · rfl
  · dsimp only
    split <;> rfl

theorem State.sendCookie_birsan (s : State) (e : Nat) (x : RxPkt) : (s.sendCookie e x).birsan = s.birsan :=
  State.sendIp_birsan ..

theorem State.onInit_first {s : State} (e : Nat) {x : RxPkt} (long : 1232 ≤ x.body.length) (first : allZero (sub x.body 36 32) = true) :
    State.onInit e s x = s.sendCookie e x :=
  (if_neg (by omega)).trans ((if_pos first).trans (if_neg (by omega)))

theorem State.onInit_cookie {s : State} (e : Nat) {x : RxPkt} (long : 68 ≤ x.body.length) (held : allZero (sub x.body 36 32) = false)
    (valid : sub x.body 36 32 = cookieOf s.birsan.cookie x.src x.sport) : State.onInit e s x = s.keepInit e x :=
  (if_neg (Nat.not_lt.2 long)).trans ((if_neg (by rw [held]; exact Bool.false_ne_true)).trans (if_pos (.inl valid)))

/-! ## Sessions -/

theorem State.sid_of_session {s : State} {sid : Nat} {y : Session} (found : s.session sid = some y) : y.sid = sid :=
  beq_iff_eq.1 (List.find?_some (p := fun x : Session => x.sid == sid) found)

/-- A closed session keeps no keys and no handshake. -/
theorem State.closeSession_spec (s : State) (sid : Nat) :
    (∀ z ∈ (s.closeSession sid).birsan.sessions, z.sid = sid → z.state = 0 ∧ z.keys = none ∧ z.hs = none) ∧
      s.closeSession sid = { s with birsan := (s.closeSession sid).birsan, sceman := (s.closeSession sid).sceman } := by
  refine ⟨fun z listed same => ?_, rfl⟩
  obtain ⟨x, -, shut⟩ := List.mem_map.1 (List.mem_filter.1 listed).1
  by_cases this : x.sid = sid
  · rw [if_pos this] at shut
    subst shut
    exact ⟨rfl, rfl, rfl⟩
  · rw [if_neg this] at shut
    exact absurd (shut ▸ same) this

/-- A timer of a session runs on the session with its identifier. -/
theorem runs_session {c : Instr} {s t : State} {sid : Nat} {y : Session} (found : s.session sid = some y) {go : Session → State} {none_ : State}
    (effect : exec c s = .next (match s.session sid with | some y => go y | none => none_)) (acts : go y = t) : Runs c s t := by
  rw [found] at effect
  exact effect.trans (congrArg Host.Outcome.next acts)

end Sys2Proof.Machine

open Sys2Proof Sys2Proof.Machine

/-- Settles O45: each packet and each timer acts on its session as its rule says. -/
theorem birsanSessionsRun : Obligations.BirsanSessionsRun := by
  refine ⟨fun s e x port => ?_, fun s sid y found => ?_, fun s sid absent => ⟨fun p peer small up => ?_, ?_⟩, fun s => ?_⟩
  · refine ⟨fun front y h session shake initiator early long => ?_, fun front long first => ?_, fun front long held valid => ?_,
      fun front _ _ _ _ _ _ => runs_packet port front rfl rfl, fun front _ _ _ _ _ _ _ _ _ => runs_packet port front rfl rfl,
      fun y b z session up opened => ⟨fun front => ?_, fun front => ?_, fun front => ?_⟩⟩
    · refine runs_packet port front rfl ?_
      rw [session, Option.bind_some, shake, Option.map_some]
      exact if_pos (by rw [initiator, decide_eq_true early, long]; rfl)
    · exact ⟨_, runs_packet port front rfl (State.onInit_first e long first), rfl, State.sendCookie_birsan ..⟩
    · exact runs_packet port front rfl (State.onInit_cookie e long held valid)
    · exact runs_packet port front rfl (State.withOpen_opened _ session up opened)
    · exact runs_packet port front rfl (State.withOpen_opened _ session up opened)
    · exact runs_packet port front rfl (State.withOpen_opened _ session up opened)
  · have sid_ := State.sid_of_session found
    refine ⟨fun up => ?_, fun q owed => ?_, fun q open_ path => ?_, fun up => ?_, fun young => ?_, fun old shake => ?_, fun up spent => ?_,
      fun turn high low => ?_, fun k keys seen => ?_, fun q psn late => ?_⟩
    · exact runs_session found rfl (if_pos up)
    · exact runs_session found rfl (by rw [owed])
    · exact runs_session found rfl ((if_pos open_).trans (by rw [path]))
    · obtain ⟨closed, only⟩ := s.closeSession_spec sid
      exact ⟨_, runs_session found rfl (if_pos up), fun z listed same => ⟨(closed z listed same).1, (closed z listed same).2.1⟩, only⟩
    · obtain ⟨closed, only⟩ := s.closeSession_spec sid
      refine ⟨_, runs_session found rfl ((if_pos (.inl young)).trans ((if_pos young).trans (congrArg s.closeSession sid_))),
        fun z listed same => ⟨(closed z listed same).1, (closed z listed same).2.2⟩, only⟩
    · exact runs_session found rfl (if_pos (.inr shake))
    · refine Eq.trans (b := _) rfl (congrArg Host.Outcome.next ?_)
      rw [found]
      exact if_pos ⟨up, spent⟩
    · refine Eq.trans (b := _) rfl (congrArg Host.Outcome.next ?_)
      rw [found]
      refine (if_neg fun both => Nat.not_le.2 low both.2).trans (if_pos ⟨turn.imp_right fun h => ?_, high⟩)
      obtain ⟨state, shake, trial⟩ := h
      exact ⟨state, by rw [shake]; rfl, by rw [trial]; rfl⟩
    · exact runs_session found rfl (if_neg (by rw [keys, Option.map_some, Option.getD_some, seen]; exact Bool.false_ne_true))
    · have named : q.psn = psn := by
        have all := List.find?_some late
        rw [Bool.and_eq_true, Bool.and_eq_true, beq_iff_eq] at all
        exact all.1.1
      intro y1 y2
      refine Eq.trans (b := _) rfl (congrArg Host.Outcome.next ?_)
      rw [found]
      simp only [late]
      subst named
      rfl
  · refine Eq.trans (b := _) rfl (congrArg Host.Outcome.next ?_)
    rw [absent]
    simp only [peer]
    exact if_pos (by rw [decide_eq_true small, up]; rfl)
  · refine Eq.trans (b := _) rfl (congrArg Host.Outcome.next ?_)
    rw [absent]
  · refine ⟨_, rfl, rfl, ?_, rfl⟩
    exact (List.length_map ..).trans List.length_range

end

