-- ==== Sys2Proof/Proofs/ScemanRequests.lean ====
section
/-!
PROOFS. Requests of tenants at Sceman: messages, placement, completion and the tables (R279, R407 to R412, R457).
-/

set_option Elab.async false

namespace Sys2Proof.Machine

open Sys2Proof

/-! ## Messages -/

/-- The oldest delivered message of a kind is taken and acts. -/
theorem State.withMsgKind_front {s : State} {sid kind : Nat} {y : Session} {b : List Byte} (found : s.session sid = some y)
    (front : y.inbox.find? (fun m => m.1 == kind) = some (kind, b)) (go : State → Session → List Byte → State) :
    s.withMsgKind sid kind go =
      go (s.setSession { y with inbox := y.inbox.erase (kind, b) }) { y with inbox := y.inbox.erase (kind, b) } b := by
  unfold State.withMsgKind
  rw [found, Option.bind_some, front, Option.map_some]

theorem runs_delivered {c : Instr} {s t : State} {sid kind : Nat} {y : Session} {b : List Byte} {go : State → Session → List Byte → State}
    (found : s.session sid = some y) (front : y.inbox.find? (fun m => m.1 == kind) = some (kind, b))
    (effect : exec c s = .next (s.withMsgKind sid kind go))
    (acts : go (s.setSession { y with inbox := y.inbox.erase (kind, b) }) { y with inbox := y.inbox.erase (kind, b) } b = t) : Runs c s t :=
  effect.trans (congrArg Host.Outcome.next ((State.withMsgKind_front found front go).trans acts))

/-! ## A request that starts -/

theorem State.sceman_objEffect (s : State) (o op : Nat) (v : Word) : (s.objEffect o op v).sceman = s.sceman := by
  unfold State.objEffect
  split
  case h_4 => split <;> rfl
  all_goals rfl

theorem State.sceman_objOp (s : State) (o op : Nat) (v : Word) (t : Nat) : (s.objOp o op v t).2.sceman = s.sceman :=
  (congrArg State.sceman (State.objOp_eq_objEffect s o op v t) :).trans (s.sceman_objEffect o op v)

theorem State.sceman_store (s : State) (a : Nat) (bs : List Byte) : (s.store a bs).sceman = s.sceman := by
  rw [State.store_parts]

theorem State.sceman_putTouch (s : State) (uid p eg a n : Nat) : (s.putTouch uid p eg a n).sceman = s.sceman := by
  rw [State.putTouch_parts]

/-- The signals of a chain's start objects change no byte and none of Sceman's tables. -/
theorem State.signals_spec (l : List Nat) (s : State) :
    (l.foldl (fun t o => (t.objOp o 2 1#32 t.cycle).2) s).mem = s.mem ∧
      (l.foldl (fun t o => (t.objOp o 2 1#32 t.cycle).2) s).sceman = s.sceman := by
  induction l generalizing s with
  | nil => exact ⟨rfl, rfl⟩
  | cons o l ih =>
    obtain ⟨mem, sceman⟩ := ih (s.objOp o 2 1#32 s.cycle).2
    exact ⟨mem.trans ((State.objOp_mem ..).trans (s.objEffect_mem ..)), sceman.trans (s.sceman_objOp ..)⟩

/-- The seeds of a job are stored where it lists them, and nothing else is. -/
theorem State.putSeeds_spec (p seed : Nat) (at_ : List Nat) (s : State) :
    (s.putSeeds p seed at_).sceman = s.sceman ∧
      ∀ b, OnDevice b → (∀ a ∈ at_, ¬ (a ≤ b ∧ b < a + 8)) → (s.putSeeds p seed at_).byteAt b = s.byteAt b := by
  unfold State.putSeeds
  generalize e : at_.zipIdx = l
  have listed : ∀ x ∈ l, x.1 ∈ at_ := fun x m => List.fst_mem_of_mem_zipIdx (e ▸ m)
  clear e
  induction l generalizing s with
  | nil => exact ⟨rfl, fun _ _ _ => rfl⟩
  | cons x l ih =>
    obtain ⟨sceman, bytes⟩ := ih ((s.store x.1 (leBytes 8 (mixer seed x.2))).putTouch 0 p noEg x.1 8)
      (fun z m => listed z (List.mem_cons_of_mem x m))
    refine ⟨sceman.trans ((State.sceman_putTouch ..).trans (State.sceman_store ..)), fun b device apart => ?_⟩
    refine (bytes b device apart).trans ((State.byteAt_of_mem (State.putTouch_mem ..) device).trans ?_)
    exact State.keepsBytesBut_store s x.1 _ b device (apart x.1 (listed x List.mem_cons_self))

/-- A placed request is stored in its chain's area with its seeds, and its chain is busy with it (R409, R411). -/
theorem State.startRequest_spec {s : State} (r : Request) {n : Nat} {c : Chain} (chain : s.sceman.chains[n]? = some c) :
    (∀ b, OnDevice b → ¬ (c.area ≤ b ∧ b < c.area + r.rcd.length) → (∀ a ∈ c.seeds, ¬ (a ≤ b ∧ b < a + 8)) →
      (s.startRequest r n c).byteAt b = s.byteAt b) ∧
    ((s.startRequest r n c).sceman.chains[n]?).map (fun k => k.busy) = some (some r.number) := by
  obtain ⟨inside, -⟩ := List.getElem?_eq_some_iff.1 chain
  simp only [State.startRequest]
  generalize placed : State.putRequest _ _ = s2
  have mem : s2.mem = s.mem := by
    rw [← placed]
    rfl
  have busy : s2.sceman.chains[n]?.map (fun k => k.busy) = some (some r.number) := by
    rw [← placed]
    exact congrArg (Option.map _) (List.getElem?_set_self inside)
  clear placed
  obtain ⟨quiet, kept⟩ := State.signals_spec c.starts (((s2.store c.area r.rcd).putTouch 0 (c.parts.headD 0) noEg c.area
    r.rcd.length).putSeeds (c.parts.headD 0) (num r.rcd 36 8) c.seeds)
  obtain ⟨sceman, bytes⟩ := State.putSeeds_spec (c.parts.headD 0) (num r.rcd 36 8) c.seeds
    ((s2.store c.area r.rcd).putTouch 0 (c.parts.headD 0) noEg c.area r.rcd.length)
  refine ⟨fun b device area seeds => ?_, ?_⟩
  · refine (State.byteAt_of_mem quiet device).trans ((bytes b device seeds).trans ?_)
    refine (State.byteAt_of_mem (State.putTouch_mem ..) device).trans ((State.keepsBytesBut_store s2 c.area r.rcd b device area).trans ?_)
    exact State.byteAt_of_mem mem device
  · rw [kept, sceman, State.sceman_putTouch, State.sceman_store]
    exact busy

end Sys2Proof.Machine

open Sys2Proof Sys2Proof.Machine

/-- Settles O46: the messages of a tenant act on its request, a request that fits starts on its chain, and the tables are rewritten whole. -/
theorem scemanTakesRequests : Obligations.ScemanTakesRequests := by
  refine ⟨fun s sid y b found tenant => ?_, fun s cls n r c head chain at_ => ?_, fun s n st r running => ?_, fun s n r lost => ?_,
    fun s sid y recs found up operator => ⟨?_, ?_⟩⟩
  · refine ⟨fun front => ?_, fun front r mine => ⟨fun queued => ?_, fun running => ?_, fun ended => ?_⟩, fun front r mine => ?_⟩
    · exact runs_delivered found front rfl (if_pos tenant)
    · refine runs_delivered found front rfl ?_
      simp only [State.setSession, mine]
      exact if_pos queued
    · refine runs_delivered found front rfl ?_
      simp only [State.setSession, mine]
      exact (if_neg (by omega)).trans (if_pos running)
    · refine runs_delivered found front rfl ?_
      simp only [State.setSession, mine]
      exact (if_neg (by omega)).trans (if_neg (by omega))
    · refine runs_delivered found front rfl ?_
      simp only [State.setSession, mine]
  · have place {t : State} (acts : (if s.jobFits (s.sceman.variants.getD r.variant Variant.none) c then s.startRequest r n c
        else s.refuseJob r) = t) : Runs (.requestPlacement cls) s t := by
      refine Eq.trans (b := _) rfl (congrArg Host.Outcome.next ?_)
      simp only [head, chain, at_]
      exact acts
    exact ⟨fun misfit => place (if_neg (by rw [misfit]; exact Bool.false_ne_true)),
      fun fits => ⟨place (if_pos fits), State.startRequest_spec r at_⟩⟩
  · refine Eq.trans (b := _) rfl (congrArg Host.Outcome.next ?_)
    simp only [running]
  · refine Eq.trans (b := _) rfl (congrArg Host.Outcome.next ?_)
    simp only [lost]
  all_goals
    have admitted : (s.session sid).filter (fun y => 2 ≤ y.state && y.role == 1) = some y := by
      rw [found, Option.filter_some, if_pos (by rw [decide_eq_true up, operator]; rfl)]
    have rewrite (isClass : Bool) : exec (.tenantTableRewrite sid isClass recs) s = .next (if isClass
        then s.setSceman { s.sceman with classes := (recs.take 64).map (padTo 64) }
        else s.setSceman { s.sceman with tenants := recs.map (padTo 32) }) := by
      refine Eq.trans (b := _) rfl (congrArg Host.Outcome.next ?_)
      simp only [admitted]
  · exact ⟨_, rewrite true, rfl, rfl⟩
  · exact ⟨_, rewrite false, rfl, rfl⟩

end

