-- ==== Sys2Proof/Proofs/FennelPictures.lean ====
section
/-!
PROOFS. Picture descriptors of Fennel: what is published, what starts and what completes (R423, R424, R431, R432, R435).
-/

set_option Elab.async false

namespace Sys2Proof.Machine

open Sys2Proof

/-! ## Publishing -/

theorem State.fenFor_regs (s : State) (k : Nat) : (s.fenFor k).regs = s.regs := by
  simp only [State.fenFor]
  split
  · rfl
  · split
    · exact State.store_regs ..
    · rfl

theorem State.foldl_fenFor_regs (l : List Nat) (s : State) : (l.foldl State.fenFor s).regs = s.regs := by
  induction l generalizing s with
  | nil => rfl
  | cons k l ih => exact (ih (s.fenFor k)).trans (s.fenFor_regs k)

theorem ringSlots_self {n t : Nat} (h : t < n) : ringSlots n t t = [] := by
  have none_ : (t + n - t % n) % n = 0 := by rw [Nat.mod_eq_of_lt h, Nat.add_sub_cancel_left, Nat.mod_self]
  rw [ringSlots, none_]
  rfl

/-- TAIL published within the ring and not moved back. -/
theorem State.publishPics_taken {s : State} (who : Requester) (v : Word) (inside : v.toNat % 4096 < s.fenRing)
    (writes : s.writePdqtail v = s.setFld F.fenPdqtail_TAIL 0 (v.toNat % 4096)) :
    s.publishPics who v = if headerFirmware who
      then (ringSlots s.fenRing (s.fld F.fenPdqtail_TAIL 0) (v.toNat % 4096)).foldl State.fenFor
        (s.setFld F.fenPdqtail_TAIL 0 (v.toNat % 4096))
      else s.setFld F.fenPdqtail_TAIL 0 (v.toNat % 4096) := by
  have tail : (s.setFld F.fenPdqtail_TAIL 0 (v.toNat % 4096)).fld F.fenPdqtail_TAIL 0 = v.toNat % 4096 :=
    State.fld_setFld_level s (f := F.fenPdqtail_TAIL) rfl (Nat.mod_lt _ (by decide))
  unfold State.publishPics
  dsimp only
  rw [writes, tail]
  by_cases firmware : headerFirmware who = true
  · rw [if_pos firmware, firmware]
    by_cases same : v.toNat % 4096 = s.fld F.fenPdqtail_TAIL 0
    · rw [← same, ringSlots_self inside, if_neg (by simp)]
      rfl
    · rw [if_pos (by simpa using same)]
  · rw [if_neg firmware, if_neg (by simp [firmware])]

/-- TAIL refused: TAILFAULT and the record of the ignored write (R424). -/
theorem State.tailFault_spec (s : State) (v : Word) :
    let u := (s.setFld F.fenStat_TAILFAULT 0 1).writeIgnored .fenPdqtail 0 none v
    u.fld F.fenStat_TAILFAULT 0 = 1 ∧ OnlyRegsAndEvents (fun m i => m = .fenStat ∧ i = 0) s u ∧
      u.fld F.fenStat_HEAD 0 = s.fld F.fenStat_HEAD 0 ∧ u.fld F.fenStat_STATE 0 = s.fld F.fenStat_STATE 0 := by
  have plain : ¬ EventReg .fenStat := by rintro (e | e | e) <;> cases e
  have wrote : OnlyRegs (fun m i => m = .fenStat ∧ i = 0) s (s.setFld F.fenStat_TAILFAULT 0 1) :=
    OnlyRegs.of_setFld (f := F.fenStat_TAILFAULT) ⟨rfl, rfl⟩ s 1
  have posted := (s.setFld F.fenStat_TAILFAULT 0 1).writeIgnored_onlyEvents .fenPdqtail 0 none v
  refine ⟨?_, (OnlyRegsAndEvents.of_regs wrote.1 wrote.2).trans (posted.mono fun _ _ => False.elim) ?_, ?_, ?_⟩
  · exact (posted.fld_of (f := F.fenStat_TAILFAULT) plain not_false).trans (State.fld_setFld_level s (f := F.fenStat_TAILFAULT) rfl (by decide))
  · rintro n i (rfl | rfl | rfl) ⟨e, -⟩ <;> cases e
  · exact (posted.fld_of (f := F.fenStat_HEAD) plain not_false).trans (State.fld_setFld_other s F.fenStat_TAILFAULT F.fenStat_HEAD 0 0 1 rfl)
  · exact (posted.fld_of (f := F.fenStat_STATE) plain not_false).trans (State.fld_setFld_other s F.fenStat_TAILFAULT F.fenStat_STATE 0 0 1 rfl)

/-! ## Completion -/

/-- The running picture, STATE, HEAD and the count of pictures are as they were. -/
structure KeepsPicture (s t : State) : Prop where
  run      : t.fen.run = s.fen.run
  head     : t.fld F.fenStat_HEAD 0 = s.fld F.fenStat_HEAD 0
  state    : t.fld F.fenStat_STATE 0 = s.fld F.fenStat_STATE 0
  pictures : t.fld F.fenCnt_PICTURES 0 = s.fld F.fenCnt_PICTURES 0

theorem KeepsPicture.trans {s t u : State} (h : KeepsPicture s t) (g : KeepsPicture t u) : KeepsPicture s u :=
  ⟨g.run.trans h.run, g.head.trans h.head, g.state.trans h.state, g.pictures.trans h.pictures⟩

theorem KeepsPicture.of_regs {s t : State} (regs : t.regs = s.regs) (run : t.fen.run = s.fen.run) : KeepsPicture s t :=
  ⟨run, State.fld_of_regs regs .., State.fld_of_regs regs .., State.fld_of_regs regs ..⟩

theorem KeepsPicture.refl (s : State) : KeepsPicture s s := .of_regs rfl rfl

theorem KeepsPicture.store (s : State) (a : Nat) (bs : List Byte) : KeepsPicture s (s.store a bs) :=
  .of_regs (s.store_regs a bs) (by rw [State.store_parts])

theorem KeepsPicture.sendMessage (s : State) (sid kind : Nat) (body : List Byte) : KeepsPicture s (s.sendMessage sid kind body) := by
  unfold State.sendMessage
  split <;> exact .of_regs rfl rfl

theorem KeepsPicture.completeRequest (s : State) (r : Request) (st : Byte) (reason : Nat) :
    KeepsPicture s (s.completeRequest r st reason) := by
  unfold State.completeRequest
  dsimp only
  refine KeepsPicture.trans ?_ (KeepsPicture.sendMessage ..)
  exact .of_regs rfl rfl

theorem KeepsPicture.sendSegment (s : State) (r : Request) (g : Nat × List Byte) : KeepsPicture s (s.sendSegment r g) := by
  unfold State.sendSegment
  dsimp only
  split
  · exact (KeepsPicture.sendMessage ..).trans (.sendMessage ..)
  · exact .sendMessage ..

theorem KeepsPicture.segmentDone (s : State) (r : Request) : KeepsPicture s (s.segmentDone r) := by
  unfold State.segmentDone
  dsimp only
  split
  · exact .of_regs rfl rfl
  · refine KeepsPicture.trans ?_ (KeepsPicture.sendSegment ..)
    exact .of_regs rfl rfl

theorem KeepsPicture.pictureCoded (s : State) (number qp bits bytes dest : Nat) :
    KeepsPicture s (s.pictureCoded number qp bits bytes dest) := by
  unfold State.pictureCoded
  split
  · exact .refl s
  · dsimp only
    split
    · exact .of_regs rfl rfl
    · refine KeepsPicture.trans ?_ (KeepsPicture.segmentDone ..)
      exact .of_regs rfl rfl

theorem KeepsPicture.writePdqtail (s : State) (v : Word) : KeepsPicture s (s.writePdqtail v) := by
  unfold State.writePdqtail
  dsimp only
  split
  · obtain ⟨-, only, head, state⟩ := s.tailFault_spec v
    refine ⟨(congrArg (fun t : State => t.fen.run) only.units :), head, state, only.fld_of (f := F.fenCnt_PICTURES) ?_ ?_⟩
    · rintro (e | e | e) <;> cases e
    · rintro ⟨e, -⟩
      cases e
  · exact ⟨rfl, State.fld_setFld_other s F.fenPdqtail_TAIL F.fenStat_HEAD 0 0 _ rfl,
      State.fld_setFld_other s F.fenPdqtail_TAIL F.fenStat_STATE 0 0 _ rfl,
      State.fld_setFld_other s F.fenPdqtail_TAIL F.fenCnt_PICTURES 0 0 _ rfl⟩

theorem KeepsPicture.postAgain (s : State) (d : List Byte) (number : Option Nat) : KeepsPicture s (s.postAgain d number) := by
  unfold State.postAgain
  dsimp only
  refine KeepsPicture.trans (KeepsPicture.trans ?_ (KeepsPicture.store _ _ _)) (KeepsPicture.writePdqtail _ _)
  exact .of_regs rfl rfl

/-- What the firmware does after a picture leaves the picture's outcome in Fennel as it is. -/
theorem KeepsPicture.firmware (s : State) (p : Pic) (r : FenRun) (result : Nat) (number : Option Nat) :
    KeepsPicture s (s.firmware p r result number) := by
  unfold State.firmware
  split
  · split
    · exact .postAgain ..
    · exact .refl s
  · split
    · exact .refl s
    · split
      · split
        · exact .pictureCoded ..
        · exact .postAgain ..
        · exact .of_regs rfl rfl
      · split
        · exact .completeRequest ..
        · exact .refl s

theorem State.fenWrite_regs (uid part : Nat) (s : State) (x : Nat × List Byte) : (State.fenWrite uid part s x).regs = s.regs := by
  have noted (u : State) (y : Access) : (u.note uid y).regs = u.regs := by
    unfold State.note
    split <;> rfl
  unfold State.fenWrite State.storeFor
  rw [State.putTouch_regs]
  exact (noted _ _).trans (State.store_regs ..)

/-- The picture is over in Fennel before the firmware goes on (R423). -/
theorem State.fenOver_spec {s u : State} (regs : u.regs = s.regs) :
    let s3 := (u.setFld F.fenStat_HEAD 0 ((u.fld F.fenStat_HEAD 0 + 1) % u.fenRing)).setFld F.fenStat_STATE 0 0
    let s4 := { s3 with fen := { s3.fen with run := none } }.count F.fenCnt_PICTURES 0 1
    s4.fen.run = none ∧ s4.fld F.fenStat_STATE 0 = 0 ∧
      s4.fld F.fenStat_HEAD 0 = (s.fld F.fenStat_HEAD 0 + 1) % s.fenRing % 2 ^ F.fenStat_HEAD.width ∧
      s4.fld F.fenCnt_PICTURES 0 = satAdd F.fenCnt_PICTURES.width (s.fld F.fenCnt_PICTURES 0) 1 := by
  intro s3 s4
  have ring : u.fenRing = s.fenRing := by rw [State.fenRing, State.fld_of_regs regs, ← State.fenRing]
  have counted (f : Fld) (apart : (F.fenCnt_PICTURES.fits && (f.reg != F.fenCnt_PICTURES.reg || F.fenCnt_PICTURES.apart f)) = true) :
      s4.fld f 0 = s3.fld f 0 := State.fld_setFld_other { s3 with fen := _ } F.fenCnt_PICTURES f 0 0 _ apart
  have pictures : s3.fld F.fenCnt_PICTURES 0 = s.fld F.fenCnt_PICTURES 0 :=
    (State.fld_setFld_other _ F.fenStat_STATE F.fenCnt_PICTURES 0 0 _ rfl).trans
      ((State.fld_setFld_other u F.fenStat_HEAD F.fenCnt_PICTURES 0 0 _ rfl).trans (State.fld_of_regs regs ..))
  refine ⟨rfl, (counted F.fenStat_STATE rfl).trans (State.fld_setFld_level _ (f := F.fenStat_STATE) rfl (by decide)), ?_, ?_⟩
  · rw [counted F.fenStat_HEAD rfl, State.fld_setFld_other _ F.fenStat_STATE F.fenStat_HEAD 0 0 _ rfl,
      State.fld_setFld_same u F.fenStat_HEAD 0 _ rfl, ring, State.fld_of_regs regs]
  · exact (State.fld_count_same { s3 with fen := _ } (f := F.fenCnt_PICTURES) rfl 0 1).trans (congrArg (satAdd _ · 1) pictures)

theorem State.fenComplete_spec (s : State) (r : FenRun) (cycles misses : Nat) :
    let t := s.fenComplete r cycles misses
    t.fen.run = none ∧ t.fld F.fenStat_STATE 0 = 0 ∧
      t.fld F.fenStat_HEAD 0 = (s.fld F.fenStat_HEAD 0 + 1) % s.fenRing % 2 ^ F.fenStat_HEAD.width ∧
      t.fld F.fenCnt_PICTURES 0 = satAdd F.fenCnt_PICTURES.width (s.fld F.fenCnt_PICTURES 0) 1 := by
  unfold State.fenComplete
  extract_lets p gone st result bs may s1 m s2 s3 fen3 s4 s5 s6 post fen6 t
  have written : s2.regs = s.regs := by
    have first : s1.regs = s.regs := by
      show (if may then _ else s).regs = s.regs
      split
      · exact State.fenWrite_regs ..
      · rfl
    show (if result = 0 then _ else s1).regs = s.regs
    split
    · exact (State.fenWrite_regs ..).trans first
    · exact first
  obtain ⟨run, state, head, pictures⟩ := State.fenOver_spec written
  have told : KeepsPicture s4 s5 := by
    show KeepsPicture s4 (if 12 ≤ p.core ∧ p.core ≤ 15 then _ else s4)
    split
    · exact .of_regs rfl rfl
    · exact .refl s4
  have kept : KeepsPicture s4 t := by
    refine told.trans (KeepsPicture.trans ?_ (KeepsPicture.firmware _ p r result (post.map Prod.snd)))
    exact .of_regs rfl rfl
  exact ⟨kept.run.trans run, kept.state.trans state, kept.head.trans head, kept.pictures.trans pictures⟩

end Sys2Proof.Machine

open Sys2Proof Sys2Proof.Machine

/-- Settles O47: TAIL is published or refused, descriptors start by their OP, and the firmware leaves the outcome of a picture alone. -/
theorem fennelRunsPictures : Obligations.FennelRunsPictures := by
  refine ⟨fun s who v permits => ?_, fun s who v permits => ?_, fun s a d next => ?_, fun s r cycles misses running => ?_⟩
  · intro n h t back
    have runs {u : State} (acts : s.publishPics who v = u) : Runs (.fenPdqtail who v) s u :=
      (congrArg Host.Outcome.next (State.gated_permitted permits) : exec (.fenPdqtail who v) s = _).trans (congrArg Host.Outcome.next acts)
    refine ⟨fun inside forward => ?_, fun bad => ?_⟩
    · have writes : s.writePdqtail v = s.setFld F.fenPdqtail_TAIL 0 t := if_neg (not_or.2 ⟨Nat.not_le.2 inside, forward⟩)
      have taken := State.publishPics_taken who v inside writes
      have tail : (s.setFld F.fenPdqtail_TAIL 0 t).fld F.fenPdqtail_TAIL 0 = t :=
        State.fld_setFld_level s (f := F.fenPdqtail_TAIL) rfl (Nat.mod_lt _ (by decide))
      refine ⟨_, runs taken, ?_, fun other => ?_, fun firmware => if_pos firmware⟩
      · split
        · exact (State.fld_of_regs (State.foldl_fenFor_regs ..) ..).trans tail
        · exact tail
      · rw [if_neg (by rw [other]; exact Bool.false_ne_true)]
        exact OnlyFields.setFld s (f := F.fenPdqtail_TAIL) rfl 0 t
    · have writes : s.writePdqtail v = (s.setFld F.fenStat_TAILFAULT 0 1).writeIgnored .fenPdqtail 0 none v := if_pos bad
      obtain ⟨fault, only, head, -⟩ := s.tailFault_spec v
      have tail : (s.writePdqtail v).fld F.fenPdqtail_TAIL 0 = s.fld F.fenPdqtail_TAIL 0 := by
        rw [writes]
        refine only.fld_of (f := F.fenPdqtail_TAIL) ?_ ?_
        · rintro (e | e | e) <;> cases e
        · rintro ⟨e, -⟩
          cases e
      have refused : s.publishPics who v = (s.setFld F.fenStat_TAILFAULT 0 1).writeIgnored .fenPdqtail 0 none v :=
        (if_neg (by simp [tail])).trans writes
      exact ⟨_, runs refused, fault, only, head⟩
  · have runs {t : State} (acts : s.writeFenctl v = t) : Runs (.fenEnable who v) s t :=
      (congrArg Host.Outcome.next (State.gated_permitted permits) : exec (.fenEnable who v) s = _).trans (congrArg Host.Outcome.next acts)
    have control := OnlyRegs.of_setReg (p := fun m i => (m = .fenCtl ∨ m = .fenStat) ∧ i = 0) ⟨.inl rfl, rfl⟩ s
      (plainWrite .fenCtl false (s.reg .fenCtl 0) v)
    have now : (s.setReg .fenCtl 0 (plainWrite .fenCtl false (s.reg .fenCtl 0) v)).reg .fenCtl 0 = plainWrite .fenCtl false (s.reg .fenCtl 0) v :=
      State.reg_setReg_same ..
    by_cases rises : (!s.flag F.fenCtl_ENABLE 0 && bit v.toNat 0) = true
    · refine ⟨_, runs (if_pos rises), control.trans (.of_setFld (f := F.fenStat_HEAD) ⟨.inr rfl, rfl⟩ _ 0), rfl, rfl, ?_, fun _ _ => ?_⟩
      · exact (State.reg_setReg_ne _ _ (by rintro ⟨e, -⟩; cases e)).trans now
      · exact State.fld_setFld_level _ (f := F.fenStat_HEAD) rfl (by decide)
    · exact ⟨_, runs (if_neg rises), control, rfl, rfl, now, fun off on => absurd (by rw [off, on]; rfl) rises⟩
  · have encode {t : State} (acts : (if num d 0 1 = 1 then s else s.fenStart a d) = t) : Runs .fenEncode s t := by
      refine Eq.trans (b := _) rfl (congrArg Host.Outcome.next ?_)
      simp only [next]
      exact acts
    have decode {t : State} (acts : (if num d 0 1 = 1 then s.fenStart a d else s) = t) : Runs .fenDecode s t := by
      refine Eq.trans (b := _) rfl (congrArg Host.Outcome.next ?_)
      simp only [next]
      exact acts
    exact ⟨fun other => ⟨encode (if_neg other), decode (if_neg other)⟩, fun is => ⟨decode (if_pos is), encode (if_pos is)⟩⟩
  · refine ⟨s.fenComplete r cycles misses, ?_, s.fenComplete_spec r cycles misses⟩
    refine Eq.trans (b := _) rfl (congrArg Host.Outcome.next ?_)
    simp only [running]

end

