-- ==== Sys2Proof/Proofs/StepListedTwice.lean ====
section
/-!
PROOFS. RESTART in Spring in a state whose register table lists BOOT_CTL twice (R527). The die goes to Winter first, which drops the
first entry, as it holds the default (`Sparse.remap`); STEP is read of the second one from then on.
-/

set_option Elab.async false

namespace Sys2Proof.Machine

open Sys2Proof

/-- Sage waits in a backoff while the die is in Spring; the register table lists BOOT_CTL twice: with STEP = 0, and behind it with
STEP = 1. -/
def stepTwice : State :=
  { State.reset with
    regs := [(regKey .sysSeason 0, 1#32), (regKey .bootCtl 0, 0#32), (regKey .bootCtl 0, 1#32)]
    sage := { Sage.reset with phase := .backoff } }

end Sys2Proof.Machine

open Sys2Proof Sys2Proof.Machine

/-- Refutes O55: the statement is about every state, in canonical form or not. RESTART in Spring reads STEP after the die has gone to
Winter, and where BOOT_CTL is listed twice, with STEP = 0 and behind it with STEP = 1, Sage waits before stage 0 although STEP read 0. -/
theorem not_bootAndFuseCommandsAct : ¬ Obligations.BootAndFuseCommandsAct := by
  rintro ⟨boot, -⟩
  have permits : Permits stepTwice .sage .bootCtl 0 := by decide +kernel
  obtain ⟨-, -, restarts, -⟩ := boot stepTwice .sage permits
  obtain ⟨t, runs, -, -, phase⟩ := restarts (.inr rfl)
  have spring_ : stepTwice.dieSeason = spring := by decide +kernel
  have restart : Runs (.restart .sage) stepTwice (stepTwice.dieWinter.startAttempt true) := by
    refine (congrArg Host.Outcome.next (State.gated_permitted permits) : exec (.restart .sage) stepTwice = _).trans ?_
    rw [State.bootRestart, if_pos (.inr rfl), if_pos spring_]
  have same : t = stepTwice.dieWinter.startAttempt true := Host.Outcome.next.inj ((show exec _ _ = _ from runs).symm.trans restart)
  rw [same] at phase
  exact absurd phase (by decide +kernel)

end

