-- ==== Sys2Proof/Proofs/ManagementBus.lean ====
section
/-!
PROOFS. The management bus (R564 to R566).
-/

set_option Elab.async false

namespace Sys2Proof.Machine

open Sys2Proof

/-! ## The access in progress -/

theorem State.mgmtSettle_idle {s : State} (idle : s.mgmt.limit = none) : s.mgmtSettle = s := by
  unfold State.mgmtSettle
  rw [idle]

/-- Bringing the access up to date changes the bus and the numbering of free values alone. -/
theorem State.mgmtSettle_units (s : State) : s.mgmtSettle = { s with mgmt := s.mgmtSettle.mgmt, free := s.mgmtSettle.free } := by
  unfold State.mgmtSettle
  split
  · rfl
  · split <;> rfl

theorem runs_mgmtWrite {s t : State} {off : Nat} {v : Word} {pec : Bool} (heard : s.mgmtHeard pec = true) (idle : s.mgmt.limit = none)
    (acts : (if mgmtWrites off then (s.draw.mgmtStart 0x00#8 (Config.freeWord s.free 0)).regWrite .sage off v
      else s.draw.mgmtStart 0x01#8 (Config.freeWord s.free 0)) = t) : Runs (.mgmtWrite off v pec) s t := by
  have step : s.mgmtWrite off v = t := by
    unfold State.mgmtWrite
    rw [State.mgmtSettle_idle idle]
    exact (if_neg (by rw [idle]; exact Bool.false_ne_true)).trans acts
  exact congrArg Host.Outcome.next ((if_pos heard).trans step)

theorem runs_mgmtRead {s t : State} {off : Nat} {pec : Bool} (heard : s.mgmtHeard pec = true) (idle : s.mgmt.limit = none)
    (acts : (if mgmtReads off then { s.regRead .sage off with resp := s.resp }.mgmtStart 0x00#8 (BitVec.ofNat 32 (leNat (s.regRead .sage off).resp))
      else s.mgmtStart 0x01#8 0#32) = t) : Runs (.mgmtReadStart off pec) s t := by
  have step : s.mgmtRead off = t := by
    unfold State.mgmtRead
    rw [State.mgmtSettle_idle idle]
    exact (if_neg (by rw [idle]; exact Bool.false_ne_true)).trans acts
  exact congrArg Host.Outcome.next ((if_pos heard).trans step)

/-! ## Reads of registers -/

theorem State.readAt_units (s : State) (n : RegName) (i : Nat) : ∃ hi, (s.readAt n i).2 = { s with hi := hi } := by
  unfold State.readAt
  split
  · exact ⟨_, rfl⟩
  · split
    · exact ⟨_, rfl⟩
    · exact ⟨s.hi, rfl⟩

/-- A read by Sage changes what the _HI reads capture and the answer alone. -/
theorem State.regRead_sage_units (s : State) (off : Nat) : ∃ hi resp, s.regRead .sage off = { s with hi := hi, resp := resp } := by
  unfold State.regRead
  split
  · exact ⟨s.hi, _, rfl⟩
  · split
    · next n i _ =>
      split
      · obtain ⟨hi, e⟩ := s.readAt_units n i
        exact ⟨hi, leBytes 4 (s.readAt n i).1.toNat, congrArg (State.readsAs · (s.readAt n i).1) e⟩
      · exact ⟨s.hi, _, rfl⟩
    · split
      · split
        · exact ⟨s.hi, _, rfl⟩
        · exact ⟨s.hi, _, rfl⟩
      · exact ⟨s.hi, _, rfl⟩

/-- An access that Sage reads for the bus (R566). -/
theorem State.mgmtRead_spec (s : State) (off : Nat) :
    let t := { s.regRead .sage off with resp := s.resp }.mgmtStart 0x00#8 (BitVec.ofNat 32 (leNat (s.regRead .sage off).resp))
    t.mgmt.limit = some (s.tick + 2500) ∧ KeepsBytes s t := by
  obtain ⟨hi, resp, e⟩ := s.regRead_sage_units off
  rw [e]
  exact ⟨rfl, .of_mem rfl⟩

/-! ## Answers -/

/-- STATUS and data of an access, or 0x02 and zeros while it is in progress (R566). -/
def Mgmt.answer (m : Mgmt) : List Byte :=
  if m.limit.isSome then [0x02#8, 0x00#8, 0x00#8, 0x00#8, 0x00#8] else m.stat :: leBytes 4 m.data.toNat

theorem State.mgmtResult_eq (s : State) : s.mgmtResult = s.mgmtSettle.send (.mgmt s.mgmtSettle.mgmt.answer) := rfl

theorem Mgmt.length_answer (m : Mgmt) : m.answer.length = 5 := by
  unfold Mgmt.answer
  split <;> rfl

theorem Mgmt.answer_idle {m : Mgmt} (idle : m.limit = none) : m.answer = m.stat :: leBytes 4 m.data.toNat :=
  if_neg (by rw [idle]; exact Bool.false_ne_true)

theorem State.mgmtResult_units (s : State) : s.mgmtResult.out = s.out ++ [.mgmt s.mgmtSettle.mgmt.answer] ∧
    s.mgmtResult = { s with out := s.mgmtResult.out, mgmt := s.mgmtResult.mgmt, free := s.mgmtResult.free } := by
  have units := s.mgmtSettle_units
  rw [State.mgmtResult_eq]
  generalize s.mgmtSettle = u at units ⊢
  have out : u.out = s.out := (congrArg State.out units :)
  refine ⟨(congrArg (· ++ [Msg.mgmt u.mgmt.answer]) out :), ?_⟩
  refine (congrArg (State.send · (.mgmt u.mgmt.answer)) units).trans ?_
  rw [show (u.send (.mgmt u.mgmt.answer)).out = s.out ++ [.mgmt u.mgmt.answer] from congrArg (· ++ [Msg.mgmt u.mgmt.answer]) out]
  rfl

/-- The address byte of the answer to the Alert Response Address. -/
theorem alertByte (n r : Nat) (bit : r < 2) : (BitVec.ofNat 8 (2 * n + r)).toNat / 2 = n % 128 := by
  rw [BitVec.toNat_ofNat]
  omega

end Sys2Proof.Machine

open Sys2Proof Sys2Proof.Machine

/-- Settles O59: a heard access with none in progress is carried out and its result kept, and the bus answers and keeps its address. -/
theorem managementBusAccessesRegisters : Obligations.ManagementBusAccessesRegisters := by
  intro s rom
  refine ⟨fun off v pec heard idle => ?_, fun off v deaf => ?_, ?_, fun a smbus => ?_, ?_, fun smbus pending => ?_⟩
  · refine ⟨fun permitted => runs_mgmtWrite heard idle (if_pos permitted), fun other =>
      runs_mgmtWrite heard idle (if_neg (by rw [other]; exact Bool.false_ne_true)), fun readable => ?_, fun other =>
      runs_mgmtRead heard idle (if_neg (by rw [other]; exact Bool.false_ne_true))⟩
    obtain ⟨limit, bytes⟩ := s.mgmtRead_spec off
    exact ⟨_, runs_mgmtRead heard idle (if_pos readable), rfl, limit, rfl, bytes, fun _ _ _ => rfl⟩
  · have silent : ¬ s.mgmtHeard false = true := by rw [deaf]; exact Bool.false_ne_true
    exact ⟨congrArg Host.Outcome.next (if_neg silent), congrArg Host.Outcome.next (if_neg silent)⟩
  · obtain ⟨sent, units⟩ := s.mgmtResult_units
    refine ⟨s.mgmtResult, _, congrArg Host.Outcome.next (if_pos rom), sent, Mgmt.length_answer _, fun idle => ?_, units⟩
    rw [State.mgmtSettle_idle idle, Mgmt.answer_idle idle]
  · exact congrArg Host.Outcome.next (if_pos (by rw [rom, smbus]; rfl))
  · exact congrArg Host.Outcome.next (if_pos rom)
  · exact ⟨_, _, congrArg Host.Outcome.next (if_pos (by rw [rom, smbus, pending]; rfl)), rfl,
      alertByte (0x48 + s.mgmt.strap) (Config.freeNat s.free 0 % 2) (Nat.mod_lt _ (by decide))⟩

end

