-- ==== Sys2Proof/Proofs/PowerLimits.lean ====
section
/-!
PROOFS. THROTTLE_N, the caps and the budgets (R480, R481, R491, R492).
-/

set_option Elab.async false

namespace Sys2Proof.Machine

open Sys2Proof

/-! ## THROTTLE_N -/

theorem State.flag_eq (s : State) (f : Fld) (i : Nat) : s.flag f i = (s.fld f i == 1) := rfl

theorem State.flag_of_fld {s : State} {f : Fld} {i : Nat} {b : Bool} (h : s.fld f i = b2n b) : s.flag f i = b := by
  rw [State.flag_eq, h]
  cases b <;> rfl

/-- A level honoured shows in THROTTLE, the inactive one clears STUCK, and the hold begins (R491). -/
theorem State.honourThrottle_spec (s : State) :
    s.honourThrottle.flag F.pwrStat_THROTTLE 0 = s.board.throttle ∧ s.honourThrottle.board = { s.board with throttleHold := true } ∧
      (s.board.throttle = false → s.honourThrottle.flag F.pwrStat_STUCK 0 = false) ∧ s.honourThrottle.mem = s.mem := by
  have level (u : State) : (u.setFld F.pwrStat_THROTTLE 0 (b2n s.board.throttle)).flag F.pwrStat_THROTTLE 0 = s.board.throttle :=
    State.flag_of_fld (State.fld_setFld_level u (f := F.pwrStat_THROTTLE) rfl (by cases s.board.throttle <;> decide))
  unfold State.honourThrottle
  dsimp only
  generalize held : State.setFld _ F.pwrStat_THROTTLE 0 _ = u
  have shown : u.flag F.pwrStat_THROTTLE 0 = s.board.throttle := held ▸ level _
  have board : u.board = { s.board with throttleHold := true } := held ▸ rfl
  have mem : u.mem = s.mem := held ▸ rfl
  by_cases on : s.board.throttle = true
  · rw [if_pos on]
    exact ⟨shown, board, fun off => Bool.noConfusion (on.symm.trans off), mem⟩
  · rw [if_neg on]
    have regs := State.settleAlert_regs (u.setFld F.pwrStat_STUCK 0 0)
    have settled : (u.setFld F.pwrStat_STUCK 0 0).settleAlert.board = u.board ∧ (u.setFld F.pwrStat_STUCK 0 0).settleAlert.mem = u.mem := by
      unfold State.settleAlert
      split <;> exact ⟨rfl, rfl⟩
    refine ⟨?_, settled.1.trans board, fun _ => ?_, settled.2.trans mem⟩
    · exact (State.flag_of_regs regs ..).trans ((State.flag_setFld_other u F.pwrStat_STUCK F.pwrStat_THROTTLE 0 0 0 rfl).trans shown)
    · exact (State.flag_of_regs regs ..).trans
        (State.flag_of_fld (b := false) (State.fld_setFld_level u (f := F.pwrStat_STUCK) rfl (by decide)))

/-- A condition of ALERT_N asserts it and changes no register and none of the command processor. -/
theorem State.raiseAlert_spec (s : State) : s.raiseAlert.regs = s.regs ∧ s.raiseAlert.sage.alert = true ∧ s.raiseAlert.cp = s.cp := by
  unfold State.raiseAlert
  split
  · next already => exact ⟨rfl, already, rfl⟩
  · dsimp only
    split <;> exact ⟨rfl, rfl, rfl⟩

/-- STUCK with its alert and its record (R492). -/
theorem State.stuck_spec (s : State) :
    let t := ((s.setFld F.pwrStat_STUCK 0 1).raiseAlert).event evThrottle St.throttleStuck none 0 0
    t.flag F.pwrStat_STUCK 0 = true ∧ t.sage.alert = true ∧ t.cp.evSeq = (s.cp.evSeq + 1) % 2 ^ 32 := by
  have stuck := State.fld_setFld_level s (f := F.pwrStat_STUCK) (i := 0) (v := 1) rfl (by decide)
  have same : (s.setFld F.pwrStat_STUCK 0 1).cp = s.cp := rfl
  obtain ⟨regs, alert, cp⟩ := (s.setFld F.pwrStat_STUCK 0 1).raiseAlert_spec
  have shown := (State.fld_of_regs regs F.pwrStat_STUCK 0).trans stuck
  have seq := cp.trans same
  generalize (s.setFld F.pwrStat_STUCK 0 1).raiseAlert = u at alert shown seq ⊢
  have posted := u.event_onlyEvents evThrottle St.throttleStuck none 0 0
  have plain : ¬ EventReg .pwrStat := by rintro (e | e | e) <;> cases e
  refine ⟨State.flag_of_fld (b := true) ((posted.fld_of (f := F.pwrStat_STUCK) plain not_false).trans shown),
    (congrArg Sage.alert (u.event_sagePending ..).1).trans alert, (State.event_evSeq ..).trans ?_⟩
  rw [seq]

/-! ## Caps and budgets -/

/-- The two caps of a written word are taken while LOCK is 0. -/
theorem getLsbD_plainWrite_pwrCap (old v : Word) {k : Nat} (hk : k < 28) : (plainWrite .pwrCap false old v).getLsbD k = v.getLsbD k := by
  have masks : ∀ k < 28, RegName.pwrCap.rwMask.getLsbD k = false ∧ RegName.pwrCap.w1cMask.getLsbD k = false ∧
      RegName.pwrCap.rwlMask.getLsbD k = true := by decide
  obtain ⟨rw_, w1c, rwl⟩ := masks k hk
  simp only [plainWrite, Bool.false_eq_true, if_false, BitVec.getLsbD_and, BitVec.getLsbD_or, BitVec.getLsbD_not, rw_, w1c, rwl]
  simp [Nat.lt_trans hk (show 28 < 32 by decide)]

theorem State.fld_pwrCap_write (s : State) (v : Word) {f : Fld} (named : f.reg = .pwrCap) (inside : f.lo + f.width ≤ 28) :
    (s.setReg .pwrCap 0 (plainWrite .pwrCap false (s.reg .pwrCap 0) v)).fld f 0 = bits v.toNat f.lo f.width := by
  rw [State.fld, named, State.reg_setReg_same]
  exact bits_congr fun k lo hi => getLsbD_plainWrite_pwrCap _ _ (by omega)

theorem bits_low16 (n : Nat) : bits n 0 16 = n % 65536 := by
  simp [bits]

end Sys2Proof.Machine

open Sys2Proof Sys2Proof.Machine

/-- Settles O50: THROTTLE_N is honoured outside its hold, and caps and budgets are taken within their limits alone. -/
theorem throttleAndPowerLimitsAreHonoured : Obligations.ThrottleAndPowerLimitsAreHonoured := by
  refine ⟨fun s on => ⟨fun free other => ?_, fun held => ?_⟩, fun s held => ?_, fun s active fresh => ?_, fun s who v permits => ?_,
    fun s who n v account permits => ?_⟩
  · obtain ⟨shown, board, clear, mem⟩ := State.honourThrottle_spec { s with board := { s.board with throttle := on } }
    have honoured : s.throttleLevel on = State.honourThrottle { s with board := { s.board with throttle := on } } :=
      if_neg (by rw [free, Bool.false_or, beq_iff_eq]; exact other)
    exact ⟨_, congrArg Host.Outcome.next honoured, shown, congrArg Board.throttleHold board, congrArg Board.throttle board, clear,
      .of_mem mem⟩
  · exact congrArg Host.Outcome.next (if_pos (by rw [held]; rfl))
  · obtain ⟨shown, -, -, mem⟩ := State.honourThrottle_spec { s with board := { s.board with throttleHold := false } }
    have runs {t : State} (acts : State.throttleLevel { s with board := { s.board with throttleHold := false } } s.board.throttle = t) :
        Runs .throttleHoldEnd s t := congrArg Host.Outcome.next ((if_pos held).trans acts)
    by_cases same : s.flag F.pwrStat_THROTTLE 0 = s.board.throttle
    · exact ⟨{ s with board := { s.board with throttleHold := false } }, runs (if_pos (beq_iff_eq.2 same)), same, .of_mem rfl, fun _ => rfl⟩
    · exact ⟨_, runs (if_neg fun e => same (beq_iff_eq.1 e)), shown, .of_mem mem, fun e => absurd e same⟩
  · exact ⟨_, congrArg Host.Outcome.next (if_pos (by rw [active, fresh]; rfl)), s.stuck_spec⟩
  · intro win fast good
    have runs {t : State} (acts : s.writePwrCap v = t) : Runs (.pwrCapWrite who v) s t :=
      (congrArg Host.Outcome.next (State.gated_permitted permits) : exec (.pwrCapWrite who v) s = _).trans (congrArg Host.Outcome.next acts)
    have unlocked (open_ : s.flag F.pwrCap_LOCK 0 = false) : ¬ s.flag F.pwrCap_LOCK 0 = true := by rw [open_]; exact Bool.false_ne_true
    refine ⟨fun locked => runs (if_pos locked), fun open_ limits => ?_, fun open_ limits => ?_⟩
    · obtain ⟨winLow, winHigh, fastLow, fastHigh⟩ := limits
      have inside : ¬ (27500 < win ∨ 2900 < fast ∨ win < 17000 ∨ fast < 1700) := by omega
      exact ⟨_, runs ((if_neg (unlocked open_)).trans (if_neg inside)), OnlyRegs.setReg .., s.fld_pwrCap_write v (f := F.pwrCap_WINCAP) rfl (by decide),
        s.fld_pwrCap_write v (f := F.pwrCap_FASTCAP) rfl (by decide)⟩
    · have outside : 27500 < win ∨ 2900 < fast ∨ win < 17000 ∨ fast < 1700 := by
        by_contra none_
        exact limits (by omega)
      exact ⟨_, runs ((if_neg (unlocked open_)).trans (if_pos outside)), s.writeIgnored_onlyEvents .., s.writeIgnored_evSeq ..⟩
  · intro x sum
    have runs {t : State} (acts : s.writeBudget n v = t) : Runs (.pwrBudgetWrite who n v) s t :=
      (runs_permitted (decide_eq_true account) permits : exec (.pwrBudgetWrite who n v) s = _).trans (congrArg Host.Outcome.next acts)
    have small : x < 65536 := Nat.mod_lt _ (by decide)
    have write : s.writeBudget n v = if n = 8
        then (if decide (s.fld F.pwrCap_WINCAP 0 < sum) then s.writeIgnored .pwrReserve 0 none v else s.setFld F.pwrReserve_BUDGET 0 x)
        else if decide (s.fld F.pwrCap_WINCAP 0 < sum) then s.writeIgnored .pwrBudget n (some n) v else s.setFld F.pwrBudget_BUDGET n x := by
      unfold State.writeBudget
      rw [bits_low16]
    by_cases reserve : n = 8
    · rw [if_pos reserve] at write
      refine ⟨fun fits => ?_, fun over_ => ?_⟩
      · refine ⟨_, runs (write.trans (if_neg (by rw [decide_eq_true_eq]; omega))), ?_, ?_⟩
        · rw [if_pos reserve]
          exact State.fld_setFld_level s (f := F.pwrReserve_BUDGET) rfl small
        · simp only [if_pos reserve]
          exact OnlyRegs.of_setFld (f := F.pwrReserve_BUDGET) ⟨rfl, rfl⟩ s x
      · exact ⟨_, runs (write.trans (if_pos (decide_eq_true over_))), s.writeIgnored_onlyEvents .., s.writeIgnored_evSeq ..⟩
    · rw [if_neg reserve] at write
      refine ⟨fun fits => ?_, fun over_ => ?_⟩
      · refine ⟨_, runs (write.trans (if_neg (by rw [decide_eq_true_eq]; omega))), ?_, ?_⟩
        · rw [if_neg reserve]
          exact State.fld_setFld_level s (f := F.pwrBudget_BUDGET) rfl small
        · simp only [if_neg reserve]
          exact OnlyRegs.of_setFld (f := F.pwrBudget_BUDGET) ⟨rfl, rfl⟩ s x
      · exact ⟨_, runs (write.trans (if_pos (decide_eq_true over_))), s.writeIgnored_onlyEvents .., s.writeIgnored_evSeq ..⟩

end
